-- ==== Sys2Proof/Word.lean ====
section
/-!
DEFINITION. The word types of the model: bytes, sparse tables, and the shape of a register field (R14, R15, R17).
-/
namespace Sys2Proof

/-- A byte. -/
abbrev Byte := BitVec 8

/-- A sparse table: key and value pairs, keys strictly rising, no entry equal to the table's default. -/
abbrev Tab (α : Type) := List (Nat × α)

namespace Machine

/-- The access types of R15. -/
inductive Access where
  | rw | ro | wo | w1c | rc | lock
deriving DecidableEq, Repr

/-- A register field: its address in the window, its lowest bit, its width, its cold value, its access type, and
its warm value, or nothing where a warm reset keeps it (R17). -/
structure Fld where
  addr : Nat
  lsb : Nat
  width : Nat
  cold : Nat
  acc : Access
  warm : Option Nat
deriving DecidableEq, Repr

/-- The field with the given parts. -/
def fld (addr lsb width cold : Nat) (acc : Access) (warm : Option Nat) : Fld :=
  { addr := addr, lsb := lsb, width := width, cold := cold, acc := acc, warm := warm }

/-- The one key of a field in the register store. LOCK fields (R567) have keys of their own. -/
def Fld.key (f : Fld) : Nat := (f.addr * 32 + f.lsb) * 2 + if f.acc = .lock then 1 else 0

end Machine
end Sys2Proof
end

