-- ==== Sys2Proof/Syntax.lean ====
section
/-!
DEFINITION. The commands of the complex: one constructor for each row of the table of operations and events, and
the operands they carry. What a command finds out outside the complex (the bytes a die answers, the result of a
decoder run, the reading of the diode) is an operand of the command that brings it.
-/
namespace Sys2Proof

/-- A 32-bit value on the register port. -/
abbrev W32 := BitVec 32

/-- A command tag (R39). -/
abbrev Tag := Fin 4096

/-- Who makes a register access: the register port, Holly's internal port (R499), or a client port's Llynesh
register write (R96). -/
inductive Master where
  | port
  | holly
  | client (p : Fin 4)
deriving DecidableEq, Repr

/-- The kinds of hardware FIFO (R104, R108). -/
inductive FifoKind where
  | lunq | event | csf | dmaq | inbox
deriving DecidableEq, Repr

/-- The identity of a map page: level (0 leaf, 1 directory, 2 root table page), LFA region and page number
(R149). -/
structure PageKey where
  level : Fin 3
  region : Fin 64
  page : Nat
deriving DecidableEq, Repr

/-- A slot that a write point of policy firmware hands out: the PFA, and the mask of the planes that the write
point spans (R158, R180, R498). -/
structure Slot where
  pfa : Nat
  planes : Nat
deriving DecidableEq, Repr

/-- What the balls of a channel bring to a microword: the bytes it takes from the bus, whether the number of strobe
edges matched, whether the drift monitor found the eye edge near, and whether the data preamble came in time (R212,
R272, R273); the levels of FCn_RB_N[3:0] and FCn_ENI as the synchroniser shows them, two cycles old (R214). -/
structure BusIn where
  bytes : List Byte
  edgesOk : Bool
  drift : Bool
  preamble : Bool
  rb : Fin 16
  eni : Bool
deriving DecidableEq, Repr

/-- The end of a TRAIN slice: the eye the slice measured in taps, the delays it found for its target, and whether
the work of its kind is complete (R264, R265). -/
structure SliceRes where
  complete : Bool
  rdEye : Nat
  wrEye : Nat
  delays : List Nat
deriving DecidableEq, Repr

/-- The end of a decoder run on the codeword of a flight: whether it converged, its iterations, the unsatisfied checks
left, and the 4,128 scrambled frame bytes it gave (R296, R300). -/
structure DecodeRes where
  flight : Nat
  conv : Bool
  iters : Nat
  unsat : Nat
  frame : List Byte
deriving DecidableEq, Repr

/-- An activity that policy firmware raises on its own (R193): a ZQCAL of a channel, or a PATROL of a block group. -/
inductive PolicyAsk where
  | zqcal (ch : Fin 8)
  | patrol (group : Nat)
deriving DecidableEq, Repr

/-- The end of a DMA transfer: the data of the source where the DRAM port supplies it, the 8-byte units moved, and
whether the DRAM port answered with an error (R397, R407). -/
structure DmaEnd where
  moved : Nat
  dram : List Byte
  dramErr : Bool
deriving DecidableEq, Repr

/-- The end of one hold-up band pass on a channel: whether it passed status, the planes' pages it wrote and how
many frames, and the band PFA of each (R446, R447). -/
structure BandRes where
  ch : Fin 8
  pass : Bool
  pfas : List Nat
deriving DecidableEq, Repr

/-- The levels at the end of a cold reset: whether the block reset pin caused it, the straps, FC_PWRGD and
FC_HOLDUP_WARN_N (R537, R541). -/
structure ColdIn where
  byPin : Bool
  straps : Fin 8
  pwrgd : Fin 16
  warnLow : Bool
deriving DecidableEq, Repr

/-- A target that discovery found: its number, its six ID bytes, its signatures, and where a parameter page copy
matched its CRC, the geometry (PAGE_DATA, SPARE, PAGES, BLOCKS, PLANES, BPC, LUNS), that CRC, and whether it
declares 1.2 V and a supported mode (R245, R255, R457). -/
structure Found where
  target : Fin 8
  id : List Byte
  onfi : Bool
  jedec : Bool
  param : Option (List Nat × Nat × Bool)
deriving DecidableEq, Repr

/-- What discovery of a channel found: the targets present, and whether a chain was still low after volume 7
(R457, R459). -/
structure DiscRes where
  found : List Found
  chainOpen : Bool
deriving DecidableEq, Repr

/-- One torn group (R522, R523): the PFA of its first page, the passes completed if a PASS record names it, the
passes of the profile, and the codewords that failed. -/
structure Torn where
  pfa : Nat
  passes : Option Nat
  of : Nat
  source : Nat
  failed : Nat
deriving DecidableEq, Repr

/-- The result of the bring-up scan (R522). -/
structure TornRes where
  list : List Torn
deriving DecidableEq, Repr

/-- A frame that policy firmware finds at bring-up in the open write points or the hold-up band, by its metadata (R128,
R282): its place and class, whether it is a quarter of a map page, its region, its LFA or page number, its sequence
number, its place in an atomic group, its level and quarter, and whether it decodes. -/
structure Replayed where
  pfa : Nat
  cclass : Nat
  isMap : Bool
  region : Nat
  name : Nat
  seq : Nat
  group : Nat
  gpos : Nat
  glen : Nat
  level : Nat
  quarter : Nat
  ok : Bool
deriving DecidableEq, Repr

/-- What policy firmware restores the map from (R454, R520): the bytes of the root-table pages that the checkpoint
names, and, where the journal asks for a replay, the frames it finds. -/
structure MapRestore where
  root : List (List Byte)
  found : List Replayed
deriving DecidableEq, Repr

/-- The commands. -/
inductive Instr where
  /-- R15: A register-port or Holly write to a register that has no row of its own sets its RW fields, clears W1C bits and sets LOCK fields on the first write. -/
  | registerWrite (m : Master) (addr width : Nat) (v : W32)
  /-- R96: A doorbell write with SQ_V set moves the SQ tail so that packets up to it become visible, or it is rejected and sets DB_ERR. -/
  | queDoorbellSqtail (m : Master) (k : Fin 64) (v : W32)
  /-- R95: A doorbell write with CQ_V set moves the CQ head and frees consumed completion entries, or it is rejected under R97. -/
  | queDoorbellCqhead (m : Master) (k : Fin 64) (v : W32)
  /-- R102: A write that sets PL_QUEk_CFG.ENABLE enables the pair with the settings written, or refuses them and sets CFG_ERR. -/
  | queEnable (m : Master) (k : Fin 64) (v : W32)
  /-- R101: A write that clears ENABLE stops fetching from the SQ at once while outstanding commands run on. -/
  | queDisable (m : Master) (k : Fin 64) (v : W32)
  /-- R100: The packet engine fetches the next packet from an eligible SQ in rotation, claims a CQ entry and runs checks 1 to 5. -/
  | packetFetch
  /-- R66: A READ packet translates and reads LENGTH frames and delivers them as STREAM, KEEP or INTO. -/
  | read (tag : Tag)
  /-- R68: A READ_RAW packet streams whole codewords at a chosen read-level offset with no decode. -/
  | readRaw (tag : Tag)
  /-- R69: A PROGRAM packet takes over the named buffers, counts the frames against the dirty quota and assigns them write-point slots. -/
  | program (tag : Tag) (slots : List Slot)
  /-- R123: A PROGRAM_ATOMIC packet accepts an atomic group of 1 to 64 frames in one step. -/
  | programAtomic (tag : Tag) (slots : List Slot)
  /-- R73: An ERASE packet queues the erase of LENGTH blocks on consecutive planes of one LUN. -/
  | erase (tag : Tag)
  /-- R74: A COPY packet reads frames and re-encodes them at a destination, with conditional map updates under R163. -/
  | copy (tag : Tag) (slots : List Slot)
  /-- R75: A TRIM packet unmaps LENGTH frames in the cached map. -/
  | trim (tag : Tag)
  /-- R120: A FLUSH packet waits until every covered write is persistent and, with MAP set, until its map pages are programmed. -/
  | flush (tag : Tag)
  /-- R77: A BUF_ALLOC packet requests LENGTH buffers in WAIT or TRY flavour. -/
  | bufAlloc (tag : Tag)
  /-- R78: A BUF_SHARE packet adds a named owner to each of LENGTH buffers. -/
  | bufShare (tag : Tag)
  /-- R79: A BUF_FREE packet removes the submitter's name from each handle, treating each handle alone. -/
  | bufFree (tag : Tag)
  /-- R80: A DMA_MOVE packet selects a DMA channel and writes a descriptor into its queue. -/
  | dmaMove (tag : Tag)
  /-- R81: A MAP_PIN packet loads and pins the leaf pages that cover a range, or unpins them, within the pin quota. -/
  | mapPin (tag : Tag)
  /-- R82: A MAP_SYNC packet writes back the dirty map pages that cover a range, or every dirty page and the root table. -/
  | mapSync (tag : Tag)
  /-- R366: A MAINT packet of kind SCRUB_STORE walks one store region and rewrites corrected words under its lease. -/
  | scrubStore (tag : Tag)
  /-- R337: A MAINT packet of kind PATROL reads sampled pages of a block group through the ladder and updates health. -/
  | patrol (tag : Tag)
  /-- R264: A MAINT packet of kind TRAIN requests training of a channel in slices under its channel lease. -/
  | train (tag : Tag)
  /-- R328: A MAINT packet of kind CALIB measures the candidate level sets of a block group. -/
  | calib (tag : Tag)
  /-- R263: A MAINT packet of kind ZQCAL runs ZQ_SHORT on each bound target of a channel in slices. -/
  | zqcal (tag : Tag)
  /-- R367: A MAINT packet of kind SELFTEST_STORE runs March C- over an unallocated store region. -/
  | selftestStore (tag : Tag)
  /-- R277: A MAINT packet of kind SELFTEST_CHANNEL runs the PHY loopback pattern test. -/
  | selftestChannel (tag : Tag)
  /-- R442: A POWER packet with PARAM 0x00 switches CCLK and the core supply to economy or to nominal. -/
  | powerActive (tag : Tag)
  /-- R436: A POWER packet with PARAM 0x02 stops maintenance and waits to become quiescent before NAP entry. -/
  | powerNap (tag : Tag)
  /-- R439: A POWER packet with PARAM 0x03 flushes, checkpoints and journals before DORMANT entry. -/
  | powerDormant (tag : Tag)
  /-- R130: An ABORT looks up its target tag in the next cycle and removes it, or answers ABORT_TOO_LATE or ABORT_NOT_FOUND. -/
  | abort (tag : Tag)
  /-- R87: An ATTACH packet gives a client port its tag range and Coppice reserve. -/
  | attach (tag : Tag)
  /-- R88: A DETACH packet detaches a port, optionally removing its uncommitted commands, once no tag is outstanding. -/
  | detach (tag : Tag)
  /-- R89: A DISCOVER packet requests rediscovery of the complex, a channel or a flash power domain. -/
  | discover (tag : Tag)
  /-- R90: A SET_POLICY packet writes a policy parameter and, with PERSIST, stores it in Yew. -/
  | setPolicy (tag : Tag)
  /-- R572: GET_INFO page 0x00 writes the identity, revision and image-version page into the Hedgerow. -/
  | getInfoIdentity (tag : Tag)
  /-- R464: GET_INFO page 0x01 writes the die inventory page. -/
  | getInfoInventory (tag : Tag)
  /-- R523: GET_INFO page 0x02 writes the TORN list. -/
  | getInfoTorn (tag : Tag)
  /-- R336: GET_INFO page 0x03 writes the health summary of up to 255 block groups. -/
  | getInfoHealth (tag : Tag)
  /-- R430: GET_INFO page 0x04 writes the energy and byte accumulators. -/
  | getInfoEnergy (tag : Tag)
  /-- R506: GET_INFO page 0x05 writes the policy parameter table. -/
  | getInfoPolicy (tag : Tag)
  /-- R474: GET_INFO page 0x06 writes the parked and dropped completion counts per port and clears the drop counts. -/
  | getInfoParked (tag : Tag)
  /-- R508: ACTIVATE with PARAM 0x00 checks a Holly slot, holds fetching and drains the old image before the switch. -/
  | activateHolly (tag : Tag)
  /-- R249: ACTIVATE with PARAM 0x01 check-passes an Espalier slot, drains the sequencers and load-passes the image. -/
  | activateEspalier (tag : Tag)
  /-- R103: The staging FIFO grants a waiting record write, which is the command's commit point and takes TSTAMP. -/
  | completionRequestGrant
  /-- R103: A record leaves the staging FIFO and lands in its CQ, which frees its tag. -/
  | completionRecordWrite
  /-- R107: A mismatch of duplicated FIFO pointers resets that FIFO, completes affected commands with INTERNAL and logs it. -/
  | fifoPointerMismatch (kind : FifoKind) (inst : Nat)
  /-- R155: A map-page read completes, the page becomes resident and the chained lookups resume in entry order. -/
  | mapPageReadDone (key : PageKey)
  /-- R150: The 512-cycle zero fill of a never-written child page ends, and the page is resident and clean. -/
  | mapPageZeroFillDone (key : PageKey)
  /-- R157: Policy firmware installs a rebuilt BROKEN page as resident and dirty, and the waiting updates apply. -/
  | mapPageInstall (key : PageKey) (data : List Byte)
  /-- R159: The walker starts a map-page write-back on eviction, sync, hold-up or background dirty level, once R160 allows. -/
  | mapWritebackStart (key : PageKey) (slot : Slot)
  /-- R162: A map-page program passes, the page is clean unless redirtied, and its parent entry is updated. -/
  | mapWritebackDone (key : PageKey)
  /-- R145: A write to PL_MAP_RGN_LOAD loads, retires or refuses one region's table entry. -/
  | mapRegionLoad (m : Master) (v : W32)
  /-- R167: A register-port write of 1 to MAP_CTL.ENABLE is checked and sets REQ or CFG_ERR. -/
  | mapEnableRequest (v : W32)
  /-- R167: A Holly write of 1 while REQ is 1 sets ENABLE and clears REQ. -/
  | mapEnableSet (v : W32) (r : MapRestore)
  /-- R172: Topiary chooses the next eligible operation of a LUN by class, deadline and entry order, and asks Boxwood for tokens. -/
  | opStart (lun : Fin 256)
  /-- R417: Boxwood evaluates a waiting token request against budget, cap, THRIFT, forecast and reservation, and counts granted tokens. -/
  | tokenEvaluate
  /-- R184: Eight cycles after evaluation, the grant queues the operation's first segment, or the refusal leaves it eligible. -/
  | tokenAnswer (op : Nat)
  /-- R178: A LUN in an array phase becomes due for a status poll on ready/busy rise, typical time or the POLL interval. -/
  | statusPollDue (lun : Fin 256)
  /-- R180: The gathering bound of a page set expires, the pass becomes eligible and missing codewords are padded. -/
  | gatherTimeout (set : Nat)
  /-- R173: A WRITE entry that has waited AGE.WRITE takes effective class READ. -/
  | writeAgeExpiry (op : Nat)
  /-- R173: A MAINT entry that has waited AGE.MAINT takes effective class READ. -/
  | maintAgeExpiry (op : Nat)
  /-- R177: A segment that has waited BUS_AGE cycles joins the URGENT tier. -/
  | busAgeExpiry (ch : Fin 8) (op : Nat)
  /-- R185: An operation refused for TOKEN_AGE becomes the reserved operation of its rail. -/
  | tokenAgeExpiry (op : Nat)
  /-- R186: When every suspend condition holds, Topiary queues the profile's suspend routine at the URGENT tier. -/
  | suspendStart (lun : Fin 256)
  /-- R188: Topiary resumes a suspended operation after READS entries are served, or when no read waits. -/
  | resumeDue (lun : Fin 256)
  /-- R188: An operation suspended for WINDOW microseconds becomes due for resume. -/
  | suspendWindowExpiry (lun : Fin 256)
  /-- R190: An array-phase watchdog expires, RESET LUN is issued, the outcome is DIE_TIMEOUT and a record is written. -/
  | arrayWatchdogExpiry (lun : Fin 256)
  /-- R195: A free lease goes to the waiting request of highest precedence, and its activity starts. -/
  | leaseGrant (asked : List PolicyAsk)
  /-- R468: Retirement takes effect when the LUN has no array phase or lease, failing its queue with DIE_ABSENT. -/
  | lunRetirementEffect (lun : Fin 256)
  /-- R210: Micro-op NOP does nothing for one cycle. -/
  | nop (ch : Fin 8)
  /-- R204: Micro-op END releases the bus lines, posts the end code and W0, and ends the segment. -/
  | endOp (ch : Fin 8)
  /-- R210: Micro-op TRAP raises fault TRAP with its code. -/
  | trap (ch : Fin 8)
  /-- R210: Micro-op SETIM sets the interrupt mask. -/
  | setim (ch : Fin 8)
  /-- R210: Micro-op CE asserts one chip enable or releases all. -/
  | ce (ch : Fin 8)
  /-- R210: Micro-op CMD drives one command cycle with CLE. -/
  | cmd (ch : Fin 8)
  /-- R210: Micro-op ADDR drives address cycles from the AAR bytes. -/
  | addr (ch : Fin 8)
  /-- R210: Micro-op LDA loads two AAR bytes from a work register. -/
  | lda (ch : Fin 8)
  /-- R210: Micro-op WAIT waits a cycle count or a profile timing slot. -/
  | wait (ch : Fin 8)
  /-- R212: Micro-op BURST moves up to 4,800 data bytes between the bus and the channel data path. -/
  | burst (ch : Fin 8) (inp : BusIn)
  /-- R210: Micro-op RDB reads 1 to 4 bytes into work registers and optionally into S. -/
  | rdb (ch : Fin 8) (inp : BusIn)
  /-- R210: Micro-op WRB writes 1 to 4 parameter bytes. -/
  | wrb (ch : Fin 8)
  /-- R210: Micro-op PIN drives FCn_WP_N and FCn_ENO. -/
  | pin (ch : Fin 8)
  /-- R210: Micro-op POST posts a code and a register to the channel event FIFO without ending the segment. -/
  | post (ch : Fin 8)
  /-- R210: Micro-op BR branches when its condition holds. -/
  | br (ch : Fin 8) (inp : BusIn)
  /-- R210: Micro-op CALL pushes the return address and IM and branches when its condition holds. -/
  | call (ch : Fin 8) (inp : BusIn)
  /-- R210: Micro-op RET pops UPC and IM when its condition holds. -/
  | ret (ch : Fin 8) (inp : BusIn)
  /-- R210: Micro-op DJNZ decrements a register, sets the flags and branches while it is nonzero. -/
  | djnz (ch : Fin 8)
  /-- R210: Micro-op LDI loads an immediate into a work register. -/
  | ldi (ch : Fin 8)
  /-- R211: Micro-op ALU applies ADD, SUB, AND, OR, XOR, SHL, SHR or CMP and sets Z and NEG. -/
  | alu (ch : Fin 8)
  /-- R213: Micro-op MOVS copies a selected source into a work register. -/
  | movs (ch : Fin 8)
  /-- R220: A two-level microword issues its nanoword's OPA and OPB in one cycle, then evaluates the next address by KIND. -/
  | twolevelMicroword (ch : Fin 8) (inp : BusIn)
  /-- R231: A segment that runs longer than SEGWD.TIME raises fault SEG_TIME at the next boundary. -/
  | segmentWatchdogExpiry (ch : Fin 8)
  /-- R230: A write of 1 to PL_MCS_FAULTn.VALID clears the fault record and restarts a halted sequencer. -/
  | mcsFaultClear (m : Master) (ch : Fin 8) (v : W32)
  /-- R207: A write to PL_MCS_CTL.LOAD_EN opens the control store when every sequencer is idle, or sets LOAD_ERR. -/
  | mcsLoadEn (m : Master) (v : W32)
  /-- R206: A window write stores microwords into every channel copy while LOAD_EN is 1, or sets LOAD_ERR. -/
  | csWindowWrite (m : Master) (off : Nat) (v : W32)
  /-- R232: A write to PL_MCS_NANO_ADDR loads DATA0 to DATA2 from the addressed nanoword. -/
  | nanoAddrWrite (m : Master) (v : W32)
  /-- R232: A write to NANO_DATA2 while LOAD_EN is 1 commits the nanoword to every channel copy. -/
  | nanoCommit (m : Master) (v : W32)
  /-- R248: A load pass ends, setting VERSION, DIGEST, FORMAT and VALID and clearing LOAD_EN, or reporting a failure. -/
  | espalierLoadDone
  /-- R273: A loss of PHY or delay-line lock raises CHERR and lowers the channel level. -/
  | cherrDllUnlock (ch : Fin 8)
  /-- R273: A fall of FC_PWRGD while its domain is enabled cuts both channels' segments and drops them to ABSENT. -/
  | pwrLoss (dom : Fin 4)
  /-- R258: A PHY relock completes after 6 microseconds, and held segments resume at the new bin or mode. -/
  | phyRelockDone (ch : Fin 8)
  /-- R262: A wing's calibration engine recalibrates driver and termination codes every 100 ms or on a 5 degree move. -/
  | phyZqCalibration (wing : Fin 2)
  /-- R264: The next training slice starts at once, or GAP after the previous slice when traffic waits. -/
  | trainSliceStart (ch : Fin 8)
  /-- R266: A training slice ends, and after VERIFY the bin passes to FULL with a new stamp, or training tries a lower bin. -/
  | trainSliceEnd (ch : Fin 8) (r : SliceRes)
  /-- R263: One ZQCAL slice calibrates one target and reads its status. -/
  | zqcalSlice (ch : Fin 8) (failed : Bool)
  /-- R278: The loopback test ends, restores the operating point and reports RESULT. -/
  | selftestChannelDone (ch : Fin 8) (result : W32)
  /-- R518: A write of 1 to PL_CHn_CTL.RST cuts the segment, makes the channel ABSENT and fails its queued operations. -/
  | channelReset (m : Master) (ch : Fin 8)
  /-- R518: Once ready/busy is high or the erase watchdog has elapsed, RESET is issued to every target and the channel climbs again. -/
  | channelResetResume (ch : Fin 8)
  /-- R298: A hard decode ends, and the frame is checked for POISON, FCRC and identity or enters the retry ladder. -/
  | hardDecodeDone (ch : Fin 8) (r : DecodeRes)
  /-- R301: A wing sample buffer is reserved for a frame, and its three soft-read passes start. -/
  | softSampleReserve (wing : Fin 2)
  /-- R300: A soft decode ends, and the converged frame is checked, or the ladder moves to rebuild. -/
  | softDecodeDone (wing : Fin 2) (r : DecodeRes)
  /-- R306: A BUILD descriptor placed by policy firmware takes an XOR slot and accumulates the stripe's members. -/
  | xorBuild (wing : Fin 2) (desc : Nat)
  /-- R306: The parity frame's final pass passes status, or the BUILD ends failed. -/
  | buildDone (wing : Fin 2) (slot : Fin 4)
  /-- R307: Policy firmware answers a REBUILD with a descriptor, and member reads are held against erases and queued. -/
  | rebuildAnswer (wing : Fin 2) (slot : Fin 4) (desc : Option Nat)
  /-- R307: An answer not given within ANS_LIMIT counts as no stripe, and the REBUILD fails. -/
  | rebuildAnswerTimeout (wing : Fin 2) (slot : Fin 4)
  /-- R307: A stripe member arrives and is XORed, and after the last member the result is checked as a converged decode. -/
  | xorMemberArrive (wing : Fin 2) (slot : Fin 4) (entry : Nat)
  /-- R329: CALIB applies its winning candidate to the group's record and completes with RESULT. -/
  | calibDone (ch : Fin 8)
  /-- R337: PATROL ends with its RESULT and, if frames were lost, an UNRECOVERED record. -/
  | patrolDone (lun : Fin 256)
  /-- R338: The checkpoint period expires, and changed group-table sectors are written to Yew. -/
  | jnpCheckpointPeriod
  /-- R338: A write of 1 to PL_JNP_CKPT.NOW starts a checkpoint. -/
  | jnpCkptNow (m : Master) (v : W32)
  /-- R342: A GRP_CLR write with HEALTH clears the group's histograms and failure counts. -/
  | jnpGrpClrHealth (m : Master) (v : W32)
  /-- R342: A GRP_CLR write with WEAR clears the group's WEAR flag. -/
  | jnpGrpClrWear (m : Master) (v : W32)
  /-- R342: A GRP_CLR write with TRACK resets the tracked offsets and temperature range and raises TGEN. -/
  | jnpGrpClrTrack (m : Master) (v : W32)
  /-- R340: Setting PL_JNP_TABLE.ENABLE loads each sector of the group table from its newer clean Yew copy. -/
  | jnpTableEnable (m : Master) (v : W32)
  /-- R342: The epoch counter rises by one every 60,000,000 ACLK ticks. -/
  | epochTick
  /-- R357: A PL_HDG_RGNk write altering USE, CLASS or VT requests a region change and its lease, or refuses at once. -/
  | regionChangeRequest (m : Master) (k : Fin 32) (v : W32)
  /-- R359: Re-initialisation ends, the new setting takes effect, pool buffers are threaded in and the lease is released. -/
  | regionReinitDone (k : Fin 32)
  /-- R390: Coppice finishes walking the strands and unlinking a withdrawn region's buffers. -/
  | poolWithdrawDone (k : Fin 32)
  /-- R362: Gorse reads the next due line in a free bank cycle, at most one per RATE cycles. -/
  | gorseLineRead
  /-- R363: Gorse writes back a corrected line in the next free bank cycle, unless a requester wrote it first. -/
  | gorseRewrite
  /-- R366: SCRUB_STORE ends its walk and completes with rewrite and uncorrectable counts. -/
  | scrubStoreDone (k : Fin 32)
  /-- R368: The March test ends, the region is re-initialised and RESULT reports the first failing bit. -/
  | selftestStoreDone (k : Fin 32) (result : W32)
  /-- R379: Coppice grants the longest-waiting or next-in-rotation eligible request from the ready stage. -/
  | bufferGrant
  /-- R386: Coppice applies one free per cycle, removing a name and returning the buffer when no name or hold remains. -/
  | bufferFree (req : Fin 16) (handle : W32)
  /-- R375: Coppice pops a strand head into the ready stage while the stage holds fewer than 16 buffers. -/
  | poolPop
  /-- R389: A write of 1 to PL_COP_REBUILD.START empties the list and scans the state array to rebuild the strands. -/
  | poolRebuild (m : Master) (v : W32)
  /-- R389: The rebuild ends 8,200 cycles after START, and grants resume. -/
  | poolRebuildDone
  /-- R382: A write to PL_COP_RSVi.QUOTA sets a reserve, or is refused and sets RSV_ERR. -/
  | reserveWrite (m : Master) (i : Fin 16) (v : W32)
  /-- R394: A descriptor moves from the queue head into the empty shadow set. -/
  | dmaShadowLoad (n : Fin 16)
  /-- R394: The shadow transfer becomes active, claims a DCQ entry and waits for HIGH if paced. -/
  | dmaTransferStart (n : Fin 16)
  /-- R402: A port's report of a pace-queue level pauses or resumes paced transfers. -/
  | paceLevelReport (port : Fin 4) (q : Fin 4) (level : BitVec 12)
  /-- R401: A transfer writes its last beat and appended CRC word, or stops early, and requests its records. -/
  | dmaTransferEnd (n : Fin 16) (r : DmaEnd)
  /-- R405: After the packet record is granted, the DMA completion record is written to the wing's DCQ. -/
  | dmaRecordWrite (n : Fin 16)
  /-- R404: A write of PL_DMA_Ww_DCQ_DB moves the DCQ consumer head, or is rejected and sets DB_ERR. -/
  | dcqDoorbell (m : Master) (w : Fin 2) (v : W32)
  /-- R406: Setting DCQ_CFG.ENABLE makes later transfers claim entries, or refuses and sets CFG_ERR. -/
  | dcqEnable (m : Master) (w : Fin 2) (v : W32)
  /-- R406: Clearing DCQ_CFG.ENABLE stops new claims, and ENABLE reads 1 until claimed records are written. -/
  | dcqDisable (m : Master) (w : Fin 2) (v : W32)
  /-- R414: A write of PL_BOX_BUDGET sets the manager budget, clamped to the ceiling. -/
  | budgetWrite (m : Master) (v : W32)
  /-- R413: The first write of PL_BOX_CEIL after cold reset locks both rail ceilings. -/
  | ceilWrite (m : Master) (v : W32)
  /-- R420: A forecast word from a servo opens or cancels seek windows, or is dropped. -/
  | forecastWord (act : Fin 2) (w : W32)
  /-- R421: A forecast window begins and its cut lowers the live budget, setting FC_OVER if in-use exceeds it. -/
  | forecastWindowBegin (act : Fin 2)
  /-- R418: A forecast window ends, the live budget rises and refused operations ask again. -/
  | forecastWindowEnd (act : Fin 2)
  /-- R422: The sampling interval expires and a diode conversion starts. -/
  | diodeSampleTimer
  /-- R422: A conversion completes, and thermal states, stamps and sensor-failure checks are evaluated. -/
  | diodeConversionDone (r : Option Int)
  /-- R424: A write of PL_BOX_THRESH sets ascending thresholds, or is ignored and sets THERM_ERR. -/
  | threshWrite (m : Master) (v : W32)
  /-- R431: Every 64 ticks Boxwood counts the active channels and applies the stamp flag rules. -/
  | loadWindowClose
  /-- R433: After DELAY microseconds without work, CCLK is gated and the complex is IDLE. -/
  | idleEntry
  /-- R434: A doorbell, register access, hold-up pin or thermal entry ungates CCLK, and the event is served 2 microseconds later. -/
  | idleWake
  /-- R436: The complex becomes quiescent during a POWER entry, and entry proceeds to the record. -/
  | powerEntryQuiescent
  /-- R438: Entry not quiescent within ENTRY.LIMIT completes the POWER with SLEEP_DEFERRED. -/
  | powerEntryLimitExpiry
  /-- R437: A write of 1 to PL_PWR_CTL.WAKE wakes the complex from NAP or DORMANT. -/
  | pwrWakeWrite (m : Master)
  /-- R435: Relock and retention exit complete 25 microseconds after a NAP wake. -/
  | napWakeDone
  /-- R441: At a DORMANT wake the core supply is good, and the CCLK PLL starts. -/
  | coreSupplyGood
  /-- R441: CCLK locks, kept state is applied, flash domains are enabled, and the pool rebuild and Espalier load begin. -/
  | cclkLocked
  /-- R442: Running segments end during an economy switch, and the relock or voltage request is issued. -/
  | economySegmentsEnded
  /-- R549: The Kumal acknowledges a core voltage request. -/
  | voltageAck
  /-- R442: The CCLK relock of an economy switch completes, and the POWER completes. -/
  | cclkRelockDone
  /-- R443: A write that sets PL_PWR_DOM.EN[k] asserts FC_PWR_EN[k] and waits for power good. -/
  | pwrDomEnable (m : Master) (v : W32)
  /-- R443: A write that clears EN[k] holds the two channels, waits for array phases and then switches the domain off. -/
  | pwrDomDisable (m : Master) (v : W32)
  /-- R443: FC_PWRGD not rising within PG_TIMEOUT sets PG_FAIL and keeps the channels ABSENT. -/
  | pgTimeout (dom : Fin 4)
  /-- R466: A rise of FC_PWRGD[k] while enabled starts discovery of both channels of the domain. -/
  | pwrgdRise (dom : Fin 4)
  /-- R446: FC_HOLDUP_WARN_N held low for 2 ticks begins the hold-up sequence, stopping admission. -/
  | holdupWarnAssert
  /-- R446: Issued programs, erases and reads end, and the flush of dirty frames into the band begins. -/
  | holdupDrainDone
  /-- R446: A band pass passes status, its frames stop being dirty and their entries move to the band. -/
  | holdupBandPassDone (r : BandRes)
  /-- R446: The HOLDUP record and HOLDUP_CLEAN are programmed, and FC_HOLDUP_DONE is asserted. -/
  | holdupRecordsDone
  /-- R448: With the pin high after DONE, the complex deasserts DONE, restores BUDGET and resumes fetching. -/
  | holdupWarnDeassert
  /-- R451: Power-on or the block reset pin resets the complex, samples the straps and starts bring-up. -/
  | coldReset (r : ColdIn)
  /-- R512: A write of 1 to PL_GLB_CTL.WARM_RST requests a warm reset. -/
  | warmRst (m : Master)
  /-- R512: A Holly write of 1 to PL_HLY_CTL.WARM_REQ requests a warm reset. -/
  | warmReq
  /-- R513: A postponed warm reset takes effect, stopping work and removing unissued commands with ABORTED_BY_RESET. -/
  | warmResetBegin
  /-- R515: Issued operations end, PASS and WARM_RESET records are written, and state is reset. -/
  | warmResetDrainDone
  /-- R456: Discovery holds the channel lease, waits for array phases and chooses PLAIN or CHAIN enumeration. -/
  | discoveryStart (ch : Fin 8) (eni : Bool)
  /-- R462: Enumeration ends, the inventory is compared with Yew and the channel climbs from SDR. -/
  | discoveryEnd (ch : Fin 8) (r : DiscRes)
  /-- R522: The bring-up scan of open block sets ends, the TORN list is built and READY is set. -/
  | tornScanDone (r : TornRes)
  /-- R471: A port reported DOWN goes dark, and its completions are parked. -/
  | portLinkDown (port : Fin 4)
  /-- R472: A port reported UP writes its parked records to their CQs in park order. -/
  | portLinkUp (port : Fin 4)
  /-- R484: A write to PL_YEW_KEY advances or closes the unlock sequence. -/
  | yewKeyWrite (m : Master) (v : W32)
  /-- R484: A CMD write of PROGRAM within an open sequence selects a word program. -/
  | yewCmdProgram (m : Master) (v : W32)
  /-- R484: A CMD write of ERASE within an open sequence selects a sector erase. -/
  | yewCmdErase (m : Master) (v : W32)
  /-- R487: A CMD write of SUSPEND suspends the busy bank's operation. -/
  | yewCmdSuspend (m : Master) (v : W32)
  /-- R487: A CMD write of RESUME restarts a suspended bank's operation. -/
  | yewCmdResume (m : Master) (v : W32)
  /-- R485: A write to PL_YEW_ADDR checks the target, and starts an ERASE or rejects it. -/
  | yewAddrWrite (m : Master) (v : W32)
  /-- R484: A write to PL_YEW_DATA_LO supplies the low half of a program word. -/
  | yewDataLoWrite (m : Master) (v : W32)
  /-- R485: A write to PL_YEW_DATA_HI starts the PROGRAM, or rejects it as NOT_ERASED. -/
  | yewDataHiWrite (m : Master) (v : W32)
  /-- R484: A sequence step not written within its limit closes the sequence with error SEQ. -/
  | yewSequenceTimeout
  /-- R482: A read of PL_YEW_RDATA_LO reads the word at RADDR, latches the upper half, or faults on a busy bank. -/
  | yewRdataRead (m : Master)
  /-- R487: A suspend takes effect within 20 microseconds, and the bank becomes readable. -/
  | yewSuspendEffect (bank : Fin 2)
  /-- R486: A program pulse verifies and ends the program, or the program fails after 64 pulses. -/
  | yewProgramPulseDone (bank : Fin 2) (verified : Bool)
  /-- R486: An erase pulse blank-checks and ends the erase, or the erase fails after 20 pulses. -/
  | yewErasePulseDone (bank : Fin 2) (blank : Bool)
  /-- R507: A Holly write of KICK restarts the watchdog count. -/
  | hlyWdogKick
  /-- R507: The Holly watchdog expires, fails in-flight slow-path packets and restarts or halts Holly. -/
  | hlyWdogExpiry
  /-- R507: A write of 1 to PL_HLY_CTL.RESTART restarts a halted Holly. -/
  | hlyRestart (m : Master)
  /-- R508: The old image sets QUIESCED, and the activation switches the fetch bank. -/
  | hlyQuiesced
  /-- R508: The new image sets READY, the hold ends and the ACTIVATE completes OK. -/
  | hlyReady
  /-- R508: Drain exceeding ACT_LIMIT.DRAIN completes the ACTIVATE with ACTIVATE_TIMEOUT. -/
  | activateDrainTimeout
  /-- R508: READY not set within ACT_LIMIT.START reverts to the old slot and rejects with reason 0x0A. -/
  | activateStartTimeout
  /-- R529: The log takes the earliest buffered error record into the ring, or overwrites or loses it when full. -/
  | errorRecordAccept
  /-- R531: A write of 1 to PL_ERR_CTL.CLEAR empties the error ring. -/
  | errClear (m : Master) (v : W32)
  /-- R531: A write of PL_ERR_PTR.HEAD consumes records, unless it would pass TAIL. -/
  | errHeadWrite (m : Master) (v : W32)
  /-- R570: A read of PL_GLB_TIME_LO returns the low counter bits and latches the high bits into TIME_HI. -/
  | glbTimeLoRead (m : Master)
  /-- R574: The write that sets PL_DBG_LOCK.LOCKED locks the DBG block and clears ARM and COUNT. -/
  | dbgLock (m : Master) (v : W32)
  /-- R575: Setting INJ_CTL.ARM arms an error injection into the next write of the target word. -/
  | dbgInjArm (m : Master) (v : W32)
  /-- R576: A write of PL_DBG_FORCE sets the number of decodes on a channel to be failed. -/
  | dbgForceWrite (m : Master) (v : W32)
  /-- R433: Loss of the core or always-on supply cuts all work and puts the complex in OFF. -/
  | lossOfPower
  /-- R15: A register read of an RC field returns the field and clears it in the same access. -/
  | rcRegisterRead (m : Master) (addr width : Nat)
  /-- R283: A client port writes bytes into a pool buffer through Llynesh, computing DCRC on a whole-buffer write or invalidating it otherwise. -/
  | portBufferWrite (port : Fin 4) (addr : Nat) (data : List Byte)
  /-- R351: A client port reads the Hedgerow through Llynesh and gets an error response on an uncorrectable or refused access. -/
  | portStoreRead (port : Fin 4) (addr len : Nat)
  /-- R578: The DRAM port returns the data or an error response for a read of a DRAM ring, DMA source or map page after latency L. -/
  | dramReadResponse (id : Nat) (data : Option (List Byte))
  /-- R489: After Holly has run SLICE microseconds between erase pulses in its bank, the keeper resumes the suspended erase. -/
  | yewSliceExpiry (bank : Fin 2)
  /-- R508: The check pass of an ACTIVATE finishes reading and digesting the named slot, then holds and drains or completes ACTIVATE_REJECTED. -/
  | checkPassDone
  /-- R294: The encoder finishes writing a page's codewords into the program staging buffer, so the data-in segment becomes ready for the bus. -/
  | stagingBufferFilled (ch : Fin 8)
deriving DecidableEq, Repr

end Sys2Proof
end

