-- ==== Sys2Proof/Decode.lean ====
section
/-!
DEFINITION. The command that a word spells by the bits of spec/opcode_table.json. The table gives none of its rows
any bits (every row is an operation or an event of the complex), so no word spells a command.
-/
namespace Sys2Proof

/-- The command that a word of the table spells: none. -/
def decodeTableWord (nbits w : Nat) : Option Instr :=
  match nbits, w with
  | _, _ => none

end Sys2Proof
end

