-- ==== Sys2Proof/Config.lean ====
section
/-!
DEFINITION. What the spec leaves open, as constants without a body: nothing in Lean can evaluate one or prove a
value of one. A constant that is applied to the counter `drawn` of the state gives a fresh value at each use.
-/
namespace Sys2Proof.Config

/-- R354: the byte that a read of an unwritten LIGHT byte returns: draw number and byte address. -/
opaque freeByte : Nat → Nat → Byte

/-- R354: whether such a read is reported as uncorrectable: draw number and byte address. -/
opaque freeUnc : Nat → Nat → Bool

/-- A number the spec leaves undefined: draw number. -/
opaque freeNat : Nat → Nat

/-- R292: an entry of the ROM that holds the base matrices (its content is not in the spec): the entry's number. -/
opaque romWord : Nat → Nat

/-- R152: the set a map page hashes to: level, region, page and number of sets. -/
opaque mapHash : Nat → Nat → Nat → Nat → Nat

end Sys2Proof.Config
end

