-- ==== Sys2Proof/Machine/Bits.lean ====
section
/-!
DEFINITION. Bit fields, byte order (R9) and the check codes of the spec: CRC-32C (R46) and the CRC-8 of a strand
link (R374).
-/
namespace Sys2Proof.Machine

/-- Bits [lo+w-1:lo] of a number. -/
def bits (v lo w : Nat) : Nat := (v >>> lo) % 2 ^ w

/-- Bit i of a number. -/
def bit (v i : Nat) : Bool := v.testBit i

/-- 1 for true, 0 for false. -/
def b2n (b : Bool) : Nat := if b then 1 else 0

/-- The low n bytes of a number, byte 0 first (R9). -/
def leBytes : Nat → Nat → List Byte
  | 0, _ => []
  | n + 1, v => BitVec.ofNat 8 v :: leBytes n (v / 256)

/-- The number that bytes spell, byte 0 first (R9). -/
def ofLE : List Byte → Nat
  | [] => 0
  | b :: r => b.toNat + 256 * ofLE r

/-- Bytes `off` to `off + n - 1` of a list as a number; bytes past its end read 0. -/
def leAt (l : List Byte) (off n : Nat) : Nat := ofLE ((l.drop off).take n)

/-- Exactly n bytes: the list cut, or filled up with zeros. -/
def fit : Nat → List Byte → List Byte
  | 0, _ => []
  | n + 1, [] => 0 :: fit n []
  | n + 1, b :: r => b :: fit n r

/-- n bytes of one value. -/
def fill (n : Nat) (b : Byte) : List Byte := List.replicate n b

/-- f applied n times. -/
def times {α : Type} (f : α → α) : Nat → α → α
  | 0, x => x
  | n + 1, x => times f n (f x)

/-- One bit of the reflected CRC-32C (R46). -/
def crc32cBit (c : Nat) : Nat := if c % 2 = 1 then (c / 2) ^^^ 0x82F63B78 else c / 2

/-- The running CRC-32C over bytes, from a running value. -/
def crc32cRun (c : Nat) (l : List Byte) : Nat :=
  l.foldl (fun c b => times crc32cBit 8 (c ^^^ b.toNat)) c

/-- R46: the CRC-32C of bytes. -/
def crc32c (l : List Byte) : Nat := crc32cRun 0xFFFFFFFF l ^^^ 0xFFFFFFFF

/-- One bit of the CRC-8 with polynomial 0x07 (R374). -/
def crc8Bit (c : Nat) : Nat := if c ≥ 128 then (c * 2 % 256) ^^^ 0x07 else c * 2

/-- R374: the CRC-8 of bytes. -/
def crc8 (l : List Byte) : Nat := l.foldl (fun c b => times crc8Bit 8 (c ^^^ b.toNat)) 0

/-- The lesser of a number and a limit: a count that saturates. -/
def sat (m v : Nat) : Nat := if v ≤ m then v else m

/-- A two's complement field of w bits as an integer. -/
def sgn (w v : Nat) : Int := if v < 2 ^ (w - 1) then (v : Int) else (v : Int) - (2 ^ w : Nat)

/-- An integer as a two's complement field of w bits. -/
def unsgn (w : Nat) (i : Int) : Nat := (i % (2 ^ w : Nat)).toNat

/-- The number of one bits among the low n bits. -/
def ones : Nat → Nat → Nat
  | 0, _ => 0
  | n + 1, v => v % 2 + ones n (v / 2)

/-- Positions of the one bits among the low n bits, lowest first. -/
def bitList (n v : Nat) : List Nat := (List.range n).filter fun i => v.testBit i

/-- The number with bit i set or cleared. -/
def putBit (v i : Nat) (b : Bool) : Nat :=
  if b then v ||| 2 ^ i else if v.testBit i then v - 2 ^ i else v

/-- The first of the numbers from p on, in rotating order over n, that passes a test. -/
def rotFind (n p : Nat) (f : Nat → Bool) : Option Nat :=
  ((List.range n).map fun i => (p + i) % n).find? f

/-- The entries of a list in rising order of a key; the order of equals is kept. -/
def orderBy {α : Type} (k : α → Nat) : List α → List α
  | [] => []
  | x :: r => ins x (orderBy k r)
where
  /-- One entry put in its place. -/
  ins (x : α) : List α → List α
    | [] => [x]
    | y :: r => if k x ≤ k y then x :: y :: r else y :: ins x r

/-- The entry of a list with the least key, the first of equals. -/
def least {α : Type} (k : α → Nat) : List α → Option α
  | [] => none
  | x :: r =>
    match least k r with
    | none => some x
    | some y => if k x ≤ k y then some x else some y

end Sys2Proof.Machine
end

