-- ==== Sys2Proof/Machine/Regs.lean ====
section
/-!
DEFINITION. The register map: one definition per register field of the spec (R14, R15, R17, R563, R565), each with
its address in the 1 MiB window, its lowest bit, its width, its access type and its cold and warm values, and the
list of the fields of each block. A field of a replicated set takes its instance numbers as arguments.
-/
namespace Sys2Proof.Machine.Reg

/-- R346: the cold use of store region i: 0 POOL, 1 MAP, 2 QUEUE, 3 FIRMWARE. -/
def rgnColdUse (i : Nat) : Nat := if i < 2 then 2 else if i < 4 then 3 else if i < 8 then 1 else 0
/-- R346: the cold class of store region i: 0 STRONG, 1 LIGHT. -/
def rgnColdClass (i : Nat) : Nat := if i < 8 then 0 else 1
/-- R346: the cold VALID_TRACK of store region i. -/
def rgnColdVt (i : Nat) : Nat := if i < 4 then 1 else 0
/-- R392: the cold reserve of requester i. -/
def rsvCold (i : Nat) : Nat :=
  if i < 4 then 0 else if i < 12 then 16 else if i = 12 then 8 else if i = 15 then 64 else 0
/-- R531: the cold routing byte of source 4 i + k. -/
def routeCold (i k : Nat) : Nat := if i = 1 ∧ k = 0 then 0x80 else 0
/-! The GLB block (R570). -/
def GLB_ID_MINOR : Fld := fld (0x0) (0) 8 (0) .ro (some 0)
def GLB_ID_MAJOR : Fld := fld (0x0) (8) 8 (2) .ro (some 2)
def GLB_ID_FAMILY : Fld := fld (0x0) (16) 16 (20556) .ro (some 20556)
def GLB_CTL_WARM_RST : Fld := fld (0x4) (0) 1 (0) .wo (some 0)
def GLB_STRAP_RB_PU : Fld := fld (0x8) (0) 1 (0) .ro none
def GLB_STRAP_HU_EN : Fld := fld (0x8) (1) 1 (0) .ro none
def GLB_STRAP_DOM_SEQ : Fld := fld (0x8) (2) 1 (0) .ro none
def GLB_CSF_LEVEL_LEVEL : Fld := fld (0xC) (0) 9 (0) .rw none
def GLB_CSF_LEVEL_FILL : Fld := fld (0xC) (16) 9 (0) .ro (some 0)
def GLB_CSF_LEVEL_HIT : Fld := fld (0xC) (31) 1 (0) .w1c (some 0)
def GLB_TIME_LO_COUNT : Fld := fld (0x10) (0) 32 (0) .ro none
def GLB_TIME_HI_COUNT : Fld := fld (0x14) (0) 32 (0) .ro none
/-- Every field of the GLB block. -/
def fldsGLB : List Fld :=
    [GLB_ID_MINOR, GLB_ID_MAJOR, GLB_ID_FAMILY, GLB_CTL_WARM_RST,
      GLB_STRAP_RB_PU, GLB_STRAP_HU_EN, GLB_STRAP_DOM_SEQ, GLB_CSF_LEVEL_LEVEL,
      GLB_CSF_LEVEL_FILL, GLB_CSF_LEVEL_HIT, GLB_TIME_LO_COUNT, GLB_TIME_HI_COUNT]
/-! The PWR block (R450). -/
def PWR_CTL_WAKE : Fld := fld (0x1000) (0) 1 (0) .wo (some 0)
def PWR_CTL_DORM_FLASH : Fld := fld (0x1000) (1) 1 (1) .rw none
def PWR_CTL_IDLE_EN : Fld := fld (0x1000) (2) 1 (1) .rw none
def PWR_CTL_ECON : Fld := fld (0x1000) (3) 1 (0) .ro none
def PWR_STAT_STATE : Fld := fld (0x1004) (0) 2 (0) .ro (some 0)
def PWR_STAT_ENTERING : Fld := fld (0x1004) (2) 1 (0) .ro (some 0)
def PWR_STAT_HOLDUP : Fld := fld (0x1004) (3) 1 (0) .ro (some 0)
def PWR_STAT_HU_DONE : Fld := fld (0x1004) (4) 1 (0) .ro none
def PWR_STAT_BAND_LOW : Fld := fld (0x1004) (5) 1 (0) .ro none
def PWR_STAT_BAND_ERR : Fld := fld (0x1004) (6) 1 (0) .w1c (some 0)
def PWR_STAT_WOKE : Fld := fld (0x1004) (7) 1 (0) .w1c (some 0)
def PWR_STAT_ENTRY_DEFER : Fld := fld (0x1004) (8) 1 (0) .w1c (some 0)
def PWR_STAT_PWRGD : Fld := fld (0x1004) (12) 4 (0) .ro none
def PWR_STAT_PWR_EN : Fld := fld (0x1004) (16) 4 (15) .ro none
def PWR_IDLE_DELAY : Fld := fld (0x1008) (0) 8 (64) .rw none
def PWR_ENTRY_LIMIT : Fld := fld (0x100C) (0) 20 (10000) .rw none
def PWR_QUOTA_FRAMES : Fld := fld (0x1010) (0) 14 (2048) .lock none
def PWR_QUOTA_DIRTY : Fld := fld (0x1010) (16) 14 (0) .ro none
def PWR_DOM_EN : Fld := fld (0x1014) (0) 4 (15) .rw none
def PWR_DOM_PG_TIMEOUT : Fld := fld (0x1014) (8) 8 (20) .rw none
def PWR_DOM_PG_FAIL : Fld := fld (0x1014) (16) 4 (0) .w1c (some 0)
def PWR_HUBAND_BLOCK (i : Nat) : Fld := fld (0x1020 + 4 * i) (0) 13 (0) .rw none
def PWR_HUBAND_TARGET (i : Nat) : Fld := fld (0x1020 + 4 * i) (13) 3 (0) .rw none
def PWR_HUBAND_LUN (i : Nat) : Fld := fld (0x1020 + 4 * i) (16) 2 (0) .rw none
def PWR_HUBAND_PLANES (i : Nat) : Fld := fld (0x1020 + 4 * i) (18) 8 (0) .rw none
def PWR_HUBAND_VALID (i : Nat) : Fld := fld (0x1020 + 4 * i) (31) 1 (0) .rw none
def PWR_HU_LAST_FRAMES : Fld := fld (0x1040) (0) 14 (0) .ro none
def PWR_HU_LAST_MAPFR : Fld := fld (0x1040) (14) 11 (0) .ro none
def PWR_HU_LAST_SHORT : Fld := fld (0x1040) (29) 1 (0) .ro none
def PWR_HU_LAST_MARKER : Fld := fld (0x1040) (30) 1 (0) .ro none
def PWR_HU_LAST_VALID : Fld := fld (0x1040) (31) 1 (0) .w1c none
def PWR_HU_TIME_TIME : Fld := fld (0x1044) (0) 16 (0) .ro none
/-- Every field of the PWR block. -/
def fldsPWR : List Fld :=
    [PWR_CTL_WAKE, PWR_CTL_DORM_FLASH, PWR_CTL_IDLE_EN, PWR_CTL_ECON,
      PWR_STAT_STATE, PWR_STAT_ENTERING, PWR_STAT_HOLDUP, PWR_STAT_HU_DONE,
      PWR_STAT_BAND_LOW, PWR_STAT_BAND_ERR, PWR_STAT_WOKE, PWR_STAT_ENTRY_DEFER,
      PWR_STAT_PWRGD, PWR_STAT_PWR_EN, PWR_IDLE_DELAY, PWR_ENTRY_LIMIT,
      PWR_QUOTA_FRAMES, PWR_QUOTA_DIRTY, PWR_DOM_EN, PWR_DOM_PG_TIMEOUT,
      PWR_DOM_PG_FAIL] ++
    ((List.range 8).flatMap fun i => [PWR_HUBAND_BLOCK i, PWR_HUBAND_TARGET i, PWR_HUBAND_LUN i, PWR_HUBAND_PLANES i,
      PWR_HUBAND_VALID i]) ++
    [PWR_HU_LAST_FRAMES, PWR_HU_LAST_MAPFR, PWR_HU_LAST_SHORT, PWR_HU_LAST_MARKER,
      PWR_HU_LAST_VALID, PWR_HU_TIME_TIME]
/-! The COP block (R392). -/
def COP_CFG_FLOOR : Fld := fld (0x2000) (0) 13 (64) .rw none
def COP_CFG_LOW : Fld := fld (0x2000) (16) 13 (256) .rw none
def COP_STAT_FREE : Fld := fld (0x2004) (0) 14 (0) .ro none
def COP_STAT_READY : Fld := fld (0x2004) (14) 1 (0) .ro none
def COP_STAT_REBUILDING : Fld := fld (0x2004) (15) 1 (0) .ro (some 0)
def COP_STAT_LINK_FAULT : Fld := fld (0x2004) (16) 1 (0) .w1c none
def COP_STAT_RSV_OVER : Fld := fld (0x2004) (17) 1 (0) .ro none
def COP_STAT_RSV_ERR : Fld := fld (0x2004) (18) 1 (0) .w1c (some 0)
def COP_STAT_LOW_HIT : Fld := fld (0x2004) (19) 1 (0) .w1c (some 0)
def COP_STAT_QUAR : Fld := fld (0x2004) (24) 8 (0) .ro none
def COP_PEND_WAITING : Fld := fld (0x2008) (0) 16 (0) .ro (some 0)
def COP_REBUILD_START : Fld := fld (0x200C) (0) 1 (0) .wo (some 0)
def COP_REBUILD_BUSY : Fld := fld (0x200C) (31) 1 (0) .ro (some 0)
def COP_INSPECT_INDEX : Fld := fld (0x2010) (0) 13 (0) .rw none
def COP_STATE0_STATE : Fld := fld (0x2014) (0) 1 (0) .ro none
def COP_STATE0_GEN : Fld := fld (0x2014) (1) 11 (0) .ro none
def COP_STATE0_GRANTEE : Fld := fld (0x2014) (12) 4 (0) .ro none
def COP_STATE0_RSV : Fld := fld (0x2014) (16) 1 (0) .ro none
def COP_STATE0_HOLDS : Fld := fld (0x2014) (17) 4 (0) .ro none
def COP_STATE0_DCRC_V : Fld := fld (0x2014) (21) 1 (0) .ro none
def COP_STATE1_OWNERS : Fld := fld (0x2018) (0) 16 (0) .ro none
def COP_STATE1_OV : Fld := fld (0x2018) (16) 4 (0) .ro none
def COP_LAST_FAULT_INDEX : Fld := fld (0x201C) (0) 13 (0) .ro none
def COP_LAST_FAULT_KIND : Fld := fld (0x201C) (13) 3 (0) .ro none
def COP_LAST_FAULT_REQ : Fld := fld (0x201C) (16) 4 (0) .ro none
def COP_LAST_FAULT_VALID : Fld := fld (0x201C) (31) 1 (0) .w1c none
def COP_RSV_QUOTA (i : Nat) : Fld := fld (0x2040 + 4 * i) (0) 13 (rsvCold i) .rw none
def COP_RSV_USED (i : Nat) : Fld := fld (0x2040 + 4 * i) (16) 13 (0) .ro none
def COP_GRANTS_CNT : Fld := fld (0x2080) (0) 32 (0) .rc (some 0)
def COP_FREES_CNT : Fld := fld (0x2084) (0) 32 (0) .rc (some 0)
def COP_NOBUF_CNT : Fld := fld (0x2088) (0) 32 (0) .rc (some 0)
def COP_FREE_ERR_CNT : Fld := fld (0x208C) (0) 32 (0) .rc (some 0)
def COP_LINK_FAULTS_CNT : Fld := fld (0x2090) (0) 32 (0) .rc (some 0)
/-- Every field of the COP block. -/
def fldsCOP : List Fld :=
    [COP_CFG_FLOOR, COP_CFG_LOW, COP_STAT_FREE, COP_STAT_READY,
      COP_STAT_REBUILDING, COP_STAT_LINK_FAULT, COP_STAT_RSV_OVER, COP_STAT_RSV_ERR,
      COP_STAT_LOW_HIT, COP_STAT_QUAR, COP_PEND_WAITING, COP_REBUILD_START,
      COP_REBUILD_BUSY, COP_INSPECT_INDEX, COP_STATE0_STATE, COP_STATE0_GEN,
      COP_STATE0_GRANTEE, COP_STATE0_RSV, COP_STATE0_HOLDS, COP_STATE0_DCRC_V,
      COP_STATE1_OWNERS, COP_STATE1_OV, COP_LAST_FAULT_INDEX, COP_LAST_FAULT_KIND,
      COP_LAST_FAULT_REQ, COP_LAST_FAULT_VALID] ++
    ((List.range 16).flatMap fun i => [COP_RSV_QUOTA i, COP_RSV_USED i]) ++
    [COP_GRANTS_CNT, COP_FREES_CNT, COP_NOBUF_CNT, COP_FREE_ERR_CNT,
      COP_LINK_FAULTS_CNT]
/-! The HDG block (R370). -/
def HDG_RGN_USE (i : Nat) : Fld := fld (0x3000 + 4 * i) (0) 2 (rgnColdUse i) .rw none
def HDG_RGN_CLASS (i : Nat) : Fld := fld (0x3000 + 4 * i) (2) 1 (rgnColdClass i) .rw none
def HDG_RGN_VT (i : Nat) : Fld := fld (0x3000 + 4 * i) (3) 1 (rgnColdVt i) .rw none
def HDG_RGN_BUSY (i : Nat) : Fld := fld (0x3000 + 4 * i) (8) 1 (0) .ro (some 0)
def HDG_RGN_CHG_ERR (i : Nat) : Fld := fld (0x3000 + 4 * i) (9) 1 (0) .w1c (some 0)
def HDG_RGN_REASON (i : Nat) : Fld := fld (0x3000 + 4 * i) (12) 4 (0) .ro none
def HDG_RGN_UE_SEEN (i : Nat) : Fld := fld (0x3000 + 4 * i) (16) 1 (0) .w1c none
def HDG_GORSE_EN : Fld := fld (0x3080) (0) 1 (1) .rw none
def HDG_GORSE_LIGHT_EN : Fld := fld (0x3080) (1) 1 (0) .rw none
def HDG_GORSE_RATE : Fld := fld (0x3080) (8) 8 (64) .rw none
def HDG_GORSE_LAP_WARN : Fld := fld (0x3080) (16) 16 (100) .rw none
def HDG_GORSE_STAT_REGION : Fld := fld (0x3084) (0) 5 (0) .ro none
def HDG_GORSE_STAT_LINE : Fld := fld (0x3084) (5) 15 (0) .ro none
def HDG_GORSE_STAT_LAP_SLOW : Fld := fld (0x3084) (20) 1 (0) .w1c (some 0)
def HDG_GORSE_STAT_WAITING : Fld := fld (0x3084) (21) 1 (0) .ro (some 0)
def HDG_GORSE_LAP_LAST : Fld := fld (0x3088) (0) 16 (0) .ro none
def HDG_GORSE_LAPS_CNT : Fld := fld (0x308C) (0) 32 (0) .rc (some 0)
def HDG_GORSE_FIX_CNT : Fld := fld (0x3090) (0) 32 (0) .rc (some 0)
def HDG_CE_CNT_CNT : Fld := fld (0x3094) (0) 32 (0) .rc (some 0)
def HDG_UE_CNT_CNT : Fld := fld (0x3098) (0) 32 (0) .rc (some 0)
def HDG_RMW_CNT_CNT : Fld := fld (0x309C) (0) 32 (0) .rc (some 0)
def HDG_CE_REGIONS_REGION : Fld := fld (0x30A0) (0) 32 (0) .w1c none
def HDG_LAST_ERR_WORD : Fld := fld (0x30A4) (3) 22 (0) .ro none
def HDG_LAST_ERR_UNC : Fld := fld (0x30A4) (25) 1 (0) .ro none
def HDG_LAST_ERR_GORSE : Fld := fld (0x30A4) (26) 1 (0) .ro none
/-- Every field of the HDG block. -/
def fldsHDG : List Fld :=
    ((List.range 32).flatMap fun i => [HDG_RGN_USE i, HDG_RGN_CLASS i, HDG_RGN_VT i, HDG_RGN_BUSY i,
      HDG_RGN_CHG_ERR i, HDG_RGN_REASON i, HDG_RGN_UE_SEEN i]) ++
    [HDG_GORSE_EN, HDG_GORSE_LIGHT_EN, HDG_GORSE_RATE, HDG_GORSE_LAP_WARN,
      HDG_GORSE_STAT_REGION, HDG_GORSE_STAT_LINE, HDG_GORSE_STAT_LAP_SLOW, HDG_GORSE_STAT_WAITING,
      HDG_GORSE_LAP_LAST, HDG_GORSE_LAPS_CNT, HDG_GORSE_FIX_CNT, HDG_CE_CNT_CNT,
      HDG_UE_CNT_CNT, HDG_RMW_CNT_CNT, HDG_CE_REGIONS_REGION, HDG_LAST_ERR_WORD,
      HDG_LAST_ERR_UNC, HDG_LAST_ERR_GORSE]
/-! The QUE block (R102). -/
def QUE_SQBASE_BASE (k : Nat) : Fld := fld (0x4000 + 0x40 * k) (0) 32 (0) .rw none
def QUE_CQBASE_BASE (k : Nat) : Fld := fld (0x4004 + 0x40 * k) (0) 32 (0) .rw none
def QUE_CFG_ENABLE (k : Nat) : Fld := fld (0x4008 + 0x40 * k) (0) 1 (0) .rw (some 0)
def QUE_CFG_SQ_LOC (k : Nat) : Fld := fld (0x4008 + 0x40 * k) (1) 1 (0) .rw none
def QUE_CFG_CQ_LOC (k : Nat) : Fld := fld (0x4008 + 0x40 * k) (2) 1 (0) .rw none
def QUE_CFG_SQ_SIZE (k : Nat) : Fld := fld (0x4008 + 0x40 * k) (4) 4 (4) .rw none
def QUE_CFG_CQ_SIZE (k : Nat) : Fld := fld (0x4008 + 0x40 * k) (8) 4 (4) .rw none
def QUE_CFG_IRQ (k : Nat) : Fld := fld (0x4008 + 0x40 * k) (12) 4 (0) .rw none
def QUE_CFG_CQ_LEVEL (k : Nat) : Fld := fld (0x4008 + 0x40 * k) (16) 12 (0) .rw none
def QUE_CFG_LEVEL_HIT (k : Nat) : Fld := fld (0x4008 + 0x40 * k) (28) 1 (0) .w1c (some 0)
def QUE_CFG_DB_ERR (k : Nat) : Fld := fld (0x4008 + 0x40 * k) (29) 1 (0) .w1c (some 0)
def QUE_CFG_CFG_ERR (k : Nat) : Fld := fld (0x4008 + 0x40 * k) (30) 1 (0) .w1c (some 0)
def QUE_CFG_BUSY (k : Nat) : Fld := fld (0x4008 + 0x40 * k) (31) 1 (0) .ro (some 0)
def QUE_DB_SQTAIL (k : Nat) : Fld := fld (0x400C + 0x40 * k) (0) 12 (0) .wo (some 0)
def QUE_DB_SQ_V (k : Nat) : Fld := fld (0x400C + 0x40 * k) (12) 1 (0) .wo (some 0)
def QUE_DB_CQHEAD (k : Nat) : Fld := fld (0x400C + 0x40 * k) (16) 12 (0) .wo (some 0)
def QUE_DB_CQ_V (k : Nat) : Fld := fld (0x400C + 0x40 * k) (28) 1 (0) .wo (some 0)
/-- Every field of the QUE block. -/
def fldsQUE : List Fld :=
    ((List.range 64).flatMap fun k => [QUE_SQBASE_BASE k, QUE_CQBASE_BASE k, QUE_CFG_ENABLE k, QUE_CFG_SQ_LOC k,
      QUE_CFG_CQ_LOC k, QUE_CFG_SQ_SIZE k, QUE_CFG_CQ_SIZE k, QUE_CFG_IRQ k,
      QUE_CFG_CQ_LEVEL k, QUE_CFG_LEVEL_HIT k, QUE_CFG_DB_ERR k, QUE_CFG_CFG_ERR k,
      QUE_CFG_BUSY k, QUE_DB_SQTAIL k, QUE_DB_SQ_V k, QUE_DB_CQHEAD k,
      QUE_DB_CQ_V k])
/-! The DMA block (R409). -/
def DMA_SRC_LO_SRC (n : Nat) : Fld := fld (0x5000 + 0x80 * n) (0) 32 (0) .ro (some 0)
def DMA_SRC_HI_PAT_HI (n : Nat) : Fld := fld (0x5004 + 0x80 * n) (0) 32 (0) .ro (some 0)
def DMA_DST_DST (n : Nat) : Fld := fld (0x5008 + 0x80 * n) (0) 32 (0) .ro (some 0)
def DMA_XFER_LEN8 (n : Nat) : Fld := fld (0x500C + 0x80 * n) (0) 22 (0) .ro (some 0)
def DMA_XFER_SRCK (n : Nat) : Fld := fld (0x500C + 0x80 * n) (22) 2 (0) .ro (some 0)
def DMA_XFER_DSTK (n : Nat) : Fld := fld (0x500C + 0x80 * n) (24) 2 (0) .ro (some 0)
def DMA_XFER_PACE (n : Nat) : Fld := fld (0x500C + 0x80 * n) (26) 1 (0) .ro (some 0)
def DMA_XFER_APPEND (n : Nat) : Fld := fld (0x500C + 0x80 * n) (27) 1 (0) .ro (some 0)
def DMA_XFER_PORT (n : Nat) : Fld := fld (0x500C + 0x80 * n) (28) 2 (0) .ro (some 0)
def DMA_SH_SRC_LO_SRC (n : Nat) : Fld := fld (0x5010 + 0x80 * n) (0) 32 (0) .ro (some 0)
def DMA_SH_SRC_HI_PAT_HI (n : Nat) : Fld := fld (0x5014 + 0x80 * n) (0) 32 (0) .ro (some 0)
def DMA_SH_DST_DST (n : Nat) : Fld := fld (0x5018 + 0x80 * n) (0) 32 (0) .ro (some 0)
def DMA_SH_XFER_LEN8 (n : Nat) : Fld := fld (0x501C + 0x80 * n) (0) 22 (0) .ro (some 0)
def DMA_SH_XFER_SRCK (n : Nat) : Fld := fld (0x501C + 0x80 * n) (22) 2 (0) .ro (some 0)
def DMA_SH_XFER_DSTK (n : Nat) : Fld := fld (0x501C + 0x80 * n) (24) 2 (0) .ro (some 0)
def DMA_SH_XFER_PACE (n : Nat) : Fld := fld (0x501C + 0x80 * n) (26) 1 (0) .ro (some 0)
def DMA_SH_XFER_APPEND (n : Nat) : Fld := fld (0x501C + 0x80 * n) (27) 1 (0) .ro (some 0)
def DMA_SH_XFER_PORT (n : Nat) : Fld := fld (0x501C + 0x80 * n) (28) 2 (0) .ro (some 0)
def DMA_PACE_QSEL (n : Nat) : Fld := fld (0x5020 + 0x80 * n) (0) 4 (0) .rw none
def DMA_PACE_LOW (n : Nat) : Fld := fld (0x5020 + 0x80 * n) (4) 12 (0) .rw none
def DMA_PACE_HIGH (n : Nat) : Fld := fld (0x5020 + 0x80 * n) (16) 12 (1) .rw none
def DMA_STAT_TAG (n : Nat) : Fld := fld (0x5024 + 0x80 * n) (0) 12 (0) .ro (some 0)
def DMA_STAT_ACTIVE (n : Nat) : Fld := fld (0x5024 + 0x80 * n) (12) 1 (0) .ro (some 0)
def DMA_STAT_SH_V (n : Nat) : Fld := fld (0x5024 + 0x80 * n) (13) 1 (0) .ro (some 0)
def DMA_STAT_PAUSED (n : Nat) : Fld := fld (0x5024 + 0x80 * n) (14) 1 (0) .ro (some 0)
def DMA_STAT_WAIT_DCQ (n : Nat) : Fld := fld (0x5024 + 0x80 * n) (15) 1 (0) .ro (some 0)
def DMA_STAT_HOLD_WAIT (n : Nat) : Fld := fld (0x5024 + 0x80 * n) (16) 1 (0) .ro (some 0)
def DMA_STAT_EVT_HIT (n : Nat) : Fld := fld (0x5024 + 0x80 * n) (17) 1 (0) .w1c (some 0)
def DMA_LEVEL_LEVEL (n : Nat) : Fld := fld (0x5028 + 0x80 * n) (0) 4 (0) .rw none
def DMA_LEVEL_FILL (n : Nat) : Fld := fld (0x5028 + 0x80 * n) (16) 4 (0) .ro (some 0)
def DMA_CRC_CRC (n : Nat) : Fld := fld (0x502C + 0x80 * n) (0) 32 (0) .ro (some 0)
def DMA_W_DCQ_BASE_BASE (w : Nat) : Fld := fld (0x5800 + 0x40 * w) (0) 32 (0) .rw none
def DMA_W_DCQ_CFG_ENABLE (w : Nat) : Fld := fld (0x5804 + 0x40 * w) (0) 1 (0) .rw none
def DMA_W_DCQ_CFG_LOC (w : Nat) : Fld := fld (0x5804 + 0x40 * w) (1) 1 (0) .rw none
def DMA_W_DCQ_CFG_SIZE (w : Nat) : Fld := fld (0x5804 + 0x40 * w) (2) 4 (4) .rw none
def DMA_W_DCQ_CFG_IRQ (w : Nat) : Fld := fld (0x5804 + 0x40 * w) (6) 4 (0) .rw none
def DMA_W_DCQ_CFG_LEVEL (w : Nat) : Fld := fld (0x5804 + 0x40 * w) (10) 12 (0) .rw none
def DMA_W_DCQ_CFG_LEVEL_HIT (w : Nat) : Fld := fld (0x5804 + 0x40 * w) (22) 1 (0) .w1c (some 0)
def DMA_W_DCQ_CFG_DB_ERR (w : Nat) : Fld := fld (0x5804 + 0x40 * w) (23) 1 (0) .w1c (some 0)
def DMA_W_DCQ_CFG_CFG_ERR (w : Nat) : Fld := fld (0x5804 + 0x40 * w) (24) 1 (0) .w1c (some 0)
def DMA_W_DCQ_DB_HEAD (w : Nat) : Fld := fld (0x5808 + 0x40 * w) (0) 12 (0) .wo (some 0)
def DMA_W_DCQ_PTR_TAIL (w : Nat) : Fld := fld (0x580C + 0x40 * w) (0) 12 (0) .ro none
def DMA_W_DCQ_PTR_HEAD (w : Nat) : Fld := fld (0x580C + 0x40 * w) (16) 12 (0) .ro none
/-- Every field of the DMA block. -/
def fldsDMA : List Fld :=
    ((List.range 16).flatMap fun n => [DMA_SRC_LO_SRC n, DMA_SRC_HI_PAT_HI n, DMA_DST_DST n, DMA_XFER_LEN8 n,
      DMA_XFER_SRCK n, DMA_XFER_DSTK n, DMA_XFER_PACE n, DMA_XFER_APPEND n,
      DMA_XFER_PORT n, DMA_SH_SRC_LO_SRC n, DMA_SH_SRC_HI_PAT_HI n, DMA_SH_DST_DST n,
      DMA_SH_XFER_LEN8 n, DMA_SH_XFER_SRCK n, DMA_SH_XFER_DSTK n, DMA_SH_XFER_PACE n,
      DMA_SH_XFER_APPEND n, DMA_SH_XFER_PORT n, DMA_PACE_QSEL n, DMA_PACE_LOW n,
      DMA_PACE_HIGH n, DMA_STAT_TAG n, DMA_STAT_ACTIVE n, DMA_STAT_SH_V n,
      DMA_STAT_PAUSED n, DMA_STAT_WAIT_DCQ n, DMA_STAT_HOLD_WAIT n, DMA_STAT_EVT_HIT n,
      DMA_LEVEL_LEVEL n, DMA_LEVEL_FILL n, DMA_CRC_CRC n]) ++
    ((List.range 2).flatMap fun w => [DMA_W_DCQ_BASE_BASE w, DMA_W_DCQ_CFG_ENABLE w, DMA_W_DCQ_CFG_LOC w, DMA_W_DCQ_CFG_SIZE w,
      DMA_W_DCQ_CFG_IRQ w, DMA_W_DCQ_CFG_LEVEL w, DMA_W_DCQ_CFG_LEVEL_HIT w, DMA_W_DCQ_CFG_DB_ERR w,
      DMA_W_DCQ_CFG_CFG_ERR w, DMA_W_DCQ_DB_HEAD w, DMA_W_DCQ_PTR_TAIL w, DMA_W_DCQ_PTR_HEAD w])
/-! The TOP block (R199). -/
def TOP_CTL_SUSP_PROG_EN : Fld := fld (0x6000) (0) 1 (1) .rw none
def TOP_CTL_SUSP_ERASE_EN : Fld := fld (0x6000) (1) 1 (1) .rw none
def TOP_CTL_CACHE_RD_EN : Fld := fld (0x6000) (2) 1 (1) .rw none
def TOP_CTL_CACHE_PG_EN : Fld := fld (0x6000) (3) 1 (1) .rw none
def TOP_CTL_MP_EN : Fld := fld (0x6000) (4) 1 (1) .rw none
def TOP_SUSP_LIMIT : Fld := fld (0x6004) (0) 8 (8) .rw none
def TOP_SUSP_READS : Fld := fld (0x6004) (8) 4 (4) .rw none
def TOP_SUSP_MIN_RUN : Fld := fld (0x6004) (16) 8 (20) .rw none
def TOP_SUSP_TIME_WINDOW : Fld := fld (0x6008) (0) 16 (200) .rw none
def TOP_SUSP_TIME_NEAR : Fld := fld (0x6008) (16) 16 (100) .rw none
def TOP_GATHER_TIME : Fld := fld (0x600C) (0) 16 (200) .rw none
def TOP_AGE_WRITE : Fld := fld (0x6010) (0) 16 (500) .rw none
def TOP_AGE_MAINT : Fld := fld (0x6010) (16) 16 (5000) .rw none
def TOP_NODL_TIME : Fld := fld (0x6014) (0) 16 (2000) .rw none
def TOP_FAIR_READ_BURST : Fld := fld (0x6018) (0) 4 (8) .rw none
def TOP_FAIR_TOKEN_AGE : Fld := fld (0x6018) (8) 8 (100) .rw none
def TOP_FAIR_BUS_AGE : Fld := fld (0x6018) (16) 16 (16384) .rw none
def TOP_BUS_SEG_MAX : Fld := fld (0x601C) (0) 16 (9216) .rw none
def TOP_BUS_POLL : Fld := fld (0x601C) (16) 12 (800) .rw none
def TOP_LUNQ_LEVEL_LEVEL : Fld := fld (0x6020) (0) 5 (0) .rw none
def TOP_WDOG_RD_TIME : Fld := fld (0x6024) (0) 20 (1000) .rw none
def TOP_WDOG_PG_TIME : Fld := fld (0x6028) (0) 20 (12000) .rw none
def TOP_WDOG_ER_TIME : Fld := fld (0x602C) (0) 20 (40000) .rw none
def TOP_WDOG_MISC_TIME : Fld := fld (0x6030) (0) 20 (2000) .rw none
def TOP_CHLEASE_CH (n : Nat) : Fld := fld (0x6034) (4 * n) 4 (0) .ro (some 0)
def TOP_LUNQ_HIT_HIT (i : Nat) : Fld := fld (0x6040 + 4 * i) (0) 32 (0) .w1c (some 0)
def TOP_SUSPENDS_CNT : Fld := fld (0x6060) (0) 32 (0) .rc (some 0)
def TOP_SUSP_LIMIT_CNT : Fld := fld (0x6064) (0) 32 (0) .rc (some 0)
def TOP_WDOG_FIRED_CNT : Fld := fld (0x6068) (0) 32 (0) .rc (some 0)
def TOP_LEASE_DEFERRED_CNT : Fld := fld (0x606C) (0) 32 (0) .rc (some 0)
def TOP_PAD_FRAMES_CNT : Fld := fld (0x6070) (0) 32 (0) .rc (some 0)
/-- Every field of the TOP block. -/
def fldsTOP : List Fld :=
    [TOP_CTL_SUSP_PROG_EN, TOP_CTL_SUSP_ERASE_EN, TOP_CTL_CACHE_RD_EN, TOP_CTL_CACHE_PG_EN,
      TOP_CTL_MP_EN, TOP_SUSP_LIMIT, TOP_SUSP_READS, TOP_SUSP_MIN_RUN,
      TOP_SUSP_TIME_WINDOW, TOP_SUSP_TIME_NEAR, TOP_GATHER_TIME, TOP_AGE_WRITE,
      TOP_AGE_MAINT, TOP_NODL_TIME, TOP_FAIR_READ_BURST, TOP_FAIR_TOKEN_AGE,
      TOP_FAIR_BUS_AGE, TOP_BUS_SEG_MAX, TOP_BUS_POLL, TOP_LUNQ_LEVEL_LEVEL,
      TOP_WDOG_RD_TIME, TOP_WDOG_PG_TIME, TOP_WDOG_ER_TIME, TOP_WDOG_MISC_TIME] ++
    ((List.range 8).flatMap fun n => [TOP_CHLEASE_CH n]) ++
    ((List.range 8).flatMap fun i => [TOP_LUNQ_HIT_HIT i]) ++
    [TOP_SUSPENDS_CNT, TOP_SUSP_LIMIT_CNT, TOP_WDOG_FIRED_CNT, TOP_LEASE_DEFERRED_CNT,
      TOP_PAD_FRAMES_CNT]
/-! The MAP block (R167). -/
def MAP_CTL_ENABLE : Fld := fld (0x7000) (0) 1 (0) .rw none
def MAP_CTL_CFG_ERR : Fld := fld (0x7000) (1) 1 (0) .w1c (some 0)
def MAP_CTL_REQ : Fld := fld (0x7000) (2) 1 (0) .ro (some 0)
def MAP_CTL_NREG : Fld := fld (0x7000) (4) 5 (0) .ro none
def MAP_CTL_SLOTS : Fld := fld (0x7000) (16) 11 (0) .ro none
def MAP_STAT_DIRTY : Fld := fld (0x7004) (0) 11 (0) .ro none
def MAP_STAT_MISS_OPEN : Fld := fld (0x7004) (16) 6 (0) .ro (some 0)
def MAP_STAT_BROKEN : Fld := fld (0x7004) (24) 1 (0) .w1c none
def MAP_STAT_LIMIT_HIT : Fld := fld (0x7004) (25) 1 (0) .w1c (some 0)
def MAP_STAT_RGN_ERR : Fld := fld (0x7004) (26) 1 (0) .w1c (some 0)
def MAP_RGN_LOAD_REGION : Fld := fld (0x7008) (0) 6 (0) .wo (some 0)
def MAP_RGN_LOAD_BUSY : Fld := fld (0x7008) (31) 1 (0) .ro (some 0)
def MAP_PIN_QUOTA : Fld := fld (0x700C) (0) 11 (64) .rw none
def MAP_PIN_USED : Fld := fld (0x700C) (16) 11 (0) .ro none
def MAP_DIRTY_HIGH : Fld := fld (0x7010) (0) 11 (64) .rw none
def MAP_DIRTY_LIMIT : Fld := fld (0x7010) (16) 11 (256) .rw none
def MAP_HITS_CNT : Fld := fld (0x7014) (0) 32 (0) .rc (some 0)
def MAP_MISSES_CNT : Fld := fld (0x7018) (0) 32 (0) .rc (some 0)
def MAP_COALESCED_CNT : Fld := fld (0x701C) (0) 32 (0) .rc (some 0)
def MAP_WRITEBACKS_CNT : Fld := fld (0x7020) (0) 32 (0) .rc (some 0)
def MAP_COND_DROP_CNT : Fld := fld (0x7024) (0) 32 (0) .rc (some 0)
def MAP_SEQ_CNT : Fld := fld (0x7028) (0) 32 (0) .ro none
def MAP_SEQ_HI_CNT : Fld := fld (0x702C) (0) 32 (0) .ro none
/-- Every field of the MAP block. -/
def fldsMAP : List Fld :=
    [MAP_CTL_ENABLE, MAP_CTL_CFG_ERR, MAP_CTL_REQ, MAP_CTL_NREG,
      MAP_CTL_SLOTS, MAP_STAT_DIRTY, MAP_STAT_MISS_OPEN, MAP_STAT_BROKEN,
      MAP_STAT_LIMIT_HIT, MAP_STAT_RGN_ERR, MAP_RGN_LOAD_REGION, MAP_RGN_LOAD_BUSY,
      MAP_PIN_QUOTA, MAP_PIN_USED, MAP_DIRTY_HIGH, MAP_DIRTY_LIMIT,
      MAP_HITS_CNT, MAP_MISSES_CNT, MAP_COALESCED_CNT, MAP_WRITEBACKS_CNT,
      MAP_COND_DROP_CNT, MAP_SEQ_CNT, MAP_SEQ_HI_CNT]
/-! The ECC block (R309). -/
def ECC_CTL_HARD_IT : Fld := fld (0x8000) (0) 5 (20) .rw none
def ECC_CTL_SOFT_IT : Fld := fld (0x8000) (8) 6 (40) .rw none
def ECC_CTL_ERASED_EN : Fld := fld (0x8000) (16) 1 (1) .rw none
def ECC_CTL_REPEAT_STOP : Fld := fld (0x8000) (17) 1 (1) .rw none
def ECC_ERASED_ZEROS : Fld := fld (0x8004) (0) 10 (64) .rw none
def ECC_SOFT_MAG_MAG0 : Fld := fld (0x8008) (0) 5 (2) .rw none
def ECC_SOFT_MAG_MAG1 : Fld := fld (0x8008) (8) 5 (6) .rw none
def ECC_SOFT_MAG_MAG2 : Fld := fld (0x8008) (16) 5 (12) .rw none
def ECC_SOFT_MAG_MAG3 : Fld := fld (0x8008) (24) 5 (20) .rw none
def ECC_XOR_CTL_ANS_LIMIT : Fld := fld (0x800C) (0) 16 (100) .rw none
def ECC_XOR_CTL_REBUILD_EN : Fld := fld (0x800C) (16) 1 (1) .rw none
def ECC_XOR_CTL_BUILD_EN : Fld := fld (0x800C) (17) 1 (1) .rw none
def ECC_ROM_ADDR_ENTRY : Fld := fld (0x8010) (0) 13 (0) .rw (some 0)
def ECC_ROM_DATA_DATA : Fld := fld (0x8014) (0) 16 (0) .ro none
def ECC_XOR_STAT_SLOTS_A : Fld := fld (0x8018) (0) 4 (0) .ro (some 0)
def ECC_XOR_STAT_SLOTS_B : Fld := fld (0x8018) (4) 4 (0) .ro (some 0)
def ECC_SQUEUE_QA : Fld := fld (0x801C) (0) 5 (0) .ro (some 0)
def ECC_SQUEUE_QB : Fld := fld (0x801C) (8) 5 (0) .ro (some 0)
def ECC_HFAIL_FAIL (i : Nat) : Fld := fld (0x8040 + 4 * i) (0) 32 (0) .rc (some 0)
def ECC_SOFT_A_CONV : Fld := fld (0x8060) (0) 16 (0) .rc (some 0)
def ECC_SOFT_A_FAIL : Fld := fld (0x8060) (16) 16 (0) .rc (some 0)
def ECC_SOFT_B_CONV : Fld := fld (0x8064) (0) 16 (0) .rc (some 0)
def ECC_SOFT_B_FAIL : Fld := fld (0x8064) (16) 16 (0) .rc (some 0)
def ECC_CRCERR_FCRC : Fld := fld (0x8068) (0) 16 (0) .rc (some 0)
def ECC_CRCERR_DCRC : Fld := fld (0x8068) (16) 16 (0) .rc (some 0)
def ECC_ERASED_CNT_COUNT : Fld := fld (0x806C) (0) 32 (0) .rc (some 0)
def ECC_REBUILD_PASS : Fld := fld (0x8070) (0) 16 (0) .rc (some 0)
def ECC_REBUILD_FAIL : Fld := fld (0x8070) (16) 16 (0) .rc (some 0)
def ECC_BUILD_PASS : Fld := fld (0x8074) (0) 16 (0) .rc (some 0)
def ECC_BUILD_FAIL : Fld := fld (0x8074) (16) 16 (0) .rc (some 0)
/-- Every field of the ECC block. -/
def fldsECC : List Fld :=
    [ECC_CTL_HARD_IT, ECC_CTL_SOFT_IT, ECC_CTL_ERASED_EN, ECC_CTL_REPEAT_STOP,
      ECC_ERASED_ZEROS, ECC_SOFT_MAG_MAG0, ECC_SOFT_MAG_MAG1, ECC_SOFT_MAG_MAG2,
      ECC_SOFT_MAG_MAG3, ECC_XOR_CTL_ANS_LIMIT, ECC_XOR_CTL_REBUILD_EN, ECC_XOR_CTL_BUILD_EN,
      ECC_ROM_ADDR_ENTRY, ECC_ROM_DATA_DATA, ECC_XOR_STAT_SLOTS_A, ECC_XOR_STAT_SLOTS_B,
      ECC_SQUEUE_QA, ECC_SQUEUE_QB] ++
    ((List.range 8).flatMap fun i => [ECC_HFAIL_FAIL i]) ++
    [ECC_SOFT_A_CONV, ECC_SOFT_A_FAIL, ECC_SOFT_B_CONV, ECC_SOFT_B_FAIL,
      ECC_CRCERR_FCRC, ECC_CRCERR_DCRC, ECC_ERASED_CNT_COUNT, ECC_REBUILD_PASS,
      ECC_REBUILD_FAIL, ECC_BUILD_PASS, ECC_BUILD_FAIL]
/-! The JNP block (R342). -/
def JNP_CTL_ADOPT_EN : Fld := fld (0x9000) (0) 1 (1) .rw none
def JNP_CTL_SOFT_EN : Fld := fld (0x9000) (1) 1 (1) .rw none
def JNP_CTL_XT_EN : Fld := fld (0x9000) (2) 1 (1) .rw none
def JNP_CTL_AUTO_CAL : Fld := fld (0x9000) (3) 1 (1) .rw none
def JNP_CTL_GSHIFT : Fld := fld (0x9000) (4) 4 (5) .rw none
def JNP_CTL_PRE_DIST : Fld := fld (0x9000) (8) 4 (2) .rw none
def JNP_CTL_XT_DELTA : Fld := fld (0x9000) (16) 7 (20) .rw none
def JNP_STAT_GSHIFT_USED : Fld := fld (0x9004) (0) 4 (0) .ro none
def JNP_STAT_WEAR : Fld := fld (0x9004) (4) 1 (0) .w1c none
def JNP_STAT_CKPT_BUSY : Fld := fld (0x9004) (5) 1 (0) .ro (some 0)
def JNP_STAT_CKPT_ERR : Fld := fld (0x9004) (6) 1 (0) .w1c none
def JNP_STAT_CFG_ERR : Fld := fld (0x9004) (7) 1 (0) .w1c (some 0)
def JNP_STAT_GROUPS : Fld := fld (0x9004) (16) 15 (0) .ro none
def JNP_TABLE_REGION : Fld := fld (0x9008) (0) 5 (0) .rw none
def JNP_TABLE_ENABLE : Fld := fld (0x9008) (31) 1 (0) .rw none
def JNP_LADDER_STEPS : Fld := fld (0x900C) (0) 5 (24) .rw none
def JNP_SOFT_DELTA : Fld := fld (0x9010) (0) 4 (4) .rw none
def JNP_SOFT_R_AGREE2 : Fld := fld (0x9010) (8) 2 (3) .rw none
def JNP_SOFT_R_AGREE1 : Fld := fld (0x9010) (10) 2 (1) .rw none
def JNP_SOFT_R_AGREE0 : Fld := fld (0x9010) (12) 2 (0) .rw none
def JNP_WEAR_THRESH : Fld := fld (0x9014) (0) 3 (3) .rw none
def JNP_WEAR_MIN : Fld := fld (0x9014) (8) 8 (32) .rw none
def JNP_CAL_BLOCKS : Fld := fld (0x9018) (0) 4 (2) .rw none
def JNP_CAL_PAGES : Fld := fld (0x9018) (4) 4 (6) .rw none
def JNP_CAL_PATROL_PAGES : Fld := fld (0x9018) (8) 8 (4) .rw none
def JNP_CAL_CAL_AGE : Fld := fld (0x9018) (16) 16 (10080) .rw none
def JNP_EPOCH_MINUTES : Fld := fld (0x901C) (0) 32 (0) .rw none
def JNP_CKPT_PERIOD : Fld := fld (0x9020) (0) 16 (60) .rw none
def JNP_CKPT_NOW : Fld := fld (0x9020) (31) 1 (0) .wo (some 0)
def JNP_GRP_CLR_GROUP : Fld := fld (0x9024) (0) 14 (0) .wo (some 0)
def JNP_GRP_CLR_HEALTH : Fld := fld (0x9024) (16) 1 (0) .wo (some 0)
def JNP_GRP_CLR_WEAR : Fld := fld (0x9024) (17) 1 (0) .wo (some 0)
def JNP_GRP_CLR_TRACK : Fld := fld (0x9024) (18) 1 (0) .wo (some 0)
def JNP_XT_SLOPE_A (i : Nat) : Fld := fld (0x9040 + 4 * i) (0) 8 (0) .rw none
def JNP_XT_SLOPE_B (i : Nat) : Fld := fld (0x9040 + 4 * i) (8) 8 (0) .rw none
def JNP_LADDERS_CNT : Fld := fld (0x9060) (0) 32 (0) .rc (some 0)
def JNP_ADOPTS_CNT : Fld := fld (0x9064) (0) 32 (0) .rc (some 0)
def JNP_XT_APPLIED_CNT : Fld := fld (0x9068) (0) 32 (0) .rc (some 0)
def JNP_CAL_DROP_CNT : Fld := fld (0x906C) (0) 32 (0) .rc (some 0)
def JNP_PRELOADS_CNT : Fld := fld (0x9070) (0) 32 (0) .rc (some 0)
/-- Every field of the JNP block. -/
def fldsJNP : List Fld :=
    [JNP_CTL_ADOPT_EN, JNP_CTL_SOFT_EN, JNP_CTL_XT_EN, JNP_CTL_AUTO_CAL,
      JNP_CTL_GSHIFT, JNP_CTL_PRE_DIST, JNP_CTL_XT_DELTA, JNP_STAT_GSHIFT_USED,
      JNP_STAT_WEAR, JNP_STAT_CKPT_BUSY, JNP_STAT_CKPT_ERR, JNP_STAT_CFG_ERR,
      JNP_STAT_GROUPS, JNP_TABLE_REGION, JNP_TABLE_ENABLE, JNP_LADDER_STEPS,
      JNP_SOFT_DELTA, JNP_SOFT_R_AGREE2, JNP_SOFT_R_AGREE1, JNP_SOFT_R_AGREE0,
      JNP_WEAR_THRESH, JNP_WEAR_MIN, JNP_CAL_BLOCKS, JNP_CAL_PAGES,
      JNP_CAL_PATROL_PAGES, JNP_CAL_CAL_AGE, JNP_EPOCH_MINUTES, JNP_CKPT_PERIOD,
      JNP_CKPT_NOW, JNP_GRP_CLR_GROUP, JNP_GRP_CLR_HEALTH, JNP_GRP_CLR_WEAR,
      JNP_GRP_CLR_TRACK] ++
    ((List.range 8).flatMap fun i => [JNP_XT_SLOPE_A i, JNP_XT_SLOPE_B i]) ++
    [JNP_LADDERS_CNT, JNP_ADOPTS_CNT, JNP_XT_APPLIED_CNT, JNP_CAL_DROP_CNT,
      JNP_PRELOADS_CNT]
/-! The BOX block (R432). -/
def BOX_CTL_MPF : Fld := fld (0xA000) (0) 4 (8) .rw none
def BOX_CTL_FC_EN : Fld := fld (0xA000) (4) 1 (1) .rw none
def BOX_CEIL_VCC : Fld := fld (0xA004) (0) 16 (1024) .lock none
def BOX_CEIL_VCCQ : Fld := fld (0xA004) (16) 16 (512) .lock none
def BOX_BUDGET_VCC : Fld := fld (0xA008) (0) 16 (1024) .rw none
def BOX_BUDGET_VCCQ : Fld := fld (0xA008) (16) 16 (512) .rw none
def BOX_HU_BUDGET_VCC : Fld := fld (0xA00C) (0) 16 (1024) .rw none
def BOX_HU_BUDGET_VCCQ : Fld := fld (0xA00C) (16) 16 (512) .rw none
def BOX_CHCAP_VCC : Fld := fld (0xA010) (0) 16 (0) .rw none
def BOX_LIVE_VCC : Fld := fld (0xA014) (0) 16 (1024) .ro (some 1024)
def BOX_LIVE_VCCQ : Fld := fld (0xA014) (16) 16 (512) .ro (some 512)
def BOX_INUSE_VCC : Fld := fld (0xA018) (0) 16 (0) .ro none
def BOX_INUSE_VCCQ : Fld := fld (0xA018) (16) 16 (0) .ro none
def BOX_STAT_OVER_V : Fld := fld (0xA01C) (0) 1 (0) .ro none
def BOX_STAT_OVER_Q : Fld := fld (0xA01C) (1) 1 (0) .ro none
def BOX_STAT_WIN_A : Fld := fld (0xA01C) (2) 1 (0) .ro (some 0)
def BOX_STAT_WIN_B : Fld := fld (0xA01C) (3) 1 (0) .ro (some 0)
def BOX_STAT_FC_LATE : Fld := fld (0xA01C) (4) 1 (0) .w1c (some 0)
def BOX_STAT_FC_OVER : Fld := fld (0xA01C) (5) 1 (0) .w1c (some 0)
def BOX_STAT_RSV_V : Fld := fld (0xA01C) (6) 1 (0) .ro (some 0)
def BOX_STAT_RSV_Q : Fld := fld (0xA01C) (7) 1 (0) .ro (some 0)
def BOX_STAT_HOLDUP : Fld := fld (0xA01C) (8) 1 (0) .ro (some 0)
def BOX_STAT_OVERSIZE : Fld := fld (0xA01C) (9) 1 (0) .w1c (some 0)
def BOX_SEEK_CUT_VCC (i : Nat) : Fld := fld (0xA020 + 4 * i) (0) 16 (0) .rw none
def BOX_SEEK_CUT_VCCQ (i : Nat) : Fld := fld (0xA020 + 4 * i) (16) 16 (0) .rw none
def BOX_EOP0_FRAME_RD : Fld := fld (0xA040) (0) 16 (65) .rw none
def BOX_EOP0_FRAME_WR : Fld := fld (0xA040) (16) 16 (16) .rw none
def BOX_EOP1_READ_PAGE : Fld := fld (0xA044) (0) 16 (99) .rw none
def BOX_EOP1_PROG_PAGE : Fld := fld (0xA044) (16) 16 (20) .rw none
def BOX_EOP2_ERASE_BLK : Fld := fld (0xA048) (0) 16 (30) .rw none
def BOX_EBYTE0_BUS : Fld := fld (0xA04C) (0) 8 (5) .rw none
def BOX_EBYTE0_STORE : Fld := fld (0xA04C) (8) 8 (3) .rw none
def BOX_EBYTE0_PORT : Fld := fld (0xA04C) (16) 8 (2) .rw none
def BOX_EBYTE0_DRAM : Fld := fld (0xA04C) (24) 8 (6) .rw none
def BOX_EBYTE1_STATIC : Fld := fld (0xA050) (0) 8 (8) .rw none
def BOX_EBYTE1_ENC : Fld := fld (0xA050) (8) 8 (2) .rw none
def BOX_EBYTE1_XOR : Fld := fld (0xA050) (16) 8 (1) .rw none
def BOX_EBYTE2_HARD_L : Fld := fld (0xA054) (0) 8 (12) .rw none
def BOX_EBYTE2_HARD_S : Fld := fld (0xA054) (8) 8 (13) .rw none
def BOX_EBYTE2_HARD_D : Fld := fld (0xA054) (16) 8 (14) .rw none
def BOX_EBYTE2_SOFT : Fld := fld (0xA054) (24) 8 (140) .rw none
def BOX_ECON_SCALE : Fld := fld (0xA058) (0) 8 (192) .rw none
def BOX_EN_CP_CNT (i : Nat) : Fld := fld (0xA060 + 4 * i) (0) 32 (0) .rc (some 0)
def BOX_EN_BG_CNT : Fld := fld (0xA070) (0) 32 (0) .rc (some 0)
def BOX_FC_CNT_DROP : Fld := fld (0xA080) (0) 8 (0) .rc (some 0)
def BOX_FC_CNT_LATE : Fld := fld (0xA080) (8) 8 (0) .rc (some 0)
def BOX_FC_CNT_OVER : Fld := fld (0xA080) (16) 8 (0) .rc (some 0)
def BOX_FC_CNT_LOAD_LAST : Fld := fld (0xA080) (24) 4 (0) .ro (some 0)
def BOX_TEMP_READING : Fld := fld (0xA084) (0) 10 (0) .ro none
def BOX_TEMP_VALID : Fld := fld (0xA084) (10) 1 (0) .ro none
def BOX_TEMP_SAMPLES : Fld := fld (0xA084) (16) 16 (0) .ro none
def BOX_THRESH_COLD_CRIT : Fld := fld (0xA088) (0) 8 (226) .rw none
def BOX_THRESH_COLD_WARN : Fld := fld (0xA088) (8) 8 (246) .rw none
def BOX_THRESH_HOT_WARN : Fld := fld (0xA088) (16) 8 (100) .rw none
def BOX_THRESH_HOT_CRIT : Fld := fld (0xA088) (24) 8 (112) .rw none
def BOX_THERM_CTL_HOT_SCALE : Fld := fld (0xA08C) (0) 4 (12) .rw none
def BOX_THERM_CTL_CRIT_SCALE : Fld := fld (0xA08C) (4) 4 (8) .rw none
def BOX_THERM_STAT_COLD_CRIT : Fld := fld (0xA090) (0) 1 (0) .ro none
def BOX_THERM_STAT_COLD_WARN : Fld := fld (0xA090) (1) 1 (0) .ro none
def BOX_THERM_STAT_HOT_WARN : Fld := fld (0xA090) (2) 1 (0) .ro none
def BOX_THERM_STAT_HOT_CRIT : Fld := fld (0xA090) (3) 1 (0) .ro none
def BOX_THERM_STAT_ENTERED : Fld := fld (0xA090) (4) 4 (0) .w1c (some 0)
def BOX_THERM_STAT_THERM_ERR : Fld := fld (0xA090) (8) 1 (0) .w1c (some 0)
def BOX_THERM_STAT_FAST : Fld := fld (0xA090) (9) 1 (0) .ro none
def BOX_THERM_STAT_SENSOR_FAIL : Fld := fld (0xA090) (10) 1 (0) .ro none
/-- Every field of the BOX block. -/
def fldsBOX : List Fld :=
    [BOX_CTL_MPF, BOX_CTL_FC_EN, BOX_CEIL_VCC, BOX_CEIL_VCCQ,
      BOX_BUDGET_VCC, BOX_BUDGET_VCCQ, BOX_HU_BUDGET_VCC, BOX_HU_BUDGET_VCCQ,
      BOX_CHCAP_VCC, BOX_LIVE_VCC, BOX_LIVE_VCCQ, BOX_INUSE_VCC,
      BOX_INUSE_VCCQ, BOX_STAT_OVER_V, BOX_STAT_OVER_Q, BOX_STAT_WIN_A,
      BOX_STAT_WIN_B, BOX_STAT_FC_LATE, BOX_STAT_FC_OVER, BOX_STAT_RSV_V,
      BOX_STAT_RSV_Q, BOX_STAT_HOLDUP, BOX_STAT_OVERSIZE] ++
    ((List.range 4).flatMap fun i => [BOX_SEEK_CUT_VCC i, BOX_SEEK_CUT_VCCQ i]) ++
    [BOX_EOP0_FRAME_RD, BOX_EOP0_FRAME_WR, BOX_EOP1_READ_PAGE, BOX_EOP1_PROG_PAGE,
      BOX_EOP2_ERASE_BLK, BOX_EBYTE0_BUS, BOX_EBYTE0_STORE, BOX_EBYTE0_PORT,
      BOX_EBYTE0_DRAM, BOX_EBYTE1_STATIC, BOX_EBYTE1_ENC, BOX_EBYTE1_XOR,
      BOX_EBYTE2_HARD_L, BOX_EBYTE2_HARD_S, BOX_EBYTE2_HARD_D, BOX_EBYTE2_SOFT,
      BOX_ECON_SCALE] ++
    ((List.range 4).flatMap fun i => [BOX_EN_CP_CNT i]) ++
    [BOX_EN_BG_CNT, BOX_FC_CNT_DROP, BOX_FC_CNT_LATE, BOX_FC_CNT_OVER,
      BOX_FC_CNT_LOAD_LAST, BOX_TEMP_READING, BOX_TEMP_VALID, BOX_TEMP_SAMPLES,
      BOX_THRESH_COLD_CRIT, BOX_THRESH_COLD_WARN, BOX_THRESH_HOT_WARN, BOX_THRESH_HOT_CRIT,
      BOX_THERM_CTL_HOT_SCALE, BOX_THERM_CTL_CRIT_SCALE, BOX_THERM_STAT_COLD_CRIT, BOX_THERM_STAT_COLD_WARN,
      BOX_THERM_STAT_HOT_WARN, BOX_THERM_STAT_HOT_CRIT, BOX_THERM_STAT_ENTERED, BOX_THERM_STAT_THERM_ERR,
      BOX_THERM_STAT_FAST, BOX_THERM_STAT_SENSOR_FAIL]
/-! The YEW block (R497). -/
def YEW_CTL_WS : Fld := fld (0xB000) (0) 4 (8) .rw none
def YEW_CTL_SLICE : Fld := fld (0xB000) (8) 8 (200) .rw none
def YEW_STAT_BUSY0 : Fld := fld (0xB004) (0) 1 (0) .ro none
def YEW_STAT_BUSY1 : Fld := fld (0xB004) (1) 1 (0) .ro none
def YEW_STAT_SUSP0 : Fld := fld (0xB004) (2) 1 (0) .ro (some 0)
def YEW_STAT_SUSP1 : Fld := fld (0xB004) (3) 1 (0) .ro (some 0)
def YEW_STAT_OWNER0 : Fld := fld (0xB004) (4) 2 (0) .ro none
def YEW_STAT_OWNER1 : Fld := fld (0xB004) (6) 2 (0) .ro none
def YEW_STAT_SEQ_OPEN : Fld := fld (0xB004) (8) 1 (0) .ro (some 0)
def YEW_STAT_DONE : Fld := fld (0xB004) (9) 1 (0) .w1c (some 0)
def YEW_STAT_ERR : Fld := fld (0xB004) (10) 4 (0) .ro (some 0)
def YEW_STAT_PULSE_HIGH : Fld := fld (0xB004) (14) 1 (0) .w1c none
def YEW_STAT_SUSP_NOTICE : Fld := fld (0xB004) (15) 1 (0) .w1c none
def YEW_STAT_WS_LOW : Fld := fld (0xB004) (16) 1 (0) .ro (some 0)
def YEW_STAT_HFETCH : Fld := fld (0xB004) (17) 1 (0) .ro (some 0)
def YEW_STAT_BUS_FAULT : Fld := fld (0xB004) (18) 1 (0) .w1c (some 0)
def YEW_KEY_KEY : Fld := fld (0xB008) (0) 32 (0) .wo (some 0)
def YEW_CMD_CMD : Fld := fld (0xB00C) (0) 4 (0) .wo (some 0)
def YEW_CMD_BANK : Fld := fld (0xB00C) (4) 1 (0) .wo (some 0)
def YEW_ADDR_ADDR : Fld := fld (0xB010) (3) 20 (0) .wo (some 0)
def YEW_DATA_LO_DATA : Fld := fld (0xB014) (0) 32 (0) .wo (some 0)
def YEW_DATA_HI_DATA : Fld := fld (0xB018) (0) 32 (0) .wo (some 0)
def YEW_RADDR_ADDR : Fld := fld (0xB01C) (3) 20 (0) .rw none
def YEW_RADDR_AUTOINC : Fld := fld (0xB01C) (31) 1 (0) .rw none
def YEW_RDATA_LO_DATA : Fld := fld (0xB020) (0) 32 (0) .ro (some 0)
def YEW_RDATA_HI_DATA : Fld := fld (0xB024) (0) 32 (0) .ro (some 0)
def YEW_PULSE_LAST : Fld := fld (0xB028) (0) 8 (0) .ro none
def YEW_PULSE_MAXP : Fld := fld (0xB028) (8) 8 (0) .rc (some 0)
def YEW_PULSE_MAXE : Fld := fld (0xB028) (16) 8 (0) .rc (some 0)
def YEW_WEAR_PROG_TH : Fld := fld (0xB02C) (0) 8 (24) .rw none
def YEW_WEAR_ERASE_TH : Fld := fld (0xB02C) (8) 8 (6) .rw none
def YEW_SUSP_NOTICE : Fld := fld (0xB030) (0) 16 (100) .rw none
def YEW_SUSP_COUNT : Fld := fld (0xB030) (16) 16 (0) .ro none
def YEW_PROGRAMS_CNT : Fld := fld (0xB034) (0) 32 (0) .rc (some 0)
def YEW_ERASES_CNT : Fld := fld (0xB038) (0) 32 (0) .rc (some 0)
def YEW_FAULTS_CNT : Fld := fld (0xB03C) (0) 32 (0) .rc (some 0)
/-- Every field of the YEW block. -/
def fldsYEW : List Fld :=
    [YEW_CTL_WS, YEW_CTL_SLICE, YEW_STAT_BUSY0, YEW_STAT_BUSY1,
      YEW_STAT_SUSP0, YEW_STAT_SUSP1, YEW_STAT_OWNER0, YEW_STAT_OWNER1,
      YEW_STAT_SEQ_OPEN, YEW_STAT_DONE, YEW_STAT_ERR, YEW_STAT_PULSE_HIGH,
      YEW_STAT_SUSP_NOTICE, YEW_STAT_WS_LOW, YEW_STAT_HFETCH, YEW_STAT_BUS_FAULT,
      YEW_KEY_KEY, YEW_CMD_CMD, YEW_CMD_BANK, YEW_ADDR_ADDR,
      YEW_DATA_LO_DATA, YEW_DATA_HI_DATA, YEW_RADDR_ADDR, YEW_RADDR_AUTOINC,
      YEW_RDATA_LO_DATA, YEW_RDATA_HI_DATA, YEW_PULSE_LAST, YEW_PULSE_MAXP,
      YEW_PULSE_MAXE, YEW_WEAR_PROG_TH, YEW_WEAR_ERASE_TH, YEW_SUSP_NOTICE,
      YEW_SUSP_COUNT, YEW_PROGRAMS_CNT, YEW_ERASES_CNT, YEW_FAULTS_CNT]
/-! The HLY block (R511). -/
def HLY_CTL_QUIESCED : Fld := fld (0xC000) (0) 1 (0) .rw (some 0)
def HLY_CTL_READY : Fld := fld (0xC000) (1) 1 (0) .rw (some 0)
def HLY_CTL_WARM_REQ : Fld := fld (0xC000) (2) 1 (0) .wo (some 0)
def HLY_CTL_RESTART : Fld := fld (0xC000) (3) 1 (0) .wo (some 0)
def HLY_STAT_RUN : Fld := fld (0xC004) (0) 1 (0) .ro (some 0)
def HLY_STAT_HALT : Fld := fld (0xC004) (1) 1 (0) .ro (some 0)
def HLY_STAT_ACTIVATING : Fld := fld (0xC004) (2) 1 (0) .ro (some 0)
def HLY_STAT_HELD : Fld := fld (0xC004) (3) 1 (0) .ro (some 0)
def HLY_STAT_BANK : Fld := fld (0xC004) (4) 1 (0) .ro none
def HLY_STAT_WDOG_FIRED : Fld := fld (0xC004) (5) 1 (0) .w1c none
def HLY_STAT_NO_IMAGE : Fld := fld (0xC004) (6) 1 (0) .ro none
def HLY_STAT_REASON : Fld := fld (0xC004) (8) 8 (0) .ro none
def HLY_ACT_LIMIT_DRAIN : Fld := fld (0xC008) (0) 16 (50) .rw none
def HLY_ACT_LIMIT_START : Fld := fld (0xC008) (16) 16 (20) .rw none
def HLY_INBOX_LEVEL_LEVEL : Fld := fld (0xC00C) (0) 6 (0) .rw none
def HLY_INBOX_LEVEL_FILL : Fld := fld (0xC00C) (8) 6 (0) .ro (some 0)
def HLY_INBOX_LEVEL_HIT : Fld := fld (0xC00C) (14) 1 (0) .w1c (some 0)
def HLY_VERSION_PATCH : Fld := fld (0xC010) (0) 8 (0) .ro none
def HLY_VERSION_MINOR : Fld := fld (0xC010) (8) 8 (0) .ro none
def HLY_VERSION_MAJOR : Fld := fld (0xC010) (16) 8 (0) .ro none
def HLY_DIGEST_DIGEST (i : Nat) : Fld := fld (0xC014 + 4 * i) (0) 32 (0) .ro none
def HLY_WDOG_TIME : Fld := fld (0xC034) (0) 16 (1000) .rw none
def HLY_WDOG_KICK : Fld := fld (0xC034) (31) 1 (0) .wo (some 0)
/-- Every field of the HLY block. -/
def fldsHLY : List Fld :=
    [HLY_CTL_QUIESCED, HLY_CTL_READY, HLY_CTL_WARM_REQ, HLY_CTL_RESTART,
      HLY_STAT_RUN, HLY_STAT_HALT, HLY_STAT_ACTIVATING, HLY_STAT_HELD,
      HLY_STAT_BANK, HLY_STAT_WDOG_FIRED, HLY_STAT_NO_IMAGE, HLY_STAT_REASON,
      HLY_ACT_LIMIT_DRAIN, HLY_ACT_LIMIT_START, HLY_INBOX_LEVEL_LEVEL, HLY_INBOX_LEVEL_FILL,
      HLY_INBOX_LEVEL_HIT, HLY_VERSION_PATCH, HLY_VERSION_MINOR, HLY_VERSION_MAJOR] ++
    ((List.range 8).flatMap fun i => [HLY_DIGEST_DIGEST i]) ++
    [HLY_WDOG_TIME, HLY_WDOG_KICK]
/-! The ERR block (R531). -/
def ERR_CTL_CLEAR : Fld := fld (0xD000) (0) 1 (0) .wo (some 0)
def ERR_CTL_CORR_EN : Fld := fld (0xD000) (1) 1 (1) .rw none
def ERR_STAT_CLASS : Fld := fld (0xD004) (0) 5 (0) .w1c none
def ERR_STAT_LOST : Fld := fld (0xD004) (5) 1 (0) .w1c none
def ERR_STAT_FILL : Fld := fld (0xD004) (16) 7 (0) .ro none
def ERR_PTR_HEAD : Fld := fld (0xD008) (0) 6 (0) .rw none
def ERR_PTR_TAIL : Fld := fld (0xD008) (16) 6 (0) .ro none
def ERR_LOST_COUNT : Fld := fld (0xD00C) (0) 32 (0) .rc none
def ERR_SEL_ENTRY : Fld := fld (0xD010) (0) 6 (0) .rw none
def ERR_DATA_DATA (i : Nat) : Fld := fld (0xD014 + 4 * i) (0) 32 (0) .ro none
def ERR_SEQ_NEXT : Fld := fld (0xD034) (0) 32 (0) .ro none
def ERR_ROUTE_SRC (i : Nat) (k : Nat) : Fld := fld (0xD040 + 4 * i) (8 * k) 8 (routeCold i k) .rw none
def ERR_SRC_PEND : Fld := fld (0xD060) (0) 32 (0) .ro none
def ERR_IRQ_LINE : Fld := fld (0xD064) (0) 16 (0) .ro none
def ERR_RST_CAUSE : Fld := fld (0xD068) (0) 2 (0) .ro none
def ERR_RST_DONE : Fld := fld (0xD068) (2) 1 (0) .w1c (some 1)
def ERR_RST_RUNNING : Fld := fld (0xD068) (3) 1 (0) .ro (some 0)
def ERR_RST_REMOVED : Fld := fld (0xD068) (16) 16 (0) .ro none
def ERR_TORN_COUNT : Fld := fld (0xD06C) (0) 8 (0) .ro none
def ERR_TORN_READY : Fld := fld (0xD06C) (8) 1 (0) .ro none
def ERR_TORN_OVER : Fld := fld (0xD06C) (9) 1 (0) .ro none
def ERR_TORN_NEW : Fld := fld (0xD06C) (10) 1 (0) .w1c none
/-- Every field of the ERR block. -/
def fldsERR : List Fld :=
    [ERR_CTL_CLEAR, ERR_CTL_CORR_EN, ERR_STAT_CLASS, ERR_STAT_LOST,
      ERR_STAT_FILL, ERR_PTR_HEAD, ERR_PTR_TAIL, ERR_LOST_COUNT,
      ERR_SEL_ENTRY] ++
    ((List.range 8).flatMap fun i => [ERR_DATA_DATA i]) ++
    [ERR_SEQ_NEXT] ++
    ((List.range 8).flatMap fun i => ((List.range 4).flatMap fun k => [ERR_ROUTE_SRC i k])) ++
    [ERR_SRC_PEND, ERR_IRQ_LINE, ERR_RST_CAUSE, ERR_RST_DONE,
      ERR_RST_RUNNING, ERR_RST_REMOVED, ERR_TORN_COUNT, ERR_TORN_READY,
      ERR_TORN_OVER, ERR_TORN_NEW]
/-! The MCS block (R232). -/
def MCS_CTL_LOAD_EN : Fld := fld (0xE000) (0) 1 (0) .rw (some 0)
def MCS_CTL_FORMAT : Fld := fld (0xE000) (1) 1 (0) .ro none
def MCS_CTL_VALID : Fld := fld (0xE000) (2) 1 (0) .ro none
def MCS_CTL_AUTO_RESTART : Fld := fld (0xE000) (3) 1 (1) .rw none
def MCS_CTL_RDSEL : Fld := fld (0xE000) (4) 3 (0) .rw none
def MCS_CTL_LOAD_ERR : Fld := fld (0xE000) (7) 1 (0) .w1c (some 0)
def MCS_VERSION_PATCH : Fld := fld (0xE004) (0) 8 (0) .ro none
def MCS_VERSION_MINOR : Fld := fld (0xE004) (8) 8 (0) .ro none
def MCS_VERSION_MAJOR : Fld := fld (0xE004) (16) 8 (0) .ro none
def MCS_DIGEST_DIGEST (i : Nat) : Fld := fld (0xE008 + 4 * i) (0) 32 (0) .ro none
def MCS_SEGWD_TIME : Fld := fld (0xE028) (0) 16 (5000) .rw none
def MCS_NANO_ADDR_INDEX : Fld := fld (0xE02C) (0) 11 (0) .rw (some 0)
def MCS_NANO_ADDR_AUTOINC : Fld := fld (0xE02C) (31) 1 (0) .rw (some 0)
def MCS_NANO_DATA0_DATA : Fld := fld (0xE030) (0) 32 (0) .rw (some 0)
def MCS_NANO_DATA1_DATA : Fld := fld (0xE034) (0) 32 (0) .rw (some 0)
def MCS_NANO_DATA2_DATA : Fld := fld (0xE038) (0) 32 (0) .rw (some 0)
def MCS_CS_ERR_CORR : Fld := fld (0xE03C) (0) 16 (0) .rc (some 0)
def MCS_CS_ERR_UNC : Fld := fld (0xE03C) (16) 16 (0) .rc (some 0)
def MCS_STATE_UPC (i : Nat) : Fld := fld (0xE040 + 4 * i) (0) 15 (0) .ro (some 0)
def MCS_STATE_DEPTH (i : Nat) : Fld := fld (0xE040 + 4 * i) (15) 3 (0) .ro (some 0)
def MCS_STATE_IM (i : Nat) : Fld := fld (0xE040 + 4 * i) (18) 3 (0) .ro (some 0)
def MCS_STATE_RUN (i : Nat) : Fld := fld (0xE040 + 4 * i) (21) 1 (0) .ro (some 0)
def MCS_STATE_HALT (i : Nat) : Fld := fld (0xE040 + 4 * i) (22) 1 (0) .ro (some 0)
def MCS_FAULT_UPC (i : Nat) : Fld := fld (0xE060 + 4 * i) (0) 15 (0) .ro (some 0)
def MCS_FAULT_VALID (i : Nat) : Fld := fld (0xE060 + 4 * i) (15) 1 (0) .w1c (some 0)
def MCS_FAULT_CODE (i : Nat) : Fld := fld (0xE060 + 4 * i) (16) 4 (0) .ro (some 0)
def MCS_FAULT_STUCK (i : Nat) : Fld := fld (0xE060 + 4 * i) (20) 1 (0) .ro (some 0)
def MCS_FAULT_TCODE (i : Nat) : Fld := fld (0xE060 + 4 * i) (24) 8 (0) .ro (some 0)
/-- Every field of the MCS block. -/
def fldsMCS : List Fld :=
    [MCS_CTL_LOAD_EN, MCS_CTL_FORMAT, MCS_CTL_VALID, MCS_CTL_AUTO_RESTART,
      MCS_CTL_RDSEL, MCS_CTL_LOAD_ERR, MCS_VERSION_PATCH, MCS_VERSION_MINOR,
      MCS_VERSION_MAJOR] ++
    ((List.range 8).flatMap fun i => [MCS_DIGEST_DIGEST i]) ++
    [MCS_SEGWD_TIME, MCS_NANO_ADDR_INDEX, MCS_NANO_ADDR_AUTOINC, MCS_NANO_DATA0_DATA,
      MCS_NANO_DATA1_DATA, MCS_NANO_DATA2_DATA, MCS_CS_ERR_CORR, MCS_CS_ERR_UNC] ++
    ((List.range 8).flatMap fun i => [MCS_STATE_UPC i, MCS_STATE_DEPTH i, MCS_STATE_IM i, MCS_STATE_RUN i, MCS_STATE_HALT i]) ++
    ((List.range 8).flatMap fun i => [MCS_FAULT_UPC i, MCS_FAULT_VALID i, MCS_FAULT_CODE i, MCS_FAULT_STUCK i, MCS_FAULT_TCODE i])
/-! The CH block (R280). -/
def CH_CTL_RST (n : Nat) : Fld := fld (0x20000 + 0x1000 * n) (0) 1 (0) .wo (some 0)
def CH_CTL_AUTO_TRAIN (n : Nat) : Fld := fld (0x20000 + 0x1000 * n) (1) 1 (1) .rw none
def CH_CTL_FULL_EN (n : Nat) : Fld := fld (0x20000 + 0x1000 * n) (2) 1 (1) .rw none
def CH_CTL_PRE_EN (n : Nat) : Fld := fld (0x20000 + 0x1000 * n) (3) 1 (1) .rw none
def CH_CTL_MAX_BIN (n : Nat) : Fld := fld (0x20000 + 0x1000 * n) (4) 4 (11) .rw none
def CH_CTL_GAP (n : Nat) : Fld := fld (0x20000 + 0x1000 * n) (8) 8 (20) .rw none
def CH_STAT_LEVEL (n : Nat) : Fld := fld (0x20004 + 0x1000 * n) (0) 2 (0) .ro none
def CH_STAT_BIN (n : Nat) : Fld := fld (0x20004 + 0x1000 * n) (2) 4 (0) .ro none
def CH_STAT_FLAGGED (n : Nat) : Fld := fld (0x20004 + 0x1000 * n) (6) 1 (0) .ro none
def CH_STAT_FALLBACK (n : Nat) : Fld := fld (0x20004 + 0x1000 * n) (7) 1 (0) .ro none
def CH_STAT_TRAINING (n : Nat) : Fld := fld (0x20004 + 0x1000 * n) (8) 1 (0) .ro (some 0)
def CH_STAT_PWRGD (n : Nat) : Fld := fld (0x20004 + 0x1000 * n) (9) 1 (0) .ro none
def CH_STAT_LVL_CHG (n : Nat) : Fld := fld (0x20004 + 0x1000 * n) (10) 1 (0) .w1c (some 0)
def CH_STAT_CHERR (n : Nat) : Fld := fld (0x20004 + 0x1000 * n) (11) 1 (0) .w1c (some 0)
def CH_STAT_TRAIN_FAIL (n : Nat) : Fld := fld (0x20004 + 0x1000 * n) (12) 1 (0) .w1c (some 0)
def CH_STAT_LOOP_FAIL (n : Nat) : Fld := fld (0x20004 + 0x1000 * n) (13) 1 (0) .w1c (some 0)
def CH_STAT_EVT_HIT (n : Nat) : Fld := fld (0x20004 + 0x1000 * n) (14) 1 (0) .w1c (some 0)
def CH_STAT_CHERR_KIND (n : Nat) : Fld := fld (0x20004 + 0x1000 * n) (16) 4 (0) .ro none
def CH_MODE_IFMODE (n : Nat) : Fld := fld (0x20008 + 0x1000 * n) (0) 2 (0) .ro none
def CH_MODE_SDR_TM (n : Nat) : Fld := fld (0x20008 + 0x1000 * n) (2) 3 (0) .ro none
def CH_MODE_TRAINED_BIN (n : Nat) : Fld := fld (0x20008 + 0x1000 * n) (8) 4 (15) .ro none
def CH_MODE_CAP_BIN (n : Nat) : Fld := fld (0x20008 + 0x1000 * n) (12) 4 (0) .ro none
def CH_STAMP_ACT (n : Nat) : Fld := fld (0x2000C + 0x1000 * n) (0) 4 (0) .ro none
def CH_STAMP_VPT (n : Nat) : Fld := fld (0x2000C + 0x1000 * n) (4) 2 (0) .ro none
def CH_STAMP_TEMP (n : Nat) : Fld := fld (0x2000C + 0x1000 * n) (8) 10 (0) .ro none
def CH_STAMP_VALID (n : Nat) : Fld := fld (0x2000C + 0x1000 * n) (31) 1 (0) .ro none
def CH_BOUND_TEMP_WIN (n : Nat) : Fld := fld (0x20010 + 0x1000 * n) (0) 8 (15) .rw none
def CH_BOUND_LOAD_WIN (n : Nat) : Fld := fld (0x20010 + 0x1000 * n) (8) 4 (2) .rw none
def CH_MARGIN_THRESH (n : Nat) : Fld := fld (0x20014 + 0x1000 * n) (0) 6 (28) .rw none
def CH_MARGIN_GUARD (n : Nat) : Fld := fld (0x20014 + 0x1000 * n) (8) 6 (4) .rw none
def CH_MARGIN_LAST (n : Nat) : Fld := fld (0x20014 + 0x1000 * n) (16) 8 (0) .ro none
def CH_MARGIN_PRED (n : Nat) : Fld := fld (0x20014 + 0x1000 * n) (24) 8 (0) .ro none
def CH_EVT_LEVEL_LEVEL (n : Nat) : Fld := fld (0x20018 + 0x1000 * n) (0) 7 (0) .rw none
def CH_EVT_LEVEL_FILL (n : Nat) : Fld := fld (0x20018 + 0x1000 * n) (16) 7 (0) .ro (some 0)
def CH_ERRCNT_PHYERR (n : Nat) : Fld := fld (0x2001C + 0x1000 * n) (0) 16 (0) .rc (some 0)
def CH_ERRCNT_CHERR (n : Nat) : Fld := fld (0x2001C + 0x1000 * n) (16) 8 (0) .rc (some 0)
def CH_ERRCNT_FALLBACKS (n : Nat) : Fld := fld (0x2001C + 0x1000 * n) (24) 8 (0) .rc (some 0)
def CH_T_RDQ0_DLY (n : Nat) (t : Nat) (k : Nat) : Fld := fld (0x20040 + 0x1000 * n + 0x20 * t) (8 * k) 8 (32) .ro none
def CH_T_RDQ1_DLY (n : Nat) (t : Nat) (k : Nat) : Fld := fld (0x20044 + 0x1000 * n + 0x20 * t) (8 * k) 8 (32) .ro none
def CH_T_WDQ0_DLY (n : Nat) (t : Nat) (k : Nat) : Fld := fld (0x20048 + 0x1000 * n + 0x20 * t) (8 * k) 8 (32) .ro none
def CH_T_WDQ1_DLY (n : Nat) (t : Nat) (k : Nat) : Fld := fld (0x2004C + 0x1000 * n + 0x20 * t) (8 * k) 8 (32) .ro none
def CH_T_DQS_RD_GATE (n : Nat) (t : Nat) : Fld := fld (0x20050 + 0x1000 * n + 0x20 * t) (0) 8 (32) .ro none
def CH_T_DQS_WR_DQS (n : Nat) (t : Nat) : Fld := fld (0x20050 + 0x1000 * n + 0x20 * t) (8) 8 (32) .ro none
def CH_T_DQS_RE_DCC (n : Nat) (t : Nat) : Fld := fld (0x20050 + 0x1000 * n + 0x20 * t) (16) 8 (128) .ro none
def CH_T_DQS_DQS_DCC (n : Nat) (t : Nat) : Fld := fld (0x20050 + 0x1000 * n + 0x20 * t) (24) 8 (128) .ro none
def CH_T_EYE_RD_EYE (n : Nat) (t : Nat) : Fld := fld (0x20054 + 0x1000 * n + 0x20 * t) (0) 6 (0) .ro none
def CH_T_EYE_WR_EYE (n : Nat) (t : Nat) : Fld := fld (0x20054 + 0x1000 * n + 0x20 * t) (8) 6 (0) .ro none
def CH_T_EYE_BIN (n : Nat) (t : Nat) : Fld := fld (0x20054 + 0x1000 * n + 0x20 * t) (16) 4 (0) .ro none
def CH_T_EYE_VALID (n : Nat) (t : Nat) : Fld := fld (0x20054 + 0x1000 * n + 0x20 * t) (31) 1 (0) .ro none
def CH_T_ODT_DIE_ODT (n : Nat) (t : Nat) : Fld := fld (0x20058 + 0x1000 * n + 0x20 * t) (0) 8 (0) .rw none
def CH_T_ODT_DIE_DRV (n : Nat) (t : Nat) : Fld := fld (0x20058 + 0x1000 * n + 0x20 * t) (8) 8 (0) .rw none
def CH_T_ODT_PHY_ODT (n : Nat) (t : Nat) : Fld := fld (0x20058 + 0x1000 * n + 0x20 * t) (16) 3 (3) .rw none
def CH_T_ODT_PHY_DRV (n : Nat) (t : Nat) : Fld := fld (0x20058 + 0x1000 * n + 0x20 * t) (20) 3 (3) .rw none
def CH_T_TIME_TIME (n : Nat) (t : Nat) : Fld := fld (0x2005C + 0x1000 * n + 0x20 * t) (0) 32 (0) .ro none
/-- Every field of the CH block. -/
def fldsCH : List Fld :=
    ((List.range 8).flatMap fun n => [CH_CTL_RST n, CH_CTL_AUTO_TRAIN n, CH_CTL_FULL_EN n, CH_CTL_PRE_EN n,
      CH_CTL_MAX_BIN n, CH_CTL_GAP n, CH_STAT_LEVEL n, CH_STAT_BIN n,
      CH_STAT_FLAGGED n, CH_STAT_FALLBACK n, CH_STAT_TRAINING n, CH_STAT_PWRGD n,
      CH_STAT_LVL_CHG n, CH_STAT_CHERR n, CH_STAT_TRAIN_FAIL n, CH_STAT_LOOP_FAIL n,
      CH_STAT_EVT_HIT n, CH_STAT_CHERR_KIND n, CH_MODE_IFMODE n, CH_MODE_SDR_TM n,
      CH_MODE_TRAINED_BIN n, CH_MODE_CAP_BIN n, CH_STAMP_ACT n, CH_STAMP_VPT n,
      CH_STAMP_TEMP n, CH_STAMP_VALID n, CH_BOUND_TEMP_WIN n, CH_BOUND_LOAD_WIN n,
      CH_MARGIN_THRESH n, CH_MARGIN_GUARD n, CH_MARGIN_LAST n, CH_MARGIN_PRED n,
      CH_EVT_LEVEL_LEVEL n, CH_EVT_LEVEL_FILL n, CH_ERRCNT_PHYERR n, CH_ERRCNT_CHERR n,
      CH_ERRCNT_FALLBACKS n] ++
    ((List.range 8).flatMap fun t => (List.range 4).map (CH_T_RDQ0_DLY n t) ++ (List.range 4).map (CH_T_RDQ1_DLY n t) ++
      (List.range 4).map (CH_T_WDQ0_DLY n t) ++ (List.range 4).map (CH_T_WDQ1_DLY n t) ++ [CH_T_DQS_RD_GATE n t, CH_T_DQS_WR_DQS n t, CH_T_DQS_RE_DCC n t, CH_T_DQS_DQS_DCC n t,
      CH_T_EYE_RD_EYE n t, CH_T_EYE_WR_EYE n t, CH_T_EYE_BIN n t, CH_T_EYE_VALID n t,
      CH_T_ODT_DIE_ODT n t, CH_T_ODT_DIE_DRV n t, CH_T_ODT_PHY_ODT n t, CH_T_ODT_PHY_DRV n t,
      CH_T_TIME_TIME n t]))
/-! The DBG block (R573). -/
def DBG_LOCK_LOCKED : Fld := fld (0x30000) (0) 1 (0) .lock none
def DBG_LOCK_REFUSED : Fld := fld (0x30000) (1) 1 (0) .w1c (some 0)
def DBG_INJ_ADDR_WORD : Fld := fld (0x30004) (3) 22 (0) .rw none
def DBG_INJ_CTL_NBITS : Fld := fld (0x30008) (0) 2 (1) .rw none
def DBG_INJ_CTL_DONE : Fld := fld (0x30008) (30) 1 (0) .w1c (some 0)
def DBG_INJ_CTL_ARM : Fld := fld (0x30008) (31) 1 (0) .rw (some 0)
def DBG_FORCE_COUNT : Fld := fld (0x3000C) (0) 8 (0) .rw (some 0)
def DBG_FORCE_CHANNEL : Fld := fld (0x3000C) (8) 3 (0) .rw none
def DBG_FORCE_SOFT : Fld := fld (0x3000C) (11) 1 (0) .rw none
def DBG_SCRATCH_VALUE (i : Nat) : Fld := fld (0x30010 + 4 * i) (0) 32 (0) .rw none
/-- Every field of the DBG block. -/
def fldsDBG : List Fld :=
    [DBG_LOCK_LOCKED, DBG_LOCK_REFUSED, DBG_INJ_ADDR_WORD, DBG_INJ_CTL_NBITS,
      DBG_INJ_CTL_DONE, DBG_INJ_CTL_ARM, DBG_FORCE_COUNT, DBG_FORCE_CHANNEL,
      DBG_FORCE_SOFT] ++
    ((List.range 4).flatMap fun i => [DBG_SCRATCH_VALUE i])
/-- Every field of the window (R563). -/
def all : List Fld :=
  fldsGLB ++ fldsPWR ++ fldsCOP ++ fldsHDG ++ fldsQUE ++ fldsDMA ++ fldsTOP ++ fldsMAP ++ fldsECC ++ fldsJNP ++ fldsBOX ++ fldsYEW ++ fldsHLY ++ fldsERR ++ fldsMCS ++ fldsCH ++ fldsDBG

/-- The fields of the block that holds an address (R563). -/
def blockFlds (addr : Nat) : List Fld :=
  match addr / 0x1000 with
  | 0x0 => fldsGLB
  | 0x1 => fldsPWR
  | 0x2 => fldsCOP
  | 0x3 => fldsHDG
  | 0x4 => fldsQUE
  | 0x5 => fldsDMA
  | 0x6 => fldsTOP
  | 0x7 => fldsMAP
  | 0x8 => fldsECC
  | 0x9 => fldsJNP
  | 0xA => fldsBOX
  | 0xB => fldsYEW
  | 0xC => fldsHLY
  | 0xD => fldsERR
  | 0xE => fldsMCS
  | 0x30 => fldsDBG
  | b => if 0x20 ≤ b ∧ b < 0x28 then fldsCH else []

/-- The fields of one register. -/
def atAddr (addr : Nat) : List Fld := (blockFlds addr).filter fun f => f.addr == addr

end Sys2Proof.Machine.Reg
end

