-- ==== Sys2Proof/Machine/State.lean ====
section
/-!
DEFINITION. The state of the complex as plain data, its faults and refusals, and the state after reset. Registers
that software sees stand in one sparse store, `regs`, keyed by field; everything else the spec gives a unit stands
in that unit's structure.
-/
namespace Sys2Proof.Machine

/-- The ways a command stops the machine: none. Every command of the complex answers a next state, whatever its operands
hold (log entry 5). -/
inductive Fault
deriving DecidableEq, Repr

/-- The commands that have no meaning. -/
inductive Refusal where
  /-- Raised by an arm of exec that has no meaning yet. Safe. -/
  | notModelled (mnemonic : String)
deriving DecidableEq, Repr

/-- The answer of a register access or a client-port access: a value, or an error response (R13, R482, R483). -/
inductive Resp where
  | none
  | value (v : Nat)
  | bytes (l : List Byte)
  | error
deriving DecidableEq, Repr

/-- An error record (R525). SEQ is given when it enters the ring. -/
structure ErrRec where
  cls : Nat
  src : Nat
  code : Nat
  sub : Nat := 0
  seq : Nat := 0
  tstamp : Nat := 0
  obj : Nat := 0
  aux : Nat := 0
  tag : Option Nat := .none
  req : Nat := 0
deriving DecidableEq, Repr

/-- The error log (R525, R529): the record buffered in each unit, in the order raised, and the ring. -/
structure ErrLog where
  buf : List ErrRec := []
  ring : Tab (Option ErrRec) := []
  /-- The bytes of the ring's unconsumed entries that an overwrite moved keep their slots; TORN list of R523. -/
  torn : List Torn := []
  tornTime : Nat := 0
deriving DecidableEq, Repr

/-- The metadata of a frame (R282). -/
structure Meta where
  kind : Nat := 0
  poison : Bool := false
  cold : Bool := false
  atomic : Bool := false
  holdup : Bool := false
  region : Nat := 0
  cclass : Nat := 0
  level : Nat := 0
  quarter : Nat := 0
  ptemp : Nat := 0
  name : Nat := 0
  seq : Nat := 0
  group : Nat := 0
  gpos : Nat := 0
  glen : Nat := 0
  dcrc : Nat := 0
  fcrc : Nat := 0
deriving DecidableEq, Repr

/-- A command packet (R39). Bytes 24 to 55 are held as one number. -/
structure Pkt where
  opcode : Nat := 0
  flags : Nat := 0
  tagw : Nat := 0
  word4 : Nat := 0
  addr : Nat := 0
  length : Nat := 0
  hlist : Nat := 0
  mid : Nat := 0
  word56 : Nat := 0
  pcrc : Nat := 0
deriving DecidableEq, Repr

/-- Where a command stands between its entry and its record (R49, R129, R133). -/
inductive Stage where
  /-- Entered; a slow-path packet of this stage waits in the Holly inbox or has just left it. -/
  | entered
  /-- Its effect is under way. -/
  | running
  /-- Its record is requested (R103). -/
  | requested
  /-- Its record is granted: past the commit point (R129). -/
  | granted
  /-- Its record is parked (R471). -/
  | parked
deriving DecidableEq, Repr

/-- Where a frame of a command stands. -/
inductive FSt where
  | idle
  /-- Waits for a pending write to take over its buffer, or for HOLDS to fall (R114, R386). -/
  | waitWrite
  /-- Waits on a map page (R155), or on a write point or an update limit (R161). -/
  | waitMap
  /-- An operation on a die serves it. -/
  | onDie
  /-- Held in a buffer and ready to be delivered (R66). -/
  | ready
  | done
deriving DecidableEq, Repr

/-- One frame of a command: its position, its LFA or index, its state, the PFA it was translated or assigned to and
its class, the buffer it uses, its outcome as a status code, and its retry depth. -/
structure Frame where
  pos : Nat
  lfa : Nat := 0
  st : FSt := .idle
  pfa : Nat := 0
  cclass : Nat := 0
  entrySeq : Nat := 0
  byMap : Bool := false
  buf : Option Nat := .none
  held : Option Nat := .none
  out : Nat := 0
  retry : Nat := 0
  unmapped : Bool := false
  fwd : Bool := false
  detail : Nat := 0
deriving DecidableEq, Repr

/-- An entry of the tag table: a command whose tag is outstanding (R49). -/
structure Cmd where
  tag : Nat
  pkt : Pkt := {}
  pair : Nat := 0
  sqHead : Nat := 0
  order : Nat := 0
  fetched : Nat := 0
  stage : Stage := .entered
  /-- The status of its record once it is known (R57). -/
  status : Nat := 0
  /-- A die operation of the command was issued (R513). -/
  issued : Bool := false
  /-- The last moment at which the command may be removed has passed (R133). -/
  past : Bool := false
  /-- An ABORT or a warm reset has removed it (R130). -/
  removed : Bool := false
  /-- It is a pending write that was accepted (R113). -/
  accepted : Bool := false
  frames : List Frame := []
  /-- Buffers granted to the command or taken over by it, in handle order. -/
  bufs : List Nat := []
  handles : List Nat := []
  slots : List Slot := []
  /-- Frames done, buffers granted or names removed, for FRAMES (R54). -/
  count : Nat := 0
  detail : Nat := 0
  result : Nat := 0
  /-- Energy charged so far, in pJ (R428). -/
  pj : Nat := 0
  /-- Covered commands, pages or ports that a FLUSH, MAP_SYNC, MAP_PIN or DETACH waits for. -/
  waits : List Nat := []
  pages : List PageKey := []
  group : Option Nat := .none
  /-- How far a command of several stages has come. -/
  phase : Nat := 0
deriving DecidableEq, Repr

/-- A completion record or a request for one (R54, R103). `live` says that the tag table holds its command. -/
structure Rec where
  tag : Nat
  live : Bool := true
  cls : Nat := 0
  status : Nat := 0
  opcode : Nat := 0
  detail : Nat := 0
  frames : Nat := 0
  retry : Nat := 0
  sqid : Nat := 0
  parked : Bool := false
  sqHead : Nat := 0
  energy : Nat := 0
  tstamp : Nat := 0
  result : Nat := 0
  fetched : Nat := 0
  deadline : Nat := 0
deriving DecidableEq, Repr

/-- A submission and completion queue pair (R95, R98, R99): heads, tails, the phase of the present pass, and the
CQ entries claimed. -/
structure QPair where
  sqHead : Nat := 0
  sqTail : Nat := 0
  cqHead : Nat := 0
  cqTail : Nat := 0
  phase : Bool := true
  claimed : Nat := 0
deriving DecidableEq, Repr

/-- A pending write in the range table (R113, R116). -/
structure Range where
  tag : Nat
  order : Nat
  region : Nat
  first : Nat
  len : Nat
  port : Nat := 0
  /-- The command has completed and its tag may be reused; its frames are still dirty. -/
  gone : Bool := false
deriving DecidableEq, Repr

/-- An accepted frame of an LFA write that is dirty or waits for its final pass (R37, R444). -/
structure Dirty where
  order : Nat
  pos : Nat
  region : Nat
  lfa : Nat
  cclass : Nat
  pfa : Nat
  /-- The PFA of the first frame of its map unit (R147). -/
  base : Nat := 0
  seq : Nat
  buf : Nat
  tag : Nat
  client : Nat
  fua : Bool := false
  group : Option Nat := .none
  cold : Bool := false
  poison : Bool := false
  /-- Its program failed, or it has no slot yet: policy firmware must give it one (R36). -/
  lost : Bool := false
  /-- It is programmed again after a failure (R36). -/
  redo : Bool := false
  gpos : Nat := 0
  glen : Nat := 0
  /-- Its update was dropped under R163, or its command was removed (R580): it is dirty no longer. -/
  stale : Bool := false
deriving DecidableEq, Repr

/-- An accepted atomic group (R123, R125): number, region, first LFA, length. -/
structure Group where
  num : Nat
  region : Nat
  first : Nat
  len : Nat
deriving DecidableEq, Repr

/-- What an outstanding read of the DRAM port is for (R557). -/
inductive DramUse where
  | packet (pair sqHead fetched : Nat)
  | other
deriving DecidableEq, Repr

/-- The packet engine (R93 to R103, R62). -/
structure Que where
  pairs : Tab QPair := []
  rot : Nat := 0
  order : Nat := 0
  cmds : List Cmd := []
  reqs : List Rec := []
  csf : List Rec := []
  inbox : List Nat := []
  ranges : List Range := []
  dirty : List Dirty := []
  groups : List Group := []
  nextGroup : Nat := 0
  dramReads : List (Nat × DramUse) := []
  nextRead : Nat := 0
  /-- SQs whose fetching waits for a range entry or a DMA descriptor (R116, R396): pair and tag. -/
  heldSq : List (Nat × Nat) := []
  /-- Attached ports: tag base and tag count (R87). -/
  att : Tab (Option (Nat × Nat)) := []
  dark : List Nat := []
  parked : Tab (List Rec) := []
  /-- Records dropped per port: count, first tag, last tag (R474). -/
  dropped : Tab (Nat × Nat × Nat) := []
deriving DecidableEq, Repr

/-- What a store word holds beside its bits: a number of inverted data bits, or the check pattern of R353. -/
inductive Mark where
  | clean
  | inv (n : Nat)
  | bad
deriving DecidableEq, Repr

/-- A region change (R357 to R359): the new use, class and VT, and whether it holds its lease. -/
structure RgnChg where
  use : Nat
  cls : Nat
  vt : Nat
  /-- 0 waits for its lease, 1 withdraws pool buffers, 2 re-initialises. -/
  stage : Nat := 0
deriving DecidableEq, Repr

/-- The central store (R343 to R370). -/
structure Hdg where
  /-- Written bytes. An unlisted byte of a region in `zeroed` reads 0; any other unlisted byte is unwritten. -/
  mem : List Host.Cell := []
  zeroed : List Nat := [0, 1, 2, 3]
  /-- 4 KiB units of `zeroed` regions whose unlisted bytes are undefined since a grant: draw number + 1 (R373). -/
  undef : Tab Nat := []
  marks : Tab Mark := []
  /-- Lines of VALID_TRACK regions whose valid bit is 1, by address / 32 (R355). -/
  valid : List Nat := []
  chg : Tab (Option RgnChg) := []
  /-- Lines left in Gorse's batch (R197), ACLK tick at the start of the lap, regions whose first uncorrectable word
  of the lap is recorded (R364), the line awaiting its rewrite (R363), and whether LAP_SLOW was set this lap. -/
  batch : Nat := 0
  lapStart : Nat := 0
  lapUnc : List Nat := []
  rewrite : Option Nat := .none
  lapWarned : Bool := false
  /-- SCRUB_STORE and SELFTEST_STORE activities that hold their lease: store region and tag. -/
  scrub : List (Nat × Nat) := []
  selftest : List (Nat × Nat) := []
deriving DecidableEq, Repr

/-- A pool buffer's state entry (R372). -/
structure Buf where
  alloc : Bool := false
  gen : Nat := 0
  grantee : Nat := 0
  rsv : Bool := false
  owners : List Nat := []
  holds : Nat := 0
  slot : Meta := {}
  dcrcV : Bool := false
deriving DecidableEq, Repr

/-- Who a granted buffer goes to. -/
inductive For where
  /-- BUF_ALLOC of a tag (R77). -/
  | alloc (tag : Nat)
  /-- Frame `pos` of a KEEP or STREAM read, or of a COPY (R66, R74). -/
  | frame (tag pos : Nat)
  /-- The accumulator of an XOR slot (R306). -/
  | xor (wing slot : Nat)
deriving DecidableEq, Repr

/-- A pending request for buffers (R377 to R381): requester, buffers still wanted, general and reserve buffers
booked for a TRY, and the order in which it was first found ineligible. -/
structure BufReq where
  req : Nat
  use : For
  left : Nat
  bookG : Nat := 0
  bookR : Nat := 0
  waited : Option Nat := .none
deriving DecidableEq, Repr

/-- The buffer pool manager (R371 to R392). -/
structure Cop where
  bufs : Tab Buf := []
  ready : List Nat := []
  /-- Strand k: index of its head and its length (R374). -/
  heads : Tab (Option Nat) := []
  lens : Tab Nat := []
  popPtr : Nat := 0
  pushPtr : Nat := 0
  grantPtr : Nat := 0
  reqs : List BufReq := []
  waitNo : Nat := 0
deriving DecidableEq, Repr

/-- A slot of the map cache (R152). -/
structure MapSlot where
  key : PageKey
  lru : Nat := 0
  dirty : Bool := false
  pin : Bool := false
  gpins : List Nat := []
  /-- Mask of the ports whose writes changed it since its last write-back (R121). -/
  ports : Nat := 0
deriving DecidableEq, Repr

/-- A lookup that waits on a map page: the command and frame, in entry order (R155). -/
structure Waiter where
  tag : Nat
  pos : Nat
  order : Nat
deriving DecidableEq, Repr

/-- An entry of the miss table (R155, R156): the page, the store slot it will fill, how far it is, the PFA, class and
sequence its parent entry names, and the lookups chained to it. -/
structure Miss where
  key : PageKey
  slot : Option Nat := .none
  /-- 0 waits for a slot or for its parent, 1 a zero fill runs (R150), 2 a die read runs. -/
  stage : Nat := 0
  /-- A quarter of the page ended its ladder unread, or carries another identity; the quarters read so far. -/
  bad : Bool := false
  /-- The LUN of a quarter whose read ended with DIE_ABSENT (R81, R136). -/
  absent : Option Nat := .none
  parts : List (Nat × List Byte) := []
  pfa : Nat := 0
  cclass : Nat := 0
  seq : Nat := 0
  waiters : List Waiter := []
deriving DecidableEq, Repr

/-- A write-back in flight (R159, R160): the page, the slot PFA it is programmed at, whether it is an eviction or a
background one, and whether an entry changed after the snapshot. -/
structure WB where
  key : PageKey
  pfa : Nat
  cclass : Nat := 3
  snap : List Byte := []
  changed : Bool := false
  /-- Mask of the ports whose writes changed it since the snapshot. -/
  since : Nat := 0
  /-- The map sequence number at the snapshot (R282), and commands that wait for the page (R121, R165). -/
  seq : Nat := 0
  who : List Nat := []
  /-- A frame of it failed to program. -/
  bad : Bool := false
  evict : Bool := false
  /-- It was started in the background (R159), and the class of its programs (R43). -/
  bg : Bool := false
  cls : Nat := 2
  /-- Its program has passed, and its parent entry waits for the directory page (R162). -/
  fin : Bool := false
  /-- A page found at bring-up, whose parent entry is replayed (R162). -/
  replayed : Bool := false
deriving DecidableEq, Repr

/-- A loaded entry of the region table (R144). -/
structure LRgn where
  v : Bool := false
  cclass : Nat := 0
  unit : Nat := 0
  size : Nat := 0
  root : Nat := 0
deriving DecidableEq, Repr

/-- A map update that waits for its page, for earlier reads or for DIRTY.LIMIT (R114, R115, R157, R161). -/
structure Upd where
  order : Nat
  region : Nat
  lfa : Nat
  entry : Nat
  /-- The entry must name this PFA for the update to apply (R36, R163), if given. -/
  onlyIf : Option Nat := .none
  /-- Position of its frame in the write, and its atomic group. -/
  pos : Nat := 0
  group : Option Nat := .none
  /-- The tag of a FUA program, whose replaced entries are kept (R580). -/
  fua : Option Nat := .none
  /-- 0 a write, 1 a conditional COPY (R163), 2 a rewrite of an accepted frame (R36, R446). -/
  kind : Nat := 0
  /-- The port of its write. -/
  port : Nat := 0
  /-- Its lookup has missed (R167). -/
  missed : Bool := false
  /-- It is replayed at bring-up: it applies where the entry is older (R128). -/
  newer : Bool := false
deriving DecidableEq, Repr

/-- The map walker (R151 to R167). -/
structure Map where
  slots : Tab (Option MapSlot) := []
  clock : Nat := 0
  miss : List Miss := []
  broken : List PageKey := []
  /-- BROKEN pages that could not be read because a LUN is ABSENT: the page and the LUN (R81, R82). -/
  absent : List (PageKey × Nat) := []
  rgns : Tab LRgn := []
  retiring : List Nat := []
  upds : List Upd := []
  wbs : List WB := []
  /-- Entries that updates of FUA programs replaced (R580): tag, region, LFA, old entry, new PFA. -/
  replaced : List (Nat × Nat × Nat × Nat × Nat) := []
  /-- Old PFAs passed to policy firmware (R158), newest first, and pages whose first resident use is held. -/
  freed : List Nat := []
  /-- Rebuilt pages that policy firmware has installed and that wait for a way of their set (R157). -/
  rebuilt : List (PageKey × List Byte) := []
  halted : Bool := false
  ckpt : Option (Nat × Nat) := .none
deriving DecidableEq, Repr

/-- The kinds of operation of R168: a page read, a raw read (R68), a soft read (R323), a program pass and an erase. -/
inductive OpKind where
  | read | raw | soft | prog | erase
deriving DecidableEq, Repr

/-- What a frame on its way from or to a die belongs to: a frame of a command, a quarter of a map page, an entry of an
XOR operation, a sample of a CALIB or a PATROL, an accepted frame of an LFA write (entry order and position), a pad frame, or a frame that nobody owns any
longer and of whose wordline group a pass has begun: the later passes send its bytes again. -/
inductive FRef where
  | cmd (tag pos : Nat)
  | map (key : PageKey) (quarter : Nat)
  | xor (wing slot entry : Nat)
  | calib (ch : Nat)
  | patrol (lun : Nat)
  | dirty (order pos : Nat)
  | pad
  | gone
deriving DecidableEq, Repr

/-- Where an operation stands: in its queue, refused by Boxwood, waiting for the evaluation of its request, granted or
refused with the answer on its way (R184), with a segment waiting or running, in its array phase, or suspended. -/
inductive OpSt where
  | queued | refused | asked | won | lost | bus | array | suspended
deriving DecidableEq, Repr

/-- One part of an operation: a bus segment (R175), or the array phase that follows its confirm (`kind` 1). -/
structure Leg where
  routine : Nat := 0
  /-- SEGKIND of R203: 0 command, 1 the array phase, 2 data-out, 3 data-in. -/
  kind : Nat := 0
  plane : Nat := 0
  page : Nat := 0
  col : Nat := 0
  count : Nat := 0
  /-- OB0 bits 1:0 (R203). -/
  cache : Nat := 0
  levels : List Int := []
  /-- OB8, and OB9 of a soft pass (R203, R239). -/
  level : Nat := 0
  soft : Nat := 0
  /-- The flights a data-out segment brings, in order, with the bytes of each. -/
  fl : List (Nat × Nat) := []
deriving DecidableEq, Repr

/-- An operation of a LUN (R168, R172, R188). -/
structure Op where
  id : Nat
  kind : OpKind := .read
  lun : Nat := 0
  cls : Nat := 1
  aged : Bool := false
  eclass : Nat := 0
  deadline : Nat := 0
  queued : Nat := 0
  tag : Option Nat := .none
  planes : Nat := 1
  /-- Planes of a split operation that have not run yet (R179, R419). -/
  parts : List Nat := []
  split : Bool := false
  block : Nat := 0
  page : Nat := 0
  group : Nat := 0
  ord : Nat := 0
  cclass : Nat := 0
  pass : Nat := 0
  pslc : Bool := false
  forceCold : Bool := false
  cache : Bool := false
  gathering : Bool := false
  gatherAt : Nat := 0
  /-- It waits for an entry of its LUN queue (R105, R169). -/
  held : Bool := false
  st : OpSt := .queued
  /-- The step of the ladder it serves, and the flights it reads. -/
  step : Nat := 0
  fl : List Nat := []
  plan : List Leg := []
  /-- The program pass it serves belongs to the hold-up flush or has data-in begun (R446). -/
  begun : Bool := false
  tokV : Nat := 0
  tokQ : Nat := 0
  shortV : Bool := false
  shortQ : Bool := false
  susp : Nat := 0
  began : Nat := 0
  ran : Nat := 0
  suspAt : Nat := 0
  served : Nat := 0
  resuming : Bool := false
  /-- Boxwood granted its resume, whose answer is on its way. -/
  granted : Bool := false
  /-- A suspend command is on its way to the die, and no status has shown its effect yet. -/
  suspSent : Bool := false
  cherr : Nat := 0
  /-- A RESET LUN after a watchdog expiry runs: 1, or 2 where its own watchdog expired (R190). -/
  resetting : Nat := 0
  /-- A frame of its page set was removed while a data-in segment ran: its pages are sent again (R133, R580). -/
  redo : Bool := false
  /-- The place of its first start among the starts, 0 before it (R174), and whether a release concerns its last refusal:
  it asks again (R184). -/
  started : Nat := 0
  again : Bool := false
  /-- TOKEN_AGE expired for it: the place of that among such expiries, from 1 (R185). -/
  tokAge : Nat := 0
  /-- Its resume command is on the bus and no status has come since (R189). -/
  resumed : Bool := false
  /-- Planes done, and whether one of them failed. -/
  fails : List Nat := []
deriving DecidableEq, Repr

/-- A wordline group that is gathered or has passes remaining (R180, R579): LUN, block, planes, group, class, passes
done, and whether its page set must be programmed without waiting for more frames. -/
structure WGroup where
  lun : Nat
  block : Nat
  planes : Nat
  group : Nat
  cclass : Nat
  region : Nat := 0
  pslc : Bool := false
  forceCold : Bool := false
  /-- The operation that gathers it, by which its entry is ordered against erases (R171). -/
  ord : Nat := 0
  done : Nat := 0
  forced : Bool := false
  ended : Bool := false
deriving DecidableEq, Repr

/-- A frame that waits for its program passes: its place, its class, what it is, its buffer, and, once the encoder has
taken it, its 4,128 bytes (R284, R294). -/
structure PFrame where
  pfa : Nat
  cclass : Nat
  src : FRef := .pad
  buf : Option Nat := .none
  data : List Byte := []
  enc : Bool := false
  /-- The pad frame's region (R282). -/
  region : Nat := 0
deriving DecidableEq, Repr

/-- A segment that an activity of a channel runs outside every operation (R254): its routine and SEGKIND, the target and LUN,
whether the target runs the routines of profile 0 (R245), the words of R239, and whether a CHERR has cut it once. -/
structure ChJob where
  routine : Nat
  kind : Nat := 0
  target : Nat
  lun : Nat := 0
  base : Bool := false
  words : List (Nat × Nat) := []
  cut : Bool := false
deriving DecidableEq, Repr

/-- A bus segment that waits or runs (R175, R177): its operation (0 for a poll of a LUN without one), its LUN, its
leg, its tier and whether it waited past BUS_AGE. `what` tells the segments that are no leg: 1 a status poll, 2
suspend, 3 resume, 4 RESET LUN; 0 is a leg. -/
structure Seg where
  op : Nat
  lun : Nat
  leg : Leg := {}
  cls : Nat := 0
  what : Nat := 0
  aged : Bool := false
  /-- The level of the channel at its start was set under the hold-up sequence (OB0.HOLDUP). -/
  holdup : Bool := false
  /-- The activity's segment that it is, where `what` is 6. -/
  job : Option ChJob := .none
deriving DecidableEq, Repr

/-- The activities that take leases (R193), in order of precedence (R195). -/
inductive Act where
  | discover | zqcal | train | selftestCh | calib | rgnChange | selftestStore | scrub | reloc | patrol | gorse
deriving DecidableEq, Repr

/-- A lease request or a held lease: the activity, its resources as (kind, number) of R61, the tag it belongs to,
and how often a request was passed over (R192, R195). -/
structure Lease where
  act : Act
  res : List (Nat × Nat)
  tag : Option Nat := .none
  passed : Nat := 0
  /-- A waiting request of lower precedence was passed over four times behind it. -/
  no : Nat := 0
deriving DecidableEq, Repr

/-- The die scheduler (R168 to R199). -/
structure Top where
  ops : List Op := []
  nextOp : Nat := 1
  /-- Bus segments waiting per channel, the running one, and the rotating pointer (R177). -/
  pend : Tab (List Seg) := []
  run : Tab (Option Seg) := []
  ptr : Tab Nat := []
  /-- READ_BURST count per LUN, and the WRITE entries that are first choice: LUN and operation (R174). -/
  bursts : Tab Nat := []
  writeFirst : List (Nat × Nat) := []
  /-- Operations started so far. -/
  starts : Nat := 0
  /-- The reserved operation of each rail (R185). -/
  rsvV : Option Nat := .none
  rsvQ : Option Nat := .none
  leases : List Lease := []
  waiting : List Lease := []
  leaseNo : Nat := 0
  /-- LUNs whose status must be read before the channel issues again (R109, R230). -/
  mustPoll : List Nat := []
  /-- LUNs that such a status showed busy: nothing starts on them until a status passes (R109). -/
  lunBusy : List Nat := []
  /-- Wordline groups in flight and the frames of their passes (R579, R515). -/
  groups : List WGroup := []
  pfs : List PFrame := []
  /-- Block sets that are open: (LUN, block) with a programmed BLOCK_OPEN record, or whose record waits (R494). -/
  opened : List (Nat × Nat) := []
  /-- Opened block sets without a program pass since their erase (R314). -/
  fresh : List (Nat × Nat) := []
  /-- LUNs asked to retire and LUNs retired (R468). -/
  retireReq : List Nat := []
  retired : List Nat := []
  /-- Volume last selected on a CHAIN channel (R460). -/
  vol : Tab Nat := []
  /-- LUNs that start nothing until a status passes after a RESET LUN (R190). -/
  blocked : List Nat := []
  /-- Extra holds of erases: the blocks of open REBUILDs as (LUN, plane × 8192 + block) (R307). -/
  eraseHold : List (Nat × Nat) := []
  /-- The class that the write points hold a block set to, from its first program to its erase (R138): LUN, block and
  class. -/
  wpClass : List (Nat × Nat × Nat) := []
deriving DecidableEq, Repr

/-- A sequencer (R201). -/
structure Seq where
  upc : Nat := 0
  stack : List (Nat × Nat) := []
  w : Tab Nat := []
  s : Nat := 0
  z : Bool := false
  neg : Bool := false
  phyerr : Bool := false
  im : Nat := 0
  aar : Tab Nat := []
  ce : Option Nat := .none
  ob : Tab Nat := []
  prof : Nat := 0
  run : Bool := false
  halt : Bool := false
  /-- Unsampled boundaries in a row (R222). -/
  held : Nat := 0
  /-- Events pending: bit 0 SUSPEND, 1 ABORT, 2 HOLDUP, 3 CHERR (R223). -/
  evs : Nat := 0
  /-- Bytes moved by the last BURST, and by the segment (R213, R241). -/
  last : Nat := 0
  total : Nat := 0
  /-- ACLK tick of the segment's first microword (R231), and cycles issued so far (R200). -/
  start : Nat := 0
  cycles : Nat := 0
  /-- Tick of the previous fault (R230). -/
  lastFault : Option Nat := .none
  /-- Bytes the channel data path received in the segment, and bytes on DQ last driven. -/
  rx : List Byte := []
  tx : List Byte := []
  /-- FCn_CLE and FCn_ALE in the last bus cycle (R204, R210). -/
  cle : Bool := false
  ale : Bool := false
deriving DecidableEq, Repr

/-- A die profile of the loaded image (R242), its fields as bytes, and its entry table (R235). -/
structure Image where
  profs : List (List Byte) := []
  entries : List (List Byte) := []
  patched : Bool := false
deriving DecidableEq, Repr

/-- The channel micro-sequencers and their stores (R200 to R232). A store holds what every copy holds; `csErr` marks
the words of single copies that an upset changed: (channel, address) with 1 corrected or 2 uncorrectable. -/
structure Mcs where
  seqs : Tab Seq := []
  cs : Tab Nat := []
  nano : Tab Nat := []
  csErr : Tab Nat := []
  img : Image := {}
  /-- Bank of the slot whose image is loaded, and the load in progress: bank, whether it is a fallback (R247). -/
  bank : Nat := 0
  loading : Option Nat := .none
  tried : Nat := 0
deriving DecidableEq, Repr

/-- An entry of a channel event FIFO (R104): the code and the word it carries. -/
structure Ev where
  code : Nat
  w : Nat := 0
deriving DecidableEq, Repr

/-- The TRAIN of a channel (R264): target, slice kind 0 to 3, trial bin, smallest eye so far, whether it runs at the
fallback bin after the trained bin failed (R270), the trial delays, and the largest load seen (R267). -/
structure Training where
  target : Nat := 0
  kind : Nat := 0
  bin : Nat := 0
  eye : Nat := 64
  back : Bool := false
  slice : Bool := false
  ending : Bool := false
  act : Nat := 0
  trial : List (Nat × List Nat × Nat × Nat) := []
  /-- The eye margins of the bins tried: bin and margin. -/
  eyes : List (Nat × Nat) := []
deriving DecidableEq, Repr

/-- A page in a channel's program staging buffer (R294): operation, plane, page, and the bytes of the page. -/
structure Staged where
  op : Nat
  plane : Nat
  page : Nat
  bytes : List Byte
deriving DecidableEq, Repr

/-- A channel: its event FIFO, training, balls and buffers (R253 to R280, R532 to R535). -/
structure Chan where
  events : List Ev := []
  /-- Entries that their producer holds while the FIFO is full (R105). -/
  evHeld : List Ev := []
  train : Option Training := .none
  relock : Option Nat := .none
  phyErrs : List Nat := []
  active : Bool := false
  staged : List Staged := []
  /-- Balls driven by the channel: FCn_WP_N and FCn_ENO (R532). -/
  wp : Bool := false
  eno : Bool := false
  /-- Enumeration mode CHAIN (R456), a failed chain (R459), discovery running, and channel reset running (R518). -/
  chain : Bool := false
  chainBad : Bool := false
  disc : Bool := false
  reset : Bool := false
  /-- Bound profile of each target; 8 for none (R245). -/
  bind : Tab Nat := []
  zqTarget : Option Nat := .none
  zqFail : Nat := 0
  selftest : Bool := false
  /-- What the relock that runs or comes next ends: 1 the climb to PRE (R260), 2 the return to the trained bin with the
  training sets (R465), 3 and 4 the entry to SDR (R461), where 4 goes on as 2 does, 5 the switch back to SDR (R273). -/
  climb : Nat := 0
  /-- Segments that the channel's activity still has to run, and the relock that follows them. -/
  jobs : List ChJob := []
  /-- The tokens that the running segment of an activity holds on VCC and VCCQ (R411, R412). -/
  tok : Nat × Nat := (0, 0)
  next : Option Nat := .none
  /-- A drop from PRE to SDR waits for the channel's array phases before its targets are set back (R273). -/
  sdrDue : Bool := false
  /-- The volume that is enumerated on a CHAIN channel (R459). -/
  volNo : Nat := 0
  /-- R262: the driver and termination codes in use, and whether new ones wait for a free bus. -/
  zqCode : Nat := 0
  zqDue : Bool := false
deriving DecidableEq, Repr

/-- A codeword between the die and its decoder, or a frame in the retry ladder (R295, R320). -/
structure Flight where
  id : Nat
  ref : FRef
  pfa : Nat
  cclass : Nat
  ch : Nat
  cls : Nat
  byMap : Bool := false
  region : Nat := 0
  lfa : Nat := 0
  seq : Nat := 0
  /-- RETRY code of the step the present read serves (R55). -/
  step : Nat := 0
  /-- The codeword lies in a codeword buffer and may be decoded. -/
  full : Bool := false
  /-- Whether the read ran at exactly E. -/
  atE : Bool := false
  conv : Bool := false
  crcs : List Nat := []
  tgen : Nat := 0
  /-- The step whose failed hard decode left the fewest unsatisfied checks, and that count (R323). -/
  best : Option (Nat × Nat) := .none
  rebuild : Bool := true
  /-- 0 not at step 26; 1 waits for a sample buffer; 2 has one; 3 its three passes are read. -/
  soft : Nat := 0
  /-- Its command is removed: its data is dropped (R134, R324). -/
  dropped : Bool := false
  eclass : Nat := 0
  deadline : Nat := 0
  /-- Bytes received of the present read, and whether they lie in a codeword buffer (R295). -/
  got : Nat := 0
  buf : Bool := false
  /-- The passes of step 26 that are read, and the soft decoder's 3-bit input for each bit (R300, R323). -/
  passes : List (List Byte) := []
  input : List Nat := []
  /-- The bytes of the codeword as they were read (R68, R297), or the decoded frame that waits for its buffer. -/
  bytes : List Byte := []
  /-- The frame is decoded and waits for its buffer, with its outcome and depth. -/
  out : Option Nat := .none
deriving DecidableEq, Repr

/-- An operation slot of an XOR engine (R305 to R308). -/
structure XorOp where
  stripe : Nat := 0
  rebuild : Bool := false
  flight : Nat := 0
  joined : List Nat := []
  desc : Option Nat := .none
  entries : List (Nat × Nat) := []
  pidx : Nat := 0
  pclass : Nat := 0
  fidx : Nat := 0
  arrived : List Nat := []
  acc : List Byte := []
  buf : Option Nat := .none
  asked : Nat := 0
  programming : Bool := false
deriving DecidableEq, Repr

/-- The randomiser, decoders and XOR engines (R281 to R309). -/
structure Ecc where
  flights : List Flight := []
  /-- Codewords that wait for or are in each channel's hard decoder, in the order they completed (R296). -/
  hardq : Tab (List Nat) := []
  /-- Frames that wait for a sample buffer and frames whose samples are complete, of each wing (R301). -/
  sampleq : Tab (List Nat) := []
  softq : Tab (List Nat) := []
  next : Nat := 1
  xor : Tab (Option XorOp) := []
  builds : List (Nat × Nat) := []
  rebuilds : List Nat := []
deriving DecidableEq, Repr

/-- A candidate of a CALIB: its level set as sent, the offsets it would be stored with, its total score and the codewords
measured (R328, R329). -/
structure Cand where
  set : List Int := []
  off : List Int := []
  score : Nat := 0
  measured : Nat := 0
deriving DecidableEq, Repr

/-- A CALIB that runs on a channel (R328): its group and tag, the class and energy class of its reads, the candidates
begun, the next sample of the last one, and whether it has measured all or its LUN serves no longer. -/
structure CalRun where
  group : Nat
  tag : Option Nat := .none
  cclass : Nat := 2
  eclass : Nat := 0
  cands : List Cand := []
  page : Nat := 0
  fin : Bool := false
  gone : Bool := false
deriving DecidableEq, Repr

/-- A PATROL that runs on a LUN (R337): its group, the class and energy class of its reads, the next sample, and what it
has found. -/
structure PatrolRun where
  group : Nat
  cclass : Nat := 2
  eclass : Nat := 0
  place : Nat := 0
  depth : Nat := 0
  lost : Nat := 0
  frames : Nat := 0
  fin : Bool := false
  gone : Bool := false
deriving DecidableEq, Repr

/-- The retry and calibration engine (R310 to R342). -/
structure Jnp where
  /-- Resident offsets of each LUN; absent when unknown (R316). -/
  resident : Tab (Option (List Int)) := []
  /-- CALIB queue (R331), the groups of the PATROLs that policy firmware asks for (R193), and the CALIB that runs on each
  channel and the PATROL that runs on each LUN. -/
  calq : List Nat := []
  patrolq : List Nat := []
  calib : Tab (Option CalRun) := []
  patrol : Tab (Option PatrolRun) := []
  /-- Sectors changed since their last write (R338), and first group of each LUN (R310). -/
  changed : List Nat := []
  base : Tab Nat := []
  /-- The numbering and the group shift under which the group table stands, and the LUNs whose records take the default
  state (R313). -/
  told : Tab (Option Nat) := []
  toldG : Nat := 0
  fresh : List Nat := []
deriving DecidableEq, Repr

/-- A DMA transfer (R393, R394). -/
structure Xfer where
  tag : Nat
  src : Nat := 0
  srcK : Nat := 0
  dst : Nat := 0
  dstK : Nat := 0
  hlist : Nat := 0
  len8 : Nat := 0
  pace : Bool := false
  append : Bool := false
  port : Nat := 0
  client : Nat := 0
  paused : Bool := false
  everPaused : Bool := false
  claimed : Bool := false
deriving DecidableEq, Repr

/-- A DMA completion record that waits for its packet record's grant (R405). -/
structure DmaRec where
  tag : Nat
  ch : Nat
  status : Nat
  appended : Bool
  paused : Bool
  moved : Nat
  crc : Nat
  granted : Bool := false
deriving DecidableEq, Repr

/-- One DMA channel, and one wing's completion queue (R393, R404). -/
structure DmaCh where
  act : Option Xfer := .none
  shadow : Option Xfer := .none
  queue : List Xfer := []
  done : List DmaRec := []
deriving DecidableEq, Repr

structure Dcq where
  phase : Bool := true
  claims : Nat := 0
  closing : Bool := false
deriving DecidableEq, Repr

structure Dma where
  chs : Tab DmaCh := []
  dcqs : Tab Dcq := []
  /-- Levels of the pace queues: port × 4 + queue (R402). -/
  levels : Tab Nat := []
deriving DecidableEq, Repr

/-- A forecast window (R420): start and end tick, cut level, and whether it is in force. -/
structure Window where
  start : Nat
  stop : Nat
  level : Nat
  on : Bool := false
deriving DecidableEq, Repr

/-- The governor (R410 to R432). -/
structure Box where
  chV : Tab Nat := []
  asks : List Nat := []
  rot : Nat := 0
  winA : List Window := []
  winB : List Window := []
  latched : Tab (Option Nat) := []
  /-- The tick of the last forecast word that each actuator's input took (R557). -/
  fcLast : Tab (Option Nat) := []
  converting : Bool := false
  fails : Nat := 0
  /-- Energy in µJ, its remainder in pJ, and user bytes, for ports 0 to 3 and for background (4) (R430). -/
  uj : Tab Nat := []
  rem : Tab Nat := []
  bytes : Tab Nat := []
  zqTemp : Tab Int := []
  /-- The codes of each wing's last run (R262). -/
  zqCode : Tab Nat := []
deriving DecidableEq, Repr

/-- The keeping store (R475 to R497). An unlisted word is erased. -/
structure YOp where
  erase : Bool
  master : Nat
  addr : Nat
  data : Nat := 0
  pulses : Nat := 0
  susp : Bool := false
  suspReq : Bool := false
  /-- The keeper works in the bank of Holly's fetch window (R489). -/
  fence : Bool := false
  /-- What follows when the word is programmed: 0 nothing, 1 a BLOCK_OPEN record, 2 a MAP_CKPT record, 3 DORMANT_CLEAN, 5
  the end of a Juniper checkpoint, 6 the activation record of a switch, 7 that of a way back, 4096 + tag a persisted
  parameter. -/
  note : Nat := 0
deriving DecidableEq, Repr

structure YSeq where
  master : Master
  step : Nat
  cmd : Nat := 0
  addr : Nat := 0
  lo : Nat := 0
deriving DecidableEq, Repr

/-- Work that the keeper still has to write (R477, R489). -/
structure KJob where
  addr : Nat
  data : Nat := 0
  erase : Bool := false
  note : Nat := 0
deriving DecidableEq, Repr

structure Yew where
  words : Tab Nat := []
  badWords : List Nat := []
  ops : Tab (Option YOp) := []
  seq : Option YSeq := .none
  jobs : List KJob := []
  /-- The journal's ring position, the next word in it (0 where its header is not written), its generation, and the
  journal sequence number (R491, R492). -/
  jHead : Nat := 0
  jWord : Nat := 0
  jGen : Nat := 0
  jSeq : Nat := 0
deriving DecidableEq, Repr

/-- An activation in progress (R249, R508): image kind, bank, tag, stage, and the digest of the check pass. -/
structure Actv where
  mcs : Bool
  bank : Nat
  tag : Nat
  /-- 0 check pass, 1 drain, 2 switch and start, 3 load pass, 4 going back to the old image. -/
  stage : Nat := 0
  digest : List Byte := []
  /-- Why it goes back. -/
  reason : Nat := 0
deriving DecidableEq, Repr

/-- The policy processor (R498 to R511). -/
structure Hly where
  running : Bool := false
  /-- R502, R507: Holly is halted: no image passed, or its watchdog expired twice. -/
  halted : Bool := false
  /-- Parameter values: number, minimum, maximum, value, persisted (R504, R506). -/
  params : List (Nat × Nat × Nat × Nat × Bool) := []
  actv : Option Actv := .none
  lastKick : Nat := 0
  lastExpiry : Option Nat := .none
  /-- Slow-path packets that have left the inbox and not completed (R507). -/
  inflight : List Nat := []
  /-- Posts to policy firmware in order: 1 WEAR_NOTICE and group (R334), 2 failing PFA of a REBUILD (R307), 3 a
  profile-defined END code with its channel and W0 (R204). -/
  posts : List (Nat × Nat) := []
deriving DecidableEq, Repr

/-- The power states (R433). -/
inductive Pw where
  | active | idle | nap | dormant | off
deriving DecidableEq, Repr

/-- A register access that a gated clock holds (R434). -/
structure Access1 where
  m : Master
  addr : Nat
  v : Option Nat
  /-- Bytes of the access (R13). -/
  width : Nat := 4
deriving DecidableEq, Repr

/-- A band entry (R445, R446): class it holds once one is taken, next page row, whether it is abandoned. -/
structure Band where
  cclass : Nat := 0
  used : Nat := 0
  gone : Bool := false
deriving DecidableEq, Repr

/-- The power-state machine (R433 to R450). -/
structure Pwr where
  st : Pw := .active
  /-- A wake is in progress: the stage reached. -/
  waking : Option Nat := .none
  /-- A POWER entry in progress: tag and target state (2 NAP, 3 DORMANT), and steps of R439 done. -/
  entry : Option (Nat × Nat) := .none
  entrySince : Nat := 0
  /-- An economy switch in progress: tag, target point, stage (R442). -/
  econ : Option (Nat × Nat × Nat) := .none
  held : List Access1 := []
  /-- The tick at which the ball of each flash domain is asserted under FC_STRAP[2] (R537, R538). -/
  enAt : Tab Nat := []
  /-- Flash domains that wait for their array phases to end before they switch off (R443). -/
  domOff : List Nat := []
  /-- Hold-up stage (R446): 0 not running, 2 drain, 3 flush, 4 map, 5 records, 6 done. -/
  hold : Nat := 0
  holdAt : Nat := 0
  warn : Bool := false
  bands : Tab Band := []
  flushed : Nat := 0
  mapfr : Nat := 0
  /-- Root-table pages written back in the sequence. -/
  rootsDone : List Nat := []
  /-- The codewords that the sequence has sent to the band, by PFA (R282, R284). -/
  bandCw : List (Nat × List Byte) := []
  bandPages : Tab Nat := []
deriving DecidableEq, Repr

/-- One LUN position of the inventory (R462, R464). -/
structure Inv where
  present : Nat := 0
  report : Nat := 0
deriving DecidableEq, Repr

/-- One target of the inventory (R462). -/
structure Targ where
  id : List Byte := []
  prof : Nat := 255
  luns : Nat := 0
  geom : List Nat := []
  ppcrc : Nat := 0
  /-- It answered the last enumeration; its signatures ([0] ONFI, [1] JEDEC); its parameter page declares 1.2 V and a
  supported mode (R245, R255). -/
  found : Bool := false
  sig : Nat := 0
  volt : Bool := false
deriving DecidableEq, Repr

/-- Bring-up, discovery and resets (R451 to R469, R512 to R523). -/
structure Sys where
  targs : Tab Targ := []
  luns : Tab Inv := []
  /-- Channels whose discovery has not ended since the cold reset or wake (R453). -/
  undisc : List Nat := [0, 1, 2, 3, 4, 5, 6, 7]
  added : Nat := 0
  missing : Nat := 0
  changed : Nat := 0
  discTime : Nat := 0
  /-- No discovery runs or waits: the next one counts from 0. -/
  discOver : Bool := true
  /-- The Yew copy of the inventory could not be read (R463). -/
  invBad : Bool := false
  /-- Warm reset: cause requested (2 WARM_RST, 3 WARM_REQ), whether it runs, and commands removed. -/
  warmReq : Option Nat := .none
  warmRun : Option Nat := .none
  removed : Nat := 0
  chResetHeld : List Nat := []
  /-- R454, R520: policy firmware has still to restore the root table, the journal asks for a replay of map updates, and it
  asks for the scan of the open block sets. -/
  restore : Bool := true
  replay : Bool := true
  scan : Bool := true
  /-- CCLK has not locked since the last cold reset (R451, R543). -/
  noClk : Bool := true
deriving DecidableEq, Repr

/-- The state of the complex. -/
structure State where
  /-- The commands that wait, first in, first out. -/
  pending : List Instr
  /-- Register fields by `Fld.key`; an unlisted field holds its cold value. -/
  regs : Tab Nat
  /-- Registers with LOCK fields that were written since the last cold reset (R567), and the same for DBG LOCKED. -/
  locks : List Nat
  /-- The timestamp counter (R556). -/
  aclk : BitVec 64
  /-- Free values drawn so far: the argument of the opaque constants of Config. The model's own field. -/
  drawn : Nat
  /-- The answer of the last access on a port. -/
  resp : Resp
  /-- Bytes delivered on the client ports in order: port and bytes (R66, R401). -/
  delivered : List (Nat × List Byte)
  /-- Writes made on the DRAM port: the bytes of DRAM that the complex has written (R557). -/
  dram : List Host.Cell
  err : ErrLog
  que : Que
  hdg : Hdg
  cop : Cop
  map : Map
  top : Top
  mcs : Mcs
  chs : Tab Chan
  ecc : Ecc
  jnp : Jnp
  dma : Dma
  box : Box
  yew : Yew
  hly : Hly
  pwr : Pwr
  sys : Sys
deriving DecidableEq, Repr

/-- The machine right after a cold reset (R17, R346, R391, R451): every register at its cold value, every queue
empty, CP3 attached with tags 0 to 255 (R87), the tracked store regions reading zero. What the spec leaves open at
reset (the contents of Yew, the straps, the levels at the balls) is named in the assumption log. -/
def State.reset : State where
  pending := []
  regs := []
  locks := []
  aclk := 0
  drawn := 0
  resp := .none
  delivered := []
  dram := []
  err := {}
  que := { att := [(3, some (0, 256))] }
  hdg := {}
  cop := {}
  map := {}
  top := {}
  mcs := {}
  chs := []
  ecc := {}
  jnp := {}
  dma := {}
  box := {}
  yew := {}
  hly := {}
  pwr := {}
  sys := {}

end Sys2Proof.Machine
end

