-- ==== Sys2Proof/Machine/Tab.lean ====
section
/-!
DEFINITION. Sparse tables in canonical form: keys strictly rising and no entry equal to the table's default, so that
equal tables are equal data. Register fields, keeping-store words and per-unit records are held in such tables.
-/
namespace Sys2Proof.Machine

variable {α : Type}

/-- The value a table holds for a key; `d` where it lists none. -/
def tget (d : α) : Tab α → Nat → α
  | [], _ => d
  | (j, w) :: r, k => if j = k then w else tget d r k

/-- The table without a key. -/
def tdel : Tab α → Nat → Tab α
  | [], _ => []
  | (j, w) :: r, k => if j = k then tdel r k else (j, w) :: tdel r k

/-- The table with a value at a key, in the place its order gives. -/
def tins : Tab α → Nat → α → Tab α
  | [], k, v => [(k, v)]
  | (j, w) :: r, k, v =>
    if k < j then (k, v) :: (j, w) :: r else if j = k then (k, v) :: r else (j, w) :: tins r k v

/-- The table with a value at a key; the default removes the entry. -/
def tset [DecidableEq α] (d : α) (t : Tab α) (k : Nat) (v : α) : Tab α :=
  if v = d then tdel t k else tins t k v

/-- The keys rise strictly. -/
def tsorted : Tab α → Bool
  | [] => true
  | [_] => true
  | (j, _) :: (k, w) :: r => decide (j < k) && tsorted ((k, w) :: r)

/-- The canonical form of a table with default `d`. -/
def twf [DecidableEq α] (d : α) (t : Tab α) : Bool :=
  tsorted t && t.all fun e => decide (e.2 ≠ d)

end Sys2Proof.Machine
end

