-- ==== Sys2Proof/Machine/Ops.lean ====
section
/-!
DEFINITION. The named operations over the state that every unit uses: reading and writing register fields, error
records, and the central store with its two codes (R343 to R356, R360, R575).
-/
namespace Sys2Proof.Machine

/-- The three outcomes of a command. -/
abbrev Out := Host.Outcome State Fault Refusal

/-! Parts of the state. -/

def State.onErr (s : State) (f : ErrLog → ErrLog) : State := { s with err := f s.err }
def State.onQue (s : State) (f : Que → Que) : State := { s with que := f s.que }
def State.onHdg (s : State) (f : Hdg → Hdg) : State := { s with hdg := f s.hdg }
def State.onCop (s : State) (f : Cop → Cop) : State := { s with cop := f s.cop }
def State.onMap (s : State) (f : Map → Map) : State := { s with map := f s.map }
def State.onTop (s : State) (f : Top → Top) : State := { s with top := f s.top }
def State.onMcs (s : State) (f : Mcs → Mcs) : State := { s with mcs := f s.mcs }
def State.onEcc (s : State) (f : Ecc → Ecc) : State := { s with ecc := f s.ecc }
def State.onJnp (s : State) (f : Jnp → Jnp) : State := { s with jnp := f s.jnp }
def State.onDma (s : State) (f : Dma → Dma) : State := { s with dma := f s.dma }
def State.onBox (s : State) (f : Box → Box) : State := { s with box := f s.box }
def State.onYew (s : State) (f : Yew → Yew) : State := { s with yew := f s.yew }
def State.onHly (s : State) (f : Hly → Hly) : State := { s with hly := f s.hly }
def State.onPwr (s : State) (f : Pwr → Pwr) : State := { s with pwr := f s.pwr }
def State.onSys (s : State) (f : Sys → Sys) : State := { s with sys := f s.sys }
/-- Channel n. -/
def State.chan (s : State) (n : Nat) : Chan := tget {} s.chs n
/-- The state with channel n changed. -/
def State.onChan (s : State) (n : Nat) (f : Chan → Chan) : State :=
  { s with chs := tset {} s.chs n (f (s.chan n)) }
/-- Sequencer n. -/
def State.seq (s : State) (n : Nat) : Seq := tget {} s.mcs.seqs n
/-- The state with sequencer n changed. -/
def State.onSeq (s : State) (n : Nat) (f : Seq → Seq) : State :=
  s.onMcs fun m => { m with seqs := tset {} m.seqs n (f (s.seq n)) }

/-- The state after f for every entry of a list, in its order. -/
def State.each {α : Type} (s : State) (l : List α) (f : State → α → State) : State := l.foldl f s

/-- The state after f where the condition holds. -/
def State.when (s : State) (b : Bool) (f : State → State) : State := if b then f s else s

/-! Registers (R15, R17). -/

/-- The value of a register field; a field never written holds its cold value. -/
def State.rd (s : State) (F : Fld) : Nat := tget F.cold s.regs F.key

/-- A flag field. -/
def State.is (s : State) (F : Fld) : Bool := s.rd F != 0

/-- The state with a register field set. -/
def State.wr (s : State) (F : Fld) (v : Nat) : State :=
  { s with regs := tset F.cold s.regs F.key (v % 2 ^ F.width) }

/-- A sticky bit set. -/
def State.setb (s : State) (F : Fld) : State := s.wr F 1

/-- A saturating counter raised by n. -/
def State.bump (s : State) (F : Fld) (n : Nat) : State := s.wr F (sat (2 ^ F.width - 1) (s.rd F + n))

/-- The bit i of a field of bits set or cleared. -/
def State.wrBit (s : State) (F : Fld) (i : Nat) (b : Bool) : State := s.wr F (putBit (s.rd F) i b)

/-- The timestamp counter as a number (R556). -/
def State.now (s : State) : Nat := s.aclk.toNat

/-- R106: the level event of a FIFO whose fill goes from `was` to `now`: it sets the sticky bit when the fill crosses
the level upward. LEVEL 0 disables; a level above the depth acts as the depth. -/
def State.levelEvent (s : State) (level hit : Fld) (depth was now : Nat) : State :=
  let l := sat depth (s.rd level)
  s.when (l != 0 && decide (was < l) && decide (l ≤ now)) (·.setb hit)

/-! Error records (R525 to R529). -/

/-- R529: every lost or overwritten record raises the count and sets STAT.LOST. -/
def State.errLost (s : State) : State := (s.bump Reg.ERR_LOST_COUNT 1).setb Reg.ERR_STAT_LOST

/-- R529: a unit raises an error record. Each unit buffers one; a further record is lost. -/
def State.raise (s : State) (r : ErrRec) : State :=
  if s.err.buf.any fun b => b.src == r.src then s.errLost
  else s.onErr fun e => { e with buf := e.buf ++ [{ r with tstamp := s.now }] }

/-- An error record that names no command. -/
def State.err1 (s : State) (cls src code : Nat) (obj : Nat := 0) (sub : Nat := 0) (aux : Nat := 0) : State :=
  s.raise { cls := cls, src := src, code := code, sub := sub, obj := obj, aux := aux }

/-- A post to policy firmware. -/
def State.post1 (s : State) (kind v : Nat) : State :=
  { s with hly := { s.hly with posts := s.hly.posts ++ [(kind, v)] } }

/-- The classes of R526. -/
def clsCorrected : Nat := 0
def clsRecovered : Nat := 1
def clsUnrecovered : Nat := 2
def clsContained : Nat := 3
def clsFatal : Nat := 4

/-- R527: an LFA in an error record. -/
def objLfa (region lfa : Nat) : Nat := lfa % 2 ^ 32 + (region % 64) * 2 ^ 32
/-- R527: a DRAM byte address in an error record. -/
def objDaddr (a : Nat) : Nat := a % 2 ^ 35 + 2 ^ 63
/-- R527: a hardware FIFO in an error record. -/
def objFifo (kind inst : Nat) : Nat := kind + inst * 256
/-- R527: an image slot in an error record. -/
def objSlot (bank : Nat) (espalier : Bool) : Nat := bank + b2n espalier * 256

/-! Byte memories in canonical form. -/

/-- The byte listed at an address. -/
def cellAt : List Host.Cell → Nat → Option Byte
  | [], _ => none
  | (a, b) :: r, k => if a = k then some b else cellAt r k

/-- The cells of the addresses lo to hi - 1 removed. -/
def cellsWithout (m : List Host.Cell) (lo hi : Nat) : List Host.Cell :=
  m.filter fun c => !(decide (lo ≤ c.1) && decide (c.1 < hi))

/-- The canonical form of the central store's bytes: addresses strictly rising, and no listed zero where an unlisted
byte reads 0. -/
def Memory.wf (h : Hdg) : Bool :=
  tsorted h.mem && h.mem.all fun c =>
    !(h.zeroed.contains (c.1 / 0x100000) && c.2 == 0 && tget 0 h.undef (c.1 / 4096) == 0)

/-! The central store. -/

/-- The size of the central store in bytes (R343). -/
def hdgSize : Nat := 2 ^ 25
/-- The region of a store address (R343). -/
def hRegion (a : Nat) : Nat := a / 0x100000
/-- The region is STRONG (R347). -/
def State.hStrong (s : State) (a : Nat) : Bool := s.rd (Reg.HDG_RGN_CLASS (hRegion a)) == 0
/-- The region is tracked (R355). -/
def State.hVt (s : State) (a : Nat) : Bool := s.is (Reg.HDG_RGN_VT (hRegion a))
/-- The region's unlisted bytes read 0. -/
def State.hZeroed (s : State) (a : Nat) : Bool := s.hdg.zeroed.contains (hRegion a)
/-- R360: from the lease grant until BUSY falls, and during a store self-test (R367), other requesters are
refused. -/
def State.hRefused (s : State) (a : Nat) : Bool :=
  (match tget none s.hdg.chg (hRegion a) with | some c => decide (1 ≤ c.stage) | none => false) ||
    s.hdg.selftest.any fun t => t.1 == hRegion a

/-- What the central store holds at a byte: a listed byte, zero where unlisted bytes read 0, or nothing where the
byte was never written (R354). -/
def State.hByte? (s : State) (a : Nat) : Option Byte :=
  match cellAt s.hdg.mem a with
  | some b => some b
  | none =>
    if s.hZeroed a then
      match tget 0 s.hdg.undef (a / 4096) with
      | 0 => some 0
      | d + 1 => some (Config.freeByte d a)
    else none

/-- The byte of the store as the checks of a clean read give it; an unwritten byte is a free value. -/
def State.hByte (s : State) (a : Nat) : Byte := (s.hByte? a).getD (Config.freeByte s.drawn a)

/-- The mark of the word that holds a byte (R353, R575). -/
def State.hMark (s : State) (a : Nat) : Mark := tget .clean s.hdg.marks (a / 8)

/-- The word was never written: R354 makes its read uncorrectable in a STRONG region. -/
def State.hUnwritten (s : State) (a : Nat) : Bool :=
  !s.hZeroed a && (List.range 8).any fun i => (cellAt s.hdg.mem (a / 8 * 8 + i)).isNone

/-- What the check of a word or byte finds: clean, corrected or uncorrectable (R349 to R351, R354, R575). -/
inductive Chk where
  | clean | corrected | unc
deriving DecidableEq, Repr

/-- The check of the word (STRONG) or byte (LIGHT) at an address. -/
def State.hChk (s : State) (a : Nat) : Chk :=
  if s.hStrong a then
    if s.hUnwritten a then .unc
    else match s.hMark a with
      | .clean => .clean
      | .bad => .unc
      | .inv n => if n ≤ 2 then .corrected else .unc
  else if (s.hByte? a).isNone then (if Config.freeUnc s.drawn a then .unc else .clean)
  else if a % 8 = 0 then
    match s.hMark a with
    | .inv n => if n ≤ 2 then .corrected else .clean
    | _ => .clean
  else .clean

/-- The byte a read returns: R575 gives the bits that an injection leaves inverted. -/
def State.hReadByte (s : State) (a : Nat) : Byte :=
  let b := s.hByte a
  match s.hMark a with
  | .inv n =>
    if a % 8 ≠ 0 then b
    else if s.hStrong a then (if n ≤ 2 then b else b ^^^ BitVec.ofNat 8 (2 ^ n - 1))
    else if n = 1 then b else b ^^^ 7
  | _ => b

/-- The result of a read: the bytes, the first word found uncorrectable, whether R360 refused it, and whether the
store corrected anything. -/
structure HRead where
  data : List Byte := []
  unc : Option Nat := none
  refused : Bool := false
deriving DecidableEq, Repr

/-- The read delivered its data unharmed. -/
def HRead.ok (r : HRead) : Bool := r.unc.isNone && !r.refused

/-- R350: a corrected read: it counts, is recorded, and the first of its region writes a record. -/
def State.hCorrected (s : State) (a : Nat) (gorse : Bool) : State :=
  let s := s.bump Reg.HDG_CE_CNT_CNT 1
  let s := ((s.wr Reg.HDG_LAST_ERR_WORD (a / 8)).wr Reg.HDG_LAST_ERR_UNC 0).wr Reg.HDG_LAST_ERR_GORSE (b2n gorse)
  if bit (s.rd Reg.HDG_CE_REGIONS_REGION) (hRegion a) then s
  else (s.wrBit Reg.HDG_CE_REGIONS_REGION (hRegion a) true).err1 clsCorrected 3 1 (a / 8 * 8)

/-- R351, R364: an uncorrectable word or byte: counted, recorded and seen. -/
def State.hUnc (s : State) (a : Nat) (gorse : Bool) : State :=
  let s := s.bump Reg.HDG_UE_CNT_CNT 1
  let s := ((s.wr Reg.HDG_LAST_ERR_WORD (a / 8)).wr Reg.HDG_LAST_ERR_UNC 1).wr Reg.HDG_LAST_ERR_GORSE (b2n gorse)
  s.setb (Reg.HDG_RGN_UE_SEEN (hRegion a))

/-- The check units of n bytes from a: one for each word of a STRONG region, one for each byte of a LIGHT one. -/
def State.hUnits (s : State) (a n : Nat) : List Nat :=
  (List.range n).filterMap fun i =>
    if s.hStrong (a + i) then (if i = 0 ∨ (a + i) % 8 = 0 then some (a + i) else none) else some (a + i)

/-- A read of n bytes of the store from address a by a requester (R350, R351, R355, R360). -/
def State.hRead (s : State) (a n : Nat) : HRead × State :=
  if s.hRefused a then ({ refused := true }, s.err1 clsContained 3 4 a)
  else
    let d := (List.range n).map fun i => s.hReadByte (a + i)
    let us := s.hUnits a n
    let un := us.filter fun u => s.hChk u == .unc
    let co := us.filter fun u => s.hChk u == .corrected
    let drew := (List.range n).any fun i => (s.hByte? (a + i)).isNone
    let s' := (s.each co fun s u => s.hCorrected u false).each un fun s u => s.hUnc u false
    ({ data := d, unc := un.head? }, if drew then { s' with drawn := s'.drawn + 1 } else s')

/-- One byte stored: in a region whose unlisted bytes read 0, a zero leaves no entry. -/
def State.hPut (s : State) (a : Nat) (b : Byte) : State :=
  s.onHdg fun h =>
    { h with
      mem := if s.hZeroed a && b == 0 && tget 0 h.undef (a / 4096) == 0 then tdel h.mem a else tins h.mem a b }

/-- The mark of a word set. -/
def State.hSetMark (s : State) (a : Nat) (m : Mark) : State :=
  s.onHdg fun h => { h with marks := tset .clean h.marks (a / 8) m }

/-- The valid bit of the line of an address is 1, or the region is not tracked. -/
def State.hLineValid (s : State) (a : Nat) : Bool := !s.hVt a || s.hdg.valid.contains (a / 32)

/-- R355: the valid bit of the line of an address set. -/
def State.hValidate (s : State) (a : Nat) : State :=
  if s.hLineValid a then s
  else
    (s.each (List.range 4) fun s i => s.hSetMark (a / 32 * 32 + 8 * i) .clean).onHdg
      fun h => { h with valid := orderBy (fun x => x) ((a / 32) :: h.valid) }

/-- R575: the armed injection applied to a word that was just written. -/
def State.hInject (s : State) (w : Nat) : State :=
  if s.is Reg.DBG_INJ_CTL_ARM && s.rd Reg.DBG_INJ_ADDR_WORD == w / 8 then
    let n := s.rd Reg.DBG_INJ_CTL_NBITS
    let s := if s.hMark w == .bad then s else s.hSetMark w (.inv (if n = 0 then 1 else n))
    (s.wr Reg.DBG_INJ_CTL_ARM 0).setb Reg.DBG_INJ_CTL_DONE
  else s

/-- The part of a write that falls in the word at w: the first byte's offset and the bytes (R348, R349, R353). -/
def State.hWriteWord (s : State) (w off : Nat) (d : List Byte) : State :=
  let whole := decide (d.length = 8)
  let fresh := !s.hLineValid w
  let merge := s.hStrong w && !whole && !fresh
  let k := s.hChk w
  let s := if merge then s.bump Reg.HDG_RMW_CNT_CNT 1 else s
  let s := if merge && k == .corrected then s.hCorrected w false else s
  let s := s.hValidate w
  let s := (s.each (List.range d.length) fun s i => s.hPut (w + off + i) (d.getD i 0))
  let s :=
    if merge && k == .unc then (s.hSetMark w .bad).err1 clsContained 3 3 w
    else if s.hStrong w || off == 0 then s.hSetMark w .clean
    else s
  if s.hStrong w || fresh || off == 0 then s.hInject w else s

/-- The words that n bytes from a touch: word address, first offset, first index and count. -/
def wordParts (a n : Nat) : List (Nat × Nat × Nat × Nat) :=
  if n = 0 then []
  else (List.range ((a % 8 + n + 7) / 8)).map fun i =>
    let w := a / 8 * 8 + 8 * i
    let lo := if i = 0 then a % 8 else 0
    let hi := if w + 8 ≤ a + n then 8 else a + n - w
    (w, lo, w + lo - a, hi - lo)

/-- R355: a fill of a tracked line writes the line in full, so it also covers the injection's word. -/
def State.hFillInject (s : State) (a : Nat) (fresh : Bool) : State :=
  s.when fresh fun s => s.each (List.range 4) fun s i => s.hInject (a / 32 * 32 + 8 * i)

/-- R363: a write to the line whose rewrite Gorse has due drops the rewrite. -/
def State.hFresh (s : State) (a n : Nat) : State :=
  s.onHdg fun h =>
    { h with
      rewrite := match h.rewrite with
        | some l => if decide (l < a + n) && decide (a < l + 32) then none else some l
        | none => none }

/-- A write of bytes to the store from address a by a requester (R348, R353, R355, R360, R575). -/
def State.hWrite (s : State) (a : Nat) (d : List Byte) : State :=
  if s.hRefused a then s.err1 clsContained 3 4 a
  else (s.hFresh a d.length).each (wordParts a d.length) fun s p =>
    let fresh := !s.hLineValid p.1
    (s.hWriteWord p.1 p.2.1 ((d.drop p.2.2.1).take p.2.2.2)).hFillInject p.1 fresh

/-- R356, R359: a region reads zero with clean checks, and its valid bits are 0. -/
def State.hClearRegion (s : State) (k : Nat) : State :=
  s.onHdg fun h =>
    { h with
      mem := cellsWithout h.mem (k * 0x100000) ((k + 1) * 0x100000)
      zeroed := if h.zeroed.contains k then h.zeroed else orderBy (fun x => x) (k :: h.zeroed)
      marks := h.marks.filter fun m => m.1 / 0x20000 != k
      undef := h.undef.filter fun m => m.1 / 256 != k
      valid := h.valid.filter fun l => l / 0x8000 != k }

/-- R359, R575: every line of a region written with zeros and valid check bits of its class. -/
def State.hZeroRegion (s : State) (k : Nat) : State :=
  (s.hClearRegion k).when (s.rd Reg.DBG_INJ_ADDR_WORD / 0x20000 == k) fun s => s.hInject (s.rd Reg.DBG_INJ_ADDR_WORD * 8)

/-- R133, R373: the written contents of buffer i become undefined: free values stand where bytes were held. -/
def State.hForget (s : State) (i : Nat) : State :=
  let d := s.drawn
  let s := { s with drawn := d + 1 }
  if s.hZeroed (i * 4096) then
    s.onHdg fun h =>
      { h with
        mem := cellsWithout h.mem (i * 4096) (i * 4096 + 4096)
        undef := tset 0 h.undef i (d + 1) }
  else
    s.onHdg fun h =>
      { h with mem := h.mem.map fun c => if c.1 / 4096 = i then (c.1, Config.freeByte d c.1) else c }

/-- The uncorrected value of n store bytes as a number, for the reads that R351 gives no case for. -/
def State.hNat (s : State) (a n : Nat) : Nat := ofLE ((List.range n).map fun i => s.hReadByte (a + i))

/-- A free number the spec leaves open, drawn from Config. -/
def State.draw (s : State) : Nat × State := (Config.freeNat s.drawn, { s with drawn := s.drawn + 1 })

/-- The n bytes that a boundary carries in one command: the operand's bytes, and free values for those that an operand of
another length does not give (log entry 5). -/
def State.shape (s : State) (n : Nat) (l : List Byte) : List Byte :=
  (List.range n).map fun i => l.getD i (Config.freeByte s.drawn i)

/-- A free value was drawn for the bytes that the operand does not give. -/
def State.spent (s : State) (n : Nat) (l : List Byte) : State :=
  if l.length < n then { s with drawn := s.drawn + 1 } else s

/-- A slot with the bits that its boundary carries: a PFA of 40 bits and a mask of eight planes (R135, R180, log entry 5). -/
def fitSlot (x : Slot) : Slot := { pfa := x.pfa % 2 ^ 40, planes := x.planes % 256 }

/-- What the balls bring to a microword: 4,800 bytes at most (R212, log entry 5). -/
def fitBus (b : BusIn) : BusIn := { b with bytes := b.bytes.take 4800 }

/-! The DRAM port (R557). -/

/-- A write on the DRAM port. -/
def State.dramWrite (s : State) (a : Nat) (d : List Byte) : State :=
  { s with dram := (List.range d.length).foldl (fun m i => tins m (a + i) (d.getD i 0)) s.dram }

/-- Bytes delivered on a client port (R66, R401). -/
def State.deliver (s : State) (port : Nat) (d : List Byte) : State :=
  { s with delivered := s.delivered ++ [(port, d)] }

end Sys2Proof.Machine
end

