-- ==== Sys2Proof/Machine/Flags.lean ====
section
/-!
DEFINITION. The codes and status computations of the spec: completion statuses and their severity (R57, R58), the
interrupt sources and lines (R530), and the fields that a read computes from the state.
-/
namespace Sys2Proof.Machine

/-! R57: the statuses. -/
def stOK : Nat := 0x00
def stRecovered : Nat := 0x01
def stRebuilt : Nat := 0x02
def stAborted : Nat := 0x10
def stByReset : Nat := 0x11
def stTooLate : Nat := 0x12
def stNotFound : Nat := 0x13
def stUncorrectable : Nat := 0x20
def stErased : Nat := 0x21
def stCrc : Nat := 0x22
def stProgramFail : Nat := 0x30
def stEraseFail : Nat := 0x31
def stTimeout : Nat := 0x32
def stAbsent : Nat := 0x33
def stNoBuffer : Nat := 0x40
def stBadHandle : Nat := 0x41
def stDoubleFree : Nat := 0x42
def stOwner : Nat := 0x43
def stOpcode : Nat := 0x50
def stField : Nat := 0x51
def stPacketCrc : Nat := 0x52
def stQuota : Nat := 0x53
def stDeferred : Nat := 0x60
def stSleep : Nat := 0x61
def stActTimeout : Nat := 0x70
def stActRejected : Nat := 0x71
def stInternal : Nat := 0x7F

/-- R58: severity of a frame outcome. -/
def severity (st : Nat) : Nat :=
  if st = stOK then 0 else if st = stRecovered then 1 else if st = stRebuilt then 2 else if st = stErased then 3
  else if st = stCrc then 4 else if st = stUncorrectable then 5 else if st = stTimeout then 6
  else if st = stProgramFail then 7 else if st = stEraseFail then 8 else if st = stAbsent then 9
  else if st = stInternal then 10 else 11

/-- R58: the most severe of the outcomes with its first position, in frame order. -/
def worst : List (Nat × Nat) → Nat × Nat
  | [] => (stOK, 0)
  | (st, pos) :: r =>
    let w := worst r
    if severity w.1 ≤ severity st then (st, pos) else w

/-- R59, R514: DETAIL of a frame status: position, LUN, unmapped and forwarded flags; of ABORTED_BY_RESET, the first frame
not done. -/
def detailFrame (st pos lun : Nat) (unmapped fwd : Bool) : Nat :=
  if st = stByReset then pos % 2 ^ 16
  else (if st = stOK then 0 else pos % 2 ^ 16 + (lun % 256) * 2 ^ 16) + b2n unmapped * 2 ^ 24 + b2n fwd * 2 ^ 25

/-- R59: DETAIL of a handle status. -/
def detailHandle (pos index : Nat) : Nat := pos % 2 ^ 16 + (index % 2 ^ 13) * 2 ^ 16

/-- R59: DETAIL of INVALID_FIELD. -/
def detailField (off reason : Nat) : Nat := off + reason * 256

/-- R59: DETAIL of DEFERRED. -/
def detailDeferred (cause kind num : Nat) : Nat := cause + kind * 256 + num * 2 ^ 16

/-- R352: DETAIL of INTERNAL for an uncorrectable store word. -/
def detailStore (a : Nat) : Nat := 0x04 + (a / 8 % 2 ^ 22) * 2 ^ 8

/-- R108: DETAIL of INTERNAL for a FIFO reset. -/
def detailFifo (kind inst : Nat) (passed : Bool) : Nat := 0x01 + kind * 2 ^ 8 + inst * 2 ^ 16 + b2n passed * 2 ^ 24

/-! Interrupt sources (R530). -/

/-- Any of the fields is set. -/
def State.anyIs (s : State) (l : List Fld) : Bool := l.any s.is

/-- R530: source i is pending. -/
def State.srcPending (s : State) (i : Nat) : Bool :=
  if i < 5 then bit (s.rd Reg.ERR_STAT_CLASS) i
  else match i with
    | 5 => s.is Reg.ERR_STAT_LOST
    | 6 => s.anyIs ((List.range 8).map Reg.TOP_LUNQ_HIT_HIT)
    | 7 => s.anyIs ((List.range 8).map Reg.CH_STAT_EVT_HIT)
    | 8 => s.is Reg.GLB_CSF_LEVEL_HIT
    | 9 => s.anyIs ((List.range 16).map Reg.DMA_STAT_EVT_HIT)
    | 10 => s.is Reg.HLY_INBOX_LEVEL_HIT
    | 11 => bit (s.rd Reg.BOX_THERM_STAT_ENTERED) 0
    | 12 => bit (s.rd Reg.BOX_THERM_STAT_ENTERED) 1
    | 13 => bit (s.rd Reg.BOX_THERM_STAT_ENTERED) 2
    | 14 => bit (s.rd Reg.BOX_THERM_STAT_ENTERED) 3
    | 15 => s.is Reg.JNP_STAT_WEAR
    | 16 => s.is Reg.MAP_STAT_BROKEN
    | 17 => s.is Reg.COP_STAT_LOW_HIT
    | 18 => s.is Reg.COP_STAT_LINK_FAULT
    | 19 => s.anyIs ((List.range 8).map Reg.CH_STAT_LVL_CHG)
    | 20 => s.anyIs ((List.range 8).map Reg.CH_STAT_CHERR)
    | 21 => s.anyIs ((List.range 8).map Reg.MCS_FAULT_VALID)
    | 22 => s.is Reg.YEW_STAT_DONE
    | 23 => s.is Reg.YEW_STAT_PULSE_HIGH || s.is Reg.YEW_STAT_SUSP_NOTICE
    | 24 => s.is Reg.PWR_STAT_HOLDUP
    | 25 => s.is Reg.PWR_STAT_WOKE
    | 26 => s.is Reg.PWR_STAT_ENTRY_DEFER
    | 27 => s.is Reg.HLY_STAT_WDOG_FIRED
    | 28 => s.is Reg.ERR_RST_DONE
    | 29 => s.is Reg.ERR_TORN_NEW
    | 30 => s.is Reg.PWR_DOM_PG_FAIL
    | _ => false

/-- PL_ERR_SRC.PEND. -/
def State.errSrc (s : State) : Nat :=
  (List.range 32).foldl (fun v i => v + b2n (s.srcPending i) * 2 ^ i) 0

/-- R530: the routing byte of source i. -/
def State.routeByte (s : State) (i : Nat) : Nat := s.rd (Reg.ERR_ROUTE_SRC (i / 4) (i % 4))

/-- R557: the lines read low in OFF, and in DORMANT until the wake ends. -/
def State.irqOn (s : State) : Bool :=
  s.pwr.st != .off && s.pwr.st != .dormant && !(s.pwr.st == .active && s.pwr.waking == some 2)

/-- R530: the state of line PL_IRQ[k]. -/
def State.irqLine (s : State) (k : Nat) : Bool :=
  s.irqOn && (((List.range 32).any fun i =>
    s.srcPending i && bit (s.routeByte i) 7 && decide (bits (s.routeByte i) 0 4 = k)) ||
  ((List.range 64).any fun q => s.is (Reg.QUE_CFG_LEVEL_HIT q) && s.rd (Reg.QUE_CFG_IRQ q) == k) ||
  ((List.range 2).any fun w => s.is (Reg.DMA_W_DCQ_CFG_LEVEL_HIT w) && s.rd (Reg.DMA_W_DCQ_CFG_IRQ w) == k))

/-- PL_ERR_IRQ.LINE. -/
def State.errIrq (s : State) : Nat :=
  (List.range 16).foldl (fun v k => v + b2n (s.irqLine k) * 2 ^ k) 0

/-- The word that register fields spell at their places. -/
def State.regWord (s : State) (l : List Fld) : Nat := l.foldl (fun v F => v + s.rd F * 2 ^ F.lsb) 0

/-- R525: the 32 bytes of an error record as a number, byte 0 in the lowest bits. -/
def ErrRec.word (r : ErrRec) : Nat :=
  r.cls + r.src * 2 ^ 8 + (r.code % 256) * 2 ^ 16 + (r.sub % 256) * 2 ^ 24 + (r.seq % 2 ^ 32) * 2 ^ 32 +
    (r.tstamp % 2 ^ 64) * 2 ^ 64 + (r.obj % 2 ^ 64) * 2 ^ 128 + (r.aux % 2 ^ 32) * 2 ^ 192 +
    (match r.tag with | some t => t % 4096 + 2 ^ 12 | none => 0) * 2 ^ 224 + (r.req % 16) * 2 ^ 240

end Sys2Proof.Machine
end

