-- ==== Sys2Proof/Machine/Operands.lean ====
section
/-!
DEFINITION. The operand forms of the spec: command packets (R39 to R47), buffer handles (R50), physical flash
addresses and their geometry (R135 to R139, R579), map entries (R148) and the fields of die profiles (R242).
-/
namespace Sys2Proof.Machine

/-! Packets (R39). -/

/-- The packet that 64 bytes spell. -/
def Pkt.ofBytes (l : List Byte) : Pkt where
  opcode := leAt l 0 1
  flags := leAt l 1 1
  tagw := leAt l 2 2
  word4 := leAt l 4 4
  addr := leAt l 8 8
  length := leAt l 16 4
  hlist := leAt l 20 4
  mid := leAt l 24 32
  word56 := leAt l 56 4
  pcrc := leAt l 60 4

def Pkt.tag (p : Pkt) : Nat := bits p.tagw 0 12
def Pkt.cls (p : Pkt) : Nat := bits p.tagw 14 2
def Pkt.client (p : Pkt) : Nat := bits p.word4 0 4
def Pkt.sqid (p : Pkt) : Nat := bits p.word4 4 6
def Pkt.cclass (p : Pkt) : Nat := bits p.word4 10 2
def Pkt.region (p : Pkt) : Nat := bits p.word4 12 6
def Pkt.param (p : Pkt) : Nat := bits p.word4 24 8
def Pkt.deadline (p : Pkt) : Nat := bits p.word56 0 20
def Pkt.eclass (p : Pkt) : Nat := bits p.word56 24 2
def Pkt.flag (p : Pkt) (i : Nat) : Bool := bit p.flags i
/-- R40: ADDR holds a PFA. -/
def Pkt.isPfa (p : Pkt) : Bool := p.flag 0
/-- Inline handle k (R39). -/
def Pkt.inline (p : Pkt) (k : Nat) : Nat := bits p.mid (32 * k) 32
/-- R66: the delivery of a READ: 0 STREAM, 1 KEEP, 2 INTO. -/
def Pkt.dest (p : Pkt) : Nat := bits p.flags 2 2
/-- R74: the destination of a COPY. -/
def Pkt.cpAddr (p : Pkt) : Nat := bits p.mid 0 64
def Pkt.cpRegion (p : Pkt) : Nat := bits p.mid 64 6
def Pkt.cpClass (p : Pkt) : Nat := bits p.mid 70 2
def Pkt.cpPfa (p : Pkt) : Bool := p.flag 5

/-! R64: opcode numbers. -/
def opRead : Nat := 0x01
def opReadRaw : Nat := 0x02
def opProgram : Nat := 0x03
def opAtomic : Nat := 0x04
def opErase : Nat := 0x05
def opCopy : Nat := 0x06
def opTrim : Nat := 0x07
def opFlush : Nat := 0x08
def opAlloc : Nat := 0x10
def opShare : Nat := 0x11
def opFree : Nat := 0x12
def opDma : Nat := 0x18
def opPin : Nat := 0x20
def opSync : Nat := 0x21
def opMaint : Nat := 0x30
def opPower : Nat := 0x38
def opAbort : Nat := 0x40
def opAttach : Nat := 0x48
def opDetach : Nat := 0x49
def opDiscover : Nat := 0x4A
def opPolicy : Nat := 0x50
def opInfo : Nat := 0x51
def opActivate : Nat := 0x58

/-- R64: the opcodes of the table. -/
def opcodes : List Nat :=
  [opRead, opReadRaw, opProgram, opAtomic, opErase, opCopy, opTrim, opFlush, opAlloc, opShare, opFree, opDma, opPin,
    opSync, opMaint, opPower, opAbort, opAttach, opDetach, opDiscover, opPolicy, opInfo, opActivate]

/-- R62: the slow-path opcodes. -/
def opSlow (o : Nat) : Bool := [opMaint, opAttach, opDetach, opDiscover, opPolicy, opInfo, opActivate].contains o

/-- R64: the opcodes that only CP3 may submit. -/
def opCp3 (o : Nat) : Bool :=
  [opReadRaw, opErase, opCopy, opPin, opSync, opMaint, opPower, opAttach, opDetach, opDiscover, opPolicy,
    opActivate].contains o

/-- The flag bits that an opcode defines (R66 to R92). -/
def opFlags (o : Nat) : Nat :=
  if o = opRead then 0x1F else if o = opReadRaw then 0x05 else if o = opProgram then 0x1F
  else if o = opAtomic then 0x1E else if o = opErase then 0x01 else if o = opCopy then 0x25
  else if o = opFlush then 0x0C else if o = opAlloc then 0x06 else if o = opShare then 0x02
  else if o = opFree then 0x02 else if o = opDma then 0x3F else if o = opPin then 0x04
  else if o = opMaint then 0x04 else if o = opPower then 0x04 else if o = opDetach then 0x04
  else if o = opPolicy then 0x04 else 0

/-- R43: the CLASS is permitted for the opcode: 0 URGENT, 1 READ, 2 WRITE, 3 MAINT. -/
def clsPermitted (o c : Nat) : Bool :=
  if [opRead, opReadRaw, opPin].contains o then c ≤ 1
  else if [opProgram, opAtomic, opCopy, opTrim, opFlush, opSync].contains o then c == 0 || c == 2
  else if o = opErase then 2 ≤ c
  else if o = opMaint then c == 3
  else true

/-- R64: the LENGTH range of an opcode. -/
def lenRange (o : Nat) : Nat × Nat :=
  if [opRead, opProgram, opCopy, opAlloc, opShare, opFree].contains o then (1, 1024)
  else if o = opReadRaw then (1, 8) else if o = opAtomic then (1, 64) else if o = opErase then (1, 8)
  else if o = opTrim ∨ o = opPin then (1, 2 ^ 32 - 1) else if o = opSync then (0, 2 ^ 32 - 1)
  else if o = opDma then (8, 2 ^ 24) else (0, 0)

/-- R39, R68, R78, R80 to R92: the PARAM is legal; otherwise the reason. A DETACH with PARAM[7:4] other than 0 is out of
range (DESIGN CHOICE, log entry 60). -/
def paramReason (o p : Nat) : Option Nat :=
  if o = opReadRaw then (if p ≤ 24 then none else some 2)
  else if o = opShare then (if p < 16 then none else some 1)
  else if o = opDma then (if p < 16 ∨ p = 0xFF then none else some 2)
  else if o = opMaint then (if p ≤ 6 then none else some 2)
  else if o = opPower then (if p = 0 ∨ p = 2 ∨ p = 3 then none else some 2)
  else if o = opAttach then (if 16 ≤ p then some 1 else if p ≤ 3 then none else some 2)
  else if o = opDetach then (if p ≤ 2 then none else some 2)
  else if o = opDiscover then (if p ≤ 2 then none else some 2)
  else if o = opInfo then (if p ≤ 6 then none else some 2)
  else if o = opActivate then (if p ≤ 1 then none else some 2)
  else if p = 0 then none else some 1

/-- R64: the opcode addresses an LFA by this packet. -/
def Pkt.byLfa (p : Pkt) : Bool :=
  [opAtomic, opTrim, opPin].contains p.opcode || (p.opcode == opSync && p.length != 0) ||
    ([opRead, opProgram, opCopy].contains p.opcode && !p.isPfa)

/-- The opcode addresses a PFA by this packet. -/
def Pkt.byPfa (p : Pkt) : Bool :=
  [opReadRaw, opErase].contains p.opcode || ([opRead, opProgram, opCopy].contains p.opcode && p.isPfa)

/-- R111: the command is a write: its region, first LFA and length. -/
def Pkt.write? (p : Pkt) : Option (Nat × Nat × Nat) :=
  if (p.opcode == opProgram && !p.isPfa) || p.opcode == opAtomic || p.opcode == opTrim then
    some (p.region, p.addr, p.length)
  else if p.opcode == opCopy && !p.cpPfa then some (p.cpRegion, p.cpAddr, p.length)
  else none

/-- The opcode names handles by this packet (R52). -/
def Pkt.namesHandles (p : Pkt) : Bool :=
  (p.opcode == opRead && p.dest != 0) || [opProgram, opAtomic, opShare, opFree].contains p.opcode ||
    (p.opcode == opAlloc && p.flag 1)

/-- The packet carries a handle list (R52, R80). -/
def Pkt.listed (p : Pkt) : Bool :=
  (p.namesHandles && p.flag 1) ||
    (p.opcode == opDma && (bits p.flags 0 2 == 2 || bits p.flags 2 2 == 2))

/-- R52, R80, R397: the handles of the list; an appended CRC word to a list counts. -/
def Pkt.listLen (p : Pkt) : Nat :=
  if p.opcode = opDma then
    (p.length + (if p.flag 5 && bits p.flags 2 2 == 2 then 8 else 0) + 4095) / 4096
  else p.length

/-- R397: bytes that a DMA_MOVE writes at its destination. -/
def Pkt.dmaBytes (p : Pkt) : Nat := p.length + (if p.flag 5 then 8 else 0)

/-- R397: an operand of kind 0 (Hedgerow) or 1 (DRAM) is misaligned, or its range leaves the store or the DRAM. -/
def dmaBad (kind a n : Nat) : Bool :=
  (kind == 0 && (a % 8 != 0 || decide (2 ^ 25 < a + n))) || (kind == 1 && (a % 8 != 0 || decide (2 ^ 35 < a + n)))

/-! Handles (R50). -/

def hdIndex (h : Nat) : Nat := bits h 0 13
def hdGen (h : Nat) : Nat := bits h 13 11
def hdValid (h : Nat) : Bool := bit h 31
/-- The handle of a buffer. -/
def mkHandle (index gen owner : Nat) (rsv : Bool) : Nat :=
  index % 2 ^ 13 + (gen % 2 ^ 11) * 2 ^ 13 + (owner % 16) * 2 ^ 24 + b2n rsv * 2 ^ 30 + 2 ^ 31

/-! PFAs (R135). -/

def pfaSlot (a : Nat) : Nat := bits a 0 4
def pfaPage (a : Nat) : Nat := bits a 4 12
def pfaBlock (a : Nat) : Nat := bits a 16 13
def pfaPlane (a : Nat) : Nat := bits a 29 3
def pfaCh (a : Nat) : Nat := bits a 37 3
/-- R168: the global LUN of a PFA: channel × 32 + target × 4 + LUN. -/
def pfaLun (a : Nat) : Nat := bits a 32 8
/-- The PFA of its parts. -/
def mkPfa (lun plane block page slot : Nat) : Nat :=
  slot % 16 + (page % 4096) * 2 ^ 4 + (block % 8192) * 2 ^ 16 + (plane % 8) * 2 ^ 29 + (lun % 256) * 2 ^ 32
/-- R169: channel and target of a global LUN. -/
def lunCh (lun : Nat) : Nat := lun / 32 % 8
def lunTarget (lun : Nat) : Nat := lun / 4 % 8

/-! Die profiles (R242). -/

/-- The profile bound to a target of a channel, if any (R245). -/
def State.targProf (s : State) (ch t : Nat) : Option (List Byte) :=
  let k := tget 8 (s.chan ch).bind t
  if k < 8 then s.mcs.img.profs[k]? else none

/-- The state of a LUN position in the inventory: 0 empty, 1 PRESENT, 2 MISSING, 3 retired (R462, R468). -/
def State.lunPos (s : State) (lun : Nat) : Nat := (tget {} s.sys.luns lun).present

/-- The profile bound to a LUN position, whether or not the LUN is retired (R137, R245). -/
def State.lunProf (s : State) (lun : Nat) : Option (List Byte) := s.targProf (lunCh lun) (lunTarget lun)

/-- R137: the geometry that a PFA is checked against: the profile of a LUN position that is PRESENT or retired. A position
that is ABSENT, unbound or MISSING has none. -/
def State.lunGeom (s : State) (lun : Nat) : Option (List Byte) :=
  if s.lunPos lun == 1 || s.lunPos lun == 3 || s.top.retired.contains lun then s.lunProf lun else none

def prPageData (p : List Byte) : Nat := leAt p 0x010 2
def prSpare (p : List Byte) : Nat := leAt p 0x012 2
def prPages (p : List Byte) : Nat := leAt p 0x014 2
def prBlocks (p : List Byte) : Nat := leAt p 0x016 2
def prPlanes (p : List Byte) : Nat := leAt p 0x018 1
def prLuns (p : List Byte) : Nat := leAt p 0x019 1
def prBpc (p : List Byte) : Nat := leAt p 0x01A 1
def prPasses (p : List Byte) : Nat := leAt p 0x01B 1
def prPageBits (p : List Byte) : Nat := leAt p 0x020 1
def prPlaneShift (p : List Byte) : Nat := leAt p 0x021 1
def prBlockShift (p : List Byte) : Nat := leAt p 0x022 1
def prLunShift (p : List Byte) : Nat := leAt p 0x023 1
def prRowBytes (p : List Byte) : Nat := leAt p 0x024 1
def prCaps (p : List Byte) : Nat := leAt p 0x028 4
def prMaxif (p : List Byte) : Nat := bits (prCaps p) 10 2
def prSdrTm (p : List Byte) : Nat := bits (prCaps p) 12 3
def prMaxRate (p : List Byte) : Nat := leAt p 0x02C 2
def prMpRule (p : List Byte) : Nat := leAt p 0x02E 1
/-- R242: TIMES: 0 tR, 1 tR pseudo-SLC, 2 to 5 tPROG of passes 1 to 4, 6 tPROG pseudo-SLC, 7 tBERS, 8 suspend. -/
def prTime (p : List Byte) (i : Nat) : Nat := leAt p (0x030 + 2 * i) 2
/-- R242: TOKENS: VCC then VCCQ for read, program, erase and data transfer. -/
def prToken (p : List Byte) (i : Nat) : Nat := leAt p (0x050 + 2 * i) 2
def prK (p : List Byte) (i : Nat) : Nat := leAt p (0x060 + 2 * i) 2
def prTslot (p : List Byte) (i : Nat) : Nat := leAt p (0x0A0 + 2 * i) 2
def prLevels (p : List Byte) : Nat := leAt p 0x0E2 1
/-- R242: profile step k (1 to 24): the signed offsets of levels 1 to 15. -/
def prStep (p : List Byte) (k : Nat) : List Int :=
  (List.range 15).map fun i => sgn 8 (leAt p (0x100 + 16 * (k - 1) + i) 1)
/-- R242: CAPS bits: 0 MP_READ, 1 MP_PROG, 2 MP_ERASE, 3 CACHE_READ, 4 CACHE_PROG, 5 SUSP_PROG, 6 SUSP_ERASE, 7 PSLC,
8 VOLUME, 9 SYNC_RESET. -/
def prCap (p : List Byte) (i : Nat) : Bool := bit (prCaps p) i
/-- R138: the page total. -/
def prTotal (p : List Byte) : Nat := prPageData p + prSpare p

/-! Frames in the page stream (R138 to R143). -/

/-- The codeword length of a code class: 1 LEAN, 2 STANDARD, 3 DEEP. -/
def cwLen (c : Nat) : Nat := if c = 1 then 4352 else if c = 2 then 4576 else 4800
/-- R139: the first codeword that starts in page p. -/
def firstCw (pb c p : Nat) : Nat := (p * pb + cwLen c - 1) / cwLen c
/-- R139: codewords that start in page p and end within the block. -/
def slotsIn (pages pb c p : Nat) : Nat :=
  min (firstCw pb c (p + 1)) (pages * pb / cwLen c) - min (firstCw pb c p) (pages * pb / cwLen c)
/-- R139: where a frame lies: codeword number, column byte, bytes in its page and bytes in the next; nothing where
the slot is invalid. -/
def locate (pages pb c p s : Nat) : Option (Nat × Nat × Nat × Nat) :=
  let j := firstCw pb c p + s
  if firstCw pb c (p + 1) ≤ j ∨ pages * pb < (j + 1) * cwLen c then none
  else
    let start := j * cwLen c - p * pb
    let here := min (cwLen c) (pb - start)
    some (j, start, here, cwLen c - here)
/-- The PFA of codeword number j of a block (R139): the page it starts in and its slot. -/
def cwPfa (pb c base j : Nat) : Nat :=
  let page := j * cwLen c / pb
  mkPfa (pfaLun base) (pfaPlane base) (pfaBlock base) page (j - firstCw pb c page)
/-- The codeword number of a PFA (R139). -/
def pfaCw (pb c a : Nat) : Nat := firstCw pb c (pfaPage a) + pfaSlot a
/-- R137: the PFA lies within the geometry of a profile for a code class. -/
def pfaFits (p : List Byte) (c a : Nat) : Bool :=
  decide (pfaPlane a < prPlanes p) && decide (pfaBlock a < prBlocks p) && decide (pfaPage a < prPages p) &&
    (locate (prPages p) (prTotal p) c (pfaPage a) (pfaSlot a)).isSome && decide (cwLen c ≤ prTotal p)
/-- R579: the wordline group of a page. -/
def wlGroup (p : List Byte) (pslc : Bool) (page : Nat) : Nat := if pslc then page else page / prBpc p
/-- The number of passes of a program (R579). -/
def passesOf (p : List Byte) (pslc : Bool) : Nat := if pslc then 1 else prPasses p
/-- R137: what the check of a PFA gives: nothing to check where the position has no bound profile. -/
def State.pfaOk (s : State) (c a : Nat) : Bool :=
  match s.lunGeom (pfaLun a) with
  | none => true
  | some p => pfaFits p c a
/-- The frames after the first of a PFA run: consecutive ordinals of one plane block. -/
def State.pfaNext (s : State) (c a k : Nat) : Nat :=
  match s.lunProf (pfaLun a) with
  | none => a
  | some p => cwPfa (prTotal p) c a (pfaCw (prTotal p) c a + k)
/-- R244: the row address of a PFA. -/
def rowAddr (p : List Byte) (a : Nat) : Nat :=
  pfaPage a ||| (pfaPlane a <<< prPlaneShift p) ||| (pfaBlock a <<< prBlockShift p) |||
    (pfaLun a % 4 <<< prLunShift p)

/-! Map entries (R148). -/

def enPfa (e : Nat) : Nat := bits e 0 40
def enClass (e : Nat) : Nat := bits e 40 2
def enRegion (e : Nat) : Nat := bits e 42 6
def enSeq (e : Nat) : Nat := bits e 48 16
def mkEntry (pfa cclass region seq : Nat) : Nat :=
  pfa % 2 ^ 40 + (cclass % 4) * 2 ^ 40 + (region % 64) * 2 ^ 42 + (seq % 2 ^ 16) * 2 ^ 48

/-- R144: the loaded entry of an LFA region. -/
def State.lrgn (s : State) (r : Nat) : LRgn := tget {} s.map.rgns r
/-- R147: frames of one map entry of a region. -/
def LRgn.unitFrames (r : LRgn) : Nat := if r.unit = 1 then 4 else 1

/-! The checks of a packet's fields (R47, check 4): each answers the byte offset and the reason of a violation. -/

/-- The first violation of a list of checks. -/
def firstBad : List (Bool × Nat × Nat) → Option (Nat × Nat)
  | [] => none
  | (bad, off, reason) :: r => if bad then some (off, reason) else firstBad r

/-- Byte 1 (R47, R66 to R92). -/
def Pkt.chkFlags (p : Pkt) : List (Bool × Nat × Nat) :=
  [(p.flags &&& (0xFF ^^^ opFlags p.opcode) != 0, 1, 1),
   (p.opcode == opRead && p.dest == 0 && p.flag 1, 1, 1),
   (p.opcode == opRead && p.dest == 3, 1, 2),
   ([opReadRaw, opErase].contains p.opcode && !p.flag 0, 1, 2),
   (p.opcode == opDma && bits p.flags 0 2 == 2 && bits p.flags 2 2 == 2, 1, 2)]

/-- Bytes 2 and 3. -/
def Pkt.chkClass (p : Pkt) : List (Bool × Nat × Nat) :=
  [(bits p.tagw 12 2 != 0, 2, 1), (!clsPermitted p.opcode p.cls, 2, 9)]

/-- R42: the code class of the command does not match its address. -/
def State.cclassBad (s : State) (pfa : Bool) (cclass region : Nat) : Bool :=
  if pfa then cclass == 0
  else cclass != 0 && (s.lrgn region).v && cclass != (s.lrgn region).cclass

/-- Bytes 4 to 7 (R41, R42, R76, R146, R439). -/
def State.chkWord4 (s : State) (p : Pkt) (pair : Nat) : List (Bool × Nat × Nat) :=
  let lowPort := p.client != 3
  [(p.client != pair / 16, 4, 6),
   ((tget none s.que.att p.client).isNone, 4, 0x0B),
   (p.sqid != pair, 4, 6),
   (lowPort && opCp3 p.opcode, 4, 3),
   (lowPort && [opRead, opProgram].contains p.opcode && p.isPfa, 1, 3),
   (lowPort && p.opcode == opFlush && p.flag 2, 1, 3),
   ((p.byLfa || [opRead, opReadRaw, opProgram, opCopy].contains p.opcode) &&
      s.cclassBad p.byPfa p.cclass p.region, 4, 0x0A),
   (p.byLfa && !(s.lrgn p.region).v, 4, 2),
   (bits p.word4 18 6 != 0, 4, 1),
   ((paramReason p.opcode p.param).isSome, 4, (paramReason p.opcode p.param).getD 0),
   (p.opcode == opPower && p.param == 3 && s.rd (Reg.QUE_CFG_CQ_LOC pair) == 0, 4, 2)]

/-- An LFA range runs past the region's SIZE, or is misaligned in a region of 16 KiB units (R146, R147). -/
def State.lfaBad (s : State) (region lfa len : Nat) (write : Bool) : Bool :=
  decide ((s.lrgn region).size < lfa + len) ||
    (write && (s.lrgn region).unit == 1 && (lfa % 4 != 0 || len % 4 != 0))

/-- R137, R141: a run of frames from a PFA leaves the geometry. -/
def State.pfaBad (s : State) (c a len : Nat) : Bool :=
  !s.pfaOk c a ||
    match s.lunGeom (pfaLun a) with
    | none => false
    | some p => decide (prPages p * prTotal p < (pfaCw (prTotal p) c a + len) * cwLen c)

/-- Bytes 8 to 15 (R40, R73, R76, R86, R87, R90, R91, R137, R146). -/
def State.chkAddr (s : State) (p : Pkt) : List (Bool × Nat × Nat) :=
  let a := p.addr
  let o := p.opcode
  let maintPfa := o == opMaint && (p.param == 1 || p.param == 3)
  let pr := s.lunGeom (pfaLun a)
  [((p.byPfa || maintPfa) && bits a 40 24 != 0, 8, 1),
   (p.byLfa && s.lfaBad p.region a p.length ([opProgram, opAtomic, opTrim].contains o), 8, 2),
   (o == opErase && bits a 0 16 != 0, 8, 1),
   (o == opErase && (match pr with
      | some q => decide (prPlanes q ≤ pfaPlane a) || decide (prBlocks q ≤ pfaBlock a)
      | none => false), 8, 2),
   (maintPfa && (match pr with
      | some q => decide (prPlanes q ≤ pfaPlane a) || decide (prBlocks q ≤ pfaBlock a) ||
          decide (prPages q ≤ pfaPage a)
      | none => false), 8, 2),
   ((o == opReadRaw || (p.byPfa && o != opErase)) && s.pfaBad p.cclass a p.length, 8, 2),
   (o == opFlush && a != 0, 8, 1),
   (o == opAbort && bits a 12 52 != 0, 8, 1),
   (o == opInfo && p.param == 3 && bits a 14 50 != 0, 8, 1),
   (o == opInfo && p.param != 3 && a != 0, 8, 1),
   (o == opAttach && bits a 0 16 % 16 != 0, 8, 2),
   (o == opAttach && (bits a 16 16 % 16 != 0 || decide (bits a 16 16 < 16)), 10, 2),
   (o == opAttach && decide (4096 < bits a 0 16 + bits a 16 16), 10, 2),
   (o == opAttach && bits a 48 16 != 0, 14, 1),
   (o == opPolicy && bits a 16 16 != 0, 10, 1),
   (o == opDma && dmaBad (bits p.flags 0 2) a p.length, 8, 2)]

/-- Bytes 16 to 19 (R52, R64, R73, R80). -/
def State.chkLength (s : State) (p : Pkt) : List (Bool × Nat × Nat) :=
  let r := lenRange p.opcode
  [(decide (p.length < r.1) || decide (r.2 < p.length), 16, 8),
   (p.opcode == opDma && p.length % 8 != 0, 16, 8),
   (p.namesHandles && !p.flag 1 && decide (8 < p.length), 16, 8),
   (p.opcode == opErase && (match s.lunGeom (pfaLun p.addr) with
      | some q => decide (prPlanes q < pfaPlane p.addr + p.length)
      | none => false), 16, 8)]

/-- R52: a Hedgerow range of n bytes from a lies in one region of use QUEUE or POOL. -/
def State.inQueueOrPool (s : State) (a n : Nat) : Bool :=
  bits a 25 7 == 0 && hRegion a == hRegion (a + n - 1) && decide (a + n ≤ hdgSize) &&
    (s.rd (Reg.HDG_RGN_USE (hRegion a)) == 0 || s.rd (Reg.HDG_RGN_USE (hRegion a)) == 2)

/-- The opcode redefines bytes 24 to 55 (R74, R80). -/
def Pkt.redefines (p : Pkt) : Bool := p.opcode == opCopy || p.opcode == opDma

/-- R52: the list is misplaced. -/
def State.listBad (s : State) (p : Pkt) : Bool :=
  p.hlist % 4 != 0 || !s.inQueueOrPool p.hlist (4 * p.listLen)

/-- Bytes 20 to 55 (R52, R66, R74, R77, R80, R91). A KEEP or a BUF_ALLOC of several buffers without a list is refused with
reason 0x07 at offset 20 (DESIGN CHOICE, log entry 60). -/
def State.chkMid (s : State) (p : Pkt) : List (Bool × Nat × Nat) :=
  let inl := p.namesHandles && !p.flag 1
  let o := p.opcode
  let lst := p.namesHandles && p.flag 1
  [((o == opRead && p.dest == 1 && !p.flag 1) || (o == opAlloc && !p.flag 1 && decide (1 < p.length)), 20, 7),
   (inl && (p.hlist != 0 || ((List.range 8).any fun k => decide (p.length ≤ k) && hdValid (p.inline k))), 20, 7),
   (lst && (s.listBad p || ((List.range 8).any fun k => hdValid (p.inline k))), 20, 7),
   (o == opDma && p.listed && s.listBad p, 20, 7),
   (o == opInfo && (p.hlist % 4096 != 0 || !s.inQueueOrPool p.hlist 4096), 20, 7),
   (o == opInfo && p.mid != 0, 20, 1),
   (!p.namesHandles && !p.redefines && o != opInfo && (p.hlist != 0 || p.mid != 0), 20, 1),
   (p.redefines && !p.listed && p.hlist != 0, 20, 1),
   (o == opCopy && p.cpPfa && (bits p.cpAddr 40 24 != 0), 24, 1),
   (o == opCopy && p.cpPfa && p.cpClass != 0 && s.pfaBad p.cpClass p.cpAddr p.length, 24, 2),
   (o == opCopy && !p.cpPfa && (s.lrgn p.cpRegion).v && s.lfaBad p.cpRegion p.cpAddr p.length true, 24, 2),
   (o == opCopy && !p.cpPfa && !(s.lrgn p.cpRegion).v, 32, 2),
   (o == opCopy && s.cclassBad p.cpPfa p.cpClass p.cpRegion, 32, 0x0A),
   (o == opCopy && bits p.mid 72 24 != 0, 32, 1),
   (o == opCopy && bits p.mid 96 160 != 0, 36, 1),
   (o == opDma && dmaBad (bits p.flags 2 2) (bits p.mid 0 64) p.dmaBytes, 24, 2),
   (o == opDma && bits p.flags 2 2 == 3 && (tget none s.que.att (bits p.mid 64 4)).isNone, 32, 2),
   (o == opDma && bits p.mid 68 28 != 0, 32, 1),
   (o == opDma && bits p.mid 96 160 != 0, 36, 1)]

/-- Bytes 56 to 59. -/
def Pkt.chkWord56 (p : Pkt) : List (Bool × Nat × Nat) :=
  [(bits p.word56 20 4 != 0 || bits p.word56 26 6 != 0, 56, 1), (p.eclass == 3, 56, 2)]

/-- R47: check 4. -/
def State.chkFields (s : State) (p : Pkt) (pair : Nat) : Option (Nat × Nat) :=
  firstBad (p.chkFlags ++ p.chkClass ++ s.chkWord4 p pair ++ s.chkAddr p ++ s.chkLength p ++ s.chkMid p ++
    p.chkWord56)

end Sys2Proof.Machine
end

