-- ==== Sys2Proof/Machine/Pool.lean ====
section
/-!
DEFINITION. The shared operations of the buffer pool manager, Coppice: the state array, the strands, the ready
stage, names and holds, and the presenting of requests (R371 to R390).
-/
namespace Sys2Proof.Machine

/-- R371: buffer i lies in the pool. -/
def State.inPool (s : State) (i : Nat) : Bool :=
  decide (i < 8192) && s.rd (Reg.HDG_RGN_USE (i / 256)) == 0 && (tget none s.hdg.chg (i / 256)).isNone

/-- R371, R390: buffer i's region has use POOL and is not withdrawn, so that the free list may name it. -/
def State.inList (s : State) (i : Nat) : Bool :=
  decide (i < 8192) && s.rd (Reg.HDG_RGN_USE (i / 256)) == 0 &&
    match tget none s.hdg.chg (i / 256) with
    | some c => c.stage == 0
    | none => true

/-- The pool size in buffers (R382). -/
def State.poolSize (s : State) : Nat := 256 * ((List.range 32).filter fun k => s.inPool (256 * k)).length

/-- The state entry of buffer i (R372). -/
def State.buf (s : State) (i : Nat) : Buf := tget {} s.cop.bufs i

/-- The state entry of buffer i changed. -/
def State.onBuf (s : State) (i : Nat) (f : Buf → Buf) : State :=
  s.onCop fun c => { c with bufs := tset {} c.bufs i (f (s.buf i)) }

/-- Buffers booked and not yet received: general and reserve (R380). -/
def State.copBooked (s : State) : Nat := (s.cop.reqs.map fun r => r.bookG + r.bookR).sum

/-- R376: the free count F. -/
def State.copF (s : State) : Nat :=
  s.cop.ready.length + ((List.range 8).map fun k => tget 0 s.cop.lens k).sum - s.copBooked

/-- R378: U of requester i; a booked reserve buffer counts (R380). -/
def State.copU (s : State) (i : Nat) : Nat :=
  (s.cop.bufs.filter fun b => b.2.alloc && b.2.rsv && b.2.grantee == i).length +
    ((s.cop.reqs.filter fun r => r.req == i).map fun r => r.bookR).sum

/-- R378: Q of requester i. -/
def State.copQ (s : State) (i : Nat) : Nat := s.rd (Reg.COP_RSV_QUOTA i)

/-- R378: the general availability G. -/
def State.copG (s : State) : Nat := s.copF - ((List.range 16).map fun i => s.copQ i - s.copU i).sum

/-- R378: a request of requester i is eligible. -/
def State.copEligible (s : State) (i : Nat) : Bool :=
  decide (1 ≤ s.copG) || (decide (s.copU i < s.copQ i) && decide (1 ≤ s.copF))

/-- R382: the sum of the reserves and the floor with the reserve of requester i at q. -/
def State.copSum (s : State) (i q : Nat) : Nat :=
  ((List.range 16).map fun j => if j = i then q else s.copQ j).sum + s.rd Reg.COP_CFG_FLOOR

/-- R392: LOW_HIT is set on a downward crossing of LOW between two states. -/
def State.copLow (was : State) (s : State) : State :=
  let l := s.rd Reg.COP_CFG_LOW
  s.when (l != 0 && decide (l ≤ was.copF) && decide (s.copF < l)) (·.setb Reg.COP_STAT_LOW_HIT)

/-- R374: the link word of buffer i of strand k that is followed by `next`, or ends the strand. -/
def linkWord (i k : Nat) (next : Option Nat) : Nat :=
  let v := (match next with | some n => n % 2 ^ 13 | none => 2 ^ 13) + (i % 2 ^ 13) * 2 ^ 14 + (k % 8) * 2 ^ 27
  v + crc8 (leBytes 7 v) * 2 ^ 56

/-- R376: buffer i pushed onto the head of strand k. -/
def State.copPush (s : State) (i k : Nat) : State :=
  let s := s.hWrite (i * 4096) (leBytes 8 (linkWord i k (tget none s.cop.heads k)))
  s.onCop fun c =>
    { c with heads := tset none c.heads k (some i), lens := tset 0 c.lens k (tget 0 c.lens k + 1) }

/-- R376: a buffer returns to the pool: the ready stage if it has room, or the next strand of the push rotation.
During a rebuild only the state array changes, and the scan finds the buffer (R389). -/
def State.copReturn (s : State) (i : Nat) : State :=
  let s := (s.onBuf i fun b => { b with alloc := false }).bump Reg.COP_FREES_CNT 1
  if s.is Reg.COP_REBUILD_BUSY || !s.is Reg.COP_STAT_READY then s
  else if s.cop.ready.length < 16 then s.onCop fun c => { c with ready := c.ready ++ [i] }
  else
    let k := s.cop.pushPtr % 8
    (s.copPush i k).onCop fun c => { c with pushPtr := (k + 1) % 8 }

/-- R386: a name removed; the buffer returns when no name and no hold remains. -/
def State.dropName (s : State) (i r : Nat) : State :=
  let b := s.buf i
  let s := s.onBuf i fun b => { b with owners := b.owners.filter (· != r) }
  if b.alloc && b.owners.contains r && (b.owners.filter (· != r)).isEmpty && b.holds == 0 then s.copReturn i else s

/-- A name added, if it is not there (R78). -/
def State.addName (s : State) (i r : Nat) : State :=
  s.onBuf i fun b => { b with owners := if b.owners.contains r then b.owners else b.owners ++ [r] }

/-- A hold placed on a buffer (R117). -/
def State.addHold (s : State) (i : Nat) : State := s.onBuf i fun b => { b with holds := b.holds + 1 }

/-- R386: a hold ends; the buffer returns when it was the last and no name remains. -/
def State.dropHold (s : State) (i : Nat) : State :=
  let b := s.buf i
  let s := s.onBuf i fun b => { b with holds := b.holds - 1 }
  if b.alloc && b.owners.isEmpty && b.holds == 1 then s.copReturn i else s

/-- R384: the first three checks of a handle. -/
def State.handleBad (s : State) (h : Nat) : Bool :=
  !hdValid h || bits h 28 2 != 0 || !s.inPool (hdIndex h) || hdGen h != (s.buf (hdIndex h)).gen

/-- R384: the checks of a free, in order; 0 where it passes. -/
def State.freeCheck (s : State) (h r : Nat) : Nat :=
  if s.handleBad h then stBadHandle
  else if !(s.buf (hdIndex h)).alloc then stDoubleFree
  else if !(s.buf (hdIndex h)).owners.contains r then stOwner
  else 0

/-- R384: the checks of every other use of a handle; 0 where it passes. -/
def State.useCheck (s : State) (h r : Nat) : Nat :=
  if s.handleBad h || !(s.buf (hdIndex h)).alloc then stBadHandle
  else if !(s.buf (hdIndex h)).owners.contains r then stOwner
  else 0

/-- R385: a failed free is recorded. -/
def State.freeFault (s : State) (h r st : Nat) : State :=
  let kind := if st = stBadHandle then 1 else if st = stDoubleFree then 2 else 3
  let s := ((((s.wr Reg.COP_LAST_FAULT_INDEX (hdIndex h)).wr Reg.COP_LAST_FAULT_KIND kind).wr
    Reg.COP_LAST_FAULT_REQ r).setb Reg.COP_LAST_FAULT_VALID).bump Reg.COP_FREE_ERR_CNT 1
  s.raise { cls := clsContained, src := 2, code := 1, sub := st, obj := hdIndex h, req := r }

/-- R384 to R386: one free: its status (0 where it passes) and the state. -/
def State.freeOne (s : State) (h r : Nat) : Nat × State :=
  let st := s.freeCheck h r
  if st = 0 then (0, s.dropName (hdIndex h) r) else (st, s.freeFault h r st)

/-- R53: the first failing handle of a list for a submitter: position, status and index. -/
def State.handlesBad (s : State) (r : Nat) (l : List Nat) : Option (Nat × Nat × Nat) :=
  ((List.range l.length).map fun k => (k, s.useCheck (l.getD k 0) r, hdIndex (l.getD k 0))).find? fun x => x.2.1 != 0

/-- R378, R381: an ineligible request starts its wait. -/
def State.copMark (s : State) : State :=
  s.onCop fun c =>
    { c with
      reqs := (c.reqs.foldl (fun (a : List BufReq × Nat) r =>
        if r.waited.isNone && r.bookG + r.bookR == 0 && !s.copEligible r.req then
          (a.1 ++ [{ r with waited := some a.2 }], a.2 + 1)
        else (a.1 ++ [r], a.2)) ([], c.waitNo)).1
      waitNo := c.waitNo + c.reqs.length }

/-- R377, R381: a WAIT request for n buffers presented. -/
def State.copWant (s : State) (req : Nat) (use : For) (n : Nat) : State :=
  if n = 0 then s
  else (s.onCop fun c => { c with reqs := c.reqs ++ [{ req := req, use := use, left := n }] }).copMark

/-- R380: the split of a TRY request for n buffers that is accepted: general and reserve buffers. -/
def State.copTry (s : State) (req n : Nat) : Option (Nat × Nat) :=
  let g := s.copG
  if s.is Reg.COP_REBUILD_BUSY || !s.is Reg.COP_STAT_READY then none
  else if n ≤ g + (s.copQ req - s.copU req) ∧ n ≤ s.copF then some (min n g, n - min n g) else none

/-- R380: a removed request gives its bookings back by leaving the list. -/
def State.copCancel (s : State) (f : For → Bool) : State :=
  s.onCop fun c => { c with reqs := c.reqs.filter fun r => !f r.use }

/-- R374, R388: the link word of buffer i of strand k read and checked: nothing where it is faulty, otherwise the
buffer it names, if any. -/
def State.readLink (s : State) (i k : Nat) : Option (Option Nat) × State :=
  let (r, s) := s.hRead (i * 4096) 8
  let w := ofLE r.data
  let next := bits w 0 13
  let last := bit w 13
  let bad := !r.ok || bits w 56 8 != crc8 (leBytes 7 w) || bits w 14 13 != i || bits w 27 3 != k ||
    (!last && (decide (s.rd (Reg.HDG_RGN_USE (next / 256)) ≠ 0) || (s.buf next).alloc))
  (if bad then none else some (if last then none else some next), s)

/-- R388: the link word of buffer i is faulty: the strand restarts empty, and the fault is recorded. -/
def State.linkFault (s : State) (i k : Nat) : State :=
  let s := s.onCop fun c => { c with heads := tset none c.heads k none, lens := tset 0 c.lens k 0 }
  let s := (((s.wrBit Reg.COP_STAT_QUAR k true).setb Reg.COP_STAT_LINK_FAULT).bump
    Reg.COP_LINK_FAULTS_CNT 1)
  let s := (((s.wr Reg.COP_LAST_FAULT_INDEX i).wr Reg.COP_LAST_FAULT_KIND 4).wr Reg.COP_LAST_FAULT_REQ
    0).setb Reg.COP_LAST_FAULT_VALID
  s.err1 clsContained 2 2 i

/-- R375, R388: the pop of strand k's head, with the checks of its link word. -/
def State.copPop (s : State) (k : Nat) : State :=
  match tget none s.cop.heads k with
  | none => s
  | some i =>
    let (next, s) := s.readLink i k
    let s := s.onCop fun c => { c with ready := c.ready ++ [i], popPtr := (k + 1) % 8 }
    match next with
    | none => s.linkFault i k
    | some n =>
      s.onCop fun c =>
        { c with
          heads := tset none c.heads k n
          lens := tset 0 c.lens k (tget 0 c.lens k - 1) }

/-- R389: the ready stage and all strands emptied. -/
def State.copEmpty (s : State) : State :=
  (s.onCop fun c => { c with ready := [], heads := [], lens := [] }).wr Reg.COP_STAT_QUAR 0

/-- R389: the scan: each FREE entry in the pool pushed onto strand INDEX mod 8, in rising order. -/
def State.copScan (s : State) : State :=
  s.each (List.range 8192) fun s i => if s.inList i && !(s.buf i).alloc then s.copPush i (i % 8) else s

/-- R373, R379: buffer i granted to a requester. -/
def State.copGive (s : State) (i req : Nat) (rsv : Bool) : State :=
  let s := s.onBuf i fun b =>
    { b with
      alloc := true
      gen := (b.gen + 1) % 2048
      grantee := req
      rsv := rsv
      owners := [req]
      holds := 0
      dcrcV := false }
  (s.hForget i).bump Reg.COP_GRANTS_CNT 1

/-- The handle of buffer i as its entry stands (R50). -/
def State.handleOf (s : State) (i : Nat) : Nat :=
  let b := s.buf i
  mkHandle i b.gen b.grantee b.rsv

/-- The metadata slot of a buffer written (R282, R283). -/
def State.setSlot (s : State) (i : Nat) (m : Meta) (v : Bool) : State :=
  s.onBuf i fun b => { b with slot := m, dcrcV := v }

end Sys2Proof.Machine
end

