-- ==== Sys2Proof/Machine/Queues.lean ====
section
/-!
DEFINITION. The packet engine: the gate of the register port (R434, R437), rings and doorbells (R93 to R102), the
fetch of a packet and its checks (R47, R100), the table of outstanding tags (R49), and the requests for completion
records (R103).
-/
namespace Sys2Proof.Machine

/-! The gate of a register access. -/

/-- R433 to R437: a register access in the present power state. In OFF nothing happens; in NAP and DORMANT it ends
with an error response; in IDLE it is held and wakes the complex; otherwise it has its effect. -/
def State.gate (s : State) (m : Master) (addr : Nat) (v : Option Nat) (eff : State → State)
    (width : Nat := 4) : State :=
  match s.pwr.st with
  | .off => { s with resp := .none }
  | .nap | .dormant => { s with resp := .error }
  | .idle =>
    s.onPwr fun p => { p with
      held := p.held ++ [{ m := m, addr := addr, v := v, width := width }]
      waking := if p.waking.isSome then p.waking else some 0 }
  | .active => eff { s with resp := .none }

/-- A register access that is no doorbell write: a client port reaches only the doorbells (R96); any other access of
one ends with an error response (DEDUCED, log entry 17). -/
def State.access (s : State) (m : Master) (addr : Nat) (v : Option Nat) (eff : State → State)
    (width : Nat := 4) : State :=
  match m with
  | .client _ => { s with resp := .error }
  | _ => s.gate m addr v eff width

/-- R434, R437: a doorbell write or a write of WAKE, which also wakes the complex from NAP and DORMANT. -/
def State.accessWake (s : State) (m : Master) (addr : Nat) (v : Option Nat) (eff : State → State) : State :=
  match s.pwr.st with
  | .nap | .dormant =>
    (eff { s with resp := .none }).onPwr fun p =>
      { p with waking := if p.waking.isSome then p.waking else some 0 }
  | _ => s.gate m addr v eff

/-! The tag table (R49). -/

/-- The command whose tag is outstanding. -/
def State.cmd? (s : State) (tag : Nat) : Option Cmd := s.que.cmds.find? fun c => c.tag == tag

/-- The command of a tag; an empty one where the tag is not outstanding. -/
def State.cmd (s : State) (tag : Nat) : Cmd := (s.cmd? tag).getD { tag := tag, past := true }

/-- The command of a tag changed. -/
def State.onCmd (s : State) (tag : Nat) (f : Cmd → Cmd) : State :=
  s.onQue fun q => { q with cmds := q.cmds.map fun c => if c.tag == tag then f c else c }

/-- A frame of a command changed. -/
def State.onFrame (s : State) (tag pos : Nat) (f : Frame → Frame) : State :=
  s.onCmd tag fun c => { c with frames := c.frames.map fun x => if x.pos == pos then f x else x }

/-- A frame of a command. -/
def State.frame? (s : State) (tag pos : Nat) : Option Frame := (s.cmd tag).frames.find? fun f => f.pos == pos

/-- R54, R429: the record of a command as it stands. -/
def Cmd.record (c : Cmd) : Rec where
  tag := c.tag
  cls := c.pkt.cls
  status := c.status
  opcode := c.pkt.opcode
  detail := c.detail
  frames := c.count
  retry := c.frames.foldl (fun m f => max m f.retry) 0
  sqid := c.pair
  sqHead := c.sqHead
  energy := sat 0xFFFFFFFF ((c.pj + 2000) / 4000)
  result := c.result
  fetched := c.fetched
  deadline := c.pkt.deadline

/-- R531: a completion with ABORTED_BY_RESET is counted for the warm reset that runs, or that ran last. -/
def State.countReset (s : State) (st : Nat) : State :=
  if st ≠ stByReset then s
  else if s.sys.warmRun.isSome then s.onSys fun y => { y with removed := y.removed + 1 }
  else s.bump Reg.ERR_RST_REMOVED 1
/-- R103: a request for a record joins the waiting requests. -/
def State.request (s : State) (r : Rec) : State :=
  (s.countReset r.status).onQue fun q => { q with reqs := q.reqs ++ [r] }

/-- The command's last effect has taken place: its record is requested with a status and a detail word (R103). A
command whose record is already requested is left as it is: one record for each packet (R56). -/
def State.finish (s : State) (tag st detail : Nat) : State :=
  match s.cmd? tag with
  | none => s
  | some c =>
    if c.stage == .entered || c.stage == .running then
      let c' := { c with stage := .requested, status := st, detail := detail }
      (s.onCmd tag fun _ => c').request c'.record
    else s

/-- R130, R132, R513: a removed command completes with its removal status; a waiting request is replaced. -/
def State.removeCmd (s : State) (tag st count : Nat) : State :=
  match s.cmd? tag with
  | none => s
  | some c =>
    let c' :=
      { c with
        stage := .requested, status := st, detail := 0, removed := true, count := count
        result := if c.pkt.opcode = opDma then c.result else 0 }
    let s := s.onQue fun q => { q with reqs := q.reqs.filter fun r => !(r.live && r.tag == tag) }
    (s.onCmd tag fun _ => c').request c'.record

/-- INTERNAL with its cause (R57). -/
def State.finishInternal (s : State) (tag detail : Nat) : State := s.finish tag stInternal detail

/-- The command's effect is under way. -/
def State.running (s : State) (tag : Nat) : State := s.onCmd tag fun c => { c with stage := .running }

/-- R429: energy in pJ charged to a command. -/
def State.chargePj (s : State) (tag n : Nat) : State := s.onCmd tag fun c => { c with pj := c.pj + n }

/-- R446: the opcodes whose commands are held from the start of the hold-up sequence until it ends. -/
def opHolds (o : Nat) : Bool := [opRead, opReadRaw, opProgram, opAtomic, opErase, opCopy, opTrim].contains o

/-- A command that waits for its effect: outstanding, entered, of the given opcode, and not held by R446. -/
def State.ready? (s : State) (tag op : Nat) : Option Cmd :=
  match s.cmd? tag with
  | some c =>
    if c.stage == .entered && c.pkt.opcode == op && !(s.pwr.hold != 0 && opHolds op) then some c else none
  | none => none

/-- R498, R503, R508, R509, R513: policy firmware serves its inbox: Holly runs, its image has set READY, and no warm
reset holds it. -/
def State.hollyServes (s : State) : Bool := s.hly.running && s.is Reg.HLY_CTL_READY && s.sys.warmRun.isNone

/-- R62: the slow-path packet that policy firmware takes next from its inbox, if it has the tag and opcode. -/
def State.slow? (s : State) (tag op : Nat) : Option Cmd :=
  if s.que.inbox.head? = some tag ∧ s.hollyServes = true then s.ready? tag op else none

/-- R62, R133: a slow-path packet leaves the Holly inbox. -/
def State.takeInbox (s : State) (tag : Nat) : State :=
  (s.onQue fun q => { q with inbox := q.inbox.filter (· != tag) }).onHly
    fun h => { h with inflight := h.inflight ++ [tag] }

/-- A slow-path packet that has left the inbox completes. -/
def State.finishSlow (s : State) (tag st detail : Nat) : State :=
  (s.finish tag st detail).onHly fun h => { h with inflight := h.inflight.filter (· != tag) }

/-- R503: while Holly is halted, the packets that reach the head of the inbox complete with INTERNAL, cause 0x07. -/
def State.inboxHalt (s : State) : State :=
  if !s.hly.halted then s
  else (s.each s.que.inbox fun s t => s.finish t stInternal 7).onQue fun q => { q with inbox := [] }

/-! Rings (R94, R95). -/

/-- The state of a pair. -/
def State.pair (s : State) (k : Nat) : QPair := tget {} s.que.pairs k
/-- The state of a pair changed. -/
def State.onPair (s : State) (k : Nat) (f : QPair → QPair) : State :=
  s.onQue fun q => { q with pairs := tset {} q.pairs k (f (s.pair k)) }
/-- Entries of the SQ and of the CQ. -/
def State.sqSize (s : State) (k : Nat) : Nat := 2 ^ s.rd (Reg.QUE_CFG_SQ_SIZE k)
def State.cqSize (s : State) (k : Nat) : Nat := 2 ^ s.rd (Reg.QUE_CFG_CQ_SIZE k)
/-- Unconsumed records of a CQ (R106). -/
def State.cqFill (s : State) (k : Nat) : Nat :=
  ((s.pair k).cqTail + s.cqSize k - (s.pair k).cqHead) % s.cqSize k
/-- R101: commands of the pair are outstanding. -/
def State.pairBusy (s : State) (k : Nat) : Bool := (s.pair k).claimed != 0

/-- R101: a disabled pair without outstanding commands has its pointers at 0. -/
def State.pairSettle (s : State) (k : Nat) : State :=
  if !s.is (Reg.QUE_CFG_ENABLE k) && !s.pairBusy k then s.onPair k fun _ => {} else s

/-- R94: a ring of n bytes from a base divided by 64 lies where the rule allows. -/
def State.ringOk (s : State) (dram : Bool) (base n : Nat) : Bool :=
  if dram then decide (base * 64 + n ≤ 2 ^ 35)
  else
    decide (base * 64 + n ≤ hdgSize) && hRegion (base * 64) == hRegion (base * 64 + n - 1) &&
      s.rd (Reg.HDG_RGN_USE (hRegion (base * 64))) == 2

/-- R97: the doorbell rejects a write as a whole. -/
def State.dbReject (s : State) (k : Nat) : State :=
  (s.setb (Reg.QUE_CFG_DB_ERR k)).err1 clsContained 1 3 0 0 k

/-- R97: the SQ tail and CQ head of a write are legal. -/
def State.dbLegal (s : State) (k v : Nat) : Bool :=
  let t := bits v 0 12
  let h := bits v 16 12
  (!bit v 12 || decide (t < s.sqSize k)) &&
  (!bit v 28 || (decide (h < s.cqSize k) &&
    decide ((h + s.cqSize k - (s.pair k).cqHead) % s.cqSize k ≤ s.cqFill k)))

/-- R95 to R97: the effect of a doorbell write of pair k. -/
def State.doorbell (s : State) (m : Master) (k v : Nat) : State :=
  let foreign := match m with
    | .client p => p.val != k / 16
    | _ => false
  if foreign then s.err1 clsContained 1 3 0 0 k
  else if !s.is (Reg.QUE_CFG_ENABLE k) && (!s.pairBusy k || bit v 12) then s.dbReject k
  else if !s.dbLegal k v then s.dbReject k
  else s.onPair k fun p =>
    { p with
      sqTail := if bit v 12 then bits v 0 12 else p.sqTail
      cqHead := if bit v 28 then bits v 16 12 else p.cqHead }

/-- The register address of a doorbell. -/
def dbAddr (k : Nat) : Nat := 0x400C + 0x40 * k

/-- R96: a doorbell write that moves the SQ tail. -/
def execQueDoorbellSqtail (m : Master) (k : Fin 64) (v : W32) (s : State) : Out :=
  .next (s.accessWake m (dbAddr k) (some v.toNat) fun s => s.doorbell m k v.toNat)

/-- R95: a doorbell write that moves the CQ head. -/
def execQueDoorbellCqhead (m : Master) (k : Fin 64) (v : W32) (s : State) : Out :=
  .next (s.accessWake m (dbAddr k) (some v.toNat) fun s => s.doorbell m k v.toNat)

/-- The settings CFG[11:1] of a write of PL_QUEk_CFG. -/
def State.queSettings (s : State) (k v : Nat) : State :=
  (((s.wr (Reg.QUE_CFG_SQ_LOC k) (bits v 1 1)).wr (Reg.QUE_CFG_CQ_LOC k) (bits v 2 1)).wr
    (Reg.QUE_CFG_SQ_SIZE k) (bits v 4 4)).wr (Reg.QUE_CFG_CQ_SIZE k) (bits v 8 4)

/-- R102: the fields of PL_QUEk_CFG that a write always takes. -/
def State.queLevels (s : State) (k v : Nat) : State :=
  let s := (s.wr (Reg.QUE_CFG_IRQ k) (bits v 12 4)).wr (Reg.QUE_CFG_CQ_LEVEL k) (bits v 16 12)
  let s := s.when (bit v 28) (·.wr (Reg.QUE_CFG_LEVEL_HIT k) 0)
  let s := s.when (bit v 29) (·.wr (Reg.QUE_CFG_DB_ERR k) 0)
  s.when (bit v 30) (·.wr (Reg.QUE_CFG_CFG_ERR k) 0)

/-- R94, R102: the settings of a pair are valid. -/
def State.queValid (s : State) (k : Nat) : Bool :=
  let a := s.rd (Reg.QUE_CFG_SQ_SIZE k)
  let b := s.rd (Reg.QUE_CFG_CQ_SIZE k)
  decide (4 ≤ a) && decide (a ≤ 12) && decide (4 ≤ b) && decide (b ≤ 12) &&
    s.ringOk (s.is (Reg.QUE_CFG_SQ_LOC k)) (s.rd (Reg.QUE_SQBASE_BASE k)) (64 * 2 ^ a) &&
    s.ringOk (s.is (Reg.QUE_CFG_CQ_LOC k)) (s.rd (Reg.QUE_CQBASE_BASE k)) (32 * 2 ^ b)

/-- R101, R102: a write of PL_QUEk_CFG. A write that sets ENABLE takes the settings written in the same access; a
write that clears it stops fetching. A pair whose earlier commands still run is enabled with pointers at 0; its claims
stand until their records are written (R101). -/
def State.queCfg (s : State) (k v : Nat) : State :=
  let on := s.is (Reg.QUE_CFG_ENABLE k)
  let s := s.queLevels k v
  if on then
    if bit v 0 then s else (s.wr (Reg.QUE_CFG_ENABLE k) 0).pairSettle k
  else
    let s := s.queSettings k v
    if bit v 0 then
      if s.queValid k then (s.setb (Reg.QUE_CFG_ENABLE k)).onPair k fun p => { claimed := p.claimed }
      else s.setb (Reg.QUE_CFG_CFG_ERR k)
    else s

/-- R102: a write that sets PL_QUEk_CFG.ENABLE. -/
def execQueEnable (m : Master) (k : Fin 64) (v : W32) (s : State) : Out :=
  .next (s.access m (0x4008 + 0x40 * k) (some v.toNat) fun s => s.queCfg k v.toNat)

/-- R101: a write that clears PL_QUEk_CFG.ENABLE. -/
def execQueDisable (m : Master) (k : Fin 64) (v : W32) (s : State) : Out :=
  .next (s.access m (0x4008 + 0x40 * k) (some v.toNat) fun s => s.queCfg k v.toNat)

/-! Fetching (R47, R99, R100). -/

/-- R438, R446, R451, R508, R513: the packet engine fetches from no SQ: hold-up, the hold of a Holly activation, a warm
reset, a low-power entry past its commit point, or a clock that does not run. -/
def State.fetchStopped (s : State) : Bool :=
  s.pwr.st != .active || s.sys.noClk || s.pwr.hold != 0 || s.sys.warmRun.isSome ||
    (match s.pwr.entry with | some (t, _) => (s.cmd t).stage == .granted | none => false) ||
    (match s.hly.actv with | some a => !a.mcs && decide (1 ≤ a.stage) | none => false)

/-- R453: discovery has not ended on some channel whose flash power domain is on. -/
def State.undiscovered (s : State) : Bool :=
  s.sys.undisc.any fun n =>
    bit (s.rd Reg.PWR_DOM_EN) (n / 2) && !bit (s.rd Reg.PWR_DOM_PG_FAIL) (n / 2)

/-- R63, R116, R453: the packet is not taken now: the SQ is passed over. -/
def State.holdPacket (s : State) (p : Pkt) : Bool :=
  (opSlow p.opcode && decide (32 ≤ s.que.inbox.length)) ||
  (p.write?.isSome && decide (1024 ≤ s.que.ranges.length)) ||
  ([opRead, opReadRaw, opProgram, opAtomic, opErase, opCopy, opTrim, opFlush, opPin, opSync].contains p.opcode &&
    s.undiscovered) ||
  ((p.byLfa || p.write?.isSome) && !s.is Reg.MAP_CTL_ENABLE)

/-- The address of the slot of an SQ that is fetched next. -/
def State.sqAddr (s : State) (k head : Nat) : Nat := s.rd (Reg.QUE_SQBASE_BASE k) * 64 + head * 64

/-- The packet that stands at the head of a Hedgerow SQ, as the store holds it. -/
def State.peek (s : State) (k : Nat) : Pkt :=
  Pkt.ofBytes ((List.range 64).map fun i => s.hReadByte (s.sqAddr k (s.pair k).sqHead + i))

/-- R99, R100: SQ k may be fetched from. A Hedgerow ring is passed over while its next packet is held, and a DRAM ring also
while its own packet read is on its way (log entry 60) or 64 reads of the DRAM port are (R557). -/
def State.sqEligible (s : State) (k : Nat) : Bool :=
  let p := s.pair k
  s.is (Reg.QUE_CFG_ENABLE k) && p.sqHead != p.sqTail && decide (s.cqFill k + p.claimed + 1 < s.cqSize k) &&
    !(s.que.heldSq.any fun h => h.1 == k) &&
    !(s.que.dramReads.any fun r => match r.2 with | .packet q _ _ => q == k | .other => false) &&
    (if s.is (Reg.QUE_CFG_SQ_LOC k) then decide (s.que.dramReads.length < 64) else !s.holdPacket (s.peek k))

/-- A record for a packet whose tag does not become outstanding (R47, R48). -/
def State.rejectPacket (s : State) (p : Pkt) (k sqHead fetched st detail : Nat) : State :=
  s.request { tag := p.tag, live := false, cls := p.cls, status := st, opcode := p.opcode, detail := detail,
              sqid := k, sqHead := sqHead, fetched := fetched, deadline := p.deadline }

/-- R47, check 5: the reason why the tag is refused. -/
def State.tagBad (s : State) (p : Pkt) : Option Nat :=
  match tget none s.que.att p.client with
  | none => some 5
  | some (base, n) =>
    if p.tag < base ∨ base + n ≤ p.tag then some 5 else if (s.cmd? p.tag).isSome then some 4 else none

/-- R49, R110, R113, R116: the packet enters: its tag is outstanding, a write takes a range entry, and a slow-path
packet goes to the Holly inbox. A packet that fails check 6 later keeps its tag outstanding until its record is written
(R47 against R49, log entry 60). -/
def State.enterNow (s : State) (p : Pkt) (k sqHead fetched : Nat) : State :=
  let n := s.que.order + 1
  let was := s.que.inbox.length
  let c : Cmd := { tag := p.tag, pkt := p, pair := k, sqHead := sqHead, order := n, fetched := fetched }
  let s := s.onQue fun q =>
    { q with
      order := n
      cmds := q.cmds ++ [c]
      ranges := match p.write? with
        | some (r, f, l) => q.ranges ++ [{ tag := p.tag, order := n, region := r, first := f, len := l, port := p.client }]
        | none => q.ranges
      inbox := if opSlow p.opcode then q.inbox ++ [p.tag] else q.inbox }
  s.when (opSlow p.opcode) fun s =>
    (s.levelEvent Reg.HLY_INBOX_LEVEL_LEVEL Reg.HLY_INBOX_LEVEL_HIT 32 was (was + 1)).inboxHalt

/-- R513: a packet that enters during a warm reset is removed with ABORTED_BY_RESET. -/
def State.enter (s : State) (p : Pkt) (k sqHead fetched : Nat) : State :=
  let s := s.enterNow p k sqHead fetched
  if s.sys.warmRun.isNone then s
  else (s.removeCmd p.tag stByReset 0).onQue fun q =>
    { q with ranges := q.ranges.filter fun r => r.order != q.order, inbox := q.inbox.filter (· != p.tag) }

/-- R47: the checks 1 to 5 of a fetched packet, with the bytes as fetched and whether the read of them failed. -/
def State.checkPacket (s : State) (k sqHead fetched obj : Nat) (d : List Byte) (bad : Bool) : State :=
  let p := Pkt.ofBytes d
  if bad then
    (s.rejectPacket p k sqHead fetched stPacketCrc (p.tagw + 2 ^ 30 + 2 ^ 31)).err1 clsContained 1 2 obj
  else if crc32c (d.take 60) ≠ p.pcrc then s.rejectPacket p k sqHead fetched stPacketCrc (p.tagw + 2 ^ 30)
  else if !opcodes.contains p.opcode then s.rejectPacket p k sqHead fetched stOpcode 0
  else match s.chkFields p k with
    | some (off, r) => s.rejectPacket p k sqHead fetched stField (detailField off r)
    | none =>
      match s.tagBad p with
      | some r => s.rejectPacket p k sqHead fetched stField (detailField 2 r)
      | none => s.enter p k sqHead fetched

/-- R99, R100: the fetch takes the slot at the head of SQ k and claims a CQ entry. -/
def State.consumeSlot (s : State) (k : Nat) : State :=
  let n := s.sqSize k
  (s.onPair k fun p => { p with sqHead := (p.sqHead + 1) % n, claimed := p.claimed + 1 }).onQue
    fun q => { q with rot := (k + 1) % 64 }

/-- R100: the fetch of the next packet of SQ k. A DRAM ring answers through the DRAM port (R578). -/
def State.fetchFrom (s : State) (k : Nat) : State :=
  let a := s.sqAddr k (s.pair k).sqHead
  let head := ((s.pair k).sqHead + 1) % s.sqSize k
  let s := s.consumeSlot k
  if s.is (Reg.QUE_CFG_SQ_LOC k) then
    s.onQue fun q =>
      { q with
        dramReads := q.dramReads ++ [(q.nextRead, .packet k head s.now)]
        nextRead := q.nextRead + 1 }
  else
    let d := (List.range 64).map fun i => s.hReadByte (a + i)
    let (r, s) := s.hRead a 64
    s.checkPacket k head s.now a d (!r.ok)

/-- R100: the packet engine fetches the next packet from an eligible SQ in rotating order. -/
def execPacketFetch (s : State) : Out :=
  .next (if s.fetchStopped then s
    else match rotFind 64 s.que.rot s.sqEligible with
      | some k => s.fetchFrom k
      | none => s)

/-- R578: the DRAM port answers a read: the data, or an error response. A packet that may not be entered now
(R63, R116, R453) is put back: its slot stays at the head of the SQ. An error response brings no bytes: those of
the packet are free values then, and so are TAG, CLASS, OPCODE and DETAIL[15:0] of its record (log entry 60). -/
def execDramReadResponse (id : Nat) (data : Option (List Byte)) (s : State) : Out :=
  match s.que.dramReads.find? fun r => r.1 == id with
  | none => .next s
  | some (_, use) =>
    let s := s.onQue fun q => { q with dramReads := q.dramReads.filter fun r => r.1 != id }
    match use with
    | .other => .next s
    | .packet k head fetched =>
      let n := s.sqSize k
      let prev := (head + n - 1) % n
      let l := data.getD []
      let d := s.shape 64 l
      let s := s.spent 64 l
      if data.isSome && (s.holdPacket (Pkt.ofBytes d)) && crc32c (d.take 60) == (Pkt.ofBytes d).pcrc then
        .next ((s.onPair k fun p => { p with sqHead := prev, claimed := p.claimed - 1 }).pairSettle k)
      else .next (s.checkPacket k head fetched (objDaddr (s.sqAddr k prev)) d data.isNone)

/-! Writing records (R98, R103, R471). -/

/-- R54: the 32 bytes of a record. -/
def Rec.bytes (r : Rec) (phase : Bool) : List Byte :=
  let late := r.deadline != 0 && decide (r.fetched + r.deadline < r.tstamp)
  leBytes 2 (r.tag % 4096 + (r.cls % 4) * 2 ^ 12 + b2n phase * 2 ^ 15) ++ leBytes 1 r.status ++ leBytes 1 r.opcode ++
    leBytes 4 r.detail ++ leBytes 4 r.frames ++ leBytes 1 r.retry ++
    leBytes 1 (r.sqid % 64 + b2n late * 2 ^ 6 + b2n r.parked * 2 ^ 7) ++ leBytes 2 (r.sqHead % 4096) ++
    leBytes 4 r.energy ++ leBytes 8 r.tstamp ++ leBytes 4 r.result

/-- R49, R515, R580: the tag of a record becomes free, and no replaced entry of its command is kept any longer. -/
def State.freeTag (s : State) (r : Rec) : State :=
  if r.live then
    (s.onQue fun q => { q with cmds := q.cmds.filter fun c => c.tag != r.tag }).onMap fun m =>
      { m with replaced := m.replaced.filter fun x => x.1 != r.tag }
  else s

/-- R98, R106: a record is written into its CQ: PHASE of the present pass, the tail moves, the claim ends. -/
def State.writeCq (s : State) (r : Rec) : State :=
  let k := r.sqid
  let p := s.pair k
  let n := s.cqSize k
  let a := s.rd (Reg.QUE_CQBASE_BASE k) * 64 + p.cqTail * 32
  let was := s.cqFill k
  let s := if s.is (Reg.QUE_CFG_CQ_LOC k) then s.dramWrite a (r.bytes p.phase) else s.hWrite a (r.bytes p.phase)
  let wrap := decide (p.cqTail + 1 = n)
  let s := s.onPair k fun p =>
    { p with cqTail := (p.cqTail + 1) % n, phase := if wrap then !p.phase else p.phase, claimed := p.claimed - 1 }
  let s := s.levelEvent (Reg.QUE_CFG_CQ_LEVEL k) (Reg.QUE_CFG_LEVEL_HIT k) n was (s.cqFill k)
  (s.freeTag r).pairSettle k

/-- R471, R474: a record that finds its port's park store full, or is discarded, is dropped and counted. -/
def State.dropRec (s : State) (port : Nat) (r : Rec) : State :=
  let d := tget (0, 0, 0) s.que.dropped port
  let s := s.onQue fun q =>
    { q with
      dropped := tset (0, 0, 0) q.dropped port (sat 0xFFFF (d.1 + 1), if d.1 = 0 then r.tag else d.2.1, r.tag) }
  ((s.onPair r.sqid fun p => { p with claimed := p.claimed - 1 }).freeTag r).pairSettle r.sqid

/-- R471: a record of a dark port is parked, or dropped when 512 are parked. -/
def State.park (s : State) (port : Nat) (r : Rec) : State :=
  let l := tget [] s.que.parked port
  if 512 ≤ l.length then s.dropRec port r
  else
    (s.onQue fun q => { q with parked := tset [] q.parked port (l ++ [{ r with parked := true }]) }).when r.live
      fun s => s.onCmd r.tag fun c => { c with stage := .parked }

/-- R471: the port is dark: delivery to it waits. -/
def State.dark (s : State) (port : Nat) : Bool := s.que.dark.contains port

/-- R470, R471: a port reported DOWN goes dark. -/
def execPortLinkDown (port : Fin 4) (s : State) : Out :=
  .next (s.onQue fun q => { q with dark := if q.dark.contains port.val then q.dark else q.dark ++ [port.val] })

end Sys2Proof.Machine
end

