-- ==== Sys2Proof/Machine/Leases.lean ====
section
/-!
DEFINITION. Maintenance leases (R192 to R198): requests, conflicts, precedence, and the holder shown in
PL_TOP_CHLEASE.
-/
namespace Sys2Proof.Machine

/-- R195: precedence of an activity, 1 the highest. -/
def Act.rank : Act → Nat
  | .discover => 1
  | .zqcal => 2
  | .train => 3
  | .selftestCh => 4
  | .calib => 5
  | .rgnChange => 6
  | .selftestStore => 7
  | .scrub => 8
  | .reloc => 9
  | .patrol => 10
  | .gorse => 11

/-- R199: the code of a channel lease's holder. -/
def Act.code : Act → Nat
  | .discover => 1
  | .zqcal => 2
  | .train => 3
  | .selftestCh => 4
  | .calib => 5
  | _ => 0

/-- R193: the intrusive activities. -/
def Act.intrusive : Act → Bool
  | .discover | .zqcal | .train | .selftestCh | .calib => true
  | _ => false

/-! R61: the resources. -/
def resCh (n : Nat) : Nat × Nat := (1, n)
def resLun (n : Nat) : Nat × Nat := (2, n)
def resRgn (n : Nat) : Nat × Nat := (3, n)

/-- R194: two lists of resources name the same one. -/
def resClash (a b : List (Nat × Nat)) : Bool := a.any fun r => b.contains r

/-- A lease on the resource is held. -/
def State.leased (s : State) (r : Nat × Nat) : Bool := s.top.leases.any fun l => l.res.contains r

/-- Some lease held clashes with the resources. -/
def State.leaseHeld (s : State) (res : List (Nat × Nat)) : Bool := s.top.leases.any fun l => resClash l.res res

/-- R195: the order of requests: precedence, lower resource number, and the earlier request. -/
def Lease.base (l : Lease) : Nat :=
  l.act.rank * 2 ^ 80 + ((l.res.head?.getD (0, 0)).2 % 2 ^ 16) * 2 ^ 64 + l.no % 2 ^ 64
/-- R195: the key by which waiting requests are ranked: those passed over four times first, then in their order. -/
def Lease.key (l : Lease) : Nat := if 4 ≤ l.passed then l.base % 2 ^ 80 else l.base

/-- R196: the first resource of a request, in the order channel, LUN, store region, that is held or that a waiting request
ranked above it names. -/
def State.leaseConflict (s : State) (act : Act) (res : List (Nat × Nat)) : Option (Nat × Nat) :=
  let w : Lease := { act := act, res := res, no := s.top.leaseNo }
  (orderBy (fun r => r.1 * 256 + r.2) res).find? fun r =>
    s.leased r || s.top.waiting.any fun l => l.res.contains r && decide (l.key < w.key)

/-- An activity requests its leases; a request that waits or is held already is not made twice. -/
def State.wantLease (s : State) (act : Act) (res : List (Nat × Nat)) (tag : Option Nat) : State :=
  if (s.top.waiting ++ s.top.leases).any fun l => l.act == act && l.res == res && l.tag == tag then s
  else s.onTop fun t =>
    { t with
      waiting := t.waiting ++ [{ act := act, res := res, tag := tag, no := t.leaseNo }]
      leaseNo := t.leaseNo + 1 }

/-- R452, R468: no lease is granted on a LUN that is asked to retire; DISCOVER of a channel waits for its power and a
valid image. -/
def State.leaseBarred (s : State) (l : Lease) : Bool :=
  l.res.any fun r => (r.1 == 2 && s.top.retireReq.contains r.2) ||
    (l.act == .discover && (!s.is (Reg.CH_STAT_PWRGD r.2) || !s.is Reg.MCS_CTL_VALID))

/-- R198, R436, R513: Topiary grants no lease: hold-up, a warm reset, or the entry of a low-power state. -/
def State.leaseStopped (s : State) : Bool :=
  s.pwr.hold != 0 || s.pwr.warn || s.sys.warmRun.isSome || s.pwr.entry.isSome

/-- R195: the waiting request that takes its leases now. -/
def State.leaseNext (s : State) : Option Lease :=
  least Lease.key (s.top.waiting.filter fun l => !s.leaseHeld l.res && !s.leaseBarred l)

/-- R199: PL_TOP_CHLEASE and STAT.TRAINING show the holder of each channel lease. -/
def State.showLeases (s : State) (res : List (Nat × Nat)) (code : Nat) : State :=
  s.each (res.filter fun r => r.1 == 1) fun s r =>
    (s.wr (Reg.TOP_CHLEASE_CH r.2) code).wr (Reg.CH_STAT_TRAINING r.2) (b2n (code == 3))

/-- R195: a request takes its leases; those of lower precedence that it passes over are counted. -/
def State.takeLease (s : State) (l : Lease) : State :=
  (s.onTop fun t =>
    { t with
      waiting := (t.waiting.filter (· != l)).map fun w =>
        if resClash w.res l.res && decide (l.base < w.base) then { w with passed := w.passed + 1 } else w
      leases := t.leases ++ [l] }).showLeases l.res l.act.code

/-- An activity ends and releases its leases. -/
def State.dropLease (s : State) (act : Act) (res : List (Nat × Nat)) : State :=
  (s.onTop fun t => { t with leases := t.leases.filter fun l => !(l.act == act && l.res == res) }).showLeases res 0

/-- The leases and requests of a tag withdrawn. -/
def State.dropLeaseTag (s : State) (tag : Nat) : State :=
  s.each (s.top.leases.filter fun l => l.tag == some tag) (fun s l => s.dropLease l.act l.res) |>.onTop
    fun t => { t with waiting := t.waiting.filter fun l => l.tag != some tag }

/-- The channel lease is held by an activity. -/
def State.holds (s : State) (act : Act) (res : List (Nat × Nat)) : Bool :=
  s.top.leases.any fun l => l.act == act && l.res == res

/-- The tag of the held lease of an activity. -/
def State.leaseTag (s : State) (act : Act) (res : List (Nat × Nat)) : Option Nat :=
  match s.top.leases.find? fun l => l.act == act && l.res == res with
  | some l => l.tag
  | none => none

end Sys2Proof.Machine
end

