-- ==== Sys2Proof/Machine/Boxwood.lean ====
section
/-!
DEFINITION. The governor, Boxwood: ceilings, budgets and the live budget (R410 to R415), charges (R411), token
release (R412, R418), seek forecasts (R420, R421), the diode and its thermal states (R422 to R425), energy (R428 to
R430), and the stamp flags and fallback bins it raises on channels (R268, R269, R431).
-/
namespace Sys2Proof.Machine

/-! Budgets. -/

/-- R425, R423: the scale of R415: 16, or the scale of the thermal state in force. -/
def State.thermScale (s : State) : Nat :=
  let nz := fun v => if v = 0 then 1 else v
  if s.is Reg.BOX_THERM_STAT_HOT_CRIT || s.is Reg.BOX_THERM_STAT_SENSOR_FAIL then
    nz (s.rd Reg.BOX_THERM_CTL_CRIT_SCALE)
  else if s.is Reg.BOX_THERM_STAT_HOT_WARN then nz (s.rd Reg.BOX_THERM_CTL_HOT_SCALE)
  else 16

/-- R427: HU_BUDGET is in force. -/
def State.huBudget (s : State) : Bool := s.pwr.warn || s.pwr.hold != 0

/-- The seek cut of a level on a rail: 0 VCC, 1 VCCQ. -/
def State.seekCut (s : State) (rail level : Nat) : Nat :=
  if rail = 0 then s.rd (Reg.BOX_SEEK_CUT_VCC level) else s.rd (Reg.BOX_SEEK_CUT_VCCQ level)

/-- R415: the ceiling of a rail. -/
def State.ceil (s : State) (rail : Nat) : Nat :=
  if rail = 0 then s.rd Reg.BOX_CEIL_VCC else s.rd Reg.BOX_CEIL_VCCQ

/-- R414, R427: the budget of a rail that is in force. -/
def State.budget (s : State) (rail : Nat) : Nat :=
  if s.huBudget then (if rail = 0 then s.rd Reg.BOX_HU_BUDGET_VCC else s.rd Reg.BOX_HU_BUDGET_VCCQ)
  else if rail = 0 then s.rd Reg.BOX_BUDGET_VCC else s.rd Reg.BOX_BUDGET_VCCQ

/-- R415: the sum of the seek cuts in force on a rail. -/
def State.cuts (s : State) (rail : Nat) : Nat :=
  (((s.box.winA ++ s.box.winB).filter fun w => w.on).map fun w => s.seekCut rail w.level).sum

/-- R415: the live budget of a rail. -/
def State.live (s : State) (rail : Nat) : Nat :=
  min (s.budget rail) (s.ceil rail) * s.thermScale / 16 - s.cuts rail

/-- Tokens in use on a rail (R410). -/
def State.inUse (s : State) (rail : Nat) : Nat :=
  if rail = 0 then s.rd Reg.BOX_INUSE_VCC else s.rd Reg.BOX_INUSE_VCCQ

/-- R414, R415: LIVE, OVER and HOLDUP as they follow from the state. -/
def State.showLive (s : State) : State :=
  let v := s.live 0
  let q := s.live 1
  let s := ((s.wr Reg.BOX_LIVE_VCC v).wr Reg.BOX_LIVE_VCCQ q).wr Reg.BOX_STAT_HOLDUP (b2n s.huBudget)
  (s.wr Reg.BOX_STAT_OVER_V (b2n (decide (v < s.inUse 0)))).wr Reg.BOX_STAT_OVER_Q (b2n (decide (q < s.inUse 1)))

/-- Boxwood has refused the operation's last request, of its start or of its resume. -/
def Op.turned (o : Op) : Bool := o.st == .refused || (o.st == .suspended && o.resuming && !o.granted)
/-- R184: refused operations that a release concerns ask again: those found short on a rail, and those on the
channel. -/
def State.askAgain (s : State) (v q : Bool) (ch : Option Nat) : State :=
  s.onTop fun t => { t with
    ops := t.ops.map fun o =>
      if o.turned && ((v && o.shortV) || (q && o.shortQ) || ch == some (lunCh o.lun)) then { o with again := true } else o }

/-- R418: a change of the live budget: a rise counts as a token release. -/
def State.relive (s : State) (f : State → State) : State :=
  let t := (f s).showLive
  t.askAgain (decide (s.live 0 < t.live 0)) (decide (s.live 1 < t.live 1)) none

/-- R412: an operation takes its charge. -/
def State.takeTokens (s : State) (ch v q : Nat) : State :=
  let s := (s.wr Reg.BOX_INUSE_VCC (s.inUse 0 + v)).wr Reg.BOX_INUSE_VCCQ (s.inUse 1 + q)
  (s.onBox fun b => { b with chV := tset 0 b.chV ch (tget 0 b.chV ch + v) }).showLive

/-- R412, R184: a charge is given back, and refused operations ask again. -/
def State.giveTokens (s : State) (ch v q : Nat) : State :=
  let s := (s.wr Reg.BOX_INUSE_VCC (s.inUse 0 - v)).wr Reg.BOX_INUSE_VCCQ (s.inUse 1 - q)
  let s := (s.onBox fun b => { b with chV := tset 0 b.chV ch (tget 0 b.chV ch - v) }).showLive
  s.askAgain (v != 0) (q != 0) (if s.rd Reg.BOX_CHCAP_VCC != 0 then some ch else none)

/-- R412: the segment of a channel's activity has ended, and its tokens are free. -/
def State.giveJob (s : State) (n : Nat) : State :=
  let t := (s.chan n).tok
  if t = (0, 0) then s else (s.onChan n fun c => { c with tok := (0, 0) }).giveTokens n t.1 t.2
/-- R411: a charge on VCC with the plane factor. -/
def planeCharge (v n mpf : Nat) : Nat := (v * (16 + (n - 1) * mpf) + 15) / 16

/-- R411: the charge of an operation of a kind over n planes under a profile: VCC and VCCQ. -/
def State.charge (s : State) (p : List Byte) (k : OpKind) (n : Nat) : Nat × Nat :=
  let m := s.rd Reg.BOX_CTL_MPF
  match k with
  | .read | .raw | .soft =>
    (planeCharge (prToken p 0) n m + prToken p 3, prToken p 4 + prToken p 7)
  | .prog => (planeCharge (prToken p 1) n m + prToken p 3, prToken p 5 + prToken p 7)
  | .erase => (planeCharge (prToken p 2) n m, prToken p 6)

/-- R413: the first write of PL_BOX_CEIL sets both rails; later writes are ignored. -/
def State.ceilSet (s : State) (v : Nat) : State :=
  if s.locks.contains 0xA004 then s
  else
    s.relive fun s =>
      { (s.wr Reg.BOX_CEIL_VCC (bits v 0 16)).wr Reg.BOX_CEIL_VCCQ (bits v 16 16) with locks := s.locks ++ [0xA004] }

/-- R413: a write of PL_BOX_CEIL. -/
def execCeilWrite (m : Master) (v : W32) (s : State) : Out :=
  .next (s.access m 0xA004 (some v.toNat) fun s => s.ceilSet v.toNat)

/-- R414: a write of PL_BOX_BUDGET. A value above the ceiling acts as the ceiling (R566: it is stored as written). -/
def State.budgetSet (s : State) (v : Nat) : State :=
  s.relive fun s => (s.wr Reg.BOX_BUDGET_VCC (bits v 0 16)).wr Reg.BOX_BUDGET_VCCQ (bits v 16 16)

/-- R414: a write of PL_BOX_BUDGET. -/
def execBudgetWrite (m : Master) (v : W32) (s : State) : Out :=
  .next (s.access m 0xA008 (some v.toNat) fun s => s.budgetSet v.toNat)

/-! Seek forecasts. -/

/-- The windows of an actuator. -/
def Box.wins (b : Box) (act : Nat) : List Window := if act = 0 then b.winA else b.winB
/-- The windows of an actuator set. -/
def Box.setWins (b : Box) (act : Nat) (l : List Window) : Box :=
  if act = 0 then { b with winA := l } else { b with winB := l }

/-- R418, R421, R184: the operations refused under the forecast rule ask again at the end or cancellation of a
window; a refused operation found short on no rail was refused by that rule. -/
def State.askForecast (s : State) : State :=
  s.onTop fun t => { t with
    ops := t.ops.map fun o =>
      if o.turned && !o.shortV && !o.shortQ then { o with again := true } else o }

/-- R420: a forecast word applied: DURATION 0 cancels the windows not yet begun; a fifth window is dropped; START
below 200 is applied and counted. -/
def State.forecast (s : State) (act w : Nat) : State :=
  if !s.is Reg.BOX_CTL_FC_EN then s
  else if bits w 12 12 = 0 then
    (s.onBox fun b => b.setWins act ((b.wins act).filter fun x => x.on)).askForecast
  else
    let s := if bits w 0 12 < 200 then (s.setb Reg.BOX_STAT_FC_LATE).bump Reg.BOX_FC_CNT_LATE 1 else s
    if 4 ≤ (s.box.wins act).length then s.bump Reg.BOX_FC_CNT_DROP 1
    else s.onBox fun b => b.setWins act (b.wins act ++
      [{ start := s.now + bits w 0 12, stop := s.now + bits w 0 12 + bits w 12 12, level := bits w 24 2 }])

/-- R557: a word within 4 ticks of the last one that the actuator's input took comes too fast. -/
def State.fcBusy (s : State) (act : Nat) : Bool :=
  match tget none s.box.fcLast act with
  | some t => decide (s.now < t + 4)
  | none => false
/-- R420, R557: a forecast word is applied, or dropped and counted where it comes too fast. -/
def State.takeForecast (s : State) (act w : Nat) : State :=
  if !s.is Reg.BOX_CTL_FC_EN then s
  else if s.fcBusy act then s.bump Reg.BOX_FC_CNT_DROP 1
  else (s.onBox fun b => { b with fcLast := tset none b.fcLast act (some s.now) }).forecast act w

/-- R420, R437: a forecast word from a servo. While CCLK is stopped, the latest word of each actuator is latched. -/
def execForecastWord (act : Fin 2) (w : W32) (s : State) : Out :=
  .next (match s.pwr.st with
    | .off => s
    | .nap | .dormant => s.onBox fun b => { b with latched := tset none b.latched act.val (some w.toNat) }
    | _ => s.takeForecast act.val w.toNat)

/-- R437: the latched forecast words are applied at wake. -/
def State.applyLatched (s : State) : State :=
  let s' := s.each [0, 1] fun s a =>
    match tget none s.box.latched a with
    | some w => s.forecast a w
    | none => s
  s'.onBox fun b => { b with latched := [] }

/-- STAT.WIN_A or WIN_B of an actuator. -/
def winFld (act : Nat) : Fld := if act = 0 then Reg.BOX_STAT_WIN_A else Reg.BOX_STAT_WIN_B

/-- R420, R421: the earliest pending window of an actuator whose start has come begins: its cut lowers the live
budget; in-use above it sets FC_OVER and counts. -/
def execForecastWindowBegin (act : Fin 2) (s : State) : Out :=
  .next (match least Window.start ((s.box.wins act.val).filter fun w => !w.on && decide (w.start ≤ s.now)) with
    | none => s
    | some w =>
      let s := (s.onBox fun b => b.setWins act.val
        ((b.wins act.val).map fun x => if x == w then { x with on := true } else x)).showLive
      let s := s.setb (winFld act.val)
      if s.live 0 < s.inUse 0 ∨ s.live 1 < s.inUse 1 then (s.setb Reg.BOX_STAT_FC_OVER).bump Reg.BOX_FC_CNT_OVER 1
      else s)

/-- R418, R420: the window in force of an actuator that ends first ends: the live budget rises, and refused
operations ask again. -/
def execForecastWindowEnd (act : Fin 2) (s : State) : Out :=
  .next (match least Window.stop ((s.box.wins act.val).filter fun w => w.on && decide (w.stop ≤ s.now)) with
    | none => s
    | some w =>
      let s := (s.relive fun s => s.onBox fun b => b.setWins act.val ((b.wins act.val).erase w)).askForecast
      s.wr (winFld act.val) (b2n ((s.box.wins act.val).any fun x => x.on)))

/-! Channel flags (R268, R269). -/

/-- R256: the rate of a bin in MT/s. -/
def binRate (b : Nat) : Nat := [400, 533, 667, 800, 1066, 1200, 1600, 2000, 2400, 2800, 3200, 3600].getD b 3600

/-- R256: the lowest bin of the channel's interface mode. -/
def State.lowBin (s : State) (n : Nat) : Nat := if s.rd (Reg.CH_MODE_IFMODE n) = 1 then 0 else 3

/-- R265: THRESH; values below 8 act as 8. -/
def State.eyeThresh (s : State) (n : Nat) : Nat := max 8 (s.rd (Reg.CH_MARGIN_THRESH n))

/-- R269: the predicted margin at bin c of an eye of w taps at bin b. -/
def predEye (w b c : Nat) : Nat := (64 * binRate b - (64 - w) * binRate c) / binRate b

/-- The service level of a channel: 0 ABSENT, 1 SDR, 2 PRE, 3 FULL. -/
def State.level (s : State) (n : Nat) : Nat := s.rd (Reg.CH_STAT_LEVEL n)

/-- R106: the level event of a channel event FIFO whose fill goes from `was` to what it is now. -/
def State.evLevelHit (s : State) (n was : Nat) : State :=
  s.levelEvent (Reg.CH_EVT_LEVEL_LEVEL n) (Reg.CH_STAT_EVT_HIT n) 64 was (s.chan n).events.length

/-- R104, R105: the channel event FIFO takes no entry now: it holds 64, or a producer waits already. -/
def State.evFull (s : State) (n : Nat) : Bool := decide (64 ≤ (s.chan n).events.length) || !(s.chan n).evHeld.isEmpty

/-- R104, R106: an entry joins the channel event FIFO; its producer holds it while the FIFO is full (R105). -/
def State.post (s : State) (n : Nat) (e : Ev) : State :=
  if s.evFull n then s.onChan n fun c => { c with evHeld := c.evHeld ++ [e] }
  else (s.onChan n fun c => { c with events := c.events ++ [e] }).evLevelHit n (s.chan n).events.length

/-- R105, R226: the channel event FIFO gives up its oldest entry, and the oldest held entry takes the free slot. -/
def State.evServe (s : State) (n : Nat) : State :=
  let c := s.chan n
  (s.onChan n fun c => { c with events := c.events.tail ++ c.evHeld.take 1, evHeld := c.evHeld.drop 1 }).evLevelHit n
    c.events.tail.length

/-- R226: Topiary serves the channel event FIFOs at one entry per cycle: a tick leaves them empty. -/
def State.evServeAll (s : State) : State :=
  s.each (List.range 8) fun s n =>
    s.each (List.range ((s.chan n).events.length + (s.chan n).evHeld.length)) fun s _ => s.evServe n

/-- The code by which the model marks a level change in the channel event FIFO (R261 gives no code). -/
def evLevel : Nat := 0x100

/-- The code by which the model marks a fault of the sequencer there (R229 gives no code). -/
def evFault : Nat := 0x101

/-- R261: a change of level sets LVL_CHG and posts an event. A channel below FULL is not flagged and in no fallback (R268,
R269). -/
def State.moveLevel (s : State) (n lv : Nat) : State :=
  if lv = s.level n then s
  else
    let s := s.when (decide (lv < 3)) fun s => (s.wr (Reg.CH_STAT_FLAGGED n) 0).wr (Reg.CH_STAT_FALLBACK n) 0
    ((s.wr (Reg.CH_STAT_LEVEL n) lv).setb (Reg.CH_STAT_LVL_CHG n)).post n { code := evLevel, w := lv }
/-- R261: a change of level; a drop writes a record of the given class. -/
def State.setLevel (s : State) (n lv cls : Nat) : State :=
  let was := s.level n
  let s := s.moveLevel n lv
  if lv < was then s.err1 cls 7 1 n lv else s

/-- R264: a TRAIN of a channel is requested. -/
def State.wantTrain (s : State) (n : Nat) (tag : Option Nat) : State := s.wantLease .train [resCh n] tag

/-- R269: every delay in use of a channel's bound targets rescaled from one bin to another. -/
def State.rescale (s : State) (n b c : Nat) : State :=
  let f := fun (s : State) (F : Fld) => s.wr F (sat 255 ((2 * s.rd F * binRate c + binRate b) / (2 * binRate b)))
  s.each ((List.range 8).filter fun t => tget 8 (s.chan n).bind t < 8) fun s t =>
    let s := s.each (List.range 4) fun s k =>
      f (f (f (f s (Reg.CH_T_RDQ0_DLY n t k)) (Reg.CH_T_RDQ1_DLY n t k)) (Reg.CH_T_WDQ0_DLY n t k))
        (Reg.CH_T_WDQ1_DLY n t k)
    f (f s (Reg.CH_T_DQS_RD_GATE n t)) (Reg.CH_T_DQS_WR_DQS n t)

/-- The highest bin that R259 allows at PRE for a channel. -/
def State.preBin (s : State) (n : Nat) : Nat := min 3 (s.rd (Reg.CH_MODE_CAP_BIN n))

/-- R258: a change of bin relocks the PHY clock; the target bin is held until the relock ends. -/
def State.relock (s : State) (n bin : Nat) : State := s.onChan n fun c => { c with relock := some bin }

/-- R257, R259: every delay of a channel untrained. -/
def State.untrain (s : State) (n : Nat) : State :=
  let s := s.each (List.range 8) fun s t =>
    let s := s.each (List.range 4) fun s k =>
      (((s.wr (Reg.CH_T_RDQ0_DLY n t k) 32).wr (Reg.CH_T_RDQ1_DLY n t k) 32).wr (Reg.CH_T_WDQ0_DLY n t k) 32).wr
        (Reg.CH_T_WDQ1_DLY n t k) 32
    ((s.wr (Reg.CH_T_DQS_RD_GATE n t) 32).wr (Reg.CH_T_DQS_WR_DQS n t) 32).wr (Reg.CH_T_EYE_VALID n t) 0
  s.wr (Reg.CH_MODE_TRAINED_BIN n) 15
/-- R259: the channel goes to PRE with untrained delays. -/
def State.toPre (s : State) (n cls : Nat) : State :=
  let s := (s.setLevel n 2 cls).untrain n
  s.relock n (s.preBin n)
/-- R273: a drop to SDR: the interface mode of the targets is set back once the array phases have ended. -/
def State.toSdr (s : State) (n cls : Nat) : State :=
  ((s.setLevel n 1 cls).untrain n).onChan n fun c => { c with climb := 0, relock := none, jobs := [], next := none, sdrDue := true }

/-- R260: a channel above the level that FULL_EN and PRE_EN allow drops: to PRE, or to SDR where the switch to PRE is
held off. The class of the record of such a drop is not in R261. -/
def State.dropHeld (s : State) (n : Nat) : State :=
  if decide (2 ≤ s.level n) && !s.is (Reg.CH_CTL_PRE_EN n) then s.toSdr n clsRecovered
  else if s.level n == 3 && !s.is (Reg.CH_CTL_FULL_EN n) then s.toPre n clsRecovered
  else s

/-- R265, R269: the eye margin of the set in use: the smallest eye over the trained targets and both directions. -/
def State.stampEye (s : State) (n : Nat) : Nat :=
  (((List.range 8).filter fun t => s.is (Reg.CH_T_EYE_VALID n t)).map fun t =>
    min (s.rd (Reg.CH_T_EYE_RD_EYE n t)) (s.rd (Reg.CH_T_EYE_WR_EYE n t))).foldl min 64

/-- A background TRAIN of the channel runs (R270): one that no MAINT asked for. -/
def State.bgTrain (s : State) (n : Nat) : Bool := (s.chan n).train.isSome && (s.leaseTag .train [resCh n]).isNone
/-- R268 to R271: a flag on a FULL channel: FLAGGED, a background TRAIN, and at once the fallback bin, unless the
channel is in fallback or in a background TRAIN already. -/
def State.flag (s : State) (n : Nat) : State :=
  if s.level n != 3 then s
  else
    let s := s.setb (Reg.CH_STAT_FLAGGED n)
    let s := s.when (!(s.is (Reg.CH_STAT_FALLBACK n) || s.bgTrain n)) fun s =>
      let b := s.rd (Reg.CH_MODE_TRAINED_BIN n)
      let w := s.stampEye n
      let need := s.eyeThresh n + s.rd (Reg.CH_MARGIN_GUARD n)
      let fit := (List.range b).reverse.find? fun c => decide (s.lowBin n ≤ c) && decide (need ≤ predEye w b c)
      let s := s.bump (Reg.CH_ERRCNT_FALLBACKS n) 1
      match fit with
        | some c =>
          let s := (s.rescale n b c).relock n c
          let s := (s.setb (Reg.CH_STAT_FALLBACK n)).wr (Reg.CH_MARGIN_PRED n) (predEye w b c)
          s.err1 clsCorrected 7 1 n 3
        | none => s.toPre n clsCorrected
    s.when (s.is (Reg.CH_CTL_AUTO_TRAIN n) && !s.bgTrain n) fun s => s.wantTrain n none

/-- R268: the voltage point in use. -/
def State.vpt (s : State) : Nat := s.rd Reg.PWR_CTL_ECON

/-- The diode reading in quarter degrees (R422). -/
def State.temp (s : State) : Int := sgn 10 (s.rd Reg.BOX_TEMP_READING)

/-- R268: the temperature and voltage conditions of a stamp are left. -/
def State.stampOff (s : State) (n : Nat) : Bool :=
  let w := max 1 (s.rd (Reg.CH_BOUND_TEMP_WIN n))
  let d := s.temp - sgn 10 (s.rd (Reg.CH_STAMP_TEMP n))
  decide ((4 * w : Nat) < d.natAbs) || s.rd (Reg.CH_STAMP_VPT n) != s.vpt

/-- R268: the load condition of a stamp is left with k active channels. -/
def State.loadOff (s : State) (n k : Nat) : Bool :=
  decide (s.rd (Reg.CH_STAMP_ACT n) + s.rd (Reg.CH_BOUND_LOAD_WIN n) < k)

/-- R267, R268, R431: a load window closes: the channels active in it are counted and the flag rules applied. -/
def State.closeWindow (s : State) : State :=
  let k := ((List.range 8).filter fun n => (s.chan n).active).length
  let s := s.wr Reg.BOX_FC_CNT_LOAD_LAST k
  let s := s.each (List.range 8) fun s n => s.onChan n fun c =>
    { c with
      active := match tget none s.top.run n with | some g => g.what == 0 && decide (2 ≤ g.leg.kind) | none => false
      train := c.train.map fun t => { t with act := max t.act k } }
  s.each (List.range 8) fun s n => if s.loadOff n k then s.flag n else s

/-- R431: the close of a load window. -/
def execLoadWindowClose (s : State) : Out := .next (if s.pwr.st == .off then s else s.closeWindow)

/-! The diode. -/

/-- R262: a wing's calibration engine runs: the reading and the codes of the run are kept, and each channel of the wing takes
the codes at its next bus-free cycle. -/
def State.phyZq (s : State) (w : Nat) : State :=
  let (v, s) := s.draw
  let s := s.onBox fun b => { b with zqTemp := tset 0 b.zqTemp w s.temp, zqCode := tset 0 b.zqCode w v }
  s.each ((List.range 4).map (4 * w + ·)) fun s n => s.onChan n fun c => { c with zqDue := true }

/-- R422: the sampling interval expires and a conversion starts. -/
def execDiodeSampleTimer (s : State) : Out :=
  .next (if s.pwr.st == .off then s else s.onBox fun b => { b with converting := true })

/-- R424: a threshold in quarter degrees; a HOT_CRIT above 115 acts as 115, a COLD_CRIT below −40 as −40. -/
def State.thresh (s : State) (k : Nat) : Int :=
  match k with
  | 0 => 4 * max (-40) (sgn 8 (s.rd Reg.BOX_THRESH_COLD_CRIT))
  | 1 => 4 * sgn 8 (s.rd Reg.BOX_THRESH_COLD_WARN)
  | 2 => 4 * sgn 8 (s.rd Reg.BOX_THRESH_HOT_WARN)
  | _ => 4 * min 115 (sgn 8 (s.rd Reg.BOX_THRESH_HOT_CRIT))

/-- The fields of the thermal states, in the order of R425. -/
def thermFld (k : Nat) : Fld :=
  match k with
  | 0 => Reg.BOX_THERM_STAT_COLD_CRIT
  | 1 => Reg.BOX_THERM_STAT_COLD_WARN
  | 2 => Reg.BOX_THERM_STAT_HOT_WARN
  | _ => Reg.BOX_THERM_STAT_HOT_CRIT

/-- R425: the state is entered at a reading. -/
def State.thermIn (s : State) (k : Nat) (r : Int) : Bool :=
  if k ≤ 1 then decide (r < s.thresh k) else decide (s.thresh k ≤ r)

/-- R425: the state is left at a reading. -/
def State.thermOut (s : State) (k : Nat) (r : Int) : Bool :=
  if k ≤ 1 then decide (s.thresh 1 + 8 ≤ r) else decide (r < s.thresh k - 8)

/-- R425: one thermal state at a sample: entry sets its sticky bit, and entry into COLD_CRIT or HOT_CRIT writes a
record of class CORRECTED. An entry wakes the complex (R434, R437). -/
def State.thermStep (s : State) (k : Nat) (r : Int) : State :=
  if s.is (thermFld k) then (if s.thermOut k r then s.wr (thermFld k) 0 else s)
  else if s.thermIn k r then
    let s := (s.setb (thermFld k)).wrBit Reg.BOX_THERM_STAT_ENTERED k true
    let s := if k = 0 ∨ k = 3 then s.err1 clsCorrected 0x0A 1 0 k (unsgn 10 r) else s
    if s.pwr.st == .idle || s.pwr.st == .nap || s.pwr.st == .dormant then
      s.onPwr fun p => { p with waking := if p.waking.isSome then p.waking else some 0 }
    else s
  else s

/-- R422: 4 ms sampling is in force: the reading lies within 5 °C of a threshold. -/
def State.thermFast (s : State) (r : Int) : Bool :=
  (List.range 4).any fun k => decide ((r - s.thresh k).natAbs ≤ 20)

/-- R422: a reading outside the range of the diode saturates at its end. -/
def clampTemp (r : Int) : Int := max (-160) (min 500 r)

/-- R422 to R425, R268: a conversion that gave a reading. -/
def State.sample (s : State) (r : Int) : State :=
  let s := ((s.wr Reg.BOX_TEMP_READING (unsgn 10 r)).setb Reg.BOX_TEMP_VALID).wr Reg.BOX_TEMP_SAMPLES
    (s.rd Reg.BOX_TEMP_SAMPLES + 1)
  let s := (s.wr Reg.BOX_THERM_STAT_SENSOR_FAIL 0).onBox fun b => { b with fails := 0 }
  let s := s.each (List.range 4) fun s k => s.thermStep k r
  let s := s.wr Reg.BOX_THERM_STAT_FAST (b2n (s.thermFast r))
  let s := s.each (List.range 8) fun s n => if s.stampOff n then s.flag n else s
  s.each (List.range 2) fun s w => if 20 ≤ (s.temp - tget 0 s.box.zqTemp w).natAbs then s.phyZq w else s

/-- R423: a failed conversion; the third in a row sets SENSOR_FAIL and writes a record. -/
def State.sampleFail (s : State) : State :=
  let s := s.onBox fun b => { b with fails := b.fails + 1 }
  if 3 ≤ s.box.fails ∧ s.is Reg.BOX_THERM_STAT_SENSOR_FAIL = false then
    (s.setb Reg.BOX_THERM_STAT_SENSOR_FAIL).err1 clsUnrecovered 0x0A 2
  else s

/-- R422, R423: a conversion completes. -/
def execDiodeConversionDone (r : Option Int) (s : State) : Out :=
  .next (if !s.box.converting || s.pwr.st == .off then s
    else
      let s := s.onBox fun b => { b with converting := false }
      s.relive fun s => match r with
        | some r => s.sample (clampTemp r)
        | none => s.sampleFail)

/-- R424: a write of PL_BOX_THRESH: values that do not rise strictly are ignored and set THERM_ERR. -/
def State.threshSet (s : State) (v : Nat) : State :=
  let a := sgn 8 (bits v 0 8)
  let b := sgn 8 (bits v 8 8)
  let c := sgn 8 (bits v 16 8)
  let d := sgn 8 (bits v 24 8)
  if a < b ∧ b < c ∧ c < d then
    (((s.wr Reg.BOX_THRESH_COLD_CRIT (bits v 0 8)).wr Reg.BOX_THRESH_COLD_WARN (bits v 8 8)).wr
      Reg.BOX_THRESH_HOT_WARN (bits v 16 8)).wr Reg.BOX_THRESH_HOT_CRIT (bits v 24 8)
  else s.setb Reg.BOX_THERM_STAT_THERM_ERR

/-- R424: a write of PL_BOX_THRESH. -/
def execThreshWrite (m : Master) (v : W32) (s : State) : Out :=
  .next (s.access m 0xA088 (some v.toNat) fun s => s.threshSet v.toNat)

/-! Energy (R428 to R430). -/

/-- R428: in economy, a term is multiplied by SCALE / 256. -/
def State.econPj (s : State) (n : Nat) : Nat :=
  if s.is Reg.PWR_CTL_ECON then n * s.rd Reg.BOX_ECON_SCALE / 256 else n

/-- R430: an energy accumulator (0 to 3 ports, 4 background) takes pJ; whole µJ count, and the clearing counter of
R432 counts them too. -/
def State.addEnergy (s : State) (k pj : Nat) : State :=
  let t := tget 0 s.box.rem k + pj
  let s := s.onBox fun b =>
    { b with
      rem := tset 0 b.rem k (t % 1000000)
      uj := tset 0 b.uj k ((tget 0 b.uj k + t / 1000000) % 2 ^ 64) }
  if k < 4 then s.bump (Reg.BOX_EN_CP_CNT k) (t / 1000000) else s.bump Reg.BOX_EN_BG_CNT (t / 1000000)

/-- R428, R429: an event's energy charged to a command, or to background where it belongs to none. -/
def State.energy (s : State) (tag : Option Nat) (pj : Nat) : State :=
  let n := s.econPj pj
  match tag with
  | some t =>
    match s.cmd? t with
    | some c => (s.chargePj t n).addEnergy (c.pkt.client % 4) n
    | none => s.addEnergy 4 n
  | none => s.addEnergy 4 n

/-- R430: user bytes delivered to or taken from a port, with STATIC and PORT of R428. -/
def State.userBytes (s : State) (port n : Nat) : State :=
  s.onBox fun b => { b with bytes := tset 0 b.bytes port ((tget 0 b.bytes port + n) % 2 ^ 64) }

/-- R428: codeword bytes into the hard decoder, by class. -/
def State.hardPj (s : State) (c : Nat) : Nat :=
  cwLen c * (if c = 1 then s.rd Reg.BOX_EBYTE2_HARD_L else if c = 2 then s.rd Reg.BOX_EBYTE2_HARD_S
    else s.rd Reg.BOX_EBYTE2_HARD_D)

end Sys2Proof.Machine
end

