-- ==== Sys2Proof/Machine/Espalier.lean ====
section
/-!
DEFINITION. The sequencer of a channel (R200 to R226): fetching a microword, its faults, its effect, the next address
and the events. What Topiary does at the end of a segment stands with the commands, in Sequence.lean.
-/
namespace Sys2Proof.Machine

/-! Fetching (R205, R208). -/

/-- The image runs in the two-level format (R205). -/
def State.twoLevel (s : State) : Bool := s.is Reg.MCS_CTL_FORMAT
/-- The last microword address of the format (R221). -/
def State.lastUpc (s : State) : Nat := if s.twoLevel then 32767 else 16383
/-- The control-store word that holds a microword. -/
def State.csIndex (s : State) (upc : Nat) : Nat := if s.twoLevel then upc % 32768 / 2 else upc % 16384
/-- A microword: 32 bits, or 16 bits in the two-level format (R206). -/
def State.microword (s : State) (upc : Nat) : Nat :=
  let v := tget 0 s.mcs.cs (s.csIndex upc)
  if s.twoLevel then (if upc % 2 = 1 then bits v 16 16 else bits v 0 16) else v
/-- The nanoword that a two-level microword names (R217). -/
def State.nanoword (s : State) (mw : Nat) : Nat := tget 0 s.mcs.nano (bits mw 0 11)
/-- Keys of the marks of upset words: channel n, control-store word or nanoword i. -/
def csKey (n i : Nat) : Nat := n * 65536 + i
def nanoKey (n i : Nat) : Nat := n * 65536 + 32768 + i
/-- The keys of the words that the fetch at UPC reads. -/
def State.fetchKeys (s : State) (n upc : Nat) : List Nat :=
  csKey n (s.csIndex upc) :: (if s.twoLevel then [nanoKey n (bits (s.microword upc) 0 11)] else [])
/-- R208: a word of a channel's copy checked: a corrected error is counted and rewritten. -/
def State.csCheck (s : State) (key : Nat) : State :=
  if tget 0 s.mcs.csErr key = 1 then
    (s.bump Reg.MCS_CS_ERR_CORR 1).onMcs fun m => { m with csErr := tset 0 m.csErr key 0 }
  else s
/-- R208: an uncorrectable word is counted and rewritten from another channel's clean copy, if there is one. -/
def State.csRepair (s : State) (key : Nat) : State :=
  let s := s.bump Reg.MCS_CS_ERR_UNC 1
  if (List.range 8).any fun c => c != key / 65536 && tget 0 s.mcs.csErr (c * 65536 + key % 65536) == 0 then
    s.onMcs fun m => { m with csErr := tset 0 m.csErr key 0 }
  else s

/-! Fields of a vertical micro-op (R209, R210). -/

def mOp (w : Nat) : Nat := bits w 27 5
def mH (w : Nat) : Bool := bit w 26
def mW (w : Nat) : Nat := bits w 23 3
def mCond (w : Nat) : Nat := bits w 21 5
def mTarget (w : Nat) : Nat := bits w 0 14

/-- The operand bits that an OP defines; none for a reserved OP. -/
def opMask (o : Nat) : Option Nat :=
  match o with
  | 0x00 => some 0
  | 0x01 => some 0xFF
  | 0x02 => some 0xFF
  | 0x03 => some 0x7
  | 0x04 => some 0x1F
  | 0x05 => some 0x38001FF
  | 0x06 => some 0x3F
  | 0x07 => some 0x3800007
  | 0x08 => some 0x1FFF
  | 0x09 => some 0x3807FFF
  | 0x0A => some 0x3800007
  | 0x0B => some 0x3800003
  | 0x0C => some 0xF
  | 0x0D => some 0x38000FF
  | 0x10 => some 0x3E03FFF
  | 0x11 => some 0x3E03FFF
  | 0x12 => some 0x3E00000
  | 0x13 => some 0x3803FFF
  | 0x18 => some 0x380FFFF
  | 0x19 => some 0x3FFFFFF
  | 0x1A => some 0x38000FF
  | _ => none

/-- R213: the SEL values that are not reserved. -/
def selOk (v : Nat) : Bool := decide (v ≤ 0x13) || (decide (0x20 ≤ v) && decide (v ≤ 0x5F))

/-- R228: a micro-op with a reserved code or operand bit, whatever its H bit. -/
def mIllegal (w : Nat) : Bool :=
  match opMask (mOp w) with
  | none => true
  | some m =>
    bits w 0 26 &&& (0x3FFFFFF ^^^ m) != 0 ||
      (mOp w == 0x01 && decide (6 ≤ bits w 0 8) && decide (bits w 0 8 < 0x80)) ||
      (mOp w == 0x08 && bit w 12 && bits w 5 7 != 0) ||
      (mOp w == 0x09 && bit w 13 && bit w 14) ||
      ([0x10, 0x11, 0x12].contains (mOp w) && decide (0x1D ≤ mCond w)) ||
      (mOp w == 0x1A && !selOk (bits w 0 8))

/-- A work register. -/
def Seq.wreg (q : Seq) (i : Nat) : Nat := tget 0 q.w (i % 8)
/-- The operation block. -/
def Seq.obw (q : Seq) (i : Nat) : Nat := tget 0 q.ob i
/-- The count of a BURST. -/
def Seq.burstCount (q : Seq) (w : Nat) : Nat := if bits w 0 13 = 0 then q.wreg (mW w) else bits w 0 13

/-- R228: the fault of a micro-op and its TRAP code, when it is decoded. -/
def Seq.mFault (q : Seq) (w : Nat) : Option (Nat × Nat) :=
  let o := mOp w
  if mIllegal w then some (1, 0)
  else if o = 0x02 then some (9, bits w 0 8)
  else if o = 0x06 ∧ (bits w 0 3 = 0 ∨ bits w 0 3 = 7 ∨ 6 < bits w 0 3 + bits w 3 3) then some (5, 0)
  else if o = 0x07 ∧ 4 < bits w 0 3 then some (5, 0)
  else if o = 0x09 ∧ (q.burstCount w = 0 ∨ 4800 < q.burstCount w) then some (4, 0)
  else if [0x05, 0x06, 0x09, 0x0A, 0x0B].contains o ∧ q.ce = none then some (6, 0)
  else none

/-! Cycle counts (R215, R216). -/

/-- CCLK in MHz. -/
def State.cclkMhz (s : State) : Nat := if s.is Reg.PWR_CTL_ECON then 400 else 800
/-- Nominal cycles of a command, address or parameter byte. -/
def State.cycCa (s : State) (n : Nat) : Nat :=
  if s.rd (Reg.CH_MODE_IFMODE n) = 0 then [80, 36, 28, 24, 20, 16].getD (s.rd (Reg.CH_MODE_SDR_TM n)) 16 else 8
/-- Cycles of n bytes of command, address or parameters. -/
def State.caCycles (s : State) (n k : Nat) : Nat := (k * s.cycCa n * s.cclkMhz + 799) / 800
/-- Cycles of a BURST of k bytes. -/
def State.dtCycles (s : State) (n k : Nat) : Nat :=
  if s.rd (Reg.CH_MODE_IFMODE n) = 0 then s.caCycles n k
  else
    let r := binRate (s.rd (Reg.CH_STAT_BIN n))
    (k * s.cclkMhz + r - 1) / r
/-- R216: a timing slot in cycles. -/
def State.slotCycles (s : State) (p : List Byte) (i : Nat) : Nat :=
  max 1 (min 4096 ((prTslot p i * s.cclkMhz + 999) / 1000))
/-- The profile of a sequencer's segment. -/
def State.seqProf (s : State) (q : Seq) : List Byte := (s.mcs.img.profs[q.prof]?).getD []

/-! Effects. -/

/-- What one micro-op changes in its sequencer, and the cycles it takes. -/
structure MEff where
  w : List (Nat × Nat) := []
  flags : Option Nat := none
  im : Option Nat := none
  ce : Option (Option Nat) := none
  aar : List (Nat × Nat) := []
  sreg : Option Nat := none
  phy : Option Bool := none
  tx : Option (List Byte) := none
  rx : List Byte := []
  moved : Option Nat := none
  /-- FCn_CLE and FCn_ALE in its bus cycles. -/
  lines : Option (Bool × Bool) := none
  cyc : Nat := 1

/-- R211: the result of an ALU function on 16 bits. -/
def aluFn (f a b : Nat) : Nat :=
  match f with
  | 0 => (a + b) % 65536
  | 1 => (a + 65536 - b % 65536) % 65536
  | 2 => a &&& b
  | 3 => a ||| b
  | 4 => a ^^^ b
  | 5 => (a <<< (b % 16)) % 65536
  | 6 => a >>> (b % 16)
  | _ => (a + 65536 - b % 65536) % 65536

/-- R213: the source that SEL names. -/
def State.movsSrc (s : State) (n : Nat) (q : Seq) (sel : Nat) : Nat :=
  if sel ≤ 0x0F then q.obw sel
  else if sel = 0x10 then q.s
  else if sel = 0x11 then n
  else if sel = 0x12 then s.level n
  else if sel = 0x13 then q.last
  else if sel < 0x40 then prK (s.seqProf q) (sel - 0x20)
  else s.slotCycles (s.seqProf q) (sel - 0x40)

/-- R210: the writes of an RDB: bytes into W low, W high, W+1 low, W+1 high. -/
def rdbWrites (q : Seq) (w : Nat) (l : List Byte) : List (Nat × Nat) :=
  let b := fun i => (l.getD i 0).toNat
  let n := bits w 0 2 + 1
  let a := mW w
  let c := (a + 1) % 8
  [(a, if n = 1 then q.wreg a / 256 * 256 + b 0 else b 0 + 256 * b 1)] ++
    (if n ≤ 2 then [] else [(c, if n = 3 then q.wreg c / 256 * 256 + b 2 else b 2 + 256 * b 3)])

/-- R210: the bytes of a WRB. -/
def wrbBytes (q : Seq) (w : Nat) : List Byte :=
  (leBytes 2 (q.wreg (mW w)) ++ leBytes 2 (q.wreg (mW w + 1))).take (bits w 0 2 + 1)

/-- The bytes that the channel data path sends in a data-in segment (R294): the staged page of the running
operation, from the byte reached. -/
def State.stagedBytes (s : State) (n : Nat) (q : Seq) (k : Nat) : List Byte :=
  let page := match tget none s.top.run n with
    | some g => ((s.chan n).staged.find? fun (p : Staged) =>
      p.op == g.op && p.plane == g.leg.plane && p.page == g.leg.page).map Staged.bytes
    | none => none
  ((page.getD []).drop q.total).take k

/-- R210 to R213: the effect of a micro-op of sequencer n in state q with the bytes the bus brings. -/
def State.mEff (s : State) (n : Nat) (q : Seq) (w : Nat) (b : BusIn) : MEff :=
  match mOp w with
  | 0x03 => { im := some (bits w 0 3) }
  | 0x04 => { ce := some (if bit w 4 then some (if bit w 3 then bits (q.obw 1) 0 3 else bits w 0 3) else none) }
  | 0x05 =>
    { tx := some [BitVec.ofNat 8 (if bit w 8 then q.wreg (mW w) else bits w 0 8)], lines := some (true, false)
      cyc := s.caCycles n 1 }
  | 0x06 =>
    { tx := some ((List.range (bits w 0 3)).map fun i => BitVec.ofNat 8 (tget 0 q.aar (bits w 3 3 + i)))
      lines := some (false, true)
      cyc := s.caCycles n (bits w 0 3) }
  | 0x07 => { aar := [(bits w 0 3, q.wreg (mW w) % 256), (bits w 0 3 + 1, q.wreg (mW w) / 256)] }
  | 0x08 =>
    { cyc := if bit w 12 then s.slotCycles (s.seqProf q) (bits w 0 5)
             else if bits w 0 12 = 0 then 4096 else bits w 0 12 }
  | 0x09 =>
    let k := q.burstCount w
    { phy := some (!b.edgesOk || b.drift)
      rx := if bit w 13 || bit w 14 then [] else fit k b.bytes
      tx := if bit w 13 then some (s.stagedBytes n q k) else none
      moved := some k
      lines := some (false, false)
      cyc := s.dtCycles n k }
  | 0x0A =>
    { w := rdbWrites q w b.bytes
      sreg := if bit w 2 then some (b.bytes.getD 0 0).toNat else none
      lines := some (false, false)
      cyc := s.caCycles n (bits w 0 2 + 1) }
  | 0x0B => { tx := some (wrbBytes q w), lines := some (false, false), cyc := s.caCycles n (bits w 0 2 + 1) }
  | 0x18 => { w := [(mW w, bits w 0 16)] }
  | 0x19 =>
    let v := aluFn (bits w 20 3) (q.wreg (mW w)) (if bit w 19 then bits w 0 16 else q.wreg (bits w 16 3))
    { w := if bits w 20 3 = 7 then [] else [(mW w, v)], flags := some v }
  | 0x1A => { w := [(mW w, s.movsSrc n q (bits w 0 8))] }
  | _ => {}

/-- The effect applied to the sequencer. -/
def Seq.apply (q : Seq) (e : MEff) : Seq :=
  { q with
    w := e.w.foldl (fun t p => tset 0 t (p.1 % 8) (p.2 % 65536)) q.w
    z := match e.flags with | some v => v == 0 | none => q.z
    neg := match e.flags with | some v => bit v 15 | none => q.neg
    im := e.im.getD q.im
    ce := e.ce.getD q.ce
    aar := e.aar.foldl (fun t p => tset 0 t p.1 p.2) q.aar
    s := e.sreg.getD q.s
    phyerr := e.phy.getD q.phyerr
    tx := e.tx.getD q.tx
    rx := q.rx ++ e.rx
    cle := match e.lines with | some l => l.1 | none => q.cle
    ale := match e.lines with | some l => l.2 | none => q.ale
    last := e.moved.getD q.last
    total := q.total + e.moved.getD 0 }

/-! Conditions and the next address (R214, R221). -/

/-- R214: the level of the FCn_RB_N line of the target: the asserted one, or OB1.TARGET. -/
def Seq.rbHigh (q : Seq) (b : BusIn) : Bool := bit b.rb.val (q.ce.getD (bits (q.obw 1) 0 3) / 2)
/-- R214: a condition, with the balls of the channel. -/
def State.condHolds (s : State) (n : Nat) (q : Seq) (c : Nat) (b : BusIn) : Bool :=
  if c = 0 then true
  else if c = 1 then q.z else if c = 2 then !q.z else if c = 3 then q.neg else if c = 4 then !q.neg
  else if c = 5 then q.rbHigh b else if c = 6 then !q.rbHigh b
  else if c = 7 then b.eni else if c = 0x18 then !b.eni
  else if c < 0x10 then bit q.s (c - 0x08)
  else if c < 0x18 then !bit q.s (c - 0x10)
  else if c = 0x19 then q.phyerr
  else if c = 0x1A then s.level n == 3
  else if c = 0x1B then s.pwr.hold != 0
  else s.is Reg.PWR_CTL_ECON

/-- The kinds of next address (R218): 0 NEXT, 1 BR, 2 CALL, 3 RET, 4 DJNZ. -/
def kindOf (o : Nat) : Nat :=
  if o = 0x10 then 1 else if o = 0x11 then 2 else if o = 0x12 then 3 else if o = 0x13 then 4 else 0

/-- R221, R228: the sequencer with its next address, or a fault. A CALL at the last microword of the format pushes the
address behind it, modulo 32,768, and raises no PC_RANGE (log entry 61). -/
def State.nextAddr (s : State) (n : Nat) (q : Seq) (kind cond reg target : Nat) (b : BusIn) : Sum Nat Seq :=
  let seq := if q.upc = s.lastUpc then Sum.inl 0xA else Sum.inr { q with upc := q.upc + 1 }
  match kind with
  | 0 => seq
  | 1 => if s.condHolds n q cond b then Sum.inr { q with upc := target } else seq
  | 2 =>
    if s.condHolds n q cond b then
      if 4 ≤ q.stack.length then Sum.inl 2
      else Sum.inr { q with stack := ((q.upc + 1) % 32768, q.im) :: q.stack, upc := target }
    else seq
  | 3 =>
    if s.condHolds n q cond b then
      match q.stack with
      | [] => Sum.inl 3
      | (a, m) :: r => Sum.inr { q with stack := r, upc := a, im := m }
    else seq
  | _ =>
    let v := (q.wreg reg + 65535) % 65536
    let q := { q with w := tset 0 q.w (reg % 8) v, z := v == 0, neg := bit v 15 }
    if v = 0 then (if q.upc = s.lastUpc then Sum.inl 0xA else Sum.inr { q with upc := q.upc + 1 })
    else Sum.inr { q with upc := target }

/-! Events (R222 to R224). -/

/-- The event that a sampled boundary takes: 3 CHERR, 2 HOLDUP, 1 ABORT, 0 SUSPEND. -/
def Seq.event? (q : Seq) : Option Nat :=
  if bit q.evs 3 then some 3
  else if 4 ≤ q.stack.length then none
  else if bit q.evs 2 && bit q.im 2 then some 2
  else if bit q.evs 1 && bit q.im 1 then some 1
  else if bit q.evs 0 && bit q.im 0 then some 0
  else none

/-- R235: a 16-bit word of the entry table of a profile. -/
def State.entryWord (s : State) (prof off : Nat) : Nat := leAt ((s.mcs.img.entries[prof]?).getD []) off 2
/-- R235: the address of an event's vector: CHERR, HOLDUP, ABORT, SUSPEND at 0x80 to 0x86. -/
def State.vector (s : State) (prof ev : Nat) : Nat := bits (s.entryWord prof (0x80 + 2 * (3 - ev))) 0 15
/-- R202, R235: the entry of a routine, if present. -/
def State.entry? (s : State) (prof r : Nat) : Option Nat :=
  if r < 64 ∧ bit (s.entryWord prof (2 * r)) 15 = true then some (bits (s.entryWord prof (2 * r)) 0 15) else none

/-- R224: the event taken at a boundary. Bit 4 of the events remembers a CHERR that was taken (R274). -/
def State.takeEvent (s : State) (q : Seq) (ev : Nat) : Seq :=
  { q with
    stack := if ev = 3 then [] else (q.upc, q.im) :: q.stack
    im := 0
    upc := s.vector q.prof ev
    evs := if ev = 3 then putBit (putBit q.evs 3 false) 4 true else putBit q.evs ev false }

/-- R222: the boundary after a microword, with its H bit (false for WAIT and BURST). -/
def State.boundary (s : State) (q : Seq) (h : Bool) : Seq :=
  if h && decide (q.held < 16) then { q with held := q.held + 1 }
  else
    let q := { q with held := 0 }
    match q.event? with
    | some e => s.takeEvent q e
    | none => q

/-! The two-level format (R217 to R219). -/

/-- R219: OPA with P applied; none where PSEL is reserved for it. -/
def State.psel (s : State) (q : Seq) (a sel p : Nat) : Option Nat :=
  let k := prK (s.seqProf q) p
  let o := mOp a
  match sel with
  | 0 => some a
  | 1 =>
    if o = 0x05 then some (a - bits a 0 8 + k % 256)
    else if o = 0x18 then some (a - bits a 0 16 + k)
    else if o = 0x08 ∧ bit a 12 = false then some (a - bits a 0 12 + k % 4096)
    else if o = 0x09 then some (a - bits a 0 13 + k % 8192)
    else none
  | 2 => if o = 0x08 ∧ bit a 12 = true then some (a - bits a 0 5 + p) else none
  | 3 => some (a - bits a 23 3 * 2 ^ 23 + (p % 8) * 2 ^ 23)
  | 4 => some a
  | _ => none

/-- The fault of a nanoword before it issues, with OPA after P. -/
def State.nanoFault (s : State) (q : Seq) (v p : Nat) : Option (Nat × Nat) :=
  let opb := bits v 32 32
  let kind := bits v 27 3
  match s.psel q (bits v 64 32) (bits v 15 3) p with
  | none => some (1, 0)
  | some a =>
    if kindOf (mOp a) ≠ 0 ∨ ¬ [0x00, 0x03, 0x07, 0x18, 0x19, 0x1A].contains (mOp opb) ∨ bits v 30 2 ≠ 0 ∨ 5 ≤ kind ∨
        (1 ≤ kind ∧ kind ≤ 3 ∧ 0x1D ≤ bits v 22 5) then some (1, 0)
    else match q.mFault a with
      | some f => some f
      | none => q.mFault opb

/-! The state of a sequencer. -/

/-- R229: CE released, the bus lines idle, the sequencer halted with its fault recorded. -/
def State.haltSeq (s : State) (n upc code tcode : Nat) : State :=
  let s := s.onSeq n fun q => { q with ce := none, tx := [], run := false, halt := true, evs := 0, cle := false, ale := false }
  (((s.wr (Reg.MCS_FAULT_UPC n) upc).wr (Reg.MCS_FAULT_VALID n) 1).wr (Reg.MCS_FAULT_CODE n) code).wr
    (Reg.MCS_FAULT_TCODE n) tcode

/-- R230: the sequencer leaves its halt, if it is in one. -/
def State.restartSeq (s : State) (n : Nat) : State := s.onSeq n fun q => { q with halt := false }

/-- R208, R230: whether a fault leaves the sequencer halted for good. -/
def State.faultSticks (s : State) (n key : Nat) : Bool :=
  (match (s.seq n).lastFault with | some t => decide (s.now < t + 1000) | none => false) ||
    (key != 0 && tget 0 s.mcs.csErr (key - 1) == 2)

/-- R230: the automatic restart after a fault; `key` is 0, or 1 more than the key of an unrepaired word. -/
def State.autoRestart (s : State) (n key : Nat) : State :=
  let stuck := s.faultSticks n key
  let t := s.onSeq n fun q => { q with lastFault := some s.now }
  if !s.is Reg.MCS_CTL_AUTO_RESTART then
    t.when (key != 0 && tget 0 s.mcs.csErr (key - 1) == 2) (·.setb (Reg.MCS_FAULT_STUCK n))
  else if stuck then t.setb (Reg.MCS_FAULT_STUCK n)
  else t.restartSeq n

/-- A raised event becomes pending on the running segment of a channel. -/
def State.raiseEv (s : State) (n ev : Nat) : State :=
  if (s.seq n).run then s.onSeq n fun q => { q with evs := putBit q.evs ev true } else s

/-! Channel errors (R272, R273). -/

/-- R272: a BURST with PHYERR is counted; 16 within 1,000 ticks flag the channel. -/
def State.phyErr (s : State) (n : Nat) : State :=
  let l := ((s.chan n).phyErrs ++ [s.now]).filter fun t => decide (s.now < t + 1000)
  let s := (s.bump (Reg.CH_ERRCNT_PHYERR n) 1).onChan n fun c => { c with phyErrs := l.drop (l.length - 16) }
  if 16 ≤ l.length then s.flag n else s

/-- R273: a CHERR of kind 1 or 2: counted, recorded, and the level drops. -/
def State.cherr (s : State) (n kind : Nat) : State :=
  let s := ((s.setb (Reg.CH_STAT_CHERR n)).wr (Reg.CH_STAT_CHERR_KIND n) kind).bump (Reg.CH_ERRCNT_CHERR n) 1
  let lv := s.level n
  let s := if lv = 3 then s.toPre n clsRecovered else if lv = 2 then s.toSdr n clsRecovered else s
  let s := if lv = 3 ∧ s.is (Reg.CH_CTL_AUTO_TRAIN n) = true then s.wantTrain n none else s
  s.raiseEv n 3

end Sys2Proof.Machine
end

