-- ==== Sys2Proof/Machine/Frames.lean ====
section
/-!
DEFINITION. Frames: the metadata (R282), the end-to-end check (R284, R285), the scrambler (R287 to R289) and
codewords (R290 to R292).
-/
namespace Sys2Proof.Machine

/-! Metadata (R282). -/

/-- KIND values. -/
def kindUser : Nat := 1
def kindMap : Nat := 2
def kindPad : Nat := 3

/-- Metadata bytes 0 to 27. -/
def Meta.head (m : Meta) : List Byte :=
  leBytes 1 (m.kind % 16 + b2n m.poison * 16 + b2n m.cold * 32 + b2n m.atomic * 64 + b2n m.holdup * 128) ++
    leBytes 1 (m.region % 64 + (m.cclass % 4) * 64) ++ leBytes 1 (m.level % 4 + (m.quarter % 4) * 4) ++
    leBytes 1 m.ptemp ++ leBytes 4 m.name ++ leBytes 6 m.seq ++ leBytes 2 m.group ++ leBytes 1 (m.gpos % 64) ++
    leBytes 1 (m.glen % 128) ++ fill 6 0 ++ leBytes 4 m.dcrc

/-- The 32 bytes of metadata. -/
def Meta.bytes (m : Meta) : List Byte := m.head ++ leBytes 4 m.fcrc

/-- The metadata that 32 bytes spell. -/
def Meta.ofBytes (l : List Byte) : Meta where
  kind := bits (leAt l 0 1) 0 4
  poison := bit (leAt l 0 1) 4
  cold := bit (leAt l 0 1) 5
  atomic := bit (leAt l 0 1) 6
  holdup := bit (leAt l 0 1) 7
  region := bits (leAt l 1 1) 0 6
  cclass := bits (leAt l 1 1) 6 2
  level := bits (leAt l 2 1) 0 2
  quarter := bits (leAt l 2 1) 2 2
  ptemp := leAt l 3 1
  name := leAt l 4 4
  seq := leAt l 8 6
  group := leAt l 14 2
  gpos := bits (leAt l 16 1) 0 6
  glen := bits (leAt l 17 1) 0 7
  dcrc := leAt l 24 4
  fcrc := leAt l 28 4

/-- R284: FCRC, run on from DCRC over metadata bytes 0 to 27. -/
def Meta.formFcrc (m : Meta) : Meta := { m with fcrc := crc32cRun (m.dcrc ^^^ 0xFFFFFFFF) m.head ^^^ 0xFFFFFFFF }

/-- The user bytes of a frame. -/
def frameUser (f : List Byte) : List Byte := f.take 4096
/-- The metadata of a frame. -/
def frameMeta (f : List Byte) : Meta := Meta.ofBytes (f.drop 4096)
/-- R285: the CRC-32C over frame bytes 0 to 4,123. -/
def frameCrc (f : List Byte) : Nat := crc32c (f.take 4124)
/-- R285: a decoded frame passes. -/
def frameOk (f : List Byte) : Bool := frameCrc f == leAt f 4124 4
/-- The 4,128 bytes of a frame. -/
def mkFrame (user : List Byte) (m : Meta) : List Byte := fit 4096 user ++ m.bytes

/-- R282: PTEMP: whole °C of the diode, rounded toward minus infinity. -/
def State.tempC (s : State) : Int := s.temp / 4

/-! The scrambler (R287, R288). -/

/-- One step of the register: the output bit and the next state. -/
def lfsrStep (s : Nat) : Nat × Nat :=
  let fb := (s ^^^ (s >>> 1) ^^^ (s >>> 2) ^^^ (s >>> 22)) % 2
  (s % 2, s / 2 + fb * 2 ^ 31)

/-- Eight steps: a keystream byte and the next state. -/
def lfsrByte (s : Nat) : Nat × Nat :=
  (List.range 8).foldl (fun a i => let r := lfsrStep a.2; (a.1 + r.1 * 2 ^ i, r.2)) (0, s)

/-- R288: the seed of a PFA. -/
def seedOf (pfa : Nat) : Nat :=
  let v := bits pfa 0 32 ^^^ (bits pfa 32 8 * 2 ^ 24) ^^^ 0x6C8E9CF5
  if v = 0 then 1 else v

/-- The keystream applied to bytes from a register state. -/
def scrambleFrom : Nat → List Byte → List Byte
  | _, [] => []
  | st, b :: r => let k := lfsrByte st; (b ^^^ BitVec.ofNat 8 k.1) :: scrambleFrom k.2 r

/-- R287, R288: bytes scrambled or descrambled with the seed of a PFA, after 64 discarded steps. -/
def scramble (pfa : Nat) (l : List Byte) : List Byte :=
  scrambleFrom (times (fun s => (lfsrStep s).2) 64 (seedOf pfa)) l

/-- R289: n tail bytes with the seed of a PFA. -/
def tailBytes (pfa n : Nat) : List Byte := scramble pfa (fill n 0)

/-! The code (R290 to R292). -/

/-- R292: the entry at row r and column k of the base matrix of a class. -/
def baseEntry (c r k : Nat) : Nat :=
  Config.romWord (if c = 1 then 136 * r + k else if c = 2 then 952 + 143 * r + k else 2954 + 150 * r + k) % 2 ^ 16
/-- R291, R292: an entry of a base matrix applied to the 256 bits of a column: bit r of the result is bit (r + s) mod 256
of the column, and the zero block gives 0. -/
def circulant (e : Nat) (x : BitVec 256) : BitVec 256 := if bit e 15 then 0 else x.rotateRight (e % 256)
/-- R291: the columns of 256 bits that bytes hold. -/
def codeCols (l : List Byte) : List (BitVec 256) :=
  (List.range (l.length / 32)).map fun k => BitVec.ofNat 256 (leAt l (32 * k) 32)
/-- R291: the sum of row r of a base matrix over columns from number k on. -/
def rowSum (c r k : Nat) : List (BitVec 256) → BitVec 256
  | [] => 0
  | x :: l => circulant (baseEntry c r k) x ^^^ rowSum c r (k + 1) l
/-- R290: the rows of the base matrix of a class, which are its parity columns. -/
def codeRows (c : Nat) : Nat := 7 * c
/-- R291: the parity columns, computed row by row: row r gives parity column 129 + r from the columns before it (DEDUCED
from the dual-diagonal structure, log entry 72). -/
def parityCols (c : Nat) (info : List (BitVec 256)) : List (BitVec 256) :=
  (List.range (codeRows c)).foldl (fun ps r =>
    ps ++ [(rowSum c r 0 (info ++ ps)).rotateLeft (baseEntry c r (129 + r) % 256)]) []
/-- R290, R291: the parity bytes of a scrambled frame. -/
def parityBytes (c : Nat) (f : List Byte) : List Byte :=
  (parityCols c (codeCols f)).flatMap fun x => leBytes 32 x.toNat
/-- R291: the codeword of a scrambled frame. -/
def encodeFrom (c : Nat) (f : List Byte) : List Byte := f ++ parityBytes c f
/-- R296: the bytes are a codeword of the class: their syndrome is zero. -/
def zeroSyndrome (c : Nat) (l : List Byte) : Bool := l == encodeFrom c (l.take 4128)

/-- R290, R291: the codeword of a frame at a PFA in a class. -/
def codeword (c pfa : Nat) (frame : List Byte) : List Byte := encodeFrom c (scramble pfa (fit 4128 frame))

/-! Frames in pool buffers (R283 to R285). -/

/-- The user bytes of buffer i as a requester reads them. -/
def State.bufRead (s : State) (i : Nat) : HRead × State := s.hRead (i * 4096) 4096

/-- R284, R285: the frame in a buffer passes: it reads whole, DCRC is valid and matches. -/
def State.bufOk (s : State) (i : Nat) (r : HRead) : Bool :=
  r.ok && (s.buf i).dcrcV && crc32c r.data == (s.buf i).slot.dcrc

/-- A decoded frame placed in a buffer with its metadata (R285). -/
def State.bufFrame (s : State) (i : Nat) (f : List Byte) : State :=
  (s.hWrite (i * 4096) (frameUser f)).setSlot i (frameMeta f) true

/-- A zero frame placed in a buffer (R67). -/
def State.bufZero (s : State) (i : Nat) : State :=
  (s.hWrite (i * 4096) (fill 4096 0)).setSlot i { kind := kindUser, dcrc := crc32c (fill 4096 0) } true

end Sys2Proof.Machine
end

