-- ==== Sys2Proof/Machine/Juniper.lean ====
section
/-!
DEFINITION. Juniper: block groups and their records (R310 to R314), the levels a read uses (R315 to R318), the steps
of the retry ladder (R320), adoption (R326), and the health counters (R332 to R334).
-/
namespace Sys2Proof.Machine

/-- The group shift in use (R310). -/
def State.gShift (s : State) : Nat := s.rd Reg.JNP_STAT_GSHIFT_USED
/-- Groups of a LUN under a shift (R310). -/
def lunGroups (p : List Byte) (g : Nat) : Nat := (prBlocks p + 2 ^ g - 1) / 2 ^ g
/-- The group of a block of a LUN. -/
def State.groupOf (s : State) (lun block : Nat) : Nat := tget 0 s.jnp.base lun + block / 2 ^ s.gShift
/-- The table is in use (R340). -/
def State.jnpOn (s : State) : Bool := s.is Reg.JNP_TABLE_ENABLE
/-- The store address of record g (R312). -/
def State.grpAddr (s : State) (g : Nat) : Nat := s.rd Reg.JNP_TABLE_REGION * 0x100000 + 64 * g
/-- The epoch as a record holds it. -/
def State.epoch24 (s : State) : Nat := s.rd Reg.JNP_EPOCH_MINUTES % 2 ^ 24

/-- R313: a record in its default state. -/
def grpDefault (epoch : Nat) : List Byte :=
  fill 15 0 ++ [0, 0, 0x7F, 0x80, 0] ++ leBytes 3 epoch ++ leBytes 3 epoch ++ fill 38 0

/-- R338: the sector of a record is changed. -/
def State.grpTouch (s : State) (g : Nat) : State :=
  s.onJnp fun j => { j with changed := if j.changed.contains (g / 64) then j.changed else j.changed ++ [g / 64] }

/-- Bytes of a record written. -/
def State.grpWrite (s : State) (g off : Nat) (l : List Byte) : State := (s.hWrite (s.grpAddr g + off) l).grpTouch g

/-- The record of group g. R351: an uncorrectable record takes its default state and is rewritten. -/
def State.grpRead (s : State) (g : Nat) : List Byte × State :=
  let (r, s') := s.hRead (s.grpAddr g) 64
  if r.ok then (r.data, s')
  else
    let d := grpDefault s.epoch24
    (d, ((s'.grpWrite g 0 d).err1 clsRecovered 9 3 g))

/-- The record without the effects of reading it. -/
def State.grpPeek (s : State) (g : Nat) : List Byte :=
  (List.range 64).map fun i => s.hReadByte (s.grpAddr g + i)

/-! Levels (R315 to R318). -/

/-- R315: the adjusted levels of a profile. -/
def adjLevels (p : List Byte) : Nat := min (prLevels p) 14

/-- The integer clamped to a signed byte. -/
def clamp8 (i : Int) : Int := max (-128) (min 127 i)

/-- R317: a quotient by 64 rounded half away from zero. -/
def round64 (i : Int) : Int := if 0 ≤ i then (i + 32) / 64 else -((-i + 32) / 64)

/-- The profile number bound to a LUN's target; 8 where none is (R245). -/
def State.lunBind (s : State) (lun : Nat) : Nat := tget 8 (s.chan (lunCh lun)).bind (lunTarget lun)

/-- R317: the corrections of levels 1 to 15 of a group at the present diode reading. -/
def State.corrs (s : State) (lun : Nat) (p r : List Byte) : List Int :=
  let lo := sgn 8 (leAt r 17 1)
  let hi := sgn 8 (leAt r 18 1)
  let tp := (lo + hi) / 2
  let d := s.tempC - tp
  let n := s.lunBind lun
  if s.is Reg.JNP_CTL_XT_EN && decide (lo ≤ hi) && decide (max 5 (s.rd Reg.JNP_CTL_XT_DELTA) < d.natAbs) then
    (List.range 15).map fun i =>
      round64 (sgn 8 (if i + 1 ≤ (prLevels p + 1) / 2 then s.rd (Reg.JNP_XT_SLOPE_A n)
        else s.rd (Reg.JNP_XT_SLOPE_B n)) * d)
  else List.replicate 15 0

/-- Two lists added level by level and clamped. -/
def addLevels (a b : List Int) : List Int := List.zipWith (fun x y => clamp8 (x + y)) a b

/-- R317, R340: the effective tracked set E of a LUN's block. -/
def State.effSet (s : State) (lun block : Nat) (p : List Byte) : List Int :=
  if s.jnpOn then
    let r := s.grpPeek (s.groupOf lun block)
    addLevels ((List.range 15).map fun i => sgn 8 (leAt r i 1)) (s.corrs lun p r)
  else List.replicate 15 0

/-- R320: the level set of profile step k as it is sent. -/
def State.stepSet (s : State) (lun block : Nat) (p : List Byte) (k : Nat) : List Int :=
  if s.jnpOn then addLevels (prStep p k) (s.corrs lun p (s.grpPeek (s.groupOf lun block)))
  else (prStep p k).map clamp8

/-- The profile of a LUN has a routine (R238). -/
def State.hasRoutine (s : State) (lun r : Nat) : Bool := (s.entry? (s.lunBind lun) r).isSome

/-- R318: the resident set is unknown, or differs from a set by more than PRE_DIST on an adjusted level. -/
def State.needPreload (s : State) (lun : Nat) (p : List Byte) (e : List Int) : Bool :=
  match tget none s.jnp.resident lun with
  | none => true
  | some r =>
    (List.range (adjLevels p)).any fun i =>
      decide (s.rd Reg.JNP_CTL_PRE_DIST < ((r.getD i 0) - (e.getD i 0)).natAbs)

/-- R316: the resident set after a SET_LEVEL. -/
def State.setResident (s : State) (lun : Nat) (l : Option (List Int)) : State :=
  s.onJnp fun j => { j with resident := tset none j.resident lun l }

/-- R316: the resident sets of a channel become unknown. -/
def State.forgetResident (s : State) (ch : Nat) : State :=
  s.onJnp fun j => { j with resident := j.resident.filter fun r => lunCh r.1 != ch }

/-- R316: one LUN's resident set written: every LUN of the target where the level feature is per target. The profile
does not say which, so the model takes the feature as per LUN. -/
def State.noteLevels (s : State) (lun : Nat) (l : List Int) : State := s.setResident lun (some l)

/-- A signed byte. -/
def sbyte (i : Int) : Byte := BitVec.ofNat 8 (unsgn 8 i)

/-- R314: the first program pass into a block after its erase. -/
def State.firstProgram (s : State) (lun block : Nat) : State :=
  if !s.jnpOn then s
  else
    let g := s.groupOf lun block
    let (r, s) := s.grpRead g
    let lo := sgn 8 (leAt r 17 1)
    let hi := sgn 8 (leAt r 18 1)
    let t := s.tempC
    let a := if hi < lo then t else min lo t
    let b := if hi < lo then t else max hi t
    s.grpWrite g 17 ([sbyte a, sbyte b] ++ (r.drop 19).take 1 ++ leBytes 3 s.epoch24)

/-! The ladder (R320, R321). -/

/-- R320: the profile steps that the ladder runs: up to LADDER.STEPS, ending before the first all-zero entry. -/
def State.ladderSteps (s : State) (p : List Byte) : Nat :=
  ((List.range (min 24 (s.rd Reg.JNP_LADDER_STEPS))).takeWhile fun i => (prStep p (i + 1)).any (· != 0)).length

/-- R320: step k of the ladder runs for a LUN: `atE` says that the first read ran at exactly E, `reb` that the caller
permits parity rebuild. -/
def State.stepRuns (s : State) (lun : Nat) (p : List Byte) (k : Nat) (atE reb : Bool) : Bool :=
  if k = 1 then !s.hasRoutine lun 0x14 || !atE
  else if k ≤ 25 then s.hasRoutine lun 0x14 && decide (k - 1 ≤ s.ladderSteps p)
  else if k = 26 then s.is Reg.JNP_CTL_SOFT_EN && s.hasRoutine lun 0x1C
  else reb && s.is Reg.ECC_XOR_CTL_REBUILD_EN

/-- R320, R325, R513, R514: the step after k, if the ladder goes on. -/
def State.nextStep (s : State) (lun : Nat) (p : List Byte) (k : Nat) (atE reb : Bool) : Option Nat :=
  if s.pwr.hold != 0 || s.pwr.warn || s.sys.warmRun.isSome then none
  else ((List.range 27).map (· + 1)).find? fun j => decide (k < j) && s.stepRuns lun p j atE reb

/-- The level set of a ladder step, or from 32 on of a candidate of the channel's CALIB (R328); nothing where the read runs
at the die's levels. -/
def State.ladderSet (s : State) (lun block : Nat) (p : List Byte) (k : Nat) : Option (List Int) :=
  if !s.hasRoutine lun 0x14 then none
  else if 32 ≤ k then (tget none s.jnp.calib (lunCh lun)).bind fun r => (r.cands[k - 32]?).map fun c => c.set
  else if k ≤ 1 then some (s.effSet lun block p) else some (s.stepSet lun block p (k - 1))

/-! Learning (R326, R329). -/

/-- A change of the tracked set of group g: the offsets, if they change, and the marks of R326 and R329. -/
def State.setTracked (s : State) (g : Nat) (off : Option (List Int)) : State :=
  let (r, s) := s.grpRead g
  let o := match off with
    | some l => l.map sbyte
    | none => r.take 15
  let flags := (leAt r 15 1 &&& 0xFB) ||| 1
  let s := s.grpWrite g 0 (fit 15 o ++ leBytes 1 flags ++ leBytes 1 (leAt r 16 1 + 1))
  (s.grpWrite g 19 [sbyte s.tempC]).grpWrite g 23 (leBytes 3 s.epoch24)

/-- A CALIB runs on a group (R329). -/
def State.calibOn (s : State) (g : Nat) : Bool := s.jnp.calib.any fun c => match c.2 with | some x => x.group == g | none => false

/-- R326, R327: the adoption of profile step k by a frame whose ladder began at generation `gen`. -/
def State.adopt (s : State) (lun block k gen : Nat) (p : List Byte) : State :=
  let g := s.groupOf lun block
  let r := s.grpPeek g
  if s.is Reg.JNP_CTL_ADOPT_EN && s.jnpOn && leAt r 16 1 == gen && !s.calibOn g then
    let sent := s.stepSet lun block p k
    let off := addLevels sent ((s.corrs lun p r).map fun c => -c)
    (s.setTracked g (some off)).bump Reg.JNP_ADOPTS_CNT 1
  else s

/-! Health (R331 to R334). -/

/-- R331: a CALIB of a group requested by Juniper. -/
def State.queueCalib (s : State) (g : Nat) : State :=
  if !s.is Reg.JNP_CTL_AUTO_CAL || s.jnp.calq.contains g then s
  else if 8 ≤ s.jnp.calq.length then s.bump Reg.JNP_CAL_DROP_CNT 1
  else s.onJnp fun j => { j with calq := j.calq ++ [g] }

/-- The counts of a histogram with bin b raised by one; all are halved first where it would pass 255 (R333). -/
def histAdd (l : List Nat) (b : Nat) : List Nat :=
  let l := if l.getD b 0 = 255 then l.map (· / 2) else l
  (List.range l.length).map fun i => if i = b then l.getD i 0 + 1 else l.getD i 0

/-- R334: the median bin of a histogram; none where it is empty. -/
def histMedian (l : List Nat) : Option Nat :=
  if l.sum = 0 then none
  else (List.range l.length).find? fun b => decide (l.sum ≤ 2 * (l.take (b + 1)).sum)

/-- The histogram of n bins at offset `off` of a record. -/
def recHist (r : List Byte) (off n : Nat) : List Nat := (List.range n).map fun i => leAt r (off + i) 1

/-- R333: the ITER bin of a first read. -/
def iterBin (conv : Bool) (i : Nat) : Nat :=
  if !conv then 4 else if i ≤ 4 then 0 else if i ≤ 8 then 1 else if i ≤ 12 then 2 else 3

/-- R333: the RDEP bin of a depth. -/
def depthBin (d : Nat) : Nat :=
  if d ≤ 1 then d else if d ≤ 4 then 2 else if d ≤ 9 then 3 else if d ≤ 17 then 4 else if d ≤ 25 then 5
  else if d = 26 then 6 else 7

/-- R331, R333: a counted first read of a group. -/
def State.countFirst (s : State) (g : Nat) (conv : Bool) (iters : Nat) : State :=
  if !s.jnpOn then s
  else
    let (r, s) := s.grpRead g
    let s := s.grpWrite g 32 ((histAdd (recHist r 32 5) (iterBin conv iters)).map (BitVec.ofNat 8 ·))
    let age := (s.epoch24 + 2 ^ 24 - leAt r 23 3) % 2 ^ 24
    let lim := s.rd Reg.JNP_CAL_CAL_AGE
    if lim != 0 && decide (lim < age) && !bit (leAt r 15 1) 2 then
      (s.grpWrite g 15 (leBytes 1 (leAt r 15 1 ||| 4))).queueCalib g
    else s

/-- R333, R334: a counted frame of a group with its retry depth. -/
def State.countDepth (s : State) (g d : Nat) : State :=
  if !s.jnpOn then s
  else
    let (r, s) := s.grpRead g
    let h := histAdd (recHist r 37 8) (depthBin d)
    let s := (s.grpWrite g 37 (h.map (BitVec.ofNat 8 ·))).grpWrite g 26 (leBytes 1 (max (leAt r 26 1) d))
    let thr := max 1 (s.rd Reg.JNP_WEAR_THRESH)
    let hit := match histMedian h with
      | some b => decide (s.rd Reg.JNP_WEAR_MIN ≤ h.sum) && decide (thr ≤ b)
      | none => false
    if hit && !bit (leAt r 15 1) 1 then
      let s := (s.grpWrite g 15 (leBytes 1 (leAt r 15 1 ||| 2))).setb Reg.JNP_STAT_WEAR
      ((s.post1 1 g).err1 clsCorrected 9 1 g).queueCalib g
    else s

/-- R333: a status failure of a block: offset 27 for a program, 28 for an erase. -/
def State.countFail (s : State) (lun block off : Nat) : State :=
  if !s.jnpOn then s
  else
    let g := s.groupOf lun block
    let (r, s) := s.grpRead g
    s.grpWrite g off (leBytes 1 (sat 255 (leAt r off 1 + 1)))

end Sys2Proof.Machine
end

