-- ==== Sys2Proof/Machine/Yew.lean ====
section
/-!
DEFINITION. Yew, the keeping store (R475 to R497): the array, the command register with its sequence and its checks,
suspends, the keeper's work and the progress journal.
-/
namespace Sys2Proof.Machine

/-- R475: an erased word. -/
def yErased : Nat := 2 ^ 64 - 1
/-- The word at a byte address. -/
def State.yWord (s : State) (a : Nat) : Nat := tget yErased s.yew.words (a / 8)
/-- A word stored. -/
def State.yPut (s : State) (a v : Nat) : State :=
  s.onYew fun y => { y with words := tset yErased y.words (a / 8) (v % 2 ^ 64), badWords := y.badWords.filter (· != a / 8) }
/-- The word reads as uncorrectable. -/
def State.yBad (s : State) (a : Nat) : Bool := s.yew.badWords.contains (a / 8)
/-- R475: bank and sector of an address. -/
def yBank (a : Nat) : Nat := a / 2 ^ 22 % 2
def ySector (a : Nat) : Nat := a / 4096 % 1024
/-- The address of a word of a sector of a bank. -/
def yAddr (bank sector word : Nat) : Nat := bank * 2 ^ 22 + sector * 4096 + word * 8
/-- A sector erased. -/
def State.yEraseSector (s : State) (a : Nat) : State :=
  s.onYew fun y =>
    { y with
      words := y.words.filter fun w => w.1 / 512 != a / 4096
      badWords := y.badWords.filter fun w => w / 512 != a / 4096 }

/-- The operation of a bank. -/
def State.yOp? (s : State) (b : Nat) : Option YOp := tget none s.yew.ops b
/-- The operation of a bank set. -/
def State.ySet (s : State) (b : Nat) (o : Option YOp) : State := s.onYew fun y => { y with ops := tset none y.ops b o }
/-- R476: the bank is busy. -/
def State.yBusy (s : State) (b : Nat) : Bool :=
  match s.yOp? b with
  | some o => !o.susp
  | none => false
/-- R477: the bank of Holly's fetch window. -/
def State.yFetch (s : State) : Nat := s.rd Reg.HLY_STAT_BANK

/-! The activation record (R479). -/

/-- R479: the record of a bank, if it is valid. -/
def State.actRec (s : State) (b : Nat) : Option Nat :=
  let w := s.yWord (yAddr b 288 0)
  if bits w 32 32 = 0xFFFFFFFF - bits w 0 32 ∧ s.yBad (yAddr b 288 0) = false then some w else none

/-- R478, R479: the record in force; with none, bank 0 is active for both images. -/
def State.actForce (s : State) : Nat :=
  match s.actRec 0, s.actRec 1 with
  | some a, some b => if bits a 8 24 < bits b 8 24 then b else a
  | some a, none => a
  | none, some b => b
  | none, none => 0

def State.actHolly (s : State) : Nat := bits s.actForce 0 1
def State.actMcs (s : State) : Nat := bits s.actForce 1 1

/-- The activation record with new banks, one generation on. -/
def State.actWord (s : State) (holly mcs : Nat) : Nat :=
  let v := holly % 2 + (mcs % 2) * 2 + ((bits s.actForce 8 24 + 1) % 2 ^ 24) * 2 ^ 8
  v + (0xFFFFFFFF - v) * 2 ^ 32

/-! The keeper (R489). -/

/-- The keeper starts its next job where its bank is free; a job in the bank of Holly's fetch window fences Holly. -/
def State.keeperGo (s : State) : State :=
  match s.yew.jobs with
  | [] => s
  | j :: r =>
    if (List.range 2).any (fun b => match s.yOp? b with | some o => o.master == 3 | none => false) ||
        (s.yOp? (yBank j.addr)).isSome then s
    else
      ((s.onYew fun y => { y with jobs := r }).ySet (yBank j.addr)
        (some { erase := j.erase, master := 3, addr := j.addr, data := j.data, note := j.note
                fence := yBank j.addr == s.yFetch })).wr Reg.YEW_SUSP_COUNT 0

/-- Work given to the keeper. -/
def State.keep (s : State) (l : List KJob) : State := (s.onYew fun y => { y with jobs := y.jobs ++ l }).keeperGo

/-- R496, R338: a whole sector of the keeper's own areas: erased if it is not blank, then its words. -/
def sectorJobs (a : Nat) (words : List Nat) : List KJob :=
  { addr := a, erase := true } ::
    ((List.range words.length).filterMap fun i =>
      if words.getD i yErased = yErased then none else some { addr := a + 8 * i, data := words.getD i 0 })

/-- R479, R489: the activation record written: first the quiet bank's copy, then the other, whose word carries the
note. -/
def State.keepAct (s : State) (holly mcs note : Nat) : State :=
  let w := s.actWord holly mcs
  let q := 1 - s.yFetch
  s.keep (sectorJobs (yAddr q 288 0) [w] ++
    (sectorJobs (yAddr (1 - q) 288 0) [w]).map fun j => if j.erase then j else { j with note := note })

/-! The progress journal (R491, R492). -/

/-- R491: the address of a word of ring position r. -/
def jAddr (r w : Nat) : Nat := yAddr (r % 2) (356 + r / 2) w
/-- R491: the header of a ring sector. -/
def jHeader (gen : Nat) : Nat := gen % 2 ^ 32 + (2 ^ 32 - 1 - gen % 2 ^ 32) * 2 ^ 32

/-- R492: the LUN and block that a BLOCK_OPEN word names, if its check holds. -/
def jOpens (w : Nat) : Option (Nat × Nat) :=
  if bits w 0 8 = 1 ∧ bits w 56 8 = crc8 (leBytes 7 w) then some (pfaLun (bits w 8 40), pfaBlock (bits w 8 40)) else none
/-- The records of a ring sector. -/
def State.jWords (s : State) (r : Nat) : List Nat := (List.range 511).map fun i => s.yWord (jAddr r (i + 1))
/-- R521: the BLOCK_OPEN words of ring sector r that are the only record of a block set that is still open. -/
def State.jKeep (s : State) (r : Nat) : List Nat :=
  (s.jWords r).filter fun w => match jOpens w with
    | none => false
    | some b => s.top.opened.contains b && !(s.yew.jobs.any fun j => jOpens j.data == some b) &&
        (List.range 128).all fun k => k == r || (s.jWords k).all fun v => jOpens v != some b
/-- R491, R521: room for n words at the head; a record that does not fit starts the next ring sector, and the sector two
ahead is erased, after a fresh record of every open block set that only it names. -/
def State.jRoom (s : State) (n : Nat) : State :=
  let y := s.yew
  if y.jWord = 0 then
    (s.keep [{ addr := jAddr y.jHead 0, data := jHeader (y.jGen + 1) }]).onYew
      fun y => { y with jWord := 1, jGen := y.jGen + 1 }
  else if y.jWord + n ≤ 512 then s
  else
    let h := (y.jHead + 1) % 128
    let old := (s.jKeep ((h + 2) % 128)).take 256
    (s.keep ({ addr := jAddr h 0, data := jHeader (y.jGen + 1) } ::
      (List.range old.length).map (fun i => { addr := jAddr h (i + 1), data := old.getD i 0 }) ++
      [{ addr := jAddr ((h + 2) % 128) 0, erase := true }])).onYew
      fun y => { y with jHead := h, jWord := 1 + old.length, jGen := y.jGen + 1 }

/-- Words appended to the journal; the note goes with the last. -/
def State.jPut (s : State) (l : List Nat) (note : Nat) : State :=
  let s := s.jRoom l.length
  let y := s.yew
  (s.keep ((List.range l.length).map fun i =>
    { addr := jAddr y.jHead (y.jWord + i), data := l.getD i 0, note := if i + 1 = l.length then note else 0 })).onYew
      fun y => { y with jWord := y.jWord + l.length, jSeq := y.jSeq + 1 }

/-- R492: a one-word record with its check in [63:56]. -/
def jOne (v : Nat) : Nat := v % 2 ^ 56 + crc8 (leBytes 7 v) * 2 ^ 56
/-- R492: a one-word record other than BLOCK_OPEN. -/
def State.jShort (s : State) (type extra : Nat) : Nat :=
  jOne (type + 256 + (s.yew.jSeq % 2 ^ 32) * 2 ^ 16 + (extra % 256) * 2 ^ 48)
/-- R492: a record of several words: header, content, check word. -/
def State.jLong (s : State) (type : Nat) (content : List Nat) : List Nat :=
  let l := (type + (content.length + 2) * 256 + (s.yew.jSeq % 2 ^ 32) * 2 ^ 16) :: content
  l ++ [crc32c (l.flatMap (leBytes 8))]
/-- R492: BLOCK_OPEN of a block set. -/
def jBlockOpen (pfa planes : Nat) : Nat := jOne (1 + (pfa % 2 ^ 40) * 2 ^ 8 + (planes % 256) * 2 ^ 48)

/-- R491: where the journal continues after a cold reset: the sector of the highest generation whose header is valid,
behind its last word. -/
def State.jScan (s : State) : State :=
  let gen := fun r =>
    let w := s.yWord (jAddr r 0)
    if bits w 0 32 + bits w 32 32 = 2 ^ 32 - 1 then some (bits w 0 32) else none
  let best := (List.range 128).foldl (fun (b : Option (Nat × Nat)) r =>
    match gen r, b with
    | some g, some (_, h) => if h < g then some (r, g) else b
    | some g, none => some (r, g)
    | none, _ => b) none
  match best with
  | none => s.onYew fun y => { y with jHead := 0, jWord := 0, jGen := 0 }
  | some (r, g) =>
    let used := (List.range 512).foldl (fun m i => if s.yWord (jAddr r i) = yErased then m else i + 1) 1
    s.onYew fun y => { y with jHead := r, jWord := used, jGen := g }

/-! The command register (R484, R485). -/

/-- How OWNERb codes a master: 1 register port, 2 Holly. -/
def mCode : Master → Nat
  | .holly => 2
  | _ => 1

/-- The last error. -/
def State.yErr (s : State) (e : Nat) : State := s.wr Reg.YEW_STAT_ERR e
/-- The sequence closes with an error. -/
def State.yClose (s : State) (e : Nat) : State := (s.onYew fun y => { y with seq := none }).yErr e

/-- R484: a write to a register of the sequence: another master gives MASTER, no sequence or a wrong step gives SEQ,
and otherwise the step has its effect. -/
def State.yStep (s : State) (m : Master) (step : Nat) (f : YSeq → State) : State :=
  match s.yew.seq with
  | none => s.yErr 1
  | some q =>
    if mCode q.master ≠ mCode m then s.yErr 9
    else if q.step ≠ step then s.yClose 1
    else f q

/-- R484: a write to PL_YEW_KEY. -/
def State.yKey (s : State) (m : Master) (v : Nat) : State :=
  match s.yew.seq with
  | none =>
    if v = 0xB7E1 then s.onYew fun y => { y with seq := some { master := m, step := 1 } } else s.yErr 1
  | some q =>
    if mCode q.master ≠ mCode m then s.yErr 9
    else if q.step = 1 ∧ v = 0x4A1E then s.onYew fun y => { y with seq := some { q with step := 2 } }
    else s.yClose 1

/-- R487: SUSPEND of a busy bank is asked for; on any other bank it is ignored. -/
def State.ySuspend (s : State) (b : Nat) : State :=
  match s.yOp? b with
  | some o => if o.susp then s else s.ySet b (some { o with suspReq := true })
  | none => s

/-- R487: RESUME restarts the abandoned pulse of a suspended operation. -/
def State.yResume (s : State) (b : Nat) : State :=
  match s.yOp? b with
  | some o => if o.susp then s.ySet b (some { o with susp := false, suspReq := false }) else s
  | none => s

/-- R484, R485: a write to PL_YEW_CMD. -/
def State.yCmd (s : State) (m : Master) (v : Nat) : State :=
  let c := bits v 0 4
  if c = 3 then s.ySuspend (bits v 4 1)
  else if c = 4 then s.yResume (bits v 4 1)
  else s.yStep m 2 fun q =>
    if c = 1 ∨ c = 2 then s.onYew fun y => { y with seq := some { q with step := 3, cmd := c } } else s.yClose 1

/-- R485: the target is protected from the master. -/
def State.yProtected (s : State) (m : Nat) (a : Nat) : Bool :=
  let t := ySector a
  (decide (288 ≤ t) && decide (t ≤ 290)) || (decide (356 ≤ t) && decide (t ≤ 675)) ||
    (decide (t ≤ 255) && yBank a == s.actHolly) || (decide (256 ≤ t) && decide (t ≤ 287) && yBank a == s.actMcs) ||
    (match s.hly.actv with
     | some v => v.bank == yBank a && (if v.mcs then decide (256 ≤ t) && decide (t ≤ 287) else decide (t ≤ 255))
     | none => false) ||
    (if m = 2 then decide (t ≤ 287) else decide (291 ≤ t) && decide (t ≤ 355))

/-- R485: the error of a PROGRAM or ERASE at the ADDR write; 0 where it is taken. -/
def State.yReject (s : State) (m : Nat) (a : Nat) : Nat :=
  if m = 2 ∧ s.yFetch = yBank a then 2
  else if m = 1 ∧ s.yFetch = yBank a then 3
  else if (s.yOp? (yBank a)).isSome then 4
  else if s.yProtected m a then 5
  else 0

/-- An operation of a master starts, and the sequence closes. -/
def State.yStart (s : State) (o : YOp) : State :=
  ((s.onYew fun y => { y with seq := none }).ySet (yBank o.addr) (some o)).wr Reg.YEW_SUSP_COUNT 0

/-- R484, R485: a write to PL_YEW_ADDR. -/
def State.yAddrWrite (s : State) (m : Master) (v : Nat) : State :=
  s.yStep m 3 fun q =>
    let a := bits v 3 20 * 8
    let e := s.yReject (mCode m) a
    if e ≠ 0 then s.yClose e
    else if q.cmd = 2 then s.yStart { erase := true, master := mCode m, addr := a / 4096 * 4096 }
    else s.onYew fun y => { y with seq := some { q with step := 4, addr := a } }

/-- R484, R485: a write to PL_YEW_DATA_HI. -/
def State.yDataHi (s : State) (m : Master) (v : Nat) : State :=
  s.yStep m 5 fun q =>
    if (s.yOp? (yBank q.addr)).isSome then s.yClose 4
    else if s.yWord q.addr ≠ yErased ∨ s.yBad q.addr = true then s.yClose 6
    else s.yStart { erase := false, master := mCode m, addr := q.addr, data := q.lo + v * 2 ^ 32 }

/-- R484: a write to PL_YEW_KEY. -/
def execYewKeyWrite (m : Master) (v : W32) (s : State) : Out :=
  .next (s.access m 0xB008 (some v.toNat) fun s => s.yKey m v.toNat)

/-- R484: a write of PROGRAM to PL_YEW_CMD. -/
def execYewCmdProgram (m : Master) (v : W32) (s : State) : Out :=
  .next (s.access m 0xB00C (some v.toNat) fun s => s.yCmd m v.toNat)

/-- R484: a write of ERASE to PL_YEW_CMD. -/
def execYewCmdErase (m : Master) (v : W32) (s : State) : Out :=
  .next (s.access m 0xB00C (some v.toNat) fun s => s.yCmd m v.toNat)

/-- R487: a write of SUSPEND to PL_YEW_CMD. -/
def execYewCmdSuspend (m : Master) (v : W32) (s : State) : Out :=
  .next (s.access m 0xB00C (some v.toNat) fun s => s.yCmd m v.toNat)

/-- R487: a write of RESUME to PL_YEW_CMD. -/
def execYewCmdResume (m : Master) (v : W32) (s : State) : Out :=
  .next (s.access m 0xB00C (some v.toNat) fun s => s.yCmd m v.toNat)

/-- R485: a write to PL_YEW_ADDR. -/
def execYewAddrWrite (m : Master) (v : W32) (s : State) : Out :=
  .next (s.access m 0xB010 (some v.toNat) fun s => s.yAddrWrite m v.toNat)

/-- R484: a write to PL_YEW_DATA_LO. -/
def State.yDataLo (s : State) (m : Master) (v : Nat) : State :=
  s.yStep m 4 fun q => s.onYew fun y => { y with seq := some { q with step := 5, lo := v } }

/-- R484: a write to PL_YEW_DATA_LO. -/
def execYewDataLoWrite (m : Master) (v : W32) (s : State) : Out :=
  .next (s.access m 0xB014 (some v.toNat) fun s => s.yDataLo m v.toNat)

/-- R485: a write to PL_YEW_DATA_HI. -/
def execYewDataHiWrite (m : Master) (v : W32) (s : State) : Out :=
  .next (s.access m 0xB018 (some v.toNat) fun s => s.yDataHi m v.toNat)

/-- R484: a step of the sequence is late. -/
def execYewSequenceTimeout (s : State) : Out :=
  .next (if s.yew.seq.isSome then s.yClose 1 else s)

/-! Reading (R482, R483). -/

/-- R527: YADDR. -/
def objYew (a m : Nat) : Nat := a % 2 ^ 23 + (m % 8) * 2 ^ 24

/-- R482, R483: a read of PL_YEW_RDATA_LO. -/
def State.yRead (s : State) (m : Nat) : State :=
  let a := s.rd Reg.YEW_RADDR_ADDR * 8
  if s.yBusy (yBank a) then
    let s := (s.setb Reg.YEW_STAT_BUS_FAULT).bump Reg.YEW_FAULTS_CNT 1
    { s.err1 clsContained 0x0C 1 (objYew a m) with resp := .error }
  else
    let s := s.when (s.is Reg.YEW_RADDR_AUTOINC) fun s => s.wr Reg.YEW_RADDR_ADDR (s.rd Reg.YEW_RADDR_ADDR + 1)
    if s.yBad a then { s.err1 clsContained 0x0C 1 (objYew a m) with resp := .error }
    else
      let w := s.yWord a
      { (s.wr Reg.YEW_RDATA_LO_DATA (bits w 0 32)).wr Reg.YEW_RDATA_HI_DATA (bits w 32 32) with
        resp := .value (bits w 0 32) }

/-- R482: a read of PL_YEW_RDATA_LO. -/
def execYewRdataRead (m : Master) (s : State) : Out :=
  .next (s.access m 0xB020 none fun s => s.yRead (mCode m))

/-! Suspends (R487 to R489). -/

/-- R487, R488: a suspend takes effect: it is counted, and the NOTICE count posts SUSP_NOTICE. -/
def State.ySuspendNow (s : State) (b : Nat) (o : YOp) : State :=
  let s := s.ySet b (some { o with susp := true, suspReq := false })
  let s := s.bump Reg.YEW_SUSP_COUNT 1
  let n := s.rd Reg.YEW_SUSP_NOTICE
  if n ≠ 0 ∧ s.rd Reg.YEW_SUSP_COUNT = n then
    (s.setb Reg.YEW_STAT_SUSP_NOTICE).err1 clsCorrected 0x0C 3 (objYew (b * 2 ^ 22) o.master) 1
  else s

/-- R487: a suspend that was asked for takes effect, and the bank becomes readable. -/
def execYewSuspendEffect (bank : Fin 2) (s : State) : Out :=
  .next (match s.yOp? bank.val with
    | some o => if o.suspReq && !o.susp then s.ySuspendNow bank.val o else s
    | none => s)

/-- R489: after its slice for Holly, the keeper resumes its suspended erase. -/
def execYewSliceExpiry (bank : Fin 2) (s : State) : Out :=
  .next (match s.yOp? bank.val with
    | some o => if o.susp && o.master == 3 && o.erase then s.yResume bank.val else s
    | none => s)

/-! Ends of operations (R486, R495). -/

/-- R495: a pulse count that passes its threshold sets PULSE_HIGH. -/
def State.yHigh (s : State) (o : YOp) (n : Nat) : State :=
  let t := if o.erase then s.rd Reg.YEW_WEAR_ERASE_TH else s.rd Reg.YEW_WEAR_PROG_TH
  if n = t + 1 then (s.setb Reg.YEW_STAT_PULSE_HIGH).err1 clsCorrected 0x0C 3 (objYew o.addr o.master) 2 else s

/-- R486: an operation ends: DONE for a command-register operation, the pulse counts, and a failure's record. -/
def State.yEnd (s : State) (b : Nat) (o : YOp) (n err : Nat) : State :=
  let s := (s.ySet b none).when (o.master != 3) (·.setb Reg.YEW_STAT_DONE)
  let s := s.wr Reg.YEW_PULSE_LAST n
  let s := if o.erase then (s.wr Reg.YEW_PULSE_MAXE (max n (s.rd Reg.YEW_PULSE_MAXE))).bump Reg.YEW_ERASES_CNT 1
    else (s.wr Reg.YEW_PULSE_MAXP (max n (s.rd Reg.YEW_PULSE_MAXP))).bump Reg.YEW_PROGRAMS_CNT 1
  if err = 0 then s
  else (s.when (o.master != 3) (·.yErr err)).err1 clsUnrecovered 0x0C 2 (objYew o.addr o.master)

/-- R486, R496: a word that a failed or cut program leaves: undefined, and perhaps uncorrectable. -/
def State.yTear (s : State) (a : Nat) : State :=
  let (v, s) := s.draw
  let s := s.yPut a v
  let (u, s) := s.draw
  if u % 2 = 1 then s.onYew fun y => { y with badWords := a / 8 :: y.badWords } else s

/-- R486, R496: what a failed or cut erase leaves: words of the sector that are neither erased nor intact. -/
def State.yTearSector (s : State) (a : Nat) : State :=
  s.each (s.yew.words.filter fun w => w.1 / 512 == a / 4096) fun s w => s.yTear (w.1 * 8)

/-- R486: a program pulse is verified: the operation's end, if it has come, and whether the word was programmed. -/
def State.yPulse (s : State) (b : Nat) (o : YOp) (ok : Bool) : Bool × State :=
  let n := o.pulses + 1
  let s := s.yHigh o n
  if ok then
    if o.erase then (true, (s.yEraseSector o.addr).yEnd b o n 0) else (true, (s.yPut o.addr o.data).yEnd b o n 0)
  else if o.erase ∧ 20 ≤ n then (false, (s.yTearSector o.addr).yEnd b o n 8)
  else if o.erase = false ∧ 64 ≤ n then (false, (s.yTear o.addr).yEnd b o n 7)
  else
    let o' := { o with pulses := n }
    (false, if o.erase && o.fence && o.master == 3 then s.ySuspendNow b o' else s.ySet b (some o'))

/-- R496: a cut of every operation under way: a torn word, or a sector neither erased nor intact. -/
def State.yCut (s : State) : State :=
  s.each [0, 1] fun s b =>
    match s.yOp? b with
    | none => s
    | some o =>
      let s := s.ySet b none
      if o.erase then s.yTearSector o.addr else s.yTear o.addr

end Sys2Proof.Machine
end

