-- ==== Sys2Proof/Machine/Keep.lean ====
section
/-!
DEFINITION. What the keeper keeps in Yew for other units: the training record (R480), Juniper's group table (R338,
R339) and the records of the progress journal that a complex flush ends with (R162, R439, R492).
-/
namespace Sys2Proof.Machine

/-- g1 is newer than g2 in w bits (R339). -/
def genNewer (w g1 g2 : Nat) : Bool :=
  let d := (g1 + 2 ^ w - g2 % 2 ^ w) % 2 ^ w
  d != 0 && decide (d < 2 ^ (w - 1))

/-! The training record (R480). -/

/-- R480: the word of channel n in the copy of a bank, if it checks clean. -/
def State.trainWord (s : State) (b n : Nat) : Option Nat :=
  let w := s.yWord (yAddr b 290 n)
  if bits w 56 8 = crc8 (leBytes 7 w) ∧ s.yBad (yAddr b 290 n) = false then some w else none

/-- R480: the copy of channel n's word with the older generation, and the generation after the newer one. -/
def State.trainCopy (s : State) (n : Nat) : Nat × Nat :=
  match s.trainWord 0 n, s.trainWord 1 n with
  | none, none => (0, 1)
  | none, some w => (0, bits w 48 8 + 1)
  | some w, none => (1, bits w 48 8 + 1)
  | some v, some w =>
    if genNewer 8 (bits v 48 8) (bits w 48 8) then (1, bits v 48 8 + 1) else (0, bits w 48 8 + 1)

/-- R480: the word of channel n as TRAIN leaves it. -/
def State.trainNow (s : State) (n gen : Nat) : Nat :=
  jOne (s.regWord [Reg.CH_STAMP_ACT n, Reg.CH_STAMP_VPT n, Reg.CH_STAMP_TEMP n, Reg.CH_STAMP_VALID n] +
    s.regWord [Reg.CH_MODE_IFMODE n, Reg.CH_MODE_SDR_TM n, Reg.CH_MODE_TRAINED_BIN n, Reg.CH_MODE_CAP_BIN n] % 2 ^ 16 *
      2 ^ 32 + gen % 256 * 2 ^ 48)

/-- R480, R496: the keeper writes channel n's word; the sector keeps its other words. -/
def State.keepTrain (s : State) (n : Nat) : State :=
  let (b, g) := s.trainCopy n
  s.keep (sectorJobs (yAddr b 290 0) ((List.range 8).map fun k =>
    if k = n then s.trainNow n g else s.yWord (yAddr b 290 k)))

/-! The group table (R338, R339). -/

/-- The Yew address of a copy of sector k of the group table: copy A in bank 0, copy B in bank 1. -/
def jnpSector (b k : Nat) : Nat := yAddr b (420 + k) 0

/-- The bytes of a Yew sector. -/
def State.ySectorBytes (s : State) (a : Nat) : List Byte :=
  (List.range 512).flatMap fun i => leBytes 8 (s.yWord (a + 8 * i))

/-- R339: the generation of a copy of sector k, if it checks clean. -/
def State.jnpGen (s : State) (b k : Nat) : Option Nat :=
  let a := jnpSector b k
  let l := s.ySectorBytes a
  if (List.range 512).all (fun i => !s.yBad (a + 8 * i)) && leAt l 4092 4 == crc32c (l.take 4088) then
    some (leAt l 4088 4) else none

/-- R338, R339: the copy that a write of sector k takes, and the generation it gives. -/
def State.jnpCopy (s : State) (k : Nat) : Nat × Nat :=
  match s.jnpGen 0 k, s.jnpGen 1 k with
  | none, none => (0, 1)
  | none, some g => (0, g + 1)
  | some g, none => (1, g + 1)
  | some g, some h => if genNewer 32 g h then (1, g + 1) else (0, h + 1)

/-- The 64 records of sector k as Juniper reads them (R338, R351). -/
def State.jnpSectorNow (s : State) (k : Nat) : List Byte × State :=
  (List.range 64).foldl (fun (x : List Byte × State) i =>
    let (r, s) := x.2.grpRead (64 * k + i)
    (x.1 ++ r, s)) ([], s)

/-- R339: the words of sector k with its trailer. -/
def sectorWords (l : List Byte) (gen : Nat) : List Nat :=
  let t := l.take 4088 ++ leBytes 4 gen
  let t := t ++ leBytes 4 (crc32c (l.take 4088))
  (List.range 512).map fun i => leAt t (8 * i) 8

/-- R338: the changed sectors are written, each to its older copy. The last word tells the end of the checkpoint. -/
def State.jnpCheckpoint (s : State) : State :=
  if !s.jnpOn || s.jnp.changed.isEmpty then s
  else
    let ks := orderBy (fun x => x) s.jnp.changed
    let s := (s.setb Reg.JNP_STAT_CKPT_BUSY).onJnp fun j => { j with changed := [] }
    let (jobs, s) := ks.foldl (fun (x : List KJob × State) k =>
      let (b, g) := x.2.jnpCopy k
      let (l, s) := x.2.jnpSectorNow k
      (x.1 ++ sectorJobs (jnpSector b k) (sectorWords l g), s)) ([], s)
    let n := jobs.length
    s.keep ((List.range n).filterMap fun i => (jobs[i]?).map fun j => if i + 1 = n then { j with note := 5 } else j)

/-! The end of a complex flush (R162, R439). -/

/-- The running commands that have reached a stage of a complex flush. -/
def State.atPhase (s : State) (p : Nat) : List Cmd :=
  s.que.cmds.filter fun c => c.stage == .running && c.phase == p && [opFlush, opSync, opPower].contains c.pkt.opcode

/-- R162, R492: the PFAs of the root-table pages are checkpointed in the journal. -/
def State.ckptStep (s : State) : State :=
  if (s.atPhase 4).isEmpty || !(s.atPhase 6).isEmpty then s
  else
    let (a, b) := s.map.ckpt.getD (0, 0)
    let s := s.jPut (s.jLong 5 [a, b]) 2
    s.each (s.atPhase 4) fun s c => s.onCmd c.tag fun c => { c with phase := 6 }

/-- R439, R492: after its flush, a DORMANT entry checkpoints Juniper and writes DORMANT_CLEAN. -/
def State.dormantStep (s : State) : State :=
  s.each ((s.atPhase 5).filter fun c => c.pkt.opcode == opPower) fun s c =>
    let s := s.jnpCheckpoint
    (s.jPut [s.jShort 6 0x5A] 3).onCmd c.tag fun c => { c with phase := 7 }

end Sys2Proof.Machine
end

