-- ==== Sys2Proof/Machine/LunQueue.lean ====
section
/-!
DEFINITION. The LUN queues of Topiary: operations, the shares of the classes (R168, R169), reads of codewords and the
operations that serve them (R322), page sets and their pad frames (R180), the order within a block (R171, R579) and
what an operation needs to be eligible (R170, R182, R183).
-/
namespace Sys2Proof.Machine

/-! Operations. -/

/-- The operation of a number. -/
def State.op? (s : State) (id : Nat) : Option Op := s.top.ops.find? fun o => o.id == id
/-- The operation changed. -/
def State.onOp (s : State) (id : Nat) (f : Op → Op) : State :=
  s.onTop fun t => { t with ops := t.ops.map fun o => if o.id == id then f o else o }
/-- The entries of a LUN queue (R169). -/
def State.lunEntries (s : State) (lun : Nat) : List Op := s.top.ops.filter fun o => o.lun == lun && !o.held
/-- R172, R173: the effective class. -/
def Op.tier (o : Op) : Nat := if o.aged then min o.cls 1 else o.cls
/-- R169: the classes leave room for one more entry of a class on a LUN. -/
def State.lunRoom (s : State) (lun cls : Nat) : Bool :=
  let l := s.lunEntries lun
  let w := (l.filter fun o => 2 ≤ o.cls).length
  let m := (l.filter fun o => o.cls == 3).length
  if cls = 0 then decide (l.length < 16)
  else if cls = 1 then decide (l.length < 15)
  else decide (l.length < 16) && decide (w < 12) && (cls == 2 || decide (m < 4))
/-- R106: the level event of a LUN queue. -/
def State.lunLevel (s : State) (lun was : Nat) : State :=
  let l := sat 16 (s.rd Reg.TOP_LUNQ_LEVEL_LEVEL)
  s.when (l != 0 && decide (was < l) && decide (l ≤ (s.lunEntries lun).length)) fun s =>
    s.wrBit (Reg.TOP_LUNQ_HIT_HIT (lun / 32)) (lun % 32) true
/-- R105, R169: an operation joins its LUN queue, or its producer holds it until an entry frees. -/
def State.addOp (s : State) (o : Op) : State :=
  let was := (s.lunEntries o.lun).length
  let id := s.top.nextOp
  let o := { o with id := id, queued := s.now, held := !s.lunRoom o.lun o.cls, ord := if o.ord = 0 then id else o.ord }
  (s.onTop fun t => { t with ops := t.ops ++ [o], nextOp := id + 1 }).lunLevel o.lun was
/-- An operation that was held enters its queue: it stands behind all that entered before it (R171, R172). -/
def enterQueue (o : Op) (now : Nat) (t : Top) : Top :=
  let own := o.ord == o.id
  { t with
    nextOp := t.nextOp + 1
    ops := (t.ops.filter fun x => x.id != o.id) ++
      [{ o with held := false, queued := now, ord := if own then t.nextOp else o.ord }]
    groups := t.groups.map fun g => if own && o.kind == .prog && g.ord == o.ord then { g with ord := t.nextOp } else g }
/-- R105: held operations of a LUN take the entries that are free, in their order. -/
def State.admitOps (s : State) (lun : Nat) : State :=
  s.each (s.top.ops.filter fun o => o.lun == lun && o.held) fun s o =>
    if s.lunRoom lun o.cls then
      let was := (s.lunEntries lun).length
      (s.onTop (enterQueue o s.now)).lunLevel lun was
    else s
/-- R185: the operation that takes a free rail: of those whose TOKEN_AGE has expired the first. -/
def nextReserved (ops : List Op) (short : Op → Bool) : Option Nat :=
  (least Op.tokAge (ops.filter fun o => o.tokAge != 0 && short o)).map Op.id
/-- R185: a rail without a reserved operation takes the next one that has aged. -/
def fillRails (t : Top) : Top :=
  { t with
    rsvV := if t.rsvV.isNone then nextReserved t.ops Op.shortV else t.rsvV
    rsvQ := if t.rsvQ.isNone then nextReserved t.ops Op.shortQ else t.rsvQ }
/-- An operation leaves its LUN queue; its waiting segments go with it, and its reservation ends (R185). -/
def State.delOp (s : State) (id : Nat) : State :=
  match s.op? id with
  | none => s
  | some o =>
    let s := s.onTop fun t =>
      { t with
        ops := t.ops.filter fun o => o.id != id
        pend := t.pend.map fun p => (p.1, p.2.filter fun g => g.op != id)
        writeFirst := t.writeFirst.filter fun w => w.2 != id
        rsvV := if t.rsvV == some id then none else t.rsvV
        rsvQ := if t.rsvQ == some id then none else t.rsvQ }
    let s := s.onTop fun t => fillRails { t with pend := t.pend.filter fun p => p.2 != [] }
    let s := s.onBox fun b => { b with asks := b.asks.filter (· != id) }
    (s.onChan (lunCh o.lun) fun c => { c with staged := c.staged.filter fun (p : Staged) => p.op != id }).admitOps o.lun

/-- R412: an operation gives its tokens back. -/
def State.opTokens (s : State) (id : Nat) : State :=
  match s.op? id with
  | none => s
  | some o =>
    if o.tokV = 0 ∧ o.tokQ = 0 then s
    else (s.giveTokens (lunCh o.lun) o.tokV o.tokQ).onOp id fun o => { o with tokV := 0, tokQ := 0 }

/-! Flights: codewords on their way from a die (R295). -/

def State.flight? (s : State) (id : Nat) : Option Flight := s.ecc.flights.find? fun f => f.id == id
def State.onFlight (s : State) (id : Nat) (g : Flight → Flight) : State :=
  s.onEcc fun e => { e with flights := e.flights.map fun f => if f.id == id then g f else f }
/-- A flight ends: its buffers and places in the decoder queues are free. -/
def State.delFlight (s : State) (id : Nat) : State :=
  s.onEcc fun e =>
    { e with
      flights := e.flights.filter fun f => f.id != id
      hardq := (e.hardq.map fun q => (q.1, q.2.filter (· != id))).filter fun q => q.2 != []
      sampleq := (e.sampleq.map fun q => (q.1, q.2.filter (· != id))).filter fun q => q.2 != []
      softq := (e.softq.map fun q => (q.1, q.2.filter (· != id))).filter fun q => q.2 != [] }
/-- The tag a flight belongs to. -/
def Flight.tag (f : Flight) : Option Nat :=
  if f.dropped then none else match f.ref with | .cmd t _ => some t | _ => none
/-- R295: codeword buffers of a channel's hard decoder that are free, of four. -/
def State.codeBufs (s : State) (ch : Nat) : Nat :=
  4 - (s.ecc.flights.filter fun f => f.ch == ch && f.buf).length
/-- Where the codeword of a flight lies in its pages (R139): start column, bytes here and bytes in the next page. -/
def State.flightAt (s : State) (f : Flight) : Nat × Nat × Nat :=
  match s.lunProf (pfaLun f.pfa) with
  | none => (0, cwLen f.cclass, 0)
  | some p =>
    match locate (prPages p) (prTotal p) f.cclass (pfaPage f.pfa) (pfaSlot f.pfa) with
    | some (_, st, here, spill) => (st, here, spill)
    | none => (0, cwLen f.cclass, 0)
/-- The kind of the operation that reads a flight at its present step. -/
def Flight.kind (f : Flight) (raw : Bool) : OpKind := if raw then .raw else if f.step = 26 then .soft else .read
/-- R172, R322: the queued operation that the read of a flight joins: one that reads the same page at the same step
and class, not yet chosen. Soft reads are not shared, and raw reads only within their command. -/
def State.joinOp (s : State) (f : Flight) (k : OpKind) : Option Op :=
  s.top.ops.find? fun o =>
    o.kind == k && k != .soft && o.lun == pfaLun f.pfa && o.block == pfaBlock f.pfa && o.page == pfaPage f.pfa &&
      o.planes == 2 ^ pfaPlane f.pfa && o.cclass == f.cclass && o.step == f.step && !o.split &&
      (o.st == .queued || o.st == .refused) && (k != .raw || o.tag == f.tag)
/-- The read of a flight queued at its present step (R168, R322). -/
def State.queueRead (s : State) (f : Flight) (raw : Bool) : State :=
  let k := f.kind raw
  match s.joinOp f k with
  | some o => s.onOp o.id fun o =>
      { o with
        fl := o.fl ++ [f.id]
        cls := min o.cls f.cls
        deadline := min o.deadline f.deadline
        eclass := if o.eclass = f.eclass then o.eclass else 0
        tag := if o.tag = f.tag then o.tag else none }
  | none =>
    s.addOp { id := 0, kind := k, lun := pfaLun f.pfa, cls := f.cls, eclass := f.eclass, deadline := f.deadline,
              tag := f.tag, planes := 2 ^ pfaPlane f.pfa, block := pfaBlock f.pfa, page := pfaPage f.pfa,
              cclass := f.cclass, step := f.step, fl := [f.id] }
/-- A flight is opened and its first read queued. -/
def State.addFlight (s : State) (f : Flight) (raw : Bool) : State :=
  let id := s.ecc.next
  let tg := if s.jnpOn then leAt (s.grpPeek (s.groupOf (pfaLun f.pfa) (pfaBlock f.pfa))) 16 1 else 0
  let f := { f with id := id, ch := pfaCh f.pfa, tgen := tg }
  (s.onEcc fun e => { e with flights := e.flights ++ [f], next := id + 1 }).queueRead f raw
/-- R172: the effective deadline of a packet's operations. -/
def State.effDeadline (s : State) (fetched deadline : Nat) : Nat :=
  fetched + (if deadline = 0 then s.rd Reg.TOP_NODL_TIME else deadline)
/-- The tags that share the present read of a flight's page, for R428. -/
def State.opFlights (s : State) (o : Op) : List Flight := o.fl.filterMap s.flight?

/-! Presence (R136, R182, R469). -/

/-- A LUN serves operations: it is bound, present and not retired, and its channel is not ABSENT. -/
def State.lunServes (s : State) (lun : Nat) : Bool :=
  (s.lunProf lun).isSome && s.lunPos lun == 1 && s.level (lunCh lun) != 0 && !s.top.retired.contains lun

/-! Page sets (R138 to R143, R180, R579). -/

/-- Block sets are told apart by LUN, block and class. -/
def WGroup.isSet (g : WGroup) (lun block cclass plane : Nat) : Bool :=
  g.lun == lun && g.block == block && g.cclass == cclass && bit g.planes plane
/-- The wordline group of a page. -/
def State.groupNo (s : State) (lun : Nat) (pslc : Bool) (page : Nat) : Nat :=
  match s.lunProf lun with | some p => wlGroup p pslc page | none => page
/-- The pages of a wordline group (R579). -/
def groupPages (p : List Byte) (pslc : Bool) (g : Nat) : List Nat :=
  if pslc then [g] else ((List.range (prBpc p)).map fun i => prBpc p * g + i).filter (· < prPages p)
/-- The number of wordline groups of a block. -/
def groupCount (p : List Byte) (pslc : Bool) : Nat := if pslc then prPages p else (prPages p + prBpc p - 1) / prBpc p
/-- The PFAs of the codewords of a class that start in a page and end within the block (R139, R140). -/
def pagePfas (p : List Byte) (c lun plane block page : Nat) : List Nat :=
  (List.range (slotsIn (prPages p) (prTotal p) c page)).map fun k => mkPfa lun plane block page k
/-- Every PFA of a page set. -/
def WGroup.pfas (g : WGroup) (p : List Byte) : List Nat :=
  (bitList 8 g.planes).flatMap fun pl =>
    (groupPages p g.pslc g.group).flatMap fun pg => pagePfas p g.cclass g.lun pl g.block pg
/-- The last page that the codeword of a PFA touches. -/
def lastPage (p : List Byte) (c a : Nat) : Nat :=
  match locate (prPages p) (prTotal p) c (pfaPage a) (pfaSlot a) with
  | some (_, _, _, spill) => if spill = 0 then pfaPage a else pfaPage a + 1
  | none => pfaPage a
/-- The program frame at a PFA. -/
def State.pf? (s : State) (pfa : Nat) : Option PFrame := s.top.pfs.find? fun f => f.pfa == pfa
/-- The segment that confirms the program pass is on the bus. -/
def State.confirms (s : State) (o : Op) : Bool :=
  match tget none s.top.run (lunCh o.lun) with
  | some g => g.op == o.id && g.what == 0 && g.leg.routine == 0x04
  | none => false
/-- A pass of the wordline group of a program frame has begun, or its confirm is on the bus: its bytes are fixed. -/
def State.pfBegun (s : State) (f : PFrame) : Bool :=
  match s.lunProf (pfaLun f.pfa) with
  | none => false
  | some p =>
    let mine := fun (lun block cclass planes group : Nat) (pslc : Bool) =>
      pfaLun f.pfa == lun && pfaBlock f.pfa == block && f.cclass == cclass && bit planes (pfaPlane f.pfa) &&
        (wlGroup p pslc (pfaPage f.pfa) == group || wlGroup p pslc (lastPage p f.cclass f.pfa) == group)
    (s.top.ops.any fun o => o.kind == .prog && (o.begun || s.confirms o) && mine o.lun o.block o.cclass o.planes o.group o.pslc) ||
      s.top.groups.any fun g => g.done != 0 && mine g.lun g.block g.cclass g.planes g.group g.pslc
/-- A wordline group changed. -/
def State.onGroup (s : State) (g : WGroup) (f : WGroup → WGroup) : State :=
  s.onTop fun t => { t with groups := t.groups.map fun x => if x == g then f x else x }
/-- R180: the missing codewords of a page set become pad frames. -/
def State.padGroup (s : State) (g : WGroup) : State :=
  match s.lunProf g.lun with
  | none => s
  | some p =>
    let miss := (g.pfas p).filter fun a => (s.pf? a).isNone
    (s.bump Reg.TOP_PAD_FRAMES_CNT miss.length).onTop fun t =>
      { t with pfs := t.pfs ++ miss.map fun a => { pfa := a, cclass := g.cclass, region := g.region } }
/-- The gathering of a set ends: its pass is eligible. -/
def State.endGather (s : State) (g : WGroup) : State :=
  s.onTop fun t =>
    { t with ops := t.ops.map fun o => if o.gathering && o.ord == g.ord then { o with gathering := false } else o }
/-- R180: a page set is programmed as it stands, padded. -/
def State.forceOne (s : State) (g : WGroup) : State :=
  ((s.padGroup g).endGather g).onGroup g fun g => { g with forced := true }
/-- R180: the page sets of a block up to a group are programmed as they stand, padded. -/
def State.forceSet (s : State) (lun block cclass plane upto : Nat) : State :=
  s.each (s.top.groups.filter fun g => g.isSet lun block cclass plane && decide (g.group ≤ upto) && !g.forced)
    fun s g => s.forceOne g
/-- A page set opened for a group, with the pass that gathers it. -/
def State.openGroup (s : State) (g : WGroup) (o : Op) : State :=
  let id := s.top.nextOp
  let s := s.addOp { o with kind := .prog, lun := g.lun, block := g.block, planes := g.planes, group := g.group,
                            cclass := g.cclass, pslc := g.pslc, gathering := true,
                            gatherAt := s.now + s.rd Reg.TOP_GATHER_TIME }
  s.onTop fun t => { t with groups := t.groups ++ [{ g with ord := id }] }
/-- R180: a set is complete. -/
def State.groupFull (s : State) (g : WGroup) : Bool :=
  match s.lunProf g.lun with
  | none => false
  | some p => (g.pfas p).all fun a => (s.pf? a).isSome
/-- R138: the class of a block set that a write point has begun to fill. A PFA-addressed frame leaves no record. -/
def State.noteClass (s : State) (f : PFrame) : State :=
  match f.src with
  | .cmd _ _ => s
  | _ => s.onTop fun t =>
    if t.wpClass.any fun x => x.1 == pfaLun f.pfa && x.2.1 == pfaBlock f.pfa then t
    else { t with wpClass := t.wpClass ++ [(pfaLun f.pfa, pfaBlock f.pfa, f.cclass)] }
/-- R180: a frame joins the page set of its place; a set that is complete is eligible. -/
def State.addPFrame (s : State) (f : PFrame) (planes : Nat) (o : Op) (pslc : Bool) : State :=
  let lun := pfaLun f.pfa
  let pl := pfaPlane f.pfa
  let bl := pfaBlock f.pfa
  let gn := s.groupNo lun pslc (pfaPage f.pfa)
  let mine := fun (g : WGroup) => g.isSet lun bl f.cclass pl && g.group == gn && g.done == 0 && !g.forced
  let s := if s.top.groups.any mine then s
    else s.openGroup { lun := lun, block := bl, planes := (planes % 256) ||| 2 ^ pl, group := gn, cclass := f.cclass,
                       region := f.region, pslc := pslc, forceCold := o.forceCold } o
  let s := (s.onTop fun t => { t with pfs := t.pfs.filter (fun x => x.pfa != f.pfa) ++ [f] }).noteClass f
  match s.top.groups.find? mine with
  | none => s
  | some g =>
    let s := s.onTop fun t => { t with
      ops := t.ops.map fun x => if x.ord == g.ord && x.kind == .prog then
          { x with cls := min x.cls o.cls, deadline := min x.deadline o.deadline,
                   tag := if x.tag = o.tag then x.tag else none,
                   forceCold := x.forceCold && o.forceCold, eclass := if x.eclass = o.eclass then x.eclass else 0 }
        else x }
    if s.groupFull g || s.rd Reg.TOP_GATHER_TIME == 0 then s.forceOne g else s
/-- R143, R579, R180: what a frame needs to be programmed is forced: the groups of its pages, and the groups whose
earlier passes come first. A group that nothing has opened yet is opened empty. -/
def State.forceFrame (s : State) (a c : Nat) (pslc : Bool) : State :=
  match s.lunProf (pfaLun a) with
  | none => s
  | some p =>
    let hi := min (groupCount p pslc - 1) (wlGroup p pslc (lastPage p c a) + (passesOf p pslc - 1))
    match s.top.groups.find? fun g => g.isSet (pfaLun a) (pfaBlock a) c (pfaPlane a) with
    | none => s
    | some g0 =>
      let lo := wlGroup p pslc (pfaPage a)
      let need := (List.range (hi + 1 - lo)).map (lo + ·)
      let s := s.each need fun s k =>
        if s.top.groups.any fun g => g.isSet (pfaLun a) (pfaBlock a) c (pfaPlane a) && g.group == k then s
        else s.openGroup { lun := g0.lun, block := g0.block, planes := g0.planes, group := k, cclass := c,
                           region := g0.region, pslc := pslc }
          { id := 0, cls := 2, deadline := s.effDeadline s.now 0 }
      s.forceSet (pfaLun a) (pfaBlock a) c (pfaPlane a) hi

/-! Eligibility (R170, R171). -/

/-- The page ranges of a read, of one or two pages. -/
def State.readPages (s : State) (o : Op) : List Nat :=
  o.page :: (if (s.opFlights o).any fun f => (s.flightAt f).2.2 != 0 then [o.page + 1] else [])
/-- The planes of an operation that have not ended. -/
def Op.mask (o : Op) : Nat := o.planes ||| (o.parts.map fun p => 2 ^ p).sum
/-- R579: the passes of neighbouring groups in their order: pass 1 of a group follows pass 1 of the group before it, where
that one is open, and pass k follows pass k − 1 of the next group, where the block has one. -/
def State.passTurn (s : State) (o : Op) : Bool :=
  match s.lunProf o.lun with
  | none => true
  | some p =>
    let near := fun (n d : Nat) => s.top.groups.any fun g =>
      g.isSet o.lun o.block o.cclass (o.planes.log2) && g.group == n && decide (d ≤ g.done)
    if passesOf p o.pslc ≤ 1 then true
    else if o.pass = 0 then o.group == 0 || !near (o.group - 1) 0 || near (o.group - 1) 1
    else decide (groupCount p o.pslc ≤ o.group + 1) || near (o.group + 1) o.pass
/-- R171: a program or erase of the same block that entered earlier and has not ended; a program waits for an earlier one
until that has started. A program whose turn R579 puts later holds back none. -/
def State.blockBusy (s : State) (o : Op) : Bool :=
  let clash := fun (x : Op) => x.id != o.id && !x.held && x.lun == o.lun && x.block == o.block && (x.mask &&& o.mask) != 0
  match o.kind with
  | .prog =>
    (s.top.ops.any fun x => clash x && x.kind == .erase && decide (x.ord < o.ord)) ||
      ((s.top.ops.takeWhile fun x => x.id != o.id).any fun x =>
        clash x && x.kind == .prog && (x.st == .queued || x.st == .refused) && s.passTurn x)
  | .erase =>
    (s.top.ops.any fun x => clash x && (x.kind == .prog || x.kind == .erase) && decide (x.ord < o.ord)) ||
      s.top.groups.any fun g => g.lun == o.lun && g.block == o.block && (g.planes &&& o.mask) != 0 &&
        decide (g.ord < o.ord)
  | _ => s.top.ops.any fun x => clash x && x.kind == .prog && decide (x.ord < o.ord) &&
      (s.readPages o).any fun p => s.groupNo o.lun x.pslc p == x.group
/-- R119, R307: a read still needs the block, or a REBUILD holds it. -/
def State.eraseHeld (s : State) (o : Op) : Bool :=
  (s.ecc.flights.any fun f => pfaLun f.pfa == o.lun && pfaBlock f.pfa == o.block && bit o.planes (pfaPlane f.pfa)) ||
    s.top.eraseHold.any fun h => h.1 == o.lun && h.2 % 8192 == o.block && bit o.planes (h.2 / 8192)
/-- R183: the temperature holds programs and erases. -/
def State.tempHeld (s : State) (o : Op) : Bool :=
  (o.kind == .prog || o.kind == .erase) &&
    (s.is Reg.BOX_THERM_STAT_HOT_CRIT || s.is Reg.BOX_THERM_STAT_SENSOR_FAIL ||
      (o.kind == .prog && s.is Reg.BOX_THERM_STAT_COLD_CRIT && !o.forceCold))
/-- R193, R194: an intrusive activity has the bus of the channel. -/
def State.busHeld (s : State) (ch : Nat) : Bool :=
  (s.chan ch).disc || (s.chan ch).selftest || (s.chan ch).reset ||
    (match (s.chan ch).train with | some t => t.slice | none => false) || (s.chan ch).relock.isSome ||
    !(s.chan ch).jobs.isEmpty
/-- R494: the block set of a program is open. -/
def State.blockOpen (s : State) (o : Op) : Bool := s.top.opened.contains (o.lun, o.block)
/-- R170: an entry is eligible. One that was refused its tokens stays so (R184). -/
def State.opEligible (s : State) (o : Op) : Bool :=
  !o.held && (o.st == .queued || o.st == .refused) && !o.gathering && !s.blockBusy o && !s.tempHeld o &&
    s.level (lunCh o.lun) != 0 && !s.busHeld (lunCh o.lun) && (o.kind != .erase || !s.eraseHeld o) &&
    (o.kind != .prog || (s.blockOpen o && s.passTurn o)) &&
    (o.kind != .soft || (s.opFlights o).all fun f => f.soft == 2)

end Sys2Proof.Machine
end

