-- ==== Sys2Proof/Machine/Measure.lean ====
section
/-!
DEFINITION. The sampled reads of CALIB (R328) and PATROL (R337): block groups and their places, the candidates and their
level sets, the pages that are read, and what each codeword adds.
-/
namespace Sys2Proof.Machine

/-! Block groups (R310, R311). -/

/-- R310: the bound LUN whose groups take in group g, with the first block of the group. -/
def State.groupPlace (s : State) (g : Nat) : Option (Nat × Nat) :=
  ((List.range 256).filterMap fun lun =>
    match s.lunProf lun with
    | none => none
    | some p =>
      let b := tget 0 s.jnp.base lun
      if decide (b ≤ g) && decide (g < b + lunGroups p s.gShift) && s.lunPos lun == 1 then
        some (lun, (g - b) * 2 ^ s.gShift)
      else none).head?
/-- R311: a PFA names the first block of a group. -/
def State.groupFirst (s : State) (a : Nat) : Bool :=
  bits a 0 16 == 0 && pfaPlane a == 0 && pfaBlock a % 2 ^ s.gShift == 0 &&
    match s.lunProf (pfaLun a) with
    | some p => decide (pfaBlock a < prBlocks p)
    | none => false

/-! Sampled pages. -/

/-- A sampled page: plane, block and page. -/
structure Sample where
  plane : Nat
  block : Nat
  page : Nat
deriving DecidableEq, Repr
/-- R328: place k of a CALIB of the group at a block: BLOCKS blocks on plane 0, PAGES pages of each. -/
def State.calibSample (s : State) (p : List Byte) (block k : Nat) : Sample :=
  let n := max 1 (s.rd Reg.JNP_CAL_PAGES)
  { plane := 0, block := block + k / n * (2 ^ s.gShift / max 1 (s.rd Reg.JNP_CAL_BLOCKS)), page := k % n * prPages p / n }
/-- R328: the places of a CALIB. -/
def State.calibSamples (s : State) : Nat := max 1 (s.rd Reg.JNP_CAL_BLOCKS) * max 1 (s.rd Reg.JNP_CAL_PAGES)
/-- R337: place k of a PATROL of the group at a block: PATROL_PAGES pages of each block, on every plane. -/
def State.patrolSample (s : State) (p : List Byte) (block k : Nat) : Sample :=
  let n := max 1 (s.rd Reg.JNP_CAL_PATROL_PAGES)
  { plane := k / n % prPlanes p, block := block + k / n / prPlanes p, page := k % n * prPages p / n }
/-- R337: the places of a PATROL. -/
def State.patrolSamples (s : State) (p : List Byte) : Nat :=
  max 1 (s.rd Reg.JNP_CAL_PATROL_PAGES) * prPlanes p * 2 ^ s.gShift
/-- The class of the codewords of a block: the one in which a write point fills it, or the one the request names. The spec
states none for a PFA-addressed block (log entry 62). -/
def State.sampleClass (s : State) (lun block c : Nat) : Nat :=
  match s.top.wpClass.find? fun x => x.1 == lun && x.2.1 == block with
  | some x => x.2.2
  | none => c
/-- The codewords that begin in a sampled page. -/
def State.samplePfas (s : State) (p : List Byte) (lun c : Nat) (x : Sample) : List Nat :=
  if x.block < prBlocks p then pagePfas p (s.sampleClass lun x.block c) lun x.plane x.block x.page else []
/-- The first place from k on, of n, whose page has a codeword that begins in it. -/
def nextSample (has : Nat → Bool) (k n : Nat) : Option Nat := ((List.range (n - k)).map (k + ·)).find? has
/-- R193, R321: the reads of a sampled page at class MAINT, without a rebuild. -/
def State.readSample (s : State) (ref : FRef) (p : List Byte) (lun c eclass step : Nat) (x : Sample) : State :=
  s.each (s.samplePfas p lun c x) fun s a =>
    s.addFlight { id := 0, ref := ref, pfa := a, cclass := s.sampleClass lun x.block c, ch := 0, cls := 3
                  eclass := eclass, deadline := s.effDeadline s.now 0, step := step, rebuild := false } false
/-- R198, R330: no further sampled read is issued. -/
def State.sampleStopped (s : State) : Bool := s.pwr.hold != 0 || s.pwr.warn || s.sys.warmRun.isSome
/-- A read of a run is queued or on its way. -/
def State.sampling (s : State) (ref : FRef) : Bool := s.ecc.flights.any fun f => f.ref == ref && !f.dropped

/-! CALIB (R328, R329). -/

/-- R328: the level set of candidate i as it is sent. -/
def State.calSet (s : State) (lun block : Nat) (p : List Byte) (i : Nat) : List Int :=
  if i = 0 then List.replicate 15 0 else if i = 1 then s.effSet lun block p else s.stepSet lun block p (i - 1)
/-- R326, R329: the offsets that candidate i is stored with: the set as sent less the correction. -/
def State.calOff (s : State) (lun block : Nat) (p : List Byte) (i : Nat) : List Int :=
  addLevels (s.calSet lun block p i) ((s.corrs lun p (s.grpPeek (s.groupOf lun block))).map fun c => -c)
/-- R328: the candidates of a profile. -/
def State.calCount (s : State) (p : List Byte) : Nat := 2 + s.ladderSteps p
/-- The run of a channel changed. -/
def State.onCal (s : State) (n : Nat) (f : CalRun → CalRun) : State :=
  s.onJnp fun j => { j with calib := tset none j.calib n ((tget none j.calib n).map f) }
/-- R328: the next candidate of a run begins. -/
def State.nextCand (s : State) (n lun block : Nat) (p : List Byte) (r : CalRun) : State :=
  let i := r.cands.length
  s.onCal n fun r =>
    { r with page := 0, cands := r.cands ++ [{ set := s.calSet lun block p i, off := s.calOff lun block p i }] }
/-- R328: a CALIB goes on: the next sampled page, the next candidate, or the end of its measurements. -/
def State.calibStep (s : State) (n : Nat) (r : CalRun) : State :=
  if r.fin || s.sampling (.calib n) || s.sampleStopped then s
  else match s.groupPlace r.group with
    | none => s.onCal n fun r => { r with fin := true, gone := true }
    | some (lun, block) =>
      match s.lunProf lun with
      | none => s.onCal n fun r => { r with fin := true, gone := true }
      | some p =>
        if r.gone || !s.lunServes lun then s.onCal n fun r => { r with fin := true, gone := true }
        else if r.cands.isEmpty then s.nextCand n lun block p r
        else match nextSample (fun k => !(s.samplePfas p lun r.cclass (s.calibSample p block k)).isEmpty) r.page s.calibSamples with
          | some k => (s.onCal n fun r => { r with page := k + 1 }).readSample (.calib n) p lun r.cclass r.eclass
              (31 + r.cands.length) (s.calibSample p block k)
          | none =>
            if r.cands.length < s.calCount p then s.nextCand n lun block p r else s.onCal n fun r => { r with fin := true }
/-- R328: a codeword of the present candidate is measured. -/
def State.calScore (s : State) (n bad : Nat) : State :=
  s.onCal n fun r =>
    { r with
      cands := r.cands.dropLast ++ (r.cands.getLast?.toList.map fun c =>
        { c with score := c.score + bad, measured := c.measured + 1 }) }

/-! PATROL (R337). -/

/-- The run of a LUN changed. -/
def State.onPatrol (s : State) (lun : Nat) (f : PatrolRun → PatrolRun) : State :=
  s.onJnp fun j => { j with patrol := tset none j.patrol lun ((tget none j.patrol lun).map f) }
/-- R337: a PATROL goes on: the next sampled page, or the end of its reads. -/
def State.patrolStep (s : State) (lun : Nat) (r : PatrolRun) : State :=
  if r.fin || s.sampling (.patrol lun) || s.sampleStopped then s
  else match s.lunProf lun with
    | none => s.onPatrol lun fun r => { r with fin := true, gone := true }
    | some p =>
      let block := (r.group - tget 0 s.jnp.base lun) * 2 ^ s.gShift
      if r.gone || !s.lunServes lun then s.onPatrol lun fun r => { r with fin := true, gone := true }
      else match nextSample (fun k => !(s.samplePfas p lun r.cclass (s.patrolSample p block k)).isEmpty) r.place
          (s.patrolSamples p) with
        | some k => (s.onPatrol lun fun r => { r with place := k + 1 }).readSample (.patrol lun) p lun r.cclass r.eclass 0
            (s.patrolSample p block k)
        | none => s.onPatrol lun fun r => { r with fin := true }
/-- R337: a frame of a PATROL has ended with an outcome at a depth. A frame whose LUN fails to serve ends the run. -/
def State.patrolFrame (s : State) (lun st depth : Nat) : State :=
  s.onPatrol lun fun r =>
    if st = stAbsent then { r with gone := true }
    else
      { r with
        depth := max r.depth depth, frames := r.frames + 1
        lost := r.lost + b2n (st == stUncorrectable || st == stCrc) }

/-- The measurements that wait for nothing go on. -/
def State.measureStep (s : State) : State :=
  let s := s.each s.jnp.calib fun s e => match e.2 with | some r => s.calibStep e.1 r | none => s
  s.each s.jnp.patrol fun s e => match e.2 with | some r => s.patrolStep e.1 r | none => s

end Sys2Proof.Machine
end

