-- ==== Sys2Proof/Machine/MapWalk.lean ====
section
/-!
DEFINITION. The map walker (R144 to R166): the cache of map pages, translation, misses, BROKEN pages, map updates and
write-backs.
-/
namespace Sys2Proof.Machine

/-! The cache (R151, R152). -/

/-- The MAP regions, lowest first. -/
def State.mapRegs (s : State) : List Nat := (List.range 32).filter fun k => s.rd (Reg.HDG_RGN_USE k) == 1
/-- The control area: root table at 0, region table at 0x8000. -/
def State.mapCtl (s : State) : Nat := s.mapRegs.headD 0 * 0x100000
/-- The store address of slot k: the control area takes the room of the first eight. -/
def State.slotAddr (s : State) (k : Nat) : Nat :=
  s.mapRegs.getD ((k + 8) / 64) 0 * 0x100000 + (k + 8) % 64 * 16384
/-- The ways of a page's set. -/
def State.ways (s : State) (key : PageKey) : List Nat :=
  let n := 8 * s.mapRegs.length - 1
  let h := if n = 0 then 0 else Config.mapHash key.level.val key.region.val key.page n % n
  (List.range 8).map fun i => 8 * h + i
/-- The slot's page. -/
def State.mslot (s : State) (k : Nat) : Option MapSlot := tget none s.map.slots k
/-- The slot's record set. -/
def State.setMslot (s : State) (k : Nat) (v : Option MapSlot) : State :=
  s.onMap fun m => { m with slots := tset none m.slots k v }
/-- The slot's record changed. -/
def State.onMslot (s : State) (k : Nat) (f : MapSlot → MapSlot) : State := s.setMslot k ((s.mslot k).map f)
/-- The slot in which a page is resident. -/
def State.mapFind (s : State) (key : PageKey) : Option Nat :=
  (s.map.slots.find? fun e => e.2.map MapSlot.key == some key).map (·.1)
/-- Resident pages with their slots. -/
def State.resident (s : State) : List (Nat × MapSlot) :=
  s.map.slots.filterMap fun e => e.2.map fun m => (e.1, m)
/-- The number of dirty slots (R159). -/
def State.mapDirty (s : State) : Nat := (s.resident.filter fun e => e.2.dirty).length
/-- The slot becomes the most recently used. -/
def State.mapTouch (s : State) (k : Nat) : State :=
  let c := s.map.clock + 1
  (s.onMap fun m => { m with clock := c }).onMslot k fun x => { x with lru := c }
/-- The page is under write-back. -/
def State.underWb (s : State) (key : PageKey) : Bool := s.map.wbs.any fun w => w.key == key

/-! Pages (R148, R149). -/

/-- The frames of one map unit of a region. -/
def State.unitF (s : State) (region : Nat) : Nat := (s.lrgn region).unitFrames
/-- A region number as an operand type. -/
def fin64 (n : Nat) : Fin 64 := ⟨n % 64, Nat.mod_lt _ (by decide)⟩
/-- The leaf page of an LFA. -/
def State.leafKey (s : State) (region lfa : Nat) : PageKey :=
  { level := 0, region := fin64 region, page := lfa / (2048 * s.unitF region) }
/-- The entry of an LFA within its leaf page. -/
def State.leafIdx (s : State) (region lfa : Nat) : Nat := lfa / s.unitF region % 2048
/-- The directory page above a leaf page. -/
def dirKey (k : PageKey) : PageKey := { level := 1, region := k.region, page := k.page / 2048 }
/-- R528: the LFA of a page's first frame. -/
def State.pageLfa (s : State) (k : PageKey) : Nat :=
  k.page * 2048 * s.unitF k.region.val * (if k.level = 1 then 2048 else 1)
/-- R157: a page becomes BROKEN. The LUN that kept it from being read stays noted (R81). -/
def State.breakPage (s : State) (key : PageKey) : State :=
  let s := match s.mapFind key with
    | some k => s.setMslot k none
    | none => s
  let s := s.onMap fun m =>
    { m with
      broken := if m.broken.contains key then m.broken else m.broken ++ [key]
      absent := (m.absent.filter fun x => x.1 != key) ++
        match (m.miss.find? fun x => x.key == key).bind Miss.absent with | some l => [(key, l)] | none => []
      miss := m.miss.filter fun x => x.key != key }
  (s.setb Reg.MAP_STAT_BROKEN).err1 clsUnrecovered 4 2 (objLfa key.region.val (s.pageLfa key)) key.level.val
/-- An entry of a resident page. R351: a word that cannot be corrected drops a clean page and breaks a dirty one. -/
def State.slotWord (s : State) (k idx : Nat) : Option Nat × State :=
  let a := s.slotAddr k + 8 * idx
  let (r, s) := s.hRead a 8
  if r.ok then (some (ofLE r.data), s)
  else match s.mslot k with
    | none => (none, s)
    | some m => if m.dirty then (none, s.breakPage m.key) else (none, (s.setMslot k none).err1 clsRecovered 3 2 a)
/-- A word of the control area. R351: one that cannot be corrected stops the walker for good. -/
def State.ctlWord (s : State) (off : Nat) : Option Nat × State :=
  let a := s.mapCtl + off
  let (r, s) := s.hRead a 8
  if r.ok then (some (ofLE r.data), s) else (none, (s.onMap fun m => { m with halted := true }).err1 clsFatal 4 6 a)
/-- The offset of the root entry of a directory page. -/
def State.rootOff (s : State) (key : PageKey) : Nat := 8 * ((s.lrgn key.region.val).root + key.page)

/-- R148: SEQ a is later than SEQ b; the 16 bits wrap. -/
def seqLater (a b : Nat) : Bool :=
  let d := (a + 2 ^ 16 - b % 2 ^ 16) % 2 ^ 16
  d != 0 && decide (d < 2 ^ 15)
/-- R128, R162: an entry of a given SEQ found at bring-up is newer than the entry that stands. -/
def entryOlder (old seq : Nat) : Bool := enClass old == 0 || seqLater (seq % 2 ^ 16) (enSeq old)
/-- R162: the entry of a leaf page found at bring-up still waits for its directory page. -/
def State.replayAhead (s : State) (dir : PageKey) : Bool :=
  s.map.wbs.any fun w => w.replayed && w.key.level == 0 && dirKey w.key == dir

/-- What an entry above a page gives. -/
inductive Par where
  | entry (e : Nat)
  | wait
  | broken

/-- R155, R156: the parent entry of a leaf or directory page. -/
def State.parent (s : State) (key : PageKey) : Par × State :=
  if key.level = 0 then
    match s.mapFind (dirKey key) with
    | some k =>
      if s.replayAhead (dirKey key) then (.wait, s)
      else match s.slotWord k (key.page % 2048) with
      | (some e, s) => (.entry e, s.mapTouch k)
      | (none, s) => (.wait, s)
    | none => (if s.map.broken.contains (dirKey key) then .broken else .wait, s)
  else
    match s.ctlWord (s.rootOff key) with
    | (some e, s) => (.entry e, s)
    | (none, s) => (.wait, s)

/-! Misses (R152, R155, R156). -/

/-- The miss entry of a page changed. -/
def State.onMiss (s : State) (key : PageKey) (f : Miss → Miss) : State :=
  s.onMap fun m => { m with miss := m.miss.map fun x => if x.key == key then f x else x }
/-- The miss entry of a page. -/
def State.miss? (s : State) (key : PageKey) : Option Miss := s.map.miss.find? fun m => m.key == key
/-- R152: a way of the page's set that may be taken now: an empty way, else the least recently used clean way. -/
def State.victim (s : State) (key : PageKey) : Option Nat :=
  let ws := (s.ways key).filter fun k => !(s.map.miss.any fun m => m.slot == some k)
  match ws.find? fun k => (s.mslot k).isNone with
  | some k => some k
  | none => least (fun k => match s.mslot k with | some m => m.lru | none => 0) (ws.filter fun k =>
      match s.mslot k with
      | some m => !m.dirty && !m.pin && m.gpins.isEmpty && !s.underWb m.key
      | none => false)
/-- The dirty way that an eviction for a page writes back first: the least recently used one that R160 lets go; `free`
tells that of a slot. -/
def State.dirtyVictim (s : State) (key : PageKey) (free : Nat → MapSlot → Bool) : Option Nat :=
  if (s.victim key).isSome || ((s.ways key).any fun k => match s.mslot k with
      | some m => s.map.wbs.any fun w => w.key == m.key && w.evict
      | none => false) then none
  else least (fun k => match s.mslot k with | some m => m.lru | none => 0) ((s.ways key).filter fun k =>
      match s.mslot k with
      | some m => m.dirty && !m.pin && m.gpins.isEmpty && !s.underWb m.key && free k m
      | none => false)
/-- The outcome of an operation on a LUN that does not serve (R136, R469). -/
def State.absentStep (s : State) (f : Flight) : Flight :=
  if s.top.retired.contains (pfaLun f.pfa) && f.rebuild && s.is Reg.ECC_XOR_CTL_REBUILD_EN then
    { f with step := 27, soft := 4 }
  else { f with out := some stAbsent }
/-- An operation slot of a wing's XOR engine. -/
def State.xor? (s : State) (w k : Nat) : Option XorOp := tget none s.ecc.xor (4 * w + k)
def State.setXor (s : State) (w k : Nat) (x : Option XorOp) : State :=
  s.onEcc fun e => { e with xor := tset none e.xor (4 * w + k) x }
def State.onXor (s : State) (w k : Nat) (f : XorOp → XorOp) : State := s.setXor w k ((s.xor? w k).map f)
/-- R308: the slot of an open REBUILD that serves a PFA. -/
def State.rebuildOf (s : State) (w pfa : Nat) : Option Nat :=
  (List.range 4).find? fun k => match s.xor? w k with
    | some x => x.rebuild && (match s.flight? x.flight with | some g => g.pfa == pfa | none => false)
    | none => false
/-- R307, R308: the REBUILD of a flight: it joins the one that serves its PFA, takes a free slot and posts the failing PFA
to policy firmware, or waits. -/
def State.wantRebuild (s : State) (f : Flight) : State :=
  let w := f.ch / 4
  match s.rebuildOf w f.pfa with
  | some k => s.onXor w k fun x => { x with joined := x.joined ++ [f.id] }
  | none =>
    match (List.range 4).find? fun k => (s.xor? w k).isNone with
    | some k => (s.setXor w k (some { rebuild := true, flight := f.id, asked := s.now })).post1 2 f.pfa
    | none => s.onEcc fun e => { e with rebuilds := e.rebuilds ++ [f.id] }
/-- The read of a frame begins: on its LUN, or, where the LUN does not serve, as R136 and R469 state. -/
def State.launch (s : State) (f : Flight) (raw : Bool) : State :=
  if s.lunServes (pfaLun f.pfa) then s.addFlight f raw
  else
    let id := s.ecc.next
    let g := { s.absentStep f with id := id, ch := pfaCh f.pfa }
    let s := s.onEcc fun e => { e with flights := e.flights ++ [g], next := id + 1 }
    s.when (g.step == 27) fun s => s.wantRebuild g
/-! Policy parameters (R504). -/

/-- R504: number, minimum, maximum and default of the fixed parameters. -/
def fixedParams : List (Nat × Nat × Nat × Nat) :=
  [(1, 0, 2, 2), (2, 0, 0xFFFFFFFF, 0xFFFFFFFF), (3, 0, 29, 0), (4, 2, 255, 8), (5, 3, 255, 16), (6, 0, 8760, 168),
   (7, 0, 2, 1)]
/-- The value of a policy parameter. -/
def State.param (s : State) (n : Nat) : Nat :=
  match s.hly.params.find? fun p => p.1 == n with
  | some p => p.2.2.2.1
  | none => match fixedParams.find? fun p => p.1 == n with | some p => p.2.2.2 | none => 0
/-- R320, R504: the policy lets a caller reach step 27: reads by LFA and of the walker, or any. -/
def State.rebuildPolicy (s : State) (byLfa : Bool) : Bool :=
  if byLfa then s.param 1 != 0 else s.param 1 == 2

/-- R155: the die read of a map page queued at URGENT. -/
def State.readMapPage (s : State) (m : Miss) : State :=
  s.each (List.range 4) fun s q =>
    let pfa := s.pfaNext m.cclass m.pfa q
    s.launch { id := 0, ref := .map m.key q, pfa := pfa, cclass := m.cclass, ch := pfaCh pfa, cls := 0,
               region := m.key.region.val, seq := m.seq, deadline := s.effDeadline s.now 0
               rebuild := s.rebuildPolicy true } false
/-- One step of a miss that has not begun its read: a way, then the parent entry, then the read or the zero fill
(R150). A parent entry of another region is treated as a PFA that fails R137 (R154, R155). -/
def State.missGo (s : State) (key : PageKey) : State :=
  match s.miss? key with
  | none => s
  | some m =>
    if m.stage ≠ 0 ∨ s.map.halted = true then s
    else
      let s := match m.slot with
        | some _ => s
        | none => match s.victim key with
          | some k => (s.setMslot k none).onMiss key fun m => { m with slot := some k }
          | none => s
      match s.miss? key with
      | some { slot := some _, .. } =>
        match s.parent key with
        | (.wait, s) => s
        | (.broken, s) => s.onMap fun x => { x with miss := x.miss.filter fun y => y.key != key }
        | (.entry e, s) =>
          if enClass e = 0 then s.onMiss key fun m => { m with stage := 1 }
          else if enRegion e ≠ key.region.val ∨ s.pfaOk (enClass e) (enPfa e) = false then s.breakPage key
          else
            let m := { m with stage := 2, bad := false, pfa := enPfa e, cclass := enClass e, seq := enSeq e }
            (s.onMiss key fun x => { m with slot := x.slot, waiters := x.waiters }).readMapPage m
      | _ => s
/-- A miss entry opened for a page, if the table of 32 has room (R155). -/
def State.addMiss (s : State) (key : PageKey) (ws : List Waiter) : State :=
  if 32 ≤ s.map.miss.length then s
  else
    ((s.onMap fun m => { m with miss := m.miss ++ [{ key := key, waiters := ws }] }).bump Reg.MAP_MISSES_CNT 1).missGo key
/-- A step of a miss; a leaf whose directory page is neither resident nor being read opens that miss first (R156). -/
def State.missStep (s : State) (key : PageKey) : State :=
  let d := dirKey key
  let needDir := key.level == 0 && (s.mapFind d).isNone && (s.miss? d).isNone && !s.map.broken.contains d && !s.map.halted
  ((s.when needDir fun s => s.addMiss d []).missGo key)
/-- R155, R156: the miss entry of a page is opened, if the table has room. The lookup of a leaf's directory page hits, is
chained to its open miss, or opens it (R167). -/
def State.openMiss (s : State) (key : PageKey) (ws : List Waiter) : State :=
  if 32 ≤ s.map.miss.length then s
  else
    let d := dirKey key
    let s := s.when (key.level == 0) fun s =>
      if (s.mapFind d).isSome then s.bump Reg.MAP_HITS_CNT 1
      else if (s.miss? d).isSome then s.bump Reg.MAP_COALESCED_CNT 1 else s
    (s.addMiss key ws).missStep key

/-! Translation (R154). -/

/-- What a lookup gives. -/
inductive Look where
  | hit (e : Nat)
  | wait
  | broken

/-- The page is BROKEN for a lookup: itself, or its directory while it is not resident (R157). -/
def State.pageBroken (s : State) (key : PageKey) : Bool :=
  s.map.broken.contains key ||
    (key.level == 0 && (s.mapFind key).isNone && s.map.broken.contains (dirKey key))
/-- The LUN for whose absence a BROKEN page, or the directory page above it, could not be read. -/
def State.absentFor (s : State) (key : PageKey) : Option Nat :=
  (s.map.absent.find? fun x => x.1 == key || (key.level == 0 && x.1 == dirKey key)).map (·.2)
/-- A page is wanted: its slot if it is resident; otherwise its miss is opened or joined. -/
def State.wantPage (s : State) (key : PageKey) (w : Waiter) : Option Nat × State :=
  match s.mapFind key with
  | some k => (some k, s)
  | none =>
    if s.pageBroken key || s.map.halted then (none, s)
    else match s.miss? key with
      | some m =>
        if m.waiters.any fun x => x == w then (none, s)
        else (none, (s.onMiss key fun m => { m with waiters := m.waiters ++ [w] }).bump Reg.MAP_COALESCED_CNT 1)
      | none => (none, s.openMiss key [w])
/-- R154, R155: the lookup of an LFA; one that resumes after its miss is no further hit. -/
def State.look (s : State) (region lfa : Nat) (w : Waiter) (again : Bool) : Look × State :=
  let key := s.leafKey region lfa
  if s.map.halted then (.wait, s)
  else if s.pageBroken key then (.broken, s)
  else match s.wantPage key w with
    | (none, s) => (.wait, s)
    | (some k, s) =>
      match s.slotWord k (s.leafIdx region lfa) with
      | (some e, s) => (.hit e, (s.mapTouch k).bump Reg.MAP_HITS_CNT (b2n !again))
      | (none, s) => (if s.pageBroken key then .broken else .wait, s)

/-! Updates (R114, R115, R158, R161, R163). -/

/-- The 48-bit map sequence number. -/
def State.mapSeqNo (s : State) : Nat := s.rd Reg.MAP_SEQ_CNT + s.rd Reg.MAP_SEQ_HI_CNT * 2 ^ 32
/-- R148: the sequence number raised by one. -/
def State.nextSeq (s : State) : State :=
  let v := (s.mapSeqNo + 1) % 2 ^ 48
  (s.wr Reg.MAP_SEQ_CNT (v % 2 ^ 32)).wr Reg.MAP_SEQ_HI_CNT (v / 2 ^ 32)
/-- A frame range overlaps an LFA's unit. -/
def State.overUnit (s : State) (region lfa r first len : Nat) : Bool :=
  let f := s.unitF region
  r == region && decide (first < lfa / f * f + f) && decide (lfa / f * f < first + len)
/-- R114: an earlier read of the LFA has not translated it yet. -/
def State.readAhead (s : State) (order region lfa : Nat) : Bool :=
  s.que.cmds.any fun c =>
    decide (c.order < order) && !c.removed &&
      ((c.pkt.opcode == opRead || c.pkt.opcode == opCopy) && !c.pkt.isPfa) &&
      s.overUnit region lfa c.pkt.region c.pkt.addr c.pkt.length &&
      (c.stage == .entered || c.frames.any fun f =>
        (f.st == .idle || f.st == .waitMap || f.st == .waitWrite) &&
          s.overUnit region lfa c.pkt.region f.lfa 1)
/-- R115: an earlier overlapping write has not updated the map for the LFA yet. -/
def State.writeAhead (s : State) (order region lfa : Nat) : Bool :=
  (s.map.upds.any fun u => decide (u.order < order) && u.kind != 2 && s.overUnit region lfa u.region u.lfa 1) ||
    s.que.ranges.any fun r =>
      decide (r.order < order) && !r.gone && s.overUnit region lfa r.region r.first r.len &&
        match s.cmd? r.tag with
        | some c => c.order == r.order && !c.removed &&
            (c.stage == .entered || (c.pkt.opcode == opTrim && c.stage == .running) ||
              (c.pkt.opcode == opCopy && c.frames.any fun f =>
                f.st != .done && s.overUnit region lfa c.pkt.cpRegion (c.pkt.cpAddr + f.pos) 1))
        | none => false
/-- An entry change dirties its page: the entry is written, the page is dirty, and a write-back in flight sees the
change (R159, R160). -/
def State.setEntry (s : State) (k idx e port : Nat) : State :=
  let s := s.hWrite (s.slotAddr k + 8 * idx) (leBytes 8 e)
  match s.mslot k with
  | none => s
  | some m =>
    ((s.onMslot k fun x => { x with dirty := true, ports := x.ports ||| 2 ^ port }).mapTouch k).onMap fun x =>
      { x with
        wbs := x.wbs.map fun w =>
          if w.key == m.key && w.snap != [] then { w with changed := true, since := w.since ||| 2 ^ port } else w }
/-- R161: an update that would dirty a clean page waits at the limit. -/
def State.dirtyLimit (s : State) (k : Nat) : Bool :=
  (match s.mslot k with | some m => !m.dirty | none => false) && decide (s.rd Reg.MAP_DIRTY_LIMIT ≤ s.mapDirty)
/-- R158: the previous PFA of an entry passes to policy firmware. -/
def State.freePfa (s : State) (old : Nat) : State :=
  if enClass old = 0 then s else s.onMap fun m => { m with freed := enPfa old :: m.freed }
/-- A map update is removed from those that wait. -/
def State.delUpd (s : State) (u : Upd) : State := s.onMap fun m => { m with upds := m.upds.erase u }
/-- The entry change of an update on a resident page. The page carries the group pin of R126 until the group is committed. -/
def State.doUpd (s : State) (u : Upd) (k : Nat) : State :=
  let idx := s.leafIdx u.region u.lfa
  match s.slotWord k idx with
  | (none, s) => s
  | (some old, s) =>
    let s := s.delUpd u
    let named := (match u.onlyIf with
      | some p => enClass old != 0 && enPfa old == p
      | none => true) && (!u.newer || entryOlder old (enSeq u.entry))
    if named then
      let s := (s.setEntry k idx u.entry u.port).freePfa old
      let s := s.onMap fun m =>
        { m with replaced := match u.fua with
            | some t => m.replaced ++ [(t, u.region, u.lfa, old, enPfa u.entry)]
            | none => m.replaced }
      match u.group with
      | some g =>
        if s.que.groups.any fun x => x.num == g then
          s.onMslot k fun x => { x with gpins := if x.gpins.contains g then x.gpins else x.gpins ++ [g] }
        else s
      | none => s
    else if u.kind = 1 then
      let s := s.bump Reg.MAP_COND_DROP_CNT (s.unitF u.region)
      let f := s.unitF u.region
      s.onQue fun q =>
        { q with
          dirty := q.dirty.map fun d =>
            if d.order == u.order && decide (u.pos ≤ d.pos) && decide (d.pos < u.pos + f) then
              { d with stale := true }
            else d }
    else s
/-- R158: an update tried: it applies, or waits for an earlier command, its page, or the limit. -/
def State.tryUpd (s : State) (u : Upd) : State :=
  if s.map.halted || s.pageBroken (s.leafKey u.region u.lfa) then s
  else if u.kind != 2 && (s.readAhead u.order u.region u.lfa || s.writeAhead u.order u.region u.lfa) then s
  else match s.wantPage (s.leafKey u.region u.lfa) { tag := 4096 + u.order, pos := u.pos, order := u.order } with
    | (none, s) => s.onMap fun m => { m with upds := m.upds.map fun x => if x == u then { x with missed := true } else x }
    | (some k, s) =>
      if s.dirtyLimit k then s.setb Reg.MAP_STAT_LIMIT_HIT
      else (s.bump Reg.MAP_HITS_CNT (b2n !u.missed)).doUpd u k
/-- Every update that waits is tried, in entry order. -/
def State.tryUpds (s : State) : State := s.each (orderBy (fun (u : Upd) => u.order) s.map.upds) fun s u => s.tryUpd u

/-! Write-back (R159 to R162). -/

/-- R160: the page holds an entry that names a dirty frame, told by its sequence number, or an uncommitted group pins
it. -/
def State.wbHeld (s : State) (m : MapSlot) (k : Nat) : Bool :=
  !m.gpins.isEmpty ||
    (m.key.level == 0 && s.que.dirty.any fun d =>
      s.leafKey d.region d.lfa == m.key &&
        (let e := s.hNat (s.slotAddr k + 8 * s.leafIdx d.region d.lfa) 8
         enClass e != 0 && enSeq e == d.seq % 65536))
/-- R152, R157: a miss or a rebuilt page without a way takes slot k as its victim, once it is written back. -/
def State.wantsWay (s : State) (k : Nat) : Bool :=
  let key? := fun (key : PageKey) => s.dirtyVictim key (fun j x => !s.wbHeld x j) == some k
  (s.map.miss.any fun m => m.slot.isNone && key? m.key) || s.map.rebuilt.any fun r => key? r.1
/-- R159: the background asks for the write-back of slot k: fewer than 16 of its own are in flight, and the dirty slots
not under write-back are at or above HIGH. -/
def State.wbBack (s : State) (k : Nat) : Bool :=
  let dirty := s.resident.filter fun e => e.2.dirty && !s.underWb e.2.key
  decide ((s.map.wbs.filter fun w => w.bg).length < 16) &&
    decide (min (s.rd Reg.MAP_DIRTY_HIGH) (s.rd Reg.MAP_DIRTY_LIMIT) ≤ dirty.length) &&
    (least (fun (e : Nat × MapSlot) => e.2.lru) (dirty.filter fun e => !s.wbHeld e.2 e.1)).map (·.1) == some k
/-- R159, R164, R165: commands, evictions or the retirement of a region ask for a page's write-back. -/
def State.wbWanted (s : State) (key : PageKey) (k : Nat) : Bool :=
  (s.que.cmds.any fun c => c.stage == .running && c.pages.contains key &&
      (c.pkt.opcode == opFlush || c.pkt.opcode == opSync || c.pkt.opcode == opPower)) ||
    s.map.retiring.contains key.region.val ||
    s.wantsWay k
/-- The write-back of a page changed. -/
def State.onWb (s : State) (key : PageKey) (f : WB → WB) : State :=
  s.onMap fun m => { m with wbs := m.wbs.map fun w => if w.key == key then f w else w }
/-- The source of a page's bytes: its slot, or the root table in the control area. -/
def State.pageAddr (s : State) (key : PageKey) : Option Nat :=
  if key.level = 2 then some (s.mapCtl + key.page % 2 * 16384) else (s.mapFind key).map s.slotAddr
/-- R160: the snapshot of a page under write-back, once. An uncorrectable word makes a dirty page BROKEN (R351). -/
def State.snapWb (s : State) (key : PageKey) : State :=
  match s.map.wbs.find? (fun w => w.key == key), s.pageAddr key with
  | some w, some a =>
    if w.snap != [] then s
    else
      let (r, s) := s.hRead a 16384
      let s := if r.ok then s else if key.level = 2 then
          (s.onMap fun m => { m with halted := true }).err1 clsFatal 4 6 a else s.breakPage key
      s.onWb key fun w =>
        { w with
          snap := r.data
          seq := s.mapSeqNo
          bad := !r.ok
          who := (s.que.cmds.filter fun c => c.pages.contains key).map fun c => c.tag }
  | _, _ => s
/-- R166, R162: a write-back that has passed changes its parent entry, when the directory page is resident. -/
def State.wbParent (s : State) (w : WB) : Option State :=
  let e := mkEntry w.pfa w.cclass w.key.region.val w.seq
  if w.key.level = 0 then
    match s.wantPage (dirKey w.key) { tag := 8192, pos := w.key.page, order := 0 } with
    | (some k, s) =>
      match s.slotWord k (w.key.page % 2048) with
      | (some old, s) =>
        some (if w.replayed && !entryOlder old w.seq then s else (s.setEntry k (w.key.page % 2048) e 4).freePfa old)
      | (none, _) => none
    | (none, _) => none
  else if w.key.level = 1 then
    match s.ctlWord (s.rootOff w.key) with
    | (some old, s) =>
      some (if w.replayed && !entryOlder old w.seq then s
        else (s.hWrite (s.mapCtl + s.rootOff w.key) (leBytes 8 e)).freePfa old)
    | (none, s) => some s
  else some (s.onMap fun m =>
    { m with ckpt := if w.key.page = 0 then some (w.pfa, ((m.ckpt.getD (0, 0)).2)) else some ((m.ckpt.getD (0, 0)).1, w.pfa) })
/-- R159: the page of a passed write-back is clean unless an entry changed after the snapshot; an eviction frees its
slot, unless the page was pinned meanwhile (R164). The commands that wait for the page are told. -/
def State.wbClean (s : State) (w : WB) : State :=
  let s := s.onMap fun m => { m with wbs := m.wbs.filter fun x => x.key != w.key }
  let s := s.bump Reg.MAP_WRITEBACKS_CNT (b2n !w.replayed)
  let s := s.each w.who fun s t => s.onCmd t fun c => { c with pages := c.pages.erase w.key }
  match s.mapFind w.key with
  | none => s
  | some k =>
    if w.changed then s.onMslot k fun m => { m with ports := w.since }
    else if w.evict && (s.mslot k).any (fun m => !m.pin && m.gpins.isEmpty) then s.setMslot k none
    else s.onMslot k fun m => { m with dirty := false, ports := 0 }
/-- A passed write-back takes effect, or waits for its directory page. -/
def State.wbFinish (s : State) (w : WB) : State :=
  match s.wbParent w with
  | some s => s.wbClean w
  | none =>
    ((s.wantPage (dirKey w.key) { tag := 8192, pos := w.key.page, order := 0 }).2).onWb w.key
      fun w => { w with fin := true }
/-- R155: a page takes its slot: its bytes, its tag and its place in the LRU order; its miss entry closes. -/
def State.mapResident (s : State) (key : PageKey) (k : Nat) (d : List Byte) (dirty : Bool) : State :=
  let s := (s.hWrite (s.slotAddr k) d).setMslot k (some { key := key, dirty := dirty })
  (s.mapTouch k).onMap fun m => { m with miss := m.miss.filter fun x => x.key != key }
/-- R157: a rebuilt page takes a way of its set, and is BROKEN no longer. -/
def State.rebuiltStep (s : State) (key : PageKey) (d : List Byte) : State :=
  match s.victim key with
  | none => s
  | some k =>
    let s := s.onMap fun m =>
      { m with
        broken := m.broken.filter (· != key)
        absent := m.absent.filter fun x => x.1 != key
        rebuilt := m.rebuilt.filter fun x => x.1 != key }
    s.mapResident key k d true
/-- Misses without a way, rebuilt pages and passed write-backs are tried again. -/
def State.mapRetry (s : State) : State :=
  let s := s.each (s.map.wbs.filter fun w => w.fin) fun s w => s.wbFinish w
  let s := s.each s.map.rebuilt fun s r => s.rebuiltStep r.1 r.2
  s.each (s.map.miss.filter fun m => m.stage == 0) fun s m => s.missStep m.key
/-- R126: a group is committed: its pins end. -/
def State.unpinGroup (s : State) (g : Nat) : State :=
  s.onMap fun m =>
    { m with slots := m.slots.map fun e => (e.1, e.2.map fun x => { x with gpins := x.gpins.filter (· != g) }) }

/-- R145: a retired region whose pages are clean is dropped from the cache; BUSY falls with the last. -/
def State.retireStep (s : State) : State :=
  s.each s.map.retiring fun s r =>
    let mine := fun (k : PageKey) => k.region.val == r && k.level != 2
    if (s.resident.any fun e => mine e.2.key && e.2.dirty) || (s.map.wbs.any fun w => mine w.key) ||
        (s.map.upds.any fun u => u.region == r) then s
    else
      let s := s.each (s.resident.filter fun e => mine e.2.key) fun s e => s.setMslot e.1 none
      let s := s.onMap fun m =>
        { m with
          retiring := m.retiring.filter (· != r)
          miss := m.miss.filter fun x => !mine x.key
          broken := m.broken.filter fun k => !mine k
          absent := m.absent.filter fun x => !mine x.1
          rebuilt := m.rebuilt.filter fun x => !mine x.1
          rgns := tset {} m.rgns r {} }
      s.wr Reg.MAP_RGN_LOAD_BUSY (b2n (!s.map.retiring.isEmpty))

/-! Ranges of pages (R153, R164). -/

/-- The leaf pages that cover n frames from an LFA. -/
def State.leafPages (s : State) (region lfa n : Nat) : List PageKey :=
  if n = 0 then []
  else
    let f := 2048 * s.unitF region
    (List.range ((lfa + n - 1) / f + 1 - lfa / f)).map fun i =>
      { level := 0, region := fin64 region, page := lfa / f + i }
/-- Slots pinned by MAP_PIN. -/
def State.pinUsed (s : State) : Nat := (s.resident.filter fun e => e.2.pin).length
/-- R167: the pin quota; a value above SLOTS / 2 acts as SLOTS / 2. -/
def State.pinQuota (s : State) : Nat := min (s.rd Reg.MAP_PIN_QUOTA) (s.rd Reg.MAP_CTL_SLOTS / 2)
/-- R153: pages that a MAP_PIN would pin beyond those it finds pinned, and the sets it would fill too far: the
count of QUOTA, if it may not pin. -/
def State.pinRefused (s : State) (keys : List PageKey) : Option Nat :=
  let isPin := fun (k : PageKey) => match s.mapFind k with
    | some i => match s.mslot i with | some m => m.pin | none => false
    | none => false
  let new := keys.filter fun k => !isPin k
  let total := s.pinUsed + new.length
  if s.pinQuota < total then some total
  else
    (new.filterMap fun k =>
      let ws := s.ways k
      let old := (ws.filter fun i => match s.mslot i with | some m => m.pin | none => false).length
      let add := (new.filter fun j => s.ways j == ws).length
      if 8 < old + add + 2 then some (8 - (old + add)) else none).head?

end Sys2Proof.Machine
end

