-- ==== Sys2Proof/Machine/Work.lean ====
section
/-!
DEFINITION. The frames of commands on their way: handle lists, the reading and the delivery of frames (R66, R67, R114,
R117, R285), the acceptance of frames to write (R36, R69, R124, R158), their end (R37), and the pass that lets waiting
work go on.
-/
namespace Sys2Proof.Machine

/-! Energy terms (R428). -/

/-- A coefficient of nJ per event, n times, in pJ. -/
def State.nj (s : State) (F : Fld) (n : Nat) : Nat := s.rd F * 1000 * n
/-- A coefficient of pJ per byte. -/
def State.pjB (s : State) (F : Fld) (n : Nat) : Nat := s.rd F * n

/-! Handle lists (R52, R351, R352). -/

/-- The handles a packet names: the word that could not be read, or the handles. -/
def State.handleList (s : State) (p : Pkt) : Option Nat × List Nat × State :=
  if p.listed then
    let n := p.listLen
    let (r, s) := s.hRead p.hlist (4 * n)
    if r.ok then (none, (List.range n).map fun k => leAt r.data (4 * k) 4, s)
    else
      let a := r.unc.getD p.hlist
      (some a, [], s.err1 clsContained 1 4 a)
  else (none, (List.range (min 8 p.length)).map p.inline, s)
/-- R59: the detail of a failing handle. -/
def badHandle (x : Nat × Nat × Nat) : Nat := detailHandle x.1 x.2.2
/-- Handle k written into the list of a packet (R52). -/
def State.putHandle (s : State) (p : Pkt) (k h : Nat) : State := s.hWrite (p.hlist + 4 * k) (leBytes 4 h)

/-! Frames of a command. -/

/-- The requester whose name a buffer of the command's frames carries while the complex fills it (R51, R66). -/
def frameReq (c : Cmd) (pfa : Nat) : Nat :=
  if c.pkt.opcode = opRead ∧ c.pkt.dest = 1 then c.pkt.client else 4 + pfaCh pfa
/-- The frame needs a buffer of its own from Coppice. -/
def wantsBuf (c : Cmd) (f : Frame) : Bool :=
  c.pkt.opcode == opCopy || (c.pkt.opcode == opRead && c.pkt.dest == 1) ||
    (c.pkt.opcode == opRead && c.pkt.dest == 0 && !f.fwd && !f.unmapped)
/-- A buffer is asked for a frame, or named by its handle (R66); the frame's share of R428 is charged. -/
def State.askBuf (s : State) (c : Cmd) (f : Frame) : State :=
  let s := s.energy (some c.tag) (s.nj Reg.BOX_EOP0_FRAME_RD 1)
  if c.pkt.opcode = opRead ∧ c.pkt.dest = 2 then
    s.onFrame c.tag f.pos fun x => { x with buf := some (hdIndex (c.handles.getD f.pos 0)) }
  else if wantsBuf c f then s.copWant (frameReq c f.pfa) (.frame c.tag f.pos) 1
  else s
/-- A flight of a frame that has not been decoded leaves its operation, if that has not started; a started one runs on
and its data is dropped (R134). -/
def State.dropFlight (s : State) (id : Nat) : State :=
  match s.top.ops.find? fun o => o.fl.contains id with
  | none => s.delFlight id
  | some o =>
    if o.st == .queued || o.st == .refused then
      let s := s.onOp o.id fun o => { o with fl := o.fl.erase id }
      (if o.fl == [id] then s.delOp o.id else s).delFlight id
    else
      let s := (s.onFlight id fun f => { f with dropped := true }).onOp o.id fun o => { o with tag := none }
      match tget none s.top.run (lunCh o.lun) with
      | some g => if g.op = o.id ∧ (s.opFlights o).all Flight.dropped = true then s.raiseEv (lunCh o.lun) 1 else s
      | none => s
/-- What a frame of a command holds is given back: its request, its hold, its transit buffer and its flight. The depth that
its read has reached stays with it (R55). -/
def State.releaseFrame (s : State) (c : Cmd) (f : Frame) : State :=
  let s := s.copCancel fun x => x == .frame c.tag f.pos
  let s := match f.held with | some b => s.dropHold b | none => s
  let s := match f.buf with
    | some b => if c.pkt.opcode = opRead ∧ c.pkt.dest = 2 then s else s.dropName b (frameReq c f.pfa)
    | none => s
  let fl := s.ecc.flights.filter fun x => x.ref == .cmd c.tag f.pos
  let deep := if c.pkt.opcode = opReadRaw then 0 else fl.foldl (fun m x => max m x.step) 0
  let s := s.each fl fun s x => s.dropFlight x.id
  s.onFrame c.tag f.pos fun x => { x with st := .done, held := none, buf := none, retry := max x.retry deep }
/-- A reading command ends: the frames not delivered give back what they hold (R66). -/
def State.endReads (s : State) (tag : Nat) : State :=
  let c := s.cmd tag
  s.each (c.frames.filter fun f => f.st != .done) fun s f => s.releaseFrame c f

/-! Reading a frame (R66, R67, R114, R117, R137, R154). -/

/-- The latest pending write that entered before a command and covers an LFA (R114, R116). -/
def State.priorWrite (s : State) (order region lfa : Nat) : Option Range :=
  (least (fun (r : Range) => 2 ^ 64 - r.order) (s.que.ranges.filter fun r =>
    decide (r.order < order) && r.region == region && decide (r.first ≤ lfa) && decide (lfa < r.first + r.len)))
/-- The pending write has not taken over the frame's data yet, or is a TRIM that is not in the cached map (R114). -/
def State.writeUnready (s : State) (r : Range) (lfa : Nat) : Bool :=
  match s.cmd? r.tag with
  | none => false
  | some c =>
    c.order == r.order && !c.removed &&
      (c.stage == .entered || (c.pkt.opcode == opTrim && c.stage == .running) ||
        (c.pkt.opcode == opCopy && c.frames.any fun f => f.st != .done && c.pkt.cpAddr + f.pos == lfa))
/-- R114: the map update of an earlier write of the LFA still waits: the entry does not name that write's frame yet. -/
def State.updAhead (s : State) (order region lfa : Nat) : Bool :=
  s.map.upds.any fun u => (u.newer || decide (u.order < order)) && s.overUnit region lfa u.region u.lfa 1
/-- The accepted frame of a write at an LFA. -/
def State.dirtyAt (s : State) (order lfa : Nat) : Option Dirty :=
  s.que.dirty.find? fun d => d.order == order && d.lfa == lfa && !d.stale
/-- A frame's outcome known without a die. -/
def State.frameSet (s : State) (tag pos : Nat) (st : FSt) (out : Nat) : State :=
  s.onFrame tag pos fun f => { f with st := st, out := out }
/-- R137, R154, R298: an entry or a frame that does not match the LFA being read. -/
def State.wrongPlace (s : State) (region lfa : Nat) : State := s.err1 clsUnrecovered 4 1 (objLfa region lfa)
/-- The flight of a frame of a command. A READ_RAW reads once, at the step that PARAM names in the coding of R55 (R68). -/
def State.readFlight (s : State) (c : Cmd) (f : Frame) : Flight :=
  { id := 0, ref := .cmd c.tag f.pos, pfa := f.pfa, cclass := f.cclass, ch := pfaCh f.pfa, cls := c.pkt.cls,
    byMap := f.byMap, region := c.pkt.region, lfa := f.lfa, seq := f.entrySeq, eclass := c.pkt.eclass,
    step := if c.pkt.opcode = opReadRaw then c.pkt.param + 1 else 0,
    deadline := s.effDeadline c.fetched c.pkt.deadline,
    rebuild := s.rebuildPolicy f.byMap && !(c.pkt.opcode == opRead && c.pkt.flag 4) && c.pkt.opcode != opReadRaw }
/-- R119: a translated frame goes to its die. -/
def State.frameToDie (s : State) (c : Cmd) (pos : Nat) (f : Frame) : State :=
  let s := s.onFrame c.tag pos fun _ => { f with st := .onDie }
  let raw := c.pkt.opcode == opReadRaw
  (if raw then s.energy (some c.tag) (s.nj Reg.BOX_EOP0_FRAME_RD 1) else s.askBuf c f).launch (s.readFlight c f) raw
/-- R154: the translated entry of an LFA read. -/
def State.frameEntry (s : State) (c : Cmd) (f : Frame) (e : Nat) : State :=
  let r := c.pkt.region
  if enClass e = 0 then
    let f := { f with unmapped := true }
    (s.onFrame c.tag f.pos fun x => { x with unmapped := true, st := .ready }).askBuf c f
  else if enRegion e ≠ r ∨ enClass e ≠ (s.lrgn r).cclass ∨ s.pfaOk (enClass e) (enPfa e) = false then
    (s.wrongPlace r f.lfa).frameSet c.tag f.pos .ready stUncorrectable
  else
    s.frameToDie c f.pos
      { f with pfa := s.pfaNext (enClass e) (enPfa e) (f.lfa % s.unitF r), cclass := enClass e,
               entrySeq := enSeq e, byMap := true }
/-- One frame of a READ, READ_RAW or COPY source begins, or waits (R114, R155). -/
def State.startFrame (s : State) (tag pos : Nat) : State :=
  match s.cmd? tag, s.frame? tag pos with
  | some c, some f =>
    if c.pkt.isPfa then
      s.frameToDie c pos { f with pfa := s.pfaNext c.pkt.cclass c.pkt.addr pos, cclass := c.pkt.cclass }
    else
      let r := c.pkt.region
      let key := s.leafKey r f.lfa
      let look := fun (s : State) =>
        if s.updAhead c.order r f.lfa && !s.pageBroken key then s.onFrame tag pos fun x => { x with st := .waitWrite }
        else
        match s.look r f.lfa { tag := tag, pos := pos, order := c.order } (f.st == .waitMap) with
        | (.wait, s) => s.onFrame tag pos fun x => { x with st := .waitMap }
        | (.broken, s) => s.frameSet tag pos .ready stUncorrectable
        | (.hit e, s) => s.frameEntry c f e
      match s.priorWrite c.order r f.lfa with
      | none => look s
      | some w =>
        match s.dirtyAt w.order f.lfa with
        | some d =>
          if 15 ≤ (s.buf d.buf).holds then s.onFrame tag pos fun x => { x with st := .waitWrite }
          else
            let f := { f with fwd := true, held := some d.buf, pfa := d.pfa, st := .ready }
            let s := (s.addHold d.buf).onFrame tag pos fun _ => f
            s.askBuf c f
        | none =>
          if s.writeUnready w f.lfa then s.onFrame tag pos fun x => { x with st := .waitWrite }
          else look s
  | _, _ => s

/-! Delivery (R66, R117, R285, R351). -/

/-- The end-to-end check of a frame taken from a pool buffer; its user bytes, whether it passed, and the state with
the counts and records of a failure. -/
def State.takeBuf (s : State) (i : Nat) : List Byte × Bool × State :=
  let (r, s) := s.bufRead i
  if !r.ok then (r.data, false, (s.bump Reg.ECC_CRCERR_DCRC 1).err1 clsContained 3 2 (r.unc.getD (i * 4096)))
  else if s.bufOk i r then (r.data, true, s)
  else (r.data, false, s.bump Reg.ECC_CRCERR_DCRC 1)
/-- A frame copied from one buffer to another with its metadata (R117). -/
def State.copyBuf (s : State) (i j : Nat) : Bool × State :=
  let (d, ok, s) := s.takeBuf i
  (ok, (s.hWrite (j * 4096) d).setSlot j (s.buf i).slot ok)
/-- The bytes of a frame to a client port, with their energy. -/
def State.stream (s : State) (c : Cmd) (d : List Byte) : State :=
  let s := (s.deliver c.pkt.client d).userBytes c.pkt.client d.length
  s.energy (some c.tag) (s.pjB Reg.BOX_EBYTE0_PORT d.length + s.pjB Reg.BOX_EBYTE1_STATIC d.length +
    s.pjB Reg.BOX_EBYTE0_STORE d.length)
/-- The frame is ready and holds the buffer it needs. -/
def frameReady (c : Cmd) (f : Frame) : Bool :=
  f.st == .ready && (severity stRebuilt < severity f.out || !(wantsBuf c f) || f.buf.isSome)
/-- A frame of a READ delivered: its outcome. -/
def State.giveFrame (s : State) (c : Cmd) (f : Frame) : Nat × State :=
  if c.pkt.dest = 0 then
    if f.unmapped then (f.out, s.stream c (fill 4096 0))
    else match (if f.fwd then f.held else f.buf) with
      | none => (f.out, s)
      | some i =>
        let (d, ok, s) := s.takeBuf i
        let s := s.stream c d
        let s := if f.fwd then s.dropHold i else s.dropName i (frameReq c f.pfa)
        let s := s.onFrame c.tag f.pos fun x => { x with held := none, buf := none }
        (if ok then f.out else stCrc, s)
  else match f.buf with
    | none => (f.out, s)
    | some j =>
      let (ok, s) :=
        if f.unmapped then (true, s.bufZero j)
        else match f.held with
          | some i => let (ok, s) := s.copyBuf i j; (ok, s.dropHold i)
          | none => (true, s)
      let s := s.onFrame c.tag f.pos fun x => { x with held := none }
      if ok then
        (f.out, if c.pkt.dest = 1 then
            ((s.putHandle c.pkt f.pos (s.handleOf j)).onCmd c.tag fun c => { c with bufs := c.bufs ++ [j] }).onFrame c.tag f.pos
              fun x => { x with buf := none }
          else s)
      else (stCrc, s)
/-- R58, R59: a READ or COPY completes with the outcome of a frame that stopped it, or with the worst of all. -/
def State.endRead (s : State) (tag : Nat) : State :=
  let c := s.cmd tag
  let fs := c.frames.filter fun f => f.st == .done
  let (st, pos) := worst (fs.map fun f => (f.out, f.pos))
  let lun := match fs.find? fun f => f.pos == pos with | some f => pfaLun f.pfa | none => 0
  let det := match fs.find? fun f => f.pos == pos with | some f => f.detail | none => 0
  let s := s.endReads tag
  s.finish tag st (if st = stInternal then det
    else detailFrame st pos lun (fs.any fun f => f.unmapped) (fs.any fun f => f.fwd))
/-- R514: a read of the command is still under way. -/
def State.readsRun (s : State) (tag : Nat) : Bool := s.ecc.flights.any fun f => f.tag == some tag && f.out.isNone
/-- One frame of a READ in its turn: delivered, or the end of the delivery. -/
def State.deliverNext (s : State) (tag : Nat) : State :=
  match s.cmd? tag with
  | none => s
  | some c =>
    if c.stage != .running then s
    else match c.frames.find? fun f => f.st != .done with
      | none => s.endRead tag
      | some f =>
        if !frameReady c f || (c.pkt.dest == 0 && s.dark c.pkt.client) then s
        else if f.out = stByReset ∧ s.readsRun tag = true then s
        else if severity stRebuilt < severity f.out then
          (s.releaseFrame c f).endRead tag
        else
          let (out, s) := s.giveFrame c f
          let s := s.onFrame tag f.pos fun x => { x with st := .done, out := out }
          if severity stRebuilt < severity out then
            (match s.frame? tag f.pos with | some x => s.releaseFrame c x | none => s).endRead tag
          else s.onCmd tag fun c => { c with count := c.count + 1 }
/-- R66: the frames of a READ delivered as far as they are ready, in frame order. -/
def State.deliverAll (s : State) (tag : Nat) : State :=
  times (fun s => s.deliverNext tag) ((s.cmd tag).frames.length + 1) s

/-! The end of a command's part in a write (R113). -/

/-- R113, R116: range entries of writes that are pending no longer are freed. -/
def State.rangeSettle (s : State) : State :=
  s.onQue fun q =>
    { q with
      ranges := q.ranges.filter fun r => !(r.gone && !(q.dirty.any fun d => d.order == r.order)) }
/-- A write's command has accepted all it will. -/
def State.rangeGone (s : State) (tag : Nat) : State :=
  let o := (s.cmd tag).order
  (s.onQue fun q =>
    { q with
      ranges := q.ranges.map fun r => if r.tag == tag && r.order == o then { r with gone := true } else r }).rangeSettle
/-- A frame of a FUA or PFA-addressed write has its die outcome; after the last the command completes. -/
def State.progDone (s : State) (tag pos st : Nat) : State :=
  match s.cmd? tag with
  | none => s
  | some c =>
    if c.stage != .running then s
    else
      let s := s.onCmd tag fun c =>
        { c with
          count := c.count + b2n (st == stOK)
          frames := c.frames.map fun f => if f.pos == pos then { f with st := .done, out := max f.out st } else f }
      let c := s.cmd tag
      if c.frames.all fun f => f.st == .done then
        let (w, p) := worst (c.frames.map fun f => (f.out, f.pos))
        let fr := c.frames.find? fun f => f.pos == p
        let s := s.when (c.pkt.opcode == opCopy) (·.dropLeaseTag tag)
        (s.rangeGone tag).finish tag w (if w = stInternal then (match fr with | some f => f.detail | none => 0)
          else detailFrame w p (match fr with | some f => pfaLun f.pfa | none => 0) (c.frames.any fun f => f.unmapped)
            (c.frames.any fun f => f.fwd))
      else s

/-! Acceptance (R36, R69, R124, R158). -/

/-- R444: the dirty quota; FRAMES above the pool size acts as the pool size. -/
def State.dirtyQuota (s : State) : Nat := min (s.rd Reg.PWR_QUOTA_FRAMES) s.poolSize
/-- R69: the complex takes a buffer over. -/
def State.takeOver (s : State) (i r : Nat) (keep : Bool) : State :=
  let s := s.addName i 15
  if keep then s else s.onBuf i fun b => { b with owners := b.owners.filter (· != r) }
/-- R429: the energy of the later stages of an accepted frame. -/
def State.acceptPj (s : State) (c passes page : Nat) : Nat :=
  s.nj Reg.BOX_EOP0_FRAME_WR 1 + s.pjB Reg.BOX_EBYTE0_PORT 4096 + s.pjB Reg.BOX_EBYTE1_STATIC 4096 +
    s.pjB Reg.BOX_EBYTE0_STORE (4096 + passes * 4128) + s.pjB Reg.BOX_EBYTE1_ENC (passes * cwLen c) +
    s.pjB Reg.BOX_EBYTE0_BUS (passes * cwLen c) +
    (if page = 0 then 0 else passes * s.nj Reg.BOX_EOP1_PROG_PAGE 1 * cwLen c / page)
/-- A PFA where a frame of a class can be programmed. -/
def State.canProgram (s : State) (c a : Nat) : Bool :=
  decide (a < 2 ^ 40) && s.lunServes (pfaLun a) &&
    (match s.lunProf (pfaLun a) with | some p => pfaFits p c a | none => false)
/-- R138: a write point hands out slots of a block in one class only. -/
def State.classOk (s : State) (c a : Nat) : Bool :=
  match s.top.wpClass.find? fun x => x.1 == pfaLun a && x.2.1 == pfaBlock a with
  | some x => x.2.2 == c
  | none => true
/-- A PFA that a write point may hand out for a frame of a class (R138, R158). -/
def State.canPlace (s : State) (c a : Nat) : Bool := s.canProgram c a && s.classOk c a
/-- R147: the slot of a frame of a write: its own, or its place among the four ordinals that start at the slot of its map
unit's first frame. A unit that does not fit in its block has none there. -/
def State.slotFor (s : State) (region cl : Nat) (slots : List Slot) (lfa k : Nat) : Slot :=
  let f := s.unitF region
  let b := slots.getD (k - lfa % f) { pfa := 2 ^ 40, planes := 0 }
  if f = 1 then b
  else if (List.range f).all fun i => s.canPlace cl b.pfa && s.canPlace cl (s.pfaNext cl b.pfa i) then
    { b with pfa := s.pfaNext cl b.pfa (lfa % f) }
  else { b with pfa := 2 ^ 40 }
/-- R147: the ordinals that remain in a block at the slot of a map unit that does not fit there are filled with pad frames. -/
def State.padTail (s : State) (region cl : Nat) (b : Slot) : State :=
  let as := ((List.range (s.unitF region)).map fun i => s.pfaNext cl b.pfa i).filter (s.canPlace cl)
  if s.unitF region = 1 ∨ as.length = s.unitF region ∨ s.canPlace cl b.pfa = false then s
  else (s.bump Reg.TOP_PAD_FRAMES_CNT as.length).each as fun s a =>
    s.addPFrame { pfa := a, cclass := cl, region := region } b.planes { id := 0, cls := 2, deadline := s.effDeadline s.now 0 } false
/-- R147: the pad frames for every map unit of a write that does not fit at its slot. -/
def State.padUnits (s : State) (region cl : Nat) (slots : List Slot) (n : Nat) : State :=
  s.each ((List.range n).filter fun k => k % s.unitF region == 0) fun s k =>
    match slots[k]? with | some b => s.padTail region cl b | none => s
/-- R282, R283: the metadata of an accepted frame. -/
def dirtyMeta (d : Dirty) (m : Meta) : Meta :=
  { kind := kindUser, region := d.region, cclass := d.cclass, name := d.lfa, seq := d.seq, dcrc := m.dcrc,
    atomic := d.group.isSome, group := d.group.getD 0, gpos := d.gpos, glen := d.glen }
/-- An accepted frame joins the page set of its slot; a FUA frame forces it (R180). A frame whose slot cannot be
programmed is left for another (R36). -/
def State.placeDirty (s : State) (d : Dirty) (planes cls eclass deadline : Nat) : State :=
  if s.canPlace d.cclass d.pfa then
    let s := s.addPFrame { pfa := d.pfa, cclass := d.cclass, src := .dirty d.order d.pos, buf := some d.buf, region := d.region }
      planes { id := 0, cls := cls, eclass := eclass, deadline := deadline, tag := if d.fua then some d.tag else none,
               forceCold := d.cold } false
    s.when d.fua fun s => s.forceFrame d.pfa d.cclass false
  else
    (s.onQue fun q =>
      { q with
        dirty := q.dirty.map fun x =>
          if x.order == d.order && x.pos == d.pos then { x with lost := true, fua := false } else x }).when d.fua
      fun s => s.progDone d.tag d.pos stAbsent
/-- One frame of a write accepted: it is dirty, its map update is under way and its slot is assigned. -/
def State.acceptFrame (s : State) (c : Cmd) (d : Dirty) (slot : Slot) (kind : Nat) (onlyIf : Option Nat) : State :=
  let first := decide (d.lfa % s.unitF d.region = 0)
  let s := if first then s.nextSeq else s
  let base := if first then slot.pfa else
    match s.que.dirty.find? fun x => x.order == d.order && x.pos + d.lfa % s.unitF d.region == d.pos with
    | some x => x.pfa
    | none => slot.pfa
  let d := { d with pfa := slot.pfa, base := base, seq := s.mapSeqNo }
  let s := s.onQue fun q => { q with dirty := q.dirty ++ [d] }
  let s := s.wr Reg.PWR_QUOTA_DIRTY (s.rd Reg.PWR_QUOTA_DIRTY + 1)
  let s := s.onBuf d.buf fun b => { b with slot := dirtyMeta d b.slot }
  let s := s.when first fun s => s.onMap fun m =>
    { m with upds := m.upds ++
        [{ order := d.order, region := d.region, lfa := d.lfa, pos := d.pos, kind := kind, onlyIf := onlyIf,
           port := d.client,
           entry := mkEntry d.pfa d.cclass d.region d.seq, group := d.group, fua := if d.fua then some d.tag else none }] }
  let s := s.placeDirty d slot.planes c.pkt.cls c.pkt.eclass (s.effDeadline c.fetched c.pkt.deadline)
  s.energy (if d.fua then some c.tag else none) (if d.fua then s.nj Reg.BOX_EOP0_FRAME_WR 1 else 0)

/-! The end of writes (R37, R113, R125). -/

/-- A frame stops being dirty: its buffer and its place in the quota are free, and its group commits with its last
frame (R37, R125, R444). -/
def State.dirtyEnd (s : State) (d : Dirty) : State :=
  let s := s.onQue fun q => { q with dirty := q.dirty.filter fun x => !(x.order == d.order && x.pos == d.pos) }
  let s := (s.wr Reg.PWR_QUOTA_DIRTY (s.rd Reg.PWR_QUOTA_DIRTY - 1)).dropName d.buf 15
  let s := match d.group with
    | some g =>
      if s.que.dirty.any fun x => x.group == some g then s
      else (s.onQue fun q => { q with groups := q.groups.filter fun x => x.num != g }).unpinGroup g
    | none => s
  s.rangeSettle
/-- A page of a program pass that holds bytes of the frame at a PFA has been staged or sent already. -/
def State.pageSent (s : State) (o : Op) (a : Nat) : Bool :=
  match s.lunProf o.lun with
  | none => false
  | some p =>
    o.kind == .prog && o.st == .bus && !o.begun && pfaLun a == o.lun && pfaBlock a == o.block && bit o.planes (pfaPlane a) &&
      [pfaPage a, lastPage p o.cclass a].any fun pg =>
        wlGroup p o.pslc pg == o.group &&
          (((s.chan (lunCh o.lun)).staged.any fun (x : Staged) => x.op == o.id && x.plane == pfaPlane a && x.page == pg) ||
            !(o.plan.any fun l => l.kind == 3 && l.plane == pfaPlane a && l.page == pg))
/-- The program frame of an accepted frame becomes a pad frame, which counts (R180), unless a pass of it has begun. A pass
whose pages are on their way to the die sends them again (R133, R580). -/
def State.padPf (s : State) (src : FRef) : State :=
  let pads := s.top.pfs.filter fun f => f.src == src && !s.pfBegun f
  (s.bump Reg.TOP_PAD_FRAMES_CNT pads.length).onTop fun t =>
    { t with
      ops := t.ops.map fun o => if pads.any fun f => s.pageSent o f.pfa then { o with redo := true } else o
      pfs := t.pfs.map fun f => if f.src != src then f
        else if pads.contains f then { f with src := .pad, buf := none, enc := false }
        else { f with src := .gone, buf := none } }
/-- R36: a frame whose program failed keeps its place among the dirty frames and waits for another slot. -/
def State.dirtyLost (s : State) (order pos : Nat) : State :=
  s.onQue fun q =>
    { q with
      dirty := q.dirty.map fun x =>
        if x.order == order && x.pos == pos then { x with lost := true, fua := false } else x }
/-- R37: the buffer of a PFA-addressed frame that did not pass stays allocated: it returns to the submitter. A COPY's own
buffer has no submitter and is freed (DESIGN CHOICE, log entry 62). -/
def State.bufBack (s : State) (tag b : Nat) : State :=
  match s.cmd? tag with
  | some c => (if c.pkt.opcode = opCopy then s else s.addName b c.pkt.client).dropName b 15
  | none => s.dropName b 15
/-- The outcome of a program frame after its final pass or a failure. -/
def State.pfEnd (s : State) (f : PFrame) (st : Nat) : State :=
  match f.src with
  | .dirty order pos =>
    match s.que.dirty.find? fun d => d.order == order && d.pos == pos with
    | none => s
    | some d =>
      let s := s.when d.fua fun s => s.progDone d.tag pos st
      if st = stOK then s.dirtyEnd d else s.dirtyLost order pos
  | .cmd tag pos =>
    let s := match f.buf with
      | some b => if st = stOK then s.dropName b 15 else s.bufBack tag b
      | none => s
    s.progDone tag pos st
  | .map key _ => s.when (st != stOK) fun s => s.onWb key fun w => { w with bad := true }
  | .xor w k _ => s.onEcc fun e =>
      { e with
        xor := tset none e.xor (4 * w + k) ((tget none e.xor (4 * w + k)).map fun x =>
          { x with programming := false, arrived := [if st = stOK then 1000 else 1001] }) }
  | .pad => s
  | _ => s
/-- R36, R147, R158: policy firmware gives a frame without a slot another one: the choice is the firmware's, a free
value. A choice that cannot be programmed leaves the frame waiting. The dirty frames of a 16 KiB unit move together. The
entry moves with its sequence number, and only where it still names the old place. -/
def State.rePlace (s : State) (d : Dirty) : State :=
  let (n, s) := s.draw
  let f := s.unitF d.region
  let base := n % 2 ^ 40
  let unit := fun (x : Dirty) => x.order == d.order && x.lfa / f == d.lfa / f
  let at? := fun (x : Dirty) => s.pfaNext x.cclass base (x.lfa % f)
  let us := s.que.dirty.filter unit
  if us.all fun x => s.canPlace x.cclass (at? x) then
    let e := mkEntry base d.cclass d.region d.seq
    let mine := fun (u : Upd) => u.order == d.order && u.lfa / f == d.lfa / f && u.kind != 2
    let s := s.each us fun s x => s.padPf (.dirty x.order x.pos)
    let s := s.onQue fun q =>
      { q with
        dirty := q.dirty.map fun x => if unit x then { x with pfa := at? x, lost := false, redo := true } else x }
    let s := s.onMap fun m =>
      { m with
        replaced := m.replaced.map fun r =>
          if r.1 == d.tag && r.2.1 == d.region && r.2.2.1 / f == d.lfa / f then (r.1, r.2.1, r.2.2.1, r.2.2.2.1, base) else r
        upds := (m.upds.map fun u => if mine u then { u with entry := e } else u) ++
          (if m.upds.any mine then []
           else [{ order := d.order, region := d.region, lfa := d.lfa / f * f, pos := d.pos - d.lfa % f, kind := 2
                   port := d.client
                   onlyIf := some d.base, entry := e }]) }
    s.each (s.que.dirty.filter unit) fun s x =>
      (s.onQue fun q => { q with dirty := q.dirty.map fun y => if unit y then { y with base := base } else y }).placeDirty x
        0 2 0 (s.effDeadline s.now 0)
  else s

/-! FLUSH, TRIM, MAP_PIN and MAP_SYNC (R75, R81, R82, R120 to R122, R162, R164, R165). -/

/-- Pages that a TRIM still has to change, one after another: the entries of its range in the page become zero. -/
def State.trimPage (s : State) (c : Cmd) (key : PageKey) : State :=
  let r := c.pkt.region
  let f := s.unitF r
  let lo := max c.pkt.addr (key.page * 2048 * f)
  let hi := min (c.pkt.addr + c.pkt.length) ((key.page + 1) * 2048 * f)
  let ahead := (List.range ((hi - lo + f - 1) / f)).any fun i =>
    s.readAhead c.order r (lo + i * f) || s.writeAhead c.order r (lo + i * f)
  if s.map.halted || s.pageBroken key || ahead then s
  else match s.wantPage key { tag := c.tag, pos := key.page, order := c.order } with
    | (none, s) => s
    | (some k, s) =>
      if s.dirtyLimit k then s.setb Reg.MAP_STAT_LIMIT_HIT
      else
        let s := s.each (List.range ((hi - lo + f - 1) / f)) fun s i =>
          match s.slotWord k (s.leafIdx r (lo + i * f)) with
          | (some old, s) => (s.setEntry k (s.leafIdx r (lo + i * f)) 0 c.pkt.client).freePfa old
          | (none, s) => s
        s.onCmd c.tag fun c => { c with pages := c.pages.erase key, past := true }
/-- R113: a TRIM is pending until the cached map holds its change; then it completes. -/
def State.trimStep (s : State) (c : Cmd) : State :=
  let s := s.each c.pages fun s k => match s.cmd? c.tag with
    | some c => if c.pages.head? == some k then s.trimPage c k else s
    | none => s
  if (s.cmd c.tag).pages.isEmpty then ((s.rangeGone c.tag).onCmd c.tag fun c =>
    { c with count := c.pkt.length }).finish c.tag stOK 0 else s
/-- R81: a MAP_PIN that cannot go on releases the pins it made and completes with a status. -/
def State.pinFail (s : State) (c : Cmd) (st d : Nat) : State :=
  (s.each c.waits fun s k => s.onMslot k fun m => { m with pin := false }).finish c.tag st d
/-- R58: the position within a command of the first of its frames that a leaf page covers. -/
def State.pagePos (s : State) (c : Cmd) (key : PageKey) : Nat := key.page * 2048 * s.unitF c.pkt.region - c.pkt.addr
/-- R81, R153, R164: a MAP_PIN loads and pins its pages one after another. The quota and the set rule hold at each pin: other
pins may have been made since the command's check. -/
def State.pinStep (s : State) (c : Cmd) : State :=
  s.each c.pages fun s key =>
    match s.cmd? c.tag with
    | none => s
    | some c =>
      if c.stage != .running || c.pages.head? != some key then s
      else if s.pageBroken key then
        match s.absentFor key with
        | some l => s.pinFail c stAbsent (detailFrame stAbsent (s.pagePos c key) l false false)
        | none => s.pinFail c stUncorrectable (detailFrame stUncorrectable (s.pagePos c key) 0 false false)
      else match s.pinRefused c.pages with
      | some n => s.pinFail c stQuota (2 + n * 2 ^ 8)
      | none => match s.wantPage key { tag := c.tag, pos := key.page, order := c.order } with
        | (none, s) => s
        | (some k, s) =>
          let had := match s.mslot k with | some m => m.pin | none => false
          let s := s.onMslot k fun m => { m with pin := true }
          let s := s.onCmd c.tag fun c =>
            { c with pages := c.pages.erase key, waits := if had then c.waits else c.waits ++ [k] }
          if (s.cmd c.tag).pages.isEmpty then
            (s.onCmd c.tag fun c => { c with count := c.pkt.length }).finish c.tag stOK 0
          else s
/-- The dirty resident pages of a level that a test names. -/
def State.dirtyPages (s : State) (level : Nat) (f : PageKey → Bool) : List PageKey :=
  (s.resident.filter fun e => e.2.dirty && e.2.key.level.val == level && f e.2.key).map fun e => e.2.key
/-- Pages that are no longer dirty are waited for no more (R121). -/
def State.stillDirty (s : State) (l : List PageKey) : List PageKey :=
  l.filter fun k => k.level == 2 || s.map.broken.contains k ||
    match s.mapFind k with
    | some i => match s.mslot i with | some m => m.dirty | none => false
    | none => false
/-- R162: the stages of a sync of everything: leaves, directories, root table, checkpoint. -/
def State.syncAll (s : State) (c : Cmd) (leaves : List PageKey) : State :=
  if c.phase = 0 then s.onCmd c.tag fun c => { c with pages := leaves, phase := 1 }
  else if !(s.stillDirty c.pages).isEmpty then s.onCmd c.tag fun c => { c with pages := s.stillDirty c.pages }
  else if c.phase = 1 then s.onCmd c.tag fun c => { c with pages := s.dirtyPages 1 fun _ => true, phase := 2 }
  else if c.phase = 2 then
    s.onCmd c.tag fun c =>
      { c with pages := [{ level := 2, region := 0, page := 0 }, { level := 2, region := 0, page := 1 }], phase := 3 }
  else if c.phase = 3 then s.onCmd c.tag fun c => { c with phase := 4 }
  else s
/-- R120, R121: a FLUSH: covered writes, then map pages. -/
def State.flushStep (s : State) (c : Cmd) : State :=
  let ws := c.waits.filter fun o => s.que.ranges.any fun r => r.order == o
  let s := s.onCmd c.tag fun c => { c with waits := ws }
  if !ws.isEmpty then s
  else if !c.pkt.flag 3 then s.finish c.tag stOK 0
  else if c.pkt.flag 2 then
    if c.phase == 0 && s.map.upds.any fun u => decide (u.order < c.order) then s
    else
      let s := times (fun s => s.syncAll (s.cmd c.tag) (s.dirtyPages 0 fun _ => true)) 3 s
      if (s.cmd c.tag).phase = 5 then s.finish c.tag stOK 0 else s
  else
    if c.phase == 0 && s.map.upds.any fun u => u.port == c.pkt.client && decide (u.order < c.order) then s
    else
      let s := s.when (c.phase == 0) fun s => s.onCmd c.tag fun c =>
        { c with
          pages := (s.resident.filter fun e => e.2.dirty && e.2.key.level == 0 && bit e.2.ports c.pkt.client).map
            fun e => e.2.key
          phase := 1 }
      let l := s.stillDirty (s.cmd c.tag).pages
      let s := s.onCmd c.tag fun c => { c with pages := l }
      if l.isEmpty then s.finish c.tag stOK 0 else s
/-- R82: a page of a MAP_SYNC has been programmed, and the directory page that must name it cannot be read because its LUN is
ABSENT: the page and the LUN. -/
def State.syncAbsent (s : State) (c : Cmd) : Option (PageKey × Nat) :=
  (s.map.wbs.filter fun w => w.fin && w.key.level == 0 && c.pages.contains w.key).findSome? fun w =>
    (s.map.absent.find? fun x => x.1 == dirKey w.key).map fun x => (w.key, x.2)
/-- R82, R165: a MAP_SYNC. -/
def State.syncStep (s : State) (c : Cmd) : State :=
  match s.syncAbsent c with
  | some (key, l) => s.finish c.tag stAbsent (detailFrame stAbsent (if c.pkt.length = 0 then 0 else s.pagePos c key) l false false)
  | none =>
  if c.pkt.length = 0 then
    let s := times (fun s => s.syncAll (s.cmd c.tag) (s.dirtyPages 0 fun _ => true)) 3 s
    if (s.cmd c.tag).phase = 5 then s.finish c.tag stOK 0 else s
  else
    let l := s.stillDirty c.pages
    let s := s.onCmd c.tag fun c => { c with pages := l }
    if l.isEmpty then (s.onCmd c.tag fun c => { c with count := c.pkt.length }).finish c.tag stOK 0 else s
/-- R439: the flush of a DORMANT entry, once the complex is quiescent (`accepted`): every write, then every map page. -/
def State.dormStep (s : State) (c : Cmd) : State :=
  if !c.accepted || !s.que.ranges.isEmpty || !s.que.dirty.isEmpty || !s.map.upds.isEmpty then s
  else if !s.is Reg.MAP_CTL_ENABLE then
    s.when (decide (c.phase < 5)) fun s => s.onCmd c.tag fun c => { c with phase := 5 }
  else times (fun s => s.syncAll (s.cmd c.tag) (s.dirtyPages 0 fun _ => true)) 3 s

end Sys2Proof.Machine
end

