-- ==== Sys2Proof/Machine/Settle.lean ====
section
/-!
DEFINITION. The pass that lets waiting work go on once something it waited for has come: decoded frames that get their
buffers, frames that waited for a map page or an earlier write, map updates, frames that need another slot, the delivery
of reads, the acceptance of copies, and commands that wait for pages or writes.
-/
namespace Sys2Proof.Machine

/-! The hand-over of decoded frames (R66, R68, R285). -/

/-- A frame's outcome and its depth, when its read has ended (R55, R58). -/
def State.frameOut (s : State) (tag pos st step : Nat) : State :=
  s.onFrame tag pos fun f => { f with st := .ready, out := st, retry := max f.retry step }

/-- The read of a frame has ended with an outcome: its frame goes to its buffer, or the outcome to its command. A frame
whose buffer is not granted yet waits. Raw codewords wait for their turn. -/
def State.handOver (s : State) (f : Flight) : State :=
  match f.out with
  | none => s
  | some st =>
    if f.dropped then s.delFlight f.id
    else match f.ref with
      | .cmd tag pos =>
        match s.cmd? tag, s.frame? tag pos with
        | some c, some fr =>
          if c.pkt.opcode == opReadRaw then s
          else if severity stRebuilt < severity st then (s.frameOut tag pos st f.step).delFlight f.id
          else match fr.buf with
            | some b => (((s.energy (some tag) (s.pjB Reg.BOX_EBYTE0_STORE 4128)).bufFrame b f.bytes).frameOut tag pos st
              f.step).delFlight f.id
            | none => s
        | _, _ => s.delFlight f.id
      | .map key q =>
        (s.onMiss key fun (m : Miss) =>
          if severity stRebuilt < severity st then
            { m with bad := true, absent := if st = stAbsent then some (pfaLun f.pfa) else m.absent }
          else { m with parts := m.parts ++ [(q, frameUser f.bytes)] }).delFlight f.id
      | .xor _ _ _ => s
      | .calib n =>
        ((if st = stAbsent then s.onCal n fun r => { r with gone := true } else s.calScore n 65536)).delFlight f.id
      | .patrol lun => (s.patrolFrame lun st f.step).delFlight f.id
      | _ => s.delFlight f.id

/-! READ_RAW (R68). -/

/-- The flight of a frame of a command. -/
def State.flightOf (s : State) (tag pos : Nat) : Option Flight :=
  s.ecc.flights.find? fun f => f.ref == .cmd tag pos && !f.dropped

/-- The next codeword of a READ_RAW in its turn. It is written to the Hedgerow and read from it on its way to the port
(R22): the spec names no buffer for it, and no address holds it (log entry 62). -/
def State.rawNext (s : State) (tag : Nat) : State :=
  match s.cmd? tag with
  | none => s
  | some c =>
    if c.stage != .running then s
    else match c.frames.find? fun f => f.st != .done with
      | none => s.endRead tag
      | some fr =>
        if fr.out = stByReset then (if s.readsRun tag then s else (s.releaseFrame c fr).endRead tag)
        else match (if s.dark c.pkt.client then none else s.flightOf tag fr.pos) with
        | none => s
        | some f =>
          match f.out with
          | none => s
          | some st =>
            let s := (s.onFrame tag fr.pos fun x => { x with out := st, st := .done }).delFlight f.id
            if st = stOK then
              ((s.energy (some tag) (s.pjB Reg.BOX_EBYTE0_STORE f.bytes.length)).stream c (if c.pkt.flag 2 then scramble fr.pfa (f.bytes.take 4128) ++ f.bytes.drop 4128 else f.bytes)).onCmd
                tag fun c => { c with count := c.count + 1 }
            else s.endRead tag

/-! COPY (R74, R163). -/

/-- The frames of a COPY behind a position are dropped: their reads end and their buffers are freed. -/
def State.copyStop (s : State) (c : Cmd) (k : Nat) : State :=
  let s := s.each (c.frames.filter fun f => decide (k < f.pos) && f.st != .done) fun s f => s.releaseFrame c f
  s.onCmd c.tag fun c => { c with frames := c.frames.filter fun f => decide (f.pos ≤ k) }

/-- A COPY whose destination frames are all programmed or failed completes, and its LUN lease ends (R74, R193). -/
def State.copyEnd (s : State) (tag : Nat) : State :=
  let c := s.cmd tag
  if c.stage == .running && c.frames.all fun f => f.st == .done then
    let (w, p) := worst (c.frames.map fun f => (f.out, f.pos))
    let lun := match c.frames.find? fun f => f.pos == p with | some f => pfaLun f.pfa | none => 0
    let det := match c.frames.find? fun f => f.pos == p with | some f => f.detail | none => 0
    ((s.rangeGone tag).dropLeaseTag tag).finish tag w (if w = stInternal then det
      else detailFrame w p lun (c.frames.any fun f => f.unmapped) (c.frames.any fun f => f.fwd))
  else s

/-- The source frame of a COPY is put into its transit buffer where no die read did it: whether it may be used. -/
def State.copyFill (s : State) (f : Frame) (b : Nat) : Bool × State :=
  if f.unmapped then (true, s.bufZero b)
  else match f.held with
    | some i => let (ok, s) := s.copyBuf i b; (ok, s.dropHold i)
    | none => (true, s)

/-- The passes and page total that price a frame at a PFA (R429). -/
def State.placePj (s : State) (c a : Nat) : Nat :=
  match s.lunProf (pfaLun a) with
  | some p => s.acceptPj c (prPasses p) (prTotal p)
  | none => s.acceptPj c 1 0

/-- A frame of a PFA-addressed program or COPY takes its place (R70, R136, R180). -/
def State.placePfa (s : State) (c : Cmd) (pos b cls a : Nat) (fua : Bool) : State :=
  if s.canProgram cls a then
    let s := s.addPFrame { pfa := a, cclass := cls, src := .cmd c.tag pos, buf := some b } 0
      { id := 0, cls := c.pkt.cls, eclass := c.pkt.eclass, deadline := s.effDeadline c.fetched c.pkt.deadline
        tag := some c.tag, forceCold := c.pkt.opcode == opProgram && c.pkt.flag 3 } false
    let s := s.energy (some c.tag) (s.nj Reg.BOX_EOP0_FRAME_WR 1)
    s.when fua fun s => s.forceFrame a cls false
  else (s.dropName b 15).progDone c.tag pos stAbsent

/-- One frame of a COPY accepted at its destination. -/
def State.copyPlace (s : State) (c : Cmd) (f : Frame) (b : Nat) : State :=
  let s := s.takeOver b (frameReq c f.pfa) false
  let fua := c.pkt.flag 2
  let s := s.onCmd c.tag fun c => { c with phase := c.phase + 1, past := c.past || !c.pkt.cpPfa }
  if c.pkt.cpPfa then
    let to? := s.pfaNext c.pkt.cpClass c.pkt.cpAddr f.pos
    let s := s.onFrame c.tag f.pos fun x => { x with st := .onDie, buf := none, held := none, pfa := to? }
    s.placePfa c f.pos b c.pkt.cpClass to? fua
  else
    let cl := (s.lrgn c.pkt.cpRegion).cclass
    let slot := s.slotFor c.pkt.cpRegion cl c.slots (c.pkt.cpAddr + f.pos) f.pos
    let s := s.onFrame c.tag f.pos fun x =>
      { x with st := if fua then .onDie else .done, buf := none, held := none, pfa := if fua then slot.pfa else x.pfa }
    let s := s.when (!fua) fun s => s.onCmd c.tag fun c => { c with count := c.count + 1 }
    let s := s.acceptFrame c
      { order := c.order, pos := f.pos, region := c.pkt.cpRegion, lfa := c.pkt.cpAddr + f.pos, cclass := cl
        pfa := slot.pfa, seq := 0, buf := b, tag := c.tag, client := c.pkt.client, fua := fua }
      slot (if c.pkt.isPfa then 1 else 0) (if c.pkt.isPfa then some f.pfa else none)
    s.when (!fua) fun s => s.energy (some c.tag) (s.placePj cl slot.pfa)

/-- The frames of a COPY that are accepted in one step: one, or those of a map unit of the destination (R147, R148). -/
def State.copyUnit (s : State) (c : Cmd) : List Frame :=
  let n := if c.pkt.cpPfa then 1 else s.unitF c.pkt.cpRegion
  c.frames.filter fun f => decide (c.phase ≤ f.pos) && decide (f.pos < c.phase + n)
/-- A source frame of a COPY ends it with an outcome: what this frame and the ones accepted with it hold is given back. -/
def State.copyFail (s : State) (c : Cmd) (us : List Frame) (f : Frame) (st : Nat) : State :=
  let s := s.each (us.filter fun x => decide (x.pos ≤ f.pos)) fun s x =>
    match s.frame? c.tag x.pos with | some y => s.releaseFrame c y | none => s
  ((s.onFrame c.tag f.pos fun x => { x with out := st }).copyStop c f.pos).copyEnd c.tag
/-- The transit buffers of frames are filled where no die read did it: the first frame that fails its check. -/
def State.copyFills (s : State) (tag : Nat) : List Frame → Option Frame × State
  | [] => (none, s)
  | f :: l =>
    let (ok, s) := s.copyFill f (f.buf.getD 0)
    let s := s.onFrame tag f.pos fun x => { x with held := none }
    if ok then s.copyFills tag l else (some f, s)
/-- The next source frames of a COPY in their turn: accepted, or the end of the copy. -/
def State.copyNext (s : State) (tag : Nat) : State :=
  match s.cmd? tag with
  | none => s
  | some c =>
    if c.stage != .running then s
    else
      let us := s.copyUnit c
      match us with
      | [] => s.copyEnd tag
      | f0 :: _ =>
        if f0.st == .done then s.copyEnd tag
        else match us.find? fun f => !frameReady c f || severity stRebuilt < severity f.out with
        | some f =>
          if !frameReady c f || (f.out == stByReset && s.readsRun tag) then s else s.copyFail c us f f.out
        | none =>
          match s.copyFills tag us with
          | (some f, s) => s.copyFail c us f stCrc
          | (none, s) =>
            if !c.pkt.cpPfa && decide (s.dirtyQuota < s.rd Reg.PWR_QUOTA_DIRTY + us.length) then
              let n := s.rd Reg.PWR_QUOTA_DIRTY + (c.pkt.length - c.phase)
              let s := s.each us fun s x => match s.frame? tag x.pos with | some y => s.releaseFrame c y | none => s
              ((((s.copyStop c (c.phase + us.length - 1)).rangeGone tag).dropLeaseTag tag).finish tag stQuota (1 + n * 2 ^ 8))
            else
              let s := s.when (!c.pkt.cpPfa) fun s =>
                s.padUnits c.pkt.cpRegion (s.lrgn c.pkt.cpRegion).cclass ((c.slots.drop c.phase).take us.length) us.length
              s.each us fun s f => match s.frame? tag f.pos with
                | some x => s.copyPlace c x (x.buf.getD 0)
                | none => s

/-! One pass. -/

/-- A frame that waits for a map page or an earlier write is tried again. -/
def frameWaits (f : Frame) : Bool := f.st == .waitMap || f.st == .waitWrite || f.st == .idle

/-- The command goes on as far as it can. -/
def State.workOn (s : State) (tag : Nat) : State :=
  match s.cmd? tag with
  | none => s
  | some c =>
    if c.stage != .running then s
    else
      let o := c.pkt.opcode
      if o = opRead then s.deliverAll tag
      else if o = opReadRaw then times (fun s => s.rawNext tag) (c.frames.length + 1) s
      else if o = opCopy then times (fun s => s.copyNext tag) (c.frames.length + 1) s
      else if o = opTrim then s.trimStep c
      else if o = opPin then s.pinStep c
      else if o = opFlush then s.flushStep c
      else if o = opSync then s.syncStep c
      else if o = opPower then s.dormStep c
      else s

/-- The frames of the reading commands that wait are tried again, in entry order; a relocation waits for its lease
first (R193). -/
def State.startFrames (s : State) : State :=
  s.each (s.que.cmds.filter fun c => c.stage == .running && [opRead, opCopy].contains c.pkt.opcode && c.waits.isEmpty) fun s c =>
    s.each (c.frames.filter frameWaits) fun s f => s.startFrame c.tag f.pos

/-- Frames whose update was dropped are dirty no longer; their places are padded (R163, R580). -/
def State.dropStale (s : State) : State :=
  s.each (s.que.dirty.filter fun d => d.stale) fun s d =>
    let s := s.when d.fua fun s => s.progDone d.tag d.pos stOK
    (s.padPf (.dirty d.order d.pos)).dirtyEnd d

/-- One pass over everything that waits. -/
def State.settleOnce (s : State) : State :=
  let s := s.mapRetry
  let s := s.each s.ecc.flights fun s f => s.handOver f
  let s := (s.startFrames.tryUpds).dropStale
  let s := s.each (s.que.cmds.filter fun c => c.stage == .running) fun s c => s.workOn c.tag
  s.rangeSettle.retireStep.measureStep

/-- The units of frames that need another slot get one, once. -/
def State.replaceLost (s : State) : State :=
  s.each (s.que.dirty.filter fun d => d.lost) fun s d =>
    match s.que.dirty.find? fun x => x.order == d.order && x.pos == d.pos && x.lost with
    | some x => if s.pwr.hold == 0 then s.rePlace x else s
    | none => s

/-- Everything that waits goes on as far as it can: what one pass frees, the next ones may use; then the records that a
complex flush ends with. -/
def State.settle (s : State) : State := (times State.settleOnce 3 s.replaceLost).ckptStep.dormantStep

end Sys2Proof.Machine
end

