-- ==== Sys2Proof/Machine/Dma.lean ====
section
/-!
DEFINITION. The DMA channels (R80, R393 to R408): descriptors, transfers and their data, pacing, and the DMA completion
queues. The data of a transfer moves in the command that ends it.
-/
namespace Sys2Proof.Machine

/-- DMA channel n. -/
def State.dmaCh (s : State) (n : Nat) : DmaCh := tget {} s.dma.chs n
/-- DMA channel n changed. -/
def State.onDmaCh (s : State) (n : Nat) (f : DmaCh → DmaCh) : State :=
  s.onDma fun d => { d with chs := tset {} d.chs n (f (s.dmaCh n)) }
/-- The DCQ of wing w. -/
def State.dcq (s : State) (w : Nat) : Dcq := tget {} s.dma.dcqs w
/-- The DCQ of wing w changed. -/
def State.onDcq (s : State) (w : Nat) (f : Dcq → Dcq) : State :=
  s.onDma fun d => { d with dcqs := tset {} d.dcqs w (f (s.dcq w)) }

/-! Descriptors (R80, R393 to R396). -/

/-- A channel without a transfer or a descriptor (R395). -/
def DmaCh.idle (c : DmaCh) : Bool := c.act.isNone && c.shadow.isNone && c.queue.isEmpty
/-- The descriptors of a channel that have not ended. -/
def DmaCh.load (c : DmaCh) : Nat := b2n c.act.isSome + b2n c.shadow.isSome + c.queue.length
/-- R395: the idle channels of a wing. -/
def State.idleDma (s : State) (w : Nat) : List Nat :=
  ((List.range 8).map (8 * w + ·)).filter fun n => (s.dmaCh n).idle
/-- R27, R395: the wing of a transfer. -/
def State.dmaWing (s : State) (p : Pkt) : Nat :=
  let port := bits p.mid 64 4
  let toPort := bits p.flags 2 2 == 3
  if toPort && (port == 1 || port == 2) then port - 1
  else if !toPort && (p.client == 1 || p.client == 2) then p.client - 1
  else if (s.idleDma 0).length < (s.idleDma 1).length then 1 else 0
/-- R80, R395: the channel of a transfer. -/
def State.dmaChoose (s : State) (p : Pkt) : Nat :=
  if p.param < 16 then p.param
  else
    let w := s.dmaWing p
    match (s.idleDma w).head? with
    | some n => n
    | none => (least (fun n => (s.dmaCh n).load) ((List.range 8).map (8 * w + ·))).getD (8 * w)
/-- The descriptor of a DMA_MOVE (R80). -/
def descOf (c : Cmd) : Xfer where
  tag := c.tag
  src := c.pkt.addr
  srcK := bits c.pkt.flags 0 2
  dst := bits c.pkt.mid 0 64
  dstK := bits c.pkt.flags 2 2
  hlist := c.pkt.hlist
  len8 := c.pkt.length / 8
  pace := c.pkt.flag 4
  append := c.pkt.flag 5
  port := bits c.pkt.mid 64 4
  client := c.pkt.client
/-- R393, R396: a descriptor joins its channel's queue, or its SQ waits until an entry frees. -/
def State.dmaQueue (s : State) (tag : Nat) : State :=
  match s.cmd? tag with
  | none => s
  | some c =>
    let n := c.phase
    let was := (s.dmaCh n).queue.length
    let s := s.onQue fun q => { q with heldSq := q.heldSq.filter fun h => h.2 != tag }
    if 8 ≤ was then s.onQue fun q => { q with heldSq := q.heldSq ++ [(c.pair, tag)] }
    else
      ((s.onDmaCh n fun d => { d with queue := d.queue ++ [descOf c] }).levelEvent (Reg.DMA_LEVEL_LEVEL n)
        (Reg.DMA_STAT_EVT_HIT n) 8 was (was + 1))
/-- The descriptors that wait for a queue entry of a channel. -/
def State.dmaRetry (s : State) (n : Nat) : State :=
  s.each (s.que.heldSq.filter fun h => match s.cmd? h.2 with
    | some c => c.pkt.opcode == opDma && c.phase == n
    | none => false) fun s h => s.dmaQueue h.2
/-- R80: a DMA_MOVE: the handles of its list are checked, and its descriptor goes to its channel. -/
def State.doDma (s : State) (c : Cmd) : State :=
  let (bad, hs, s) := if c.pkt.listed then
      (match s.handleList c.pkt with
       | (some a, _, s) => (some (stInternal, detailStore a), [], s)
       | (none, hs, s) =>
         match s.handlesBad c.pkt.client hs with
         | some x => (some (x.2.1, badHandle x), hs, s)
         | none => (none, hs, s))
    else (none, [], s)
  match bad with
  | some (st, d) => s.finish c.tag st d
  | none =>
    let n := s.dmaChoose c.pkt
    (s.onCmd c.tag fun c => { c with stage := .running, handles := hs, phase := n }).dmaQueue c.tag

/-- R80: a DMA_MOVE packet. -/
def execDmaMove (tag : Tag) (s : State) : Out :=
  .next (match s.ready? tag.val opDma with
    | some c => s.doDma c
    | none => s)

/-- R394: the descriptor at the head of the queue moves to the empty shadow set. -/
def execDmaShadowLoad (n : Fin 16) (s : State) : Out :=
  .next (match (s.dmaCh n.val).shadow, (s.dmaCh n.val).queue with
    | none, x :: r => (s.onDmaCh n.val fun d => { d with shadow := some x, queue := r }).dmaRetry n.val
    | _, _ => s)

/-! Pacing (R402, R403). -/

/-- R403: the level of a channel's pace queue as the complex sees it. -/
def State.paceLevel (s : State) (n : Nat) : Nat :=
  let k := s.rd (Reg.DMA_PACE_QSEL n)
  if s.dark (k / 4) || (tget none s.que.att (k / 4)).isNone then 0 else tget 0 s.dma.levels k
/-- R409: HIGH; a value at or below LOW acts as LOW + 1. -/
def State.paceHigh (s : State) (n : Nat) : Nat := max (s.rd (Reg.DMA_PACE_HIGH n)) (s.rd (Reg.DMA_PACE_LOW n) + 1)
/-- R402: the active transfer of a channel pauses or resumes at the present level. -/
def State.repace (s : State) (n : Nat) : State :=
  match (s.dmaCh n).act with
  | none => s
  | some x =>
    if !x.pace then s
    else
      let l := s.paceLevel n
      let p := if x.paused then decide (l < s.paceHigh n) else decide (l ≤ s.rd (Reg.DMA_PACE_LOW n))
      s.onDmaCh n fun d => { d with act := some { x with paused := p, everPaused := x.everPaused || p } }

/-- R402: a port reports the level of a pace queue. -/
def execPaceLevelReport (port : Fin 4) (q : Fin 4) (level : BitVec 12) (s : State) : Out :=
  .next (s.onDma (fun d => { d with levels := tset 0 d.levels (4 * port.val + q.val) level.toNat }) |>.each (List.range 16)
    fun s n => s.repace n)

/-! Transfers (R394, R397 to R401, R404). -/

/-- Entries of a wing's DCQ. -/
def State.dcqSize (s : State) (w : Nat) : Nat := 2 ^ s.rd (Reg.DMA_W_DCQ_CFG_SIZE w)
/-- Unconsumed records of a DCQ. -/
def State.dcqFill (s : State) (w : Nat) : Nat :=
  (s.rd (Reg.DMA_W_DCQ_PTR_TAIL w) + s.dcqSize w - s.rd (Reg.DMA_W_DCQ_PTR_HEAD w)) % s.dcqSize w
/-- R406: new transfers of a wing claim an entry. -/
def State.dcqOn (s : State) (w : Nat) : Bool := s.is (Reg.DMA_W_DCQ_CFG_ENABLE w) && !(s.dcq w).closing
/-- R394, R402, R404: the shadow transfer of a channel becomes active, or waits for a DCQ entry. -/
def State.dmaStart (s : State) (n : Nat) : State :=
  match (s.dmaCh n).act, (s.dmaCh n).shadow with
  | none, some x =>
    let w := n / 8
    if s.dcqOn w && decide (s.dcqSize w ≤ s.dcqFill w + (s.dcq w).claims + 1) then s.setb (Reg.DMA_STAT_WAIT_DCQ n)
    else
      let on := s.dcqOn w
      let s := s.when on fun s => s.onDcq w fun d => { d with claims := d.claims + 1 }
      let p := x.pace && decide (s.paceLevel n < s.paceHigh n)
      let s := (s.wr (Reg.DMA_STAT_WAIT_DCQ n) 0).wr (Reg.DMA_CRC_CRC n) 0
      s.onDmaCh n fun d => { d with act := some { x with claimed := on, paused := p, everPaused := p }, shadow := none }
  | _, _ => s

/-- R394: the shadow transfer becomes active. -/
def execDmaTransferStart (n : Fin 16) (s : State) : Out :=
  .next (s.dmaStart n.val)

/-- The bytes moved, why a transfer stopped early, and the state. -/
structure Moving where
  data : List Byte := []
  stop : Option (Nat × Nat) := none
  st : State

/-- R399: the check of a list's buffer before its first beat: the status of a failure. -/
def State.listCheck (s : State) (h client : Nat) : Nat :=
  if s.handleBad h then stBadHandle
  else if !(s.buf (hdIndex h)).owners.contains client then stOwner
  else 0
/-- R407: DETAIL of a refused store access. -/
def detailRefused (a : Nat) : Nat := 0x06 + bits a 4 21 * 2 ^ 8
/-- The source bytes of k bytes of a transfer from offset o: how many can be moved, their bytes, and why it stops. -/
def State.dmaSource (s : State) (x : Xfer) (hs : List Nat) (dram : List Byte) (o k : Nat) :
    List Byte × Option (Nat × Nat) × State :=
  if x.srcK = 3 then (((List.range k).map fun i => BitVec.ofNat 8 (x.src >>> (8 * ((o + i) % 8)))), none, s)
  else if x.srcK = 1 then (fit k (dram.drop o), none, s)
  else
    let h := hs.getD (o / 4096) 0
    let a := if x.srcK = 0 then x.src + o else hdIndex h * 4096 + o % 4096
    let st := if x.srcK = 2 then s.listCheck h x.client else 0
    if st ≠ 0 then ([], some (st, detailHandle (o / 4096) (hdIndex h)), s)
    else
      let (r, s) := s.hRead a k
      if r.refused then ([], some (stInternal, detailRefused a), s)
      else match r.unc with
        | some u => (r.data.take ((u - a) / 64 * 64), some (stInternal, detailStore u), s)
        | none => (r.data, none, s)
/-- Bytes of a transfer written at offset o of its destination. -/
def State.dmaDest (s : State) (x : Xfer) (hs : List Nat) (o : Nat) (d : List Byte) : Option (Nat × Nat) × State :=
  if x.dstK = 3 then (none, s.deliver x.port d)
  else if x.dstK = 1 then (none, s.dramWrite (x.dst + o) d)
  else
    let h := hs.getD (o / 4096) 0
    let a := if x.dstK = 0 then x.dst + o else hdIndex h * 4096 + o % 4096
    let st := if x.dstK = 2 then s.listCheck h x.client else 0
    if st ≠ 0 then (some (st, detailHandle (o / 4096) (hdIndex h)), s)
    else if s.hRefused a then (some (stInternal, detailRefused a), s.hWrite a d)
    else (none, s.hWrite a d)
/-- The parts in which a transfer of n bytes moves: beats of 64 bytes, which no buffer of a list splits. -/
def dmaParts (n : Nat) : List (Nat × Nat) :=
  (List.range ((n + 63) / 64)).map fun i => (64 * i, min 64 (n - 64 * i))
/-- Parts cut where a run of store bytes from an address leaves its region (R360). -/
def cutParts (base : Nat) (l : List (Nat × Nat)) : List (Nat × Nat) :=
  l.flatMap fun p =>
    let room := 0x100000 - (base + p.1) % 0x100000
    if p.2 ≤ room then [p] else [(p.1, room), (p.1 + room, p.2 - room)]
/-- The parts of n bytes of a transfer. -/
def Xfer.parts (x : Xfer) (n : Nat) : List (Nat × Nat) :=
  let l := if x.srcK = 0 then cutParts x.src (dmaParts n) else dmaParts n
  if x.dstK = 0 then cutParts x.dst l else l
/-- R397 to R401: n bytes moved, part after part, until one stops. -/
def State.dmaMove (s : State) (x : Xfer) (hs : List Nat) (dram : List Byte) (n : Nat) : Moving :=
  (x.parts n).foldl (fun (m : Moving) p =>
    if m.stop.isSome then m
    else
      let (d, stop, s) := m.st.dmaSource x hs dram p.1 p.2
      if stop.isSome then { m with stop := stop, st := s }
      else
        let (stop, s) := s.dmaDest x hs p.1 d
        { data := if stop.isSome then m.data else m.data ++ d, stop := stop, st := s }) { st := s }
/-- The store address of byte o of a transfer's destination, if it lies in the store. -/
def dmaAddr (x : Xfer) (hs : List Nat) (o : Nat) : Option Nat :=
  if x.dstK = 0 then some (x.dst + o)
  else if x.dstK = 2 then some (hdIndex (hs.getD (o / 4096) 0) * 4096 + o % 4096)
  else none
/-- R398, R283: the DCRC of a pool buffer that a transfer wrote from byte 0 to byte 4,095, or the mark of one that it
wrote in part. `o` is the transfer offset at which the buffer is first touched. -/
def State.dmaSlot (s : State) (x : Xfer) (hs : List Nat) (d : List Byte) (o : Nat) : State :=
  match dmaAddr x hs o with
  | none => s
  | some a =>
    if !s.inPool (a / 4096) then s
    else if a % 4096 = 0 ∧ o + 4096 ≤ d.length then
      s.onBuf (a / 4096) fun b =>
        { b with slot := { b.slot with dcrc := crc32c ((d.drop o).take 4096) }, dcrcV := true }
    else s.onBuf (a / 4096) fun b => { b with dcrcV := false }
/-- The offsets at which n bytes of a transfer first touch a buffer. -/
def bufStarts (x : Xfer) (n : Nat) : List Nat :=
  (List.range (n / 8)).filterMap fun i =>
    if i = 0 ∨ (x.dstK = 0 ∧ (x.dst + 8 * i) % 4096 = 0) ∨ (x.dstK = 2 ∧ 8 * i % 4096 = 0) then some (8 * i) else none
/-- R428: the energy of n bytes of a transfer. -/
def State.dmaPj (s : State) (x : Xfer) (n : Nat) : Nat :=
  (if x.srcK = 0 ∨ x.srcK = 2 then s.pjB Reg.BOX_EBYTE0_STORE n else if x.srcK = 1 then s.pjB Reg.BOX_EBYTE0_DRAM n else 0) +
    (if x.dstK = 3 then s.pjB Reg.BOX_EBYTE0_PORT n + s.pjB Reg.BOX_EBYTE1_STATIC n
     else if x.dstK = 1 then s.pjB Reg.BOX_EBYTE0_DRAM n else s.pjB Reg.BOX_EBYTE0_STORE n)
/-- R399: a buffer of the transfer's lists has 15 holds. -/
def State.dmaHoldWait (s : State) (x : Xfer) (hs : List Nat) : Bool :=
  (x.srcK == 2 || x.dstK == 2) && hs.any fun h => decide (15 ≤ (s.buf (hdIndex h)).holds)
/-- R401, R405, R407: the active transfer of a channel ends with its data, its CRC and its status: the one its command
is removed with, or its own. -/
def State.dmaEnd (s : State) (n : Nat) (x : Xfer) (r : DmaEnd) (removed : Option Nat) : State :=
  let hs := (s.cmd x.tag).handles
  let len := 8 * x.len8
  let m := s.dmaMove x hs r.dram (if removed.isSome || r.dramErr then min len (8 * r.moved) else len)
  let stop := match removed with
    | some st => some (st, 0)
    | none => if m.stop.isNone && r.dramErr then some (stInternal, 5) else m.stop
  let crc := crc32c m.data
  let app := x.append && stop.isNone
  let word := leBytes 4 crc ++ leBytes 4 x.len8
  let s := if app then (m.st.dmaDest x hs len word).2 else m.st
  let all := if app then m.data ++ word else m.data
  let s := s.each (bufStarts x all.length) fun s o => s.dmaSlot x hs all o
  let s := s.energy (some x.tag) (s.dmaPj x m.data.length)
  let s := s.when (x.dstK == 3) (·.userBytes x.port m.data.length)
  let st := match stop with | some (st, _) => st | none => stOK
  let s := ((s.wr (Reg.DMA_CRC_CRC n) crc).wr (Reg.DMA_STAT_HOLD_WAIT n) 0).onDmaCh n fun d =>
    { d with
      act := none
      done := if x.claimed then d.done ++ [{ tag := x.tag, ch := n, status := st, appended := app, paused := x.everPaused
                                             moved := m.data.length / 8, crc := crc }]
              else d.done }
  let s := s.onCmd x.tag fun c => { c with count := m.data.length / 8, result := crc }
  if removed.isSome then s else s.finish x.tag st (match stop with | some (_, d) => d | none => 0)

/-- R401: a transfer ends. A paused one, or one whose port is dark, does not: only a removal ends it (R407). -/
def execDmaTransferEnd (n : Fin 16) (r : DmaEnd) (s : State) : Out :=
  .next (match (s.dmaCh n.val).act with
    | none => s
    | some x =>
      if x.paused || (x.pace && s.paceLevel n.val == 0) || (x.dstK == 3 && s.dark x.port) then s
      else if s.dmaHoldWait x (s.cmd x.tag).handles then s.setb (Reg.DMA_STAT_HOLD_WAIT n.val)
      else s.dmaEnd n.val x r none)

/-- R407: a transfer that is stopped with no end of its own reported. How many beats it had moved is a free value (log
60), and so are the bytes that the drive DRAM had returned. -/
def State.stopped (s : State) (x : Xfer) : DmaEnd :=
  let beat := if x.srcK = 1 ∨ x.dstK = 1 then 4 else 8
  let k := min x.len8 (beat * (Config.freeNat s.drawn % (x.len8 / beat + 2)))
  { moved := k, dram := (List.range (8 * k)).map (Config.freeByte s.drawn), dramErr := false }
/-- R133, R407: the transfer of a removed DMA_MOVE: a waiting descriptor goes, an active transfer stops at its next
beat. -/
def State.dmaStop (s : State) (tag st : Nat) : State :=
  let s := s.each (List.range 16) fun s n => match (s.dmaCh n).act with
    | some x =>
      if x.tag = tag then { s.dmaEnd n x (s.stopped x) (some st) with drawn := s.drawn + 1 } else s
    | none => s
  let s := s.each (List.range 16) fun s n => s.onDmaCh n fun d =>
    { d with
      shadow := match d.shadow with | some x => if x.tag = tag then none else some x | none => none
      queue := d.queue.filter fun x => x.tag != tag }
  let s := s.onQue fun q => { q with heldSq := q.heldSq.filter fun h => h.2 != tag }
  s.each (List.range 16) fun s n => s.dmaRetry n
/-- R405: the record of a DMA_MOVE is granted with a status. -/
def State.dmaGranted (s : State) (tag st : Nat) : State :=
  s.each (List.range 16) fun s n => s.onDmaCh n fun d =>
    { d with done := d.done.map fun r => if r.tag = tag ∧ !r.granted then { r with granted := true, status := st } else r }

/-! The DMA completion queues (R404 to R406). -/

/-- R405: the 16 bytes of a record. -/
def DmaRec.bytes (r : DmaRec) (phase : Bool) (now : Nat) : List Byte :=
  leBytes 2 (r.tag % 4096 + (r.ch % 16) * 2 ^ 12) ++ leBytes 1 r.status ++
    leBytes 1 (b2n phase + 2 * b2n r.appended + 4 * b2n r.paused) ++ leBytes 4 r.moved ++ leBytes 4 r.crc ++ leBytes 4 now
/-- R404 to R406: a record is written to its wing's DCQ; the last claimed one of a closing queue disables it. -/
def State.dcqWrite (s : State) (w : Nat) (r : DmaRec) : State :=
  let t := s.rd (Reg.DMA_W_DCQ_PTR_TAIL w)
  let z := s.dcqSize w
  let d := s.dcq w
  let a := s.rd (Reg.DMA_W_DCQ_BASE_BASE w) * 64 + t * 16
  let was := s.dcqFill w
  let l := r.bytes d.phase s.now
  let s := if s.is (Reg.DMA_W_DCQ_CFG_LOC w) then s.dramWrite a l else s.hWrite a l
  let s := (s.wr (Reg.DMA_W_DCQ_PTR_TAIL w) ((t + 1) % z)).onDcq w fun d =>
    { d with phase := if t + 1 = z then !d.phase else d.phase, claims := d.claims - 1 }
  let s := s.levelEvent (Reg.DMA_W_DCQ_CFG_LEVEL w) (Reg.DMA_W_DCQ_CFG_LEVEL_HIT w) z was (s.dcqFill w)
  if (s.dcq w).closing && (s.dcq w).claims == 0 then
    (s.wr (Reg.DMA_W_DCQ_CFG_ENABLE w) 0).onDcq w fun d => { d with closing := false }
  else s

/-- R405: the DMA completion record of a channel whose packet record is granted. -/
def execDmaRecordWrite (n : Fin 16) (s : State) : Out :=
  .next (match (s.dmaCh n.val).done.find? fun r => r.granted with
    | some r => (s.onDmaCh n.val fun d => { d with done := d.done.erase r }).dcqWrite (n.val / 8) r
    | none => s)

/-- R404: a write of the consumer head of a DCQ: taken, or rejected as R97 rejects one. -/
def State.dcqHead (s : State) (w v : Nat) : State :=
  let h := bits v 0 12
  let z := s.dcqSize w
  let old := s.rd (Reg.DMA_W_DCQ_PTR_HEAD w)
  if s.is (Reg.DMA_W_DCQ_CFG_ENABLE w) && decide (h < z) && decide ((h + z - old) % z ≤ s.dcqFill w) then
    s.wr (Reg.DMA_W_DCQ_PTR_HEAD w) h
  else (s.setb (Reg.DMA_W_DCQ_CFG_DB_ERR w)).err1 clsContained 1 3 0 0 w

/-- R404: a write of PL_DMA_Ww_DCQ_DB. -/
def execDcqDoorbell (m : Master) (w : Fin 2) (v : W32) (s : State) : Out :=
  .next (s.access m (0x5808 + 0x40 * w.val) (some v.toNat) fun s => s.dcqHead w.val v.toNat)

/-- R94, R404: the ring of a DCQ lies where the rule allows. -/
def State.dcqValid (s : State) (w : Nat) : Bool :=
  let z := s.rd (Reg.DMA_W_DCQ_CFG_SIZE w)
  decide (4 ≤ z) && decide (z ≤ 12) &&
    s.ringOk (s.is (Reg.DMA_W_DCQ_CFG_LOC w)) (s.rd (Reg.DMA_W_DCQ_BASE_BASE w)) (16 * 2 ^ z)
/-- R406, R409: a write of PL_DMA_Ww_DCQ_CFG. -/
def State.dcqCfg (s : State) (w v : Nat) : State :=
  let on := s.is (Reg.DMA_W_DCQ_CFG_ENABLE w)
  let s := s.wr (Reg.DMA_W_DCQ_CFG_LEVEL w) (bits v 10 12)
  let s := s.when (bit v 22) (·.wr (Reg.DMA_W_DCQ_CFG_LEVEL_HIT w) 0)
  let s := s.when (bit v 23) (·.wr (Reg.DMA_W_DCQ_CFG_DB_ERR w) 0)
  let s := s.when (bit v 24) (·.wr (Reg.DMA_W_DCQ_CFG_CFG_ERR w) 0)
  if on then
    if bit v 0 then s.onDcq w fun d => { d with closing := false }
    else if (s.dcq w).claims = 0 then s.wr (Reg.DMA_W_DCQ_CFG_ENABLE w) 0
    else s.onDcq w fun d => { d with closing := true }
  else
    let s := ((s.wr (Reg.DMA_W_DCQ_CFG_LOC w) (bits v 1 1)).wr (Reg.DMA_W_DCQ_CFG_SIZE w) (bits v 2 4)).wr
      (Reg.DMA_W_DCQ_CFG_IRQ w) (bits v 6 4)
    if !bit v 0 then s
    else if s.dcqValid w then
      ((s.setb (Reg.DMA_W_DCQ_CFG_ENABLE w)).wr (Reg.DMA_W_DCQ_PTR_TAIL w) 0).wr (Reg.DMA_W_DCQ_PTR_HEAD w) 0 |>.onDcq w
        fun d => { d with phase := true }
    else s.setb (Reg.DMA_W_DCQ_CFG_CFG_ERR w)

/-- R406: a write that sets DCQ_CFG.ENABLE. -/
def execDcqEnable (m : Master) (w : Fin 2) (v : W32) (s : State) : Out :=
  .next (s.access m (0x5804 + 0x40 * w.val) (some v.toNat) fun s => s.dcqCfg w.val v.toNat)

/-- R406: a write that clears DCQ_CFG.ENABLE. -/
def execDcqDisable (m : Master) (w : Fin 2) (v : W32) (s : State) : Out :=
  .next (s.access m (0x5804 + 0x40 * w.val) (some v.toNat) fun s => s.dcqCfg w.val v.toNat)

end Sys2Proof.Machine
end

