-- ==== Sys2Proof/Machine/Segments.lean ====
section
/-!
DEFINITION. Bus segments: the plan of an operation's legs (R142, R175, R176, R181, R239), the operation block and the
start of a routine (R202, R203), the choice of the next segment (R177), and the ends of operations with their outcomes.
-/
namespace Sys2Proof.Machine

/-! Energy of die operations (R428). -/

/-- The tag that pays for a flight of a command or of a map page: the command, or the one whose lookup opened the page. -/
def State.payerOf (s : State) (f : Flight) : Option Nat :=
  match f.ref with
  | .cmd t _ => if f.dropped then none else some t
  | .calib n => (tget none s.jnp.calib n).bind fun r => r.tag
  | .patrol lun => s.leaseTag .patrol [resLun lun]
  | .map key _ => match s.miss? key with
    | some m => match m.waiters.head? with | some w => if (s.cmd? w.tag).any (·.order == w.order) then some w.tag else none | none => none
    | none => none
  | _ => none
/-- The tag that pays for a flight; a member of a REBUILD is paid by the frame that is rebuilt. -/
def State.payer (s : State) (f : Flight) : Option Nat :=
  match f.ref with
  | .xor w k _ => match s.xor? w k with
    | some x => if x.rebuild then (s.flight? x.flight).bind s.payerOf else none
    | none => none
  | _ => s.payerOf f
/-- A term split equally, the remainder to the first. -/
def State.splitPj (s : State) (l : List (Option Nat)) (n : Nat) : State :=
  match l with
  | [] => s.energy none n
  | x :: r => (s.each r fun s t => s.energy t (n / l.length)).energy x (n - n / l.length * r.length)
/-- A term of a read operation charged to the frames it serves. -/
def State.chargeOp (s : State) (o : Op) (n : Nat) : State := s.splitPj ((s.opFlights o).map s.payer) n

/-! Plans. -/

/-- The mask's lowest plane. -/
def lowPlane (m : Nat) : Nat := ((bitList 8 m).head?).getD 0
/-- R176: the longest data-out segment of a channel. -/
def State.segMax (s : State) (ch : Nat) : Nat :=
  ((s.ecc.flights.filter fun f => f.ch == ch).map fun f => cwLen f.cclass).foldl max (s.rd Reg.TOP_BUS_SEG_MAX)
/-- The parts of flights in a page: column, bytes and flight, in column order. -/
def State.pageParts (s : State) (o : Op) (plane : Nat) (second : Bool) : List (Nat × Nat × Nat) :=
  orderBy (fun x => x.1) ((s.opFlights o).filterMap fun f =>
    let w := s.flightAt f
    if pfaPlane f.pfa ≠ plane then none
    else if second then (if w.2.2 = 0 then none else some (0, w.2.2, f.id))
    else some (w.1, w.2.1, f.id))
/-- R176: parts gathered into data-out legs of contiguous codewords, at most `m` bytes and four codewords each. -/
def outLegs (plane page m : Nat) : List (Nat × Nat × Nat) → List Leg
  | [] => []
  | (c, n, id) :: r =>
    match outLegs plane page m r with
    | [] => [{ routine := 0x03, kind := 2, plane := plane, page := page, col := c, count := n, fl := [(id, n)] }]
    | l :: ls =>
      if c + n = l.col ∧ n + l.count ≤ m ∧ l.fl.length < 4 then
        { l with col := c, count := n + l.count, fl := (id, n) :: l.fl } :: ls
      else { routine := 0x03, kind := 2, plane := plane, page := page, col := c, count := n, fl := [(id, n)] } :: l :: ls
/-- The data-out legs of one page of a read. -/
def State.readOut (s : State) (o : Op) (second : Bool) (soft : Nat) : List Leg :=
  (bitList 8 o.planes).flatMap fun pl =>
    (outLegs pl (if second then o.page + 1 else o.page) (s.segMax (lunCh o.lun)) (s.pageParts o pl second)).map
      fun l => { l with soft := soft }
/-- An array phase. -/
def arrayLeg : Leg := { kind := 1 }
/-- The level set of a step as the operation block names it: 0 the tracked set, k profile step k (R239, R328). -/
def stepLevel (step : Nat) : Nat := if step ≤ 1 then 0 else if 32 ≤ step then step - 33 else step - 1
/-- The command leg of a page read. -/
def readLeg (o : Op) (page cache soft : Nat) : Leg :=
  { routine := if o.kind = .soft then 0x1C else if ones 8 o.planes ≤ 1 then 0x01 else 0x02
    plane := lowPlane o.planes, page := page, cache := cache, soft := soft
    level := stepLevel o.step }
/-- R181: the segment that ends a sequence of cache reads: it brings the last page into the register that data-out reads. -/
def cacheEnd (o : Op) (page : Nat) : List Leg := [readLeg o page 3 0, arrayLeg]
/-- R181: cache reads are permitted on a LUN. -/
def State.cacheRead (s : State) (lun : Nat) (p : List Byte) : Bool :=
  prCap p 3 && s.is Reg.TOP_CTL_CACHE_RD_EN && decide (2 ≤ s.level (lunCh lun)) &&
    !(s.top.ops.any fun o => o.lun == lun && o.st == .suspended)
/-- The SET_LEVEL leg of a set, and the time for which the LUN then is busy: a feature access (R178, R189). -/
def levelLegs (step : Nat) (l : List Int) : List Leg :=
  [{ routine := 0x14, levels := l, level := stepLevel step }, { arrayLeg with routine := 0x14 }]
/-- R323: the step whose failed hard decode left the fewest unsatisfied checks. -/
def State.softStep (s : State) (o : Op) : Nat :=
  match (s.opFlights o).head? with
  | some f => match f.best with | some (k, _) => k | none => 0
  | none => 0
/-- R323: the level set of soft pass k: C, C − D and C + D on the adjusted levels. -/
def State.softSet (s : State) (o : Op) (p : List Byte) (k : Nat) : Option (List Int) :=
  let d : Int := max 1 (s.rd Reg.JNP_SOFT_DELTA)
  let d := if k = 0 then 0 else if k = 1 then -d else d
  (s.ladderSet o.lun o.block p (s.softStep o)).map fun c =>
    (List.range c.length).map fun i => if i < adjLevels p then clamp8 (c.getD i 0 + d) else c.getD i 0
/-- R318, R320, R328: the level set that an operation sends first, if any, and whether it is a preload. A sample of a CALIB
sends its candidate's set where that is not resident. -/
def State.sendLevels (s : State) (o : Op) (p : List Byte) : Option (List Int × Bool) :=
  if !s.hasRoutine o.lun 0x14 then none
  else if o.step = 0 then
    let e := s.effSet o.lun o.block p
    if s.needPreload o.lun p e then some (e, true) else none
  else if 32 ≤ o.step && (s.ladderSet o.lun o.block p o.step).all (fun l => tget none s.jnp.resident o.lun == some l) then none
  else (s.ladderSet o.lun o.block p o.step).map fun l => (l, false)
/-- The plan of a read (R142, R181, R239). -/
def State.readPlan (s : State) (o : Op) (p : List Byte) : List Leg :=
  let two := (s.opFlights o).any fun f => bit o.planes (pfaPlane f.pfa) && (s.flightAt f).2.2 != 0
  let pre := match s.sendLevels o p with | some (l, _) => levelLegs o.step l | none => []
  if o.kind = .soft then
    let b := { o with step := s.softStep o }
    (List.range 3).flatMap fun k =>
      (match s.softSet o p k with | some l => levelLegs b.step l | none => []) ++
        readLeg b o.page 0 k :: arrayLeg :: s.readOut o false k ++
        (if two then readLeg b (o.page + 1) 0 k :: arrayLeg :: s.readOut o true k else [])
  else
    let first := pre ++ [readLeg o o.page (b2n o.cache) 0, arrayLeg]
    if !two then first ++ (if o.cache then cacheEnd o o.page else []) ++ s.readOut o false 0
    else if o.cache || s.cacheRead o.lun p then
      first ++ readLeg o (o.page + 1) 1 0 :: s.readOut o false 0 ++ arrayLeg :: cacheEnd o (o.page + 1) ++ s.readOut o true 0
    else
      first ++ s.readOut o false 0 ++
        readLeg o (o.page + 1) 0 0 :: arrayLeg :: s.readOut o true 0
/-- The plan of a program pass: every page of the group on every plane of the part, then the array phase. -/
def progPlan (o : Op) (p : List Byte) : List Leg :=
  let pages := (groupPages p o.pslc o.group).flatMap fun pg => (bitList 8 o.planes).map fun pl => (pg, pl)
  ((List.range pages.length).map fun i =>
    let x := pages.getD i (0, 0)
    let last := decide (i + 1 = pages.length)
    { routine := if last then 0x04 else 0x05, kind := 3, plane := x.2, page := x.1, count := prTotal p
      cache := if o.cache && last then 3 else 0 : Leg }) ++ [arrayLeg]
/-- The plan of an erase. -/
def erasePlan (o : Op) : List Leg :=
  [{ routine := if ones 8 o.planes ≤ 1 then 0x06 else 0x07, plane := lowPlane o.planes }, arrayLeg]
/-- The plan of an operation. -/
def State.planOf (s : State) (o : Op) (p : List Byte) : List Leg :=
  match o.kind with
  | .prog => progPlan o p
  | .erase => erasePlan o
  | _ => s.readPlan o p

/-! The operation block (R203, R239, R244). -/

/-- R181, R203: a cache operation that follows this one on its LUN has started. -/
def State.follower (s : State) (o : Op) : Option Op :=
  s.top.ops.find? fun x => x.id != o.id && x.lun == o.lun && x.cache && !x.held && x.st != .queued && x.st != .refused &&
    (x.started == 0 || decide (o.started < x.started))
/-- The profile that serves a segment: profile 0 for a target under enumeration (R245). -/
def State.segProf (s : State) (g : Seg) : Nat :=
  match g.job with | some j => if j.base then 0 else s.lunBind g.lun | none => s.lunBind g.lun
/-- R203: the words of the operation block of a segment, with the operation it belongs to. A cache program that another one
follows is not the last of its sequence. -/
def State.opBlock (s : State) (g : Seg) (o : Op) (p : List Byte) : List (Nat × Nat) :=
  let l := g.leg
  let cache := if l.kind = 3 ∧ l.cache = 3 ∧ (s.follower o).isSome then 1 else l.cache % 4
  let row := rowAddr p (mkPfa g.lun l.plane o.block l.page 0)
  let mp := decide (1 < ones 8 o.planes)
  [(0, cache + b2n mp * 4 + ((ones 8 o.planes - 1) % 8) * 8 + b2n o.pslc * 64 + (o.pass % 4) * 128 +
      b2n g.holdup * 512),
   (1, lunTarget g.lun + (g.lun % 4) * 8 + (s.segProf g % 8) * 32),
   (2, l.col % 65536), (3, row % 65536), (4, row / 65536 % 65536), (5, l.count % 65536), (6, o.planes % 256),
   (7, l.routine % 256 + (if g.what = 1 then 1 else l.kind) * 256), (8, l.level % 256)] ++
  (if g.job.isSome then (g.job.map ChJob.words).getD []
   else if l.routine = 0x03 then [(9, row % 65536), (10, b2n mp)]
   else if l.routine = 0x1C then [(9, l.soft % 4)]
   else if l.routine = 0x11 then [(9, lunTarget g.lun)]
   else if l.routine = 0x14 then (List.range 7).map fun i =>
     (9 + i, unsgn 8 (l.levels.getD (2 * i) 0) + 256 * (if 2 * i + 1 < 14 then unsgn 8 (l.levels.getD (2 * i + 1) 0) else 0))
   else [])
/-- A routine starts on a sequencer (R202). -/
def State.startRoutine (s : State) (ch : Nat) (ob : List (Nat × Nat)) (prof entry : Nat) : State :=
  s.onSeq ch fun q =>
    let t := ob.foldl (fun t e => tset 0 t e.1 e.2) []
    let b := fun k i => bits (tget 0 t k) (8 * i) 8
    { q with
      upc := entry, stack := [], w := [], s := 0, z := false, neg := false, phyerr := false, im := 7, ce := none
      aar := [(0, b 2 0), (1, b 2 1), (2, b 3 0), (3, b 3 1), (4, b 4 0), (5, b 4 1)].filter fun e => e.2 != 0
      ob := t, prof := prof, run := true, held := 0, evs := 0, last := 0, total := 0, start := s.now, cycles := 0
      rx := [], tx := [] }

/-! Choosing a segment (R109, R177, R194, R230, R295). -/

/-- The tier of a waiting segment. -/
def Seg.tier (g : Seg) : Nat := if g.aged then 0 else g.cls
/-- R207, R230, R249, R442, R443: no routine starts on the sequencer of a channel now. -/
def State.seqStopped (s : State) (ch : Nat) : Bool :=
  (s.seq ch).halt || (s.seq ch).run || !s.is Reg.MCS_CTL_VALID || s.is Reg.MCS_CTL_LOAD_EN || s.pwr.econ.isSome || s.pwr.domOff.contains (ch / 2) || s.pwr.st != .active ||
    (match s.hly.actv with | some a => a.mcs && decide (1 ≤ a.stage) | none => false)
/-- R194, R258: the bus of a channel takes no new segment now. -/
def State.busStopped (s : State) (ch : Nat) : Bool := s.busHeld ch || s.seqStopped ch || s.level ch == 0
/-- A waiting segment may run now: status reads first where they are owed (R109), a data-out while enough codeword
buffers are free (R295). -/
def State.segReady (s : State) (ch : Nat) (g : Seg) : Bool :=
  ((!(s.chan ch).sdrDue && !s.top.mustPoll.any fun l => lunCh l == ch) || g.what == 1) &&
    (match s.op? g.op with | some o => !o.redo || g.what != 0 | none => true) &&
    (g.what != 0 || g.leg.kind != 2 || g.leg.routine != 0x03 ||
      (match s.op? g.op with
       | some o => o.kind == .soft || decide ((g.leg.fl.filter fun x => match s.flight? x.1 with
           | some f => !f.buf | none => false).length ≤ s.codeBufs ch)
       | none => false)) && (s.entry? (s.lunBind g.lun) g.leg.routine).isSome
/-- The waiting segments of a channel. -/
def State.segs (s : State) (ch : Nat) : List Seg := tget [] s.top.pend ch
/-- R177: the segment that the bus takes next. -/
def State.nextSeg (s : State) (ch : Nat) : Option Seg :=
  let p := tget 0 s.top.ptr ch
  least (fun (g : Seg) => g.tier * 32 + (g.lun % 32 + 31 - p % 32) % 32) ((s.segs ch).filter (s.segReady ch))
/-- The segment's operation; an empty one for a status read that belongs to none. -/
def State.segOp (s : State) (g : Seg) : Op := (s.op? g.op).getD { id := 0, lun := g.lun }
/-- A segment runs: R202, with the mark of R267 and the codeword buffers of R295. -/
def State.runSeg (s : State) (ch : Nat) (g : Seg) : State :=
  let g := { g with holdup := s.pwr.hold != 0 }
  let o := s.segOp g
  let prof := s.segProf g
  match s.mcs.img.profs[prof]?, s.entry? prof g.leg.routine with
  | some p, some e =>
    let s := s.onTop fun t => { t with run := tset none t.run ch (some g) }
    let s := s.when (g.what == 0 && 2 ≤ g.leg.kind) fun s => s.onChan ch fun c => { c with active := true }
    let s := s.when (g.what == 0 && g.leg.kind == 0 && g.leg.routine == 0x14 && o.step == 0) (·.bump Reg.JNP_PRELOADS_CNT 1)
    let s := s.when (g.what == 0 && g.leg.kind == 2 && o.kind != .soft) fun s =>
      s.each g.leg.fl fun s x => s.onFlight x.1 fun f => { f with buf := true }
    s.startRoutine ch (s.opBlock g o p) prof e
  | _, _ => s
/-- R460: the VOL_SELECT segment that a command segment for another volume needs first on a CHAIN channel. -/
def State.volSeg (s : State) (ch : Nat) (g : Seg) : Option Seg :=
  if (s.chan ch).chain && g.leg.kind == 0 && g.what != 5 && tget 8 s.top.vol ch != lunTarget g.lun &&
      (s.entry? (s.lunBind g.lun) 0x11).isSome then
    some { op := 0, lun := g.lun, cls := g.cls, what := 5, leg := { routine := 0x11 } }
  else none
/-! Segments of a channel's activities (R254). -/

/-- The SET_FEAT of a target's feature with parameter byte P1 (R239). -/
def featJob (t addr p1 : Nat) : ChJob := { routine := 0x12, target := t, words := [(9, addr % 256), (10, p1 % 256)] }
/-- The bound targets of a channel, in ascending order. -/
def State.boundTargets (s : State) (n : Nat) : List Nat := (List.range 8).filter fun t => (s.targProf n t).isSome
/-- The segment of an activity. -/
def jobSeg (ch : Nat) (j : ChJob) : Seg :=
  { op := 0, lun := 32 * ch + 4 * j.target + j.lun, what := 6, leg := { routine := j.routine, kind := j.kind }, job := some j }
/-- The image has the routine of an activity's segment. -/
def State.jobThere (s : State) (ch : Nat) (j : ChJob) : Bool := (s.entry? (s.segProf (jobSeg ch j)) j.routine).isSome
/-- An array phase runs on the channel. -/
def State.arrayOn (s : State) (ch : Nat) : Bool := s.top.ops.any fun o => lunCh o.lun == ch && o.st == .array
/-- R259: the working SDR timing mode of a channel. -/
def State.chSdr (s : State) (n : Nat) : Nat :=
  match (s.boundTargets n).filterMap fun t => (s.targProf n t).map prSdrTm with | [] => 0 | x :: r => r.foldl min x
/-- R254, R461: the SET_FEAT segments that bring the targets of a channel to its working SDR mode. -/
def State.sdrJobs (s : State) (n : Nat) : List ChJob := (s.boundTargets n).map fun t => featJob t 0x01 (s.chSdr n)
/-- R168, R411: the charge of an activity's segment, a status or feature access. -/
def State.jobCharge (s : State) (ch : Nat) (j : ChJob) : Nat × Nat :=
  match s.mcs.img.profs[s.segProf (jobSeg ch j)]? with
  | some p => (prToken p 3, prToken p 7)
  | none => (0, 0)
/-- R419: the rail on which a charge can never be admitted. -/
def State.neverRail (s : State) (v q : Nat) : Option Nat :=
  let cap := s.rd Reg.BOX_CHCAP_VCC
  if s.ceil 0 < v ∨ (cap ≠ 0 ∧ cap < v) then some 0 else if s.ceil 1 < q then some 1 else none
/-- R419: an activity's segment that can never be admitted. -/
def State.jobNever (s : State) (ch : Nat) (j : ChJob) : Bool :=
  (s.neverRail (s.jobCharge ch j).1 (s.jobCharge ch j).2).isSome
/-- R416, R185: an activity's segment of class MAINT is admitted: its charge fits and no reserved operation holds a rail
against it. -/
def State.jobFits (s : State) (ch v q : Nat) : Bool :=
  let cap := s.rd Reg.BOX_CHCAP_VCC
  decide (s.inUse 0 + v ≤ s.live 0) && decide (s.inUse 1 + q ≤ s.live 1) &&
    (cap == 0 || decide (tget 0 s.box.chV ch + v ≤ cap)) && (v == 0 || s.top.rsvV.isNone) && (q == 0 || s.top.rsvQ.isNone)
/-- The segments at the head of a channel's activity that cannot run are passed over: those whose routine the image lacks, and
those that can never be admitted, with the record of R419. -/
def State.jobPass (s : State) (ch : Nat) : State :=
  let bad := fun j => !s.jobThere ch j || s.jobNever ch j
  let js := (s.chan ch).jobs
  let s := s.each (js.takeWhile bad) fun s j =>
    match if s.jobThere ch j then s.neverRail (s.jobCharge ch j).1 (s.jobCharge ch j).2 else none with
    | some rail => s.err1 clsRecovered 0x0A 3 (jobSeg ch j).lun rail
    | none => s
  s.onChan ch fun c => { c with jobs := js.dropWhile bad }
/-- Where a channel's activity stands before the next segment: one that cannot run is passed over, the relock that
follows the last segment begins (R258), and a drop to SDR goes on once no array phase runs (R273). -/
def State.jobStep (s : State) (ch : Nat) : State :=
  let c := s.chan ch
  if s.seqStopped ch || c.relock.isSome then s
  else if c.sdrDue && c.jobs.isEmpty && !s.arrayOn ch then
    (s.onChan ch fun c => { c with sdrDue := false, climb := 5, jobs := s.sdrJobs ch, next := some 0 }).jobPass ch
  else s.jobPass ch
/-- R258: the relock that follows the segments of an activity begins. -/
def State.jobRelock (s : State) (ch : Nat) : State :=
  if s.seqStopped ch || !(s.chan ch).jobs.isEmpty || (s.chan ch).next.isNone then s
  else s.onChan ch fun c => { c with relock := c.next, next := none }
/-- R262: a channel takes the codes of its wing's last calibration while its bus is free. -/
def State.takeCodes (s : State) (ch : Nat) : State :=
  if (s.seq ch).run || !(s.chan ch).zqDue then s
  else s.onChan ch fun c => { c with zqDue := false, zqCode := tget 0 s.box.zqCode (ch / 4) }
/-- R177: when the bus is free, the next segment runs and the rotating pointer moves past its LUN. -/
def State.kickSeg (s : State) (ch : Nat) : State :=
  if s.busStopped ch then s
  else match s.nextSeg ch with
    | none => s
    | some g =>
      match s.volSeg ch g with
      | some v => s.runSeg ch v
      | none =>
        (s.onTop fun t =>
          { t with
            pend := tset [] t.pend ch ((tget [] t.pend ch).erase g)
            ptr := tset 0 t.ptr ch (g.lun % 32) }).runSeg ch g
/-- R184, R416: a segment of an activity takes its tokens and runs; one that is refused asks again at the next evaluation. -/
def State.runJob (s : State) (ch : Nat) (j : ChJob) : State :=
  let (v, q) := s.jobCharge ch j
  if s.jobFits ch v q then ((s.takeTokens ch v q).onChan ch fun c => { c with tok := (v, q) }).runSeg ch (jobSeg ch j) else s
/-- When the bus of a channel is free, the segments of its activity run, and otherwise the next one that waits (R177). -/
def State.kick (s : State) (ch : Nat) : State :=
  let s := ((s.takeCodes ch).jobStep ch).jobRelock ch
  match (s.chan ch).jobs with
  | j :: _ => if s.seqStopped ch || (s.chan ch).relock.isSome then s else s.runJob ch j
  | [] => s.kickSeg ch
/-- An activity of a channel runs segments, and a relock after them. -/
def State.startJobs (s : State) (ch : Nat) (js : List ChJob) (next : Option Nat) : State :=
  (s.onChan ch fun c => { c with jobs := c.jobs ++ js, next := if next.isSome then next else c.next }).kick ch
/-- A segment of an activity has ended with an END code. A status that shows the target busy is read again; the segments of a
target that is not present are dropped (R458); the LUNs that a parameter page declares are polled (R457). -/
def State.jobEnd (s : State) (ch : Nat) (j : ChJob) (code : Nat) : State :=
  if (s.chan ch).jobs.head? != some j then s
  else if j.routine = 0 ∧ code = 3 then s
  else
    let rest := (s.chan ch).jobs.tail
    let luns := if j.routine = 0x10 then min 4 ((s.seq ch).rx.getD 100 0).toNat else 0
    s.onChan ch fun c =>
      { c with
        jobs := (List.range luns).map (fun k => { j with routine := 0, kind := 1, lun := k, words := [] }) ++
          (if code = 5 then rest.filter fun x => x.target != j.target else rest) }
/-- A CHERR or a fault has cut a segment of an activity: it runs once more (R274). -/
def State.jobCut (s : State) (ch : Nat) (j : ChJob) : State :=
  if (s.chan ch).jobs.head? != some j then s
  else s.onChan ch fun c => { c with jobs := if j.cut then c.jobs.tail else { j with cut := true } :: c.jobs.tail }
/-- A segment joins those that wait (R177); at the URGENT tier it interrupts a data-out of a lower tier (R223). -/
def State.addSeg (s : State) (g : Seg) : State :=
  let ch := lunCh g.lun
  let s := s.onTop fun t => { t with pend := tset [] t.pend ch (tget [] t.pend ch ++ [g]) }
  let s := match tget none s.top.run ch with
    | some r => s.when (g.tier == 0 && r.what == 0 && r.leg.kind == 2 && r.tier != 0) fun s => s.raiseEv ch 0
    | none => s
  s.kick ch

/-! Legs. -/

/-- The command of an operation has not been sent to the die. -/
def Op.unsent (o : Op) : Bool := match o.plan with | [] => true | l :: _ => l.kind == 0 && l.cache != 3 || l.routine == 0x14
/-- R181: a cache read whose follower has started needs no segment that ends the sequence: the follower's command brings its
page into the register. -/
def State.skipEnd (s : State) (o : Op) : Op :=
  match o.plan, s.follower o with
  | l :: _, some x => if l.kind = 0 ∧ l.cache = 3 ∧ x.unsent = false then { o with plan := o.plan.drop 2 } else o
  | _, _ => o
/-- R181, R188: the head leg of an operation waits for another operation of its LUN: a command for an array phase, the end
of a cache sequence for a follower that may still start, data-in for a suspended operation. -/
def State.legWaits (s : State) (o : Op) (l : Leg) : Bool :=
  (l.kind == 0 && s.top.ops.any fun x => x.id != o.id && x.lun == o.lun && x.st == .array) ||
    (l.kind == 0 && l.cache == 3 && (s.follower o).isSome) ||
    (l.kind == 3 && s.top.ops.any fun x => x.id != o.id && x.lun == o.lun && x.st == .suspended)
/-- The head leg of an operation is queued for the bus, or its array phase begins; a data-in leg waits for its page
(R294). -/
def State.queueLeg (s : State) (id : Nat) : State :=
  match s.op? id with
  | none => s
  | some o =>
    let o := s.skipEnd o
    let s := s.onOp id fun x => { x with plan := o.plan }
    match o.plan with
    | [] => s
    | l :: _ =>
      if l.kind = 1 then s
      else if l.kind = 3 ∧ ((s.chan (lunCh o.lun)).staged.any fun (x : Staged) =>
          x.op == id && x.plane == l.plane && x.page == l.page) = false then s.onOp id fun o => { o with st := .bus }
      else if s.legWaits o l then s.onOp id fun o => { o with st := .bus }
      else if (s.segs (lunCh o.lun)).any (fun g => g.op == id && g.what == 0) ||
          (match tget none s.top.run (lunCh o.lun) with | some g => g.op == id && g.what == 0 | none => false) then s
      else (s.onOp id fun o => { o with st := .bus }).addSeg { op := id, lun := o.lun, leg := l, cls := o.tier }
/-- Operations of a LUN whose next leg waited go on. -/
def State.queueLun (s : State) (lun : Nat) : State :=
  s.each (s.top.ops.filter fun o => o.lun == lun && o.st == .bus) fun s o => s.queueLeg o.id

/-- R133, R580: a program pass from whose page set a frame was removed sends its pages again from the first. -/
def State.restartProg (s : State) (o : Op) : State :=
  match s.lunProf o.lun with
  | none => s
  | some p =>
    let s := s.onTop fun t =>
      { t with pend := (t.pend.map fun q => (q.1, q.2.filter fun g => !(g.op == o.id && g.what == 0))).filter fun q => q.2 != [] }
    let s := s.onChan (lunCh o.lun) fun c => { c with staged := c.staged.filter fun (x : Staged) => x.op != o.id }
    s.onOp o.id fun x => { x with redo := false, plan := progPlan o p }

/-! Ends of operations. -/

/-- R36: every frame of a program pass is still held for a retry. -/
def State.opHeld (s : State) (o : Op) : Bool :=
  o.kind == .prog && match s.lunProf o.lun with
    | none => true
    | some p => s.top.pfs.all fun f => match f.src with
      | .cmd _ _ => !(pfaLun f.pfa == o.lun && pfaBlock f.pfa == o.block && wlGroup p o.pslc (pfaPage f.pfa) == o.group)
      | _ => true
/-- The class of the record of a failed operation (R190, R229, R419). -/
def State.failClass (s : State) (o : Op) : Nat := if s.opHeld o then clsRecovered else clsUnrecovered
/-- The frames of a page set: those with a page in the group (R579). -/
def State.groupFrames (s : State) (o : Op) : List PFrame :=
  match s.lunProf o.lun with
  | none => s.top.pfs.filter fun f => pfaLun f.pfa == o.lun && pfaBlock f.pfa == o.block
  | some p => s.top.pfs.filter fun f =>
      pfaLun f.pfa == o.lun && pfaBlock f.pfa == o.block && f.cclass == o.cclass &&
        (wlGroup p o.pslc (pfaPage f.pfa) == o.group || wlGroup p o.pslc (lastPage p f.cclass f.pfa) == o.group)
/-- A program frame leaves those in flight with its outcome. -/
def State.endPf (s : State) (f : PFrame) (st : Nat) : State :=
  (s.onTop fun t => { t with pfs := t.pfs.filter fun x => x.pfa != f.pfa }).pfEnd f st
/-- R58: the detail of INTERNAL noted on the frames of an operation. -/
def State.noteDetail (s : State) (ref : FRef) (d : Nat) : State :=
  match ref with
  | .cmd t p => s.onFrame t p fun f => { f with detail := d }
  | .dirty o p => match s.que.dirty.find? fun x => x.order == o && x.pos == p with
    | some x => s.onFrame x.tag p fun f => { f with detail := d }
    | none => s
  | _ => s
/-- A page set fails: its frames take the outcome, and the group is gone. -/
def State.failGroup (s : State) (o : Op) (st detail : Nat) : State :=
  let s := s.each (s.groupFrames o) fun s f => (s.noteDetail f.src detail).endPf f st
  s.onTop fun t => { t with groups := t.groups.filter fun g => !(g.lun == o.lun && g.ord == o.ord) }
/-- The blocks of an erase take an outcome. -/
def State.endErase (s : State) (o : Op) (planes st detail : Nat) : State :=
  match o.tag with
  | none => s
  | some t =>
    s.each (bitList 8 planes) fun s pl =>
      let pos := pl - pfaPlane (s.cmd t).pkt.addr
      (s.onFrame t pos fun f => { f with detail := detail }).progDone t pos st
/-- The outcome of every frame of an operation; the operation itself stays. -/
def State.failFrames (s : State) (o : Op) (st detail : Nat) : State :=
  match o.kind with
  | .prog => s.failGroup o st detail
  | .erase => s.endErase o (o.planes ||| (o.parts.map fun p => 2 ^ p).sum) st detail
  | _ =>
    (s.each (s.opFlights o) fun s f =>
      (s.noteDetail f.ref detail).onFlight f.id fun f => { f with out := some st, buf := false }).onOp o.id
        fun o => { o with fl := [] }
/-- An operation fails with an outcome: its tokens are free and it leaves its queue. -/
def State.failOp (s : State) (id st detail : Nat) : State :=
  match s.op? id with
  | none => s
  | some o => ((s.failFrames o st detail).opTokens id).delOp id
/-- R188: a read served during a suspension is counted. -/
def State.countServed (s : State) (o : Op) : State :=
  s.onTop fun t =>
    { t with
      ops := t.ops.map fun x =>
        if x.lun == o.lun && x.st == .suspended && x.id != o.id then { x with served := x.served + 1 } else x }
/-- The parts of an operation that Topiary split: the next one asks, or the operation has ended (R169, R179). -/
def State.nextPart (s : State) (id : Nat) (whole : State → State) : State :=
  match s.op? id with
  | none => s
  | some o =>
    match o.parts with
    | [] => whole s
    | p :: r => s.onOp id fun o => { o with planes := 2 ^ p, parts := r, st := .queued, plan := [], susp := 0 }
/-- The groups of a block set that no earlier group needs any more are forgotten (R579). -/
def State.dropGroups (s : State) : State :=
  s.onTop fun t =>
    { t with
      groups := t.groups.filter fun g =>
        !g.ended || t.groups.any fun x =>
          !x.ended && x.lun == g.lun && x.block == g.block && x.cclass == g.cclass && x.planes == g.planes &&
            x.group + 1 == g.group }
/-- R37, R579: a pass of a page set has passed: the next pass is queued, or its frames have their final pass. -/
def State.passPassed (s : State) (o : Op) : State :=
  match s.lunProf o.lun, s.top.groups.find? fun g => g.lun == o.lun && g.ord == o.ord with
  | some p, some g =>
    let n := g.done + 1
    if n < passesOf p g.pslc then
      (s.onGroup g fun g => { g with done := n }).addOp
        { id := 0, kind := .prog, lun := o.lun, cls := o.cls, eclass := o.eclass, deadline := o.deadline, tag := o.tag
          planes := g.planes, block := o.block, group := o.group, ord := g.ord, cclass := o.cclass, pass := n
          pslc := o.pslc, forceCold := o.forceCold }
    else
      let s := s.onGroup g fun g => { g with done := n, ended := true }
      let fin := (s.groupFrames o).filter fun f => wlGroup p o.pslc (lastPage p f.cclass f.pfa) == o.group
      let s := (s.each fin fun s f => s.endPf f stOK).dropGroups
      if o.group + 1 = groupCount p o.pslc ∧ (s.top.groups.any fun x => x.lun == o.lun && x.block == o.block) = false then
        s.onTop fun t => { t with opened := t.opened.filter (· != (o.lun, o.block)) }
      else s
  | _, _ => s
/-- The programs of a page set are told apart by block; those of several planes of one set count each block once. -/
def State.failBlock (s : State) (o : Op) (off : Nat) : State := s.countFail o.lun o.block off
/-- R36, R333: a program pass or erase has ended with or without a status failure of a part. -/
def State.wholeEnd (s : State) (o : Op) : State :=
  match o.kind with
  | .prog =>
    if o.fails.isEmpty then (s.delOp o.id).passPassed o
    else
      let s := s.failBlock o 27
      let lfa := (s.groupFrames o).any fun f => match f.src with | .dirty _ _ => true | .map _ _ => true | _ => false
      let obj := match (s.groupFrames o).head? with | some f => f.pfa | none => mkPfa o.lun (lowPlane o.planes) o.block 0 0
      let s := s.when lfa fun s => s.err1 clsRecovered 5 1 obj
      (s.failGroup o stProgramFail 0).delOp o.id
  | .erase => (s.when (!o.fails.isEmpty) fun s => s.failBlock o 28).delOp o.id
  | _ => (s.countServed o).delOp o.id
/-- R448: a band block that is erased again counts its capacity again. -/
def State.bandErased (s : State) (o : Op) : State :=
  let n := lunCh o.lun
  if o.lun % 32 == 4 * s.rd (Reg.PWR_HUBAND_TARGET n) + s.rd (Reg.PWR_HUBAND_LUN n) &&
      o.block == s.rd (Reg.PWR_HUBAND_BLOCK n) && (o.planes &&& s.rd (Reg.PWR_HUBAND_PLANES n)) != 0 then
    s.onPwr fun p => { p with bands := tset {} p.bands n {} }
  else s
/-- The array phase of a program or erase has ended with a status. -/
def State.arrayEnd (s : State) (id : Nat) (ok : Bool) : State :=
  match s.op? id with
  | none => s
  | some o =>
    let s := s.opTokens id
    let s := s.onOp id fun o => { o with fails := if ok then o.fails else o.fails ++ [o.planes], plan := o.plan.tail }
    let s := s.when (o.kind == .erase) fun s =>
      (s.endErase o o.planes (if ok then stOK else stEraseFail) 0).onTop fun t =>
        { t with
          opened := t.opened.filter (· != (o.lun, o.block))
          fresh := t.fresh.filter (· != (o.lun, o.block))
          wpClass := t.wpClass.filter fun x => !(x.1 == o.lun && x.2.1 == o.block) }
    let s := s.when (o.kind == .erase && ok) fun s => s.bandErased o
    s.nextPart id fun s => match s.op? id with | some o => s.wholeEnd o | none => s
/-- The next leg of an operation; after its last the operation has ended. -/
def State.advance (s : State) (id : Nat) : State :=
  match s.op? id with
  | none => s
  | some o =>
    let s := s.onOp id fun o => { o with plan := o.plan.tail }
    match o.plan.tail with
    | [] => (s.opTokens id).nextPart id fun s => match s.op? id with | some o => s.wholeEnd o | none => s
    | l :: _ =>
      if l.kind = 1 then
        s.onOp id fun o => { o with st := .array, began := s.now, ran := 0, suspSent := false }
      else s.queueLeg id

/-! The read of a flight is complete (R295, R301, R322). -/

/-- R300, R323: the input of the soft decoder for the bits of three passes: the decision of pass 0 in bit 2, and in bits 1
and 0 the reliability by the outer passes that agree with it. -/
def State.softInput (s : State) (ps : List (List Byte)) : List Nat :=
  let a := ps.getD 0 []
  (List.range (8 * a.length)).map fun k =>
    let b := fun (l : List Byte) => (l.getD (k / 8) 0).getLsbD (k % 8)
    let n := b2n (b (ps.getD 1 []) == b a) + b2n (b (ps.getD 2 []) == b a)
    4 * b2n (b a) + s.rd (if n = 2 then Reg.JNP_SOFT_R_AGREE2 else if n = 1 then Reg.JNP_SOFT_R_AGREE1 else Reg.JNP_SOFT_R_AGREE0)
/-- The codeword of a flight is whole: it goes to its decoder, or to its command where it is raw. Dropped data ends. -/
def State.arrived (s : State) (f : Flight) (k : OpKind) : State :=
  if f.dropped then s.delFlight f.id
  else match k with
    | .raw => s.onFlight f.id fun f => { f with out := some stOK, buf := false }
    | .soft =>
      let w := f.ch / 4
      (s.onFlight f.id fun f =>
        { f with soft := 3, got := 0, input := s.softInput (f.passes ++ [f.bytes]), bytes := f.passes.headD f.bytes, passes := [] }).onEcc fun e =>
        { e with softq := tset [] e.softq w (tget [] e.softq w ++ [f.id]) }
    | _ =>
      (s.onFlight f.id fun f => { f with full := true, got := 0 }).onEcc fun e =>
        { e with hardq := tset [] e.hardq f.ch (tget [] e.hardq f.ch ++ [f.id]) }
/-- Bytes of a data-out segment reach the flights in their order. -/
def State.received (s : State) (o : Op) (last : Bool) : List (Nat × Nat) → List Byte → State
  | [], _ => s
  | (id, n) :: r, d =>
    let k := min n d.length
    let s := match s.flight? id with
      | none => s
      | some f =>
        let f := { f with got := f.got + k, bytes := f.bytes.take f.got ++ d.take k }
        let s := s.onFlight id fun _ => f
        if cwLen f.cclass ≤ f.got then
          (if o.kind == OpKind.soft && !last then s.onFlight id fun f => { f with got := 0, passes := f.passes ++ [f.bytes] }
           else s.arrived f o.kind)
        else s
    s.received o last r (d.drop n)
/-- R241: what is left of a data-out leg after n bytes. -/
def outRest : Nat → List (Nat × Nat) → List (Nat × Nat)
  | _, [] => []
  | n, (id, k) :: r => if n < k then (id, k - n) :: r else outRest (n - k) r

end Sys2Proof.Machine
end

