-- ==== Sys2Proof/Machine/Absent.lean ====
section
/-!
DEFINITION. A channel that becomes ABSENT: its activities end, its bus is free and its operations fail (R182, R273 to
R276), and the flash power domains that switch off (R443).
-/
namespace Sys2Proof.Machine

/-! DISCOVER (R89, R467). -/

/-- R89: the channels of the scope of a DISCOVER. -/
def scopeOf (p : Pkt) : List Nat :=
  if p.param = 0 then List.range 8
  else if p.param = 1 then [bits p.addr 0 3]
  else [2 * bits p.addr 0 2, 2 * bits p.addr 0 2 + 1]
/-- R467: the entries of the TORN list that lie on the channels of a scope. -/
def State.tornIn (s : State) (l : List Nat) : Nat := (s.err.torn.filter fun t => l.contains (pfaCh t.pfa)).length
/-- R89: DETAIL of a DISCOVER that found a number of positions ADDED, MISSING and CHANGED. -/
def State.discDetail (s : State) (p : Pkt) (a m c : Nat) : Nat :=
  sat 255 a + sat 255 m * 2 ^ 8 + sat 255 c * 2 ^ 16 + sat 255 (s.tornIn (scopeOf p)) * 2 ^ 24
/-- The discovery of a channel has ended with its counts: the DISCOVER packets that waited for it go on or complete. -/
def State.discTold (s : State) (n a m ch : Nat) : State :=
  s.each (s.que.cmds.filter fun c => c.pkt.opcode == opDiscover && c.stage == .running && c.waits.contains n) fun s c =>
    let k := [c.handles.getD 0 0 + a, c.handles.getD 1 0 + m, c.handles.getD 2 0 + ch]
    let w := c.waits.filter (· != n)
    let s := s.onCmd c.tag fun c => { c with waits := w, handles := k }
    if w.isEmpty then s.finishSlow c.tag stOK (s.discDetail c.pkt (k.getD 0 0) (k.getD 1 0) (k.getD 2 0)) else s

/-! A channel's activities. -/

/-- The tag whose activity holds the lease of a channel. -/
def State.chTag (s : State) (n : Nat) (act : Act) : Option Nat := s.leaseTag act [resCh n]
/-- An activity of a channel ends: its lease is released, and its MAINT completes. -/
def State.endChAct (s : State) (n : Nat) (act : Act) (st detail result : Nat) : State :=
  let tag := s.chTag n act
  let s := s.dropLease act [resCh n]
  match tag with
  | some t => (s.onCmd t fun c => { c with result := result }).finishSlow t st detail
  | none => s
/-- TRAIN of a channel ends. -/
def State.trainDone (s : State) (n st detail result : Nat) : State :=
  (s.onChan n fun c => { c with train := none }).endChAct n .train st detail result
/-- ZQCAL of a channel ends. -/
def State.zqDone (s : State) (n st detail result : Nat) : State :=
  (s.onChan n fun c => { c with zqTarget := none, zqFail := 0 }).endChAct n .zqcal st detail result
/-- R276: the activities of a channel that a loss of lock or power ends as failed. -/
def State.failActs (s : State) (n st detail : Nat) (all : Bool) : State :=
  let s := match (s.chan n).train with
    | some t => if t.slice || all then (s.onChan n fun c => { c with jobs := [] }).trainDone n st detail 0 else s
    | none => s
  let s := s.when (s.chan n).selftest fun s =>
    (s.onChan n fun c => { c with selftest := false, jobs := [] }).endChAct n .selftestCh st detail 0
  if all && (s.chan n).zqTarget.isSome then s.zqDone n st detail 0 else s
/-- R273: the running segment of a channel is cut: the bus is free at once. -/
def State.cutSeg (s : State) (n : Nat) : State :=
  ((s.onSeq n fun q => { q with run := false, ce := none, tx := [], evs := 0 }).onTop
    fun t => { t with run := tset none t.run n none }).giveJob n
/-- R182, R274: every operation of a channel ends with DIE_ABSENT; accepted frames of LFA programs are programmed
elsewhere (R36). -/
def State.failChannel (s : State) (n : Nat) : State :=
  let s := s.each (s.top.ops.filter fun o => lunCh o.lun == n) fun s o => s.failOp o.id stAbsent 0
  s.onTop fun t =>
    { t with
      pend := t.pend.filter fun p => p.1 != n
      mustPoll := t.mustPoll.filter fun l => lunCh l != n
      lunBusy := t.lunBusy.filter fun l => lunCh l != n
      blocked := t.blocked.filter fun l => lunCh l != n }
/-- The enumeration of a channel is cut: where the channel keeps its power it is asked for again (R89), and otherwise it runs
when the power returns (R466). -/
def State.cutDisc (s : State) (n : Nat) : State :=
  s.when (s.chan n).disc fun s =>
    ((s.onChan n fun c => { c with disc := false }).dropLease .discover [resCh n]).when (s.is (Reg.CH_STAT_PWRGD n))
      fun s => s.wantLease .discover [resCh n] none
/-- A channel becomes ABSENT: its bus is free, its activities end and its operations fail. -/
def State.cutAbsent (s : State) (n : Nat) : State :=
  let s := (s.cutSeg n).failActs n stAbsent 0 true
  let s := s.cutDisc n
  let s := s.moveLevel n 0
  let s := s.onChan n fun c => { c with relock := none, climb := 0, jobs := [], next := none, sdrDue := false, wp := false, eno := false, staged := [] }
  (((s.failChannel n).forgetResident n).onTop fun t => { t with vol := tset 8 t.vol n 8 })
/-- A channel drops to ABSENT with the record of R261. -/
def State.goAbsent (s : State) (n : Nat) : State :=
  let was := s.level n
  let s := s.cutAbsent n
  if was = 0 then s else s.err1 clsRecovered 7 1 n 0
/-- R273, R274: the power of a flash domain is lost: both channels are cut and ABSENT. -/
def State.losePower (s : State) (n : Nat) : State :=
  let s := (s.wr (Reg.CH_STAT_PWRGD n) 0).wrBit Reg.PWR_STAT_PWRGD (n / 2) false
  (((s.setb (Reg.CH_STAT_CHERR n)).wr (Reg.CH_STAT_CHERR_KIND n) 3).bump (Reg.CH_ERRCNT_CHERR n) 1).goAbsent n

/-! Flash power domains (R443). -/

/-- R443: a domain's channels have nothing under way that its power must outlast: no segment and no array phase. -/
def State.domIdle (s : State) (k : Nat) : Bool :=
  [2 * k, 2 * k + 1].all fun n => (tget none s.top.run n).isNone &&
    !(s.top.ops.any fun o => lunCh o.lun == n && o.st == .array)
/-- R443: the ball of a domain is deasserted: its channels go ABSENT without a CHERR, with the record of R261; a DISCOVER waits
for them no more (R89). -/
def State.domCut (s : State) (k : Nat) : State :=
  let s := (s.wrBit Reg.PWR_STAT_PWR_EN k false).wrBit Reg.PWR_STAT_PWRGD k false
  [2 * k, 2 * k + 1].foldl (fun s n => ((s.wr (Reg.CH_STAT_PWRGD n) 0).goAbsent n).discTold n 0 0 0) s
/-- R443: the domains that waited for their array phases switch off. -/
def State.domStep (s : State) : State :=
  s.each (s.pwr.domOff.filter s.domIdle) fun s k =>
    (s.onPwr fun p => { p with domOff := p.domOff.filter (· != k) }).domCut k

end Sys2Proof.Machine
end

