-- ==== Sys2Proof/Machine/Topiary.lean ====
section
/-!
DEFINITION. Topiary's choices and answers (R170 to R191): which operation of a LUN asks for tokens, Boxwood's answer
(R416 to R419), polls, ages, suspends and resumes, array watchdogs, and the end of each bus segment (R204, R229, R274).
-/
namespace Sys2Proof.Machine

/-! Starting an operation. -/

/-- R446, R513: Topiary starts no operation: the hold-up sequence, a warm reset, or a stopped clock. -/
def State.startStopped (s : State) : Bool :=
  s.pwr.hold != 0 || s.pwr.warn || s.sys.warmRun.isSome || s.pwr.st != .active
/-- The operations of a LUN that have been chosen and not ended. -/
def State.lunActive (s : State) (lun : Nat) : List Op :=
  s.top.ops.filter fun o => o.lun == lun && !o.held && o.st != .queued && o.st != .refused
/-- R188: entries that a suspension serves; 0 acts as 1. -/
def State.suspReads (s : State) : Nat := max 1 (s.rd Reg.TOP_SUSP_READS)
/-- R181: a program pass may follow another as a cache program. -/
def State.cacheProg (s : State) (lun : Nat) (p : List Byte) : Bool :=
  prCap p 4 && s.is Reg.TOP_CTL_CACHE_PG_EN && decide (2 ≤ s.level (lunCh lun)) &&
    !((s.lunEntries lun).any fun o => decide (o.cls ≤ 1))
/-- A page read or a raw read (R168). -/
def Op.pageRead (o : Op) : Bool := o.kind == .read || o.kind == .raw
/-- How an entry may start beside what runs on its LUN: not at all, plainly, or as a cache operation (R181, R188). A
suspension serves reads only, and none as a cache read. -/
def State.startMode (s : State) (o : Op) : Option Bool :=
  let act := s.lunActive o.lun
  match act.find? fun x => x.st == .suspended with
  | some x =>
    if decide (o.cls ≤ 1) && o.kind != .prog && o.kind != .erase && !x.resuming && decide (x.served < s.suspReads) &&
        (act.all fun y => y.id == x.id || y.kind == .prog) then some false else none
  | none => match act with
    | [] => some false
    | [x] => match s.lunProf o.lun with
      | none => none
      | some p =>
        if x.pageRead && o.pageRead && s.cacheRead o.lun p && x.block == o.block && x.planes == o.planes &&
            (s.readPages x).getLastD 0 + 1 == o.page && (x.st == .bus || x.st == .array) && x.resetting == 0 then some true
        else if x.kind == .prog && o.kind == .prog && s.cacheProg o.lun p && (x.st == .bus) &&
            (x.plan.any fun l => l.kind == 3) then some true
        else none
    | _ => none
/-- R109, R190, R468: nothing starts on the LUN. -/
def State.lunStopped (s : State) (lun : Nat) : Bool :=
  s.top.blocked.contains lun || s.top.retireReq.contains lun || s.top.mustPoll.contains lun ||
    s.top.lunBusy.contains lun
/-- The charge of an operation (R411). -/
def State.opCharge (s : State) (o : Op) : Nat × Nat :=
  match s.lunProf o.lun with
  | some p => s.charge p o.kind (ones 8 o.planes)
  | none => (0, 0)
/-- R185: a reserved operation of a rail bars an operation that needs the rail. -/
def State.barredBy (s : State) (r : Option Nat) (o : Op) (need : Nat) : Bool :=
  match r with
  | none => false
  | some id => id != o.id && need != 0 && (match s.op? id with | some x => decide (x.tier ≤ o.tier) | none => false)
/-- R185: no tokens are asked for the operation now. -/
def State.barred (s : State) (o : Op) : Bool :=
  s.barredBy s.top.rsvV o (s.opCharge o).1 || s.barredBy s.top.rsvQ o (s.opCharge o).2
/-- The entry may start on its LUN now. -/
def State.mayStart (s : State) (o : Op) : Bool := s.opEligible o && (s.startMode o).isSome && !s.barred o
/-- The entries of a LUN that may start now. One that was refused asks again at a release (R184). -/
def State.startable (s : State) (lun : Nat) : List Op := (s.lunEntries lun).filter fun o => o.st == .queued && s.mayStart o
/-- R172: the key of an entry. -/
def Op.key (o : Op) : Nat := o.tier * 2 ^ 64 + o.deadline % 2 ^ 64
/-- R174: the WRITE entry of a LUN that is first choice. -/
def State.firstWrite (s : State) (lun : Nat) : Option Op :=
  (s.top.writeFirst.find? fun w => w.1 == lun).bind fun w => (s.lunEntries lun).find? fun o => o.id == w.2 && s.opEligible o
/-- R172, R174: the entry that starts. Nothing starts ahead of a WRITE entry that is first choice, but for reads while its
tokens are refused or barred. -/
def State.choose (s : State) (lun : Nat) : Option Op :=
  match s.firstWrite lun with
  | some w =>
    if w.st == .refused || s.barred w then least Op.key (s.startable lun)
    else if s.mayStart w then some w
    else none
  | none => least Op.key (s.startable lun)
/-- R179: two read entries may merge. A merged read names one block and one page: the operation block holds one row
(R203). -/
def mergeable (o x : Op) : Bool :=
  x.id != o.id && o.pageRead && x.kind == o.kind && x.block == o.block && x.page == o.page && x.step == o.step &&
    (x.planes &&& o.planes) == 0 && !x.split && !o.split
/-- The part of an operation that a merged entry becomes. -/
def mergeInto (o x : Op) : Op :=
  { o with
    planes := o.planes ||| x.planes
    fl := o.fl ++ x.fl
    cls := min o.cls x.cls
    aged := o.aged || x.aged
    tag := if o.tag = x.tag then o.tag else none }
/-- R179: the reads that are eligible together with the chosen one join it. -/
def State.mergeReads (s : State) (o : Op) : State :=
  let ok := match s.lunProf o.lun with
    | some p => prCap p 0 && s.is Reg.TOP_CTL_MP_EN && decide (2 ≤ s.level (lunCh o.lun))
    | none => false
  if !ok || s.startMode o != some false then s
  else
    s.each ((s.lunEntries o.lun).filter fun x => s.mayStart x && mergeable o x) fun s x =>
      match s.op? o.id with
      | some y =>
        if (y.planes &&& x.planes) == 0 then (s.onOp o.id fun y => mergeInto y x).delOp x.id else s
      | none => s
/-- R179, R419: an operation split to its first plane; the others follow one by one. -/
def splitOp (o : Op) : Op :=
  match bitList 8 o.planes with
  | p :: r => { o with planes := 2 ^ p, parts := r ++ o.parts, split := true }
  | [] => o
/-- R494: the BLOCK_OPEN record of a block set stands in the keeper's work or is being programmed. -/
def State.openPending (s : State) (lun block : Nat) : Bool :=
  let hit := fun (note data : Nat) => note == 1 && pfaLun (bits data 8 40) == lun && pfaBlock (bits data 8 40) == block
  (s.yew.jobs.any fun j => hit j.note j.data) || s.yew.ops.any fun o => match o.2 with
    | some x => hit x.note x.data
    | none => false
/-- R494: the block sets of the LUN's waiting passes get their BLOCK_OPEN records. -/
def State.openBlocks (s : State) (lun : Nat) : State :=
  s.each ((s.lunEntries lun).filter fun o =>
      o.kind == .prog && o.st == .queued && !o.gathering && !s.blockBusy o) fun s o =>
    if s.blockOpen o || s.openPending lun o.block then s
    else s.jPut [jBlockOpen (mkPfa lun (lowPlane o.planes) o.block 0 0) o.planes] 1
/-- An operation asks Boxwood for its tokens (R184). -/
def State.ask (s : State) (o : Op) : State :=
  let cache := s.startMode o == some true
  let sdr := s.level (lunCh o.lun) == 1 && decide (1 < ones 8 o.planes)
  (s.onOp o.id fun x => { (if sdr then splitOp x else x) with st := .asked, cache := cache, again := false }).onBox
    fun b => { b with asks := b.asks ++ [o.id] }
/-- R184: a refused operation that a release concerns asks again; where its LUN cannot start it now, it waits to be chosen
anew. A refused resume asks again as such (R188). -/
def State.reask (s : State) (o : Op) : State :=
  if o.st == .suspended then
    (s.onOp o.id fun x => { x with again := false }).onBox fun b =>
      { b with asks := if b.asks.contains o.id then b.asks else b.asks ++ [o.id] }
  else if o.st != .refused then s.onOp o.id fun x => { x with again := false }
  else if s.startStopped || !s.lunServes o.lun || s.lunStopped o.lun || !s.mayStart o then
    s.onOp o.id fun x => { x with st := .queued, again := false }
  else s.ask o
/-- R184: the refused operations that a release concerns, a WRITE entry of first choice ahead (R174). -/
def State.askReleased (s : State) : State :=
  let l := s.top.ops.filter fun o => o.again
  let first := fun (o : Op) => s.top.writeFirst.any fun w => w.2 == o.id
  s.each (l.filter first ++ orderBy Op.key (l.filter fun o => !first o)) fun s o =>
    match s.op? o.id with | some o => s.reask o | none => s
/-- R172, R184: Topiary chooses an operation of a LUN and asks for its tokens. An operation of a LUN that does not serve
ends with DIE_ABSENT (R136, R182). -/
def State.startOp (s : State) (lun : Nat) : State :=
  let s := s.openBlocks lun
  match s.choose lun with
  | none => s
  | some o =>
    let s := s.mergeReads o
    match s.op? o.id with
    | some o => s.ask o
    | none => s
/-- R136, R182: the entries of a LUN that does not serve. -/
def State.absentOps (s : State) (lun : Nat) : State :=
  (s.each (s.lunEntries lun) fun s o => s.failOp o.id stAbsent 0).settle

/-- R172: Topiary chooses the next operation of a LUN. -/
def execOpStart (lun : Fin 256) (s : State) : Out :=
  let s := s.askReleased
  .next (if s.startStopped then s
    else if !s.lunServes lun.val then s.absentOps lun.val
    else if s.lunStopped lun.val then s
    else s.startOp lun.val)

/-! Tokens (R412, R416 to R419, R421). -/

/-- The asks of a channel in the order in which Boxwood takes them: a resume goes ahead of all but URGENT ones (R188),
and PROMPT ahead of others of its class (R44). -/
def State.chAsk (s : State) (ch : Nat) : Option Op :=
  let l := (s.box.asks.filterMap s.op?).filter fun o => lunCh o.lun == ch
  let rank := fun (o : Op) => if o.resuming then 1 else if o.tier = 0 then 0 else 2
  match least rank l with
  | none => none
  | some h =>
    if rank h = 1 then some h
    else (l.find? fun o => rank o == rank h && o.tier == h.tier && o.eclass == 2 && h.eclass != 2).getD h
/-- R417: the request evaluated next. -/
def State.nextAsk (s : State) : Option Op :=
  least (fun (o : Op) => o.tier * 16 + (if o.eclass = 2 then 0 else 8) + (lunCh o.lun + 8 - s.box.rot % 8) % 8)
    ((List.range 8).filterMap s.chAsk)
/-- R186, R421: the profile's typical array time of an operation in µs. -/
def opTime (p : List Byte) (o : Op) : Nat :=
  match o.kind with
  | .prog => if o.pslc then prTime p 6 else prTime p (2 + o.pass % 4)
  | .erase => prTime p 7
  | _ => if o.pslc then prTime p 1 else prTime p 0
/-- R421: the charge fits under the live budget less the cut of every pending window that the operation would reach. -/
def State.fcOk (s : State) (o : Op) (v q : Nat) : Bool :=
  let t := match s.lunProf o.lun with | some p => opTime p o | none => 0
  (s.box.winA ++ s.box.winB).all fun w =>
    w.on || decide (s.now + t ≤ w.start) ||
      (decide (s.inUse 0 + v ≤ s.live 0 - s.seekCut 0 w.level) && decide (s.inUse 1 + q ≤ s.live 1 - s.seekCut 1 w.level))
/-- R416: the rails on which a charge is short: VCC and VCCQ. -/
def State.railShort (s : State) (o : Op) (v q : Nat) : Bool × Bool :=
  let f := fun (l : Nat) => if o.eclass = 1 then l * 3 / 4 else l
  (decide (min (s.live 0) (f (s.live 0)) < s.inUse 0 + v), decide (min (s.live 1) (f (s.live 1)) < s.inUse 1 + q))
/-- R416: the request is granted. -/
def State.grants (s : State) (o : Op) (v q : Nat) : Bool :=
  let sh := s.railShort o v q
  let cap := s.rd Reg.BOX_CHCAP_VCC
  !sh.1 && !sh.2 && (o.resuming || cap == 0 || decide (tget 0 s.box.chV (lunCh o.lun) + v ≤ cap)) && s.fcOk o v q &&
    !s.barred o
/-- R184, R412: a granted operation takes its charge; a reserved one frees its rail, and the operations refused behind it
ask again. -/
def State.grantOp (s : State) (o : Op) (v q : Nat) : State :=
  let rsv := s.top.rsvV == some o.id || s.top.rsvQ == some o.id
  let s := (s.takeTokens (lunCh o.lun) v q).onOp o.id fun x =>
    let x := { x with tokV := v, tokQ := q, shortV := false, shortQ := false, tokAge := 0 }
    if x.resuming then { x with granted := true } else { x with st := .won }
  let s := s.onTop fun t => fillRails
    { t with
      rsvV := if t.rsvV == some o.id then none else t.rsvV
      rsvQ := if t.rsvQ == some o.id then none else t.rsvQ }
  s.when rsv fun s => s.onTop fun t =>
    { t with ops := t.ops.map fun x => if x.turned then { x with again := true } else x }
/-- R184, R419: a refused operation: the rails found short; an oversize one sets STAT.OVERSIZE. -/
def State.refuseOp (s : State) (o : Op) (v q : Nat) : State :=
  let sh := s.railShort o v q
  let s := s.when (decide (s.live 0 < v) || decide (s.live 1 < q)) (·.setb Reg.BOX_STAT_OVERSIZE)
  s.onOp o.id fun x =>
    if x.resuming then { x with shortV := sh.1, shortQ := sh.2 }
    else { x with st := .lost, shortV := sh.1, shortQ := sh.2 }
/-- R416 to R419: Boxwood judges a request. -/
def State.judge (s : State) (o : Op) : State :=
  let (v, q) := s.opCharge o
  let cap := s.rd Reg.BOX_CHCAP_VCC
  let big := decide (s.live 0 < v) || decide (s.live 1 < q) || (cap != 0 && decide (cap < v))
  let o := if big && decide (1 < ones 8 o.planes) && !o.resuming then splitOp o else o
  let s := s.onOp o.id fun _ => o
  let (v, q) := s.opCharge o
  match (if o.resuming then none else s.neverRail v q) with
  | some rail =>
    (((s.err1 (s.failClass o) 0x0A 3 o.lun rail).failOp o.id stInternal (8 + rail * 2 ^ 8 + o.lun * 2 ^ 16)).queueLun o.lun).settle
  | none => if s.grants o v q then s.grantOp o v q else s.refuseOp o v q

/-- R417: Boxwood evaluates one waiting request. -/
def execTokenEvaluate (s : State) : Out :=
  let s := s.askReleased
  .next (if s.pwr.st != .active then s
    else match s.nextAsk with
      | none => s.each ((List.range 8).filter fun n => !(s.chan n).jobs.isEmpty) fun s n => s.kick n
      | some o =>
        (s.onBox fun b => { b with asks := b.asks.erase o.id, rot := (b.rot + 1) % 8 }).judge o)

/-- R174: the start of an operation. One of class URGENT or READ counts while a WRITE entry of the LUN is eligible, and the
oldest such entry becomes first choice at READ_BURST; the start of that entry restarts the count. The parts of a split
operation are one start (R169). -/
def State.countBurst (s : State) (o : Op) : State :=
  if s.top.writeFirst.any fun w => w.2 == o.id then
    s.onTop fun t => { t with bursts := tset 0 t.bursts o.lun 0, writeFirst := t.writeFirst.filter fun w => w.2 != o.id }
  else if o.started != 0 || decide (1 < o.cls) then s
  else match (s.lunEntries o.lun).find? fun x => x.cls == 2 && s.opEligible x with
    | none => s
    | some w =>
      let n := tget 0 s.top.bursts o.lun + 1
      s.onTop fun t =>
        { t with
          bursts := tset 0 t.bursts o.lun n
          writeFirst := if max 1 (s.rd Reg.TOP_FAIR_READ_BURST) ≤ n && (s.firstWrite o.lun).isNone then
            (t.writeFirst.filter fun x => x.1 != o.lun) ++ [(o.lun, w.id)] else t.writeFirst }
/-- The routine of a suspend (0x08, 0x09) or resume (0x0A, 0x0B). -/
def suspRoutine (o : Op) (resume : Bool) : Nat := 0x08 + 2 * b2n resume + b2n (o.kind == .erase)
/-- The answer of Boxwood has arrived. -/
def State.answer (s : State) (o : Op) : State :=
  if o.granted then
    (s.onOp o.id fun x => { x with granted := false }).addSeg
      { op := o.id, lun := o.lun, cls := o.tier, what := 3, leg := { routine := suspRoutine o true, plane := lowPlane o.planes } }
  else if o.st == .won then
    match s.lunProf o.lun with
    | none => (s.failOp o.id stAbsent 0).settle
    | some p =>
      let s := s.countBurst o
      let s := s.onTop fun t => { t with starts := t.starts + 1 }
      (s.onOp o.id fun x =>
        { x with st := .bus, plan := s.planOf o p, started := if x.started = 0 then s.top.starts else x.started }).queueLeg o.id
  else if o.st == .lost then (s.onOp o.id fun x => { x with st := .refused }).queueLun o.lun
  else s

/-- R184: the answer of an evaluated request. -/
def execTokenAnswer (op : Nat) (s : State) : Out :=
  .next (match s.op? op with
    | some o => s.answer o
    | none => s)

/-! Polls and ages (R173, R177, R178, R180, R185). -/

/-- A status segment of a LUN waits or runs. -/
def State.polling (s : State) (lun : Nat) : Bool :=
  ((s.segs (lunCh lun)).any fun g => g.lun == lun && g.what == 1) ||
    (match tget none s.top.run (lunCh lun) with | some g => g.lun == lun && g.what == 1 | none => false)
/-- The operation whose array phase a status of the LUN shows. -/
def State.arrayOp (s : State) (lun : Nat) : Option Op := s.top.ops.find? fun o => o.lun == lun && o.st == .array
/-- R178: a status segment queued for a LUN. One that no operation asks for, as it is owed after a fault or a reset of the
FIFO, goes at the URGENT tier (log entry 61). -/
def State.pollLun (s : State) (lun : Nat) : State :=
  let o := s.arrayOp lun
  if s.polling lun || !(o.isSome || s.top.mustPoll.contains lun || s.top.blocked.contains lun ||
      s.top.lunBusy.contains lun) then s
  else s.addSeg { op := match o with | some x => x.id | none => 0, lun := lun, what := 1,
                  cls := match o with | some x => x.tier | none => 0, leg := { routine := 0 } }

/-- R178: a LUN is due for a status poll. -/
def execStatusPollDue (lun : Fin 256) (s : State) : Out :=
  .next (s.pollLun lun.val)

/-- R180: the gathering bound of a page set expires. -/
def execGatherTimeout (set : Nat) (s : State) : Out :=
  .next (match s.top.groups.find? fun g => g.ord == set && !g.forced && !g.ended with
    | some g => s.forceOne g
    | none => s)

/-- R173: an entry of a class ages. -/
def State.age (s : State) (op cls : Nat) : State :=
  s.onOp op fun o => if o.cls == cls && (o.st == .queued || o.st == .refused || o.st == .asked) && !o.held then
    { o with aged := true } else o

/-- R173: a WRITE entry ages. -/
def execWriteAgeExpiry (op : Nat) (s : State) : Out :=
  .next (s.age op 2)

/-- R173: a MAINT entry ages. -/
def execMaintAgeExpiry (op : Nat) (s : State) : Out :=
  .next (s.age op 3)

/-- R177: a waiting segment joins the URGENT tier, and R223 holds for it. -/
def State.ageSeg (s : State) (ch op : Nat) : State :=
  if (s.segs ch).any fun g => g.op == op then
    let s := s.onTop fun t =>
      { t with pend := tset [] t.pend ch ((tget [] t.pend ch).map fun g => if g.op == op then { g with aged := true } else g) }
    match tget none s.top.run ch with
    | some r => s.when (r.what == 0 && r.leg.kind == 2 && r.tier != 0) fun s => s.raiseEv ch 0
    | none => s
  else s

/-- R177: the bus age of a segment. -/
def execBusAgeExpiry (ch : Fin 8) (op : Nat) (s : State) : Out :=
  .next (s.ageSeg ch.val op)

/-- R185, R419: an operation refused for TOKEN_AGE becomes the reserved operation of each rail that it lacks, unless it is
oversize. Where the rail has one, it waits until that one is granted. -/
def State.reserve (s : State) (o : Op) : State :=
  let (v, q) := s.opCharge o
  if !(o.shortV || o.shortQ) || decide (s.live 0 < v) || decide (s.live 1 < q) then s
  else s.onTop fun t =>
    let n := (t.ops.map Op.tokAge).foldl max 0 + 1
    fillRails { t with
      ops := t.ops.map fun x => if x.id == o.id then { x with tokAge := if x.tokAge = 0 then n else x.tokAge } else x }

/-- R185: TOKEN_AGE expires. -/
def execTokenAgeExpiry (op : Nat) (s : State) : Out :=
  .next (match s.op? op with
    | some o => s.reserve o
    | none => s)

/-! Suspend and resume (R186 to R188). -/

/-- R186, condition 2: a read waits that the running operation keeps from starting. -/
def State.readWaits (s : State) (x : Op) : Bool :=
  (s.lunEntries x.lun).any fun o =>
    o.id != x.id && decide (o.cls ≤ 1) && s.opEligible o && !(o.block == x.block && (o.planes &&& x.planes) != 0)
/-- R186: every condition but the fifth. -/
def State.suspendable (s : State) (x : Op) : Bool :=
  match s.lunProf x.lun with
  | none => false
  | some p =>
    let run := x.ran + (s.now - x.began)
    let kind := if x.kind == .prog then prCap p 5 && s.is Reg.TOP_CTL_SUSP_PROG_EN
      else x.kind == .erase && prCap p 6 && s.is Reg.TOP_CTL_SUSP_ERASE_EN
    kind && !x.cache && x.resetting == 0 && !x.suspSent && s.readWaits x && s.level (lunCh x.lun) == 3 &&
      decide (max 5 (s.rd Reg.TOP_SUSP_MIN_RUN) ≤ s.now - x.began) &&
      decide (s.rd Reg.TOP_SUSP_TIME_NEAR ≤ opTime p x - run) && !s.startStopped &&
      !((s.segs (lunCh x.lun)).any fun g => g.op == x.id && g.what == 2)
/-- R186, R187: a suspend is queued, or the limit alone keeps it. -/
def State.suspend (s : State) (x : Op) : State :=
  if !s.suspendable x then s
  else if s.rd Reg.TOP_SUSP_LIMIT ≤ x.susp then s.bump Reg.TOP_SUSP_LIMIT_CNT 1
  else s.addSeg { op := x.id, lun := x.lun, what := 2, cls := 0,
                  leg := { routine := suspRoutine x false, plane := lowPlane x.planes } }

/-- R186: the conditions of a suspend. -/
def execSuspendStart (lun : Fin 256) (s : State) : Out :=
  .next (match (s.lunActive lun.val).filter fun x => x.st == .array || x.st == .suspended with
    | [x] => if x.st == .array then s.suspend x else s
    | _ => s)

/-- The suspended operation of a LUN. -/
def State.suspended? (s : State) (lun : Nat) : Option Op := s.top.ops.find? fun o => o.lun == lun && o.st == .suspended
/-- R188: a resume asks for its tokens once the LUN has nothing else under way. -/
def State.askResume (s : State) (x : Op) : State :=
  if x.resuming || x.granted || (s.lunActive x.lun).any (fun y => y.id != x.id && y.kind != .prog) then s
  else (s.onOp x.id fun o => { o with resuming := true }).onBox fun b => { b with asks := b.asks ++ [x.id] }

/-- R188: a suspended operation resumes: its reads are served, none waits, or a warm reset or the hold-up begins. -/
def execResumeDue (lun : Fin 256) (s : State) : Out :=
  .next (match s.suspended? lun.val with
    | some x =>
      if s.suspReads ≤ x.served || s.startStopped ||
          !((s.lunEntries lun.val).any fun o => o.id != x.id && decide (o.cls ≤ 1) && s.opEligible o) then s.askResume x
      else s
    | none => s)

/-- R188: WINDOW expires: no further read starts, and the resume is due. -/
def execSuspendWindowExpiry (lun : Fin 256) (s : State) : Out :=
  .next (match s.suspended? lun.val with
    | some x => (s.onOp x.id fun o => { o with served := max o.served s.suspReads }).askResume x
    | none => s)

/-! Watchdogs (R189, R190). -/

/-- The class of the watchdog that an array phase runs under: 0 read, 1 program, 2 erase, 3 other. -/
def wdogClass (o : Op) : Nat :=
  if o.suspSent ∨ o.resumed ∨ o.resetting ≠ 0 ∨ (o.plan.head?.map Leg.routine) = some 0x14 then 3 else match o.kind with | .prog => 1 | .erase => 2 | _ => 0
/-- The segments of an operation that wait leave the bus. -/
def State.dropSegs (s : State) (op : Nat) (f : Seg → Bool) : State :=
  s.onTop fun t =>
    { t with pend := (t.pend.map fun p => (p.1, p.2.filter fun g => !(g.op == op && f g))).filter fun p => p.2 != [] }
/-- R190: the watchdog of an array phase expires. A suspended operation of the LUN ends with it. -/
def State.watchdog (s : State) (o : Op) : State :=
  let s := (s.bump Reg.TOP_WDOG_FIRED_CNT 1).err1 (s.failClass o) 5 2 o.lun (wdogClass o)
  if o.resetting ≠ 0 then s.onOp o.id fun x => { x with resetting := 2 }
  else
    let s := s.each (s.top.ops.filter fun x => x.lun == o.lun && x.st == .suspended) fun s x => s.failOp x.id stTimeout 0
    let s := (s.dropSegs o.id fun _ => true).failFrames o stTimeout 0
    let s := s.onOp o.id fun x => { x with resetting := 1, parts := [] }
    let s := s.onTop fun t => { t with blocked := if t.blocked.contains o.lun then t.blocked else t.blocked ++ [o.lun] }
    (s.addSeg { op := o.id, lun := o.lun, what := 4, cls := o.tier, leg := { routine := 0x0C } }).settle

/-- R190: the watchdog of the array phase on a LUN expires. -/
def execArrayWatchdogExpiry (lun : Fin 256) (s : State) : Out :=
  .next (match s.arrayOp lun.val with
    | some o => if o.resetting = 2 then s else s.watchdog o
    | none => s)

/-! Energy of program passes (R428, R429). -/

/-- An event of a program frame: charged at acceptance already where its write completed then, to its command where that
still runs, and to background otherwise. -/
def State.pfEnergy (s : State) (f : PFrame) (n : Nat) : State :=
  match f.src with
  | .cmd t _ => s.energy (some t) n
  | .dirty o p => match s.que.dirty.find? fun d => d.order == o && d.pos == p with
    | some d => if d.redo then s.energy none n else if d.fua then s.energy (some d.tag) n else s
    | none => s
  | _ => s.energy none n
/-- The frames whose codewords have bytes in a page of a block (R143). -/
def State.framesOn (s : State) (p : List Byte) (lun plane block page : Nat) : List PFrame :=
  s.top.pfs.filter fun f =>
    pfaLun f.pfa == lun && pfaPlane f.pfa == plane && pfaBlock f.pfa == block &&
      (pfaPage f.pfa == page || lastPage p f.cclass f.pfa == page)
/-- A term of a page split among the frames on it, the remainder to the first. -/
def State.pagePj (s : State) (l : List PFrame) (n : Nat) : State :=
  match l with
  | [] => s.energy none n
  | f :: r => (s.each r fun s x => s.pfEnergy x (n / l.length)).pfEnergy f (n - n / l.length * r.length)

/-! The ends of legs. -/

/-- R513: a die operation of these commands has begun. -/
def State.issue (s : State) (tags : List Nat) : State := s.each tags fun s t => s.onCmd t fun c => { c with issued := true }
/-- R133: a die program or erase of these commands has begun: they may be removed no longer. -/
def State.begun (s : State) (tags : List Nat) : State :=
  s.each tags fun s t => s.onCmd t fun c => { c with issued := true, past := true }
/-- The commands whose frames a program pass holds. -/
def State.progTags (s : State) (o : Op) : List Nat :=
  (s.groupFrames o).filterMap fun f => match f.src with
    | .cmd t _ => some t
    | .dirty k p => match s.que.dirty.find? fun d => d.order == k && d.pos == p with
      | some d => if d.fua then some d.tag else none
      | none => none
    | _ => none
/-- R314, R446: the confirm of a program pass has gone out. -/
def State.progBegun (s : State) (o : Op) : State :=
  let s := (s.begun (s.progTags o)).onOp o.id fun x => { x with begun := true }
  if s.top.fresh.contains (o.lun, o.block) then
    (s.firstProgram o.lun o.block).onTop fun t => { t with fresh := t.fresh.filter (· != (o.lun, o.block)) }
  else s
/-- R316 to R318: a SET_LEVEL has ended; one that carries a correction other than 0 counts. -/
def State.levelsSent (s : State) (o : Op) (l : Leg) : State :=
  let corr := s.jnpOn && match s.lunProf o.lun with
    | some p => (s.corrs o.lun p (s.grpPeek (s.groupOf o.lun o.block))).any (· != 0)
    | none => false
  (s.noteLevels o.lun l.levels).when (corr && o.step != 32)
    (·.bump Reg.JNP_XT_APPLIED_CNT 1)
/-- R320, R428: the command segment of a read has ended: it runs at exactly E where the resident set is E. -/
def State.readSent (s : State) (o : Op) : State :=
  let e := match s.lunProf o.lun with | some p => s.effSet o.lun o.block p | none => []
  let n := match s.lunProf o.lun with | some p => adjLevels p | none => 0
  let exact := s.hasRoutine o.lun 0x14 && (tget none s.jnp.resident o.lun).map (List.take n) == some (e.take n)
  let s := s.each (s.opFlights o) fun s f => s.onFlight f.id fun f => { f with atE := if f.step = 0 then exact else f.atE }
  (s.issue ((s.opFlights o).filterMap Flight.tag)).chargeOp o (s.nj Reg.BOX_EOP1_READ_PAGE (ones 8 o.planes))
/-- A command segment of an operation has ended (R175). -/
def State.commandDone (s : State) (o : Op) (l : Leg) : State :=
  let s :=
    if l.routine = 0x14 then s.levelsSent o l
    else if l.cache = 3 then s
    else if o.kind == .erase then
      (s.begun o.tag.toList).energy o.tag (s.nj Reg.BOX_EOP2_ERASE_BLK (ones 8 o.planes))
    else s.readSent o
  s.advance o.id
/-- A data-in segment of an operation has ended (R176, R428): its page leaves the staging buffer. -/
def State.dataInDone (s : State) (o : Op) (l : Leg) : State :=
  let s := s.onChan (lunCh o.lun) fun c =>
    { c with staged := c.staged.filter fun (x : Staged) => !(x.op == o.id && x.plane == l.plane && x.page == l.page) }
  let s := match s.lunProf o.lun with
    | some p => s.pagePj (s.framesOn p o.lun l.plane o.block l.page)
        (s.nj Reg.BOX_EOP1_PROG_PAGE 1 + s.pjB Reg.BOX_EBYTE0_BUS l.count)
    | none => s
  if o.redo && l.routine != 0x04 then (s.restartProg o).queueLeg o.id
  else ((s.when (l.routine == 0x04) (·.progBegun o)).onOp o.id fun x => { x with redo := false }).advance o.id
/-- A data-out segment of an operation has ended with its bytes (R176, R241): what is missing is queued again. -/
def State.dataOutDone (s : State) (o : Op) (l : Leg) (d : List Byte) : State :=
  let n := min l.count d.length
  let s := s.chargeOp o (s.pjB Reg.BOX_EBYTE0_BUS n)
  let s := s.received o (l.soft == 2) l.fl (d.take n)
  if n < l.count then
    (s.onOp o.id fun x =>
      { x with plan := { l with col := l.col + n, count := l.count - n, fl := outRest n l.fl } :: x.plan.tail }).queueLeg o.id
  else s.advance o.id
/-- The leg of an operation has ended with an END code of R204. A command that ended PARTIAL was not issued: it comes again,
unless its erase is removed (R133). -/
def State.legEnd (s : State) (o : Op) (l : Leg) (code : Nat) (d : List Byte) : State :=
  if l.kind = 2 then s.dataOutDone o l d
  else if l.kind = 3 then (if code = 1 then s.queueLeg o.id else s.dataInDone o l)
  else if code = 1 then (if o.kind == .erase && o.tag.isNone then (s.opTokens o.id).delOp o.id else s.queueLeg o.id)
  else s.commandDone o l
/-- R274: the leg of an operation was cut by a CHERR: once it is issued again, and the second time the operation fails. -/
def State.legCut (s : State) (ch : Nat) (o : Op) : State :=
  if o.cherr ≠ 0 then s.failOp o.id stInternal (3 + s.rd (Reg.CH_STAT_CHERR_KIND ch) * 2 ^ 8 + ch * 2 ^ 16)
  else
    let s := s.each (s.opFlights o) fun s f => s.when (!f.full) fun s => s.onFlight f.id fun f => { f with buf := false }
    (s.onOp o.id fun x => { x with cherr := 1 }).queueLeg o.id

/-! Status segments (R178, R188, R190). -/

/-- R190: a status has passed after a RESET LUN. -/
def State.unblock (s : State) (lun : Nat) : State :=
  let s := s.onTop fun t => { t with blocked := t.blocked.filter (· != lun) }
  let s := s.each (s.top.ops.filter fun o => o.lun == lun && o.resetting != 0) fun s o => (s.opTokens o.id).delOp o.id
  s.setResident lun none
/-- R188: the status shows the operation suspended. -/
def State.nowSuspended (s : State) (o : Op) : State :=
  (s.opTokens o.id).onOp o.id fun x =>
    { x with st := .suspended, suspAt := s.now, served := 0, ran := x.ran + (s.now - x.began), resuming := false }
/-- The array phase of an operation has ended: R186 drops a suspend that still waits. -/
def State.arrayDone (s : State) (o : Op) (ok : Bool) : State :=
  let s := s.dropSegs o.id fun g => g.what == 2
  match o.kind with
  | .prog | .erase => s.arrayEnd o.id ok
  | _ =>
    let rest := o.plan.tail
    let s := s.when (!(rest.any fun l => l.kind == 1)) (·.opTokens o.id)
    (s.onOp o.id fun x => { x with st := .bus }).advance o.id
/-- A status segment of a LUN has ended. -/
def State.pollEnd (s : State) (lun code : Nat) : State :=
  let busy := code == 3 && (s.arrayOp lun).isNone
  let s := s.onTop fun t =>
    { t with
      mustPoll := t.mustPoll.filter (· != lun)
      lunBusy := t.lunBusy.filter (· != lun) ++ (if busy then [lun] else []) }
  if s.top.blocked.contains lun then
    if code = 0 then s.unblock lun else s
  else match s.arrayOp lun with
    | none => s
    | some o =>
      let s := s.onOp o.id fun x => { x with resumed := false }
      if code = 3 then s
      else if code = 4 then s.nowSuspended o
      else s.arrayDone o (code != 2)

/-! The end of a segment. -/

/-- R229: a fault ends the segment: the operation has the outcome INTERNAL. One whose array phase has begun stays under
its watchdog. -/
def State.segFault (s : State) (ch : Nat) (g : Option Seg) (code : Nat) : State :=
  let o := match g with | some g => s.op? g.op | none => none
  let cls := match o with | some o => s.failClass o | none => clsUnrecovered
  let s := s.err1 cls 6 1 ch code
  let s := s.onTop fun t =>
    { t with
      mustPoll := t.mustPoll ++ ((List.range 32).map (32 * ch + ·)).filter fun l =>
        s.lunServes l && !t.mustPoll.contains l }
  let s := match g.bind Seg.job with | some j => s.jobCut ch j | none => s
  match o, g with
  | some o, some g =>
    let det := 2 + code * 2 ^ 8 + ch * 2 ^ 16
    if g.what == 0 && o.st != .array then s.failOp o.id stInternal det
    else if o.resetting != 0 then s
    else (s.failFrames o stInternal det).onOp o.id fun x => { x with parts := [] }
  | _, _ => s
/-- R274: a segment was cut by a CHERR: it is issued again, and the second time its operation has the outcome INTERNAL. A
VOL_SELECT comes again with the segment that needs it (R460). -/
def State.segCut (s : State) (ch : Nat) (g : Seg) : State :=
  let det := 3 + s.rd (Reg.CH_STAT_CHERR_KIND ch) * 2 ^ 8 + ch * 2 ^ 16
  match g.job, s.op? g.op with
  | some j, _ => s.jobCut ch j
  | none, none => if g.what = 1 then s.addSeg g else s
  | none, some o =>
    if g.what = 0 then s.legCut ch o
    else if o.cherr = 0 then (s.onOp o.id fun x => { x with cherr := 1 }).addSeg g
    else if o.resetting ≠ 0 then s
    else if g.what = 3 then s.failOp o.id stInternal det
    else (s.failFrames o stInternal det).onOp o.id fun x => { x with parts := [] }
/-- R204: no die answered a segment: its operation ends with DIE_ABSENT (log entry 61). -/
def State.noDie (s : State) (g : Seg) : State :=
  let s := s.onTop fun t =>
    { t with mustPoll := t.mustPoll.filter (· != g.lun), lunBusy := t.lunBusy.filter (· != g.lun) }
  match (if g.what = 1 then s.arrayOp g.lun else s.op? g.op) with
  | some o => s.failOp o.id stAbsent 0
  | none => s
/-- The effect of the end of a segment on what it belongs to. -/
def State.segDone (s : State) (ch : Nat) (g : Seg) (code : Nat) (d : List Byte) (cut : Bool) : State :=
  if cut then s.segCut ch g
  else if code = 5 ∧ g.job = none then s.noDie g
  else match g.what with
  | 1 => s.pollEnd g.lun code
  | 2 => (s.bump Reg.TOP_SUSPENDS_CNT 1).onOp g.op fun o => { o with susp := o.susp + 1, suspSent := true }
  | 3 => (s.onOp g.op fun o => { o with st := .array, began := s.now, resuming := false, suspSent := false, resumed := true, served := 0 })
  | 4 => (s.onOp g.op fun o => { o with st := .array, began := s.now })
  | 5 => s.onTop fun t => { t with vol := tset 8 t.vol ch (lunTarget g.lun) }
  | 6 => match g.job with | some j => s.jobEnd ch j code | none => s
  | _ =>
    match s.op? g.op with
    | none => s
    | some o => s.legEnd o g.leg code d
/-- R249, R510: the drain of an Espalier activation ends when no sequencer runs a routine: the load pass begins. -/
def State.actStep (s : State) : State :=
  match s.hly.actv with
  | none => s
  | some a =>
    if !a.mcs || a.stage != 1 || (List.range 8).any (fun n => (s.seq n).run) then s
    else
      ((s.setb Reg.MCS_CTL_LOAD_EN).onMcs fun m => { m with loading := some a.bank }).onHly fun h =>
        { h with actv := some { a with stage := 3 } }
/-- The bus of a channel is free: the operations of the LUN go on, and the next segment runs. -/
def State.busFree (s : State) (ch : Nat) (lun : Option Nat) : State :=
  let s := s.domStep.settle.actStep
  let s := match lun with | some l => s.queueLun l | none => s
  (s.dropHeld ch).kick ch
/-- R204: a segment of a channel has ended with a code and W0. The bytes are those that the channel data path received
(R241); `cut` says that the segment took a CHERR (R274). -/
def State.segEnd (s : State) (ch code w0 : Nat) (d : List Byte) (cut : Bool) : State :=
  match tget none s.top.run ch with
  | none => s
  | some g =>
    let s := (s.onTop fun t => { t with run := tset none t.run ch none }).giveJob ch
    let s := s.when (decide (0x80 ≤ code)) (·.post1 3 (code + ch * 2 ^ 8 + w0 * 2 ^ 16))
    if 6 ≤ code ∧ code < 0x80 then (s.segFault ch (some g) 1).busFree ch (some g.lun)
    else (s.segDone ch g code d cut).busFree ch (some g.lun)
/-- R229: the running segment of a channel has ended with a fault. -/
def State.segFaulted (s : State) (ch code : Nat) : State :=
  let g := tget none s.top.run ch
  (((s.onTop fun t => { t with run := tset none t.run ch none }).giveJob ch).segFault ch g code).busFree ch (g.map Seg.lun)

end Sys2Proof.Machine
end

