-- ==== Sys2Proof/Machine/Channel.lean ====
section
/-!
DEFINITION. The flash channels: the climb of the service levels (R259, R260), relocks (R258), TRAIN (R264 to R271),
ZQCAL (R262, R263), the loopback test (R277, R278), the loss of lock or power (R273, R274) and channel reset (R279,
R518).
-/
namespace Sys2Proof.Machine

/-! Targets and modes (R259). -/

/-- The profiles bound on a channel. -/
def State.chProfs (s : State) (n : Nat) : List (List Byte) := (s.boundTargets n).filterMap (s.targProf n)
/-- The least of a list of numbers; d where it is empty. -/
def leastOf (d : Nat) (l : List Nat) : Nat := match l with | [] => d | x :: r => r.foldl min x
/-- R259: the interface mode of a channel above SDR; 0 keeps it at SDR. -/
def State.chMode (s : State) (n : Nat) : Nat := leastOf 0 ((s.chProfs n).map prMaxif)
/-- R259: the highest bin that a rate allows. -/
def binFor (rate : Nat) : Nat := ((List.range 12).filter fun b => decide (binRate b ≤ rate)).length - 1
/-- The highest bin that the bound profiles' lowest MAXRATE allows. -/
def State.chCap (s : State) (n : Nat) : Nat := binFor (leastOf 0 ((s.chProfs n).map prMaxRate))
/-- The highest bin of the channel's interface mode (R256). -/
def State.topBin (s : State) (n : Nat) : Nat := if s.rd (Reg.CH_MODE_IFMODE n) = 1 then 6 else 11
/-- R264, R265: the bin that TRAIN tries first. -/
def State.firstBin (s : State) (n : Nat) : Nat :=
  min (min (s.rd (Reg.CH_CTL_MAX_BIN n)) (s.rd (Reg.CH_MODE_CAP_BIN n))) (s.topBin n)

/-! The climb (R260). -/

/-- R260: the segments that switch a target to the channel's mode: ZQ_LONG, the drive strength and the configuration of its ODT
register, and the timing mode. -/
def State.preJobs (s : State) (n t : Nat) : List ChJob :=
  [{ routine := 0x16, target := t }, featJob t 0x10 (s.rd (Reg.CH_T_ODT_DIE_DRV n t)),
   featJob t 0x02 (s.rd (Reg.CH_T_ODT_DIE_ODT n t)), featJob t 0x01 (s.preBin n + 16 * s.chMode n)]
/-- R260: at SDR, the switch of every target to the channel's mode begins, unless PRE_EN holds it; it ends with the
relock to the bin of PRE, or, after an unchanged rediscovery, to the trained bin (R465). -/
def State.climbOn (s : State) (n : Nat) (back : Bool) : State :=
  if s.level n != 1 || !s.is (Reg.CH_CTL_PRE_EN n) || s.chMode n == 0 || (s.chan n).climb != 0 then s
  else
    let keep := back && s.rd (Reg.CH_MODE_TRAINED_BIN n) != 15 && s.is (Reg.CH_CTL_FULL_EN n)
    (s.onChan n fun c => { c with climb := if keep then 2 else 1 }).startJobs n ((s.boundTargets n).flatMap (s.preJobs n))
      (some (if keep then s.rd (Reg.CH_MODE_TRAINED_BIN n) else s.preBin n))
/-- R259, R461: the segments `js` and the SET_FEAT of every bound target to the working SDR mode, then the relock with which
the channel is at SDR; a channel without a bound target, without power or without a valid image is ABSENT. -/
def State.climb (s : State) (n : Nat) (back : Bool) (js : List ChJob) : State :=
  if (s.boundTargets n).isEmpty || (s.chan n).chainBad || !s.is (Reg.CH_STAT_PWRGD n) || !s.is Reg.MCS_CTL_VALID then
    (s.setLevel n 0 clsRecovered).onChan n fun c => { c with wp := false }
  else
    (s.onChan n fun c => { c with climb := if back then 4 else 3 }).startJobs n (js ++ s.sdrJobs n) (some 0)
/-- R461: the relock to SDR has ended: FCn_WP_N is released, and the channel climbs on. -/
def State.atSdr (s : State) (n : Nat) (back : Bool) : State :=
  let s := ((s.wr (Reg.CH_MODE_IFMODE n) 0).wr (Reg.CH_MODE_SDR_TM n) (s.chSdr n)).wr (Reg.CH_MODE_CAP_BIN n)
    (s.chCap n)
  ((s.setLevel n 1 clsRecovered).onChan n fun c => { c with wp := true }).climbOn n back

/-! TRAIN (R264 to R271). -/

/-- R266: RESULT of a TRAIN. -/
def trainResult (bin : Nat) (full : Bool) (eye : Nat) : Nat := bin % 16 + b2n full * 16 + (eye % 256) * 256
/-- R271: when a TRAIN has ended, the conditions of the moment are compared with the new stamp. -/
def State.stampCheck (s : State) (n : Nat) : State :=
  if s.stampOff n || s.loadOff n (s.rd Reg.BOX_FC_CNT_LOAD_LAST) then s.flag n else s
/-- R257, R264: the trial delays of a target become the set in use. The list holds RE_DCC and DQS_DCC, eight read delays
and the read gate, eight write delays and the write DQS delay. -/
def State.useDelays (s : State) (n bin : Nat) (x : Nat × List Nat × Nat × Nat) : State :=
  let t := x.1
  let d := fun i => x.2.1.getD i 0
  let s := (s.wr (Reg.CH_T_DQS_RE_DCC n t) (d 0)).wr (Reg.CH_T_DQS_DQS_DCC n t) (d 1)
  let s := s.each (List.range 4) fun s k =>
    (((s.wr (Reg.CH_T_RDQ0_DLY n t k) (d (2 + k))).wr (Reg.CH_T_RDQ1_DLY n t k) (d (6 + k))).wr
      (Reg.CH_T_WDQ0_DLY n t k) (d (11 + k))).wr (Reg.CH_T_WDQ1_DLY n t k) (d (15 + k))
  let s := (s.wr (Reg.CH_T_DQS_RD_GATE n t) (d 10)).wr (Reg.CH_T_DQS_WR_DQS n t) (d 19)
  let s := ((s.wr (Reg.CH_T_EYE_RD_EYE n t) (min 63 x.2.2.1)).wr (Reg.CH_T_EYE_WR_EYE n t) (min 63 x.2.2.2)).wr
    (Reg.CH_T_EYE_BIN n t) bin
  (s.setb (Reg.CH_T_EYE_VALID n t)).wr (Reg.CH_T_TIME_TIME n t) (s.now % 2 ^ 32)
/-- R266, R267, R270, R480: the bin passed: the trial set is in use, the channel is FULL at the bin, and the stamp is
recorded. A channel that FULL_EN holds at PRE discards the set. -/
def State.trainApply (s : State) (n : Nat) (t : Training) : State :=
  if !s.is (Reg.CH_CTL_FULL_EN n) then (s.toPre n clsRecovered).trainDone n stOK 0 (trainResult (s.preBin n) false t.eye)
  else
    let s := s.each t.trial fun s x => s.useDelays n t.bin x
    let new := s.rd (Reg.CH_MODE_TRAINED_BIN n) != t.bin
    let s := (s.wr (Reg.CH_STAT_BIN n) t.bin).wr (Reg.CH_MODE_TRAINED_BIN n) t.bin
    let s := (s.wr (Reg.CH_STAT_FALLBACK n) 0).wr (Reg.CH_STAT_FLAGGED n) 0
    let s := s.setLevel n 3 clsCorrected
    let s := ((s.wr (Reg.CH_STAMP_ACT n) t.act).wr (Reg.CH_STAMP_VPT n) s.vpt).wr (Reg.CH_STAMP_TEMP n)
      (s.rd Reg.BOX_TEMP_READING)
    let s := (s.setb (Reg.CH_STAMP_VALID n)).when new fun s => s.keepTrain n
    (s.trainDone n stOK 0 (trainResult t.bin true t.eye)).stampCheck n
/-- R266: no bin passed. RESULT names PRE's bin with the margin measured there; a margin never measured there is not in
the spec. -/
def State.trainFail (s : State) (n : Nat) (t : Training) : State :=
  let s := (s.setb (Reg.CH_STAT_TRAIN_FAIL n)).err1 clsRecovered 7 2 n
  let s := s.when (s.level n == 3) fun s => s.toPre n clsRecovered
  let b := s.preBin n
  match t.eyes.find? fun e => e.1 == b with
  | some e => s.trainDone n stOK 0 (trainResult b false e.2)
  | none => let (v, s) := s.draw; s.trainDone n stOK 0 (trainResult b false v)
/-- A trial at a bin begins. -/
def Training.trial? (t : Training) (bin first : Nat) : Training :=
  { t with bin := bin, target := first, kind := 0, eye := 63, trial := [], slice := false, ending := false }
/-- R264, R270: TRAIN starts with its lease: a background TRAIN of a channel in fallback at the trained bin, any other at
the lower of MAX_BIN and CAP_BIN. A channel below PRE trains nothing (R254): the answer is that of R196, the model's choice
(log entry 61). -/
def State.trainBegin (s : State) (n : Nat) : State :=
  let back := (s.chTag n .train).isNone && s.is (Reg.CH_STAT_FALLBACK n)
  let bin := if back then s.rd (Reg.CH_MODE_TRAINED_BIN n) else s.firstBin n
  match s.boundTargets n with
  | [] => s.trainDone n stDeferred (detailDeferred 4 1 n) 0
  | f :: _ =>
    if s.level n < 2 then s.trainDone n stDeferred (detailDeferred 4 1 n) 0
    else
      let t := { Training.trial? {} bin f with back := back }
      if bin < s.lowBin n then s.trainFail n t else s.onChan n fun c => { c with train := some t }
/-- R198, R330, R513: no slice starts: the hold-up sequence or a warm reset. -/
def State.sliceStopped (s : State) : Bool := s.startStopped || s.pwr.econ.isSome
/-- The bus of a channel is free and it has no relock to make. -/
def State.busIdle (s : State) (n : Nat) : Bool :=
  (tget none s.top.run n).isNone && !(s.seq n).run && (s.chan n).relock.isNone && (s.chan n).jobs.isEmpty
/-- R264: the segments of a slice of TRAIN: the PHY's measurements go with them. -/
def sliceJobs (kind t : Nat) : List ChJob :=
  let rd : ChJob := { routine := 0x19, kind := 2, target := t }
  let wr : ChJob := { routine := 0x1A, kind := 3, target := t }
  if kind = 0 then [{ routine := 0x18, target := t }] else if kind = 1 then [rd] else if kind = 2 then [wr] else [rd, wr]
/-- R263: the segments of a slice of ZQCAL. -/
def zqJobs (t : Nat) : List ChJob := [{ routine := 0x17, target := t }, { routine := 0, kind := 1, target := t }]

/-- R264: the next slice of a TRAIN starts. One whose channel is below PRE by then ends with INTERNAL, the model's choice
(log entry 61). -/
def execTrainSliceStart (ch : Fin 8) (s : State) : Out :=
  .next (match (s.chan ch.val).train with
    | none => s
    | some t =>
      if t.slice || t.ending || s.sliceStopped || !s.busIdle ch.val || s.seqStopped ch.val then s
      else if s.level ch.val < 2 then
        s.trainDone ch.val stInternal (3 + s.rd (Reg.CH_STAT_CHERR_KIND ch.val) * 2 ^ 8 + ch.val * 2 ^ 16) 0
      else (s.onChan ch.val fun c => { c with train := some { t with slice := true } }).startJobs ch.val
        (sliceJobs t.kind t.target) none)

/-- The number of delays that a slice kind finds. -/
def kindDelays (k : Nat) : Nat := if k = 0 then 2 else if k ≤ 2 then 9 else 0
/-- The trial of a target with the findings of a slice added. -/
def addTrial (l : List (Nat × List Nat × Nat × Nat)) (target kind : Nat) (r : SliceRes) :
    List (Nat × List Nat × Nat × Nat) :=
  let d := (List.range (kindDelays kind)).map fun i => r.delays.getD i 0
  if kind = 0 then l ++ [(target, d, 0, 0)]
  else l.map fun x => if x.1 = target then
      (x.1, x.2.1 ++ d, if kind = 3 then (r.rdEye, r.wrEye) else x.2.2) else x
/-- R265, R266, R270: every target is verified at the trial bin: it passes, or the next bin is tried. -/
def State.binEnd (s : State) (n : Nat) (t : Training) : State :=
  let t := { t with eyes := t.eyes ++ [(t.bin, t.eye)] }
  let first := (s.boundTargets n).headD 0
  if s.eyeThresh n ≤ t.eye then
    if t.bin = s.rd (Reg.CH_STAT_BIN n) then s.trainApply n t
    else (s.onChan n fun c => { c with train := some { t with ending := true } }).relock n t.bin
  else
    let next :=
      if t.back then
        let b := s.rd (Reg.CH_STAT_BIN n)
        if s.is (Reg.CH_STAT_FALLBACK n) && t.bin != b then some b else none
      else if s.lowBin n < t.bin then some (t.bin - 1) else none
    match next with
    | some b => s.onChan n fun c => { c with train := some (t.trial? b first) }
    | none => s.trainFail n t
/-- R264: a slice has ended: the same kind goes on, or the next kind, or the next target, or the bin is judged. -/
def State.sliceNext (s : State) (n : Nat) (t : Training) (r : SliceRes) : State :=
  let t := { t with slice := false }
  let put := fun (s : State) (t : Training) => s.onChan n fun c => { c with train := some t }
  if !r.complete then put s t
  else
    let t := { t with trial := addTrial t.trial t.target t.kind r }
    if t.kind < 3 then put s { t with kind := t.kind + 1 }
    else
      let t := { t with eye := min t.eye (min r.rdEye r.wrEye) }
      let s := s.wr (Reg.CH_MARGIN_LAST n) t.eye
      match (s.boundTargets n).find? fun x => decide (t.target < x) with
      | some x => put s { t with target := x, kind := 0 }
      | none => s.binEnd n t
/-- R198, R271, R516: the hold-up sequence or a warm reset ends a TRAIN at the end of its slice; the trial set is
discarded, and a relock to its bin goes back to the bin in use. The MAINT completes with ABORTED_BY_RESET if a warm reset runs. -/
def State.trainCut (s : State) (n : Nat) : State :=
  let s := match (s.chan n).train with
    | some t => if t.ending then s.onChan n fun c => { c with relock := c.relock.map fun _ => s.rd (Reg.CH_STAT_BIN n) } else s
    | none => s
  if s.sys.warmRun.isSome then s.trainDone n stByReset 0 0
  else (s.onChan n fun c => { c with train := none }).dropLease .train [resCh n]

/-- R266: a training slice ends. -/
def execTrainSliceEnd (ch : Fin 8) (r : SliceRes) (s : State) : Out :=
  .next (match (s.chan ch.val).train with
    | none => s
    | some t =>
      if !t.slice || !s.busIdle ch.val then s
      else
        let s := if s.pwr.hold != 0 || s.pwr.warn || s.sys.warmRun.isSome then s.trainCut ch.val
          else s.sliceNext ch.val t r
        s.busFree ch.val none)

/-! Relocks (R258). -/

/-- The relock of a channel has ended: the new bin is in use. A relock that ends the climb brings PRE, with TRAIN, or the
return to FULL; one that ends a TRAIN brings FULL; one that ends a drop to SDR brings the SDR interface (R273). -/
def State.relocked (s : State) (n bin : Nat) : State :=
  let climb := (s.chan n).climb
  let s := s.onChan n fun c => { c with relock := none, climb := 0 }
  let s :=
    if climb = 3 ∨ climb = 4 then s.atSdr n (climb == 4)
    else if climb = 5 then
      ((s.wr (Reg.CH_MODE_IFMODE n) 0).wr (Reg.CH_MODE_SDR_TM n) (s.chSdr n)).wr (Reg.CH_STAT_BIN n) 0
    else if climb ≠ 0 then
      let s := s.when (climb == 1) fun s => s.untrain n
      let s := ((s.wr (Reg.CH_MODE_IFMODE n) (s.chMode n)).wr (Reg.CH_STAT_BIN n) bin).setLevel n 2 clsCorrected
      if climb = 2 then s.setLevel n 3 clsCorrected
      else if s.is (Reg.CH_CTL_AUTO_TRAIN n) then s.wantTrain n none else s
    else if 2 ≤ s.level n then s.wr (Reg.CH_STAT_BIN n) bin
    else s
  match (s.chan n).train with
  | some t => if t.ending then s.trainApply n t else s
  | none => s

/-- R258: a PHY relock completes, and held segments go on. -/
def execPhyRelockDone (ch : Fin 8) (s : State) : Out :=
  .next (match (s.chan ch.val).relock with
    | some b => if (s.seq ch.val).run then s else (s.relocked ch.val b).busFree ch.val none
    | none => s)

/-! Calibration (R262, R263). -/

/-- R262: a wing's calibration engine runs. -/
def execPhyZqCalibration (wing : Fin 2) (s : State) : Out :=
  .next (if s.pwr.st == .off then s else s.phyZq wing.val)

/-- R263: ZQCAL starts with its lease. -/
def State.zqBegin (s : State) (n : Nat) : State :=
  match s.boundTargets n with
  | [] => s.zqDone n stDeferred (detailDeferred 4 1 n) 0
  | f :: _ =>
    if s.level n = 0 then s.zqDone n stDeferred (detailDeferred 4 1 n) 0
    else (s.onChan n fun c => { c with zqTarget := some f, zqFail := 0 }).startJobs n (zqJobs f) none
/-- R263: a ZQCAL slice on its target: the mask of failed targets, then the next target. -/
def State.zqNext (s : State) (n t : Nat) (failed : Bool) : State :=
  let m := (s.chan n).zqFail + b2n failed * 2 ^ t
  if s.sys.warmRun.isSome then s.zqDone n stByReset 0 0
  else match (s.boundTargets n).find? fun x => decide (t < x) with
    | some x =>
      if s.pwr.hold != 0 || s.pwr.warn then (s.onChan n fun c => { c with zqTarget := none }).dropLease .zqcal [resCh n]
      else (s.onChan n fun c => { c with zqTarget := some x, zqFail := m }).startJobs n (zqJobs x) none
    | none =>
      if s.pwr.hold != 0 || s.pwr.warn then (s.onChan n fun c => { c with zqTarget := none }).dropLease .zqcal [resCh n]
      else s.zqDone n stOK 0 (m % 256)

/-- R263: one slice of ZQCAL. -/
def execZqcalSlice (ch : Fin 8) (failed : Bool) (s : State) : Out :=
  .next (match (s.chan ch.val).zqTarget with
    | some t => if s.busIdle ch.val then (s.zqNext ch.val t failed).busFree ch.val none else s
    | none => s)

/-! Loopback (R277, R278). -/

/-- R277, R278: RESULT of the loopback test of a channel from what the PHY found: 0 on a pass; else the lines, the bin of the
first failure, which is one of those tested, 0xF at SDR, and the byte. -/
def State.loopResult (s : State) (n r : Nat) : Nat :=
  let b := s.rd (Reg.CH_STAT_BIN n)
  let bin := if s.level n = 1 then 15 else if s.level n = 2 then b else min b (max (s.lowBin n) (bits r 16 4))
  if bits r 0 11 = 0 then 0 else bits r 0 11 + bin * 2 ^ 16 + bits r 20 12 * 2 ^ 20
/-- R278: the loopback test of a channel ends with its result. Under hold-up its record is lost (R198). -/
def State.loopDone (s : State) (n result : Nat) : State :=
  let s := s.when (result != 0) (·.setb (Reg.CH_STAT_LOOP_FAIL n))
  let s := s.onChan n fun c => { c with selftest := false }
  if s.sys.warmRun.isSome then s.endChAct n .selftestCh stByReset 0 0
  else if s.pwr.hold != 0 || s.pwr.warn then s.dropLease .selftestCh [resCh n]
  else s.endChAct n .selftestCh stOK 0 result

/-- R278: the loopback test ends. -/
def execSelftestChannelDone (ch : Fin 8) (result : W32) (s : State) : Out :=
  .next (if (s.chan ch.val).selftest && s.busIdle ch.val then
      (s.loopDone ch.val (s.loopResult ch.val result.toNat)).busFree ch.val none
    else s)

/-! Channel errors (R273 to R276). -/

/-- R273, R276: the PHY clock or a delay line loses lock outside a relock. -/
def execCherrDllUnlock (ch : Fin 8) (s : State) : Out :=
  .next (if (s.chan ch.val).relock.isSome || s.level ch.val == 0 then s
    else
      let s := s.failActs ch.val stInternal (3 + 2 * 2 ^ 8 + ch.val * 2 ^ 16) false
      (s.cherr ch.val 2).busFree ch.val none)

/-- R437: an event wakes the complex from NAP or DORMANT. -/
def State.wakeLow (s : State) : State :=
  s.when (s.pwr.st == .nap || s.pwr.st == .dormant) fun s =>
    s.onPwr fun p => { p with waking := if p.waking.isSome then p.waking else some 0 }

/-- R273: FC_PWRGD of an enabled domain falls; in NAP and DORMANT that also wakes the complex (R437). -/
def execPwrLoss (dom : Fin 4) (s : State) : Out :=
  .next (if !bit (s.rd Reg.PWR_DOM_EN) dom.val || !s.is (Reg.CH_STAT_PWRGD (2 * dom.val)) then s
    else ((s.losePower (2 * dom.val)).losePower (2 * dom.val + 1)).settle.wakeLow)

/-! Channel reset (R279, R518). -/

/-- Entries added to the TORN list (R523, R531). -/
def State.addTorn (s : State) (l : List Torn) : State :=
  let all := s.err.torn ++ l
  let s := s.onErr fun e => { e with torn := all.take 255 }
  let s := s.wr Reg.ERR_TORN_COUNT (min 255 all.length)
  let s := s.when (decide (255 < all.length)) (·.setb Reg.ERR_TORN_OVER)
  s.when (!l.isEmpty) (·.setb Reg.ERR_TORN_NEW)
/-- R518: the wordline groups of a channel that are left between passes, or whose pass had begun. -/
def State.tornGroups (s : State) (n : Nat) : List Torn :=
  (s.top.groups.filter fun g => lunCh g.lun == n && !g.ended &&
      (g.done != 0 || s.top.ops.any fun o => o.ord == g.ord && o.lun == g.lun && o.begun)).filterMap fun g =>
    match s.lunProf g.lun with
    | none => none
    | some p =>
      some { pfa := mkPfa g.lun (lowPlane g.planes) g.block ((groupPages p g.pslc g.group).headD 0) 0
             passes := some g.done, of := passesOf p g.pslc, source := 3, failed := 0 }
/-- R279, R280, R232: the registers of a channel that a reset sets to their cold values. -/
def State.chRegsCold (s : State) (n : Nat) : State :=
  let cold := fun (s : State) (F : Fld) => s.wr F F.cold
  let s := s.each [Reg.CH_STAT_BIN n, Reg.CH_STAT_FLAGGED n, Reg.CH_STAT_FALLBACK n, Reg.CH_STAT_TRAINING n,
    Reg.CH_STAT_LVL_CHG n, Reg.CH_STAT_CHERR n, Reg.CH_STAT_TRAIN_FAIL n, Reg.CH_STAT_LOOP_FAIL n,
    Reg.CH_STAT_EVT_HIT n, Reg.CH_ERRCNT_PHYERR n, Reg.CH_ERRCNT_CHERR n, Reg.CH_ERRCNT_FALLBACKS n, Reg.CH_STAT_CHERR_KIND n, Reg.CH_STAT_LEVEL n, Reg.CH_MODE_IFMODE n, Reg.CH_MODE_SDR_TM n,
    Reg.CH_MODE_TRAINED_BIN n, Reg.CH_STAMP_VALID n, Reg.TOP_LUNQ_HIT_HIT n, Reg.TOP_CHLEASE_CH n,
    Reg.MCS_FAULT_UPC n, Reg.MCS_FAULT_VALID n, Reg.MCS_FAULT_CODE n, Reg.MCS_FAULT_STUCK n, Reg.MCS_FAULT_TCODE n] cold
  s.each (List.range 8) fun s t =>
    let s := s.each (List.range 4) fun s k =>
      cold (cold (cold (cold s (Reg.CH_T_RDQ0_DLY n t k)) (Reg.CH_T_RDQ1_DLY n t k)) (Reg.CH_T_WDQ0_DLY n t k))
        (Reg.CH_T_WDQ1_DLY n t k)
    s.each [Reg.CH_T_DQS_RD_GATE n t, Reg.CH_T_DQS_WR_DQS n t, Reg.CH_T_DQS_RE_DCC n t, Reg.CH_T_DQS_DQS_DCC n t,
      Reg.CH_T_EYE_RD_EYE n t, Reg.CH_T_EYE_WR_EYE n t, Reg.CH_T_EYE_BIN n t, Reg.CH_T_EYE_VALID n t,
      Reg.CH_T_TIME_TIME n t] cold
/-- R518, step 1: the channel reset: the segment is cut, the channel is ABSENT, its operations fail, its FIFO and its
sequencer are reset. -/
def State.chReset (s : State) (n : Nat) : State :=
  let torn := s.tornGroups n
  let s := (s.goAbsent n).onTop fun t => { t with groups := t.groups.filter fun g => lunCh g.lun != n }
  let s := s.each [Act.zqcal, Act.train, Act.selftestCh] fun s a => s.dropLease a [resCh n]
  let s := (s.onChan n fun c => { c with events := [], evHeld := [], phyErrs := [], active := false, reset := true }).onSeq n fun _ => {}
  let s := (s.chRegsCold n).addTorn torn
  (s.err1 clsContained 0xF 2 n).settle
/-- R518: a write of RST: ignored while the channel's reset runs, held during a warm reset. -/
def State.chRst (s : State) (n : Nat) : State :=
  if (s.chan n).reset then s
  else if s.sys.warmRun.isSome then
    s.onSys fun y => { y with chResetHeld := if y.chResetHeld.contains n then y.chResetHeld else y.chResetHeld ++ [n] }
  else s.chReset n
/-- R518, step 3: RESET at every bound target, and the channel climbs again with its bindings. -/
def State.chResume (s : State) (n : Nat) : State :=
  let s := (s.onChan n fun c => { c with reset := false }).forgetResident n
  if (s.chan n).disc then s else s.climb n false ((s.boundTargets n).map fun t => { routine := 0x0D, target := t })

/-- R518: every ready/busy line of the channel is high, or the erase watchdog has elapsed. -/
def execChannelResetResume (ch : Fin 8) (s : State) : Out :=
  .next (if (s.chan ch.val).reset then (s.chResume ch.val).busFree ch.val none else s)

end Sys2Proof.Machine
end

