-- ==== Sys2Proof/Machine/Encode.lean ====
section
/-!
DEFINITION. The encoder of a channel: the frames of a program pass as they are checked, marked and encoded (R71, R282,
R284, R290), the bytes of a page (R138 to R143, R289), the staging buffer (R294), and the map entries that a FUA program
gives back (R580).
-/
namespace Sys2Proof.Machine

/-! R580. -/

/-- R580: the entries that frames of a FUA program replaced come back, where they still name the frame's PFA; its
updates that have not taken effect are dropped. `f` tells the LFAs concerned. -/
def State.restoreFua (s : State) (tag order : Nat) (f : Nat → Bool) : State :=
  let mine := s.map.replaced.filter fun r => r.1 == tag && f r.2.2.1
  let s := s.onMap fun m =>
    { m with
      replaced := m.replaced.filter fun r => !(r.1 == tag && f r.2.2.1)
      upds := (m.upds.filter fun u => !(u.order == order && f u.lfa)) ++ mine.map fun r =>
        { order := order, region := r.2.1, lfa := r.2.2.1, kind := 2, onlyIf := some r.2.2.2.2, entry := r.2.2.2.1 } }
  s.tryUpds
/-- R580: an accepted frame of a FUA program is dirty no longer, and its slot is padded. -/
def State.dropDirty (s : State) (d : Dirty) : State := (s.padPf (.dirty d.order d.pos)).dirtyEnd d

/-! Frames (R71, R282, R284, R303). -/

/-- The diode reads below COLD_WARN (R282). -/
def State.coldNow (s : State) : Bool := decide (s.temp < s.thresh 1)
/-- The marks that encoding adds to a frame's metadata. -/
def State.stampMeta (s : State) (m : Meta) : Meta := { m with ptemp := unsgn 8 s.tempC, cold := s.coldNow }
/-- A frame of zeros with the PAD mark (R180). -/
def State.padFrame (s : State) (region c : Nat) : List Byte :=
  mkFrame (fill 4096 0)
    (s.stampMeta { kind := kindPad, region := region, cclass := c, dcrc := crc32c (fill 4096 0) }).formFcrc
/-- The metadata of a quarter of a map page (R282). -/
def State.mapMeta (s : State) (key : PageKey) (q c seq : Nat) (user : List Byte) (holdup : Bool) : Meta :=
  (s.stampMeta { kind := kindMap, region := key.region.val, cclass := c, level := key.level.val, quarter := q,
                 name := key.page % 2 ^ 32, seq := seq, dcrc := crc32c user, holdup := holdup }).formFcrc
/-- The frame of a program frame is encoded: the 4,128 bytes are kept with it. -/
def State.setPf (s : State) (a : Nat) (d : List Byte) : State :=
  s.onTop fun t => { t with pfs := t.pfs.map fun f => if f.pfa == a then { f with data := d, enc := true } else f }
/-- R71, R580: an accepted FUA frame that fails its check is dirty no longer, and its command has the outcome
CRC_MISMATCH. -/
def State.dirtyCrc (s : State) (d : Dirty) : State :=
  let u := s.unitF d.region
  ((s.restoreFua d.tag d.order fun l => l == d.lfa / u * u).dirtyEnd d).progDone d.tag d.pos stCrc
/-- R71: a FUA or PFA-addressed frame that fails its check is not programmed: its place is padded and its command has the
outcome CRC_MISMATCH. -/
def State.crcFail (s : State) (f : PFrame) : State :=
  let s := s.padPf f.src
  let s := s.setPf f.pfa (s.padFrame f.region f.cclass)
  match f.src with
  | .cmd t p => (match f.buf with | some b => s.bufBack t b | none => s).progDone t p stCrc
  | .dirty o p =>
    match s.que.dirty.find? fun d => d.order == o && d.pos == p with
    | some d => s.dirtyCrc d
    | none => s
  | _ => s
/-- R71, R284: an accepted frame taken from its buffer for encoding: its 4,128 bytes, with the POISON mark where its check
failed after an acceptance that was reported; nothing where a FUA frame fails. -/
def State.dirtyFrame (s : State) (d : Dirty) (holdup : Bool) : Option (List Byte) × State :=
  let (r, s) := s.bufRead d.buf
  let ok := s.bufOk d.buf r
  let m := (s.buf d.buf).slot
  let s := s.when (!ok) (·.bump Reg.ECC_CRCERR_DCRC 1)
  if ok || !d.fua then
    let s := s.when (!ok && !d.poison) fun s =>
      (s.err1 clsUnrecovered 4 4 (objLfa d.region d.lfa)).onQue fun q =>
        { q with dirty := q.dirty.map fun x => if x.order == d.order && x.pos == d.pos then { x with poison := true } else x }
    (some (mkFrame r.data (s.stampMeta { m with poison := !ok, holdup := holdup }).formFcrc), s)
  else (none, s)
/-- A frame taken from its buffer for encoding, with the check of R284. -/
def State.encodeBuf (s : State) (f : PFrame) (b : Nat) : State :=
  let own := match f.src with
    | .dirty o p => s.que.dirty.find? fun d => d.order == o && d.pos == p
    | _ => none
  match own with
  | some d =>
    match s.dirtyFrame d false with
    | (some x, s) => s.setPf f.pfa x
    | (none, s) => s.crcFail f
  | none =>
    let (r, s) := s.bufRead b
    let ok := s.bufOk b r
    let m := (s.buf b).slot
    let s := s.when (!ok) (·.bump Reg.ECC_CRCERR_DCRC 1)
    if ok then s.setPf f.pfa (mkFrame r.data (s.stampMeta m).formFcrc) else s.crcFail f
/-- R160: an update has reached the page between the start of its write-back and its snapshot: the page must wait again. -/
def State.wbTooSoon (s : State) (key : PageKey) : Bool :=
  (s.map.wbs.any fun w => w.key == key && w.snap == []) && match s.mapFind key with
    | some k => (match s.mslot k with | some m => s.wbHeld m k | none => false)
    | none => false
/-- R160: a write-back without a snapshot is given up: its places are padded, and the page, which stays dirty, is written
back later. -/
def State.wbCancel (s : State) (key : PageKey) : State :=
  (s.each (List.range 4) fun s q => s.padPf (.map key q)).onMap fun m => { m with wbs := m.wbs.filter fun w => w.key != key }
/-- A frame of a page is read and encoded (R284, R428). -/
def State.encodeFrame (s : State) (f : PFrame) : State :=
  let s := s.pfEnergy f (s.pjB Reg.BOX_EBYTE1_ENC (cwLen f.cclass) + s.pjB Reg.BOX_EBYTE0_STORE 4128)
  match f.src, f.buf with
  | .map key q, _ =>
    let s := if s.wbTooSoon key then s.wbCancel key else s.snapWb key
    match s.map.wbs.find? fun w => w.key == key with
    | some w =>
      let user := (w.snap.drop (4096 * q)).take 4096
      s.setPf f.pfa (mkFrame user (s.mapMeta key q f.cclass w.seq user false))
    | none => s.setPf f.pfa (s.padFrame f.region f.cclass)
  | .xor w k _, _ =>
    s.setPf f.pfa (match tget none s.ecc.xor (4 * w + k) with
      | some x => fit 4128 x.acc
      | none => s.padFrame f.region f.cclass)
  | .pad, _ => s.setPf f.pfa (s.padFrame f.region f.cclass)
  | .gone, _ => s
  | _, some b => s.encodeBuf f b
  | _, none => s.setPf f.pfa (s.padFrame f.region f.cclass)

/-! Pages (R138 to R143, R289). -/

/-- Bytes lo to hi - 1 of a part that starts at byte `at0` of a page stream. -/
def slice (at0 lo hi : Nat) (l : List Byte) : List Byte := (l.drop (lo - at0)).take (hi - max lo at0)
/-- The bytes of a codeword of a block, encoded from its frame. -/
def State.cwBytes (s : State) (c a : Nat) : List Byte :=
  match s.pf? a with
  | some f => codeword c a f.data
  | none => codeword c a (s.padFrame 0 c)
/-- The bytes of a page of a block of class c in the page stream (R138, R140, R289). -/
def State.pageBytes (s : State) (p : List Byte) (c lun plane block page : Nat) : List Byte :=
  let t := prTotal p
  let base := mkPfa lun plane block 0 0
  let n := prPages p * t / cwLen c
  let lo := page * t
  let hi := lo + t
  let js := (List.range (t / cwLen c + 2)).map (lo / cwLen c + ·)
  let cws := (js.filter fun j => decide (j < n) && decide (j * cwLen c < hi)).flatMap fun j =>
    slice (j * cwLen c) lo (min hi ((j + 1) * cwLen c)) (s.cwBytes c (cwPfa t c base j))
  let e := n * cwLen c
  cws ++ (if hi ≤ e then [] else slice e (max lo e) hi (tailBytes (cwPfa t c base n) (prPages p * t - e)))

/-! The staging buffer (R294). -/

/-- The data-in leg of a channel whose page the encoder takes next. -/
def State.nextStage (s : State) (ch : Nat) : Option (Op × Leg) :=
  let l := s.top.ops.filterMap fun o =>
    if lunCh o.lun != ch || o.st != .bus || o.kind != .prog || o.redo then none
    else ((o.plan.takeWhile fun x => x.kind == 3).find? fun x =>
      !((s.chan ch).staged.any fun (y : Staged) => y.op == o.id && y.plane == x.plane && y.page == x.page)).map
        fun x => (o, x)
  least (fun (x : Op × Leg) => x.1.tier * 2 ^ 64 + x.1.deadline % 2 ^ 64) l
/-- R294: the encoder fills a page of the staging buffer, and its data-in segment is ready for the bus. -/
def State.stage (s : State) (ch : Nat) (o : Op) (l : Leg) : State :=
  match s.lunProf o.lun with
  | none => s
  | some p =>
    let fs := (s.framesOn p o.lun l.plane o.block l.page).filter fun f => pfaPage f.pfa == l.page || !f.enc
    let s := s.each fs fun s f => s.encodeFrame f
    let d := s.pageBytes p o.cclass o.lun l.plane o.block l.page
    (s.onChan ch fun c =>
      { c with staged := c.staged ++ [{ op := o.id, plane := l.plane, page := l.page, bytes := d }] }).queueLeg o.id

/-- The passes of a channel that send their pages again start over once no segment of theirs runs. -/
def State.redoProgs (s : State) (ch : Nat) : State :=
  s.each (s.top.ops.filter fun o => lunCh o.lun == ch && o.redo && !(match tget none s.top.run ch with
    | some g => g.op == o.id && g.what == 0
    | none => false)) fun s o => s.restartProg o

/-- R294: a page of the staging buffer is filled. -/
def execStagingBufferFilled (ch : Fin 8) (s : State) : Out :=
  let s := s.redoProgs ch.val
  .next (if 2 ≤ (s.chan ch.val).staged.length || s.pwr.st != .active then s
    else match s.nextStage ch.val with
      | some (o, l) => s.stage ch.val o l
      | none => s)

end Sys2Proof.Machine
end

