-- ==== Sys2Proof/WellFormed.lean ====
section
/-!
DEFINITION. The shapes that the operands of a command have at a boundary of the complex: byte strings of the length
the boundary carries, PFAs of 40 bits (R135), and page numbers of 32 bits. A command whose operands have other shapes runs
all the same: its meaning takes the bits that the boundary carries, and free bytes where bytes are missing (log entry 5).
-/
namespace Sys2Proof

/-- R138: a frame is 4,128 bytes. -/
def wfFrame (l : List Byte) : Bool := l.length == 4128

/-- R149: a map page is 16 KiB. -/
def wfPage (l : List Byte) : Bool := l.length == 16384

/-- R135: a PFA has 40 bits. -/
def wfPfa (a : Nat) : Bool := decide (a < 2 ^ 40)

/-- R135, R180: a slot of a write point: a PFA and a mask of up to eight planes. -/
def Slot.wf (s : Slot) : Bool := wfPfa s.pfa && decide (s.planes < 256)

/-- R149: a page number has 32 bits at most. -/
def PageKey.wf (k : PageKey) : Bool := decide (k.page < 2 ^ 32)

/-- R212: a burst moves at most 4,800 bytes. -/
def BusIn.wf (b : BusIn) : Bool := decide (b.bytes.length ≤ 4800)

/-- R296: a decoder run gives a frame. -/
def DecodeRes.wf (r : DecodeRes) : Bool := wfFrame r.frame

/-- R446: a band pass names band PFAs. -/
def BandRes.wf (r : BandRes) : Bool := r.pfas.all wfPfa

/-- R457: a target found has six ID bytes, and a parameter page gives seven geometry fields. -/
def Found.wf (f : Found) : Bool :=
  f.id.length == 6 && (match f.param with | some (g, _, _) => g.length == 7 | none => true)

/-- R283: a client port writes at most one buffer's bytes, within it. -/
def wfPortWrite (addr : Nat) (d : List Byte) : Bool :=
  d.length != 0 && decide (addr % 4096 + d.length ≤ 4096) && decide (addr < 2 ^ 25)

/-- The operands of a command have their shapes. -/
def Instr.wf : Instr → Bool
  | .program _ l | .programAtomic _ l | .copy _ l => l.all Slot.wf
  | .mapPageReadDone k | .mapPageZeroFillDone k | .mapWritebackDone k => k.wf
  | .mapPageInstall k d => k.wf && wfPage d
  | .mapWritebackStart k s => k.wf && s.wf
  | .burst _ b | .rdb _ b | .br _ b | .call _ b | .ret _ b | .twolevelMicroword _ b => b.wf
  | .hardDecodeDone _ r | .softDecodeDone _ r => r.wf
  | .holdupBandPassDone r => r.wf
  | .discoveryEnd _ r => r.found.all Found.wf
  | .portBufferWrite _ a d => wfPortWrite a d
  | _ => true

end Sys2Proof
end

