-- ==== Sys2Proof/Machine/Ecc.lean ====
section
/-!
DEFINITION. The decoders (R295 to R302), the course of a frame through the retry ladder (R320 to R327), and the XOR
engines with their BUILDs and REBUILDs (R303 to R308).
-/
namespace Sys2Proof.Machine

/-! The end of a frame's read. -/

/-- R332: the frame's reads count for the health of its group: frames of READ, of the source of COPY, of the map walker and
of PATROL, unless removed (R324). -/
def Flight.counted (f : Flight) : Bool :=
  !f.dropped && match f.ref with | .cmd _ _ => true | .map _ _ => true | .patrol _ => true | _ => false
/-- The group of a flight's block. -/
def State.flightGroup (s : State) (f : Flight) : Nat := s.groupOf (pfaLun f.pfa) (pfaBlock f.pfa)
/-- A flight leaves the codeword and sample buffers and the decoder queues. -/
def State.leaveDecoder (s : State) (id : Nat) : State :=
  let out := fun (t : Tab (List Nat)) => (t.map fun q => (q.1, q.2.filter (· != id))).filter fun q => q.2 != []
  (s.onFlight id fun f => { f with full := false, buf := false, got := 0, soft := if f.soft = 4 then 4 else 0 }).onEcc
    fun e => { e with hardq := out e.hardq, sampleq := out e.sampleq, softq := out e.softq }
/-- A frame's read has ended with an outcome and its bytes; a frame that was read counts with its depth (R333). -/
def State.endFlight (s : State) (f : Flight) (st : Nat) (d : List Byte) (count : Bool) : State :=
  let s := (s.leaveDecoder f.id).onFlight f.id fun x => { x with out := some st, bytes := d }
  s.when (count && f.counted) fun s => s.countDepth (s.flightGroup f) f.step
/-- R299, R469: the outcome of a frame whose ladder has run out. -/
def outOf (f : Flight) : Nat := if f.soft = 4 then stAbsent else if f.conv then stCrc else stUncorrectable
/-- The ladder of a frame has run out. -/
def State.runOut (s : State) (f : Flight) : State := s.endFlight f (outOf f) [] true

/-! The checks of a converged decode (R298, R299). -/

/-- R298, R149: the identity of a frame that was read through a map entry, or of a map page. -/
def identityOk (f : Flight) (m : Meta) : Bool :=
  match f.ref with
  | .cmd _ _ => !f.byMap || (m.kind == kindUser && m.region == f.region && m.cclass == f.cclass && m.name == f.lfa &&
      m.seq % 2 ^ 16 == f.seq)
  | .map key q => m.kind == kindMap && m.level == key.level.val && m.region == key.region.val &&
      m.name == key.page % 2 ^ 32 && m.quarter == q && m.seq % 2 ^ 16 == f.seq
  | _ => true
/-- R55, R58: the outcome of a frame that passes at a depth. -/
def passOut (step : Nat) : Nat := if step = 0 then stOK else if step ≤ 26 then stRecovered else stRebuilt
/-- R326: the profile step at which a frame was recovered becomes the tracked set of its group. -/
def State.adoptStep (s : State) (f : Flight) : State :=
  match s.lunProf (pfaLun f.pfa) with
  | some p => s.when (decide (2 ≤ f.step) && decide (f.step ≤ 25)) fun s =>
      s.adopt (pfaLun f.pfa) (pfaBlock f.pfa) (f.step - 1) f.tgen p
  | none => s
/-- R301: frames of a wing that wait for a place in its queue of 16 reservations take the places that are free, by class
and then in their order. -/
def State.joinSamples (s : State) (w : Nat) : State :=
  s.each (s.ecc.flights.filter fun f => f.ch / 4 == w && f.step == 26 && f.soft == 1) fun s f =>
    let q := tget [] s.ecc.sampleq w
    if q.contains f.id || decide (16 ≤ q.length) then s
    else
      let key := fun (id : Nat) => match s.flight? id with | some g => g.cls | none => 3
      s.onEcc fun e => { e with sampleq := tset [] e.sampleq w (orderBy key (q ++ [f.id])) }
/-- R320: a step of the ladder has failed; the next one begins, or the ladder has run out. -/
def State.stepFailed (s : State) (id : Nat) : State :=
  match s.flight? id with
  | none => s
  | some f =>
    let s := (s.leaveDecoder id).when (f.step == 0) (·.bump Reg.JNP_LADDERS_CNT 1)
    let next := match s.lunProf (pfaLun f.pfa) with
      | some p => s.nextStep (pfaLun f.pfa) p f.step f.atE f.rebuild
      | none => none
    match next with
    | none => s.runOut f
    | some k =>
      let g :=
        { f with step := k, full := false, buf := false, got := 0, soft := if k = 26 then 1 else 0, passes := [], input := [] }
      let s := s.onFlight id fun _ => g
      if k = 26 then s.joinSamples (f.ch / 4)
      else if k = 27 then s.wantRebuild g
      else s.queueRead g false
/-- R298, R299: the checks of a converged decode, in their order. -/
def State.checkFrame (s : State) (f : Flight) (d : List Byte) : State :=
  let m := frameMeta d
  if m.poison then s.endFlight f stCrc [] true
  else if !frameOk d then
    let c := frameCrc d
    let s := (s.bump Reg.ECC_CRCERR_FCRC 1).onFlight f.id fun x => { x with conv := true, crcs := x.crcs ++ [c] }
    if s.is Reg.ECC_CTL_REPEAT_STOP && f.crcs.contains c then s.endFlight f stCrc [] true else s.stepFailed f.id
  else if !identityOk f m then
    let s := match f.ref with | .cmd _ _ => s.wrongPlace f.region f.lfa | _ => s
    s.endFlight f stUncorrectable [] true
  else (s.endFlight f (passOut f.step) d true).adoptStep f

/-! The hard decoder (R296 to R298, R576). -/

/-- R297: the zero bits of a codeword as it was read. -/
def zeroBits (l : List Byte) : Nat := (l.map fun b => ((List.range 8).filter fun i => !b.getLsbD i).length).sum
/-- R328: the bits in which a codeword as it was read differs from the one it was corrected to. -/
def bitErrors (a b : List Byte) : Nat :=
  (List.zipWith (fun x y => ((List.range 8).filter fun i => x.getLsbD i != y.getLsbD i).length) a b).sum
/-- R297: the codeword is erased. -/
def State.erasedCw (s : State) (l : List Byte) : Bool :=
  s.is Reg.ECC_CTL_ERASED_EN && decide (zeroBits l ≤ s.rd Reg.ECC_ERASED_ZEROS)
/-- R296: the iteration limit of a hard decode. -/
def State.hardLimit (s : State) : Nat := max 1 (sat 20 (s.rd Reg.ECC_CTL_HARD_IT))
/-- R296: a hard decode as the bytes and the limit bound it: bytes without a syndrome leave the decoder after its first
iteration as they are; any other run converges within the limit, or ends at it with checks unsatisfied. What the min-sum
messages make of bytes with errors is the environment's (log entry 9). -/
def State.hardRun (s : State) (f : Flight) (r : DecodeRes) : DecodeRes :=
  if zeroSyndrome f.cclass f.bytes then { r with conv := true, iters := 1, frame := f.bytes.take 4128 }
  else if r.conv then { r with iters := max 1 (min s.hardLimit r.iters) }
  else { r with iters := s.hardLimit, unsat := max 1 r.unsat }
/-- R297: the outcome of a frame whose codeword is erased. -/
def State.endErased (s : State) (f : Flight) : State :=
  let s := s.bump Reg.ECC_ERASED_CNT_COUNT 1
  match f.ref with
  | .cmd _ _ =>
    if f.byMap then (s.err1 clsUnrecovered 4 3 (objLfa f.region f.lfa)).endFlight f stUncorrectable [] false
    else s.endFlight f stErased [] false
  | .patrol _ => s.endFlight f stErased [] false
  | .calib _ => s.delFlight f.id
  | _ => s.endFlight f stUncorrectable [] false
/-- R576: the decode of a flight is made to fail. -/
def State.forced (s : State) (f : Flight) (soft : Bool) : Bool :=
  s.rd Reg.DBG_FORCE_COUNT != 0 && s.rd Reg.DBG_FORCE_CHANNEL == f.ch && (!soft || s.is Reg.DBG_FORCE_SOFT) &&
    match f.ref with | .map _ _ => false | _ => true
/-- R323: the least number of unsatisfied checks among the failed hard decodes, and its step. -/
def bestOf (b : Option (Nat × Nat)) (step unsat : Nat) : Option (Nat × Nat) :=
  match b with
  | some (k, u) => if unsat < u then some (step, unsat) else some (k, u)
  | none => some (step, unsat)
/-- R296, R298: the hard decode of a codeword has ended. -/
def State.hardEnd (s : State) (f : Flight) (r : DecodeRes) : State :=
  if s.erasedCw f.bytes then s.endErased f
  else
    let r := s.hardRun f r
    let s := s.energy (s.payer f) (s.hardPj f.cclass)
    let force := s.forced f false
    let s := s.when force fun s => s.wr Reg.DBG_FORCE_COUNT (s.rd Reg.DBG_FORCE_COUNT - 1)
    let conv := r.conv && !force
    let iters := if force then s.hardLimit else r.iters
    let s := s.when (f.step == 0 && f.counted) fun s => s.countFirst (s.flightGroup f) conv iters
    match f.ref with
    | .calib n => ((s.when (!conv) (·.bump (Reg.ECC_HFAIL_FAIL f.ch) 1)).calScore n
        (if conv then bitErrors f.bytes (encodeFrom f.cclass r.frame) else 65536)).delFlight f.id
    | _ =>
    if conv then s.checkFrame f (scramble f.pfa r.frame)
    else
      ((s.bump (Reg.ECC_HFAIL_FAIL f.ch) 1).onFlight f.id fun x => { x with best := bestOf x.best x.step r.unsat }).stepFailed
        f.id
/-- A decoder has ended a frame's codeword: the buffers it held serve the bus again. -/
def State.decoded (s : State) (ch : Nat) : State := s.settle.kick ch

/-- R298: the hard decoder of a channel ends the codeword at the head of its queue. -/
def execHardDecodeDone (ch : Fin 8) (r : DecodeRes) (s : State) : Out :=
  let l := r.frame
  let r := { r with frame := s.shape 4128 l }
  .next (if (tget [] s.ecc.hardq ch.val).head? != some r.flight then s
    else match s.flight? r.flight with
      | some f => (if f.dropped then s.delFlight f.id else (s.spent 4128 l).hardEnd f r).decoded ch.val
      | none => s)

/-! Soft decoding (R300, R301, R323). -/

/-- The sample buffers of a wing in use, of four. -/
def State.samplesUsed (s : State) (w : Nat) : Nat :=
  (s.ecc.flights.filter fun f => f.ch / 4 == w && (f.soft == 2 || f.soft == 3)).length
/-- R301: a sample buffer is reserved, and its frame's soft reads begin. -/
def State.reserveSample (s : State) (w : Nat) : State :=
  if 4 ≤ s.samplesUsed w ∨ s.startStopped = true then s
  else match tget [] s.ecc.sampleq w with
    | [] => s
    | id :: r =>
      let s := (s.onEcc fun e => { e with sampleq := tset [] e.sampleq w r }).onFlight id fun f => { f with soft := 2 }
      let s := match s.flight? id with
        | some f => s.queueRead f false
        | none => s
      s.joinSamples w

/-- R301: a sample buffer of a wing is reserved. -/
def execSoftSampleReserve (wing : Fin 2) (s : State) : Out := .next (s.reserveSample wing.val)

/-- The counters of a wing's soft decodes. -/
def softConv (w : Nat) : Fld := if w = 0 then Reg.ECC_SOFT_A_CONV else Reg.ECC_SOFT_B_CONV
def softFail (w : Nat) : Fld := if w = 0 then Reg.ECC_SOFT_A_FAIL else Reg.ECC_SOFT_B_FAIL
/-- R300: a soft decode as its input and the limit bound it: the decisions of pass 0 leave as they are where their syndrome
is zero; what the min-sum messages make of any other input is the environment's (log entry 9). -/
def State.softRun (s : State) (f : Flight) (r : DecodeRes) : DecodeRes :=
  let lim := max 1 (sat 40 (s.rd Reg.ECC_CTL_SOFT_IT))
  if zeroSyndrome f.cclass f.bytes then { r with conv := true, iters := 1, frame := f.bytes.take 4128 }
  else { r with iters := if r.conv then max 1 (min lim r.iters) else lim }
/-- R300: a soft decode has ended. -/
def State.softEnd (s : State) (w : Nat) (f : Flight) (r : DecodeRes) : State :=
  let s := s.energy (s.payer f) (cwLen f.cclass * s.rd Reg.BOX_EBYTE2_SOFT)
  let force := s.forced f true
  let s := s.when force fun s => s.wr Reg.DBG_FORCE_COUNT (s.rd Reg.DBG_FORCE_COUNT - 1)
  let r := s.softRun f r
  if r.conv && !force then (s.bump (softConv w) 1).checkFrame f (scramble f.pfa r.frame)
  else (s.bump (softFail w) 1).stepFailed f.id

/-- R300, R301: one of the two soft decoders of a wing ends; they take the buffers in the order of their filling. -/
def execSoftDecodeDone (wing : Fin 2) (r : DecodeRes) (s : State) : Out :=
  let l := r.frame
  let r := { r with frame := s.shape 4128 l }
  .next (if !((tget [] s.ecc.softq wing.val).take 2).contains r.flight then s
    else match s.flight? r.flight with
      | some f => (if f.dropped then s.delFlight f.id else (s.spent 4128 l).softEnd wing.val f r).decoded f.ch
      | none => s)

/-! Stripe descriptors (R305). -/

/-- R305: the fields of a descriptor. -/
structure Stripe where
  stripe : Nat
  n : Nat
  pidx : Nat
  pclass : Nat
  op : Nat
  fidx : Nat
  entries : List (Nat × Nat)
  clean : Bool
deriving DecidableEq, Repr

/-- The descriptor that 256 bytes spell; `clean` says that its reserved bits are 0. -/
def stripeOf (l : List Byte) : Stripe :=
  let n := leAt l 4 1 % 32
  let w := fun k => leAt l (16 + 8 * k) 8
  { stripe := leAt l 0 4, n := n, pidx := leAt l 5 1 % 32, pclass := leAt l 6 1 % 4, op := leAt l 7 1
    fidx := leAt l 8 1 % 32
    entries := (List.range n).map fun k => (w k % 2 ^ 40, bits (w k) 40 2)
    clean := leAt l 4 1 < 32 && leAt l 5 1 < 32 && leAt l 6 1 < 4 && leAt l 8 1 < 32 && leAt l 9 7 == 0 &&
      (List.range n).all fun k => bits (w k) 42 22 == 0 }
/-- R305: the descriptor is valid for an operation. -/
def State.stripeOk (s : State) (d : Stripe) (op : Nat) : Bool :=
  d.clean && decide (3 ≤ d.n) && decide (d.n ≤ 30) && decide (d.pidx < d.n) && decide (d.fidx < d.n) && d.op == op &&
    d.pclass != 0 && d.entries.all (fun e => e.2 != 0 && s.pfaOk e.2 e.1) &&
    ((d.entries.map fun e => pfaLun e.1).all fun l => (d.entries.filter fun e => pfaLun e.1 == l).length == 1)
/-- R305, R351: the descriptor at an address: nothing where it cannot be read from a region of use FIRMWARE. -/
def State.readStripe (s : State) (a : Nat) : Option Stripe × State :=
  if decide (a + 256 ≤ hdgSize) && s.rd (Reg.HDG_RGN_USE (hRegion a)) == 3 && hRegion a == hRegion (a + 255) then
    let (r, s) := s.hRead a 256
    (if r.ok then some (stripeOf r.data) else none, s)
  else (none, s)
/-- R305: an invalid descriptor is recorded. -/
def State.stripeBad (s : State) (d : Option Stripe) : State :=
  s.err1 clsContained 8 2 0 0 (match d with | some d => d.stripe | none => 0)

/-! Members (R306, R307). -/

/-- A frame held in its pool buffer: its buffer and place among the program frames (R37, R285). -/
def State.heldAt (s : State) (pfa : Nat) : Option (PFrame × Nat) :=
  match s.pf? pfa with
  | some f => f.buf.map fun b => (f, b)
  | none => none
/-- R285: a member taken from its buffer: its frame, or nothing where its check fails. -/
def State.takeHeld (s : State) (f : PFrame) (b : Nat) : Option (List Byte) × State :=
  let m := (s.buf b).slot
  let (d, ok, s) := s.takeBuf b
  (if ok then some (if f.enc then f.data else mkFrame d (s.stampMeta m).formFcrc) else none, s)
/-- The entry that an operation does not read: the failing frame of a REBUILD, the parity frame of a BUILD. -/
def XorOp.skip (x : XorOp) : Nat := if x.rebuild then x.fidx else x.pidx
/-- Entry e is still to come. -/
def XorOp.awaits (x : XorOp) (e : Nat) : Bool :=
  x.desc.isSome && decide (e < x.entries.length) && e != x.skip && !x.arrived.contains e && !x.programming
/-- Every member has arrived. -/
def XorOp.whole (x : XorOp) : Bool := (List.range x.entries.length).all fun e => e == x.skip || x.arrived.contains e
/-- The read of a member queued: URGENT for a REBUILD, WRITE for a BUILD (R306, R307). -/
def State.readMember (s : State) (w k : Nat) (x : XorOp) (e : Nat) : State :=
  let (pfa, c) := x.entries.getD e (0, 0)
  s.launch { id := 0, ref := .xor w k e, pfa := pfa, cclass := c, ch := pfaCh pfa, cls := if x.rebuild then 0 else 2,
             deadline := s.effDeadline s.now 0, rebuild := false } false
/-- The block of an entry as R307 holds it against erases. -/
def holdKey (pfa : Nat) : Nat × Nat := (pfaLun pfa, pfaPlane pfa * 8192 + pfaBlock pfa)
/-- R307: the hold on the block of an entry ends. -/
def State.freeHold (s : State) (pfa : Nat) : State :=
  s.onTop fun t => { t with eraseHold := t.eraseHold.erase (holdKey pfa) }
/-- The members of an operation begin: those held in buffers wait there, the others are read. -/
def State.startMembers (s : State) (w k : Nat) (x : XorOp) : State :=
  s.each (List.range x.entries.length) fun s e =>
    let pfa := (x.entries.getD e (0, 0)).1
    if e = x.skip then s
    else
      let s := s.when x.rebuild fun s => s.onTop fun t => { t with eraseHold := t.eraseHold ++ [holdKey pfa] }
      if (s.heldAt pfa).isSome then s else s.readMember w k x e
/-- The slot of an operation that has ended is free; what its members still hold is given back. -/
def State.freeXor (s : State) (w k : Nat) (x : XorOp) : State :=
  let s := s.setXor w k none
  let s := s.each ((List.range x.entries.length).filter fun e => e != x.skip && !x.arrived.contains e) fun s e =>
    s.when x.rebuild fun s => s.freeHold (x.entries.getD e (0, 0)).1
  let s := s.each (s.ecc.flights.filter fun f => match f.ref with | .xor v j _ => v == w && j == k | _ => false) fun s f =>
    s.dropFlight f.id
  (match x.buf with | some b => s.dropName b (13 + w) | none => s).copCancel fun (u : For) => u == For.xor w k

/-! The course of the slots (R306 to R308). -/

/-- R306: a BUILD ends failed, or is dropped. -/
def State.buildFail (s : State) (w k : Nat) (x : XorOp) (record : Bool) : State :=
  let s := (s.freeXor w k x).bump Reg.ECC_BUILD_FAIL 1
  s.when record fun s => s.err1 clsContained 8 2 0 0 x.stripe
/-- R306: a BUILD takes a slot: its members are read and its accumulator is asked for. -/
def State.openBuild (s : State) (w k desc : Nat) : State :=
  let (d, s) := s.readStripe desc
  match d with
  | some d =>
    if !s.stripeOk d 1 then (s.stripeBad (some d)).bump Reg.ECC_BUILD_FAIL 1
    else if !s.is Reg.ECC_XOR_CTL_BUILD_EN then
      (s.err1 clsContained 8 2 0 0 d.stripe).bump Reg.ECC_BUILD_FAIL 1
    else
      let x : XorOp := { stripe := d.stripe, desc := some desc, entries := d.entries, pidx := d.pidx, pclass := d.pclass
                         fidx := d.fidx, acc := fill 4128 0, asked := s.now }
      ((s.setXor w k (some x)).copWant (13 + w) (.xor w k) 1).startMembers w k x
  | none => (s.stripeBad none).bump Reg.ECC_BUILD_FAIL 1
/-- R446, R513: no BUILD and no member read starts now. -/
def State.xorStopped (s : State) : Bool := s.startStopped
/-- R308: the slots of a wing that are free go to what waits: REBUILDs first, then BUILDs, in their order. -/
def State.xorNext (s : State) (w : Nat) : State :=
  if s.xorStopped then s
  else
    let rs := (s.ecc.rebuilds.filterMap s.flight?).filter fun f => f.ch / 4 == w
    match rs with
    | f :: _ =>
      let same := (rs.filter fun g => g.pfa == f.pfa).map Flight.id
      s.each rs fun s g =>
        if same.contains g.id && ((s.rebuildOf w g.pfa).isSome || (List.range 4).any fun k => (s.xor? w k).isNone) then
          (s.onEcc fun e => { e with rebuilds := e.rebuilds.filter (· != g.id) }).wantRebuild g
        else s
    | [] =>
      match s.ecc.builds.find? (fun b => b.1 == w), (List.range 4).find? fun k => (s.xor? w k).isNone with
      | some b, some k => (s.onEcc fun e => { e with builds := e.builds.erase b }).openBuild w k b.2
      | _, _ => s

/-- R306: policy firmware places a BUILD descriptor. -/
def execXorBuild (wing : Fin 2) (desc : Nat) (s : State) : Out :=
  .next (((s.onEcc fun e => { e with builds := e.builds ++ [(wing.val, desc)] }).xorNext wing.val).settle)

/-- The flights that a REBUILD serves. -/
def State.rebuildFlights (s : State) (x : XorOp) : List Flight := (x.flight :: x.joined).filterMap s.flight?
/-- R307: a REBUILD ends failed: R299 gives the outcome of its frames. -/
def State.rebuildFail (s : State) (w k : Nat) (x : XorOp) : State :=
  let s := (s.freeXor w k x).bump Reg.ECC_REBUILD_FAIL 1
  (s.each (s.rebuildFlights x) fun s f => s.runOut f).xorNext w
/-- R307: the result of a REBUILD is checked as a converged decode of its frames. -/
def State.rebuildEnd27 (s : State) (w k : Nat) (x : XorOp) : State :=
  let d := fit 4128 x.acc
  let fs := s.rebuildFlights x
  let pass := frameOk d && !(frameMeta d).poison && fs.all fun f => identityOk f (frameMeta d)
  let s := s.freeXor w k x
  let s := if pass then
      match fs.head? with
      | some f => (s.bump Reg.ECC_REBUILD_PASS 1).err1 clsRecovered 8 1 f.pfa
      | none => s.bump Reg.ECC_REBUILD_PASS 1
    else s.bump Reg.ECC_REBUILD_FAIL 1
  (s.each fs fun s f =>
    if f.soft == 4 && frameOk d && ((frameMeta d).poison || !identityOk f (frameMeta d)) then s.runOut f
    else s.checkFrame f d).xorNext w
/-- R307: an entry whose LUN does not serve and that no buffer holds. -/
def State.memberAbsent (s : State) (x : XorOp) (e : Nat) : Bool :=
  let pfa := (x.entries.getD e (0, 0)).1
  e != x.skip && (s.heldAt pfa).isNone && !s.lunServes (pfaLun pfa)
/-- R307: policy firmware's answer to a REBUILD. -/
def State.rebuildAnswer (s : State) (w k : Nat) (x : XorOp) (desc : Option Nat) : State :=
  match desc with
  | none => s.rebuildFail w k x
  | some a =>
    let (d, s) := s.readStripe a
    match d with
    | none => (s.stripeBad none).rebuildFail w k x
    | some d =>
      if !s.stripeOk d 2 then (s.stripeBad (some d)).rebuildFail w k x
      else
        let y := { x with stripe := d.stripe, desc := some a, entries := d.entries, pidx := d.pidx, pclass := d.pclass
                          fidx := d.fidx, acc := fill 4128 0 }
        if s.xorStopped || (List.range d.n).any fun e => s.memberAbsent y e then s.rebuildFail w k x
        else (s.setXor w k (some y)).startMembers w k y

/-- R307: policy firmware answers a REBUILD with a descriptor, or with no stripe. -/
def execRebuildAnswer (wing : Fin 2) (slot : Fin 4) (desc : Option Nat) (s : State) : Out :=
  .next (match s.xor? wing.val slot.val with
    | some x => if x.rebuild && x.desc.isNone then (s.rebuildAnswer wing.val slot.val x desc).settle else s
    | none => s)

/-- R307: no answer came within ANS_LIMIT. -/
def execRebuildAnswerTimeout (wing : Fin 2) (slot : Fin 4) (s : State) : Out :=
  .next (match s.xor? wing.val slot.val with
    | some x => if x.rebuild && x.desc.isNone then (s.rebuildFail wing.val slot.val x).settle else s
    | none => s)

/-- R303: bytes XORed into an accumulator. -/
def xorBytes (a d : List Byte) : List Byte := List.zipWith (· ^^^ ·) (fit 4128 a) (fit 4128 d)
/-- R306: the parity frame of a BUILD joins the page set of its place at class WRITE. -/
def State.programParity (s : State) (w k : Nat) (x : XorOp) : State :=
  let pfa := (x.entries.getD x.pidx (0, 0)).1
  if s.canProgram x.pclass pfa then
    (s.onXor w k fun x => { x with programming := true }).addPFrame
      { pfa := pfa, cclass := x.pclass, src := .xor w k x.pidx, buf := x.buf } 0
      { id := 0, cls := 2, deadline := s.effDeadline s.now 0 } false
  else (s.buildFail w k x true).xorNext w
/-- The frame of member e, where it can be had now: from its buffer, or from the read that has ended. Nothing at all
means that it still comes. -/
def State.memberFrame (s : State) (w k : Nat) (x : XorOp) (e : Nat) : Option (Option (List Byte)) × State :=
  match s.ecc.flights.find? fun f => f.ref == .xor w k e && !f.dropped with
  | some f =>
    match f.out with
    | none => (none, s)
    | some st => (some (if st = stOK ∨ st = stRecovered then some f.bytes else none), s.delFlight f.id)
  | none =>
    match s.heldAt (x.entries.getD e (0, 0)).1 with
    | some (f, b) => let (d, s) := s.takeHeld f b; (some d, s)
    | none => (none, s.readMember w k x e)
/-- R22, R26, R428: the energy of member e: its XOR, and its passage through the store where it comes from a pool buffer
or is read by a channel of the other wing. The spec names no buffer for the latter, and no address holds it (log entry 62). -/
def State.memberPj (s : State) (w k : Nat) (x : XorOp) (e : Nat) : Nat :=
  let pfa := (x.entries.getD e (0, 0)).1
  let read := s.ecc.flights.any fun f => f.ref == .xor w k e && !f.dropped
  s.pjB Reg.BOX_EBYTE1_XOR 4128 + s.pjB Reg.BOX_EBYTE0_STORE
    (if !read then 4128 else if lunCh (pfaLun pfa) / 4 != w then 2 * 4128 else 0)
/-- R306, R307: member e arrives. -/
def State.memberArrive (s : State) (w k : Nat) (x : XorOp) (e : Nat) : State :=
  if !x.awaits e || (!x.rebuild && x.buf.isNone) then s
  else
    let pj := s.memberPj w k x e
    match s.memberFrame w k x e with
    | (none, s) => s
    | (some none, s) => if x.rebuild then s.rebuildFail w k x else (s.buildFail w k x true).xorNext w
    | (some (some d), s) =>
      let y := { x with acc := xorBytes x.acc d, arrived := x.arrived ++ [e] }
      let who := if x.rebuild then (s.flight? x.flight).bind s.payerOf else none
      let s := ((s.setXor w k (some y)).energy who pj).when x.rebuild fun s =>
        s.freeHold (x.entries.getD e (0, 0)).1
      let s := match x.buf with | some b => s.hWrite (b * 4096) (frameUser y.acc) | none => s
      if !y.whole then s
      else if x.rebuild then s.rebuildEnd27 w k y
      else s.programParity w k y

/-- R306, R307: a stripe member reaches the XOR engine. -/
def execXorMemberArrive (wing : Fin 2) (slot : Fin 4) (entry : Nat) (s : State) : Out :=
  .next (match s.xor? wing.val slot.val with
    | some x => (s.memberArrive wing.val slot.val x entry).settle
    | none => s)

/-- R306: the parity frame of a BUILD has passed its final pass, or has failed. -/
def State.buildEnd (s : State) (w k : Nat) (x : XorOp) : State :=
  if x.arrived = [1000] then ((s.freeXor w k { x with entries := [] }).bump Reg.ECC_BUILD_PASS 1).xorNext w
  else if x.arrived = [1001] then (s.buildFail w k { x with entries := [] } true).xorNext w
  else s

/-- R306: a BUILD ends. -/
def execBuildDone (wing : Fin 2) (slot : Fin 4) (s : State) : Out :=
  .next (match s.xor? wing.val slot.val with
    | some x => if x.rebuild then s else (s.buildEnd wing.val slot.val x).settle
    | none => s)

end Sys2Proof.Machine
end

