-- ==== Sys2Proof/Machine/Store.lean ====
section
/-!
DEFINITION. The central store's region changes, Gorse, its scrub and its self-test (R355 to R368), and the steps of the
buffer pool manager: grants, frees, pops, rebuild, withdrawal and reserves (R371 to R391).
-/
namespace Sys2Proof.Machine

/-! Region changes (R356 to R360). -/

/-- The region of a lease resource list. -/
def rgnOf (l : Lease) : Nat := (l.res.head?.getD (0, 0)).2

/-- R358: a handle list or a GET_INFO page of an outstanding command lies in region k. -/
def State.pageIn (s : State) (k : Nat) : Bool :=
  s.que.cmds.any fun c =>
    let n := if c.pkt.opcode = opInfo then 4096 else if c.pkt.listed then 4 * c.pkt.listLen else 0
    n != 0 && hRegion c.pkt.hlist == k

/-- R358: a ring of an enabled or busy pair lies in region k. -/
def State.ringIn (s : State) (k : Nat) : Bool :=
  (List.range 64).any fun q =>
    (s.is (Reg.QUE_CFG_ENABLE q) || s.pairBusy q) &&
      ((!s.is (Reg.QUE_CFG_SQ_LOC q) && hRegion (s.rd (Reg.QUE_SQBASE_BASE q) * 64) == k) ||
        (!s.is (Reg.QUE_CFG_CQ_LOC q) && hRegion (s.rd (Reg.QUE_CQBASE_BASE q) * 64) == k))

/-- R358: region k holds allocated contents for its current use. -/
def State.hAllocated (s : State) (k : Nat) : Bool :=
  match s.rd (Reg.HDG_RGN_USE k) with
  | 0 => ((List.range 256).any fun i => (s.buf (256 * k + i)).alloc) || s.pageIn k
  | 1 => s.is Reg.MAP_CTL_ENABLE
  | 2 => s.ringIn k || s.pageIn k
  | _ =>
    (s.jnpOn && s.rd Reg.JNP_TABLE_REGION == k) ||
      s.ecc.xor.any fun e => match e.2 with
        | some x => (match x.desc with | some a => hRegion a == k | none => false)
        | none => false

/-- R357: a change refused. -/
def State.rgnRefuse (s : State) (k reason : Nat) : State :=
  (s.setb (Reg.HDG_RGN_CHG_ERR k)).wr (Reg.HDG_RGN_REASON k) reason

/-- R356: regions with VALID_TRACK = 1, those of changes under way among them. -/
def State.vtCount (s : State) : Nat :=
  ((List.range 32).filter fun j => s.is (Reg.HDG_RGN_VT j) ||
    (match tget none s.hdg.chg j with | some c => c.vt == 1 | none => false)).length

/-- R357, R358, R370: a write of PL_HDG_RGNk: its sticky bits, and a change of USE, CLASS or VT. -/
def State.rgnWrite (s : State) (k v : Nat) : State :=
  let s := s.when (bit v 9) (·.wr (Reg.HDG_RGN_CHG_ERR k) 0)
  let s := s.when (bit v 16) (·.wr (Reg.HDG_RGN_UE_SEEN k) 0)
  let use := bits v 0 2
  let cls := bits v 2 1
  let vt := bits v 3 1
  if s.is (Reg.HDG_RGN_BUSY k) ||
      (s.rd (Reg.HDG_RGN_USE k) == use && s.rd (Reg.HDG_RGN_CLASS k) == cls && s.rd (Reg.HDG_RGN_VT k) == vt) then s
  else if use = 1 ∧ cls = 1 then s.rgnRefuse k 3
  else if vt = 1 ∧ s.rd (Reg.HDG_RGN_VT k) = 0 ∧ 8 ≤ s.vtCount then s.rgnRefuse k 2
  else
    ((s.setb (Reg.HDG_RGN_BUSY k)).onHdg fun h =>
      { h with chg := tset none h.chg k (some { use := use, cls := cls, vt := vt }) }).wantLease .rgnChange [resRgn k] none

/-- R357: a write of PL_HDG_RGNk. -/
def execRegionChangeRequest (m : Master) (k : Fin 32) (v : W32) (s : State) : Out :=
  .next (s.access m (0x3000 + 4 * k) (some v.toNat) fun s => s.rgnWrite k v.toNat)

/-- R359: a change ends: it is busy no longer, and its lease is released. -/
def State.rgnEnd (s : State) (k : Nat) : State :=
  ((s.wr (Reg.HDG_RGN_BUSY k) 0).onHdg fun h => { h with chg := tset none h.chg k none }).dropLease .rgnChange [resRgn k]

/-- R358, R359: a change takes its lease: it is refused, or goes on. -/
def State.rgnStart (s : State) (k : Nat) : State :=
  if s.hAllocated k then (s.rgnRefuse k 1).rgnEnd k
  else s.onHdg fun h =>
    { h with
      chg := tset none h.chg k ((tget none h.chg k).map fun c =>
        { c with stage := if s.rd (Reg.HDG_RGN_USE k) = 0 then 1 else 2 }) }

/-- R390: strand k walked from buffer i: the buffers passed, in order, and the one whose link word failed. -/
def State.strandWalk (k : Nat) : Nat → Option Nat → State → List Nat × Option Nat × State
  | 0, _, s => ([], none, s)
  | _, none, s => ([], none, s)
  | n + 1, some i, s =>
    match s.readLink i k with
    | (none, s) => ([], some i, s)
    | (some nx, s) =>
      let (l, bad, s) := State.strandWalk k n nx s
      (i :: l, bad, s)

/-- The link words of a strand that consists of the listed buffers: those whose successor changes are written. -/
def State.relink (s : State) (k : Nat) (old kept : List Nat) : State :=
  s.each kept fun s i =>
    let after := fun (l : List Nat) => (l.dropWhile (· != i)).getD 1 8192
    if after old = after kept then s
    else s.hWrite (i * 4096) (leBytes 8 (linkWord i k (if after kept = 8192 then none else some (after kept))))

/-- R388, R390: the buffers of region r unlinked from strand k; the others keep their order. A link word that fails
during the walk quarantines the strand. -/
def State.strandDrop (s : State) (r k : Nat) : State :=
  let (l, bad, s) := State.strandWalk k (tget 0 s.cop.lens k) (tget none s.cop.heads k) s
  match bad with
  | some i =>
    (s.onCop fun c => { c with ready := if i / 256 = r then c.ready else c.ready ++ [i] }).linkFault i k
  | none =>
    let kept := l.filter fun i => i / 256 != r
    (s.relink k l kept).onCop fun c =>
      { c with heads := tset none c.heads k kept.head?, lens := tset 0 c.lens k kept.length }

/-- R359, R390: Coppice has withdrawn the buffers of region k. -/
def State.poolWithdraw (s : State) (k : Nat) : State :=
  match tget none s.hdg.chg k with
  | some c =>
    if c.stage != 1 then s
    else
      let t := s.onCop fun p => { p with ready := p.ready.filter fun i => i / 256 != k }
      let t := t.each (List.range 8) fun t j => t.strandDrop k j
      s.copLow (t.onHdg fun h => { h with chg := tset none h.chg k (some { c with stage := 2 }) })
  | none => s

/-- R390: the walk of a withdrawal ends. -/
def execPoolWithdrawDone (k : Fin 32) (s : State) : Out := .next (s.poolWithdraw k)

/-- R390: the buffers of a new POOL region pushed onto the strands in rotation. A rebuild that runs finds them by its
scan. -/
def State.poolThread (s : State) (k : Nat) : State :=
  if s.is Reg.COP_REBUILD_BUSY || !s.is Reg.COP_STAT_READY then s
  else s.each (List.range 256) fun s j =>
    let p := s.cop.pushPtr % 8
    (s.copPush (256 * k + j) p).onCop fun c => { c with pushPtr := (p + 1) % 8 }

/-- R356, R359, R575: the re-initialisation of region k. A change of VT alone from 1 to 0 writes the lines whose bit is
0; one from 0 to 1 writes nothing. -/
def State.rgnReinit (s : State) (k : Nat) (c : RgnChg) : State :=
  if s.rd (Reg.HDG_RGN_USE k) = c.use ∧ s.rd (Reg.HDG_RGN_CLASS k) = c.cls then
    if c.vt = 1 then s.hClearRegion k
    else
      let w := s.rd Reg.DBG_INJ_ADDR_WORD * 8
      let hit := hRegion w == k && !s.hLineValid w
      (s.onHdg fun h => { h with valid := h.valid.filter fun l => l / 0x8000 != k }).when hit fun s => s.hInject w
  else s.hZeroRegion k

/-- R359: the re-initialisation ends: the new setting takes effect. -/
def State.rgnDone (s : State) (k : Nat) : State :=
  match tget none s.hdg.chg k with
  | some c =>
    if c.stage != 2 then s
    else
      let map := s.rd (Reg.HDG_RGN_USE k) == 1 || c.use == 1
      let s := (s.rgnReinit k c).when map fun s => s.onMap fun m => { m with slots := [] }
      let s := ((s.wr (Reg.HDG_RGN_USE k) c.use).wr (Reg.HDG_RGN_CLASS k) c.cls).wr (Reg.HDG_RGN_VT k) c.vt
      let s := s.rgnEnd k
      s.when (c.use == 0) fun s => s.poolThread k
  | none => s

/-- R359: the re-initialisation of region k ends. -/
def execRegionReinitDone (k : Fin 32) (s : State) : Out := .next (s.rgnDone k)

/-! Gorse (R361 to R365). -/

/-- What a check walk finds in the line at address a (R350, R364): the units corrected, those uncorrectable. -/
def State.walkLine (s : State) (a : Nat) : List Nat × List Nat × State :=
  let us := s.hUnits a 32
  let co := us.filter fun u => s.hChk u == .corrected
  let un := us.filter fun u => s.hChk u == .unc
  let drew := !s.hStrong a && (List.range 32).any fun i => (s.hByte? (a + i)).isNone
  let s := (s.each co fun s u => s.hCorrected u true).each un fun s u => s.hUnc u true
  (co, un, if drew then { s with drawn := s.drawn + 1 } else s)

/-- R363, R575: the corrected words or bytes of a line written back; the count of them. -/
def State.fixLine (s : State) (a : Nat) : Nat × State :=
  let co := (s.hUnits a 32).filter fun u => s.hChk u == .corrected
  (co.length, (s.each co fun s u =>
    let s := (s.when (!s.hStrong u) fun s => s.hPut u (s.hReadByte u)).hSetMark u .clean
    s.hInject u).bump Reg.HDG_GORSE_FIX_CNT co.length)

/-- R364: the first uncorrectable word of a walk in a region is recorded. -/
def State.walkUnc (s : State) (un : List Nat) (seen : Bool) : State :=
  match un with
  | u :: _ => if seen then s else s.err1 clsContained 3 5 (u / 8 * 8)
  | [] => s

/-- R361: a line of region r that a walk reads, at or after a line. -/
def State.walkNext (s : State) (r line : Nat) : Option Nat :=
  if s.is (Reg.HDG_RGN_VT r) then
    (s.hdg.valid.find? fun l => l / 0x8000 == r && decide (line ≤ l % 0x8000)).map (· % 0x8000)
  else if line < 0x8000 then some line else none

/-- R361: Gorse passes over a region. -/
def State.gorseSkips (s : State) (r : Nat) : Bool :=
  (s.rd (Reg.HDG_RGN_CLASS r) == 1 && !s.is Reg.HDG_GORSE_LIGHT_EN) ||
    s.top.leases.any fun l => l.act != .gorse && l.res.contains (resRgn r)

/-- The next line that Gorse walks at or after a cursor, without wrapping. -/
def State.gorseNext (s : State) (r line : Nat) : Option (Nat × Nat) :=
  ((List.range 32).filterMap fun q =>
    if q < r || s.gorseSkips q then none
    else (s.walkNext q (if q = r then line else 0)).map fun l => (q, l)).head?

/-- The cursor (R370). -/
def State.gorseAt (s : State) (r line : Nat) : State :=
  (s.wr Reg.HDG_GORSE_STAT_REGION r).wr Reg.HDG_GORSE_STAT_LINE line

/-- R365: a lap ends. -/
def State.lapEnd (s : State) : State :=
  let d := (s.now - s.hdg.lapStart) / 1000
  let s := (s.wr Reg.HDG_GORSE_LAP_LAST (sat 0xFFFF d)).bump Reg.HDG_GORSE_LAPS_CNT 1
  (s.onHdg fun h => { h with lapStart := s.now, lapUnc := [], lapWarned := false }).gorseAt 0 0

/-- R365: the time of a lap does not run while CCLK does not: the lap's start is exchanged for the time it has run, and
back. -/
def State.lapFlip (s : State) : State := s.onHdg fun h => { h with lapStart := s.now - h.lapStart }

/-- R365: a lap in progress exceeds LAP_WARN. -/
def State.lapWarn (s : State) : State :=
  let w := s.rd Reg.HDG_GORSE_LAP_WARN
  if w != 0 && !s.hdg.lapWarned && decide (w * 1000 < s.now - s.hdg.lapStart) then
    (s.setb Reg.HDG_GORSE_STAT_LAP_SLOW).onHdg fun h => { h with lapWarned := true }
  else s

/-- Gorse asks for the lease of a region, at a line. -/
def State.gorseAsk (s : State) (x : Nat × Nat) : State :=
  ((s.gorseAt x.1 x.2).setb Reg.HDG_GORSE_STAT_WAITING).wantLease .gorse [resRgn x.1] none

/-- R361: Gorse seeks its next line and asks for its region; a lap ends where none is left. -/
def State.gorseSeek (s : State) : State :=
  match s.gorseNext (s.rd Reg.HDG_GORSE_STAT_REGION) (s.rd Reg.HDG_GORSE_STAT_LINE) with
  | some x => s.gorseAsk x
  | none =>
    let s := s.lapEnd
    match s.gorseNext 0 0 with
    | some x => s.gorseAsk x
    | none => s

/-- Gorse gives up its lease and its request. -/
def State.gorseStop (s : State) : State :=
  let s := s.each (s.top.leases.filter fun l => l.act == .gorse) fun s l => s.dropLease .gorse l.res
  (s.onTop fun t => { t with waiting := t.waiting.filter fun l => l.act != .gorse }).wr Reg.HDG_GORSE_STAT_WAITING 0

/-- R362 to R364: Gorse reads a line. -/
def State.gorseLine (s : State) (r line : Nat) : State :=
  let a := r * 0x100000 + line * 32
  let (co, un, s) := s.walkLine a
  let s := s.walkUnc un (s.hdg.lapUnc.contains r)
  s.onHdg fun h =>
    { h with
      batch := h.batch - 1
      rewrite := if co.isEmpty then none else some a
      lapUnc := if un.isEmpty || h.lapUnc.contains r then h.lapUnc else h.lapUnc ++ [r] }

/-- R197, R361, R362: one step of Gorse: a line of its batch, or the next lease. -/
def State.gorseStep (s : State) : State :=
  if !s.is Reg.HDG_GORSE_EN || s.pwr.st != .active || s.hdg.rewrite.isSome then s
  else
    let s := s.lapWarn
    match s.top.leases.find? fun l => l.act == .gorse with
    | some l =>
      let r := rgnOf l
      match s.walkNext r (s.rd Reg.HDG_GORSE_STAT_LINE) with
      | none =>
        let s := s.gorseStop
        (if r = 31 then s.lapEnd else s.gorseAt (r + 1) 0).gorseSeek
      | some line =>
        let s := s.gorseLine r line
        let s := if line = 0x7FFF then (if r = 31 then s.lapEnd else s.gorseAt (r + 1) 0) else s.gorseAt r (line + 1)
        if s.hdg.batch = 0 ∨ line = 0x7FFF then s.gorseStop.gorseSeek else s
    | none =>
      match s.top.waiting.find? fun l => l.act == .gorse with
      | some l => if s.gorseSkips (rgnOf l) then s.gorseStop.gorseSeek else s
      | none => s.gorseSeek

/-- R362: Gorse reads its next due line. -/
def execGorseLineRead (s : State) : Out := .next s.gorseStep

/-- R363: the corrected line is written back. -/
def execGorseRewrite (s : State) : Out :=
  .next (match s.hdg.rewrite with
    | some a => if s.pwr.st == .active then (s.fixLine a).2.onHdg fun h => { h with rewrite := none } else s
    | none => s)

/-! SCRUB_STORE and SELFTEST_STORE (R366 to R368). -/

/-- R366: one line of a scrub: the counts of words or bytes rewritten and uncorrectable, and the state. -/
def State.scrubLine (x : Nat × Nat × State) (a : Nat) : Nat × Nat × State :=
  let (_, un, s) := x.2.2.walkLine a
  let s := s.walkUnc un (x.2.1 != 0)
  let (n, s) := s.fixLine a
  (x.1 + n, x.2.1 + un.length, s)

/-- R361, R366: the lines that a scrub of region k reads. -/
def State.scrubLines (s : State) (k : Nat) : List Nat :=
  if s.is (Reg.HDG_RGN_VT k) then (s.hdg.valid.filter fun l => l / 0x8000 == k).map (· * 32)
  else (List.range 0x8000).map fun l => k * 0x100000 + l * 32

/-- R84: a MAINT ends OK with its RESULT. -/
def State.maintOk (s : State) (tag result : Nat) : State :=
  (s.onCmd tag fun c => { c with result := result }).finishSlow tag stOK 0

/-- R366: the scrub of region k ends. -/
def State.scrubEnd (s : State) (k tag : Nat) : State :=
  let (n, u, s) := (s.scrubLines k).foldl State.scrubLine (0, 0, s)
  let s := s.onHdg fun h => { h with scrub := h.scrub.filter fun x => x.2 != tag }
  (s.dropLease .scrub [resRgn k]).maintOk tag (sat 0xFFFF n + sat 0xFFFF u * 2 ^ 16)

/-- R366: SCRUB_STORE ends its walk of region k. -/
def execScrubStoreDone (k : Fin 32) (s : State) : Out :=
  .next (match s.hdg.scrub.find? fun x => x.1 == k.val with
    | some x => s.scrubEnd k x.2
    | none => s)

/-- R367, R368: the self-test of region k ends: RESULT, UE_SEEN and a record on a failure, and the re-initialisation. -/
def State.selftestEnd (s : State) (k tag result : Nat) : State :=
  let r := if bit result 31 then result &&& 0x8FFF7FFF else 0
  let s := s.when (r != 0) fun s => (s.setb (Reg.HDG_RGN_UE_SEEN k)).err1 clsUnrecovered 3 6 k 0 r
  let s := (s.hZeroRegion k).onHdg fun h => { h with selftest := h.selftest.filter fun x => x.2 != tag }
  (s.dropLease .selftestStore [resRgn k]).maintOk tag r

/-- R368: SELFTEST_STORE of region k ends with the result of its March test. -/
def execSelftestStoreDone (k : Fin 32) (result : W32) (s : State) : Out :=
  .next (match s.hdg.selftest.find? fun x => x.1 == k.val with
    | some x => s.selftestEnd k x.2 result.toNat
    | none => s)

/-! Grants (R373, R377 to R381). -/

/-- R379: the request that Coppice grants next: the eligible one that has waited longest, else the first in rotating
order of requesters. A booked request is served at its turns (R380). -/
def State.copNext (s : State) : Option BufReq :=
  let l := s.cop.reqs.filter fun r => r.bookG + r.bookR != 0 || s.copEligible r.req
  match least (fun (r : BufReq) => r.waited.getD 0) (l.filter fun r => r.waited.isSome) with
  | some r => some r
  | none => (rotFind 16 s.cop.grantPtr fun i => l.any fun r => r.req == i).bind fun i => l.find? fun r => r.req == i

/-- R378, R380: the grant comes from the requester's reserve. -/
def State.copFromRsv (s : State) (r : BufReq) : Bool :=
  if r.bookG + r.bookR != 0 then r.bookG == 0 else s.copG == 0

/-- The request after one of its buffers: its bookings, what is left, and a new wait. -/
def BufReq.served (r : BufReq) : BufReq :=
  { r with left := r.left - 1, bookG := r.bookG - 1, bookR := if r.bookG = 0 then r.bookR - 1 else r.bookR, waited := none }

/-- R77: a buffer of a BUF_ALLOC. -/
def State.allocGot (s : State) (tag i : Nat) : State :=
  match s.cmd? tag with
  | none => s
  | some c =>
    let h := s.handleOf i
    let s := if c.pkt.flag 1 then s.putHandle c.pkt c.count h else s.onCmd tag fun c => { c with result := h }
    let s := s.onCmd tag fun c => { c with count := c.count + 1, bufs := c.bufs ++ [i] }
    if c.count + 1 = c.pkt.length then s.finish tag stOK 0 else s

/-- A granted buffer reaches what asked for it. -/
def State.bufGot (s : State) (use : For) (i : Nat) : State :=
  match use with
  | .alloc tag => s.allocGot tag i
  | .frame tag pos => (s.onFrame tag pos fun f => { f with buf := some i }).settle
  | .xor w k =>
    s.onEcc fun e =>
      { e with xor := tset none e.xor (4 * w + k) ((tget none e.xor (4 * w + k)).map fun x => { x with buf := some i }) }

/-- R373, R377, R379: a grant. -/
def State.copGrant (s : State) : State :=
  if s.is Reg.COP_REBUILD_BUSY || !s.is Reg.COP_STAT_READY then s
  else match s.copNext, s.cop.ready.find? s.inPool with
    | some r, some i =>
      let rsv := s.copFromRsv r
      let t := s.onCop fun c =>
        { c with
          ready := c.ready.erase i
          reqs := (c.reqs.map fun x => if x == r then x.served else x).filter fun x => x.left != 0
          grantPtr := (r.req + 1) % 16 }
      let t := s.copLow (t.copGive i r.req rsv).copMark
      t.bufGot r.use i
    | _, _ => s

/-- R379: Coppice grants one buffer from the ready stage. -/
def execBufferGrant (s : State) : Out := .next (if s.pwr.st == .active then s.copGrant else s)

/-- R384 to R386: one free that a unit presents. -/
def execBufferFree (req : Fin 16) (handle : W32) (s : State) : Out := .next (s.freeOne handle.toNat req).2

/-! The free list (R375, R388, R389, R391). -/

/-- R375: the next non-empty strand in the pop rotation gives its head to the ready stage. -/
def execPoolPop (s : State) : Out :=
  .next (if 16 ≤ s.cop.ready.length then s
    else match rotFind 8 s.cop.popPtr fun k => (tget none s.cop.heads k).isSome with
      | some k => s.copLow (s.copPop k)
      | none => s)

/-- R389: a rebuild starts, unless one runs or a region change runs on a POOL region. -/
def State.rebuildStart (s : State) : State :=
  if s.is Reg.COP_REBUILD_BUSY || !s.is Reg.COP_STAT_READY || ((List.range 32).any fun k =>
      match tget none s.hdg.chg k with
      | some c => decide (1 ≤ c.stage) && (s.rd (Reg.HDG_RGN_USE k) == 0)
      | none => false) then s
  else s.copLow (((s.setb Reg.COP_REBUILD_BUSY).setb Reg.COP_STAT_REBUILDING).copEmpty)

/-- R389: a write of PL_COP_REBUILD. -/
def execPoolRebuild (m : Master) (v : W32) (s : State) : Out :=
  .next (s.access m 0x200C (some v.toNat) fun s => s.when (bit v.toNat 0) (·.rebuildStart))

/-- R391: the rebuild that Coppice runs by itself after a cold reset or at a wake from DORMANT. -/
def State.poolBegin (s : State) : State := (s.setb Reg.COP_REBUILD_BUSY).setb Reg.COP_STAT_REBUILDING
/-- R389, R391: the rebuild ends; the one after a cold reset raises READY. -/
def State.rebuildEnd (s : State) : State :=
  if s.is Reg.COP_REBUILD_BUSY then
    let s := s.copEmpty.copScan
    (((s.wr Reg.COP_REBUILD_BUSY 0).wr Reg.COP_STAT_REBUILDING 0).setb Reg.COP_STAT_READY).copMark
  else s

/-- R389: the rebuild ends. -/
def execPoolRebuildDone (s : State) : Out := .next s.rebuildEnd

/-- R382: a reserve set, or refused. -/
def State.setQuota (s : State) (i q : Nat) : State :=
  if s.poolSize < s.copSum i q then s.setb Reg.COP_STAT_RSV_ERR else (s.wr (Reg.COP_RSV_QUOTA i) q).copMark

/-- R382: a write of PL_COP_RSVi. -/
def execReserveWrite (m : Master) (i : Fin 16) (v : W32) (s : State) : Out :=
  .next (s.access m (0x2040 + 4 * i) (some v.toNat) fun s => s.setQuota i (bits v.toNat 0 13))

end Sys2Proof.Machine
end

