-- ==== Sys2Proof/Machine/Maint.lean ====
section
/-!
DEFINITION. MAINT packets (R83, R84): the checks that policy firmware makes before an activity asks for its leases
(R196, R311), and the end of CALIB (R328, R329) and PATROL (R337).
-/
namespace Sys2Proof.Machine

/-- The resources of a CALIB of a LUN (R193). -/
def resCalib (lun : Nat) : List (Nat × Nat) := [resCh (lunCh lun), resLun lun]

/-- R193, R331: the CALIBs that Juniper has queued and the PATROLs that policy firmware asks for ask for their leases,
where their channel has at least PRE. -/
def State.wantCalibs (s : State) : State :=
  let want := fun (s : State) (act : Act) (res : Nat → List (Nat × Nat)) (g : Nat) => match s.groupPlace g with
    | some (lun, _) => if 2 ≤ s.level (lunCh lun) then s.wantLease act (res lun) none else s
    | none => s
  let s := s.each s.jnp.calq fun s g => want s .calib resCalib g
  s.each s.jnp.patrolq fun s g => want s .patrol (fun lun => [resLun lun]) g

/-! The packets. -/

/-- R196, R59: a MAINT completes DEFERRED. -/
def State.maintDefer (s : State) (tag cause : Nat) (r : Nat × Nat) : State :=
  s.finishSlow tag stDeferred (detailDeferred cause r.1 r.2)

/-- R196: a MAINT asks for its leases. With HOLD = 0 it completes DEFERRED where one is held or asked for by a higher
activity. -/
def State.maintLease (s : State) (c : Cmd) (act : Act) (res : List (Nat × Nat)) : State :=
  let s := s.wantCalibs
  match (if c.pkt.flag 2 then none else s.leaseConflict act res) with
  | some r => (s.bump Reg.TOP_LEASE_DEFERRED_CNT 1).maintDefer c.tag 1 r
  | none => (s.running c.tag).wantLease act res (some c.tag)

/-- The MAINT packet of a kind that policy firmware takes from its inbox. -/
def State.maint? (s : State) (tag kind : Nat) : Option Cmd :=
  match s.slow? tag opMaint with
  | some c => if c.pkt.param = kind then some c else none
  | none => none

/-- R366: a SCRUB_STORE packet. -/
def execScrubStore (tag : Tag) (s : State) : Out :=
  .next (match s.maint? tag.val 0 with
    | some c => (s.takeInbox tag.val).maintLease c .scrub [resRgn (bits c.pkt.addr 0 5)]
    | none => s)

/-- R136, R196, R311: the checks of a PATROL or CALIB: its LUN, its group and the level of its channel. -/
def State.maintLun (s : State) (c : Cmd) (go : State → State) : State :=
  let a := c.pkt.addr
  let lun := pfaLun a
  if !s.lunServes lun then s.finishSlow c.tag stAbsent (detailFrame stAbsent 0 lun false false)
  else if !s.groupFirst a then s.finishSlow c.tag stField (detailField 8 2)
  else if s.level (lunCh lun) < 2 then s.maintDefer c.tag 4 (resCh (lunCh lun))
  else go s

/-- R337: a PATROL packet. -/
def execPatrol (tag : Tag) (s : State) : Out :=
  .next (match s.maint? tag.val 1 with
    | some c => (s.takeInbox tag.val).maintLun c fun s => s.maintLease c .patrol [resLun (pfaLun c.pkt.addr)]
    | none => s)

/-- R328: a CALIB packet. -/
def execCalib (tag : Tag) (s : State) : Out :=
  .next (match s.maint? tag.val 3 with
    | some c => (s.takeInbox tag.val).maintLun c fun s => s.maintLease c .calib (resCalib (pfaLun c.pkt.addr))
    | none => s)

/-- R196: an activity of a channel asks for its lease; a channel below SDR defers it. -/
def State.maintCh (s : State) (c : Cmd) (act : Act) : State :=
  let n := bits c.pkt.addr 0 3
  if s.level n = 0 then s.maintDefer c.tag 4 (resCh n) else s.maintLease c act [resCh n]

/-- R264: a TRAIN packet. -/
def execTrain (tag : Tag) (s : State) : Out :=
  .next (match s.maint? tag.val 2 with
    | some c => (s.takeInbox tag.val).maintCh c .train
    | none => s)

/-- R263: a ZQCAL packet. -/
def execZqcal (tag : Tag) (s : State) : Out :=
  .next (match s.maint? tag.val 4 with
    | some c => (s.takeInbox tag.val).maintCh c .zqcal
    | none => s)

/-- R277: a SELFTEST_CHANNEL packet. -/
def execSelftestChannel (tag : Tag) (s : State) : Out :=
  .next (match s.maint? tag.val 6 with
    | some c => (s.takeInbox tag.val).maintCh c .selftestCh
    | none => s)

/-- R83, R196, R367: a SELFTEST_STORE of a region: allocated contents defer it before any lease is sought. -/
def State.selftestAsk (s : State) (c : Cmd) : State :=
  let k := bits c.pkt.addr 0 5
  if s.hAllocated k then s.maintDefer c.tag 2 (resRgn k) else s.maintLease c .selftestStore [resRgn k]

/-- R367: a SELFTEST_STORE packet. -/
def execSelftestStore (tag : Tag) (s : State) : Out :=
  .next (match s.maint? tag.val 5 with
    | some c => (s.takeInbox tag.val).selftestAsk c
    | none => s)

/-! The ends of CALIB and PATROL. -/

/-- The reads of a run are dropped. -/
def State.dropSamples (s : State) (ref : FRef) : State :=
  s.each (s.ecc.flights.filter fun f => f.ref == ref && !f.dropped) fun s f => s.dropFlight f.id
/-- R328, R329: the winner among the candidates, by position: the lowest score, the earlier of equals. A candidate for which
nothing was measured does not take part. -/
def calWinner (l : List Cand) : Option (Nat × Cand) :=
  least (fun x => x.2.score) ((List.range l.length).filterMap fun i =>
    (l[i]?).bind fun c => if c.measured = 0 then none else some (i, c))

/-- R329: the code of a candidate: the zero set, the current E, then the profile steps. -/
def calCode (i : Nat) : Nat := if i = 0 then 0xFE else i - 1

/-- R329: RESULT of a CALIB. -/
def calResult (l : List Cand) : Nat :=
  match calWinner l with
  | some (i, c) => calCode i + sat 255 c.measured * 2 ^ 8 + sat 0xFFFF c.score * 2 ^ 16
  | none => 0xFF

/-- R329: the winner becomes the tracked set of its group; the current E keeps its offsets. -/
def State.calApply (s : State) (g : Nat) (l : List Cand) : State :=
  match calWinner l with
  | some (i, c) => s.when s.jnpOn fun s => s.setTracked g (if i = 1 then none else some c.off)
  | none => s

/-- A CALIB ends and releases its leases. -/
def State.calibDrop (s : State) (n : Nat) : State :=
  let s := s.each (s.top.leases.filter fun l => l.act == .calib && l.res.contains (resCh n)) fun s l =>
    s.dropLease .calib l.res
  (s.dropSamples (.calib n)).onJnp fun j => { j with calib := tset none j.calib n none }

/-- R328, R329: a CALIB that has measured its candidates ends. One whose LUN serves no longer changes nothing. -/
def State.calibEnd (s : State) (n : Nat) (r : CalRun) : State :=
  let s := s.calibDrop n
  let s := if r.gone then s else s.calApply r.group r.cands
  match r.tag with
  | some t => if r.gone then s.finishSlow t stAbsent 0 else s.maintOk t (calResult r.cands)
  | none => s

/-- R329, R330: CALIB of a channel ends, once it has measured every candidate. From the hold-up warning on it ends without
a winner; where a warm reset has stopped it, its MAINT completes with ABORTED_BY_RESET. -/
def execCalibDone (ch : Fin 8) (s : State) : Out :=
  .next (match tget none s.jnp.calib ch.val with
    | some r =>
      if s.sys.warmRun.isSome then
        match r.tag with
        | some t => (s.calibDrop ch.val).finishSlow t stByReset 0
        | none => s.calibDrop ch.val
      else if s.pwr.hold != 0 || s.pwr.warn then s.calibDrop ch.val
      else if r.fin then s.calibEnd ch.val r
      else s
    | none => s)

/-- R337: RESULT of a PATROL. -/
def patrolResult (r : PatrolRun) : Nat := r.depth % 256 + sat 255 r.lost * 2 ^ 8 + sat 0xFFFF r.frames * 2 ^ 16

/-- A PATROL ends and releases its lease. -/
def State.patrolDrop (s : State) (lun : Nat) : State :=
  ((s.dropSamples (.patrol lun)).onJnp fun j => { j with patrol := tset none j.patrol lun none }).dropLease .patrol [resLun lun]

/-- R337: a PATROL of a LUN that has read every sampled page ends. -/
def State.patrolEnd (s : State) (lun : Nat) (tag : Option Nat) (r : PatrolRun) : State :=
  let s := (s.when (r.lost != 0) fun s => s.err1 clsUnrecovered 9 2 r.group 0 r.lost).patrolDrop lun
  match tag with
  | some t => if r.gone then s.finishSlow t stAbsent 0 else s.maintOk t (patrolResult r)
  | none => s

/-- R337: a PATROL ends, once it has read every sampled page; where a warm reset has stopped it, its MAINT completes with
ABORTED_BY_RESET. -/
def execPatrolDone (lun : Fin 256) (s : State) : Out :=
  .next (match tget none s.jnp.patrol lun.val with
    | some r =>
      let tag := s.leaseTag .patrol [resLun lun.val]
      if s.sys.warmRun.isSome then
        match tag with
        | some t => (s.patrolDrop lun.val).finishSlow t stByReset 0
        | none => s.patrolDrop lun.val
      else if r.fin then s.patrolEnd lun.val tag r
      else s
    | none => s)

end Sys2Proof.Machine
end

