-- ==== Sys2Proof/Machine/Stops.lean ====
section
/-!
DEFINITION. What the hold-up sequence (R446, R449) and a warm reset (R513, R516) stop in the same way: operations that
are not issued, the retry ladder, the XOR engines, training and a POWER in progress; and the end of an ACTIVATE.
-/
namespace Sys2Proof.Machine

/-! POWER in progress. -/

/-- A POWER completes with SLEEP_DEFERRED (R438). -/
def State.deferPower (s : State) (tag : Nat) : State :=
  (s.finish tag stSleep 0).setb Reg.PWR_STAT_ENTRY_DEFER
/-- R438: a record requested for a POWER entry is withdrawn: the entry waits again. -/
def State.unrequest (s : State) (tag : Nat) : State :=
  (s.onQue fun q => { q with reqs := q.reqs.filter fun r => !(r.live && r.tag == tag) }).onCmd tag fun c =>
    if c.stage == .requested then { c with stage := .running, phase := 0, accepted := false, pages := [] } else c
/-- The POWER in progress whose record is not granted: an entry, or an economy switch. -/
def State.powerTag (s : State) : Option Nat :=
  let open? := fun (t : Nat) => match s.cmd? t with
    | some c => (c.stage == Stage.running || c.stage == Stage.requested : Bool)
    | none => false
  match s.pwr.entry with
  | some (t, _) => if open? t then some t else none
  | none => match s.pwr.econ with
    | some (t, _, _) => if open? t then some t else none
    | none => none
/-- R449, R513: the entry of a low-power state is abandoned; its POWER completes with a status, unless its record is
granted. -/
def State.dropEntry (s : State) (st : Nat) : State :=
  match s.pwr.entry with
  | none => s
  | some (t, _) =>
    let s := if s.powerTag == some t then
        (if st = stSleep then (s.unrequest t).deferPower t else (s.unrequest t).finish t st 0)
      else s
    s.onPwr fun p => { p with entry := none }

/-! Operations that are not issued (R446, R513). -/

/-- A segment of an operation is on the bus. -/
def State.onBus (s : State) (o : Op) : Bool :=
  match tget none s.top.run (lunCh o.lun) with
  | some g => g.op == o.id
  | none => false
/-- R446, R513: the operation is not issued: no command segment of it, and no data-in segment of its pass, has been on the
bus. -/
def State.unissued (s : State) (o : Op) : Bool :=
  match o.st with
  | .asked | .won | .lost => true
  | .bus =>
    !s.onBus o && match o.plan, s.lunProf o.lun with
      | l :: _, some p => l.kind == 0 || (l.kind == 3 && o.plan.length == (progPlan o p).length)
      | _, _ => false
  | _ => false
/-- The operations that are not issued go back to their queues, and their tokens are given back. -/
def State.holdBack (s : State) : State :=
  s.each (s.top.ops.filter s.unissued) fun s o =>
    ((s.opTokens o.id).dropSegs o.id fun g => g.what == 0).onBox (fun b => { b with asks := b.asks.erase o.id }) |>.onOp o.id
      fun x => { x with st := .queued, plan := [], cache := false }

/-! The retry ladder (R325, R514) and the XOR engines (R306, R516). -/

/-- A flight leaves the operation that would read it. -/
def State.leaveOp (s : State) (id : Nat) : State :=
  match s.top.ops.find? fun o => o.fl.contains id with
  | none => s
  | some o => if o.fl == [id] then s.delOp o.id else s.onOp o.id fun o => { o with fl := o.fl.erase id }
/-- The frame waits in the ladder for a step that has not started. -/
def State.ladderWaits (s : State) (f : Flight) : Bool :=
  f.out.isNone && f.step != 0 && !f.dropped &&
    (f.soft == 1 || s.ecc.rebuilds.contains f.id ||
      s.top.ops.any fun o => o.fl.contains f.id && (o.st == .queued || o.st == .refused))
/-- R325, R514: the frames whose next step has not started leave the ladder as if it had run out. A frame of a READ_RAW is
in no ladder. -/
def State.cutLadder (s : State) : State :=
  let raw := fun (f : Flight) => match f.tag with | some t => (s.cmd t).pkt.opcode == opReadRaw | none => false
  let fs := s.ecc.flights.filter fun f => s.ladderWaits f && !raw f
  s.each fs fun s f =>
    ((s.leaveOp f.id).onEcc fun e => { e with rebuilds := e.rebuilds.filter (· != f.id) }).runOut f
/-- The parity program of a BUILD has reached its array phase. -/
def State.parityOut (s : State) (w k : Nat) : Bool :=
  s.top.ops.any fun o => o.kind == .prog && (o.st == .array || o.st == .suspended) &&
    (s.groupFrames o).any fun f => match f.src with | .xor v j _ => v == w && j == k | _ => false
/-- R306, R325, R516: every REBUILD ends failed, and every BUILD whose parity program has not reached its array phase is
dropped. -/
def State.cutXor (s : State) : State :=
  let s := s.onEcc fun e => { e with builds := [] }
  s.each [0, 1] fun s w => s.each (List.range 4) fun s k =>
    match s.xor? w k with
    | none => s
    | some x =>
      if x.rebuild then s.rebuildFail w k x
      else if s.parityOut w k then s
      else (s.padPf (.xor w k x.pidx)).buildFail w k x false
/-- R198, R271, R516: a TRAIN between two slices, and a ZQCAL between two slices, end. -/
def State.cutActs (s : State) : State :=
  s.each (List.range 8) fun s n =>
    let s := match (s.chan n).train with
      | some t => if t.slice then s else s.trainCut n
      | none => s
    if (s.chan n).zqTarget.isNone then s
    else if s.sys.warmRun.isSome then s.zqDone n stByReset 0 0
    else (s.onChan n fun c => { c with zqTarget := none, zqFail := 0 }).dropLease .zqcal [resCh n]

/-! The end of an ACTIVATE (R449, R508, R510). -/

/-- The bus of every channel takes segments again. -/
def State.kickAll (s : State) : State := s.each (List.range 8) fun s n => s.kick n
/-- An ACTIVATE completes, and what it held goes on. -/
def State.actEnd (s : State) (st detail : Nat) : State :=
  match s.hly.actv with
  | none => s
  | some a => ((s.onHly fun h => { h with actv := none }).finishSlow a.tag st detail).kickAll
/-- R449: the hold-up sequence ends the drain of an ACTIVATE. -/
def State.actHoldup (s : State) : State :=
  match s.hly.actv with
  | some a => if a.stage = 1 then s.actEnd stActTimeout 0 else s
  | none => s

end Sys2Proof.Machine
end

