-- ==== Sys2Proof/Machine/Abort.lean ====
section
/-!
DEFINITION. The removal of a command: what it leaves behind (R133, R134, R580), and the ABORT packet (R86, R130 to R132).
-/
namespace Sys2Proof.Machine

/-! What removal leaves. -/

/-- R133: a READ is removed: what was streamed stays delivered, KEEP buffers are freed, INTO contents are undefined. -/
def State.stripRead (s : State) (c : Cmd) : State :=
  let s := s.endReads c.tag
  if c.pkt.opcode = opRead ∧ c.pkt.dest = 1 then s.each c.bufs fun s b => s.dropName b c.pkt.client
  else if c.pkt.opcode = opRead ∧ c.pkt.dest = 2 then
    s.each (c.handles.map hdIndex) fun s b => (s.hForget b).onBuf b fun x => { x with dcrcV := false }
  else s
/-- R133: a PFA-addressed program is removed: its buffers return to the submitter. -/
def State.stripPfa (s : State) (c : Cmd) : State :=
  s.each (s.top.pfs.filter fun f => match f.src with | .cmd t _ => t == c.tag | _ => false) fun s f =>
    let s := s.padPf f.src
    match f.buf with
    | some b => (s.addName b c.pkt.client).dropName b 15
    | none => s
/-- R133: a page set that holds only pad frames once a PFA-addressed command is removed is not programmed. -/
def State.dropEmptySets (was s : State) (tag : Nat) : State :=
  s.each (s.top.ops.filter fun o => o.kind == .prog && o.pass == 0 && !o.begun && (was.progTags o).contains tag) fun s o =>
    let fs := s.groupFrames o
    if fs.all fun f => f.src == .pad then
      ((s.opTokens o.id).delOp o.id).onTop fun t =>
        { t with
          groups := t.groups.filter fun g => !(g.lun == o.lun && g.ord == o.ord)
          pfs := t.pfs.filter fun f => !fs.contains f }
    else s
/-- R223: the program pass whose segment is on the bus belongs to no tag any longer. -/
def State.abortProgs (was s : State) (tag : Nat) : State :=
  s.each (List.range 8) fun s n =>
    match (tget none s.top.run n).bind fun g => s.op? g.op with
    | some o => s.when (o.kind == .prog && (was.progTags o).contains tag && (s.progTags o).isEmpty) fun s => s.raiseEv n 1
    | none => s
/-- R133, R580: the frames of an LFA-addressed FUA program that a test names are removed: their buffers return to the
submitter, their slots are padded, and their map entries are restored. -/
def State.stripFua (s : State) (c : Cmd) (f : Nat → Bool) : State :=
  let s := s.each (s.que.dirty.filter fun d => d.order == c.order && f d.lfa) fun s d =>
    (if c.pkt.opcode = opCopy then s else s.addName d.buf c.pkt.client).dropDirty d
  s.restoreFua c.tag c.order f
/-- R133, R134: the erase of a removed command: an operation on the bus runs to its end without the tag. -/
def State.stripErase (s : State) (c : Cmd) : State :=
  s.each (s.top.ops.filter fun o => o.kind == .erase && o.tag == some c.tag) fun s o =>
    if s.onBus o then (s.onOp o.id fun o => { o with tag := none, parts := [] }).raiseEv (lunCh o.lun) 1
    else (s.opTokens o.id).delOp o.id
/-- R133: a COPY is removed before it changed its destination. -/
def State.stripCopy (s : State) (c : Cmd) : State :=
  let s := s.each (c.frames.filter fun f => f.st != .done) fun s f => s.releaseFrame c f
  let s := s.each (s.top.pfs.filter fun f => match f.src with | .cmd t _ => t == c.tag | _ => false) fun s f =>
    let s := s.padPf f.src
    match f.buf with | some b => s.dropName b 15 | none => s
  (s.dropLeaseTag c.tag).rangeGone c.tag
/-- R133: a POWER is removed: the complex stays in ACTIVE; an economy switch that runs goes on for nobody. -/
def State.stripPower (s : State) (c : Cmd) : State :=
  s.onPwr fun p =>
    { p with
      entry := match p.entry with | some (t, k) => if t = c.tag then none else some (t, k) | none => none
      econ := p.econ.map fun e => if e.1 = c.tag then (4096, e.2.1, e.2.2) else e }
/-- R133: what the removal of a command leaves, by its opcode. A DMA_MOVE stops with a status of its own. -/
def State.strip (s : State) (c : Cmd) (st : Nat) : State :=
  let o := c.pkt.opcode
  if o = opRead ∨ o = opReadRaw then s.stripRead c
  else if o = opProgram ∨ o = opAtomic then
    let s := if c.stage == .entered then s else if c.pkt.isPfa && o == opProgram then s.stripPfa c
      else s.stripFua c fun _ => true
    s.rangeGone c.tag
  else if o = opErase then s.stripErase c
  else if o = opCopy then s.stripCopy c
  else if o = opTrim then s.rangeGone c.tag
  else if o = opPower then s.stripPower c
  else if o = opPin then s.each c.waits fun s k => s.onMslot k fun m => { m with pin := false }
  else if o = opAlloc then
    (s.copCancel fun (x : For) => x == For.alloc c.tag).each c.bufs fun s b => s.dropName b c.pkt.client
  else if o = opDma then s.dmaStop c.tag st
  else if opSlow o then s.onQue fun q => { q with inbox := q.inbox.filter (· != c.tag) }
  else s
/-- FRAMES of a removed command: frames or codewords already streamed, or what a transfer moved (R80). -/
def Cmd.streamed (c : Cmd) : Nat :=
  if c.pkt.opcode = opDma ∨ c.pkt.opcode = opReadRaw ∨ (c.pkt.opcode = opRead ∧ c.pkt.dest = 0) then c.count else 0
/-- R130, R513: a command is removed with a status. -/
def State.remove (s : State) (c : Cmd) (st : Nat) : State :=
  let t := State.abortProgs s (s.strip c st) c.tag
  let t := if c.pkt.opcode = opProgram ∧ c.pkt.isPfa = true ∨ c.pkt.opcode = opCopy ∧ c.pkt.cpPfa = true then
    State.dropEmptySets s t c.tag else t
  t.removeCmd c.tag st ((t.cmd? c.tag).getD c).streamed

/-! ABORT. -/

/-- R133: the command may still be removed. -/
def State.removable (s : State) (c : Cmd) : Bool :=
  let o := c.pkt.opcode
  (c.stage == .entered || c.stage == .running || c.stage == .requested) && !c.removed &&
    if [opProgram, opAtomic, opErase, opCopy, opTrim].contains o then !c.past
    else if [opShare, opFree, opAbort].contains o then false
    else if opSlow o then s.que.inbox.contains c.tag
    else true
/-- R86, R130: the lookup of an ABORT: the status it completes with, its DETAIL, and the target it removes. -/
def State.abortLookup (s : State) (c : Cmd) : Nat × Nat × Option Cmd :=
  match s.cmd? (c.pkt.addr % 4096) with
  | none => (stNotFound, 0, none)
  | some t =>
    if c.pkt.client != 3 && t.pkt.client != c.pkt.client then (stNotFound, 0, none)
    else if t.pkt.opcode = opAbort then (stField, detailField 8 2, none)
    else if s.removable t then (stOK, 0, some t)
    else (stTooLate, 0, none)
/-- R130, R131: an ABORT: the target's record is requested before its own. -/
def State.doAbort (s : State) (c : Cmd) : State :=
  let (st, d, t) := s.abortLookup c
  let s := match t with
    | some t => s.remove t stAborted
    | none => s
  (s.finish c.tag st d).settle

/-- R130: an ABORT packet. -/
def execAbort (tag : Tag) (s : State) : Out :=
  .next (match s.ready? tag opAbort with
    | some c => s.doAbort c
    | none => s)

end Sys2Proof.Machine
end

