-- ==== Sys2Proof/Machine/Sha.lean ====
section
/-!
DEFINITION. SHA-256, the digest of an image (R248, R501). The spec names the function; its definition is that of the
published standard (PRESUMED).
-/
namespace Sys2Proof.Machine

/-- The primes below 312: the first 64 of them. -/
def shaPrimes : List Nat :=
  (List.range 312).filter fun n => decide (2 ≤ n) && (List.range 18).all fun d => decide (d < 2) || decide (n ≤ d) || n % d != 0
/-- The integer part of a root of degree e below 2 ^ 36, bit after bit from the highest. -/
def rootOf (e v : Nat) : Nat :=
  (List.range 36).foldl (fun r i => if (r + 2 ^ (35 - i)) ^ e ≤ v then r + 2 ^ (35 - i) else r) 0
/-- The first 32 bits of the fraction of the root of degree e of a prime. -/
def rootBits (e p : Nat) : BitVec 32 := BitVec.ofNat 32 (rootOf e (p * 2 ^ (32 * e)))
/-- The round constants: from the cube roots of the first 64 primes. -/
def shaK : List (BitVec 32) := shaPrimes.map (rootBits 3)
/-- The start values: from the square roots of the first 8 primes. -/
def shaH : List (BitVec 32) := (shaPrimes.take 8).map (rootBits 2)

/-- A 32-bit word of four bytes, the most significant first. -/
def shaWord (l : List Byte) (i : Nat) : BitVec 32 := BitVec.ofNat 32 (ofLE ((l.drop (4 * i)).take 4).reverse)
/-- The sum of a word rotated right by the distances of a list. -/
def rotSum (x : BitVec 32) (l : List Nat) : BitVec 32 := l.foldl (fun v n => v ^^^ x.rotateRight n) 0
/-- The next word of the schedule from the words so far, the newest first. -/
def shaNext (w : List (BitVec 32)) : BitVec 32 :=
  let near := w.getD 1 0
  let far := w.getD 14 0
  w.getD 15 0 + (rotSum far [7, 18] ^^^ far >>> 3) + w.getD 6 0 + (rotSum near [17, 19] ^^^ near >>> 10)
/-- The schedule of a block. -/
def shaSchedule (b : List Byte) : List (BitVec 32) :=
  (times (fun w => shaNext w :: w) 48 ((List.range 16).map (shaWord b)).reverse).reverse
/-- The bits of y where x is 1, and of z where it is 0. -/
def pick (x y z : BitVec 32) : BitVec 32 := z ^^^ (x &&& (y ^^^ z))
/-- The bits that two of three words have. -/
def most (x y z : BitVec 32) : BitVec 32 := (x &&& (y ||| z)) ||| (y &&& z)
/-- One round on the eight working words: the first four and the last four. -/
def shaRound (h : List (BitVec 32)) (kw : BitVec 32 × BitVec 32) : List (BitVec 32) :=
  let w := fun k => h.getD k 0
  let up := rotSum (w 4) [6, 11, 25] + pick (w 4) (w 5) (w 6) + w 7 + (kw.1 + kw.2)
  let down := rotSum (w 0) [2, 13, 22] + most (w 0) (w 1) (w 2)
  (up + down) :: h.take 3 ++ (w 3 + up) :: (h.drop 4).take 3
/-- The hash after a block. -/
def shaBlock (h : List (BitVec 32)) (b : List Byte) : List (BitVec 32) :=
  List.zipWith (· + ·) h ((shaK.zip (shaSchedule b)).foldl shaRound h)
/-- The blocks of a padded message. -/
def shaBlocks : Nat → List Byte → List (List Byte)
  | 0, _ => []
  | n + 1, l => l.take 64 :: shaBlocks n (l.drop 64)
/-- The 32 bytes of the digest. -/
def sha256 (l : List Byte) : List Byte :=
  let n := l.length
  let m := l ++ (0x80 : Byte) :: fill ((119 - n % 64) % 64) 0 ++ (leBytes 8 (8 * n)).reverse
  ((shaBlocks (m.length / 64) m).foldl shaBlock shaH).flatMap fun w => (leBytes 4 w.toNat).reverse

end Sys2Proof.Machine
end

