-- ==== Sys2Proof/Machine/Image.lean ====
section
/-!
DEFINITION. Images: reading a slot of Yew (R478), the checks of an Espalier image (R233 to R238, R243) and of a Holly
image (R500, R501), binding a target to a profile (R245), and the start of Holly (R502, R505).
-/
namespace Sys2Proof.Machine

/-! Slots. -/

/-- R478: the Yew address of a slot. -/
def slotBase (mcs : Bool) (bank : Nat) : Nat := yAddr bank (if mcs then 256 else 0) 0
/-- The first n bytes of a slot. -/
def State.slotBytes (s : State) (mcs : Bool) (bank n : Nat) : List Byte :=
  ((List.range ((n + 7) / 8)).flatMap fun i => leBytes 8 (s.yWord (slotBase mcs bank + 8 * i))).take n
/-- One of the first n bytes of a slot lies in an uncorrectable word. -/
def State.slotBad (s : State) (mcs : Bool) (bank n : Nat) : Bool :=
  (List.range ((n + 7) / 8)).any fun i => s.yBad (slotBase mcs bank + 8 * i)
/-- R476, R483: a program or erase is in progress in the bank. A suspended one does not leave it busy. -/
def State.slotBusy (s : State) (bank : Nat) : Bool := s.yBusy bank
/-- R236, R501: checks in their order, each with the bytes of the slot that it reads: the first that fails gives the
reason, and 8 stands for bytes that could not be read. -/
def State.slotChecks (s : State) (mcs : Bool) (bank : Nat) : List (Nat × Option Nat) → Option Nat
  | [] => none
  | (n, r) :: l => if s.slotBad mcs bank n then some 8 else if r.isSome then r else s.slotChecks mcs bank l
/-- R234, R500: HCRC of a header of n bytes. -/
def hcrcOk (h : List Byte) (n : Nat) : Bool :=
  crc32c (h.take 0x3C ++ [0, 0, 0, 0] ++ (h.drop 0x40).take (n - 0x40)) == leAt h 0x3C 4
/-- Two ranges (offset, size) have nothing in common. -/
def apart (a b : Nat × Nat) : Bool :=
  a.2 == 0 || b.2 == 0 || decide (a.1 + a.2 ≤ b.1) || decide (b.1 + b.2 ≤ a.1)
/-- No two ranges of a list meet. -/
def allApart : List (Nat × Nat) → Bool
  | [] => true
  | x :: r => r.all (apart x) && allApart r

/-! The header of an Espalier image (R233, R234). -/

def ihFormat (h : List Byte) : Nat := leAt h 0x007 1
def ihLength (h : List Byte) : Nat := leAt h 0x008 4
def ihNprof (h : List Byte) : Nat := leAt h 0x00C 1
def ihProf (h : List Byte) : Nat := leAt h 0x010 4
def ihCs (h : List Byte) : Nat := leAt h 0x014 4
def ihCsLen (h : List Byte) : Nat := leAt h 0x018 4
def ihNano (h : List Byte) : Nat := leAt h 0x01C 4
def ihNanoLen (h : List Byte) : Nat := leAt h 0x020 4
/-- The size of the header. -/
def ihSize : Nat := 1216

/-- R236, check 2. -/
def imgVersionOk (h : List Byte) : Bool :=
  (leAt h 0x006 1 == 1 || leAt h 0x006 1 == 2) && decide (ihFormat h ≤ 1) && (leAt h 0x006 1 != 1 || ihFormat h == 0)
/-- R236, check 3. -/
def imgLayoutOk (h : List Byte) : Bool :=
  let secs := [(0, ihSize), (ihProf h, 1024 * ihNprof h), (ihCs h, ihCsLen h), (ihNano h, ihNanoLen h)]
  ihLength h % 64 == 0 && decide (ihLength h ≤ 131072) && decide (1 ≤ ihNprof h) && decide (ihNprof h ≤ 8) &&
    ihProf h % 64 == 0 && ihCs h % 64 == 0 && ihCsLen h % (if ihFormat h = 0 then 4 else 2) == 0 &&
    decide (ihCsLen h ≤ 65536) && ihNano h % 4 == 0 && ihNanoLen h % 12 == 0 && decide (ihNanoLen h ≤ 24576) &&
    (ihFormat h != 0 || (ihNano h == 0 && ihNanoLen h == 0)) &&
    secs.all (fun x => decide (x.1 + x.2 ≤ ihLength h)) && allApart secs
/-- A check that fails with a reason. -/
def failIf (bad : Bool) (r : Nat) : Option Nat := if bad then some r else none
/-- R236: the checks 1 to 4 of the header, with the bytes that each reads. -/
def imgHeadChecks (h : List Byte) : List (Nat × Option Nat) :=
  [(8, failIf (leAt h 0 4 != 0x4C505345) 1), (8, failIf (!imgVersionOk h) 2), (0x24, failIf (!imgLayoutOk h) 3),
   (ihSize, failIf (!hcrcOk h ihSize) 4)]

/-! Entry tables (R235, R238). -/

/-- The entry table of profile k. -/
def imgTable (h : List Byte) (k : Nat) : List Byte := (h.drop (0x040 + k * 0x90)).take 0x90
/-- The profile record k of an image. -/
def imgProf (l : List Byte) (k : Nat) : List Byte := (l.drop (ihProf l + 1024 * k)).take 1024
/-- R235: an entry is absent, or names a microword below a limit. -/
def entryOk (limit e : Nat) : Bool := if bit e 15 then decide (bits e 0 15 < limit) else e == 0
/-- R238: the routines that a profile must have. -/
def mustHave (k : Nat) (p : List Byte) : List Nat :=
  let cap := fun (i : Nat) (l : List Nat) => if prCap p i then l else []
  [0x00, 0x01, 0x03, 0x04, 0x06, 0x0C] ++ (if k = 0 then [0x0D, 0x0F, 0x10] else []) ++ cap 0 [0x02] ++ cap 1 [0x05] ++
    cap 2 [0x07] ++ cap 5 [0x08, 0x0A] ++ cap 6 [0x09, 0x0B] ++ cap 8 [0x11] ++ cap 9 [0x0E] ++
    (if prMaxif p = 0 then [] else [0x16, 0x17, 0x18, 0x19, 0x1A, 0x1B])
/-- R235, R238: the entry table of a profile that the image has. -/
def tableGood (limit k : Nat) (t p : List Byte) : Bool :=
  let e := fun r => leAt t (2 * r) 2
  (List.range 64).all (fun r => entryOk limit (e r)) && (List.range 64).all (fun r => decide (r < 0x1D) || e r == 0) &&
    [0x80, 0x82, 0x84, 0x86].all (fun o => bit (leAt t o 2) 15 && entryOk limit (leAt t o 2)) &&
    leAt t 0x88 8 == 0 && (mustHave k p).all fun r => bit (e r) 15
/-- R236: check 5: the lowest profile whose entry table fails. -/
def imgTableFail (l : List Byte) : Option Nat :=
  let limit := ihCsLen l / (if ihFormat l = 0 then 4 else 2)
  (List.range 8).find? fun k =>
    if k < ihNprof l then !tableGood limit k (imgTable l k) (imgProf l k) else (imgTable l k).any (· != 0)

/-! Profile records (R242, R243). -/

/-- The number of bits that number n things. -/
def clog2 (n : Nat) : Nat := ((List.range 17).find? fun k => decide (n ≤ 2 ^ k)).getD 17
/-- R243: the reserved bytes and bits of a record are 0. -/
def profReserved (p : List Byte) : Bool :=
  [(0x00D, 3), (0x01C, 4), (0x025, 3), (0x02F, 1), (0x042, 14), (0x0E3, 29), (0x280, 384)].all (fun x =>
      leAt p x.1 x.2 == 0) &&
    leAt p 0x00C 1 < 4 && bits (prCaps p) 15 17 == 0 && prMpRule p < 4 &&
    (List.range 24).all fun k => leAt p (0x10F + 16 * k) 1 == 0
/-- R136, R242: the geometry and the numbers of a record lie in their ranges. -/
def profRanges (p : List Byte) : Bool :=
  decide (prPages p ≤ 4096) && decide (prBlocks p ≤ 8192) && decide (4352 ≤ prTotal p) && decide (prTotal p ≤ 36864) &&
    decide (4096 ≤ prPageData p) && decide (prPageData p ≤ 32768) &&
    [(prPlanes p, 8), (prLuns p, 4), (prBpc p, 4), (prPasses p, 4), (prLevels p, 15)].all (fun x =>
      decide (1 ≤ x.1) && decide (x.1 ≤ x.2)) &&
    (prRowBytes p == 3 || prRowBytes p == 4) && prMaxif p != 3 && decide (prSdrTm p ≤ 5)
/-- R243: the row bits. -/
def profRows (p : List Byte) : Bool :=
  let r := [(0, prPageBits p), (prPlaneShift p, clog2 (prPlanes p)), (prBlockShift p, clog2 (prBlocks p)),
    (prLunShift p, clog2 (prLuns p))]
  decide (prPages p < 2 ^ prPageBits p) && decide (prPlaneShift p + clog2 (prPlanes p) ≤ 16) && allApart r &&
    r.all fun x => decide (x.1 + x.2 ≤ 8 * prRowBytes p)
/-- R243: a profile record is valid. -/
def profOk (p : List Byte) : Bool :=
  profReserved p && profRanges p && profRows p && ((List.range 32).all fun i => decide (prTslot p i ≤ 5120)) &&
    (prMaxif p != 2 || decide (prMaxRate p ≤ 3600)) && (prMaxif p != 1 || decide (prMaxRate p ≤ 1600))
/-- R236: check 6: the lowest profile whose record fails. -/
def imgProfFail (l : List Byte) : Option Nat := (List.range (ihNprof l)).find? fun k => !profOk (imgProf l k)

/-! Binding (R245, R246, R255). -/

/-- R245: the target meets a profile. -/
def bindsTo (t : Targ) (p : List Byte) : Bool :=
  t.volt && (List.range 6).all (fun i => leAt t.id i 1 &&& leAt p (6 + i) 1 == leAt p i 1 &&& leAt p (6 + i) 1) &&
    leAt p 0x00C 1 &&& t.sig == leAt p 0x00C 1 &&
    t.geom.getD 0 0 == prPageData p && t.geom.getD 1 0 == prSpare p && t.geom.getD 2 0 == prPages p &&
    t.geom.getD 3 0 == prBlocks p && t.geom.getD 4 0 == prPlanes p && t.geom.getD 6 0 == prLuns p
/-- R245: the lowest-numbered profile that a target binds to, or 0xFF. -/
def bindOf (profs : List (List Byte)) (t : Targ) : Nat :=
  if !t.found then 0xFF
  else ((List.range profs.length).find? fun k => match profs[k]? with | some p => bindsTo t p | none => false).getD 0xFF
/-- The targets of the die inventory. -/
def State.invTargets (s : State) : List (Nat × Targ) := s.sys.targs.filter fun t => t.2.found
/-- R236: check 7: the profile to which the first target is bound that binds to no profile of the new image. -/
def State.imgBindFail (s : State) (profs : List (List Byte)) : Option Nat :=
  (s.invTargets.find? fun t => bindOf profs t.2 == 0xFF).map fun t => t.2.prof
/-- The target records bound to the profiles of the loaded image, and the channels that use them (R245, R246). -/
def State.rebind (s : State) : State :=
  s.each s.invTargets fun s t =>
    let k := bindOf s.mcs.img.profs t.2
    (s.onSys fun y => { y with targs := tset {} y.targs t.1 { t.2 with prof := k } }).onChan (t.1 / 8) fun c =>
      { c with bind := tset 8 c.bind (t.1 % 8) (min 8 k) }

/-! The checks of a slot (R236, R501). -/

/-- The profile records of an image. -/
def imgProfs (l : List Byte) : List (List Byte) := (List.range (ihNprof l)).map (imgProf l)
/-- R236: the reason, with the profile number, for which an Espalier slot fails; an ACTIVATE runs check 7 too. A busy
bank answers none of the loader's reads (R483), and a word that a check needs and cannot read ends it with 8. -/
def State.mcsFail (s : State) (bank : Nat) (act : Bool) : Option Nat :=
  let h := s.slotBytes true bank ihSize
  if s.slotBusy bank then some 8
  else match s.slotChecks true bank (imgHeadChecks h) with
    | some r => some r
    | none =>
      let l := s.slotBytes true bank (ihLength h)
      let n := ihProf h + 1024 * ihNprof h
      s.slotChecks true bank
        [(n, (imgTableFail l).map fun k => 5 + 256 * k), (n, (imgProfFail l).map fun k => 6 + 256 * k),
         (n, if act then (s.imgBindFail (imgProfs l)).map fun k => 7 + 256 * k else none), (ihLength h, none)]
/-- The digest of a slot's image. -/
def State.slotDigest (s : State) (mcs : Bool) (bank : Nat) : List Byte :=
  sha256 (s.slotBytes mcs bank (leAt (s.slotBytes mcs bank 16) 0x008 4))

/-- R501: check 3. -/
def hollyLayoutOk (h : List Byte) : Bool :=
  let len := leAt h 0x008 4
  let tab := leAt h 0x010 4
  let n := leAt h 0x014 2
  len % 64 == 0 && decide (len ≤ 1048576) && leAt h 0x00C 4 % 4 == 0 && decide (leAt h 0x00C 4 < len) && tab % 16 == 0 &&
    decide (7 ≤ n) && decide (n ≤ 256) && decide (tab + 16 * n ≤ len)
/-- R501: the checks 1 to 4, with the bytes that each reads. -/
def hollyHeadChecks (h : List Byte) : List (Nat × Option Nat) :=
  [(8, failIf (leAt h 0 4 != 0x4C504C48) 1), (8, failIf (leAt h 6 1 != 2) 2), (0x18, failIf (!hollyLayoutOk h) 3),
   (64, failIf (!hcrcOk h 64) 4)]
/-- R500: the parameter definitions of an image: number, minimum, maximum, default. -/
def hollyTable (l : List Byte) : List (Nat × Nat × Nat × Nat) :=
  (List.range (leAt l 0x014 2)).map fun i =>
    let e := (l.drop (leAt l 0x010 4 + 16 * i)).take 16
    (leAt e 0 2, leAt e 4 4, leAt e 8 4, leAt e 12 4)
/-- No number of a list stands in it twice. -/
def noTwice : List Nat → Bool
  | [] => true
  | x :: r => !r.contains x && noTwice r
/-- R501: check 6. -/
def hollyTableOk (t : List (Nat × Nat × Nat × Nat)) : Bool :=
  fixedParams.all (fun x => t.contains x) && noTwice (t.map (·.1)) &&
    t.all fun x => decide (x.2.1 ≤ x.2.2.2) && decide (x.2.2.2 ≤ x.2.2.1)
/-- R501: the checks 1 to 4 of a Holly slot, with 8 where it cannot be read (R502). -/
def State.hollyHead (s : State) (bank : Nat) : Option Nat :=
  if s.slotBusy bank then some 8 else s.slotChecks false bank (hollyHeadChecks (s.slotBytes false bank 64))
/-- The whole image of a Holly slot. -/
def State.hollyImage (s : State) (bank : Nat) : List Byte :=
  s.slotBytes false bank (leAt (s.slotBytes false bank 16) 0x008 4)
/-- R501, R508: the reason for which a Holly slot fails its check pass. -/
def State.hollyFail (s : State) (bank : Nat) : Option Nat :=
  match s.hollyHead bank with
  | some r => some r
  | none =>
    let l := s.hollyImage bank
    s.slotChecks false bank
      [(leAt l 0x010 4 + 16 * leAt l 0x014 2, failIf (!hollyTableOk (hollyTable l)) 6), (l.length, none),
       (l.length, failIf (bank == s.actHolly) 0x0B)]

/-! Policy parameters in Yew (R90, R505). -/

/-- A stored parameter: the number, a running number by which the latest word of a number is known, and the value. -/
def storedWord (num run v : Nat) : Nat := num % 2 ^ 16 + (run % 2 ^ 16) * 2 ^ 16 + (v % 2 ^ 32) * 2 ^ 32
/-- The stored words of sector 291 of a bank. -/
def State.storedIn (s : State) (b : Nat) : List Nat :=
  ((List.range 512).filter fun i => !s.yBad (yAddr b 291 i)).map (fun i => s.yWord (yAddr b 291 i)) |>.filter
    fun w => w != yErased
/-- R505: the persisted value of a parameter. -/
def State.stored (s : State) (num : Nat) : Option Nat :=
  let ws := (s.storedIn 0 ++ s.storedIn 1).filter fun w => bits w 0 16 == num
  (ws.foldl (fun (b : Option Nat) w => match b with
    | some v => if bits v 16 16 ≤ bits w 16 16 then some w else b
    | none => some w) none).map fun w => bits w 32 32

/-! The start of Holly (R502, R505, R507). -/

/-- VERSION and the digest of the running image. -/
def State.hollyShow (s : State) (bank : Nat) : State :=
  let h := s.slotBytes false bank 64
  let d := s.slotDigest false bank
  let s := ((s.wr Reg.HLY_VERSION_PATCH (leAt h 4 1)).wr Reg.HLY_VERSION_MINOR (leAt h 5 1)).wr Reg.HLY_VERSION_MAJOR
    (leAt h 6 1)
  s.each (List.range 8) fun s k => s.wr (Reg.HLY_DIGEST_DIGEST k) (leAt d (4 * k) 4)
/-- R505: the parameters that an image defines, in ascending number. At a cold start a parameter takes its stored value;
across an activation it keeps its value; a value outside the range gives way to the default. A fixed parameter that the
image's table leaves out is defined as R504 gives it. -/
def State.hollyParams (s : State) (bank : Nat) (cold : Bool) : State :=
  let now := fun n => if cold then s.stored n else (s.hly.params.find? fun p => p.1 == n).map fun p => p.2.2.2.1
  let own := hollyTable (s.hollyImage bank)
  let t := orderBy (fun (x : Nat × Nat × Nat × Nat) => x.1)
    (own ++ fixedParams.filter fun f => !own.any fun x => x.1 == f.1)
  s.onHly fun h =>
    { h with params := t.map fun x =>
        let v := match now x.1 with
          | some v => if x.2.1 ≤ v ∧ v ≤ x.2.2.1 then v else x.2.2.2
          | none => x.2.2.2
        (x.1, x.2.1, x.2.2.1, v, (s.stored x.1).isSome && x.1 != 2) }
/-- Holly starts at ENTRY of the image of a bank: READY and QUIESCED are clear, and its watchdog counts anew. -/
def State.hollyGo (s : State) (bank : Nat) : State :=
  (((s.wr Reg.HLY_CTL_READY 0).wr Reg.HLY_CTL_QUIESCED 0).wr Reg.HLY_STAT_BANK bank).onHly
    fun h => { h with running := true, halted := false, lastKick := s.now }
/-- Holly is halted: nothing serves the inbox (R503). -/
def State.hollyHalt (s : State) : State :=
  (((s.wr Reg.HLY_CTL_READY 0).wr Reg.HLY_CTL_QUIESCED 0).onHly fun h => { h with running := false, halted := true }).inboxHalt
/-- The start of a bring-up from a slot that passed. -/
def State.hollyColdGo (s : State) (bank : Nat) : State :=
  (((s.hollyGo bank).hollyShow bank).hollyParams bank true).wr Reg.HLY_STAT_NO_IMAGE 0
/-- R502: Holly starts from the slot in force, or from the other one. -/
def State.hollyStart (s : State) : State :=
  let b := s.actHolly
  match s.hollyHead b with
  | none => s.hollyColdGo b
  | some r =>
    match s.hollyHead (1 - b) with
    | none => (s.hollyColdGo (1 - b)).err1 clsRecovered 0xD 1 (objSlot b false) r
    | some _ => ((s.setb Reg.HLY_STAT_NO_IMAGE).hollyHalt).err1 clsFatal 0xD 1 (objSlot b false) r

end Sys2Proof.Machine
end

