-- ==== Sys2Proof/Machine/Replay.lean ====
section
/-!
DEFINITION. What bring-up restores: the progress journal as the keeper reads it (R520), and the root table, the map updates
and the atomic groups that policy firmware restores from NAND (R128, R162, R454).
-/
namespace Sys2Proof.Machine

/-! The journal read back (R492, R520). -/

/-- R492: the words of a record of several words; 0 for a type of one word. -/
def jLen (type : Nat) : Nat := if type = 2 then 3 else if type = 3 then 32 else if type = 5 then 4 else 0
/-- R492: a one-word record whose check holds. -/
def jOneOk (w : Nat) : Bool := bits w 56 8 == crc8 (leBytes 7 w)
/-- R492: the records among the words behind a sector's header, in their order; a torn one is passed over. A word comes with
whether it reads as uncorrectable. -/
def jParse : Nat → List (Nat × Bool) → List (List Nat)
  | 0, _ => []
  | _, [] => []
  | k + 1, (w, bad) :: r =>
    let t := bits w 0 8
    let n := jLen t
    let l := ((w, bad) :: r).take n
    let body := (l.take (n - 1)).flatMap fun x => leBytes 8 x.1
    if !bad && [1, 4, 6, 7].contains t && jOneOk w then [w] :: jParse k r
    else if n != 0 && bits w 8 8 == n && l.length == n && !(l.any fun x => x.2) && (l.getLastD (0, false)).1 == crc32c body then
      l.map (·.1) :: jParse k (r.drop (n - 1))
    else jParse k r
/-- R491: the generation of a ring sector whose header checks. -/
def State.jGenOf (s : State) (r : Nat) : Option Nat :=
  let w := s.yWord (jAddr r 0)
  if bits w 0 32 + bits w 32 32 = 2 ^ 32 - 1 ∧ s.yBad (jAddr r 0) = false then some (bits w 0 32) else none
/-- R520: the records of the journal, newest first, through one full lap. -/
def State.jRecords (s : State) : List (List Nat) :=
  let rs := orderBy (fun (x : Nat × Nat) => 2 ^ 32 - x.1) ((List.range 128).filterMap fun r => (s.jGenOf r).map fun g => (g, r))
  rs.flatMap fun x =>
    (jParse 511 ((List.range 511).map fun i => (s.yWord (jAddr x.2 (i + 1)), s.yBad (jAddr x.2 (i + 1))))).reverse
/-- The type of a record. -/
def jType (l : List Nat) : Nat := bits (l.headD 0) 0 8
/-- R520: the PFAs of the root table's pages that the newest MAP_CKPT record names. -/
def ckptOf (l : List (List Nat)) : Option (Nat × Nat) :=
  (l.find? fun r => jType r == 5).map fun r => (r.getD 1 0 % 2 ^ 40, r.getD 2 0 % 2 ^ 40)
/-- R493, R520: the HOLDUP record that the newest record, a HOLDUP_CLEAN, matches. -/
def holdOf (l : List (List Nat)) : Option (List Nat) :=
  match l with
  | c :: r =>
    if jType c = 4 then
      match r.find? fun x => jType x == 3 with
      | some h => if bits (c.headD 0) 48 8 = h.getLastD 0 % 256 then some h else none
      | none => none
    else none
  | [] => none
/-- R520: what the newest clean state asks for: the root table's pages, whether map updates are replayed and whether the open
block sets are scanned. A HOLDUP record brings the sequence number and the next group number back (R493). -/
def State.jDecide (s : State) : State :=
  let l := s.jRecords
  let s := s.onSys fun y => { y with restore := true }
  match holdOf l with
  | some h =>
    let v := bits (h.getD 8 0) 0 48
    let s := (s.wr Reg.MAP_SEQ_CNT (v % 2 ^ 32)).wr Reg.MAP_SEQ_HI_CNT (v / 2 ^ 32)
    let s := s.onQue fun q => { q with nextGroup := bits (h.getD 8 0) 48 16 }
    (s.onMap fun m => { m with ckpt := some (h.getD 9 0 % 2 ^ 40, h.getD 10 0 % 2 ^ 40) }).onSys fun y =>
      { y with replay := false, scan := true }
  | none =>
    let clean := jType (l.headD []) == 6
    (s.onMap fun m => { m with ckpt := ckptOf l }).onSys fun y => { y with replay := !clean, scan := !clean }

/-! The root table (R454). -/

/-- R454: policy firmware restores the root table from its pages; with no checkpoint nothing of it was ever written. -/
def State.rootRestore (s : State) (pages : List (List Byte)) : State :=
  match s.map.ckpt with
  | none => s.hWrite s.mapCtl (fill 32768 0)
  | some _ =>
    let d := fun (i : Nat) => s.shape 16384 (pages.getD i [])
    (((s.spent 16384 (pages.getD 0 [])).spent 16384 (pages.getD 1 [])).hWrite s.mapCtl (d 0)).hWrite (s.mapCtl + 16384) (d 1)

/-! Replay (R128, R162). -/

/-- A frame found is a frame of user data that decodes. -/
def rpGood (f : Replayed) : Bool := f.ok && !f.isMap
/-- R125, R128: the atomic group that a frame carries: region, first LFA, length and group number. -/
def rpGroup (f : Replayed) : Option (Nat × Nat × Nat × Nat) :=
  if f.glen = 0 then none else some (f.region, f.name - f.gpos, f.glen, f.group)
/-- The groups among frames, each once. -/
def replayGroups (l : List Replayed) : List (Nat × Nat × Nat × Nat) :=
  (l.filterMap rpGroup).foldl (fun gs g => if gs.contains g then gs else gs ++ [g]) []
/-- R128: every frame of a group was found, and each decodes. -/
def groupWhole (l : List Replayed) (g : Nat × Nat × Nat × Nat) : Bool :=
  (List.range g.2.2.1).all fun k => l.any fun f => rpGood f && rpGroup f == some g && f.gpos == k
/-- R128: the frames whose updates are replayed: those of no group, and those of whole groups. -/
def replayFrames (l : List Replayed) : List Replayed :=
  let l := l.filter fun f => !f.isMap
  l.filter fun f => rpGood f && match rpGroup f with | none => true | some g => groupWhole l g
/-- R128: the groups that are reverted. -/
def replayLost (l : List Replayed) : List (Nat × Nat × Nat × Nat) :=
  let l := l.filter fun f => !f.isMap
  (replayGroups l).filter fun g => !groupWhole l g
/-- R115: no frame of the list is a later write of the same LFA. -/
def replayLatest (l : List Replayed) (f : Replayed) : Bool :=
  !l.any fun x => x.region == f.region && x.name == f.name && decide (f.seq < x.seq)
/-- R162: the map pages whose four quarters were found, at the first quarter of each: the latest of each page. -/
def replayPages (l : List Replayed) : List Replayed :=
  let same := fun (f x : Replayed) => x.isMap && x.level == f.level && x.region == f.region && x.name == f.name
  let whole := l.filter fun f => f.isMap && f.quarter == 0 && decide (f.level < 2) &&
    (List.range 4).all fun q => l.any fun x => x.ok && same f x && x.seq == f.seq && x.quarter == q
  whole.filter fun f => !whole.any fun x => same f x && decide (f.seq < x.seq)
/-- The page of a map-page frame. -/
def rpKey (f : Replayed) : PageKey :=
  { level := if f.level = 0 then 0 else 1, region := fin64 f.region, page := f.name % 2 ^ 32 }
/-- The sequence number of map entries is at least v. -/
def State.seqAtLeast (s : State) (v : Nat) : State :=
  let v := max v s.mapSeqNo % 2 ^ 48
  (s.wr Reg.MAP_SEQ_CNT (v % 2 ^ 32)).wr Reg.MAP_SEQ_HI_CNT (v / 2 ^ 32)
/-- R128: the updates of the frames found, each where the entry is older; one entry names the first frame of a 16 KiB unit
(R147). Directory and root entries follow the map pages found (R162). A reverted group is recorded. -/
def State.replayFrom (s : State) (l : List Replayed) : State :=
  let fs := replayFrames l
  let us := fs.filter fun f => replayLatest fs f && f.name % s.unitF f.region == 0 && (s.lrgn f.region).v
  let s := s.onMap fun m =>
    { m with
      wbs := m.wbs ++ (replayPages l).map fun f =>
        { key := rpKey f, pfa := f.pfa, cclass := f.cclass, seq := f.seq, fin := true, replayed := true }
      upds := m.upds ++ us.map fun f =>
        { order := 0, region := f.region, lfa := f.name, kind := 2, port := 4, newer := true
          entry := mkEntry f.pfa f.cclass f.region f.seq } }
  let s := s.seqAtLeast ((l.map Replayed.seq).foldl max 0)
  let s := match least (fun (f : Replayed) => 2 ^ 48 - f.seq) (l.filter fun f => f.glen != 0) with
    | some f => s.onQue fun q => { q with nextGroup := (f.group + 1) % 65536 }
    | none => s
  s.each (replayLost l) fun s g => s.err1 clsUnrecovered 4 5 (objLfa g.1 g.2.1) 0 g.2.2.1
/-- R454: policy firmware restores the map once after a cold reset or a wake from DORMANT. -/
def State.mapRestore (s : State) (r : MapRestore) : State :=
  if !s.sys.restore then s
  else
    let s := (s.rootRestore r.root).onSys fun y => { y with restore := false }
    s.when s.sys.replay fun s => s.replayFrom r.found

end Sys2Proof.Machine
end

