-- ==== Sys2Proof/Machine/MapRows.lean ====
section
/-!
DEFINITION. The steps of the map walker: the ends of page reads (R155, R157), zero fills (R150), rebuilt pages (R157),
write-backs (R159 to R162), the region table (R144, R145) and ENABLE (R167).
-/
namespace Sys2Proof.Machine

/-! Pages that become resident. -/

/-- The bytes of the four quarters read (R149). -/
def Miss.page (m : Miss) : List Byte :=
  (List.range 4).flatMap fun q => fit 4096 (match m.parts.find? fun p => p.1 == q with | some p => p.2 | none => [])

/-- R155, R157: the read of a map page has ended: the page is resident, or BROKEN. -/
def State.pageReadDone (s : State) (key : PageKey) : State :=
  match s.miss? key with
  | none => s
  | some m =>
    let busy := s.ecc.flights.any fun f => match f.ref with | .map k _ => k == key | _ => false
    match m.slot with
    | none => s
    | some k =>
      if m.stage != 2 || busy then s
      else if m.bad || decide (m.parts.length < 4) then (s.breakPage key).settle
      else (s.mapResident key k m.page false).settle

/-- R155: a map-page read ends. -/
def execMapPageReadDone (key : PageKey) (s : State) : Out :=
  .next (s.pageReadDone key)

/-- R150: the zero fill of a page ends. -/
def State.zeroFillDone (s : State) (key : PageKey) : State :=
  match s.miss? key with
  | none => s
  | some m =>
    match m.slot with
    | some k => if m.stage = 1 then (s.mapResident key k (fill 16384 0) false).settle else s
    | none => s

/-- R150: the zero fill of a never-written page ends. -/
def execMapPageZeroFillDone (key : PageKey) (s : State) : Out :=
  .next (s.zeroFillDone key)

/-- R157: policy firmware installs a rebuilt page, which is resident and dirty. Where no way can be taken it waits until one
is evictable, as a miss does (R153). -/
def State.installPage (s : State) (key : PageKey) (d : List Byte) : State :=
  if !s.map.broken.contains key || !s.is Reg.MAP_CTL_ENABLE || !s.hly.running then s
  else (s.onMap fun m => { m with rebuilt := (m.rebuilt.filter fun r => r.1 != key) ++ [(key, d)] }).settle

/-- R157: a rebuilt page is installed. -/
def execMapPageInstall (key : PageKey) (data : List Byte) (s : State) : Out :=
  .next ((s.spent 16384 data).installPage key (s.shape 16384 data))

/-! Write-back (R159 to R162). -/

/-- R446, step 4: in the hold-up sequence every dirty page is wanted: leaves, then directories, then the root table. -/
def State.wbHoldup (s : State) (key : PageKey) : Bool :=
  let left := fun (lv : Nat) => (s.map.wbs.any fun w => w.key.level.val == lv) ||
    (s.resident.any fun e => e.2.dirty && e.2.key.level.val == lv && !s.wbHeld e.2 e.1)
  s.pwr.hold == 4 &&
    (if key.level = 2 then !left 0 && !left 1 && decide (key.page < 2) && !s.pwr.rootsDone.contains key.page
     else if key.level = 1 then !left 0 else true)

/-- R159, R160: the write-back of a page may start: something asks for it and nothing holds it. -/
def State.wbMayStart (s : State) (key : PageKey) : Bool :=
  let asked := fun (other : Bool) => if s.pwr.hold = 0 then other && s.sys.warmRun.isNone else s.wbHoldup key
  !s.underWb key && s.is Reg.MAP_CTL_ENABLE && !s.map.halted &&
    if key.level = 2 then asked (s.que.cmds.any fun c => c.stage == .running && c.pages.contains key)
    else match s.mapFind key with
      | none => false
      | some k =>
        match s.mslot k with
        | none => false
        | some m => m.dirty && !s.wbHeld m k && asked (s.wbWanted key k || s.wbBack k)

/-- R152: the page is written back as the victim of a miss. -/
def State.wbEvicts (s : State) (key : PageKey) : Bool :=
  match s.mapFind key with
  | none => false
  | some k => s.wantsWay k

/-- R145, R180: the page sets of a map page are programmed as they stand: a FLUSH or the retirement of its region asks
for them. -/
def State.wbForced (s : State) (key : PageKey) : Bool :=
  s.map.retiring.contains key.region.val ||
    s.que.cmds.any fun c => c.stage == .running && c.pages.contains key && c.pkt.opcode != opSync

/-- R43: the class of a page's write-back: that of the FLUSH or MAP_SYNC that asks for it, WRITE otherwise. -/
def State.wbClass (s : State) (key : PageKey) : Nat :=
  if s.que.cmds.any fun c => c.stage == .running && c.pages.contains key && (c.pkt.opcode == opFlush || c.pkt.opcode == opSync) &&
    c.pkt.cls == 0 then 0 else 2

/-! The hold-up band (R445, R446). -/

/-- R445: LUN, block, planes and profile of a channel's band entry that is valid and not refused. -/
def State.bandEntry (s : State) (n : Nat) : Option (Nat × Nat × Nat × List Byte) :=
  let lun := 32 * n + 4 * s.rd (Reg.PWR_HUBAND_TARGET n) + s.rd (Reg.PWR_HUBAND_LUN n)
  let m := s.rd (Reg.PWR_HUBAND_PLANES n)
  match s.lunProf lun with
  | none => none
  | some p =>
    if s.is (Reg.PWR_HUBAND_VALID n) && s.lunServes lun && prCap p 7 && (prCap p 1 || decide (ones 8 m ≤ 1)) && m != 0 &&
        decide (m < 2 ^ prPlanes p) then some (lun, s.rd (Reg.PWR_HUBAND_BLOCK n), m, p)
    else none
/-- What the band entry of a channel holds. -/
def State.band (s : State) (n : Nat) : Band := tget {} s.pwr.bands n
/-- The entry changed. -/
def State.onBand (s : State) (n : Nat) (f : Band → Band) : State :=
  s.onPwr fun p => { p with bands := tset {} p.bands n (f (s.band n)) }
/-- The pseudo-SLC pages of a block (R445). -/
def bandRows (p : List Byte) : Nat := prPages p / prBpc p
/-- R447: the channel takes band programs: it is not ABSENT, not halted, and its entry is not abandoned. -/
def State.bandTakes (s : State) (n : Nat) : Bool :=
  (s.bandEntry n).isSome && s.level n != 0 && !(s.seq n).halt && s.is (Reg.CH_STAT_PWRGD n) && !(s.band n).gone
/-- A PFA lies in the band entry of its channel, in a row that is not written yet. -/
def State.inBand (s : State) (a : Nat) : Bool :=
  match s.bandEntry (pfaCh a) with
  | some (lun, blk, m, p) =>
    pfaLun a == lun && pfaBlock a == blk && bit m (pfaPlane a) && decide (pfaPage a < bandRows p) &&
      decide ((s.band (pfaCh a)).used ≤ pfaPage a + 1)
  | none => false

/-- R446: another entry that holds a class has room for the four frames of a map page. -/
def State.classRoom (s : State) (n : Nat) : Bool :=
  (List.range 8).any fun k => k != n && s.bandTakes k && (s.band k).cclass != 0 && match s.bandEntry k with
    | some (_, _, m, p) =>
      decide (4 * cwLen (s.band k).cclass ≤ (bandRows p - (s.band k).used) * ones 8 m * prTotal p)
    | none => false
/-- R446, step 4: the write-back of a page in the hold-up sequence goes into the band, in the class of the entry that
receives it; an empty entry, taken after those that hold a class, takes DEEP. -/
def State.wbBand (s : State) (key : PageKey) (slot : Slot) : State :=
  let n := pfaCh slot.pfa
  let c := if (s.band n).cclass = 0 then 3 else (s.band n).cclass
  let at? := fun q => s.pfaNext c slot.pfa q
  if !s.wbMayStart key || !s.bandTakes n || ((s.band n).cclass == 0 && s.classRoom n) || !((List.range 4).all fun q => s.inBand (at? q)) then s
  else
    let s := s.onBand n fun b => { b with cclass := c }
    let s := s.onMap fun m => { m with wbs := m.wbs ++ [{ key := key, pfa := slot.pfa, cclass := c }] }
    let s := s.onTop fun t =>
      { t with pfs := t.pfs ++ (List.range 4).map fun q =>
          { pfa := at? q, cclass := c, src := .map key q, region := key.region.val, enc := true } }
    s.snapWb key

/-- R149, R159: a write-back starts at a slot of the map write point: four frames of class DEEP. -/
def State.wbStart (s : State) (key : PageKey) (slot : Slot) : State :=
  let at? := fun q => s.pfaNext 3 slot.pfa q
  if s.pwr.hold != 0 then s.wbBand key slot
  else if !s.wbMayStart key || !((List.range 4).all fun q => s.canPlace 3 (at? q)) then s
  else
    let force := s.wbForced key
    let evict := s.wbEvicts key
    let cls := s.wbClass key
    let bg := match s.mapFind key with | some k => !s.wbWanted key k | none => false
    let s := s.onMap fun m =>
      { m with wbs := m.wbs ++ [{ key := key, pfa := slot.pfa, evict := evict, bg := bg, cls := cls }] }
    let s := s.each (List.range 4) fun s q =>
      s.addPFrame { pfa := at? q, cclass := 3, src := .map key q, region := key.region.val } slot.planes
        { id := 0, cls := cls, deadline := s.effDeadline s.now 0 } false
    s.when force fun s => s.each (List.range 4) fun s q => s.forceFrame (at? q) 3 false

/-- R159: a write-back starts. -/
def execMapWritebackStart (key : PageKey) (slot : Slot) (s : State) : Out :=
  .next (s.wbStart key (fitSlot slot))

/-- R159, R162: the program of a map page has ended: it passed, and its parent entry follows, or it failed, and the page
is written again. -/
def State.wbDone (s : State) (key : PageKey) : State :=
  match s.map.wbs.find? fun w => w.key == key with
  | none => s
  | some w =>
    let busy := s.top.pfs.any fun f => match f.src with | .map k _ => k == key | _ => false
    if busy || w.fin then s
    else if w.bad then (s.onMap fun m => { m with wbs := m.wbs.filter fun x => x.key != key }).settle
    else (s.wbFinish w).settle

/-- R162: a map-page program ends. -/
def execMapWritebackDone (key : PageKey) (s : State) : Out :=
  .next (s.wbDone key)

/-! The region table (R144, R145, R167). -/

/-- R148: root entries of a region. -/
def LRgn.roots (r : LRgn) : Nat := (r.size + 4194304 * r.unitFrames - 1) / (4194304 * r.unitFrames)

/-- R144: the region that two words of the table spell. -/
def rgnOfWords (a b : Nat) : LRgn where
  v := bit a 0
  cclass := bits a 1 2
  unit := bits a 3 1
  size := bits a 32 32
  root := bits b 0 12

/-- R144: an entry with V = 1 is valid. -/
def LRgn.ok (r : LRgn) : Bool :=
  r.cclass != 0 && r.size != 0 && (r.unit == 0 || r.size % 4 == 0) && decide (r.root + r.roots ≤ 4096)

/-- R145: two root ranges share an entry. -/
def LRgn.overlaps (a b : LRgn) : Bool :=
  a.v && b.v && decide (a.root < b.root + b.roots) && decide (b.root < a.root + a.roots)

/-- The region table's entry r as the control area holds it. -/
def State.rgnEntry (s : State) (r : Nat) : Option LRgn × State :=
  match s.ctlWord (0x8000 + 16 * r) with
  | (none, s) => (none, s)
  | (some a, s) =>
    match s.ctlWord (0x8008 + 16 * r) with
    | (none, s) => (none, s)
    | (some b, s) => (some (rgnOfWords a b), s)

/-- R145: the region has a pending write or an outstanding command. -/
def State.rgnUsed (s : State) (r : Nat) : Bool :=
  (s.que.ranges.any fun x => x.region == r) ||
    s.que.cmds.any fun c => (c.pkt.byLfa && c.pkt.region == r) ||
      (c.pkt.opcode == opCopy && !c.pkt.cpPfa && c.pkt.cpRegion == r)

/-- R145: the load of a region's entry takes effect, or is refused. A load where no MAP region exists, or of an entry that
cannot be read, is refused too (DESIGN CHOICE, log entry 62: the list of refusals does not name these cases). -/
def State.rgnLoad (s : State) (r : Nat) : State :=
  if s.mapRegs.isEmpty then s.setb Reg.MAP_STAT_RGN_ERR
  else match s.rgnEntry r with
    | (none, s) => s.setb Reg.MAP_STAT_RGN_ERR
    | (some e, s) =>
      let old := s.lrgn r
      if e.v then
        if old.v || !e.ok || ((List.range 64).any fun q => q != r && (s.lrgn q).overlaps e) then s.setb Reg.MAP_STAT_RGN_ERR
        else s.onMap fun m => { m with rgns := tset {} m.rgns r e }
      else if !old.v then s
      else if s.rgnUsed r then s.setb Reg.MAP_STAT_RGN_ERR
      else
        let s := s.onMap fun m => { m with rgns := tset {} m.rgns r { old with v := false }, retiring := m.retiring ++ [r] }
        (s.setb Reg.MAP_RGN_LOAD_BUSY).settle

/-- R145: a write of PL_MAP_RGN_LOAD. -/
def execMapRegionLoad (m : Master) (v : W32) (s : State) : Out :=
  .next (s.access m 0x7008 (some v.toNat) fun s =>
    if s.is Reg.MAP_RGN_LOAD_BUSY then s else s.rgnLoad (bits v.toNat 0 6))

/-! ENABLE (R151, R167, R454). -/

/-- R151: 2 to 16 MAP regions, all STRONG. -/
def State.mapRegionsOk (s : State) : Bool :=
  decide (2 ≤ s.mapRegs.length) && decide (s.mapRegs.length ≤ 16) && s.mapRegs.all fun k => s.rd (Reg.HDG_RGN_CLASS k) == 0

/-- R145, R167: the region table as a request finds it; nothing where a word cannot be read. -/
def State.rgnTable (s : State) : Option (List LRgn) × State :=
  (List.range 64).foldl (fun (x : Option (List LRgn) × State) r =>
    match x.1 with
    | none => x
    | some l =>
      match x.2.rgnEntry r with
      | (some e, s) => (some (l ++ [e]), s)
      | (none, s) => (none, s)) (some [], s)

/-- R144, R145: the entries of a region table agree with each other. -/
def tableOk (l : List LRgn) : Bool :=
  l.all (fun e => !e.v || e.ok) &&
    (List.range l.length).all fun i => (List.range i).all fun j => !((l.getD i {}).overlaps (l.getD j {}))

/-- R167: a request to enable the map, checked; policy firmware is told (R454). -/
def State.mapRequest (s : State) : State :=
  if !s.mapRegionsOk then s.setb Reg.MAP_CTL_CFG_ERR
  else match s.rgnTable with
    | (none, s) => s.setb Reg.MAP_CTL_CFG_ERR
    | (some l, s) =>
      if !tableOk l then s.setb Reg.MAP_CTL_CFG_ERR
      else
        let s := s.each (List.range 64) fun s r =>
          s.onMap fun m => { m with rgns := tset {} m.rgns r (if (l.getD r {}).v then l.getD r {} else {}) }
        (s.setb Reg.MAP_CTL_REQ).post1 4 0

/-- R151, R152, R167: the map is enabled. -/
def State.mapOn (s : State) : State :=
  let n := s.mapRegs.length
  ((((s.setb Reg.MAP_CTL_ENABLE).wr Reg.MAP_CTL_REQ 0).wr Reg.MAP_CTL_NREG n).wr Reg.MAP_CTL_SLOTS (64 * n - 8)).settle

/-- R167: a write of PL_MAP_CTL. -/
def State.mapCtl? (s : State) (holly : Bool) (v : Nat) : State :=
  let s := s.when (bit v 1) (·.wr Reg.MAP_CTL_CFG_ERR 0)
  if !bit v 0 then s.wr Reg.MAP_CTL_ENABLE 0
  else if s.is Reg.MAP_CTL_ENABLE then s
  else if holly then s.when (s.is Reg.MAP_CTL_REQ) (·.mapOn)
  else s.mapRequest

/-- R167: a register-port write of PL_MAP_CTL. -/
def execMapEnableRequest (v : W32) (s : State) : Out :=
  .next (s.access .port 0x7000 (some v.toNat) fun s => s.mapCtl? false v.toNat)

/-- R128, R167, R454: a Holly write of PL_MAP_CTL. One that sets ENABLE follows the restoration of the map. -/
def execMapEnableSet (v : W32) (r : MapRestore) (s : State) : Out :=
  .next (s.access .holly 0x7000 (some v.toNat) fun s =>
    (s.when (bit v.toNat 0 && s.is Reg.MAP_CTL_REQ && !s.is Reg.MAP_CTL_ENABLE) (·.mapRestore r)).mapCtl? true v.toNat)

end Sys2Proof.Machine
end

