-- ==== Sys2Proof/Machine/Holdup.lean ====
section
/-!
DEFINITION. The hold-up sequence (R444 to R449) and its record (R493).
-/
namespace Sys2Proof.Machine

/-! The start (R446, steps 1 and 2). -/

/-- R223: the HOLDUP event is raised on the segments that run when the pin is asserted. -/
def State.tellHoldup (s : State) : State := s.each (List.range 8) fun s n => s.when (s.seq n).run fun s => s.raiseEv n 2
/-- R490: command-register operations of Yew are suspended and stay suspended. -/
def State.yewHoldup (s : State) : State :=
  s.each [0, 1] fun s b => match s.yOp? b with
    | some o => if o.master != 3 && !o.susp then s.ySuspendNow b o else s
    | none => s
/-- R446: the sequence begins: admission stops, HU_BUDGET is in force, and the drain begins. -/
def State.holdBegin (s : State) : State :=
  let s := s.relive fun s => s.onPwr fun p =>
    { p with hold := 2, flushed := 0, mapfr := 0, rootsDone := [], bandPages := [], bandCw := [] }
  let s := s.setb Reg.PWR_STAT_HOLDUP
  let s := (s.dropEntry stSleep).actHoldup
  let s := s.holdBack.cutLadder.cutXor.cutActs
  s.yewHoldup.settle.kickAll
/-- R446: the pin is asserted in the present state: from IDLE and NAP the complex wakes first; in DORMANT nothing is dirty,
and DONE is asserted; during a warm reset the sequence begins once that ends. -/
def State.warnLow (s : State) : State :=
  let s := (s.onPwr fun p => { p with warn := true, holdAt := s.now }).tellHoldup
  match s.pwr.st with
  | .active =>
    if s.pwr.hold ≠ 0 then s
    else if s.sys.warmRun.isSome then s.onPwr fun p => { p with hold := 1 }
    else s.holdBegin
  | .idle | .nap => s.onPwr fun p => { p with hold := 1, waking := if p.waking.isSome then p.waking else some 0 }
  | .dormant =>
    (s.setb Reg.PWR_STAT_HU_DONE).onPwr fun p => { p with hold := 6, waking := if p.waking.isSome then p.waking else some 0 }
  | .off => s

/-- R446, R537, R539: FC_HOLDUP_WARN_N is low for two ticks; it counts only where HU_EN is 1. -/
def execHoldupWarnAssert (s : State) : Out :=
  .next (if !s.is Reg.GLB_STRAP_HU_EN || s.pwr.warn || s.pwr.st == .off then s else s.warnLow)

/-! The flush (R446, step 3). -/

/-- The accepted frames that a band entry of a class takes, in acceptance order. -/
def State.flushable (s : State) (c : Nat) : List Dirty :=
  orderBy (fun (d : Dirty) => d.order * 4096 + d.pos) (s.que.dirty.filter fun d => !d.stale && (c == 0 || d.cclass == c))
/-- R419, R446: some band entry takes a frame that is still dirty, in a pass that may be admitted. -/
def State.flushLeft (s : State) : Bool :=
  (List.range 8).any fun n =>
    s.bandTakes n && !(s.flushable (s.band n).cclass).isEmpty && match s.bandEntry n with
      | some (_, _, m, p) =>
        let c := s.charge p .prog (ones 8 m)
        decide ((s.band n).used < bandRows p) && decide (c.1 ≤ s.live 0) && decide (c.2 ≤ s.live 1) &&
          (s.neverRail c.1 c.2).isNone
      | none => false
/-- The flush ends when nothing is left that the band can take, and the map follows (R447). -/
def State.flushEnd (s : State) : State :=
  if s.pwr.hold = 3 ∧ s.flushLeft = false then s.onPwr fun p => { p with hold := 4 } else s

/-- R188, R446: the drain waits for an operation: one whose data-in or array phase is under way, or a suspended one whose
charge fits. -/
def State.drains (s : State) (o : Op) : Bool :=
  match o.st with
  | .array => o.resetting != 2
  | .bus => !s.unissued o
  | .suspended =>
    let c := s.opCharge o
    !(s.railShort o c.1 c.2).1 && !(s.railShort o c.1 c.2).2
  | _ => false
/-- R446: the operations that were under way have ended: the flush begins. -/
def execHoldupDrainDone (s : State) : Out :=
  .next (if s.pwr.hold = 2 && !(s.top.ops.any s.drains) then (s.onPwr fun p => { p with hold := 3 }).flushEnd else s)

/-- R36, R446: the map entry of an accepted frame moves to its band PFA with SEQ unchanged; one entry of a 16 KiB unit
names the unit's first frame. -/
def State.moveEntry (s : State) (d : Dirty) (pfa : Nat) : State :=
  if d.lfa % s.unitF d.region ≠ 0 then s
  else
    let e := mkEntry pfa d.cclass d.region d.seq
    let mine := fun (u : Upd) => u.order == d.order && u.lfa == d.lfa && u.kind != 2
    s.onMap fun m =>
      { m with
        upds := (m.upds.map fun u => if mine u then { u with entry := e } else u) ++
          (if m.upds.any mine then []
           else [{ order := d.order, region := d.region, lfa := d.lfa, pos := d.pos, kind := 2, port := d.client
                   onlyIf := some d.base, entry := e }]) }
/-- R282, R290, R428: a frame is encoded for its place in the band. -/
def State.bandCode (s : State) (c pfa : Nat) (frame : List Byte) : State :=
  (s.energy none (s.pjB Reg.BOX_EBYTE1_ENC (cwLen c) + s.pjB Reg.BOX_EBYTE0_STORE 4128)).onPwr fun p =>
    { p with bandCw := p.bandCw ++ [(pfa, codeword c pfa frame)] }
/-- R37, R71, R284, R446: a frame is checked and programmed into the band: its entry moves, its slot of the write point
stays unwritten, and it is dirty no longer. A FUA frame whose check fails is not programmed. -/
def State.flushFrame (s : State) (d : Dirty) (pfa : Nat) : State :=
  match s.dirtyFrame d true with
  | (none, s) => (s.padPf (.dirty d.order d.pos)).dirtyCrc d
  | (some x, s) =>
    let s := ((s.bandCode d.cclass pfa x).moveEntry d pfa).tryUpds
    let s := s.when d.fua fun s => s.progDone d.tag d.pos stOK
    ((s.padPf (.dirty d.order d.pos)).dirtyEnd d).onPwr fun p => { p with flushed := p.flushed + 1 }
/-- A quarter of a map page has been encoded and programmed into the band, or not. -/
def State.bandMap (s : State) (f : PFrame) (ok : Bool) : State :=
  let s := s.onTop fun t => { t with pfs := t.pfs.filter fun x => x.pfa != f.pfa }
  match f.src with
  | .map key q =>
    let s := match s.map.wbs.find? fun w => w.key == key with
      | some w =>
        let user := (w.snap.drop (4096 * q)).take 4096
        s.bandCode f.cclass f.pfa (mkFrame user (s.mapMeta key q f.cclass w.seq user true))
      | none => s
    let s := s.when (!ok) fun s => s.onWb key fun w => { w with bad := true }
    s.onPwr fun p =>
      { p with
        mapfr := p.mapfr + b2n ok
        rootsDone := if key.level = 2 && ok && !p.rootsDone.contains key.page then p.rootsDone ++ [key.page] else p.rootsDone }
  | _ => s
/-- R446, R447: a band pass of a channel has ended. A pass that failed leaves its frames dirty and abandons the entry. -/
def State.bandPass (s : State) (r : BandRes) : State :=
  let n := r.ch.val
  match s.bandEntry n with
  | none => s
  | some (_, _, m, p) =>
    if !s.bandTakes n || !(r.pfas.all s.inBand) then s
    else
      let maps := r.pfas.filterMap fun a => (s.pf? a).bind fun f => match f.src with | .map _ _ => some f | _ => none
      let rest := r.pfas.filter fun a => (s.pf? a).isNone
      let s := s.each maps fun s f => s.bandMap f r.pass
      if !r.pass then (s.onBand n fun b => { b with gone := true }).flushEnd.settle
      else
        let c := if (s.band n).cclass = 0 then (match s.flushable 0 with | d :: _ => d.cclass | [] => 0) else (s.band n).cclass
        let ds := if s.pwr.hold = 3 then (s.flushable c).take rest.length else []
        let rows := r.pfas.foldl (fun v a => max v (pfaPage a + 1)) 0
        let was := (s.band n).used
        let s := s.onBand n fun b => { b with cclass := c, used := max b.used rows }
        let s := s.onPwr fun p =>
          { p with bandPages := tset 0 p.bandPages n (tget 0 p.bandPages n + (rows - was) * ones 8 m) }
        let s := s.energy none ((rows - was) * ones 8 m * (s.nj Reg.BOX_EOP1_PROG_PAGE 1 + s.pjB Reg.BOX_EBYTE0_BUS (prTotal p)))
        let s := s.each (ds.zip rest) fun s x => s.flushFrame x.1 x.2
        s.settle.flushEnd

/-- R446: a band pass ends. -/
def execHoldupBandPassDone (r : BandRes) (s : State) : Out :=
  .next (if s.pwr.hold = 3 ∨ s.pwr.hold = 4 then s.bandPass { r with pfas := r.pfas.map (· % 2 ^ 40) } else s)

/-! The records and the end (R446, steps 5 and 6; R448, R493). -/

/-- Words programmed into the journal now, behind its last word. -/
def State.jNow (s : State) (l : List Nat) : State :=
  let y := s.yew
  let s :=
    if y.jWord = 0 then
      (s.yPut (jAddr y.jHead 0) (jHeader (y.jGen + 1))).onYew fun y => { y with jWord := 1, jGen := y.jGen + 1 }
    else if y.jWord + l.length ≤ 512 then s
    else
      let h := (y.jHead + 1) % 128
      (s.yPut (jAddr h 0) (jHeader (y.jGen + 1))).onYew fun y => { y with jHead := h, jWord := 1, jGen := y.jGen + 1 }
  let y := s.yew
  (s.each (List.range l.length) fun s i => s.yPut (jAddr y.jHead (y.jWord + i)) (l.getD i 0)).onYew
    fun y => { y with jWord := y.jWord + l.length, jSeq := y.jSeq + 1 }
/-- The word of PL_PWR_HUBANDn. -/
def State.hubandWord (s : State) (n : Nat) : Nat :=
  s.regWord [Reg.PWR_HUBAND_BLOCK n, Reg.PWR_HUBAND_TARGET n, Reg.PWR_HUBAND_LUN n, Reg.PWR_HUBAND_PLANES n,
    Reg.PWR_HUBAND_VALID n]
/-- The accepted frames that the flush left. -/
def State.framesLeft (s : State) : Nat := (s.que.dirty.filter fun d => !d.stale).length
/-- R493: words 1 to 10 of the HOLDUP record. -/
def State.holdWords (s : State) : List Nat :=
  let pg := fun (n : Nat) => tget 0 s.pwr.bandPages n % 2 ^ 16
  let four := fun (n : Nat) => pg n + pg (n + 1) * 2 ^ 16 + pg (n + 2) * 2 ^ 32 + pg (n + 3) * 2 ^ 48
  let ck := s.map.ckpt.getD (0, 0)
  ((List.range 4).map fun i => s.hubandWord (2 * i) + s.hubandWord (2 * i + 1) * 2 ^ 32) ++
    [four 0, four 4,
     s.pwr.flushed % 2 ^ 14 + (s.framesLeft % 2 ^ 14) * 2 ^ 16 + (s.pwr.mapfr % 2 ^ 11) * 2 ^ 32,
     s.mapSeqNo % 2 ^ 48 + (s.que.nextGroup % 2 ^ 16) * 2 ^ 48, ck.1 % 2 ^ 40, ck.2 % 2 ^ 40]
/-- R493: the next slots of the open write points, which policy firmware alone knows: free values. -/
def State.writePoints (s : State) : List Nat × State :=
  (List.range 20).foldl (fun (x : List Nat × State) _ =>
    let (v, t) := x.2.draw
    (x.1 ++ [v % 2 ^ 46], t)) ([], s)
/-- R448: the sequence has ended and the pin is high: DONE falls, BUDGET is restored, and held work goes on. -/
def State.holdEnd (s : State) : State :=
  let s := (s.wr Reg.PWR_STAT_HU_DONE 0).wr Reg.PWR_STAT_HOLDUP 0
  (s.relive fun s => s.onPwr fun p => { p with hold := 0 }).settle.kickAll
/-- R446: the HOLDUP record and HOLDUP_CLEAN are programmed and DONE is asserted. -/
def State.holdRecords (s : State) : State :=
  let (w, s) := s.writePoints
  let l := s.jLong 3 (s.holdWords ++ w)
  let s := s.jNow l
  let s := s.jNow [s.jShort 4 (l.getLastD 0 % 256)]
  let left := s.framesLeft
  let s := ((((s.setb Reg.PWR_STAT_HU_DONE).wr Reg.PWR_HU_LAST_FRAMES s.pwr.flushed).wr Reg.PWR_HU_LAST_MAPFR s.pwr.mapfr).wr
    Reg.PWR_HU_LAST_SHORT (b2n (left != 0))).setb Reg.PWR_HU_LAST_MARKER
  let s := (s.setb Reg.PWR_HU_LAST_VALID).wr Reg.PWR_HU_TIME_TIME (sat 0xFFFF (s.now - s.pwr.holdAt))
  let s := s.onPwr fun p => { p with hold := 6 }
  if s.pwr.warn then s else s.holdEnd

/-- R446: the records of the sequence are programmed: the map step is over. -/
def execHoldupRecordsDone (s : State) : Out :=
  .next (if s.pwr.hold = 4 ∧ s.map.wbs.isEmpty = true then s.holdRecords else s)

/-- R448, R541: the pin is high again. A sequence that has not reached DONE runs on to its end. -/
def execHoldupWarnDeassert (s : State) : Out :=
  .next (if !s.pwr.warn then s
    else
      let s := s.onPwr fun p => { p with warn := false }
      if s.pwr.hold = 6 then s.holdEnd
      else if s.pwr.hold = 0 then s.relive fun s => s
      else s)

end Sys2Proof.Machine
end

