-- ==== Sys2Proof/Machine/JunRows.lean ====
section
/-!
DEFINITION. Juniper's group table as a whole: the numbering of block groups (R310, R313), the load of the table (R340), the
register writes that clear records (R342), checkpoints (R338) and the epoch.
-/
namespace Sys2Proof.Machine

/-! Numbering (R310, R313). -/

/-- The LUNs whose groups are numbered: those that are bound, and present or retired. -/
def State.boundLuns (s : State) : List Nat :=
  (List.range 256).filter fun l => (s.lunProf l).isSome && (s.lunPos l == 1 || s.lunPos l == 3)
/-- Groups of a LUN under a shift. -/
def State.groupsOf (s : State) (lun g : Nat) : Nat := match s.lunProf lun with | some p => lunGroups p g | none => 0
/-- R310: the group shift that an enumeration takes. -/
def State.pickShift (s : State) : Nat :=
  let ls := s.boundLuns
  let lo := min 13 (s.rd Reg.JNP_CTL_GSHIFT)
  (((List.range 14).filter (lo ≤ ·)).find? fun g =>
    decide ((ls.map fun l => s.groupsOf l g).sum ≤ 16384)).getD 13
/-- The first group of each LUN, and the number of groups. -/
def State.numberFrom (s : State) (g : Nat) : List Nat → Nat → Tab Nat × Nat
  | [], n => ([], n)
  | l :: r, n =>
    let (t, m) := s.numberFrom g r (n + s.groupsOf l g)
    (tset 0 t l n, m)
/-- R313: the records follow the new numbering: an unchanged LUN keeps its records, any other takes the default state. -/
def State.moveRecords (s : State) : State :=
  let g := s.gShift
  let keep := fun (l : Nat) =>
    if s.jnp.toldG ≠ g ∨ s.jnp.fresh.contains l = true then none else tget none s.jnp.told l
  let jobs := (s.boundLuns.filter fun l => keep l != some (tget 0 s.jnp.base l)).flatMap fun l =>
    (List.range (s.groupsOf l g)).map fun i =>
      (tget 0 s.jnp.base l + i, match keep l with
        | some b => s.grpPeek (b + i)
        | none => grpDefault s.epoch24)
  s.each jobs fun s j => s.grpWrite j.1 0 j.2
/-- The numbering that the records now follow. -/
def State.tellNumbers (s : State) : State :=
  s.onJnp fun j =>
    { j with told := s.boundLuns.foldl (fun t l => tset none t l (some (tget 0 j.base l))) [], toldG := s.gShift, fresh := [] }
/-- R310, R313: an enumeration numbers the groups; `new` are the LUNs found ADDED or CHANGED. -/
def State.numberGroups (s : State) (new : List Nat) : State :=
  let g := s.pickShift
  let (t, n) := s.numberFrom g s.boundLuns 0
  let s := ((s.wr Reg.JNP_STAT_GSHIFT_USED g).wr Reg.JNP_STAT_GROUPS n).onJnp fun j =>
    { j with base := t, fresh := j.fresh ++ new.filter fun l => !j.fresh.contains l }
  if s.jnpOn then s.moveRecords.tellNumbers else s

/-! The load of the table (R340). -/

/-- R339: the copy of sector k that is in force, if one checks clean. -/
def State.sectorCopy (s : State) (k : Nat) : Option (List Byte) :=
  let at? := fun (b : Nat) => s.ySectorBytes (jnpSector b k)
  match s.jnpGen 0 k, s.jnpGen 1 k with
  | none, none => none
  | some _, none => some (at? 0)
  | none, some _ => some (at? 1)
  | some g, some h => some (at? (if genNewer 32 g h then 0 else 1))
/-- R339, R340: sector k loaded into the Hedgerow: its newer clean copy, or default records. -/
def State.loadSector (s : State) (k : Nat) : State :=
  let a := s.grpAddr (64 * k)
  match s.sectorCopy k with
  | some l => s.hWrite a (l.take 4088 ++ fill 8 0)
  | none =>
    ((s.hWrite a ((List.range 64).flatMap fun _ => grpDefault s.epoch24)).grpTouch (64 * k)).err1 clsRecovered 9 3 (64 * k)
/-- R312, R340, R342: a write of PL_JNP_TABLE. -/
def State.jnpTable (s : State) (v : Nat) : State :=
  if s.jnpOn then s.wr Reg.JNP_TABLE_ENABLE (bits v 31 1)
  else
    let r := bits v 0 5
    let s := s.wr Reg.JNP_TABLE_REGION r
    if !bit v 31 then s
    else if s.rd (Reg.HDG_RGN_USE r) != 3 || s.rd (Reg.HDG_RGN_CLASS r) != 0 then s.setb Reg.JNP_STAT_CFG_ERR
    else ((s.each (List.range 256) fun s k => s.loadSector k).setb Reg.JNP_TABLE_ENABLE).moveRecords.tellNumbers

/-- R340: a write that sets PL_JNP_TABLE.ENABLE. -/
def execJnpTableEnable (m : Master) (v : W32) (s : State) : Out :=
  .next (s.access m 0x9008 (some v.toNat) fun s => s.jnpTable v.toNat)

/-! Checkpoints (R338). -/

/-- A checkpoint begins, unless one is writing or a low-power entry or the hold-up has the keeper. -/
def State.ckptStart (s : State) : State :=
  if s.is Reg.JNP_STAT_CKPT_BUSY || s.pwr.hold != 0 || s.pwr.entry.isSome then s else s.jnpCheckpoint
/-- A write of PL_JNP_CKPT. -/
def State.jnpCkpt (s : State) (v : Nat) : State :=
  (s.wr Reg.JNP_CKPT_PERIOD (bits v 0 16)).when (bit v 31) (·.ckptStart)

/-- R338: PERIOD minutes have passed; a PERIOD of 0 disables. -/
def execJnpCheckpointPeriod (s : State) : Out :=
  .next (s.when (s.rd Reg.JNP_CKPT_PERIOD != 0 && s.pwr.st == .active) (·.ckptStart))

/-- R338: a write of 1 to PL_JNP_CKPT.NOW. -/
def execJnpCkptNow (m : Master) (v : W32) (s : State) : Out :=
  .next (s.access m 0x9020 (some v.toNat) fun s => s.jnpCkpt v.toNat)

/-! PL_JNP_GRP_CLR (R342). -/

/-- HEALTH: the histograms, RMAX, PSF and ESF are cleared. -/
def State.clrHealth (s : State) (g : Nat) : State := (s.grpWrite g 26 (fill 3 0)).grpWrite g 32 (fill 13 0)
/-- WEAR: FLAGS.WEAR is cleared. -/
def State.clrWear (s : State) (g : Nat) : State :=
  let (r, s) := s.grpRead g
  s.grpWrite g 15 (leBytes 1 (leAt r 15 1 &&& 0xFD))
/-- TRACK: the tracked offsets and the temperature range are reset. -/
def State.clrTrack (s : State) (g : Nat) : State :=
  let (r, s) := s.grpRead g
  s.grpWrite g 0 (fill 15 0 ++ leBytes 1 (leAt r 15 1 &&& 0xFA) ++ leBytes 1 (leAt r 16 1 + 1) ++ [0x7F, 0x80])
/-- A write of PL_JNP_GRP_CLR. -/
def State.grpClr (s : State) (v : Nat) : State :=
  let g := bits v 0 14
  if s.rd Reg.JNP_STAT_GROUPS ≤ g ∨ s.jnpOn = false then s
  else ((s.when (bit v 16) (·.clrHealth g)).when (bit v 17) (·.clrWear g)).when (bit v 18) (·.clrTrack g)

/-- R342: a write of PL_JNP_GRP_CLR with HEALTH. -/
def execJnpGrpClrHealth (m : Master) (v : W32) (s : State) : Out :=
  .next (s.access m 0x9024 (some v.toNat) fun s => s.grpClr v.toNat)
/-- R342: a write of PL_JNP_GRP_CLR with WEAR. -/
def execJnpGrpClrWear (m : Master) (v : W32) (s : State) : Out :=
  .next (s.access m 0x9024 (some v.toNat) fun s => s.grpClr v.toNat)
/-- R342: a write of PL_JNP_GRP_CLR with TRACK. -/
def execJnpGrpClrTrack (m : Master) (v : W32) (s : State) : Out :=
  .next (s.access m 0x9024 (some v.toNat) fun s => s.grpClr v.toNat)

/-- R342: 60,000,000 ACLK ticks have passed. The counter is one of the ACLK domain. -/
def execEpochTick (s : State) : Out :=
  .next (if s.pwr.st == .off then s else s.wr Reg.JNP_EPOCH_MINUTES (s.rd Reg.JNP_EPOCH_MINUTES + 1))

end Sys2Proof.Machine
end

