-- ==== Sys2Proof/Machine/Power.lean ====
section
/-!
DEFINITION. The power states (R433 to R441), the economy switch (R442) and the flash power domains (R443).
-/
namespace Sys2Proof.Machine

/-! Balls and registers. -/

/-- R543: FC_RESET_OUT_N: low until CCLK first locks after a cold reset, and in DORMANT until it locks at wake. -/
def State.fcResetOutN (s : State) : Bool := !s.sys.noClk && s.pwr.st != .dormant && s.pwr.st != .off

/-- R536, R537, R538: FC_PWR_EN[k]: under FC_STRAP[2] it follows its turn. -/
def State.fcPwrEn (s : State) (k : Nat) : Bool :=
  bit (s.rd Reg.PWR_STAT_PWR_EN) k && decide (tget 0 s.pwr.enAt k ≤ s.now) && s.pwr.st != .off
/-- R538: the domains are asserted 200 µs apart from now on, where FC_STRAP[2] says so. -/
def State.stagger (s : State) : State :=
  if s.is Reg.GLB_STRAP_DOM_SEQ then
    s.onPwr fun p => { p with enAt := [1, 2, 3].foldl (fun t k => tset 0 t k (s.now + 200 * k)) p.enAt }
  else s

/-- The fields of a list of registers that carry a Warm value take it; the others keep what they hold. -/
def State.toWarm (s : State) (l : List Fld) : State :=
  s.each l fun s F => match F.warm with | some w => s.wr F w | none => s

/-! Work and quiescence (R434, R436). -/

/-- R434: there is work other than that of one tag. -/
def State.workBut (s : State) (tag : Option Nat) : Bool :=
  (s.que.cmds.any fun c => some c.tag != tag) || (s.que.reqs.any fun r => !r.live) || (s.que.csf.any fun r => !r.live) ||
    !s.top.ops.isEmpty || (s.top.run.any fun r => r.2.isSome) ||
    (s.dma.chs.any fun c => c.2.act.isSome || c.2.shadow.isSome || !c.2.queue.isEmpty || !c.2.done.isEmpty) ||
    (s.top.leases.any fun l => l.act != .gorse) || (s.yew.ops.any fun o => o.2.isSome) || !s.yew.jobs.isEmpty ||
    s.pwr.econ.isSome ||
    (List.range 64).any fun k => s.is (Reg.QUE_CFG_ENABLE k) && (s.pair k).sqHead != (s.pair k).sqTail
/-- R436: the complex is quiescent for the entry of a tag. -/
def State.quiescent (s : State) (tag : Nat) : Bool := !s.workBut (some tag)

/-! IDLE (R433, R434). -/

/-- R434: the complex has had no work for DELAY µs: CCLK is gated. -/
def execIdleEntry (s : State) : Out :=
  .next (if s.pwr.st == .active && s.is Reg.PWR_CTL_IDLE_EN && !s.workBut none && s.pwr.waking.isNone && s.pwr.hold == 0 &&
      !s.pwr.warn && s.sys.warmRun.isNone && !s.sys.noClk then
      s.lapFlip.onPwr fun p => { p with st := .idle }
    else s)

/-! POWER entries (R436 to R439). -/

/-- R438: a POWER that enters replaces one that is outstanding. -/
def State.replacePower (s : State) : State :=
  match s.powerTag with
  | none => s
  | some t =>
    let s := (s.unrequest t).deferPower t
    s.onPwr fun p =>
      { p with entry := none, econ := p.econ.map fun e => if e.1 = t then (4096, e.2.1, e.2.2) else e }
/-- R436: the entry of a low-power state begins: 2 NAP, 3 DORMANT. -/
def State.powerBegin (s : State) (tag target : Nat) : State :=
  (s.replacePower.running tag).onPwr fun p => { p with entry := some (tag, target), entrySince := s.now }

/-- R436: POWER for NAP. -/
def execPowerNap (tag : Tag) (s : State) : Out :=
  .next (match s.ready? tag opPower with
    | some c => if c.pkt.param = 2 then s.powerBegin tag 2 else s
    | none => s)

/-- R439: POWER for DORMANT. -/
def execPowerDormant (tag : Tag) (s : State) : Out :=
  .next (match s.ready? tag opPower with
    | some c => if c.pkt.param = 3 then s.powerBegin tag 3 else s
    | none => s)

/-- R436, R439: the complex is quiescent during an entry: NAP requests its record, DORMANT begins its flush. -/
def State.entryQuiet (s : State) : State :=
  match s.pwr.entry with
  | none => s
  | some (t, target) =>
    let c := s.cmd t
    if c.stage != Stage.running || c.accepted || !s.quiescent t then s
    else if target = 2 then s.finish t stOK 0
    else (s.onCmd t fun c => { c with accepted := true, phase := 0 }).settle

/-- R436: the complex becomes quiescent. -/
def execPowerEntryQuiescent (s : State) : Out := .next s.entryQuiet

/-- R439: the DORMANT_CLEAN record is written: the entry's record is requested, unless work came meanwhile. -/
def State.dormantReady (s : State) : State :=
  match s.pwr.entry with
  | some (t, 3) =>
    if s.quiescent t then s.finish t stOK 0
    else s.onCmd t fun c => { c with phase := 0, accepted := false, pages := [] }
  | _ => s

/-- R438: LIMIT expires. -/
def execPowerEntryLimitExpiry (s : State) : Out :=
  .next (match s.pwr.entry with
    | some (t, _) =>
      if (s.cmd t).stage == Stage.running && !(s.cmd t).accepted then
        (s.deferPower t).onPwr fun p => { p with entry := none }
      else s
    | none => s)

/-! The low-power states themselves (R436, R439, R440). -/

/-- A doorbell that was accepted after the grant wakes the complex at once (R438). -/
def State.wakeIfRung (s : State) : State :=
  if (List.range 64).any fun k => s.is (Reg.QUE_CFG_ENABLE k) && (s.pair k).sqHead != (s.pair k).sqTail then
    s.onPwr fun p => { p with waking := if p.waking.isSome then p.waking else some 0 }
  else s
/-- R436: the complex enters NAP. -/
def State.enterNap (s : State) : State :=
  (((s.each (List.range 8) fun s n => s.onSeq n fun q => { q with ce := none }).lapFlip).onPwr fun p =>
    { p with st := .nap, entry := none }).wakeIfRung
/-- R440: what the core domain loses in DORMANT. -/
def State.coreLost (s : State) : State :=
  let s := s.toWarm (Reg.all.filter fun F => F.addr / 0x1000 != 4 && F.addr / 0x1000 != 5)
  let s := s.onHdg fun h =>
    { h with mem := [], marks := [], valid := [], undef := [], rewrite := none
             zeroed := (List.range 32).filter fun k => s.is (Reg.HDG_RGN_VT k) }
  let s := (s.onCop fun _ => {}).wr Reg.COP_STAT_READY 0
  let s := (({ s with map := {} }.wr Reg.MAP_CTL_ENABLE 0).wr Reg.MAP_CTL_REQ 0).wr Reg.JNP_TABLE_ENABLE 0
  let s := (s.wr Reg.MCS_CTL_VALID 0).onMcs fun m => { bank := m.bank }
  let s := (s.onJnp fun j => { j with calib := [], patrol := [], changed := [] }).onHly fun h => { h with running := false }
  let s := s.each (List.range 64) fun s k =>
    if s.is (Reg.QUE_CFG_SQ_LOC k) && s.is (Reg.QUE_CFG_CQ_LOC k) then s
    else (s.wr (Reg.QUE_CFG_ENABLE k) 0).pairSettle k
  s.each [0, 1] fun s w => (s.wr (Reg.DMA_W_DCQ_CFG_ENABLE w) 0).onDcq w fun _ => {}
/-- R439: the complex enters DORMANT. -/
def State.enterDormant (s : State) : State :=
  let s := s.lapFlip
  let s := s.when (s.is Reg.PWR_CTL_DORM_FLASH) fun s =>
    (s.each (List.range 4) fun s k => s.domCut k).onSys fun y => { y with undisc := List.range 8 }
  (s.coreLost.onPwr fun p => { p with st := .dormant, entry := none }).wakeIfRung
/-- R436: the record of a low-power entry stands in its ring: the state is entered. -/
def State.enterLow (s : State) (tag : Nat) : State :=
  match s.pwr.entry with
  | some (t, k) => if t = tag then (if k = 2 then s.enterNap else s.enterDormant) else s
  | none => s

/-- R436: a low-power entry whose record stands in its ring, or was dropped with its tag freed (R471), takes place. -/
def State.entryGo (s : State) : State :=
  match s.pwr.entry with
  | some (t, _) => if (s.cmd? t).isNone then s.enterLow t else s
  | none => s

/-! Wakes (R435, R437, R441). -/

/-- The value of PL_PWR_CTL with WAKE set and its other bits as they stand. -/
def State.pwrCtlWake (s : State) : Nat :=
  1 + 2 * s.rd Reg.PWR_CTL_DORM_FLASH + 4 * s.rd Reg.PWR_CTL_IDLE_EN

/-- R437: a write of 1 to PL_PWR_CTL.WAKE. -/
def execPwrWakeWrite (m : Master) (s : State) : Out :=
  .next (match m with
    | .client _ => s.access m 0x1000 (some s.pwrCtlWake) fun s => s
    | _ => s.accessWake m 0x1000 (some s.pwrCtlWake) fun s => s)

/-- R258, R435: the first segment of a channel at PRE or FULL waits for a relock of its PHY clock. -/
def State.relockAll (s : State) : State :=
  s.each (List.range 8) fun s n => if 2 ≤ s.level n then s.relock n (s.rd (Reg.CH_STAT_BIN n)) else s
/-- A wake from NAP or DORMANT is complete. -/
def State.woke (s : State) : State :=
  (s.setb Reg.PWR_STAT_WOKE).onPwr fun p => { p with waking := none }

/-- R435: the wake from NAP ends. -/
def execNapWakeDone (s : State) : Out :=
  .next (if s.pwr.st == .nap && s.pwr.waking.isSome then
      let s := (((s.onPwr fun p => { p with st := .active }).lapFlip.applyLatched).relockAll).woke.settle
      s.when (s.pwr.hold == 1) (·.holdBegin)
    else s)

/-- R441: the core supply is good at a wake from DORMANT. -/
def execCoreSupplyGood (s : State) : Out :=
  .next (if s.pwr.st == .dormant && s.pwr.waking == some 0 then s.onPwr fun p => { p with waking := some 1 } else s)

/-- R247, R441, R451: the Espalier load begins with the slot that the activation record names. -/
def State.loadBegin (s : State) : State :=
  (s.setb Reg.MCS_CTL_LOAD_EN).onMcs fun m => { m with loading := some s.actMcs, tried := 0 }
/-- R441: CCLK is locked at a wake from DORMANT. Policy firmware starts again from its active slot, unless no slot had
passed. -/
def State.dormantClk (s : State) : State :=
  let s := (s.onPwr fun p => { p with st := .active, waking := some 2 }).lapFlip.applyLatched.loadBegin.poolBegin.jDecide
  let s := if s.is Reg.HLY_STAT_NO_IMAGE then s else s.hollyGo s.actHolly
  if s.is Reg.PWR_CTL_DORM_FLASH then (s.wr Reg.PWR_STAT_PWR_EN (s.rd Reg.PWR_DOM_EN)).stagger else s.relockAll

/-- R441, R451, R502: CCLK locks after a cold reset or at a wake from DORMANT. -/
def execCclkLocked (s : State) : Out :=
  .next (if s.sys.noClk && s.pwr.st == .active then
      (s.onSys fun y => { y with noClk := false }).loadBegin.poolBegin.hollyStart
    else if s.pwr.st == .dormant && s.pwr.waking == some 1 then s.dormantClk
    else s)

/-- R441: the wake from DORMANT is complete once the image is loaded and every channel with power is discovered. -/
def State.wokeCheck (s : State) : State :=
  if s.pwr.waking == some 2 && s.pwr.st == .active && s.mcs.loading.isNone && !s.undiscovered then s.woke else s

/-! Economy (R442). -/

/-- R442: a switch to a point begins: 1 economy, 0 nominal. -/
def State.econBegin (s : State) (tag target : Nat) : State := s.onPwr fun p => { p with econ := some (tag, target, 0) }
/-- R442: a POWER that names a point. -/
def State.powerPoint (s : State) (tag target : Nat) : State :=
  let s := (s.replacePower).running tag
  match s.pwr.econ with
  | some (_, t, k) => s.onPwr fun p => { p with econ := some (tag, t, k) }
  | none => if s.rd Reg.PWR_CTL_ECON = target then s.finish tag stOK 0 else s.econBegin tag target

/-- R442: POWER for ACTIVE. -/
def execPowerActive (tag : Tag) (s : State) : Out :=
  .next (match s.ready? tag opPower with
    | some c => if c.pkt.param = 0 then s.powerPoint tag (b2n (c.pkt.flag 2)) else s
    | none => s)

/-- R442: the running segments have ended. -/
def execEconomySegmentsEnded (s : State) : Out :=
  .next (match s.pwr.econ with
    | some (t, target, 0) =>
      if (s.top.run.any fun r => r.2.isSome) || (s.chs.any fun c => match c.2.train with
          | some x => x.slice
          | none => false) then s
      else s.onPwr fun p => { p with econ := some (t, target, if target = 1 then 2 else 1) }
    | _ => s)

/-- R442, R549: the Kumal acknowledges a voltage request: going up, the relock to 800 MHz follows. -/
def execVoltageAck (s : State) : Out :=
  .next (match s.pwr.econ with
    | some (t, target, 1) => s.onPwr fun p => { p with econ := some (t, target, 2) }
    | _ => s)

/-- R268, R442: FULL channels whose stamp another voltage point gave are flagged. -/
def State.vptMoved (s : State) : State :=
  s.each (List.range 8) fun s n => if s.level n == 3 && s.stampOff n then s.flag n else s
/-- R442: the relock of a switch has ended: the point is in use, and the POWER completes, or goes on to the point that a
POWER which replaced it names. -/
def State.econEnd (s : State) (tag target : Nat) : State :=
  let s := ((s.wr Reg.PWR_CTL_ECON target).onPwr fun p => { p with econ := none }).vptMoved
  let s := match s.cmd? tag with
    | some c =>
      if c.pkt.opcode == opPower && c.stage == Stage.running then
        if b2n (c.pkt.flag 2) = target then s.finish tag stOK 0 else s.econBegin tag (b2n (c.pkt.flag 2))
      else s
    | none => s
  s.each (List.range 8) fun s n => s.kick n

/-- R442: the CCLK relock of a switch completes. -/
def execCclkRelockDone (s : State) : Out :=
  .next (match s.pwr.econ with
    | some (t, target, 2) => s.econEnd t target
    | _ => s)

/-! Flash power domains (R443, R452, R466). -/

/-- R443: EN of a domain is set: its ball is asserted. One that still waited for its array phases stays on. -/
def State.domOn (s : State) (k : Nat) : State :=
  if s.pwr.domOff.contains k then s.onPwr fun p => { p with domOff := p.domOff.filter (· != k) }
  else ((s.wrBit Reg.PWR_STAT_PWR_EN k true).onPwr fun p => { p with enAt := tset 0 p.enAt k 0 }).onSys fun y =>
    { y with undisc := y.undisc ++ [2 * k, 2 * k + 1].filter fun n => !y.undisc.contains n }
/-- R443: EN of a domain is cleared: its channels are held until their array phases have ended. -/
def State.domOffWant (s : State) (k : Nat) : State :=
  s.onPwr fun p => { p with domOff := if p.domOff.contains k then p.domOff else p.domOff ++ [k] }
/-- R443: a write of PL_PWR_DOM. -/
def State.pwrDom (s : State) (v : Nat) : State :=
  let was := s.rd Reg.PWR_DOM_EN
  let s := (s.wr Reg.PWR_DOM_EN (bits v 0 4)).wr Reg.PWR_DOM_PG_TIMEOUT (bits v 8 8)
  let s := s.wr Reg.PWR_DOM_PG_FAIL (s.rd Reg.PWR_DOM_PG_FAIL &&& (15 ^^^ bits v 16 4))
  let s := s.each (List.range 4) fun s k =>
    if bit v k && !bit was k then s.domOn k else if !bit v k && bit was k then s.domOffWant k else s
  s.domStep.settle

/-- R443: a write that sets EN of a domain. -/
def execPwrDomEnable (m : Master) (v : W32) (s : State) : Out :=
  .next (s.access m 0x1014 (some v.toNat) fun s => s.pwrDom v.toNat)

/-- R443: a write that clears EN of a domain. -/
def execPwrDomDisable (m : Master) (v : W32) (s : State) : Out :=
  .next (s.access m 0x1014 (some v.toNat) fun s => s.pwrDom v.toNat)

/-- R443: FC_PWRGD did not rise in time. -/
def execPgTimeout (dom : Fin 4) (s : State) : Out :=
  .next (if bit (s.rd Reg.PWR_STAT_PWR_EN) dom.val && !bit (s.rd Reg.PWR_STAT_PWRGD) dom.val &&
      !bit (s.rd Reg.PWR_DOM_PG_FAIL) dom.val && s.pwr.st != .dormant && s.pwr.st != .off then
      let s := (s.wrBit Reg.PWR_DOM_PG_FAIL dom.val true).err1 clsUnrecovered 0xE 1 0 0 dom.val
      ((s.discTold (2 * dom.val) 0 0 0).discTold (2 * dom.val + 1) 0 0 0).wokeCheck
    else s)

/-- R452, R466: FC_PWRGD of a domain that is switched on is high: discovery of its two channels is requested. -/
def State.pwrGood (s : State) (k : Nat) : State :=
  if bit (s.rd Reg.PWR_STAT_PWR_EN) k && !bit (s.rd Reg.PWR_STAT_PWRGD) k && s.pwr.st != .dormant && s.pwr.st != .off then
    (s.wrBit Reg.PWR_STAT_PWRGD k true).each [2 * k, 2 * k + 1] fun s n =>
      (((s.setb (Reg.CH_STAT_PWRGD n)).forgetResident n).wantLease .discover [resCh n] none).onSys fun y =>
        { y with undisc := if y.undisc.contains n then y.undisc else y.undisc ++ [n] }
  else s

/-- R452, R466: FC_PWRGD of a domain rises. -/
def execPwrgdRise (dom : Fin 4) (s : State) : Out := .next (s.pwrGood dom.val)

end Sys2Proof.Machine
end

