-- ==== Sys2Proof/Machine/Load.lean ====
section
/-!
DEFINITION. Loading and patching Espalier (R206, R207, R232, R247 to R252), the clearing of a fault record (R230), and
ACTIVATE for both images (R92, R249, R250, R508 to R510).
-/
namespace Sys2Proof.Machine

/-! Register accesses (R206, R207, R230, R232). -/

/-- R230, R232: a write of PL_MCS_FAULTn. -/
def State.faultClear (s : State) (n v : Nat) : State :=
  if !bit v 15 then s
  else
    let s := s.each [Reg.MCS_FAULT_VALID n, Reg.MCS_FAULT_CODE n, Reg.MCS_FAULT_STUCK n, Reg.MCS_FAULT_TCODE n]
      fun s F => s.wr F 0
    (s.restartSeq n).kick n

/-- R230: a write of 1 to PL_MCS_FAULTn.VALID. -/
def execMcsFaultClear (m : Master) (ch : Fin 8) (v : W32) (s : State) : Out :=
  .next (s.access m (0xE060 + 4 * ch.val) (some v.toNat) fun s => s.faultClear ch.val v.toNat)

/-- R207: a write of PL_MCS_CTL. LOAD_EN stays as it is while a load pass runs. -/
def State.mcsCtl (s : State) (v : Nat) : State :=
  let s := (s.wr Reg.MCS_CTL_AUTO_RESTART (bits v 3 1)).wr Reg.MCS_CTL_RDSEL (bits v 4 3)
  let s := s.when (bit v 7) (·.wr Reg.MCS_CTL_LOAD_ERR 0)
  if s.mcs.loading.isSome then s
  else if !bit v 0 then (s.wr Reg.MCS_CTL_LOAD_EN 0).kickAll
  else if s.is Reg.MCS_CTL_LOAD_EN || (List.range 8).all (fun n => !(s.seq n).run && !(s.seq n).halt) then
    s.setb Reg.MCS_CTL_LOAD_EN
  else s.setb Reg.MCS_CTL_LOAD_ERR

/-- R207: a write to PL_MCS_CTL.LOAD_EN. -/
def execMcsLoadEn (m : Master) (v : W32) (s : State) : Out :=
  .next (s.access m 0xE000 (some v.toNat) fun s => s.mcsCtl v.toNat)

/-- R206, R208, R252: a word of the control store or nano-store written in every copy, with its check bits: an upset there
is gone, and the image is patched. -/
def State.csPatched (s : State) (key : Nat → Nat) (f : Mcs → Mcs) : State :=
  s.onMcs fun m =>
    let m := f m
    { m with csErr := (List.range 8).foldl (fun t n => tset 0 t (key n) 0) m.csErr, img := { m.img with patched := true } }
/-- R206: a write of the control-store window. -/
def State.csWrite (s : State) (off v : Nat) : State :=
  if s.is Reg.MCS_CTL_LOAD_EN then
    s.csPatched (fun n => csKey n (off / 4)) fun m => { m with cs := tset 0 m.cs (off / 4) v }
  else s.setb Reg.MCS_CTL_LOAD_ERR
/-- R13, R483: an access that ends with an error response and a record. -/
def State.badAccess (s : State) (addr : Nat) : State := { s.err1 clsContained 1 1 addr with resp := .error }

/-- R206: a window write. -/
def execCsWindowWrite (m : Master) (off : Nat) (v : W32) (s : State) : Out :=
  .next (s.access m (0x10000 + off) (some v.toNat) fun s =>
    if off % 4 = 0 ∧ off < 0x10000 then s.csWrite off v.toNat else s.badAccess (0x10000 + off))

/-- R232: a write of PL_MCS_NANO_ADDR loads DATA0 to DATA2. -/
def State.nanoAddr (s : State) (v : Nat) : State :=
  let w := tget 0 s.mcs.nano (bits v 0 11)
  let s := (s.wr Reg.MCS_NANO_ADDR_INDEX (bits v 0 11)).wr Reg.MCS_NANO_ADDR_AUTOINC (bits v 31 1)
  ((s.wr Reg.MCS_NANO_DATA0_DATA (bits w 0 32)).wr Reg.MCS_NANO_DATA1_DATA (bits w 32 32)).wr Reg.MCS_NANO_DATA2_DATA
    (bits w 64 32)

/-- R232: a write to PL_MCS_NANO_ADDR. -/
def execNanoAddrWrite (m : Master) (v : W32) (s : State) : Out :=
  .next (s.access m 0xE02C (some v.toNat) fun s => s.nanoAddr v.toNat)

/-- R206, R232: a write of DATA2 commits the nanoword, or is refused. -/
def State.nanoWrite (s : State) (v : Nat) : State :=
  let s := s.wr Reg.MCS_NANO_DATA2_DATA v
  if !s.is Reg.MCS_CTL_LOAD_EN then s.setb Reg.MCS_CTL_LOAD_ERR
  else
    let i := s.rd Reg.MCS_NANO_ADDR_INDEX
    let w := s.rd Reg.MCS_NANO_DATA0_DATA + s.rd Reg.MCS_NANO_DATA1_DATA * 2 ^ 32 + v * 2 ^ 64
    let s := s.csPatched (fun n => nanoKey n i) fun m => { m with nano := tset 0 m.nano i w }
    s.when (s.is Reg.MCS_NANO_ADDR_AUTOINC) fun s => s.wr Reg.MCS_NANO_ADDR_INDEX (i + 1)

/-- R232: a write to PL_MCS_NANO_DATA2. -/
def execNanoCommit (m : Master) (v : W32) (s : State) : Out :=
  .next (s.access m 0xE038 (some v.toNat) fun s => s.nanoWrite v.toNat)

/-! Load passes (R247, R248). -/

/-- A section of n words of k bytes as a store. -/
def storeOf (l : List Byte) (n k : Nat) : Tab Nat :=
  ((List.range n).map fun i => (i, leAt l (k * i) k)).filter fun e => e.2 != 0
/-- R248: a load pass that succeeds: the stores and tables hold the image, and VERSION, DIGEST, FORMAT and VALID say
so. -/
def State.loadImage (s : State) (bank : Nat) : State :=
  let h := s.slotBytes true bank ihSize
  let l := s.slotBytes true bank (ihLength h)
  let d := sha256 l
  let s := s.onMcs fun m =>
    { m with
      cs := storeOf ((l.drop (ihCs h)).take (ihCsLen h)) ((ihCsLen h + 3) / 4) 4
      nano := storeOf ((l.drop (ihNano h)).take (ihNanoLen h)) (ihNanoLen h / 12) 12
      csErr := []
      img := { profs := imgProfs l, entries := (List.range 8).map (imgTable l) }
      bank := bank
      loading := none
      tried := 0 }
  let s := ((s.wr Reg.MCS_VERSION_PATCH (leAt h 4 1)).wr Reg.MCS_VERSION_MINOR (leAt h 5 1)).wr Reg.MCS_VERSION_MAJOR
    (leAt h 6 1)
  let s := s.each (List.range 8) fun s k => s.wr (Reg.MCS_DIGEST_DIGEST k) (leAt d (4 * k) 4)
  ((s.wr Reg.MCS_CTL_FORMAT (ihFormat h)).setb Reg.MCS_CTL_VALID).wr Reg.MCS_CTL_LOAD_EN 0
/-- R247, R250: no image could be loaded: VALID is 0, every channel is ABSENT, and a FATAL record is written. -/
def State.loadFatal (s : State) (bank detail : Nat) : State :=
  let s := ((s.wr Reg.MCS_CTL_VALID 0).wr Reg.MCS_CTL_LOAD_EN 0).onMcs fun m => { m with loading := none, tried := 0 }
  (s.each (List.range 8) fun s n => s.goAbsent n).err1 clsFatal 6 2 (objSlot bank true) detail
/-- R247: the end of a load pass of a bring-up. -/
def State.loadCold (s : State) (bank : Nat) : State :=
  match s.mcsFail bank false with
  | none => (s.loadImage bank).wokeCheck.kickAll
  | some r =>
    let s := s.err1 clsRecovered 6 2 (objSlot bank true) r
    if s.mcs.tried = 0 then s.onMcs fun m => { m with loading := some (1 - bank), tried := 1 }
    else (s.loadFatal bank r).wokeCheck

/-- What R251 compares of a target: MAXIF, MAXRATE and the highest SDR mode of its profile. -/
def rateOf (p : List Byte) : Nat × Nat × Nat := (prMaxif p, prMaxRate p, prSdrTm p)
/-- The bound targets of a channel with what R251 compares. -/
def State.chRates (s : State) (n : Nat) : List (Nat × Nat × Nat × Nat) :=
  (s.boundTargets n).filterMap fun t => (s.targProf n t).map fun p => (t, rateOf p)
/-- R251: a channel after an activation: it keeps its level, or drops to PRE or SDR with a background TRAIN. -/
def State.chActivated (s : State) (n : Nat) (was : List (Nat × Nat × Nat × Nat)) : State :=
  if s.level n = 0 then
    if (s.chan n).reset || (s.chan n).disc || s.sys.undisc.contains n then s else s.climb n false []
  else if s.chRates n = was then s
  else
    let s := ((s.wr (Reg.CH_MODE_SDR_TM n) (s.chSdr n)).wr (Reg.CH_MODE_CAP_BIN n) (s.chCap n)).wr (Reg.CH_STAMP_VALID n) 0
    if s.chMode n = 0 then s.toSdr n clsRecovered
    else if s.level n = 1 then
      (s.onChan n fun c => { c with climb := 0, relock := none, jobs := [], next := none }).climbOn n false
    else ((s.wr (Reg.CH_MODE_IFMODE n) (s.chMode n)).toPre n clsRecovered).when (s.is (Reg.CH_CTL_AUTO_TRAIN n)) fun s => s.wantTrain n none
/-- R249: the load pass of an ACTIVATE succeeds: the new bindings take effect, and the held segments go on. -/
def State.activated (s : State) (a : Actv) : State :=
  let was := (List.range 8).map s.chRates
  let s := ((s.loadImage a.bank).keepAct s.actHolly a.bank 0).rebind
  (s.each (List.range 8) fun s n => s.chActivated n (was.getD n [])).actEnd stOK 0
/-- R250: why a load pass of an ACTIVATE fails: 8 for an uncorrectable word, 9 for another image. -/
def State.passFail (s : State) (a : Actv) : Option Nat :=
  let n := leAt (s.slotBytes true a.bank 16) 0x008 4
  if s.slotBusy a.bank || s.slotBad true a.bank (max ihSize (min n 131072)) then some 8
  else if (decide (131072 < n) || s.slotDigest true a.bank != a.digest : Bool) then some 9
  else none
/-- R249, R250: the end of a load pass of an ACTIVATE. -/
def State.loadActive (s : State) (a : Actv) : State :=
  if a.stage = 3 then
    match s.passFail a with
    | none => s.activated a
    | some r =>
      (s.onHly fun h => { h with actv := some { a with stage := 4, reason := r } }).onMcs fun m =>
        { m with loading := some m.bank }
  else match s.mcsFail s.mcs.bank false with
    | none => ((s.loadImage s.mcs.bank).err1 clsRecovered 6 2 (objSlot a.bank true) a.reason).actEnd stActRejected a.reason
    | some _ => (s.loadFatal a.bank a.reason).actEnd stActRejected a.reason

/-- R248: a load pass ends. -/
def execEspalierLoadDone (s : State) : Out :=
  .next (match s.mcs.loading with
    | none => s
    | some b => match s.hly.actv with
      | some a => if a.mcs && decide (3 ≤ a.stage) then s.loadActive a else s.loadCold b
      | none => s.loadCold b)

/-! ACTIVATE (R92, R249, R508). -/

/-- R92: an ACTIVATE leaves the inbox: its check pass begins, or another ACTIVATE defers it. -/
def State.activate (s : State) (c : Cmd) (mcs : Bool) : State :=
  let s := s.takeInbox c.tag
  if s.hly.actv.isSome then s.finishSlow c.tag stDeferred (detailDeferred 3 0 0)
  else (s.running c.tag).onHly fun h => { h with actv := some { mcs := mcs, bank := bits c.pkt.addr 0 1, tag := c.tag } }

/-- R508: ACTIVATE with PARAM 0x00. -/
def execActivateHolly (tag : Tag) (s : State) : Out :=
  .next (match s.slow? tag opActivate with
    | some c => if c.pkt.param = 0 then s.activate c false else s
    | none => s)

/-- R249: ACTIVATE with PARAM 0x01. -/
def execActivateEspalier (tag : Tag) (s : State) : Out :=
  .next (match s.slow? tag opActivate with
    | some c => if c.pkt.param = 1 then s.activate c true else s
    | none => s)

/-- R249, R508: the check pass ends: ACTIVATE_REJECTED, or the drain. The hold-up sequence cuts the drain short (R449). -/
def State.checkDone (s : State) (a : Actv) : State :=
  match if a.mcs then s.mcsFail a.bank true else s.hollyFail a.bank with
  | some r => (s.when (!a.mcs) (·.wr Reg.HLY_STAT_REASON r)).actEnd stActRejected r
  | none =>
    let s := s.onHly fun h => { h with actv := some { a with stage := 1, digest := s.slotDigest a.mcs a.bank } }
    if s.pwr.hold != 0 then s.actEnd stActTimeout 0 else s.actStep

/-- R249, R508: the check pass of an ACTIVATE has read and digested the slot. -/
def execCheckPassDone (s : State) : Out :=
  .next (match s.hly.actv with
    | some a => if a.stage = 0 then s.checkDone a else s
    | none => s)

/-- R508, R510: the drain of an ACTIVATE exceeds its limit: the old image runs on. -/
def execActivateDrainTimeout (s : State) : Out :=
  .next (match s.hly.actv with
    | some a => if a.stage = 1 then s.actEnd stActTimeout 0 else s
    | none => s)

end Sys2Proof.Machine
end

