-- ==== Sys2Proof/Machine/Slow.lean ====
section
/-!
DEFINITION. Slow-path packets that policy firmware serves (R62): ATTACH and DETACH (R87, R88, R473), DISCOVER (R89,
R467), SET_POLICY (R90, R504, R505) and the pages of GET_INFO (R91).
-/
namespace Sys2Proof.Machine

/-! ATTACH and DETACH (R87, R88, R473). -/

/-- The outstanding commands of a port, but for one tag. -/
def State.portCmds (s : State) (port tag : Nat) : List Cmd :=
  s.que.cmds.filter fun c => c.pkt.client == port && c.tag != tag
/-- R87: the range overlaps that of another attached port. -/
def State.attOverlap (s : State) (port base n : Nat) : Bool :=
  (List.range 4).any fun q => q != port && match tget none s.que.att q with
    | some (b, k) => decide (base < b + k) && decide (b < base + n)
    | none => false
/-- R87: an ATTACH: its refusals in the order overlap, own tag, tags outstanding, reserve; or the port is attached. -/
def State.attach (s : State) (c : Cmd) : State :=
  let s := s.takeInbox c.tag
  let port := bits c.pkt.param 0 4
  let base := bits c.pkt.addr 0 16
  let n := bits c.pkt.addr 16 16
  let q := bits c.pkt.addr 32 16
  let live := (s.portCmds port c.tag).length
  if s.attOverlap port base n then s.finishSlow c.tag stField (detailField 8 2)
  else if port = 3 ∧ (c.tag < base ∨ base + n ≤ c.tag) then s.finishSlow c.tag stField (detailField 8 2)
  else if (tget none s.que.att port).isSome ∧ live ≠ 0 then s.finishSlow c.tag stDeferred (detailDeferred 5 0 live)
  else if s.poolSize < s.copSum port q then s.finishSlow c.tag stQuota (3 + (s.copSum port q % 2 ^ 24) * 2 ^ 8)
  else
    ((s.setQuota port q).onQue fun u => { u with att := tset none u.att port (some (base, n)) }).finishSlow c.tag stOK 0

/-- R87: an ATTACH packet. -/
def execAttach (tag : Tag) (s : State) : Out :=
  .next (match s.slow? tag opAttach with
    | some c => s.attach c
    | none => s)

/-- R473: the parked records of a dark port are discarded. -/
def State.discardParked (s : State) (port : Nat) : State :=
  let l := tget [] s.que.parked port
  s.onQue (fun q => { q with parked := tset [] q.parked port [] }) |>.each l fun s r => s.dropRec port r
/-- R88, R473: the DETACH packets that wait: a dark port's parked records are discarded, and the port is detached once it
has no tag outstanding. -/
def State.detachStep (s : State) : State :=
  s.each (s.que.cmds.filter fun c => c.pkt.opcode == opDetach && c.stage == .running) fun s c =>
    let port := bits c.pkt.param 0 4
    let s := s.when (s.dark port) fun s => s.discardParked port
    if (s.portCmds port c.tag).isEmpty then
      (s.onQue fun q => { q with att := tset none q.att port none }).finishSlow c.tag stOK 0
    else s
/-- R88: a DETACH; with ABORT it removes the port's commands that may still be removed. -/
def State.detach (s : State) (c : Cmd) : State :=
  let s := (s.takeInbox c.tag).running c.tag
  let s := s.when (c.pkt.flag 2) fun s =>
    s.each ((s.portCmds (bits c.pkt.param 0 4) c.tag).filter s.removable) fun s x => s.remove x stAborted
  s.detachStep.settle

/-- R88: a DETACH packet. -/
def execDetach (tag : Tag) (s : State) : Out :=
  .next (match s.slow? tag opDetach with
    | some c => s.detach c
    | none => s)

/-! DISCOVER (R89, R465, R467). -/

/-- R467: a DISCOVER: deferred, or it requests the discovery of its channels and waits for each to end. A channel whose
power good failed has nothing to enumerate and is not waited for. -/
def State.discover (s : State) (c : Cmd) : State :=
  let s := s.takeInbox c.tag
  let sc := scopeOf c.pkt
  match sc.find? fun n => !bit (s.rd Reg.PWR_DOM_EN) (n / 2) with
  | some n => s.finishSlow c.tag stDeferred (detailDeferred 4 1 n)
  | none =>
    if s.hly.actv.isSome then s.finishSlow c.tag stDeferred (detailDeferred 3 0 0)
    else
      let ns := sc.filter fun n => !bit (s.rd Reg.PWR_DOM_PG_FAIL) (n / 2)
      let s := s.onCmd c.tag fun c => { c with stage := .running, waits := ns, handles := [0, 0, 0] }
      let s := s.each ns fun s n => s.wantLease .discover [resCh n] none
      if ns.isEmpty then s.finishSlow c.tag stOK (s.discDetail c.pkt 0 0 0) else s
/-- R89: a DISCOVER packet. -/
def execDiscover (tag : Tag) (s : State) : Out :=
  .next (match s.slow? tag opDiscover with
    | some c => s.discover c
    | none => s)

/-! SET_POLICY (R90, R504, R505, R468). -/

/-- R504: a value that a parameter may not take. -/
def State.policyBad (s : State) (n v : Nat) : Bool :=
  (n == 2 && decide (255 < v) && v != 0xFFFFFFFF) || (n == 3 && v == 1) ||
    (n == 4 && decide (s.param 5 ≤ v)) || (n == 5 && decide (v ≤ s.param 4))
/-- R468: a write of RETIRE_LUN requests the retirement of the LUN. -/
def State.retire (s : State) (lun : Nat) : State :=
  if lun ≤ 255 ∧ (s.lunPos lun = 1 ∨ s.lunPos lun = 2) ∧ s.top.retireReq.contains lun = false then
    s.onTop fun t => { t with retireReq := t.retireReq ++ [lun] }
  else s
/-- R505: a parameter takes a value. -/
def State.setParam (s : State) (n v : Nat) (keep : Bool) : State :=
  let s := s.onHly fun h =>
    { h with params := h.params.map fun p =>
        if p.1 = n then (p.1, p.2.1, p.2.2.1, v, p.2.2.2.2 || keep) else p }
  if n = 2 then s.retire v else s
/-- R505: the word of a persisted parameter goes to sector 291 of the quiet bank: behind its last word, or, where the
sector is full, into the erased sector with the latest word of every other parameter that it held. -/
def State.persist (s : State) (tag n v : Nat) : State :=
  let b := 1 - s.yFetch
  let ws := s.storedIn 0 ++ s.storedIn 1
  let run := ws.foldl (fun m w => max m (bits w 16 16 + 1)) 1
  let used := (List.range 512).foldl (fun m i => if s.yWord (yAddr b 291 i) = yErased then m else i + 1) 0
  if used < 512 then s.keep [{ addr := yAddr b 291 used, data := storedWord n run v, note := 4096 + tag }]
  else
    let olds := s.hly.params.filterMap fun p => if p.1 = n then none else (s.stored p.1).map fun x => storedWord p.1 run x
    let l := olds ++ [storedWord n run v]
    s.keep ((sectorJobs (yAddr b 291 0) l).map fun j =>
      if j.erase || j.addr != yAddr b 291 (l.length - 1) then j else { j with note := 4096 + tag })
/-- R505: a SET_POLICY takes effect and completes. -/
def State.policyDone (s : State) (c : Cmd) (keep : Bool) : State :=
  let n := bits c.pkt.addr 0 16
  let s := s.onCmd c.tag fun c => { c with result := s.param n }
  (s.setParam n (bits c.pkt.addr 32 32) keep).finishSlow c.tag stOK 0
/-- R90: a SET_POLICY. RETIRE_LUN is not persisted. -/
def State.setPolicy (s : State) (c : Cmd) : State :=
  let s := s.takeInbox c.tag
  let n := bits c.pkt.addr 0 16
  let v := bits c.pkt.addr 32 32
  match s.hly.params.find? fun p => p.1 == n with
  | none => s.finishSlow c.tag stField (detailField 8 2)
  | some p =>
    if v < p.2.1 ∨ p.2.2.1 < v ∨ s.policyBad n v = true then s.finishSlow c.tag stField (detailField 12 2)
    else if c.pkt.flag 2 && n != 2 then (s.running c.tag).persist c.tag n v
    else s.policyDone c false
/-- R505: the word of a persisted parameter is programmed. -/
def State.persisted (s : State) (tag : Nat) : State :=
  match s.cmd? tag with
  | some c => if c.pkt.opcode == opPolicy && c.stage == .running then s.policyDone c true else s
  | none => s

/-- R90: a SET_POLICY packet. -/
def execSetPolicy (tag : Tag) (s : State) : Out :=
  .next (match s.slow? tag opPolicy with
    | some c => s.setPolicy c
    | none => s)

/-! GET_INFO (R91). -/

/-- A page written at HLIST, with its bytes as RESULT. The rest of the 4 KiB stays as it was (R91, DESIGN CHOICE, log entry
60). -/
def State.infoPage (s : State) (c : Cmd) (l : List Byte) (result : Nat) : State :=
  let s := (s.takeInbox c.tag).hWrite c.pkt.hlist l
  (s.onCmd c.tag fun c => { c with result := result }).finishSlow c.tag stOK 0
/-- A GET_INFO of one page has its effect. -/
def State.info (s : State) (tag page : Nat) (f : Cmd → State) : State :=
  match s.slow? tag opInfo with
  | some c => if c.pkt.param = page then f c else s
  | none => s
/-- The bytes of registers of one word each. -/
def State.regBytes (s : State) (l : List (List Fld)) : List Byte := l.flatMap fun w => leBytes 4 (s.regWord w)
/-- LUN positions in state PRESENT. -/
def State.presentLuns (s : State) : Nat := (s.sys.luns.filter fun e => e.2.present == 1).length

/-- R572: the identity page. -/
def State.identity (s : State) : List Byte :=
  s.regBytes [[Reg.GLB_ID_MINOR, Reg.GLB_ID_MAJOR, Reg.GLB_ID_FAMILY],
    [Reg.GLB_STRAP_RB_PU, Reg.GLB_STRAP_HU_EN, Reg.GLB_STRAP_DOM_SEQ],
    [Reg.MCS_VERSION_PATCH, Reg.MCS_VERSION_MINOR, Reg.MCS_VERSION_MAJOR]] ++
  leBytes 1 (s.rd Reg.MCS_CTL_VALID + 2 * s.rd Reg.MCS_CTL_FORMAT + 4 * b2n s.mcs.img.patched + 8 * s.actMcs) ++
  leBytes 3 s.actHolly ++
  s.regBytes [[Reg.HLY_VERSION_PATCH, Reg.HLY_VERSION_MINOR, Reg.HLY_VERSION_MAJOR]] ++
  leBytes 2 s.poolSize ++ leBytes 2 s.presentLuns ++ fill 8 0 ++
  ((List.range 8).flatMap fun k => leBytes 4 (s.rd (Reg.MCS_DIGEST_DIGEST k))) ++
  ((List.range 8).flatMap fun k => leBytes 4 (s.rd (Reg.HLY_DIGEST_DIGEST k))) ++ leBytes 8 s.now ++ fill 24 0

/-- R572: GET_INFO page 0x00. -/
def execGetInfoIdentity (tag : Tag) (s : State) : Out :=
  .next (s.info tag 0 fun c => s.infoPage c s.identity 128)

/-- R464: the state of a LUN position as the page codes it. -/
def posCode (p : Nat) : Nat := if p = 2 then 3 else if p = 3 then 2 else p
/-- R464: the record of a target. -/
def State.targRecord (s : State) (i : Nat) : List Byte :=
  let t := tget {} s.sys.targs i
  let g := fun k => t.geom.getD k 0
  fit 6 t.id ++ leBytes 1 t.prof ++ leBytes 1 (t.luns % 8) ++ leBytes 2 (g 0) ++ leBytes 2 (g 1) ++ leBytes 2 (g 2) ++
    leBytes 2 (g 3) ++ leBytes 1 (g 4) ++ leBytes 1 (g 5) ++
    ((List.range 4).flatMap fun k =>
      let v := tget {} s.sys.luns (4 * i + k)
      leBytes 1 (posCode v.present + 4 * v.report)) ++ leBytes 2 t.ppcrc ++ fill 8 0
/-- R464: the die inventory. -/
def State.inventory (s : State) : List Byte :=
  leBytes 2 (s.sys.targs.filter fun t => t.2.found && t.2.prof != 0xFF).length ++
  leBytes 1 (sat 255 s.sys.added) ++ leBytes 1 (sat 255 s.sys.missing) ++ leBytes 1 (sat 255 s.sys.changed) ++
  leBytes 3 (((List.range 8).map fun n => b2n (s.chan n).chain * 2 ^ n).sum) ++ leBytes 8 s.sys.discTime ++ fill 48 0 ++
  (List.range 64).flatMap s.targRecord

/-- R464: GET_INFO page 0x01. -/
def execGetInfoInventory (tag : Tag) (s : State) : Out :=
  .next (s.info tag 1 fun c => s.infoPage c s.inventory 2112)

/-- R523: an entry of the TORN list. -/
def Torn.bytes (t : Torn) : List Byte :=
  leBytes 5 t.pfa ++ leBytes 1 (t.passes.getD 0xF % 16 + (t.of % 16) * 16) ++ leBytes 2 t.source ++ leBytes 2 t.failed ++
    fill 6 0
/-- R523: the TORN list. -/
def State.tornPage (s : State) : List Byte :=
  leBytes 1 s.err.torn.length ++ leBytes 7 (b2n (s.sys.replay && !s.sys.restore) + 2 * s.rd Reg.ERR_TORN_OVER) ++ leBytes 8 s.err.tornTime ++
    s.err.torn.flatMap Torn.bytes

/-- R523: GET_INFO page 0x02. -/
def execGetInfoTorn (tag : Tag) (s : State) : Out :=
  .next (s.info tag 2 fun c => s.infoPage c s.tornPage (16 + 16 * s.err.torn.length))

/-- R336: the health record of a group. -/
def healthRecord (g : Nat) (r : List Byte) : List Byte :=
  let at1 := fun k => leBytes 1 (leAt r k 1)
  leBytes 2 g ++ at1 15 ++ at1 26 ++ at1 27 ++ at1 28 ++ leBytes 1 ((histMedian (recHist r 32 5)).getD 0xFF) ++
    leBytes 1 ((histMedian (recHist r 37 8)).getD 0xFF) ++ at1 16 ++ at1 17 ++ at1 18 ++ at1 19 ++
    leBytes 3 (leAt r 23 3) ++ fill 1 0
/-- R336: the groups that the health page reports. -/
def State.healthGroups (s : State) (first : Nat) : List Nat :=
  (List.range (min 255 (s.rd Reg.JNP_STAT_GROUPS - first))).map (first + ·)
/-- R336: the records of groups, read one by one. While the table is off, no group has a record: the default state. -/
def State.healthRecords (s : State) (l : List Nat) : List Byte × State :=
  l.foldl (fun (x : List Byte × State) g =>
    let (r, s) := if x.2.jnpOn then x.2.grpRead g else (grpDefault x.2.epoch24, x.2)
    (x.1 ++ healthRecord g r, s)) ([], s)
/-- R336: the health page from a group on. -/
def State.health (s : State) (c : Cmd) : State :=
  let first := bits c.pkt.addr 0 14
  let l := s.healthGroups first
  let (d, s) := s.healthRecords l
  s.infoPage c
    (leBytes 2 first ++ leBytes 1 l.length ++ leBytes 1 s.gShift ++ leBytes 2 (s.rd Reg.JNP_STAT_GROUPS) ++
      leBytes 2 (s.rd Reg.JNP_TABLE_ENABLE) ++ leBytes 8 s.now ++ d) (16 + 16 * l.length)

/-- R336: GET_INFO page 0x03. -/
def execGetInfoHealth (tag : Tag) (s : State) : Out := .next (s.info tag 3 s.health)

/-- R430: the energy page. -/
def State.energyPage (s : State) : List Byte :=
  leBytes 8 s.now ++ leBytes 8 (s.rd Reg.PWR_CTL_ECON) ++
    ((List.range 4).flatMap fun p => leBytes 8 (tget 0 s.box.uj p) ++ leBytes 8 (tget 0 s.box.bytes p)) ++
    leBytes 8 (tget 0 s.box.uj 4) ++ fill 8 0

/-- R430: GET_INFO page 0x04. -/
def execGetInfoEnergy (tag : Tag) (s : State) : Out :=
  .next (s.info tag 4 fun c => s.infoPage c s.energyPage 96)

/-- R506: the parameter table, in ascending number. -/
def State.policyPage (s : State) : List Byte :=
  (orderBy (fun (p : Nat × Nat × Nat × Nat × Bool) => p.1) s.hly.params).flatMap fun p =>
    leBytes 2 p.1 ++ leBytes 2 (b2n p.2.2.2.2 + 2 * b2n (decide (p.1 < 0x100))) ++ leBytes 4 p.2.1 ++ leBytes 4 p.2.2.1 ++
      leBytes 4 p.2.2.2.1

/-- R506: GET_INFO page 0x05. -/
def execGetInfoPolicy (tag : Tag) (s : State) : Out :=
  .next (s.info tag 5 fun c => s.infoPage c s.policyPage (16 * s.hly.params.length))

/-- R474: the record of a port. -/
def State.parkRecord (s : State) (p : Nat) : List Byte :=
  let d := tget (0, 0, 0) s.que.dropped p
  leBytes 2 (tget [] s.que.parked p).length ++ leBytes 2 d.1 ++
    leBytes 4 (b2n (tget none s.que.att p).isSome + 2 * b2n (s.dark p)) ++ leBytes 2 d.2.1 ++ leBytes 2 d.2.2 ++ fill 4 0
/-- R474: the page of parked and dropped records; reading it clears the drop counts. -/
def State.parkPage (s : State) (c : Cmd) : State :=
  (s.infoPage c ((List.range 4).flatMap s.parkRecord) 64).onQue fun q => { q with dropped := [] }

/-- R474: GET_INFO page 0x06. -/
def execGetInfoParked (tag : Tag) (s : State) : Out := .next (s.info tag 6 s.parkPage)

end Sys2Proof.Machine
end

