-- ==== Sys2Proof/Machine/Bringup.lean ====
section
/-!
DEFINITION. Discovery and the die inventory (R456 to R466), the bring-up scan (R522), retirement of a LUN (R468), and
the return of a client port (R472).
-/
namespace Sys2Proof.Machine

/-! Enumeration (R456 to R461). -/

/-- R465: nothing on the channel stands in the way of its enumeration: no segment, no array phase and no suspended
operation. A LUN whose reset has run out of its watchdog is waited for no more (R190). -/
def State.discReady (s : State) (n : Nat) : Bool :=
  s.holds .discover [resCh n] && !(s.chan n).disc && !(s.chan n).reset && s.is Reg.MCS_CTL_VALID &&
    s.is (Reg.CH_STAT_PWRGD n) && s.busIdle n && !s.seqStopped n && !s.startStopped &&
    !(s.top.ops.any fun o => lunCh o.lun == n && (o.st == .array && o.resetting != 2 || o.st == .suspended))
/-- R457: the segments that enumerate one target under profile 0: its status until it is ready, its ID bytes and signatures,
and its parameter page. The status of its LUNs follows the page. -/
def enumJobs (t : Nat) : List ChJob :=
  [{ routine := 0, kind := 1, target := t, base := true }, { routine := 0x0F, target := t, base := true },
   { routine := 0x10, kind := 2, target := t, base := true }]
/-- R459: the segments that enumerate volume v of a chain and appoint it. -/
def chainJobs (v : Nat) : List ChJob :=
  { routine := 0x0D, target := v, base := true } :: enumJobs v ++ [{ featJob v 0x58 v with base := true }]
/-- R457: the segments of a PLAIN enumeration. -/
def plainJobs : List ChJob :=
  (List.range 8).map (fun t => { routine := 0x0D, target := t, base := true }) ++ (List.range 8).flatMap enumJobs
/-- R456: enumeration begins at SDR timing mode 0 (R245): FCn_WP_N is low, and FCn_ENI chooses the mode. -/
def State.discStart (s : State) (n : Nat) (eni : Bool) : State :=
  let s := s.when s.sys.discOver fun s => s.onSys fun y => { y with added := 0, missing := 0, changed := 0, discOver := false }
  let s := ((s.wr (Reg.CH_MODE_IFMODE n) 0).wr (Reg.CH_MODE_SDR_TM n) 0).onChan n fun c =>
    { c with disc := true, chain := !eni, chainBad := false, wp := false, eno := !eni, volNo := 0 }
  s.startJobs n (if eni then plainJobs else chainJobs 0) none
/-- R459: FCn_ENI is low after a volume of a chain: the next volume is enumerated. -/
def State.nextVolume (s : State) (n : Nat) : State :=
  let v := (s.chan n).volNo + 1
  (s.onChan n fun c => { c with volNo := v }).startJobs n (chainJobs v) none

/-- R456, R459: discovery of a channel starts, or its chain is sampled again after a volume; `eni` is the level sampled at
FCn_ENI. -/
def execDiscoveryStart (ch : Fin 8) (eni : Bool) (s : State) : Out :=
  let c := s.chan ch.val
  .next (if s.discReady ch.val then s.discStart ch.val eni
    else if c.disc && c.chain && c.jobs.isEmpty && !eni && decide (c.volNo < 7) then s.nextVolume ch.val
    else s)

/-- R457, R458: the record of a target that was found. -/
def targOf (f : Found) : Targ :=
  let t : Targ := { id := f.id, found := true, sig := b2n f.onfi + 2 * b2n f.jedec }
  match f.param with
  | some (g, crc, ok) => { t with geom := g, ppcrc := crc, volt := ok, luns := min 4 (g.getD 6 0) }
  | none => t
/-- R458: the targets that are present: those whose ID bytes are not all equal. -/
def discPresent (r : DiscRes) : List Found := r.found.filter fun f => f.id.any fun b => b != f.id.headD 0

/-! The inventory (R462, R463). -/

/-- R462: two records of a target have the same identity. -/
def sameTarg (a b : Targ) : Bool :=
  fit 6 a.id == fit 6 b.id && a.luns == b.luns && a.ppcrc == b.ppcrc &&
    (List.range 6).all fun k => a.geom.getD k 0 == b.geom.getD k 0
/-- R462: the new state of a LUN position and what is reported: 0 nothing, 1 ADDED, 2 CHANGED, 3 MISSING. -/
def comparePos (old : Nat) (now same : Bool) : Nat × Nat :=
  if old = 1 ∨ old = 3 then (if now then (if same then (old, 0) else (1, 2)) else (2, 3))
  else if now then (1, 1) else (old, 0)
/-- R462, R463: one LUN position compared. -/
def State.compareLun (s : State) (n t k : Nat) (old new : Targ) : State :=
  let lun := 32 * n + 4 * t + k
  let v := tget {} s.sys.luns lun
  let (p, r) := comparePos v.present (new.found && decide (k < new.luns)) (sameTarg old new)
  let s := s.onSys fun y =>
    { y with
      luns := tset {} y.luns lun { present := p, report := if r = 0 then v.report else r }
      added := y.added + b2n (r == 1)
      changed := y.changed + b2n (r == 2)
      missing := y.missing + b2n (r == 3) }
  s.when (decide (2 ≤ r)) fun s => s.err1 clsRecovered 7 4 lun r
/-- R246, R462: target t of a channel compared and bound; a target that is not found keeps its old record, unbound. -/
def State.compareTarg (s : State) (n : Nat) (r : List Found) (t : Nat) : State :=
  let i := 8 * n + t
  let old := tget {} s.sys.targs i
  let new := match r.find? fun f => f.target.val == t with
    | some f => targOf f
    | none => { old with found := false }
  let k := bindOf s.mcs.img.profs new
  let s := s.each (List.range 4) fun s k => s.compareLun n t k old new
  let s := s.when (new.found && new.geom.isEmpty) fun s => s.err1 clsRecovered 7 3 n 0 t
  (s.onSys fun y => { y with targs := tset {} y.targs i { new with prof := k } }).onChan n fun c =>
    { c with bind := tset 8 c.bind t (min 8 k) }
/-- R463: the inventory goes to Yew behind service, to the quiet bank first. -/
def State.keepInventory (s : State) : State :=
  let l := (List.range 264).map fun i => leAt s.inventory (8 * i) 8
  let q := 1 - s.yFetch
  s.keep (sectorJobs (yAddr q 289 0) l ++ sectorJobs (yAddr (1 - q) 289 0) l)
/-- R459: why a chain leaves its channel ABSENT: it is still low after volume 7, or an image cannot serve volumes. -/
def State.chainFail (s : State) (n : Nat) (r : DiscRes) : Option Nat :=
  if !(s.chan n).chain then none
  else if r.chainOpen then some clsUnrecovered
  else if (s.entry? 0 0x12).isNone || (s.entry? 0 0x11).isNone || (s.chProfs n).any (fun p => !prCap p 8) then
    some clsRecovered
  else none
/-- The LUN positions of a channel that were reported ADDED or CHANGED against an earlier state. -/
def State.newLuns (was s : State) (n : Nat) : List Nat :=
  ((List.range 32).map (32 * n + ·)).filter fun l =>
    s.lunPos l == 1 && (was.lunPos l != 1 ||
        !sameTarg (tget {} was.sys.targs (l / 4)) (tget {} s.sys.targs (l / 4)))
/-- R465: queued operations of LUNs that serve no more end with DIE_ABSENT. -/
def State.failGone (s : State) (n : Nat) : State :=
  s.each (s.top.ops.filter fun o => lunCh o.lun == n && (s.lunPos o.lun != 1 || (s.lunProf o.lun).isNone)) fun s o =>
    s.failOp o.id stAbsent 0
/-- R190: a LUN that its reset left blocked serves again: after a rediscovery or with its retirement. -/
def State.freeLun (s : State) (lun : Nat) : State :=
  if s.top.blocked.contains lun || s.top.mustPoll.contains lun || s.top.lunBusy.contains lun then
    (s.unblock lun).onTop fun t => { t with
      mustPoll := t.mustPoll.filter (· != lun), lunBusy := t.lunBusy.filter (· != lun) }
  else s
/-- R462, R463: the comparison of a channel's positions, and what follows from it. -/
def State.compareAll (s : State) (n : Nat) (r : DiscRes) : State :=
  let was := s
  let s := s.when s.sys.invBad fun s => (s.err1 clsRecovered 7 4 (32 * n) 0).onSys fun y => { y with invBad := false }
  let s := s.each (List.range 8) fun s t => s.compareTarg n (discPresent r) t
  let new := was.newLuns s n
  let s := s.onTop fun t => { t with retired := t.retired.filter fun l => lunCh l != n || s.lunPos l == 3 }
  let s := s.each ((List.range 32).map (32 * n + ·)) fun s l => s.freeLun l
  let s := (s.numberGroups new).failGone n
  let s := match s.chainFail n r with
    | some c => (s.err1 c 7 3 n 0 7).onChan n fun c => { c with chainBad := true }
    | none => s
  (s.keepInventory).climb n new.isEmpty []
/-- R462, R465: enumeration ends. -/
def State.discEnd (s : State) (n : Nat) (r : DiscRes) : State :=
  let was := s.sys
  let s := (s.onChan n fun c => { c with disc := false, eno := c.chain }).compareAll n r
  let s := (s.dropLease .discover [resCh n]).onSys fun y =>
    { y with undisc := y.undisc.filter (· != n), discTime := s.now }
  let lastOne := !(s.top.waiting ++ s.top.leases).any fun l => l.act == .discover
  let s := s.onSys fun y => { y with discOver := lastOne }
  let s := s.discTold n (s.sys.added - was.added) (s.sys.missing - was.missing) (s.sys.changed - was.changed)
  s.wokeCheck.busFree n none

/-- R457, R464: a target's record with the six ID bytes and seven geometry fields of the inventory; what the operand lacks
of them is free (log entry 5). -/
def State.fitFound (s : State) (f : Found) : Found :=
  { f with
    id := s.shape 6 f.id
    param := f.param.map fun p => ((List.range 7).map fun i => p.1.getD i (Config.freeNat s.drawn), p.2) }
/-- R462: the enumeration of a channel ends with what it found, once its segments have ended. -/
def execDiscoveryEnd (ch : Fin 8) (r : DiscRes) (s : State) : Out :=
  let short := r.found.any fun f => decide (f.id.length < 6) || (f.param.any fun p => decide (p.1.length < 7))
  .next (if (s.chan ch.val).disc && (s.chan ch.val).jobs.isEmpty then
    (s.when short fun s => { s with drawn := s.drawn + 1 }).discEnd ch.val { r with found := r.found.map s.fitFound }
  else s)

/-! The bring-up scan (R522, R523). -/

/-- R522: the scan ends with the groups it found torn. -/
def State.scanEnd (s : State) (r : TornRes) : State :=
  let s := s.addTorn r.list
  let s := s.onErr fun e => { e with tornTime := s.now }
  let s := s.each (r.list.filter fun t => t.failed != 0) fun s t => s.err1 clsUnrecovered 0xF 3 t.pfa 0 t.failed
  s.setb Reg.ERR_TORN_READY

/-- R520, R522: the scan of the open block sets ends; where the journal asks for none, it finds none. -/
def execTornScanDone (r : TornRes) (s : State) : Out :=
  .next (if s.is Reg.ERR_TORN_READY || s.sys.noClk then s else s.scanEnd (if s.sys.scan then r else { list := [] }))

/-! Retirement (R468). -/

/-- R468: a retirement takes effect: the queue fails, and the inventory says so. -/
def State.retireNow (s : State) (lun : Nat) : State :=
  let s := s.onTop fun t => { t with retireReq := t.retireReq.filter (· != lun), retired := t.retired ++ [lun] }
  let s := s.onSys fun y => { y with luns := tset {} y.luns lun { tget {} y.luns lun with present := 3 } }
  let s := s.each (s.top.ops.filter fun o => o.lun == lun) fun s o => s.failOp o.id stAbsent 0
  (((s.freeLun lun).err1 clsRecovered 5 3 lun).keepInventory).settle

/-- R468: the LUN has no array phase and no held lease. -/
def execLunRetirementEffect (lun : Fin 256) (s : State) : Out :=
  .next (if s.top.retireReq.contains lun.val && !s.leased (resLun lun.val) &&
      !(s.top.ops.any fun o => o.lun == lun.val && (o.st == .array && o.resetting != 2 || o.st == .suspended)) &&
      !(s.top.run.any fun r => match r.2 with | some g => g.lun == lun.val | none => false) then s.retireNow lun.val
    else s)

/-! A port comes back (R472). -/

/-- R472: the port is reported UP: its parked records are written in park order, and its deliveries go on. -/
def State.portUp (s : State) (port : Nat) : State :=
  let s := s.onQue fun q => { q with dark := q.dark.filter (· != port) }
  if (tget none s.que.att port).isNone then s
  else
    let l := tget [] s.que.parked port
    let s := s.onQue fun q => { q with parked := tset [] q.parked port [] }
    ((s.each l fun s r => s.writeCq r).detachStep).settle.entryGo

/-- R470, R472: a port is reported UP. -/
def execPortLinkUp (port : Fin 4) (s : State) : Out :=
  .next (if s.dark port.val then s.portUp port.val else s)

end Sys2Proof.Machine
end

