-- ==== Sys2Proof/Machine/HollyRows.lean ====
section
/-!
DEFINITION. Policy firmware as the complex sees it: its watchdog (R507), the steps of its activation (R508 to R510), and
the ends of the keeping store's operations (R486), with what the keeper does next.
-/
namespace Sys2Proof.Machine

/-! The watchdog (R507). -/

/-- What an activity of a packet that has already completed still carries is told nobody: its tag is taken off it. -/
def State.untag (s : State) (t : Nat) : State :=
  let off := fun (o : Option Nat) => if o = some t then none else o
  let s := s.onTop fun p =>
    { p with
      waiting := p.waiting.filter fun l => l.tag != some t
      leases := p.leases.map fun l => { l with tag := off l.tag } }
  let s := s.onJnp fun j => { j with calib := j.calib.map fun e => (e.1, e.2.map fun c => { c with tag := off c.tag }) }
  let s := s.onHdg fun h =>
    { h with
      scrub := h.scrub.map fun x => if x.2 = t then (x.1, 4096) else x
      selftest := h.selftest.map fun x => if x.2 = t then (x.1, 4096) else x }
  s.onYew fun y =>
    { y with
      jobs := y.jobs.map fun j => if j.note = 4096 + t then { j with note := 0 } else j
      ops := y.ops.map fun e => (e.1, e.2.map fun o => if o.note = 4096 + t then { o with note := 0 } else o) }
/-- R507: the ACTIVATE that runs ends with the packets in flight; the load pass of an Espalier activation goes on. -/
def State.actDrop (s : State) : State :=
  match s.hly.actv with
  | some a => if a.mcs && decide (3 ≤ a.stage) then s else (s.onHly fun h => { h with actv := none }).kickAll
  | none => s
/-- R507: every slow-path packet that has left the inbox and not completed completes with INTERNAL, cause 0x07. -/
def State.failInflight (s : State) : State :=
  let l := s.hly.inflight
  (s.each l fun s t => (s.finishSlow t stInternal 7).untag t).actDrop
/-- R507: the watchdog expires: Holly restarts from the active slot, or is halted at a second expiry within 1,000,000
ticks. -/
def State.wdogFire (s : State) : State :=
  let again := match s.hly.lastExpiry with | some t => decide (s.now < t + 1000000) | none => false
  let s := ((s.setb Reg.HLY_STAT_WDOG_FIRED).failInflight).onHly fun h => { h with lastExpiry := some s.now }
  if again then (s.err1 clsFatal 0xD 2).hollyHalt else (s.err1 clsUnrecovered 0xD 2).hollyGo s.actHolly

/-- R507: the watchdog expires. -/
def execHlyWdogExpiry (s : State) : Out :=
  .next (if s.hly.running && s.rd Reg.HLY_WDOG_TIME != 0 then s.wdogFire else s)

/-- R507: a write of PL_HLY_WDOG: the limit, and KICK from Holly. -/
def State.hlyWdog (s : State) (holly : Bool) (v : Nat) : State :=
  (s.wr Reg.HLY_WDOG_TIME (bits v 0 16)).when (holly && bit v 31) fun s => s.onHly fun h => { h with lastKick := s.now }

/-- R507: a Holly write of KICK. -/
def execHlyWdogKick (s : State) : Out :=
  .next (s.access .holly 0xC034 (some (s.rd Reg.HLY_WDOG_TIME + 2 ^ 31)) fun s =>
    s.hlyWdog true (s.rd Reg.HLY_WDOG_TIME + 2 ^ 31))

/-! The control register of Holly (R507, R508, R511, R512). -/

/-- R507: a write of 1 to RESTART: a halted Holly restarts; where no slot had passed, both are tried again. -/
def State.hollyRestart (s : State) : State :=
  if !s.hly.halted then s
  else if s.is Reg.HLY_STAT_NO_IMAGE then s.hollyStart else s.hollyGo s.actHolly
/-- R508, step 4: the old image has set QUIESCED: Holly stops, and the keeper writes the activation record. -/
def State.hollySwitch (s : State) : State :=
  match s.hly.actv with
  | some a =>
    if a.mcs || a.stage != 1 then s
    else
      (((s.wr Reg.HLY_CTL_QUIESCED 0).wr Reg.HLY_CTL_READY 0).onHly fun h =>
        { h with running := false, actv := some { a with stage := 2 } }).keepAct a.bank s.actMcs 6
  | none => s
/-- R508, step 5: the image has set READY: the activation completes, or the way back does. -/
def State.hollyReady (s : State) : State :=
  match s.hly.actv with
  | some a =>
    if a.mcs then s
    else if a.stage = 2 then ((s.hollyShow a.bank).hollyParams a.bank false).actEnd stOK 0
    else if a.stage = 4 then (s.wr Reg.HLY_STAT_REASON 0x0A).actEnd stActRejected 0x0A
    else s
  | none => s
/-- R511: a Holly write of QUIESCED and READY. -/
def State.hollyCtl (s : State) (v : Nat) : State :=
  let q := s.is Reg.HLY_CTL_QUIESCED
  let r := s.is Reg.HLY_CTL_READY
  let s := (s.wr Reg.HLY_CTL_QUIESCED (bits v 0 1)).wr Reg.HLY_CTL_READY (bits v 1 1)
  let s := s.when (bit v 1 && !r) (·.hollyReady)
  s.when (bit v 0 && !q) (·.hollySwitch)

/-- R507: a write of 1 to PL_HLY_CTL.RESTART. -/
def execHlyRestart (m : Master) (s : State) : Out :=
  .next (s.access m 0xC000 (some (s.rd Reg.HLY_CTL_QUIESCED + 2 * s.rd Reg.HLY_CTL_READY + 8)) fun s => s.hollyRestart)

/-- R508: the old image sets QUIESCED. -/
def execHlyQuiesced (s : State) : Out :=
  .next (if s.hly.running then
      s.access .holly 0xC000 (some (1 + 2 * s.rd Reg.HLY_CTL_READY)) fun s => s.hollyCtl (1 + 2 * s.rd Reg.HLY_CTL_READY)
    else s)

/-- R508: the image sets READY. -/
def execHlyReady (s : State) : Out :=
  .next (if s.hly.running then
      s.access .holly 0xC000 (some (s.rd Reg.HLY_CTL_QUIESCED + 2)) fun s => s.hollyCtl (s.rd Reg.HLY_CTL_QUIESCED + 2)
    else s)

/-- R508: READY is late: the keeper writes the activation record back, and Holly goes back to the old slot. -/
def State.hollyBack (s : State) (a : Actv) : State :=
  let s := s.onHly fun h => { h with running := false, actv := some { a with stage := 4, reason := 0x0A } }
  (s.keepAct (1 - a.bank) s.actMcs 7).err1 clsRecovered 0xD 1 (objSlot a.bank false) 0x0A

/-- R508: READY was not set within ACT_LIMIT.START. -/
def execActivateStartTimeout (s : State) : Out :=
  .next (match s.hly.actv with
    | some a => if !a.mcs && a.stage == 2 then s.hollyBack a else s
    | none => s)

/-! The ends of Yew operations (R486, R489). -/

/-- R508: the activation record of a switch, or of the way back, is written: Holly starts in its bank. -/
def State.actWritten (s : State) (stage : Nat) : State :=
  match s.hly.actv with
  | some a => if a.mcs || a.stage != stage then s else s.hollyGo (if stage = 2 then a.bank else 1 - a.bank)
  | none => s
/-- R162, R314, R494: what follows a word of the keeper that is programmed. -/
def State.yNote (s : State) (o : YOp) : State :=
  if o.note = 1 then
    let b := (pfaLun (bits o.data 8 40), pfaBlock (bits o.data 8 40))
    s.onTop fun t => { t with
      opened := if t.opened.contains b then t.opened else t.opened ++ [b]
      fresh := if t.fresh.contains b then t.fresh else t.fresh ++ [b] }
  else if o.note = 2 then (s.each (s.atPhase 6) fun s c => s.onCmd c.tag fun c => { c with phase := 5 }).settle
  else if o.note = 3 then s.dormantReady
  else if o.note = 5 then s.wr Reg.JNP_STAT_CKPT_BUSY 0
  else if o.note = 6 then s.actWritten 2
  else if o.note = 7 then s.actWritten 4
  else if 4096 ≤ o.note then s.persisted (o.note - 4096)
  else s
/-- The word of the keeper could not be programmed: a journal record is appended again, a checkpoint is flagged, and what
waited for any other word goes on. -/
def State.yNoteFail (s : State) (o : YOp) : State :=
  let t := ySector o.addr
  let s := s.when (decide (420 ≤ t) && decide (t ≤ 675)) (·.setb Reg.JNP_STAT_CKPT_ERR)
  if t < 356 ∨ 419 < t ∨ o.note = 0 ∨ 3 < o.note then s.yNote o
  else if o.note = 2 then
    let (a, b) := s.map.ckpt.getD (0, 0)
    s.jPut (s.jLong 5 [a, b]) 2
  else s.jPut [o.data] o.note
/-- R486: a pulse of a bank ends. -/
def State.yPulseEnd (s : State) (b : Nat) (ok erase : Bool) : State :=
  match s.yOp? b with
  | none => s
  | some o =>
    if o.susp || o.erase != erase then s
    else
      let (done, s) := s.yPulse b o ok
      if (s.yOp? b).isSome then s
      else
        let s := s.when (o.master == 3 && o.note != 0) fun s => if done then s.yNote o else s.yNoteFail o
        s.keeperGo

/-- R486: a program pulse is verified. -/
def execYewProgramPulseDone (bank : Fin 2) (verified : Bool) (s : State) : Out :=
  .next (s.yPulseEnd bank.val verified false)

/-- R486: an erase pulse is blank-checked. -/
def execYewErasePulseDone (bank : Fin 2) (blank : Bool) (s : State) : Out := .next (s.yPulseEnd bank.val blank true)

end Sys2Proof.Machine
end

