-- ==== Sys2Proof/Machine/Completion.lean ====
section
/-!
DEFINITION. The way of a completion record through the staging FIFO (R103, R129, R436, R471), and a mismatch of a FIFO's
pointers (R107 to R109).
-/
namespace Sys2Proof.Machine

/-! The staging FIFO. -/

/-- R103, R436: the oldest waiting request is granted: the commit point of its command. A POWER entry that is quiescent no
more takes its request back. -/
def State.grantRec (s : State) (r : Rec) : State :=
  let entry := match s.pwr.entry with
    | some (t, _) => r.live && t == r.tag && (s.cmd t).stage == Stage.requested
    | none => false
  if entry && !s.quiescent r.tag then s.unrequest r.tag
  else
    let was := s.que.csf.length
    let s := s.onQue fun q => { q with reqs := q.reqs.tail, csf := q.csf ++ [{ r with tstamp := s.now }] }
    let s := s.levelEvent Reg.GLB_CSF_LEVEL_LEVEL Reg.GLB_CSF_LEVEL_HIT 256 was (was + 1)
    if r.live then (s.onCmd r.tag fun c => { c with stage := .granted, past := true }).dmaGranted r.tag r.status else s

/-- R103: the staging FIFO grants a waiting request while it has room. -/
def execCompletionRequestGrant (s : State) : Out :=
  .next (match s.que.reqs with
    | r :: _ => if s.que.csf.length < 256 then s.grantRec r else s
    | [] => s)

/-- R98, R471, R473: a record leaves the staging FIFO: into its CQ, or, where its port is dark, into the park store. -/
def State.writeRec (s : State) (r : Rec) : State :=
  let s := s.onQue fun q => { q with csf := q.csf.tail }
  let s := if s.dark (r.sqid / 16) then s.park (r.sqid / 16) r else s.writeCq r
  s.detachStep.entryGo

/-- R103: the record at the head of the staging FIFO is written. -/
def execCompletionRecordWrite (s : State) : Out :=
  .next (match s.que.csf with
    | r :: _ => s.writeRec r
    | [] => s)

/-! A mismatch of pointers (R107 to R109). -/

/-- R109: a reading command that lost an operation completes with INTERNAL: what it still held is given back. A COPY
completes once what it has placed is programmed. -/
def State.loseRead (s : State) (tag det : Nat) : State :=
  match s.cmd? tag with
  | none => s
  | some c =>
    if c.stage != .running then s
    else if c.pkt.opcode = opCopy then
      match c.frames.find? fun f => f.pos == c.phase with
      | none => s
      | some f =>
        (((s.releaseFrame c f).onFrame tag f.pos fun x => { x with out := stInternal, detail := det }).copyStop c
          f.pos).copyEnd tag
    else (s.endReads tag).finish tag stInternal det
/-- R109: an operation is lost: its commands complete with INTERNAL, accepted frames are programmed elsewhere (R36), and
what the map walker and the XOR engines read is queued again. One in its array phase ends before the LUN is reused. -/
def State.loseOp (s : State) (o : Op) (det : Nat) (keep : Bool) : State :=
  let tags := (s.opFlights o).filterMap Flight.tag
  let own := (s.opFlights o).filter fun f => f.tag.isNone && !f.dropped
  let o := { o with fl := o.fl.filter fun i => !own.any fun f => f.id == i }
  let s := s.onOp o.id fun x => { x with fl := o.fl }
  let s := if keep || o.st == .array || o.st == .suspended then
      (s.failFrames o stInternal det).onOp o.id fun x => { x with parts := [], fl := [] }
    else s.failOp o.id stInternal det
  let s := s.each own fun s f => s.queueRead f false
  s.each tags fun s t => s.loseRead t det
/-- The commands that an operation serves. -/
def State.opTags (s : State) (o : Op) : List Nat :=
  (s.opFlights o).filterMap Flight.tag ++ (if o.kind == .prog then s.progTags o else o.tag.toList)
/-- R107: the record of a FIFO's reset. -/
def State.fifoRecord (s : State) (kind inst : Nat) (lost : Bool) : State :=
  s.err1 (if lost then clsUnrecovered else clsContained) 0xF 4 (objFifo kind inst)

/-- R109: the queue of a LUN is reset. -/
def State.lunqReset (s : State) (lun : Nat) : State :=
  let l := s.lunEntries lun
  let lost := l.any fun o => !(s.opTags o).isEmpty
  let s := s.each l fun s o => s.loseOp o (detailFifo 1 lun false) false
  ((s.fifoRecord 1 lun lost).settle).kick (lunCh lun)
/-- R109: the event FIFO of a channel is reset: what is in flight on the channel is lost, and the status of every LUN is
read before the channel issues again. -/
def State.eventReset (s : State) (n : Nat) : State :=
  let s := (s.onChan n fun c => { c with events := c.evHeld.take 64, evHeld := c.evHeld.drop 64 }).evLevelHit n 0
  let l := s.top.ops.filter fun o => lunCh o.lun == n && (o.st == .bus || o.st == .array || o.st == .suspended) &&
    !(s.opTags o).isEmpty
  let s := s.each l fun s o => s.loseOp o (detailFifo 2 n false) (s.onBus o)
  let s := s.onTop fun t =>
    { t with
      mustPoll := t.mustPoll ++ ((List.range 32).map (32 * n + ·)).filter fun l =>
        s.lunServes l && !t.mustPoll.contains l }
  ((s.fifoRecord 2 n (!l.isEmpty)).settle).kick n
/-- R109: a record that was in the staging FIFO is rebuilt from the tag table, with FRAMES, RETRY and ENERGY 0. -/
def rebuilt (r : Rec) : Rec :=
  { r with status := stInternal, detail := detailFifo 3 0 true, frames := 0, retry := 0, energy := 0 }
/-- R109: the staging FIFO is reset. -/
def State.csfReset (s : State) : State :=
  let l := s.que.csf
  (s.onQue fun q => { q with csf := [], reqs := q.reqs ++ l.map rebuilt }).fifoRecord 3 0 (!l.isEmpty)
/-- R109, R408: the descriptor queue of a DMA channel is reset: the active and the shadow transfer run on. -/
def State.dmaqReset (s : State) (n : Nat) : State :=
  let l := (s.dmaCh n).queue
  let s := s.onDmaCh n fun d => { d with queue := [] }
  let s := s.each l fun s x => s.finish x.tag stInternal (detailFifo 4 n false)
  (s.fifoRecord 4 n (!l.isEmpty)).dmaRetry n
/-- R109: the Holly inbox is reset. -/
def State.inboxReset (s : State) : State :=
  let l := s.que.inbox
  let s := s.each l fun s t => s.finish t stInternal (detailFifo 5 0 false)
  (s.onQue fun q => { q with inbox := [] }).fifoRecord 5 0 (!l.isEmpty)
/-- R107: the FIFO of a kind and number is reset; a number that the complex does not have names no FIFO. -/
def State.fifoReset (s : State) (kind : FifoKind) (n : Nat) : State :=
  match kind with
  | .lunq => if n < 256 then s.lunqReset n else s
  | .event => if n < 8 then s.eventReset n else s
  | .csf => if n = 0 then s.csfReset else s
  | .dmaq => if n < 16 then s.dmaqReset n else s
  | .inbox => if n = 0 then s.inboxReset else s

/-- R107: the two copies of a pointer differ. -/
def execFifoPointerMismatch (kind : FifoKind) (inst : Nat) (s : State) : Out :=
  .next (if s.pwr.st == .active && !s.sys.noClk then s.fifoReset kind inst else s)

end Sys2Proof.Machine
end

