-- ==== Sys2Proof/Machine/ErrRows.lean ====
section
/-!
DEFINITION. The error log as it takes and gives up records (R529, R531), the timestamp counter (R556, R570), the DBG block
(R573 to R576), and the client ports at the central store (R283, R351, R360).
-/
namespace Sys2Proof.Machine

/-! The ring (R529). -/

/-- The place of entry i of the ring that is not consumed yet. -/
def State.errAt (s : State) (i : Nat) : Nat := (s.rd Reg.ERR_PTR_HEAD + i) % 64
/-- R529: the place that a record overwrites in a full ring: the oldest CORRECTED record, or the oldest. The oldest is the
one of the lowest SEQ. -/
def State.errVictim (s : State) : Nat :=
  let at? := fun (i : Nat) => tget none s.err.ring (s.errAt i)
  let key := fun (i : Nat) => match at? i with | some r => r.seq | none => 0
  let l := List.range 64
  let c := l.filter fun i => match at? i with | some r => r.cls == clsCorrected | none => false
  s.errAt ((least key (if c.isEmpty then l else c)).getD 0)
/-- A record written into a place of the ring: it takes the next sequence number. -/
def State.errPut (s : State) (k : Nat) (r : ErrRec) : State :=
  let n := s.rd Reg.ERR_SEQ_NEXT
  (s.wr Reg.ERR_SEQ_NEXT (n + 1)).onErr fun e => { e with ring := tset none e.ring k (some { r with seq := n }) }
/-- R529, R531: the log takes a record. -/
def State.errTake (s : State) (r : ErrRec) : State :=
  let s := s.wrBit Reg.ERR_STAT_CLASS r.cls true
  if r.cls = clsCorrected ∧ s.is Reg.ERR_CTL_CORR_EN = false then s
  else
    let fill := s.rd Reg.ERR_STAT_FILL
    if fill < 64 then
      let t := s.rd Reg.ERR_PTR_TAIL
      ((s.errPut t r).wr Reg.ERR_PTR_TAIL (t + 1)).wr Reg.ERR_STAT_FILL (fill + 1)
    else if r.cls = clsCorrected then s.errLost
    else (s.errPut s.errVictim r).errLost
/-- The buffered record that the log takes next: the one raised first, and of equals the one of the lowest SOURCE. -/
def State.errNext (s : State) : Option ErrRec := least (fun (r : ErrRec) => r.tstamp * 256 + r.src) s.err.buf

/-- R529: the log accepts one record. -/
def execErrorRecordAccept (s : State) : Out :=
  .next (if s.pwr.st == .off then s
    else match s.errNext with
      | some r => (s.onErr fun e => { e with buf := e.buf.erase r }).errTake r
      | none => s)

/-- R531: a write of PL_ERR_CTL. -/
def State.errCtl (s : State) (v : Nat) : State :=
  let s := s.wr Reg.ERR_CTL_CORR_EN (bits v 1 1)
  if bit v 0 then (s.wr Reg.ERR_PTR_HEAD (s.rd Reg.ERR_PTR_TAIL)).wr Reg.ERR_STAT_FILL 0 else s

/-- R531: a write of 1 to CLEAR. -/
def execErrClear (m : Master) (v : W32) (s : State) : Out :=
  .next (s.access m 0xD000 (some v.toNat) fun s => s.errCtl v.toNat)

/-- R531: a write of PL_ERR_PTR: HEAD moves over consumed records; a write that would pass TAIL is ignored. -/
def State.errHead (s : State) (v : Nat) : State :=
  let n := (bits v 0 6 + 64 - s.rd Reg.ERR_PTR_HEAD) % 64
  if n ≤ s.rd Reg.ERR_STAT_FILL then
    (s.wr Reg.ERR_STAT_FILL (s.rd Reg.ERR_STAT_FILL - n)).wr Reg.ERR_PTR_HEAD (bits v 0 6)
  else s

/-- R531: a write of HEAD. -/
def execErrHeadWrite (m : Master) (v : W32) (s : State) : Out :=
  .next (s.access m 0xD008 (some v.toNat) fun s => s.errHead v.toNat)

/-! The timestamp counter (R570). -/

/-- R570: a read of TIME_LO latches the upper half. -/
def State.timeLo (s : State) : State :=
  { s.wr Reg.GLB_TIME_HI_COUNT (s.now / 2 ^ 32) with resp := .value (s.now % 2 ^ 32) }

/-- R570: a read of PL_GLB_TIME_LO. -/
def execGlbTimeLoRead (m : Master) (s : State) : Out := .next (s.access m 0x0010 none fun s => s.timeLo)

/-! The DBG block (R573 to R576). -/

/-- R573: a write of the DBG block that LOCKED ignores is noted. -/
def State.dbgOpen (s : State) (f : State → State) : State :=
  if s.is Reg.DBG_LOCK_LOCKED then s.setb Reg.DBG_LOCK_REFUSED else f s
/-- R567, R573, R574: a write of PL_DBG_LOCK: REFUSED is cleared by a 1; the first write fixes LOCKED, and one that sets it
disarms the block. -/
def State.dbgLockWrite (s : State) (v : Nat) : State :=
  let s := s.when (bit v 1) (·.wr Reg.DBG_LOCK_REFUSED 0)
  if s.locks.contains 0x30000 then s
  else
    let s := ({ s with locks := orderBy (fun x => x) (0x30000 :: s.locks) } : State).wr Reg.DBG_LOCK_LOCKED (bits v 0 1)
    if bit v 0 then (s.wr Reg.DBG_INJ_CTL_ARM 0).wr Reg.DBG_FORCE_COUNT 0 else s
/-- R573: a write of PL_DBG_INJ_ADDR; one while an injection is armed is ignored. -/
def State.dbgInjAddr (s : State) (v : Nat) : State :=
  s.dbgOpen fun s => if s.is Reg.DBG_INJ_CTL_ARM then s else s.wr Reg.DBG_INJ_ADDR_WORD (bits v 3 22)
/-- R573, R575: a write of PL_DBG_INJ_CTL. -/
def State.dbgInjCtl (s : State) (v : Nat) : State :=
  s.dbgOpen fun s =>
    ((s.wr Reg.DBG_INJ_CTL_NBITS (bits v 0 2)).when (bit v 30) (·.wr Reg.DBG_INJ_CTL_DONE 0)).wr Reg.DBG_INJ_CTL_ARM
      (bits v 31 1)
/-- R573, R576: a write of PL_DBG_FORCE. -/
def State.dbgForce (s : State) (v : Nat) : State :=
  s.dbgOpen fun s => ((s.wr Reg.DBG_FORCE_COUNT (bits v 0 8)).wr Reg.DBG_FORCE_CHANNEL (bits v 8 3)).wr Reg.DBG_FORCE_SOFT
    (bits v 11 1)

/-- R574: a write of PL_DBG_LOCK. -/
def execDbgLock (m : Master) (v : W32) (s : State) : Out :=
  .next (s.access m 0x30000 (some v.toNat) fun s => s.dbgLockWrite v.toNat)

/-- R575: a write of PL_DBG_INJ_CTL. -/
def execDbgInjArm (m : Master) (v : W32) (s : State) : Out :=
  .next (s.access m 0x30008 (some v.toNat) fun s => s.dbgInjCtl v.toNat)

/-- R576: a write of PL_DBG_FORCE. -/
def execDbgForceWrite (m : Master) (v : W32) (s : State) : Out :=
  .next (s.access m 0x3000C (some v.toNat) fun s => s.dbgForce v.toNat)

/-! The client ports at the store. -/

/-- A client port's access to the central store: the store serves it while CCLK runs. -/
def State.portAccess (s : State) (f : State → State) : State :=
  match s.pwr.st with
  | .off => { s with resp := .none }
  | .active => f { s with resp := .none }
  | _ => { s with resp := .error }

/-- R283: the part of a write that lies in one 4 KiB unit: a whole pool buffer gives its DCRC, any other write of one makes
it invalid. -/
def State.portPiece (s : State) (a : Nat) (d : List Byte) : State :=
  let i := a / 4096
  let s := s.hWrite a d
  if s.inPool i then
    if d.length = 4096 then s.onBuf i fun b => { b with slot := { b.slot with dcrc := crc32c d }, dcrcV := true }
    else s.onBuf i fun b => { b with dcrcV := false }
  else s

/-- The first byte of each 4 KiB unit that an access of n bytes at a touches, and how many of its bytes lie there. -/
def unitParts (a n : Nat) : List (Nat × Nat) :=
  (List.range ((a % 4096 + n + 4095) / 4096)).map fun k =>
    let p := max a ((a / 4096 + k) * 4096)
    (p, min (a + n) ((a / 4096 + k + 1) * 4096) - p)

/-- R283, R348, R360: a client port writes bytes. A refused access writes nothing and its one record; an access that runs
over the end of the store gets an error response and nothing else (log entry 5). -/
def State.portWrite (s : State) (a : Nat) (d : List Byte) : State :=
  let n := d.length
  if hdgSize < a + n then { s with resp := .error }
  else match [a, a + n - 1].find? fun x => s.hRefused x with
    | some x => { s.hWrite x d with resp := .error }
    | none => s.each (unitParts a n) fun s p => s.portPiece p.1 ((d.drop (p.1 - a)).take p.2)

/-- R283: a client port writes into a pool buffer. -/
def execPortBufferWrite (_port : Fin 4) (addr : Nat) (data : List Byte) (s : State) : Out :=
  .next (s.portAccess fun s => s.portWrite addr data)

/-- R351, R360: a client port reads bytes of the store: an uncorrectable word or a refused access gives an error
response, and so does one that runs over the end of the store (log entry 5). -/
def State.portRead (s : State) (a n : Nat) : State :=
  if hdgSize < a + n then { s with resp := .error }
  else
    let (r, s) := s.hRead (([a, a + n - 1].find? fun x => s.hRefused x).getD a) n
    match r.unc with
    | some w => { s.err1 clsContained 3 2 (w / 8 * 8) with resp := .error }
    | none => if r.refused then { s with resp := .error } else { s with resp := .bytes r.data }

/-- R351: a client port reads the central store. -/
def execPortStoreRead (_port : Fin 4) (addr len : Nat) (s : State) : Out :=
  .next (s.portAccess fun s => s.portRead addr len)

end Sys2Proof.Machine
end

