-- ==== Sys2Proof/Machine/Grant.lean ====
section
/-!
DEFINITION. A lease is taken, and its activity starts (R193 to R197).
-/
namespace Sys2Proof.Machine

/-- R196: a MAINT whose channel has dropped below the level that its activity needs ends before it begins. -/
def State.grantLow (s : State) (l : Lease) (n : Nat) : State :=
  let s := s.dropLease l.act l.res
  match l.tag with
  | some t => s.finishSlow t stDeferred (detailDeferred 4 1 n)
  | none => s
/-- R277: a loopback test starts. -/
def State.loopBegin (s : State) (l : Lease) (n : Nat) : State :=
  if s.level n = 0 then s.grantLow l n
  else (s.onChan n fun c => { c with selftest := true }).startJobs n
    [{ routine := 0x1B, kind := 2, target := (s.boundTargets n).headD 0 }] none
/-- R328, R331: the group that a CALIB measures: that of its packet, or the first of the LUN in Juniper's queue. -/
def State.calibGroup (s : State) (l : Lease) (lun : Nat) : Option Nat :=
  match l.tag with
  | some t => some (s.groupOf (pfaLun (s.cmd t).pkt.addr) (pfaBlock (s.cmd t).pkt.addr))
  | none => s.jnp.calq.find? fun g => match s.groupPlace g with | some (x, _) => x == lun | none => false
/-- The class of the sampled reads of a MAINT where no write point names one: its CCLASS, or a free value (log entry 62). -/
def State.maintClass (s : State) (tag : Option Nat) : Nat :=
  match tag with
  | some t => if (s.cmd t).pkt.cclass = 0 then 1 + Config.freeNat s.drawn % 3 else (s.cmd t).pkt.cclass
  | none => 1 + Config.freeNat s.drawn % 3
/-- The energy class of the reads of a MAINT. -/
def State.maintEclass (s : State) (tag : Option Nat) : Nat := match tag with | some t => (s.cmd t).pkt.eclass | none => 0
/-- R328: a CALIB starts. -/
def State.calibBegin (s : State) (l : Lease) (n lun : Nat) : State :=
  if s.level n < 2 then s.grantLow l n
  else match s.calibGroup l lun with
    | none => s.dropLease l.act l.res
    | some g =>
      (s.onJnp fun j =>
        { j with
          calib := tset none j.calib n (some { group := g, tag := l.tag, cclass := s.maintClass l.tag
                                               eclass := s.maintEclass l.tag })
          calq := if l.tag.isNone then j.calq.filter (· != g) else j.calq }).draw.2
/-- R337: the group that a PATROL reads: that of its packet, or the first of the LUN that policy firmware asks for. -/
def State.patrolGroup (s : State) (l : Lease) (lun : Nat) : Option Nat :=
  match l.tag with
  | some t => some (s.groupOf (pfaLun (s.cmd t).pkt.addr) (pfaBlock (s.cmd t).pkt.addr))
  | none => s.jnp.patrolq.find? fun g => match s.groupPlace g with | some (x, _) => x == lun | none => false
/-- R337: a PATROL starts. -/
def State.patrolBegin (s : State) (l : Lease) (lun : Nat) : State :=
  if s.level (lunCh lun) < 2 then s.grantLow l (lunCh lun)
  else match s.patrolGroup l lun with
    | none => s.dropLease l.act l.res
    | some g =>
      (s.onJnp fun j =>
        { j with
          patrol := tset none j.patrol lun (some { group := g, cclass := s.maintClass l.tag, eclass := s.maintEclass l.tag })
          patrolq := if l.tag.isNone then j.patrolq.filter (· != g) else j.patrolq }).draw.2
/-- R367: a store self-test starts, unless its region holds allocated contents by now. -/
def State.selftestBegin (s : State) (l : Lease) (k : Nat) : State :=
  if s.hAllocated k then
    let s := s.dropLease l.act l.res
    match l.tag with
    | some t => s.finishSlow t stDeferred (detailDeferred 2 3 k)
    | none => s
  else s.onHdg fun h => { h with selftest := h.selftest ++ [(k, l.tag.getD 4096)] }
/-- The number of the first resource of a kind in a lease. -/
def Lease.num (l : Lease) (kind : Nat) : Nat := match l.res.find? fun r => r.1 == kind with | some r => r.2 | none => 0
/-- The activity of a lease starts. -/
def State.actBegin (s : State) (l : Lease) : State :=
  match l.act with
  | .discover => s
  | .zqcal => s.zqBegin (l.num 1)
  | .train => s.trainBegin (l.num 1)
  | .selftestCh => s.loopBegin l (l.num 1)
  | .calib => s.calibBegin l (l.num 1) (l.num 2)
  | .rgnChange => s.rgnStart (l.num 3)
  | .selftestStore => s.selftestBegin l (l.num 3)
  | .scrub => s.onHdg fun h => { h with scrub := h.scrub ++ [(l.num 3, l.tag.getD 4096)] }
  | .reloc =>
    (match l.tag with
     | some t => s.onCmd t fun c => { c with waits := [] }
     | none => s).settle
  | .patrol => s.patrolBegin l (l.num 2)
  | .gorse => (s.onHdg fun h => { h with batch := 64 }).wr Reg.HDG_GORSE_STAT_WAITING 0
/-- R196: a waiting request of a MAINT with HOLD = 0 that another request has overtaken completes DEFERRED. -/
def State.deferPassed (s : State) (l : Lease) : State :=
  s.each (s.top.waiting.filter fun w => resClash w.res l.res) fun s w =>
    match w.tag.bind s.cmd? with
    | none => s
    | some c =>
      if c.pkt.opcode != opMaint || c.pkt.flag 2 then s
      else
        let r := ((orderBy (fun r => r.1 * 256 + r.2) w.res).find? fun r => l.res.contains r).getD (0, 0)
        ((s.onTop fun t => { t with waiting := t.waiting.filter (· != w) }).bump Reg.TOP_LEASE_DEFERRED_CNT 1).maintDefer c.tag 1 r
/-- R195: the next request takes its leases. -/
def State.grantLease (s : State) : State :=
  let s := s.wantCalibs
  match s.leaseNext with
  | some l => ((s.takeLease l).deferPassed l).actBegin l
  | none => s

/-- R193: an activity that policy firmware raises: a ZQCAL of a channel, or a PATROL of a block group. -/
def State.policyAsk (s : State) (a : PolicyAsk) : State :=
  match a with
  | .zqcal ch => if s.level ch.val = 0 then s else s.wantLease .zqcal [resCh ch.val] none
  | .patrol g => if s.jnp.patrolq.contains g then s else s.onJnp fun j => { j with patrolq := j.patrolq ++ [g] }

/-- R195: what policy firmware asks for joins the requests that wait, and a free lease goes to the waiting request of the
highest precedence. -/
def execLeaseGrant (asked : List PolicyAsk) (s : State) : Out :=
  .next (let s := s.each asked fun s a => s.policyAsk a
    if s.pwr.st == .active && !s.leaseStopped then s.grantLease.settle else s)

end Sys2Proof.Machine
end

