-- ==== Sys2Proof/Machine/Packets.lean ====
section
/-!
DEFINITION. The effects of the fast-path packets on frames, blocks, buffers and map pages: READ to FLUSH (R66 to R76),
the buffer opcodes (R77 to R79), MAP_PIN and MAP_SYNC (R81, R82). Each acts on a command that has entered and not begun.
-/
namespace Sys2Proof.Machine

/-- The command's effect begins with its frames. -/
def State.begin (s : State) (tag : Nat) (fs : List Frame) : State :=
  s.onCmd tag fun c => { c with stage := .running, frames := fs }

/-- The handles of a packet, checked (R52, R53, R384): an early end, or the handles. -/
def State.checkedHandles (s : State) (c : Cmd) : Option (Nat × Nat) × List Nat × State :=
  match s.handleList c.pkt with
  | (some a, _, s) => (some (stInternal, detailStore a), [], s)
  | (none, hs, s) =>
    match s.handlesBad c.pkt.client hs with
    | some x => (some (x.2.1, badHandle x), hs, s)
    | none => (none, hs, s)

/-! READ and READ_RAW. -/

/-- R66: a READ begins: its handles are checked, and its frames are looked up in order. -/
def State.doRead (s : State) (c : Cmd) : State :=
  let (bad, hs, s) := if c.pkt.dest = 2 then s.checkedHandles c else (none, [], s)
  match bad with
  | some (st, d) => s.finish c.tag st d
  | none =>
    let fs := (List.range c.pkt.length).map fun k => { pos := k, lfa := c.pkt.addr + k : Frame }
    let s := (s.begin c.tag fs).onCmd c.tag fun c => { c with handles := hs }
    (s.each (List.range c.pkt.length) fun s k => s.startFrame c.tag k).settle

/-- R66: a READ packet. -/
def execRead (tag : Tag) (s : State) : Out :=
  .next (match s.ready? tag.val opRead with
    | some c => s.doRead c
    | none => s)

/-- R68: a READ_RAW begins: its codewords are read at the offset that PARAM names. -/
def State.doReadRaw (s : State) (c : Cmd) : State :=
  let fs := (List.range c.pkt.length).map fun k => { pos := k : Frame }
  let s := s.begin c.tag fs
  (s.each (List.range c.pkt.length) fun s k => s.startFrame c.tag k).settle

/-- R68: a READ_RAW packet. -/
def execReadRaw (tag : Tag) (s : State) : Out :=
  .next (match s.ready? tag.val opReadRaw with
    | some c => s.doReadRaw c
    | none => s)

/-! PROGRAM and PROGRAM_ATOMIC. -/

/-- R69, R70: a PFA-addressed program takes its buffers over; its frames are not dirty. -/
def State.programPfa (s : State) (c : Cmd) (hs : List Nat) : State :=
  let at? := fun k => s.pfaNext c.pkt.cclass c.pkt.addr k
  let fs := (List.range hs.length).map fun k => { pos := k, pfa := at? k, cclass := c.pkt.cclass, st := .onDie : Frame }
  let s := s.begin c.tag fs
  s.each (List.range hs.length) fun s k =>
    let b := hdIndex (hs.getD k 0)
    (s.takeOver b c.pkt.client (c.pkt.flag 4)).placePfa c k b c.pkt.cclass (at? k) (c.pkt.flag 2)

/-- R36, R69, R124, R158: an LFA-addressed program accepts all its frames in one step. -/
def State.programLfa (s : State) (c : Cmd) (hs : List Nat) (slots : List Slot) : State :=
  let n := hs.length
  let atomic := c.pkt.opcode == opAtomic
  let g := s.que.nextGroup
  let cl := (s.lrgn c.pkt.region).cclass
  let fua := c.pkt.flag 2
  let slot := fun k => s.slotFor c.pkt.region cl slots (c.pkt.addr + k) k
  let fs := (List.range n).map fun k =>
    { pos := k, lfa := c.pkt.addr + k, pfa := (slot k).pfa, cclass := cl, st := if fua then .onDie else .done : Frame }
  let s := (s.begin c.tag fs).onCmd c.tag fun c => { c with accepted := true, past := !fua, slots := slots }
  let s := s.when atomic fun s => s.onQue fun q =>
    { q with
      groups := q.groups ++ [{ num := g, region := c.pkt.region, first := c.pkt.addr, len := n }]
      nextGroup := (g + 1) % 65536 }
  let s := (s.padUnits c.pkt.region cl slots n).each (List.range n) fun s k =>
    let b := hdIndex (hs.getD k 0)
    (s.takeOver b c.pkt.client (c.pkt.flag 4)).acceptFrame c
      { order := c.order, pos := k, region := c.pkt.region, lfa := c.pkt.addr + k, cclass := cl, pfa := 0, seq := 0
        buf := b, tag := c.tag, client := c.pkt.client, fua := fua, group := if atomic then some g else none
        cold := c.pkt.flag 3, gpos := if atomic then k else 0, glen := if atomic then n else 0 } (slot k) 0 none
  if fua then s
  else
    let s := s.each (List.range n) fun s k => s.energy (some c.tag) (s.placePj cl (slot k).pfa)
    ((s.onCmd c.tag fun c => { c with count := n }).rangeGone c.tag).finish c.tag stOK 0

/-- R69, R70, R123, R124, R383: a program: handles, then the owners, then the dirty quota, then acceptance. -/
def State.doProgram (s : State) (c : Cmd) (slots : List Slot) : State :=
  let (bad, hs, s) := s.checkedHandles c
  match bad with
  | some (st, d) => (s.rangeGone c.tag).finish c.tag st d
  | none =>
    let full := fun h => !(s.buf (hdIndex h)).owners.contains 15 && decide (4 ≤ (s.buf (hdIndex h)).owners.length)
    if c.pkt.flag 4 && hs.any full then (s.rangeGone c.tag).finish c.tag stQuota (4 + 5 * 2 ^ 8)
    else
    let counted := fun (s : State) => s.userBytes c.pkt.client (4096 * hs.length)
    if c.pkt.isPfa then ((counted s).programPfa c hs).settle
    else
      let n := s.rd Reg.PWR_QUOTA_DIRTY + hs.length
      if s.dirtyQuota < n then (s.rangeGone c.tag).finish c.tag stQuota (1 + n * 2 ^ 8)
      else ((counted s).programLfa c hs slots).settle

/-- R69: a PROGRAM packet. -/
def execProgram (tag : Tag) (slots : List Slot) (s : State) : Out :=
  .next (match s.ready? tag.val opProgram with
    | some c => s.doProgram c (slots.map fitSlot)
    | none => s)

/-- R123: a PROGRAM_ATOMIC packet. -/
def execProgramAtomic (tag : Tag) (slots : List Slot) (s : State) : Out :=
  .next (match s.ready? tag.val opAtomic with
    | some c => s.doProgram c (slots.map fitSlot)
    | none => s)

/-! ERASE and COPY. -/

/-- R73: an ERASE of blocks on consecutive planes: one operation, or one for each plane where the profile cannot erase
several together (R238). -/
def State.doErase (s : State) (c : Cmd) : State :=
  let a := c.pkt.addr
  let lun := pfaLun a
  let ps := (List.range c.pkt.length).map (pfaPlane a + ·)
  let fs := (List.range c.pkt.length).map fun k =>
    { pos := k, pfa := mkPfa lun (pfaPlane a + k) (pfaBlock a) 0 0, st := .onDie : Frame }
  let s := s.begin c.tag fs
  if !s.lunServes lun then
    s.each (List.range c.pkt.length) fun s k => s.progDone c.tag k stAbsent
  else
    let mp := match s.lunProf lun with | some p => prCap p 2 | none => false
    let o : Op :=
      { id := 0, kind := .erase, lun := lun, cls := c.pkt.cls, eclass := c.pkt.eclass
        deadline := s.effDeadline c.fetched c.pkt.deadline, tag := some c.tag, block := pfaBlock a }
    if mp then s.addOp { o with planes := (ps.map fun p => 2 ^ p).sum }
    else s.each ps fun s p => s.addOp { o with planes := 2 ^ p }

/-- R73: an ERASE packet. -/
def execErase (tag : Tag) (s : State) : Out :=
  .next (match s.ready? tag.val opErase with
    | some c => s.doErase c
    | none => s)

/-- R74, R193, R444: a COPY: the dirty quota of an LFA destination, then the lease of a relocation, then the reads of the
source. -/
def State.doCopy (s : State) (c : Cmd) (slots : List Slot) : State :=
  let n := s.rd Reg.PWR_QUOTA_DIRTY + c.pkt.length
  if !c.pkt.cpPfa && decide (s.dirtyQuota < n) then (s.rangeGone c.tag).finish c.tag stQuota (1 + n * 2 ^ 8)
  else
    let fs := (List.range c.pkt.length).map fun k => { pos := k, lfa := c.pkt.addr + k : Frame }
    let s := (s.begin c.tag fs).onCmd c.tag fun c => { c with slots := slots }
    if c.pkt.isPfa then
      (s.onCmd c.tag fun c => { c with waits := [1] }).wantLease .reloc [resLun (pfaLun c.pkt.addr)] (some c.tag)
    else s.settle

/-- R74: a COPY packet. -/
def execCopy (tag : Tag) (slots : List Slot) (s : State) : Out :=
  .next (match s.ready? tag.val opCopy with
    | some c => s.doCopy c (slots.map fitSlot)
    | none => s)

/-! TRIM and FLUSH. -/

/-- R75: a TRIM packet. -/
def execTrim (tag : Tag) (s : State) : Out :=
  .next (match s.ready? tag.val opTrim with
    | some c =>
      ((s.running c.tag).onCmd c.tag fun c =>
        { c with pages := s.leafPages c.pkt.region c.pkt.addr c.pkt.length }).settle
    | none => s)

/-- R120, R180: a FLUSH: the writes it covers, whose page sets are programmed as they stand. -/
def State.doFlush (s : State) (c : Cmd) : State :=
  let mine := fun (port : Nat) => c.pkt.flag 2 || port == c.pkt.client
  let ws := s.que.ranges.filter fun r => decide (r.order < c.order) && mine r.port
  let s := (s.running c.tag).onCmd c.tag fun c => { c with waits := ws.map fun r => r.order }
  let s := s.each (s.que.dirty.filter fun d => decide (d.order < c.order) && mine d.client && !d.lost) fun s d =>
    s.forceFrame d.pfa d.cclass false
  s.settle

/-- R120: a FLUSH packet. -/
def execFlush (tag : Tag) (s : State) : Out :=
  .next (match s.ready? tag.val opFlush with
    | some c => s.doFlush c
    | none => s)

/-! Buffers. -/

/-- R77, R380: a BUF_ALLOC: a TRY is decided at once; a WAIT joins the requests. -/
def State.doAlloc (s : State) (c : Cmd) : State :=
  let n := c.pkt.length
  if c.pkt.flag 2 then
    match s.copTry c.pkt.client n with
    | none => (s.bump Reg.COP_NOBUF_CNT 1).finish c.tag stNoBuffer 0
    | some (g, r) =>
      s.copLow ((s.running c.tag).onCop fun p =>
        { p with
          reqs := p.reqs ++ [{ req := c.pkt.client, use := .alloc c.tag, left := n, bookG := g, bookR := r }] }).copMark
  else (s.running c.tag).copWant c.pkt.client (.alloc c.tag) n

/-- R77: a BUF_ALLOC packet. -/
def execBufAlloc (tag : Tag) (s : State) : Out :=
  .next (match s.ready? tag.val opAlloc with
    | some c => s.doAlloc c
    | none => s)

/-- R78: a BUF_SHARE: every handle passes, and no buffer would have a fifth owner. -/
def State.doShare (s : State) (c : Cmd) : State :=
  let (bad, hs, s) := s.checkedHandles c
  match bad with
  | some (st, d) => s.finish c.tag st d
  | none =>
    let who := c.pkt.param % 16
    let full := fun h => !(s.buf (hdIndex h)).owners.contains who && decide (4 ≤ (s.buf (hdIndex h)).owners.length)
    if hs.any full then s.finish c.tag stQuota (4 + 5 * 2 ^ 8)
    else
      let s := s.each hs fun s h => s.addName (hdIndex h) who
      (s.onCmd c.tag fun c => { c with count := hs.length }).finish c.tag stOK 0

/-- R78: a BUF_SHARE packet. -/
def execBufShare (tag : Tag) (s : State) : Out :=
  .next (match s.ready? tag.val opShare with
    | some c => s.doShare c
    | none => s)

/-- The frees of a BUF_FREE in order: names removed, and the first failing handle. -/
def State.freeAll (s : State) (r : Nat) : List Nat → Nat → Nat × Option (Nat × Nat) × State
  | [], _ => (0, none, s)
  | h :: l, k =>
    let (st, s) := s.freeOne h r
    let (n, bad, s) := s.freeAll r l (k + 1)
    if st = 0 then (n + 1, bad, s) else (n, some (st, detailHandle k (hdIndex h)), s)

/-- R79, R384 to R386: a BUF_FREE: each handle alone. -/
def State.doFree (s : State) (c : Cmd) : State :=
  match s.handleList c.pkt with
  | (some a, _, s) => s.finishInternal c.tag (detailStore a)
  | (none, hs, s) =>
    let (n, bad, s) := s.freeAll c.pkt.client hs 0
    let s := s.onCmd c.tag fun c => { c with count := n }
    match bad with
    | some (st, d) => s.finish c.tag st d
    | none => s.finish c.tag stOK 0

/-- R79: a BUF_FREE packet. -/
def execBufFree (tag : Tag) (s : State) : Out :=
  .next (match s.ready? tag.val opFree with
    | some c => s.doFree c
    | none => s)

/-! MAP_PIN and MAP_SYNC. -/

/-- R81, R153, R164: a MAP_PIN, or with UNPIN the end of the marks. -/
def State.doPin (s : State) (c : Cmd) : State :=
  let keys := s.leafPages c.pkt.region c.pkt.addr c.pkt.length
  if c.pkt.flag 2 then
    let s := s.each keys fun s k => match s.mapFind k with
      | some i => s.onMslot i fun m => { m with pin := false }
      | none => s
    ((s.onCmd c.tag fun c => { c with count := c.pkt.length }).finish c.tag stOK 0).settle
  else match s.pinRefused keys with
    | some n => s.finish c.tag stQuota (2 + n * 2 ^ 8)
    | none => ((s.running c.tag).onCmd c.tag fun c => { c with pages := keys }).settle

/-- R81: a MAP_PIN packet. -/
def execMapPin (tag : Tag) (s : State) : Out :=
  .next (match s.ready? tag.val opPin with
    | some c => s.doPin c
    | none => s)

/-- R82, R165: a MAP_SYNC packet: the dirty leaf pages of its range, or every page. -/
def execMapSync (tag : Tag) (s : State) : Out :=
  .next (match s.ready? tag.val opSync with
    | some c =>
      let lo := s.leafPages c.pkt.region c.pkt.addr c.pkt.length
      ((s.running c.tag).onCmd c.tag fun c =>
        { c with pages := if c.pkt.length = 0 then [] else s.dirtyPages 0 fun k => lo.contains k }).settle
    | none => s)

end Sys2Proof.Machine
end

