-- ==== Sys2Proof/Machine/Balls.lean ====
section
/-!
DEFINITION. The levels of the flash-facing balls (R532 to R537, R543) as they follow from the state, between two bus
cycles of a channel.
-/
namespace Sys2Proof.Machine

/-- What a driver does to a ball; `hiZ` is a driver and a termination that are off (R535). -/
inductive Drive where
  | low | high | hiZ
deriving DecidableEq, Repr

/-- The output balls of a channel (R532); `ce` carries the line of FCn_CE_N. -/
inductive FcBall where
  | dq | dqs | reT | reC | weN | cle | ale | ce (line : Nat) | wpN | eno
deriving DecidableEq, Repr

/-- The level of a line. -/
def drive (b : Bool) : Drive := if b then .high else .low

/-- R534: the outputs of a channel may be driven high: FC_PWRGD of its flash power domain reads high. -/
def State.fcLive (s : State) (n : Nat) : Bool := s.pwr.st != .off && bit (s.rd Reg.PWR_STAT_PWRGD) (n / 2)

/-- R456, R460: the line of FCn_CE_N that the sequencer of a channel asserts: line 0 on a CHAIN channel. -/
def State.ceLine (s : State) (n : Nat) : Option Nat :=
  (s.seq n).ce.map fun t => if (s.chan n).chain then 0 else t

/-- R534, R535: the level of an output ball of channel n. -/
def State.fcBall (s : State) (n : Nat) (b : FcBall) : Drive :=
  if !s.fcLive n then .low
  else match b with
    | .dq | .dqs => .hiZ
    | .reT | .weN => .high
    | .reC => .low
    | .cle => drive (s.seq n).cle
    | .ale => drive (s.seq n).ale
    | .ce line => drive (s.ceLine n != some line)
    | .wpN => drive (s.chan n).wp
    | .eno => drive (s.chan n).eno

/-- R534, R535: the receivers of FCn_RB_N and FCn_ENI are on. -/
def State.fcReceives (s : State) (n : Nat) : Bool := s.fcLive n
/-- R534, R537: the internal pull-ups of FCn_RB_N are on. -/
def State.fcPullsUp (s : State) (n : Nat) : Bool := s.fcLive n && s.is Reg.GLB_STRAP_RB_PU
/-- R446, R537, R540: FC_HOLDUP_DONE. -/
def State.fcHoldupDone (s : State) : Bool :=
  s.pwr.st != .off && s.is Reg.GLB_STRAP_HU_EN && s.is Reg.PWR_STAT_HU_DONE

end Sys2Proof.Machine
end

