-- ==== Sys2Proof/Machine/WarmStop.lean ====
section
/-!
DEFINITION. The first steps of a warm reset (R512 to R516): work stops, activities end, and what is not issued is removed.
-/
namespace Sys2Proof.Machine

/-! Wordline groups (R515). -/

/-- The pass of a wordline group. -/
def State.groupOp (s : State) (g : WGroup) : Option Op :=
  s.top.ops.find? fun o => o.kind == .prog && o.lun == g.lun && o.ord == g.ord
/-- R515: the data-in of the group's first pass has begun. -/
def State.groupBegun (s : State) (g : WGroup) : Bool :=
  g.done != 0 || match s.groupOp g with
    | some o => o.st == .bus || o.st == .array || o.st == .suspended
    | none => false
/-- A pass of the group has reached its array phase. -/
def State.groupOut (s : State) (g : WGroup) : Bool :=
  g.done != 0 || match s.groupOp g with
    | some o => o.st == .array || o.st == .suspended
    | none => false
/-- The wordline group that a program frame's first page lies in. -/
def State.frameGroup (s : State) (f : PFrame) : Option WGroup :=
  s.top.groups.find? fun g => g.isSet (pfaLun f.pfa) (pfaBlock f.pfa) f.cclass (pfaPlane f.pfa) &&
    g.group == s.groupNo g.lun g.pslc (pfaPage f.pfa)
/-- A test of the group of a program frame; false where it is in none. -/
def State.inGroup (s : State) (f : PFrame) (t : WGroup → Bool) : Bool :=
  match s.frameGroup f with
  | some g => t g
  | none => false

/-! Activities (R198, R516). -/

/-- R516: the store activities of policy firmware end. What a self-test leaves in its region is not in the spec. -/
def State.warmStore (s : State) : State :=
  let s := s.each s.hdg.scrub fun s x => (s.dropLease .scrub [resRgn x.1]).finishSlow x.2 stByReset 0
  let s := s.each s.hdg.selftest fun s x =>
    let s := s.each (List.range 256) fun s j => s.hForget (256 * x.1 + j)
    ((s.onHdg fun h => { h with marks := h.marks.filter fun m => m.1 / 0x20000 != x.1 }).dropLease .selftestStore
      [resRgn x.1]).finishSlow x.2 stByReset 0
  (s.onHdg fun h => { h with scrub := [], selftest := [], batch := 0 }).gorseStop
/-- R516: CALIB and PATROL end. -/
def State.warmJnp (s : State) : State :=
  let s := s.each s.jnp.calib fun s e => match e.2.bind fun r => r.tag with
    | some t => (s.calibDrop e.1).finishSlow t stByReset 0
    | none => s.calibDrop e.1
  let s := s.each s.jnp.patrol fun s e => match s.leaseTag .patrol [resLun e.1] with
    | some t => (s.patrolDrop e.1).finishSlow t stByReset 0
    | none => s.patrolDrop e.1
  s.onJnp fun j => { j with patrolq := [] }

/-! The map walker (R166, R516). -/

/-- R516: a write-back that has not reached its array phase: its page stays dirty. -/
def State.warmWb (s : State) (w : WB) : State :=
  let mine := fun (f : PFrame) => match f.src with | .map k _ => k == w.key | _ => false
  let fs := s.top.pfs.filter mine
  if w.fin || fs.isEmpty || fs.any (fun f => s.inGroup f s.groupOut) then s
  else if fs.any fun f => s.inGroup f s.groupBegun then s.onWb w.key fun x => { x with bad := true }
  else
    (s.onMap fun m => { m with wbs := m.wbs.filter fun x => x.key != w.key }).onTop fun t =>
      { t with pfs := t.pfs.map fun f => if mine f then { f with src := .pad, buf := none, enc := false } else f }
/-- R166: the miss table is empty, the reads of map pages are dropped, and write-backs go on or are undone. -/
def State.warmMap (s : State) : State :=
  let s := s.each (s.ecc.flights.filter fun f => match f.ref with | .map _ _ => true | _ => false) fun s f => s.dropFlight f.id
  (s.onMap fun m => { m with miss := [] }).each s.map.wbs fun s w => s.warmWb w

/-! Commands (R513 to R515). -/

/-- R513, R516: a command that is not issued is removed, with the leases it holds or asks for. -/
def State.warmRemove (s : State) (c : Cmd) : State :=
  let s := s.remove c stByReset
  s.when (opSlow c.pkt.opcode) fun s => (s.dropLeaseTag c.tag).untag c.tag
/-- R514: the read of a frame is not issued: the frame waits, or its operation does. -/
def State.readUnissued (s : State) (c : Cmd) (f : Frame) : Bool :=
  frameWaits f || (f.st == .onDie && match s.flightOf c.tag f.pos with
    | none => false
    | some x => x.out.isNone && match s.top.ops.find? fun o => o.fl.contains x.id with
      | some o => o.st == .queued || o.st == .refused || o.parts.contains (pfaPlane x.pfa)
      | none => false)
/-- R514: the frames of an issued reading command that were never issued. -/
def State.warmRead (s : State) (c : Cmd) : State :=
  s.each (c.frames.filter (s.readUnissued c)) fun s f =>
    (s.releaseFrame c f).onFrame c.tag f.pos fun x => { x with st := .ready, out := stByReset }
/-- R515, R580: an issued PFA or FUA program loses the frames of the groups that have not begun. -/
def State.warmProgram (s : State) (c : Cmd) : State :=
  let out := fun (f : PFrame) => !s.inGroup f s.groupBegun
  let own := s.top.pfs.filter fun f => out f && match f.src with | .cmd t _ => t == c.tag | _ => false
  let lost := s.que.dirty.filter fun d => d.order == c.order && d.fua &&
    (s.top.pfs.filter fun f => f.src == .dirty d.order d.pos).all out
  let s := s.stripFua c fun l => lost.any fun d => d.lfa == l
  let s := s.each lost fun s d => s.progDone c.tag d.pos stByReset
  s.each own fun s f =>
    let s := s.padPf f.src
    let s := match f.buf with
      | some b => if c.pkt.opcode = opCopy then s.dropName b 15 else (s.addName b c.pkt.client).dropName b 15
      | none => s
    match f.src with | .cmd _ pos => s.progDone c.tag pos stByReset | _ => s
/-- R514: the blocks of an issued erase that were never issued. -/
def State.warmErase (s : State) (c : Cmd) : State :=
  s.each (s.top.ops.filter fun o => o.kind == .erase && o.tag == some c.tag) fun s o =>
    if o.st == .queued || o.st == .refused then s.failOp o.id stByReset 0
    else
      let m := (o.parts.map fun p => 2 ^ p).sum
      (s.onOp o.id fun o => { o with parts := [] }).endErase o m stByReset 0
/-- R514, R515: an issued command keeps what is issued. -/
def State.warmCut (s : State) (c : Cmd) : State :=
  let o := c.pkt.opcode
  if o = opRead ∨ o = opReadRaw then s.warmRead c
  else if o = opCopy then (s.warmRead c).warmProgram c
  else if o = opProgram ∨ o = opAtomic then s.warmProgram c
  else if o = opErase then s.warmErase c
  else s
/-- R513: a command is issued once one of its die operations is. -/
def State.isIssued (s : State) (c : Cmd) : Bool :=
  c.issued || s.top.ops.any fun o => (o.st == .bus || o.st == .array || o.st == .suspended) && (s.opTags o).contains c.tag
/-- R513, step 2: removal. A MAINT whose activity is within a slice ends with it (R516). -/
def State.warmCommands (s : State) : State :=
  let slice := fun (c : Cmd) => s.top.leases.any fun l => l.tag == some c.tag && l.act.intrusive
  let l := s.que.cmds.filter fun c => (c.stage == .entered || c.stage == .running) && !slice c
  let s := s.each (l.filter fun c => !s.isIssued c) fun s c => s.warmRemove c
  let s := s.each (l.filter fun c => s.isIssued c) fun s c => s.warmCut (s.cmd c.tag)
  s.onTop fun t =>
    { t with ops := t.ops.map fun o => if o.kind == .read || o.kind == .raw || o.kind == .soft then { o with parts := [] } else o }

/-! The stop (R513, steps 1 and 2). -/

/-- R496: an open sequence of Yew closes, and a suspended operation resumes. -/
def State.warmYew (s : State) : State := ((s.onYew fun y => { y with seq := none }).yResume 0).yResume 1
/-- R513: a warm reset begins. -/
def State.warmBegin (s : State) (cause : Nat) : State :=
  let s := s.onSys fun y => { y with warmReq := none, warmRun := some cause, removed := 0 }
  let s := ((s.setb Reg.ERR_RST_RUNNING).onHly fun h => { h with running := false }).warmYew
  let s := (s.dropEntry stByReset).holdBack
  let s := s.cutActs.warmStore.warmJnp
  let s := s.cutLadder.cutXor.warmMap
  let s := s.warmCommands
  ((s.onHly fun h => { h with inflight := [] }).onQue fun q => { q with inbox := [] }).settle

/-- R512: what a warm reset waits for: the hold-up sequence, an ACTIVATE past its inbox, or a DISCOVER activity. -/
def State.warmBarred (s : State) : Bool :=
  s.pwr.hold != 0 || s.pwr.warn || s.hly.actv.isSome || (s.top.leases.any fun l => l.act == .discover) ||
    s.chs.any fun c => c.2.disc
/-- R512: a warm reset is requested: it begins, or it is postponed. A request during a warm reset is ignored. -/
def State.wantWarm (s : State) (cause : Nat) : State :=
  if s.sys.warmRun.isSome || s.sys.warmReq.isSome then s
  else if s.warmBarred then s.onSys fun y => { y with warmReq := some cause }
  else s.warmBegin cause

/-- R512: a write of 1 to PL_GLB_CTL.WARM_RST. -/
def execWarmRst (m : Master) (s : State) : Out := .next (s.access m 0x0004 (some 1) fun s => s.wantWarm 2)

/-- R512: a Holly write of 1 to PL_HLY_CTL.WARM_REQ. -/
def execWarmReq (s : State) : Out :=
  .next (if s.hly.running then
      s.access .holly 0xC000 (some (s.rd Reg.HLY_CTL_QUIESCED + 2 * s.rd Reg.HLY_CTL_READY + 4)) fun s => s.wantWarm 3
    else s)

/-- R512: a postponed warm reset takes effect. -/
def execWarmResetBegin (s : State) : Out :=
  .next (match s.sys.warmReq with
    | some c => if s.warmBarred || s.pwr.st != .active then s else s.warmBegin c
    | none => s)

end Sys2Proof.Machine
end

