-- ==== Sys2Proof/Machine/RegPort.lean ====
section
/-!
DEFINITION. The register port and Holly's internal port (R13 to R17, R499, R563 to R568): the fields that a read
computes from the state, reads and writes of every register, and the accesses that a gated clock holds (R434).
-/
namespace Sys2Proof.Machine

/-! Fields that show the state of a unit. -/

/-- R370, R392: fields of Coppice. -/
def State.viewCop (s : State) (F : Fld) : Nat :=
  let b := s.buf (s.rd Reg.COP_INSPECT_INDEX)
  if F = Reg.COP_STAT_FREE then s.copF
  else if F = Reg.COP_STAT_RSV_OVER then b2n (decide (s.poolSize < s.copSum 0 (s.copQ 0)))
  else if F = Reg.COP_PEND_WAITING then
    (List.range 16).foldl (fun v i => v + b2n (s.cop.reqs.any fun r => r.req == i && r.waited.isSome) * 2 ^ i) 0
  else if F = Reg.COP_STATE0_STATE then b2n b.alloc
  else if F = Reg.COP_STATE0_GEN then b.gen
  else if F = Reg.COP_STATE0_GRANTEE then b.grantee
  else if F = Reg.COP_STATE0_RSV then b2n b.rsv
  else if F = Reg.COP_STATE0_HOLDS then b.holds
  else if F = Reg.COP_STATE0_DCRC_V then b2n b.dcrcV
  else if F = Reg.COP_STATE1_OWNERS then (List.range 4).foldl (fun v k => v + b.owners.getD k 0 * 2 ^ (4 * k)) 0
  else if F = Reg.COP_STATE1_OV then 2 ^ b.owners.length - 1
  else if F = Reg.COP_RSV_USED ((F.addr - 0x2040) / 4) then s.copU ((F.addr - 0x2040) / 4)
  else s.rd F

/-- R80, R409: SRC or DST of a register set: a byte address divided by 8, a handle list's address, or pattern bits. -/
def dmaReg (kind a list : Nat) (pattern : Bool) : Nat :=
  if kind = 2 then list else if kind = 3 then (if pattern then a % 2 ^ 32 else 0) else a / 8

/-- R409: one field of a register set, by its register (0 to 3) and lowest bit. -/
def Xfer.field (x : Xfer) (reg lsb : Nat) : Nat :=
  match reg with
  | 0 => dmaReg x.srcK x.src x.hlist true
  | 1 => if x.srcK = 3 then x.src / 2 ^ 32 else 0
  | 2 => dmaReg x.dstK x.dst x.hlist false
  | _ =>
    match lsb with
    | 0 => x.len8
    | 22 => x.srcK
    | 24 => x.dstK
    | 26 => b2n x.pace
    | 27 => b2n x.append
    | _ => x.port

/-- R409: fields of the DMA channels. -/
def State.viewDma (s : State) (F : Fld) : Nat :=
  let n := (F.addr - 0x5000) / 0x80
  let d := s.dmaCh n
  let o := (F.addr - 0x5000) % 0x80 / 4
  let part := fun (x : Option Xfer) (r : Nat) => match x with | some x => x.field r F.lsb | none => 0
  if 0x5800 ≤ F.addr then s.rd F
  else if o < 4 then part d.act o
  else if o < 8 then part d.shadow (o - 4)
  else if F = Reg.DMA_STAT_TAG n then (match d.act with | some x => x.tag | none => 0)
  else if F = Reg.DMA_STAT_ACTIVE n then b2n d.act.isSome
  else if F = Reg.DMA_STAT_SH_V n then b2n d.shadow.isSome
  else if F = Reg.DMA_STAT_PAUSED n then (match d.act with | some x => b2n x.paused | none => 0)
  else if F = Reg.DMA_LEVEL_FILL n then d.queue.length
  else s.rd F

/-- R167: fields of the map walker. -/
def State.viewMap (s : State) (F : Fld) : Nat :=
  if F = Reg.MAP_STAT_DIRTY then (s.resident.filter fun e => e.2.dirty).length
  else if F = Reg.MAP_STAT_MISS_OPEN then s.map.miss.length
  else if F = Reg.MAP_PIN_USED then s.pinUsed
  else s.rd F

/-- R292, R301, R305, R309: fields of the code ROM, the sample queues and the XOR engines. -/
def State.viewEcc (s : State) (F : Fld) : Nat :=
  let slots := fun w => (List.range 4).foldl (fun v k => v + b2n (s.xor? w k).isSome * 2 ^ k) 0
  let i := s.rd Reg.ECC_ROM_ADDR_ENTRY
  if F = Reg.ECC_ROM_DATA_DATA then (if i ≤ 6103 then Config.romWord i % 2 ^ 16 else 0)
  else if F = Reg.ECC_XOR_STAT_SLOTS_A then slots 0
  else if F = Reg.ECC_XOR_STAT_SLOTS_B then slots 1
  else if F = Reg.ECC_SQUEUE_QA then (tget [] s.ecc.sampleq 0).length
  else if F = Reg.ECC_SQUEUE_QB then (tget [] s.ecc.sampleq 1).length
  else s.rd F

/-- R432: fields of Boxwood. -/
def State.viewBox (s : State) (F : Fld) : Nat :=
  if F = Reg.BOX_STAT_RSV_V then b2n s.top.rsvV.isSome
  else if F = Reg.BOX_STAT_RSV_Q then b2n s.top.rsvQ.isSome
  else s.rd F

/-- R445: the class in which the capacity of the band is counted: the largest in use, STANDARD where no region is
loaded. -/
def State.bandClass (s : State) : Nat :=
  let l := (s.map.rgns.filter fun r => r.2.v).map fun r => r.2.cclass
  if l.isEmpty then 2 else l.foldl max 0
/-- R445: codewords that the unused band entries take. -/
def State.bandCap (s : State) : Nat :=
  ((List.range 8).map fun n =>
    match s.bandEntry n with
    | some (_, _, m, p) =>
      if (s.band n).used = 0 && !(s.band n).gone then bandRows p * ones 8 m * prTotal p / cwLen s.bandClass else 0
    | none => 0).sum
/-- R419, R445: the charge of one band pass exceeds the hold-up budget at the critical scale. -/
def State.bandOver (s : State) : Bool :=
  let c := max 1 (s.rd Reg.BOX_THERM_CTL_CRIT_SCALE)
  (List.range 8).any fun n =>
    match s.bandEntry n with
    | some (_, _, m, p) =>
      let q := s.charge p .prog (ones 8 m)
      decide (s.rd Reg.BOX_HU_BUDGET_VCC * c / 16 < q.1) || decide (s.rd Reg.BOX_HU_BUDGET_VCCQ * c / 16 < q.2)
    | none => false
/-- R445: STAT.BAND_LOW. -/
def State.bandLow (s : State) : Bool :=
  decide (s.bandCap < s.dirtyQuota + 4 * s.rd Reg.MAP_DIRTY_LIMIT + 8) || s.bandOver

/-- R450: fields of the power-state machine. `held` says that the access was held in IDLE: STATE is the one before
the access that reads it. -/
def State.viewPwr (s : State) (held : Bool) (F : Fld) : Nat :=
  if F = Reg.PWR_STAT_STATE then b2n held
  else if F = Reg.PWR_STAT_ENTERING then b2n s.pwr.entry.isSome
  else if F = Reg.PWR_STAT_BAND_LOW then b2n s.bandLow
  else if F = Reg.PWR_STAT_PWR_EN then ((bitList 4 15).filter s.fcPwrEn).foldl (fun v k => v + 2 ^ k) 0
  else s.rd F

/-- R481: the least WS of the operating point in use; in the relock of a switch CCLK is at 400 MHz and the supply at
0.75 V. -/
def State.leastWs (s : State) : Nat :=
  match s.pwr.econ with
  | some (_, _, 2) => 4
  | _ => if s.is Reg.PWR_CTL_ECON then 5 else 8

/-- R497: fields of Yew. -/
def State.viewYew (s : State) (F : Fld) : Nat :=
  let susp := fun b => match s.yOp? b with | some o => b2n o.susp | none => 0
  let owner := fun b => match s.yOp? b with | some o => o.master | none => 0
  if F = Reg.YEW_STAT_BUSY0 then b2n (s.yBusy 0)
  else if F = Reg.YEW_STAT_BUSY1 then b2n (s.yBusy 1)
  else if F = Reg.YEW_STAT_SUSP0 then susp 0
  else if F = Reg.YEW_STAT_SUSP1 then susp 1
  else if F = Reg.YEW_STAT_OWNER0 then owner 0
  else if F = Reg.YEW_STAT_OWNER1 then owner 1
  else if F = Reg.YEW_STAT_SEQ_OPEN then b2n s.yew.seq.isSome
  else if F = Reg.YEW_STAT_WS_LOW then b2n (decide (s.rd Reg.YEW_CTL_WS < s.leastWs))
  else if F = Reg.YEW_STAT_HFETCH then s.yFetch
  else s.rd F

/-- R511: fields of the policy processor. -/
def State.viewHly (s : State) (F : Fld) : Nat :=
  if F = Reg.HLY_STAT_RUN then b2n s.hly.running
  else if F = Reg.HLY_STAT_HALT then b2n s.hly.halted
  else if F = Reg.HLY_STAT_ACTIVATING then b2n s.hly.actv.isSome
  else if F = Reg.HLY_STAT_HELD then
    (match s.hly.actv with | some a => b2n (!a.mcs && decide (1 ≤ a.stage)) | none => 0)
  else if F = Reg.HLY_INBOX_LEVEL_FILL then s.que.inbox.length
  else s.rd F

/-- R531: fields of the error log. -/
def State.viewErr (s : State) (F : Fld) : Nat :=
  if F = Reg.ERR_DATA_DATA ((F.addr - 0xD014) / 4) then
    (match tget none s.err.ring (s.rd Reg.ERR_SEL_ENTRY) with
     | some r => bits r.word (32 * ((F.addr - 0xD014) / 4)) 32
     | none => 0)
  else if F = Reg.ERR_SRC_PEND then s.errSrc
  else if F = Reg.ERR_IRQ_LINE then s.errIrq
  else s.rd F

/-- R232: the fields of PL_MCS_STATEn. -/
def State.viewMcs (s : State) (F : Fld) : Nat :=
  let n := (F.addr - 0xE040) / 4
  let q := s.seq n
  if F = Reg.MCS_STATE_UPC n then q.upc
  else if F = Reg.MCS_STATE_DEPTH n then q.stack.length
  else if F = Reg.MCS_STATE_IM n then q.im
  else if F = Reg.MCS_STATE_RUN n then b2n q.run
  else if F = Reg.MCS_STATE_HALT n then b2n q.halt
  else s.rd F

/-- R15, R17: what a read of a field returns. PL_GLB_ID is fixed (R1). -/
def State.view (s : State) (held : Bool) (F : Fld) : Nat :=
  if F.acc = .wo then 0
  else (match F.addr / 0x1000 with
    | 0x0 =>
      if F.addr = 0 then F.cold
      else if F = Reg.GLB_CSF_LEVEL_FILL then s.que.csf.length
      else if F = Reg.GLB_TIME_LO_COUNT then s.now
      else s.rd F
    | 0x1 => s.viewPwr held F
    | 0x2 => s.viewCop F
    | 0x4 =>
      let k := (F.addr - 0x4000) / 0x40
      if F = Reg.QUE_CFG_BUSY k then b2n (s.pairBusy k) else s.rd F
    | 0x5 => s.viewDma F
    | 0x7 => s.viewMap F
    | 0x8 => s.viewEcc F
    | 0xA => s.viewBox F
    | 0xB => s.viewYew F
    | 0xC => s.viewHly F
    | 0xD => s.viewErr F
    | 0xE => s.viewMcs F
    | b =>
      let n := b - 0x20
      if 0x20 ≤ b ∧ F = Reg.CH_EVT_LEVEL_FILL n then (s.chan n).events.length else s.rd F) % 2 ^ F.width

/-! The window (R563, R564). -/

/-- R563: the address lies in a block or in the control-store window. -/
def regMapped (addr : Nat) : Bool :=
  let b := addr / 0x1000
  decide (b ≤ 0xE) || (decide (0x10 ≤ b) && decide (b < 0x28)) || b == 0x30
/-- R206: the address lies in the control-store window. -/
def inCsWindow (addr : Nat) : Bool := addr / 0x10000 == 1
/-- R13, R564: the access completes with an error response and a record. -/
def regBad (addr width : Nat) : Bool := addr % 4 != 0 || width != 4 || !regMapped addr

/-! Reads. -/

/-- R15: a read returns the fields of a register and clears its RC fields. -/
def State.readPlain (s : State) (held : Bool) (addr : Nat) : State :=
  let l := Reg.atAddr addr
  let v := l.foldl (fun v F => v + s.view held F * 2 ^ F.lsb) 0
  { s.each l fun s F => if F.acc = .rc then s.wr F 0 else s with resp := .value v }
/-- A register read that is served. -/
def State.regRead (s : State) (m : Master) (held : Bool) (addr width : Nat) : State :=
  if regBad addr width then s.badAccess addr
  else if inCsWindow addr then { s with resp := .value (tget 0 s.mcs.cs ((addr - 0x10000) / 4)) }
  else if addr = 0x0010 then s.timeLo
  else if addr = 0xB020 then s.yRead (mCode m)
  else s.readPlain held addr

/-- R15: a read of a register; its RC fields are cleared in the same access. -/
def execRcRegisterRead (m : Master) (addr width : Nat) (s : State) : Out :=
  .next (s.access m addr none (fun s => s.regRead m false addr width) width)

/-! Writes. -/

/-- R15: a write to one field; `fixed` says that the register's LOCK fields are fixed. -/
def State.writeFld (s : State) (fixed : Bool) (v : Nat) (F : Fld) : State :=
  match F.acc with
  | .rw => s.wr F (bits v F.lsb F.width)
  | .w1c => s.wr F (s.rd F &&& (2 ^ F.width - 1 ^^^ bits v F.lsb F.width))
  | .lock => if fixed then s else s.wr F (bits v F.lsb F.width)
  | _ => s
/-- R15, R567: a write to the fields of a register. -/
def State.writeFlds (s : State) (addr v : Nat) (l : List Fld) : State :=
  let fixed := s.locks.contains addr
  let s := s.each l fun s F => s.writeFld fixed v F
  if !fixed && l.any (fun F => F.acc == Access.lock) then { s with locks := s.locks ++ [addr] } else s
/-- R15: a write to a register without an effect of its own. -/
def State.writePlain (s : State) (addr v : Nat) : State := s.writeFlds addr v (Reg.atAddr addr)

/-- R187: a write of 0 to LIMIT is ignored. -/
def State.writeSusp (s : State) (v : Nat) : State :=
  s.writeFlds 0x6004 v ((Reg.atAddr 0x6004).filter fun F => F != Reg.TOP_SUSP_LIMIT || bits v 0 8 != 0)
/-- R102: the bases of an enabled pair are fixed. -/
def State.writeQue (s : State) (m : Master) (addr v : Nat) : State :=
  let k := (addr - 0x4000) / 0x40
  match addr % 0x40 with
  | 0x00 | 0x04 => if s.is (Reg.QUE_CFG_ENABLE k) then s else s.writePlain addr v
  | 0x08 => s.queCfg k v
  | 0x0C => s.doorbell m k v
  | _ => s
/-- R402, R409: a PACE write decides again whether the transfer pauses; the base of an enabled DCQ is fixed. -/
def State.writeDma (s : State) (addr v : Nat) : State :=
  let w := (addr - 0x5800) / 0x40
  if addr < 0x5800 then
    (s.writePlain addr v).when (addr % 0x80 == 0x20) fun s => s.repace ((addr - 0x5000) / 0x80)
  else if 2 ≤ w then s
  else match addr % 0x40 with
    | 0x00 => if s.is (Reg.DMA_W_DCQ_CFG_ENABLE w) then s else s.writePlain addr v
    | 0x04 => s.dcqCfg w v
    | 0x08 => s.dcqHead w v
    | _ => s
/-- R418: settings from which the live budget follows. -/
def State.writeBox (s : State) (addr v : Nat) : State :=
  match addr with
  | 0xA004 => s.ceilSet v
  | 0xA008 => s.budgetSet v
  | 0xA088 => s.threshSet v
  | _ => s.relive fun s => s.writePlain addr v
/-- R445: a write of a band entry; another block starts empty, and an entry that cannot serve sets BAND_ERR. -/
def State.writeBand (s : State) (n v : Nat) : State :=
  let was := s.regWord (Reg.atAddr (0x1020 + 4 * n))
  let s := s.writePlain (0x1020 + 4 * n) v
  let s := if s.regWord (Reg.atAddr (0x1020 + 4 * n)) % 2 ^ 31 = was % 2 ^ 31 then s else s.onBand n fun _ => {}
  s.when (bit v 31 && (s.bandEntry n).isNone) (·.setb Reg.PWR_STAT_BAND_ERR)
/-- R450: a write of the power-state machine's block. -/
def State.writePwr (s : State) (addr v : Nat) : State :=
  if addr = 0x1014 then s.pwrDom v
  else if addr = 0x1010 then (s.writePlain addr v).settle
  else if 0x1020 ≤ addr ∧ addr < 0x1040 then s.writeBand ((addr - 0x1020) / 4) v
  else s.writePlain addr v
/-- R279, R260: a write of PL_CHn_CTL: a level that it no longer allows is left at once where the bus is free, a
channel that may climb to PRE does, and RST resets. -/
def State.writeChCtl (s : State) (n v : Nat) : State :=
  let s := s.writePlain (0x20000 + 0x1000 * n) v
  let s := s.when (s.busIdle n) fun s => (s.dropHeld n).climbOn n false
  s.when (bit v 0) fun s => s.chRst n
/-- R511: a write of PL_HLY_CTL. -/
def State.writeHlyCtl (s : State) (m : Master) (v : Nat) : State :=
  let s := s.when (m == Master.holly && s.hly.running) fun s =>
    (s.hollyCtl v).when (bit v 2) fun s => s.wantWarm 3
  s.when (bit v 3) (·.hollyRestart)
/-- R206, R232: a write of the sequencers' block. -/
def State.writeMcs (s : State) (addr v : Nat) : State :=
  if addr = 0xE000 then s.mcsCtl v
  else if addr = 0xE02C then s.nanoAddr v
  else if addr = 0xE038 then s.nanoWrite v
  else if 0xE060 ≤ addr ∧ addr < 0xE080 then s.faultClear ((addr - 0xE060) / 4) v
  else s.writePlain addr v
/-- R497: a write of Yew's block. -/
def State.writeYew (s : State) (m : Master) (addr v : Nat) : State :=
  match addr with
  | 0xB008 => s.yKey m v
  | 0xB00C => s.yCmd m v
  | 0xB010 => s.yAddrWrite m v
  | 0xB014 => s.yDataLo m v
  | 0xB018 => s.yDataHi m v
  | _ => s.writePlain addr v
/-- R342: a write of Juniper's block. -/
def State.writeJnp (s : State) (addr v : Nat) : State :=
  match addr with
  | 0x9008 => s.jnpTable v
  | 0x9020 => s.jnpCkpt v
  | 0x9024 => s.grpClr v
  | _ => s.writePlain addr v
/-- R167: a write of the map walker's block. -/
def State.writeMap (s : State) (m : Master) (addr v : Nat) : State :=
  match addr with
  | 0x7000 => s.mapCtl? (m == Master.holly) v
  | 0x7008 => if s.is Reg.MAP_RGN_LOAD_BUSY then s else s.rgnLoad (bits v 0 6)
  | 0x7010 => (s.writePlain addr v).settle
  | _ => s.writePlain addr v
/-- R573: a write of the DBG block. -/
def State.writeDbg (s : State) (addr v : Nat) : State :=
  match addr with
  | 0x30000 => s.dbgLockWrite v
  | 0x30004 => s.dbgInjAddr v
  | 0x30008 => s.dbgInjCtl v
  | 0x3000C => s.dbgForce v
  | _ => s.writePlain addr v
/-- A register write that is served, by its block. -/
def State.writeBlock (s : State) (m : Master) (addr v : Nat) : State :=
  match addr / 0x1000 with
  | 0x0 => if addr = 0x0004 then s.when (bit v 0) fun s => s.wantWarm 2 else s.writePlain addr v
  | 0x1 => s.writePwr addr v
  | 0x2 =>
    if addr = 0x200C then s.when (bit v 0) (·.rebuildStart)
    else if 0x2040 ≤ addr ∧ addr < 0x2080 then s.setQuota ((addr - 0x2040) / 4) (bits v 0 13)
    else s.writePlain addr v
  | 0x3 => if addr < 0x3080 then s.rgnWrite ((addr - 0x3000) / 4) v else s.writePlain addr v
  | 0x4 => s.writeQue m addr v
  | 0x5 => s.writeDma addr v
  | 0x6 => if addr = 0x6004 then s.writeSusp v else s.writePlain addr v
  | 0x7 => s.writeMap m addr v
  | 0x9 => s.writeJnp addr v
  | 0xA => s.writeBox addr v
  | 0xB => s.writeYew m addr v
  | 0xC =>
    if addr = 0xC000 then s.writeHlyCtl m v
    else if addr = 0xC034 then s.hlyWdog (m == Master.holly) v
    else s.writePlain addr v
  | 0xD =>
    if addr = 0xD000 then s.errCtl v else if addr = 0xD008 then s.errHead v else s.writePlain addr v
  | 0xE => s.writeMcs addr v
  | 0x30 => s.writeDbg addr v
  | b =>
    if 0x20 ≤ b ∧ addr % 0x1000 = 0 then s.writeChCtl (b - 0x20) v else s.writePlain addr v
/-- A register write that is served. -/
def State.regWrite (s : State) (m : Master) (addr width v : Nat) : State :=
  if regBad addr width then s.badAccess addr
  else if inCsWindow addr then s.csWrite (addr - 0x10000) v
  else s.writeBlock m addr v

/-- R96: the address of a doorbell. -/
def isDoorbell (addr : Nat) : Bool := decide (0x4000 ≤ addr) && decide (addr < 0x5000) && addr % 0x40 == 0xC
/-- R437: the write wakes the complex from NAP and DORMANT: a doorbell, or WAKE from a master that reaches it. -/
def wakesLow (m : Master) (addr width v : Nat) : Bool :=
  width == 4 && (isDoorbell addr || (addr == 0x1000 && bit v 0 && (match m with | .client _ => false | _ => true)))

/-- R13, R15: a register write. -/
def execRegisterWrite (m : Master) (addr width : Nat) (v : W32) (s : State) : Out :=
  .next (if wakesLow m addr width v.toNat then
      s.accessWake m addr (some v.toNat) fun s => s.regWrite m addr width v.toNat
    else s.access m addr (some v.toNat) (fun s => s.regWrite m addr width v.toNat) width)

/-! IDLE (R434). -/

/-- R434: a register access that a gated clock held is served. -/
def State.serve (s : State) (a : Access1) : State :=
  match a.v with
  | some v => ({ s with resp := .none } : State).regWrite a.m a.addr a.width v
  | none => ({ s with resp := .none } : State).regRead a.m true a.addr a.width

/-- R434: CCLK runs again 2 µs after an event woke the complex: the event is served, and the accesses that it held
complete. -/
def State.idleWake (s : State) : State :=
  let l := s.pwr.held
  let s := (s.onPwr fun p => { p with st := .active, waking := none, held := [] }).lapFlip
  let s := s.each l State.serve
  s.when (s.pwr.hold == 1) (·.holdBegin)

/-- R434: the wake from IDLE ends. -/
def execIdleWake (s : State) : Out :=
  .next (if s.pwr.st == .idle && s.pwr.waking.isSome then s.idleWake else s)

end Sys2Proof.Machine
end

