-- ==== Sys2Proof/Machine/Resets.lean ====
section
/-!
DEFINITION. The end of a warm reset (R513 to R516), channel reset by register (R518), cold reset (R346, R451, R519, R541)
and the loss of power (R433).
-/
namespace Sys2Proof.Machine

/-! The end of a warm reset (R513, steps 4 to 6). -/

/-- R513: issued work still runs, or records have not left for their rings: a segment, an operation, a slice, a read, a
transfer, a region change, a rebuild of the pool (log entry 62). -/
def State.warmBusy (s : State) : Bool :=
  (s.top.run.any fun r => r.2.isSome) || (s.top.ops.any fun o => o.st != .queued && o.st != .refused) ||
    (s.chs.any fun c => c.2.selftest || match c.2.train with | some t => t.slice | none => false) ||
    (s.ecc.flights.any fun f => f.out.isNone) || (s.dma.chs.any fun d => d.2.act.isSome) || !s.que.reqs.isEmpty || !s.que.csf.isEmpty ||
    s.is Reg.COP_REBUILD_BUSY || s.hdg.chg.any fun c => match c.2 with | some c => c.stage != 0 | none => false
/-- R515: the groups that have passes remaining. -/
def State.openGroups (s : State) : List WGroup := s.top.groups.filter fun g => !g.ended && s.groupBegun g
/-- R492: word 1 of a PASS record. -/
def State.passWord (s : State) (g : WGroup) : Nat :=
  match s.lunProf g.lun with
  | none => 0
  | some p => mkPfa g.lun (lowPlane g.planes) g.block ((groupPages p g.pslc g.group).headD 0) 0 + (g.done % 16) * 2 ^ 40 +
      (passesOf p g.pslc % 16) * 2 ^ 44
/-- R515: the records of a warm reset. -/
def State.warmJournal (s : State) : State :=
  let l := s.openGroups
  let s := s.each l fun s g => s.jNow (s.jLong 2 [s.passWord g])
  s.jNow [s.jShort 7 (sat 255 l.length)]
/-- R515: the groups that have passes remaining go on ahead of all others, and accepted frames of groups that had not begun
are gathered again; a group that a continued one needs is programmed as it stands. -/
def State.gatherAgain (s : State) : State :=
  let old := s.top.groups.filter fun g => !s.groupBegun g
  let fresh := fun (o : Op) => old.any fun g => g.lun == o.lun && g.ord == o.ord
  let pads := fun (f : PFrame) => f.src == .pad && s.inGroup f fun g => old.contains g
  let needs := fun (g : WGroup) => s.top.groups.any fun x => !old.contains x && x.lun == g.lun && x.block == g.block &&
    x.cclass == g.cclass && x.planes == g.planes && x.group + 1 == g.group
  let at0 := s.now + s.rd Reg.TOP_GATHER_TIME
  let s := s.onTop fun t =>
    { t with
      pfs := t.pfs.filter fun f => !pads f
      groups := t.groups.map fun g => if old.contains g then { g with forced := false } else g
      ops := (t.ops.filter fun o => !fresh o).map (fun o => { o with st := if o.st == .refused then .queued else o.st, again := false, tokAge := 0 }) ++
        (t.ops.filter fresh).map fun o => { o with st := .queued, gathering := true, gatherAt := at0, queued := s.now, aged := false }
      rsvV := none
      rsvQ := none }
  s.each (old.filter fun g => needs g || s.groupFull g || s.rd Reg.TOP_GATHER_TIME == 0) fun s g =>
    s.forceOne g
/-- R17, R516, R568: every field takes its Warm value, and the governor puts the budgets in force. A region change that
waits for its lease is withdrawn (R369; log entry 62). -/
def State.warmRegs (s : State) : State :=
  let s := (s.toWarm Reg.all).relive fun s => s
  s.each (s.hdg.chg.filter fun c => c.2.isSome) fun s c =>
    (s.onHdg fun h => { h with chg := tset none h.chg c.1 none }).dropLease .rgnChange [resRgn c.1]
/-- R104, R230: every hardware FIFO and every sequencer is empty; the pairs stand disabled. -/
def State.warmFifos (s : State) : State :=
  let s := s.each (List.range 8) fun s n => s.onChan n fun c => { c with events := [], evHeld := [], phyErrs := [] }
  let s := (s.onMcs fun m => { m with seqs := [] }).onQue fun q => { q with heldSq := [] }
  let s := s.each (List.range 16) fun s n => s.onDmaCh n fun d => { d with shadow := none, queue := [] }
  s.each (List.range 64) fun s k => s.pairSettle k
/-- R513, step 6: the reset has ended. -/
def State.warmEnd (s : State) (cause : Nat) : State :=
  let n := s.sys.removed
  let s := (s.wr Reg.ERR_RST_CAUSE cause).wr Reg.ERR_RST_REMOVED (sat 0xFFFF n)
  let s := if s.is Reg.HLY_STAT_NO_IMAGE then s else s.hollyGo s.actHolly
  let held := s.sys.chResetHeld
  let s := s.onSys fun y => { y with warmRun := none, chResetHeld := [] }
  let s := s.err1 clsContained 0xF 1 0 0 n
  let s := s.each held fun s ch => s.chRst ch
  let s := s.settle.kickAll
  s.when (s.pwr.hold == 1) (·.holdBegin)
/-- R513, steps 4 to 6. -/
def State.warmFinish (s : State) (cause : Nat) : State := s.warmJournal.warmRegs.warmFifos.gatherAgain.warmEnd cause

/-- R515: the issued operations of a warm reset have ended. -/
def execWarmResetDrainDone (s : State) : Out :=
  .next (match s.sys.warmRun with
    | some c => if s.warmBusy then s else s.warmFinish c
    | none => s)

/-! Channel reset (R518). -/

/-- The word of PL_CHn_CTL as it stands; RST reads 0. -/
def State.chCtlWord (s : State) (n : Nat) : Nat :=
  s.regWord ((Reg.blockFlds (0x20000 + 0x1000 * n)).filter fun F => F.addr == 0x20000 + 0x1000 * n)

/-- R518: a write of 1 to PL_CHn_CTL.RST. -/
def execChannelReset (m : Master) (ch : Fin 8) (s : State) : Out :=
  .next (s.access m (0x20000 + 0x1000 * ch.val) (some (s.chCtlWord ch.val + 1)) fun s => s.chRst ch.val)

/-! Loss of power and cold reset. -/

/-- R519, R433: everything is lost but the contents of Yew: what it was about to program or erase is cut (R496). What lies
outside the complex stays. -/
def State.wiped (s : State) : State :=
  let y := s.yCut.yew
  { State.reset with
    pending := s.pending
    delivered := s.delivered
    dram := s.dram
    drawn := s.yCut.drawn
    yew := { words := y.words, badWords := y.badWords } }

/-- R433: the core or the always-on supply is lost: the complex is in OFF. -/
def execLossOfPower (s : State) : Out := .next (s.wiped.onPwr fun p => { p with st := .off })

/-- R464: the Yew copy of the inventory in a bank. -/
def State.invBytes (s : State) (b : Nat) : List Byte :=
  (List.range 264).flatMap fun i => leBytes 8 (s.yWord (yAddr b 289 i))
/-- The copy is erased. -/
def State.invBlank (s : State) (b : Nat) : Bool :=
  (List.range 264).all fun i => s.yWord (yAddr b 289 i) == yErased && !s.yBad (yAddr b 289 i)
/-- A word of the copy is uncorrectable. -/
def State.invTorn (s : State) (b : Nat) : Bool := (List.range 264).any fun i => s.yBad (yAddr b 289 i)
/-- R463, R464: the copy that a cold reset reads: bank 0's, or bank 1's where that is blank or unreadable. -/
def State.invCopy (s : State) : Option (List Byte) :=
  ([0, 1].find? fun b => !s.invBlank b && !s.invTorn b).map s.invBytes
/-- R464: the record of a target in a copy. -/
def targFrom (l : List Byte) : Targ :=
  let luns := leAt l 7 1 % 8
  { id := l.take 6, prof := leAt l 6 1, luns := luns, ppcrc := leAt l 22 2
    geom := [leAt l 8 2, leAt l 10 2, leAt l 12 2, leAt l 14 2, leAt l 16 1, leAt l 17 1, luns] }
/-- R464: the state of a LUN position as the page codes it, read back. -/
def posFrom (c : Nat) : Nat := if c = 2 then 3 else if c = 3 then 2 else c
/-- R462, R464: the inventory as a copy gives it. Nothing of it is found yet. -/
def State.invLoad (s : State) (l : List Byte) : State :=
  let recOf := fun (i : Nat) => (l.drop (64 + 32 * i)).take 32
  s.each (List.range 64) fun s i =>
    let r := recOf i
    let s := s.onSys fun y => { y with targs := tset {} y.targs i (targFrom r) }
    s.each (List.range 4) fun s k =>
      let v := leAt r (18 + k) 1
      let p := posFrom (bits v 0 2)
      let s := s.onSys fun y => { y with luns := tset {} y.luns (4 * i + k) { present := p, report := bits v 2 2 } }
      s.when (p == 3) fun s => s.onTop fun t => { t with retired := t.retired ++ [4 * i + k] }
/-- R310, R340: the numbering that the copy's LUNs had under the cold group shift: that of the records kept in Yew. -/
def State.invNumbers (s : State) : State :=
  let ls := (List.range 256).filter fun l =>
    (s.lunPos l == 1 || s.lunPos l == 3) && (tget {} s.sys.targs (l / 4)).prof != 0xFF
  let n := fun (g l : Nat) => ((tget {} s.sys.targs (l / 4)).geom.getD 3 0 + 2 ^ g - 1) / 2 ^ g
  let g := (((List.range 14).filter (min 13 (s.rd Reg.JNP_CTL_GSHIFT) ≤ ·)).find? fun g =>
    decide ((ls.map (n g)).sum ≤ 16384)).getD 13
  let t := ls.foldl (fun (x : Tab (Option Nat) × Nat) l => (tset none x.1 l (some x.2), x.2 + n g l)) ([], 0)
  s.onJnp fun j => { j with told := t.1, toldG := g }
/-- The inventory and the journal as bring-up finds them in Yew (R463, R491, R520). -/
def State.coldYew (s : State) : State :=
  let s := s.jScan.jDecide
  match s.invCopy with
  | some l => (s.invLoad l).invNumbers
  | none => s.when (s.invTorn 0 || s.invTorn 1) fun s => s.onSys fun y => { y with invBad := true }
/-- R451, R537: a cold reset ends: the straps are sampled, the cause is shown, and the domains whose power is good already
ask for discovery. With FC_HOLDUP_WARN_N low, bring-up stops and DONE is asserted (R541). -/
def State.coldReset (s : State) (r : ColdIn) : State :=
  let s := s.wiped.coldYew
  let v := r.straps.val
  let s := ((s.wr Reg.GLB_STRAP_RB_PU (bits v 0 1)).wr Reg.GLB_STRAP_HU_EN (bits v 1 1)).wr Reg.GLB_STRAP_DOM_SEQ (bits v 2 1)
  let s := s.stagger
  let s := s.wr Reg.ERR_RST_CAUSE (b2n r.byPin)
  let s := s.when (r.warnLow && bit v 1) fun s =>
    (s.setb Reg.PWR_STAT_HU_DONE).onPwr fun p => { p with warn := true, hold := 6 }
  s.each (bitList 4 r.pwrgd.val) fun s k => s.pwrGood k

/-- R451: the complex is reset cold. -/
def execColdReset (r : ColdIn) (s : State) : Out := .next (s.coldReset r)

end Sys2Proof.Machine
end

