-- ==== Sys2Proof/Machine/Sequence.lean ====
section
/-!
DEFINITION. The micro-operations of a channel's sequencer (R204, R210 to R221): each command issues the microword at UPC,
where it is of the named kind. A microword that faults when it is decoded faults whichever kind is named (R227).
-/
namespace Sys2Proof.Machine

/-! Faults and ends. -/

/-- R229, R230: the sequencer of a channel faults at the present microword; `key` names an uncorrectable word, plus 1. -/
def State.fault (s : State) (ch code tcode key : Nat) : State :=
  let s := (s.haltSeq ch (s.seq ch).upc code tcode).post ch { code := evFault, w := code }
  (s.autoRestart ch key).segFaulted ch code
/-- R208: the first uncorrectable word that the fetch reads. -/
def State.badFetch (s : State) (ch : Nat) : Option Nat :=
  (s.fetchKeys ch (s.seq ch).upc).find? fun k => tget 0 s.mcs.csErr k == 2
/-- R204: END: the bus lines are idle, the code and W0 are posted, and the segment has ended. -/
def State.endSeg (s : State) (ch code w0 : Nat) : State :=
  let q := s.seq ch
  let cut := bit q.evs 4
  let s := s.onSeq ch fun q =>
    { q with ce := none, tx := [], run := false, evs := 0, cycles := q.cycles + 1, cle := false, ale := false }
  (s.post ch { code := code, w := w0 }).segEnd ch code w0 q.rx cut
/-- The balls that PIN drives (R210). -/
def State.drivePins (s : State) (ch w : Nat) : State :=
  s.onChan ch fun c =>
    { c with wp := if bit w 1 then bit w 0 else c.wp, eno := if bit w 3 then bit w 2 else c.eno }

/-! Issue. -/

/-- R276: a segment of TRAIN or of the loopback test runs: a missing preamble is a measurement. -/
def State.measuring (s : State) (ch : Nat) : Bool :=
  match tget none s.top.run ch with
  | some g => g.job.isSome && decide (0x18 ≤ g.leg.routine) && decide (g.leg.routine ≤ 0x1B)
  | none => false
/-- What a micro-op does outside its sequencer: POST and PIN (R210), and the PHY's findings on a BURST (R272, R273). -/
def State.microSide (s : State) (ch : Nat) (q : Seq) (w : Nat) (b : BusIn) : State :=
  match mOp w with
  | 0x0C => s.drivePins ch w
  | 0x0D => s.post ch { code := bits w 0 8, w := q.wreg (mW w) }
  | 0x09 =>
    let s := s.when (!b.edgesOk || b.drift) (·.phyErr ch)
    s.when (!bit w 13 && !b.preamble && !s.measuring ch) (·.cherr ch 1)
  | _ => s
/-- R105: a microword that posts waits while the channel event FIFO is full. -/
def State.stalls (s : State) (ch w : Nat) : Bool := (mOp w == 0x01 || mOp w == 0x0D) && s.evFull ch
/-- R221, R222, R227: a microword issues: `w` is what reaches the bus, `q` and `t` the sequencer before it and with its
writes. A fault of its next address is found before it issues, and before an event is taken at its boundary (log entry 61);
it then has no effect. -/
def State.moveOn (s : State) (ch : Nat) (q t : Seq) (w : Nat) (b : BusIn) (kind cond reg target : Nat) (h : Bool) : State :=
  match s.nextAddr ch t kind cond reg target b with
  | .inl code => s.fault ch code 0 0
  | .inr t =>
    let s := (s.onSeq ch fun _ => t).microSide ch q w b
    s.onSeq ch fun t => s.boundary t h
/-- A vertical microword issues. -/
def State.issueVert (s : State) (ch w : Nat) (b : BusIn) : State :=
  let q := s.seq ch
  let o := mOp w
  if s.stalls ch w then s
  else if o = 0x01 then s.endSeg ch (bits w 0 8) (q.wreg 0)
  else
    let e := s.mEff ch q w b
    s.moveOn ch q { q.apply e with cycles := q.cycles + e.cyc } w b (kindOf o) (mCond w) (mW w) (mTarget w)
      (mH w && o != 0x08 && o != 0x09)
/-- A two-level microword issues: both halves read their operands first, and OPA's writes stand (R220). -/
def State.issueTwo (s : State) (ch mw v : Nat) (b : BusIn) : State :=
  let q := s.seq ch
  match s.psel q (bits v 64 32) (bits v 15 3) (bits mw 11 5) with
  | none => s
  | some a =>
    let opb := bits v 32 32
    let ea := s.mEff ch q a b
    let eb := s.mEff ch q opb b
    if s.stalls ch a then s
    else if mOp a = 0x01 then (s.onSeq ch fun q => q.apply eb).endSeg ch (bits a 0 8) (q.wreg 0)
    else
      s.moveOn ch q { (q.apply eb).apply ea with cycles := q.cycles + max 1 ea.cyc } a b (bits v 27 3) (bits v 22 5)
        (bits v 19 3) (if bits v 15 3 = 4 then (bits v 0 15 + bits mw 11 5) % 32768 else bits v 0 15)
        (bit v 18 && mOp a != 0x08 && mOp a != 0x09)
/-- The sequencer runs and is clocked. -/
def State.seqRuns (s : State) (ch : Nat) : Bool := (s.seq ch).run && !(s.seq ch).halt && s.pwr.st == .active
/-- R208: the corrected words of a fetch. -/
def State.fetchWords (s : State) (ch : Nat) : State := s.each (s.fetchKeys ch (s.seq ch).upc) fun s k => s.csCheck k
/-- The microword of the vertical format at UPC issues if it is of the kind OP. -/
def State.micro (s : State) (ch op : Nat) (b : BusIn) : State :=
  if !s.seqRuns ch || s.twoLevel then s
  else match s.badFetch ch with
    | some k => (s.csRepair k).fault ch 7 0 (k + 1)
    | none =>
      let w := s.microword (s.seq ch).upc
      match (s.seq ch).mFault w with
      | some (code, t) => (s.fetchWords ch).fault ch code t 0
      | none => if mOp w = op then (s.fetchWords ch).issueVert ch w b else s
/-- Nothing that the microword takes from the balls. -/
def noBus : BusIn := { bytes := [], edgesOk := true, drift := false, preamble := true, rb := 15, eni := true }

/-! The commands. -/

/-- R210: NOP. -/
def execNop (ch : Fin 8) (s : State) : Out := .next (s.micro ch.val 0x00 noBus)
/-- R204: END. -/
def execEndOp (ch : Fin 8) (s : State) : Out := .next (s.micro ch.val 0x01 noBus)
/-- R210: TRAP. -/
def execTrap (ch : Fin 8) (s : State) : Out := .next (s.micro ch.val 0x02 noBus)
/-- R210: SETIM. -/
def execSetim (ch : Fin 8) (s : State) : Out := .next (s.micro ch.val 0x03 noBus)
/-- R210: CE. -/
def execCe (ch : Fin 8) (s : State) : Out := .next (s.micro ch.val 0x04 noBus)
/-- R210: CMD. -/
def execCmd (ch : Fin 8) (s : State) : Out := .next (s.micro ch.val 0x05 noBus)
/-- R210: ADDR. -/
def execAddr (ch : Fin 8) (s : State) : Out := .next (s.micro ch.val 0x06 noBus)
/-- R210: LDA. -/
def execLda (ch : Fin 8) (s : State) : Out := .next (s.micro ch.val 0x07 noBus)
/-- R210: WAIT. -/
def execWait (ch : Fin 8) (s : State) : Out := .next (s.micro ch.val 0x08 noBus)
/-- R212: BURST. -/
def execBurst (ch : Fin 8) (inp : BusIn) (s : State) : Out :=
  .next (s.micro ch.val 0x09 (fitBus inp))
/-- R210: RDB. -/
def execRdb (ch : Fin 8) (inp : BusIn) (s : State) : Out :=
  .next (s.micro ch.val 0x0A (fitBus inp))
/-- R210: WRB. -/
def execWrb (ch : Fin 8) (s : State) : Out := .next (s.micro ch.val 0x0B noBus)
/-- R210: PIN. -/
def execPin (ch : Fin 8) (s : State) : Out := .next (s.micro ch.val 0x0C noBus)
/-- R210: POST. -/
def execPost (ch : Fin 8) (s : State) : Out := .next (s.micro ch.val 0x0D noBus)
/-- R210: BR. -/
def execBr (ch : Fin 8) (inp : BusIn) (s : State) : Out := .next (s.micro ch.val 0x10 (fitBus inp))
/-- R210: CALL. -/
def execCall (ch : Fin 8) (inp : BusIn) (s : State) : Out := .next (s.micro ch.val 0x11 (fitBus inp))
/-- R210: RET. -/
def execRet (ch : Fin 8) (inp : BusIn) (s : State) : Out := .next (s.micro ch.val 0x12 (fitBus inp))
/-- R210: DJNZ. -/
def execDjnz (ch : Fin 8) (s : State) : Out := .next (s.micro ch.val 0x13 noBus)
/-- R210: LDI. -/
def execLdi (ch : Fin 8) (s : State) : Out := .next (s.micro ch.val 0x18 noBus)
/-- R211: ALU. -/
def execAlu (ch : Fin 8) (s : State) : Out := .next (s.micro ch.val 0x19 noBus)
/-- R213: MOVS. -/
def execMovs (ch : Fin 8) (s : State) : Out := .next (s.micro ch.val 0x1A noBus)

/-- R217 to R220: the two-level microword at UPC issues. -/
def State.microTwo (s : State) (ch : Nat) (b : BusIn) : State :=
  if !s.seqRuns ch || !s.twoLevel then s
  else match s.badFetch ch with
    | some k => (s.csRepair k).fault ch 7 0 (k + 1)
    | none =>
      let mw := s.microword (s.seq ch).upc
      let v := s.nanoword mw
      let q := s.seq ch
      match s.nanoFault q v (bits mw 11 5) with
      | some (code, t) => (s.fetchWords ch).fault ch code t 0
      | none => (s.fetchWords ch).issueTwo ch mw v b

/-- R220: a two-level microword. -/
def execTwolevelMicroword (ch : Fin 8) (inp : BusIn) (s : State) : Out :=
  .next (s.microTwo ch.val (fitBus inp))

/-- R227, R231: the segment watchdog expires: the sequencer stands at a boundary, where SEG_TIME takes effect. -/
def execSegmentWatchdogExpiry (ch : Fin 8) (s : State) : Out :=
  .next (if s.seqRuns ch.val then s.fault ch.val 8 0 0 else s)

end Sys2Proof.Machine
end

