-- ==== Sys2Proof/Machine/Dispatch.lean ====
section
/-!
DEFINITION. The table of commands: one arm for each, calling its meaning.
-/
namespace Sys2Proof.Machine

/-- The effect of a command on everything but the queue. -/
def exec (i : Instr) (s : State) : Host.Outcome State Fault Refusal :=
  match i with
  | .registerWrite m addr width v => Sys2Proof.Machine.execRegisterWrite m addr width v s
  | .queDoorbellSqtail m k v => Sys2Proof.Machine.execQueDoorbellSqtail m k v s
  | .queDoorbellCqhead m k v => Sys2Proof.Machine.execQueDoorbellCqhead m k v s
  | .queEnable m k v => Sys2Proof.Machine.execQueEnable m k v s
  | .queDisable m k v => Sys2Proof.Machine.execQueDisable m k v s
  | .packetFetch => Sys2Proof.Machine.execPacketFetch s
  | .read tag => Sys2Proof.Machine.execRead tag s
  | .readRaw tag => Sys2Proof.Machine.execReadRaw tag s
  | .program tag slots => Sys2Proof.Machine.execProgram tag slots s
  | .programAtomic tag slots => Sys2Proof.Machine.execProgramAtomic tag slots s
  | .erase tag => Sys2Proof.Machine.execErase tag s
  | .copy tag slots => Sys2Proof.Machine.execCopy tag slots s
  | .trim tag => Sys2Proof.Machine.execTrim tag s
  | .flush tag => Sys2Proof.Machine.execFlush tag s
  | .bufAlloc tag => Sys2Proof.Machine.execBufAlloc tag s
  | .bufShare tag => Sys2Proof.Machine.execBufShare tag s
  | .bufFree tag => Sys2Proof.Machine.execBufFree tag s
  | .dmaMove tag => Sys2Proof.Machine.execDmaMove tag s
  | .mapPin tag => Sys2Proof.Machine.execMapPin tag s
  | .mapSync tag => Sys2Proof.Machine.execMapSync tag s
  | .scrubStore tag => Sys2Proof.Machine.execScrubStore tag s
  | .patrol tag => Sys2Proof.Machine.execPatrol tag s
  | .train tag => Sys2Proof.Machine.execTrain tag s
  | .calib tag => Sys2Proof.Machine.execCalib tag s
  | .zqcal tag => Sys2Proof.Machine.execZqcal tag s
  | .selftestStore tag => Sys2Proof.Machine.execSelftestStore tag s
  | .selftestChannel tag => Sys2Proof.Machine.execSelftestChannel tag s
  | .powerActive tag => Sys2Proof.Machine.execPowerActive tag s
  | .powerNap tag => Sys2Proof.Machine.execPowerNap tag s
  | .powerDormant tag => Sys2Proof.Machine.execPowerDormant tag s
  | .abort tag => Sys2Proof.Machine.execAbort tag s
  | .attach tag => Sys2Proof.Machine.execAttach tag s
  | .detach tag => Sys2Proof.Machine.execDetach tag s
  | .discover tag => Sys2Proof.Machine.execDiscover tag s
  | .setPolicy tag => Sys2Proof.Machine.execSetPolicy tag s
  | .getInfoIdentity tag => Sys2Proof.Machine.execGetInfoIdentity tag s
  | .getInfoInventory tag => Sys2Proof.Machine.execGetInfoInventory tag s
  | .getInfoTorn tag => Sys2Proof.Machine.execGetInfoTorn tag s
  | .getInfoHealth tag => Sys2Proof.Machine.execGetInfoHealth tag s
  | .getInfoEnergy tag => Sys2Proof.Machine.execGetInfoEnergy tag s
  | .getInfoPolicy tag => Sys2Proof.Machine.execGetInfoPolicy tag s
  | .getInfoParked tag => Sys2Proof.Machine.execGetInfoParked tag s
  | .activateHolly tag => Sys2Proof.Machine.execActivateHolly tag s
  | .activateEspalier tag => Sys2Proof.Machine.execActivateEspalier tag s
  | .completionRequestGrant => Sys2Proof.Machine.execCompletionRequestGrant s
  | .completionRecordWrite => Sys2Proof.Machine.execCompletionRecordWrite s
  | .fifoPointerMismatch kind inst => Sys2Proof.Machine.execFifoPointerMismatch kind inst s
  | .mapPageReadDone key => Sys2Proof.Machine.execMapPageReadDone key s
  | .mapPageZeroFillDone key => Sys2Proof.Machine.execMapPageZeroFillDone key s
  | .mapPageInstall key data => Sys2Proof.Machine.execMapPageInstall key data s
  | .mapWritebackStart key slot => Sys2Proof.Machine.execMapWritebackStart key slot s
  | .mapWritebackDone key => Sys2Proof.Machine.execMapWritebackDone key s
  | .mapRegionLoad m v => Sys2Proof.Machine.execMapRegionLoad m v s
  | .mapEnableRequest v => Sys2Proof.Machine.execMapEnableRequest v s
  | .mapEnableSet v r => Sys2Proof.Machine.execMapEnableSet v r s
  | .opStart lun => Sys2Proof.Machine.execOpStart lun s
  | .tokenEvaluate => Sys2Proof.Machine.execTokenEvaluate s
  | .tokenAnswer op => Sys2Proof.Machine.execTokenAnswer op s
  | .statusPollDue lun => Sys2Proof.Machine.execStatusPollDue lun s
  | .gatherTimeout set => Sys2Proof.Machine.execGatherTimeout set s
  | .writeAgeExpiry op => Sys2Proof.Machine.execWriteAgeExpiry op s
  | .maintAgeExpiry op => Sys2Proof.Machine.execMaintAgeExpiry op s
  | .busAgeExpiry ch op => Sys2Proof.Machine.execBusAgeExpiry ch op s
  | .tokenAgeExpiry op => Sys2Proof.Machine.execTokenAgeExpiry op s
  | .suspendStart lun => Sys2Proof.Machine.execSuspendStart lun s
  | .resumeDue lun => Sys2Proof.Machine.execResumeDue lun s
  | .suspendWindowExpiry lun => Sys2Proof.Machine.execSuspendWindowExpiry lun s
  | .arrayWatchdogExpiry lun => Sys2Proof.Machine.execArrayWatchdogExpiry lun s
  | .leaseGrant asked => Sys2Proof.Machine.execLeaseGrant asked s
  | .lunRetirementEffect lun => Sys2Proof.Machine.execLunRetirementEffect lun s
  | .nop ch => Sys2Proof.Machine.execNop ch s
  | .endOp ch => Sys2Proof.Machine.execEndOp ch s
  | .trap ch => Sys2Proof.Machine.execTrap ch s
  | .setim ch => Sys2Proof.Machine.execSetim ch s
  | .ce ch => Sys2Proof.Machine.execCe ch s
  | .cmd ch => Sys2Proof.Machine.execCmd ch s
  | .addr ch => Sys2Proof.Machine.execAddr ch s
  | .lda ch => Sys2Proof.Machine.execLda ch s
  | .wait ch => Sys2Proof.Machine.execWait ch s
  | .burst ch inp => Sys2Proof.Machine.execBurst ch inp s
  | .rdb ch inp => Sys2Proof.Machine.execRdb ch inp s
  | .wrb ch => Sys2Proof.Machine.execWrb ch s
  | .pin ch => Sys2Proof.Machine.execPin ch s
  | .post ch => Sys2Proof.Machine.execPost ch s
  | .br ch inp => Sys2Proof.Machine.execBr ch inp s
  | .call ch inp => Sys2Proof.Machine.execCall ch inp s
  | .ret ch inp => Sys2Proof.Machine.execRet ch inp s
  | .djnz ch => Sys2Proof.Machine.execDjnz ch s
  | .ldi ch => Sys2Proof.Machine.execLdi ch s
  | .alu ch => Sys2Proof.Machine.execAlu ch s
  | .movs ch => Sys2Proof.Machine.execMovs ch s
  | .twolevelMicroword ch inp => Sys2Proof.Machine.execTwolevelMicroword ch inp s
  | .segmentWatchdogExpiry ch => Sys2Proof.Machine.execSegmentWatchdogExpiry ch s
  | .mcsFaultClear m ch v => Sys2Proof.Machine.execMcsFaultClear m ch v s
  | .mcsLoadEn m v => Sys2Proof.Machine.execMcsLoadEn m v s
  | .csWindowWrite m off v => Sys2Proof.Machine.execCsWindowWrite m off v s
  | .nanoAddrWrite m v => Sys2Proof.Machine.execNanoAddrWrite m v s
  | .nanoCommit m v => Sys2Proof.Machine.execNanoCommit m v s
  | .espalierLoadDone => Sys2Proof.Machine.execEspalierLoadDone s
  | .cherrDllUnlock ch => Sys2Proof.Machine.execCherrDllUnlock ch s
  | .pwrLoss dom => Sys2Proof.Machine.execPwrLoss dom s
  | .phyRelockDone ch => Sys2Proof.Machine.execPhyRelockDone ch s
  | .phyZqCalibration wing => Sys2Proof.Machine.execPhyZqCalibration wing s
  | .trainSliceStart ch => Sys2Proof.Machine.execTrainSliceStart ch s
  | .trainSliceEnd ch r => Sys2Proof.Machine.execTrainSliceEnd ch r s
  | .zqcalSlice ch failed => Sys2Proof.Machine.execZqcalSlice ch failed s
  | .selftestChannelDone ch result => Sys2Proof.Machine.execSelftestChannelDone ch result s
  | .channelReset m ch => Sys2Proof.Machine.execChannelReset m ch s
  | .channelResetResume ch => Sys2Proof.Machine.execChannelResetResume ch s
  | .hardDecodeDone ch r => Sys2Proof.Machine.execHardDecodeDone ch r s
  | .softSampleReserve wing => Sys2Proof.Machine.execSoftSampleReserve wing s
  | .softDecodeDone wing r => Sys2Proof.Machine.execSoftDecodeDone wing r s
  | .xorBuild wing desc => Sys2Proof.Machine.execXorBuild wing desc s
  | .buildDone wing slot => Sys2Proof.Machine.execBuildDone wing slot s
  | .rebuildAnswer wing slot desc => Sys2Proof.Machine.execRebuildAnswer wing slot desc s
  | .rebuildAnswerTimeout wing slot => Sys2Proof.Machine.execRebuildAnswerTimeout wing slot s
  | .xorMemberArrive wing slot entry => Sys2Proof.Machine.execXorMemberArrive wing slot entry s
  | .calibDone ch => Sys2Proof.Machine.execCalibDone ch s
  | .patrolDone lun => Sys2Proof.Machine.execPatrolDone lun s
  | .jnpCheckpointPeriod => Sys2Proof.Machine.execJnpCheckpointPeriod s
  | .jnpCkptNow m v => Sys2Proof.Machine.execJnpCkptNow m v s
  | .jnpGrpClrHealth m v => Sys2Proof.Machine.execJnpGrpClrHealth m v s
  | .jnpGrpClrWear m v => Sys2Proof.Machine.execJnpGrpClrWear m v s
  | .jnpGrpClrTrack m v => Sys2Proof.Machine.execJnpGrpClrTrack m v s
  | .jnpTableEnable m v => Sys2Proof.Machine.execJnpTableEnable m v s
  | .epochTick => Sys2Proof.Machine.execEpochTick s
  | .regionChangeRequest m k v => Sys2Proof.Machine.execRegionChangeRequest m k v s
  | .regionReinitDone k => Sys2Proof.Machine.execRegionReinitDone k s
  | .poolWithdrawDone k => Sys2Proof.Machine.execPoolWithdrawDone k s
  | .gorseLineRead => Sys2Proof.Machine.execGorseLineRead s
  | .gorseRewrite => Sys2Proof.Machine.execGorseRewrite s
  | .scrubStoreDone k => Sys2Proof.Machine.execScrubStoreDone k s
  | .selftestStoreDone k result => Sys2Proof.Machine.execSelftestStoreDone k result s
  | .bufferGrant => Sys2Proof.Machine.execBufferGrant s
  | .bufferFree req handle => Sys2Proof.Machine.execBufferFree req handle s
  | .poolPop => Sys2Proof.Machine.execPoolPop s
  | .poolRebuild m v => Sys2Proof.Machine.execPoolRebuild m v s
  | .poolRebuildDone => Sys2Proof.Machine.execPoolRebuildDone s
  | .reserveWrite m k v => Sys2Proof.Machine.execReserveWrite m k v s
  | .dmaShadowLoad n => Sys2Proof.Machine.execDmaShadowLoad n s
  | .dmaTransferStart n => Sys2Proof.Machine.execDmaTransferStart n s
  | .paceLevelReport port q level => Sys2Proof.Machine.execPaceLevelReport port q level s
  | .dmaTransferEnd n r => Sys2Proof.Machine.execDmaTransferEnd n r s
  | .dmaRecordWrite n => Sys2Proof.Machine.execDmaRecordWrite n s
  | .dcqDoorbell m w v => Sys2Proof.Machine.execDcqDoorbell m w v s
  | .dcqEnable m w v => Sys2Proof.Machine.execDcqEnable m w v s
  | .dcqDisable m w v => Sys2Proof.Machine.execDcqDisable m w v s
  | .budgetWrite m v => Sys2Proof.Machine.execBudgetWrite m v s
  | .ceilWrite m v => Sys2Proof.Machine.execCeilWrite m v s
  | .forecastWord act w => Sys2Proof.Machine.execForecastWord act w s
  | .forecastWindowBegin act => Sys2Proof.Machine.execForecastWindowBegin act s
  | .forecastWindowEnd act => Sys2Proof.Machine.execForecastWindowEnd act s
  | .diodeSampleTimer => Sys2Proof.Machine.execDiodeSampleTimer s
  | .diodeConversionDone r => Sys2Proof.Machine.execDiodeConversionDone r s
  | .threshWrite m v => Sys2Proof.Machine.execThreshWrite m v s
  | .loadWindowClose => Sys2Proof.Machine.execLoadWindowClose s
  | .idleEntry => Sys2Proof.Machine.execIdleEntry s
  | .idleWake => Sys2Proof.Machine.execIdleWake s
  | .powerEntryQuiescent => Sys2Proof.Machine.execPowerEntryQuiescent s
  | .powerEntryLimitExpiry => Sys2Proof.Machine.execPowerEntryLimitExpiry s
  | .pwrWakeWrite m => Sys2Proof.Machine.execPwrWakeWrite m s
  | .napWakeDone => Sys2Proof.Machine.execNapWakeDone s
  | .coreSupplyGood => Sys2Proof.Machine.execCoreSupplyGood s
  | .cclkLocked => Sys2Proof.Machine.execCclkLocked s
  | .economySegmentsEnded => Sys2Proof.Machine.execEconomySegmentsEnded s
  | .voltageAck => Sys2Proof.Machine.execVoltageAck s
  | .cclkRelockDone => Sys2Proof.Machine.execCclkRelockDone s
  | .pwrDomEnable m v => Sys2Proof.Machine.execPwrDomEnable m v s
  | .pwrDomDisable m v => Sys2Proof.Machine.execPwrDomDisable m v s
  | .pgTimeout dom => Sys2Proof.Machine.execPgTimeout dom s
  | .pwrgdRise dom => Sys2Proof.Machine.execPwrgdRise dom s
  | .holdupWarnAssert => Sys2Proof.Machine.execHoldupWarnAssert s
  | .holdupDrainDone => Sys2Proof.Machine.execHoldupDrainDone s
  | .holdupBandPassDone r => Sys2Proof.Machine.execHoldupBandPassDone r s
  | .holdupRecordsDone => Sys2Proof.Machine.execHoldupRecordsDone s
  | .holdupWarnDeassert => Sys2Proof.Machine.execHoldupWarnDeassert s
  | .coldReset r => Sys2Proof.Machine.execColdReset r s
  | .warmRst m => Sys2Proof.Machine.execWarmRst m s
  | .warmReq => Sys2Proof.Machine.execWarmReq s
  | .warmResetBegin => Sys2Proof.Machine.execWarmResetBegin s
  | .warmResetDrainDone => Sys2Proof.Machine.execWarmResetDrainDone s
  | .discoveryStart ch eni => Sys2Proof.Machine.execDiscoveryStart ch eni s
  | .discoveryEnd ch r => Sys2Proof.Machine.execDiscoveryEnd ch r s
  | .tornScanDone r => Sys2Proof.Machine.execTornScanDone r s
  | .portLinkDown port => Sys2Proof.Machine.execPortLinkDown port s
  | .portLinkUp port => Sys2Proof.Machine.execPortLinkUp port s
  | .yewKeyWrite m v => Sys2Proof.Machine.execYewKeyWrite m v s
  | .yewCmdProgram m v => Sys2Proof.Machine.execYewCmdProgram m v s
  | .yewCmdErase m v => Sys2Proof.Machine.execYewCmdErase m v s
  | .yewCmdSuspend m v => Sys2Proof.Machine.execYewCmdSuspend m v s
  | .yewCmdResume m v => Sys2Proof.Machine.execYewCmdResume m v s
  | .yewAddrWrite m v => Sys2Proof.Machine.execYewAddrWrite m v s
  | .yewDataLoWrite m v => Sys2Proof.Machine.execYewDataLoWrite m v s
  | .yewDataHiWrite m v => Sys2Proof.Machine.execYewDataHiWrite m v s
  | .yewSequenceTimeout => Sys2Proof.Machine.execYewSequenceTimeout s
  | .yewRdataRead m => Sys2Proof.Machine.execYewRdataRead m s
  | .yewSuspendEffect bank => Sys2Proof.Machine.execYewSuspendEffect bank s
  | .yewProgramPulseDone bank verified => Sys2Proof.Machine.execYewProgramPulseDone bank verified s
  | .yewErasePulseDone bank blank => Sys2Proof.Machine.execYewErasePulseDone bank blank s
  | .hlyWdogKick => Sys2Proof.Machine.execHlyWdogKick s
  | .hlyWdogExpiry => Sys2Proof.Machine.execHlyWdogExpiry s
  | .hlyRestart m => Sys2Proof.Machine.execHlyRestart m s
  | .hlyQuiesced => Sys2Proof.Machine.execHlyQuiesced s
  | .hlyReady => Sys2Proof.Machine.execHlyReady s
  | .activateDrainTimeout => Sys2Proof.Machine.execActivateDrainTimeout s
  | .activateStartTimeout => Sys2Proof.Machine.execActivateStartTimeout s
  | .errorRecordAccept => Sys2Proof.Machine.execErrorRecordAccept s
  | .errClear m v => Sys2Proof.Machine.execErrClear m v s
  | .errHeadWrite m v => Sys2Proof.Machine.execErrHeadWrite m v s
  | .glbTimeLoRead m => Sys2Proof.Machine.execGlbTimeLoRead m s
  | .dbgLock m v => Sys2Proof.Machine.execDbgLock m v s
  | .dbgInjArm m v => Sys2Proof.Machine.execDbgInjArm m v s
  | .dbgForceWrite m v => Sys2Proof.Machine.execDbgForceWrite m v s
  | .lossOfPower => Sys2Proof.Machine.execLossOfPower s
  | .rcRegisterRead m addr width => Sys2Proof.Machine.execRcRegisterRead m addr width s
  | .portBufferWrite port addr data => Sys2Proof.Machine.execPortBufferWrite port addr data s
  | .portStoreRead port addr len => Sys2Proof.Machine.execPortStoreRead port addr len s
  | .dramReadResponse id data => Sys2Proof.Machine.execDramReadResponse id data s
  | .yewSliceExpiry bank => Sys2Proof.Machine.execYewSliceExpiry bank s
  | .checkPassDone => Sys2Proof.Machine.execCheckPassDone s
  | .stagingBufferFilled ch => Sys2Proof.Machine.execStagingBufferFilled ch s

end Sys2Proof.Machine
end

