-- ==== Sys2Proof/Machine/Step.lean ====
section
/-!
DEFINITION. One step: the command at the front of the queue, or, on an empty queue, one tick of the timestamp
counter.
-/
namespace Sys2Proof.Machine

/-- DESIGN CHOICE (log entry 2): on an empty queue one ACLK tick passes (R556), in which Topiary serves the channel event
FIFOs while CCLK runs (R226); in OFF the counter does not run (R433). -/
def tick (s : State) : State :=
  if s.pwr.st == .off then s
  else { s.when (s.pwr.st == .active) State.evServeAll with aclk := s.aclk + 1 }

/-- One step. -/
def step (s : State) : Host.Outcome State Fault Refusal :=
  match s.pending with
  | [] => .next (tick s)
  | c :: rest => exec c { s with pending := rest }

/-- The state with the command that a word spells at the front of its queue. -/
def State.withFetchWord (s : State) (nbits w : Nat) : State :=
  match decodeTableWord nbits w with
  | some c => { s with pending := c :: s.pending }
  | none => s

end Sys2Proof.Machine
end

