-- ==== Sys2Proof/Safety.lean ====
section
/-!
DEFINITION. What a safe run is, and the terms in which statements about the machine are made: the parts of the state that
a command can reach, the canonical form of the state, the register accesses that are served, and what it is for a command
packet to complete.
-/
namespace Sys2Proof.Machine

/-- The outcome is a next state. -/
def Out.isNext : Out → Bool
  | .next _ => true
  | .fault _ => false
  | .refused _ => false

/-- A run of n steps from a state answers a next state. -/
def SafeFor (n : Nat) (s : State) : Prop := Out.isNext (Sys2Proof.core.run n s) = true

/-! The parts of the state. -/

/-- A part of the state. `store` is the bytes of the central store alone, `hdg` everything the central store holds. -/
inductive Part where
  | regs | locks | aclk | drawn | resp | delivered | dram | err | que | hdg | store | cop | map | top | mcs | chs | ecc | jnp | dma | box | yew | hly | pwr | sys
deriving DecidableEq, Repr

/-- Every part but some. -/
def Part.allBut (l : List Part) : List Part :=
  [.regs, .locks, .aclk, .drawn, .resp, .delivered, .dram, .err, .que, .hdg, .store, .cop, .map, .top, .mcs, .chs, .ecc, .jnp, .dma, .box, .yew, .hly, .pwr, .sys].filter fun p => !l.contains p

/-- The two states agree in a part. -/
def Part.Same : Part → State → State → Prop
  | .regs, s, t => t.regs = s.regs
  | .locks, s, t => t.locks = s.locks
  | .aclk, s, t => t.aclk = s.aclk
  | .drawn, s, t => t.drawn = s.drawn
  | .resp, s, t => t.resp = s.resp
  | .delivered, s, t => t.delivered = s.delivered
  | .dram, s, t => t.dram = s.dram
  | .err, s, t => t.err = s.err
  | .que, s, t => t.que = s.que
  | .hdg, s, t => t.hdg = s.hdg
  | .store, s, t => t.hdg.mem = s.hdg.mem ∧ t.hdg.zeroed = s.hdg.zeroed ∧ t.hdg.undef = s.hdg.undef
  | .cop, s, t => t.cop = s.cop
  | .map, s, t => t.map = s.map
  | .top, s, t => t.top = s.top
  | .mcs, s, t => t.mcs = s.mcs
  | .chs, s, t => t.chs = s.chs
  | .ecc, s, t => t.ecc = s.ecc
  | .jnp, s, t => t.jnp = s.jnp
  | .dma, s, t => t.dma = s.dma
  | .box, s, t => t.box = s.box
  | .yew, s, t => t.yew = s.yew
  | .hly, s, t => t.hly = s.hly
  | .pwr, s, t => t.pwr = s.pwr
  | .sys, s, t => t.sys = s.sys

/-- The parts of the state that a command may change: what the rules of its family let it reach, with what they let go
on in its wake. -/
def reach : Instr → List Part
  | .registerWrite _ _ _ _ => Part.allBut [.aclk]
  | .queDoorbellSqtail _ _ _ => [.regs, .resp, .err, .que, .pwr]
  | .queDoorbellCqhead _ _ _ => [.regs, .resp, .err, .que, .pwr]
  | .queEnable _ _ _ => [.regs, .resp, .que, .pwr]
  | .queDisable _ _ _ => [.regs, .resp, .que, .pwr]
  | .packetFetch => [.regs, .drawn, .err, .que, .sys]
  | .read _ => Part.allBut [.locks, .aclk, .resp, .dram, .dma, .pwr]
  | .readRaw _ => Part.allBut [.locks, .aclk, .resp, .dram, .dma, .pwr]
  | .program _ _ => Part.allBut [.locks, .aclk, .resp, .dram, .dma, .pwr]
  | .programAtomic _ _ => Part.allBut [.locks, .aclk, .resp, .dram, .dma, .pwr]
  | .erase _ => [.regs, .que, .top, .sys]
  | .copy _ _ => Part.allBut [.locks, .aclk, .resp, .dram, .dma, .pwr]
  | .trim _ => Part.allBut [.locks, .aclk, .resp, .dram, .dma, .pwr]
  | .flush _ => Part.allBut [.locks, .aclk, .resp, .dram, .dma, .pwr]
  | .bufAlloc _ => [.regs, .que, .cop, .sys]
  | .bufShare _ => [.regs, .drawn, .err, .que, .cop, .sys]
  | .bufFree _ => [.regs, .drawn, .err, .que, .hdg, .store, .cop, .sys]
  | .dmaMove _ => [.regs, .drawn, .err, .que, .dma, .sys]
  | .mapPin _ => Part.allBut [.locks, .aclk, .resp, .dram, .dma, .pwr]
  | .mapSync _ => Part.allBut [.locks, .aclk, .resp, .dram, .dma, .pwr]
  | .scrubStore _ => [.regs, .que, .top, .hly, .sys]
  | .patrol _ => [.regs, .que, .top, .hly, .sys]
  | .train _ => [.regs, .que, .top, .hly, .sys]
  | .calib _ => [.regs, .que, .top, .hly, .sys]
  | .zqcal _ => [.regs, .que, .top, .hly, .sys]
  | .selftestStore _ => [.regs, .que, .top, .hly, .sys]
  | .selftestChannel _ => [.regs, .que, .top, .hly, .sys]
  | .powerActive _ => [.regs, .que, .pwr, .sys]
  | .powerNap _ => [.regs, .que, .pwr, .sys]
  | .powerDormant _ => [.regs, .que, .pwr, .sys]
  | .abort _ => Part.allBut [.locks, .aclk, .resp]
  | .attach _ => [.regs, .que, .cop, .hly, .sys]
  | .detach _ => Part.allBut [.locks, .aclk, .resp]
  | .discover _ => [.regs, .que, .top, .hly, .sys]
  | .setPolicy _ => [.regs, .que, .top, .yew, .hly, .sys]
  | .getInfoIdentity _ => [.regs, .err, .que, .hdg, .store, .hly, .sys]
  | .getInfoInventory _ => [.regs, .err, .que, .hdg, .store, .hly, .sys]
  | .getInfoTorn _ => [.regs, .err, .que, .hdg, .store, .hly, .sys]
  | .getInfoHealth _ => [.regs, .drawn, .err, .que, .hdg, .store, .jnp, .hly, .sys]
  | .getInfoEnergy _ => [.regs, .err, .que, .hdg, .store, .hly, .sys]
  | .getInfoPolicy _ => [.regs, .err, .que, .hdg, .store, .hly, .sys]
  | .getInfoParked _ => [.regs, .err, .que, .hdg, .store, .hly, .sys]
  | .activateHolly _ => [.regs, .que, .hly, .sys]
  | .activateEspalier _ => [.regs, .que, .hly, .sys]
  | .completionRequestGrant => [.regs, .que, .dma]
  | .completionRecordWrite => Part.allBut [.locks, .aclk, .drawn, .resp, .delivered, .yew]
  | .fifoPointerMismatch _ _ => Part.allBut [.locks, .aclk, .resp, .dram, .pwr]
  | .mapPageReadDone _ => Part.allBut [.locks, .aclk, .resp, .dram, .dma, .pwr]
  | .mapPageZeroFillDone _ => Part.allBut [.locks, .aclk, .resp, .dram, .dma, .pwr]
  | .mapPageInstall _ _ => Part.allBut [.locks, .aclk, .resp, .dram, .dma, .pwr]
  | .mapWritebackStart _ _ => [.regs, .drawn, .err, .map, .top, .pwr]
  | .mapWritebackDone _ => Part.allBut [.locks, .aclk, .resp, .dram, .dma, .pwr]
  | .mapRegionLoad _ _ => Part.allBut [.locks, .aclk, .dram, .dma]
  | .mapEnableRequest _ => Part.allBut [.locks, .aclk, .dram, .dma]
  | .mapEnableSet _ _ => Part.allBut [.locks, .aclk, .dram, .dma]
  | .opStart _ => Part.allBut [.locks, .aclk, .resp, .dram, .dma, .pwr]
  | .tokenEvaluate => Part.allBut [.locks, .aclk, .resp, .dram, .dma, .pwr]
  | .tokenAnswer _ => Part.allBut [.locks, .aclk, .resp, .dram, .dma, .pwr]
  | .statusPollDue _ => [.regs, .err, .top, .mcs, .chs, .ecc, .box]
  | .gatherTimeout _ => [.regs, .top]
  | .writeAgeExpiry _ => [.top]
  | .maintAgeExpiry _ => [.top]
  | .busAgeExpiry _ _ => [.top, .mcs]
  | .tokenAgeExpiry _ => [.top]
  | .suspendStart _ => [.regs, .err, .top, .mcs, .chs, .ecc, .box]
  | .resumeDue _ => [.top, .box]
  | .suspendWindowExpiry _ => [.top, .box]
  | .arrayWatchdogExpiry _ => Part.allBut [.locks, .aclk, .resp, .dram, .dma, .pwr]
  | .leaseGrant _ => Part.allBut [.locks, .aclk, .resp, .dram, .dma, .pwr]
  | .lunRetirementEffect _ => Part.allBut [.locks, .aclk, .resp, .dram, .dma, .pwr]
  | .nop _ => Part.allBut [.locks, .aclk, .resp, .dram, .dma]
  | .endOp _ => Part.allBut [.locks, .aclk, .resp, .dram, .dma]
  | .trap _ => Part.allBut [.locks, .aclk, .resp, .dram, .dma]
  | .setim _ => Part.allBut [.locks, .aclk, .resp, .dram, .dma]
  | .ce _ => Part.allBut [.locks, .aclk, .resp, .dram, .dma]
  | .cmd _ => Part.allBut [.locks, .aclk, .resp, .dram, .dma]
  | .addr _ => Part.allBut [.locks, .aclk, .resp, .dram, .dma]
  | .lda _ => Part.allBut [.locks, .aclk, .resp, .dram, .dma]
  | .wait _ => Part.allBut [.locks, .aclk, .resp, .dram, .dma]
  | .burst _ _ => Part.allBut [.locks, .aclk, .resp, .dram, .dma]
  | .rdb _ _ => Part.allBut [.locks, .aclk, .resp, .dram, .dma]
  | .wrb _ => Part.allBut [.locks, .aclk, .resp, .dram, .dma]
  | .pin _ => Part.allBut [.locks, .aclk, .resp, .dram, .dma]
  | .post _ => Part.allBut [.locks, .aclk, .resp, .dram, .dma]
  | .br _ _ => Part.allBut [.locks, .aclk, .resp, .dram, .dma]
  | .call _ _ => Part.allBut [.locks, .aclk, .resp, .dram, .dma]
  | .ret _ _ => Part.allBut [.locks, .aclk, .resp, .dram, .dma]
  | .djnz _ => Part.allBut [.locks, .aclk, .resp, .dram, .dma]
  | .ldi _ => Part.allBut [.locks, .aclk, .resp, .dram, .dma]
  | .alu _ => Part.allBut [.locks, .aclk, .resp, .dram, .dma]
  | .movs _ => Part.allBut [.locks, .aclk, .resp, .dram, .dma]
  | .twolevelMicroword _ _ => Part.allBut [.locks, .aclk, .resp, .dram, .dma]
  | .segmentWatchdogExpiry _ => Part.allBut [.locks, .aclk, .resp, .dram, .dma]
  | .mcsFaultClear _ _ _ => [.regs, .resp, .err, .top, .mcs, .chs, .ecc, .box, .pwr]
  | .mcsLoadEn _ _ => [.regs, .resp, .err, .top, .mcs, .chs, .ecc, .box, .pwr]
  | .csWindowWrite _ _ _ => [.regs, .resp, .err, .mcs, .pwr]
  | .nanoAddrWrite _ _ => [.regs, .resp, .pwr]
  | .nanoCommit _ _ => [.regs, .resp, .mcs, .pwr]
  | .espalierLoadDone => Part.allBut [.locks, .aclk, .drawn, .resp, .delivered, .dram, .dma]
  | .cherrDllUnlock _ => Part.allBut [.locks, .aclk, .resp, .dram, .dma]
  | .pwrLoss _ => Part.allBut [.locks, .aclk, .resp, .dram, .dma]
  | .phyRelockDone _ => Part.allBut [.locks, .aclk, .resp, .dram, .dma]
  | .phyZqCalibration _ => [.drawn, .chs, .box]
  | .trainSliceStart _ => [.regs, .err, .que, .top, .mcs, .chs, .ecc, .box, .hly, .sys]
  | .trainSliceEnd _ _ => Part.allBut [.locks, .aclk, .resp, .dram, .dma]
  | .zqcalSlice _ _ => Part.allBut [.locks, .aclk, .resp, .dram, .dma]
  | .selftestChannelDone _ _ => Part.allBut [.locks, .aclk, .resp, .dram, .dma]
  | .channelReset _ _ => Part.allBut [.locks, .aclk, .dram, .dma]
  | .channelResetResume _ => Part.allBut [.locks, .aclk, .resp, .dram, .dma]
  | .hardDecodeDone _ _ => Part.allBut [.locks, .aclk, .resp, .dram, .dma, .pwr]
  | .softSampleReserve _ => [.regs, .top, .ecc]
  | .softDecodeDone _ _ => Part.allBut [.locks, .aclk, .resp, .dram, .dma, .pwr]
  | .xorBuild _ _ => Part.allBut [.locks, .aclk, .resp, .dram, .dma, .pwr]
  | .buildDone _ _ => Part.allBut [.locks, .aclk, .resp, .dram, .dma, .pwr]
  | .rebuildAnswer _ _ _ => Part.allBut [.locks, .aclk, .resp, .dram, .dma, .pwr]
  | .rebuildAnswerTimeout _ _ => Part.allBut [.locks, .aclk, .resp, .dram, .dma, .pwr]
  | .xorMemberArrive _ _ _ => Part.allBut [.locks, .aclk, .resp, .dram, .dma, .pwr]
  | .calibDone _ => Part.allBut [.locks, .aclk, .resp, .delivered, .dram, .cop, .map, .dma, .yew, .pwr]
  | .patrolDone _ => [.regs, .err, .que, .top, .mcs, .chs, .ecc, .jnp, .box, .hly, .sys]
  | .jnpCheckpointPeriod => [.regs, .drawn, .err, .hdg, .store, .jnp, .yew]
  | .jnpCkptNow _ _ => [.regs, .drawn, .resp, .err, .hdg, .store, .jnp, .yew, .pwr]
  | .jnpGrpClrHealth _ _ => [.regs, .drawn, .resp, .err, .hdg, .store, .jnp, .pwr]
  | .jnpGrpClrWear _ _ => [.regs, .drawn, .resp, .err, .hdg, .store, .jnp, .pwr]
  | .jnpGrpClrTrack _ _ => [.regs, .drawn, .resp, .err, .hdg, .store, .jnp, .pwr]
  | .jnpTableEnable _ _ => [.regs, .resp, .err, .hdg, .store, .jnp, .pwr]
  | .epochTick => [.regs]
  | .regionChangeRequest _ _ _ => [.regs, .resp, .hdg, .top, .pwr]
  | .regionReinitDone _ => [.regs, .err, .hdg, .store, .cop, .map, .top]
  | .poolWithdrawDone _ => [.regs, .drawn, .err, .hdg, .store, .cop]
  | .gorseLineRead => [.regs, .drawn, .err, .hdg, .top]
  | .gorseRewrite => [.regs, .hdg, .store]
  | .scrubStoreDone _ => [.regs, .drawn, .err, .que, .hdg, .store, .top, .hly, .sys]
  | .selftestStoreDone _ _ => [.regs, .err, .que, .hdg, .store, .top, .hly, .sys]
  | .bufferGrant => Part.allBut [.locks, .aclk, .resp, .dram, .dma, .pwr]
  | .bufferFree _ _ => [.regs, .err, .hdg, .store, .cop]
  | .poolPop => [.regs, .drawn, .err, .cop]
  | .poolRebuild _ _ => [.regs, .resp, .cop, .pwr]
  | .poolRebuildDone => [.regs, .err, .hdg, .store, .cop]
  | .reserveWrite _ _ _ => [.regs, .resp, .cop, .pwr]
  | .dmaShadowLoad _ => [.regs, .que, .dma]
  | .dmaTransferStart _ => [.regs, .dma]
  | .paceLevelReport _ _ _ => [.dma]
  | .dmaTransferEnd _ _ => [.regs, .drawn, .delivered, .dram, .err, .que, .hdg, .store, .cop, .dma, .box, .sys]
  | .dmaRecordWrite _ => [.regs, .dram, .err, .hdg, .store, .dma]
  | .dcqDoorbell _ _ _ => [.regs, .resp, .err, .pwr]
  | .dcqEnable _ _ _ => [.regs, .resp, .dma, .pwr]
  | .dcqDisable _ _ _ => [.regs, .resp, .dma, .pwr]
  | .budgetWrite _ _ => [.regs, .resp, .top, .pwr]
  | .ceilWrite _ _ => [.regs, .locks, .resp, .top, .pwr]
  | .forecastWord _ _ => [.regs, .top, .box]
  | .forecastWindowBegin _ => [.regs, .box]
  | .forecastWindowEnd _ => [.regs, .top, .box]
  | .diodeSampleTimer => [.box]
  | .diodeConversionDone _ => [.regs, .drawn, .err, .top, .chs, .box, .pwr]
  | .threshWrite _ _ => [.regs, .resp, .pwr]
  | .loadWindowClose => [.regs, .err, .top, .chs]
  | .idleEntry => [.hdg, .pwr]
  | .idleWake => Part.allBut [.aclk]
  | .powerEntryQuiescent => Part.allBut [.locks, .aclk, .resp, .dram, .dma, .pwr]
  | .powerEntryLimitExpiry => [.regs, .que, .pwr, .sys]
  | .pwrWakeWrite _ => [.resp, .pwr]
  | .napWakeDone => Part.allBut [.locks, .aclk, .resp, .dram, .dma]
  | .coreSupplyGood => [.pwr]
  | .cclkLocked => [.regs, .err, .que, .hdg, .map, .top, .mcs, .chs, .box, .hly, .pwr, .sys]
  | .economySegmentsEnded => [.pwr]
  | .voltageAck => [.pwr]
  | .cclkRelockDone => [.regs, .err, .que, .top, .mcs, .chs, .ecc, .box, .pwr, .sys]
  | .pwrDomEnable _ _ => Part.allBut [.locks, .aclk, .dram, .dma]
  | .pwrDomDisable _ _ => Part.allBut [.locks, .aclk, .dram, .dma]
  | .pgTimeout _ => [.regs, .err, .que, .hly, .pwr, .sys]
  | .pwrgdRise _ => [.regs, .top, .jnp, .sys]
  | .holdupWarnAssert => Part.allBut [.locks, .aclk, .resp, .dram, .dma]
  | .holdupDrainDone => [.pwr]
  | .holdupBandPassDone _ => Part.allBut [.locks, .aclk, .resp, .dram, .dma]
  | .holdupRecordsDone => Part.allBut [.locks, .aclk, .resp, .dram, .dma]
  | .holdupWarnDeassert => Part.allBut [.locks, .aclk, .resp, .dram, .dma]
  | .coldReset _ => Part.allBut [.delivered, .dram]
  | .warmRst _ => Part.allBut [.locks, .aclk]
  | .warmReq => Part.allBut [.locks, .aclk]
  | .warmResetBegin => Part.allBut [.locks, .aclk, .resp]
  | .warmResetDrainDone => Part.allBut [.locks, .aclk, .resp, .dram]
  | .discoveryStart _ _ => [.regs, .err, .top, .mcs, .chs, .ecc, .box, .sys]
  | .discoveryEnd _ _ => Part.allBut [.locks, .aclk, .resp, .dram, .dma]
  | .tornScanDone _ => [.regs, .err]
  | .portLinkDown _ => [.que]
  | .portLinkUp _ => Part.allBut [.locks, .aclk, .resp]
  | .yewKeyWrite _ _ => [.regs, .resp, .yew, .pwr]
  | .yewCmdProgram _ _ => [.regs, .resp, .yew, .pwr]
  | .yewCmdErase _ _ => [.regs, .resp, .yew, .pwr]
  | .yewCmdSuspend _ _ => [.regs, .resp, .yew, .pwr]
  | .yewCmdResume _ _ => [.regs, .resp, .yew, .pwr]
  | .yewAddrWrite _ _ => [.regs, .resp, .yew, .pwr]
  | .yewDataLoWrite _ _ => [.regs, .resp, .yew, .pwr]
  | .yewDataHiWrite _ _ => [.regs, .resp, .yew, .pwr]
  | .yewSequenceTimeout => [.regs, .yew]
  | .yewRdataRead _ => [.regs, .resp, .err, .pwr]
  | .yewSuspendEffect _ => [.regs, .err, .yew]
  | .yewProgramPulseDone _ _ => Part.allBut [.locks, .aclk, .resp, .dram, .dma, .pwr]
  | .yewErasePulseDone _ _ => Part.allBut [.locks, .aclk, .resp, .dram, .dma, .pwr]
  | .hlyWdogKick => [.regs, .resp, .hly, .pwr]
  | .hlyWdogExpiry => Part.allBut [.locks, .aclk, .drawn, .resp, .delivered, .dram, .store, .cop, .map, .dma, .pwr]
  | .hlyRestart _ => [.regs, .resp, .err, .que, .hly, .pwr, .sys]
  | .hlyQuiesced => Part.allBut [.locks, .aclk, .drawn, .delivered, .dram, .hdg, .store, .cop, .map, .jnp, .dma]
  | .hlyReady => Part.allBut [.locks, .aclk, .drawn, .delivered, .dram, .hdg, .store, .cop, .map, .jnp, .dma]
  | .activateDrainTimeout => [.regs, .err, .que, .top, .mcs, .chs, .ecc, .box, .hly, .sys]
  | .activateStartTimeout => [.regs, .err, .yew, .hly]
  | .errorRecordAccept => [.regs, .err]
  | .errClear _ _ => [.regs, .resp, .pwr]
  | .errHeadWrite _ _ => [.regs, .resp, .pwr]
  | .glbTimeLoRead _ => [.regs, .resp, .pwr]
  | .dbgLock _ _ => [.regs, .locks, .resp, .pwr]
  | .dbgInjArm _ _ => [.regs, .resp, .pwr]
  | .dbgForceWrite _ _ => [.regs, .resp, .pwr]
  | .lossOfPower => Part.allBut [.delivered, .dram]
  | .rcRegisterRead _ _ _ => [.regs, .resp, .err, .pwr]
  | .portBufferWrite _ _ _ => [.regs, .resp, .err, .hdg, .store, .cop]
  | .portStoreRead _ _ _ => [.regs, .drawn, .resp, .err]
  | .dramReadResponse _ _ => [.regs, .drawn, .err, .que, .sys]
  | .yewSliceExpiry _ => [.yew]
  | .checkPassDone => [.regs, .err, .que, .top, .mcs, .chs, .ecc, .box, .hly, .sys]
  | .stagingBufferFilled _ => Part.allBut [.locks, .aclk, .resp, .delivered, .dram, .jnp, .dma, .yew, .pwr]

/-! Frames. -/

/-- The two states agree in every part outside a list. -/
def SameBut (l : List Part) (s t : State) : Prop := ∀ p : Part, l.contains p = false → p.Same s t

/-- The two states agree in every register field outside a list. -/
def FieldsBut (l : List Fld) (s t : State) : Prop := ∀ F ∈ Reg.all, F ∉ l → t.rd F = s.rd F

/-! The canonical form. -/

/-- Every sparse store of the state is in canonical form: the bytes of the central store, the bytes written to DRAM, and
the register fields. -/
def State.Canonical (s : State) : Prop := Memory.wf s.hdg = true ∧ tsorted s.dram = true ∧ tsorted s.regs = true

/-- R104, R529: the staging FIFO and the descriptor queues stay within their depths, and each unit buffers one error
record at most. -/
def State.FifosWithin (s : State) : Prop :=
  s.que.csf.length ≤ 256 ∧ (∀ n, (tget {} s.dma.chs n).queue.length ≤ 8) ∧ (s.err.buf.map fun r => r.src).Nodup

/-! Register accesses. -/

/-- A register access of a master is served at once: CCLK runs, and the master is no client port (R96, R433). -/
def Served (s : State) (m : Master) : Prop := s.pwr.st = .active ∧ ∀ p, m ≠ .client p

/-- The state in which an access on a port has its effect: no answer stands. -/
def State.fresh (s : State) : State := { s with resp := .none }

/-- The rows that are one word written to one register: who writes, the register's address and the word. -/
def rowWrite : Instr → Option (Master × Nat × W32)
  | .queEnable m k v => some (m, 0x4008 + 0x40 * k, v)
  | .queDisable m k v => some (m, 0x4008 + 0x40 * k, v)
  | .queDoorbellSqtail m k v => some (m, 0x400C + 0x40 * k, v)
  | .queDoorbellCqhead m k v => some (m, 0x400C + 0x40 * k, v)
  | .mapRegionLoad m v => some (m, 0x7008, v)
  | .mapEnableRequest v => some (.port, 0x7000, v)
  | .mapEnableSet v _ => if v.toNat.testBit 0 then none else some (.holly, 0x7000, v)
  | .mcsFaultClear m ch v => some (m, 0xE060 + 4 * ch, v)
  | .mcsLoadEn m v => some (m, 0xE000, v)
  | .nanoAddrWrite m v => some (m, 0xE02C, v)
  | .nanoCommit m v => some (m, 0xE038, v)
  | .jnpCkptNow m v => some (m, 0x9020, v)
  | .jnpGrpClrHealth m v => some (m, 0x9024, v)
  | .jnpGrpClrWear m v => some (m, 0x9024, v)
  | .jnpGrpClrTrack m v => some (m, 0x9024, v)
  | .jnpTableEnable m v => some (m, 0x9008, v)
  | .regionChangeRequest m k v => some (m, 0x3000 + 4 * k, v)
  | .poolRebuild m v => some (m, 0x200C, v)
  | .reserveWrite m i v => some (m, 0x2040 + 4 * i, v)
  | .dcqDoorbell m w v => some (m, 0x5808 + 0x40 * w, v)
  | .dcqEnable m w v => some (m, 0x5804 + 0x40 * w, v)
  | .dcqDisable m w v => some (m, 0x5804 + 0x40 * w, v)
  | .budgetWrite m v => some (m, 0xA008, v)
  | .ceilWrite m v => some (m, 0xA004, v)
  | .threshWrite m v => some (m, 0xA088, v)
  | .pwrDomEnable m v => some (m, 0x1014, v)
  | .pwrDomDisable m v => some (m, 0x1014, v)
  | .warmRst m => some (m, 0x0004, 1)
  | .yewKeyWrite m v => some (m, 0xB008, v)
  | .yewCmdProgram m v => some (m, 0xB00C, v)
  | .yewCmdErase m v => some (m, 0xB00C, v)
  | .yewCmdSuspend m v => some (m, 0xB00C, v)
  | .yewCmdResume m v => some (m, 0xB00C, v)
  | .yewAddrWrite m v => some (m, 0xB010, v)
  | .yewDataLoWrite m v => some (m, 0xB014, v)
  | .yewDataHiWrite m v => some (m, 0xB018, v)
  | .errClear m v => some (m, 0xD000, v)
  | .errHeadWrite m v => some (m, 0xD008, v)
  | .dbgLock m v => some (m, 0x30000, v)
  | .dbgInjArm m v => some (m, 0x30008, v)
  | .dbgForceWrite m v => some (m, 0x3000C, v)
  | _ => none

/-- The rows that are a read of one register with an effect of its own. -/
def rowRead : Instr → Option (Master × Nat)
  | .glbTimeLoRead m => some (m, 0x0010)
  | .yewRdataRead m => some (m, 0xB020)
  | _ => none

/-- The address lies in a block, is aligned, and a write there has no effect beyond the register's own fields: no field
starts work, is checked before it is taken, or is fixed by another (R15). -/
def plainAddr (a : Nat) : Bool :=
  a % 4 == 0 && regMapped a && !inCsWindow a &&
    (match a / 0x1000 with
    | 0x0 => a != 0x0004
    | 0x1 => a != 0x1010 && a != 0x1014 && !(decide (0x1020 ≤ a) && decide (a < 0x1040))
    | 0x2 => a != 0x200C && !(decide (0x2040 ≤ a) && decide (a < 0x2080))
    | 0x3 => decide (0x3080 ≤ a)
    | 0x4 => false
    | 0x5 => false
    | 0x6 => a != 0x6004
    | 0x7 => a != 0x7000 && a != 0x7008 && a != 0x7010
    | 0x9 => a != 0x9008 && a != 0x9020 && a != 0x9024
    | 0xA => false
    | 0xB => !(decide (0xB008 ≤ a) && decide (a ≤ 0xB018))
    | 0xC => a != 0xC000 && a != 0xC034
    | 0xD => a != 0xD000 && a != 0xD008
    | 0xE => a != 0xE000 && a != 0xE02C && a != 0xE038 && !(decide (0xE060 ≤ a) && decide (a < 0xE080))
    | 0x30 => decide (0x30010 ≤ a)
    | b => !(decide (0x20 ≤ b)) || a % 0x1000 != 0)

/-- R15, R567: what a field holds after a word was written to its register: `was` is what it held before, and `fixed` says
that the register was written since the last cold reset. -/
def Fld.after (F : Fld) (fixed : Bool) (was v : Nat) : Nat :=
  match F.acc with
  | .rw => bits v F.lsb F.width
  | .w1c => was &&& (2 ^ F.width - 1 ^^^ bits v F.lsb F.width)
  | .lock => if fixed then was else bits v F.lsb F.width
  | .ro => was
  | .wo => was
  | .rc => was

/-- R567: the LOCK fields of a register that was written since the last cold reset are fixed. -/
def LockKept (s t : State) : Prop :=
  (∀ a ∈ s.locks, a ∈ t.locks) ∧ ∀ F ∈ Reg.all, F.acc = Access.lock → F.addr ∈ s.locks → t.rd F = s.rd F

/-! Commands. -/

/-- The rows that are the effect of a packet on its way: the packet's tag and its opcode (R64). -/
def packetRow : Instr → Option (Nat × Nat)
  | .read t => some (t.val, 0x01)
  | .readRaw t => some (t.val, 0x02)
  | .program t _ => some (t.val, 0x03)
  | .programAtomic t _ => some (t.val, 0x04)
  | .erase t => some (t.val, 0x05)
  | .copy t _ => some (t.val, 0x06)
  | .trim t => some (t.val, 0x07)
  | .flush t => some (t.val, 0x08)
  | .bufAlloc t => some (t.val, 0x10)
  | .bufShare t => some (t.val, 0x11)
  | .bufFree t => some (t.val, 0x12)
  | .dmaMove t => some (t.val, 0x18)
  | .mapPin t => some (t.val, 0x20)
  | .mapSync t => some (t.val, 0x21)
  | .scrubStore t => some (t.val, 0x30)
  | .patrol t => some (t.val, 0x30)
  | .train t => some (t.val, 0x30)
  | .calib t => some (t.val, 0x30)
  | .zqcal t => some (t.val, 0x30)
  | .selftestStore t => some (t.val, 0x30)
  | .selftestChannel t => some (t.val, 0x30)
  | .powerActive t => some (t.val, 0x38)
  | .powerNap t => some (t.val, 0x38)
  | .powerDormant t => some (t.val, 0x38)
  | .abort t => some (t.val, 0x40)
  | .attach t => some (t.val, 0x48)
  | .detach t => some (t.val, 0x49)
  | .discover t => some (t.val, 0x4A)
  | .setPolicy t => some (t.val, 0x50)
  | .getInfoIdentity t => some (t.val, 0x51)
  | .getInfoInventory t => some (t.val, 0x51)
  | .getInfoTorn t => some (t.val, 0x51)
  | .getInfoHealth t => some (t.val, 0x51)
  | .getInfoEnergy t => some (t.val, 0x51)
  | .getInfoPolicy t => some (t.val, 0x51)
  | .getInfoParked t => some (t.val, 0x51)
  | .activateHolly t => some (t.val, 0x58)
  | .activateEspalier t => some (t.val, 0x58)
  | _ => none

/-- The command of a tag has completed: its record is requested, with its status and its detail (R103). -/
def Completes (t : State) (tag st detail : Nat) : Prop :=
  ∃ c, t.cmd? tag = some c ∧ c.stage = .requested ∧ c.status = st ∧ c.detail = detail ∧ c.record ∈ t.que.reqs

end Sys2Proof.Machine
end

