-- ==== Sys2Proof/Certificates/Slice0/Obligations.lean ====
section
/-!
DEFINITION. The statements about the machine that the provers are asked to prove. Each cites the rules of the spec it rests
on; where a clause is the model's own choice, it says so and names the log entry.
-/
open Sys2Proof Sys2Proof.Machine

/-! ## The machine -/

/-- One step runs the command at the front of the queue on the state with the queue's rest. On an empty queue a step is
one tick of the timestamp counter, which does not run in OFF; while CCLK runs, Topiary has by then taken what stood in the
event FIFOs of the channels (R226, R433, R556; that an empty queue gives a tick is the model's choice, log entry 2). -/
def Obligations.StepTakesTheFrontCommandOrIdles : Prop :=
  (∀ (c : Instr) (rest : List Instr) (s : State),
      s.pending = c :: rest → step s = exec c { s with pending := rest }) ∧
  (∀ s : State, s.pending = [] →
      (s.pwr.st = .off → step s = .next s) ∧
      (s.pwr.st ≠ .off → s.pwr.st ≠ .active → step s = .next { s with aclk := s.aclk + 1 }) ∧
      (s.pwr.st = .active → ∃ t, step s = .next t ∧ t.aclk = s.aclk + 1 ∧ SameBut [.aclk, .regs, .chs] s t ∧
        (∀ n, t.chan n = { s.chan n with events := (t.chan n).events, evHeld := (t.chan n).evHeld }) ∧
        (∀ n, n < 8 → ((s.chan n).events = [] → (s.chan n).evHeld = []) →
          (t.chan n).events = [] ∧ (t.chan n).evHeld = [])))

/-- Every command answers a next state, whatever the state and its operands: it takes nothing from the queue of waiting
commands, it changes no part of the state outside what it reaches, and it keeps the canonical form of the state and the
depths of its FIFOs. So a step never stops. -/
def Obligations.EveryCommandAnswers : Prop :=
  (∀ (c : Instr) (s : State), ∃ t, exec c s = .next t ∧ t.pending = s.pending ∧
    (∀ p : Part, (reach c).contains p = false → p.Same s t) ∧
    (s.Canonical → t.Canonical) ∧ (s.FifosWithin → t.FifosWithin)) ∧
  (∀ s : State, ∃ t, step s = .next t)

/-- No command changes the queue of waiting commands: step alone takes from it. A command changes no part of the state
outside what it reaches. -/
def Obligations.CommandsKeepTheQueueAndWhatTheyDoNotReach : Prop :=
  (∀ (c : Instr) (s t : State), exec c s = .next t → t.pending = s.pending) ∧
  (∀ (c : Instr) (s t : State) (p : Part),
      exec c s = .next t → (reach c).contains p = false → p.Same s t)

/-- Every step keeps the canonical form of the store's bytes, of the bytes written to DRAM, and of the registers. -/
def Obligations.StepsKeepTheCanonicalForm : Prop :=
  ∀ s t : State, s.Canonical → step s = .next t → t.Canonical

/-- The state after reset is in canonical form. After reset the FIFOs are within their depths. -/
def Obligations.ResetIsCanonicalAndWithinItsDepths : Prop :=
  State.reset.Canonical ∧ State.reset.FifosWithin

/-- Every step keeps the staging FIFO within 256 records and every descriptor queue within 8, and no unit buffers two
error records (R103, R104, R529). -/
def Obligations.StepsKeepFifosWithinTheirDepths : Prop :=
  ∀ s t : State, s.FifosWithin → step s = .next t → t.FifosWithin

/-- R567: the first write of a register after a cold reset sets every LOCK field of it, whatever it carries; and until
the next cold reset (or loss of power) no command changes a LOCK field of a register that was written. A later write
still changes the register's other fields: it clears PL_DBG_LOCK.REFUSED. -/
def Obligations.LockFieldsAreSetOnceAndStay : Prop :=
  (∀ (m : Master) (v : W32) (s : State) (F : Fld), Served s m → F ∈ Reg.all → F.acc = Access.lock → F.addr ∉ s.locks →
    ∃ t, exec (.registerWrite m F.addr 4 v) s = .next t ∧ F.addr ∈ t.locks ∧ t.rd F = bits v.toNat F.lsb F.width) ∧
  (∀ (c : Instr) (s t : State), (∀ r, c ≠ .coldReset r) → c ≠ .lossOfPower → exec c s = .next t → LockKept s t) ∧
  (∀ (m : Master) (v : W32) (s : State), Served s m → bit v.toNat 1 = true →
    ∃ t, exec (.dbgLock m v) s = .next t ∧ t.rd Reg.DBG_LOCK_REFUSED = 0)


/-! ## The register port -/

/-- A row that is one word written to a register, or one register read, is that access: a table row and the register
access it names never differ (R13, R565; R206 for the control-store window). -/
def Obligations.RegisterRowsAreTheirAccesses : Prop :=
  (∀ (c : Instr) (m : Master) (a : Nat) (v : W32) (s : State),
    rowWrite c = some (m, a, v) → exec c s = exec (.registerWrite m a 4 v) s) ∧
  (∀ (c : Instr) (m : Master) (a : Nat) (s : State), rowRead c = some (m, a) → exec c s = exec (.rcRegisterRead m a 4) s) ∧
  (∀ (m : Master) (off : Nat) (v : W32) (s : State), off % 4 = 0 → off < 0x10000 →
    exec (.csWindowWrite m off v) s = exec (.registerWrite m (0x10000 + off) 4 v) s)

/-- What an access finds in each power state (R96, R433, R434, R437): no answer in OFF; an error response in NAP and
DORMANT except for what wakes the complex; in IDLE it is held and the complex wakes; a client port reaches only
doorbells. -/
def Obligations.AccessesFollowThePowerState : Prop :=
  ∀ (m : Master) (a w : Nat) (v : W32) (s : State),
    (s.pwr.st = .off → (∀ p, m ≠ .client p) →
      exec (.registerWrite m a w v) s = .next s.fresh ∧ exec (.rcRegisterRead m a w) s = .next s.fresh) ∧
    (s.pwr.st = .nap ∨ s.pwr.st = .dormant →
      (wakesLow m a w v.toNat = false → exec (.registerWrite m a w v) s = .next { s with resp := .error }) ∧
      exec (.rcRegisterRead m a w) s = .next { s with resp := .error } ∧
      (wakesLow m a w v.toNat = true → ∃ t, exec (.registerWrite m a w v) s = .next t ∧
        t.pwr = { s.pwr with waking := some (s.pwr.waking.getD 0) })) ∧
    (s.pwr.st = .idle → (∀ p, m ≠ .client p) →
      exec (.registerWrite m a w v) s = .next { s with pwr := { s.pwr with
        held := s.pwr.held ++ [{ m := m, addr := a, v := some v.toNat, width := if wakesLow m a w v.toNat then 4 else w }]
        waking := some (s.pwr.waking.getD 0) } } ∧
      exec (.rcRegisterRead m a w) s = .next { s with pwr := { s.pwr with
        held := s.pwr.held ++ [{ m := m, addr := a, v := none, width := w }]
        waking := some (s.pwr.waking.getD 0) } }) ∧
    (∀ p, m = .client p → wakesLow m a w v.toNat = false →
      exec (.registerWrite m a w v) s = .next { s with resp := .error } ∧
      exec (.rcRegisterRead m a w) s = .next { s with resp := .error })

/-- R13, R564: an access that is not an aligned 32-bit one, or that lies in a reserved range, writes nothing, ends with
an error response and raises an error record of class CONTAINED, SOURCE 1, CODE 1, that names the address. An aligned
access in a block where no register stands reads 0 and writes nothing. -/
def Obligations.BadAccessesHaveNoEffect : Prop :=
  (∀ (m : Master) (a w : Nat) (v : W32) (s : State), Served s m → (a % 4 ≠ 0 ∨ w ≠ 4 ∨ regMapped a = false) →
    exec (.registerWrite m a w v) s = .next { s.fresh.err1 clsContained 1 1 a with resp := .error }) ∧
  (∀ (m : Master) (a w : Nat) (s : State), Served s m → (a % 4 ≠ 0 ∨ w ≠ 4 ∨ regMapped a = false) →
    exec (.rcRegisterRead m a w) s = .next { s.fresh.err1 clsContained 1 1 a with resp := .error }) ∧
  (∀ (m : Master) (a : Nat) (v : W32) (s : State), Served s m → plainAddr a = true → (∀ F ∈ Reg.all, F.addr ≠ a) →
    exec (.registerWrite m a 4 v) s = .next s.fresh ∧
    exec (.rcRegisterRead m a 4) s = .next { s with resp := .value 0 })

/-- R1: PL_GLB_ID reads 0x504C_0200 in every state, the characters "PL", the major revision 2 and the minor revision 0.
-/
def Obligations.IdReadsTheSameOnEveryPliut2 : Prop :=
  (∀ (m : Master) (s : State), Served s m → exec (.rcRegisterRead m 0 4) s = .next { s with resp := .value 0x504C0200 }) ∧
  bits 0x504C0200 16 16 = 0x504C ∧ bits 0x504C0200 8 8 = 0x02 ∧ bits 0x504C0200 0 8 = 0x00

/-- R15, R16: a word written to a register with no effect beyond its fields sets its RW fields, clears the W1C fields it
carries a 1 for, sets its LOCK fields at the first write only, and changes no other field and no other part of the state.
-/
def Obligations.RegisterWritesSetTheirFields : Prop :=
  ∀ (m : Master) (a : Nat) (v : W32) (s : State), Served s m → plainAddr a = true →
    ∃ t, exec (.registerWrite m a 4 v) s = .next t ∧
      (∀ F ∈ Reg.all, F.addr = a → t.rd F = F.after (s.locks.contains a) (s.rd F) v.toNat) ∧
      (∀ F ∈ Reg.all, F.addr ≠ a → t.rd F = s.rd F) ∧
      SameBut [.regs, .locks, .resp] s t

/-- R15, R16: a read of a register answers every field in its place, with WO fields and reserved bits 0; its RC fields
then hold 0, and nothing else changes. -/
def Obligations.RegisterReadsAnswerTheirFields : Prop :=
  ∀ (m : Master) (a : Nat) (s : State), Served s m → a % 4 = 0 → regMapped a = true → inCsWindow a = false →
    a ≠ 0x0010 → a ≠ 0xB020 →
    ∃ t v, exec (.rcRegisterRead m a 4) s = .next t ∧ t.resp = .value v ∧ v < 2 ^ 32 ∧
      (∀ F ∈ Reg.all, F.addr = a → bits v F.lsb F.width = s.view false F) ∧
      (∀ F ∈ Reg.all, F.addr = a → F.acc = Access.wo → bits v F.lsb F.width = 0) ∧
      (∀ i, (∀ F ∈ Reg.all, F.addr = a → i < F.lsb ∨ F.lsb + F.width ≤ i) → bit v i = false) ∧
      (∀ F ∈ Reg.all, F.addr = a → F.acc = Access.rc → t.rd F = 0) ∧
      (∀ F ∈ Reg.all, F.addr ≠ a ∨ F.acc ≠ Access.rc → t.rd F = s.rd F) ∧
      SameBut [.regs, .resp] s t


/-! ## Queues, doorbells and completion records -/

/-- R95 to R97: what a doorbell write of pair k does, whichever row carries it. A legal one moves the pointers that its
valid bits name and nothing else; an illegal one, or one that R97 refuses for a disabled pair, is ignored as a whole,
sets DB_ERR and raises a CONTAINED record that names the pair; one of a port that does not own the pair is ignored and
raises the record. -/
def Obligations.DoorbellsMoveOnlyLegalPointers : Prop :=
  ∀ (m : Master) (k : Fin 64) (v : W32) (c : Instr) (s : State),
    (c = .queDoorbellSqtail m k v ∨ c = .queDoorbellCqhead m k v) → s.pwr.st = .active →
    ((∃ p : Fin 4, m = .client p ∧ p.val ≠ k.val / 16) → exec c s = .next (s.fresh.err1 clsContained 1 3 0 0 k)) ∧
    ((∀ p : Fin 4, m = .client p → p.val = k.val / 16) →
      (s.is (Reg.QUE_CFG_ENABLE k) = true ∨ ((s.pair k).claimed ≠ 0 ∧ bit v.toNat 12 = false)) →
      (bit v.toNat 12 = true → bits v.toNat 0 12 < s.sqSize k) →
      (bit v.toNat 28 = true → bits v.toNat 16 12 < s.cqSize k ∧
        (bits v.toNat 16 12 + s.cqSize k - (s.pair k).cqHead) % s.cqSize k ≤
          ((s.pair k).cqTail + s.cqSize k - (s.pair k).cqHead) % s.cqSize k) →
      exec c s = .next (s.fresh.onPair k fun p => { p with
        sqTail := if bit v.toNat 12 then bits v.toNat 0 12 else p.sqTail
        cqHead := if bit v.toNat 28 then bits v.toNat 16 12 else p.cqHead })) ∧
    ((∀ p : Fin 4, m = .client p → p.val = k.val / 16) →
      ((s.is (Reg.QUE_CFG_ENABLE k) = false ∧ ((s.pair k).claimed = 0 ∨ bit v.toNat 12 = true)) ∨
        (bit v.toNat 12 = true ∧ s.sqSize k ≤ bits v.toNat 0 12) ∨
        (bit v.toNat 28 = true ∧ (s.cqSize k ≤ bits v.toNat 16 12 ∨
          ((s.pair k).cqTail + s.cqSize k - (s.pair k).cqHead) % s.cqSize k <
            (bits v.toNat 16 12 + s.cqSize k - (s.pair k).cqHead) % s.cqSize k))) →
      exec c s = .next ((s.fresh.setb (Reg.QUE_CFG_DB_ERR k)).err1 clsContained 1 3 0 0 k))

/-- R101, R102: a write that sets ENABLE takes the settings it carries: where they are valid the pair is enabled with its
pointers at 0 and PHASE 1, and what it has outstanding stays claimed; else ENABLE stays 0 and CFG_ERR is set. A write
that clears ENABLE keeps the settings, and leaves the pointers of a busy pair as they are. The bases of an enabled pair
are fixed. No access changes anything but the queue and the registers of CFG. -/
def Obligations.QueuePairsAreEnabledAndDisabled : Prop :=
  ∀ (m : Master) (k : Fin 64) (v : W32) (s : State), Served s m →
    (s.is (Reg.QUE_CFG_ENABLE k) = false → bit v.toNat 0 = true →
      ∃ t, exec (.queEnable m k v) s = .next t ∧
        (t.is (Reg.QUE_CFG_ENABLE k) = true ↔
          4 ≤ bits v.toNat 4 4 ∧ bits v.toNat 4 4 ≤ 12 ∧ 4 ≤ bits v.toNat 8 4 ∧ bits v.toNat 8 4 ≤ 12 ∧
          s.ringOk (bit v.toNat 1) (s.rd (Reg.QUE_SQBASE_BASE k)) (64 * 2 ^ bits v.toNat 4 4) = true ∧
          s.ringOk (bit v.toNat 2) (s.rd (Reg.QUE_CQBASE_BASE k)) (32 * 2 ^ bits v.toNat 8 4) = true) ∧
        (t.is (Reg.QUE_CFG_ENABLE k) = true → t.pair k = { claimed := (s.pair k).claimed }) ∧
        (t.is (Reg.QUE_CFG_ENABLE k) = false → t.rd (Reg.QUE_CFG_CFG_ERR k) = 1 ∧ t.que = s.que) ∧
        t.rd (Reg.QUE_CFG_SQ_LOC k) = bits v.toNat 1 1 ∧ t.rd (Reg.QUE_CFG_CQ_LOC k) = bits v.toNat 2 1 ∧
        t.rd (Reg.QUE_CFG_SQ_SIZE k) = bits v.toNat 4 4 ∧ t.rd (Reg.QUE_CFG_CQ_SIZE k) = bits v.toNat 8 4 ∧
        (∀ F ∈ Reg.all, F.addr ≠ 0x4008 + 0x40 * k → t.rd F = s.rd F) ∧ SameBut [.regs, .que, .resp] s t) ∧
    (s.is (Reg.QUE_CFG_ENABLE k) = true → bit v.toNat 0 = false →
      ∃ t, exec (.queDisable m k v) s = .next t ∧ t.is (Reg.QUE_CFG_ENABLE k) = false ∧
        ((s.pair k).claimed ≠ 0 → t.que = s.que) ∧ ((s.pair k).claimed = 0 → t.pair k = {}) ∧
        t.rd (Reg.QUE_CFG_SQ_LOC k) = s.rd (Reg.QUE_CFG_SQ_LOC k) ∧ t.rd (Reg.QUE_CFG_CQ_LOC k) = s.rd (Reg.QUE_CFG_CQ_LOC k) ∧
        t.rd (Reg.QUE_CFG_SQ_SIZE k) = s.rd (Reg.QUE_CFG_SQ_SIZE k) ∧
        t.rd (Reg.QUE_CFG_CQ_SIZE k) = s.rd (Reg.QUE_CFG_CQ_SIZE k) ∧
        (∀ F ∈ Reg.all, F.addr ≠ 0x4008 + 0x40 * k → t.rd F = s.rd F) ∧ SameBut [.regs, .que, .resp] s t) ∧
    (s.is (Reg.QUE_CFG_ENABLE k) = true →
      exec (.registerWrite m (0x4000 + 0x40 * k) 4 v) s = .next s.fresh ∧
      exec (.registerWrite m (0x4004 + 0x40 * k) 4 v) s = .next s.fresh)

/-- R47, R49, R99, R100: the packet engine takes one packet from the next SQ in rotation that has one, and claims a CQ
entry for it. A packet that passes the checks becomes outstanding; one whose CRC fails, or whose opcode is unknown, gets
a record with the status of the first check that failed, and no tag. With no SQ to take from, or while fetching is
stopped, nothing happens. R63, R116, R453, R578: the DRAM port's answer to the fetch of a packet. Data that hold an
intact packet which may not be taken now put the slot back at the head of its SQ and give the claim back; an error
response, whatever bytes came with it, ends in a record with PACKET_CRC and a CONTAINED error record; any other answer
goes through the checks. An answer to no read changes nothing. -/
def Obligations.PacketsAreFetchedInTurn : Prop :=
  (∀ s : State,
      (s.fetchStopped = true → exec .packetFetch s = .next s) ∧
      (s.fetchStopped = false → rotFind 64 s.que.rot s.sqEligible = none → exec .packetFetch s = .next s) ∧
      (∀ k, s.fetchStopped = false → rotFind 64 s.que.rot s.sqEligible = some k →
        ∃ t, exec .packetFetch s = .next t ∧
          t.pair k = { s.pair k with sqHead := ((s.pair k).sqHead + 1) % s.sqSize k, claimed := (s.pair k).claimed + 1 } ∧
          (∀ j, j ≠ k → t.pair j = s.pair j) ∧ t.que.rot = (k + 1) % 64 ∧
          (s.is (Reg.QUE_CFG_SQ_LOC k) = true →
            t.que.dramReads = s.que.dramReads ++ [(s.que.nextRead, .packet k (((s.pair k).sqHead + 1) % s.sqSize k) s.now)] ∧
            t.que.cmds = s.que.cmds ∧ t.que.reqs = s.que.reqs) ∧
          (s.is (Reg.QUE_CFG_SQ_LOC k) = false →
            let a := s.sqAddr k (s.pair k).sqHead
            let head := ((s.pair k).sqHead + 1) % s.sqSize k
            let d := (List.range 64).map fun i => s.hReadByte (a + i)
            let p := Pkt.ofBytes d
            let u := ((s.consumeSlot k).hRead a 64).2
            (u.sys.warmRun = none → ((s.consumeSlot k).hRead a 64).1.ok = true → crc32c (d.take 60) = p.pcrc →
              p.opcode ∈ opcodes → u.chkFields p k = none → u.tagBad p = none → opSlow p.opcode = false →
              t.que.cmds = s.que.cmds ++
                [{ tag := p.tag, pkt := p, pair := k, sqHead := head, order := s.que.order + 1, fetched := s.now }] ∧
              t.que.reqs = s.que.reqs) ∧
            (((s.consumeSlot k).hRead a 64).1.ok = true → crc32c (d.take 60) ≠ p.pcrc →
              t.que.cmds = s.que.cmds ∧ ∃ r, t.que.reqs = s.que.reqs ++ [r] ∧ r.status = 0x52 ∧ r.tag = p.tag ∧
                r.live = false ∧ r.sqid = k ∧ r.sqHead = head) ∧
            (((s.consumeSlot k).hRead a 64).1.ok = true → crc32c (d.take 60) = p.pcrc → p.opcode ∉ opcodes →
              t.que.cmds = s.que.cmds ∧ ∃ r, t.que.reqs = s.que.reqs ++ [r] ∧ r.status = 0x50 ∧ r.tag = p.tag ∧
                r.live = false ∧ r.sqid = k ∧ r.sqHead = head)))) ∧
  (∀ (id : Nat) (s : State),
      ((∀ r ∈ s.que.dramReads, r.1 ≠ id) → ∀ data, exec (.dramReadResponse id data) s = .next s) ∧
      (∀ k head fetched, s.que.dramReads.find? (fun r => r.1 == id) = some (id, .packet k head fetched) →
        let u := s.onQue fun q => { q with dramReads := q.dramReads.filter fun r => r.1 != id }
        let prev := (head + s.sqSize k - 1) % s.sqSize k
        (∃ t r, exec (.dramReadResponse id none) s = .next t ∧
          t.que = { u.que with reqs := s.que.reqs ++ [r] } ∧ r.status = 0x52 ∧ r.live = false ∧ r.sqid = k ∧
          r.sqHead = head ∧ r.fetched = fetched ∧ bit r.detail 30 = true ∧ bit r.detail 31 = true ∧
          t.err = (s.err1 clsContained 1 2 (objDaddr (s.sqAddr k prev))).err ∧ t.drawn = s.drawn + 1) ∧
        (∀ d : List Byte, d.length = 64 → u.holdPacket (Pkt.ofBytes d) = true → crc32c (d.take 60) = (Pkt.ofBytes d).pcrc →
          exec (.dramReadResponse id (some d)) s =
            .next ((u.onPair k fun p => { p with sqHead := prev, claimed := p.claimed - 1 }).pairSettle k)) ∧
        (∀ d : List Byte, d.length = 64 → u.holdPacket (Pkt.ofBytes d) = false →
          exec (.dramReadResponse id (some d)) s =
            .next (u.checkPacket k head fetched (objDaddr (s.sqAddr k prev)) d false))))

/-- R103, R104, R129: the staging FIFO grants the oldest request while it has room: the record joins the FIFO with the
time of the grant, and its command is past its commit point. A full FIFO, or no request, changes nothing. A POWER entry
that is quiescent no more takes its request back (R436). R49, R98, R101, R106, R471: the record at the head of the
staging FIFO is written: the 32 bytes at the CQ tail, with PHASE of the present pass; the tail moves and PHASE is
inverted as it wraps; the claim ends and the tag is free. The record of a dark port is parked instead. What waits for the
tag goes on. -/
def Obligations.RecordsAreGrantedWrittenAndParked : Prop :=
  (∀ s : State,
      (s.que.reqs = [] → exec .completionRequestGrant s = .next s) ∧
      (256 ≤ s.que.csf.length → exec .completionRequestGrant s = .next s) ∧
      (∀ r rest, s.que.reqs = r :: rest → s.que.csf.length < 256 →
        ((∀ e, s.pwr.entry = some e → e.1 ≠ r.tag) → ∃ t, exec .completionRequestGrant s = .next t ∧
          t.que.reqs = rest ∧ t.que.csf = s.que.csf ++ [{ r with tstamp := s.now }] ∧
          (r.live = true → ∀ c, s.cmd? r.tag = some c → t.cmd? r.tag = some { c with stage := .granted, past := true }) ∧
          (s.que.csf.length + 1 = s.rd Reg.GLB_CSF_LEVEL_LEVEL → t.rd Reg.GLB_CSF_LEVEL_HIT = 1) ∧
          SameBut [.regs, .que, .dma] s t) ∧
        (∀ l, s.pwr.entry = some (r.tag, l) → r.live = true → (s.cmd r.tag).stage = .requested → s.quiescent r.tag = false →
          exec .completionRequestGrant s = .next (s.unrequest r.tag)))) ∧
  (∀ s : State,
      (s.que.csf = [] → exec .completionRecordWrite s = .next s) ∧
      (∀ r rest, s.que.csf = r :: rest → s.dark (r.sqid / 16) = false →
        let k := r.sqid
        let p := s.pair k
        let v := s.onQue fun q => { q with csf := rest }
        let a := s.rd (Reg.QUE_CQBASE_BASE k) * 64 + p.cqTail * 32
        let q : QPair := { p with
          cqTail := (p.cqTail + 1) % s.cqSize k, phase := p.phase != decide (p.cqTail + 1 = s.cqSize k), claimed := p.claimed - 1 }
        ∃ u : State, exec .completionRecordWrite s = .next u.detachStep.entryGo ∧ u.que.csf = rest ∧
          (s.is (Reg.QUE_CFG_ENABLE k) = true ∨ q.claimed ≠ 0 → u.pair k = q) ∧
          (s.is (Reg.QUE_CFG_ENABLE k) = false ∧ q.claimed = 0 → u.pair k = {}) ∧
          (r.live = true → u.cmd? r.tag = none) ∧
          (s.is (Reg.QUE_CFG_CQ_LOC k) = true → u.dram = (v.dramWrite a (r.bytes p.phase)).dram ∧ u.hdg = s.hdg) ∧
          (s.is (Reg.QUE_CFG_CQ_LOC k) = false → u.hdg = (v.hWrite a (r.bytes p.phase)).hdg ∧ u.dram = s.dram)) ∧
      (∀ r rest, s.que.csf = r :: rest → s.dark (r.sqid / 16) = true →
        (tget [] s.que.parked (r.sqid / 16)).length < 512 →
        ∃ u : State, exec .completionRecordWrite s = .next u.detachStep.entryGo ∧ u.que.csf = rest ∧
          tget [] u.que.parked (r.sqid / 16) = tget [] s.que.parked (r.sqid / 16) ++ [{ r with parked := true }] ∧
          u.hdg = s.hdg ∧ u.dram = s.dram))

/-- R107, R109: a FIFO whose pointers differ is emptied, and a record SOURCE 0x0F, CODE 4 names it. The packets of the
Holly inbox and the DMA_MOVEs of a descriptor queue complete with INTERNAL; the records of the staging FIFO are built
again with FRAMES, RETRY and ENERGY 0 and requested again; after an event FIFO's reset the status of every served LUN of
the channel must be read. The record is UNRECOVERED where a command lost an entry and CONTAINED otherwise. A number that
names no FIFO, and a clock that stands, change nothing (log entry 5). -/
def Obligations.FifoMismatchesEmptyOneFifo : Prop :=
  (∀ (k : FifoKind) (n : Nat) (s : State), (s.pwr.st ≠ .active ∨ s.sys.noClk = true ∨
      n ≥ (match k with | .lunq => 256 | .event => 8 | .csf => 1 | .dmaq => 16 | .inbox => 1)) →
    exec (.fifoPointerMismatch k n) s = .next s) ∧
  ∀ s : State, s.pwr.st = .active → s.sys.noClk = false →
    (∃ t, exec (.fifoPointerMismatch .csf 0) s = .next t ∧ t.que.csf = [] ∧
      t.que.reqs = s.que.reqs ++ s.que.csf.map rebuilt ∧
      (∀ r ∈ s.que.csf, (rebuilt r).status = 0x7F ∧ (rebuilt r).frames = 0 ∧ (rebuilt r).retry = 0 ∧ (rebuilt r).energy = 0 ∧
        (rebuilt r).result = r.result ∧ (rebuilt r).tag = r.tag) ∧
      t.err = (s.err1 (if s.que.csf.isEmpty then clsContained else clsUnrecovered) 0xF 4 3).err ∧
      SameBut [.regs, .que, .err] s t) ∧
    (∃ t, exec (.fifoPointerMismatch .inbox 0) s = .next t ∧ t.que.inbox = [] ∧ t.que.csf = s.que.csf ∧
      t.err = (s.err1 (if s.que.inbox.isEmpty then clsContained else clsUnrecovered) 0xF 4 5).err ∧
      (∀ g ∈ s.que.inbox, ∀ c, s.cmd? g = some c → c.stage = .entered → Completes t g 0x7F (detailFifo 5 0 false))) ∧
    (∀ n, n < 16 → ∃ u : State, exec (.fifoPointerMismatch .dmaq n) s = .next (u.dmaRetry n) ∧ (u.dmaCh n).queue = [] ∧
      (u.dmaCh n).act = (s.dmaCh n).act ∧ (u.dmaCh n).shadow = (s.dmaCh n).shadow ∧
      (∀ x ∈ (s.dmaCh n).queue, ∀ c, s.cmd? x.tag = some c → c.stage = .running →
        Completes u x.tag 0x7F (detailFifo 4 n false))) ∧
    (∀ n, n < 8 →
      let lost := s.top.ops.any fun o => lunCh o.lun == n && (o.st == .bus || o.st == .array || o.st == .suspended) &&
        !(s.opTags o).isEmpty
      ∃ u : State, exec (.fifoPointerMismatch .event n) s =
        .next (((u.err1 (if lost then clsUnrecovered else clsContained) 0xF 4 (2 + n * 256)).settle).kick n) ∧
      ∀ l, l / 32 = n → u.lunServes l = true → u.top.mustPoll.contains l = true) ∧
    (∀ n, n < 256 →
      let lost := (s.lunEntries n).any fun o => !(s.opTags o).isEmpty
      ∃ u : State, exec (.fifoPointerMismatch .lunq n) s =
        .next (((u.err1 (if lost then clsUnrecovered else clsContained) 0xF 4 (1 + n * 256)).settle).kick (n / 32)))


/-! ## Packets: frames, blocks, buffers and map pages -/

/-- A packet has its effect once, when it is outstanding and has not begun: a row whose tag is not outstanding, or names
a command of another opcode or one already under way, changes nothing. -/
def Obligations.PacketsActOnceWhenReady : Prop :=
  ∀ (c : Instr) (tag op : Nat) (s : State),
    packetRow c = some (tag, op) → s.ready? tag op = none → exec c s = .next s

/-- R53, R351, R384: a packet that names handles checks all of them first. Where one fails, the packet completes with the
status of the first that does, in frame order, and its position in DETAIL[15:0], and no buffer changes owner or state and
no operation begins. Where the list itself cannot be read, it completes with INTERNAL. -/
def Obligations.FailingHandlesStopAPacketWhole : Prop :=
  ∀ (tag : Tag) (slots : List Slot) (i : Instr) (op : Nat) (s : State) (c : Cmd),
    (i = .read tag ∧ op = opRead ∨ i = .program tag slots ∧ op = opProgram ∨ i = .programAtomic tag slots ∧ op = opAtomic ∨
      i = .bufShare tag ∧ op = opShare) →
    s.ready? tag.val op = some c → (op = opRead → c.pkt.dest = 2) →
    (∀ hs u k, s.handleList c.pkt = (none, hs, u) → k < hs.length → k < 65536 →
      u.useCheck (hs.getD k 0) c.pkt.client ≠ 0 → (∀ j, j < k → u.useCheck (hs.getD j 0) c.pkt.client = 0) →
      ∃ t, exec i s = .next t ∧ t.cop = s.cop ∧ t.top = s.top ∧ t.map = s.map ∧
        Completes t tag.val (u.useCheck (hs.getD k 0) c.pkt.client) (k + hdIndex (hs.getD k 0) * 2 ^ 16)) ∧
    (∀ a u, s.handleList c.pkt = (some a, [], u) →
      ∃ t, exec i s = .next t ∧ t.cop = s.cop ∧ t.top = s.top ∧ t.map = s.map ∧ Completes t tag.val 0x7F (detailStore a))

/-- R66, R68, R114, R119: a READ or READ_RAW begins its LENGTH frames in frame order, each of them looked up, read from
its die or held behind an earlier write; what is ready is delivered. A READ INTO keeps the handles it checked. -/
def Obligations.ReadsBeginTheirFramesInOrder : Prop :=
  ∀ (tag : Tag) (s : State) (c : Cmd),
    (s.ready? tag.val opRead = some c → c.pkt.dest ≠ 2 →
      ∃ u : State, exec (.read tag) s =
          .next ((List.range c.pkt.length).foldl (fun v k => v.startFrame tag.val k) u).settle ∧
        u.cmd? tag.val = some { c with
          stage := .running, handles := [], frames := (List.range c.pkt.length).map fun k => { pos := k, lfa := c.pkt.addr + k } } ∧
        SameBut [.que] s u) ∧
    (∀ hs v, s.ready? tag.val opRead = some c → c.pkt.dest = 2 → s.checkedHandles c = (none, hs, v) →
      ∃ u : State, exec (.read tag) s =
          .next ((List.range c.pkt.length).foldl (fun v k => v.startFrame tag.val k) u).settle ∧
        u.cmd? tag.val = some { c with
          stage := .running, handles := hs, frames := (List.range c.pkt.length).map fun k => { pos := k, lfa := c.pkt.addr + k } } ∧
        SameBut [.que] v u) ∧
    (s.ready? tag.val opReadRaw = some c →
      ∃ u : State, exec (.readRaw tag) s =
          .next ((List.range c.pkt.length).foldl (fun v k => v.startFrame tag.val k) u).settle ∧
        u.cmd? tag.val = some { c with stage := .running, frames := (List.range c.pkt.length).map fun k => { pos := k } } ∧
        SameBut [.que] s u)

/-- R36, R69, R123, R124, R444: an LFA-addressed PROGRAM or PROGRAM_ATOMIC without FUA whose frames fit under the dirty
quota accepts all of them in one step: each is dirty under its LFA, in the buffer of its handle, and counted; the
complex's name stands in place of the submitter's; an atomic one forms one group with the next number; and the packet
completes with OK. One that does not fit completes with QUOTA and accepts nothing. -/
def Obligations.ProgramsAcceptAllTheirFramesOrNone : Prop :=
  ∀ (tag : Tag) (slots : List Slot) (i : Instr) (op : Nat) (s v : State) (c : Cmd) (hs : List Nat),
    (i = .program tag slots ∧ op = opProgram ∨ i = .programAtomic tag slots ∧ op = opAtomic) →
    s.ready? tag.val op = some c → s.checkedHandles c = (none, hs, v) → c.pkt.isPfa = false → c.pkt.client < 4 →
    (c.pkt.flag 4 = true → ∀ h ∈ hs, (v.buf (hdIndex h)).owners.length < 4 ∨ 15 ∈ (v.buf (hdIndex h)).owners) →
    (v.dirtyQuota < v.rd Reg.PWR_QUOTA_DIRTY + hs.length →
      ∃ t, exec i s = .next t ∧ t.cop = s.cop ∧ t.top = s.top ∧ t.map = s.map ∧ t.que.dirty = s.que.dirty ∧
        t.que.groups = s.que.groups ∧
        Completes t tag.val 0x53 (1 + (v.rd Reg.PWR_QUOTA_DIRTY + hs.length) * 2 ^ 8)) ∧
    (v.rd Reg.PWR_QUOTA_DIRTY + hs.length ≤ v.dirtyQuota → c.pkt.flag 2 = false →
      ∃ u : State, exec i s = .next u.settle ∧ Completes u tag.val 0 0 ∧
        u.rd Reg.PWR_QUOTA_DIRTY = v.rd Reg.PWR_QUOTA_DIRTY + hs.length ∧
        (u.que.dirty.map fun d => (d.order, d.pos, d.region, d.lfa, d.buf)) =
          (s.que.dirty.map fun d => (d.order, d.pos, d.region, d.lfa, d.buf)) ++
            (List.range hs.length).map (fun k => (c.order, k, c.pkt.region, c.pkt.addr + k, hdIndex (hs.getD k 0))) ∧
        (op = opAtomic → u.que.groups = s.que.groups ++
            [{ num := s.que.nextGroup, region := c.pkt.region, first := c.pkt.addr, len := hs.length }] ∧
          u.que.nextGroup = (s.que.nextGroup + 1) % 65536) ∧
        (op = opProgram → u.que.groups = s.que.groups) ∧
        (∀ h ∈ hs, 15 ∈ (u.buf (hdIndex h)).owners ∧
          (c.pkt.flag 4 = false → c.pkt.client ∉ (u.buf (hdIndex h)).owners)))

/-- R73, R74, R193, R444: an ERASE of blocks of a LUN that is not in service completes with DIE_ABSENT; of one in service
it queues erases of those planes, one operation where the profile erases several together. A COPY to an LFA that does not
fit under the dirty quota completes with QUOTA; one from a PFA waits for the relocation lease of its LUN; any other
begins its frames. -/
def Obligations.ErasesAndCopiesBegin : Prop :=
  ∀ (tag : Tag) (slots : List Slot) (s : State) (c : Cmd),
    (s.ready? tag.val opErase = some c → s.lunServes (pfaLun c.pkt.addr) = false → 1 ≤ c.pkt.length →
      ∃ t w, exec (.erase tag) s = .next t ∧ t.top = s.top ∧ t.cmd? tag.val = some w ∧ w.stage = .requested ∧
        w.status = 0x33) ∧
    (s.ready? tag.val opErase = some c → s.lunServes (pfaLun c.pkt.addr) = true →
      ∃ t, exec (.erase tag) s = .next t ∧ t.que.reqs = s.que.reqs ∧
        ∃ new, t.top.ops = s.top.ops ++ new ∧
          (∀ o ∈ new, o.kind = .erase ∧ o.lun = pfaLun c.pkt.addr ∧ o.block = pfaBlock c.pkt.addr ∧ o.tag = some c.tag) ∧
          new.map (fun o => o.planes) =
            (if (match s.lunProf (pfaLun c.pkt.addr) with | some p => prCap p 2 | none => false) then
              [((List.range c.pkt.length).map fun k => 2 ^ (pfaPlane c.pkt.addr + k)).sum]
            else (List.range c.pkt.length).map fun k => 2 ^ (pfaPlane c.pkt.addr + k))) ∧
    (s.ready? tag.val opCopy = some c →
      (c.pkt.cpPfa = false → s.dirtyQuota < s.rd Reg.PWR_QUOTA_DIRTY + c.pkt.length →
        ∃ t, exec (.copy tag slots) s = .next t ∧ t.cop = s.cop ∧ t.top = s.top ∧
          Completes t tag.val 0x53 (1 + (s.rd Reg.PWR_QUOTA_DIRTY + c.pkt.length) * 2 ^ 8)) ∧
      ((c.pkt.cpPfa = true ∨ s.rd Reg.PWR_QUOTA_DIRTY + c.pkt.length ≤ s.dirtyQuota) →
        (c.pkt.isPfa = true →
          (∀ l ∈ s.top.waiting ++ s.top.leases, l.act ≠ .reloc ∨ l.res ≠ [resLun (pfaLun c.pkt.addr)] ∨ l.tag ≠ some c.tag) →
          ∃ t w, exec (.copy tag slots) s = .next t ∧
            t.top.waiting = s.top.waiting ++
              [{ act := .reloc, res := [resLun (pfaLun c.pkt.addr)], tag := some c.tag, no := s.top.leaseNo }] ∧
            t.cmd? tag.val = some w ∧ w.stage = .running ∧
            w.frames = (List.range c.pkt.length).map fun k => { pos := k, lfa := c.pkt.addr + k }) ∧
        (c.pkt.isPfa = false → ∃ u : State, exec (.copy tag slots) s = .next u.settle ∧
          u.cmd? tag.val = some { c with
            stage := .running, slots := slots.map fitSlot
            frames := (List.range c.pkt.length).map fun k => { pos := k, lfa := c.pkt.addr + k } } ∧
          SameBut [.que] s u)))

/-- R75, R81, R82, R120, R165: a TRIM, a MAP_PIN and a MAP_SYNC work on the leaf pages that cover their frames, a
MAP_SYNC of LENGTH 0 on every dirty page, and begin. A MAP_PIN beyond the pin quota completes with QUOTA and pins
nothing. A FLUSH waits for every write that entered before it, of its port or, with SCOPE 1, of the complex. -/
def Obligations.MapPacketsAndFlushesBegin : Prop :=
  ∀ (tag : Tag) (s : State) (c : Cmd),
    (s.ready? tag.val opTrim = some c →
      ∃ u : State, exec (.trim tag) s = .next u.settle ∧ SameBut [.que] s u ∧
        u.cmd? tag.val = some { c with
          stage := .running, pages := s.leafPages c.pkt.region c.pkt.addr c.pkt.length }) ∧
    (s.ready? tag.val opSync = some c →
      ∃ u : State, exec (.mapSync tag) s = .next u.settle ∧ SameBut [.que] s u ∧
        u.cmd? tag.val = some { c with
          stage := .running
          pages := if c.pkt.length = 0 then []
            else s.dirtyPages 0 fun k => (s.leafPages c.pkt.region c.pkt.addr c.pkt.length).contains k }) ∧
    (s.ready? tag.val opPin = some c → c.pkt.flag 2 = false →
      (∀ n, s.pinRefused (s.leafPages c.pkt.region c.pkt.addr c.pkt.length) = some n →
        ∃ t, exec (.mapPin tag) s = .next t ∧ t.map = s.map ∧ Completes t tag.val 0x53 (2 + n * 2 ^ 8)) ∧
      (s.pinRefused (s.leafPages c.pkt.region c.pkt.addr c.pkt.length) = none →
        ∃ u : State, exec (.mapPin tag) s = .next u.settle ∧ SameBut [.que] s u ∧
          u.cmd? tag.val = some { c with
            stage := .running, pages := s.leafPages c.pkt.region c.pkt.addr c.pkt.length })) ∧
    (s.ready? tag.val opPin = some c → c.pkt.flag 2 = true →
      ∃ u : State, exec (.mapPin tag) s = .next u.settle ∧ Completes u tag.val 0 0 ∧ SameBut [.que, .map] s u) ∧
    (s.ready? tag.val opFlush = some c →
      ∃ u v : State, exec (.flush tag) s = .next u.settle ∧ SameBut [.que] s v ∧
        v.cmd? tag.val = some { c with
          stage := .running
          waits := (s.que.ranges.filter fun r =>
            decide (r.order < c.order) && (c.pkt.flag 2 || r.port == c.pkt.client)).map fun r => r.order } ∧
        u = (s.que.dirty.filter fun d =>
            decide (d.order < c.order) && (c.pkt.flag 2 || d.client == c.pkt.client) && !d.lost).foldl
          (fun w d => w.forceFrame d.pfa d.cclass false) v)

/-- R77 to R79, R380, R384 to R386: a TRY allocation that cannot be granted whole completes with NO_BUFFER, counts, and
takes nothing; one that can books its buffers, general ones first; a WAIT allocation joins the requests. BUF_SHARE adds a
name to every buffer, or completes with QUOTA and adds none. BUF_FREE frees every handle alone, in order. -/
def Obligations.BufferPacketsActOnThePool : Prop :=
  ∀ (tag : Tag) (s : State) (c : Cmd),
    (s.ready? tag.val opAlloc = some c → c.pkt.flag 2 = true →
      (¬ (c.pkt.length ≤ s.copG + (s.copQ c.pkt.client - s.copU c.pkt.client) ∧ c.pkt.length ≤ s.copF) ∨
          s.is Reg.COP_REBUILD_BUSY = true ∨ s.is Reg.COP_STAT_READY = false →
        ∃ t, exec (.bufAlloc tag) s = .next t ∧ t.cop = s.cop ∧ Completes t tag.val 0x40 0 ∧
          t.rd Reg.COP_NOBUF_CNT = sat (2 ^ 32 - 1) (s.rd Reg.COP_NOBUF_CNT + 1)) ∧
      (c.pkt.length ≤ s.copG + (s.copQ c.pkt.client - s.copU c.pkt.client) ∧ c.pkt.length ≤ s.copF →
          s.is Reg.COP_REBUILD_BUSY = false → s.is Reg.COP_STAT_READY = true →
        ∃ t r, exec (.bufAlloc tag) s = .next t ∧ r ∈ t.cop.reqs ∧ r.use = .alloc c.tag ∧ r.req = c.pkt.client ∧
          r.left = c.pkt.length ∧ r.bookG = min c.pkt.length s.copG ∧ r.bookR = c.pkt.length - min c.pkt.length s.copG ∧
          t.cop.bufs = s.cop.bufs)) ∧
    (s.ready? tag.val opAlloc = some c → c.pkt.flag 2 = false → 1 ≤ c.pkt.length →
      ∃ t r, exec (.bufAlloc tag) s = .next t ∧ r ∈ t.cop.reqs ∧ r.use = .alloc c.tag ∧ r.req = c.pkt.client ∧
        r.left = c.pkt.length ∧ r.bookG = 0 ∧ r.bookR = 0 ∧ t.cop.bufs = s.cop.bufs) ∧
    (∀ hs v, s.ready? tag.val opShare = some c → s.checkedHandles c = (none, hs, v) →
      let who := c.pkt.param % 16
      ((∃ h ∈ hs, who ∉ (v.buf (hdIndex h)).owners ∧ 4 ≤ (v.buf (hdIndex h)).owners.length) →
        ∃ t, exec (.bufShare tag) s = .next t ∧ t.cop = s.cop ∧ Completes t tag.val 0x53 (4 + 5 * 2 ^ 8)) ∧
      ((∀ h ∈ hs, who ∈ (v.buf (hdIndex h)).owners ∨ (v.buf (hdIndex h)).owners.length < 4) →
        ∃ t, exec (.bufShare tag) s = .next t ∧ Completes t tag.val 0 0 ∧
          (∀ h ∈ hs, who ∈ (t.buf (hdIndex h)).owners) ∧ (∀ i, (∀ h ∈ hs, i ≠ hdIndex h) → t.buf i = s.buf i))) ∧
    (∀ hs v, s.ready? tag.val opFree = some c → s.handleList c.pkt = (none, hs, v) →
      ∃ t w, exec (.bufFree tag) s = .next t ∧
        t.cop = (hs.foldl (fun u h => (u.freeOne h c.pkt.client).2) v).cop ∧
        t.cmd? tag.val = some w ∧ w.stage = .requested ∧ w.count ≤ hs.length ∧ w.record ∈ t.que.reqs ∧
        (∀ h, hs = [h] → v.freeCheck h c.pkt.client = 0 → w.status = 0 ∧ w.count = 1) ∧
        (∀ h, hs = [h] → v.freeCheck h c.pkt.client ≠ 0 →
          w.status = v.freeCheck h c.pkt.client ∧ w.count = 0 ∧ w.detail = hdIndex h * 2 ^ 16))

/-- R385: a free that fails changes nothing: no name is removed and no list is touched. PL_COP_LAST_FAULT records it,
PL_COP_FREE_ERR counts it, and an error record of class CONTAINED names the buffer INDEX, the freeing requester and the
status. -/
def Obligations.FreesThatFailChangeNothing : Prop :=
  ∀ (req : Fin 16) (h : W32) (s : State), s.freeCheck h.toNat req ≠ 0 →
    ∃ t, exec (.bufferFree req h) s = .next t ∧ t.cop = s.cop ∧ t.hdg = s.hdg ∧ SameBut [.regs, .err] s t ∧
      t.rd Reg.COP_LAST_FAULT_INDEX = hdIndex h.toNat ∧ t.rd Reg.COP_LAST_FAULT_REQ = req ∧
      t.rd Reg.COP_LAST_FAULT_VALID = 1 ∧
      t.rd Reg.COP_LAST_FAULT_KIND =
        (if s.freeCheck h.toNat req = 0x41 then 1 else if s.freeCheck h.toNat req = 0x42 then 2 else 3) ∧
      t.rd Reg.COP_FREE_ERR_CNT = sat (2 ^ 32 - 1) (s.rd Reg.COP_FREE_ERR_CNT + 1) ∧
      t.err = (s.raise { cls := 3, src := 2, code := 1, sub := s.freeCheck h.toNat req, obj := hdIndex h.toNat, req := req }).err

/-- R376, R386: a free that passes removes the requester's name and no other. The buffer stays allocated while a name or
a hold remains, and returns to the pool, FREE and counted, with the last; no other buffer's entry changes. -/
def Obligations.FreesThatPassRemoveOneName : Prop :=
  ∀ (req : Fin 16) (h : W32) (s : State), s.freeCheck h.toNat req = 0 →
    let i := hdIndex h.toNat
    let left := (s.buf i).owners.filter fun o => o != req.val
    ∃ t, exec (.bufferFree req h) s = .next t ∧ (t.buf i).owners = left ∧ (∀ j, j ≠ i → t.buf j = s.buf j) ∧
      ((left ≠ [] ∨ (s.buf i).holds ≠ 0) → (t.buf i).alloc = true ∧ t.cop.ready = s.cop.ready ∧ t.hdg = s.hdg) ∧
      (left = [] → (s.buf i).holds = 0 → (t.buf i).alloc = false ∧
        t.rd Reg.COP_FREES_CNT = sat (2 ^ 32 - 1) (s.rd Reg.COP_FREES_CNT + 1) ∧
        (s.is Reg.COP_REBUILD_BUSY = false → s.is Reg.COP_STAT_READY = true →
          (s.cop.ready.length < 16 → t.cop.ready = s.cop.ready ++ [i]) ∧
          (16 ≤ s.cop.ready.length → t.cop.ready = s.cop.ready ∧ tget none t.cop.heads (s.cop.pushPtr % 8) = some i ∧
            tget 0 t.cop.lens (s.cop.pushPtr % 8) = tget 0 s.cop.lens (s.cop.pushPtr % 8) + 1)))


/-! ## DMA -/

/-- R80, R393 to R396, R402, R404: a DMA_MOVE joins the queue of its channel, the one that PARAM names, or an idle one of
its wing; where the queue is full its SQ waits. The descriptor at the head moves to an empty shadow set, and the shadow
transfer becomes active when none is, claiming a DCQ entry where the wing's DCQ is on and has one, else waiting for one.
A paced transfer starts paused below its HIGH mark. -/
def Obligations.DmaMovesQueueAndStart : Prop :=
  ∀ (s : State),
    (∀ (tag : Tag) c, s.ready? tag.val opDma = some c → c.pkt.listed = false →
      ∃ t n w, exec (.dmaMove tag) s = .next t ∧ t.cmd? tag.val = some w ∧ w.stage = .running ∧ w.phase = n ∧
        (c.pkt.param < 16 → n = c.pkt.param) ∧
        (c.pkt.param = 0xFF → (∃ k, k < 8 ∧ (s.dmaCh (8 * s.dmaWing c.pkt + k)).idle = true) →
          n / 8 = s.dmaWing c.pkt ∧ (s.dmaCh n).idle = true) ∧
        ((s.dmaCh n).queue.length < 8 → (t.dmaCh n).queue = (s.dmaCh n).queue ++ [descOf c]) ∧
        (8 ≤ (s.dmaCh n).queue.length → (t.dmaCh n).queue = (s.dmaCh n).queue ∧ (c.pair, c.tag) ∈ t.que.heldSq)) ∧
    (∀ (n : Fin 16),
      (∀ x r, (s.dmaCh n).shadow = none → (s.dmaCh n).queue = x :: r →
        exec (.dmaShadowLoad n) s =
          .next ((s.onDmaCh n fun d => { d with shadow := some x, queue := r }).dmaRetry n)) ∧
      ((s.dmaCh n).shadow ≠ none ∨ (s.dmaCh n).queue = [] → exec (.dmaShadowLoad n) s = .next s) ∧
      ((s.dmaCh n).act ≠ none ∨ (s.dmaCh n).shadow = none → exec (.dmaTransferStart n) s = .next s) ∧
      (∀ x, (s.dmaCh n).act = none → (s.dmaCh n).shadow = some x →
        let w := n.val / 8
        let on := s.is (Reg.DMA_W_DCQ_CFG_ENABLE w) && !(s.dcq w).closing
        ((on = true ∧ s.dcqSize w ≤ s.dcqFill w + (s.dcq w).claims + 1) →
          exec (.dmaTransferStart n) s = .next (s.setb (Reg.DMA_STAT_WAIT_DCQ n))) ∧
        ((on = false ∨ s.dcqFill w + (s.dcq w).claims + 1 < s.dcqSize w) →
          ∃ t, exec (.dmaTransferStart n) s = .next t ∧ (t.dmaCh n).shadow = none ∧
            (t.dmaCh n).act = some { x with
              claimed := on, paused := x.pace && decide (s.paceLevel n < s.paceHigh n)
              everPaused := x.pace && decide (s.paceLevel n < s.paceHigh n) } ∧
            (t.dcq w).claims = (s.dcq w).claims + b2n on ∧ t.rd (Reg.DMA_STAT_WAIT_DCQ n) = 0 ∧ t.rd (Reg.DMA_CRC_CRC n) = 0 ∧
            SameBut [.regs, .dma] s t)))

/-- R397, R401, R428: an active transfer of a fixed pattern that is neither paused nor held moves all its bytes:
into DRAM or the store, with every byte outside its destination as before; the channel is free, its CRC is the CRC-32C of
the bytes, and the packet completes with OK, the units moved and the CRC. -/
def Obligations.DmaTransfersMoveTheirBytes : Prop :=
  ∀ (n : Fin 16) (r : DmaEnd) (s : State) (x : Xfer) (c : Cmd),
    (s.dmaCh n).act = some x → s.cmd? x.tag = some c → c.stage = .running → x.paused = false → x.pace = false →
    x.srcK = 3 → x.append = false → r.dramErr = false →
    let data := (List.range (8 * x.len8)).map fun i => BitVec.ofNat 8 (x.src >>> (8 * (i % 8)))
    (x.dstK = 1 →
      ∃ t w, exec (.dmaTransferEnd n r) s = .next t ∧ (t.dmaCh n).act = none ∧ t.rd (Reg.DMA_CRC_CRC n) = crc32c data ∧
        t.cmd? x.tag = some w ∧ w.status = 0 ∧ w.detail = 0 ∧ w.count = x.len8 ∧ w.result = crc32c data ∧ w.record ∈ t.que.reqs ∧
        t.hdg = s.hdg ∧
        (∀ i, i < 8 * x.len8 → cellAt t.dram (x.dst + i) = some (data.getD i 0)) ∧
        (∀ a, a < x.dst ∨ x.dst + 8 * x.len8 ≤ a → cellAt t.dram a = cellAt s.dram a)) ∧
    (x.dstK = 0 → (∀ i, i < 8 * x.len8 → s.hRefused (x.dst + i) = false) →
      ∃ t w, exec (.dmaTransferEnd n r) s = .next t ∧ (t.dmaCh n).act = none ∧ t.rd (Reg.DMA_CRC_CRC n) = crc32c data ∧
        t.cmd? x.tag = some w ∧ w.status = 0 ∧ w.detail = 0 ∧ w.count = x.len8 ∧ w.result = crc32c data ∧ w.record ∈ t.que.reqs ∧
        t.dram = s.dram ∧
        (∀ i, i < 8 * x.len8 → t.hByte? (x.dst + i) = some (data.getD i 0)) ∧
        (∀ a, a < x.dst ∨ x.dst + 8 * x.len8 ≤ a → t.hByte? a = s.hByte? a))

/-- R399, R402, R471: a transfer that is paused, whose port is dark, or one buffer of whose list has 15 holds, does not
end; the last sets HOLD_WAIT. With no active transfer nothing ends. R402, R403: a port's report of a queue's level is
held for that queue; each active paced transfer that names the queue pauses at or below its LOW mark and goes on at or
above its HIGH mark, and no other part of the state changes. -/
def Obligations.PacedAndHeldTransfersWait : Prop :=
  (∀ (n : Fin 16) (r : DmaEnd) (s : State),
      ((s.dmaCh n).act = none → exec (.dmaTransferEnd n r) s = .next s) ∧
      (∀ x, (s.dmaCh n).act = some x →
        (x.paused = true ∨ (x.pace = true ∧ s.paceLevel n = 0) ∨ (x.dstK = 3 ∧ s.dark x.port = true) →
          exec (.dmaTransferEnd n r) s = .next s) ∧
        (x.paused = false → x.pace = false → (x.dstK = 2 ∨ x.srcK = 2) → x.dstK ≠ 3 →
          (∃ h ∈ (s.cmd x.tag).handles, 15 ≤ (s.buf (hdIndex h)).holds) →
          exec (.dmaTransferEnd n r) s = .next (s.setb (Reg.DMA_STAT_HOLD_WAIT n))))) ∧
  (∀ (p q : Fin 4) (level : BitVec 12) (s : State),
      ∃ t, exec (.paceLevelReport p q level) s = .next t ∧ SameBut [.dma] s t ∧
        tget 0 t.dma.levels (4 * p.val + q.val) = level.toNat ∧
        (∀ k, k ≠ 4 * p.val + q.val → tget 0 t.dma.levels k = tget 0 s.dma.levels k) ∧
        (∀ n, n < 16 → (s.dmaCh n).act = none → t.dmaCh n = s.dmaCh n) ∧
        (∀ n x, n < 16 → (s.dmaCh n).act = some x → x.pace = false → t.dmaCh n = s.dmaCh n) ∧
        (∀ n x, n < 16 → (s.dmaCh n).act = some x → x.pace = true → s.rd (Reg.DMA_PACE_QSEL n) = 4 * p.val + q.val →
          s.dark p = false → tget none s.que.att p ≠ none →
          (x.paused = false → level.toNat ≤ s.rd (Reg.DMA_PACE_LOW n) →
            (t.dmaCh n).act = some { x with paused := true, everPaused := true }) ∧
          (x.paused = true → s.paceHigh n ≤ level.toNat → (t.dmaCh n).act = some { x with paused := false }) ∧
          (x.paused = false → s.rd (Reg.DMA_PACE_LOW n) < level.toNat → (t.dmaCh n).act = some x)))

/-- R404 to R406: the record of a channel whose packet record is granted is written at the tail of its wing's DCQ, with
the PHASE of the present pass; the tail moves, PHASE is inverted as it wraps, and the claim ends; with the last claim a
closing DCQ is disabled. R404, R406: a consumer head that DCQ_DB carries is taken where it is legal; else the write is
ignored, DB_ERR is set and a CONTAINED record raised. A write that sets ENABLE of a disabled DCQ takes its settings:
where they are valid the queue starts empty with PHASE 1, else CFG_ERR is set. A write that clears ENABLE disables it at
once where nothing is claimed, and closes it otherwise. -/
def Obligations.DmaRecordsGoToDcqsThatAreConsumed : Prop :=
  (∀ (n : Fin 16) (s : State),
      ((∀ r ∈ (s.dmaCh n).done, r.granted = false) → exec (.dmaRecordWrite n) s = .next s) ∧
      (∀ r, (s.dmaCh n).done.find? (fun r => r.granted) = some r →
        let w := n.val / 8
        let tail := s.rd (Reg.DMA_W_DCQ_PTR_TAIL w)
        let v := s.onDmaCh n fun d => { d with done := d.done.erase r }
        let a := s.rd (Reg.DMA_W_DCQ_BASE_BASE w) * 64 + tail * 16
        ∃ t, exec (.dmaRecordWrite n) s = .next t ∧ (t.dmaCh n).done = (s.dmaCh n).done.erase r ∧
          t.rd (Reg.DMA_W_DCQ_PTR_TAIL w) = (tail + 1) % s.dcqSize w % 2 ^ 12 ∧
          (t.dcq w).phase = ((s.dcq w).phase != decide (tail + 1 = s.dcqSize w)) ∧
          (t.dcq w).claims = (s.dcq w).claims - 1 ∧
          (s.is (Reg.DMA_W_DCQ_CFG_LOC w) = true →
            t.dram = (s.dramWrite a (r.bytes (s.dcq w).phase s.now)).dram ∧ t.hdg = s.hdg) ∧
          (s.is (Reg.DMA_W_DCQ_CFG_LOC w) = false →
            t.hdg = (v.hWrite a (r.bytes (s.dcq w).phase s.now)).hdg ∧ t.dram = s.dram) ∧
          ((s.dcq w).closing = true → (s.dcq w).claims ≤ 1 →
            t.is (Reg.DMA_W_DCQ_CFG_ENABLE w) = false ∧ (t.dcq w).closing = false))) ∧
  (∀ (m : Master) (w : Fin 2) (v : W32) (s : State), Served s m →
      (s.is (Reg.DMA_W_DCQ_CFG_ENABLE w) = true → bits v.toNat 0 12 < s.dcqSize w →
        (bits v.toNat 0 12 + s.dcqSize w - s.rd (Reg.DMA_W_DCQ_PTR_HEAD w)) % s.dcqSize w ≤ s.dcqFill w →
        exec (.dcqDoorbell m w v) s = .next (s.fresh.wr (Reg.DMA_W_DCQ_PTR_HEAD w) (bits v.toNat 0 12))) ∧
      (s.is (Reg.DMA_W_DCQ_CFG_ENABLE w) = false ∨ s.dcqSize w ≤ bits v.toNat 0 12 ∨
          s.dcqFill w < (bits v.toNat 0 12 + s.dcqSize w - s.rd (Reg.DMA_W_DCQ_PTR_HEAD w)) % s.dcqSize w →
        exec (.dcqDoorbell m w v) s =
          .next ((s.fresh.setb (Reg.DMA_W_DCQ_CFG_DB_ERR w)).err1 clsContained 1 3 0 0 w)) ∧
      (s.is (Reg.DMA_W_DCQ_CFG_ENABLE w) = false → bit v.toNat 0 = true →
        ∃ t, exec (.dcqEnable m w v) s = .next t ∧ SameBut [.regs, .dma, .resp] s t ∧
          (t.is (Reg.DMA_W_DCQ_CFG_ENABLE w) = true ↔ 4 ≤ bits v.toNat 2 4 ∧ bits v.toNat 2 4 ≤ 12 ∧
            s.ringOk (bit v.toNat 1) (s.rd (Reg.DMA_W_DCQ_BASE_BASE w)) (16 * 2 ^ bits v.toNat 2 4) = true) ∧
          (t.is (Reg.DMA_W_DCQ_CFG_ENABLE w) = true → t.rd (Reg.DMA_W_DCQ_PTR_TAIL w) = 0 ∧
            t.rd (Reg.DMA_W_DCQ_PTR_HEAD w) = 0 ∧ (t.dcq w).phase = true) ∧
          (t.is (Reg.DMA_W_DCQ_CFG_ENABLE w) = false → t.rd (Reg.DMA_W_DCQ_CFG_CFG_ERR w) = 1) ∧
          t.rd (Reg.DMA_W_DCQ_CFG_SIZE w) = bits v.toNat 2 4 ∧ t.rd (Reg.DMA_W_DCQ_CFG_LOC w) = bits v.toNat 1 1) ∧
      (s.is (Reg.DMA_W_DCQ_CFG_ENABLE w) = true → bit v.toNat 0 = false →
        ∃ t, exec (.dcqDisable m w v) s = .next t ∧ SameBut [.regs, .dma, .resp] s t ∧
          ((s.dcq w).claims = 0 → t.is (Reg.DMA_W_DCQ_CFG_ENABLE w) = false) ∧
          ((s.dcq w).claims ≠ 0 → t.is (Reg.DMA_W_DCQ_CFG_ENABLE w) = true ∧ (t.dcq w).closing = true) ∧
          t.rd (Reg.DMA_W_DCQ_CFG_SIZE w) = s.rd (Reg.DMA_W_DCQ_CFG_SIZE w)))


/-! ## MAINT, POWER and ABORT -/

/-- R83, R84, R193, R196, R311: a MAINT leaves the Holly inbox and asks for the lease of its activity. With HOLD 0 it
completes with DEFERRED, cause 1, where a resource is held or asked for by a higher activity, and is counted; otherwise
it waits for its lease. Before that, a channel below SDR, or below PRE for PATROL and CALIB, defers it with cause 4, an
allocated store region with cause 2, and a LUN that is not in service ends it with DIE_ABSENT. -/
def Obligations.MaintPacketsAskForTheirLeases : Prop :=
  ∀ (tag : Tag) (s : State) (c : Cmd),
    let v := (s.takeInbox tag.val).wantCalibs
    let a := c.pkt.addr
    let asks : Instr → Nat → Act → List (Nat × Nat) → Prop := fun i kind act res => s.maint? tag.val kind = some c →
      ((c.pkt.flag 2 = true ∨ v.leaseConflict act res = none) →
        ∃ t w, exec i s = .next t ∧ t.cmd? tag.val = some w ∧ w.stage = .running ∧ tag.val ∉ t.que.inbox ∧
          ∃ l ∈ t.top.waiting ++ t.top.leases, l.act = act ∧ l.res = res ∧ l.tag = some tag.val) ∧
      (∀ r, c.pkt.flag 2 = false → v.leaseConflict act res = some r →
        ∃ t, exec i s = .next t ∧ Completes t tag.val 0x60 (1 + r.1 * 2 ^ 8 + r.2 * 2 ^ 16) ∧
          t.rd Reg.TOP_LEASE_DEFERRED_CNT = sat (2 ^ 32 - 1) (v.rd Reg.TOP_LEASE_DEFERRED_CNT + 1))
    let ends : Instr → Nat → Nat → Nat → Prop := fun i kind st d => s.maint? tag.val kind = some c →
      ∃ t, exec i s = .next t ∧ Completes t tag.val st d ∧ t.top = s.top
    asks (.scrubStore tag) 0 .scrub [resRgn (bits a 0 5)] ∧
    (s.hAllocated (bits a 0 5) = false → asks (.selftestStore tag) 5 .selftestStore [resRgn (bits a 0 5)]) ∧
    (s.hAllocated (bits a 0 5) = true → ends (.selftestStore tag) 5 0x60 (2 + 3 * 2 ^ 8 + bits a 0 5 * 2 ^ 16)) ∧
    (s.level (bits a 0 3) ≠ 0 →
      asks (.train tag) 2 .train [resCh (bits a 0 3)] ∧ asks (.zqcal tag) 4 .zqcal [resCh (bits a 0 3)] ∧
      asks (.selftestChannel tag) 6 .selftestCh [resCh (bits a 0 3)]) ∧
    (s.level (bits a 0 3) = 0 → ∀ i kind, (i, kind) ∈ [(Instr.train tag, 2), (.zqcal tag, 4), (.selftestChannel tag, 6)] →
      ends i kind 0x60 (4 + 1 * 2 ^ 8 + bits a 0 3 * 2 ^ 16)) ∧
    (∀ i kind act res, (i, kind, act, res) ∈
        [(Instr.patrol tag, 1, Act.patrol, [resLun (pfaLun a)]), (.calib tag, 3, .calib, resCalib (pfaLun a))] →
      (s.lunServes (pfaLun a) = true → s.groupFirst a = true → 2 ≤ s.level (lunCh (pfaLun a)) → asks i kind act res) ∧
      (s.lunServes (pfaLun a) = false → s.maint? tag.val kind = some c →
        ∃ t w, exec i s = .next t ∧ t.cmd? tag.val = some w ∧ w.stage = .requested ∧ w.status = 0x33 ∧ t.top = s.top) ∧
      (s.lunServes (pfaLun a) = true → s.groupFirst a = false → ends i kind 0x51 (8 + 2 * 2 ^ 8)) ∧
      (s.lunServes (pfaLun a) = true → s.groupFirst a = true → s.level (lunCh (pfaLun a)) < 2 →
        ends i kind 0x60 (4 + 1 * 2 ^ 8 + lunCh (pfaLun a) * 2 ^ 16)))

/-- R85, R436, R439, R442: with no other POWER under way, a POWER for the operating point in use completes with OK at
once; one for the other point begins the switch, and one that meets a switch under way takes its place in it; one for NAP
or DORMANT begins the entry. One that meets an entry under way replaces it, and the POWER replaced completes with
SLEEP_DEFERRED. R434 to R441: without work the complex enters IDLE where IDLE_EN is 1, and wakes to serve the accesses it
held. The entry of a low-power state goes on once the complex is quiescent: NAP requests the record, DORMANT begins its
flush; LIMIT ends an entry with SLEEP_DEFERRED. A wake from NAP relocks the PHY clocks; one from DORMANT takes the core
supply, CCLK, an image and policy firmware, as a cold start does, and turns its flash domains on, 200 µs apart under
FC_STRAP[2] (R538). -/
def Obligations.PowerStatesAreEnteredAndLeft : Prop :=
  (∀ (tag : Tag) (s : State) (c : Cmd), s.ready? tag opPower = some c →
      (s.powerTag = none → s.pwr.econ = none → c.pkt.param = 0 → s.rd Reg.PWR_CTL_ECON = b2n (c.pkt.flag 2) →
        ∃ t, exec (.powerActive tag) s = .next t ∧ Completes t tag 0 0 ∧ SameBut [.que] s t) ∧
      (s.powerTag = none → s.pwr.econ = none → c.pkt.param = 0 → s.rd Reg.PWR_CTL_ECON ≠ b2n (c.pkt.flag 2) →
        ∃ t w, exec (.powerActive tag) s = .next t ∧ t.cmd? tag = some w ∧ w.stage = .running ∧
          t.pwr = { s.pwr with econ := some (tag, b2n (c.pkt.flag 2), 0) } ∧ SameBut [.que, .pwr] s t) ∧
      (∀ o point k, s.pwr.econ = some (o, point, k) → c.pkt.param = 0 →
        ∃ t w, exec (.powerActive tag) s = .next t ∧ t.cmd? tag = some w ∧ w.stage = .running ∧
          t.pwr.econ = some (tag.val, point, k) ∧
          ∀ old x, s.powerTag = some old → s.cmd? old = some x → old ≠ tag.val → Completes t old 0x61 0) ∧
      (∀ i target, (i, target) ∈ [(Instr.powerNap tag, 2), (.powerDormant tag, 3)] → c.pkt.param = target →
        (s.powerTag = none →
          ∃ t w, exec i s = .next t ∧ t.cmd? tag = some w ∧ w.stage = .running ∧
            t.pwr = { s.pwr with entry := some (tag.val, target), entrySince := s.now } ∧ SameBut [.que, .pwr] s t) ∧
        (∀ old x, s.powerTag = some old → s.cmd? old = some x → old ≠ tag.val →
          ∃ t, exec i s = .next t ∧ t.pwr.entry = some (tag.val, target) ∧ Completes t old 0x61 0 ∧
            t.rd Reg.PWR_STAT_ENTRY_DEFER = 1))) ∧
  (∀ s : State,
      (s.pwr.st = .active → s.is Reg.PWR_CTL_IDLE_EN = true → s.workBut none = false → s.pwr.waking = none → s.pwr.hold = 0 →
        s.pwr.warn = false → s.sys.warmRun = none → s.sys.noClk = false →
        ∃ t, exec .idleEntry s = .next t ∧ t.pwr = { s.pwr with st := .idle } ∧
          t.hdg = { s.hdg with lapStart := t.hdg.lapStart } ∧ SameBut [.pwr, .hdg] s t) ∧
      (s.pwr.st ≠ .active ∨ s.is Reg.PWR_CTL_IDLE_EN = false ∨ s.workBut none = true → exec .idleEntry s = .next s) ∧
      (s.pwr.st = .idle → s.pwr.waking ≠ none → ∃ v : State,
        exec .idleWake s = .next (State.when (s.pwr.held.foldl State.serve v)
          ((s.pwr.held.foldl State.serve v).pwr.hold == 1) State.holdBegin) ∧
        v.pwr = { s.pwr with st := .active, waking := none, held := [] } ∧ SameBut [.pwr, .hdg] s v) ∧
      (∀ m, (Served s m → exec (.pwrWakeWrite m) s = .next s.fresh) ∧
        ((∀ p, m ≠ .client p) → s.pwr.st = .nap ∨ s.pwr.st = .dormant → exec (.pwrWakeWrite m) s =
          .next { s.fresh with pwr := { s.pwr with waking := some (s.pwr.waking.getD 0) } })) ∧
      (∀ t k c, s.pwr.entry = some (t, k) → s.cmd? t = some c → c.stage = .running →
        (c.accepted = false → s.quiescent t = true →
          (k = 2 → ∃ u, exec .powerEntryQuiescent s = .next u ∧ Completes u t 0 0 ∧ SameBut [.que] s u) ∧
          (k ≠ 2 → ∃ u : State, exec .powerEntryQuiescent s = .next u.settle ∧
            u.cmd? t = some { c with accepted := true, phase := 0 } ∧ SameBut [.que] s u)) ∧
        (s.quiescent t = false → exec .powerEntryQuiescent s = .next s) ∧
        (c.accepted = false → ∃ u, exec .powerEntryLimitExpiry s = .next u ∧ Completes u t 0x61 0 ∧
          u.rd Reg.PWR_STAT_ENTRY_DEFER = 1 ∧ u.pwr = { s.pwr with entry := none } ∧
          FieldsBut [Reg.PWR_STAT_ENTRY_DEFER] s u ∧ SameBut [.regs, .que, .pwr] s u)) ∧
      (s.pwr.st = .nap → s.pwr.waking ≠ none → ∃ u : State,
        exec .napWakeDone s = .next (State.when u.settle (u.settle.pwr.hold == 1) State.holdBegin) ∧
        u.pwr = { s.pwr with st := .active, waking := none } ∧ u.rd Reg.PWR_STAT_WOKE = 1 ∧ u.box.latched = [] ∧
        (∀ n, n < 8 → 2 ≤ s.level n → (u.chan n).relock = some (s.rd (Reg.CH_STAT_BIN n))) ∧
        (∀ n, n < 8 → s.level n < 2 → u.chan n = s.chan n)) ∧
      (s.pwr.st = .dormant → s.pwr.waking = some 0 →
        exec .coreSupplyGood s = .next { s with pwr := { s.pwr with waking := some 1 } }) ∧
      (s.sys.noClk = true → s.pwr.st = .active → ∃ t, exec .cclkLocked s = .next t ∧ t.sys.noClk = false ∧
        t.rd Reg.MCS_CTL_LOAD_EN = 1 ∧ t.mcs = { s.mcs with loading := some s.actMcs, tried := 0 } ∧
        t.rd Reg.COP_REBUILD_BUSY = 1 ∧
        (∀ b, (s.hollyHead s.actHolly = none ∧ b = s.actHolly) ∨
            (s.hollyHead s.actHolly ≠ none ∧ s.hollyHead (1 - s.actHolly) = none ∧ b = 1 - s.actHolly) →
          t.hly.running = true ∧ t.rd Reg.HLY_STAT_BANK = b ∧ t.rd Reg.HLY_STAT_NO_IMAGE = 0) ∧
        (s.hollyHead s.actHolly ≠ none → s.hollyHead (1 - s.actHolly) ≠ none →
          t.hly.running = false ∧ t.hly.halted = true ∧ t.rd Reg.HLY_STAT_NO_IMAGE = 1 ∧ t.que.inbox = [])) ∧
      (s.sys.noClk = false → s.pwr.st = .dormant → s.pwr.waking = some 1 → ∃ t, exec .cclkLocked s = .next t ∧
        t.pwr = { s.pwr with st := .active, waking := some 2, enAt := t.pwr.enAt } ∧
        (s.is Reg.PWR_CTL_DORM_FLASH = false ∨ s.is Reg.GLB_STRAP_DOM_SEQ = false → t.pwr.enAt = s.pwr.enAt) ∧
        (s.is Reg.PWR_CTL_DORM_FLASH = true → s.is Reg.GLB_STRAP_DOM_SEQ = true →
          ∀ k, 1 ≤ k → k ≤ 3 → tget 0 t.pwr.enAt k = s.now + 200 * k) ∧ t.rd Reg.MCS_CTL_LOAD_EN = 1 ∧
        t.mcs = { s.mcs with loading := some s.actMcs, tried := 0 } ∧ t.rd Reg.COP_REBUILD_BUSY = 1 ∧
        (s.is Reg.HLY_STAT_NO_IMAGE = false → t.hly.running = true ∧ t.rd Reg.HLY_STAT_BANK = s.actHolly) ∧
        (s.is Reg.HLY_STAT_NO_IMAGE = true → t.hly = s.hly)))

/-- R86, R130, R131: an ABORT of a tag that is not outstanding, or of another client's unless CP3 sends it, completes
with ABORT_NOT_FOUND; of an outstanding ABORT with INVALID_FIELD; of a command past its last moment of removal with
ABORT_TOO_LATE. One that finds its target removes it: the target completes with ABORTED, and the ABORT with OK. -/
def Obligations.AbortsRemoveOrSayWhyNot : Prop :=
  ∀ (tag : Tag) (s : State) (c : Cmd), s.ready? tag opAbort = some c →
    let ends : Nat → Nat → Prop := fun st d => ∃ u : State, exec (.abort tag) s = .next u.settle ∧ Completes u tag st d ∧
      SameBut [.que] s u
    (s.cmd? (c.pkt.addr % 4096) = none → ends 0x13 0) ∧
    (∀ x, s.cmd? (c.pkt.addr % 4096) = some x →
      (c.pkt.client ≠ 3 → x.pkt.client ≠ c.pkt.client → ends 0x13 0) ∧
      (c.pkt.client = 3 ∨ x.pkt.client = c.pkt.client →
        (x.pkt.opcode = opAbort → ends 0x51 (8 + 2 * 2 ^ 8)) ∧
        (x.pkt.opcode ≠ opAbort → s.removable x = false → ends 0x12 0) ∧
        (x.pkt.opcode ≠ opAbort → s.removable x = true →
          exec (.abort tag) s = .next ((s.remove x 0x10).finish tag 0 0).settle) ∧
        (x.pkt.opcode = opFlush ∨ x.pkt.opcode = opSync ∨ opSlow x.pkt.opcode = true → s.removable x = true → x.tag ≠ tag →
          ∃ u : State, exec (.abort tag) s = .next u.settle ∧ Completes u tag 0 0 ∧ Completes u x.tag 0x10 0 ∧
            (opSlow x.pkt.opcode = true → x.tag ∉ u.que.inbox))))


/-! ## The packets that policy firmware serves -/

/-- R87: an ATTACH whose range overlaps another port's, or for CP3 does not hold its own tag, completes with
INVALID_FIELD; of an attached port with tags outstanding with DEFERRED, cause 5, and their number; with a reserve that
the pool cannot cover with QUOTA. Otherwise the port has the range and the reserve it names. R88, R473: a DETACH of a
port with no command outstanding detaches it and completes with OK. With ABORT it first removes the port's commands that
can still be removed. A DETACH of a port with commands outstanding waits for them. R470 to R472: a port reported DOWN is
dark and nothing else changes. A port reported UP is dark no more; where it is attached its parked records go to their
CQs in park order, and its park store is empty. -/
def Obligations.PortsAreAttachedDetachedDarkAndBack : Prop :=
  (∀ (tag : Tag) (s : State) (c : Cmd), s.slow? tag opAttach = some c →
      let port := bits c.pkt.param 0 4
      let base := bits c.pkt.addr 0 16
      let n := bits c.pkt.addr 16 16
      let q := bits c.pkt.addr 32 16
      let live := (s.portCmds port tag).length
      let lies := ∃ o b k, o < 4 ∧ o ≠ port ∧ tget none s.que.att o = some (b, k) ∧ base < b + k ∧ b < base + n
      let ends : Nat → Nat → Prop := fun st d => ∃ t, exec (.attach tag) s = .next t ∧ Completes t tag st d ∧
        t.que.att = s.que.att ∧ t.regs = s.regs
      (lies → ends 0x51 (8 + 2 * 2 ^ 8)) ∧
      (¬ lies → port = 3 → (tag.val < base ∨ base + n ≤ tag.val) → ends 0x51 (8 + 2 * 2 ^ 8)) ∧
      (¬ lies → (port = 3 → base ≤ tag.val ∧ tag.val < base + n) →
        (tget none s.que.att port ≠ none → live ≠ 0 → ends 0x60 (5 + live * 2 ^ 16)) ∧
        ((tget none s.que.att port = none ∨ live = 0) →
          (s.poolSize < s.copSum port q → ends 0x53 (3 + s.copSum port q % 2 ^ 24 * 2 ^ 8)) ∧
          (s.copSum port q ≤ s.poolSize →
            ∃ t, exec (.attach tag) s = .next t ∧ Completes t tag 0 0 ∧ tget none t.que.att port = some (base, n) ∧
              (∀ o, o ≠ port → tget none t.que.att o = tget none s.que.att o) ∧
              t.rd (Reg.COP_RSV_QUOTA port) = q % 2 ^ 13 ∧ FieldsBut [Reg.COP_RSV_QUOTA port] s t)))) ∧
  (∀ (tag : Tag) (s : State) (c : Cmd), s.slow? tag opDetach = some c →
      let port := bits c.pkt.param 0 4
      let v := (s.takeInbox tag).running tag
      ((s.que.cmds.filter fun d => d.tag == tag.val || (d.pkt.opcode == opDetach && d.stage == .running)) = [c] →
        s.dark port = false → c.pkt.flag 2 = false →
        ((∀ d ∈ s.que.cmds, d.pkt.client = port → d.tag = tag.val) →
          ∃ u : State, exec (.detach tag) s = .next u.settle ∧ Completes u tag 0 0 ∧ tget none u.que.att port = none ∧
            SameBut [.que, .hly] s u) ∧
        ((∃ d ∈ s.que.cmds, d.pkt.client = port ∧ d.tag ≠ tag.val) →
          exec (.detach tag) s = .next v.settle ∧ v.que.att = s.que.att)) ∧
      (c.pkt.flag 2 = true →
        exec (.detach tag) s =
          .next (((v.portCmds port tag).filter v.removable).foldl (fun u x => u.remove x 0x10) v).detachStep.settle)) ∧
  (∀ (p : Fin 4) (s : State),
      (∃ t, exec (.portLinkDown p) s = .next t ∧ t.dark p = true ∧ (∀ q, q ≠ p.val → t.dark q = s.dark q) ∧
        t.que = { s.que with dark := t.que.dark } ∧ SameBut [.que] s t) ∧
      (s.dark p = false → exec (.portLinkUp p) s = .next s) ∧
      (s.dark p = true → tget none s.que.att p = none →
        exec (.portLinkUp p) s = .next (s.onQue fun q => { q with dark := q.dark.filter fun x => x != p.val })) ∧
      (s.dark p = true → tget none s.que.att p ≠ none →
        ∃ u : State, u.dark p = false ∧ tget [] u.que.parked p = [] ∧ u.que.csf = s.que.csf ∧ u.hdg = s.hdg ∧
          exec (.portLinkUp p) s = .next
            ((((tget [] s.que.parked p).foldl (fun v r => v.writeCq r) u).detachStep).settle.entryGo)))

/-- R89, R193, R463: a DISCOVER of a scope with a channel whose power domain is disabled completes with DEFERRED, cause
4, and names the first; while an activation runs with cause 3. Otherwise it asks for the lease of each channel of the
scope whose domain has power. R456, R459, R462, R463, R522: discovery of a channel begins when nothing on it stands in the
way, at SDR timing mode 0, with write protection on and the segments of the enumeration that FCn_ENI chooses; a chain that
is still low after a volume runs those of the next. It ends, once its segments have run, with each target's record, bound
to the profile it meets, with each LUN position compared with the inventory, and with the channel's lease free; the
comparison's states are PRESENT, MISSING and empty. The bring-up scan ends with its list of torn groups, none where the
journal asked for no scan (R520). -/
def Obligations.ChannelsAreDiscoveredAndCompared : Prop :=
  (∀ (tag : Tag) (s : State) (c : Cmd), s.slow? tag opDiscover = some c →
      let sc := scopeOf c.pkt
      (c.pkt.param = 0 → sc = [0, 1, 2, 3, 4, 5, 6, 7]) ∧ (c.pkt.param = 1 → sc = [bits c.pkt.addr 0 3]) ∧
      (c.pkt.param = 2 → sc = [2 * bits c.pkt.addr 0 2, 2 * bits c.pkt.addr 0 2 + 1]) ∧
      (∀ n, sc.find? (fun n => !bit (s.rd Reg.PWR_DOM_EN) (n / 2)) = some n →
        ∃ t, exec (.discover tag) s = .next t ∧ Completes t tag 0x60 (4 + 1 * 2 ^ 8 + n * 2 ^ 16) ∧ t.top = s.top) ∧
      ((∀ n ∈ sc, bit (s.rd Reg.PWR_DOM_EN) (n / 2) = true) →
        (s.hly.actv ≠ none → ∃ t, exec (.discover tag) s = .next t ∧ Completes t tag 0x60 3 ∧ t.top = s.top) ∧
        (s.hly.actv = none → (∃ n ∈ sc, bit (s.rd Reg.PWR_DOM_PG_FAIL) (n / 2) = false) →
          ∃ t w, exec (.discover tag) s = .next t ∧ t.cmd? tag = some w ∧ w.stage = .running ∧
            w.waits = sc.filter (fun n => !bit (s.rd Reg.PWR_DOM_PG_FAIL) (n / 2)) ∧
            ∀ n ∈ w.waits, ∃ l ∈ t.top.waiting ++ t.top.leases, l.act = .discover ∧ l.res = [resCh n] ∧ l.tag = none))) ∧
  ((∀ (ch : Fin 8) (s : State),
      (∀ eni,
        let more := (s.chan ch).disc && (s.chan ch).chain && (s.chan ch).jobs.isEmpty && !eni && decide ((s.chan ch).volNo < 7)
        (s.discReady ch = false → more = false → exec (.discoveryStart ch eni) s = .next s) ∧
        (s.discReady ch = false → more = true → ∃ u : State, exec (.discoveryStart ch eni) s = .next (u.kick ch) ∧
          u.chan ch = { s.chan ch with volNo := (s.chan ch).volNo + 1, jobs := chainJobs ((s.chan ch).volNo + 1) } ∧
          (∀ n, n ≠ ch.val → u.chan n = s.chan n) ∧ SameBut [.chs] s u) ∧
        (s.discReady ch = true → ∃ u : State, exec (.discoveryStart ch eni) s = .next (u.kick ch) ∧
          u.chan ch = { s.chan ch with
            disc := true, chain := !eni, chainBad := false, wp := false, eno := !eni, volNo := 0
            jobs := (s.chan ch).jobs ++ (if eni then plainJobs else chainJobs 0) } ∧
          (∀ n, n ≠ ch.val → u.chan n = s.chan n) ∧ u.sys.targs = s.sys.targs ∧ u.sys.luns = s.sys.luns ∧
          u.rd (Reg.CH_MODE_IFMODE ch) = 0 ∧ u.rd (Reg.CH_MODE_SDR_TM ch) = 0 ∧
          FieldsBut [Reg.CH_MODE_IFMODE ch, Reg.CH_MODE_SDR_TM ch] s u ∧ SameBut [.regs, .chs, .sys] s u)) ∧
      (∀ r : DiscRes,
        ((s.chan ch).disc = false ∨ (s.chan ch).jobs ≠ [] → exec (.discoveryEnd ch r) s = .next s) ∧
        ((s.chan ch).disc = true → (s.chan ch).jobs = [] →
          ∃ u : State, exec (.discoveryEnd ch r) s = .next (u.wokeCheck.busFree ch none) ∧
          (u.chan ch).disc = false ∧ ch.val ∉ u.sys.undisc ∧ u.sys.discTime = s.now ∧
          (∀ l ∈ u.top.leases, l.act ≠ .discover ∨ l.res ≠ [resCh ch]) ∧
          (∀ t, t < 8 →
            let old := tget {} s.sys.targs (8 * ch.val + t)
            let new := match (discPresent { r with found := r.found.map s.fitFound }).find? fun f => f.target.val == t with
              | some f => targOf f
              | none => { old with found := false }
            tget {} u.sys.targs (8 * ch.val + t) = { new with prof := bindOf s.mcs.img.profs new } ∧
            ∀ k, k < 4 →
              let was := s.lunPos (32 * ch.val + 4 * t + k)
              let here := new.found && decide (k < new.luns)
              let now := u.lunPos (32 * ch.val + 4 * t + k)
              ((was = 1 ∨ was = 3) → here = true → sameTarg old new = true → now = was) ∧
              ((was = 1 ∨ was = 3) → here = true → sameTarg old new = false → now = 1) ∧
              ((was = 1 ∨ was = 3) → here = false → now = 2) ∧
              (was ≠ 1 → was ≠ 3 → now = if here then 1 else was)) ∧
          ∀ i, i / 8 ≠ ch.val → tget {} u.sys.targs i = tget {} s.sys.targs i))) ∧
    (∀ (r : TornRes) (s : State),
      (s.is Reg.ERR_TORN_READY = true ∨ s.sys.noClk = true → exec (.tornScanDone r) s = .next s) ∧
      (s.is Reg.ERR_TORN_READY = false → s.sys.noClk = false →
        let l := if s.sys.scan then r.list else []
        ∃ t, exec (.tornScanDone r) s = .next t ∧
        t.rd Reg.ERR_TORN_READY = 1 ∧ t.err.torn = (s.err.torn ++ l).take 255 ∧
        t.rd Reg.ERR_TORN_COUNT = min 255 (s.err.torn.length + l.length) ∧
        (l ≠ [] → t.rd Reg.ERR_TORN_NEW = 1) ∧
        (255 < s.err.torn.length + l.length → t.rd Reg.ERR_TORN_OVER = 1) ∧
        t.err.tornTime = s.now ∧ SameBut [.regs, .err] s t)))

/-- R90, R504: SET_POLICY of a number that the table does not hold, or with a value outside its range, completes with
INVALID_FIELD; otherwise the parameter takes the value and RESULT returns the previous one. With PERSIST the value is
first stored in Yew. -/
def Obligations.SetPolicyChangesOneParameter : Prop :=
  ∀ (tag : Tag) (s : State) (c : Cmd), s.slow? tag opPolicy = some c →
    let n := bits c.pkt.addr 0 16
    let v := bits c.pkt.addr 32 32
    ((∀ p ∈ s.hly.params, p.1 ≠ n) →
      ∃ t, exec (.setPolicy tag) s = .next t ∧ Completes t tag 0x51 (8 + 2 * 2 ^ 8) ∧ t.hly.params = s.hly.params) ∧
    (∀ lo hi now kept, s.hly.params.find? (fun p => p.1 == n) = some (n, lo, hi, now, kept) →
      (v < lo ∨ hi < v ∨ s.policyBad n v = true →
        ∃ t, exec (.setPolicy tag) s = .next t ∧ Completes t tag 0x51 (12 + 2 * 2 ^ 8) ∧ t.hly.params = s.hly.params) ∧
      (lo ≤ v → v ≤ hi → s.policyBad n v = false → c.pkt.flag 2 = false → n ≠ 2 →
        ∃ t w, exec (.setPolicy tag) s = .next t ∧ t.param n = v ∧ (∀ k, k ≠ n → t.param k = s.param k) ∧
          t.cmd? tag = some w ∧ w.stage = .requested ∧ w.status = 0 ∧ w.result = now ∧ w.record ∈ t.que.reqs ∧
          SameBut [.que, .hly] s t) ∧
      (lo ≤ v → v ≤ hi → s.policyBad n v = false → n = 2 →
        ∃ t w, exec (.setPolicy tag) s = .next t ∧ t.param 2 = v ∧ (∀ k, k ≠ 2 → t.param k = s.param k) ∧
          t.cmd? tag = some w ∧ w.stage = .requested ∧ w.status = 0 ∧ w.result = now ∧ w.record ∈ t.que.reqs ∧
          (v ≤ 255 → (s.lunPos v = 1 ∨ s.lunPos v = 2) → v ∈ t.top.retireReq) ∧ SameBut [.que, .hly, .top] s t) ∧
      (lo ≤ v → v ≤ hi → s.policyBad n v = false → c.pkt.flag 2 = true → n ≠ 2 →
        ∃ t w, exec (.setPolicy tag) s = .next t ∧ t.cmd? tag = some w ∧ w.stage = .running ∧ t.hly.params = s.hly.params ∧
          SameBut [.que, .hly, .yew, .regs] s t))

/-- R91, R336, R430, R464, R474, R506, R523, R572: GET_INFO writes its page at HLIST in the store and completes with OK
and RESULT the number of valid bytes; no byte of the store outside the page changes. PL_GLB_ID stands in the first four
bytes of the identity page. Reading the parked page clears the counts of dropped records. -/
def Obligations.GetInfoWritesItsPage : Prop :=
  ∀ (tag : Tag) (s : State) (c : Cmd), s.slow? tag opInfo = some c →
    (s.rd Reg.GLB_ID_FAMILY = 0x504C → s.rd Reg.GLB_ID_MAJOR = 2 → s.rd Reg.GLB_ID_MINOR = 0 →
      s.identity.take 4 = [0x00, 0x02, 0x4C, 0x50]) ∧
    (∀ i page data result, (i, page, data, result) ∈
        [(Instr.getInfoIdentity tag, 0, s.identity, 128), (.getInfoInventory tag, 1, s.inventory, 2112),
          (.getInfoTorn tag, 2, s.tornPage, 16 + 16 * s.err.torn.length), (.getInfoEnergy tag, 4, s.energyPage, 96),
          (.getInfoPolicy tag, 5, s.policyPage, 16 * s.hly.params.length),
          (.getInfoParked tag, 6, (List.range 4).flatMap s.parkRecord, 64)] →
      c.pkt.param = page → ∃ t w, exec i s = .next t ∧ t.hdg = ((s.takeInbox tag).hWrite c.pkt.hlist data).hdg ∧
        (∀ a, (a < c.pkt.hlist ∨ c.pkt.hlist + data.length ≤ a) → t.hByte? a = s.hByte? a) ∧
        t.cmd? tag = some w ∧ w.stage = .requested ∧ w.status = 0 ∧ w.detail = 0 ∧ w.result = result ∧ w.record ∈ t.que.reqs ∧
        t.que.dropped = (if page = 6 then [] else s.que.dropped)) ∧
    (c.pkt.param = 3 → ∃ t w, exec (.getInfoHealth tag) s = .next t ∧ t.cmd? tag = some w ∧ w.stage = .requested ∧
      w.status = 0 ∧ w.result = 16 + 16 * (s.healthGroups (bits c.pkt.addr 0 14)).length ∧ w.record ∈ t.que.reqs)

/-! ## The map walker -/

/-- R150, R155, R157: where the read of a map page has ended with its four quarters, or the zero fill of a never-written
page has ended, the page is resident and clean in the slot of its miss, whose bytes it gives, and the miss entry closes.
A page that could not be read becomes BROKEN and is resident nowhere. A page that policy firmware rebuilt waits for a way of
its set, and with one it is resident and dirty, and BROKEN no more. R149, R159, R162: outside hold-up a write-back that may start, at a slot that can take it,
becomes four frames of class DEEP, one for each quarter, in the class of the FLUSH or MAP_SYNC that asks for it. One that ends failed is taken off, so that the page is written
again. The passed write-back of a directory page is counted, changes its root entry, and leaves the page clean unless an
entry changed since; an eviction frees its slot unless the page was pinned meanwhile. -/
def Obligations.MapPagesAreFilledAndWrittenBack : Prop :=
  (∀ (key : PageKey) (s : State),
      let takes : Instr → Nat → List Byte → Bool → Prop := fun i k d dirty =>
        ∃ u : State, exec i s = .next u.settle ∧ (∃ x, u.mslot k = some x ∧ x.key = key ∧ x.dirty = dirty ∧ x.pin = false) ∧
          (∀ j, j ≠ k → u.mslot j = s.mslot j) ∧ u.miss? key = none ∧ u.map.wbs = s.map.wbs ∧ u.map.rgns = s.map.rgns ∧
          (s.hRefused (s.slotAddr k) = false → ∀ j, j < 16384 → u.hByte? (s.slotAddr k + j) = d[j]?) ∧
          (∀ a, (a < s.slotAddr k ∨ s.slotAddr k + d.length ≤ a) → u.hByte? a = s.hByte? a)
      (∀ m k, s.miss? key = some m → m.slot = some k → m.stage = 1 →
        takes (.mapPageZeroFillDone key) k (List.replicate 16384 0) false) ∧
      (∀ m k, s.miss? key = some m → m.slot = some k → m.stage = 2 →
        (∀ f ∈ s.ecc.flights, ∀ q, f.ref ≠ .map key q) →
        (m.bad = false → 4 ≤ m.parts.length → takes (.mapPageReadDone key) k m.page false) ∧
        (m.bad = true ∨ m.parts.length < 4 → ∃ u : State, exec (.mapPageReadDone key) s = .next u.settle ∧
          key ∈ u.map.broken ∧ u.miss? key = none ∧ u.rd Reg.MAP_STAT_BROKEN = 1)) ∧
      (∀ data : List Byte, key ∈ s.map.broken → s.is Reg.MAP_CTL_ENABLE = true → s.hly.running = true →
        ∃ u : State, exec (.mapPageInstall key data) s = .next u.settle ∧ SameBut [.map, .drawn] s u ∧
          u.map = { s.map with
            rebuilt := (s.map.rebuilt.filter fun r => r.1 != key) ++ [(key, s.shape 16384 data)] }) ∧
      (∀ (data : List Byte) (k : Nat), data.length = 16384 → s.victim key = some k →
        let u := s.rebuiltStep key data
        (∃ x, u.mslot k = some x ∧ x.key = key ∧ x.dirty = true ∧ x.pin = false) ∧ (∀ j, j ≠ k → u.mslot j = s.mslot j) ∧
          key ∉ u.map.broken ∧ (∀ r ∈ u.map.rebuilt, r.1 ≠ key) ∧ u.miss? key = none ∧
          (s.hRefused (s.slotAddr k) = false → ∀ j, j < 16384 → u.hByte? (s.slotAddr k + j) = data[j]?) ∧
          (∀ a, (a < s.slotAddr k ∨ s.slotAddr k + 16384 ≤ a) → u.hByte? a = s.hByte? a))) ∧
  (∀ (key : PageKey) (s : State),
      (∀ slot : Slot,
        let pfa := (fitSlot slot).pfa
        s.pwr.hold = 0 → s.wbMayStart key = true → (∀ q, q < 4 → s.canPlace 3 (s.pfaNext 3 pfa q) = true) →
        ∃ t w, exec (.mapWritebackStart key slot) s = .next t ∧ t.map.wbs = s.map.wbs ++ [w] ∧ w.key = key ∧ w.pfa = pfa ∧
          w.evict = s.wbEvicts key ∧ w.cls = s.wbClass key ∧ w.fin = false ∧ w.bad = false ∧
          ∀ q, q < 4 → (∀ r, q < r → r < 4 → s.pfaNext 3 pfa r ≠ s.pfaNext 3 pfa q) →
            ∃ f ∈ t.top.pfs, f.pfa = s.pfaNext 3 pfa q ∧ f.src = .map key q ∧ f.cclass = 3) ∧
      (∀ w, (s.map.wbs.find? fun w => w.key == key) = some w → w.fin = false →
        (∀ f ∈ s.top.pfs, ∀ q, f.src ≠ .map key q) →
        (w.bad = true →
          exec (.mapWritebackDone key) s =
            .next (State.settle { s with map := { s.map with wbs := s.map.wbs.filter fun x => x.key != key } })) ∧
        (w.bad = false → key.level = 1 → w.replayed = false → (s.ctlWord (s.rootOff key)).1 ≠ none →
          ∃ u : State, exec (.mapWritebackDone key) s = .next u.settle ∧
            u.map.wbs = s.map.wbs.filter (fun x => x.key != key) ∧
            u.rd Reg.MAP_WRITEBACKS_CNT = sat (2 ^ 32 - 1) (s.rd Reg.MAP_WRITEBACKS_CNT + 1) ∧
            (let a := s.mapCtl + 8 * ((s.lrgn key.region.val).root + key.page)
             (s.hRefused a = false → ∀ j, j < 8 → u.hByte? (a + j) = (leBytes 8 (mkEntry w.pfa w.cclass key.region.val w.seq))[j]?) ∧
             ∀ x, (x < a ∨ a + 8 ≤ x) → u.hByte? x = s.hByte? x) ∧
            ∀ k x, s.mapFind key = some k → s.mslot k = some x →
              (w.changed = true → u.mslot k = some { x with ports := w.since }) ∧
              (w.changed = false → w.evict = true → x.pin = false → x.gpins = [] → u.mslot k = none) ∧
              (w.changed = false → (w.evict = false ∨ x.pin = true ∨ x.gpins ≠ []) →
                u.mslot k = some { x with dirty := false, ports := 0 }))))

/-- R145, R167: a load of a region's entry that the walker refuses sets RGN_ERR and leaves every region as it was; one
that it accepts sets the region, or retires it. A request of the register port to enable the map sets REQ and tells
policy firmware, or is refused with CFG_ERR; a write of Holly sets ENABLE while REQ is 1, and no other write of 1 does.
R454: the root table that was not restored yet is restored by then; with no checkpoint it reads 0. -/
def Obligations.RegionsAreLoadedAndTheMapIsEnabled : Prop :=
  (∀ (m : Master) (v : W32) (s : State), Served s m → s.is Reg.MAP_RGN_LOAD_BUSY = false → s.mapRegs ≠ [] →
    let r := bits v.toNat 0 6
    ∀ e u, s.fresh.rgnEntry r = (some e, u) →
      let bad := (s.lrgn r).v = true ∨ e.ok = false ∨ ∃ q, q < 64 ∧ q ≠ r ∧ (s.lrgn q).overlaps e = true
      ((e.v = true ∧ bad) ∨ (e.v = false ∧ (s.lrgn r).v = true ∧ s.rgnUsed r = true) →
        ∃ t, exec (.mapRegionLoad m v) s = .next t ∧ t.rd Reg.MAP_STAT_RGN_ERR = 1 ∧ t.map = s.map) ∧
      (e.v = true → ¬ bad → ∃ t, exec (.mapRegionLoad m v) s = .next t ∧ t.lrgn r = e ∧ (∀ q, q ≠ r → t.lrgn q = s.lrgn q) ∧
        t.regs = u.regs) ∧
      (e.v = false → (s.lrgn r).v = true → s.rgnUsed r = false →
        ∃ u : State, exec (.mapRegionLoad m v) s = .next u.settle ∧ u.lrgn r = { s.lrgn r with v := false } ∧
          (∀ q, q ≠ r → u.lrgn q = s.lrgn q) ∧ r ∈ u.map.retiring ∧ u.rd Reg.MAP_RGN_LOAD_BUSY = 1)) ∧
  (∀ (v : W32) (s : State), s.pwr.st = .active → s.is Reg.MAP_CTL_ENABLE = false → bit v.toNat 0 = true →
    (s.mapRegionsOk = false → ∃ t, exec (.mapEnableRequest v) s = .next t ∧ t.rd Reg.MAP_CTL_CFG_ERR = 1 ∧
      FieldsBut [Reg.MAP_CTL_CFG_ERR] s t ∧ SameBut [.regs, .resp] s t) ∧
    (∀ l u, s.mapRegionsOk = true → ({ s with resp := .none, regs := (s.when (bit v.toNat 1) fun s => s.wr Reg.MAP_CTL_CFG_ERR 0).regs }
        : State).rgnTable = (some l, u) →
      (tableOk l = false → ∃ t, exec (.mapEnableRequest v) s = .next t ∧ t.rd Reg.MAP_CTL_CFG_ERR = 1 ∧ t.map = s.map) ∧
      (tableOk l = true → ∃ t, exec (.mapEnableRequest v) s = .next t ∧ t.rd Reg.MAP_CTL_REQ = 1 ∧
        t.is Reg.MAP_CTL_ENABLE = false ∧ t.hly.posts = s.hly.posts ++ [(4, 0)] ∧
        ∀ r, r < 64 → t.lrgn r = if (l.getD r {}).v then l.getD r {} else {})) ∧
    (∀ r : MapRestore,
      (s.is Reg.MAP_CTL_REQ = true → ∃ u : State, exec (.mapEnableSet v r) s = .next u.settle ∧ u.rd Reg.MAP_CTL_ENABLE = 1 ∧
        u.rd Reg.MAP_CTL_REQ = 0 ∧ u.rd Reg.MAP_CTL_NREG = s.mapRegs.length % 32 ∧
        u.rd Reg.MAP_CTL_SLOTS = 64 * s.mapRegs.length - 8 ∧ u.sys = { s.sys with restore := false } ∧
        (s.sys.restore = false → SameBut [.regs, .resp] s u) ∧
        (s.sys.restore = true → s.sys.replay = false →
          (∀ a, (a < s.mapCtl ∨ s.mapCtl + 32768 ≤ a) → u.hByte? a = s.hByte? a) ∧
          (s.map.ckpt = none → s.hRefused s.mapCtl = false → ∀ j, j < 32768 → u.hByte? (s.mapCtl + j) = some 0))) ∧
      (s.is Reg.MAP_CTL_REQ = false → ∃ t, exec (.mapEnableSet v r) s = .next t ∧ t.is Reg.MAP_CTL_ENABLE = false ∧
        SameBut [.regs, .resp] s t)))

/-! ## Topiary: operations, tokens, polls, suspends, leases -/

/-- R172, R173, R184, R185, R416, R417: a LUN that can start an operation asks for the tokens of the entry that comes
first by its class and deadline. Boxwood takes the request it evaluates off its list and grants it where its charge fits,
which then is in use, or refuses it; the answer puts a granted operation on its way to the bus, and leaves a refused one
eligible: it asks again at a release. WRITE and MAINT entries and segments age into a higher tier, and a refused operation
that ages becomes the reserved one of a rail on which it was short, where none is reserved. -/
def Obligations.OperationsStartByTokens : Prop :=
  (∀ (lun : Fin 256) (s : State),
    let w := s.askReleased
    let v := w.openBlocks lun
    (w.startStopped = true ∨ (w.lunServes lun = true ∧ w.lunStopped lun = true) → exec (.opStart lun) s = .next w) ∧
    (w.startStopped = false → w.lunServes lun = true → w.lunStopped lun = false →
    (v.choose lun = none → exec (.opStart lun) s = .next v) ∧
    (∀ o, v.choose lun = some o →
      o ∈ v.startable lun ∧ (v.firstWrite lun = none → ∀ e ∈ v.startable lun, o.key ≤ e.key) ∧
      (∀ f, v.firstWrite lun = some f → f.st ≠ .refused → v.barred f = false → o = f) ∧
      ∃ t y, exec (.opStart lun) s = .next t ∧ t.op? o.id = some y ∧ y.st = .asked ∧ o.id ∈ t.box.asks))) ∧
  (∀ (s : State) (o : Op),
    let w := s.askReleased
    let v := (w.opCharge o).1
    let q := (w.opCharge o).2
    w.pwr.st = .active → w.nextAsk = some o →
    v ≤ w.live 0 → q ≤ w.live 1 → (w.rd Reg.BOX_CHCAP_VCC = 0 ∨ v ≤ w.rd Reg.BOX_CHCAP_VCC) → w.neverRail v q = none →
    ∃ t y, exec .tokenEvaluate s = .next t ∧ t.op? o.id = some y ∧ t.box.asks = w.box.asks.erase o.id ∧
      (w.grants o v q = true → y.tokV = v ∧ y.tokQ = q ∧ t.rd Reg.BOX_INUSE_VCC = (w.inUse 0 + v) % 2 ^ 16 ∧
        t.rd Reg.BOX_INUSE_VCCQ = (w.inUse 1 + q) % 2 ^ 16 ∧ (o.resuming = false → y.st = .won) ∧
        (o.resuming = true → y.granted = true)) ∧
      (w.grants o v q = false → y.tokV = o.tokV ∧ y.tokQ = o.tokQ ∧ t.regs = w.regs ∧ (o.resuming = false → y.st = .lost) ∧
        (o.resuming = true → y.resuming = true ∧ y.st = o.st))) ∧
  (∀ (op : Nat) (s : State) (o : Op), s.op? op = some o →
    (o.granted = false → o.st = .won → s.lunProf o.lun ≠ none →
      ∃ t y, exec (.tokenAnswer op) s = .next t ∧ t.op? op = some y ∧ y.st = .bus ∧ y.tokV = o.tokV ∧ y.tokQ = o.tokQ) ∧
    (o.granted = false → o.st = .lost → ∃ u : State, exec (.tokenAnswer op) s = .next (u.queueLun o.lun) ∧
      u.op? op = some { o with st := .refused } ∧ SameBut [.top] s u) ∧
    (∀ i cls, (i, cls) ∈ [(Instr.writeAgeExpiry op, 2), (.maintAgeExpiry op, 3)] → o.cls = cls → o.held = false →
      (o.st = .queued ∨ o.st = .refused ∨ o.st = .asked) →
      ∃ t, exec i s = .next t ∧ t.op? op = some { o with aged := true } ∧ SameBut [.top] s t) ∧
    ((o.shortV = false ∧ o.shortQ = false) ∨ s.live 0 < (s.opCharge o).1 ∨ s.live 1 < (s.opCharge o).2 →
      exec (.tokenAgeExpiry op) s = .next s) ∧
    ((o.shortV = true ∨ o.shortQ = true) → (s.opCharge o).1 ≤ s.live 0 → (s.opCharge o).2 ≤ s.live 1 →
      ∃ t y, exec (.tokenAgeExpiry op) s = .next t ∧ t.op? op = some y ∧ y.tokAge ≠ 0 ∧ y = { o with tokAge := y.tokAge } ∧
        (∀ r, s.top.rsvV = some r → t.top.rsvV = some r) ∧ (∀ r, s.top.rsvQ = some r → t.top.rsvQ = some r) ∧
        (s.top.rsvV = none → (∀ x ∈ s.top.ops, x.tokAge = 0) → o.shortV = true → t.top.rsvV = some op) ∧
        (s.top.rsvQ = none → (∀ x ∈ s.top.ops, x.tokAge = 0) → o.shortQ = true → t.top.rsvQ = some op) ∧
        SameBut [.top] s t)) ∧
  (∀ (ch : Fin 8) (op : Nat) (s : State), (∃ g ∈ s.segs ch, g.op = op) →
    ∃ t, exec (.busAgeExpiry ch op) s = .next t ∧
      t.segs ch = (s.segs ch).map (fun g => if g.op = op then { g with aged := true } else g) ∧ SameBut [.top, .mcs] s t)

/-- R178, R180, R186, R188, R190, R195, R468: a LUN that is due is polled by a status segment; a page set whose bound
expires is gathered no longer; a running program or erase is suspended by a segment, or the limit is counted; a suspended
operation asks for its tokens again; a watchdog that expires is counted, blocks the LUN and resets it; the waiting
request of the highest precedence takes its leases; and a LUN is retired once nothing holds it. -/
def Obligations.LunsArePolledSuspendedResetAndLeased : Prop :=
  ∀ (lun : Fin 256) (s : State),
    let queues : State → Nat → Nat → Prop := fun t op what =>
      ∃ g, (g ∈ t.segs (lunCh lun) ∨ tget none t.top.run (lunCh lun) = some g) ∧ g.lun = lun.val ∧ g.op = op ∧ g.what = what
    (∀ o, s.arrayOp lun = some o → s.lunProf lun ≠ none → s.polling lun = false →
      ∃ t, exec (.statusPollDue lun) s = .next t ∧ queues t o.id 1) ∧
    (∀ (set : Nat) (g : WGroup), (s.top.groups.find? fun g => g.ord == set && !g.forced && !g.ended) = some g →
      g.isSet g.lun g.block g.cclass (lowPlane g.planes) = true →
      ∃ t, exec (.gatherTimeout set) s = .next t ∧ (∀ o ∈ t.top.ops, o.ord = set → o.gathering = false) ∧
        (∃ x ∈ t.top.groups, x = { g with forced := true }) ∧ SameBut [.top, .regs] s t) ∧
    (∀ x, (s.lunActive lun).filter (fun x => x.st == .array || x.st == .suspended) = [x] → x.st = .array → x.lun = lun.val → s.suspendable x = true →
      (x.susp < s.rd Reg.TOP_SUSP_LIMIT → ∃ t, exec (.suspendStart lun) s = .next t ∧ queues t x.id 2) ∧
      (s.rd Reg.TOP_SUSP_LIMIT ≤ x.susp → ∃ t, exec (.suspendStart lun) s = .next t ∧
        t.rd Reg.TOP_SUSP_LIMIT_CNT = sat (2 ^ 32 - 1) (s.rd Reg.TOP_SUSP_LIMIT_CNT + 1) ∧ SameBut [.regs] s t)) ∧
    (∀ x, s.suspended? lun = some x → x.resuming = false → x.granted = false →
      (∀ y ∈ s.lunActive lun, y.id = x.id ∨ y.kind = .prog) →
      ((s.suspReads ≤ x.served ∨ s.startStopped = true ∨
          ∀ o ∈ s.lunEntries lun, o.id ≠ x.id → o.cls ≤ 1 → s.opEligible o = false) →
        ∃ t y, exec (.resumeDue lun) s = .next t ∧ t.box.asks = s.box.asks ++ [x.id] ∧ t.op? x.id = some y ∧
          y.resuming = true ∧ SameBut [.top, .box] s t) ∧
      (∃ t y, exec (.suspendWindowExpiry lun) s = .next t ∧ t.box.asks = s.box.asks ++ [x.id] ∧ t.op? x.id = some y ∧
        y.resuming = true ∧ SameBut [.top, .box] s t)) ∧
    (∀ o, s.arrayOp lun = some o → s.lunProf lun ≠ none → o.resetting = 0 →
      ∃ u : State, exec (.arrayWatchdogExpiry lun) s = .next u.settle ∧ queues u o.id 4 ∧ lun.val ∈ u.top.blocked ∧
        u.rd Reg.TOP_WDOG_FIRED_CNT = sat (2 ^ 32 - 1) (s.rd Reg.TOP_WDOG_FIRED_CNT + 1)) ∧
    (∀ (asked : List PolicyAsk) (l : Lease),
      let v := (asked.foldl State.policyAsk s).wantCalibs
      let u := v.takeLease l
      s.pwr.st = .active → s.leaseStopped = false → v.leaseNext = some l →
      exec (.leaseGrant asked) s = .next (((u.deferPassed l).actBegin l).settle) ∧ u.top.leases = v.top.leases ++ [l] ∧ u.top.waiting.length < v.top.waiting.length ∧
        (∀ h ∈ v.top.leases, ∀ r ∈ h.res, r ∉ l.res) ∧
        (∀ w ∈ v.top.waiting, v.leaseHeld w.res = false → v.leaseBarred w = false → l.key ≤ w.key) ∧
        ∀ n, n < 8 → resCh n ∈ l.res → u.rd (Reg.TOP_CHLEASE_CH n) = l.act.code) ∧
    (lun.val ∈ s.top.retireReq → s.leased (resLun lun) = false →
      (∀ o ∈ s.top.ops, o.lun = lun.val → o.st ≠ .array ∧ o.st ≠ .suspended) →
      (∀ r ∈ s.top.run, ∀ g, r.2 = some g → g.lun ≠ lun.val) →
      ∃ u : State, exec (.lunRetirementEffect lun) s = .next u.settle ∧ lun.val ∈ u.top.retired ∧
        lun.val ∉ u.top.retireReq ∧ u.lunPos lun = 3)

/-! ## The sequencers -/

/-- R210 to R213, R215, R216, R221, R222: the microwords that go on at UPC + 1. On a running sequencer whose microword is
of the row's kind and has no fault, with no event pending, each changes what its micro-op names, takes its cycles, and
leaves every other part of the sequencer as it was; a POST waits while the event FIFO of the channel is full (R105); H leaves the boundary unsampled at most 16 times in a row, and never
after WAIT and BURST. -/
def Obligations.MicrowordsHaveTheirEffects : Prop :=
  ∀ (ch : Fin 8) (s : State), s.seqRuns ch = true → s.twoLevel = false →
    (∀ k ∈ s.fetchKeys ch (s.seq ch).upc, tget 0 s.mcs.csErr k = 0) → (s.seq ch).upc ≠ 16383 → (s.seq ch).evs = 0 →
    let q := s.seq ch
    let w := s.microword q.upc
    let x := q.wreg (mW w)
    let next := { q with upc := q.upc + 1, held := if mH w ∧ q.held < 16 then q.held + 1 else 0 }
    let goes : Instr → Nat → Seq → Prop := fun i c r => ∃ t, exec i s = .next t ∧ t.seq ch = { r with cycles := q.cycles + c }
    q.mFault w = none →
    (mOp w = 0x00 → goes (.nop ch) 1 next) ∧
    (mOp w = 0x03 → goes (.setim ch) 1 { next with im := bits w 0 3 }) ∧
    (mOp w = 0x04 → goes (.ce ch) 1 { next with
      ce := if bit w 4 then some (if bit w 3 then bits (q.obw 1) 0 3 else bits w 0 3) else none }) ∧
    (mOp w = 0x05 → goes (.cmd ch) (s.caCycles ch 1) { next with
      tx := [BitVec.ofNat 8 (if bit w 8 then x else bits w 0 8)], cle := true, ale := false }) ∧
    (mOp w = 0x06 → goes (.addr ch) (s.caCycles ch (bits w 0 3)) { next with
      tx := (List.range (bits w 0 3)).map fun i => BitVec.ofNat 8 (tget 0 q.aar (bits w 3 3 + i))
      cle := false, ale := true }) ∧
    (mOp w = 0x07 → goes (.lda ch) 1 { next with aar := tset 0 (tset 0 q.aar (bits w 0 3) (x % 256)) (bits w 0 3 + 1) (x / 256) }) ∧
    (mOp w = 0x08 → goes (.wait ch)
      (if bit w 12 then s.slotCycles (s.seqProf q) (bits w 0 5) else if bits w 0 12 = 0 then 4096 else bits w 0 12)
      { next with held := 0 }) ∧
    (mOp w = 0x09 → ∀ inp : BusIn, let k := q.burstCount w
      (inp.edgesOk = true → inp.drift = false → inp.preamble = true → goes (.burst ch inp) (s.dtCycles ch k) { next with
        held := 0, phyerr := false, last := k, total := q.total + k, cle := false, ale := false
        rx := if bit w 13 ∨ bit w 14 then q.rx else q.rx ++ fit k (fitBus inp).bytes
        tx := if bit w 13 then s.stagedBytes ch q k else q.tx }) ∧
      ((inp.edgesOk = false ∨ inp.drift = true) → inp.preamble = true → ∃ t, exec (.burst ch inp) s = .next t ∧
        t.rd (Reg.CH_ERRCNT_PHYERR ch) = sat (2 ^ 16 - 1) (s.rd (Reg.CH_ERRCNT_PHYERR ch) + 1))) ∧
    (mOp w = 0x0A → ∀ inp : BusIn,
      let b := fun i => ((fitBus inp).bytes.getD i 0).toNat
      let y := (mW w + 1) % 8
      let one := tset 0 q.w (mW w) ((if bits w 0 2 = 0 then x / 256 * 256 + b 0 else b 0 + 256 * b 1) % 65536)
      goes (.rdb ch inp) (s.caCycles ch (bits w 0 2 + 1)) { next with
        s := if bit w 2 then b 0 else q.s, cle := false, ale := false
        w := if bits w 0 2 ≤ 1 then one
          else tset 0 one y ((if bits w 0 2 = 2 then q.wreg y / 256 * 256 + b 2 else b 2 + 256 * b 3) % 65536) }) ∧
    (mOp w = 0x0B → goes (.wrb ch) (s.caCycles ch (bits w 0 2 + 1)) { next with
      tx := (leBytes 2 x ++ leBytes 2 (q.wreg (mW w + 1))).take (bits w 0 2 + 1), cle := false, ale := false }) ∧
    (mOp w = 0x0C → goes (.pin ch) 1 next ∧ ∃ t, exec (.pin ch) s = .next t ∧
      (t.chan ch).wp = (if bit w 1 then bit w 0 else (s.chan ch).wp) ∧
      (t.chan ch).eno = (if bit w 3 then bit w 2 else (s.chan ch).eno)) ∧
    (mOp w = 0x0D →
      (s.evFull ch = false → goes (.post ch) 1 next ∧ ∃ t, exec (.post ch) s = .next t ∧
        (t.chan ch).events = (s.chan ch).events ++ [{ code := bits w 0 8, w := x }]) ∧
      (s.evFull ch = true → exec (.post ch) s = .next s)) ∧
    (mOp w = 0x18 → goes (.ldi ch) 1 { next with w := tset 0 q.w (mW w) (bits w 0 16) }) ∧
    (mOp w = 0x19 →
      let y := if bit w 19 then bits w 0 16 else q.wreg (bits w 16 3)
      let less := (x + 65536 - y % 65536) % 65536
      let v := [(x + y) % 65536, less, x &&& y, x ||| y, x ^^^ y, (x <<< (y % 16)) % 65536, x >>> (y % 16), less].getD
        (bits w 20 3) 0
      goes (.alu ch) 1 { next with
        w := if bits w 20 3 = 7 then q.w else tset 0 q.w (mW w) (v % 65536)
        z := v == 0, neg := bit v 15 }) ∧
    (mOp w = 0x1A →
      let v := bits w 0 8
      goes (.movs ch) 1 { next with w := tset 0 q.w (mW w) (
        (if v ≤ 0x0F then q.obw v else if v = 0x10 then q.s else if v = 0x11 then ch.val else if v = 0x12 then s.level ch
         else if v = 0x13 then q.last else if v < 0x40 then prK (s.seqProf q) (v - 0x20)
         else s.slotCycles (s.seqProf q) (v - 0x40)) % 65536) })

/-- R204, R208, R210, R219 to R221, R227 to R231: branches, calls and returns; the end of a segment; the two halves of a
two-level microword, which both read their operands first, and of which the first writes last, and its branch, to which
PSEL 4 adds P. An END waits while the event FIFO of the channel is full (R105). A microword with a fault
faults whichever row issues it, as do an uncorrectable word and the segment watchdog: the bus lines are idle, the fault
record says where and why, and the sequencer is halted unless it restarts by itself. -/
def Obligations.SequencersBranchEndAndFault : Prop :=
  ∀ (ch : Fin 8) (s : State), s.seqRuns ch = true →
    let q := s.seq ch
    let w := s.microword q.upc
    let clean := ∀ k ∈ s.fetchKeys ch q.upc, tget 0 s.mcs.csErr k = 0
    let faults : Instr → Nat → Nat → Prop := fun i code tcode => ∃ u : State, exec i s = .next (u.segFaulted ch code) ∧
      (u.seq ch).ce = none ∧ (u.seq ch).tx = [] ∧ (u.seq ch).cle = false ∧ (u.seq ch).ale = false ∧ (u.seq ch).run = false ∧
      (s.is Reg.MCS_CTL_AUTO_RESTART = false → (u.seq ch).halt = true) ∧
      (s.is Reg.MCS_CTL_AUTO_RESTART = true → code ≠ 7 → q.lastFault = none → (u.seq ch).halt = false) ∧
      u.rd (Reg.MCS_FAULT_UPC ch) = q.upc % 2 ^ 15 ∧ u.rd (Reg.MCS_FAULT_VALID ch) = 1 ∧
      u.rd (Reg.MCS_FAULT_CODE ch) = code ∧ u.rd (Reg.MCS_FAULT_TCODE ch) = tcode
    let vert := fun (inp : BusIn) => [Instr.nop ch, .endOp ch, .trap ch, .setim ch, .ce ch, .cmd ch, .addr ch, .lda ch,
      .wait ch, .burst ch inp, .rdb ch inp, .wrb ch, .pin ch, .post ch, .br ch inp, .call ch inp, .ret ch inp, .djnz ch, .ldi ch,
      .alu ch, .movs ch]
    faults (.segmentWatchdogExpiry ch) 8 0 ∧
    (∀ inp i, (s.twoLevel = false ∧ i ∈ vert inp ∨ s.twoLevel = true ∧ i = .twolevelMicroword ch inp) →
      ∀ k, s.badFetch ch = some k → faults i 7 0 ∧
        ∃ u : State, exec i s = .next (u.segFaulted ch 7) ∧
          u.rd Reg.MCS_CS_ERR_UNC = sat (2 ^ 16 - 1) (s.rd Reg.MCS_CS_ERR_UNC + 1)) ∧
    (s.twoLevel = false → clean → ∀ code t, q.mFault w = some (code, t) →
      (mOp w = 2 → mIllegal w = false → code = 9 ∧ t = bits w 0 8) ∧ ∀ inp i, i ∈ vert inp → faults i code t) ∧
    (s.twoLevel = false → clean → q.mFault w = none → mOp w = 0x01 →
      (s.evFull ch = false → exec (.endOp ch) s =
        .next (((s.onSeq ch fun q =>
            { q with ce := none, tx := [], run := false, evs := 0, cycles := q.cycles + 1, cle := false, ale := false }).post ch
          { code := bits w 0 8, w := q.wreg 0 }).segEnd ch (bits w 0 8) (q.wreg 0) q.rx (bit q.evs 4))) ∧
      (s.evFull ch = true → exec (.endOp ch) s = .next s)) ∧
    (s.twoLevel = false → clean → q.mFault w = none → q.evs = 0 → ∀ inp : BusIn,
      let holds := s.condHolds ch q (mCond w) (fitBus inp)
      let goes : Instr → Seq → Prop := fun i r => ∃ t, exec i s = .next t ∧
        t.seq ch = { r with cycles := q.cycles + 1, held := if mH w ∧ q.held < 16 then q.held + 1 else 0 }
      let along : Instr → Seq → Prop := fun i r => q.upc ≠ 16383 → goes i { r with upc := q.upc + 1 }
      let v := (q.wreg (mW w) + 65535) % 65536
      let dec := { q with w := tset 0 q.w (mW w) v, z := v == 0, neg := bit v 15 }
      (mOp w = 0x10 → (holds = true → goes (.br ch inp) { q with upc := mTarget w }) ∧
        (holds = false → along (.br ch inp) q) ∧ (holds = false → q.upc = 16383 → faults (.br ch inp) 0xA 0)) ∧
      (mOp w = 0x11 →
        (holds = true → q.stack.length < 4 →
          goes (.call ch inp) { q with stack := ((q.upc + 1) % 32768, q.im) :: q.stack, upc := mTarget w }) ∧
        (holds = true → 4 ≤ q.stack.length → faults (.call ch inp) 2 0) ∧ (holds = false → along (.call ch inp) q)) ∧
      (mOp w = 0x12 →
        (holds = true → ∀ a m r, q.stack = (a, m) :: r → goes (.ret ch inp) { q with stack := r, upc := a, im := m }) ∧
        (holds = true → q.stack = [] → faults (.ret ch inp) 3 0) ∧ (holds = false → along (.ret ch inp) q)) ∧
      (mOp w = 0x13 → (v ≠ 0 → goes (.djnz ch) { dec with upc := mTarget w }) ∧ (v = 0 → along (.djnz ch) dec))) ∧
    (s.twoLevel = true → clean → q.evs = 0 → q.upc ≠ 32767 → ∀ (inp : BusIn) (a : Nat),
      let v := s.nanoword w
      let b := bits v 32 32
      s.nanoFault q v (bits w 11 5) = none → s.psel q (bits v 64 32) (bits v 15 3) (bits w 11 5) = some a →
      (bits v 27 3 = 0 ∨ bits v 27 3 = 1 ∧ bits v 22 5 = 0) → mOp a ∉ [0x01, 0x08, 0x09, 0x0C, 0x0D] →
      ∃ t, exec (.twolevelMicroword ch inp) s = .next t ∧
        t.seq ch = { (q.apply (s.mEff ch q b (fitBus inp))).apply (s.mEff ch q a (fitBus inp)) with
          upc := if bits v 27 3 = 0 then q.upc + 1
            else if bits v 15 3 = 4 then (bits v 0 15 + bits w 11 5) % 32768 else bits v 0 15
          cycles := q.cycles + max 1 (s.mEff ch q a (fitBus inp)).cyc
          held := if bit v 18 ∧ q.held < 16 then q.held + 1 else 0 })

/-- R206, R207, R230, R232: a write of 1 to VALID clears a fault record and restarts its sequencer; LOAD_EN is set only
while every sequencer is idle; the window and DATA2 write the stores only while LOAD_EN is 1, and NANO_ADDR loads the
word it names. R247 to R250: a load pass that succeeds puts its image into use; at bring-up one that fails is tried with
the other slot, and the second failure leaves no valid image. -/
def Obligations.EspalierIsLoadedAndPatched : Prop :=
  (∀ (m : Master) (v : W32) (s : State), Served s m →
    (∀ ch : Fin 8, (bit v.toNat 15 = false → exec (.mcsFaultClear m ch v) s = .next s.fresh) ∧
      (bit v.toNat 15 = true → ∃ u : State, exec (.mcsFaultClear m ch v) s = .next (u.kick ch) ∧
        (u.seq ch).halt = false ∧ (∀ n, n ≠ ch.val → u.seq n = s.seq n) ∧
        (∀ F ∈ [Reg.MCS_FAULT_VALID ch, Reg.MCS_FAULT_CODE ch, Reg.MCS_FAULT_STUCK ch, Reg.MCS_FAULT_TCODE ch], u.rd F = 0) ∧
        FieldsBut [Reg.MCS_FAULT_VALID ch, Reg.MCS_FAULT_CODE ch, Reg.MCS_FAULT_STUCK ch, Reg.MCS_FAULT_TCODE ch] s u ∧
        SameBut [.regs, .resp, .mcs] s u)) ∧
    (s.mcs.loading = none → bit v.toNat 0 = true → s.is Reg.MCS_CTL_LOAD_EN = false →
      ((∀ n, n < 8 → (s.seq n).run = false ∧ (s.seq n).halt = false) →
        ∃ t, exec (.mcsLoadEn m v) s = .next t ∧ t.rd Reg.MCS_CTL_LOAD_EN = 1 ∧
          t.rd Reg.MCS_CTL_AUTO_RESTART = bits v.toNat 3 1 ∧ t.rd Reg.MCS_CTL_RDSEL = bits v.toNat 4 3 ∧
          SameBut [.regs, .resp] s t) ∧
      ((∃ n, n < 8 ∧ ((s.seq n).run = true ∨ (s.seq n).halt = true)) →
        ∃ t, exec (.mcsLoadEn m v) s = .next t ∧ t.rd Reg.MCS_CTL_LOAD_EN = 0 ∧ t.rd Reg.MCS_CTL_LOAD_ERR = 1 ∧
          SameBut [.regs, .resp] s t)) ∧
    (s.mcs.loading = none → bit v.toNat 0 = false → ∃ u : State, exec (.mcsLoadEn m v) s = .next u.kickAll ∧
      u.rd Reg.MCS_CTL_LOAD_EN = 0 ∧ SameBut [.regs, .resp] s u) ∧
    (∀ off, off % 4 = 0 → off < 0x10000 →
      (s.is Reg.MCS_CTL_LOAD_EN = true → ∃ t, exec (.csWindowWrite m off v) s = .next t ∧ tget 0 t.mcs.cs (off / 4) = v.toNat ∧
        (∀ i, i ≠ off / 4 → tget 0 t.mcs.cs i = tget 0 s.mcs.cs i) ∧ t.mcs.img.patched = true ∧
        (∀ n, n < 8 → tget 0 t.mcs.csErr (csKey n (off / 4)) = 0) ∧ t.mcs.nano = s.mcs.nano ∧ t.mcs.seqs = s.mcs.seqs ∧
        SameBut [.mcs, .resp] s t) ∧
      (s.is Reg.MCS_CTL_LOAD_EN = false → ∃ t, exec (.csWindowWrite m off v) s = .next t ∧ t.rd Reg.MCS_CTL_LOAD_ERR = 1 ∧
        FieldsBut [Reg.MCS_CTL_LOAD_ERR] s t ∧ SameBut [.regs, .resp] s t)) ∧
    (∃ t, exec (.nanoAddrWrite m v) s = .next t ∧ t.rd Reg.MCS_NANO_ADDR_INDEX = bits v.toNat 0 11 ∧
      t.rd Reg.MCS_NANO_ADDR_AUTOINC = bits v.toNat 31 1 ∧
      (let w := tget 0 s.mcs.nano (bits v.toNat 0 11)
       t.rd Reg.MCS_NANO_DATA0_DATA = bits w 0 32 ∧ t.rd Reg.MCS_NANO_DATA1_DATA = bits w 32 32 ∧
         t.rd Reg.MCS_NANO_DATA2_DATA = bits w 64 32) ∧ SameBut [.regs, .resp] s t) ∧
    (s.is Reg.MCS_CTL_LOAD_EN = true → ∃ t, exec (.nanoCommit m v) s = .next t ∧
      (let i := s.rd Reg.MCS_NANO_ADDR_INDEX
       tget 0 t.mcs.nano i = s.rd Reg.MCS_NANO_DATA0_DATA + s.rd Reg.MCS_NANO_DATA1_DATA * 2 ^ 32 + v.toNat * 2 ^ 64 ∧
       (∀ j, j ≠ i → tget 0 t.mcs.nano j = tget 0 s.mcs.nano j) ∧
       t.rd Reg.MCS_NANO_ADDR_INDEX = if s.is Reg.MCS_NANO_ADDR_AUTOINC then (i + 1) % 2 ^ 11 else i) ∧
      t.mcs.cs = s.mcs.cs ∧ t.mcs.seqs = s.mcs.seqs ∧ t.mcs.img.patched = true) ∧
    (s.is Reg.MCS_CTL_LOAD_EN = false → ∃ t, exec (.nanoCommit m v) s = .next t ∧ t.rd Reg.MCS_CTL_LOAD_ERR = 1 ∧
      SameBut [.regs, .resp] s t)) ∧
  (∀ (s : State) (b : Nat), s.mcs.loading = some b →
    ((∀ a, s.hly.actv = some a → a.mcs = false ∨ a.stage < 3) →
      (s.mcsFail b false = none → ∃ u : State, exec .espalierLoadDone s = .next u.wokeCheck.kickAll ∧
        u.rd Reg.MCS_CTL_VALID = 1 ∧ u.rd Reg.MCS_CTL_LOAD_EN = 0 ∧ u.mcs.loading = none ∧ u.mcs.bank = b ∧
        u.mcs.csErr = [] ∧ u.mcs.img.patched = false ∧ SameBut [.regs, .mcs] s u) ∧
      (∀ r, s.mcsFail b false = some r → s.mcs.tried = 0 →
        ∃ t, exec .espalierLoadDone s = .next t ∧ t.mcs = { s.mcs with loading := some (1 - b), tried := 1 }) ∧
      (∀ r, s.mcsFail b false = some r → s.mcs.tried ≠ 0 → ∃ u : State, exec .espalierLoadDone s = .next u.wokeCheck ∧
        u.rd Reg.MCS_CTL_VALID = 0 ∧ u.rd Reg.MCS_CTL_LOAD_EN = 0 ∧ u.mcs.loading = none ∧ u.mcs.tried = 0 ∧
        ∀ n, n < 8 → u.level n = 0)) ∧
    (∀ a, s.hly.actv = some a → a.mcs = true → a.stage = 3 →
      (s.passFail a = none → ∃ u : State, exec .espalierLoadDone s = .next
          (((List.range 8).foldl (fun t n => t.chActivated n (s.chRates n)) u).actEnd 0 0) ∧
        u.rd Reg.MCS_CTL_VALID = 1 ∧ u.rd Reg.MCS_CTL_LOAD_EN = 0 ∧ u.mcs.loading = none ∧ u.mcs.bank = a.bank) ∧
      (∀ r, s.passFail a = some r → ∃ t, exec .espalierLoadDone s = .next t ∧ t.mcs = { s.mcs with loading := some s.mcs.bank } ∧
        t.hly = { s.hly with actv := some { a with stage := 4, reason := r } } ∧ SameBut [.mcs, .hly] s t)))

/-! ## The flash channels -/

/-- R258 to R280, R518: the steps of a channel's training, calibration and loopback test; the relock that brings its bin
or its level; the errors that drop its level, to ABSENT where its power is lost; and the channel reset, after which the
channel climbs to SDR, each bound target reset and set to its timing mode, where it has a bound target, power and a valid
image. -/
def Obligations.ChannelsTrainDropAndReset : Prop :=
  ∀ (ch : Fin 8) (s : State),
    let frees : Instr → (State → Prop) → Prop := fun i P => ∃ u : State, exec i s = .next (u.busFree ch none) ∧ P u
    let ends : State → Act → Nat → Prop := fun u act result => ∀ tg c, s.chTag ch act = some tg → s.cmd? tg = some c →
      c.stage = .running → Completes u tg 0 0 ∧ ∃ d, u.cmd? tg = some d ∧ d.result = result
    let calm := s.pwr.hold = 0 ∧ s.pwr.warn = false ∧ s.sys.warmRun = none
    ((s.chan ch).relock = none → s.level ch ≠ 0 → frees (.cherrDllUnlock ch) fun u =>
      u.level ch = (if s.level ch = 3 then 2 else if s.level ch = 2 then 1 else s.level ch) ∧
      u.rd (Reg.CH_STAT_CHERR ch) = 1 ∧ u.rd (Reg.CH_STAT_CHERR_KIND ch) = 2 ∧
      u.rd (Reg.CH_ERRCNT_CHERR ch) = sat 255 (s.rd (Reg.CH_ERRCNT_CHERR ch) + 1) ∧
      (s.level ch = 3 → (u.chan ch).relock = some (s.preBin ch)) ∧
      (s.level ch = 2 → (u.chan ch).relock = none ∧ (u.chan ch).sdrDue = true)) ∧
    (∀ dom : Fin 4, ch.val / 2 = dom.val → bit (s.rd Reg.PWR_DOM_EN) dom = true →
      s.is (Reg.CH_STAT_PWRGD (2 * dom)) = true →
      ∃ u : State, exec (.pwrLoss dom) s = .next u.settle.wakeLow ∧ u.level ch = 0 ∧ u.rd (Reg.CH_STAT_PWRGD ch) = 0 ∧
        u.rd (Reg.CH_STAT_CHERR ch) = 1 ∧ u.rd (Reg.CH_STAT_CHERR_KIND ch) = 3 ∧
        bit (u.rd Reg.PWR_STAT_PWRGD) dom = false) ∧
    (∀ b, (s.chan ch).relock = some b → (s.seq ch).run = false → (∀ t, (s.chan ch).train = some t → t.ending = false) →
      ((s.chan ch).climb = 0 → 2 ≤ s.level ch → frees (.phyRelockDone ch) fun u =>
        u.rd (Reg.CH_STAT_BIN ch) = b % 16 ∧ (u.chan ch).relock = none ∧ u.level ch = s.level ch) ∧
      ((s.chan ch).climb = 1 → frees (.phyRelockDone ch) fun u => u.level ch = 2 ∧ u.rd (Reg.CH_STAT_BIN ch) = b % 16 ∧
        u.rd (Reg.CH_MODE_IFMODE ch) = s.chMode ch % 4 ∧ (u.chan ch).relock = none ∧ (u.chan ch).climb = 0 ∧
        (s.is (Reg.CH_CTL_AUTO_TRAIN ch) = true →
          ∃ l ∈ u.top.waiting ++ u.top.leases, l.act = .train ∧ l.res = [resCh ch] ∧ l.tag = none)) ∧
      ((s.chan ch).climb = 2 → frees (.phyRelockDone ch) fun u => u.level ch = 3 ∧ u.rd (Reg.CH_STAT_BIN ch) = b % 16) ∧
      ((s.chan ch).climb = 3 ∨ (s.chan ch).climb = 4 → frees (.phyRelockDone ch) fun u => u.level ch = 1 ∧
        u.rd (Reg.CH_MODE_IFMODE ch) = 0 ∧ u.rd (Reg.CH_MODE_SDR_TM ch) = s.chSdr ch % 8) ∧
      ((s.chan ch).climb = 5 → frees (.phyRelockDone ch) fun u => u.level ch = s.level ch ∧
        u.rd (Reg.CH_MODE_IFMODE ch) = 0 ∧ u.rd (Reg.CH_MODE_SDR_TM ch) = s.chSdr ch % 8 ∧
        u.rd (Reg.CH_STAT_BIN ch) = 0)) ∧
    (∀ wing : Fin 2, s.pwr.st ≠ .off → ∃ t, exec (.phyZqCalibration wing) s = .next t ∧
      t.box.zqTemp = tset 0 s.box.zqTemp wing s.temp ∧
      (∀ n, n < 8 → (n / 4 = wing.val → t.chan n = { s.chan n with zqDue := true }) ∧
        (n / 4 ≠ wing.val → t.chan n = s.chan n)) ∧ SameBut [.box, .chs, .drawn] s t) ∧
    (∀ t, (s.chan ch).train = some t →
      (t.slice = false → t.ending = false → s.sliceStopped = false → s.busIdle ch = true → s.seqStopped ch = false →
        (2 ≤ s.level ch → ∃ v : State, exec (.trainSliceStart ch) s = .next (v.kick ch) ∧
          (v.chan ch).train = some { t with slice := true } ∧ (v.chan ch).jobs = sliceJobs t.kind t.target ∧
          (∀ n, n ≠ ch.val → v.chan n = s.chan n) ∧ SameBut [.chs] s v) ∧
        (s.level ch < 2 → ∃ v, exec (.trainSliceStart ch) s = .next v ∧ (v.chan ch).train = none ∧
          ∀ tg c, s.chTag ch .train = some tg → s.cmd? tg = some c → c.stage = .running →
            Completes v tg stInternal (3 + s.rd (Reg.CH_STAT_CHERR_KIND ch) * 2 ^ 8 + ch.val * 2 ^ 16))) ∧
      (t.slice = true → s.busIdle ch = true → calm → ∀ r : SliceRes,
        let found := addTrial t.trial t.target t.kind r
        let eye := min t.eye (min r.rdEye r.wrEye)
        (r.complete = false → frees (.trainSliceEnd ch r) fun u => (u.chan ch).train = some { t with slice := false }) ∧
        (r.complete = true → t.kind < 3 → frees (.trainSliceEnd ch r) fun u =>
          (u.chan ch).train = some { t with slice := false, trial := found, kind := t.kind + 1 }) ∧
        (∀ x, r.complete = true → t.kind = 3 → (s.boundTargets ch).find? (fun x => decide (t.target < x)) = some x →
          frees (.trainSliceEnd ch r) fun u => u.rd (Reg.CH_MARGIN_LAST ch) = eye % 256 ∧
            (u.chan ch).train = some { t with slice := false, trial := found, eye := eye, target := x, kind := 0 }) ∧
        (r.complete = true → t.kind = 3 → (s.boundTargets ch).find? (fun x => decide (t.target < x)) = none →
          (s.eyeThresh ch ≤ eye → t.bin ≠ s.rd (Reg.CH_STAT_BIN ch) → frees (.trainSliceEnd ch r) fun u =>
            (u.chan ch).train = some { t with slice := false, trial := found, eye := eye, ending := true
                                              eyes := t.eyes ++ [(t.bin, eye)] } ∧ (u.chan ch).relock = some t.bin) ∧
          (eye < s.eyeThresh ch → t.back = false → s.lowBin ch < t.bin → frees (.trainSliceEnd ch r) fun u =>
            ∃ y, (u.chan ch).train = some y ∧ y.bin = t.bin - 1 ∧ y.trial = [] ∧ y.kind = 0 ∧ y.slice = false ∧
              y.target = (s.boundTargets ch).headD 0)))) ∧
    (∀ (t : Nat) (failed : Bool), (s.chan ch).zqTarget = some t → s.busIdle ch = true → calm →
      let mask := (s.chan ch).zqFail + b2n failed * 2 ^ t
      (∀ x, (s.boundTargets ch).find? (fun x => decide (t < x)) = some x →
        ∃ u : State, exec (.zqcalSlice ch failed) s = .next ((u.kick ch).busFree ch none) ∧
          (u.chan ch).zqTarget = some x ∧ (u.chan ch).zqFail = mask ∧ (u.chan ch).jobs = zqJobs x) ∧
      ((s.boundTargets ch).find? (fun x => decide (t < x)) = none → frees (.zqcalSlice ch failed) fun u =>
        (u.chan ch).zqTarget = none ∧ ends u .zqcal (mask % 256))) ∧
    (∀ result : W32, (s.chan ch).selftest = true → s.busIdle ch = true → calm →
      let r := result.toNat
      let bin := s.rd (Reg.CH_STAT_BIN ch)
      let at_ := if s.level ch = 1 then 15 else if s.level ch = 2 then bin else min bin (max (s.lowBin ch) (bits r 16 4))
      let res := if bits r 0 11 = 0 then 0 else bits r 0 11 + at_ * 2 ^ 16 + bits r 20 12 * 2 ^ 20
      frees (.selftestChannelDone ch result) fun u => (u.chan ch).selftest = false ∧ ends u .selftestCh res ∧
        (res ≠ 0 → u.rd (Reg.CH_STAT_LOOP_FAIL ch) = 1)) ∧
    (∀ m, Served s m →
      ((s.chan ch).reset = true → exec (.channelReset m ch) s = .next s.fresh) ∧
      ((s.chan ch).reset = false → (∃ x, s.sys.warmRun = some x) →
        ∃ t, exec (.channelReset m ch) s = .next t ∧ ch.val ∈ t.sys.chResetHeld ∧ SameBut [.sys, .resp] s t) ∧
      ((s.chan ch).reset = false → s.sys.warmRun = none → ∃ u : State, exec (.channelReset m ch) s = .next u.settle ∧
        u.level ch = 0 ∧ (u.chan ch).reset = true ∧ (u.chan ch).events = [] ∧ u.seq ch = {} ∧
        u.rd (Reg.CH_MODE_TRAINED_BIN ch) = 15 ∧ u.rd (Reg.CH_STAT_CHERR ch) = 0 ∧ u.rd (Reg.CH_STAMP_VALID ch) = 0 ∧
        (u.chan ch).evHeld = [] ∧ u.rd (Reg.CH_ERRCNT_PHYERR ch) = 0 ∧ u.rd (Reg.CH_ERRCNT_CHERR ch) = 0 ∧
        u.rd (Reg.CH_ERRCNT_FALLBACKS ch) = 0)) ∧
    ((s.chan ch).reset = true → (s.chan ch).disc = false →
      (s.boundTargets ch ≠ [] → (s.chan ch).chainBad = false → s.is (Reg.CH_STAT_PWRGD ch) = true →
        s.is Reg.MCS_CTL_VALID = true → ∃ u : State, exec (.channelResetResume ch) s =
          .next ((u.kick ch).busFree ch none) ∧ (u.chan ch).reset = false ∧ (u.chan ch).climb = 3 ∧
          (u.chan ch).next = some 0 ∧
          (u.chan ch).jobs = (s.chan ch).jobs ++ (s.boundTargets ch).map (fun t => { routine := 0x0D, target := t }) ++
            (s.boundTargets ch).map (fun t => { routine := 0x12, target := t, words := [(9, 1), (10, s.chSdr ch % 256)] })) ∧
      ((s.boundTargets ch = [] ∨ (s.chan ch).chainBad = true ∨ s.is (Reg.CH_STAT_PWRGD ch) = false ∨
          s.is Reg.MCS_CTL_VALID = false) → frees (.channelResetResume ch) fun u => (u.chan ch).reset = false ∧ u.level ch = 0))

/-! ## Decoders, XOR engines and Juniper -/

/-- R296 to R301, R320, R323, R328: the end of a decoder's run on a codeword. One whose syndrome is zero converges with its
own bytes; of any other the environment says whether it converges and to which frame. One that converges passes its
checks in their order: a poison mark or a CRC seen twice gives CRC_MISMATCH, a wrong identity UNCORRECTABLE, and a frame that passes all
has its bytes and the outcome of its depth. One that does not converge is counted and goes to a later step of the ladder,
or ends with the ladder's outcome. An erased codeword, by the zeros among its
bytes, is ERASED. A codeword of a CALIB adds its bit errors to the present candidate's score. -/
def Obligations.DecodersEndFramesByTheirChecks : Prop :=
  (∀ (s : State) (r : DecodeRes) (f : Flight), s.flight? r.flight = some f → f.dropped = false →
    s.rd Reg.DBG_FORCE_COUNT = 0 →
    let clean := zeroSyndrome f.cclass f.bytes
    let conv := clean || r.conv
    let frame := if clean then f.bytes.take 4128 else s.shape 4128 r.frame
    let d := scramble f.pfa frame
    let erased := s.is Reg.ECC_CTL_ERASED_EN && decide (zeroBits f.bytes ≤ s.rd Reg.ECC_ERASED_ZEROS)
    let m := frameMeta d
    let ends : Instr → Nat → (State → Flight → Prop) → Prop := fun i ch P =>
      ∃ (u : State) (g : Flight), exec i s = .next (u.decoded ch) ∧ u.flight? f.id = some g ∧ P u g
    let checks : Instr → Nat → Prop := fun i ch =>
      (m.poison = true → ends i ch fun _ g => g.out = some 0x22) ∧
      (m.poison = false → frameOk d = false → s.is Reg.ECC_CTL_REPEAT_STOP = true → frameCrc d ∈ f.crcs →
        ends i ch fun u g => g.out = some 0x22 ∧
          u.rd Reg.ECC_CRCERR_FCRC = sat (2 ^ 16 - 1) (s.rd Reg.ECC_CRCERR_FCRC + 1)) ∧
      (m.poison = false → frameOk d = true → identityOk f m = false → ends i ch fun _ g => g.out = some 0x20) ∧
      (m.poison = false → frameOk d = true → identityOk f m = true → ends i ch fun _ g => g.bytes = d ∧
        g.out = some (if f.step = 0 then 0x00 else if f.step ≤ 26 then 0x01 else 0x02))
    let moves : Flight → Prop := fun g => g.out = some (outOf f) ∨ (f.step < g.step ∧ g.out = f.out)
    (∀ ch : Fin 8, (tget [] s.ecc.hardq ch).head? = some r.flight →
      (erased = false → conv = true → (∀ n, f.ref ≠ .calib n) → checks (.hardDecodeDone ch r) ch) ∧
      (erased = false → conv = false → f.ch < 8 → (∀ n, f.ref ≠ .calib n) → ends (.hardDecodeDone ch r) ch fun u g => moves g ∧
        u.rd (Reg.ECC_HFAIL_FAIL f.ch) = sat (2 ^ 32 - 1) (s.rd (Reg.ECC_HFAIL_FAIL f.ch) + 1)) ∧
      (∀ n (x : CalRun) (l : List Cand) (c : Cand), erased = false → f.ref = .calib n → tget none s.jnp.calib n = some x →
        x.cands = l ++ [c] → ∃ (u : State) (y : CalRun), exec (.hardDecodeDone ch r) s = .next (u.decoded ch) ∧
          u.flight? f.id = none ∧ tget none u.jnp.calib n = some y ∧
          y.cands = l ++ [{ c with measured := c.measured + 1
                                   score := c.score + (if conv then bitErrors f.bytes (encodeFrom f.cclass frame) else 65536) }]) ∧
      (∀ tag pos, erased = true → f.ref = .cmd tag pos → f.byMap = false →
        ends (.hardDecodeDone ch r) ch fun u g => g.out = some 0x21 ∧
          u.rd Reg.ECC_ERASED_CNT_COUNT = sat (2 ^ 32 - 1) (s.rd Reg.ECC_ERASED_CNT_COUNT + 1))) ∧
    (∀ wing : Fin 2, r.flight ∈ (tget [] s.ecc.softq wing).take 2 →
      (conv = true → checks (.softDecodeDone wing r) f.ch) ∧
      (conv = false → ends (.softDecodeDone wing r) f.ch fun u g => moves g ∧
        u.rd (softFail wing) = sat (2 ^ 16 - 1) (s.rd (softFail wing) + 1)))) ∧
  (∀ (wing : Fin 2) (s : State) (id : Nat) (r : List Nat) (f : Flight), s.samplesUsed wing < 4 → s.startStopped = false →
    tget [] s.ecc.sampleq wing = id :: r → s.flight? id = some f →
    ∃ t g, exec (.softSampleReserve wing) s = .next t ∧ t.flight? id = some g ∧ g.soft = 2) ∧
  (∀ (ch : Fin 8) (s : State) (o : Op) (l : Leg), s.pwr.st = .active → let u := s.redoProgs ch
    (u.chan ch).staged.length < 2 → u.nextStage ch = some (o, l) → u.lunProf o.lun ≠ none →
    ∃ t, exec (.stagingBufferFilled ch) s = .next t ∧
      ∃ x ∈ (t.chan ch).staged, x.op = o.id ∧ x.plane = l.plane ∧ x.page = l.page)

/-- R303 to R308: a BUILD takes a free slot of its wing with a valid descriptor, or waits; a member that arrives is XORed
into the accumulator; a BUILD ends with its parity frame and is counted. A REBUILD that policy firmware answers with a
valid descriptor reads its members; one that it answers with no stripe, or not at all, fails, and its frames end. -/
def Obligations.StripesAreBuiltAndRebuilt : Prop :=
  ∀ (wing : Fin 2) (s : State),
    (∀ desc, s.startStopped = true → exec (.xorBuild wing desc) s =
      .next (State.settle { s with ecc := { s.ecc with builds := s.ecc.builds ++ [(wing.val, desc)] } })) ∧
    (∀ desc d v k, s.startStopped = false → (∀ b ∈ s.ecc.builds, b.1 ≠ wing.val) →
      (∀ id ∈ s.ecc.rebuilds, ∀ f, s.flight? id = some f → f.ch / 4 ≠ wing.val) →
      (List.range 4).find? (fun k => (s.xor? wing k).isNone) = some k → s.readStripe desc = (some d, v) →
      (s.stripeOk d 1 = true → s.is Reg.ECC_XOR_CTL_BUILD_EN = true →
        ∃ (u : State) (x : XorOp), exec (.xorBuild wing desc) s = .next u.settle ∧ u.xor? wing k = some x ∧
          x.rebuild = false ∧ x.stripe = d.stripe ∧ x.entries = d.entries ∧ x.pidx = d.pidx ∧ x.arrived = [] ∧
          x.acc = List.replicate 4128 0) ∧
      (s.stripeOk d 1 = false ∨ s.is Reg.ECC_XOR_CTL_BUILD_EN = false →
        ∃ u : State, exec (.xorBuild wing desc) s = .next u.settle ∧ u.xor? wing k = none ∧
          u.rd Reg.ECC_BUILD_FAIL = sat (2 ^ 16 - 1) (s.rd Reg.ECC_BUILD_FAIL + 1))) ∧
    (∀ (slot : Fin 4) (x : XorOp), s.xor? wing slot = some x →
      let fails : Instr → Prop := fun i => ∃ u : State, exec i s = .next (u.xorNext wing).settle ∧ u.xor? wing slot = none ∧
        u.rd Reg.ECC_REBUILD_FAIL = sat (2 ^ 16 - 1) (s.rd Reg.ECC_REBUILD_FAIL + 1) ∧
        ∀ f ∈ (s.freeXor wing slot x).rebuildFlights x, ∃ g, u.flight? f.id = some g ∧ g.out ≠ none
      (x.rebuild = true → x.desc = none →
        fails (.rebuildAnswerTimeout wing slot) ∧ fails (.rebuildAnswer wing slot none) ∧
        ∀ desc d v, s.readStripe desc = (some d, v) → s.stripeOk d 2 = true → s.startStopped = false →
          (∀ e, e < d.n → v.memberAbsent { x with entries := d.entries, pidx := d.pidx, fidx := d.fidx } e = false) →
          ∃ (u : State) (y : XorOp), exec (.rebuildAnswer wing slot (some desc)) s = .next u.settle ∧
            u.xor? wing slot = some y ∧ y.desc = some desc ∧ y.entries = d.entries ∧ y.fidx = d.fidx ∧
            y.acc = List.replicate 4128 0) ∧
      (∀ entry d v, x.awaits entry = true → (x.rebuild = true ∨ x.buf ≠ none) →
        s.memberFrame wing slot x entry = (some (some d), v) →
        let y := { x with acc := List.zipWith (· ^^^ ·) (fit 4128 x.acc) (fit 4128 d), arrived := x.arrived ++ [entry] }
        y.whole = false → ∃ u : State, exec (.xorMemberArrive wing slot entry) s = .next u.settle ∧ u.xor? wing slot = some y) ∧
      (x.rebuild = false →
        (x.arrived = [1000] → ∃ u : State, exec (.buildDone wing slot) s = .next (u.xorNext wing).settle ∧
          u.xor? wing slot = none ∧ u.rd Reg.ECC_BUILD_PASS = sat (2 ^ 16 - 1) (s.rd Reg.ECC_BUILD_PASS + 1)) ∧
        (x.arrived = [1001] → ∃ u : State, exec (.buildDone wing slot) s = .next (u.xorNext wing).settle ∧
          u.xor? wing slot = none ∧ u.rd Reg.ECC_BUILD_FAIL = sat (2 ^ 16 - 1) (s.rd Reg.ECC_BUILD_FAIL + 1))))

/-- R328, R329, R337, R338, R340, R342: a CALIB or a PATROL that ends completes its MAINT with OK and its result; the
group table is enabled in a STRONG region of use FIRMWARE and nowhere else; a checkpoint stores the records that have
changed; PL_JNP_GRP_CLR clears the fields of its kind and no other byte of the store; the epoch counts minutes. -/
def Obligations.JuniperCalibratesAndKeepsItsTable : Prop :=
  (∀ (s : State) (tag : Nat) (c : Cmd), s.sys.warmRun = none → s.pwr.hold = 0 → s.pwr.warn = false → s.cmd? tag = some c →
    c.stage = .running →
    (∀ (ch : Fin 8) (x : CalRun), tget none s.jnp.calib ch = some x → x.tag = some tag →
      (x.fin = false → exec (.calibDone ch) s = .next s) ∧
      (x.fin = true → x.gone = true → ∃ t, exec (.calibDone ch) s = .next t ∧ Completes t tag stAbsent 0 ∧
        tget none t.jnp.calib ch = none) ∧
      (x.fin = true → x.gone = false → ∃ t d, exec (.calibDone ch) s = .next t ∧ Completes t tag 0 0 ∧
        t.cmd? tag = some d ∧ tget none t.jnp.calib ch = none ∧
        ((∀ y ∈ x.cands, y.measured = 0) → d.result = 0xFF) ∧
        ∀ i c, x.cands[i]? = some c → c.measured ≠ 0 → (∀ y ∈ x.cands, y.measured ≠ 0 → c.score ≤ y.score) →
          (∀ j, j < i → ∀ y, x.cands[j]? = some y → y.measured ≠ 0 → c.score < y.score) →
          d.result = (if i = 0 then 0xFE else i - 1) + sat 255 c.measured * 2 ^ 8 + sat 0xFFFF c.score * 2 ^ 16)) ∧
    (∀ (lun : Fin 256) (x : PatrolRun), tget none s.jnp.patrol lun = some x →
      s.leaseTag .patrol [resLun lun] = some tag →
      (x.fin = false → exec (.patrolDone lun) s = .next s) ∧
      (x.fin = true → x.gone = true → ∃ t, exec (.patrolDone lun) s = .next t ∧ Completes t tag stAbsent 0 ∧
        tget none t.jnp.patrol lun = none) ∧
      (x.fin = true → x.gone = false → ∃ t d, exec (.patrolDone lun) s = .next t ∧ Completes t tag 0 0 ∧
        t.cmd? tag = some d ∧ tget none t.jnp.patrol lun = none ∧
        d.result = x.depth % 256 + sat 255 x.lost * 2 ^ 8 + sat 0xFFFF x.frames * 2 ^ 16))) ∧
  (∀ s : State, s.pwr.st ≠ .off → exec .epochTick s =
    .next (s.wr Reg.JNP_EPOCH_MINUTES (s.rd Reg.JNP_EPOCH_MINUTES + 1))) ∧
  (∀ s : State, s.is Reg.JNP_STAT_CKPT_BUSY = false → s.pwr.hold = 0 → s.pwr.entry = none → s.jnpOn = true →
    s.jnp.changed ≠ [] →
    (s.pwr.st = .active → s.rd Reg.JNP_CKPT_PERIOD ≠ 0 →
      ∃ t, exec .jnpCheckpointPeriod s = .next t ∧ t.rd Reg.JNP_STAT_CKPT_BUSY = 1) ∧
    (∀ m (v : W32), Served s m → ∃ t, exec (.jnpCkptNow m v) s = .next t ∧ t.rd Reg.JNP_CKPT_PERIOD = bits v.toNat 0 16 ∧
      (bit v.toNat 31 = true → t.rd Reg.JNP_STAT_CKPT_BUSY = 1) ∧
      (bit v.toNat 31 = false → SameBut [.regs, .resp] s t))) ∧
  (∀ (m : Master) (v : W32) (s : State), Served s m →
    (s.jnpOn = false → bit v.toNat 31 = true → let r := bits v.toNat 0 5
      (s.rd (Reg.HDG_RGN_USE r) = 3 ∧ s.rd (Reg.HDG_RGN_CLASS r) = 0 →
        ∃ t, exec (.jnpTableEnable m v) s = .next t ∧ t.rd Reg.JNP_TABLE_ENABLE = 1 ∧ t.rd Reg.JNP_TABLE_REGION = r) ∧
      (¬ (s.rd (Reg.HDG_RGN_USE r) = 3 ∧ s.rd (Reg.HDG_RGN_CLASS r) = 0) →
        ∃ t, exec (.jnpTableEnable m v) s = .next t ∧ t.jnpOn = false ∧ t.rd Reg.JNP_STAT_CFG_ERR = 1 ∧
          SameBut [.regs, .resp] s t)) ∧
    (∀ i, i ∈ [Instr.jnpGrpClrHealth m v, .jnpGrpClrWear m v, .jnpGrpClrTrack m v] →
      let g := bits v.toNat 0 14
      let a := s.grpAddr g
      (s.rd Reg.JNP_STAT_GROUPS ≤ g ∨ s.jnpOn = false → exec i s = .next s.fresh) ∧
      (g < s.rd Reg.JNP_STAT_GROUPS → s.jnpOn = true → ∃ t, exec i s = .next t ∧
        (∀ x, (x < a ∨ a + 64 ≤ x) → t.hByte? x = s.hByte? x) ∧
        (s.hRefused a = false → bit v.toNat 16 = true → bit v.toNat 17 = false → bit v.toNat 18 = false →
          ∀ j, j < 64 → t.hByte? (a + j) = (if (26 ≤ j ∧ j < 29) ∨ (32 ≤ j ∧ j < 45) then some 0 else s.hByte? (a + j))) ∧
        (∀ r w, s.hRefused a = false → s.fresh.grpRead g = (r, w) → w.hdg = s.hdg → bit v.toNat 16 = false →
          (bit v.toNat 17 = true → bit v.toNat 18 = false → ∀ j, j < 64 →
            t.hByte? (a + j) = (if j = 15 then some (BitVec.ofNat 8 (leAt r 15 1 &&& 0xFD)) else s.hByte? (a + j))) ∧
          (bit v.toNat 17 = false → bit v.toNat 18 = true → ∀ j, j < 64 →
            t.hByte? (a + j) = (if j < 15 then some 0 else if j = 15 then some (BitVec.ofNat 8 (leAt r 15 1 &&& 0xFA))
              else if j = 16 then some (BitVec.ofNat 8 (leAt r 16 1 + 1)) else if j = 17 then some 0x7F
              else if j = 18 then some 0x80 else s.hByte? (a + j)))))))

/-! ## The central store and the buffer pool -/

/-- R356 to R369: a write of a region's code that changes it is refused, or makes the region busy and asks for its lease;
the change ends with the new code in force, and a region whose use or class changed reads 0. Gorse reads the line at its
cursor, notes what it must write back, and writes it back corrected; a scrub and a self-test end with their results. -/
def Obligations.StoreRegionsChangeAndAreChecked : Prop :=
  (∀ (k : Fin 32) (m : Master) (v : W32) (s : State), Served s m → s.is (Reg.HDG_RGN_BUSY k) = false →
    let use := bits v.toNat 0 2
    let cls := bits v.toNat 2 1
    let vt := bits v.toNat 3 1
    let refuses : Nat → Prop := fun reason => ∃ t, exec (.regionChangeRequest m k v) s = .next t ∧
      t.rd (Reg.HDG_RGN_CHG_ERR k) = 1 ∧ t.rd (Reg.HDG_RGN_REASON k) = reason ∧
      t.rd (Reg.HDG_RGN_USE k) = s.rd (Reg.HDG_RGN_USE k) ∧ SameBut [.regs, .resp] s t
    ¬ (s.rd (Reg.HDG_RGN_USE k) = use ∧ s.rd (Reg.HDG_RGN_CLASS k) = cls ∧ s.rd (Reg.HDG_RGN_VT k) = vt) →
    (use = 1 → cls = 1 → refuses 3) ∧
    (¬ (use = 1 ∧ cls = 1) → vt = 1 → s.rd (Reg.HDG_RGN_VT k) = 0 → 8 ≤ s.vtCount → refuses 2) ∧
    (¬ (use = 1 ∧ cls = 1) → ¬ (vt = 1 ∧ s.rd (Reg.HDG_RGN_VT k) = 0 ∧ 8 ≤ s.vtCount) →
      ∃ t, exec (.regionChangeRequest m k v) s = .next t ∧ t.rd (Reg.HDG_RGN_BUSY k) = 1 ∧
        tget none t.hdg.chg k = some { use := use, cls := cls, vt := vt } ∧
        (∃ l ∈ t.top.waiting ++ t.top.leases, l.act = .rgnChange ∧ l.res = [resRgn k]) ∧ t.hdg.mem = s.hdg.mem)) ∧
  (∀ (k : Fin 32) (s : State) (c : RgnChg), tget none s.hdg.chg k = some c →
    (c.stage = 1 → ∃ t, exec (.poolWithdrawDone k) s = .next t ∧ tget none t.hdg.chg k = some { c with stage := 2 } ∧
      ∀ i ∈ t.cop.ready, i / 256 ≠ k.val) ∧
    (c.stage = 2 → c.use ≠ 0 → c.use < 4 → c.cls < 2 → c.vt < 2 →
      ∃ t, exec (.regionReinitDone k) s = .next t ∧ tget none t.hdg.chg k = none ∧ t.rd (Reg.HDG_RGN_BUSY k) = 0 ∧
        t.rd (Reg.HDG_RGN_USE k) = c.use ∧ t.rd (Reg.HDG_RGN_CLASS k) = c.cls ∧ t.rd (Reg.HDG_RGN_VT k) = c.vt ∧
        (¬ (s.rd (Reg.HDG_RGN_USE k) = c.use ∧ s.rd (Reg.HDG_RGN_CLASS k) = c.cls) →
          ∀ a, a / 0x100000 = k.val → t.hByte? a = some 0) ∧
        ∀ a, a / 0x100000 ≠ k.val → t.hByte? a = s.hByte? a)) ∧
  (∀ (s : State) (l : Lease) (line : Nat), s.is Reg.HDG_GORSE_EN = true → s.pwr.st = .active → s.hdg.rewrite = none →
    s.top.leases.find? (fun l => l.act == .gorse) = some l → s.walkNext (rgnOf l) (s.rd Reg.HDG_GORSE_STAT_LINE) = some line →
    line < 0x7FFF → s.hdg.batch ≠ 1 → s.hdg.batch ≠ 0 → rgnOf l < 32 →
    let a := rgnOf l * 0x100000 + line * 32
    ∃ t, exec .gorseLineRead s = .next t ∧ t.rd Reg.HDG_GORSE_STAT_REGION = rgnOf l ∧
      t.rd Reg.HDG_GORSE_STAT_LINE = line + 1 ∧ t.hdg.batch = s.hdg.batch - 1 ∧ t.hdg.mem = s.hdg.mem ∧
      ((∃ u ∈ s.hUnits a 32, s.hChk u = .corrected) → t.hdg.rewrite = some a) ∧
      ((∀ u ∈ s.hUnits a 32, s.hChk u ≠ .corrected) → t.hdg.rewrite = none)) ∧
  (∀ (s : State) (a : Nat), s.pwr.st = .active → s.hdg.rewrite = some a →
    ∃ t, exec .gorseRewrite s = .next t ∧ t.hdg.rewrite = none ∧
      t.rd Reg.HDG_GORSE_FIX_CNT = sat (2 ^ Reg.HDG_GORSE_FIX_CNT.width - 1) (s.rd Reg.HDG_GORSE_FIX_CNT +
        ((s.hUnits a 32).filter fun u => s.hChk u == .corrected).length) ∧
      SameBut [.regs, .hdg, .store, .drawn] s t) ∧
  (∀ (k : Fin 32) (s : State) (tag : Nat) (c : Cmd), s.cmd? tag = some c → c.stage = .running →
    (s.hdg.scrub.find? (fun x => x.1 == k.val) = some (k.val, tag) →
      ∃ t, exec (.scrubStoreDone k) s = .next t ∧ Completes t tag 0 0 ∧ ∀ x ∈ t.hdg.scrub, x.2 ≠ tag) ∧
    (∀ result : W32, s.hdg.selftest.find? (fun x => x.1 == k.val) = some (k.val, tag) →
      ∃ t d, exec (.selftestStoreDone k result) s = .next t ∧ Completes t tag 0 0 ∧ (∀ x ∈ t.hdg.selftest, x.2 ≠ tag) ∧
        t.cmd? tag = some d ∧ d.result = (if bit result.toNat 31 then result.toNat &&& 0x8FFF7FFF else 0) ∧
        (bit result.toNat 31 = true → t.rd (Reg.HDG_RGN_UE_SEEN k) = 1) ∧
        ∀ a, a / 0x100000 = k.val → t.hByte? a = some 0)) ∧
  (∀ (port : Fin 4) (s : State), s.pwr.st = .active →
    (∀ (a : Nat) (data : List Byte), data ≠ [] → let e := a + data.length
      (e ≤ hdgSize → (∀ x, a ≤ x → x < e → s.hRefused x = false) →
        ∃ t, exec (.portBufferWrite port a data) s = .next t ∧ (∀ j, j < data.length → t.hByte? (a + j) = data[j]?) ∧
          (∀ x, (x < a ∨ e ≤ x) → t.hByte? x = s.hByte? x) ∧
          ∀ i, s.inPool i = true →
            (a ≤ i * 4096 → i * 4096 + 4096 ≤ e → (t.buf i).dcrcV = true ∧
              (t.buf i).slot.dcrc = crc32c ((data.drop (i * 4096 - a)).take 4096)) ∧
            (i * 4096 < e → a < i * 4096 + 4096 → ¬ (a ≤ i * 4096 ∧ i * 4096 + 4096 ≤ e) → (t.buf i).dcrcV = false) ∧
            (e ≤ i * 4096 ∨ i * 4096 + 4096 ≤ a → t.buf i = s.buf i)) ∧
      (hdgSize < e → ∃ t, exec (.portBufferWrite port a data) s = .next t ∧ t.resp = .error ∧ SameBut [.resp] s t)) ∧
    (∀ a n, a + n ≤ hdgSize → s.hRefused a = false → s.hRefused (a + n - 1) = false → (∀ u ∈ s.hUnits a n, s.hChk u = .clean) →
      ∃ t, exec (.portStoreRead port a n) s = .next t ∧ t.resp = .bytes ((List.range n).map fun i => s.hReadByte (a + i)) ∧
        t.hdg = s.hdg) ∧
    (∀ a n, hdgSize < a + n → ∃ t, exec (.portStoreRead port a n) s = .next t ∧ t.resp = .error ∧ t.hdg = s.hdg))

/-- R373 to R391: Coppice grants one buffer of the ready stage at a time, to the request whose turn it is; the strands
fill the ready stage; a rebuild ends with the pool ready; and a reserve that the pool can cover is set. -/
def Obligations.PoolsGrantFillAndRebuild : Prop :=
  (∀ (s : State) (r : BufReq) (i : Nat), s.pwr.st = .active → s.is Reg.COP_REBUILD_BUSY = false →
    s.is Reg.COP_STAT_READY = true → s.copNext = some r → s.cop.ready.find? s.inPool = some i →
    ∃ u : State, exec .bufferGrant s = .next (u.bufGot r.use i) ∧ u.cop.ready = s.cop.ready.erase i ∧
      (u.buf i).alloc = true ∧ (u.buf i).owners = [r.req] ∧ (u.buf i).grantee = r.req ∧
      (u.buf i).gen = ((s.buf i).gen + 1) % 2048 ∧ (u.buf i).dcrcV = false ∧ (∀ j, j ≠ i → u.buf j = s.buf j) ∧
      u.cop.grantPtr = (r.req + 1) % 16 ∧
      u.rd Reg.COP_GRANTS_CNT = sat (2 ^ Reg.COP_GRANTS_CNT.width - 1) (s.rd Reg.COP_GRANTS_CNT + 1)) ∧
  (∀ (s : State) (k i : Nat) (next : Option Nat) (v : State), s.cop.ready.length < 16 →
    rotFind 8 s.cop.popPtr (fun k => (tget none s.cop.heads k).isSome) = some k → tget none s.cop.heads k = some i →
    s.readLink i k = (some next, v) →
    ∃ t, exec .poolPop s = .next t ∧ t.cop.ready = s.cop.ready ++ [i] ∧ tget none t.cop.heads k = next ∧
      tget 0 t.cop.lens k = tget 0 s.cop.lens k - 1 ∧ t.cop.popPtr = (k + 1) % 8 ∧ t.hdg = s.hdg) ∧
  (∀ (m : Master) (v : W32) (s : State), Served s m → bit v.toNat 0 = true → s.is Reg.COP_REBUILD_BUSY = false →
    s.is Reg.COP_STAT_READY = true →
    (∀ k c, k < 32 → tget none s.hdg.chg k = some c → 1 ≤ c.stage → s.rd (Reg.HDG_RGN_USE k) ≠ 0) →
    ∃ t, exec (.poolRebuild m v) s = .next t ∧ t.rd Reg.COP_REBUILD_BUSY = 1 ∧ t.rd Reg.COP_STAT_REBUILDING = 1 ∧
      t.cop.ready = [] ∧ t.cop.heads = [] ∧ t.cop.bufs = s.cop.bufs ∧ SameBut [.regs, .cop, .resp] s t) ∧
  (∀ s : State, s.is Reg.COP_REBUILD_BUSY = true →
    ∃ t, exec .poolRebuildDone s = .next t ∧ t.rd Reg.COP_REBUILD_BUSY = 0 ∧ t.rd Reg.COP_STAT_REBUILDING = 0 ∧
      t.rd Reg.COP_STAT_READY = 1 ∧ t.cop.ready = [] ∧ t.cop.bufs = s.cop.bufs) ∧
  (∀ (m : Master) (i : Fin 16) (v : W32) (s : State), Served s m → let q := bits v.toNat 0 13
    (s.copSum i q ≤ s.poolSize → ∃ t, exec (.reserveWrite m i v) s = .next t ∧ t.rd (Reg.COP_RSV_QUOTA i) = q ∧
      FieldsBut [Reg.COP_RSV_QUOTA i] s t ∧ t.cop.bufs = s.cop.bufs) ∧
    (s.poolSize < s.copSum i q → ∃ t, exec (.reserveWrite m i v) s = .next t ∧ t.rd Reg.COP_STAT_RSV_ERR = 1 ∧
      FieldsBut [Reg.COP_STAT_RSV_ERR] s t ∧ SameBut [.regs, .resp] s t))

/-! ## Boxwood -/

/-- R413 to R415, R418, R420 to R425, R431: the ceiling is set once; LIVE follows every write of a setting, every
forecast window and every sample; a forecast word opens a window, cancels those that have not begun, or is dropped where
four windows are open or it comes within 4 ticks of the last; a
conversion sets the thermal states, and the third failure in a row SENSOR_FAIL; thresholds that do not rise are ignored;
a load window counts the channels that were active in it, and a data segment then on a bus is counted in the next. -/
def Obligations.BoxwoodKeepsTheLiveBudget : Prop :=
  (∀ s : State, (∀ rail, s.live rail = min (s.budget rail) (s.ceil rail) * s.thermScale / 16 - s.cuts rail) ∧
    (s.is Reg.BOX_THERM_STAT_HOT_CRIT = false → s.is Reg.BOX_THERM_STAT_SENSOR_FAIL = false →
      s.is Reg.BOX_THERM_STAT_HOT_WARN = false → s.thermScale = 16)) ∧
  (∀ (m : Master) (v : W32) (s : State), Served s m →
    let shows : State → Prop := fun t => t.rd Reg.BOX_LIVE_VCC = t.live 0 % 2 ^ 16 ∧ t.rd Reg.BOX_LIVE_VCCQ = t.live 1 % 2 ^ 16
    (0xA004 ∉ s.locks → ∃ t, exec (.ceilWrite m v) s = .next t ∧ t.rd Reg.BOX_CEIL_VCC = bits v.toNat 0 16 ∧
      t.rd Reg.BOX_CEIL_VCCQ = bits v.toNat 16 16 ∧ 0xA004 ∈ t.locks ∧ shows t) ∧
    (0xA004 ∈ s.locks → exec (.ceilWrite m v) s = .next s.fresh) ∧
    (∃ t, exec (.budgetWrite m v) s = .next t ∧ t.rd Reg.BOX_BUDGET_VCC = bits v.toNat 0 16 ∧
      t.rd Reg.BOX_BUDGET_VCCQ = bits v.toNat 16 16 ∧ shows t) ∧
    (let a := sgn 8 (bits v.toNat 0 8)
     let b := sgn 8 (bits v.toNat 8 8)
     let c := sgn 8 (bits v.toNat 16 8)
     let d := sgn 8 (bits v.toNat 24 8)
     (a < b ∧ b < c ∧ c < d → ∃ t, exec (.threshWrite m v) s = .next t ∧
        t.rd Reg.BOX_THRESH_COLD_CRIT = bits v.toNat 0 8 ∧ t.rd Reg.BOX_THRESH_COLD_WARN = bits v.toNat 8 8 ∧
        t.rd Reg.BOX_THRESH_HOT_WARN = bits v.toNat 16 8 ∧ t.rd Reg.BOX_THRESH_HOT_CRIT = bits v.toNat 24 8 ∧
        SameBut [.regs, .resp] s t) ∧
     (¬ (a < b ∧ b < c ∧ c < d) → ∃ t, exec (.threshWrite m v) s = .next t ∧ t.rd Reg.BOX_THERM_STAT_THERM_ERR = 1 ∧
        FieldsBut [Reg.BOX_THERM_STAT_THERM_ERR] s t ∧ SameBut [.regs, .resp] s t))) ∧
  (∀ (act : Fin 2) (s : State),
    (∀ w : W32, let start := bits w.toNat 0 12
      let last := bits w.toNat 12 12
      (s.pwr.st = .active ∨ s.pwr.st = .idle → s.is Reg.BOX_CTL_FC_EN = false → exec (.forecastWord act w) s = .next s) ∧
      (s.pwr.st = .active ∨ s.pwr.st = .idle → s.is Reg.BOX_CTL_FC_EN = true → s.fcBusy act = true →
        ∃ t, exec (.forecastWord act w) s = .next t ∧ t.rd Reg.BOX_FC_CNT_DROP =
          sat (2 ^ Reg.BOX_FC_CNT_DROP.width - 1) (s.rd Reg.BOX_FC_CNT_DROP + 1) ∧
          FieldsBut [Reg.BOX_FC_CNT_DROP] s t ∧ SameBut [.regs] s t) ∧
      (s.pwr.st = .active ∨ s.pwr.st = .idle → s.is Reg.BOX_CTL_FC_EN = true → s.fcBusy act = false → last = 0 →
        ∃ t, exec (.forecastWord act w) s = .next t ∧ t.box.wins act = (s.box.wins act).filter (fun x => x.on) ∧
          t.box.wins (1 - act.val) = s.box.wins (1 - act.val) ∧ SameBut [.box, .top] s t) ∧
      (s.pwr.st = .active ∨ s.pwr.st = .idle → s.is Reg.BOX_CTL_FC_EN = true → s.fcBusy act = false → last ≠ 0 →
        ∃ t, exec (.forecastWord act w) s = .next t ∧
          t.box.wins act = (if 4 ≤ (s.box.wins act).length then s.box.wins act else s.box.wins act ++
            [{ start := s.now + start, stop := s.now + start + last, level := bits w.toNat 24 2 }]) ∧
          (start < 200 → t.rd Reg.BOX_STAT_FC_LATE = 1) ∧
          (4 ≤ (s.box.wins act).length → t.rd Reg.BOX_FC_CNT_DROP =
            sat (2 ^ Reg.BOX_FC_CNT_DROP.width - 1) (s.rd Reg.BOX_FC_CNT_DROP + 1)) ∧ SameBut [.box, .regs] s t) ∧
      (s.pwr.st = .nap ∨ s.pwr.st = .dormant → ∃ t, exec (.forecastWord act w) s = .next t ∧
        tget none t.box.latched act = some w.toNat ∧ SameBut [.box] s t)) ∧
    (∀ w, least Window.start ((s.box.wins act).filter fun w => !w.on && decide (w.start ≤ s.now)) = some w →
      ∃ t, exec (.forecastWindowBegin act) s = .next t ∧ { w with on := true } ∈ t.box.wins act ∧
        t.rd (if act = 0 then Reg.BOX_STAT_WIN_A else Reg.BOX_STAT_WIN_B) = 1 ∧
        (t.live 0 < s.inUse 0 ∨ t.live 1 < s.inUse 1 → t.rd Reg.BOX_STAT_FC_OVER = 1) ∧ SameBut [.box, .regs] s t) ∧
    (∀ w, least Window.stop ((s.box.wins act).filter fun w => w.on && decide (w.stop ≤ s.now)) = some w →
      ∃ t, exec (.forecastWindowEnd act) s = .next t ∧ t.box.wins act = (s.box.wins act).erase w ∧
        t.rd Reg.BOX_LIVE_VCC = t.live 0 % 2 ^ 16 ∧ SameBut [.box, .regs, .top] s t)) ∧
  (∀ s : State, s.pwr.st ≠ .off →
    exec .diodeSampleTimer s = .next { s with box := { s.box with converting := true } } ∧
    (s.box.converting = true →
      (∀ r : Int, let x := max (-160) (min 500 r)
        ∃ t, exec (.diodeConversionDone (some r)) s = .next t ∧ t.temp = x ∧ t.rd Reg.BOX_TEMP_VALID = 1 ∧
          t.rd Reg.BOX_THERM_STAT_SENSOR_FAIL = 0 ∧ t.box.converting = false ∧ t.box.fails = 0 ∧
          ∀ k, k < 4 →
            (s.is (thermFld k) = false → (t.is (thermFld k) = true ↔ if k ≤ 1 then x < s.thresh k else s.thresh k ≤ x)) ∧
            (s.is (thermFld k) = true →
              (t.is (thermFld k) = false ↔ if k ≤ 1 then s.thresh 1 + 8 ≤ x else x < s.thresh k - 8))) ∧
      (∃ t, exec (.diodeConversionDone none) s = .next t ∧ t.box.converting = false ∧ t.box.fails = s.box.fails + 1 ∧
        t.rd Reg.BOX_TEMP_READING = s.rd Reg.BOX_TEMP_READING ∧
        (2 ≤ s.box.fails → t.is Reg.BOX_THERM_STAT_SENSOR_FAIL = true))) ∧
    ∃ t, exec .loadWindowClose s = .next t ∧
      t.rd Reg.BOX_FC_CNT_LOAD_LAST = ((List.range 8).filter fun n => (s.chan n).active).length ∧
      ∀ n, n < 8 → (t.chan n).active = (match tget none s.top.run n with
        | some g => g.what == 0 && decide (2 ≤ g.leg.kind)
        | none => false))

/-! ## Power states, the economy switch and the power domains -/

/-- R442, R443, R452, R466: a switch of the operating point waits for the running segments, then for the voltage where
the point is nominal, then for the relock of CCLK, at which the point is in use and its POWER completes. A write of
DOM.EN asserts the ball of a domain, or takes the domain off once its array phases have ended; FC_PWRGD that rises asks
for discovery of its channels, and FC_PWRGD that does not is PG_FAIL. -/
def Obligations.OperatingPointsAndDomainsSwitch : Prop :=
  (∀ (s : State) (t target k : Nat), s.pwr.econ = some (t, target, k) →
    let slices := ∃ n x y, (n, x) ∈ s.chs ∧ x.train = some y ∧ y.slice = true
    let segs := ∃ n g, (n, some g) ∈ s.top.run
    (k = 0 → (slices ∨ segs → exec .economySegmentsEnded s = .next s) ∧
      (¬ slices → ¬ segs → exec .economySegmentsEnded s =
        .next { s with pwr := { s.pwr with econ := some (t, target, if target = 1 then 2 else 1) } })) ∧
    (k = 1 → exec .voltageAck s = .next { s with pwr := { s.pwr with econ := some (t, target, 2) } }) ∧
    (k = 2 → target < 2 → ∃ u : State, exec .cclkRelockDone s = .next u.kickAll ∧ u.rd Reg.PWR_CTL_ECON = target ∧
      (∀ c, s.cmd? t = some c → c.pkt.opcode = opPower → c.stage = .running →
        (b2n (c.pkt.flag 2) = target → u.pwr = { s.pwr with econ := none } ∧ Completes u t 0 0) ∧
        (b2n (c.pkt.flag 2) ≠ target → u.pwr = { s.pwr with econ := some (t, b2n (c.pkt.flag 2), 0) })) ∧
      (s.cmd? t = none → u.pwr = { s.pwr with econ := none }))) ∧
  (∀ (m : Master) (v : W32) (s : State) (i : Instr), Served s m → i = .pwrDomEnable m v ∨ i = .pwrDomDisable m v →
    ∃ u : State, exec i s = .next u.domStep.settle ∧ u.rd Reg.PWR_DOM_EN = bits v.toNat 0 4 ∧
      u.rd Reg.PWR_DOM_PG_TIMEOUT = bits v.toNat 8 8 ∧
      u.rd Reg.PWR_DOM_PG_FAIL = s.rd Reg.PWR_DOM_PG_FAIL &&& (15 ^^^ bits v.toNat 16 4) ∧
      ∀ k, k < 4 →
        (bit v.toNat k = true → bit (s.rd Reg.PWR_DOM_EN) k = false → k ∉ s.pwr.domOff →
          bit (u.rd Reg.PWR_STAT_PWR_EN) k = true ∧ 2 * k ∈ u.sys.undisc ∧ 2 * k + 1 ∈ u.sys.undisc) ∧
        (bit v.toNat k = true → bit (s.rd Reg.PWR_DOM_EN) k = false → k ∉ u.pwr.domOff) ∧
        (bit v.toNat k = false → bit (s.rd Reg.PWR_DOM_EN) k = true → k ∈ u.pwr.domOff)) ∧
  (∀ (dom : Fin 4) (s : State), s.pwr.st ≠ .dormant → s.pwr.st ≠ .off → bit (s.rd Reg.PWR_STAT_PWR_EN) dom = true →
    bit (s.rd Reg.PWR_STAT_PWRGD) dom = false →
    (bit (s.rd Reg.PWR_DOM_PG_FAIL) dom = false → ∃ u : State, exec (.pgTimeout dom) s = .next u.wokeCheck ∧
      bit (u.rd Reg.PWR_DOM_PG_FAIL) dom = true ∧ u.err = (s.err1 clsUnrecovered 0xE 1 0 0 dom).err ∧
      (¬ (∃ c ∈ s.que.cmds, c.pkt.opcode = opDiscover ∧ c.stage = .running) → SameBut [.regs, .err] s u)) ∧
    ∃ t, exec (.pwrgdRise dom) s = .next t ∧ bit (t.rd Reg.PWR_STAT_PWRGD) dom = true ∧
      (∀ n, n / 2 = dom.val → t.rd (Reg.CH_STAT_PWRGD n) = 1 ∧ n ∈ t.sys.undisc ∧
        ∃ l ∈ t.top.waiting ++ t.top.leases, l.act = .discover ∧ l.res = [resCh n] ∧ l.tag = none) ∧
      SameBut [.regs, .jnp, .top, .sys] s t)

/-! ## Hold-up -/

/-- R446 to R449: FC_HOLDUP_WARN_N begins the sequence, after a wake where the complex sleeps; in DORMANT it is done at
once. The drain ends in the flush; a band pass takes its rows and programs accepted frames in acceptance order, or
abandons its entry; once the map is written the records are written, DONE is asserted and HU_LAST holds what was flushed.
The pin that rises after DONE ends the sequence; one that rises before lets it run. -/
def Obligations.HoldUpFlushesAndRecords : Prop :=
  ∀ s : State,
    (s.is Reg.GLB_STRAP_HU_EN = false ∨ s.pwr.warn = true ∨ s.pwr.st = .off → exec .holdupWarnAssert s = .next s) ∧
    (s.is Reg.GLB_STRAP_HU_EN = true → s.pwr.warn = false →
      (s.pwr.st = .active → s.pwr.hold = 0 → s.sys.warmRun = none → ∃ u : State,
        exec .holdupWarnAssert s = .next u.settle.kickAll ∧ u.pwr.hold = 2 ∧ u.pwr.warn = true ∧ u.pwr.holdAt = s.now ∧
        u.pwr.flushed = 0 ∧ u.pwr.mapfr = 0 ∧ u.pwr.entry = none ∧ u.rd Reg.PWR_STAT_HOLDUP = 1 ∧
        ∀ b o, b < 2 → s.yOp? b = some o → o.master ≠ 3 → o.susp = false →
          u.yOp? b = some { o with susp := true, suspReq := false }) ∧
      (s.pwr.st = .active → s.pwr.hold = 0 → s.sys.warmRun ≠ none → exec .holdupWarnAssert s =
        .next { s.tellHoldup with pwr := { s.pwr with warn := true, holdAt := s.now, hold := 1 } }) ∧
      (s.pwr.st = .idle ∨ s.pwr.st = .nap → exec .holdupWarnAssert s = .next { s.tellHoldup with pwr := { s.pwr with
        warn := true, holdAt := s.now, hold := 1, waking := some (s.pwr.waking.getD 0) } }) ∧
      (s.pwr.st = .dormant → ∃ t, exec .holdupWarnAssert s = .next t ∧ t.rd Reg.PWR_STAT_HU_DONE = 1 ∧
        FieldsBut [Reg.PWR_STAT_HU_DONE] s t ∧ SameBut [.regs, .mcs, .pwr] s t ∧ t.pwr = { s.pwr with
          warn := true, holdAt := s.now, hold := 6, waking := some (s.pwr.waking.getD 0) })) ∧
    (∀ n, n < 8 → s.tellHoldup.seq n = (if (s.seq n).run then { s.seq n with evs := putBit (s.seq n).evs 2 true } else s.seq n)) ∧
    SameBut [.mcs] s s.tellHoldup ∧
    (s.pwr.hold ≠ 2 ∨ (∃ o ∈ s.top.ops, s.drains o = true) → exec .holdupDrainDone s = .next s) ∧
    (s.pwr.hold = 2 → (∀ o ∈ s.top.ops, s.drains o = false) → exec .holdupDrainDone s = .next { s with pwr := { s.pwr with
      hold := if ({ s with pwr := { s.pwr with hold := 3 } } : State).flushLeft then 3 else 4 } }) ∧
    (∀ r : BandRes, s.pwr.hold = 3 ∨ s.pwr.hold = 4 → ∀ e, s.bandEntry r.ch = some e → s.bandTakes r.ch = true →
      let ps := r.pfas.map (· % 2 ^ 40)
      (∀ a ∈ ps, s.inBand a = true) →
      (r.pass = false → ∃ u : State, exec (.holdupBandPassDone r) s = .next u.settle ∧ (u.band r.ch).gone = true ∧
        u.pwr.flushed = s.pwr.flushed ∧ u.pwr.mapfr = s.pwr.mapfr ∧ SameBut [.top, .map, .pwr, .regs, .box, .drawn] s u) ∧
      (r.pass = true → s.pwr.hold = 3 → (∀ a ∈ ps, s.pf? a = none) →
        let c := if (s.band r.ch).cclass = 0 then (match s.flushable 0 with | d :: _ => d.cclass | [] => 0)
          else (s.band r.ch).cclass
        ∃ u : State, exec (.holdupBandPassDone r) s = .next u.settle.flushEnd ∧ (u.band r.ch).cclass = c ∧
          (u.band r.ch).used = max (s.band r.ch).used (ps.foldl (fun v a => max v (pfaPage a + 1)) 0) ∧
          ((∀ d ∈ (s.flushable c).take ps.length, d.fua = false) →
            u.pwr.flushed = s.pwr.flushed + min (s.flushable c).length ps.length) ∧
          (∀ d ∈ (s.flushable c).take ps.length, ∀ x ∈ u.que.dirty, x.order ≠ d.order ∨ x.pos ≠ d.pos) ∧
          (∀ x ∈ s.que.dirty, (∀ d ∈ (s.flushable c).take ps.length, x.order ≠ d.order ∨ x.pos ≠ d.pos) →
            ∃ y ∈ u.que.dirty, y.order = x.order ∧ y.pos = x.pos ∧ y.buf = x.buf))) ∧
    (s.pwr.hold ≠ 4 ∨ s.map.wbs ≠ [] → exec .holdupRecordsDone s = .next s) ∧
    (s.pwr.hold = 4 → s.map.wbs = [] →
      let records : State → Prop := fun u =>
        u.rd Reg.PWR_HU_LAST_FRAMES = s.pwr.flushed % 2 ^ 14 ∧ u.rd Reg.PWR_HU_LAST_MAPFR = s.pwr.mapfr % 2 ^ 11 ∧
        u.rd Reg.PWR_HU_LAST_SHORT = b2n (s.framesLeft != 0) ∧ u.rd Reg.PWR_HU_LAST_MARKER = 1 ∧
        u.rd Reg.PWR_HU_LAST_VALID = 1 ∧ u.rd Reg.PWR_HU_TIME_TIME = sat 0xFFFF (s.now - s.pwr.holdAt)
      (s.pwr.warn = true → ∃ t, exec .holdupRecordsDone s = .next t ∧ records t ∧ t.rd Reg.PWR_STAT_HU_DONE = 1 ∧
        t.pwr = { s.pwr with hold := 6 } ∧ SameBut [.regs, .drawn, .yew, .pwr] s t) ∧
      (s.pwr.warn = false → ∃ u : State, exec .holdupRecordsDone s = .next u.settle.kickAll ∧ records u ∧
        u.rd Reg.PWR_STAT_HU_DONE = 0 ∧ u.rd Reg.PWR_STAT_HOLDUP = 0 ∧ u.pwr = { s.pwr with hold := 0 })) ∧
    (s.pwr.warn = false → exec .holdupWarnDeassert s = .next s) ∧
    (s.pwr.warn = true →
      (s.pwr.hold = 6 → ∃ u : State, exec .holdupWarnDeassert s = .next u.settle.kickAll ∧
        u.pwr = { s.pwr with warn := false, hold := 0 } ∧ u.rd Reg.PWR_STAT_HU_DONE = 0 ∧ u.rd Reg.PWR_STAT_HOLDUP = 0) ∧
      (s.pwr.hold ≠ 6 → s.pwr.hold ≠ 0 → exec .holdupWarnDeassert s =
        .next { s with pwr := { s.pwr with warn := false } }) ∧
      (s.pwr.hold = 0 → ∃ t, exec .holdupWarnDeassert s = .next t ∧ t.pwr = { s.pwr with warn := false } ∧
        SameBut [.regs, .top, .box, .pwr] s t))

/-! ## Resets and bring-up -/

/-- R433, R451, R519, R537, R541: loss of power and a cold reset put every register field at its Cold value, empty every
queue and unfix every LOCK field; the complex is then in OFF, or begins its bring-up. A cold reset samples the straps,
shows its cause, asks for discovery where FC_PWRGD is high, and stops with DONE where FC_HOLDUP_WARN_N is low. The
record of a hold-up sequence in the journal of Yew gives back SEQ, the next group number and the checkpoint. What lies
in DRAM, in the rings of the clients and in the words of Yew stays. -/
def Obligations.PowerLossAndColdResetClearTheComplex : Prop :=
  (∀ F ∈ Reg.all, State.reset.rd F = F.cold) ∧
  (∀ s : State, ∃ t, exec .lossOfPower s = .next t ∧ t.pwr = { State.reset.pwr with st := .off } ∧
    t.regs = State.reset.regs ∧ t.locks = [] ∧ t.que = State.reset.que ∧ t.hdg = State.reset.hdg ∧ t.cop = State.reset.cop ∧
    t.map = State.reset.map ∧ t.top = State.reset.top ∧ t.err = State.reset.err ∧ t.dram = s.dram ∧
    t.delivered = s.delivered ∧ (s.yOp? 0 = none → s.yOp? 1 = none →
      t.yew.words = s.yew.words ∧ t.yew.badWords = s.yew.badWords)) ∧
  (∀ (r : ColdIn) (s : State), let held := holdOf s.wiped.jScan.jRecords
    ∃ t, exec (.coldReset r) s = .next t ∧ t.locks = [] ∧
    (held = none → t.que = State.reset.que ∧ t.map = { State.reset.map with ckpt := t.map.ckpt } ∧
      t.rd Reg.MAP_SEQ_CNT = 0 ∧ t.rd Reg.MAP_SEQ_HI_CNT = 0) ∧
    (∀ h, held = some h → t.que = { State.reset.que with nextGroup := bits (h.getD 8 0) 48 16 } ∧
      t.map = { State.reset.map with ckpt := some (h.getD 9 0 % 2 ^ 40, h.getD 10 0 % 2 ^ 40) } ∧
      t.rd Reg.MAP_SEQ_CNT = bits (h.getD 8 0) 0 32 ∧ t.rd Reg.MAP_SEQ_HI_CNT = bits (h.getD 8 0) 32 16) ∧
    t.hdg = State.reset.hdg ∧ t.cop = State.reset.cop ∧ t.mcs = State.reset.mcs ∧
    t.dram = s.dram ∧ t.delivered = s.delivered ∧ t.sys.noClk = true ∧ t.pwr.st = .active ∧ t.top.ops = [] ∧
    t.rd Reg.GLB_STRAP_RB_PU = bits r.straps 0 1 ∧ t.rd Reg.GLB_STRAP_HU_EN = bits r.straps 1 1 ∧
    t.rd Reg.GLB_STRAP_DOM_SEQ = bits r.straps 2 1 ∧ t.rd Reg.ERR_RST_CAUSE = b2n r.byPin ∧
    (t.rd Reg.PWR_STAT_HU_DONE = 1 ↔ r.warnLow = true ∧ bit r.straps 1 = true) ∧
    (∀ F ∈ Reg.all, F ∉ [Reg.GLB_STRAP_RB_PU, Reg.GLB_STRAP_HU_EN, Reg.GLB_STRAP_DOM_SEQ, Reg.ERR_RST_CAUSE,
      Reg.PWR_STAT_HU_DONE, Reg.PWR_STAT_PWRGD, Reg.MAP_SEQ_CNT, Reg.MAP_SEQ_HI_CNT] → (∀ n, n < 8 → F ≠ Reg.CH_STAT_PWRGD n) → t.rd F = F.cold) ∧
    ∀ k, k < 4 → (bit (t.rd Reg.PWR_STAT_PWRGD) k = true ↔ bit r.pwrgd k = true) ∧
      ∀ n, n / 2 = k → (t.rd (Reg.CH_STAT_PWRGD n) = 1 ↔ bit r.pwrgd k = true) ∧
        (bit r.pwrgd k = true → ∃ l ∈ t.top.waiting, l.act = .discover ∧ l.res = [resCh n]))

/-- R512, R513, R515, R516, R568: a warm reset that is requested begins, or waits while the hold-up sequence, an ACTIVATE
or a DISCOVER runs; a request while one runs is ignored. Its begin stops policy firmware and ends the activities; once
issued work has ended and its records have left, the FIFOs and sequencers are empty, the registers have their Warm
values, and policy firmware starts from its active slot. -/
def Obligations.WarmResetsStopWorkAndRestart : Prop :=
  ∀ s : State,
    let begins : Instr → Nat → Prop := fun i cause => ∃ u : State, exec i s = .next u.settle ∧
      u.sys.warmRun = some cause ∧ u.sys.warmReq = none ∧ u.rd Reg.ERR_RST_RUNNING = 1 ∧ u.hly.running = false ∧
      u.hly.inflight = [] ∧ u.que.inbox = [] ∧ u.yew.seq = none ∧ u.hdg.scrub = [] ∧ u.hdg.selftest = [] ∧
      (∀ n, tget none u.jnp.calib n = none ∧ tget none u.jnp.patrol n = none) ∧ u.jnp.patrolq = [] ∧ u.pwr.entry = none
    (∀ i cause, (∃ m, Served s m ∧ i = .warmRst m ∧ cause = 2) ∨
        (s.pwr.st = .active ∧ s.hly.running = true ∧ i = .warmReq ∧ cause = 3) →
      (s.sys.warmRun ≠ none ∨ s.sys.warmReq ≠ none → exec i s = .next s.fresh) ∧
      (s.sys.warmRun = none → s.sys.warmReq = none → s.warmBarred = true →
        exec i s = .next { s.fresh with sys := { s.sys with warmReq := some cause } }) ∧
      (s.sys.warmRun = none → s.sys.warmReq = none → s.warmBarred = false → begins i cause)) ∧
    (s.hly.running = false → exec .warmReq s = .next s) ∧
    (s.sys.warmReq = none ∨ s.warmBarred = true ∨ s.pwr.st ≠ .active → exec .warmResetBegin s = .next s) ∧
    (∀ c, s.sys.warmReq = some c → s.warmBarred = false → s.pwr.st = .active → begins .warmResetBegin c) ∧
    (s.sys.warmRun = none ∨ s.warmBusy = true → exec .warmResetDrainDone s = .next s) ∧
    (∀ c, s.sys.warmRun = some c → s.warmBusy = false → s.sys.chResetHeld = [] → ∃ u : State,
      exec .warmResetDrainDone s = .next (State.when u.settle.kickAll (u.settle.kickAll.pwr.hold == 1) State.holdBegin) ∧
      u.sys.warmRun = none ∧ u.rd Reg.ERR_RST_CAUSE = c % 4 ∧ u.rd Reg.ERR_RST_REMOVED = sat 0xFFFF s.sys.removed ∧
      u.rd Reg.ERR_RST_RUNNING = 0 ∧ u.mcs.seqs = [] ∧ u.mcs.cs = s.mcs.cs ∧ u.que.heldSq = [] ∧
      (∀ n, n < 8 → (u.chan n).events = [] ∧ (u.chan n).evHeld = []) ∧
      (∀ n, n < 16 → (u.dmaCh n).queue = [] ∧ (u.dmaCh n).shadow = none) ∧
      (∀ k, k < 64 → u.is (Reg.QUE_CFG_ENABLE k) = false ∧ (s.pairBusy k = false → u.pair k = {})) ∧
      (∀ F ∈ Reg.all, F.addr / 0x1000 = 4 ∨ F.addr / 0x1000 = 5 ∨ F.addr / 0x1000 = 8 →
        u.rd F = match F.warm with | some w => w | none => s.rd F) ∧
      (s.is Reg.HLY_STAT_NO_IMAGE = false → u.hly.running = true ∧ u.rd Reg.HLY_STAT_BANK = u.actHolly))

/-! ## Yew -/

/-- R475 to R490: a program or an erase through the command register takes the keys, CMD, ADDR and the two halves of the
data, in this order and from one master; a write out of order closes the sequence with SEQ, and one of another master
gives MASTER and changes nothing. At ADDR the first cause of R485 rejects it. A read of a bank that is busy is a bus
fault. SUSPEND and RESUME need no keys. A program writes its word and an erase blanks its sector at the pulse that
verifies, or ends with an error at the last pulse. -/
def Obligations.YewOperationsNeedTheirSequence : Prop :=
  (∀ (m : Master) (v : W32) (s : State), Served s m →
    let errs : Instr → Nat → Bool → Prop := fun i e shuts => ∃ t, exec i s = .next t ∧ t.rd Reg.YEW_STAT_ERR = e ∧
      t.yew = (if shuts then { s.yew with seq := none } else s.yew) ∧ FieldsBut [Reg.YEW_STAT_ERR] s t ∧
      SameBut [.regs, .yew, .resp] s t
    let goes : Instr → YSeq → Prop := fun i q => exec i s = .next { s.fresh with yew := { s.yew with seq := some q } }
    let starts : Instr → YOp → Prop := fun i o => ∃ t, exec i s = .next t ∧ t.yew.seq = none ∧
      t.yOp? (yBank o.addr) = some o ∧ t.yew.words = s.yew.words ∧ t.rd Reg.YEW_SUSP_COUNT = 0 ∧
      FieldsBut [Reg.YEW_SUSP_COUNT] s t ∧ SameBut [.regs, .yew, .resp] s t
    let code := bits v.toNat 0 4
    let a := bits v.toNat 3 20 * 8
    let cmd := if code = 1 then Instr.yewCmdProgram m v else .yewCmdErase m v
    (s.yew.seq = none →
      (v.toNat = 0xB7E1 → goes (.yewKeyWrite m v) { master := m, step := 1 }) ∧
      (v.toNat ≠ 0xB7E1 → errs (.yewKeyWrite m v) 1 true) ∧ (code = 1 ∨ code = 2 → errs cmd 1 true) ∧
      errs (.yewAddrWrite m v) 1 true ∧ errs (.yewDataLoWrite m v) 1 true ∧ errs (.yewDataHiWrite m v) 1 true) ∧
    (∀ q, s.yew.seq = some q →
      (mCode q.master ≠ mCode m →
        errs (.yewKeyWrite m v) 9 false ∧ (code = 1 ∨ code = 2 → errs cmd 9 false) ∧ errs (.yewAddrWrite m v) 9 false ∧
        errs (.yewDataLoWrite m v) 9 false ∧ errs (.yewDataHiWrite m v) 9 false) ∧
      (mCode q.master = mCode m →
        (q.step = 1 → v.toNat = 0x4A1E → goes (.yewKeyWrite m v) { q with step := 2 }) ∧
        (q.step ≠ 1 ∨ v.toNat ≠ 0x4A1E → errs (.yewKeyWrite m v) 1 true) ∧
        (code = 1 ∨ code = 2 → (q.step = 2 → goes cmd { q with step := 3, cmd := code }) ∧
          (q.step ≠ 2 → errs cmd 1 true)) ∧
        (q.step ≠ 3 → errs (.yewAddrWrite m v) 1 true) ∧
        (q.step = 3 →
          (s.yReject (mCode m) a ≠ 0 → errs (.yewAddrWrite m v) (s.yReject (mCode m) a) true) ∧
          (s.yReject (mCode m) a = 0 → q.cmd = 2 →
            starts (.yewAddrWrite m v) { erase := true, master := mCode m, addr := a / 4096 * 4096 }) ∧
          (s.yReject (mCode m) a = 0 → q.cmd ≠ 2 → goes (.yewAddrWrite m v) { q with step := 4, addr := a })) ∧
        (q.step = 4 → goes (.yewDataLoWrite m v) { q with step := 5, lo := v.toNat }) ∧
        (q.step ≠ 4 → errs (.yewDataLoWrite m v) 1 true) ∧ (q.step ≠ 5 → errs (.yewDataHiWrite m v) 1 true) ∧
        (q.step = 5 →
          (s.yOp? (yBank q.addr) ≠ none → errs (.yewDataHiWrite m v) 4 true) ∧
          (s.yOp? (yBank q.addr) = none → s.yWord q.addr ≠ yErased ∨ s.yBad q.addr = true →
            errs (.yewDataHiWrite m v) 6 true) ∧
          (s.yOp? (yBank q.addr) = none → s.yWord q.addr = yErased → s.yBad q.addr = false →
            starts (.yewDataHiWrite m v)
              { erase := false, master := mCode m, addr := q.addr, data := q.lo + v.toNat * 2 ^ 32 })))) ∧
    (let b := bits v.toNat 4 1
     (code = 3 → (∀ o, s.yOp? b = some o → o.susp = false →
        ∃ t, exec (.yewCmdSuspend m v) s = .next t ∧ t.yOp? b = some { o with suspReq := true } ∧
          SameBut [.yew, .resp] s t) ∧
       (s.yBusy b = false → exec (.yewCmdSuspend m v) s = .next s.fresh)) ∧
     (code = 4 → (∀ o, s.yOp? b = some o → o.susp = true →
        ∃ t, exec (.yewCmdResume m v) s = .next t ∧ t.yOp? b = some { o with susp := false, suspReq := false } ∧
          SameBut [.yew, .resp] s t) ∧
       ((∀ o, s.yOp? b = some o → o.susp = false) → exec (.yewCmdResume m v) s = .next s.fresh))) ∧
    (let x := s.rd Reg.YEW_RADDR_ADDR * 8
     (s.yBusy (yBank x) = true → ∃ t, exec (.yewRdataRead m) s = .next t ∧ t.resp = .error ∧
       t.rd Reg.YEW_STAT_BUS_FAULT = 1 ∧
       t.rd Reg.YEW_FAULTS_CNT = sat (2 ^ Reg.YEW_FAULTS_CNT.width - 1) (s.rd Reg.YEW_FAULTS_CNT + 1) ∧
       SameBut [.regs, .resp, .err] s t) ∧
     (s.yBusy (yBank x) = false → s.yBad x = false → ∃ t, exec (.yewRdataRead m) s = .next t ∧
       t.resp = .value (bits (s.yWord x) 0 32) ∧ t.rd Reg.YEW_RDATA_HI_DATA = bits (s.yWord x) 32 32 ∧
       t.rd Reg.YEW_RADDR_ADDR = (if s.is Reg.YEW_RADDR_AUTOINC then
         (s.rd Reg.YEW_RADDR_ADDR + 1) % 2 ^ Reg.YEW_RADDR_ADDR.width else s.rd Reg.YEW_RADDR_ADDR) ∧
       SameBut [.regs, .resp] s t))) ∧
  (∀ s : State, (s.yew.seq = none → exec .yewSequenceTimeout s = .next s) ∧
    (s.yew.seq ≠ none → ∃ t, exec .yewSequenceTimeout s = .next t ∧ t.yew = { s.yew with seq := none } ∧
      t.rd Reg.YEW_STAT_ERR = 1 ∧ FieldsBut [Reg.YEW_STAT_ERR] s t ∧ SameBut [.regs, .yew] s t)) ∧
  (∀ (b : Fin 2) (s : State) (o : YOp), s.yOp? b = some o →
    (o.suspReq = true → o.susp = false → ∃ t, exec (.yewSuspendEffect b) s = .next t ∧
      t.yOp? b = some { o with susp := true, suspReq := false } ∧ t.yew.words = s.yew.words ∧
      (let n := sat (2 ^ Reg.YEW_SUSP_COUNT.width - 1) (s.rd Reg.YEW_SUSP_COUNT + 1)
       t.rd Reg.YEW_SUSP_COUNT = n ∧
       (s.rd Reg.YEW_SUSP_NOTICE ≠ 0 → n = s.rd Reg.YEW_SUSP_NOTICE → t.rd Reg.YEW_STAT_SUSP_NOTICE = 1)) ∧
      SameBut [.regs, .err, .yew] s t) ∧
    (o.suspReq = false ∨ o.susp = true → exec (.yewSuspendEffect b) s = .next s) ∧
    (o.susp = true → o.master = 3 → o.erase = true → ∃ t, exec (.yewSliceExpiry b) s = .next t ∧
      t.yOp? b = some { o with susp := false, suspReq := false } ∧ SameBut [.yew] s t) ∧
    (o.susp = false ∨ o.master ≠ 3 ∨ o.erase = false → exec (.yewSliceExpiry b) s = .next s) ∧
    (let i := fun ok => if o.erase then Instr.yewErasePulseDone b ok else .yewProgramPulseDone b ok
     let last := if o.erase then 20 else 64
     let n := o.pulses + 1
     let ends : Bool → (State → Prop) → Prop := fun ok P => ∃ u : State, exec (i ok) s = .next u.keeperGo ∧
       u.yOp? b = none ∧ u.rd Reg.YEW_PULSE_LAST = n % 2 ^ Reg.YEW_PULSE_LAST.width ∧
       (o.master ≠ 3 → u.rd Reg.YEW_STAT_DONE = 1) ∧ P u
     (o.susp = true → ∀ ok, exec (i ok) s = .next s) ∧
     (o.susp = false → o.master ≠ 3 ∨ o.note = 0 →
       (o.erase = false → ends true fun u => u.yWord o.addr = o.data % 2 ^ 64 ∧ u.yBad o.addr = false ∧
         ∀ x, x / 8 ≠ o.addr / 8 → u.yWord x = s.yWord x ∧ u.yBad x = s.yBad x) ∧
       (o.erase = true → ends true fun u =>
         (∀ x, x / 4096 = o.addr / 4096 → u.yWord x = yErased ∧ u.yBad x = false) ∧
         ∀ x, x / 4096 ≠ o.addr / 4096 → u.yWord x = s.yWord x ∧ u.yBad x = s.yBad x)) ∧
     (o.susp = false → last ≤ n → o.master ≠ 3 → ends false fun u =>
       u.rd Reg.YEW_STAT_ERR = (if o.erase then 8 else 7)) ∧
     (o.susp = false → n < last → o.fence = false → ∃ u : State, exec (i false) s = .next u ∧
       u.yOp? b = some { o with pulses := n } ∧ u.yew.words = s.yew.words ∧ SameBut [.regs, .err, .yew] s u)))

/-! ## Policy firmware -/

/-- R92, R249, R507 to R511: an ACTIVATE leaves the inbox and begins its check, of the bank that ADDR[0] names; one that
meets another under way completes with DEFERRED, cause 3. A check that fails ends it with ACT_REJECTED and the reason;
else its drain begins, which its limit ends with ACT_TIMEOUT. The old image that sets QUIESCED stops, and the activation
record is written; the image that sets READY ends the activation, or the way back. The watchdog restarts policy firmware,
or halts it at the second expiry within 1,000,000 ticks, and every packet in flight completes with INTERNAL. -/
def Obligations.PolicyFirmwareIsActivatedAndWatched : Prop :=
  (∀ (tag : Tag) (s : State) (c : Cmd), s.slow? tag opActivate = some c →
    ∀ i mcs, (i, mcs) ∈ [(Instr.activateHolly tag, false), (.activateEspalier tag, true)] → c.pkt.param = b2n mcs →
      (s.hly.actv ≠ none → ∃ t, exec i s = .next t ∧ Completes t tag 0x60 3 ∧ t.hly.actv = s.hly.actv) ∧
      (s.hly.actv = none → ∃ t w, exec i s = .next t ∧
        t.hly.actv = some { mcs := mcs, bank := bits c.pkt.addr 0 1, tag := tag } ∧ t.cmd? tag = some w ∧ w.stage = .running ∧
        tag.val ∉ t.que.inbox ∧ SameBut [.que, .hly] s t)) ∧
  (∀ (s : State) (a : Actv), s.hly.actv = some a →
    let done : State → Nat → Nat → Prop := fun u st detail => u.hly.actv = none ∧
      ∀ c, s.cmd? a.tag = some c → c.stage = .running → Completes u a.tag st detail
    let fail := if a.mcs then s.mcsFail a.bank true else s.hollyFail a.bank
    (a.stage = 0 →
      (∀ r, fail = some r → ∃ u : State, exec .checkPassDone s = .next u.kickAll ∧ done u 0x71 r ∧
        (a.mcs = false → u.rd Reg.HLY_STAT_REASON = r % 256)) ∧
      (fail = none → s.pwr.hold ≠ 0 → ∃ u : State, exec .checkPassDone s = .next u.kickAll ∧ done u 0x70 0) ∧
      (fail = none → s.pwr.hold = 0 → exec .checkPassDone s = .next (State.actStep { s with hly := { s.hly with
        actv := some { a with stage := 1, digest := s.slotDigest a.mcs a.bank } } }))) ∧
    (a.stage ≠ 0 → exec .checkPassDone s = .next s) ∧
    (a.stage = 1 → ∃ u : State, exec .activateDrainTimeout s = .next u.kickAll ∧ done u 0x70 0) ∧
    (a.stage ≠ 1 → exec .activateDrainTimeout s = .next s) ∧
    (a.mcs = false → a.stage = 2 → ∃ t, exec .activateStartTimeout s = .next t ∧ t.hly.running = false ∧
      t.hly.actv = some { a with stage := 4, reason := 10 } ∧
      (∃ j ∈ t.yew.jobs, j.note = 7 ∧ j.data = s.actWord (1 - a.bank) s.actMcs) ∧ SameBut [.regs, .err, .yew, .hly] s t) ∧
    (a.mcs = true ∨ a.stage ≠ 2 → exec .activateStartTimeout s = .next s) ∧
    (s.pwr.st = .active → s.hly.running = true → a.mcs = false → s.rd Reg.HLY_CTL_QUIESCED ≤ 1 →
      (a.stage = 1 → s.rd Reg.HLY_CTL_QUIESCED = 0 → ∃ t, exec .hlyQuiesced s = .next t ∧ t.hly.running = false ∧
        t.hly.actv = some { a with stage := 2 } ∧ t.rd Reg.HLY_CTL_QUIESCED = 0 ∧ t.rd Reg.HLY_CTL_READY = 0 ∧
        (∃ j ∈ t.yew.jobs, j.note = 6 ∧ j.data = s.actWord a.bank s.actMcs) ∧ SameBut [.regs, .resp, .yew, .hly] s t) ∧
      (s.rd Reg.HLY_CTL_READY = 0 →
        (a.stage = 2 → ∃ u : State, exec .hlyReady s = .next u.kickAll ∧ done u 0 0 ∧ u.rd Reg.HLY_CTL_READY = 1) ∧
        (a.stage = 4 → ∃ u : State, exec .hlyReady s = .next u.kickAll ∧ done u 0x71 10 ∧ u.rd Reg.HLY_STAT_REASON = 10)))) ∧
  (∀ s : State,
    (s.hly.running = false → exec .hlyQuiesced s = .next s ∧ exec .hlyReady s = .next s ∧ exec .hlyWdogExpiry s = .next s) ∧
    (s.rd Reg.HLY_WDOG_TIME = 0 → exec .hlyWdogExpiry s = .next s) ∧
    (s.pwr.st = .active → s.rd Reg.HLY_WDOG_TIME < 2 ^ 16 → ∃ t, exec .hlyWdogKick s = .next t ∧ t.hly = { s.hly with lastKick := s.now } ∧
      FieldsBut [] s t ∧ SameBut [.regs, .resp, .hly] s t) ∧
    (s.hly.running = true → s.rd Reg.HLY_WDOG_TIME ≠ 0 →
      let again := ∃ x, s.hly.lastExpiry = some x ∧ s.now < x + 1000000
      ∃ t, exec .hlyWdogExpiry s = .next t ∧ t.rd Reg.HLY_STAT_WDOG_FIRED = 1 ∧ t.hly.lastExpiry = some s.now ∧
        (∀ g ∈ s.hly.inflight, ∀ c, s.cmd? g = some c → c.stage = .running → Completes t g 0x7F 7) ∧
        (again → t.hly.running = false ∧ t.hly.halted = true ∧ t.que.inbox = []) ∧
        (¬ again → t.hly.running = true ∧ t.hly.halted = false ∧ t.rd Reg.HLY_STAT_BANK = s.actHolly)) ∧
    (∀ m, Served s m →
      (s.hly.halted = false → exec (.hlyRestart m) s = .next s.fresh) ∧
      (s.hly.halted = true → s.is Reg.HLY_STAT_NO_IMAGE = false → ∃ t, exec (.hlyRestart m) s = .next t ∧
        t.hly.running = true ∧ t.hly.halted = false ∧ t.rd Reg.HLY_STAT_BANK = s.actHolly ∧ SameBut [.regs, .resp, .hly] s t) ∧
      (s.hly.halted = true → s.is Reg.HLY_STAT_NO_IMAGE = true → s.hollyHead s.actHolly = none →
        ∃ t, exec (.hlyRestart m) s = .next t ∧ t.hly.running = true ∧ t.rd Reg.HLY_STAT_NO_IMAGE = 0)))

/-! ## The error log, the timestamp counter and the debug block -/

/-- R529, R531, R570: the log takes the record that was raised first, of equals the one of the lowest SOURCE, and sets
its class; it stands behind the last one, or in a full ring in place of the oldest CORRECTED record. CLEAR and HEAD give
entries up. A read of TIME_LO latches the upper half of the counter. -/
def Obligations.TheErrorLogKeepsItsRecords : Prop :=
  (∀ s : State,
    (s.pwr.st = .off ∨ s.err.buf = [] → exec .errorRecordAccept s = .next s) ∧
    (∀ r, s.pwr.st ≠ .off → s.errNext = some r →
      r ∈ s.err.buf ∧ (∀ x ∈ s.err.buf, r.src < 256 → x.src < 256 → r.tstamp < x.tstamp ∨ r.tstamp = x.tstamp ∧ r.src ≤ x.src) ∧
      ∃ t, exec .errorRecordAccept s = .next t ∧ t.err.buf = s.err.buf.erase r ∧
        (r.cls < 4 → bit (t.rd Reg.ERR_STAT_CLASS) r.cls = true) ∧ SameBut [.regs, .err] s t ∧
        (r.cls = clsCorrected → s.is Reg.ERR_CTL_CORR_EN = false → t.err.ring = s.err.ring) ∧
        (r.cls ≠ clsCorrected ∨ s.is Reg.ERR_CTL_CORR_EN = true →
          (s.rd Reg.ERR_STAT_FILL < 64 →
            tget none t.err.ring (s.rd Reg.ERR_PTR_TAIL) = some { r with seq := s.rd Reg.ERR_SEQ_NEXT } ∧
            (∀ k, k ≠ s.rd Reg.ERR_PTR_TAIL → tget none t.err.ring k = tget none s.err.ring k) ∧
            t.rd Reg.ERR_PTR_TAIL = (s.rd Reg.ERR_PTR_TAIL + 1) % 64 ∧ t.rd Reg.ERR_STAT_FILL = s.rd Reg.ERR_STAT_FILL + 1 ∧
            t.rd Reg.ERR_SEQ_NEXT = (s.rd Reg.ERR_SEQ_NEXT + 1) % 2 ^ 32) ∧
          (64 ≤ s.rd Reg.ERR_STAT_FILL → t.rd Reg.ERR_STAT_LOST = 1 ∧
            (r.cls = clsCorrected → t.err.ring = s.err.ring) ∧
            (r.cls ≠ clsCorrected →
              tget none t.err.ring s.errVictim = some { r with seq := s.rd Reg.ERR_SEQ_NEXT } ∧
              (∀ k, k ≠ s.errVictim → tget none t.err.ring k = tget none s.err.ring k)))))) ∧
  (∀ (m : Master) (v : W32) (s : State), Served s m →
    (∃ t, exec (.errClear m v) s = .next t ∧ t.rd Reg.ERR_CTL_CORR_EN = bits v.toNat 1 1 ∧
      (bit v.toNat 0 = true → t.rd Reg.ERR_STAT_FILL = 0 ∧ t.rd Reg.ERR_PTR_HEAD = s.rd Reg.ERR_PTR_TAIL % 64) ∧
      FieldsBut (if bit v.toNat 0 then [Reg.ERR_CTL_CORR_EN, Reg.ERR_STAT_FILL, Reg.ERR_PTR_HEAD] else [Reg.ERR_CTL_CORR_EN])
        s t ∧ SameBut [.regs, .resp] s t) ∧
    (let n := (bits v.toNat 0 6 + 64 - s.rd Reg.ERR_PTR_HEAD) % 64
     (s.rd Reg.ERR_STAT_FILL < n → exec (.errHeadWrite m v) s = .next s.fresh) ∧
     (n ≤ s.rd Reg.ERR_STAT_FILL → ∃ t, exec (.errHeadWrite m v) s = .next t ∧
       t.rd Reg.ERR_STAT_FILL = (s.rd Reg.ERR_STAT_FILL - n) % 2 ^ Reg.ERR_STAT_FILL.width ∧
       t.rd Reg.ERR_PTR_HEAD = bits v.toNat 0 6 ∧ FieldsBut [Reg.ERR_STAT_FILL, Reg.ERR_PTR_HEAD] s t ∧
       SameBut [.regs, .resp] s t)) ∧
    (∃ t, exec (.glbTimeLoRead m) s = .next t ∧ t.resp = .value (s.now % 2 ^ 32) ∧
      t.rd Reg.GLB_TIME_HI_COUNT = s.now / 2 ^ 32 % 2 ^ 32 ∧ FieldsBut [Reg.GLB_TIME_HI_COUNT] s t ∧
      SameBut [.regs, .resp] s t))

/-- R574: the write that sets LOCKED clears INJ_CTL.ARM and FORCE.COUNT. R573, R575, R576: a write of INJ_CTL or FORCE
takes its fields; with LOCKED set it is ignored and REFUSED is set. -/
def Obligations.TheLockDisarmsTheDebugBlock : Prop :=
  (∀ (m : Master) (v : W32) (s : State), Served s m → 0x30000 ∉ s.locks → bit v.toNat 0 = true →
      ∃ t, exec (.dbgLock m v) s = .next t ∧ t.rd Reg.DBG_LOCK_LOCKED = 1 ∧ t.rd Reg.DBG_INJ_CTL_ARM = 0 ∧
        t.rd Reg.DBG_FORCE_COUNT = 0) ∧
  (∀ (m : Master) (v : W32) (s : State), Served s m →
      (∀ i, i ∈ [Instr.dbgInjArm m v, .dbgForceWrite m v] → s.is Reg.DBG_LOCK_LOCKED = true →
        ∃ t, exec i s = .next t ∧ t.rd Reg.DBG_LOCK_REFUSED = 1 ∧ FieldsBut [Reg.DBG_LOCK_REFUSED] s t ∧
          SameBut [.regs, .resp] s t) ∧
      (s.is Reg.DBG_LOCK_LOCKED = false →
        (∃ t, exec (.dbgInjArm m v) s = .next t ∧ t.rd Reg.DBG_INJ_CTL_NBITS = bits v.toNat 0 2 ∧
          t.rd Reg.DBG_INJ_CTL_ARM = bits v.toNat 31 1 ∧
          t.rd Reg.DBG_INJ_CTL_DONE = (if bit v.toNat 30 then 0 else s.rd Reg.DBG_INJ_CTL_DONE) ∧
          FieldsBut [Reg.DBG_INJ_CTL_NBITS, Reg.DBG_INJ_CTL_ARM, Reg.DBG_INJ_CTL_DONE] s t ∧ SameBut [.regs, .resp] s t) ∧
        (∃ t, exec (.dbgForceWrite m v) s = .next t ∧ t.rd Reg.DBG_FORCE_COUNT = bits v.toNat 0 8 ∧
          t.rd Reg.DBG_FORCE_CHANNEL = bits v.toNat 8 3 ∧ t.rd Reg.DBG_FORCE_SOFT = bits v.toNat 11 1 ∧
          FieldsBut [Reg.DBG_FORCE_COUNT, Reg.DBG_FORCE_CHANNEL, Reg.DBG_FORCE_SOFT] s t ∧ SameBut [.regs, .resp] s t)))
end

