-- ==== Sys2Proof/Laws/Tab.lean ====
section
/-!
SUPPORT. The laws of sparse tables: what a table holds after an entry is set, and that setting keeps the keys in strictly
rising order.
-/
namespace Sys2Proof.Machine

variable {α : Type}

theorem tget_tdel_self (d : α) (t : Tab α) (k : Nat) : tget d (tdel t k) k = d := by
  induction t with
  | nil => rfl
  | cons e r ih =>
    obtain ⟨j, w⟩ := e
    unfold tdel
    split
    · exact ih
    · simp [tget, *]

theorem tget_tdel_ne (d : α) (t : Tab α) {k i : Nat} (h : i ≠ k) : tget d (tdel t k) i = tget d t i := by
  induction t with
  | nil => rfl
  | cons e r ih =>
    obtain ⟨j, w⟩ := e
    unfold tdel
    split
    · subst_vars
      simp [tget, ih, Ne.symm h]
    · simp [tget, ih]

theorem tget_tins_self (d : α) (t : Tab α) (k : Nat) (v : α) : tget d (tins t k v) k = v := by
  induction t with
  | nil => simp [tins, tget]
  | cons e r ih =>
    obtain ⟨j, w⟩ := e
    unfold tins
    split
    · simp [tget]
    · split
      · simp [tget]
      · simp [tget, *]

theorem tget_tins_ne (d : α) (t : Tab α) {k i : Nat} (v : α) (h : i ≠ k) : tget d (tins t k v) i = tget d t i := by
  induction t with
  | nil => simp [tins, tget, Ne.symm h]
  | cons e r ih =>
    obtain ⟨j, w⟩ := e
    unfold tins
    split
    · simp [tget, Ne.symm h]
    · split
      · subst_vars
        simp [tget, Ne.symm h]
      · simp [tget, ih]

theorem tget_tset_self [DecidableEq α] (d : α) (t : Tab α) (k : Nat) (v : α) : tget d (tset d t k v) k = v := by
  unfold tset
  split
  · subst_vars
    exact tget_tdel_self _ _ _
  · exact tget_tins_self _ _ _ _

theorem tget_tset_ne [DecidableEq α] (d : α) (t : Tab α) {k i : Nat} (v : α) (h : i ≠ k) :
    tget d (tset d t k v) i = tget d t i := by
  unfold tset
  split
  · exact tget_tdel_ne _ _ h
  · exact tget_tins_ne _ _ _ h

theorem tget_tset [DecidableEq α] (d : α) (t : Tab α) (k i : Nat) (v : α) :
    tget d (tset d t k v) i = if i = k then v else tget d t i := by
  split
  · subst_vars
    exact tget_tset_self _ _ _ _
  · exact tget_tset_ne _ _ _ ‹_›

/-! The order of the keys. -/

theorem tsorted_cons (e : Nat × α) (r : Tab α) :
    tsorted (e :: r) = true ↔ (∀ x ∈ r, e.1 < x.1) ∧ tsorted r = true := by
  induction r generalizing e with
  | nil => simp [tsorted]
  | cons y r ih =>
    simp only [tsorted, Bool.and_eq_true, decide_eq_true_eq, List.mem_cons, forall_eq_or_imp]
    rw [ih y]
    constructor
    · rintro ⟨h1, h2, h3⟩
      exact ⟨⟨h1, fun x hx => Nat.lt_trans h1 (h2 x hx)⟩, h2, h3⟩
    · rintro ⟨⟨h1, _⟩, h2, h3⟩
      exact ⟨h1, h2, h3⟩

theorem tsorted_filter (p : Nat × α → Bool) (t : Tab α) (h : tsorted t = true) : tsorted (t.filter p) = true := by
  induction t with
  | nil => rfl
  | cons e r ih =>
    rw [tsorted_cons] at h
    rw [List.filter_cons]
    split
    · rw [tsorted_cons]
      exact ⟨fun x hx => h.1 x (List.mem_filter.mp hx).1, ih h.2⟩
    · exact ih h.2

theorem tdel_eq_filter (t : Tab α) (k : Nat) : tdel t k = t.filter fun e => e.1 != k := by
  induction t with
  | nil => rfl
  | cons e r ih =>
    obtain ⟨j, w⟩ := e
    unfold tdel
    split
    · simp [*]
    · simp [*]

theorem tsorted_tdel (t : Tab α) (k : Nat) (h : tsorted t = true) : tsorted (tdel t k) = true := by
  rw [tdel_eq_filter]
  exact tsorted_filter _ _ h

theorem mem_tins (t : Tab α) (k : Nat) (v : α) (x : Nat × α) (h : x ∈ tins t k v) : x = (k, v) ∨ x ∈ t := by
  induction t with
  | nil => simpa [tins] using h
  | cons e r ih =>
    obtain ⟨j, w⟩ := e
    unfold tins at h
    split at h
    · simpa using h
    · split at h
      · simp only [List.mem_cons] at h ⊢
        rcases h with h | h
        · exact .inl h
        · exact .inr (.inr h)
      · simp only [List.mem_cons] at h ⊢
        rcases h with h | h
        · exact .inr (.inl h)
        · rcases ih h with h | h
          · exact .inl h
          · exact .inr (.inr h)

theorem tsorted_tins (t : Tab α) (k : Nat) (v : α) (h : tsorted t = true) : tsorted (tins t k v) = true := by
  induction t with
  | nil => rfl
  | cons e r ih =>
    obtain ⟨j, w⟩ := e
    rw [tsorted_cons] at h
    unfold tins
    split
    · rename_i hk
      rw [tsorted_cons, tsorted_cons]
      refine ⟨fun x hx => ?_, h⟩
      rcases List.mem_cons.mp hx with rfl | hx
      · exact hk
      · exact Nat.lt_trans hk (h.1 x hx)
    · split
      · subst_vars
        rw [tsorted_cons]
        exact h
      · rw [tsorted_cons]
        refine ⟨fun x hx => ?_, ih h.2⟩
        rcases mem_tins r k v x hx with rfl | hx
        · show j < k
          omega
        · exact h.1 x hx

theorem tsorted_tset [DecidableEq α] (d : α) (t : Tab α) (k : Nat) (v : α) (h : tsorted t = true) :
    tsorted (tset d t k v) = true := by
  unfold tset
  split
  · exact tsorted_tdel _ _ h
  · exact tsorted_tins _ _ _ h

theorem tsorted_map (f : Nat × α → Nat × α) (hf : ∀ e, (f e).1 = e.1) (t : Tab α) (h : tsorted t = true) :
    tsorted (t.map f) = true := by
  induction t with
  | nil => rfl
  | cons e r ih =>
    rw [tsorted_cons] at h
    rw [List.map_cons, tsorted_cons]
    refine ⟨fun x hx => ?_, ih h.2⟩
    obtain ⟨y, hy, rfl⟩ := List.mem_map.mp hx
    rw [hf, hf]
    exact h.1 y hy

end Sys2Proof.Machine
end

