-- ==== Sys2Proof/Laws/State.lean ====
section
/-!
SUPPORT. What each update of one part of the state leaves of every part: one lemma for each field and update. And what a
register field reads after a field is written.
-/
namespace Sys2Proof.Machine

@[simp] theorem State.onErr_pending (s : State) (f : ErrLog → ErrLog) : (s.onErr f).pending = s.pending := rfl
@[simp] theorem State.onErr_regs (s : State) (f : ErrLog → ErrLog) : (s.onErr f).regs = s.regs := rfl
@[simp] theorem State.onErr_locks (s : State) (f : ErrLog → ErrLog) : (s.onErr f).locks = s.locks := rfl
@[simp] theorem State.onErr_aclk (s : State) (f : ErrLog → ErrLog) : (s.onErr f).aclk = s.aclk := rfl
@[simp] theorem State.onErr_drawn (s : State) (f : ErrLog → ErrLog) : (s.onErr f).drawn = s.drawn := rfl
@[simp] theorem State.onErr_resp (s : State) (f : ErrLog → ErrLog) : (s.onErr f).resp = s.resp := rfl
@[simp] theorem State.onErr_delivered (s : State) (f : ErrLog → ErrLog) : (s.onErr f).delivered = s.delivered := rfl
@[simp] theorem State.onErr_dram (s : State) (f : ErrLog → ErrLog) : (s.onErr f).dram = s.dram := rfl
@[simp] theorem State.onErr_err (s : State) (f : ErrLog → ErrLog) : (s.onErr f).err = f s.err := rfl
@[simp] theorem State.onErr_que (s : State) (f : ErrLog → ErrLog) : (s.onErr f).que = s.que := rfl
@[simp] theorem State.onErr_hdg (s : State) (f : ErrLog → ErrLog) : (s.onErr f).hdg = s.hdg := rfl
@[simp] theorem State.onErr_cop (s : State) (f : ErrLog → ErrLog) : (s.onErr f).cop = s.cop := rfl
@[simp] theorem State.onErr_map (s : State) (f : ErrLog → ErrLog) : (s.onErr f).map = s.map := rfl
@[simp] theorem State.onErr_top (s : State) (f : ErrLog → ErrLog) : (s.onErr f).top = s.top := rfl
@[simp] theorem State.onErr_mcs (s : State) (f : ErrLog → ErrLog) : (s.onErr f).mcs = s.mcs := rfl
@[simp] theorem State.onErr_chs (s : State) (f : ErrLog → ErrLog) : (s.onErr f).chs = s.chs := rfl
@[simp] theorem State.onErr_ecc (s : State) (f : ErrLog → ErrLog) : (s.onErr f).ecc = s.ecc := rfl
@[simp] theorem State.onErr_jnp (s : State) (f : ErrLog → ErrLog) : (s.onErr f).jnp = s.jnp := rfl
@[simp] theorem State.onErr_dma (s : State) (f : ErrLog → ErrLog) : (s.onErr f).dma = s.dma := rfl
@[simp] theorem State.onErr_box (s : State) (f : ErrLog → ErrLog) : (s.onErr f).box = s.box := rfl
@[simp] theorem State.onErr_yew (s : State) (f : ErrLog → ErrLog) : (s.onErr f).yew = s.yew := rfl
@[simp] theorem State.onErr_hly (s : State) (f : ErrLog → ErrLog) : (s.onErr f).hly = s.hly := rfl
@[simp] theorem State.onErr_pwr (s : State) (f : ErrLog → ErrLog) : (s.onErr f).pwr = s.pwr := rfl
@[simp] theorem State.onErr_sys (s : State) (f : ErrLog → ErrLog) : (s.onErr f).sys = s.sys := rfl
@[simp] theorem State.onErr_rd (s : State) (f : ErrLog → ErrLog) (F : Fld) : (s.onErr f).rd F = s.rd F := rfl
@[simp] theorem State.onErr_is (s : State) (f : ErrLog → ErrLog) (F : Fld) : (s.onErr f).is F = s.is F := rfl
@[simp] theorem State.onQue_pending (s : State) (f : Que → Que) : (s.onQue f).pending = s.pending := rfl
@[simp] theorem State.onQue_regs (s : State) (f : Que → Que) : (s.onQue f).regs = s.regs := rfl
@[simp] theorem State.onQue_locks (s : State) (f : Que → Que) : (s.onQue f).locks = s.locks := rfl
@[simp] theorem State.onQue_aclk (s : State) (f : Que → Que) : (s.onQue f).aclk = s.aclk := rfl
@[simp] theorem State.onQue_drawn (s : State) (f : Que → Que) : (s.onQue f).drawn = s.drawn := rfl
@[simp] theorem State.onQue_resp (s : State) (f : Que → Que) : (s.onQue f).resp = s.resp := rfl
@[simp] theorem State.onQue_delivered (s : State) (f : Que → Que) : (s.onQue f).delivered = s.delivered := rfl
@[simp] theorem State.onQue_dram (s : State) (f : Que → Que) : (s.onQue f).dram = s.dram := rfl
@[simp] theorem State.onQue_err (s : State) (f : Que → Que) : (s.onQue f).err = s.err := rfl
@[simp] theorem State.onQue_que (s : State) (f : Que → Que) : (s.onQue f).que = f s.que := rfl
@[simp] theorem State.onQue_hdg (s : State) (f : Que → Que) : (s.onQue f).hdg = s.hdg := rfl
@[simp] theorem State.onQue_cop (s : State) (f : Que → Que) : (s.onQue f).cop = s.cop := rfl
@[simp] theorem State.onQue_map (s : State) (f : Que → Que) : (s.onQue f).map = s.map := rfl
@[simp] theorem State.onQue_top (s : State) (f : Que → Que) : (s.onQue f).top = s.top := rfl
@[simp] theorem State.onQue_mcs (s : State) (f : Que → Que) : (s.onQue f).mcs = s.mcs := rfl
@[simp] theorem State.onQue_chs (s : State) (f : Que → Que) : (s.onQue f).chs = s.chs := rfl
@[simp] theorem State.onQue_ecc (s : State) (f : Que → Que) : (s.onQue f).ecc = s.ecc := rfl
@[simp] theorem State.onQue_jnp (s : State) (f : Que → Que) : (s.onQue f).jnp = s.jnp := rfl
@[simp] theorem State.onQue_dma (s : State) (f : Que → Que) : (s.onQue f).dma = s.dma := rfl
@[simp] theorem State.onQue_box (s : State) (f : Que → Que) : (s.onQue f).box = s.box := rfl
@[simp] theorem State.onQue_yew (s : State) (f : Que → Que) : (s.onQue f).yew = s.yew := rfl
@[simp] theorem State.onQue_hly (s : State) (f : Que → Que) : (s.onQue f).hly = s.hly := rfl
@[simp] theorem State.onQue_pwr (s : State) (f : Que → Que) : (s.onQue f).pwr = s.pwr := rfl
@[simp] theorem State.onQue_sys (s : State) (f : Que → Que) : (s.onQue f).sys = s.sys := rfl
@[simp] theorem State.onQue_rd (s : State) (f : Que → Que) (F : Fld) : (s.onQue f).rd F = s.rd F := rfl
@[simp] theorem State.onQue_is (s : State) (f : Que → Que) (F : Fld) : (s.onQue f).is F = s.is F := rfl
@[simp] theorem State.onHdg_pending (s : State) (f : Hdg → Hdg) : (s.onHdg f).pending = s.pending := rfl
@[simp] theorem State.onHdg_regs (s : State) (f : Hdg → Hdg) : (s.onHdg f).regs = s.regs := rfl
@[simp] theorem State.onHdg_locks (s : State) (f : Hdg → Hdg) : (s.onHdg f).locks = s.locks := rfl
@[simp] theorem State.onHdg_aclk (s : State) (f : Hdg → Hdg) : (s.onHdg f).aclk = s.aclk := rfl
@[simp] theorem State.onHdg_drawn (s : State) (f : Hdg → Hdg) : (s.onHdg f).drawn = s.drawn := rfl
@[simp] theorem State.onHdg_resp (s : State) (f : Hdg → Hdg) : (s.onHdg f).resp = s.resp := rfl
@[simp] theorem State.onHdg_delivered (s : State) (f : Hdg → Hdg) : (s.onHdg f).delivered = s.delivered := rfl
@[simp] theorem State.onHdg_dram (s : State) (f : Hdg → Hdg) : (s.onHdg f).dram = s.dram := rfl
@[simp] theorem State.onHdg_err (s : State) (f : Hdg → Hdg) : (s.onHdg f).err = s.err := rfl
@[simp] theorem State.onHdg_que (s : State) (f : Hdg → Hdg) : (s.onHdg f).que = s.que := rfl
@[simp] theorem State.onHdg_hdg (s : State) (f : Hdg → Hdg) : (s.onHdg f).hdg = f s.hdg := rfl
@[simp] theorem State.onHdg_cop (s : State) (f : Hdg → Hdg) : (s.onHdg f).cop = s.cop := rfl
@[simp] theorem State.onHdg_map (s : State) (f : Hdg → Hdg) : (s.onHdg f).map = s.map := rfl
@[simp] theorem State.onHdg_top (s : State) (f : Hdg → Hdg) : (s.onHdg f).top = s.top := rfl
@[simp] theorem State.onHdg_mcs (s : State) (f : Hdg → Hdg) : (s.onHdg f).mcs = s.mcs := rfl
@[simp] theorem State.onHdg_chs (s : State) (f : Hdg → Hdg) : (s.onHdg f).chs = s.chs := rfl
@[simp] theorem State.onHdg_ecc (s : State) (f : Hdg → Hdg) : (s.onHdg f).ecc = s.ecc := rfl
@[simp] theorem State.onHdg_jnp (s : State) (f : Hdg → Hdg) : (s.onHdg f).jnp = s.jnp := rfl
@[simp] theorem State.onHdg_dma (s : State) (f : Hdg → Hdg) : (s.onHdg f).dma = s.dma := rfl
@[simp] theorem State.onHdg_box (s : State) (f : Hdg → Hdg) : (s.onHdg f).box = s.box := rfl
@[simp] theorem State.onHdg_yew (s : State) (f : Hdg → Hdg) : (s.onHdg f).yew = s.yew := rfl
@[simp] theorem State.onHdg_hly (s : State) (f : Hdg → Hdg) : (s.onHdg f).hly = s.hly := rfl
@[simp] theorem State.onHdg_pwr (s : State) (f : Hdg → Hdg) : (s.onHdg f).pwr = s.pwr := rfl
@[simp] theorem State.onHdg_sys (s : State) (f : Hdg → Hdg) : (s.onHdg f).sys = s.sys := rfl
@[simp] theorem State.onHdg_rd (s : State) (f : Hdg → Hdg) (F : Fld) : (s.onHdg f).rd F = s.rd F := rfl
@[simp] theorem State.onHdg_is (s : State) (f : Hdg → Hdg) (F : Fld) : (s.onHdg f).is F = s.is F := rfl
@[simp] theorem State.onCop_pending (s : State) (f : Cop → Cop) : (s.onCop f).pending = s.pending := rfl
@[simp] theorem State.onCop_regs (s : State) (f : Cop → Cop) : (s.onCop f).regs = s.regs := rfl
@[simp] theorem State.onCop_locks (s : State) (f : Cop → Cop) : (s.onCop f).locks = s.locks := rfl
@[simp] theorem State.onCop_aclk (s : State) (f : Cop → Cop) : (s.onCop f).aclk = s.aclk := rfl
@[simp] theorem State.onCop_drawn (s : State) (f : Cop → Cop) : (s.onCop f).drawn = s.drawn := rfl
@[simp] theorem State.onCop_resp (s : State) (f : Cop → Cop) : (s.onCop f).resp = s.resp := rfl
@[simp] theorem State.onCop_delivered (s : State) (f : Cop → Cop) : (s.onCop f).delivered = s.delivered := rfl
@[simp] theorem State.onCop_dram (s : State) (f : Cop → Cop) : (s.onCop f).dram = s.dram := rfl
@[simp] theorem State.onCop_err (s : State) (f : Cop → Cop) : (s.onCop f).err = s.err := rfl
@[simp] theorem State.onCop_que (s : State) (f : Cop → Cop) : (s.onCop f).que = s.que := rfl
@[simp] theorem State.onCop_hdg (s : State) (f : Cop → Cop) : (s.onCop f).hdg = s.hdg := rfl
@[simp] theorem State.onCop_cop (s : State) (f : Cop → Cop) : (s.onCop f).cop = f s.cop := rfl
@[simp] theorem State.onCop_map (s : State) (f : Cop → Cop) : (s.onCop f).map = s.map := rfl
@[simp] theorem State.onCop_top (s : State) (f : Cop → Cop) : (s.onCop f).top = s.top := rfl
@[simp] theorem State.onCop_mcs (s : State) (f : Cop → Cop) : (s.onCop f).mcs = s.mcs := rfl
@[simp] theorem State.onCop_chs (s : State) (f : Cop → Cop) : (s.onCop f).chs = s.chs := rfl
@[simp] theorem State.onCop_ecc (s : State) (f : Cop → Cop) : (s.onCop f).ecc = s.ecc := rfl
@[simp] theorem State.onCop_jnp (s : State) (f : Cop → Cop) : (s.onCop f).jnp = s.jnp := rfl
@[simp] theorem State.onCop_dma (s : State) (f : Cop → Cop) : (s.onCop f).dma = s.dma := rfl
@[simp] theorem State.onCop_box (s : State) (f : Cop → Cop) : (s.onCop f).box = s.box := rfl
@[simp] theorem State.onCop_yew (s : State) (f : Cop → Cop) : (s.onCop f).yew = s.yew := rfl
@[simp] theorem State.onCop_hly (s : State) (f : Cop → Cop) : (s.onCop f).hly = s.hly := rfl
@[simp] theorem State.onCop_pwr (s : State) (f : Cop → Cop) : (s.onCop f).pwr = s.pwr := rfl
@[simp] theorem State.onCop_sys (s : State) (f : Cop → Cop) : (s.onCop f).sys = s.sys := rfl
@[simp] theorem State.onCop_rd (s : State) (f : Cop → Cop) (F : Fld) : (s.onCop f).rd F = s.rd F := rfl
@[simp] theorem State.onCop_is (s : State) (f : Cop → Cop) (F : Fld) : (s.onCop f).is F = s.is F := rfl
@[simp] theorem State.onMap_pending (s : State) (f : Map → Map) : (s.onMap f).pending = s.pending := rfl
@[simp] theorem State.onMap_regs (s : State) (f : Map → Map) : (s.onMap f).regs = s.regs := rfl
@[simp] theorem State.onMap_locks (s : State) (f : Map → Map) : (s.onMap f).locks = s.locks := rfl
@[simp] theorem State.onMap_aclk (s : State) (f : Map → Map) : (s.onMap f).aclk = s.aclk := rfl
@[simp] theorem State.onMap_drawn (s : State) (f : Map → Map) : (s.onMap f).drawn = s.drawn := rfl
@[simp] theorem State.onMap_resp (s : State) (f : Map → Map) : (s.onMap f).resp = s.resp := rfl
@[simp] theorem State.onMap_delivered (s : State) (f : Map → Map) : (s.onMap f).delivered = s.delivered := rfl
@[simp] theorem State.onMap_dram (s : State) (f : Map → Map) : (s.onMap f).dram = s.dram := rfl
@[simp] theorem State.onMap_err (s : State) (f : Map → Map) : (s.onMap f).err = s.err := rfl
@[simp] theorem State.onMap_que (s : State) (f : Map → Map) : (s.onMap f).que = s.que := rfl
@[simp] theorem State.onMap_hdg (s : State) (f : Map → Map) : (s.onMap f).hdg = s.hdg := rfl
@[simp] theorem State.onMap_cop (s : State) (f : Map → Map) : (s.onMap f).cop = s.cop := rfl
@[simp] theorem State.onMap_map (s : State) (f : Map → Map) : (s.onMap f).map = f s.map := rfl
@[simp] theorem State.onMap_top (s : State) (f : Map → Map) : (s.onMap f).top = s.top := rfl
@[simp] theorem State.onMap_mcs (s : State) (f : Map → Map) : (s.onMap f).mcs = s.mcs := rfl
@[simp] theorem State.onMap_chs (s : State) (f : Map → Map) : (s.onMap f).chs = s.chs := rfl
@[simp] theorem State.onMap_ecc (s : State) (f : Map → Map) : (s.onMap f).ecc = s.ecc := rfl
@[simp] theorem State.onMap_jnp (s : State) (f : Map → Map) : (s.onMap f).jnp = s.jnp := rfl
@[simp] theorem State.onMap_dma (s : State) (f : Map → Map) : (s.onMap f).dma = s.dma := rfl
@[simp] theorem State.onMap_box (s : State) (f : Map → Map) : (s.onMap f).box = s.box := rfl
@[simp] theorem State.onMap_yew (s : State) (f : Map → Map) : (s.onMap f).yew = s.yew := rfl
@[simp] theorem State.onMap_hly (s : State) (f : Map → Map) : (s.onMap f).hly = s.hly := rfl
@[simp] theorem State.onMap_pwr (s : State) (f : Map → Map) : (s.onMap f).pwr = s.pwr := rfl
@[simp] theorem State.onMap_sys (s : State) (f : Map → Map) : (s.onMap f).sys = s.sys := rfl
@[simp] theorem State.onMap_rd (s : State) (f : Map → Map) (F : Fld) : (s.onMap f).rd F = s.rd F := rfl
@[simp] theorem State.onMap_is (s : State) (f : Map → Map) (F : Fld) : (s.onMap f).is F = s.is F := rfl
@[simp] theorem State.onTop_pending (s : State) (f : Top → Top) : (s.onTop f).pending = s.pending := rfl
@[simp] theorem State.onTop_regs (s : State) (f : Top → Top) : (s.onTop f).regs = s.regs := rfl
@[simp] theorem State.onTop_locks (s : State) (f : Top → Top) : (s.onTop f).locks = s.locks := rfl
@[simp] theorem State.onTop_aclk (s : State) (f : Top → Top) : (s.onTop f).aclk = s.aclk := rfl
@[simp] theorem State.onTop_drawn (s : State) (f : Top → Top) : (s.onTop f).drawn = s.drawn := rfl
@[simp] theorem State.onTop_resp (s : State) (f : Top → Top) : (s.onTop f).resp = s.resp := rfl
@[simp] theorem State.onTop_delivered (s : State) (f : Top → Top) : (s.onTop f).delivered = s.delivered := rfl
@[simp] theorem State.onTop_dram (s : State) (f : Top → Top) : (s.onTop f).dram = s.dram := rfl
@[simp] theorem State.onTop_err (s : State) (f : Top → Top) : (s.onTop f).err = s.err := rfl
@[simp] theorem State.onTop_que (s : State) (f : Top → Top) : (s.onTop f).que = s.que := rfl
@[simp] theorem State.onTop_hdg (s : State) (f : Top → Top) : (s.onTop f).hdg = s.hdg := rfl
@[simp] theorem State.onTop_cop (s : State) (f : Top → Top) : (s.onTop f).cop = s.cop := rfl
@[simp] theorem State.onTop_map (s : State) (f : Top → Top) : (s.onTop f).map = s.map := rfl
@[simp] theorem State.onTop_top (s : State) (f : Top → Top) : (s.onTop f).top = f s.top := rfl
@[simp] theorem State.onTop_mcs (s : State) (f : Top → Top) : (s.onTop f).mcs = s.mcs := rfl
@[simp] theorem State.onTop_chs (s : State) (f : Top → Top) : (s.onTop f).chs = s.chs := rfl
@[simp] theorem State.onTop_ecc (s : State) (f : Top → Top) : (s.onTop f).ecc = s.ecc := rfl
@[simp] theorem State.onTop_jnp (s : State) (f : Top → Top) : (s.onTop f).jnp = s.jnp := rfl
@[simp] theorem State.onTop_dma (s : State) (f : Top → Top) : (s.onTop f).dma = s.dma := rfl
@[simp] theorem State.onTop_box (s : State) (f : Top → Top) : (s.onTop f).box = s.box := rfl
@[simp] theorem State.onTop_yew (s : State) (f : Top → Top) : (s.onTop f).yew = s.yew := rfl
@[simp] theorem State.onTop_hly (s : State) (f : Top → Top) : (s.onTop f).hly = s.hly := rfl
@[simp] theorem State.onTop_pwr (s : State) (f : Top → Top) : (s.onTop f).pwr = s.pwr := rfl
@[simp] theorem State.onTop_sys (s : State) (f : Top → Top) : (s.onTop f).sys = s.sys := rfl
@[simp] theorem State.onTop_rd (s : State) (f : Top → Top) (F : Fld) : (s.onTop f).rd F = s.rd F := rfl
@[simp] theorem State.onTop_is (s : State) (f : Top → Top) (F : Fld) : (s.onTop f).is F = s.is F := rfl
@[simp] theorem State.onMcs_pending (s : State) (f : Mcs → Mcs) : (s.onMcs f).pending = s.pending := rfl
@[simp] theorem State.onMcs_regs (s : State) (f : Mcs → Mcs) : (s.onMcs f).regs = s.regs := rfl
@[simp] theorem State.onMcs_locks (s : State) (f : Mcs → Mcs) : (s.onMcs f).locks = s.locks := rfl
@[simp] theorem State.onMcs_aclk (s : State) (f : Mcs → Mcs) : (s.onMcs f).aclk = s.aclk := rfl
@[simp] theorem State.onMcs_drawn (s : State) (f : Mcs → Mcs) : (s.onMcs f).drawn = s.drawn := rfl
@[simp] theorem State.onMcs_resp (s : State) (f : Mcs → Mcs) : (s.onMcs f).resp = s.resp := rfl
@[simp] theorem State.onMcs_delivered (s : State) (f : Mcs → Mcs) : (s.onMcs f).delivered = s.delivered := rfl
@[simp] theorem State.onMcs_dram (s : State) (f : Mcs → Mcs) : (s.onMcs f).dram = s.dram := rfl
@[simp] theorem State.onMcs_err (s : State) (f : Mcs → Mcs) : (s.onMcs f).err = s.err := rfl
@[simp] theorem State.onMcs_que (s : State) (f : Mcs → Mcs) : (s.onMcs f).que = s.que := rfl
@[simp] theorem State.onMcs_hdg (s : State) (f : Mcs → Mcs) : (s.onMcs f).hdg = s.hdg := rfl
@[simp] theorem State.onMcs_cop (s : State) (f : Mcs → Mcs) : (s.onMcs f).cop = s.cop := rfl
@[simp] theorem State.onMcs_map (s : State) (f : Mcs → Mcs) : (s.onMcs f).map = s.map := rfl
@[simp] theorem State.onMcs_top (s : State) (f : Mcs → Mcs) : (s.onMcs f).top = s.top := rfl
@[simp] theorem State.onMcs_mcs (s : State) (f : Mcs → Mcs) : (s.onMcs f).mcs = f s.mcs := rfl
@[simp] theorem State.onMcs_chs (s : State) (f : Mcs → Mcs) : (s.onMcs f).chs = s.chs := rfl
@[simp] theorem State.onMcs_ecc (s : State) (f : Mcs → Mcs) : (s.onMcs f).ecc = s.ecc := rfl
@[simp] theorem State.onMcs_jnp (s : State) (f : Mcs → Mcs) : (s.onMcs f).jnp = s.jnp := rfl
@[simp] theorem State.onMcs_dma (s : State) (f : Mcs → Mcs) : (s.onMcs f).dma = s.dma := rfl
@[simp] theorem State.onMcs_box (s : State) (f : Mcs → Mcs) : (s.onMcs f).box = s.box := rfl
@[simp] theorem State.onMcs_yew (s : State) (f : Mcs → Mcs) : (s.onMcs f).yew = s.yew := rfl
@[simp] theorem State.onMcs_hly (s : State) (f : Mcs → Mcs) : (s.onMcs f).hly = s.hly := rfl
@[simp] theorem State.onMcs_pwr (s : State) (f : Mcs → Mcs) : (s.onMcs f).pwr = s.pwr := rfl
@[simp] theorem State.onMcs_sys (s : State) (f : Mcs → Mcs) : (s.onMcs f).sys = s.sys := rfl
@[simp] theorem State.onMcs_rd (s : State) (f : Mcs → Mcs) (F : Fld) : (s.onMcs f).rd F = s.rd F := rfl
@[simp] theorem State.onMcs_is (s : State) (f : Mcs → Mcs) (F : Fld) : (s.onMcs f).is F = s.is F := rfl
@[simp] theorem State.onEcc_pending (s : State) (f : Ecc → Ecc) : (s.onEcc f).pending = s.pending := rfl
@[simp] theorem State.onEcc_regs (s : State) (f : Ecc → Ecc) : (s.onEcc f).regs = s.regs := rfl
@[simp] theorem State.onEcc_locks (s : State) (f : Ecc → Ecc) : (s.onEcc f).locks = s.locks := rfl
@[simp] theorem State.onEcc_aclk (s : State) (f : Ecc → Ecc) : (s.onEcc f).aclk = s.aclk := rfl
@[simp] theorem State.onEcc_drawn (s : State) (f : Ecc → Ecc) : (s.onEcc f).drawn = s.drawn := rfl
@[simp] theorem State.onEcc_resp (s : State) (f : Ecc → Ecc) : (s.onEcc f).resp = s.resp := rfl
@[simp] theorem State.onEcc_delivered (s : State) (f : Ecc → Ecc) : (s.onEcc f).delivered = s.delivered := rfl
@[simp] theorem State.onEcc_dram (s : State) (f : Ecc → Ecc) : (s.onEcc f).dram = s.dram := rfl
@[simp] theorem State.onEcc_err (s : State) (f : Ecc → Ecc) : (s.onEcc f).err = s.err := rfl
@[simp] theorem State.onEcc_que (s : State) (f : Ecc → Ecc) : (s.onEcc f).que = s.que := rfl
@[simp] theorem State.onEcc_hdg (s : State) (f : Ecc → Ecc) : (s.onEcc f).hdg = s.hdg := rfl
@[simp] theorem State.onEcc_cop (s : State) (f : Ecc → Ecc) : (s.onEcc f).cop = s.cop := rfl
@[simp] theorem State.onEcc_map (s : State) (f : Ecc → Ecc) : (s.onEcc f).map = s.map := rfl
@[simp] theorem State.onEcc_top (s : State) (f : Ecc → Ecc) : (s.onEcc f).top = s.top := rfl
@[simp] theorem State.onEcc_mcs (s : State) (f : Ecc → Ecc) : (s.onEcc f).mcs = s.mcs := rfl
@[simp] theorem State.onEcc_chs (s : State) (f : Ecc → Ecc) : (s.onEcc f).chs = s.chs := rfl
@[simp] theorem State.onEcc_ecc (s : State) (f : Ecc → Ecc) : (s.onEcc f).ecc = f s.ecc := rfl
@[simp] theorem State.onEcc_jnp (s : State) (f : Ecc → Ecc) : (s.onEcc f).jnp = s.jnp := rfl
@[simp] theorem State.onEcc_dma (s : State) (f : Ecc → Ecc) : (s.onEcc f).dma = s.dma := rfl
@[simp] theorem State.onEcc_box (s : State) (f : Ecc → Ecc) : (s.onEcc f).box = s.box := rfl
@[simp] theorem State.onEcc_yew (s : State) (f : Ecc → Ecc) : (s.onEcc f).yew = s.yew := rfl
@[simp] theorem State.onEcc_hly (s : State) (f : Ecc → Ecc) : (s.onEcc f).hly = s.hly := rfl
@[simp] theorem State.onEcc_pwr (s : State) (f : Ecc → Ecc) : (s.onEcc f).pwr = s.pwr := rfl
@[simp] theorem State.onEcc_sys (s : State) (f : Ecc → Ecc) : (s.onEcc f).sys = s.sys := rfl
@[simp] theorem State.onEcc_rd (s : State) (f : Ecc → Ecc) (F : Fld) : (s.onEcc f).rd F = s.rd F := rfl
@[simp] theorem State.onEcc_is (s : State) (f : Ecc → Ecc) (F : Fld) : (s.onEcc f).is F = s.is F := rfl
@[simp] theorem State.onJnp_pending (s : State) (f : Jnp → Jnp) : (s.onJnp f).pending = s.pending := rfl
@[simp] theorem State.onJnp_regs (s : State) (f : Jnp → Jnp) : (s.onJnp f).regs = s.regs := rfl
@[simp] theorem State.onJnp_locks (s : State) (f : Jnp → Jnp) : (s.onJnp f).locks = s.locks := rfl
@[simp] theorem State.onJnp_aclk (s : State) (f : Jnp → Jnp) : (s.onJnp f).aclk = s.aclk := rfl
@[simp] theorem State.onJnp_drawn (s : State) (f : Jnp → Jnp) : (s.onJnp f).drawn = s.drawn := rfl
@[simp] theorem State.onJnp_resp (s : State) (f : Jnp → Jnp) : (s.onJnp f).resp = s.resp := rfl
@[simp] theorem State.onJnp_delivered (s : State) (f : Jnp → Jnp) : (s.onJnp f).delivered = s.delivered := rfl
@[simp] theorem State.onJnp_dram (s : State) (f : Jnp → Jnp) : (s.onJnp f).dram = s.dram := rfl
@[simp] theorem State.onJnp_err (s : State) (f : Jnp → Jnp) : (s.onJnp f).err = s.err := rfl
@[simp] theorem State.onJnp_que (s : State) (f : Jnp → Jnp) : (s.onJnp f).que = s.que := rfl
@[simp] theorem State.onJnp_hdg (s : State) (f : Jnp → Jnp) : (s.onJnp f).hdg = s.hdg := rfl
@[simp] theorem State.onJnp_cop (s : State) (f : Jnp → Jnp) : (s.onJnp f).cop = s.cop := rfl
@[simp] theorem State.onJnp_map (s : State) (f : Jnp → Jnp) : (s.onJnp f).map = s.map := rfl
@[simp] theorem State.onJnp_top (s : State) (f : Jnp → Jnp) : (s.onJnp f).top = s.top := rfl
@[simp] theorem State.onJnp_mcs (s : State) (f : Jnp → Jnp) : (s.onJnp f).mcs = s.mcs := rfl
@[simp] theorem State.onJnp_chs (s : State) (f : Jnp → Jnp) : (s.onJnp f).chs = s.chs := rfl
@[simp] theorem State.onJnp_ecc (s : State) (f : Jnp → Jnp) : (s.onJnp f).ecc = s.ecc := rfl
@[simp] theorem State.onJnp_jnp (s : State) (f : Jnp → Jnp) : (s.onJnp f).jnp = f s.jnp := rfl
@[simp] theorem State.onJnp_dma (s : State) (f : Jnp → Jnp) : (s.onJnp f).dma = s.dma := rfl
@[simp] theorem State.onJnp_box (s : State) (f : Jnp → Jnp) : (s.onJnp f).box = s.box := rfl
@[simp] theorem State.onJnp_yew (s : State) (f : Jnp → Jnp) : (s.onJnp f).yew = s.yew := rfl
@[simp] theorem State.onJnp_hly (s : State) (f : Jnp → Jnp) : (s.onJnp f).hly = s.hly := rfl
@[simp] theorem State.onJnp_pwr (s : State) (f : Jnp → Jnp) : (s.onJnp f).pwr = s.pwr := rfl
@[simp] theorem State.onJnp_sys (s : State) (f : Jnp → Jnp) : (s.onJnp f).sys = s.sys := rfl
@[simp] theorem State.onJnp_rd (s : State) (f : Jnp → Jnp) (F : Fld) : (s.onJnp f).rd F = s.rd F := rfl
@[simp] theorem State.onJnp_is (s : State) (f : Jnp → Jnp) (F : Fld) : (s.onJnp f).is F = s.is F := rfl
@[simp] theorem State.onDma_pending (s : State) (f : Dma → Dma) : (s.onDma f).pending = s.pending := rfl
@[simp] theorem State.onDma_regs (s : State) (f : Dma → Dma) : (s.onDma f).regs = s.regs := rfl
@[simp] theorem State.onDma_locks (s : State) (f : Dma → Dma) : (s.onDma f).locks = s.locks := rfl
@[simp] theorem State.onDma_aclk (s : State) (f : Dma → Dma) : (s.onDma f).aclk = s.aclk := rfl
@[simp] theorem State.onDma_drawn (s : State) (f : Dma → Dma) : (s.onDma f).drawn = s.drawn := rfl
@[simp] theorem State.onDma_resp (s : State) (f : Dma → Dma) : (s.onDma f).resp = s.resp := rfl
@[simp] theorem State.onDma_delivered (s : State) (f : Dma → Dma) : (s.onDma f).delivered = s.delivered := rfl
@[simp] theorem State.onDma_dram (s : State) (f : Dma → Dma) : (s.onDma f).dram = s.dram := rfl
@[simp] theorem State.onDma_err (s : State) (f : Dma → Dma) : (s.onDma f).err = s.err := rfl
@[simp] theorem State.onDma_que (s : State) (f : Dma → Dma) : (s.onDma f).que = s.que := rfl
@[simp] theorem State.onDma_hdg (s : State) (f : Dma → Dma) : (s.onDma f).hdg = s.hdg := rfl
@[simp] theorem State.onDma_cop (s : State) (f : Dma → Dma) : (s.onDma f).cop = s.cop := rfl
@[simp] theorem State.onDma_map (s : State) (f : Dma → Dma) : (s.onDma f).map = s.map := rfl
@[simp] theorem State.onDma_top (s : State) (f : Dma → Dma) : (s.onDma f).top = s.top := rfl
@[simp] theorem State.onDma_mcs (s : State) (f : Dma → Dma) : (s.onDma f).mcs = s.mcs := rfl
@[simp] theorem State.onDma_chs (s : State) (f : Dma → Dma) : (s.onDma f).chs = s.chs := rfl
@[simp] theorem State.onDma_ecc (s : State) (f : Dma → Dma) : (s.onDma f).ecc = s.ecc := rfl
@[simp] theorem State.onDma_jnp (s : State) (f : Dma → Dma) : (s.onDma f).jnp = s.jnp := rfl
@[simp] theorem State.onDma_dma (s : State) (f : Dma → Dma) : (s.onDma f).dma = f s.dma := rfl
@[simp] theorem State.onDma_box (s : State) (f : Dma → Dma) : (s.onDma f).box = s.box := rfl
@[simp] theorem State.onDma_yew (s : State) (f : Dma → Dma) : (s.onDma f).yew = s.yew := rfl
@[simp] theorem State.onDma_hly (s : State) (f : Dma → Dma) : (s.onDma f).hly = s.hly := rfl
@[simp] theorem State.onDma_pwr (s : State) (f : Dma → Dma) : (s.onDma f).pwr = s.pwr := rfl
@[simp] theorem State.onDma_sys (s : State) (f : Dma → Dma) : (s.onDma f).sys = s.sys := rfl
@[simp] theorem State.onDma_rd (s : State) (f : Dma → Dma) (F : Fld) : (s.onDma f).rd F = s.rd F := rfl
@[simp] theorem State.onDma_is (s : State) (f : Dma → Dma) (F : Fld) : (s.onDma f).is F = s.is F := rfl
@[simp] theorem State.onBox_pending (s : State) (f : Box → Box) : (s.onBox f).pending = s.pending := rfl
@[simp] theorem State.onBox_regs (s : State) (f : Box → Box) : (s.onBox f).regs = s.regs := rfl
@[simp] theorem State.onBox_locks (s : State) (f : Box → Box) : (s.onBox f).locks = s.locks := rfl
@[simp] theorem State.onBox_aclk (s : State) (f : Box → Box) : (s.onBox f).aclk = s.aclk := rfl
@[simp] theorem State.onBox_drawn (s : State) (f : Box → Box) : (s.onBox f).drawn = s.drawn := rfl
@[simp] theorem State.onBox_resp (s : State) (f : Box → Box) : (s.onBox f).resp = s.resp := rfl
@[simp] theorem State.onBox_delivered (s : State) (f : Box → Box) : (s.onBox f).delivered = s.delivered := rfl
@[simp] theorem State.onBox_dram (s : State) (f : Box → Box) : (s.onBox f).dram = s.dram := rfl
@[simp] theorem State.onBox_err (s : State) (f : Box → Box) : (s.onBox f).err = s.err := rfl
@[simp] theorem State.onBox_que (s : State) (f : Box → Box) : (s.onBox f).que = s.que := rfl
@[simp] theorem State.onBox_hdg (s : State) (f : Box → Box) : (s.onBox f).hdg = s.hdg := rfl
@[simp] theorem State.onBox_cop (s : State) (f : Box → Box) : (s.onBox f).cop = s.cop := rfl
@[simp] theorem State.onBox_map (s : State) (f : Box → Box) : (s.onBox f).map = s.map := rfl
@[simp] theorem State.onBox_top (s : State) (f : Box → Box) : (s.onBox f).top = s.top := rfl
@[simp] theorem State.onBox_mcs (s : State) (f : Box → Box) : (s.onBox f).mcs = s.mcs := rfl
@[simp] theorem State.onBox_chs (s : State) (f : Box → Box) : (s.onBox f).chs = s.chs := rfl
@[simp] theorem State.onBox_ecc (s : State) (f : Box → Box) : (s.onBox f).ecc = s.ecc := rfl
@[simp] theorem State.onBox_jnp (s : State) (f : Box → Box) : (s.onBox f).jnp = s.jnp := rfl
@[simp] theorem State.onBox_dma (s : State) (f : Box → Box) : (s.onBox f).dma = s.dma := rfl
@[simp] theorem State.onBox_box (s : State) (f : Box → Box) : (s.onBox f).box = f s.box := rfl
@[simp] theorem State.onBox_yew (s : State) (f : Box → Box) : (s.onBox f).yew = s.yew := rfl
@[simp] theorem State.onBox_hly (s : State) (f : Box → Box) : (s.onBox f).hly = s.hly := rfl
@[simp] theorem State.onBox_pwr (s : State) (f : Box → Box) : (s.onBox f).pwr = s.pwr := rfl
@[simp] theorem State.onBox_sys (s : State) (f : Box → Box) : (s.onBox f).sys = s.sys := rfl
@[simp] theorem State.onBox_rd (s : State) (f : Box → Box) (F : Fld) : (s.onBox f).rd F = s.rd F := rfl
@[simp] theorem State.onBox_is (s : State) (f : Box → Box) (F : Fld) : (s.onBox f).is F = s.is F := rfl
@[simp] theorem State.onYew_pending (s : State) (f : Yew → Yew) : (s.onYew f).pending = s.pending := rfl
@[simp] theorem State.onYew_regs (s : State) (f : Yew → Yew) : (s.onYew f).regs = s.regs := rfl
@[simp] theorem State.onYew_locks (s : State) (f : Yew → Yew) : (s.onYew f).locks = s.locks := rfl
@[simp] theorem State.onYew_aclk (s : State) (f : Yew → Yew) : (s.onYew f).aclk = s.aclk := rfl
@[simp] theorem State.onYew_drawn (s : State) (f : Yew → Yew) : (s.onYew f).drawn = s.drawn := rfl
@[simp] theorem State.onYew_resp (s : State) (f : Yew → Yew) : (s.onYew f).resp = s.resp := rfl
@[simp] theorem State.onYew_delivered (s : State) (f : Yew → Yew) : (s.onYew f).delivered = s.delivered := rfl
@[simp] theorem State.onYew_dram (s : State) (f : Yew → Yew) : (s.onYew f).dram = s.dram := rfl
@[simp] theorem State.onYew_err (s : State) (f : Yew → Yew) : (s.onYew f).err = s.err := rfl
@[simp] theorem State.onYew_que (s : State) (f : Yew → Yew) : (s.onYew f).que = s.que := rfl
@[simp] theorem State.onYew_hdg (s : State) (f : Yew → Yew) : (s.onYew f).hdg = s.hdg := rfl
@[simp] theorem State.onYew_cop (s : State) (f : Yew → Yew) : (s.onYew f).cop = s.cop := rfl
@[simp] theorem State.onYew_map (s : State) (f : Yew → Yew) : (s.onYew f).map = s.map := rfl
@[simp] theorem State.onYew_top (s : State) (f : Yew → Yew) : (s.onYew f).top = s.top := rfl
@[simp] theorem State.onYew_mcs (s : State) (f : Yew → Yew) : (s.onYew f).mcs = s.mcs := rfl
@[simp] theorem State.onYew_chs (s : State) (f : Yew → Yew) : (s.onYew f).chs = s.chs := rfl
@[simp] theorem State.onYew_ecc (s : State) (f : Yew → Yew) : (s.onYew f).ecc = s.ecc := rfl
@[simp] theorem State.onYew_jnp (s : State) (f : Yew → Yew) : (s.onYew f).jnp = s.jnp := rfl
@[simp] theorem State.onYew_dma (s : State) (f : Yew → Yew) : (s.onYew f).dma = s.dma := rfl
@[simp] theorem State.onYew_box (s : State) (f : Yew → Yew) : (s.onYew f).box = s.box := rfl
@[simp] theorem State.onYew_yew (s : State) (f : Yew → Yew) : (s.onYew f).yew = f s.yew := rfl
@[simp] theorem State.onYew_hly (s : State) (f : Yew → Yew) : (s.onYew f).hly = s.hly := rfl
@[simp] theorem State.onYew_pwr (s : State) (f : Yew → Yew) : (s.onYew f).pwr = s.pwr := rfl
@[simp] theorem State.onYew_sys (s : State) (f : Yew → Yew) : (s.onYew f).sys = s.sys := rfl
@[simp] theorem State.onYew_rd (s : State) (f : Yew → Yew) (F : Fld) : (s.onYew f).rd F = s.rd F := rfl
@[simp] theorem State.onYew_is (s : State) (f : Yew → Yew) (F : Fld) : (s.onYew f).is F = s.is F := rfl
@[simp] theorem State.onHly_pending (s : State) (f : Hly → Hly) : (s.onHly f).pending = s.pending := rfl
@[simp] theorem State.onHly_regs (s : State) (f : Hly → Hly) : (s.onHly f).regs = s.regs := rfl
@[simp] theorem State.onHly_locks (s : State) (f : Hly → Hly) : (s.onHly f).locks = s.locks := rfl
@[simp] theorem State.onHly_aclk (s : State) (f : Hly → Hly) : (s.onHly f).aclk = s.aclk := rfl
@[simp] theorem State.onHly_drawn (s : State) (f : Hly → Hly) : (s.onHly f).drawn = s.drawn := rfl
@[simp] theorem State.onHly_resp (s : State) (f : Hly → Hly) : (s.onHly f).resp = s.resp := rfl
@[simp] theorem State.onHly_delivered (s : State) (f : Hly → Hly) : (s.onHly f).delivered = s.delivered := rfl
@[simp] theorem State.onHly_dram (s : State) (f : Hly → Hly) : (s.onHly f).dram = s.dram := rfl
@[simp] theorem State.onHly_err (s : State) (f : Hly → Hly) : (s.onHly f).err = s.err := rfl
@[simp] theorem State.onHly_que (s : State) (f : Hly → Hly) : (s.onHly f).que = s.que := rfl
@[simp] theorem State.onHly_hdg (s : State) (f : Hly → Hly) : (s.onHly f).hdg = s.hdg := rfl
@[simp] theorem State.onHly_cop (s : State) (f : Hly → Hly) : (s.onHly f).cop = s.cop := rfl
@[simp] theorem State.onHly_map (s : State) (f : Hly → Hly) : (s.onHly f).map = s.map := rfl
@[simp] theorem State.onHly_top (s : State) (f : Hly → Hly) : (s.onHly f).top = s.top := rfl
@[simp] theorem State.onHly_mcs (s : State) (f : Hly → Hly) : (s.onHly f).mcs = s.mcs := rfl
@[simp] theorem State.onHly_chs (s : State) (f : Hly → Hly) : (s.onHly f).chs = s.chs := rfl
@[simp] theorem State.onHly_ecc (s : State) (f : Hly → Hly) : (s.onHly f).ecc = s.ecc := rfl
@[simp] theorem State.onHly_jnp (s : State) (f : Hly → Hly) : (s.onHly f).jnp = s.jnp := rfl
@[simp] theorem State.onHly_dma (s : State) (f : Hly → Hly) : (s.onHly f).dma = s.dma := rfl
@[simp] theorem State.onHly_box (s : State) (f : Hly → Hly) : (s.onHly f).box = s.box := rfl
@[simp] theorem State.onHly_yew (s : State) (f : Hly → Hly) : (s.onHly f).yew = s.yew := rfl
@[simp] theorem State.onHly_hly (s : State) (f : Hly → Hly) : (s.onHly f).hly = f s.hly := rfl
@[simp] theorem State.onHly_pwr (s : State) (f : Hly → Hly) : (s.onHly f).pwr = s.pwr := rfl
@[simp] theorem State.onHly_sys (s : State) (f : Hly → Hly) : (s.onHly f).sys = s.sys := rfl
@[simp] theorem State.onHly_rd (s : State) (f : Hly → Hly) (F : Fld) : (s.onHly f).rd F = s.rd F := rfl
@[simp] theorem State.onHly_is (s : State) (f : Hly → Hly) (F : Fld) : (s.onHly f).is F = s.is F := rfl
@[simp] theorem State.onPwr_pending (s : State) (f : Pwr → Pwr) : (s.onPwr f).pending = s.pending := rfl
@[simp] theorem State.onPwr_regs (s : State) (f : Pwr → Pwr) : (s.onPwr f).regs = s.regs := rfl
@[simp] theorem State.onPwr_locks (s : State) (f : Pwr → Pwr) : (s.onPwr f).locks = s.locks := rfl
@[simp] theorem State.onPwr_aclk (s : State) (f : Pwr → Pwr) : (s.onPwr f).aclk = s.aclk := rfl
@[simp] theorem State.onPwr_drawn (s : State) (f : Pwr → Pwr) : (s.onPwr f).drawn = s.drawn := rfl
@[simp] theorem State.onPwr_resp (s : State) (f : Pwr → Pwr) : (s.onPwr f).resp = s.resp := rfl
@[simp] theorem State.onPwr_delivered (s : State) (f : Pwr → Pwr) : (s.onPwr f).delivered = s.delivered := rfl
@[simp] theorem State.onPwr_dram (s : State) (f : Pwr → Pwr) : (s.onPwr f).dram = s.dram := rfl
@[simp] theorem State.onPwr_err (s : State) (f : Pwr → Pwr) : (s.onPwr f).err = s.err := rfl
@[simp] theorem State.onPwr_que (s : State) (f : Pwr → Pwr) : (s.onPwr f).que = s.que := rfl
@[simp] theorem State.onPwr_hdg (s : State) (f : Pwr → Pwr) : (s.onPwr f).hdg = s.hdg := rfl
@[simp] theorem State.onPwr_cop (s : State) (f : Pwr → Pwr) : (s.onPwr f).cop = s.cop := rfl
@[simp] theorem State.onPwr_map (s : State) (f : Pwr → Pwr) : (s.onPwr f).map = s.map := rfl
@[simp] theorem State.onPwr_top (s : State) (f : Pwr → Pwr) : (s.onPwr f).top = s.top := rfl
@[simp] theorem State.onPwr_mcs (s : State) (f : Pwr → Pwr) : (s.onPwr f).mcs = s.mcs := rfl
@[simp] theorem State.onPwr_chs (s : State) (f : Pwr → Pwr) : (s.onPwr f).chs = s.chs := rfl
@[simp] theorem State.onPwr_ecc (s : State) (f : Pwr → Pwr) : (s.onPwr f).ecc = s.ecc := rfl
@[simp] theorem State.onPwr_jnp (s : State) (f : Pwr → Pwr) : (s.onPwr f).jnp = s.jnp := rfl
@[simp] theorem State.onPwr_dma (s : State) (f : Pwr → Pwr) : (s.onPwr f).dma = s.dma := rfl
@[simp] theorem State.onPwr_box (s : State) (f : Pwr → Pwr) : (s.onPwr f).box = s.box := rfl
@[simp] theorem State.onPwr_yew (s : State) (f : Pwr → Pwr) : (s.onPwr f).yew = s.yew := rfl
@[simp] theorem State.onPwr_hly (s : State) (f : Pwr → Pwr) : (s.onPwr f).hly = s.hly := rfl
@[simp] theorem State.onPwr_pwr (s : State) (f : Pwr → Pwr) : (s.onPwr f).pwr = f s.pwr := rfl
@[simp] theorem State.onPwr_sys (s : State) (f : Pwr → Pwr) : (s.onPwr f).sys = s.sys := rfl
@[simp] theorem State.onPwr_rd (s : State) (f : Pwr → Pwr) (F : Fld) : (s.onPwr f).rd F = s.rd F := rfl
@[simp] theorem State.onPwr_is (s : State) (f : Pwr → Pwr) (F : Fld) : (s.onPwr f).is F = s.is F := rfl
@[simp] theorem State.onSys_pending (s : State) (f : Sys → Sys) : (s.onSys f).pending = s.pending := rfl
@[simp] theorem State.onSys_regs (s : State) (f : Sys → Sys) : (s.onSys f).regs = s.regs := rfl
@[simp] theorem State.onSys_locks (s : State) (f : Sys → Sys) : (s.onSys f).locks = s.locks := rfl
@[simp] theorem State.onSys_aclk (s : State) (f : Sys → Sys) : (s.onSys f).aclk = s.aclk := rfl
@[simp] theorem State.onSys_drawn (s : State) (f : Sys → Sys) : (s.onSys f).drawn = s.drawn := rfl
@[simp] theorem State.onSys_resp (s : State) (f : Sys → Sys) : (s.onSys f).resp = s.resp := rfl
@[simp] theorem State.onSys_delivered (s : State) (f : Sys → Sys) : (s.onSys f).delivered = s.delivered := rfl
@[simp] theorem State.onSys_dram (s : State) (f : Sys → Sys) : (s.onSys f).dram = s.dram := rfl
@[simp] theorem State.onSys_err (s : State) (f : Sys → Sys) : (s.onSys f).err = s.err := rfl
@[simp] theorem State.onSys_que (s : State) (f : Sys → Sys) : (s.onSys f).que = s.que := rfl
@[simp] theorem State.onSys_hdg (s : State) (f : Sys → Sys) : (s.onSys f).hdg = s.hdg := rfl
@[simp] theorem State.onSys_cop (s : State) (f : Sys → Sys) : (s.onSys f).cop = s.cop := rfl
@[simp] theorem State.onSys_map (s : State) (f : Sys → Sys) : (s.onSys f).map = s.map := rfl
@[simp] theorem State.onSys_top (s : State) (f : Sys → Sys) : (s.onSys f).top = s.top := rfl
@[simp] theorem State.onSys_mcs (s : State) (f : Sys → Sys) : (s.onSys f).mcs = s.mcs := rfl
@[simp] theorem State.onSys_chs (s : State) (f : Sys → Sys) : (s.onSys f).chs = s.chs := rfl
@[simp] theorem State.onSys_ecc (s : State) (f : Sys → Sys) : (s.onSys f).ecc = s.ecc := rfl
@[simp] theorem State.onSys_jnp (s : State) (f : Sys → Sys) : (s.onSys f).jnp = s.jnp := rfl
@[simp] theorem State.onSys_dma (s : State) (f : Sys → Sys) : (s.onSys f).dma = s.dma := rfl
@[simp] theorem State.onSys_box (s : State) (f : Sys → Sys) : (s.onSys f).box = s.box := rfl
@[simp] theorem State.onSys_yew (s : State) (f : Sys → Sys) : (s.onSys f).yew = s.yew := rfl
@[simp] theorem State.onSys_hly (s : State) (f : Sys → Sys) : (s.onSys f).hly = s.hly := rfl
@[simp] theorem State.onSys_pwr (s : State) (f : Sys → Sys) : (s.onSys f).pwr = s.pwr := rfl
@[simp] theorem State.onSys_sys (s : State) (f : Sys → Sys) : (s.onSys f).sys = f s.sys := rfl
@[simp] theorem State.onSys_rd (s : State) (f : Sys → Sys) (F : Fld) : (s.onSys f).rd F = s.rd F := rfl
@[simp] theorem State.onSys_is (s : State) (f : Sys → Sys) (F : Fld) : (s.onSys f).is F = s.is F := rfl
@[simp] theorem State.onChan_pending (s : State) (n : Nat) (f : Chan → Chan) : (s.onChan n f).pending = s.pending := rfl
@[simp] theorem State.onChan_regs (s : State) (n : Nat) (f : Chan → Chan) : (s.onChan n f).regs = s.regs := rfl
@[simp] theorem State.onChan_locks (s : State) (n : Nat) (f : Chan → Chan) : (s.onChan n f).locks = s.locks := rfl
@[simp] theorem State.onChan_aclk (s : State) (n : Nat) (f : Chan → Chan) : (s.onChan n f).aclk = s.aclk := rfl
@[simp] theorem State.onChan_drawn (s : State) (n : Nat) (f : Chan → Chan) : (s.onChan n f).drawn = s.drawn := rfl
@[simp] theorem State.onChan_resp (s : State) (n : Nat) (f : Chan → Chan) : (s.onChan n f).resp = s.resp := rfl
@[simp] theorem State.onChan_delivered (s : State) (n : Nat) (f : Chan → Chan) : (s.onChan n f).delivered = s.delivered := rfl
@[simp] theorem State.onChan_dram (s : State) (n : Nat) (f : Chan → Chan) : (s.onChan n f).dram = s.dram := rfl
@[simp] theorem State.onChan_err (s : State) (n : Nat) (f : Chan → Chan) : (s.onChan n f).err = s.err := rfl
@[simp] theorem State.onChan_que (s : State) (n : Nat) (f : Chan → Chan) : (s.onChan n f).que = s.que := rfl
@[simp] theorem State.onChan_hdg (s : State) (n : Nat) (f : Chan → Chan) : (s.onChan n f).hdg = s.hdg := rfl
@[simp] theorem State.onChan_cop (s : State) (n : Nat) (f : Chan → Chan) : (s.onChan n f).cop = s.cop := rfl
@[simp] theorem State.onChan_map (s : State) (n : Nat) (f : Chan → Chan) : (s.onChan n f).map = s.map := rfl
@[simp] theorem State.onChan_top (s : State) (n : Nat) (f : Chan → Chan) : (s.onChan n f).top = s.top := rfl
@[simp] theorem State.onChan_mcs (s : State) (n : Nat) (f : Chan → Chan) : (s.onChan n f).mcs = s.mcs := rfl
@[simp] theorem State.onChan_ecc (s : State) (n : Nat) (f : Chan → Chan) : (s.onChan n f).ecc = s.ecc := rfl
@[simp] theorem State.onChan_jnp (s : State) (n : Nat) (f : Chan → Chan) : (s.onChan n f).jnp = s.jnp := rfl
@[simp] theorem State.onChan_dma (s : State) (n : Nat) (f : Chan → Chan) : (s.onChan n f).dma = s.dma := rfl
@[simp] theorem State.onChan_box (s : State) (n : Nat) (f : Chan → Chan) : (s.onChan n f).box = s.box := rfl
@[simp] theorem State.onChan_yew (s : State) (n : Nat) (f : Chan → Chan) : (s.onChan n f).yew = s.yew := rfl
@[simp] theorem State.onChan_hly (s : State) (n : Nat) (f : Chan → Chan) : (s.onChan n f).hly = s.hly := rfl
@[simp] theorem State.onChan_pwr (s : State) (n : Nat) (f : Chan → Chan) : (s.onChan n f).pwr = s.pwr := rfl
@[simp] theorem State.onChan_sys (s : State) (n : Nat) (f : Chan → Chan) : (s.onChan n f).sys = s.sys := rfl
@[simp] theorem State.onChan_rd (s : State) (n : Nat) (f : Chan → Chan) (F : Fld) : (s.onChan n f).rd F = s.rd F := rfl
@[simp] theorem State.onChan_is (s : State) (n : Nat) (f : Chan → Chan) (F : Fld) : (s.onChan n f).is F = s.is F := rfl
@[simp] theorem State.wr_pending (s : State) (F : Fld) (v : Nat) : (s.wr F v).pending = s.pending := rfl
@[simp] theorem State.wr_locks (s : State) (F : Fld) (v : Nat) : (s.wr F v).locks = s.locks := rfl
@[simp] theorem State.wr_aclk (s : State) (F : Fld) (v : Nat) : (s.wr F v).aclk = s.aclk := rfl
@[simp] theorem State.wr_drawn (s : State) (F : Fld) (v : Nat) : (s.wr F v).drawn = s.drawn := rfl
@[simp] theorem State.wr_resp (s : State) (F : Fld) (v : Nat) : (s.wr F v).resp = s.resp := rfl
@[simp] theorem State.wr_delivered (s : State) (F : Fld) (v : Nat) : (s.wr F v).delivered = s.delivered := rfl
@[simp] theorem State.wr_dram (s : State) (F : Fld) (v : Nat) : (s.wr F v).dram = s.dram := rfl
@[simp] theorem State.wr_err (s : State) (F : Fld) (v : Nat) : (s.wr F v).err = s.err := rfl
@[simp] theorem State.wr_que (s : State) (F : Fld) (v : Nat) : (s.wr F v).que = s.que := rfl
@[simp] theorem State.wr_hdg (s : State) (F : Fld) (v : Nat) : (s.wr F v).hdg = s.hdg := rfl
@[simp] theorem State.wr_cop (s : State) (F : Fld) (v : Nat) : (s.wr F v).cop = s.cop := rfl
@[simp] theorem State.wr_map (s : State) (F : Fld) (v : Nat) : (s.wr F v).map = s.map := rfl
@[simp] theorem State.wr_top (s : State) (F : Fld) (v : Nat) : (s.wr F v).top = s.top := rfl
@[simp] theorem State.wr_mcs (s : State) (F : Fld) (v : Nat) : (s.wr F v).mcs = s.mcs := rfl
@[simp] theorem State.wr_chs (s : State) (F : Fld) (v : Nat) : (s.wr F v).chs = s.chs := rfl
@[simp] theorem State.wr_ecc (s : State) (F : Fld) (v : Nat) : (s.wr F v).ecc = s.ecc := rfl
@[simp] theorem State.wr_jnp (s : State) (F : Fld) (v : Nat) : (s.wr F v).jnp = s.jnp := rfl
@[simp] theorem State.wr_dma (s : State) (F : Fld) (v : Nat) : (s.wr F v).dma = s.dma := rfl
@[simp] theorem State.wr_box (s : State) (F : Fld) (v : Nat) : (s.wr F v).box = s.box := rfl
@[simp] theorem State.wr_yew (s : State) (F : Fld) (v : Nat) : (s.wr F v).yew = s.yew := rfl
@[simp] theorem State.wr_hly (s : State) (F : Fld) (v : Nat) : (s.wr F v).hly = s.hly := rfl
@[simp] theorem State.wr_pwr (s : State) (F : Fld) (v : Nat) : (s.wr F v).pwr = s.pwr := rfl
@[simp] theorem State.wr_sys (s : State) (F : Fld) (v : Nat) : (s.wr F v).sys = s.sys := rfl

/-- A field reads as it was written, in its width. -/
theorem State.rd_wr_self (s : State) (F : Fld) (v : Nat) : (s.wr F v).rd F = v % 2 ^ F.width :=
  tget_tset_self _ _ _ _

/-- Another field is left as it was. -/
theorem State.rd_wr_ne (s : State) {F G : Fld} (v : Nat) (h : G.key ≠ F.key) : (s.wr F v).rd G = s.rd G := by
  unfold State.rd State.wr
  dsimp only
  unfold tset
  split
  · exact tget_tdel_ne _ _ h
  · exact tget_tins_ne _ _ _ h

/-- A flag that is set. -/
theorem State.is_setb_self (s : State) (F : Fld) (h : F.width = 1) : (s.setb F).is F = true := by
  unfold State.is State.setb
  rw [State.rd_wr_self, h]
  rfl

theorem State.is_wr_ne (s : State) {F G : Fld} (v : Nat) (h : G.key ≠ F.key) : (s.wr F v).is G = s.is G := by
  unfold State.is
  rw [State.rd_wr_ne s v h]

/-- A channel after a change of a channel. -/
theorem State.chan_onChan (s : State) (n k : Nat) (f : Chan → Chan) :
    (s.onChan n f).chan k = if k = n then f (s.chan n) else s.chan k := by
  unfold State.chan State.onChan
  exact tget_tset _ _ _ _ _

/-- A sequencer after a change of a sequencer. -/
theorem State.seq_onSeq (s : State) (n k : Nat) (f : Seq → Seq) :
    (s.onSeq n f).seq k = if k = n then f (s.seq n) else s.seq k := by
  unfold State.seq State.onSeq State.onMcs
  exact tget_tset _ _ _ _ _

end Sys2Proof.Machine
end

