-- ==== Sys2Proof/Laws/Regs.lean ====
section
/-!
SUPPORT. Closed facts about the register map, and what follows for reading a field after another was written: the fields
lie within 32 bits, the LOCK fields are four, and a field of a register is a field of the map.
-/
namespace Sys2Proof.Machine

/-- Every field lies within its register. -/
theorem Reg.all_fit : (Reg.all.all fun F => decide (F.lsb + F.width ≤ 32)) = true := by decide +kernel

/-- The LOCK fields of the map. -/
theorem Reg.all_lock : (Reg.all.filter fun F => F.acc == Access.lock) =
    [Reg.PWR_QUOTA_FRAMES, Reg.BOX_CEIL_VCC, Reg.BOX_CEIL_VCCQ, Reg.DBG_LOCK_LOCKED] := by decide +kernel

theorem Reg.lock_cases {F : Fld} (h : F ∈ Reg.all) (hA : F.acc = Access.lock) :
    F = Reg.PWR_QUOTA_FRAMES ∨ F = Reg.BOX_CEIL_VCC ∨ F = Reg.BOX_CEIL_VCCQ ∨ F = Reg.DBG_LOCK_LOCKED := by
  have h2 : F ∈ Reg.all.filter fun F => F.acc == Access.lock := List.mem_filter.mpr ⟨h, by rw [hA]; rfl⟩
  rw [Reg.all_lock] at h2
  simpa using h2

theorem Reg.blockFlds_sub {addr : Nat} {F : Fld} (h : F ∈ Reg.blockFlds addr) : F ∈ Reg.all := by
  unfold Reg.blockFlds at h
  unfold Reg.all
  repeat rw [List.mem_append]
  split at h
  all_goals first
    | (split at h
       · simp [h]
       · cases h)
    | simp [h]

/-- A field of a register is a field of the map at its address. -/
theorem Reg.atAddr_mem {addr : Nat} {F : Fld} (h : F ∈ Reg.atAddr addr) : F ∈ Reg.all ∧ F.addr = addr := by
  have h2 := List.mem_filter.mp h
  exact ⟨Reg.blockFlds_sub h2.1, by simpa using h2.2⟩

/-- A write of a field that is no LOCK field leaves every LOCK field as it reads. -/
theorem State.rd_lock_wr (s : State) {F G : Fld} (v : Nat) (hF : (F.acc == Access.lock) = false) (hG : G.acc = Access.lock) :
    (s.wr F v).rd G = s.rd G := by
  apply State.rd_wr_ne
  unfold Fld.key
  rw [if_pos hG, if_neg (by simpa using hF)]
  omega

/-- Two fields of the map with the same key and the same kind stand at the same address. -/
theorem Reg.addr_of_key {F G : Fld} (hF : F ∈ Reg.all) (hG : G ∈ Reg.all) (hA : F.acc = Access.lock) (hB : G.acc = Access.lock)
    (h : F.key = G.key) : F.addr = G.addr := by
  unfold Fld.key at h
  rw [if_pos hA, if_pos hB] at h
  have h1 := List.all_eq_true.mp Reg.all_fit F hF
  have h2 := List.all_eq_true.mp Reg.all_fit G hG
  rw [decide_eq_true_eq] at h1 h2
  by_cases w : F.lsb < 32 ∧ G.lsb < 32
  · omega
  · rcases Reg.lock_cases hF hA with rfl | rfl | rfl | rfl <;> rcases Reg.lock_cases hG hB with rfl | rfl | rfl | rfl <;>
      first | rfl | exact absurd h (by decide)

/-! The fields of the map lie apart. -/

/-- Each field ends before the next begins, and none is empty. -/
def Reg.rises : List Fld → Bool
  | [] => true
  | [F] => decide (0 < F.width)
  | F :: G :: r => decide (0 < F.width) && decide (F.addr * 32 + F.lsb + F.width ≤ G.addr * 32 + G.lsb) && Reg.rises (G :: r)

theorem Reg.all_rises : Reg.rises Reg.all = true := by decide +kernel

theorem Reg.rises_head {F : Fld} {l : List Fld} (h : Reg.rises (F :: l) = true) :
    0 < F.width ∧ Reg.rises l = true ∧ ∀ G ∈ l, F.addr * 32 + F.lsb + F.width ≤ G.addr * 32 + G.lsb := by
  induction l generalizing F with
  | nil => exact ⟨by simpa [Reg.rises] using h, rfl, by intro G hG; cases hG⟩
  | cons H r ih =>
    simp only [Reg.rises, Bool.and_eq_true, decide_eq_true_eq] at h
    obtain ⟨⟨h1, h2⟩, h3⟩ := h
    obtain ⟨w, _, hr⟩ := ih h3
    refine ⟨h1, h3, fun G hG => ?_⟩
    rcases List.mem_cons.mp hG with rfl | hG
    · exact h2
    · have := hr G hG; omega

theorem Reg.rises_apart {l : List Fld} (h : Reg.rises l = true) {F G : Fld} (hF : F ∈ l) (hG : G ∈ l) (hn : F ≠ G) :
    F.addr * 32 + F.lsb + F.width ≤ G.addr * 32 + G.lsb ∨ G.addr * 32 + G.lsb + G.width ≤ F.addr * 32 + F.lsb := by
  induction l with
  | nil => cases hF
  | cons H r ih =>
    obtain ⟨_, hr, ha⟩ := Reg.rises_head h
    rcases List.mem_cons.mp hF with eF | mF
    · rcases List.mem_cons.mp hG with eG | mG
      · exact absurd (eF.trans eG.symm) hn
      · exact .inl (eF ▸ ha G mG)
    · rcases List.mem_cons.mp hG with eG | mG
      · exact .inr (eG ▸ ha F mF)
      · exact ih hr mF mG

/-- Two fields of the map share no bit. -/
theorem Reg.apart {F G : Fld} (hF : F ∈ Reg.all) (hG : G ∈ Reg.all) (hn : F ≠ G) :
    F.addr * 32 + F.lsb + F.width ≤ G.addr * 32 + G.lsb ∨ G.addr * 32 + G.lsb + G.width ≤ F.addr * 32 + F.lsb :=
  Reg.rises_apart Reg.all_rises hF hG hn

theorem Reg.rises_width {l : List Fld} (h : Reg.rises l = true) {F : Fld} (hF : F ∈ l) : 0 < F.width := by
  induction l with
  | nil => cases hF
  | cons H r ih =>
    obtain ⟨w, hr, _⟩ := Reg.rises_head h
    rcases List.mem_cons.mp hF with rfl | hF
    · exact w
    · exact ih hr hF

/-- A write of one field of the map leaves every other as it reads. -/
theorem State.rd_wr_other (s : State) {F G : Fld} (v : Nat) (hF : F ∈ Reg.all) (hG : G ∈ Reg.all) (hn : G ≠ F) :
    (s.wr F v).rd G = s.rd G := by
  apply State.rd_wr_ne
  have h := Reg.apart hF hG hn.symm
  have h1 := Reg.rises_width Reg.all_rises hF
  have h2 := Reg.rises_width Reg.all_rises hG
  unfold Fld.key
  split <;> split <;> omega

/-- Every field of a block lies in it. -/
theorem Reg.blocks_in : ([(Reg.fldsGLB, 0x0), (Reg.fldsPWR, 0x1), (Reg.fldsCOP, 0x2), (Reg.fldsHDG, 0x3), (Reg.fldsQUE, 0x4),
    (Reg.fldsDMA, 0x5), (Reg.fldsTOP, 0x6), (Reg.fldsMAP, 0x7), (Reg.fldsECC, 0x8), (Reg.fldsJNP, 0x9), (Reg.fldsBOX, 0xA),
    (Reg.fldsYEW, 0xB), (Reg.fldsHLY, 0xC), (Reg.fldsERR, 0xD), (Reg.fldsMCS, 0xE), (Reg.fldsDBG, 0x30)].all fun p =>
      p.1.all fun F => F.addr / 0x1000 == p.2) = true := by decide +kernel

theorem Reg.channels_in : (Reg.fldsCH.all fun F => decide (0x20 ≤ F.addr / 0x1000) && decide (F.addr / 0x1000 < 0x28)) = true := by
  decide +kernel

/-- A field of the map stands at its register's address. -/
theorem Reg.mem_atAddr {F : Fld} (h : F ∈ Reg.all) : F ∈ Reg.atAddr F.addr := by
  unfold Reg.atAddr
  rw [List.mem_filter]
  refine ⟨?_, by simp⟩
  have hb := Reg.blocks_in
  have hc := Reg.channels_in
  simp only [List.all_cons, List.all_nil, Bool.and_true, Bool.and_eq_true, List.all_eq_true, beq_iff_eq, decide_eq_true_eq] at hb hc
  unfold Reg.all at h
  simp only [List.mem_append] at h
  obtain ⟨h0, h1, h2, h3, h4, h5, h6, h7, h8, h9, h10, h11, h12, h13, h14, h15⟩ := hb
  rcases h with (((((((((((((((h | h) | h) | h) | h) | h) | h) | h) | h) | h) | h) | h) | h) | h) | h) | h) | h
  · rw [Reg.blockFlds, h0 F h]; exact h
  · rw [Reg.blockFlds, h1 F h]; exact h
  · rw [Reg.blockFlds, h2 F h]; exact h
  · rw [Reg.blockFlds, h3 F h]; exact h
  · rw [Reg.blockFlds, h4 F h]; exact h
  · rw [Reg.blockFlds, h5 F h]; exact h
  · rw [Reg.blockFlds, h6 F h]; exact h
  · rw [Reg.blockFlds, h7 F h]; exact h
  · rw [Reg.blockFlds, h8 F h]; exact h
  · rw [Reg.blockFlds, h9 F h]; exact h
  · rw [Reg.blockFlds, h10 F h]; exact h
  · rw [Reg.blockFlds, h11 F h]; exact h
  · rw [Reg.blockFlds, h12 F h]; exact h
  · rw [Reg.blockFlds, h13 F h]; exact h
  · rw [Reg.blockFlds, h14 F h]; exact h
  · have := hc F h
    unfold Reg.blockFlds
    split
    all_goals first
      | omega
      | (rw [if_pos this]; exact h)
  · rw [Reg.blockFlds, h15 F h]; exact h

/-- The fields of one register stand in the order of their bits. -/
theorem Reg.rises_filter {l : List Fld} (h : Reg.rises l = true) (p : Fld → Bool) : Reg.rises (l.filter p) = true := by
  have key : ∀ (F : Fld) (m : List Fld), 0 < F.width → Reg.rises m = true →
      (∀ G ∈ m, F.addr * 32 + F.lsb + F.width ≤ G.addr * 32 + G.lsb) → Reg.rises (F :: m) = true := by
    intro F m hw hm ha
    cases m with
    | nil => simpa [Reg.rises] using hw
    | cons G r => simp only [Reg.rises, Bool.and_eq_true, decide_eq_true_eq]; exact ⟨⟨hw, ha G (List.mem_cons_self)⟩, hm⟩
  induction l with
  | nil => rfl
  | cons F r ih =>
    obtain ⟨w, hr, ha⟩ := Reg.rises_head h
    rw [List.filter_cons]
    split
    · exact key F _ w (ih hr) fun G hG => ha G (List.mem_filter.mp hG).1
    · exact ih hr

end Sys2Proof.Machine
end

