-- ==== Sys2Proof/Laws/Access.lean ====
section
/-!
SUPPORT. What a register access does in each power state, said once.
-/
namespace Sys2Proof.Machine

/-- R13: an access that is served has its effect at once. -/
theorem access_served {s : State} {m : Master} (h : Served s m) (a : Nat) (v : Option Nat) (f : State → State) (w : Nat) :
    s.access m a v f w = f s.fresh := by
  unfold State.access State.gate
  cases m with
  | client p => exact absurd rfl (h.2 p)
  | port => dsimp only; rw [h.1]; rfl
  | holly => dsimp only; rw [h.1]; rfl

/-- R437: in ACTIVE a doorbell write or a write of WAKE is an access like any other. -/
theorem accessWake_active {s : State} (h : s.pwr.st = .active) (m : Master) (a : Nat) (v : Option Nat) (f : State → State) :
    s.accessWake m a v f = f s.fresh := by
  unfold State.accessWake State.gate
  rw [h]
  rfl

/-- R437: in NAP and DORMANT a doorbell write has its effect and wakes the complex. -/
theorem accessWake_low {s : State} (h : s.pwr.st = .nap ∨ s.pwr.st = .dormant) (m : Master) (a : Nat) (v : Option Nat)
    (f : State → State) :
    s.accessWake m a v f =
      (f s.fresh).onPwr fun p => { p with waking := if p.waking.isSome then p.waking else some 0 } := by
  unfold State.accessWake
  rcases h with h | h <;> rw [h] <;> rfl

/-- R434: in IDLE an access is held, and wakes the complex. -/
theorem access_idle {s : State} (h : s.pwr.st = .idle) {m : Master} (hm : ∀ p, m ≠ .client p) (a : Nat) (v : Option Nat)
    (f : State → State) (w : Nat) :
    s.access m a v f w = s.onPwr fun p => { p with
      held := p.held ++ [{ m := m, addr := a, v := v, width := w }]
      waking := if p.waking.isSome then p.waking else some 0 } := by
  unfold State.access State.gate
  cases m with
  | client p => exact absurd rfl (hm p)
  | port => dsimp only; rw [h]
  | holly => dsimp only; rw [h]

/-- R437: in NAP and DORMANT an access that does not wake the complex ends with an error response. -/
theorem access_low {s : State} (h : s.pwr.st = .nap ∨ s.pwr.st = .dormant) (m : Master) (a : Nat) (v : Option Nat)
    (f : State → State) (w : Nat) : s.access m a v f w = { s with resp := .error } := by
  unfold State.access State.gate
  cases m <;> rcases h with h | h <;> simp [h]

/-- R433: in OFF an access has no answer. -/
theorem access_off {s : State} (h : s.pwr.st = .off) {m : Master} (hm : ∀ p, m ≠ .client p) (a : Nat) (v : Option Nat)
    (f : State → State) (w : Nat) : s.access m a v f w = s.fresh := by
  unfold State.access State.gate
  cases m with
  | client p => exact absurd rfl (hm p)
  | port => dsimp only; rw [h]; rfl
  | holly => dsimp only; rw [h]; rfl

/-- R96: a client port's access to a register that is no doorbell ends with an error response. -/
theorem access_client (s : State) (p : Fin 4) (a : Nat) (v : Option Nat) (f : State → State) (w : Nat) :
    s.access (.client p) a v f w = { s with resp := .error } := rfl

@[simp] theorem State.fresh_rd (s : State) (F : Fld) : s.fresh.rd F = s.rd F := rfl
@[simp] theorem State.fresh_is (s : State) (F : Fld) : s.fresh.is F = s.is F := rfl
@[simp] theorem State.fresh_pwr (s : State) : s.fresh.pwr = s.pwr := rfl
@[simp] theorem State.fresh_que (s : State) : s.fresh.que = s.que := rfl
@[simp] theorem State.fresh_mcs (s : State) : s.fresh.mcs = s.mcs := rfl
@[simp] theorem State.fresh_yew (s : State) : s.fresh.yew = s.yew := rfl
@[simp] theorem State.fresh_hly (s : State) : s.fresh.hly = s.hly := rfl
@[simp] theorem State.fresh_box (s : State) : s.fresh.box = s.box := rfl
@[simp] theorem State.fresh_err (s : State) : s.fresh.err = s.err := rfl

end Sys2Proof.Machine
end

