-- ==== Sys2Proof/Laws/Cmd.lean ====
section
/-!
SUPPORT. The table of outstanding tags: what a change of one command does to the others, which command a row acts on, and
what the end of a command does, said once.
-/
namespace Sys2Proof.Machine

/-- The command found under a tag carries it. -/
theorem State.cmd?_tag {s : State} {tag : Nat} {c : Cmd} (h : s.cmd? tag = some c) : c.tag = tag := by
  simpa using List.find?_some h

/-- R446, R49: a command that is ready is outstanding, has not begun and has the row's opcode. -/
theorem State.ready?_spec {s : State} {tag op : Nat} {c : Cmd} (h : s.ready? tag op = some c) :
    s.cmd? tag = some c ∧ c.tag = tag ∧ c.stage = .entered ∧ c.pkt.opcode = op := by
  unfold State.ready? at h
  split at h
  · rename_i x hx
    split at h
    · rename_i hc
      simp only [Option.some.injEq] at h
      subst h
      simp only [Bool.and_eq_true, beq_iff_eq] at hc
      exact ⟨hx, State.cmd?_tag hx, hc.1.1, hc.1.2⟩
    · cases h
  · cases h

/-- R62: a slow-path command that is served stands at the head of the inbox, is ready, and Holly serves. -/
theorem State.slow?_spec {s : State} {tag op : Nat} {c : Cmd} (h : s.slow? tag op = some c) :
    s.que.inbox.head? = some tag ∧ s.hollyServes = true ∧ s.ready? tag op = some c := by
  unfold State.slow? at h
  split at h
  · rename_i hc; exact ⟨hc.1, hc.2, h⟩
  · cases h

theorem find_map_tag (l : List Cmd) (tag : Nat) (f : Cmd → Cmd) (hf : ∀ c, (f c).tag = c.tag) :
    (l.map fun c => if c.tag == tag then f c else c).find? (fun c => c.tag == tag) =
      (l.find? fun c => c.tag == tag).map f := by
  induction l with
  | nil => rfl
  | cons c r ih =>
    rw [List.map_cons, List.find?_cons, List.find?_cons]
    by_cases h : c.tag = tag
    · simp [h, hf]
    · simp only [beq_eq_false_iff_ne.mpr h, Bool.false_eq_true, if_false]
      exact ih

theorem find_map_other (l : List Cmd) {tag j : Nat} (f : Cmd → Cmd) (hf : ∀ c, (f c).tag = c.tag) (hj : j ≠ tag) :
    (l.map fun c => if c.tag == tag then f c else c).find? (fun c => c.tag == j) = l.find? fun c => c.tag == j := by
  induction l with
  | nil => rfl
  | cons c r ih =>
    rw [List.map_cons, List.find?_cons, List.find?_cons, ih]
    by_cases h : c.tag = tag
    · have : (tag == j) = false := beq_eq_false_iff_ne.mpr fun e => hj e.symm
      simp [h, hf, this]
    · simp [h]

/-- A change of the command of a tag, seen under the tag. -/
theorem State.cmd?_onCmd (s : State) (tag : Nat) (f : Cmd → Cmd) (hf : ∀ c, (f c).tag = c.tag) :
    (s.onCmd tag f).cmd? tag = (s.cmd? tag).map f := find_map_tag s.que.cmds tag f hf

/-- A change of the command of a tag, seen under another. -/
theorem State.cmd?_onCmd_ne (s : State) {tag j : Nat} (f : Cmd → Cmd) (hf : ∀ c, (f c).tag = c.tag) (hj : j ≠ tag) :
    (s.onCmd tag f).cmd? j = s.cmd? j := find_map_other s.que.cmds f hf hj

/-- The command of a tag replaced by one of the same tag. -/
theorem State.cmd?_onCmd_const {s : State} {tag : Nat} {c d : Cmd} (h : s.cmd? tag = some c) (hd : d.tag = tag) :
    (s.onCmd tag fun _ => d).cmd? tag = some d := by
  have key : ∀ l : List Cmd, (l.find? fun c => c.tag == tag) = some c →
      ((l.map fun c => if c.tag == tag then d else c).find? fun c => c.tag == tag) = some d := by
    intro l hl
    induction l with
    | nil => cases hl
    | cons a r ih =>
      rw [List.find?_cons] at hl
      rw [List.map_cons, List.find?_cons]
      by_cases e : a.tag = tag
      · simp [e, hd]
      · simp only [beq_eq_false_iff_ne.mpr e, Bool.false_eq_true, if_false] at hl ⊢
        exact ih hl
  exact key s.que.cmds h

/-- R103: the end of a command that has not ended: its record is requested with the status and the detail, and nothing
outside the packet engine and its counters changes. -/
theorem State.finish_spec {s : State} {tag : Nat} {c : Cmd} (h : s.cmd? tag = some c)
    (hs : c.stage = .entered ∨ c.stage = .running) (st det : Nat) :
    Completes (s.finish tag st det) tag st det ∧
      (s.finish tag st det).cmd? tag = some { c with stage := .requested, status := st, detail := det } ∧
      (st ≠ stByReset → SameBut [.que] s (s.finish tag st det)) := by
  have ht := State.cmd?_tag h
  have e : s.finish tag st det =
      (s.onCmd tag fun _ => { c with stage := .requested, status := st, detail := det }).request
        ({ c with stage := .requested, status := st, detail := det } : Cmd).record := by
    unfold State.finish
    rw [h]
    rcases hs with hs | hs <;> simp [hs]
  have hq : ∀ (t : State) (r : Rec), (t.request r).que.cmds = t.que.cmds ∧ r ∈ (t.request r).que.reqs := by
    intro t r
    unfold State.request State.countReset
    split
    · exact ⟨rfl, by simp [State.onQue]⟩
    · split
      · exact ⟨rfl, by simp [State.onQue]⟩
      · exact ⟨rfl, by simp [State.onQue]⟩
  have hc : (s.finish tag st det).cmd? tag = some { c with stage := .requested, status := st, detail := det } := by
    rw [e]
    unfold State.cmd?
    rw [(hq _ _).1]
    exact State.cmd?_onCmd_const h ht
  refine ⟨⟨_, hc, rfl, rfl, rfl, ?_⟩, hc, fun hr => ?_⟩
  · rw [e]; exact (hq _ _).2
  · have : s.finish tag st det = (s.onCmd tag fun _ => { c with stage := .requested, status := st, detail := det }).onQue
        fun q => { q with reqs := q.reqs ++ [({ c with stage := .requested, status := st, detail := det } : Cmd).record] } := by
      rw [e]
      unfold State.request State.countReset
      rw [if_pos (show ({ c with stage := .requested, status := st, detail := det } : Cmd).record.status ≠ stByReset from hr)]
    rw [this]
    intro p hp
    cases p <;> first | rfl | exact ⟨rfl, rfl, rfl⟩ | exact absurd hp (by decide)

end Sys2Proof.Machine
end

