-- ==== Sys2Proof/Laws/Crc.lean ====
section
/-!
SUPPORT. The CRC-32C of bytes is a number of 32 bits (R46).
-/
namespace Sys2Proof.Machine

theorem crc32cBit_lt {c : Nat} (h : c < 2 ^ 32) : crc32cBit c < 2 ^ 32 := by
  unfold crc32cBit
  split
  · exact Nat.xor_lt_two_pow (by omega) (by decide)
  · omega

theorem times_lt {f : Nat → Nat} {b : Nat} (hf : ∀ c, c < b → f c < b) : ∀ n c, c < b → times f n c < b
  | 0, _, h => h
  | n + 1, c, h => times_lt hf n (f c) (hf c h)

theorem crc32cRun_lt (l : List Byte) : ∀ {c : Nat}, c < 2 ^ 32 → crc32cRun c l < 2 ^ 32 := by
  induction l with
  | nil => intro c h; exact h
  | cons b r ih =>
    intro c h
    refine ih (c := times crc32cBit 8 (c ^^^ b.toNat)) (times_lt (fun c h => crc32cBit_lt h) 8 _ ?_)
    exact Nat.xor_lt_two_pow h (by have := b.isLt; omega)

theorem crc32c_lt (l : List Byte) : crc32c l < 2 ^ 32 :=
  Nat.xor_lt_two_pow (crc32cRun_lt l (by decide)) (by decide)

end Sys2Proof.Machine
end

