-- ==== Sys2Proof/Laws/Keeps.lean ====
section
/-!
SUPPORT. The properties of a state that a primitive update keeps, one name for each primitive: a change of one unit's
structure, a write of a register field that is no LOCK field, one stored byte, an answer on a port. The laws of the
operations are stated from them.
-/
namespace Sys2Proof.Machine

/-- A change of the error log that drops buffered records, or buffers one of a unit that has none buffered (R529). -/
def ErrKept (e e2 : ErrLog) : Prop :=
  e2.buf.Sublist e.buf ∨ ∃ r, (e.buf.any fun b => b.src == r.src) = false ∧ e2.buf = e.buf ++ [r]
/-- The property survives every such change of the error log. -/
abbrev KErr (P : State → Prop) : Prop := ∀ (s : State) (f : ErrLog → ErrLog), ErrKept s.err (f s.err) → P s → P (s.onErr f)
/-- A change of the packet engine that leaves the staging FIFO within its depth (R104). -/
def QueKept (q q2 : Que) : Prop := q2.csf.length ≤ max q.csf.length 256
/-- The property survives every such change of the packet engine. -/
abbrev KQue (P : State → Prop) : Prop := ∀ (s : State) (f : Que → Que), QueKept s.que (f s.que) → P s → P (s.onQue f)
/-- A change of the DMA channels that leaves every descriptor queue within its depth (R104). -/
def DmaKept (d d2 : Dma) : Prop :=
  ∀ n, (tget {} d2.chs n).queue.length ≤ max (tget {} d.chs n).queue.length 8
/-- The property survives every such change of the DMA channels. -/
abbrev KDma (P : State → Prop) : Prop := ∀ (s : State) (f : Dma → Dma), DmaKept s.dma (f s.dma) → P s → P (s.onDma f)

/-- The property survives every change of the unit `cop`. -/
abbrev KCop (P : State → Prop) : Prop := ∀ (s : State) (f : Cop → Cop), P s → P (s.onCop f)
/-- The property survives every change of the unit `map`. -/
abbrev KMap (P : State → Prop) : Prop := ∀ (s : State) (f : Map → Map), P s → P (s.onMap f)
/-- The property survives every change of the unit `top`. -/
abbrev KTop (P : State → Prop) : Prop := ∀ (s : State) (f : Top → Top), P s → P (s.onTop f)
/-- The property survives every change of the unit `mcs`. -/
abbrev KMcs (P : State → Prop) : Prop := ∀ (s : State) (f : Mcs → Mcs), P s → P (s.onMcs f)
/-- The property survives every change of the unit `ecc`. -/
abbrev KEcc (P : State → Prop) : Prop := ∀ (s : State) (f : Ecc → Ecc), P s → P (s.onEcc f)
/-- The property survives every change of the unit `jnp`. -/
abbrev KJnp (P : State → Prop) : Prop := ∀ (s : State) (f : Jnp → Jnp), P s → P (s.onJnp f)
/-- The property survives every change of the unit `box`. -/
abbrev KBox (P : State → Prop) : Prop := ∀ (s : State) (f : Box → Box), P s → P (s.onBox f)
/-- The property survives every change of the unit `yew`. -/
abbrev KYew (P : State → Prop) : Prop := ∀ (s : State) (f : Yew → Yew), P s → P (s.onYew f)
/-- The property survives every change of the unit `hly`. -/
abbrev KHly (P : State → Prop) : Prop := ∀ (s : State) (f : Hly → Hly), P s → P (s.onHly f)
/-- The property survives every change of the unit `pwr`. -/
abbrev KPwr (P : State → Prop) : Prop := ∀ (s : State) (f : Pwr → Pwr), P s → P (s.onPwr f)
/-- The property survives every change of the unit `sys`. -/
abbrev KSys (P : State → Prop) : Prop := ∀ (s : State) (f : Sys → Sys), P s → P (s.onSys f)
/-- A change of the central store that leaves its bytes alone. -/
def MemKept (f : Hdg → Hdg) : Prop := ∀ h, (f h).mem = h.mem ∧ (f h).zeroed = h.zeroed ∧ (f h).undef = h.undef
/-- The property survives every change of the central store that leaves its bytes alone. -/
abbrev KHdg (P : State → Prop) : Prop := ∀ (s : State) (f : Hdg → Hdg), MemKept f → P s → P (s.onHdg f)
/-- The property survives a stored byte. -/
abbrev KPut (P : State → Prop) : Prop := ∀ (s : State) (a : Nat) (b : Byte), P s → P (s.hPut a b)
/-- The property survives the clearing of a region. -/
abbrev KClear (P : State → Prop) : Prop := ∀ (s : State) (k : Nat), P s → P (s.hClearRegion k)
/-- The property survives a buffer whose contents become undefined. -/
abbrev KForget (P : State → Prop) : Prop := ∀ (s : State) (i : Nat), P s → P (s.hForget i)
/-- The property survives the loss of the core supply in DORMANT. -/
abbrev KLost (P : State → Prop) : Prop := ∀ s : State, P s → P s.coreLost
/-- The property survives the loss of everything but Yew. -/
abbrev KWipe (P : State → Prop) : Prop := ∀ s : State, P s → P s.wiped
/-- The property survives every change of a channel. -/
abbrev KChan (P : State → Prop) : Prop := ∀ (s : State) (n : Nat) (f : Chan → Chan), P s → P (s.onChan n f)
/-- The property survives every write of a register field that is no LOCK field. -/
abbrev KWr (P : State → Prop) : Prop := ∀ (s : State) (F : Fld) (v : Nat), (F.acc == Access.lock) = false → P s → P (s.wr F v)
/-- The property survives every answer on a port. -/
abbrev KResp (P : State → Prop) : Prop := ∀ (s : State) (r : Resp), P s → P { s with resp := r }
/-- The property survives the drawing of free values. -/
abbrev KDrawn (P : State → Prop) : Prop := ∀ (s : State) (d : Nat), P s → P { s with drawn := d }
/-- The property survives writes on the DRAM port. -/
abbrev KDram (P : State → Prop) : Prop := ∀ (s : State) (a : Nat) (d : List Byte), P s → P (s.dramWrite a d)
/-- The property survives bytes delivered on a client port. -/
abbrev KDeliv (P : State → Prop) : Prop := ∀ (s : State) (l : List (Nat × List Byte)), P s → P { s with delivered := l }
/-- The property survives a write of fields of a register whose LOCK fields the first write fixes. -/
abbrev KFlds (P : State → Prop) : Prop :=
  ∀ (s : State) (addr v : Nat) (l : List Fld), (∀ F ∈ l, F ∈ Reg.atAddr addr) → P s → P (s.writeFlds addr v l)
/-- The property survives a write of PL_BOX_CEIL. -/
abbrev KCeil (P : State → Prop) : Prop := ∀ (s : State) (v : Nat), P s → P (s.ceilSet v)
/-- The property survives a write of PL_DBG_LOCK. -/
abbrev KDbgL (P : State → Prop) : Prop := ∀ (s : State) (v : Nat), P s → P (s.dbgLockWrite v)

/-- The property holds of the state that an outcome goes on with, if it goes on. -/
def Out.All (P : State → Prop) (o : Out) : Prop :=
  match o with
  | .next t => P t
  | .fault _ => True
  | .refused _ => True

theorem Out.all_next {P : State → Prop} {t : State} (h : P t) : Out.All P (.next t) := h

theorem Out.All.next {P : State → Prop} {o : Out} {t : State} (h : Out.All P o) (e : o = .next t) : P t := by
  subst e
  exact h

theorem KErr.same {P : State → Prop} (kErr : KErr P) {s : State} {f : ErrLog → ErrLog} (h : ∀ e, (f e).buf = e.buf)
    (hP : P s) : P (s.onErr f) :=
  kErr _ _ (.inl (by simp [h])) hP

theorem KQue.same {P : State → Prop} (kQue : KQue P) {s : State} {f : Que → Que} (h : ∀ q, (f q).csf = q.csf)
    (hP : P s) : P (s.onQue f) :=
  kQue _ _ (by unfold QueKept; rw [h]; exact Nat.le_max_left _ _) hP

theorem KDma.same {P : State → Prop} (kDma : KDma P) {s : State} {f : Dma → Dma} (h : ∀ d, (f d).chs = d.chs)
    (hP : P s) : P (s.onDma f) :=
  kDma _ _ (fun _ => by rw [h]; exact Nat.le_max_left _ _) hP

theorem State.onDmaCh_keeps {P : State → Prop} (kDma : KDma P) (s : State) (n : Nat) (f : DmaCh → DmaCh)
    (h : (f (s.dmaCh n)).queue.length ≤ max (s.dmaCh n).queue.length 8) (hP : P s) : P (s.onDmaCh n f) := by
  refine kDma _ _ (fun k => ?_) hP
  rw [tget_tset]
  split
  · subst_vars
    exact h
  · exact Nat.le_max_left _ _

theorem onDmaCh_same {P : State → Prop} (kDma : KDma P) {s : State} {n : Nat} {f : DmaCh → DmaCh}
    (h : ∀ d, (f d).queue.length ≤ d.queue.length) (hP : P s) : P (s.onDmaCh n f) :=
  State.onDmaCh_keeps kDma s n f (Nat.le_trans (h _) (Nat.le_max_left _ _)) hP

theorem foldl_keeps {P : State → Prop} {α : Type} (f : State → α → State) (l : List α) (s : State)
    (h : ∀ s, ∀ x ∈ l, P s → P (f s x)) (hP : P s) : P (l.foldl f s) := by
  induction l generalizing s with
  | nil => exact hP
  | cons x r ih => exact ih _ (fun s y hy => h s y (List.mem_cons_of_mem _ hy)) (h s x List.mem_cons_self hP)

theorem times_keeps {P : State → Prop} (f : State → State) (n : Nat) (s : State) (h : ∀ s, P s → P (f s)) (hP : P s) :
    P (times f n s) := by
  induction n generalizing s with
  | zero => exact hP
  | succ n ih => exact ih _ (h s hP)

theorem foldl3_keeps {P : State → Prop} {α β γ : Type} (f : β × γ × State → α → β × γ × State) (l : List α)
    (x : β × γ × State) (h : ∀ x, ∀ y ∈ l, P x.2.2 → P (f x y).2.2) (hP : P x.2.2) : P (l.foldl f x).2.2 := by
  induction l generalizing x with
  | nil => exact hP
  | cons y r ih => exact ih _ (fun x z hz => h x z (List.mem_cons_of_mem _ hz)) (h x y List.mem_cons_self hP)

theorem foldl2_keeps {P : State → Prop} {α β : Type} (f : β × State → α → β × State) (l : List α) (x : β × State)
    (h : ∀ x, ∀ y ∈ l, P x.2 → P (f x y).2) (hP : P x.2) : P (l.foldl f x).2 := by
  induction l generalizing x with
  | nil => exact hP
  | cons y r ih => exact ih _ (fun x z hz => h x z (List.mem_cons_of_mem _ hz)) (h x y List.mem_cons_self hP)

theorem each_keeps {P : State → Prop} {α : Type} (s : State) (l : List α) (f : State → α → State)
    (h : ∀ s, ∀ x ∈ l, P s → P (f s x)) (hP : P s) : P (s.each l f) := foldl_keeps f l s h hP

theorem when_keeps {P : State → Prop} (s : State) (b : Bool) (f : State → State)
    (h : P s → P (f s)) (hP : P s) : P (s.when b f) := by
  unfold State.when
  split
  · exact h hP
  · exact hP

theorem onSeq_keeps {P : State → Prop} (kMcs : KMcs P) (s : State) (n : Nat) (f : Seq → Seq) (hP : P s) :
    P (s.onSeq n f) := kMcs _ _ hP

end Sys2Proof.Machine
end

