-- ==== Sys2Proof/Laws/KeepsOps.lean ====
section
/-!
SUPPORT. What the operations of Machine/Ops.lean can do: each one keeps every property of a state that its own primitive
updates keep. The hypotheses of a lemma name every unit the operation can reach.
-/
namespace Sys2Proof.Machine

theorem State.setb_keeps {P : State → Prop} (kWr : KWr P) (s : State) (F : Fld) (hP : P s) (hA : (F.acc == Access.lock) = false) :
 P (State.setb s F) := by
  unfold State.setb
  repeat' first
    | with_reducible assumption
    | exact rfl
    | exact fun _ => ⟨rfl, rfl, rfl⟩
    | with_reducible apply kWr
    | dsimp only
    | split
    | intro _

theorem State.bump_keeps {P : State → Prop} (kWr : KWr P) (s : State) (F : Fld) (n : Nat) (hP : P s) (hA : (F.acc == Access.lock) = false) :
 P (State.bump s F n) := by
  unfold State.bump
  repeat' first
    | with_reducible assumption
    | exact rfl
    | exact fun _ => ⟨rfl, rfl, rfl⟩
    | with_reducible apply kWr
    | dsimp only
    | split
    | intro _

theorem State.wrBit_keeps {P : State → Prop} (kWr : KWr P) (s : State) (F : Fld) (i : Nat) (b : Bool) (hP : P s) (hA : (F.acc == Access.lock) = false) :
 P (State.wrBit s F i b) := by
  unfold State.wrBit
  repeat' first
    | with_reducible assumption
    | exact rfl
    | exact fun _ => ⟨rfl, rfl, rfl⟩
    | with_reducible apply kWr
    | dsimp only
    | split
    | intro _

theorem State.levelEvent_keeps {P : State → Prop} (kWr : KWr P) (s : State) (level hit : Fld) (depth was now : Nat) (hP : P s) (hA : (hit.acc == Access.lock) = false) :
 P (State.levelEvent s level hit depth was now) := by
  unfold State.levelEvent
  repeat' first
    | with_reducible assumption
    | exact rfl
    | exact fun _ => ⟨rfl, rfl, rfl⟩
    | with_reducible apply State.setb_keeps kWr
    | with_reducible apply when_keeps
    | dsimp only
    | split
    | intro _

theorem State.errLost_keeps {P : State → Prop} (kWr : KWr P) (s : State) (hP : P s) :
 P (State.errLost s) := by
  unfold State.errLost
  repeat' first
    | with_reducible assumption
    | exact rfl
    | exact fun _ => ⟨rfl, rfl, rfl⟩
    | with_reducible apply State.setb_keeps kWr
    | with_reducible apply State.bump_keeps kWr
    | dsimp only
    | split
    | intro _

theorem State.raise_keeps {P : State → Prop} (kErr : KErr P) (kWr : KWr P) (s : State) (r : ErrRec) (hP : P s) :
 P (State.raise s r) := by
  unfold State.raise
  split
  · exact State.errLost_keeps kWr _ hP
  · refine kErr _ _ (.inr ⟨_, ?_, rfl⟩) hP
    rename_i h
    simpa using h

theorem State.err1_keeps {P : State → Prop} (kErr : KErr P) (kWr : KWr P) (s : State) (cls src code : Nat) (obj : Nat) (sub : Nat) (aux : Nat) (hP : P s) :
 P (State.err1 s cls src code obj sub aux) := by
  unfold State.err1
  repeat' first
    | with_reducible assumption
    | exact rfl
    | exact fun _ => ⟨rfl, rfl, rfl⟩
    | with_reducible apply State.raise_keeps kErr kWr
    | dsimp only
    | split
    | intro _

theorem State.post1_keeps {P : State → Prop} (kHly : KHly P) (s : State) (kind v : Nat) (hP : P s) :
 P (State.post1 s kind v) := by
  exact kHly s (fun h => { h with posts := h.posts ++ [(kind, v)] }) hP

theorem State.hCorrected_keeps {P : State → Prop} (kErr : KErr P) (kWr : KWr P) (s : State) (a : Nat) (gorse : Bool) (hP : P s) :
 P (State.hCorrected s a gorse) := by
  unfold State.hCorrected
  repeat' first
    | with_reducible assumption
    | exact rfl
    | exact fun _ => ⟨rfl, rfl, rfl⟩
    | with_reducible apply State.err1_keeps kErr kWr
    | with_reducible apply State.wrBit_keeps kWr
    | with_reducible apply kWr
    | with_reducible apply State.bump_keeps kWr
    | dsimp only
    | split
    | intro _

theorem State.hUnc_keeps {P : State → Prop} (kWr : KWr P) (s : State) (a : Nat) (gorse : Bool) (hP : P s) :
 P (State.hUnc s a gorse) := by
  unfold State.hUnc
  repeat' first
    | with_reducible assumption
    | exact rfl
    | exact fun _ => ⟨rfl, rfl, rfl⟩
    | with_reducible apply State.setb_keeps kWr
    | with_reducible apply kWr
    | with_reducible apply State.bump_keeps kWr
    | dsimp only
    | split
    | intro _

theorem State.hRead_keeps {P : State → Prop} (kErr : KErr P) (kWr : KWr P) (kDrawn : KDrawn P) (s : State) (a n : Nat) (hP : P s) :
 P (State.hRead s a n).2 := by
  unfold State.hRead
  split
  · exact State.err1_keeps kErr kWr _ _ _ _ _ _ _ hP
  · have h := each_keeps (P := P) (s.each ((s.hUnits a n).filter fun u => s.hChk u == .corrected)
      fun s u => s.hCorrected u false) ((s.hUnits a n).filter fun u => s.hChk u == .unc) (fun s u => s.hUnc u false)
      (fun s u _ h => State.hUnc_keeps kWr _ _ _ h)
      (each_keeps _ _ _ (fun s u _ h => State.hCorrected_keeps kErr kWr _ _ _ h) hP)
    dsimp only
    split
    · exact kDrawn _ _ h
    · exact h

theorem State.hRead_keeps' {P : State → Prop} (kErr : KErr P) (kWr : KWr P) (kDrawn : KDrawn P) {s : State} {a n : Nat} {x0 : HRead} {t : State}
    (hE : State.hRead s a n = (x0, t)) (hP : P s)  : P t := by
  have h := State.hRead_keeps kErr kWr kDrawn s a n hP
  rw [hE] at h
  exact h

theorem State.hSetMark_keeps {P : State → Prop} (kHdg : KHdg P) (s : State) (a : Nat) (m : Mark) (hP : P s) :
 P (State.hSetMark s a m) := by
  unfold State.hSetMark
  repeat' first
    | with_reducible assumption
    | exact rfl
    | exact fun _ => ⟨rfl, rfl, rfl⟩
    | with_reducible apply kHdg
    | dsimp only
    | split
    | intro _

theorem State.hValidate_keeps {P : State → Prop} (kHdg : KHdg P) (s : State) (a : Nat) (hP : P s) :
 P (State.hValidate s a) := by
  unfold State.hValidate
  repeat' first
    | with_reducible assumption
    | exact rfl
    | exact fun _ => ⟨rfl, rfl, rfl⟩
    | with_reducible apply each_keeps
    | with_reducible apply State.hSetMark_keeps kHdg
    | with_reducible apply kHdg
    | dsimp only
    | split
    | intro _

theorem State.hInject_keeps {P : State → Prop} (kHdg : KHdg P) (kWr : KWr P) (s : State) (w : Nat) (hP : P s) :
 P (State.hInject s w) := by
  unfold State.hInject
  repeat' first
    | with_reducible assumption
    | exact rfl
    | exact fun _ => ⟨rfl, rfl, rfl⟩
    | with_reducible apply State.setb_keeps kWr
    | with_reducible apply kWr
    | with_reducible apply State.hSetMark_keeps kHdg
    | dsimp only
    | split
    | intro _

theorem State.hWriteWord_keeps {P : State → Prop} (kErr : KErr P) (kHdg : KHdg P) (kPut : KPut P) (kWr : KWr P) (s : State) (w off : Nat) (d : List Byte) (hP : P s) :
 P (State.hWriteWord s w off d) := by
  unfold State.hWriteWord
  repeat' first
    | with_reducible assumption
    | exact rfl
    | exact fun _ => ⟨rfl, rfl, rfl⟩
    | with_reducible apply kPut
    | with_reducible apply each_keeps
    | with_reducible apply State.err1_keeps kErr kWr
    | with_reducible apply State.hValidate_keeps kHdg
    | with_reducible apply State.hSetMark_keeps kHdg
    | with_reducible apply State.hInject_keeps kHdg kWr
    | with_reducible apply State.bump_keeps kWr
    | with_reducible apply State.hCorrected_keeps kErr kWr
    | dsimp only
    | split
    | intro _

theorem State.hFillInject_keeps {P : State → Prop} (kHdg : KHdg P) (kWr : KWr P) (s : State) (a : Nat) (fresh : Bool) (hP : P s) :
 P (State.hFillInject s a fresh) := by
  unfold State.hFillInject
  repeat' first
    | with_reducible assumption
    | exact rfl
    | exact fun _ => ⟨rfl, rfl, rfl⟩
    | with_reducible apply when_keeps
    | with_reducible apply each_keeps
    | with_reducible apply State.hInject_keeps kHdg kWr
    | dsimp only
    | split
    | intro _

theorem State.hFresh_keeps {P : State → Prop} (kHdg : KHdg P) (s : State) (a n : Nat) (hP : P s) :
 P (State.hFresh s a n) := by
  unfold State.hFresh
  repeat' first
    | with_reducible assumption
    | exact rfl
    | exact fun _ => ⟨rfl, rfl, rfl⟩
    | with_reducible apply kHdg
    | dsimp only
    | split
    | intro _

theorem State.hWrite_keeps {P : State → Prop} (kErr : KErr P) (kHdg : KHdg P) (kPut : KPut P) (kWr : KWr P) (s : State) (a : Nat) (d : List Byte) (hP : P s) :
 P (State.hWrite s a d) := by
  unfold State.hWrite
  repeat' first
    | with_reducible assumption
    | exact rfl
    | exact fun _ => ⟨rfl, rfl, rfl⟩
    | with_reducible apply State.hFresh_keeps kHdg
    | with_reducible apply State.err1_keeps kErr kWr
    | with_reducible apply each_keeps
    | with_reducible apply State.hFillInject_keeps kHdg kWr
    | with_reducible apply State.hWriteWord_keeps kErr kHdg kPut kWr
    | dsimp only
    | split
    | intro _

theorem State.hZeroRegion_keeps {P : State → Prop} (kHdg : KHdg P) (kClear : KClear P) (kWr : KWr P) (s : State) (k : Nat) (hP : P s) :
 P (State.hZeroRegion s k) := by
  unfold State.hZeroRegion
  repeat' first
    | with_reducible assumption
    | exact rfl
    | exact fun _ => ⟨rfl, rfl, rfl⟩
    | with_reducible apply kClear
    | with_reducible apply when_keeps
    | with_reducible apply State.hInject_keeps kHdg kWr
    | dsimp only
    | split
    | intro _

theorem State.draw_keeps {P : State → Prop} (kDrawn : KDrawn P) (s : State) (hP : P s) :
 P (State.draw s).2 := by
  unfold State.draw
  repeat' first
    | with_reducible assumption
    | exact rfl
    | exact fun _ => ⟨rfl, rfl, rfl⟩
    | with_reducible apply kDrawn
    | dsimp only
    | split
    | intro _

theorem State.draw_keeps' {P : State → Prop} (kDrawn : KDrawn P) {s : State} {x0 : Nat} {t : State}
    (hE : State.draw s = (x0, t)) (hP : P s)  : P t := by
  have h := State.draw_keeps kDrawn s hP
  rw [hE] at h
  exact h

theorem State.spent_keeps {P : State → Prop} (kDrawn : KDrawn P) (s : State) (n : Nat) (l : List Byte) (hP : P s) :
 P (State.spent s n l) := by
  unfold State.spent
  split
  · exact kDrawn _ _ hP
  · exact hP

theorem State.deliver_keeps {P : State → Prop} (kDeliv : KDeliv P) (s : State) (port : Nat) (d : List Byte) (hP : P s) :
 P (State.deliver s port d) := by
  unfold State.deliver
  repeat' first
    | with_reducible assumption
    | exact rfl
    | exact fun _ => ⟨rfl, rfl, rfl⟩
    | with_reducible apply kDeliv
    | dsimp only
    | split
    | intro _

end Sys2Proof.Machine
end

