-- ==== Sys2Proof/Laws/KeepsPool.lean ====
section
/-!
SUPPORT. What the operations of Machine/Pool.lean can do: each one keeps every property of a state that its own primitive
updates keep. The hypotheses of a lemma name every unit the operation can reach.
-/
namespace Sys2Proof.Machine

theorem State.onBuf_keeps {P : State → Prop} (kCop : KCop P) (s : State) (i : Nat) (f : Buf → Buf) (hP : P s) :
 P (State.onBuf s i f) := by
  unfold State.onBuf
  repeat' first
    | with_reducible assumption
    | exact rfl
    | exact fun _ => ⟨rfl, rfl, rfl⟩
    | with_reducible apply kCop
    | dsimp only
    | split
    | intro _

theorem State.copLow_keeps {P : State → Prop} (kWr : KWr P) (was : State) (s : State) (hP : P was) (hP1 : P s) :
 P (State.copLow was s) := by
  unfold State.copLow
  repeat' first
    | with_reducible assumption
    | exact rfl
    | exact fun _ => ⟨rfl, rfl, rfl⟩
    | with_reducible apply State.setb_keeps kWr
    | with_reducible apply when_keeps
    | dsimp only
    | split
    | intro _

theorem State.copPush_keeps {P : State → Prop} (kErr : KErr P) (kHdg : KHdg P) (kPut : KPut P) (kCop : KCop P) (kWr : KWr P) (s : State) (i k : Nat) (hP : P s) :
 P (State.copPush s i k) := by
  unfold State.copPush
  repeat' first
    | with_reducible assumption
    | exact rfl
    | exact fun _ => ⟨rfl, rfl, rfl⟩
    | with_reducible apply kCop
    | with_reducible apply State.hWrite_keeps kErr kHdg kPut kWr
    | dsimp only
    | split
    | intro _

theorem State.copReturn_keeps {P : State → Prop} (kErr : KErr P) (kHdg : KHdg P) (kPut : KPut P) (kCop : KCop P) (kWr : KWr P) (s : State) (i : Nat) (hP : P s) :
 P (State.copReturn s i) := by
  unfold State.copReturn
  repeat' first
    | with_reducible assumption
    | exact rfl
    | exact fun _ => ⟨rfl, rfl, rfl⟩
    | with_reducible apply State.onBuf_keeps kCop
    | with_reducible apply kCop
    | with_reducible apply State.bump_keeps kWr
    | with_reducible apply State.copPush_keeps kErr kHdg kPut kCop kWr
    | dsimp only
    | split
    | intro _

theorem State.dropName_keeps {P : State → Prop} (kErr : KErr P) (kHdg : KHdg P) (kPut : KPut P) (kCop : KCop P) (kWr : KWr P) (s : State) (i r : Nat) (hP : P s) :
 P (State.dropName s i r) := by
  unfold State.dropName
  repeat' first
    | with_reducible assumption
    | exact rfl
    | exact fun _ => ⟨rfl, rfl, rfl⟩
    | with_reducible apply State.onBuf_keeps kCop
    | with_reducible apply State.copReturn_keeps kErr kHdg kPut kCop kWr
    | dsimp only
    | split
    | intro _

theorem State.addName_keeps {P : State → Prop} (kCop : KCop P) (s : State) (i r : Nat) (hP : P s) :
 P (State.addName s i r) := by
  unfold State.addName
  repeat' first
    | with_reducible assumption
    | exact rfl
    | exact fun _ => ⟨rfl, rfl, rfl⟩
    | with_reducible apply State.onBuf_keeps kCop
    | dsimp only
    | split
    | intro _

theorem State.addHold_keeps {P : State → Prop} (kCop : KCop P) (s : State) (i : Nat) (hP : P s) :
 P (State.addHold s i) := by
  unfold State.addHold
  repeat' first
    | with_reducible assumption
    | exact rfl
    | exact fun _ => ⟨rfl, rfl, rfl⟩
    | with_reducible apply State.onBuf_keeps kCop
    | dsimp only
    | split
    | intro _

theorem State.dropHold_keeps {P : State → Prop} (kErr : KErr P) (kHdg : KHdg P) (kPut : KPut P) (kCop : KCop P) (kWr : KWr P) (s : State) (i : Nat) (hP : P s) :
 P (State.dropHold s i) := by
  unfold State.dropHold
  repeat' first
    | with_reducible assumption
    | exact rfl
    | exact fun _ => ⟨rfl, rfl, rfl⟩
    | with_reducible apply State.onBuf_keeps kCop
    | with_reducible apply State.copReturn_keeps kErr kHdg kPut kCop kWr
    | dsimp only
    | split
    | intro _

theorem State.freeFault_keeps {P : State → Prop} (kErr : KErr P) (kWr : KWr P) (s : State) (h r st : Nat) (hP : P s) :
 P (State.freeFault s h r st) := by
  unfold State.freeFault
  repeat' first
    | with_reducible assumption
    | exact rfl
    | exact fun _ => ⟨rfl, rfl, rfl⟩
    | with_reducible apply State.setb_keeps kWr
    | with_reducible apply State.raise_keeps kErr kWr
    | with_reducible apply kWr
    | with_reducible apply State.bump_keeps kWr
    | dsimp only
    | split
    | intro _

theorem State.freeOne_keeps {P : State → Prop} (kErr : KErr P) (kHdg : KHdg P) (kPut : KPut P) (kCop : KCop P) (kWr : KWr P) (s : State) (h r : Nat) (hP : P s) :
 P (State.freeOne s h r).2 := by
  unfold State.freeOne
  repeat' first
    | with_reducible assumption
    | exact rfl
    | exact fun _ => ⟨rfl, rfl, rfl⟩
    | with_reducible apply State.freeFault_keeps kErr kWr
    | with_reducible apply State.dropName_keeps kErr kHdg kPut kCop kWr
    | dsimp only
    | split
    | intro _

theorem State.freeOne_keeps' {P : State → Prop} (kErr : KErr P) (kHdg : KHdg P) (kPut : KPut P) (kCop : KCop P) (kWr : KWr P) {s : State} {h r : Nat} {x0 : Nat} {t : State}
    (hE : State.freeOne s h r = (x0, t)) (hP : P s)  : P t := by
  have h := State.freeOne_keeps kErr kHdg kPut kCop kWr s h r hP
  rw [hE] at h
  exact h

theorem State.copMark_keeps {P : State → Prop} (kCop : KCop P) (s : State) (hP : P s) :
 P (State.copMark s) := by
  unfold State.copMark
  repeat' first
    | with_reducible assumption
    | exact rfl
    | exact fun _ => ⟨rfl, rfl, rfl⟩
    | with_reducible apply kCop
    | with_reducible apply foldl_keeps
    | with_reducible apply foldl2_keeps
    | with_reducible apply foldl3_keeps
    | dsimp only
    | split
    | intro _

theorem State.copWant_keeps {P : State → Prop} (kCop : KCop P) (s : State) (req : Nat) (use : For) (n : Nat) (hP : P s) :
 P (State.copWant s req use n) := by
  unfold State.copWant
  repeat' first
    | with_reducible assumption
    | exact rfl
    | exact fun _ => ⟨rfl, rfl, rfl⟩
    | with_reducible apply State.copMark_keeps kCop
    | with_reducible apply kCop
    | dsimp only
    | split
    | intro _

theorem State.copCancel_keeps {P : State → Prop} (kCop : KCop P) (s : State) (f : For → Bool) (hP : P s) :
 P (State.copCancel s f) := by
  unfold State.copCancel
  repeat' first
    | with_reducible assumption
    | exact rfl
    | exact fun _ => ⟨rfl, rfl, rfl⟩
    | with_reducible apply kCop
    | dsimp only
    | split
    | intro _

theorem State.readLink_keeps {P : State → Prop} (kErr : KErr P) (kWr : KWr P) (kDrawn : KDrawn P) (s : State) (i k : Nat) (hP : P s) :
 P (State.readLink s i k).2 := by
  unfold State.readLink
  repeat' first
    | with_reducible assumption
    | exact rfl
    | exact fun _ => ⟨rfl, rfl, rfl⟩
    | with_reducible apply State.hRead_keeps kErr kWr kDrawn
    | with_reducible refine State.hRead_keeps' kErr kWr kDrawn ‹_ = (_, _)› ?_
    | dsimp only
    | split
    | intro _

theorem State.readLink_keeps' {P : State → Prop} (kErr : KErr P) (kWr : KWr P) (kDrawn : KDrawn P) {s : State} {i k : Nat} {x0 : Option (Option Nat)} {t : State}
    (hE : State.readLink s i k = (x0, t)) (hP : P s)  : P t := by
  have h := State.readLink_keeps kErr kWr kDrawn s i k hP
  rw [hE] at h
  exact h

theorem State.linkFault_keeps {P : State → Prop} (kErr : KErr P) (kCop : KCop P) (kWr : KWr P) (s : State) (i k : Nat) (hP : P s) :
 P (State.linkFault s i k) := by
  unfold State.linkFault
  repeat' first
    | with_reducible assumption
    | exact rfl
    | exact fun _ => ⟨rfl, rfl, rfl⟩
    | with_reducible apply State.wrBit_keeps kWr
    | with_reducible apply kWr
    | with_reducible apply State.err1_keeps kErr kWr
    | with_reducible apply kCop
    | with_reducible apply State.bump_keeps kWr
    | with_reducible apply State.setb_keeps kWr
    | dsimp only
    | split
    | intro _

theorem State.copPop_keeps {P : State → Prop} (kErr : KErr P) (kCop : KCop P) (kWr : KWr P) (kDrawn : KDrawn P) (s : State) (k : Nat) (hP : P s) :
 P (State.copPop s k) := by
  unfold State.copPop
  repeat' first
    | with_reducible assumption
    | exact rfl
    | exact fun _ => ⟨rfl, rfl, rfl⟩
    | with_reducible apply State.linkFault_keeps kErr kCop kWr
    | with_reducible apply kCop
    | with_reducible apply State.readLink_keeps kErr kWr kDrawn
    | with_reducible refine State.readLink_keeps' kErr kWr kDrawn ‹_ = (_, _)› ?_
    | dsimp only
    | split
    | intro _

theorem State.copEmpty_keeps {P : State → Prop} (kCop : KCop P) (kWr : KWr P) (s : State) (hP : P s) :
 P (State.copEmpty s) := by
  unfold State.copEmpty
  repeat' first
    | with_reducible assumption
    | exact rfl
    | exact fun _ => ⟨rfl, rfl, rfl⟩
    | with_reducible apply kCop
    | with_reducible apply kWr
    | dsimp only
    | split
    | intro _

theorem State.copScan_keeps {P : State → Prop} (kErr : KErr P) (kHdg : KHdg P) (kPut : KPut P) (kCop : KCop P) (kWr : KWr P) (s : State) (hP : P s) :
 P (State.copScan s) := by
  unfold State.copScan
  repeat' first
    | with_reducible assumption
    | exact rfl
    | exact fun _ => ⟨rfl, rfl, rfl⟩
    | with_reducible apply State.copPush_keeps kErr kHdg kPut kCop kWr
    | with_reducible apply each_keeps
    | dsimp only
    | split
    | intro _

theorem State.copGive_keeps {P : State → Prop} (kForget : KForget P) (kCop : KCop P) (kWr : KWr P) (s : State) (i req : Nat) (rsv : Bool) (hP : P s) :
 P (State.copGive s i req rsv) := by
  unfold State.copGive
  repeat' first
    | with_reducible assumption
    | exact rfl
    | exact fun _ => ⟨rfl, rfl, rfl⟩
    | with_reducible apply kForget
    | with_reducible apply State.onBuf_keeps kCop
    | with_reducible apply State.bump_keeps kWr
    | dsimp only
    | split
    | intro _

theorem State.setSlot_keeps {P : State → Prop} (kCop : KCop P) (s : State) (i : Nat) (m : Meta) (v : Bool) (hP : P s) :
 P (State.setSlot s i m v) := by
  unfold State.setSlot
  repeat' first
    | with_reducible assumption
    | exact rfl
    | exact fun _ => ⟨rfl, rfl, rfl⟩
    | with_reducible apply State.onBuf_keeps kCop
    | dsimp only
    | split
    | intro _

end Sys2Proof.Machine
end

