-- ==== Sys2Proof/Laws/KeepsQueues.lean ====
section
/-!
SUPPORT. What the operations of Machine/Queues.lean can do: each one keeps every property of a state that its own primitive
updates keep. The hypotheses of a lemma name every unit the operation can reach.
-/
namespace Sys2Proof.Machine

theorem State.gate_keeps {P : State → Prop} (kPwr : KPwr P) (kResp : KResp P) (s : State) (m : Master) (addr : Nat) (v : Option Nat) (eff : State → State) (width : Nat) (hP : P s) (hF : ∀ s, P s → P (eff s)) :
 P (State.gate s m addr v eff width) := by
  unfold State.gate
  split
  · exact kResp _ _ hP
  · exact kResp _ _ hP
  · exact kResp _ _ hP
  · exact kPwr _ _ hP
  · exact hF _ (kResp _ _ hP)

theorem State.access_keeps {P : State → Prop} (kPwr : KPwr P) (kResp : KResp P) (s : State) (m : Master) (addr : Nat) (v : Option Nat) (eff : State → State) (width : Nat) (hP : P s) (hF : ∀ s, P s → P (eff s)) :
 P (State.access s m addr v eff width) := by
  unfold State.access
  split
  · exact kResp _ _ hP
  · exact State.gate_keeps kPwr kResp _ _ _ _ _ _ hP hF

theorem State.accessWake_keeps {P : State → Prop} (kPwr : KPwr P) (kResp : KResp P) (s : State) (m : Master) (addr : Nat) (v : Option Nat) (eff : State → State) (hP : P s) (hF : ∀ s, P s → P (eff s)) :
 P (State.accessWake s m addr v eff) := by
  unfold State.accessWake
  split
  · exact kPwr _ _ (hF _ (kResp _ _ hP))
  · exact kPwr _ _ (hF _ (kResp _ _ hP))
  · exact State.gate_keeps kPwr kResp _ _ _ _ _ _ hP hF

theorem State.onCmd_keeps {P : State → Prop} (kQue : KQue P) (s : State) (tag : Nat) (f : Cmd → Cmd) (hP : P s) :
 P (State.onCmd s tag f) := by
  unfold State.onCmd
  repeat' first
    | with_reducible assumption
    | exact rfl
    | exact fun _ => ⟨rfl, rfl, rfl⟩
    | exact fun _ => rfl
    | with_reducible apply KQue.same kQue
    | dsimp only
    | split
    | intro _

theorem State.onFrame_keeps {P : State → Prop} (kQue : KQue P) (s : State) (tag pos : Nat) (f : Frame → Frame) (hP : P s) :
 P (State.onFrame s tag pos f) := by
  unfold State.onFrame
  repeat' first
    | with_reducible assumption
    | exact rfl
    | exact fun _ => ⟨rfl, rfl, rfl⟩
    | with_reducible apply State.onCmd_keeps kQue
    | dsimp only
    | split
    | intro _

theorem State.countReset_keeps {P : State → Prop} (kSys : KSys P) (kWr : KWr P) (s : State) (st : Nat) (hP : P s) :
 P (State.countReset s st) := by
  unfold State.countReset
  repeat' first
    | with_reducible assumption
    | exact rfl
    | exact fun _ => ⟨rfl, rfl, rfl⟩
    | with_reducible apply kSys
    | with_reducible apply State.bump_keeps kWr
    | dsimp only
    | split
    | intro _

theorem State.request_keeps {P : State → Prop} (kQue : KQue P) (kSys : KSys P) (kWr : KWr P) (s : State) (r : Rec) (hP : P s) :
 P (State.request s r) := by
  unfold State.request
  repeat' first
    | with_reducible assumption
    | exact rfl
    | exact fun _ => ⟨rfl, rfl, rfl⟩
    | exact fun _ => rfl
    | with_reducible apply State.countReset_keeps kSys kWr
    | with_reducible apply KQue.same kQue
    | dsimp only
    | split
    | intro _

theorem State.finish_keeps {P : State → Prop} (kQue : KQue P) (kSys : KSys P) (kWr : KWr P) (s : State) (tag st detail : Nat) (hP : P s) :
 P (State.finish s tag st detail) := by
  unfold State.finish
  repeat' first
    | with_reducible assumption
    | exact rfl
    | exact fun _ => ⟨rfl, rfl, rfl⟩
    | with_reducible apply State.request_keeps kQue kSys kWr
    | with_reducible apply State.onCmd_keeps kQue
    | dsimp only
    | split
    | intro _

theorem State.removeCmd_keeps {P : State → Prop} (kQue : KQue P) (kSys : KSys P) (kWr : KWr P) (s : State) (tag st count : Nat) (hP : P s) :
 P (State.removeCmd s tag st count) := by
  unfold State.removeCmd
  repeat' first
    | with_reducible assumption
    | exact rfl
    | exact fun _ => ⟨rfl, rfl, rfl⟩
    | exact fun _ => rfl
    | with_reducible apply State.request_keeps kQue kSys kWr
    | with_reducible apply KQue.same kQue
    | with_reducible apply State.onCmd_keeps kQue
    | dsimp only
    | split
    | intro _

theorem State.finishInternal_keeps {P : State → Prop} (kQue : KQue P) (kSys : KSys P) (kWr : KWr P) (s : State) (tag detail : Nat) (hP : P s) :
 P (State.finishInternal s tag detail) := by
  unfold State.finishInternal
  repeat' first
    | with_reducible assumption
    | exact rfl
    | exact fun _ => ⟨rfl, rfl, rfl⟩
    | with_reducible apply State.finish_keeps kQue kSys kWr
    | dsimp only
    | split
    | intro _

theorem State.running_keeps {P : State → Prop} (kQue : KQue P) (s : State) (tag : Nat) (hP : P s) :
 P (State.running s tag) := by
  unfold State.running
  repeat' first
    | with_reducible assumption
    | exact rfl
    | exact fun _ => ⟨rfl, rfl, rfl⟩
    | with_reducible apply State.onCmd_keeps kQue
    | dsimp only
    | split
    | intro _

theorem State.chargePj_keeps {P : State → Prop} (kQue : KQue P) (s : State) (tag n : Nat) (hP : P s) :
 P (State.chargePj s tag n) := by
  unfold State.chargePj
  repeat' first
    | with_reducible assumption
    | exact rfl
    | exact fun _ => ⟨rfl, rfl, rfl⟩
    | with_reducible apply State.onCmd_keeps kQue
    | dsimp only
    | split
    | intro _

theorem State.takeInbox_keeps {P : State → Prop} (kQue : KQue P) (kHly : KHly P) (s : State) (tag : Nat) (hP : P s) :
 P (State.takeInbox s tag) := by
  unfold State.takeInbox
  repeat' first
    | with_reducible assumption
    | exact rfl
    | exact fun _ => ⟨rfl, rfl, rfl⟩
    | exact fun _ => rfl
    | with_reducible apply KQue.same kQue
    | with_reducible apply kHly
    | dsimp only
    | split
    | intro _

theorem State.finishSlow_keeps {P : State → Prop} (kQue : KQue P) (kHly : KHly P) (kSys : KSys P) (kWr : KWr P) (s : State) (tag st detail : Nat) (hP : P s) :
 P (State.finishSlow s tag st detail) := by
  unfold State.finishSlow
  repeat' first
    | with_reducible assumption
    | exact rfl
    | exact fun _ => ⟨rfl, rfl, rfl⟩
    | with_reducible apply kHly
    | with_reducible apply State.finish_keeps kQue kSys kWr
    | dsimp only
    | split
    | intro _

theorem State.inboxHalt_keeps {P : State → Prop} (kQue : KQue P) (kSys : KSys P) (kWr : KWr P) (s : State) (hP : P s) :
 P (State.inboxHalt s) := by
  unfold State.inboxHalt
  repeat' first
    | with_reducible assumption
    | exact rfl
    | exact fun _ => ⟨rfl, rfl, rfl⟩
    | exact fun _ => rfl
    | with_reducible apply each_keeps
    | with_reducible apply KQue.same kQue
    | with_reducible apply State.finish_keeps kQue kSys kWr
    | dsimp only
    | split
    | intro _

theorem State.onPair_keeps {P : State → Prop} (kQue : KQue P) (s : State) (k : Nat) (f : QPair → QPair) (hP : P s) :
 P (State.onPair s k f) := by
  unfold State.onPair
  repeat' first
    | with_reducible assumption
    | exact rfl
    | exact fun _ => ⟨rfl, rfl, rfl⟩
    | exact fun _ => rfl
    | with_reducible apply KQue.same kQue
    | dsimp only
    | split
    | intro _

theorem State.pairSettle_keeps {P : State → Prop} (kQue : KQue P) (s : State) (k : Nat) (hP : P s) :
 P (State.pairSettle s k) := by
  unfold State.pairSettle
  repeat' first
    | with_reducible assumption
    | exact rfl
    | exact fun _ => ⟨rfl, rfl, rfl⟩
    | with_reducible apply State.onPair_keeps kQue
    | dsimp only
    | split
    | intro _

theorem State.dbReject_keeps {P : State → Prop} (kErr : KErr P) (kWr : KWr P) (s : State) (k : Nat) (hP : P s) :
 P (State.dbReject s k) := by
  unfold State.dbReject
  repeat' first
    | with_reducible assumption
    | exact rfl
    | exact fun _ => ⟨rfl, rfl, rfl⟩
    | with_reducible apply State.err1_keeps kErr kWr
    | with_reducible apply State.setb_keeps kWr
    | dsimp only
    | split
    | intro _

theorem State.doorbell_keeps {P : State → Prop} (kErr : KErr P) (kQue : KQue P) (kWr : KWr P) (s : State) (m : Master) (k v : Nat) (hP : P s) :
 P (State.doorbell s m k v) := by
  unfold State.doorbell
  repeat' first
    | with_reducible assumption
    | exact rfl
    | exact fun _ => ⟨rfl, rfl, rfl⟩
    | with_reducible apply State.onPair_keeps kQue
    | with_reducible apply State.err1_keeps kErr kWr
    | with_reducible apply State.dbReject_keeps kErr kWr
    | dsimp only
    | split
    | intro _

theorem State.queSettings_keeps {P : State → Prop} (kWr : KWr P) (s : State) (k v : Nat) (hP : P s) :
 P (State.queSettings s k v) := by
  unfold State.queSettings
  repeat' first
    | with_reducible assumption
    | exact rfl
    | exact fun _ => ⟨rfl, rfl, rfl⟩
    | with_reducible apply kWr
    | dsimp only
    | split
    | intro _

theorem State.queLevels_keeps {P : State → Prop} (kWr : KWr P) (s : State) (k v : Nat) (hP : P s) :
 P (State.queLevels s k v) := by
  unfold State.queLevels
  repeat' first
    | with_reducible assumption
    | exact rfl
    | exact fun _ => ⟨rfl, rfl, rfl⟩
    | with_reducible apply when_keeps
    | with_reducible apply kWr
    | dsimp only
    | split
    | intro _

theorem State.queCfg_keeps {P : State → Prop} (kQue : KQue P) (kWr : KWr P) (s : State) (k v : Nat) (hP : P s) :
 P (State.queCfg s k v) := by
  unfold State.queCfg
  repeat' first
    | with_reducible assumption
    | exact rfl
    | exact fun _ => ⟨rfl, rfl, rfl⟩
    | with_reducible apply State.queSettings_keeps kWr
    | with_reducible apply State.setb_keeps kWr
    | with_reducible apply State.queLevels_keeps kWr
    | with_reducible apply State.onPair_keeps kQue
    | with_reducible apply State.pairSettle_keeps kQue
    | with_reducible apply kWr
    | dsimp only
    | split
    | intro _

theorem State.rejectPacket_keeps {P : State → Prop} (kQue : KQue P) (kSys : KSys P) (kWr : KWr P) (s : State) (p : Pkt) (k sqHead fetched st detail : Nat) (hP : P s) :
 P (State.rejectPacket s p k sqHead fetched st detail) := by
  unfold State.rejectPacket
  repeat' first
    | with_reducible assumption
    | exact rfl
    | exact fun _ => ⟨rfl, rfl, rfl⟩
    | with_reducible apply State.request_keeps kQue kSys kWr
    | dsimp only
    | split
    | intro _

theorem State.enterNow_keeps {P : State → Prop} (kQue : KQue P) (kSys : KSys P) (kWr : KWr P) (s : State) (p : Pkt) (k sqHead fetched : Nat) (hP : P s) :
 P (State.enterNow s p k sqHead fetched) := by
  unfold State.enterNow
  repeat' first
    | with_reducible assumption
    | exact rfl
    | exact fun _ => ⟨rfl, rfl, rfl⟩
    | exact fun _ => rfl
    | with_reducible apply State.levelEvent_keeps kWr
    | with_reducible apply KQue.same kQue
    | with_reducible apply State.inboxHalt_keeps kQue kSys kWr
    | with_reducible apply when_keeps
    | dsimp only
    | split
    | intro _

theorem State.enter_keeps {P : State → Prop} (kQue : KQue P) (kSys : KSys P) (kWr : KWr P) (s : State) (p : Pkt) (k sqHead fetched : Nat) (hP : P s) :
 P (State.enter s p k sqHead fetched) := by
  unfold State.enter
  repeat' first
    | with_reducible assumption
    | exact rfl
    | exact fun _ => ⟨rfl, rfl, rfl⟩
    | exact fun _ => rfl
    | with_reducible apply KQue.same kQue
    | with_reducible apply State.enterNow_keeps kQue kSys kWr
    | with_reducible apply State.removeCmd_keeps kQue kSys kWr
    | dsimp only
    | split
    | intro _

theorem State.checkPacket_keeps {P : State → Prop} (kErr : KErr P) (kQue : KQue P) (kSys : KSys P) (kWr : KWr P) (s : State) (k sqHead fetched obj : Nat) (d : List Byte) (bad : Bool) (hP : P s) :
 P (State.checkPacket s k sqHead fetched obj d bad) := by
  unfold State.checkPacket
  repeat' first
    | with_reducible assumption
    | exact rfl
    | exact fun _ => ⟨rfl, rfl, rfl⟩
    | with_reducible apply State.enter_keeps kQue kSys kWr
    | with_reducible apply State.err1_keeps kErr kWr
    | with_reducible apply State.rejectPacket_keeps kQue kSys kWr
    | dsimp only
    | split
    | intro _

theorem State.consumeSlot_keeps {P : State → Prop} (kQue : KQue P) (s : State) (k : Nat) (hP : P s) :
 P (State.consumeSlot s k) := by
  unfold State.consumeSlot
  repeat' first
    | with_reducible assumption
    | exact rfl
    | exact fun _ => ⟨rfl, rfl, rfl⟩
    | exact fun _ => rfl
    | with_reducible apply State.onPair_keeps kQue
    | with_reducible apply KQue.same kQue
    | dsimp only
    | split
    | intro _

theorem State.fetchFrom_keeps {P : State → Prop} (kErr : KErr P) (kQue : KQue P) (kSys : KSys P) (kWr : KWr P) (kDrawn : KDrawn P) (s : State) (k : Nat) (hP : P s) :
 P (State.fetchFrom s k) := by
  unfold State.fetchFrom
  repeat' first
    | with_reducible assumption
    | exact rfl
    | exact fun _ => ⟨rfl, rfl, rfl⟩
    | exact fun _ => rfl
    | with_reducible apply KQue.same kQue
    | with_reducible apply State.consumeSlot_keeps kQue
    | with_reducible apply State.checkPacket_keeps kErr kQue kSys kWr
    | with_reducible apply State.hRead_keeps kErr kWr kDrawn
    | with_reducible refine State.hRead_keeps' kErr kWr kDrawn ‹_ = (_, _)› ?_
    | dsimp only
    | split
    | intro _

theorem State.freeTag_keeps {P : State → Prop} (kQue : KQue P) (kMap : KMap P) (s : State) (r : Rec) (hP : P s) :
 P (State.freeTag s r) := by
  unfold State.freeTag
  repeat' first
    | with_reducible assumption
    | exact rfl
    | exact fun _ => ⟨rfl, rfl, rfl⟩
    | exact fun _ => rfl
    | with_reducible apply kMap
    | with_reducible apply KQue.same kQue
    | dsimp only
    | split
    | intro _

theorem State.writeCq_keeps {P : State → Prop} (kErr : KErr P) (kQue : KQue P) (kHdg : KHdg P) (kPut : KPut P) (kMap : KMap P) (kWr : KWr P) (kDram : KDram P) (s : State) (r : Rec) (hP : P s) :
 P (State.writeCq s r) := by
  unfold State.writeCq
  repeat' first
    | with_reducible assumption
    | exact rfl
    | exact fun _ => ⟨rfl, rfl, rfl⟩
    | with_reducible apply State.levelEvent_keeps kWr
    | with_reducible apply State.onPair_keeps kQue
    | with_reducible apply State.freeTag_keeps kQue kMap
    | with_reducible apply State.hWrite_keeps kErr kHdg kPut kWr
    | with_reducible apply kDram
    | with_reducible apply State.pairSettle_keeps kQue
    | dsimp only
    | split
    | intro _

theorem State.dropRec_keeps {P : State → Prop} (kQue : KQue P) (kMap : KMap P) (s : State) (port : Nat) (r : Rec) (hP : P s) :
 P (State.dropRec s port r) := by
  unfold State.dropRec
  repeat' first
    | with_reducible assumption
    | exact rfl
    | exact fun _ => ⟨rfl, rfl, rfl⟩
    | exact fun _ => rfl
    | with_reducible apply State.onPair_keeps kQue
    | with_reducible apply KQue.same kQue
    | with_reducible apply State.freeTag_keeps kQue kMap
    | with_reducible apply State.pairSettle_keeps kQue
    | dsimp only
    | split
    | intro _

theorem State.park_keeps {P : State → Prop} (kQue : KQue P) (kMap : KMap P) (s : State) (port : Nat) (r : Rec) (hP : P s) :
 P (State.park s port r) := by
  unfold State.park
  repeat' first
    | with_reducible assumption
    | exact rfl
    | exact fun _ => ⟨rfl, rfl, rfl⟩
    | exact fun _ => rfl
    | with_reducible apply KQue.same kQue
    | with_reducible apply State.dropRec_keeps kQue kMap
    | with_reducible apply State.onCmd_keeps kQue
    | with_reducible apply when_keeps
    | dsimp only
    | split
    | intro _

theorem execQueDoorbellSqtail_keeps {P : State → Prop} (kErr : KErr P) (kQue : KQue P) (kPwr : KPwr P) (kWr : KWr P) (kResp : KResp P) (m : Master) (k : Fin 64) (v : W32) (s : State) (hP : P s) :
    Out.All P (execQueDoorbellSqtail m k v s) := by
  unfold execQueDoorbellSqtail
  repeat' first
    | with_reducible apply Out.all_next
    | exact trivial
    | with_reducible assumption
    | exact rfl
    | exact fun _ => ⟨rfl, rfl, rfl⟩
    | with_reducible apply State.accessWake_keeps kPwr kResp
    | with_reducible apply State.doorbell_keeps kErr kQue kWr
    | dsimp only
    | split
    | intro _

theorem execQueDoorbellCqhead_keeps {P : State → Prop} (kErr : KErr P) (kQue : KQue P) (kPwr : KPwr P) (kWr : KWr P) (kResp : KResp P) (m : Master) (k : Fin 64) (v : W32) (s : State) (hP : P s) :
    Out.All P (execQueDoorbellCqhead m k v s) := by
  unfold execQueDoorbellCqhead
  repeat' first
    | with_reducible apply Out.all_next
    | exact trivial
    | with_reducible assumption
    | exact rfl
    | exact fun _ => ⟨rfl, rfl, rfl⟩
    | with_reducible apply State.accessWake_keeps kPwr kResp
    | with_reducible apply State.doorbell_keeps kErr kQue kWr
    | dsimp only
    | split
    | intro _

theorem execQueEnable_keeps {P : State → Prop} (kQue : KQue P) (kPwr : KPwr P) (kWr : KWr P) (kResp : KResp P) (m : Master) (k : Fin 64) (v : W32) (s : State) (hP : P s) :
    Out.All P (execQueEnable m k v s) := by
  unfold execQueEnable
  repeat' first
    | with_reducible apply Out.all_next
    | exact trivial
    | with_reducible assumption
    | exact rfl
    | exact fun _ => ⟨rfl, rfl, rfl⟩
    | with_reducible apply State.queCfg_keeps kQue kWr
    | with_reducible apply State.access_keeps kPwr kResp
    | dsimp only
    | split
    | intro _

theorem execQueDisable_keeps {P : State → Prop} (kQue : KQue P) (kPwr : KPwr P) (kWr : KWr P) (kResp : KResp P) (m : Master) (k : Fin 64) (v : W32) (s : State) (hP : P s) :
    Out.All P (execQueDisable m k v s) := by
  unfold execQueDisable
  repeat' first
    | with_reducible apply Out.all_next
    | exact trivial
    | with_reducible assumption
    | exact rfl
    | exact fun _ => ⟨rfl, rfl, rfl⟩
    | with_reducible apply State.queCfg_keeps kQue kWr
    | with_reducible apply State.access_keeps kPwr kResp
    | dsimp only
    | split
    | intro _

theorem execPacketFetch_keeps {P : State → Prop} (kErr : KErr P) (kQue : KQue P) (kSys : KSys P) (kWr : KWr P) (kDrawn : KDrawn P) (s : State) (hP : P s) :
    Out.All P (execPacketFetch s) := by
  unfold execPacketFetch
  repeat' first
    | with_reducible apply Out.all_next
    | exact trivial
    | with_reducible assumption
    | exact rfl
    | exact fun _ => ⟨rfl, rfl, rfl⟩
    | with_reducible apply State.fetchFrom_keeps kErr kQue kSys kWr kDrawn
    | dsimp only
    | split
    | intro _

theorem execDramReadResponse_keeps {P : State → Prop} (kErr : KErr P) (kQue : KQue P) (kSys : KSys P) (kWr : KWr P) (kDrawn : KDrawn P) (id : Nat) (data : Option (List Byte)) (s : State) (hP : P s) :
    Out.All P (execDramReadResponse id data s) := by
  unfold execDramReadResponse
  repeat' first
    | with_reducible apply Out.all_next
    | exact trivial
    | with_reducible assumption
    | exact rfl
    | exact fun _ => ⟨rfl, rfl, rfl⟩
    | exact fun _ => rfl
    | with_reducible apply State.onPair_keeps kQue
    | with_reducible apply State.spent_keeps kDrawn
    | with_reducible apply KQue.same kQue
    | with_reducible apply State.pairSettle_keeps kQue
    | with_reducible apply State.checkPacket_keeps kErr kQue kSys kWr
    | dsimp only
    | split
    | intro _

theorem execPortLinkDown_keeps {P : State → Prop} (kQue : KQue P) (port : Fin 4) (s : State) (hP : P s) :
    Out.All P (execPortLinkDown port s) := by
  unfold execPortLinkDown
  repeat' first
    | with_reducible apply Out.all_next
    | exact trivial
    | with_reducible assumption
    | exact rfl
    | exact fun _ => ⟨rfl, rfl, rfl⟩
    | exact fun _ => rfl
    | with_reducible apply KQue.same kQue
    | dsimp only
    | split
    | intro _

end Sys2Proof.Machine
end

