-- ==== Sys2Proof/Laws/KeepsLeases.lean ====
section
/-!
SUPPORT. What the operations of Machine/Leases.lean can do: each one keeps every property of a state that its own primitive
updates keep. The hypotheses of a lemma name every unit the operation can reach.
-/
namespace Sys2Proof.Machine

theorem State.wantLease_keeps {P : State → Prop} (kTop : KTop P) (s : State) (act : Act) (res : List (Nat × Nat)) (tag : Option Nat) (hP : P s) :
 P (State.wantLease s act res tag) := by
  unfold State.wantLease
  repeat' first
    | with_reducible assumption
    | exact rfl
    | exact fun _ => ⟨rfl, rfl, rfl⟩
    | with_reducible apply kTop
    | dsimp only
    | split
    | intro _

theorem State.showLeases_keeps {P : State → Prop} (kWr : KWr P) (s : State) (res : List (Nat × Nat)) (code : Nat) (hP : P s) :
 P (State.showLeases s res code) := by
  unfold State.showLeases
  repeat' first
    | with_reducible assumption
    | exact rfl
    | exact fun _ => ⟨rfl, rfl, rfl⟩
    | with_reducible apply each_keeps
    | with_reducible apply kWr
    | dsimp only
    | split
    | intro _

theorem State.takeLease_keeps {P : State → Prop} (kTop : KTop P) (kWr : KWr P) (s : State) (l : Lease) (hP : P s) :
 P (State.takeLease s l) := by
  unfold State.takeLease
  repeat' first
    | with_reducible assumption
    | exact rfl
    | exact fun _ => ⟨rfl, rfl, rfl⟩
    | with_reducible apply State.showLeases_keeps kWr
    | with_reducible apply kTop
    | dsimp only
    | split
    | intro _

theorem State.dropLease_keeps {P : State → Prop} (kTop : KTop P) (kWr : KWr P) (s : State) (act : Act) (res : List (Nat × Nat)) (hP : P s) :
 P (State.dropLease s act res) := by
  unfold State.dropLease
  repeat' first
    | with_reducible assumption
    | exact rfl
    | exact fun _ => ⟨rfl, rfl, rfl⟩
    | with_reducible apply State.showLeases_keeps kWr
    | with_reducible apply kTop
    | dsimp only
    | split
    | intro _

theorem State.dropLeaseTag_keeps {P : State → Prop} (kTop : KTop P) (kWr : KWr P) (s : State) (tag : Nat) (hP : P s) :
 P (State.dropLeaseTag s tag) := by
  unfold State.dropLeaseTag
  repeat' first
    | with_reducible assumption
    | exact rfl
    | exact fun _ => ⟨rfl, rfl, rfl⟩
    | with_reducible apply each_keeps
    | with_reducible apply State.dropLease_keeps kTop kWr
    | with_reducible apply kTop
    | dsimp only
    | split
    | intro _

end Sys2Proof.Machine
end

