-- ==== Sys2Proof/Laws/KeepsBoxwood.lean ====
section
/-!
SUPPORT. What the operations of Machine/Boxwood.lean can do: each one keeps every property of a state that its own primitive
updates keep. The hypotheses of a lemma name every unit the operation can reach.
-/
namespace Sys2Proof.Machine

theorem State.showLive_keeps {P : State → Prop} (kWr : KWr P) (s : State) (hP : P s) :
 P (State.showLive s) := by
  unfold State.showLive
  repeat' first
    | with_reducible assumption
    | exact rfl
    | exact fun _ => ⟨rfl, rfl, rfl⟩
    | with_reducible apply kWr
    | dsimp only
    | split
    | intro _

theorem State.askAgain_keeps {P : State → Prop} (kTop : KTop P) (s : State) (v q : Bool) (ch : Option Nat) (hP : P s) :
 P (State.askAgain s v q ch) := by
  unfold State.askAgain
  repeat' first
    | with_reducible assumption
    | exact rfl
    | exact fun _ => ⟨rfl, rfl, rfl⟩
    | with_reducible apply kTop
    | dsimp only
    | split
    | intro _

theorem State.relive_keeps {P : State → Prop} (kTop : KTop P) (kWr : KWr P) (s : State) (f : State → State) (hP : P s) (hF : ∀ s, P s → P (f s)) :
 P (State.relive s f) := by
  exact State.askAgain_keeps kTop _ _ _ _ (State.showLive_keeps kWr _ (hF _ hP))

theorem State.takeTokens_keeps {P : State → Prop} (kBox : KBox P) (kWr : KWr P) (s : State) (ch v q : Nat) (hP : P s) :
 P (State.takeTokens s ch v q) := by
  unfold State.takeTokens
  repeat' first
    | with_reducible assumption
    | exact rfl
    | exact fun _ => ⟨rfl, rfl, rfl⟩
    | with_reducible apply kBox
    | with_reducible apply State.showLive_keeps kWr
    | with_reducible apply kWr
    | dsimp only
    | split
    | intro _

theorem State.giveTokens_keeps {P : State → Prop} (kTop : KTop P) (kBox : KBox P) (kWr : KWr P) (s : State) (ch v q : Nat) (hP : P s) :
 P (State.giveTokens s ch v q) := by
  unfold State.giveTokens
  repeat' first
    | with_reducible assumption
    | exact rfl
    | exact fun _ => ⟨rfl, rfl, rfl⟩
    | with_reducible apply kBox
    | with_reducible apply State.askAgain_keeps kTop
    | with_reducible apply State.showLive_keeps kWr
    | with_reducible apply kWr
    | dsimp only
    | split
    | intro _

theorem State.giveJob_keeps {P : State → Prop} (kTop : KTop P) (kChan : KChan P) (kBox : KBox P) (kWr : KWr P) (s : State) (n : Nat) (hP : P s) :
 P (State.giveJob s n) := by
  unfold State.giveJob
  repeat' first
    | with_reducible assumption
    | exact rfl
    | exact fun _ => ⟨rfl, rfl, rfl⟩
    | with_reducible apply kChan
    | with_reducible apply State.giveTokens_keeps kTop kBox kWr
    | dsimp only
    | split
    | intro _

theorem State.budgetSet_keeps {P : State → Prop} (kTop : KTop P) (kWr : KWr P) (s : State) (v : Nat) (hP : P s) :
 P (State.budgetSet s v) := by
  unfold State.budgetSet
  repeat' first
    | with_reducible assumption
    | exact rfl
    | exact fun _ => ⟨rfl, rfl, rfl⟩
    | with_reducible apply State.relive_keeps kTop kWr
    | with_reducible apply kWr
    | dsimp only
    | split
    | intro _

theorem State.askForecast_keeps {P : State → Prop} (kTop : KTop P) (s : State) (hP : P s) :
 P (State.askForecast s) := by
  unfold State.askForecast
  repeat' first
    | with_reducible assumption
    | exact rfl
    | exact fun _ => ⟨rfl, rfl, rfl⟩
    | with_reducible apply kTop
    | dsimp only
    | split
    | intro _

theorem winFld_acc (act : Nat) : ((winFld act).acc == Access.lock) = false := by
  unfold winFld
  split <;> rfl

theorem State.forecast_keeps {P : State → Prop} (kTop : KTop P) (kBox : KBox P) (kWr : KWr P) (s : State) (act w : Nat) (hP : P s) :
 P (State.forecast s act w) := by
  unfold State.forecast
  repeat' first
    | with_reducible assumption
    | exact rfl
    | exact fun _ => ⟨rfl, rfl, rfl⟩
    | with_reducible apply kBox
    | with_reducible apply State.askForecast_keeps kTop
    | with_reducible apply State.bump_keeps kWr
    | with_reducible apply State.setb_keeps kWr
    | dsimp only
    | split
    | intro _

theorem State.takeForecast_keeps {P : State → Prop} (kTop : KTop P) (kBox : KBox P) (kWr : KWr P) (s : State) (act w : Nat) (hP : P s) :
 P (State.takeForecast s act w) := by
  unfold State.takeForecast
  repeat' first
    | with_reducible assumption
    | exact rfl
    | exact fun _ => ⟨rfl, rfl, rfl⟩
    | with_reducible apply kBox
    | with_reducible apply State.bump_keeps kWr
    | with_reducible apply State.forecast_keeps kTop kBox kWr
    | dsimp only
    | split
    | intro _

theorem State.applyLatched_keeps {P : State → Prop} (kTop : KTop P) (kBox : KBox P) (kWr : KWr P) (s : State) (hP : P s) :
 P (State.applyLatched s) := by
  unfold State.applyLatched
  repeat' first
    | with_reducible assumption
    | exact rfl
    | exact fun _ => ⟨rfl, rfl, rfl⟩
    | with_reducible apply each_keeps
    | with_reducible apply kBox
    | with_reducible apply State.forecast_keeps kTop kBox kWr
    | dsimp only
    | split
    | intro _

theorem State.evLevelHit_keeps {P : State → Prop} (kWr : KWr P) (s : State) (n was : Nat) (hP : P s) :
 P (State.evLevelHit s n was) := by
  unfold State.evLevelHit
  repeat' first
    | with_reducible assumption
    | exact rfl
    | exact fun _ => ⟨rfl, rfl, rfl⟩
    | with_reducible apply State.levelEvent_keeps kWr
    | dsimp only
    | split
    | intro _

theorem State.post_keeps {P : State → Prop} (kChan : KChan P) (kWr : KWr P) (s : State) (n : Nat) (e : Ev) (hP : P s) :
 P (State.post s n e) := by
  unfold State.post
  repeat' first
    | with_reducible assumption
    | exact rfl
    | exact fun _ => ⟨rfl, rfl, rfl⟩
    | with_reducible apply kChan
    | with_reducible apply State.evLevelHit_keeps kWr
    | dsimp only
    | split
    | intro _

theorem State.evServe_keeps {P : State → Prop} (kChan : KChan P) (kWr : KWr P) (s : State) (n : Nat) (hP : P s) :
 P (State.evServe s n) := by
  unfold State.evServe
  repeat' first
    | with_reducible assumption
    | exact rfl
    | exact fun _ => ⟨rfl, rfl, rfl⟩
    | with_reducible apply kChan
    | with_reducible apply State.evLevelHit_keeps kWr
    | dsimp only
    | split
    | intro _

theorem State.evServeAll_keeps {P : State → Prop} (kChan : KChan P) (kWr : KWr P) (s : State) (hP : P s) :
 P (State.evServeAll s) := by
  unfold State.evServeAll
  repeat' first
    | with_reducible assumption
    | exact rfl
    | exact fun _ => ⟨rfl, rfl, rfl⟩
    | with_reducible apply State.evServe_keeps kChan kWr
    | with_reducible apply each_keeps
    | dsimp only
    | split
    | intro _

theorem State.moveLevel_keeps {P : State → Prop} (kChan : KChan P) (kWr : KWr P) (s : State) (n lv : Nat) (hP : P s) :
 P (State.moveLevel s n lv) := by
  unfold State.moveLevel
  repeat' first
    | with_reducible assumption
    | exact rfl
    | exact fun _ => ⟨rfl, rfl, rfl⟩
    | with_reducible apply State.setb_keeps kWr
    | with_reducible apply State.post_keeps kChan kWr
    | with_reducible apply when_keeps
    | with_reducible apply kWr
    | dsimp only
    | split
    | intro _

theorem State.setLevel_keeps {P : State → Prop} (kErr : KErr P) (kChan : KChan P) (kWr : KWr P) (s : State) (n lv cls : Nat) (hP : P s) :
 P (State.setLevel s n lv cls) := by
  unfold State.setLevel
  repeat' first
    | with_reducible assumption
    | exact rfl
    | exact fun _ => ⟨rfl, rfl, rfl⟩
    | with_reducible apply State.err1_keeps kErr kWr
    | with_reducible apply State.moveLevel_keeps kChan kWr
    | dsimp only
    | split
    | intro _

theorem State.wantTrain_keeps {P : State → Prop} (kTop : KTop P) (s : State) (n : Nat) (tag : Option Nat) (hP : P s) :
 P (State.wantTrain s n tag) := by
  unfold State.wantTrain
  repeat' first
    | with_reducible assumption
    | exact rfl
    | exact fun _ => ⟨rfl, rfl, rfl⟩
    | with_reducible apply State.wantLease_keeps kTop
    | dsimp only
    | split
    | intro _

theorem State.rescale_keeps {P : State → Prop} (kWr : KWr P) (s : State) (n b c : Nat) (hP : P s) :
 P (State.rescale s n b c) := by
  unfold State.rescale
  repeat' first
    | with_reducible assumption
    | exact rfl
    | exact fun _ => ⟨rfl, rfl, rfl⟩
    | with_reducible apply each_keeps
    | with_reducible apply kWr
    | dsimp only
    | split
    | intro _

theorem State.relock_keeps {P : State → Prop} (kChan : KChan P) (s : State) (n bin : Nat) (hP : P s) :
 P (State.relock s n bin) := by
  unfold State.relock
  repeat' first
    | with_reducible assumption
    | exact rfl
    | exact fun _ => ⟨rfl, rfl, rfl⟩
    | with_reducible apply kChan
    | dsimp only
    | split
    | intro _

theorem State.untrain_keeps {P : State → Prop} (kWr : KWr P) (s : State) (n : Nat) (hP : P s) :
 P (State.untrain s n) := by
  unfold State.untrain
  repeat' first
    | with_reducible assumption
    | exact rfl
    | exact fun _ => ⟨rfl, rfl, rfl⟩
    | with_reducible apply each_keeps
    | with_reducible apply kWr
    | dsimp only
    | split
    | intro _

theorem State.toPre_keeps {P : State → Prop} (kErr : KErr P) (kChan : KChan P) (kWr : KWr P) (s : State) (n cls : Nat) (hP : P s) :
 P (State.toPre s n cls) := by
  unfold State.toPre
  repeat' first
    | with_reducible assumption
    | exact rfl
    | exact fun _ => ⟨rfl, rfl, rfl⟩
    | with_reducible apply State.relock_keeps kChan
    | with_reducible apply State.untrain_keeps kWr
    | with_reducible apply State.setLevel_keeps kErr kChan kWr
    | dsimp only
    | split
    | intro _

theorem State.toSdr_keeps {P : State → Prop} (kErr : KErr P) (kChan : KChan P) (kWr : KWr P) (s : State) (n cls : Nat) (hP : P s) :
 P (State.toSdr s n cls) := by
  unfold State.toSdr
  repeat' first
    | with_reducible assumption
    | exact rfl
    | exact fun _ => ⟨rfl, rfl, rfl⟩
    | with_reducible apply kChan
    | with_reducible apply State.setLevel_keeps kErr kChan kWr
    | with_reducible apply State.untrain_keeps kWr
    | dsimp only
    | split
    | intro _

theorem State.dropHeld_keeps {P : State → Prop} (kErr : KErr P) (kChan : KChan P) (kWr : KWr P) (s : State) (n : Nat) (hP : P s) :
 P (State.dropHeld s n) := by
  unfold State.dropHeld
  repeat' first
    | with_reducible assumption
    | exact rfl
    | exact fun _ => ⟨rfl, rfl, rfl⟩
    | with_reducible apply State.toSdr_keeps kErr kChan kWr
    | with_reducible apply State.toPre_keeps kErr kChan kWr
    | dsimp only
    | split
    | intro _

theorem State.flag_keeps {P : State → Prop} (kErr : KErr P) (kTop : KTop P) (kChan : KChan P) (kWr : KWr P) (s : State) (n : Nat) (hP : P s) :
 P (State.flag s n) := by
  unfold State.flag
  repeat' first
    | with_reducible assumption
    | exact rfl
    | exact fun _ => ⟨rfl, rfl, rfl⟩
    | with_reducible apply State.relock_keeps kChan
    | with_reducible apply State.err1_keeps kErr kWr
    | with_reducible apply State.toPre_keeps kErr kChan kWr
    | with_reducible apply State.wantTrain_keeps kTop
    | with_reducible apply State.bump_keeps kWr
    | with_reducible apply State.setb_keeps kWr
    | with_reducible apply when_keeps
    | with_reducible apply State.rescale_keeps kWr
    | with_reducible apply kWr
    | dsimp only
    | split
    | intro _

theorem State.closeWindow_keeps {P : State → Prop} (kErr : KErr P) (kTop : KTop P) (kChan : KChan P) (kWr : KWr P) (s : State) (hP : P s) :
 P (State.closeWindow s) := by
  unfold State.closeWindow
  repeat' first
    | with_reducible assumption
    | exact rfl
    | exact fun _ => ⟨rfl, rfl, rfl⟩
    | with_reducible apply each_keeps
    | with_reducible apply kChan
    | with_reducible apply State.flag_keeps kErr kTop kChan kWr
    | with_reducible apply kWr
    | dsimp only
    | split
    | intro _

theorem State.phyZq_keeps {P : State → Prop} (kChan : KChan P) (kBox : KBox P) (kDrawn : KDrawn P) (s : State) (w : Nat) (hP : P s) :
 P (State.phyZq s w) := by
  unfold State.phyZq
  repeat' first
    | with_reducible assumption
    | exact rfl
    | exact fun _ => ⟨rfl, rfl, rfl⟩
    | with_reducible apply each_keeps
    | with_reducible apply kChan
    | with_reducible apply kBox
    | with_reducible apply State.draw_keeps kDrawn
    | with_reducible refine State.draw_keeps' kDrawn ‹_ = (_, _)› ?_
    | dsimp only
    | split
    | intro _

theorem State.thermStep_keeps {P : State → Prop} (kErr : KErr P) (kPwr : KPwr P) (kWr : KWr P) (s : State) (k : Nat) (r : Int) (hP : P s) :
 P (State.thermStep s k r) := by
  have hA : ((thermFld k).acc == Access.lock) = false := by unfold thermFld; split <;> rfl
  unfold State.thermStep
  repeat' first
    | with_reducible assumption
    | exact rfl
    | with_reducible apply kPwr
    | with_reducible apply kWr
    | with_reducible apply State.wrBit_keeps kWr
    | with_reducible apply State.setb_keeps kWr
    | with_reducible apply State.err1_keeps kErr kWr
    | dsimp only
    | split

theorem State.sample_keeps {P : State → Prop} (kErr : KErr P) (kTop : KTop P) (kChan : KChan P) (kBox : KBox P) (kPwr : KPwr P) (kWr : KWr P) (kDrawn : KDrawn P) (s : State) (r : Int) (hP : P s) :
 P (State.sample s r) := by
  unfold State.sample
  repeat' first
    | with_reducible assumption
    | exact rfl
    | exact fun _ => ⟨rfl, rfl, rfl⟩
    | with_reducible apply each_keeps
    | with_reducible apply State.phyZq_keeps kChan kBox kDrawn
    | with_reducible apply kBox
    | with_reducible apply State.flag_keeps kErr kTop kChan kWr
    | with_reducible apply State.setb_keeps kWr
    | with_reducible apply State.thermStep_keeps kErr kPwr kWr
    | with_reducible apply kWr
    | dsimp only
    | split
    | intro _

theorem State.sampleFail_keeps {P : State → Prop} (kErr : KErr P) (kBox : KBox P) (kWr : KWr P) (s : State) (hP : P s) :
 P (State.sampleFail s) := by
  unfold State.sampleFail
  repeat' first
    | with_reducible assumption
    | exact rfl
    | exact fun _ => ⟨rfl, rfl, rfl⟩
    | with_reducible apply State.err1_keeps kErr kWr
    | with_reducible apply kBox
    | with_reducible apply State.setb_keeps kWr
    | dsimp only
    | split
    | intro _

theorem State.threshSet_keeps {P : State → Prop} (kWr : KWr P) (s : State) (v : Nat) (hP : P s) :
 P (State.threshSet s v) := by
  unfold State.threshSet
  repeat' first
    | with_reducible assumption
    | exact rfl
    | exact fun _ => ⟨rfl, rfl, rfl⟩
    | with_reducible apply State.setb_keeps kWr
    | with_reducible apply kWr
    | dsimp only
    | split
    | intro _

theorem State.addEnergy_keeps {P : State → Prop} (kBox : KBox P) (kWr : KWr P) (s : State) (k pj : Nat) (hP : P s) :
 P (State.addEnergy s k pj) := by
  unfold State.addEnergy
  repeat' first
    | with_reducible assumption
    | exact rfl
    | exact fun _ => ⟨rfl, rfl, rfl⟩
    | with_reducible apply kBox
    | with_reducible apply State.bump_keeps kWr
    | dsimp only
    | split
    | intro _

theorem State.energy_keeps {P : State → Prop} (kQue : KQue P) (kBox : KBox P) (kWr : KWr P) (s : State) (tag : Option Nat) (pj : Nat) (hP : P s) :
 P (State.energy s tag pj) := by
  unfold State.energy
  repeat' first
    | with_reducible assumption
    | exact rfl
    | exact fun _ => ⟨rfl, rfl, rfl⟩
    | with_reducible apply State.chargePj_keeps kQue
    | with_reducible apply State.addEnergy_keeps kBox kWr
    | dsimp only
    | split
    | intro _

theorem State.userBytes_keeps {P : State → Prop} (kBox : KBox P) (s : State) (port n : Nat) (hP : P s) :
 P (State.userBytes s port n) := by
  unfold State.userBytes
  repeat' first
    | with_reducible assumption
    | exact rfl
    | exact fun _ => ⟨rfl, rfl, rfl⟩
    | with_reducible apply kBox
    | dsimp only
    | split
    | intro _

theorem execCeilWrite_keeps {P : State → Prop} (kPwr : KPwr P) (kResp : KResp P) (kCeil : KCeil P) (m : Master) (v : W32) (s : State) (hP : P s) :
    Out.All P (execCeilWrite m v s) := by
  unfold execCeilWrite
  repeat' first
    | with_reducible apply Out.all_next
    | exact trivial
    | with_reducible assumption
    | exact rfl
    | exact fun _ => ⟨rfl, rfl, rfl⟩
    | with_reducible apply kCeil
    | with_reducible apply State.access_keeps kPwr kResp
    | dsimp only
    | split
    | intro _

theorem execBudgetWrite_keeps {P : State → Prop} (kTop : KTop P) (kPwr : KPwr P) (kWr : KWr P) (kResp : KResp P) (m : Master) (v : W32) (s : State) (hP : P s) :
    Out.All P (execBudgetWrite m v s) := by
  unfold execBudgetWrite
  repeat' first
    | with_reducible apply Out.all_next
    | exact trivial
    | with_reducible assumption
    | exact rfl
    | exact fun _ => ⟨rfl, rfl, rfl⟩
    | with_reducible apply State.budgetSet_keeps kTop kWr
    | with_reducible apply State.access_keeps kPwr kResp
    | dsimp only
    | split
    | intro _

theorem execForecastWord_keeps {P : State → Prop} (kTop : KTop P) (kBox : KBox P) (kWr : KWr P) (act : Fin 2) (w : W32) (s : State) (hP : P s) :
    Out.All P (execForecastWord act w s) := by
  unfold execForecastWord
  repeat' first
    | with_reducible apply Out.all_next
    | exact trivial
    | with_reducible assumption
    | exact rfl
    | exact fun _ => ⟨rfl, rfl, rfl⟩
    | with_reducible apply State.takeForecast_keeps kTop kBox kWr
    | with_reducible apply kBox
    | dsimp only
    | split
    | intro _

theorem execForecastWindowBegin_keeps {P : State → Prop} (kBox : KBox P) (kWr : KWr P) (act : Fin 2) (s : State) (hP : P s) :
    Out.All P (execForecastWindowBegin act s) := by
  unfold execForecastWindowBegin
  repeat' first
    | with_reducible apply Out.all_next
    | exact trivial
    | exact winFld_acc _
    | with_reducible assumption
    | exact rfl
    | exact fun _ => ⟨rfl, rfl, rfl⟩
    | with_reducible apply kBox
    | with_reducible apply State.showLive_keeps kWr
    | with_reducible apply State.bump_keeps kWr
    | with_reducible apply State.setb_keeps kWr
    | dsimp only
    | split
    | intro _

theorem execForecastWindowEnd_keeps {P : State → Prop} (kTop : KTop P) (kBox : KBox P) (kWr : KWr P) (act : Fin 2) (s : State) (hP : P s) :
    Out.All P (execForecastWindowEnd act s) := by
  unfold execForecastWindowEnd
  repeat' first
    | with_reducible apply Out.all_next
    | exact trivial
    | exact winFld_acc _
    | with_reducible assumption
    | exact rfl
    | exact fun _ => ⟨rfl, rfl, rfl⟩
    | with_reducible apply kBox
    | with_reducible apply State.askForecast_keeps kTop
    | with_reducible apply State.relive_keeps kTop kWr
    | with_reducible apply kWr
    | dsimp only
    | split
    | intro _

theorem execLoadWindowClose_keeps {P : State → Prop} (kErr : KErr P) (kTop : KTop P) (kChan : KChan P) (kWr : KWr P) (s : State) (hP : P s) :
    Out.All P (execLoadWindowClose s) := by
  unfold execLoadWindowClose
  repeat' first
    | with_reducible apply Out.all_next
    | exact trivial
    | with_reducible assumption
    | exact rfl
    | exact fun _ => ⟨rfl, rfl, rfl⟩
    | with_reducible apply State.closeWindow_keeps kErr kTop kChan kWr
    | dsimp only
    | split
    | intro _

theorem execDiodeSampleTimer_keeps {P : State → Prop} (kBox : KBox P) (s : State) (hP : P s) :
    Out.All P (execDiodeSampleTimer s) := by
  unfold execDiodeSampleTimer
  repeat' first
    | with_reducible apply Out.all_next
    | exact trivial
    | with_reducible assumption
    | exact rfl
    | exact fun _ => ⟨rfl, rfl, rfl⟩
    | with_reducible apply kBox
    | dsimp only
    | split
    | intro _

theorem execDiodeConversionDone_keeps {P : State → Prop} (kErr : KErr P) (kTop : KTop P) (kChan : KChan P) (kBox : KBox P) (kPwr : KPwr P) (kWr : KWr P) (kDrawn : KDrawn P) (r : Option Int) (s : State) (hP : P s) :
    Out.All P (execDiodeConversionDone r s) := by
  unfold execDiodeConversionDone
  repeat' first
    | with_reducible apply Out.all_next
    | exact trivial
    | with_reducible assumption
    | exact rfl
    | exact fun _ => ⟨rfl, rfl, rfl⟩
    | with_reducible apply kBox
    | with_reducible apply State.sample_keeps kErr kTop kChan kBox kPwr kWr kDrawn
    | with_reducible apply State.relive_keeps kTop kWr
    | with_reducible apply State.sampleFail_keeps kErr kBox kWr
    | dsimp only
    | split
    | intro _

theorem execThreshWrite_keeps {P : State → Prop} (kPwr : KPwr P) (kWr : KWr P) (kResp : KResp P) (m : Master) (v : W32) (s : State) (hP : P s) :
    Out.All P (execThreshWrite m v s) := by
  unfold execThreshWrite
  repeat' first
    | with_reducible apply Out.all_next
    | exact trivial
    | with_reducible assumption
    | exact rfl
    | exact fun _ => ⟨rfl, rfl, rfl⟩
    | with_reducible apply State.threshSet_keeps kWr
    | with_reducible apply State.access_keeps kPwr kResp
    | dsimp only
    | split
    | intro _

end Sys2Proof.Machine
end

