-- ==== Sys2Proof/Laws/KeepsEspalier.lean ====
section
/-!
SUPPORT. What the operations of Machine/Espalier.lean can do: each one keeps every property of a state that its own primitive
updates keep. The hypotheses of a lemma name every unit the operation can reach.
-/
namespace Sys2Proof.Machine

theorem State.csCheck_keeps {P : State → Prop} (kMcs : KMcs P) (kWr : KWr P) (s : State) (key : Nat) (hP : P s) :
 P (State.csCheck s key) := by
  unfold State.csCheck
  repeat' first
    | with_reducible assumption
    | exact rfl
    | exact fun _ => ⟨rfl, rfl, rfl⟩
    | with_reducible apply kMcs
    | with_reducible apply State.bump_keeps kWr
    | dsimp only
    | split
    | intro _

theorem State.csRepair_keeps {P : State → Prop} (kMcs : KMcs P) (kWr : KWr P) (s : State) (key : Nat) (hP : P s) :
 P (State.csRepair s key) := by
  unfold State.csRepair
  repeat' first
    | with_reducible assumption
    | exact rfl
    | exact fun _ => ⟨rfl, rfl, rfl⟩
    | with_reducible apply kMcs
    | with_reducible apply State.bump_keeps kWr
    | dsimp only
    | split
    | intro _

theorem State.haltSeq_keeps {P : State → Prop} (kMcs : KMcs P) (kWr : KWr P) (s : State) (n upc code tcode : Nat) (hP : P s) :
 P (State.haltSeq s n upc code tcode) := by
  unfold State.haltSeq
  repeat' first
    | with_reducible assumption
    | exact rfl
    | exact fun _ => ⟨rfl, rfl, rfl⟩
    | with_reducible apply onSeq_keeps kMcs
    | with_reducible apply kWr
    | dsimp only
    | split
    | intro _

theorem State.restartSeq_keeps {P : State → Prop} (kMcs : KMcs P) (s : State) (n : Nat) (hP : P s) :
 P (State.restartSeq s n) := by
  unfold State.restartSeq
  repeat' first
    | with_reducible assumption
    | exact rfl
    | exact fun _ => ⟨rfl, rfl, rfl⟩
    | with_reducible apply onSeq_keeps kMcs
    | dsimp only
    | split
    | intro _

theorem State.autoRestart_keeps {P : State → Prop} (kMcs : KMcs P) (kWr : KWr P) (s : State) (n key : Nat) (hP : P s) :
 P (State.autoRestart s n key) := by
  unfold State.autoRestart
  repeat' first
    | with_reducible assumption
    | exact rfl
    | exact fun _ => ⟨rfl, rfl, rfl⟩
    | with_reducible apply State.setb_keeps kWr
    | with_reducible apply State.restartSeq_keeps kMcs
    | with_reducible apply when_keeps
    | with_reducible apply onSeq_keeps kMcs
    | dsimp only
    | split
    | intro _

theorem State.raiseEv_keeps {P : State → Prop} (kMcs : KMcs P) (s : State) (n ev : Nat) (hP : P s) :
 P (State.raiseEv s n ev) := by
  unfold State.raiseEv
  repeat' first
    | with_reducible assumption
    | exact rfl
    | exact fun _ => ⟨rfl, rfl, rfl⟩
    | with_reducible apply onSeq_keeps kMcs
    | dsimp only
    | split
    | intro _

theorem State.phyErr_keeps {P : State → Prop} (kErr : KErr P) (kTop : KTop P) (kChan : KChan P) (kWr : KWr P) (s : State) (n : Nat) (hP : P s) :
 P (State.phyErr s n) := by
  unfold State.phyErr
  repeat' first
    | with_reducible assumption
    | exact rfl
    | exact fun _ => ⟨rfl, rfl, rfl⟩
    | with_reducible apply kChan
    | with_reducible apply State.flag_keeps kErr kTop kChan kWr
    | with_reducible apply State.bump_keeps kWr
    | dsimp only
    | split
    | intro _

theorem State.cherr_keeps {P : State → Prop} (kErr : KErr P) (kTop : KTop P) (kMcs : KMcs P) (kChan : KChan P) (kWr : KWr P) (s : State) (n kind : Nat) (hP : P s) :
 P (State.cherr s n kind) := by
  unfold State.cherr
  repeat' first
    | with_reducible assumption
    | exact rfl
    | exact fun _ => ⟨rfl, rfl, rfl⟩
    | with_reducible apply State.toSdr_keeps kErr kChan kWr
    | with_reducible apply State.wantTrain_keeps kTop
    | with_reducible apply State.setb_keeps kWr
    | with_reducible apply State.raiseEv_keeps kMcs
    | with_reducible apply State.toPre_keeps kErr kChan kWr
    | with_reducible apply kWr
    | with_reducible apply State.bump_keeps kWr
    | dsimp only
    | split
    | intro _

end Sys2Proof.Machine
end

