-- ==== Sys2Proof/Laws/KeepsFrames.lean ====
section
/-!
SUPPORT. What the operations of Machine/Frames.lean can do: each one keeps every property of a state that its own primitive
updates keep. The hypotheses of a lemma name every unit the operation can reach.
-/
namespace Sys2Proof.Machine

theorem State.bufRead_keeps {P : State → Prop} (kErr : KErr P) (kWr : KWr P) (kDrawn : KDrawn P) (s : State) (i : Nat) (hP : P s) :
 P (State.bufRead s i).2 := by
  unfold State.bufRead
  repeat' first
    | with_reducible assumption
    | exact rfl
    | exact fun _ => ⟨rfl, rfl, rfl⟩
    | with_reducible apply State.hRead_keeps kErr kWr kDrawn
    | with_reducible refine State.hRead_keeps' kErr kWr kDrawn ‹_ = (_, _)› ?_
    | dsimp only
    | split
    | intro _

theorem State.bufRead_keeps' {P : State → Prop} (kErr : KErr P) (kWr : KWr P) (kDrawn : KDrawn P) {s : State} {i : Nat} {x0 : HRead} {t : State}
    (hE : State.bufRead s i = (x0, t)) (hP : P s)  : P t := by
  have h := State.bufRead_keeps kErr kWr kDrawn s i hP
  rw [hE] at h
  exact h

theorem State.bufFrame_keeps {P : State → Prop} (kErr : KErr P) (kHdg : KHdg P) (kPut : KPut P) (kCop : KCop P) (kWr : KWr P) (s : State) (i : Nat) (f : List Byte) (hP : P s) :
 P (State.bufFrame s i f) := by
  unfold State.bufFrame
  repeat' first
    | with_reducible assumption
    | exact rfl
    | exact fun _ => ⟨rfl, rfl, rfl⟩
    | with_reducible apply State.hWrite_keeps kErr kHdg kPut kWr
    | with_reducible apply State.setSlot_keeps kCop
    | dsimp only
    | split
    | intro _

theorem State.bufZero_keeps {P : State → Prop} (kErr : KErr P) (kHdg : KHdg P) (kPut : KPut P) (kCop : KCop P) (kWr : KWr P) (s : State) (i : Nat) (hP : P s) :
 P (State.bufZero s i) := by
  unfold State.bufZero
  repeat' first
    | with_reducible assumption
    | exact rfl
    | exact fun _ => ⟨rfl, rfl, rfl⟩
    | with_reducible apply State.hWrite_keeps kErr kHdg kPut kWr
    | with_reducible apply State.setSlot_keeps kCop
    | dsimp only
    | split
    | intro _

end Sys2Proof.Machine
end

