-- ==== Sys2Proof/Laws/KeepsJuniper.lean ====
section
/-!
SUPPORT. What the operations of Machine/Juniper.lean can do: each one keeps every property of a state that its own primitive
updates keep. The hypotheses of a lemma name every unit the operation can reach.
-/
namespace Sys2Proof.Machine

theorem State.grpTouch_keeps {P : State → Prop} (kJnp : KJnp P) (s : State) (g : Nat) (hP : P s) :
 P (State.grpTouch s g) := by
  unfold State.grpTouch
  repeat' first
    | with_reducible assumption
    | exact rfl
    | exact fun _ => ⟨rfl, rfl, rfl⟩
    | with_reducible apply kJnp
    | dsimp only
    | split
    | intro _

theorem State.grpWrite_keeps {P : State → Prop} (kErr : KErr P) (kHdg : KHdg P) (kPut : KPut P) (kJnp : KJnp P) (kWr : KWr P) (s : State) (g off : Nat) (l : List Byte) (hP : P s) :
 P (State.grpWrite s g off l) := by
  unfold State.grpWrite
  repeat' first
    | with_reducible assumption
    | exact rfl
    | exact fun _ => ⟨rfl, rfl, rfl⟩
    | with_reducible apply State.hWrite_keeps kErr kHdg kPut kWr
    | with_reducible apply State.grpTouch_keeps kJnp
    | dsimp only
    | split
    | intro _

theorem State.grpRead_keeps {P : State → Prop} (kErr : KErr P) (kHdg : KHdg P) (kPut : KPut P) (kJnp : KJnp P) (kWr : KWr P) (kDrawn : KDrawn P) (s : State) (g : Nat) (hP : P s) :
 P (State.grpRead s g).2 := by
  unfold State.grpRead
  repeat' first
    | with_reducible assumption
    | exact rfl
    | exact fun _ => ⟨rfl, rfl, rfl⟩
    | with_reducible apply State.err1_keeps kErr kWr
    | with_reducible apply State.grpWrite_keeps kErr kHdg kPut kJnp kWr
    | with_reducible apply State.hRead_keeps kErr kWr kDrawn
    | with_reducible refine State.hRead_keeps' kErr kWr kDrawn ‹_ = (_, _)› ?_
    | dsimp only
    | split
    | intro _

theorem State.grpRead_keeps' {P : State → Prop} (kErr : KErr P) (kHdg : KHdg P) (kPut : KPut P) (kJnp : KJnp P) (kWr : KWr P) (kDrawn : KDrawn P) {s : State} {g : Nat} {x0 : List Byte} {t : State}
    (hE : State.grpRead s g = (x0, t)) (hP : P s)  : P t := by
  have h := State.grpRead_keeps kErr kHdg kPut kJnp kWr kDrawn s g hP
  rw [hE] at h
  exact h

theorem State.setResident_keeps {P : State → Prop} (kJnp : KJnp P) (s : State) (lun : Nat) (l : Option (List Int)) (hP : P s) :
 P (State.setResident s lun l) := by
  unfold State.setResident
  repeat' first
    | with_reducible assumption
    | exact rfl
    | exact fun _ => ⟨rfl, rfl, rfl⟩
    | with_reducible apply kJnp
    | dsimp only
    | split
    | intro _

theorem State.forgetResident_keeps {P : State → Prop} (kJnp : KJnp P) (s : State) (ch : Nat) (hP : P s) :
 P (State.forgetResident s ch) := by
  unfold State.forgetResident
  repeat' first
    | with_reducible assumption
    | exact rfl
    | exact fun _ => ⟨rfl, rfl, rfl⟩
    | with_reducible apply kJnp
    | dsimp only
    | split
    | intro _

theorem State.noteLevels_keeps {P : State → Prop} (kJnp : KJnp P) (s : State) (lun : Nat) (l : List Int) (hP : P s) :
 P (State.noteLevels s lun l) := by
  unfold State.noteLevels
  repeat' first
    | with_reducible assumption
    | exact rfl
    | exact fun _ => ⟨rfl, rfl, rfl⟩
    | with_reducible apply State.setResident_keeps kJnp
    | dsimp only
    | split
    | intro _

theorem State.firstProgram_keeps {P : State → Prop} (kErr : KErr P) (kHdg : KHdg P) (kPut : KPut P) (kJnp : KJnp P) (kWr : KWr P) (kDrawn : KDrawn P) (s : State) (lun block : Nat) (hP : P s) :
 P (State.firstProgram s lun block) := by
  unfold State.firstProgram
  repeat' first
    | with_reducible assumption
    | exact rfl
    | exact fun _ => ⟨rfl, rfl, rfl⟩
    | with_reducible apply State.grpWrite_keeps kErr kHdg kPut kJnp kWr
    | with_reducible apply State.grpRead_keeps kErr kHdg kPut kJnp kWr kDrawn
    | with_reducible refine State.grpRead_keeps' kErr kHdg kPut kJnp kWr kDrawn ‹_ = (_, _)› ?_
    | dsimp only
    | split
    | intro _

theorem State.setTracked_keeps {P : State → Prop} (kErr : KErr P) (kHdg : KHdg P) (kPut : KPut P) (kJnp : KJnp P) (kWr : KWr P) (kDrawn : KDrawn P) (s : State) (g : Nat) (off : Option (List Int)) (hP : P s) :
 P (State.setTracked s g off) := by
  unfold State.setTracked
  repeat' first
    | with_reducible assumption
    | exact rfl
    | exact fun _ => ⟨rfl, rfl, rfl⟩
    | with_reducible apply State.grpWrite_keeps kErr kHdg kPut kJnp kWr
    | with_reducible apply State.grpRead_keeps kErr kHdg kPut kJnp kWr kDrawn
    | with_reducible refine State.grpRead_keeps' kErr kHdg kPut kJnp kWr kDrawn ‹_ = (_, _)› ?_
    | dsimp only
    | split
    | intro _

theorem State.adopt_keeps {P : State → Prop} (kErr : KErr P) (kHdg : KHdg P) (kPut : KPut P) (kJnp : KJnp P) (kWr : KWr P) (kDrawn : KDrawn P) (s : State) (lun block k gen : Nat) (p : List Byte) (hP : P s) :
 P (State.adopt s lun block k gen p) := by
  unfold State.adopt
  repeat' first
    | with_reducible assumption
    | exact rfl
    | exact fun _ => ⟨rfl, rfl, rfl⟩
    | with_reducible apply State.setTracked_keeps kErr kHdg kPut kJnp kWr kDrawn
    | with_reducible apply State.bump_keeps kWr
    | dsimp only
    | split
    | intro _

theorem State.queueCalib_keeps {P : State → Prop} (kJnp : KJnp P) (kWr : KWr P) (s : State) (g : Nat) (hP : P s) :
 P (State.queueCalib s g) := by
  unfold State.queueCalib
  repeat' first
    | with_reducible assumption
    | exact rfl
    | exact fun _ => ⟨rfl, rfl, rfl⟩
    | with_reducible apply State.bump_keeps kWr
    | with_reducible apply kJnp
    | dsimp only
    | split
    | intro _

theorem State.countFirst_keeps {P : State → Prop} (kErr : KErr P) (kHdg : KHdg P) (kPut : KPut P) (kJnp : KJnp P) (kWr : KWr P) (kDrawn : KDrawn P) (s : State) (g : Nat) (conv : Bool) (iters : Nat) (hP : P s) :
 P (State.countFirst s g conv iters) := by
  unfold State.countFirst
  repeat' first
    | with_reducible assumption
    | exact rfl
    | exact fun _ => ⟨rfl, rfl, rfl⟩
    | with_reducible apply State.queueCalib_keeps kJnp kWr
    | with_reducible apply State.grpWrite_keeps kErr kHdg kPut kJnp kWr
    | with_reducible apply State.grpRead_keeps kErr kHdg kPut kJnp kWr kDrawn
    | with_reducible refine State.grpRead_keeps' kErr kHdg kPut kJnp kWr kDrawn ‹_ = (_, _)› ?_
    | dsimp only
    | split
    | intro _

theorem State.countDepth_keeps {P : State → Prop} (kErr : KErr P) (kHdg : KHdg P) (kPut : KPut P) (kJnp : KJnp P) (kHly : KHly P) (kWr : KWr P) (kDrawn : KDrawn P) (s : State) (g d : Nat) (hP : P s) :
 P (State.countDepth s g d) := by
  unfold State.countDepth
  repeat' first
    | with_reducible assumption
    | exact rfl
    | exact fun _ => ⟨rfl, rfl, rfl⟩
    | with_reducible apply State.err1_keeps kErr kWr
    | with_reducible apply State.post1_keeps kHly
    | with_reducible apply State.queueCalib_keeps kJnp kWr
    | with_reducible apply State.grpWrite_keeps kErr kHdg kPut kJnp kWr
    | with_reducible apply State.setb_keeps kWr
    | with_reducible apply State.grpRead_keeps kErr kHdg kPut kJnp kWr kDrawn
    | with_reducible refine State.grpRead_keeps' kErr kHdg kPut kJnp kWr kDrawn ‹_ = (_, _)› ?_
    | dsimp only
    | split
    | intro _

theorem State.countFail_keeps {P : State → Prop} (kErr : KErr P) (kHdg : KHdg P) (kPut : KPut P) (kJnp : KJnp P) (kWr : KWr P) (kDrawn : KDrawn P) (s : State) (lun block off : Nat) (hP : P s) :
 P (State.countFail s lun block off) := by
  unfold State.countFail
  repeat' first
    | with_reducible assumption
    | exact rfl
    | exact fun _ => ⟨rfl, rfl, rfl⟩
    | with_reducible apply State.grpWrite_keeps kErr kHdg kPut kJnp kWr
    | with_reducible apply State.grpRead_keeps kErr kHdg kPut kJnp kWr kDrawn
    | with_reducible refine State.grpRead_keeps' kErr kHdg kPut kJnp kWr kDrawn ‹_ = (_, _)› ?_
    | dsimp only
    | split
    | intro _

end Sys2Proof.Machine
end

