-- ==== Sys2Proof/Laws/KeepsYew.lean ====
section
/-!
SUPPORT. What the operations of Machine/Yew.lean can do: each one keeps every property of a state that its own primitive
updates keep. The hypotheses of a lemma name every unit the operation can reach.
-/
namespace Sys2Proof.Machine

theorem State.yPut_keeps {P : State → Prop} (kYew : KYew P) (s : State) (a v : Nat) (hP : P s) :
 P (State.yPut s a v) := by
  unfold State.yPut
  repeat' first
    | with_reducible assumption
    | exact rfl
    | exact fun _ => ⟨rfl, rfl, rfl⟩
    | with_reducible apply kYew
    | dsimp only
    | split
    | intro _

theorem State.yEraseSector_keeps {P : State → Prop} (kYew : KYew P) (s : State) (a : Nat) (hP : P s) :
 P (State.yEraseSector s a) := by
  unfold State.yEraseSector
  repeat' first
    | with_reducible assumption
    | exact rfl
    | exact fun _ => ⟨rfl, rfl, rfl⟩
    | with_reducible apply kYew
    | dsimp only
    | split
    | intro _

theorem State.ySet_keeps {P : State → Prop} (kYew : KYew P) (s : State) (b : Nat) (o : Option YOp) (hP : P s) :
 P (State.ySet s b o) := by
  unfold State.ySet
  repeat' first
    | with_reducible assumption
    | exact rfl
    | exact fun _ => ⟨rfl, rfl, rfl⟩
    | with_reducible apply kYew
    | dsimp only
    | split
    | intro _

theorem State.keeperGo_keeps {P : State → Prop} (kYew : KYew P) (kWr : KWr P) (s : State) (hP : P s) :
 P (State.keeperGo s) := by
  unfold State.keeperGo
  repeat' first
    | with_reducible assumption
    | exact rfl
    | exact fun _ => ⟨rfl, rfl, rfl⟩
    | with_reducible apply State.ySet_keeps kYew
    | with_reducible apply kYew
    | with_reducible apply kWr
    | dsimp only
    | split
    | intro _

theorem State.keep_keeps {P : State → Prop} (kYew : KYew P) (kWr : KWr P) (s : State) (l : List KJob) (hP : P s) :
 P (State.keep s l) := by
  unfold State.keep
  repeat' first
    | with_reducible assumption
    | exact rfl
    | exact fun _ => ⟨rfl, rfl, rfl⟩
    | with_reducible apply State.keeperGo_keeps kYew kWr
    | with_reducible apply kYew
    | dsimp only
    | split
    | intro _

theorem State.keepAct_keeps {P : State → Prop} (kYew : KYew P) (kWr : KWr P) (s : State) (holly mcs note : Nat) (hP : P s) :
 P (State.keepAct s holly mcs note) := by
  unfold State.keepAct
  repeat' first
    | with_reducible assumption
    | exact rfl
    | exact fun _ => ⟨rfl, rfl, rfl⟩
    | with_reducible apply State.keep_keeps kYew kWr
    | dsimp only
    | split
    | intro _

theorem State.jRoom_keeps {P : State → Prop} (kYew : KYew P) (kWr : KWr P) (s : State) (n : Nat) (hP : P s) :
 P (State.jRoom s n) := by
  unfold State.jRoom
  repeat' first
    | with_reducible assumption
    | exact rfl
    | exact fun _ => ⟨rfl, rfl, rfl⟩
    | with_reducible apply kYew
    | with_reducible apply State.keep_keeps kYew kWr
    | dsimp only
    | split
    | intro _

theorem State.jPut_keeps {P : State → Prop} (kYew : KYew P) (kWr : KWr P) (s : State) (l : List Nat) (note : Nat) (hP : P s) :
 P (State.jPut s l note) := by
  unfold State.jPut
  repeat' first
    | with_reducible assumption
    | exact rfl
    | exact fun _ => ⟨rfl, rfl, rfl⟩
    | with_reducible apply kYew
    | with_reducible apply State.keep_keeps kYew kWr
    | with_reducible apply State.jRoom_keeps kYew kWr
    | dsimp only
    | split
    | intro _

theorem State.jScan_keeps {P : State → Prop} (kYew : KYew P) (s : State) (hP : P s) :
 P (State.jScan s) := by
  unfold State.jScan
  repeat' first
    | with_reducible assumption
    | exact rfl
    | exact fun _ => ⟨rfl, rfl, rfl⟩
    | with_reducible apply kYew
    | with_reducible apply foldl_keeps
    | with_reducible apply foldl2_keeps
    | with_reducible apply foldl3_keeps
    | dsimp only
    | split
    | intro _

theorem State.yErr_keeps {P : State → Prop} (kWr : KWr P) (s : State) (e : Nat) (hP : P s) :
 P (State.yErr s e) := by
  unfold State.yErr
  repeat' first
    | with_reducible assumption
    | exact rfl
    | exact fun _ => ⟨rfl, rfl, rfl⟩
    | with_reducible apply kWr
    | dsimp only
    | split
    | intro _

theorem State.yClose_keeps {P : State → Prop} (kYew : KYew P) (kWr : KWr P) (s : State) (e : Nat) (hP : P s) :
 P (State.yClose s e) := by
  unfold State.yClose
  repeat' first
    | with_reducible assumption
    | exact rfl
    | exact fun _ => ⟨rfl, rfl, rfl⟩
    | with_reducible apply State.yErr_keeps kWr
    | with_reducible apply kYew
    | dsimp only
    | split
    | intro _

theorem State.yStep_keeps {P : State → Prop} (kYew : KYew P) (kWr : KWr P) (s : State) (m : Master) (step : Nat) (f : YSeq → State) (hP : P s) (hF : ∀ q, P (f q)) :
 P (State.yStep s m step f) := by
  unfold State.yStep
  split
  · exact State.yErr_keeps kWr _ _ hP
  · split
    · exact State.yErr_keeps kWr _ _ hP
    · split
      · exact State.yClose_keeps kYew kWr _ _ hP
      · exact hF _

theorem State.yKey_keeps {P : State → Prop} (kYew : KYew P) (kWr : KWr P) (s : State) (m : Master) (v : Nat) (hP : P s) :
 P (State.yKey s m v) := by
  unfold State.yKey
  repeat' first
    | with_reducible assumption
    | exact rfl
    | exact fun _ => ⟨rfl, rfl, rfl⟩
    | with_reducible apply kYew
    | with_reducible apply State.yErr_keeps kWr
    | with_reducible apply State.yClose_keeps kYew kWr
    | dsimp only
    | split
    | intro _

theorem State.ySuspend_keeps {P : State → Prop} (kYew : KYew P) (s : State) (b : Nat) (hP : P s) :
 P (State.ySuspend s b) := by
  unfold State.ySuspend
  repeat' first
    | with_reducible assumption
    | exact rfl
    | exact fun _ => ⟨rfl, rfl, rfl⟩
    | with_reducible apply State.ySet_keeps kYew
    | dsimp only
    | split
    | intro _

theorem State.yResume_keeps {P : State → Prop} (kYew : KYew P) (s : State) (b : Nat) (hP : P s) :
 P (State.yResume s b) := by
  unfold State.yResume
  repeat' first
    | with_reducible assumption
    | exact rfl
    | exact fun _ => ⟨rfl, rfl, rfl⟩
    | with_reducible apply State.ySet_keeps kYew
    | dsimp only
    | split
    | intro _

theorem State.yCmd_keeps {P : State → Prop} (kYew : KYew P) (kWr : KWr P) (s : State) (m : Master) (v : Nat) (hP : P s) :
 P (State.yCmd s m v) := by
  unfold State.yCmd
  repeat' first
    | with_reducible assumption
    | exact rfl
    | exact fun _ => ⟨rfl, rfl, rfl⟩
    | with_reducible apply kYew
    | with_reducible apply State.ySuspend_keeps kYew
    | with_reducible apply State.yStep_keeps kYew kWr
    | with_reducible apply State.yResume_keeps kYew
    | with_reducible apply State.yClose_keeps kYew kWr
    | dsimp only
    | split
    | intro _

theorem State.yStart_keeps {P : State → Prop} (kYew : KYew P) (kWr : KWr P) (s : State) (o : YOp) (hP : P s) :
 P (State.yStart s o) := by
  unfold State.yStart
  repeat' first
    | with_reducible assumption
    | exact rfl
    | exact fun _ => ⟨rfl, rfl, rfl⟩
    | with_reducible apply State.ySet_keeps kYew
    | with_reducible apply kYew
    | with_reducible apply kWr
    | dsimp only
    | split
    | intro _

theorem State.yAddrWrite_keeps {P : State → Prop} (kYew : KYew P) (kWr : KWr P) (s : State) (m : Master) (v : Nat) (hP : P s) :
 P (State.yAddrWrite s m v) := by
  unfold State.yAddrWrite
  repeat' first
    | with_reducible assumption
    | exact rfl
    | exact fun _ => ⟨rfl, rfl, rfl⟩
    | with_reducible apply kYew
    | with_reducible apply State.yStep_keeps kYew kWr
    | with_reducible apply State.yClose_keeps kYew kWr
    | with_reducible apply State.yStart_keeps kYew kWr
    | dsimp only
    | split
    | intro _

theorem State.yDataHi_keeps {P : State → Prop} (kYew : KYew P) (kWr : KWr P) (s : State) (m : Master) (v : Nat) (hP : P s) :
 P (State.yDataHi s m v) := by
  unfold State.yDataHi
  repeat' first
    | with_reducible assumption
    | exact rfl
    | exact fun _ => ⟨rfl, rfl, rfl⟩
    | with_reducible apply State.yStep_keeps kYew kWr
    | with_reducible apply State.yClose_keeps kYew kWr
    | with_reducible apply State.yStart_keeps kYew kWr
    | dsimp only
    | split
    | intro _

theorem State.yDataLo_keeps {P : State → Prop} (kYew : KYew P) (kWr : KWr P) (s : State) (m : Master) (v : Nat) (hP : P s) :
 P (State.yDataLo s m v) := by
  unfold State.yDataLo
  repeat' first
    | with_reducible assumption
    | exact rfl
    | exact fun _ => ⟨rfl, rfl, rfl⟩
    | with_reducible apply kYew
    | with_reducible apply State.yStep_keeps kYew kWr
    | dsimp only
    | split
    | intro _

theorem State.yRead_keeps {P : State → Prop} (kErr : KErr P) (kWr : KWr P) (kResp : KResp P) (s : State) (m : Nat) (hP : P s) :
 P (State.yRead s m) := by
  unfold State.yRead
  dsimp only
  split
  · exact kResp _ _ (State.err1_keeps kErr kWr _ _ _ _ _ _ _ (State.bump_keeps kWr _ _ _ (State.setb_keeps kWr _ _ hP rfl) rfl))
  · have h : P (s.when (s.is Reg.YEW_RADDR_AUTOINC) fun s => s.wr Reg.YEW_RADDR_ADDR (s.rd Reg.YEW_RADDR_ADDR + 1)) :=
      when_keeps _ _ _ (fun h => kWr _ _ _ rfl h) hP
    split
    · exact kResp _ _ (State.err1_keeps kErr kWr _ _ _ _ _ _ _ h)
    · exact kResp _ _ (kWr _ _ _ rfl (kWr _ _ _ rfl h))

theorem State.ySuspendNow_keeps {P : State → Prop} (kErr : KErr P) (kYew : KYew P) (kWr : KWr P) (s : State) (b : Nat) (o : YOp) (hP : P s) :
 P (State.ySuspendNow s b o) := by
  unfold State.ySuspendNow
  repeat' first
    | with_reducible assumption
    | exact rfl
    | exact fun _ => ⟨rfl, rfl, rfl⟩
    | with_reducible apply State.ySet_keeps kYew
    | with_reducible apply State.err1_keeps kErr kWr
    | with_reducible apply State.bump_keeps kWr
    | with_reducible apply State.setb_keeps kWr
    | dsimp only
    | split
    | intro _

theorem State.yHigh_keeps {P : State → Prop} (kErr : KErr P) (kWr : KWr P) (s : State) (o : YOp) (n : Nat) (hP : P s) :
 P (State.yHigh s o n) := by
  unfold State.yHigh
  repeat' first
    | with_reducible assumption
    | exact rfl
    | exact fun _ => ⟨rfl, rfl, rfl⟩
    | with_reducible apply State.err1_keeps kErr kWr
    | with_reducible apply State.setb_keeps kWr
    | dsimp only
    | split
    | intro _

theorem State.yEnd_keeps {P : State → Prop} (kErr : KErr P) (kYew : KYew P) (kWr : KWr P) (s : State) (b : Nat) (o : YOp) (n err : Nat) (hP : P s) :
 P (State.yEnd s b o n err) := by
  unfold State.yEnd
  repeat' first
    | with_reducible assumption
    | exact rfl
    | exact fun _ => ⟨rfl, rfl, rfl⟩
    | with_reducible apply State.ySet_keeps kYew
    | with_reducible apply kWr
    | with_reducible apply State.yErr_keeps kWr
    | with_reducible apply State.err1_keeps kErr kWr
    | with_reducible apply State.bump_keeps kWr
    | with_reducible apply State.setb_keeps kWr
    | with_reducible apply when_keeps
    | dsimp only
    | split
    | intro _

theorem State.yTear_keeps {P : State → Prop} (kYew : KYew P) (kDrawn : KDrawn P) (s : State) (a : Nat) (hP : P s) :
 P (State.yTear s a) := by
  unfold State.yTear
  repeat' first
    | with_reducible assumption
    | exact rfl
    | exact fun _ => ⟨rfl, rfl, rfl⟩
    | with_reducible apply State.yPut_keeps kYew
    | with_reducible apply kYew
    | with_reducible apply State.draw_keeps kDrawn
    | with_reducible refine State.draw_keeps' kDrawn ‹_ = (_, _)› ?_
    | dsimp only
    | split
    | intro _

theorem State.yTearSector_keeps {P : State → Prop} (kYew : KYew P) (kDrawn : KDrawn P) (s : State) (a : Nat) (hP : P s) :
 P (State.yTearSector s a) := by
  unfold State.yTearSector
  repeat' first
    | with_reducible assumption
    | exact rfl
    | exact fun _ => ⟨rfl, rfl, rfl⟩
    | with_reducible apply State.yTear_keeps kYew kDrawn
    | with_reducible apply each_keeps
    | dsimp only
    | split
    | intro _

theorem State.yPulse_keeps {P : State → Prop} (kErr : KErr P) (kYew : KYew P) (kWr : KWr P) (kDrawn : KDrawn P) (s : State) (b : Nat) (o : YOp) (ok : Bool) (hP : P s) :
 P (State.yPulse s b o ok).2 := by
  unfold State.yPulse
  repeat' first
    | with_reducible assumption
    | exact rfl
    | exact fun _ => ⟨rfl, rfl, rfl⟩
    | with_reducible apply State.yTearSector_keeps kYew kDrawn
    | with_reducible apply State.ySet_keeps kYew
    | with_reducible apply State.yHigh_keeps kErr kWr
    | with_reducible apply State.ySuspendNow_keeps kErr kYew kWr
    | with_reducible apply State.yTear_keeps kYew kDrawn
    | with_reducible apply State.yEraseSector_keeps kYew
    | with_reducible apply State.yPut_keeps kYew
    | with_reducible apply State.yEnd_keeps kErr kYew kWr
    | dsimp only
    | split
    | intro _

theorem State.yPulse_keeps' {P : State → Prop} (kErr : KErr P) (kYew : KYew P) (kWr : KWr P) (kDrawn : KDrawn P) {s : State} {b : Nat} {o : YOp} {ok : Bool} {x0 : Bool} {t : State}
    (hE : State.yPulse s b o ok = (x0, t)) (hP : P s)  : P t := by
  have h := State.yPulse_keeps kErr kYew kWr kDrawn s b o ok hP
  rw [hE] at h
  exact h

theorem State.yCut_keeps {P : State → Prop} (kYew : KYew P) (kDrawn : KDrawn P) (s : State) (hP : P s) :
 P (State.yCut s) := by
  unfold State.yCut
  repeat' first
    | with_reducible assumption
    | exact rfl
    | exact fun _ => ⟨rfl, rfl, rfl⟩
    | with_reducible apply State.yTearSector_keeps kYew kDrawn
    | with_reducible apply State.yTear_keeps kYew kDrawn
    | with_reducible apply each_keeps
    | with_reducible apply State.ySet_keeps kYew
    | dsimp only
    | split
    | intro _

theorem execYewKeyWrite_keeps {P : State → Prop} (kYew : KYew P) (kPwr : KPwr P) (kWr : KWr P) (kResp : KResp P) (m : Master) (v : W32) (s : State) (hP : P s) :
    Out.All P (execYewKeyWrite m v s) := by
  unfold execYewKeyWrite
  repeat' first
    | with_reducible apply Out.all_next
    | exact trivial
    | with_reducible assumption
    | exact rfl
    | exact fun _ => ⟨rfl, rfl, rfl⟩
    | with_reducible apply State.yKey_keeps kYew kWr
    | with_reducible apply State.access_keeps kPwr kResp
    | dsimp only
    | split
    | intro _

theorem execYewCmdProgram_keeps {P : State → Prop} (kYew : KYew P) (kPwr : KPwr P) (kWr : KWr P) (kResp : KResp P) (m : Master) (v : W32) (s : State) (hP : P s) :
    Out.All P (execYewCmdProgram m v s) := by
  unfold execYewCmdProgram
  repeat' first
    | with_reducible apply Out.all_next
    | exact trivial
    | with_reducible assumption
    | exact rfl
    | exact fun _ => ⟨rfl, rfl, rfl⟩
    | with_reducible apply State.yCmd_keeps kYew kWr
    | with_reducible apply State.access_keeps kPwr kResp
    | dsimp only
    | split
    | intro _

theorem execYewCmdErase_keeps {P : State → Prop} (kYew : KYew P) (kPwr : KPwr P) (kWr : KWr P) (kResp : KResp P) (m : Master) (v : W32) (s : State) (hP : P s) :
    Out.All P (execYewCmdErase m v s) := by
  unfold execYewCmdErase
  repeat' first
    | with_reducible apply Out.all_next
    | exact trivial
    | with_reducible assumption
    | exact rfl
    | exact fun _ => ⟨rfl, rfl, rfl⟩
    | with_reducible apply State.yCmd_keeps kYew kWr
    | with_reducible apply State.access_keeps kPwr kResp
    | dsimp only
    | split
    | intro _

theorem execYewCmdSuspend_keeps {P : State → Prop} (kYew : KYew P) (kPwr : KPwr P) (kWr : KWr P) (kResp : KResp P) (m : Master) (v : W32) (s : State) (hP : P s) :
    Out.All P (execYewCmdSuspend m v s) := by
  unfold execYewCmdSuspend
  repeat' first
    | with_reducible apply Out.all_next
    | exact trivial
    | with_reducible assumption
    | exact rfl
    | exact fun _ => ⟨rfl, rfl, rfl⟩
    | with_reducible apply State.yCmd_keeps kYew kWr
    | with_reducible apply State.access_keeps kPwr kResp
    | dsimp only
    | split
    | intro _

theorem execYewCmdResume_keeps {P : State → Prop} (kYew : KYew P) (kPwr : KPwr P) (kWr : KWr P) (kResp : KResp P) (m : Master) (v : W32) (s : State) (hP : P s) :
    Out.All P (execYewCmdResume m v s) := by
  unfold execYewCmdResume
  repeat' first
    | with_reducible apply Out.all_next
    | exact trivial
    | with_reducible assumption
    | exact rfl
    | exact fun _ => ⟨rfl, rfl, rfl⟩
    | with_reducible apply State.yCmd_keeps kYew kWr
    | with_reducible apply State.access_keeps kPwr kResp
    | dsimp only
    | split
    | intro _

theorem execYewAddrWrite_keeps {P : State → Prop} (kYew : KYew P) (kPwr : KPwr P) (kWr : KWr P) (kResp : KResp P) (m : Master) (v : W32) (s : State) (hP : P s) :
    Out.All P (execYewAddrWrite m v s) := by
  unfold execYewAddrWrite
  repeat' first
    | with_reducible apply Out.all_next
    | exact trivial
    | with_reducible assumption
    | exact rfl
    | exact fun _ => ⟨rfl, rfl, rfl⟩
    | with_reducible apply State.yAddrWrite_keeps kYew kWr
    | with_reducible apply State.access_keeps kPwr kResp
    | dsimp only
    | split
    | intro _

theorem execYewDataLoWrite_keeps {P : State → Prop} (kYew : KYew P) (kPwr : KPwr P) (kWr : KWr P) (kResp : KResp P) (m : Master) (v : W32) (s : State) (hP : P s) :
    Out.All P (execYewDataLoWrite m v s) := by
  unfold execYewDataLoWrite
  repeat' first
    | with_reducible apply Out.all_next
    | exact trivial
    | with_reducible assumption
    | exact rfl
    | exact fun _ => ⟨rfl, rfl, rfl⟩
    | with_reducible apply State.yDataLo_keeps kYew kWr
    | with_reducible apply State.access_keeps kPwr kResp
    | dsimp only
    | split
    | intro _

theorem execYewDataHiWrite_keeps {P : State → Prop} (kYew : KYew P) (kPwr : KPwr P) (kWr : KWr P) (kResp : KResp P) (m : Master) (v : W32) (s : State) (hP : P s) :
    Out.All P (execYewDataHiWrite m v s) := by
  unfold execYewDataHiWrite
  repeat' first
    | with_reducible apply Out.all_next
    | exact trivial
    | with_reducible assumption
    | exact rfl
    | exact fun _ => ⟨rfl, rfl, rfl⟩
    | with_reducible apply State.yDataHi_keeps kYew kWr
    | with_reducible apply State.access_keeps kPwr kResp
    | dsimp only
    | split
    | intro _

theorem execYewSequenceTimeout_keeps {P : State → Prop} (kYew : KYew P) (kWr : KWr P) (s : State) (hP : P s) :
    Out.All P (execYewSequenceTimeout s) := by
  unfold execYewSequenceTimeout
  repeat' first
    | with_reducible apply Out.all_next
    | exact trivial
    | with_reducible assumption
    | exact rfl
    | exact fun _ => ⟨rfl, rfl, rfl⟩
    | with_reducible apply State.yClose_keeps kYew kWr
    | dsimp only
    | split
    | intro _

theorem execYewRdataRead_keeps {P : State → Prop} (kErr : KErr P) (kPwr : KPwr P) (kWr : KWr P) (kResp : KResp P) (m : Master) (s : State) (hP : P s) :
    Out.All P (execYewRdataRead m s) := by
  unfold execYewRdataRead
  repeat' first
    | with_reducible apply Out.all_next
    | exact trivial
    | with_reducible assumption
    | exact rfl
    | exact fun _ => ⟨rfl, rfl, rfl⟩
    | with_reducible apply State.yRead_keeps kErr kWr kResp
    | with_reducible apply State.access_keeps kPwr kResp
    | dsimp only
    | split
    | intro _

theorem execYewSuspendEffect_keeps {P : State → Prop} (kErr : KErr P) (kYew : KYew P) (kWr : KWr P) (bank : Fin 2) (s : State) (hP : P s) :
    Out.All P (execYewSuspendEffect bank s) := by
  unfold execYewSuspendEffect
  repeat' first
    | with_reducible apply Out.all_next
    | exact trivial
    | with_reducible assumption
    | exact rfl
    | exact fun _ => ⟨rfl, rfl, rfl⟩
    | with_reducible apply State.ySuspendNow_keeps kErr kYew kWr
    | dsimp only
    | split
    | intro _

theorem execYewSliceExpiry_keeps {P : State → Prop} (kYew : KYew P) (bank : Fin 2) (s : State) (hP : P s) :
    Out.All P (execYewSliceExpiry bank s) := by
  unfold execYewSliceExpiry
  repeat' first
    | with_reducible apply Out.all_next
    | exact trivial
    | with_reducible assumption
    | exact rfl
    | exact fun _ => ⟨rfl, rfl, rfl⟩
    | with_reducible apply State.yResume_keeps kYew
    | dsimp only
    | split
    | intro _

end Sys2Proof.Machine
end

