-- ==== Sys2Proof/Laws/KeepsKeep.lean ====
section
/-!
SUPPORT. What the operations of Machine/Keep.lean can do: each one keeps every property of a state that its own primitive
updates keep. The hypotheses of a lemma name every unit the operation can reach.
-/
namespace Sys2Proof.Machine

theorem State.keepTrain_keeps {P : State → Prop} (kYew : KYew P) (kWr : KWr P) (s : State) (n : Nat) (hP : P s) :
 P (State.keepTrain s n) := by
  unfold State.keepTrain
  repeat' first
    | with_reducible assumption
    | exact rfl
    | exact fun _ => ⟨rfl, rfl, rfl⟩
    | with_reducible apply State.keep_keeps kYew kWr
    | dsimp only
    | split
    | intro _

theorem State.jnpSectorNow_keeps {P : State → Prop} (kErr : KErr P) (kHdg : KHdg P) (kPut : KPut P) (kJnp : KJnp P) (kWr : KWr P) (kDrawn : KDrawn P) (s : State) (k : Nat) (hP : P s) :
 P (State.jnpSectorNow s k).2 := by
  unfold State.jnpSectorNow
  repeat' first
    | with_reducible assumption
    | exact rfl
    | exact fun _ => ⟨rfl, rfl, rfl⟩
    | with_reducible apply State.grpRead_keeps kErr kHdg kPut kJnp kWr kDrawn
    | with_reducible refine State.grpRead_keeps' kErr kHdg kPut kJnp kWr kDrawn ‹_ = (_, _)› ?_
    | with_reducible apply foldl_keeps
    | with_reducible apply foldl2_keeps
    | with_reducible apply foldl3_keeps
    | dsimp only
    | split
    | intro _

theorem State.jnpSectorNow_keeps' {P : State → Prop} (kErr : KErr P) (kHdg : KHdg P) (kPut : KPut P) (kJnp : KJnp P) (kWr : KWr P) (kDrawn : KDrawn P) {s : State} {k : Nat} {x0 : List Byte} {t : State}
    (hE : State.jnpSectorNow s k = (x0, t)) (hP : P s)  : P t := by
  have h := State.jnpSectorNow_keeps kErr kHdg kPut kJnp kWr kDrawn s k hP
  rw [hE] at h
  exact h

theorem State.jnpCheckpoint_keeps {P : State → Prop} (kErr : KErr P) (kHdg : KHdg P) (kPut : KPut P) (kJnp : KJnp P) (kYew : KYew P) (kWr : KWr P) (kDrawn : KDrawn P) (s : State) (hP : P s) :
 P (State.jnpCheckpoint s) := by
  unfold State.jnpCheckpoint
  repeat' first
    | with_reducible assumption
    | exact rfl
    | exact fun _ => ⟨rfl, rfl, rfl⟩
    | with_reducible apply State.keep_keeps kYew kWr
    | with_reducible apply kJnp
    | with_reducible apply State.setb_keeps kWr
    | with_reducible apply State.jnpSectorNow_keeps kErr kHdg kPut kJnp kWr kDrawn
    | with_reducible refine State.jnpSectorNow_keeps' kErr kHdg kPut kJnp kWr kDrawn ‹_ = (_, _)› ?_
    | with_reducible apply foldl_keeps
    | with_reducible apply foldl2_keeps
    | with_reducible apply foldl3_keeps
    | dsimp only
    | split
    | intro _

theorem State.ckptStep_keeps {P : State → Prop} (kQue : KQue P) (kYew : KYew P) (kWr : KWr P) (s : State) (hP : P s) :
 P (State.ckptStep s) := by
  unfold State.ckptStep
  repeat' first
    | with_reducible assumption
    | exact rfl
    | exact fun _ => ⟨rfl, rfl, rfl⟩
    | with_reducible apply each_keeps
    | with_reducible apply State.jPut_keeps kYew kWr
    | with_reducible apply State.onCmd_keeps kQue
    | dsimp only
    | split
    | intro _

theorem State.dormantStep_keeps {P : State → Prop} (kErr : KErr P) (kQue : KQue P) (kHdg : KHdg P) (kPut : KPut P) (kJnp : KJnp P) (kYew : KYew P) (kWr : KWr P) (kDrawn : KDrawn P) (s : State) (hP : P s) :
 P (State.dormantStep s) := by
  unfold State.dormantStep
  repeat' first
    | with_reducible assumption
    | exact rfl
    | exact fun _ => ⟨rfl, rfl, rfl⟩
    | with_reducible apply each_keeps
    | with_reducible apply State.jnpCheckpoint_keeps kErr kHdg kPut kJnp kYew kWr kDrawn
    | with_reducible apply State.jPut_keeps kYew kWr
    | with_reducible apply State.onCmd_keeps kQue
    | dsimp only
    | split
    | intro _

end Sys2Proof.Machine
end

