-- ==== Sys2Proof/Laws/KeepsLunQueue.lean ====
section
/-!
SUPPORT. What the operations of Machine/LunQueue.lean can do: each one keeps every property of a state that its own primitive
updates keep. The hypotheses of a lemma name every unit the operation can reach.
-/
namespace Sys2Proof.Machine

theorem State.onOp_keeps {P : State → Prop} (kTop : KTop P) (s : State) (id : Nat) (f : Op → Op) (hP : P s) :
 P (State.onOp s id f) := by
  unfold State.onOp
  repeat' first
    | with_reducible assumption
    | exact rfl
    | exact fun _ => ⟨rfl, rfl, rfl⟩
    | with_reducible apply kTop
    | dsimp only
    | split
    | intro _

theorem State.lunLevel_keeps {P : State → Prop} (kWr : KWr P) (s : State) (lun was : Nat) (hP : P s) :
 P (State.lunLevel s lun was) := by
  unfold State.lunLevel
  repeat' first
    | with_reducible assumption
    | exact rfl
    | exact fun _ => ⟨rfl, rfl, rfl⟩
    | with_reducible apply State.wrBit_keeps kWr
    | with_reducible apply when_keeps
    | dsimp only
    | split
    | intro _

theorem State.addOp_keeps {P : State → Prop} (kTop : KTop P) (kWr : KWr P) (s : State) (o : Op) (hP : P s) :
 P (State.addOp s o) := by
  unfold State.addOp
  repeat' first
    | with_reducible assumption
    | exact rfl
    | exact fun _ => ⟨rfl, rfl, rfl⟩
    | with_reducible apply kTop
    | with_reducible apply State.lunLevel_keeps kWr
    | dsimp only
    | split
    | intro _

theorem State.admitOps_keeps {P : State → Prop} (kTop : KTop P) (kWr : KWr P) (s : State) (lun : Nat) (hP : P s) :
 P (State.admitOps s lun) := by
  unfold State.admitOps
  repeat' first
    | with_reducible assumption
    | exact rfl
    | exact fun _ => ⟨rfl, rfl, rfl⟩
    | with_reducible apply kTop
    | with_reducible apply each_keeps
    | with_reducible apply State.lunLevel_keeps kWr
    | dsimp only
    | split
    | intro _

theorem State.delOp_keeps {P : State → Prop} (kTop : KTop P) (kChan : KChan P) (kBox : KBox P) (kWr : KWr P) (s : State) (id : Nat) (hP : P s) :
 P (State.delOp s id) := by
  unfold State.delOp
  repeat' first
    | with_reducible assumption
    | exact rfl
    | exact fun _ => ⟨rfl, rfl, rfl⟩
    | with_reducible apply kTop
    | with_reducible apply kChan
    | with_reducible apply State.admitOps_keeps kTop kWr
    | with_reducible apply kBox
    | dsimp only
    | split
    | intro _

theorem State.opTokens_keeps {P : State → Prop} (kTop : KTop P) (kBox : KBox P) (kWr : KWr P) (s : State) (id : Nat) (hP : P s) :
 P (State.opTokens s id) := by
  unfold State.opTokens
  repeat' first
    | with_reducible assumption
    | exact rfl
    | exact fun _ => ⟨rfl, rfl, rfl⟩
    | with_reducible apply State.giveTokens_keeps kTop kBox kWr
    | with_reducible apply State.onOp_keeps kTop
    | dsimp only
    | split
    | intro _

theorem State.onFlight_keeps {P : State → Prop} (kEcc : KEcc P) (s : State) (id : Nat) (g : Flight → Flight) (hP : P s) :
 P (State.onFlight s id g) := by
  unfold State.onFlight
  repeat' first
    | with_reducible assumption
    | exact rfl
    | exact fun _ => ⟨rfl, rfl, rfl⟩
    | with_reducible apply kEcc
    | dsimp only
    | split
    | intro _

theorem State.delFlight_keeps {P : State → Prop} (kEcc : KEcc P) (s : State) (id : Nat) (hP : P s) :
 P (State.delFlight s id) := by
  unfold State.delFlight
  repeat' first
    | with_reducible assumption
    | exact rfl
    | exact fun _ => ⟨rfl, rfl, rfl⟩
    | with_reducible apply kEcc
    | dsimp only
    | split
    | intro _

theorem State.queueRead_keeps {P : State → Prop} (kTop : KTop P) (kWr : KWr P) (s : State) (f : Flight) (raw : Bool) (hP : P s) :
 P (State.queueRead s f raw) := by
  unfold State.queueRead
  repeat' first
    | with_reducible assumption
    | exact rfl
    | exact fun _ => ⟨rfl, rfl, rfl⟩
    | with_reducible apply State.addOp_keeps kTop kWr
    | with_reducible apply State.onOp_keeps kTop
    | dsimp only
    | split
    | intro _

theorem State.addFlight_keeps {P : State → Prop} (kTop : KTop P) (kEcc : KEcc P) (kWr : KWr P) (s : State) (f : Flight) (raw : Bool) (hP : P s) :
 P (State.addFlight s f raw) := by
  unfold State.addFlight
  repeat' first
    | with_reducible assumption
    | exact rfl
    | exact fun _ => ⟨rfl, rfl, rfl⟩
    | with_reducible apply State.queueRead_keeps kTop kWr
    | with_reducible apply kEcc
    | dsimp only
    | split
    | intro _

theorem State.onGroup_keeps {P : State → Prop} (kTop : KTop P) (s : State) (g : WGroup) (f : WGroup → WGroup) (hP : P s) :
 P (State.onGroup s g f) := by
  unfold State.onGroup
  repeat' first
    | with_reducible assumption
    | exact rfl
    | exact fun _ => ⟨rfl, rfl, rfl⟩
    | with_reducible apply kTop
    | dsimp only
    | split
    | intro _

theorem State.padGroup_keeps {P : State → Prop} (kTop : KTop P) (kWr : KWr P) (s : State) (g : WGroup) (hP : P s) :
 P (State.padGroup s g) := by
  unfold State.padGroup
  repeat' first
    | with_reducible assumption
    | exact rfl
    | exact fun _ => ⟨rfl, rfl, rfl⟩
    | with_reducible apply kTop
    | with_reducible apply State.bump_keeps kWr
    | dsimp only
    | split
    | intro _

theorem State.endGather_keeps {P : State → Prop} (kTop : KTop P) (s : State) (g : WGroup) (hP : P s) :
 P (State.endGather s g) := by
  unfold State.endGather
  repeat' first
    | with_reducible assumption
    | exact rfl
    | exact fun _ => ⟨rfl, rfl, rfl⟩
    | with_reducible apply kTop
    | dsimp only
    | split
    | intro _

theorem State.forceOne_keeps {P : State → Prop} (kTop : KTop P) (kWr : KWr P) (s : State) (g : WGroup) (hP : P s) :
 P (State.forceOne s g) := by
  unfold State.forceOne
  repeat' first
    | with_reducible assumption
    | exact rfl
    | exact fun _ => ⟨rfl, rfl, rfl⟩
    | with_reducible apply State.endGather_keeps kTop
    | with_reducible apply State.padGroup_keeps kTop kWr
    | with_reducible apply State.onGroup_keeps kTop
    | dsimp only
    | split
    | intro _

theorem State.forceSet_keeps {P : State → Prop} (kTop : KTop P) (kWr : KWr P) (s : State) (lun block cclass plane upto : Nat) (hP : P s) :
 P (State.forceSet s lun block cclass plane upto) := by
  unfold State.forceSet
  repeat' first
    | with_reducible assumption
    | exact rfl
    | exact fun _ => ⟨rfl, rfl, rfl⟩
    | with_reducible apply State.forceOne_keeps kTop kWr
    | with_reducible apply each_keeps
    | dsimp only
    | split
    | intro _

theorem State.openGroup_keeps {P : State → Prop} (kTop : KTop P) (kWr : KWr P) (s : State) (g : WGroup) (o : Op) (hP : P s) :
 P (State.openGroup s g o) := by
  unfold State.openGroup
  repeat' first
    | with_reducible assumption
    | exact rfl
    | exact fun _ => ⟨rfl, rfl, rfl⟩
    | with_reducible apply kTop
    | with_reducible apply State.addOp_keeps kTop kWr
    | dsimp only
    | split
    | intro _

theorem State.noteClass_keeps {P : State → Prop} (kTop : KTop P) (s : State) (f : PFrame) (hP : P s) :
 P (State.noteClass s f) := by
  unfold State.noteClass
  repeat' first
    | with_reducible assumption
    | exact rfl
    | exact fun _ => ⟨rfl, rfl, rfl⟩
    | with_reducible apply kTop
    | dsimp only
    | split
    | intro _

theorem State.addPFrame_keeps {P : State → Prop} (kTop : KTop P) (kWr : KWr P) (s : State) (f : PFrame) (planes : Nat) (o : Op) (pslc : Bool) (hP : P s) :
 P (State.addPFrame s f planes o pslc) := by
  unfold State.addPFrame
  repeat' first
    | with_reducible assumption
    | exact rfl
    | exact fun _ => ⟨rfl, rfl, rfl⟩
    | with_reducible apply kTop
    | with_reducible apply State.forceOne_keeps kTop kWr
    | with_reducible apply State.noteClass_keeps kTop
    | with_reducible apply State.openGroup_keeps kTop kWr
    | dsimp only
    | split
    | intro _

theorem State.forceFrame_keeps {P : State → Prop} (kTop : KTop P) (kWr : KWr P) (s : State) (a c : Nat) (pslc : Bool) (hP : P s) :
 P (State.forceFrame s a c pslc) := by
  unfold State.forceFrame
  repeat' first
    | with_reducible assumption
    | exact rfl
    | exact fun _ => ⟨rfl, rfl, rfl⟩
    | with_reducible apply each_keeps
    | with_reducible apply State.forceSet_keeps kTop kWr
    | with_reducible apply State.openGroup_keeps kTop kWr
    | dsimp only
    | split
    | intro _

end Sys2Proof.Machine
end

