-- ==== Sys2Proof/Laws/KeepsMeasure.lean ====
section
/-!
SUPPORT. What the operations of Machine/Measure.lean can do: each one keeps every property of a state that its own primitive
updates keep. The hypotheses of a lemma name every unit the operation can reach.
-/
namespace Sys2Proof.Machine

theorem State.readSample_keeps {P : State → Prop} (kTop : KTop P) (kEcc : KEcc P) (kWr : KWr P) (s : State) (ref : FRef) (p : List Byte) (lun c eclass step : Nat) (x : Sample) (hP : P s) :
 P (State.readSample s ref p lun c eclass step x) := by
  unfold State.readSample
  repeat' first
    | with_reducible assumption
    | exact rfl
    | exact fun _ => ⟨rfl, rfl, rfl⟩
    | with_reducible apply each_keeps
    | with_reducible apply State.addFlight_keeps kTop kEcc kWr
    | dsimp only
    | split
    | intro _

theorem State.onCal_keeps {P : State → Prop} (kJnp : KJnp P) (s : State) (n : Nat) (f : CalRun → CalRun) (hP : P s) :
 P (State.onCal s n f) := by
  unfold State.onCal
  repeat' first
    | with_reducible assumption
    | exact rfl
    | exact fun _ => ⟨rfl, rfl, rfl⟩
    | with_reducible apply kJnp
    | dsimp only
    | split
    | intro _

theorem State.nextCand_keeps {P : State → Prop} (kJnp : KJnp P) (s : State) (n lun block : Nat) (p : List Byte) (r : CalRun) (hP : P s) :
 P (State.nextCand s n lun block p r) := by
  unfold State.nextCand
  repeat' first
    | with_reducible assumption
    | exact rfl
    | exact fun _ => ⟨rfl, rfl, rfl⟩
    | with_reducible apply State.onCal_keeps kJnp
    | dsimp only
    | split
    | intro _

theorem State.calibStep_keeps {P : State → Prop} (kTop : KTop P) (kEcc : KEcc P) (kJnp : KJnp P) (kWr : KWr P) (s : State) (n : Nat) (r : CalRun) (hP : P s) :
 P (State.calibStep s n r) := by
  unfold State.calibStep
  repeat' first
    | with_reducible assumption
    | exact rfl
    | exact fun _ => ⟨rfl, rfl, rfl⟩
    | with_reducible apply State.nextCand_keeps kJnp
    | with_reducible apply State.readSample_keeps kTop kEcc kWr
    | with_reducible apply State.onCal_keeps kJnp
    | dsimp only
    | split
    | intro _

theorem State.calScore_keeps {P : State → Prop} (kJnp : KJnp P) (s : State) (n bad : Nat) (hP : P s) :
 P (State.calScore s n bad) := by
  unfold State.calScore
  repeat' first
    | with_reducible assumption
    | exact rfl
    | exact fun _ => ⟨rfl, rfl, rfl⟩
    | with_reducible apply State.onCal_keeps kJnp
    | dsimp only
    | split
    | intro _

theorem State.onPatrol_keeps {P : State → Prop} (kJnp : KJnp P) (s : State) (lun : Nat) (f : PatrolRun → PatrolRun) (hP : P s) :
 P (State.onPatrol s lun f) := by
  unfold State.onPatrol
  repeat' first
    | with_reducible assumption
    | exact rfl
    | exact fun _ => ⟨rfl, rfl, rfl⟩
    | with_reducible apply kJnp
    | dsimp only
    | split
    | intro _

theorem State.patrolStep_keeps {P : State → Prop} (kTop : KTop P) (kEcc : KEcc P) (kJnp : KJnp P) (kWr : KWr P) (s : State) (lun : Nat) (r : PatrolRun) (hP : P s) :
 P (State.patrolStep s lun r) := by
  unfold State.patrolStep
  repeat' first
    | with_reducible assumption
    | exact rfl
    | exact fun _ => ⟨rfl, rfl, rfl⟩
    | with_reducible apply State.readSample_keeps kTop kEcc kWr
    | with_reducible apply State.onPatrol_keeps kJnp
    | dsimp only
    | split
    | intro _

theorem State.patrolFrame_keeps {P : State → Prop} (kJnp : KJnp P) (s : State) (lun st depth : Nat) (hP : P s) :
 P (State.patrolFrame s lun st depth) := by
  unfold State.patrolFrame
  repeat' first
    | with_reducible assumption
    | exact rfl
    | exact fun _ => ⟨rfl, rfl, rfl⟩
    | with_reducible apply State.onPatrol_keeps kJnp
    | dsimp only
    | split
    | intro _

theorem State.measureStep_keeps {P : State → Prop} (kTop : KTop P) (kEcc : KEcc P) (kJnp : KJnp P) (kWr : KWr P) (s : State) (hP : P s) :
 P (State.measureStep s) := by
  unfold State.measureStep
  repeat' first
    | with_reducible assumption
    | exact rfl
    | exact fun _ => ⟨rfl, rfl, rfl⟩
    | with_reducible apply State.patrolStep_keeps kTop kEcc kJnp kWr
    | with_reducible apply State.calibStep_keeps kTop kEcc kJnp kWr
    | with_reducible apply each_keeps
    | dsimp only
    | split
    | intro _

end Sys2Proof.Machine
end

