-- ==== Sys2Proof/Laws/KeepsMapWalk.lean ====
section
/-!
SUPPORT. What the operations of Machine/MapWalk.lean can do: each one keeps every property of a state that its own primitive
updates keep. The hypotheses of a lemma name every unit the operation can reach.
-/
namespace Sys2Proof.Machine

theorem State.setMslot_keeps {P : State → Prop} (kMap : KMap P) (s : State) (k : Nat) (v : Option MapSlot) (hP : P s) :
 P (State.setMslot s k v) := by
  unfold State.setMslot
  repeat' first
    | with_reducible assumption
    | exact rfl
    | exact fun _ => ⟨rfl, rfl, rfl⟩
    | with_reducible apply kMap
    | dsimp only
    | split
    | intro _

theorem State.onMslot_keeps {P : State → Prop} (kMap : KMap P) (s : State) (k : Nat) (f : MapSlot → MapSlot) (hP : P s) :
 P (State.onMslot s k f) := by
  unfold State.onMslot
  repeat' first
    | with_reducible assumption
    | exact rfl
    | exact fun _ => ⟨rfl, rfl, rfl⟩
    | with_reducible apply State.setMslot_keeps kMap
    | dsimp only
    | split
    | intro _

theorem State.mapTouch_keeps {P : State → Prop} (kMap : KMap P) (s : State) (k : Nat) (hP : P s) :
 P (State.mapTouch s k) := by
  unfold State.mapTouch
  repeat' first
    | with_reducible assumption
    | exact rfl
    | exact fun _ => ⟨rfl, rfl, rfl⟩
    | with_reducible apply State.onMslot_keeps kMap
    | with_reducible apply kMap
    | dsimp only
    | split
    | intro _

theorem State.breakPage_keeps {P : State → Prop} (kErr : KErr P) (kMap : KMap P) (kWr : KWr P) (s : State) (key : PageKey) (hP : P s) :
 P (State.breakPage s key) := by
  unfold State.breakPage
  repeat' first
    | with_reducible assumption
    | exact rfl
    | exact fun _ => ⟨rfl, rfl, rfl⟩
    | with_reducible apply State.err1_keeps kErr kWr
    | with_reducible apply kMap
    | with_reducible apply State.setMslot_keeps kMap
    | with_reducible apply State.setb_keeps kWr
    | dsimp only
    | split
    | intro _

theorem State.slotWord_keeps {P : State → Prop} (kErr : KErr P) (kMap : KMap P) (kWr : KWr P) (kDrawn : KDrawn P) (s : State) (k idx : Nat) (hP : P s) :
 P (State.slotWord s k idx).2 := by
  unfold State.slotWord
  repeat' first
    | with_reducible assumption
    | exact rfl
    | exact fun _ => ⟨rfl, rfl, rfl⟩
    | with_reducible apply State.err1_keeps kErr kWr
    | with_reducible apply State.breakPage_keeps kErr kMap kWr
    | with_reducible apply State.setMslot_keeps kMap
    | with_reducible apply State.hRead_keeps kErr kWr kDrawn
    | with_reducible refine State.hRead_keeps' kErr kWr kDrawn ‹_ = (_, _)› ?_
    | dsimp only
    | split
    | intro _

theorem State.slotWord_keeps' {P : State → Prop} (kErr : KErr P) (kMap : KMap P) (kWr : KWr P) (kDrawn : KDrawn P) {s : State} {k idx : Nat} {x0 : Option Nat} {t : State}
    (hE : State.slotWord s k idx = (x0, t)) (hP : P s)  : P t := by
  have h := State.slotWord_keeps kErr kMap kWr kDrawn s k idx hP
  rw [hE] at h
  exact h

theorem State.ctlWord_keeps {P : State → Prop} (kErr : KErr P) (kMap : KMap P) (kWr : KWr P) (kDrawn : KDrawn P) (s : State) (off : Nat) (hP : P s) :
 P (State.ctlWord s off).2 := by
  unfold State.ctlWord
  repeat' first
    | with_reducible assumption
    | exact rfl
    | exact fun _ => ⟨rfl, rfl, rfl⟩
    | with_reducible apply State.err1_keeps kErr kWr
    | with_reducible apply kMap
    | with_reducible apply State.hRead_keeps kErr kWr kDrawn
    | with_reducible refine State.hRead_keeps' kErr kWr kDrawn ‹_ = (_, _)› ?_
    | dsimp only
    | split
    | intro _

theorem State.ctlWord_keeps' {P : State → Prop} (kErr : KErr P) (kMap : KMap P) (kWr : KWr P) (kDrawn : KDrawn P) {s : State} {off : Nat} {x0 : Option Nat} {t : State}
    (hE : State.ctlWord s off = (x0, t)) (hP : P s)  : P t := by
  have h := State.ctlWord_keeps kErr kMap kWr kDrawn s off hP
  rw [hE] at h
  exact h

theorem State.parent_keeps {P : State → Prop} (kErr : KErr P) (kMap : KMap P) (kWr : KWr P) (kDrawn : KDrawn P) (s : State) (key : PageKey) (hP : P s) :
 P (State.parent s key).2 := by
  unfold State.parent
  repeat' first
    | with_reducible assumption
    | exact rfl
    | exact fun _ => ⟨rfl, rfl, rfl⟩
    | with_reducible apply State.mapTouch_keeps kMap
    | with_reducible apply State.slotWord_keeps kErr kMap kWr kDrawn
    | with_reducible apply State.ctlWord_keeps kErr kMap kWr kDrawn
    | with_reducible refine State.slotWord_keeps' kErr kMap kWr kDrawn ‹_ = (_, _)› ?_
    | with_reducible refine State.ctlWord_keeps' kErr kMap kWr kDrawn ‹_ = (_, _)› ?_
    | dsimp only
    | split
    | intro _

theorem State.parent_keeps' {P : State → Prop} (kErr : KErr P) (kMap : KMap P) (kWr : KWr P) (kDrawn : KDrawn P) {s : State} {key : PageKey} {x0 : Par} {t : State}
    (hE : State.parent s key = (x0, t)) (hP : P s)  : P t := by
  have h := State.parent_keeps kErr kMap kWr kDrawn s key hP
  rw [hE] at h
  exact h

theorem State.onMiss_keeps {P : State → Prop} (kMap : KMap P) (s : State) (key : PageKey) (f : Miss → Miss) (hP : P s) :
 P (State.onMiss s key f) := by
  unfold State.onMiss
  repeat' first
    | with_reducible assumption
    | exact rfl
    | exact fun _ => ⟨rfl, rfl, rfl⟩
    | with_reducible apply kMap
    | dsimp only
    | split
    | intro _

theorem State.setXor_keeps {P : State → Prop} (kEcc : KEcc P) (s : State) (w k : Nat) (x : Option XorOp) (hP : P s) :
 P (State.setXor s w k x) := by
  unfold State.setXor
  repeat' first
    | with_reducible assumption
    | exact rfl
    | exact fun _ => ⟨rfl, rfl, rfl⟩
    | with_reducible apply kEcc
    | dsimp only
    | split
    | intro _

theorem State.onXor_keeps {P : State → Prop} (kEcc : KEcc P) (s : State) (w k : Nat) (f : XorOp → XorOp) (hP : P s) :
 P (State.onXor s w k f) := by
  unfold State.onXor
  repeat' first
    | with_reducible assumption
    | exact rfl
    | exact fun _ => ⟨rfl, rfl, rfl⟩
    | with_reducible apply State.setXor_keeps kEcc
    | dsimp only
    | split
    | intro _

theorem State.wantRebuild_keeps {P : State → Prop} (kEcc : KEcc P) (kHly : KHly P) (s : State) (f : Flight) (hP : P s) :
 P (State.wantRebuild s f) := by
  unfold State.wantRebuild
  repeat' first
    | with_reducible assumption
    | exact rfl
    | exact fun _ => ⟨rfl, rfl, rfl⟩
    | with_reducible apply State.post1_keeps kHly
    | with_reducible apply State.onXor_keeps kEcc
    | with_reducible apply kEcc
    | with_reducible apply State.setXor_keeps kEcc
    | dsimp only
    | split
    | intro _

theorem State.launch_keeps {P : State → Prop} (kTop : KTop P) (kEcc : KEcc P) (kHly : KHly P) (kWr : KWr P) (s : State) (f : Flight) (raw : Bool) (hP : P s) :
 P (State.launch s f raw) := by
  unfold State.launch
  repeat' first
    | with_reducible assumption
    | exact rfl
    | exact fun _ => ⟨rfl, rfl, rfl⟩
    | with_reducible apply State.wantRebuild_keeps kEcc kHly
    | with_reducible apply State.addFlight_keeps kTop kEcc kWr
    | with_reducible apply kEcc
    | with_reducible apply when_keeps
    | dsimp only
    | split
    | intro _

theorem State.readMapPage_keeps {P : State → Prop} (kTop : KTop P) (kEcc : KEcc P) (kHly : KHly P) (kWr : KWr P) (s : State) (m : Miss) (hP : P s) :
 P (State.readMapPage s m) := by
  unfold State.readMapPage
  repeat' first
    | with_reducible assumption
    | exact rfl
    | exact fun _ => ⟨rfl, rfl, rfl⟩
    | with_reducible apply State.launch_keeps kTop kEcc kHly kWr
    | with_reducible apply each_keeps
    | dsimp only
    | split
    | intro _

theorem State.missGo_keeps {P : State → Prop} (kErr : KErr P) (kMap : KMap P) (kTop : KTop P) (kEcc : KEcc P) (kHly : KHly P) (kWr : KWr P) (kDrawn : KDrawn P) (s : State) (key : PageKey) (hP : P s) :
 P (State.missGo s key) := by
  unfold State.missGo
  repeat' first
    | with_reducible assumption
    | exact rfl
    | exact fun _ => ⟨rfl, rfl, rfl⟩
    | with_reducible apply kMap
    | with_reducible apply State.readMapPage_keeps kTop kEcc kHly kWr
    | with_reducible apply State.breakPage_keeps kErr kMap kWr
    | with_reducible apply State.onMiss_keeps kMap
    | with_reducible apply State.setMslot_keeps kMap
    | with_reducible apply State.parent_keeps kErr kMap kWr kDrawn
    | with_reducible refine State.parent_keeps' kErr kMap kWr kDrawn ‹_ = (_, _)› ?_
    | dsimp only
    | split
    | intro _

theorem State.addMiss_keeps {P : State → Prop} (kErr : KErr P) (kMap : KMap P) (kTop : KTop P) (kEcc : KEcc P) (kHly : KHly P) (kWr : KWr P) (kDrawn : KDrawn P) (s : State) (key : PageKey) (ws : List Waiter) (hP : P s) :
 P (State.addMiss s key ws) := by
  unfold State.addMiss
  repeat' first
    | with_reducible assumption
    | exact rfl
    | exact fun _ => ⟨rfl, rfl, rfl⟩
    | with_reducible apply kMap
    | with_reducible apply State.missGo_keeps kErr kMap kTop kEcc kHly kWr kDrawn
    | with_reducible apply State.bump_keeps kWr
    | dsimp only
    | split
    | intro _

theorem State.missStep_keeps {P : State → Prop} (kErr : KErr P) (kMap : KMap P) (kTop : KTop P) (kEcc : KEcc P) (kHly : KHly P) (kWr : KWr P) (kDrawn : KDrawn P) (s : State) (key : PageKey) (hP : P s) :
 P (State.missStep s key) := by
  unfold State.missStep
  repeat' first
    | with_reducible assumption
    | exact rfl
    | exact fun _ => ⟨rfl, rfl, rfl⟩
    | with_reducible apply State.missGo_keeps kErr kMap kTop kEcc kHly kWr kDrawn
    | with_reducible apply State.addMiss_keeps kErr kMap kTop kEcc kHly kWr kDrawn
    | with_reducible apply when_keeps
    | dsimp only
    | split
    | intro _

theorem State.openMiss_keeps {P : State → Prop} (kErr : KErr P) (kMap : KMap P) (kTop : KTop P) (kEcc : KEcc P) (kHly : KHly P) (kWr : KWr P) (kDrawn : KDrawn P) (s : State) (key : PageKey) (ws : List Waiter) (hP : P s) :
 P (State.openMiss s key ws) := by
  unfold State.openMiss
  repeat' first
    | with_reducible assumption
    | exact rfl
    | exact fun _ => ⟨rfl, rfl, rfl⟩
    | with_reducible apply State.bump_keeps kWr
    | with_reducible apply State.addMiss_keeps kErr kMap kTop kEcc kHly kWr kDrawn
    | with_reducible apply when_keeps
    | with_reducible apply State.missStep_keeps kErr kMap kTop kEcc kHly kWr kDrawn
    | dsimp only
    | split
    | intro _

theorem State.wantPage_keeps {P : State → Prop} (kErr : KErr P) (kMap : KMap P) (kTop : KTop P) (kEcc : KEcc P) (kHly : KHly P) (kWr : KWr P) (kDrawn : KDrawn P) (s : State) (key : PageKey) (w : Waiter) (hP : P s) :
 P (State.wantPage s key w).2 := by
  unfold State.wantPage
  repeat' first
    | with_reducible assumption
    | exact rfl
    | exact fun _ => ⟨rfl, rfl, rfl⟩
    | with_reducible apply State.onMiss_keeps kMap
    | with_reducible apply State.openMiss_keeps kErr kMap kTop kEcc kHly kWr kDrawn
    | with_reducible apply State.bump_keeps kWr
    | dsimp only
    | split
    | intro _

theorem State.wantPage_keeps' {P : State → Prop} (kErr : KErr P) (kMap : KMap P) (kTop : KTop P) (kEcc : KEcc P) (kHly : KHly P) (kWr : KWr P) (kDrawn : KDrawn P) {s : State} {key : PageKey} {w : Waiter} {x0 : Option Nat} {t : State}
    (hE : State.wantPage s key w = (x0, t)) (hP : P s)  : P t := by
  have h := State.wantPage_keeps kErr kMap kTop kEcc kHly kWr kDrawn s key w hP
  rw [hE] at h
  exact h

theorem State.look_keeps {P : State → Prop} (kErr : KErr P) (kMap : KMap P) (kTop : KTop P) (kEcc : KEcc P) (kHly : KHly P) (kWr : KWr P) (kDrawn : KDrawn P) (s : State) (region lfa : Nat) (w : Waiter) (again : Bool) (hP : P s) :
 P (State.look s region lfa w again).2 := by
  unfold State.look
  repeat' first
    | with_reducible assumption
    | exact rfl
    | exact fun _ => ⟨rfl, rfl, rfl⟩
    | with_reducible apply State.mapTouch_keeps kMap
    | with_reducible apply State.bump_keeps kWr
    | with_reducible apply State.slotWord_keeps kErr kMap kWr kDrawn
    | with_reducible apply State.wantPage_keeps kErr kMap kTop kEcc kHly kWr kDrawn
    | with_reducible refine State.slotWord_keeps' kErr kMap kWr kDrawn ‹_ = (_, _)› ?_
    | with_reducible refine State.wantPage_keeps' kErr kMap kTop kEcc kHly kWr kDrawn ‹_ = (_, _)› ?_
    | dsimp only
    | split
    | intro _

theorem State.look_keeps' {P : State → Prop} (kErr : KErr P) (kMap : KMap P) (kTop : KTop P) (kEcc : KEcc P) (kHly : KHly P) (kWr : KWr P) (kDrawn : KDrawn P) {s : State} {region lfa : Nat} {w : Waiter} {again : Bool} {x0 : Look} {t : State}
    (hE : State.look s region lfa w again = (x0, t)) (hP : P s)  : P t := by
  have h := State.look_keeps kErr kMap kTop kEcc kHly kWr kDrawn s region lfa w again hP
  rw [hE] at h
  exact h

theorem State.nextSeq_keeps {P : State → Prop} (kWr : KWr P) (s : State) (hP : P s) :
 P (State.nextSeq s) := by
  unfold State.nextSeq
  repeat' first
    | with_reducible assumption
    | exact rfl
    | exact fun _ => ⟨rfl, rfl, rfl⟩
    | with_reducible apply kWr
    | dsimp only
    | split
    | intro _

theorem State.setEntry_keeps {P : State → Prop} (kErr : KErr P) (kHdg : KHdg P) (kPut : KPut P) (kMap : KMap P) (kWr : KWr P) (s : State) (k idx e port : Nat) (hP : P s) :
 P (State.setEntry s k idx e port) := by
  unfold State.setEntry
  repeat' first
    | with_reducible assumption
    | exact rfl
    | exact fun _ => ⟨rfl, rfl, rfl⟩
    | with_reducible apply State.mapTouch_keeps kMap
    | with_reducible apply State.onMslot_keeps kMap
    | with_reducible apply kMap
    | with_reducible apply State.hWrite_keeps kErr kHdg kPut kWr
    | dsimp only
    | split
    | intro _

theorem State.freePfa_keeps {P : State → Prop} (kMap : KMap P) (s : State) (old : Nat) (hP : P s) :
 P (State.freePfa s old) := by
  unfold State.freePfa
  repeat' first
    | with_reducible assumption
    | exact rfl
    | exact fun _ => ⟨rfl, rfl, rfl⟩
    | with_reducible apply kMap
    | dsimp only
    | split
    | intro _

theorem State.delUpd_keeps {P : State → Prop} (kMap : KMap P) (s : State) (u : Upd) (hP : P s) :
 P (State.delUpd s u) := by
  unfold State.delUpd
  repeat' first
    | with_reducible assumption
    | exact rfl
    | exact fun _ => ⟨rfl, rfl, rfl⟩
    | with_reducible apply kMap
    | dsimp only
    | split
    | intro _

theorem State.doUpd_keeps {P : State → Prop} (kErr : KErr P) (kQue : KQue P) (kHdg : KHdg P) (kPut : KPut P) (kMap : KMap P) (kWr : KWr P) (kDrawn : KDrawn P) (s : State) (u : Upd) (k : Nat) (hP : P s) :
 P (State.doUpd s u k) := by
  unfold State.doUpd
  repeat' first
    | with_reducible assumption
    | exact rfl
    | exact fun _ => ⟨rfl, rfl, rfl⟩
    | exact fun _ => rfl
    | with_reducible apply State.freePfa_keeps kMap
    | with_reducible apply KQue.same kQue
    | with_reducible apply State.delUpd_keeps kMap
    | with_reducible apply State.bump_keeps kWr
    | with_reducible apply State.setEntry_keeps kErr kHdg kPut kMap kWr
    | with_reducible apply State.onMslot_keeps kMap
    | with_reducible apply kMap
    | with_reducible apply State.slotWord_keeps kErr kMap kWr kDrawn
    | with_reducible refine State.slotWord_keeps' kErr kMap kWr kDrawn ‹_ = (_, _)› ?_
    | dsimp only
    | split
    | intro _

theorem State.tryUpd_keeps {P : State → Prop} (kErr : KErr P) (kQue : KQue P) (kHdg : KHdg P) (kPut : KPut P) (kMap : KMap P) (kTop : KTop P) (kEcc : KEcc P) (kHly : KHly P) (kWr : KWr P) (kDrawn : KDrawn P) (s : State) (u : Upd) (hP : P s) :
 P (State.tryUpd s u) := by
  unfold State.tryUpd
  repeat' first
    | with_reducible assumption
    | exact rfl
    | exact fun _ => ⟨rfl, rfl, rfl⟩
    | with_reducible apply kMap
    | with_reducible apply State.bump_keeps kWr
    | with_reducible apply State.setb_keeps kWr
    | with_reducible apply State.doUpd_keeps kErr kQue kHdg kPut kMap kWr kDrawn
    | with_reducible apply State.wantPage_keeps kErr kMap kTop kEcc kHly kWr kDrawn
    | with_reducible refine State.wantPage_keeps' kErr kMap kTop kEcc kHly kWr kDrawn ‹_ = (_, _)› ?_
    | dsimp only
    | split
    | intro _

theorem State.tryUpds_keeps {P : State → Prop} (kErr : KErr P) (kQue : KQue P) (kHdg : KHdg P) (kPut : KPut P) (kMap : KMap P) (kTop : KTop P) (kEcc : KEcc P) (kHly : KHly P) (kWr : KWr P) (kDrawn : KDrawn P) (s : State) (hP : P s) :
 P (State.tryUpds s) := by
  unfold State.tryUpds
  repeat' first
    | with_reducible assumption
    | exact rfl
    | exact fun _ => ⟨rfl, rfl, rfl⟩
    | with_reducible apply State.tryUpd_keeps kErr kQue kHdg kPut kMap kTop kEcc kHly kWr kDrawn
    | with_reducible apply each_keeps
    | dsimp only
    | split
    | intro _

theorem State.onWb_keeps {P : State → Prop} (kMap : KMap P) (s : State) (key : PageKey) (f : WB → WB) (hP : P s) :
 P (State.onWb s key f) := by
  unfold State.onWb
  repeat' first
    | with_reducible assumption
    | exact rfl
    | exact fun _ => ⟨rfl, rfl, rfl⟩
    | with_reducible apply kMap
    | dsimp only
    | split
    | intro _

theorem State.snapWb_keeps {P : State → Prop} (kErr : KErr P) (kMap : KMap P) (kWr : KWr P) (kDrawn : KDrawn P) (s : State) (key : PageKey) (hP : P s) :
 P (State.snapWb s key) := by
  unfold State.snapWb
  repeat' first
    | with_reducible assumption
    | exact rfl
    | exact fun _ => ⟨rfl, rfl, rfl⟩
    | with_reducible apply State.err1_keeps kErr kWr
    | with_reducible apply kMap
    | with_reducible apply State.breakPage_keeps kErr kMap kWr
    | with_reducible apply State.onWb_keeps kMap
    | with_reducible apply State.hRead_keeps kErr kWr kDrawn
    | with_reducible refine State.hRead_keeps' kErr kWr kDrawn ‹_ = (_, _)› ?_
    | dsimp only
    | split
    | intro _

theorem State.wbParent_keeps {P : State → Prop} (kErr : KErr P) (kHdg : KHdg P) (kPut : KPut P) (kMap : KMap P) (kTop : KTop P) (kEcc : KEcc P) (kHly : KHly P) (kWr : KWr P) (kDrawn : KDrawn P) (s : State) (w : WB) (hP : P s) :
 ∀ t, State.wbParent s w = some t → P t := by
  intro t ht
  unfold State.wbParent at ht
  dsimp only at ht
  split at ht
  · split at ht
    · split at ht
      · have h := State.slotWord_keeps' kErr kMap kWr kDrawn ‹_› (State.wantPage_keeps' kErr kMap kTop kEcc kHly kWr kDrawn ‹_› hP)
        cases ht
        split
        · exact h
        · exact State.freePfa_keeps kMap _ _ (State.setEntry_keeps kErr kHdg kPut kMap kWr _ _ _ _ _ h)
      · cases ht
    · cases ht
  · split at ht
    · split at ht
      · have h := State.ctlWord_keeps' kErr kMap kWr kDrawn ‹_› hP
        cases ht
        split
        · exact h
        · exact State.freePfa_keeps kMap _ _ (State.hWrite_keeps kErr kHdg kPut kWr _ _ _ h)
      · cases ht
        exact State.ctlWord_keeps' kErr kMap kWr kDrawn ‹_› hP
    · cases ht
      exact kMap _ _ hP

theorem State.wbClean_keeps {P : State → Prop} (kQue : KQue P) (kMap : KMap P) (kWr : KWr P) (s : State) (w : WB) (hP : P s) :
 P (State.wbClean s w) := by
  unfold State.wbClean
  repeat' first
    | with_reducible assumption
    | exact rfl
    | exact fun _ => ⟨rfl, rfl, rfl⟩
    | with_reducible apply each_keeps
    | with_reducible apply State.onMslot_keeps kMap
    | with_reducible apply kMap
    | with_reducible apply State.onCmd_keeps kQue
    | with_reducible apply State.setMslot_keeps kMap
    | with_reducible apply State.bump_keeps kWr
    | dsimp only
    | split
    | intro _

theorem State.wbFinish_keeps {P : State → Prop} (kErr : KErr P) (kQue : KQue P) (kHdg : KHdg P) (kPut : KPut P) (kMap : KMap P) (kTop : KTop P) (kEcc : KEcc P) (kHly : KHly P) (kWr : KWr P) (kDrawn : KDrawn P) (s : State) (w : WB) (hP : P s) :
 P (State.wbFinish s w) := by
  unfold State.wbFinish
  split
  · exact State.wbClean_keeps kQue kMap kWr _ _ (State.wbParent_keeps kErr kHdg kPut kMap kTop kEcc kHly kWr kDrawn _ _ hP _ ‹_›)
  · exact State.onWb_keeps kMap _ _ _ (State.wantPage_keeps kErr kMap kTop kEcc kHly kWr kDrawn _ _ _ hP)

theorem State.mapResident_keeps {P : State → Prop} (kErr : KErr P) (kHdg : KHdg P) (kPut : KPut P) (kMap : KMap P) (kWr : KWr P) (s : State) (key : PageKey) (k : Nat) (d : List Byte) (dirty : Bool) (hP : P s) :
 P (State.mapResident s key k d dirty) := by
  unfold State.mapResident
  repeat' first
    | with_reducible assumption
    | exact rfl
    | exact fun _ => ⟨rfl, rfl, rfl⟩
    | with_reducible apply State.mapTouch_keeps kMap
    | with_reducible apply kMap
    | with_reducible apply State.setMslot_keeps kMap
    | with_reducible apply State.hWrite_keeps kErr kHdg kPut kWr
    | dsimp only
    | split
    | intro _

theorem State.rebuiltStep_keeps {P : State → Prop} (kErr : KErr P) (kHdg : KHdg P) (kPut : KPut P) (kMap : KMap P) (kWr : KWr P) (s : State) (key : PageKey) (d : List Byte) (hP : P s) :
 P (State.rebuiltStep s key d) := by
  unfold State.rebuiltStep
  repeat' first
    | with_reducible assumption
    | exact rfl
    | exact fun _ => ⟨rfl, rfl, rfl⟩
    | with_reducible apply kMap
    | with_reducible apply State.mapResident_keeps kErr kHdg kPut kMap kWr
    | dsimp only
    | split
    | intro _

theorem State.mapRetry_keeps {P : State → Prop} (kErr : KErr P) (kQue : KQue P) (kHdg : KHdg P) (kPut : KPut P) (kMap : KMap P) (kTop : KTop P) (kEcc : KEcc P) (kHly : KHly P) (kWr : KWr P) (kDrawn : KDrawn P) (s : State) (hP : P s) :
 P (State.mapRetry s) := by
  unfold State.mapRetry
  repeat' first
    | with_reducible assumption
    | exact rfl
    | exact fun _ => ⟨rfl, rfl, rfl⟩
    | with_reducible apply State.wbFinish_keeps kErr kQue kHdg kPut kMap kTop kEcc kHly kWr kDrawn
    | with_reducible apply State.rebuiltStep_keeps kErr kHdg kPut kMap kWr
    | with_reducible apply each_keeps
    | with_reducible apply State.missStep_keeps kErr kMap kTop kEcc kHly kWr kDrawn
    | dsimp only
    | split
    | intro _

theorem State.unpinGroup_keeps {P : State → Prop} (kMap : KMap P) (s : State) (g : Nat) (hP : P s) :
 P (State.unpinGroup s g) := by
  unfold State.unpinGroup
  repeat' first
    | with_reducible assumption
    | exact rfl
    | exact fun _ => ⟨rfl, rfl, rfl⟩
    | with_reducible apply kMap
    | dsimp only
    | split
    | intro _

theorem State.retireStep_keeps {P : State → Prop} (kMap : KMap P) (kWr : KWr P) (s : State) (hP : P s) :
 P (State.retireStep s) := by
  unfold State.retireStep
  repeat' first
    | with_reducible assumption
    | exact rfl
    | exact fun _ => ⟨rfl, rfl, rfl⟩
    | with_reducible apply each_keeps
    | with_reducible apply kMap
    | with_reducible apply State.setMslot_keeps kMap
    | with_reducible apply kWr
    | dsimp only
    | split
    | intro _

end Sys2Proof.Machine
end

