-- ==== Sys2Proof/Laws/KeepsWork.lean ====
section
/-!
SUPPORT. What the operations of Machine/Work.lean can do: each one keeps every property of a state that its own primitive
updates keep. The hypotheses of a lemma name every unit the operation can reach.
-/
namespace Sys2Proof.Machine

theorem State.handleList_keeps {P : State → Prop} (kErr : KErr P) (kWr : KWr P) (kDrawn : KDrawn P) (s : State) (p : Pkt) (hP : P s) :
 P (State.handleList s p).2.2 := by
  unfold State.handleList
  repeat' first
    | with_reducible assumption
    | exact rfl
    | exact fun _ => ⟨rfl, rfl, rfl⟩
    | with_reducible apply State.err1_keeps kErr kWr
    | with_reducible apply State.hRead_keeps kErr kWr kDrawn
    | with_reducible refine State.hRead_keeps' kErr kWr kDrawn ‹_ = (_, _)› ?_
    | dsimp only
    | split
    | intro _

theorem State.handleList_keeps' {P : State → Prop} (kErr : KErr P) (kWr : KWr P) (kDrawn : KDrawn P) {s : State} {p : Pkt} {x0 : Option Nat} {x1 : List Nat} {t : State}
    (hE : State.handleList s p = (x0, x1, t)) (hP : P s)  : P t := by
  have h := State.handleList_keeps kErr kWr kDrawn s p hP
  rw [hE] at h
  exact h

theorem State.putHandle_keeps {P : State → Prop} (kErr : KErr P) (kHdg : KHdg P) (kPut : KPut P) (kWr : KWr P) (s : State) (p : Pkt) (k h : Nat) (hP : P s) :
 P (State.putHandle s p k h) := by
  unfold State.putHandle
  repeat' first
    | with_reducible assumption
    | exact rfl
    | exact fun _ => ⟨rfl, rfl, rfl⟩
    | with_reducible apply State.hWrite_keeps kErr kHdg kPut kWr
    | dsimp only
    | split
    | intro _

theorem State.askBuf_keeps {P : State → Prop} (kQue : KQue P) (kCop : KCop P) (kBox : KBox P) (kWr : KWr P) (s : State) (c : Cmd) (f : Frame) (hP : P s) :
 P (State.askBuf s c f) := by
  unfold State.askBuf
  repeat' first
    | with_reducible assumption
    | exact rfl
    | exact fun _ => ⟨rfl, rfl, rfl⟩
    | with_reducible apply State.energy_keeps kQue kBox kWr
    | with_reducible apply State.copWant_keeps kCop
    | with_reducible apply State.onFrame_keeps kQue
    | dsimp only
    | split
    | intro _

theorem State.dropFlight_keeps {P : State → Prop} (kTop : KTop P) (kMcs : KMcs P) (kChan : KChan P) (kEcc : KEcc P) (kBox : KBox P) (kWr : KWr P) (s : State) (id : Nat) (hP : P s) :
 P (State.dropFlight s id) := by
  unfold State.dropFlight
  repeat' first
    | with_reducible assumption
    | exact rfl
    | exact fun _ => ⟨rfl, rfl, rfl⟩
    | with_reducible apply State.raiseEv_keeps kMcs
    | with_reducible apply State.onOp_keeps kTop
    | with_reducible apply State.onFlight_keeps kEcc
    | with_reducible apply State.delOp_keeps kTop kChan kBox kWr
    | with_reducible apply State.delFlight_keeps kEcc
    | dsimp only
    | split
    | intro _

theorem State.releaseFrame_keeps {P : State → Prop} (kErr : KErr P) (kQue : KQue P) (kHdg : KHdg P) (kPut : KPut P) (kCop : KCop P) (kTop : KTop P) (kMcs : KMcs P) (kChan : KChan P) (kEcc : KEcc P) (kBox : KBox P) (kWr : KWr P) (s : State) (c : Cmd) (f : Frame) (hP : P s) :
 P (State.releaseFrame s c f) := by
  unfold State.releaseFrame
  repeat' first
    | with_reducible assumption
    | exact rfl
    | exact fun _ => ⟨rfl, rfl, rfl⟩
    | with_reducible apply each_keeps
    | with_reducible apply State.dropHold_keeps kErr kHdg kPut kCop kWr
    | with_reducible apply State.dropFlight_keeps kTop kMcs kChan kEcc kBox kWr
    | with_reducible apply State.dropName_keeps kErr kHdg kPut kCop kWr
    | with_reducible apply State.onFrame_keeps kQue
    | with_reducible apply State.copCancel_keeps kCop
    | with_reducible apply foldl_keeps
    | with_reducible apply foldl2_keeps
    | with_reducible apply foldl3_keeps
    | dsimp only
    | split
    | intro _

theorem State.endReads_keeps {P : State → Prop} (kErr : KErr P) (kQue : KQue P) (kHdg : KHdg P) (kPut : KPut P) (kCop : KCop P) (kTop : KTop P) (kMcs : KMcs P) (kChan : KChan P) (kEcc : KEcc P) (kBox : KBox P) (kWr : KWr P) (s : State) (tag : Nat) (hP : P s) :
 P (State.endReads s tag) := by
  unfold State.endReads
  repeat' first
    | with_reducible assumption
    | exact rfl
    | exact fun _ => ⟨rfl, rfl, rfl⟩
    | with_reducible apply State.releaseFrame_keeps kErr kQue kHdg kPut kCop kTop kMcs kChan kEcc kBox kWr
    | with_reducible apply each_keeps
    | dsimp only
    | split
    | intro _

theorem State.frameSet_keeps {P : State → Prop} (kQue : KQue P) (s : State) (tag pos : Nat) (st : FSt) (out : Nat) (hP : P s) :
 P (State.frameSet s tag pos st out) := by
  unfold State.frameSet
  repeat' first
    | with_reducible assumption
    | exact rfl
    | exact fun _ => ⟨rfl, rfl, rfl⟩
    | with_reducible apply State.onFrame_keeps kQue
    | dsimp only
    | split
    | intro _

theorem State.wrongPlace_keeps {P : State → Prop} (kErr : KErr P) (kWr : KWr P) (s : State) (region lfa : Nat) (hP : P s) :
 P (State.wrongPlace s region lfa) := by
  unfold State.wrongPlace
  repeat' first
    | with_reducible assumption
    | exact rfl
    | exact fun _ => ⟨rfl, rfl, rfl⟩
    | with_reducible apply State.err1_keeps kErr kWr
    | dsimp only
    | split
    | intro _

theorem State.frameToDie_keeps {P : State → Prop} (kQue : KQue P) (kCop : KCop P) (kTop : KTop P) (kEcc : KEcc P) (kBox : KBox P) (kHly : KHly P) (kWr : KWr P) (s : State) (c : Cmd) (pos : Nat) (f : Frame) (hP : P s) :
 P (State.frameToDie s c pos f) := by
  unfold State.frameToDie
  repeat' first
    | with_reducible assumption
    | exact rfl
    | exact fun _ => ⟨rfl, rfl, rfl⟩
    | with_reducible apply State.energy_keeps kQue kBox kWr
    | with_reducible apply State.askBuf_keeps kQue kCop kBox kWr
    | with_reducible apply State.launch_keeps kTop kEcc kHly kWr
    | with_reducible apply State.onFrame_keeps kQue
    | dsimp only
    | split
    | intro _

theorem State.frameEntry_keeps {P : State → Prop} (kErr : KErr P) (kQue : KQue P) (kCop : KCop P) (kTop : KTop P) (kEcc : KEcc P) (kBox : KBox P) (kHly : KHly P) (kWr : KWr P) (s : State) (c : Cmd) (f : Frame) (e : Nat) (hP : P s) :
 P (State.frameEntry s c f e) := by
  unfold State.frameEntry
  repeat' first
    | with_reducible assumption
    | exact rfl
    | exact fun _ => ⟨rfl, rfl, rfl⟩
    | with_reducible apply State.askBuf_keeps kQue kCop kBox kWr
    | with_reducible apply State.frameSet_keeps kQue
    | with_reducible apply State.wrongPlace_keeps kErr kWr
    | with_reducible apply State.frameToDie_keeps kQue kCop kTop kEcc kBox kHly kWr
    | with_reducible apply State.onFrame_keeps kQue
    | dsimp only
    | split
    | intro _

theorem State.startFrame_keeps {P : State → Prop} (kErr : KErr P) (kQue : KQue P) (kCop : KCop P) (kMap : KMap P) (kTop : KTop P) (kEcc : KEcc P) (kBox : KBox P) (kHly : KHly P) (kWr : KWr P) (kDrawn : KDrawn P) (s : State) (tag pos : Nat) (hP : P s) :
 P (State.startFrame s tag pos) := by
  unfold State.startFrame
  repeat' first
    | with_reducible assumption
    | exact rfl
    | exact fun _ => ⟨rfl, rfl, rfl⟩
    | with_reducible apply State.askBuf_keeps kQue kCop kBox kWr
    | with_reducible apply State.frameSet_keeps kQue
    | with_reducible apply State.frameEntry_keeps kErr kQue kCop kTop kEcc kBox kHly kWr
    | with_reducible apply State.addHold_keeps kCop
    | with_reducible apply State.frameToDie_keeps kQue kCop kTop kEcc kBox kHly kWr
    | with_reducible apply State.onFrame_keeps kQue
    | with_reducible apply State.look_keeps kErr kMap kTop kEcc kHly kWr kDrawn
    | with_reducible refine State.look_keeps' kErr kMap kTop kEcc kHly kWr kDrawn ‹_ = (_, _)› ?_
    | dsimp only
    | split
    | intro _

theorem State.takeBuf_keeps {P : State → Prop} (kErr : KErr P) (kWr : KWr P) (kDrawn : KDrawn P) (s : State) (i : Nat) (hP : P s) :
 P (State.takeBuf s i).2.2 := by
  unfold State.takeBuf
  repeat' first
    | with_reducible assumption
    | exact rfl
    | exact fun _ => ⟨rfl, rfl, rfl⟩
    | with_reducible apply State.err1_keeps kErr kWr
    | with_reducible apply State.bump_keeps kWr
    | with_reducible apply State.bufRead_keeps kErr kWr kDrawn
    | with_reducible refine State.bufRead_keeps' kErr kWr kDrawn ‹_ = (_, _)› ?_
    | dsimp only
    | split
    | intro _

theorem State.takeBuf_keeps' {P : State → Prop} (kErr : KErr P) (kWr : KWr P) (kDrawn : KDrawn P) {s : State} {i : Nat} {x0 : List Byte} {x1 : Bool} {t : State}
    (hE : State.takeBuf s i = (x0, x1, t)) (hP : P s)  : P t := by
  have h := State.takeBuf_keeps kErr kWr kDrawn s i hP
  rw [hE] at h
  exact h

theorem State.copyBuf_keeps {P : State → Prop} (kErr : KErr P) (kHdg : KHdg P) (kPut : KPut P) (kCop : KCop P) (kWr : KWr P) (kDrawn : KDrawn P) (s : State) (i j : Nat) (hP : P s) :
 P (State.copyBuf s i j).2 := by
  unfold State.copyBuf
  repeat' first
    | with_reducible assumption
    | exact rfl
    | exact fun _ => ⟨rfl, rfl, rfl⟩
    | with_reducible apply State.hWrite_keeps kErr kHdg kPut kWr
    | with_reducible apply State.setSlot_keeps kCop
    | with_reducible apply State.takeBuf_keeps kErr kWr kDrawn
    | with_reducible refine State.takeBuf_keeps' kErr kWr kDrawn ‹_ = (_, _, _)› ?_
    | dsimp only
    | split
    | intro _

theorem State.copyBuf_keeps' {P : State → Prop} (kErr : KErr P) (kHdg : KHdg P) (kPut : KPut P) (kCop : KCop P) (kWr : KWr P) (kDrawn : KDrawn P) {s : State} {i j : Nat} {x0 : Bool} {t : State}
    (hE : State.copyBuf s i j = (x0, t)) (hP : P s)  : P t := by
  have h := State.copyBuf_keeps kErr kHdg kPut kCop kWr kDrawn s i j hP
  rw [hE] at h
  exact h

theorem State.stream_keeps {P : State → Prop} (kQue : KQue P) (kBox : KBox P) (kWr : KWr P) (kDeliv : KDeliv P) (s : State) (c : Cmd) (d : List Byte) (hP : P s) :
 P (State.stream s c d) := by
  unfold State.stream
  repeat' first
    | with_reducible assumption
    | exact rfl
    | exact fun _ => ⟨rfl, rfl, rfl⟩
    | with_reducible apply State.deliver_keeps kDeliv
    | with_reducible apply State.userBytes_keeps kBox
    | with_reducible apply State.energy_keeps kQue kBox kWr
    | dsimp only
    | split
    | intro _

theorem State.giveFrame_keeps {P : State → Prop} (kErr : KErr P) (kQue : KQue P) (kHdg : KHdg P) (kPut : KPut P) (kCop : KCop P) (kBox : KBox P) (kWr : KWr P) (kDrawn : KDrawn P) (kDeliv : KDeliv P) (s : State) (c : Cmd) (f : Frame) (hP : P s) :
 P (State.giveFrame s c f).2 := by
  unfold State.giveFrame
  repeat' first
    | with_reducible assumption
    | exact rfl
    | exact fun _ => ⟨rfl, rfl, rfl⟩
    | with_reducible apply State.stream_keeps kQue kBox kWr kDeliv
    | with_reducible apply State.dropHold_keeps kErr kHdg kPut kCop kWr
    | with_reducible apply State.putHandle_keeps kErr kHdg kPut kWr
    | with_reducible apply State.dropName_keeps kErr kHdg kPut kCop kWr
    | with_reducible apply State.onCmd_keeps kQue
    | with_reducible apply State.onFrame_keeps kQue
    | with_reducible apply State.bufZero_keeps kErr kHdg kPut kCop kWr
    | with_reducible apply State.takeBuf_keeps kErr kWr kDrawn
    | with_reducible apply State.copyBuf_keeps kErr kHdg kPut kCop kWr kDrawn
    | with_reducible refine State.takeBuf_keeps' kErr kWr kDrawn ‹_ = (_, _, _)› ?_
    | with_reducible refine State.copyBuf_keeps' kErr kHdg kPut kCop kWr kDrawn ‹_ = (_, _)› ?_
    | dsimp only
    | split
    | intro _

theorem State.giveFrame_keeps' {P : State → Prop} (kErr : KErr P) (kQue : KQue P) (kHdg : KHdg P) (kPut : KPut P) (kCop : KCop P) (kBox : KBox P) (kWr : KWr P) (kDrawn : KDrawn P) (kDeliv : KDeliv P) {s : State} {c : Cmd} {f : Frame} {x0 : Nat} {t : State}
    (hE : State.giveFrame s c f = (x0, t)) (hP : P s)  : P t := by
  have h := State.giveFrame_keeps kErr kQue kHdg kPut kCop kBox kWr kDrawn kDeliv s c f hP
  rw [hE] at h
  exact h

theorem State.endRead_keeps {P : State → Prop} (kErr : KErr P) (kQue : KQue P) (kHdg : KHdg P) (kPut : KPut P) (kCop : KCop P) (kTop : KTop P) (kMcs : KMcs P) (kChan : KChan P) (kEcc : KEcc P) (kBox : KBox P) (kSys : KSys P) (kWr : KWr P) (s : State) (tag : Nat) (hP : P s) :
 P (State.endRead s tag) := by
  unfold State.endRead
  repeat' first
    | with_reducible assumption
    | exact rfl
    | exact fun _ => ⟨rfl, rfl, rfl⟩
    | with_reducible apply State.endReads_keeps kErr kQue kHdg kPut kCop kTop kMcs kChan kEcc kBox kWr
    | with_reducible apply State.finish_keeps kQue kSys kWr
    | dsimp only
    | split
    | intro _

theorem State.deliverNext_keeps {P : State → Prop} (kErr : KErr P) (kQue : KQue P) (kHdg : KHdg P) (kPut : KPut P) (kCop : KCop P) (kTop : KTop P) (kMcs : KMcs P) (kChan : KChan P) (kEcc : KEcc P) (kBox : KBox P) (kSys : KSys P) (kWr : KWr P) (kDrawn : KDrawn P) (kDeliv : KDeliv P) (s : State) (tag : Nat) (hP : P s) :
 P (State.deliverNext s tag) := by
  unfold State.deliverNext
  repeat' first
    | with_reducible assumption
    | exact rfl
    | exact fun _ => ⟨rfl, rfl, rfl⟩
    | with_reducible apply State.releaseFrame_keeps kErr kQue kHdg kPut kCop kTop kMcs kChan kEcc kBox kWr
    | with_reducible apply State.onCmd_keeps kQue
    | with_reducible apply State.onFrame_keeps kQue
    | with_reducible apply State.endRead_keeps kErr kQue kHdg kPut kCop kTop kMcs kChan kEcc kBox kSys kWr
    | with_reducible apply State.giveFrame_keeps kErr kQue kHdg kPut kCop kBox kWr kDrawn kDeliv
    | with_reducible refine State.giveFrame_keeps' kErr kQue kHdg kPut kCop kBox kWr kDrawn kDeliv ‹_ = (_, _)› ?_
    | dsimp only
    | split
    | intro _

theorem State.deliverAll_keeps {P : State → Prop} (kErr : KErr P) (kQue : KQue P) (kHdg : KHdg P) (kPut : KPut P) (kCop : KCop P) (kTop : KTop P) (kMcs : KMcs P) (kChan : KChan P) (kEcc : KEcc P) (kBox : KBox P) (kSys : KSys P) (kWr : KWr P) (kDrawn : KDrawn P) (kDeliv : KDeliv P) (s : State) (tag : Nat) (hP : P s) :
 P (State.deliverAll s tag) := by
  unfold State.deliverAll
  repeat' first
    | with_reducible assumption
    | exact rfl
    | exact fun _ => ⟨rfl, rfl, rfl⟩
    | with_reducible apply State.deliverNext_keeps kErr kQue kHdg kPut kCop kTop kMcs kChan kEcc kBox kSys kWr kDrawn kDeliv
    | with_reducible apply times_keeps
    | dsimp only
    | split
    | intro _

theorem State.rangeSettle_keeps {P : State → Prop} (kQue : KQue P) (s : State) (hP : P s) :
 P (State.rangeSettle s) := by
  unfold State.rangeSettle
  repeat' first
    | with_reducible assumption
    | exact rfl
    | exact fun _ => ⟨rfl, rfl, rfl⟩
    | exact fun _ => rfl
    | with_reducible apply KQue.same kQue
    | dsimp only
    | split
    | intro _

theorem State.rangeGone_keeps {P : State → Prop} (kQue : KQue P) (s : State) (tag : Nat) (hP : P s) :
 P (State.rangeGone s tag) := by
  unfold State.rangeGone
  repeat' first
    | with_reducible assumption
    | exact rfl
    | exact fun _ => ⟨rfl, rfl, rfl⟩
    | exact fun _ => rfl
    | with_reducible apply KQue.same kQue
    | with_reducible apply State.rangeSettle_keeps kQue
    | dsimp only
    | split
    | intro _

theorem State.progDone_keeps {P : State → Prop} (kQue : KQue P) (kTop : KTop P) (kSys : KSys P) (kWr : KWr P) (s : State) (tag pos st : Nat) (hP : P s) :
 P (State.progDone s tag pos st) := by
  unfold State.progDone
  repeat' first
    | with_reducible assumption
    | exact rfl
    | exact fun _ => ⟨rfl, rfl, rfl⟩
    | with_reducible apply State.rangeGone_keeps kQue
    | with_reducible apply State.onCmd_keeps kQue
    | with_reducible apply when_keeps
    | with_reducible apply State.finish_keeps kQue kSys kWr
    | with_reducible apply State.dropLeaseTag_keeps kTop kWr
    | dsimp only
    | split
    | intro _

theorem State.takeOver_keeps {P : State → Prop} (kCop : KCop P) (s : State) (i r : Nat) (keep : Bool) (hP : P s) :
 P (State.takeOver s i r keep) := by
  unfold State.takeOver
  repeat' first
    | with_reducible assumption
    | exact rfl
    | exact fun _ => ⟨rfl, rfl, rfl⟩
    | with_reducible apply State.addName_keeps kCop
    | with_reducible apply State.onBuf_keeps kCop
    | dsimp only
    | split
    | intro _

theorem State.padTail_keeps {P : State → Prop} (kTop : KTop P) (kWr : KWr P) (s : State) (region cl : Nat) (b : Slot) (hP : P s) :
 P (State.padTail s region cl b) := by
  unfold State.padTail
  repeat' first
    | with_reducible assumption
    | exact rfl
    | exact fun _ => ⟨rfl, rfl, rfl⟩
    | with_reducible apply each_keeps
    | with_reducible apply State.addPFrame_keeps kTop kWr
    | with_reducible apply State.bump_keeps kWr
    | dsimp only
    | split
    | intro _

theorem State.padUnits_keeps {P : State → Prop} (kTop : KTop P) (kWr : KWr P) (s : State) (region cl : Nat) (slots : List Slot) (n : Nat) (hP : P s) :
 P (State.padUnits s region cl slots n) := by
  unfold State.padUnits
  repeat' first
    | with_reducible assumption
    | exact rfl
    | exact fun _ => ⟨rfl, rfl, rfl⟩
    | with_reducible apply each_keeps
    | with_reducible apply State.padTail_keeps kTop kWr
    | dsimp only
    | split
    | intro _

theorem State.placeDirty_keeps {P : State → Prop} (kQue : KQue P) (kTop : KTop P) (kSys : KSys P) (kWr : KWr P) (s : State) (d : Dirty) (planes cls eclass deadline : Nat) (hP : P s) :
 P (State.placeDirty s d planes cls eclass deadline) := by
  unfold State.placeDirty
  repeat' first
    | with_reducible assumption
    | exact rfl
    | exact fun _ => ⟨rfl, rfl, rfl⟩
    | exact fun _ => rfl
    | with_reducible apply State.progDone_keeps kQue kTop kSys kWr
    | with_reducible apply KQue.same kQue
    | with_reducible apply State.addPFrame_keeps kTop kWr
    | with_reducible apply when_keeps
    | with_reducible apply State.forceFrame_keeps kTop kWr
    | dsimp only
    | split
    | intro _

theorem State.acceptFrame_keeps {P : State → Prop} (kQue : KQue P) (kCop : KCop P) (kMap : KMap P) (kTop : KTop P) (kBox : KBox P) (kSys : KSys P) (kWr : KWr P) (s : State) (c : Cmd) (d : Dirty) (slot : Slot) (kind : Nat) (onlyIf : Option Nat) (hP : P s) :
 P (State.acceptFrame s c d slot kind onlyIf) := by
  unfold State.acceptFrame
  repeat' first
    | with_reducible assumption
    | exact rfl
    | exact fun _ => ⟨rfl, rfl, rfl⟩
    | exact fun _ => rfl
    | with_reducible apply KQue.same kQue
    | with_reducible apply State.onBuf_keeps kCop
    | with_reducible apply when_keeps
    | with_reducible apply State.energy_keeps kQue kBox kWr
    | with_reducible apply State.nextSeq_keeps kWr
    | with_reducible apply State.placeDirty_keeps kQue kTop kSys kWr
    | with_reducible apply kWr
    | with_reducible apply kMap
    | dsimp only
    | split
    | intro _

theorem State.dirtyEnd_keeps {P : State → Prop} (kErr : KErr P) (kQue : KQue P) (kHdg : KHdg P) (kPut : KPut P) (kCop : KCop P) (kMap : KMap P) (kWr : KWr P) (s : State) (d : Dirty) (hP : P s) :
 P (State.dirtyEnd s d) := by
  unfold State.dirtyEnd
  repeat' first
    | with_reducible assumption
    | exact rfl
    | exact fun _ => ⟨rfl, rfl, rfl⟩
    | exact fun _ => rfl
    | with_reducible apply State.unpinGroup_keeps kMap
    | with_reducible apply KQue.same kQue
    | with_reducible apply State.dropName_keeps kErr kHdg kPut kCop kWr
    | with_reducible apply State.rangeSettle_keeps kQue
    | with_reducible apply kWr
    | dsimp only
    | split
    | intro _

theorem State.padPf_keeps {P : State → Prop} (kTop : KTop P) (kWr : KWr P) (s : State) (src : FRef) (hP : P s) :
 P (State.padPf s src) := by
  unfold State.padPf
  repeat' first
    | with_reducible assumption
    | exact rfl
    | exact fun _ => ⟨rfl, rfl, rfl⟩
    | with_reducible apply kTop
    | with_reducible apply State.bump_keeps kWr
    | dsimp only
    | split
    | intro _

theorem State.dirtyLost_keeps {P : State → Prop} (kQue : KQue P) (s : State) (order pos : Nat) (hP : P s) :
 P (State.dirtyLost s order pos) := by
  unfold State.dirtyLost
  repeat' first
    | with_reducible assumption
    | exact rfl
    | exact fun _ => ⟨rfl, rfl, rfl⟩
    | exact fun _ => rfl
    | with_reducible apply KQue.same kQue
    | dsimp only
    | split
    | intro _

theorem State.bufBack_keeps {P : State → Prop} (kErr : KErr P) (kHdg : KHdg P) (kPut : KPut P) (kCop : KCop P) (kWr : KWr P) (s : State) (tag b : Nat) (hP : P s) :
 P (State.bufBack s tag b) := by
  unfold State.bufBack
  repeat' first
    | with_reducible assumption
    | exact rfl
    | exact fun _ => ⟨rfl, rfl, rfl⟩
    | with_reducible apply State.addName_keeps kCop
    | with_reducible apply State.dropName_keeps kErr kHdg kPut kCop kWr
    | dsimp only
    | split
    | intro _

theorem State.pfEnd_keeps {P : State → Prop} (kErr : KErr P) (kQue : KQue P) (kHdg : KHdg P) (kPut : KPut P) (kCop : KCop P) (kMap : KMap P) (kTop : KTop P) (kEcc : KEcc P) (kSys : KSys P) (kWr : KWr P) (s : State) (f : PFrame) (st : Nat) (hP : P s) :
 P (State.pfEnd s f st) := by
  unfold State.pfEnd
  repeat' first
    | with_reducible assumption
    | exact rfl
    | exact fun _ => ⟨rfl, rfl, rfl⟩
    | with_reducible apply State.progDone_keeps kQue kTop kSys kWr
    | with_reducible apply State.bufBack_keeps kErr kHdg kPut kCop kWr
    | with_reducible apply State.dirtyLost_keeps kQue
    | with_reducible apply State.dropName_keeps kErr kHdg kPut kCop kWr
    | with_reducible apply kEcc
    | with_reducible apply when_keeps
    | with_reducible apply State.onWb_keeps kMap
    | with_reducible apply State.dirtyEnd_keeps kErr kQue kHdg kPut kCop kMap kWr
    | dsimp only
    | split
    | intro _

theorem State.rePlace_keeps {P : State → Prop} (kQue : KQue P) (kMap : KMap P) (kTop : KTop P) (kSys : KSys P) (kWr : KWr P) (kDrawn : KDrawn P) (s : State) (d : Dirty) (hP : P s) :
 P (State.rePlace s d) := by
  unfold State.rePlace
  repeat' first
    | with_reducible assumption
    | exact rfl
    | exact fun _ => ⟨rfl, rfl, rfl⟩
    | exact fun _ => rfl
    | with_reducible apply State.padPf_keeps kTop kWr
    | with_reducible apply each_keeps
    | with_reducible apply KQue.same kQue
    | with_reducible apply State.placeDirty_keeps kQue kTop kSys kWr
    | with_reducible apply kMap
    | with_reducible apply State.draw_keeps kDrawn
    | with_reducible refine State.draw_keeps' kDrawn ‹_ = (_, _)› ?_
    | dsimp only
    | split
    | intro _

theorem State.trimPage_keeps {P : State → Prop} (kErr : KErr P) (kQue : KQue P) (kHdg : KHdg P) (kPut : KPut P) (kMap : KMap P) (kTop : KTop P) (kEcc : KEcc P) (kHly : KHly P) (kWr : KWr P) (kDrawn : KDrawn P) (s : State) (c : Cmd) (key : PageKey) (hP : P s) :
 P (State.trimPage s c key) := by
  unfold State.trimPage
  repeat' first
    | with_reducible assumption
    | exact rfl
    | exact fun _ => ⟨rfl, rfl, rfl⟩
    | with_reducible apply State.setEntry_keeps kErr kHdg kPut kMap kWr
    | with_reducible apply each_keeps
    | with_reducible apply State.freePfa_keeps kMap
    | with_reducible apply State.onCmd_keeps kQue
    | with_reducible apply State.setb_keeps kWr
    | with_reducible apply State.slotWord_keeps kErr kMap kWr kDrawn
    | with_reducible apply State.wantPage_keeps kErr kMap kTop kEcc kHly kWr kDrawn
    | with_reducible refine State.slotWord_keeps' kErr kMap kWr kDrawn ‹_ = (_, _)› ?_
    | with_reducible refine State.wantPage_keeps' kErr kMap kTop kEcc kHly kWr kDrawn ‹_ = (_, _)› ?_
    | dsimp only
    | split
    | intro _

theorem State.trimStep_keeps {P : State → Prop} (kErr : KErr P) (kQue : KQue P) (kHdg : KHdg P) (kPut : KPut P) (kMap : KMap P) (kTop : KTop P) (kEcc : KEcc P) (kHly : KHly P) (kSys : KSys P) (kWr : KWr P) (kDrawn : KDrawn P) (s : State) (c : Cmd) (hP : P s) :
 P (State.trimStep s c) := by
  unfold State.trimStep
  repeat' first
    | with_reducible assumption
    | exact rfl
    | exact fun _ => ⟨rfl, rfl, rfl⟩
    | with_reducible apply State.rangeGone_keeps kQue
    | with_reducible apply each_keeps
    | with_reducible apply State.onCmd_keeps kQue
    | with_reducible apply State.trimPage_keeps kErr kQue kHdg kPut kMap kTop kEcc kHly kWr kDrawn
    | with_reducible apply State.finish_keeps kQue kSys kWr
    | dsimp only
    | split
    | intro _

theorem State.pinFail_keeps {P : State → Prop} (kQue : KQue P) (kMap : KMap P) (kSys : KSys P) (kWr : KWr P) (s : State) (c : Cmd) (st d : Nat) (hP : P s) :
 P (State.pinFail s c st d) := by
  unfold State.pinFail
  repeat' first
    | with_reducible assumption
    | exact rfl
    | exact fun _ => ⟨rfl, rfl, rfl⟩
    | with_reducible apply State.onMslot_keeps kMap
    | with_reducible apply each_keeps
    | with_reducible apply State.finish_keeps kQue kSys kWr
    | dsimp only
    | split
    | intro _

theorem State.pinStep_keeps {P : State → Prop} (kErr : KErr P) (kQue : KQue P) (kMap : KMap P) (kTop : KTop P) (kEcc : KEcc P) (kHly : KHly P) (kSys : KSys P) (kWr : KWr P) (kDrawn : KDrawn P) (s : State) (c : Cmd) (hP : P s) :
 P (State.pinStep s c) := by
  unfold State.pinStep
  repeat' first
    | with_reducible assumption
    | exact rfl
    | exact fun _ => ⟨rfl, rfl, rfl⟩
    | with_reducible apply each_keeps
    | with_reducible apply State.onMslot_keeps kMap
    | with_reducible apply State.pinFail_keeps kQue kMap kSys kWr
    | with_reducible apply State.onCmd_keeps kQue
    | with_reducible apply State.finish_keeps kQue kSys kWr
    | with_reducible apply State.wantPage_keeps kErr kMap kTop kEcc kHly kWr kDrawn
    | with_reducible refine State.wantPage_keeps' kErr kMap kTop kEcc kHly kWr kDrawn ‹_ = (_, _)› ?_
    | dsimp only
    | split
    | intro _

theorem State.syncAll_keeps {P : State → Prop} (kQue : KQue P) (s : State) (c : Cmd) (leaves : List PageKey) (hP : P s) :
 P (State.syncAll s c leaves) := by
  unfold State.syncAll
  repeat' first
    | with_reducible assumption
    | exact rfl
    | exact fun _ => ⟨rfl, rfl, rfl⟩
    | with_reducible apply State.onCmd_keeps kQue
    | dsimp only
    | split
    | intro _

theorem State.flushStep_keeps {P : State → Prop} (kQue : KQue P) (kSys : KSys P) (kWr : KWr P) (s : State) (c : Cmd) (hP : P s) :
 P (State.flushStep s c) := by
  unfold State.flushStep
  repeat' first
    | with_reducible assumption
    | exact rfl
    | exact fun _ => ⟨rfl, rfl, rfl⟩
    | with_reducible apply State.syncAll_keeps kQue
    | with_reducible apply State.onCmd_keeps kQue
    | with_reducible apply when_keeps
    | with_reducible apply State.finish_keeps kQue kSys kWr
    | with_reducible apply times_keeps
    | dsimp only
    | split
    | intro _

theorem State.syncStep_keeps {P : State → Prop} (kQue : KQue P) (kSys : KSys P) (kWr : KWr P) (s : State) (c : Cmd) (hP : P s) :
 P (State.syncStep s c) := by
  unfold State.syncStep
  repeat' first
    | with_reducible assumption
    | exact rfl
    | exact fun _ => ⟨rfl, rfl, rfl⟩
    | with_reducible apply State.syncAll_keeps kQue
    | with_reducible apply State.onCmd_keeps kQue
    | with_reducible apply State.finish_keeps kQue kSys kWr
    | with_reducible apply times_keeps
    | dsimp only
    | split
    | intro _

theorem State.dormStep_keeps {P : State → Prop} (kQue : KQue P) (s : State) (c : Cmd) (hP : P s) :
 P (State.dormStep s c) := by
  unfold State.dormStep
  repeat' first
    | with_reducible assumption
    | exact rfl
    | exact fun _ => ⟨rfl, rfl, rfl⟩
    | with_reducible apply State.syncAll_keeps kQue
    | with_reducible apply State.onCmd_keeps kQue
    | with_reducible apply when_keeps
    | with_reducible apply times_keeps
    | dsimp only
    | split
    | intro _

end Sys2Proof.Machine
end

