-- ==== Sys2Proof/Laws/KeepsSettle.lean ====
section
/-!
SUPPORT. What the operations of Machine/Settle.lean can do: each one keeps every property of a state that its own primitive
updates keep. The hypotheses of a lemma name every unit the operation can reach.
-/
namespace Sys2Proof.Machine

theorem State.frameOut_keeps {P : State → Prop} (kQue : KQue P) (s : State) (tag pos st step : Nat) (hP : P s) :
 P (State.frameOut s tag pos st step) := by
  unfold State.frameOut
  repeat' first
    | with_reducible assumption
    | exact rfl
    | exact fun _ => ⟨rfl, rfl, rfl⟩
    | with_reducible apply State.onFrame_keeps kQue
    | dsimp only
    | split
    | intro _

theorem State.handOver_keeps {P : State → Prop} (kErr : KErr P) (kQue : KQue P) (kHdg : KHdg P) (kPut : KPut P) (kCop : KCop P) (kMap : KMap P) (kEcc : KEcc P) (kJnp : KJnp P) (kBox : KBox P) (kWr : KWr P) (s : State) (f : Flight) (hP : P s) :
 P (State.handOver s f) := by
  unfold State.handOver
  repeat' first
    | with_reducible assumption
    | exact rfl
    | exact fun _ => ⟨rfl, rfl, rfl⟩
    | with_reducible apply State.energy_keeps kQue kBox kWr
    | with_reducible apply State.bufFrame_keeps kErr kHdg kPut kCop kWr
    | with_reducible apply State.patrolFrame_keeps kJnp
    | with_reducible apply State.onMiss_keeps kMap
    | with_reducible apply State.delFlight_keeps kEcc
    | with_reducible apply State.calScore_keeps kJnp
    | with_reducible apply State.onCal_keeps kJnp
    | with_reducible apply State.frameOut_keeps kQue
    | dsimp only
    | split
    | intro _

theorem State.rawNext_keeps {P : State → Prop} (kErr : KErr P) (kQue : KQue P) (kHdg : KHdg P) (kPut : KPut P) (kCop : KCop P) (kTop : KTop P) (kMcs : KMcs P) (kChan : KChan P) (kEcc : KEcc P) (kBox : KBox P) (kSys : KSys P) (kWr : KWr P) (kDeliv : KDeliv P) (s : State) (tag : Nat) (hP : P s) :
 P (State.rawNext s tag) := by
  unfold State.rawNext
  repeat' first
    | with_reducible assumption
    | exact rfl
    | exact fun _ => ⟨rfl, rfl, rfl⟩
    | with_reducible apply State.stream_keeps kQue kBox kWr kDeliv
    | with_reducible apply State.energy_keeps kQue kBox kWr
    | with_reducible apply State.releaseFrame_keeps kErr kQue kHdg kPut kCop kTop kMcs kChan kEcc kBox kWr
    | with_reducible apply State.onCmd_keeps kQue
    | with_reducible apply State.delFlight_keeps kEcc
    | with_reducible apply State.onFrame_keeps kQue
    | with_reducible apply State.endRead_keeps kErr kQue kHdg kPut kCop kTop kMcs kChan kEcc kBox kSys kWr
    | dsimp only
    | split
    | intro _

theorem State.copyStop_keeps {P : State → Prop} (kErr : KErr P) (kQue : KQue P) (kHdg : KHdg P) (kPut : KPut P) (kCop : KCop P) (kTop : KTop P) (kMcs : KMcs P) (kChan : KChan P) (kEcc : KEcc P) (kBox : KBox P) (kWr : KWr P) (s : State) (c : Cmd) (k : Nat) (hP : P s) :
 P (State.copyStop s c k) := by
  unfold State.copyStop
  repeat' first
    | with_reducible assumption
    | exact rfl
    | exact fun _ => ⟨rfl, rfl, rfl⟩
    | with_reducible apply each_keeps
    | with_reducible apply State.releaseFrame_keeps kErr kQue kHdg kPut kCop kTop kMcs kChan kEcc kBox kWr
    | with_reducible apply State.onCmd_keeps kQue
    | dsimp only
    | split
    | intro _

theorem State.copyEnd_keeps {P : State → Prop} (kQue : KQue P) (kTop : KTop P) (kSys : KSys P) (kWr : KWr P) (s : State) (tag : Nat) (hP : P s) :
 P (State.copyEnd s tag) := by
  unfold State.copyEnd
  repeat' first
    | with_reducible assumption
    | exact rfl
    | exact fun _ => ⟨rfl, rfl, rfl⟩
    | with_reducible apply State.rangeGone_keeps kQue
    | with_reducible apply State.finish_keeps kQue kSys kWr
    | with_reducible apply State.dropLeaseTag_keeps kTop kWr
    | dsimp only
    | split
    | intro _

theorem State.copyFill_keeps {P : State → Prop} (kErr : KErr P) (kHdg : KHdg P) (kPut : KPut P) (kCop : KCop P) (kWr : KWr P) (kDrawn : KDrawn P) (s : State) (f : Frame) (b : Nat) (hP : P s) :
 P (State.copyFill s f b).2 := by
  unfold State.copyFill
  repeat' first
    | with_reducible assumption
    | exact rfl
    | exact fun _ => ⟨rfl, rfl, rfl⟩
    | with_reducible apply State.bufZero_keeps kErr kHdg kPut kCop kWr
    | with_reducible apply State.dropHold_keeps kErr kHdg kPut kCop kWr
    | with_reducible apply State.copyBuf_keeps kErr kHdg kPut kCop kWr kDrawn
    | with_reducible refine State.copyBuf_keeps' kErr kHdg kPut kCop kWr kDrawn ‹_ = (_, _)› ?_
    | dsimp only
    | split
    | intro _

theorem State.copyFill_keeps' {P : State → Prop} (kErr : KErr P) (kHdg : KHdg P) (kPut : KPut P) (kCop : KCop P) (kWr : KWr P) (kDrawn : KDrawn P) {s : State} {f : Frame} {b : Nat} {x0 : Bool} {t : State}
    (hE : State.copyFill s f b = (x0, t)) (hP : P s)  : P t := by
  have h := State.copyFill_keeps kErr kHdg kPut kCop kWr kDrawn s f b hP
  rw [hE] at h
  exact h

theorem State.placePfa_keeps {P : State → Prop} (kErr : KErr P) (kQue : KQue P) (kHdg : KHdg P) (kPut : KPut P) (kCop : KCop P) (kTop : KTop P) (kBox : KBox P) (kSys : KSys P) (kWr : KWr P) (s : State) (c : Cmd) (pos b cls a : Nat) (fua : Bool) (hP : P s) :
 P (State.placePfa s c pos b cls a fua) := by
  unfold State.placePfa
  repeat' first
    | with_reducible assumption
    | exact rfl
    | exact fun _ => ⟨rfl, rfl, rfl⟩
    | with_reducible apply State.energy_keeps kQue kBox kWr
    | with_reducible apply State.progDone_keeps kQue kTop kSys kWr
    | with_reducible apply State.dropName_keeps kErr kHdg kPut kCop kWr
    | with_reducible apply State.addPFrame_keeps kTop kWr
    | with_reducible apply when_keeps
    | with_reducible apply State.forceFrame_keeps kTop kWr
    | dsimp only
    | split
    | intro _

theorem State.copyPlace_keeps {P : State → Prop} (kErr : KErr P) (kQue : KQue P) (kHdg : KHdg P) (kPut : KPut P) (kCop : KCop P) (kMap : KMap P) (kTop : KTop P) (kBox : KBox P) (kSys : KSys P) (kWr : KWr P) (s : State) (c : Cmd) (f : Frame) (b : Nat) (hP : P s) :
 P (State.copyPlace s c f b) := by
  unfold State.copyPlace
  repeat' first
    | with_reducible assumption
    | exact rfl
    | exact fun _ => ⟨rfl, rfl, rfl⟩
    | with_reducible apply State.energy_keeps kQue kBox kWr
    | with_reducible apply State.acceptFrame_keeps kQue kCop kMap kTop kBox kSys kWr
    | with_reducible apply State.placePfa_keeps kErr kQue kHdg kPut kCop kTop kBox kSys kWr
    | with_reducible apply State.takeOver_keeps kCop
    | with_reducible apply State.onCmd_keeps kQue
    | with_reducible apply State.onFrame_keeps kQue
    | with_reducible apply when_keeps
    | dsimp only
    | split
    | intro _

theorem State.copyFail_keeps {P : State → Prop} (kErr : KErr P) (kQue : KQue P) (kHdg : KHdg P) (kPut : KPut P) (kCop : KCop P) (kTop : KTop P) (kMcs : KMcs P) (kChan : KChan P) (kEcc : KEcc P) (kBox : KBox P) (kSys : KSys P) (kWr : KWr P) (s : State) (c : Cmd) (us : List Frame) (f : Frame) (st : Nat) (hP : P s) :
 P (State.copyFail s c us f st) := by
  unfold State.copyFail
  repeat' first
    | with_reducible assumption
    | exact rfl
    | exact fun _ => ⟨rfl, rfl, rfl⟩
    | with_reducible apply each_keeps
    | with_reducible apply State.copyEnd_keeps kQue kTop kSys kWr
    | with_reducible apply State.releaseFrame_keeps kErr kQue kHdg kPut kCop kTop kMcs kChan kEcc kBox kWr
    | with_reducible apply State.copyStop_keeps kErr kQue kHdg kPut kCop kTop kMcs kChan kEcc kBox kWr
    | with_reducible apply State.onFrame_keeps kQue
    | dsimp only
    | split
    | intro _

theorem State.copyFills_keeps {P : State → Prop} (kErr : KErr P) (kQue : KQue P) (kHdg : KHdg P) (kPut : KPut P) (kCop : KCop P) (kWr : KWr P) (kDrawn : KDrawn P) (s : State) (tag : Nat) (a0 : List Frame) (hP : P s) :
 P (State.copyFills s tag a0).2 := by
  induction a0 generalizing s with
  | nil => exact hP
  | cons f l ih =>
    have h := State.copyFill_keeps kErr kHdg kPut kCop kWr kDrawn s f (f.buf.getD 0) hP
    unfold State.copyFills
    dsimp only
    split
    · exact ih _ (State.onFrame_keeps kQue _ _ _ _ h)
    · exact State.onFrame_keeps kQue _ _ _ _ h

theorem State.copyFills_keeps' {P : State → Prop} (kErr : KErr P) (kQue : KQue P) (kHdg : KHdg P) (kPut : KPut P) (kCop : KCop P) (kWr : KWr P) (kDrawn : KDrawn P) {s : State} {tag : Nat} {a0 : List Frame} {x0 : Option Frame} {t : State}
    (hE : State.copyFills s tag a0 = (x0, t)) (hP : P s)  : P t := by
  have h := State.copyFills_keeps kErr kQue kHdg kPut kCop kWr kDrawn s tag a0 hP
  rw [hE] at h
  exact h

theorem State.copyNext_keeps {P : State → Prop} (kErr : KErr P) (kQue : KQue P) (kHdg : KHdg P) (kPut : KPut P) (kCop : KCop P) (kMap : KMap P) (kTop : KTop P) (kMcs : KMcs P) (kChan : KChan P) (kEcc : KEcc P) (kBox : KBox P) (kSys : KSys P) (kWr : KWr P) (kDrawn : KDrawn P) (s : State) (tag : Nat) (hP : P s) :
 P (State.copyNext s tag) := by
  unfold State.copyNext
  repeat' first
    | with_reducible assumption
    | exact rfl
    | exact fun _ => ⟨rfl, rfl, rfl⟩
    | with_reducible apply State.rangeGone_keeps kQue
    | with_reducible apply each_keeps
    | with_reducible apply State.copyEnd_keeps kQue kTop kSys kWr
    | with_reducible apply State.releaseFrame_keeps kErr kQue kHdg kPut kCop kTop kMcs kChan kEcc kBox kWr
    | with_reducible apply State.copyPlace_keeps kErr kQue kHdg kPut kCop kMap kTop kBox kSys kWr
    | with_reducible apply State.copyStop_keeps kErr kQue kHdg kPut kCop kTop kMcs kChan kEcc kBox kWr
    | with_reducible apply State.padUnits_keeps kTop kWr
    | with_reducible apply State.copyFail_keeps kErr kQue kHdg kPut kCop kTop kMcs kChan kEcc kBox kSys kWr
    | with_reducible apply when_keeps
    | with_reducible apply State.finish_keeps kQue kSys kWr
    | with_reducible apply State.dropLeaseTag_keeps kTop kWr
    | with_reducible apply State.copyFills_keeps kErr kQue kHdg kPut kCop kWr kDrawn
    | with_reducible refine State.copyFills_keeps' kErr kQue kHdg kPut kCop kWr kDrawn ‹_ = (_, _)› ?_
    | dsimp only
    | split
    | intro _

theorem State.workOn_keeps {P : State → Prop} (kErr : KErr P) (kQue : KQue P) (kHdg : KHdg P) (kPut : KPut P) (kCop : KCop P) (kMap : KMap P) (kTop : KTop P) (kMcs : KMcs P) (kChan : KChan P) (kEcc : KEcc P) (kBox : KBox P) (kHly : KHly P) (kSys : KSys P) (kWr : KWr P) (kDrawn : KDrawn P) (kDeliv : KDeliv P) (s : State) (tag : Nat) (hP : P s) :
 P (State.workOn s tag) := by
  unfold State.workOn
  repeat' first
    | with_reducible assumption
    | exact rfl
    | exact fun _ => ⟨rfl, rfl, rfl⟩
    | with_reducible apply State.flushStep_keeps kQue kSys kWr
    | with_reducible apply State.dormStep_keeps kQue
    | with_reducible apply State.syncStep_keeps kQue kSys kWr
    | with_reducible apply State.pinStep_keeps kErr kQue kMap kTop kEcc kHly kSys kWr kDrawn
    | with_reducible apply State.deliverAll_keeps kErr kQue kHdg kPut kCop kTop kMcs kChan kEcc kBox kSys kWr kDrawn kDeliv
    | with_reducible apply State.copyNext_keeps kErr kQue kHdg kPut kCop kMap kTop kMcs kChan kEcc kBox kSys kWr kDrawn
    | with_reducible apply State.trimStep_keeps kErr kQue kHdg kPut kMap kTop kEcc kHly kSys kWr kDrawn
    | with_reducible apply State.rawNext_keeps kErr kQue kHdg kPut kCop kTop kMcs kChan kEcc kBox kSys kWr kDeliv
    | with_reducible apply times_keeps
    | dsimp only
    | split
    | intro _

theorem State.startFrames_keeps {P : State → Prop} (kErr : KErr P) (kQue : KQue P) (kCop : KCop P) (kMap : KMap P) (kTop : KTop P) (kEcc : KEcc P) (kBox : KBox P) (kHly : KHly P) (kWr : KWr P) (kDrawn : KDrawn P) (s : State) (hP : P s) :
 P (State.startFrames s) := by
  unfold State.startFrames
  repeat' first
    | with_reducible assumption
    | exact rfl
    | exact fun _ => ⟨rfl, rfl, rfl⟩
    | with_reducible apply each_keeps
    | with_reducible apply State.startFrame_keeps kErr kQue kCop kMap kTop kEcc kBox kHly kWr kDrawn
    | dsimp only
    | split
    | intro _

theorem State.dropStale_keeps {P : State → Prop} (kErr : KErr P) (kQue : KQue P) (kHdg : KHdg P) (kPut : KPut P) (kCop : KCop P) (kMap : KMap P) (kTop : KTop P) (kSys : KSys P) (kWr : KWr P) (s : State) (hP : P s) :
 P (State.dropStale s) := by
  unfold State.dropStale
  repeat' first
    | with_reducible assumption
    | exact rfl
    | exact fun _ => ⟨rfl, rfl, rfl⟩
    | with_reducible apply each_keeps
    | with_reducible apply when_keeps
    | with_reducible apply State.progDone_keeps kQue kTop kSys kWr
    | with_reducible apply State.dirtyEnd_keeps kErr kQue kHdg kPut kCop kMap kWr
    | with_reducible apply State.padPf_keeps kTop kWr
    | dsimp only
    | split
    | intro _

theorem State.settleOnce_keeps {P : State → Prop} (kErr : KErr P) (kQue : KQue P) (kHdg : KHdg P) (kPut : KPut P) (kCop : KCop P) (kMap : KMap P) (kTop : KTop P) (kMcs : KMcs P) (kChan : KChan P) (kEcc : KEcc P) (kJnp : KJnp P) (kBox : KBox P) (kHly : KHly P) (kSys : KSys P) (kWr : KWr P) (kDrawn : KDrawn P) (kDeliv : KDeliv P) (s : State) (hP : P s) :
 P (State.settleOnce s) := by
  unfold State.settleOnce
  repeat' first
    | with_reducible assumption
    | exact rfl
    | exact fun _ => ⟨rfl, rfl, rfl⟩
    | with_reducible apply each_keeps
    | with_reducible apply State.mapRetry_keeps kErr kQue kHdg kPut kMap kTop kEcc kHly kWr kDrawn
    | with_reducible apply State.startFrames_keeps kErr kQue kCop kMap kTop kEcc kBox kHly kWr kDrawn
    | with_reducible apply State.retireStep_keeps kMap kWr
    | with_reducible apply State.handOver_keeps kErr kQue kHdg kPut kCop kMap kEcc kJnp kBox kWr
    | with_reducible apply State.dropStale_keeps kErr kQue kHdg kPut kCop kMap kTop kSys kWr
    | with_reducible apply State.workOn_keeps kErr kQue kHdg kPut kCop kMap kTop kMcs kChan kEcc kBox kHly kSys kWr kDrawn kDeliv
    | with_reducible apply State.tryUpds_keeps kErr kQue kHdg kPut kMap kTop kEcc kHly kWr kDrawn
    | with_reducible apply State.rangeSettle_keeps kQue
    | with_reducible apply State.measureStep_keeps kTop kEcc kJnp kWr
    | dsimp only
    | split
    | intro _

theorem State.replaceLost_keeps {P : State → Prop} (kQue : KQue P) (kMap : KMap P) (kTop : KTop P) (kSys : KSys P) (kWr : KWr P) (kDrawn : KDrawn P) (s : State) (hP : P s) :
 P (State.replaceLost s) := by
  unfold State.replaceLost
  repeat' first
    | with_reducible assumption
    | exact rfl
    | exact fun _ => ⟨rfl, rfl, rfl⟩
    | with_reducible apply State.rePlace_keeps kQue kMap kTop kSys kWr kDrawn
    | with_reducible apply each_keeps
    | dsimp only
    | split
    | intro _

theorem State.settle_keeps {P : State → Prop} (kErr : KErr P) (kQue : KQue P) (kHdg : KHdg P) (kPut : KPut P) (kCop : KCop P) (kMap : KMap P) (kTop : KTop P) (kMcs : KMcs P) (kChan : KChan P) (kEcc : KEcc P) (kJnp : KJnp P) (kBox : KBox P) (kYew : KYew P) (kHly : KHly P) (kSys : KSys P) (kWr : KWr P) (kDrawn : KDrawn P) (kDeliv : KDeliv P) (s : State) (hP : P s) :
 P (State.settle s) := by
  unfold State.settle
  repeat' first
    | with_reducible assumption
    | exact rfl
    | exact fun _ => ⟨rfl, rfl, rfl⟩
    | with_reducible apply State.dormantStep_keeps kErr kQue kHdg kPut kJnp kYew kWr kDrawn
    | with_reducible apply State.ckptStep_keeps kQue kYew kWr
    | with_reducible apply State.replaceLost_keeps kQue kMap kTop kSys kWr kDrawn
    | with_reducible apply State.settleOnce_keeps kErr kQue kHdg kPut kCop kMap kTop kMcs kChan kEcc kJnp kBox kHly kSys kWr kDrawn kDeliv
    | with_reducible apply times_keeps
    | dsimp only
    | split
    | intro _

end Sys2Proof.Machine
end

