-- ==== Sys2Proof/Laws/KeepsDma.lean ====
section
/-!
SUPPORT. What the operations of Machine/Dma.lean can do: each one keeps every property of a state that its own primitive
updates keep. The hypotheses of a lemma name every unit the operation can reach.
-/
namespace Sys2Proof.Machine

theorem State.onDcq_keeps {P : State → Prop} (kDma : KDma P) (s : State) (w : Nat) (f : Dcq → Dcq) (hP : P s) :
 P (State.onDcq s w f) := by
  unfold State.onDcq
  repeat' first
    | with_reducible assumption
    | exact rfl
    | exact fun _ => ⟨rfl, rfl, rfl⟩
    | exact fun _ => rfl
    | with_reducible apply KDma.same kDma
    | dsimp only
    | split
    | intro _

theorem State.dmaQueue_keeps {P : State → Prop} (kQue : KQue P) (kDma : KDma P) (kWr : KWr P) (s : State) (tag : Nat) (hP : P s) :
 P (State.dmaQueue s tag) := by
  unfold State.dmaQueue
  split
  · exact hP
  · dsimp only
    have h := KQue.same kQue (s := s) (f := fun q => { q with heldSq := q.heldSq.filter fun h => h.2 != tag }) (fun _ => rfl) hP
    split
    · exact KQue.same kQue (fun _ => rfl) h
    · refine State.levelEvent_keeps kWr _ _ _ _ _ _ (State.onDmaCh_keeps kDma _ _ _ ?_ h) ?_
      · rename_i h8
        refine Nat.le_trans ?_ (Nat.le_max_right _ _)
        simp only [List.length_append, List.length_cons, List.length_nil]
        exact Nat.lt_of_not_le h8
      · rfl

theorem State.dmaRetry_keeps {P : State → Prop} (kQue : KQue P) (kDma : KDma P) (kWr : KWr P) (s : State) (n : Nat) (hP : P s) :
 P (State.dmaRetry s n) := by
  unfold State.dmaRetry
  repeat' first
    | with_reducible assumption
    | exact rfl
    | exact fun _ => ⟨rfl, rfl, rfl⟩
    | with_reducible apply each_keeps
    | with_reducible apply State.dmaQueue_keeps kQue kDma kWr
    | dsimp only
    | split
    | intro _

theorem State.doDma_keeps {P : State → Prop} (kErr : KErr P) (kQue : KQue P) (kDma : KDma P) (kSys : KSys P) (kWr : KWr P) (kDrawn : KDrawn P) (s : State) (c : Cmd) (hP : P s) :
 P (State.doDma s c) := by
  unfold State.doDma
  repeat' first
    | with_reducible assumption
    | exact rfl
    | exact fun _ => ⟨rfl, rfl, rfl⟩
    | with_reducible apply State.dmaQueue_keeps kQue kDma kWr
    | with_reducible apply State.onCmd_keeps kQue
    | with_reducible apply State.finish_keeps kQue kSys kWr
    | with_reducible apply State.handleList_keeps kErr kWr kDrawn
    | with_reducible refine State.handleList_keeps' kErr kWr kDrawn ‹_ = (_, _, _)› ?_
    | dsimp only
    | split
    | intro _

theorem State.repace_keeps {P : State → Prop} (kDma : KDma P) (s : State) (n : Nat) (hP : P s) :
 P (State.repace s n) := by
  unfold State.repace
  repeat' first
    | with_reducible assumption
    | exact rfl
    | exact fun _ => ⟨rfl, rfl, rfl⟩
    | exact fun _ => rfl
    | with_reducible apply onDmaCh_same kDma
    | exact fun _ => Nat.zero_le _
    | exact fun _ => List.length_filter_le _ _
    | exact Nat.le_refl _
    | exact Nat.zero_le _
    | exact List.length_filter_le _ _
    | dsimp only
    | split
    | intro _

theorem State.dmaStart_keeps {P : State → Prop} (kDma : KDma P) (kWr : KWr P) (s : State) (n : Nat) (hP : P s) :
 P (State.dmaStart s n) := by
  unfold State.dmaStart
  repeat' first
    | with_reducible assumption
    | exact rfl
    | exact fun _ => ⟨rfl, rfl, rfl⟩
    | exact fun _ => rfl
    | with_reducible apply onDmaCh_same kDma
    | exact fun _ => Nat.zero_le _
    | exact fun _ => List.length_filter_le _ _
    | exact Nat.le_refl _
    | exact Nat.zero_le _
    | exact List.length_filter_le _ _
    | with_reducible apply State.onDcq_keeps kDma
    | with_reducible apply State.setb_keeps kWr
    | with_reducible apply when_keeps
    | with_reducible apply kWr
    | dsimp only
    | split
    | intro _

theorem State.dmaSource_keeps {P : State → Prop} (kErr : KErr P) (kWr : KWr P) (kDrawn : KDrawn P) (s : State) (x : Xfer) (hs : List Nat) (dram : List Byte) (o k : Nat) (hP : P s) :
 P (State.dmaSource s x hs dram o k).2.2 := by
  unfold State.dmaSource
  repeat' first
    | with_reducible assumption
    | exact rfl
    | exact fun _ => ⟨rfl, rfl, rfl⟩
    | with_reducible apply State.hRead_keeps kErr kWr kDrawn
    | with_reducible refine State.hRead_keeps' kErr kWr kDrawn ‹_ = (_, _)› ?_
    | dsimp only
    | split
    | intro _

theorem State.dmaSource_keeps' {P : State → Prop} (kErr : KErr P) (kWr : KWr P) (kDrawn : KDrawn P) {s : State} {x : Xfer} {hs : List Nat} {dram : List Byte} {o k : Nat} {x0 : List Byte} {x1 : Option (Nat × Nat)} {t : State}
    (hE : State.dmaSource s x hs dram o k = (x0, x1, t)) (hP : P s)  : P t := by
  have h := State.dmaSource_keeps kErr kWr kDrawn s x hs dram o k hP
  rw [hE] at h
  exact h

theorem State.dmaDest_keeps {P : State → Prop} (kErr : KErr P) (kHdg : KHdg P) (kPut : KPut P) (kWr : KWr P) (kDram : KDram P) (kDeliv : KDeliv P) (s : State) (x : Xfer) (hs : List Nat) (o : Nat) (d : List Byte) (hP : P s) :
 P (State.dmaDest s x hs o d).2 := by
  unfold State.dmaDest
  repeat' first
    | with_reducible assumption
    | exact rfl
    | exact fun _ => ⟨rfl, rfl, rfl⟩
    | with_reducible apply State.deliver_keeps kDeliv
    | with_reducible apply State.hWrite_keeps kErr kHdg kPut kWr
    | with_reducible apply kDram
    | dsimp only
    | split
    | intro _

theorem State.dmaDest_keeps' {P : State → Prop} (kErr : KErr P) (kHdg : KHdg P) (kPut : KPut P) (kWr : KWr P) (kDram : KDram P) (kDeliv : KDeliv P) {s : State} {x : Xfer} {hs : List Nat} {o : Nat} {d : List Byte} {x0 : Option (Nat × Nat)} {t : State}
    (hE : State.dmaDest s x hs o d = (x0, t)) (hP : P s)  : P t := by
  have h := State.dmaDest_keeps kErr kHdg kPut kWr kDram kDeliv s x hs o d hP
  rw [hE] at h
  exact h

theorem State.dmaSlot_keeps {P : State → Prop} (kCop : KCop P) (s : State) (x : Xfer) (hs : List Nat) (d : List Byte) (o : Nat) (hP : P s) :
 P (State.dmaSlot s x hs d o) := by
  unfold State.dmaSlot
  repeat' first
    | with_reducible assumption
    | exact rfl
    | exact fun _ => ⟨rfl, rfl, rfl⟩
    | with_reducible apply State.onBuf_keeps kCop
    | dsimp only
    | split
    | intro _

theorem State.dmaMove_keeps {P : State → Prop} (kErr : KErr P) (kHdg : KHdg P) (kPut : KPut P) (kWr : KWr P) (kDrawn : KDrawn P) (kDram : KDram P) (kDeliv : KDeliv P) (s : State) (x : Xfer) (hs : List Nat) (dram : List Byte)
    (n : Nat) (hP : P s) : P (State.dmaMove s x hs dram n).st := by
  unfold State.dmaMove
  suffices h : ∀ (l : List (Nat × Nat)) (m : Moving), P m.st → P (l.foldl (fun (m : Moving) p =>
      if m.stop.isSome then m
      else
        let (d, stop, s) := m.st.dmaSource x hs dram p.1 p.2
        if stop.isSome then { m with stop := stop, st := s }
        else
          let (stop, s) := s.dmaDest x hs p.1 d
          { data := if stop.isSome then m.data else m.data ++ d, stop := stop, st := s }) m).st from h _ _ hP
  intro l
  induction l with
  | nil => exact fun _ h => h
  | cons p r ih =>
    intro m hm
    apply ih
    dsimp only
    have h1 := State.dmaSource_keeps kErr kWr kDrawn m.st x hs dram p.1 p.2 hm
    split
    · exact hm
    · split
      · exact h1
      · exact State.dmaDest_keeps kErr kHdg kPut kWr kDram kDeliv _ x hs p.1 _ h1

theorem State.dmaEnd_keeps {P : State → Prop} (kErr : KErr P) (kQue : KQue P) (kHdg : KHdg P) (kPut : KPut P) (kCop : KCop P) (kDma : KDma P) (kBox : KBox P) (kSys : KSys P) (kWr : KWr P) (kDrawn : KDrawn P) (kDram : KDram P) (kDeliv : KDeliv P) (s : State) (n : Nat) (x : Xfer) (r : DmaEnd) (removed : Option Nat) (hP : P s) :
 P (State.dmaEnd s n x r removed) := by
  unfold State.dmaEnd
  repeat' first
    | with_reducible assumption
    | exact rfl
    | exact fun _ => ⟨rfl, rfl, rfl⟩
    | exact fun _ => rfl
    | with_reducible apply onDmaCh_same kDma
    | exact fun _ => Nat.zero_le _
    | exact fun _ => List.length_filter_le _ _
    | exact Nat.le_refl _
    | exact Nat.zero_le _
    | exact List.length_filter_le _ _
    | with_reducible apply State.energy_keeps kQue kBox kWr
    | with_reducible apply each_keeps
    | with_reducible apply State.userBytes_keeps kBox
    | with_reducible apply State.dmaSlot_keeps kCop
    | with_reducible apply State.onCmd_keeps kQue
    | with_reducible apply when_keeps
    | with_reducible apply State.finish_keeps kQue kSys kWr
    | with_reducible apply kWr
    | with_reducible apply State.dmaMove_keeps kErr kHdg kPut kWr kDrawn kDram kDeliv
    | with_reducible apply State.dmaDest_keeps kErr kHdg kPut kWr kDram kDeliv
    | with_reducible refine State.dmaDest_keeps' kErr kHdg kPut kWr kDram kDeliv ‹_ = (_, _)› ?_
    | dsimp only
    | split
    | intro _

theorem State.dmaStop_keeps {P : State → Prop} (kErr : KErr P) (kQue : KQue P) (kHdg : KHdg P) (kPut : KPut P) (kCop : KCop P) (kDma : KDma P) (kBox : KBox P) (kSys : KSys P) (kWr : KWr P) (kDrawn : KDrawn P) (kDram : KDram P) (kDeliv : KDeliv P) (s : State) (tag st : Nat) (hP : P s) :
 P (State.dmaStop s tag st) := by
  unfold State.dmaStop
  repeat' first
    | with_reducible assumption
    | exact rfl
    | exact fun _ => ⟨rfl, rfl, rfl⟩
    | exact fun _ => rfl
    | with_reducible apply onDmaCh_same kDma
    | exact fun _ => Nat.zero_le _
    | exact fun _ => List.length_filter_le _ _
    | exact Nat.le_refl _
    | exact Nat.zero_le _
    | exact List.length_filter_le _ _
    | with_reducible apply each_keeps
    | with_reducible apply KQue.same kQue
    | with_reducible apply State.dmaRetry_keeps kQue kDma kWr
    | with_reducible apply State.dmaEnd_keeps kErr kQue kHdg kPut kCop kDma kBox kSys kWr kDrawn kDram kDeliv
    | with_reducible apply kDrawn
    | apply kDrawn
    | dsimp only
    | split
    | intro _

theorem State.dmaGranted_keeps {P : State → Prop} (kDma : KDma P) (s : State) (tag st : Nat) (hP : P s) :
 P (State.dmaGranted s tag st) := by
  unfold State.dmaGranted
  repeat' first
    | with_reducible assumption
    | exact rfl
    | exact fun _ => ⟨rfl, rfl, rfl⟩
    | exact fun _ => rfl
    | with_reducible apply onDmaCh_same kDma
    | exact fun _ => Nat.zero_le _
    | exact fun _ => List.length_filter_le _ _
    | exact Nat.le_refl _
    | exact Nat.zero_le _
    | exact List.length_filter_le _ _
    | with_reducible apply each_keeps
    | dsimp only
    | split
    | intro _

theorem State.dcqWrite_keeps {P : State → Prop} (kErr : KErr P) (kHdg : KHdg P) (kPut : KPut P) (kDma : KDma P) (kWr : KWr P) (kDram : KDram P) (s : State) (w : Nat) (r : DmaRec) (hP : P s) :
 P (State.dcqWrite s w r) := by
  unfold State.dcqWrite
  repeat' first
    | with_reducible assumption
    | exact rfl
    | exact fun _ => ⟨rfl, rfl, rfl⟩
    | with_reducible apply State.levelEvent_keeps kWr
    | with_reducible apply State.onDcq_keeps kDma
    | with_reducible apply State.hWrite_keeps kErr kHdg kPut kWr
    | with_reducible apply kDram
    | with_reducible apply kWr
    | dsimp only
    | split
    | intro _

theorem State.dcqHead_keeps {P : State → Prop} (kErr : KErr P) (kWr : KWr P) (s : State) (w v : Nat) (hP : P s) :
 P (State.dcqHead s w v) := by
  unfold State.dcqHead
  repeat' first
    | with_reducible assumption
    | exact rfl
    | exact fun _ => ⟨rfl, rfl, rfl⟩
    | with_reducible apply State.err1_keeps kErr kWr
    | with_reducible apply State.setb_keeps kWr
    | with_reducible apply kWr
    | dsimp only
    | split
    | intro _

theorem State.dcqCfg_keeps {P : State → Prop} (kDma : KDma P) (kWr : KWr P) (s : State) (w v : Nat) (hP : P s) :
 P (State.dcqCfg s w v) := by
  unfold State.dcqCfg
  repeat' first
    | with_reducible assumption
    | exact rfl
    | exact fun _ => ⟨rfl, rfl, rfl⟩
    | with_reducible apply State.onDcq_keeps kDma
    | with_reducible apply State.setb_keeps kWr
    | with_reducible apply when_keeps
    | with_reducible apply kWr
    | dsimp only
    | split
    | intro _

theorem execDmaMove_keeps {P : State → Prop} (kErr : KErr P) (kQue : KQue P) (kDma : KDma P) (kSys : KSys P) (kWr : KWr P) (kDrawn : KDrawn P) (tag : Tag) (s : State) (hP : P s) :
    Out.All P (execDmaMove tag s) := by
  unfold execDmaMove
  repeat' first
    | with_reducible apply Out.all_next
    | exact trivial
    | with_reducible assumption
    | exact rfl
    | exact fun _ => ⟨rfl, rfl, rfl⟩
    | with_reducible apply State.doDma_keeps kErr kQue kDma kSys kWr kDrawn
    | dsimp only
    | split
    | intro _

theorem execDmaShadowLoad_keeps {P : State → Prop} (kQue : KQue P) (kDma : KDma P) (kWr : KWr P) (n : Fin 16) (s : State) (hP : P s) :
    Out.All P (execDmaShadowLoad n s) := by
  unfold execDmaShadowLoad
  apply Out.all_next
  split
  · rename_i hq
    refine State.dmaRetry_keeps kQue kDma kWr _ _ (State.onDmaCh_keeps kDma _ _ _ ?_ hP)
    rw [hq]
    simp only [List.length_cons]
    omega
  · exact hP

theorem execPaceLevelReport_keeps {P : State → Prop} (kDma : KDma P) (port : Fin 4) (q : Fin 4) (level : BitVec 12) (s : State) (hP : P s) :
    Out.All P (execPaceLevelReport port q level s) := by
  unfold execPaceLevelReport
  repeat' first
    | with_reducible apply Out.all_next
    | exact trivial
    | with_reducible assumption
    | exact rfl
    | exact fun _ => ⟨rfl, rfl, rfl⟩
    | exact fun _ => rfl
    | with_reducible apply State.repace_keeps kDma
    | with_reducible apply KDma.same kDma
    | with_reducible apply each_keeps
    | dsimp only
    | split
    | intro _

theorem execDmaTransferStart_keeps {P : State → Prop} (kDma : KDma P) (kWr : KWr P) (n : Fin 16) (s : State) (hP : P s) :
    Out.All P (execDmaTransferStart n s) := by
  unfold execDmaTransferStart
  repeat' first
    | with_reducible apply Out.all_next
    | exact trivial
    | with_reducible assumption
    | exact rfl
    | exact fun _ => ⟨rfl, rfl, rfl⟩
    | with_reducible apply State.dmaStart_keeps kDma kWr
    | dsimp only
    | split
    | intro _

theorem execDmaTransferEnd_keeps {P : State → Prop} (kErr : KErr P) (kQue : KQue P) (kHdg : KHdg P) (kPut : KPut P) (kCop : KCop P) (kDma : KDma P) (kBox : KBox P) (kSys : KSys P) (kWr : KWr P) (kDrawn : KDrawn P) (kDram : KDram P) (kDeliv : KDeliv P) (n : Fin 16) (r : DmaEnd) (s : State) (hP : P s) :
    Out.All P (execDmaTransferEnd n r s) := by
  unfold execDmaTransferEnd
  repeat' first
    | with_reducible apply Out.all_next
    | exact trivial
    | with_reducible assumption
    | exact rfl
    | exact fun _ => ⟨rfl, rfl, rfl⟩
    | with_reducible apply State.dmaEnd_keeps kErr kQue kHdg kPut kCop kDma kBox kSys kWr kDrawn kDram kDeliv
    | with_reducible apply State.setb_keeps kWr
    | dsimp only
    | split
    | intro _

theorem execDmaRecordWrite_keeps {P : State → Prop} (kErr : KErr P) (kHdg : KHdg P) (kPut : KPut P) (kDma : KDma P) (kWr : KWr P) (kDram : KDram P) (n : Fin 16) (s : State) (hP : P s) :
    Out.All P (execDmaRecordWrite n s) := by
  unfold execDmaRecordWrite
  repeat' first
    | with_reducible apply Out.all_next
    | exact trivial
    | with_reducible assumption
    | exact rfl
    | exact fun _ => ⟨rfl, rfl, rfl⟩
    | exact fun _ => rfl
    | with_reducible apply onDmaCh_same kDma
    | exact fun _ => Nat.zero_le _
    | exact fun _ => List.length_filter_le _ _
    | exact Nat.le_refl _
    | exact Nat.zero_le _
    | exact List.length_filter_le _ _
    | with_reducible apply State.dcqWrite_keeps kErr kHdg kPut kDma kWr kDram
    | dsimp only
    | split
    | intro _

theorem execDcqDoorbell_keeps {P : State → Prop} (kErr : KErr P) (kPwr : KPwr P) (kWr : KWr P) (kResp : KResp P) (m : Master) (w : Fin 2) (v : W32) (s : State) (hP : P s) :
    Out.All P (execDcqDoorbell m w v s) := by
  unfold execDcqDoorbell
  repeat' first
    | with_reducible apply Out.all_next
    | exact trivial
    | with_reducible assumption
    | exact rfl
    | exact fun _ => ⟨rfl, rfl, rfl⟩
    | with_reducible apply State.dcqHead_keeps kErr kWr
    | with_reducible apply State.access_keeps kPwr kResp
    | dsimp only
    | split
    | intro _

theorem execDcqEnable_keeps {P : State → Prop} (kDma : KDma P) (kPwr : KPwr P) (kWr : KWr P) (kResp : KResp P) (m : Master) (w : Fin 2) (v : W32) (s : State) (hP : P s) :
    Out.All P (execDcqEnable m w v s) := by
  unfold execDcqEnable
  repeat' first
    | with_reducible apply Out.all_next
    | exact trivial
    | with_reducible assumption
    | exact rfl
    | exact fun _ => ⟨rfl, rfl, rfl⟩
    | with_reducible apply State.dcqCfg_keeps kDma kWr
    | with_reducible apply State.access_keeps kPwr kResp
    | dsimp only
    | split
    | intro _

theorem execDcqDisable_keeps {P : State → Prop} (kDma : KDma P) (kPwr : KPwr P) (kWr : KWr P) (kResp : KResp P) (m : Master) (w : Fin 2) (v : W32) (s : State) (hP : P s) :
    Out.All P (execDcqDisable m w v s) := by
  unfold execDcqDisable
  repeat' first
    | with_reducible apply Out.all_next
    | exact trivial
    | with_reducible assumption
    | exact rfl
    | exact fun _ => ⟨rfl, rfl, rfl⟩
    | with_reducible apply State.dcqCfg_keeps kDma kWr
    | with_reducible apply State.access_keeps kPwr kResp
    | dsimp only
    | split
    | intro _

end Sys2Proof.Machine
end

