-- ==== Sys2Proof/Laws/KeepsSegments.lean ====
section
/-!
SUPPORT. What the operations of Machine/Segments.lean can do: each one keeps every property of a state that its own primitive
updates keep. The hypotheses of a lemma name every unit the operation can reach.
-/
namespace Sys2Proof.Machine

theorem State.splitPj_keeps {P : State → Prop} (kQue : KQue P) (kBox : KBox P) (kWr : KWr P) (s : State) (l : List (Option Nat)) (n : Nat) (hP : P s) :
 P (State.splitPj s l n) := by
  unfold State.splitPj
  repeat' first
    | with_reducible assumption
    | exact rfl
    | exact fun _ => ⟨rfl, rfl, rfl⟩
    | with_reducible apply each_keeps
    | with_reducible apply State.energy_keeps kQue kBox kWr
    | dsimp only
    | split
    | intro _

theorem State.chargeOp_keeps {P : State → Prop} (kQue : KQue P) (kBox : KBox P) (kWr : KWr P) (s : State) (o : Op) (n : Nat) (hP : P s) :
 P (State.chargeOp s o n) := by
  unfold State.chargeOp
  repeat' first
    | with_reducible assumption
    | exact rfl
    | exact fun _ => ⟨rfl, rfl, rfl⟩
    | with_reducible apply State.splitPj_keeps kQue kBox kWr
    | dsimp only
    | split
    | intro _

theorem State.startRoutine_keeps {P : State → Prop} (kMcs : KMcs P) (s : State) (ch : Nat) (ob : List (Nat × Nat)) (prof entry : Nat) (hP : P s) :
 P (State.startRoutine s ch ob prof entry) := by
  unfold State.startRoutine
  repeat' first
    | with_reducible assumption
    | exact rfl
    | exact fun _ => ⟨rfl, rfl, rfl⟩
    | with_reducible apply onSeq_keeps kMcs
    | with_reducible apply foldl_keeps
    | with_reducible apply foldl2_keeps
    | with_reducible apply foldl3_keeps
    | dsimp only
    | split
    | intro _

theorem State.runSeg_keeps {P : State → Prop} (kTop : KTop P) (kMcs : KMcs P) (kChan : KChan P) (kEcc : KEcc P) (kWr : KWr P) (s : State) (ch : Nat) (g : Seg) (hP : P s) :
 P (State.runSeg s ch g) := by
  unfold State.runSeg
  repeat' first
    | with_reducible assumption
    | exact rfl
    | exact fun _ => ⟨rfl, rfl, rfl⟩
    | with_reducible apply kTop
    | with_reducible apply each_keeps
    | with_reducible apply when_keeps
    | with_reducible apply State.onFlight_keeps kEcc
    | with_reducible apply kChan
    | with_reducible apply State.startRoutine_keeps kMcs
    | with_reducible apply State.bump_keeps kWr
    | dsimp only
    | split
    | intro _

theorem State.jobPass_keeps {P : State → Prop} (kErr : KErr P) (kChan : KChan P) (kWr : KWr P) (s : State) (ch : Nat) (hP : P s) :
 P (State.jobPass s ch) := by
  unfold State.jobPass
  repeat' first
    | with_reducible assumption
    | exact rfl
    | exact fun _ => ⟨rfl, rfl, rfl⟩
    | with_reducible apply each_keeps
    | with_reducible apply kChan
    | with_reducible apply State.err1_keeps kErr kWr
    | dsimp only
    | split
    | intro _

theorem State.jobStep_keeps {P : State → Prop} (kErr : KErr P) (kChan : KChan P) (kWr : KWr P) (s : State) (ch : Nat) (hP : P s) :
 P (State.jobStep s ch) := by
  unfold State.jobStep
  repeat' first
    | with_reducible assumption
    | exact rfl
    | exact fun _ => ⟨rfl, rfl, rfl⟩
    | with_reducible apply kChan
    | with_reducible apply State.jobPass_keeps kErr kChan kWr
    | dsimp only
    | split
    | intro _

theorem State.jobRelock_keeps {P : State → Prop} (kChan : KChan P) (s : State) (ch : Nat) (hP : P s) :
 P (State.jobRelock s ch) := by
  unfold State.jobRelock
  repeat' first
    | with_reducible assumption
    | exact rfl
    | exact fun _ => ⟨rfl, rfl, rfl⟩
    | with_reducible apply kChan
    | dsimp only
    | split
    | intro _

theorem State.takeCodes_keeps {P : State → Prop} (kChan : KChan P) (s : State) (ch : Nat) (hP : P s) :
 P (State.takeCodes s ch) := by
  unfold State.takeCodes
  repeat' first
    | with_reducible assumption
    | exact rfl
    | exact fun _ => ⟨rfl, rfl, rfl⟩
    | with_reducible apply kChan
    | dsimp only
    | split
    | intro _

theorem State.kickSeg_keeps {P : State → Prop} (kTop : KTop P) (kMcs : KMcs P) (kChan : KChan P) (kEcc : KEcc P) (kWr : KWr P) (s : State) (ch : Nat) (hP : P s) :
 P (State.kickSeg s ch) := by
  unfold State.kickSeg
  repeat' first
    | with_reducible assumption
    | exact rfl
    | exact fun _ => ⟨rfl, rfl, rfl⟩
    | with_reducible apply State.runSeg_keeps kTop kMcs kChan kEcc kWr
    | with_reducible apply kTop
    | dsimp only
    | split
    | intro _

theorem State.runJob_keeps {P : State → Prop} (kTop : KTop P) (kMcs : KMcs P) (kChan : KChan P) (kEcc : KEcc P) (kBox : KBox P) (kWr : KWr P) (s : State) (ch : Nat) (j : ChJob) (hP : P s) :
 P (State.runJob s ch j) := by
  unfold State.runJob
  repeat' first
    | with_reducible assumption
    | exact rfl
    | exact fun _ => ⟨rfl, rfl, rfl⟩
    | with_reducible apply kChan
    | with_reducible apply State.runSeg_keeps kTop kMcs kChan kEcc kWr
    | with_reducible apply State.takeTokens_keeps kBox kWr
    | dsimp only
    | split
    | intro _

theorem State.kick_keeps {P : State → Prop} (kErr : KErr P) (kTop : KTop P) (kMcs : KMcs P) (kChan : KChan P) (kEcc : KEcc P) (kBox : KBox P) (kWr : KWr P) (s : State) (ch : Nat) (hP : P s) :
 P (State.kick s ch) := by
  unfold State.kick
  repeat' first
    | with_reducible assumption
    | exact rfl
    | exact fun _ => ⟨rfl, rfl, rfl⟩
    | with_reducible apply State.jobRelock_keeps kChan
    | with_reducible apply State.jobStep_keeps kErr kChan kWr
    | with_reducible apply State.runJob_keeps kTop kMcs kChan kEcc kBox kWr
    | with_reducible apply State.kickSeg_keeps kTop kMcs kChan kEcc kWr
    | with_reducible apply State.takeCodes_keeps kChan
    | dsimp only
    | split
    | intro _

theorem State.startJobs_keeps {P : State → Prop} (kErr : KErr P) (kTop : KTop P) (kMcs : KMcs P) (kChan : KChan P) (kEcc : KEcc P) (kBox : KBox P) (kWr : KWr P) (s : State) (ch : Nat) (js : List ChJob) (next : Option Nat) (hP : P s) :
 P (State.startJobs s ch js next) := by
  unfold State.startJobs
  repeat' first
    | with_reducible assumption
    | exact rfl
    | exact fun _ => ⟨rfl, rfl, rfl⟩
    | with_reducible apply kChan
    | with_reducible apply State.kick_keeps kErr kTop kMcs kChan kEcc kBox kWr
    | dsimp only
    | split
    | intro _

theorem State.jobEnd_keeps {P : State → Prop} (kChan : KChan P) (s : State) (ch : Nat) (j : ChJob) (code : Nat) (hP : P s) :
 P (State.jobEnd s ch j code) := by
  unfold State.jobEnd
  repeat' first
    | with_reducible assumption
    | exact rfl
    | exact fun _ => ⟨rfl, rfl, rfl⟩
    | with_reducible apply kChan
    | dsimp only
    | split
    | intro _

theorem State.jobCut_keeps {P : State → Prop} (kChan : KChan P) (s : State) (ch : Nat) (j : ChJob) (hP : P s) :
 P (State.jobCut s ch j) := by
  unfold State.jobCut
  repeat' first
    | with_reducible assumption
    | exact rfl
    | exact fun _ => ⟨rfl, rfl, rfl⟩
    | with_reducible apply kChan
    | dsimp only
    | split
    | intro _

theorem State.addSeg_keeps {P : State → Prop} (kErr : KErr P) (kTop : KTop P) (kMcs : KMcs P) (kChan : KChan P) (kEcc : KEcc P) (kBox : KBox P) (kWr : KWr P) (s : State) (g : Seg) (hP : P s) :
 P (State.addSeg s g) := by
  unfold State.addSeg
  repeat' first
    | with_reducible assumption
    | exact rfl
    | exact fun _ => ⟨rfl, rfl, rfl⟩
    | with_reducible apply kTop
    | with_reducible apply State.raiseEv_keeps kMcs
    | with_reducible apply State.kick_keeps kErr kTop kMcs kChan kEcc kBox kWr
    | with_reducible apply when_keeps
    | dsimp only
    | split
    | intro _

theorem State.queueLeg_keeps {P : State → Prop} (kErr : KErr P) (kTop : KTop P) (kMcs : KMcs P) (kChan : KChan P) (kEcc : KEcc P) (kBox : KBox P) (kWr : KWr P) (s : State) (id : Nat) (hP : P s) :
 P (State.queueLeg s id) := by
  unfold State.queueLeg
  repeat' first
    | with_reducible assumption
    | exact rfl
    | exact fun _ => ⟨rfl, rfl, rfl⟩
    | with_reducible apply State.onOp_keeps kTop
    | with_reducible apply State.addSeg_keeps kErr kTop kMcs kChan kEcc kBox kWr
    | dsimp only
    | split
    | intro _

theorem State.queueLun_keeps {P : State → Prop} (kErr : KErr P) (kTop : KTop P) (kMcs : KMcs P) (kChan : KChan P) (kEcc : KEcc P) (kBox : KBox P) (kWr : KWr P) (s : State) (lun : Nat) (hP : P s) :
 P (State.queueLun s lun) := by
  unfold State.queueLun
  repeat' first
    | with_reducible assumption
    | exact rfl
    | exact fun _ => ⟨rfl, rfl, rfl⟩
    | with_reducible apply State.queueLeg_keeps kErr kTop kMcs kChan kEcc kBox kWr
    | with_reducible apply each_keeps
    | dsimp only
    | split
    | intro _

theorem State.restartProg_keeps {P : State → Prop} (kTop : KTop P) (kChan : KChan P) (s : State) (o : Op) (hP : P s) :
 P (State.restartProg s o) := by
  unfold State.restartProg
  repeat' first
    | with_reducible assumption
    | exact rfl
    | exact fun _ => ⟨rfl, rfl, rfl⟩
    | with_reducible apply kTop
    | with_reducible apply State.onOp_keeps kTop
    | with_reducible apply kChan
    | dsimp only
    | split
    | intro _

theorem State.endPf_keeps {P : State → Prop} (kErr : KErr P) (kQue : KQue P) (kHdg : KHdg P) (kPut : KPut P) (kCop : KCop P) (kMap : KMap P) (kTop : KTop P) (kEcc : KEcc P) (kSys : KSys P) (kWr : KWr P) (s : State) (f : PFrame) (st : Nat) (hP : P s) :
 P (State.endPf s f st) := by
  unfold State.endPf
  repeat' first
    | with_reducible assumption
    | exact rfl
    | exact fun _ => ⟨rfl, rfl, rfl⟩
    | with_reducible apply kTop
    | with_reducible apply State.pfEnd_keeps kErr kQue kHdg kPut kCop kMap kTop kEcc kSys kWr
    | dsimp only
    | split
    | intro _

theorem State.noteDetail_keeps {P : State → Prop} (kQue : KQue P) (s : State) (ref : FRef) (d : Nat) (hP : P s) :
 P (State.noteDetail s ref d) := by
  unfold State.noteDetail
  repeat' first
    | with_reducible assumption
    | exact rfl
    | exact fun _ => ⟨rfl, rfl, rfl⟩
    | with_reducible apply State.onFrame_keeps kQue
    | dsimp only
    | split
    | intro _

theorem State.failGroup_keeps {P : State → Prop} (kErr : KErr P) (kQue : KQue P) (kHdg : KHdg P) (kPut : KPut P) (kCop : KCop P) (kMap : KMap P) (kTop : KTop P) (kEcc : KEcc P) (kSys : KSys P) (kWr : KWr P) (s : State) (o : Op) (st detail : Nat) (hP : P s) :
 P (State.failGroup s o st detail) := by
  unfold State.failGroup
  repeat' first
    | with_reducible assumption
    | exact rfl
    | exact fun _ => ⟨rfl, rfl, rfl⟩
    | with_reducible apply State.noteDetail_keeps kQue
    | with_reducible apply each_keeps
    | with_reducible apply kTop
    | with_reducible apply State.endPf_keeps kErr kQue kHdg kPut kCop kMap kTop kEcc kSys kWr
    | dsimp only
    | split
    | intro _

theorem State.endErase_keeps {P : State → Prop} (kQue : KQue P) (kTop : KTop P) (kSys : KSys P) (kWr : KWr P) (s : State) (o : Op) (planes st detail : Nat) (hP : P s) :
 P (State.endErase s o planes st detail) := by
  unfold State.endErase
  repeat' first
    | with_reducible assumption
    | exact rfl
    | exact fun _ => ⟨rfl, rfl, rfl⟩
    | with_reducible apply each_keeps
    | with_reducible apply State.progDone_keeps kQue kTop kSys kWr
    | with_reducible apply State.onFrame_keeps kQue
    | dsimp only
    | split
    | intro _

theorem State.failFrames_keeps {P : State → Prop} (kErr : KErr P) (kQue : KQue P) (kHdg : KHdg P) (kPut : KPut P) (kCop : KCop P) (kMap : KMap P) (kTop : KTop P) (kEcc : KEcc P) (kSys : KSys P) (kWr : KWr P) (s : State) (o : Op) (st detail : Nat) (hP : P s) :
 P (State.failFrames s o st detail) := by
  unfold State.failFrames
  repeat' first
    | with_reducible assumption
    | exact rfl
    | exact fun _ => ⟨rfl, rfl, rfl⟩
    | with_reducible apply each_keeps
    | with_reducible apply State.onOp_keeps kTop
    | with_reducible apply State.onFlight_keeps kEcc
    | with_reducible apply State.noteDetail_keeps kQue
    | with_reducible apply State.endErase_keeps kQue kTop kSys kWr
    | with_reducible apply State.failGroup_keeps kErr kQue kHdg kPut kCop kMap kTop kEcc kSys kWr
    | dsimp only
    | split
    | intro _

theorem State.failOp_keeps {P : State → Prop} (kErr : KErr P) (kQue : KQue P) (kHdg : KHdg P) (kPut : KPut P) (kCop : KCop P) (kMap : KMap P) (kTop : KTop P) (kChan : KChan P) (kEcc : KEcc P) (kBox : KBox P) (kSys : KSys P) (kWr : KWr P) (s : State) (id st detail : Nat) (hP : P s) :
 P (State.failOp s id st detail) := by
  unfold State.failOp
  repeat' first
    | with_reducible assumption
    | exact rfl
    | exact fun _ => ⟨rfl, rfl, rfl⟩
    | with_reducible apply State.delOp_keeps kTop kChan kBox kWr
    | with_reducible apply State.opTokens_keeps kTop kBox kWr
    | with_reducible apply State.failFrames_keeps kErr kQue kHdg kPut kCop kMap kTop kEcc kSys kWr
    | dsimp only
    | split
    | intro _

theorem State.countServed_keeps {P : State → Prop} (kTop : KTop P) (s : State) (o : Op) (hP : P s) :
 P (State.countServed s o) := by
  unfold State.countServed
  repeat' first
    | with_reducible assumption
    | exact rfl
    | exact fun _ => ⟨rfl, rfl, rfl⟩
    | with_reducible apply kTop
    | dsimp only
    | split
    | intro _

theorem State.nextPart_keeps {P : State → Prop} (kTop : KTop P) (s : State) (id : Nat) (whole : State → State) (hP : P s) (hF : ∀ s, P s → P (whole s)) :
 P (State.nextPart s id whole) := by
  unfold State.nextPart
  repeat' first
    | with_reducible assumption
    | exact rfl
    | exact fun _ => ⟨rfl, rfl, rfl⟩
    | with_reducible apply State.onOp_keeps kTop
    | with_reducible apply hF
    | dsimp only
    | split
    | intro _

theorem State.dropGroups_keeps {P : State → Prop} (kTop : KTop P) (s : State) (hP : P s) :
 P (State.dropGroups s) := by
  unfold State.dropGroups
  repeat' first
    | with_reducible assumption
    | exact rfl
    | exact fun _ => ⟨rfl, rfl, rfl⟩
    | with_reducible apply kTop
    | dsimp only
    | split
    | intro _

theorem State.passPassed_keeps {P : State → Prop} (kErr : KErr P) (kQue : KQue P) (kHdg : KHdg P) (kPut : KPut P) (kCop : KCop P) (kMap : KMap P) (kTop : KTop P) (kEcc : KEcc P) (kSys : KSys P) (kWr : KWr P) (s : State) (o : Op) (hP : P s) :
 P (State.passPassed s o) := by
  unfold State.passPassed
  repeat' first
    | with_reducible assumption
    | exact rfl
    | exact fun _ => ⟨rfl, rfl, rfl⟩
    | with_reducible apply kTop
    | with_reducible apply each_keeps
    | with_reducible apply State.endPf_keeps kErr kQue kHdg kPut kCop kMap kTop kEcc kSys kWr
    | with_reducible apply State.addOp_keeps kTop kWr
    | with_reducible apply State.dropGroups_keeps kTop
    | with_reducible apply State.onGroup_keeps kTop
    | dsimp only
    | split
    | intro _

theorem State.failBlock_keeps {P : State → Prop} (kErr : KErr P) (kHdg : KHdg P) (kPut : KPut P) (kJnp : KJnp P) (kWr : KWr P) (kDrawn : KDrawn P) (s : State) (o : Op) (off : Nat) (hP : P s) :
 P (State.failBlock s o off) := by
  unfold State.failBlock
  repeat' first
    | with_reducible assumption
    | exact rfl
    | exact fun _ => ⟨rfl, rfl, rfl⟩
    | with_reducible apply State.countFail_keeps kErr kHdg kPut kJnp kWr kDrawn
    | dsimp only
    | split
    | intro _

theorem State.wholeEnd_keeps {P : State → Prop} (kErr : KErr P) (kQue : KQue P) (kHdg : KHdg P) (kPut : KPut P) (kCop : KCop P) (kMap : KMap P) (kTop : KTop P) (kChan : KChan P) (kEcc : KEcc P) (kJnp : KJnp P) (kBox : KBox P) (kSys : KSys P) (kWr : KWr P) (kDrawn : KDrawn P) (s : State) (o : Op) (hP : P s) :
 P (State.wholeEnd s o) := by
  unfold State.wholeEnd
  repeat' first
    | with_reducible assumption
    | exact rfl
    | exact fun _ => ⟨rfl, rfl, rfl⟩
    | with_reducible apply State.err1_keeps kErr kWr
    | with_reducible apply State.delOp_keeps kTop kChan kBox kWr
    | with_reducible apply State.countServed_keeps kTop
    | with_reducible apply State.failBlock_keeps kErr kHdg kPut kJnp kWr kDrawn
    | with_reducible apply State.failGroup_keeps kErr kQue kHdg kPut kCop kMap kTop kEcc kSys kWr
    | with_reducible apply when_keeps
    | with_reducible apply State.passPassed_keeps kErr kQue kHdg kPut kCop kMap kTop kEcc kSys kWr
    | dsimp only
    | split
    | intro _

theorem State.bandErased_keeps {P : State → Prop} (kPwr : KPwr P) (s : State) (o : Op) (hP : P s) :
 P (State.bandErased s o) := by
  unfold State.bandErased
  repeat' first
    | with_reducible assumption
    | exact rfl
    | exact fun _ => ⟨rfl, rfl, rfl⟩
    | with_reducible apply kPwr
    | dsimp only
    | split
    | intro _

theorem State.arrayEnd_keeps {P : State → Prop} (kErr : KErr P) (kQue : KQue P) (kHdg : KHdg P) (kPut : KPut P) (kCop : KCop P) (kMap : KMap P) (kTop : KTop P) (kChan : KChan P) (kEcc : KEcc P) (kJnp : KJnp P) (kBox : KBox P) (kPwr : KPwr P) (kSys : KSys P) (kWr : KWr P) (kDrawn : KDrawn P) (s : State) (id : Nat) (ok : Bool) (hP : P s) :
 P (State.arrayEnd s id ok) := by
  unfold State.arrayEnd
  repeat' first
    | with_reducible assumption
    | exact rfl
    | exact fun _ => ⟨rfl, rfl, rfl⟩
    | with_reducible apply State.opTokens_keeps kTop kBox kWr
    | with_reducible apply State.wholeEnd_keeps kErr kQue kHdg kPut kCop kMap kTop kChan kEcc kJnp kBox kSys kWr kDrawn
    | with_reducible apply kTop
    | with_reducible apply State.onOp_keeps kTop
    | with_reducible apply when_keeps
    | with_reducible apply State.bandErased_keeps kPwr
    | with_reducible apply State.endErase_keeps kQue kTop kSys kWr
    | with_reducible apply State.nextPart_keeps kTop
    | dsimp only
    | split
    | intro _

theorem State.advance_keeps {P : State → Prop} (kErr : KErr P) (kQue : KQue P) (kHdg : KHdg P) (kPut : KPut P) (kCop : KCop P) (kMap : KMap P) (kTop : KTop P) (kMcs : KMcs P) (kChan : KChan P) (kEcc : KEcc P) (kJnp : KJnp P) (kBox : KBox P) (kSys : KSys P) (kWr : KWr P) (kDrawn : KDrawn P) (s : State) (id : Nat) (hP : P s) :
 P (State.advance s id) := by
  unfold State.advance
  repeat' first
    | with_reducible assumption
    | exact rfl
    | exact fun _ => ⟨rfl, rfl, rfl⟩
    | with_reducible apply State.opTokens_keeps kTop kBox kWr
    | with_reducible apply State.wholeEnd_keeps kErr kQue kHdg kPut kCop kMap kTop kChan kEcc kJnp kBox kSys kWr kDrawn
    | with_reducible apply State.onOp_keeps kTop
    | with_reducible apply State.nextPart_keeps kTop
    | with_reducible apply State.queueLeg_keeps kErr kTop kMcs kChan kEcc kBox kWr
    | dsimp only
    | split
    | intro _

theorem State.arrived_keeps {P : State → Prop} (kEcc : KEcc P) (s : State) (f : Flight) (k : OpKind) (hP : P s) :
 P (State.arrived s f k) := by
  unfold State.arrived
  repeat' first
    | with_reducible assumption
    | exact rfl
    | exact fun _ => ⟨rfl, rfl, rfl⟩
    | with_reducible apply kEcc
    | with_reducible apply State.delFlight_keeps kEcc
    | with_reducible apply State.onFlight_keeps kEcc
    | dsimp only
    | split
    | intro _

theorem State.received_keeps {P : State → Prop} (kEcc : KEcc P) (s : State) (o : Op) (last : Bool) (a0 : List (Nat × Nat)) (a1 : List Byte) (hP : P s) :
 P (State.received s o last a0 a1) := by
  induction a0 generalizing s a1 with
  | nil => exact hP
  | cons x r ih =>
    obtain ⟨id, n⟩ := x
    unfold State.received
    apply ih
    dsimp only
    split
    · exact hP
    · split
      · split
        · exact State.onFlight_keeps kEcc _ _ _ (State.onFlight_keeps kEcc _ _ _ hP)
        · exact State.arrived_keeps kEcc _ _ _ (State.onFlight_keeps kEcc _ _ _ hP)
      · exact State.onFlight_keeps kEcc _ _ _ hP

end Sys2Proof.Machine
end

