-- ==== Sys2Proof/Laws/KeepsAbsent.lean ====
section
/-!
SUPPORT. What the operations of Machine/Absent.lean can do: each one keeps every property of a state that its own primitive
updates keep. The hypotheses of a lemma name every unit the operation can reach.
-/
namespace Sys2Proof.Machine

theorem State.discTold_keeps {P : State → Prop} (kQue : KQue P) (kHly : KHly P) (kSys : KSys P) (kWr : KWr P) (s : State) (n a m ch : Nat) (hP : P s) :
 P (State.discTold s n a m ch) := by
  unfold State.discTold
  repeat' first
    | with_reducible assumption
    | exact rfl
    | exact fun _ => ⟨rfl, rfl, rfl⟩
    | with_reducible apply each_keeps
    | with_reducible apply State.onCmd_keeps kQue
    | with_reducible apply State.finishSlow_keeps kQue kHly kSys kWr
    | dsimp only
    | split
    | intro _

theorem State.endChAct_keeps {P : State → Prop} (kQue : KQue P) (kTop : KTop P) (kHly : KHly P) (kSys : KSys P) (kWr : KWr P) (s : State) (n : Nat) (act : Act) (st detail result : Nat) (hP : P s) :
 P (State.endChAct s n act st detail result) := by
  unfold State.endChAct
  repeat' first
    | with_reducible assumption
    | exact rfl
    | exact fun _ => ⟨rfl, rfl, rfl⟩
    | with_reducible apply State.dropLease_keeps kTop kWr
    | with_reducible apply State.onCmd_keeps kQue
    | with_reducible apply State.finishSlow_keeps kQue kHly kSys kWr
    | dsimp only
    | split
    | intro _

theorem State.trainDone_keeps {P : State → Prop} (kQue : KQue P) (kTop : KTop P) (kChan : KChan P) (kHly : KHly P) (kSys : KSys P) (kWr : KWr P) (s : State) (n st detail result : Nat) (hP : P s) :
 P (State.trainDone s n st detail result) := by
  unfold State.trainDone
  repeat' first
    | with_reducible assumption
    | exact rfl
    | exact fun _ => ⟨rfl, rfl, rfl⟩
    | with_reducible apply kChan
    | with_reducible apply State.endChAct_keeps kQue kTop kHly kSys kWr
    | dsimp only
    | split
    | intro _

theorem State.zqDone_keeps {P : State → Prop} (kQue : KQue P) (kTop : KTop P) (kChan : KChan P) (kHly : KHly P) (kSys : KSys P) (kWr : KWr P) (s : State) (n st detail result : Nat) (hP : P s) :
 P (State.zqDone s n st detail result) := by
  unfold State.zqDone
  repeat' first
    | with_reducible assumption
    | exact rfl
    | exact fun _ => ⟨rfl, rfl, rfl⟩
    | with_reducible apply kChan
    | with_reducible apply State.endChAct_keeps kQue kTop kHly kSys kWr
    | dsimp only
    | split
    | intro _

theorem State.failActs_keeps {P : State → Prop} (kQue : KQue P) (kTop : KTop P) (kChan : KChan P) (kHly : KHly P) (kSys : KSys P) (kWr : KWr P) (s : State) (n st detail : Nat) (all : Bool) (hP : P s) :
 P (State.failActs s n st detail all) := by
  unfold State.failActs
  repeat' first
    | with_reducible assumption
    | exact rfl
    | exact fun _ => ⟨rfl, rfl, rfl⟩
    | with_reducible apply kChan
    | with_reducible apply State.endChAct_keeps kQue kTop kHly kSys kWr
    | with_reducible apply State.trainDone_keeps kQue kTop kChan kHly kSys kWr
    | with_reducible apply State.zqDone_keeps kQue kTop kChan kHly kSys kWr
    | with_reducible apply when_keeps
    | dsimp only
    | split
    | intro _

theorem State.cutSeg_keeps {P : State → Prop} (kTop : KTop P) (kMcs : KMcs P) (kChan : KChan P) (kBox : KBox P) (kWr : KWr P) (s : State) (n : Nat) (hP : P s) :
 P (State.cutSeg s n) := by
  unfold State.cutSeg
  repeat' first
    | with_reducible assumption
    | exact rfl
    | exact fun _ => ⟨rfl, rfl, rfl⟩
    | with_reducible apply State.giveJob_keeps kTop kChan kBox kWr
    | with_reducible apply kTop
    | with_reducible apply onSeq_keeps kMcs
    | dsimp only
    | split
    | intro _

theorem State.failChannel_keeps {P : State → Prop} (kErr : KErr P) (kQue : KQue P) (kHdg : KHdg P) (kPut : KPut P) (kCop : KCop P) (kMap : KMap P) (kTop : KTop P) (kChan : KChan P) (kEcc : KEcc P) (kBox : KBox P) (kSys : KSys P) (kWr : KWr P) (s : State) (n : Nat) (hP : P s) :
 P (State.failChannel s n) := by
  unfold State.failChannel
  repeat' first
    | with_reducible assumption
    | exact rfl
    | exact fun _ => ⟨rfl, rfl, rfl⟩
    | with_reducible apply each_keeps
    | with_reducible apply State.failOp_keeps kErr kQue kHdg kPut kCop kMap kTop kChan kEcc kBox kSys kWr
    | with_reducible apply kTop
    | dsimp only
    | split
    | intro _

theorem State.cutDisc_keeps {P : State → Prop} (kTop : KTop P) (kChan : KChan P) (kWr : KWr P) (s : State) (n : Nat) (hP : P s) :
 P (State.cutDisc s n) := by
  unfold State.cutDisc
  repeat' first
    | with_reducible assumption
    | exact rfl
    | exact fun _ => ⟨rfl, rfl, rfl⟩
    | with_reducible apply kChan
    | with_reducible apply State.wantLease_keeps kTop
    | with_reducible apply State.dropLease_keeps kTop kWr
    | with_reducible apply when_keeps
    | dsimp only
    | split
    | intro _

theorem State.cutAbsent_keeps {P : State → Prop} (kErr : KErr P) (kQue : KQue P) (kHdg : KHdg P) (kPut : KPut P) (kCop : KCop P) (kMap : KMap P) (kTop : KTop P) (kMcs : KMcs P) (kChan : KChan P) (kEcc : KEcc P) (kJnp : KJnp P) (kBox : KBox P) (kHly : KHly P) (kSys : KSys P) (kWr : KWr P) (s : State) (n : Nat) (hP : P s) :
 P (State.cutAbsent s n) := by
  unfold State.cutAbsent
  repeat' first
    | with_reducible assumption
    | exact rfl
    | exact fun _ => ⟨rfl, rfl, rfl⟩
    | with_reducible apply kChan
    | with_reducible apply State.moveLevel_keeps kChan kWr
    | with_reducible apply State.cutSeg_keeps kTop kMcs kChan kBox kWr
    | with_reducible apply State.forgetResident_keeps kJnp
    | with_reducible apply kTop
    | with_reducible apply State.failChannel_keeps kErr kQue kHdg kPut kCop kMap kTop kChan kEcc kBox kSys kWr
    | with_reducible apply State.failActs_keeps kQue kTop kChan kHly kSys kWr
    | with_reducible apply State.cutDisc_keeps kTop kChan kWr
    | dsimp only
    | split
    | intro _

theorem State.goAbsent_keeps {P : State → Prop} (kErr : KErr P) (kQue : KQue P) (kHdg : KHdg P) (kPut : KPut P) (kCop : KCop P) (kMap : KMap P) (kTop : KTop P) (kMcs : KMcs P) (kChan : KChan P) (kEcc : KEcc P) (kJnp : KJnp P) (kBox : KBox P) (kHly : KHly P) (kSys : KSys P) (kWr : KWr P) (s : State) (n : Nat) (hP : P s) :
 P (State.goAbsent s n) := by
  unfold State.goAbsent
  repeat' first
    | with_reducible assumption
    | exact rfl
    | exact fun _ => ⟨rfl, rfl, rfl⟩
    | with_reducible apply State.err1_keeps kErr kWr
    | with_reducible apply State.cutAbsent_keeps kErr kQue kHdg kPut kCop kMap kTop kMcs kChan kEcc kJnp kBox kHly kSys kWr
    | dsimp only
    | split
    | intro _

theorem State.losePower_keeps {P : State → Prop} (kErr : KErr P) (kQue : KQue P) (kHdg : KHdg P) (kPut : KPut P) (kCop : KCop P) (kMap : KMap P) (kTop : KTop P) (kMcs : KMcs P) (kChan : KChan P) (kEcc : KEcc P) (kJnp : KJnp P) (kBox : KBox P) (kHly : KHly P) (kSys : KSys P) (kWr : KWr P) (s : State) (n : Nat) (hP : P s) :
 P (State.losePower s n) := by
  unfold State.losePower
  repeat' first
    | with_reducible assumption
    | exact rfl
    | exact fun _ => ⟨rfl, rfl, rfl⟩
    | with_reducible apply State.setb_keeps kWr
    | with_reducible apply State.wrBit_keeps kWr
    | with_reducible apply kWr
    | with_reducible apply State.goAbsent_keeps kErr kQue kHdg kPut kCop kMap kTop kMcs kChan kEcc kJnp kBox kHly kSys kWr
    | with_reducible apply State.bump_keeps kWr
    | dsimp only
    | split
    | intro _

theorem State.domCut_keeps {P : State → Prop} (kErr : KErr P) (kQue : KQue P) (kHdg : KHdg P) (kPut : KPut P) (kCop : KCop P) (kMap : KMap P) (kTop : KTop P) (kMcs : KMcs P) (kChan : KChan P) (kEcc : KEcc P) (kJnp : KJnp P) (kBox : KBox P) (kHly : KHly P) (kSys : KSys P) (kWr : KWr P) (s : State) (k : Nat) (hP : P s) :
 P (State.domCut s k) := by
  unfold State.domCut
  repeat' first
    | with_reducible assumption
    | exact rfl
    | exact fun _ => ⟨rfl, rfl, rfl⟩
    | with_reducible apply State.discTold_keeps kQue kHly kSys kWr
    | with_reducible apply State.wrBit_keeps kWr
    | with_reducible apply kWr
    | with_reducible apply State.goAbsent_keeps kErr kQue kHdg kPut kCop kMap kTop kMcs kChan kEcc kJnp kBox kHly kSys kWr
    | with_reducible apply foldl_keeps
    | with_reducible apply foldl2_keeps
    | with_reducible apply foldl3_keeps
    | dsimp only
    | split
    | intro _

theorem State.domStep_keeps {P : State → Prop} (kErr : KErr P) (kQue : KQue P) (kHdg : KHdg P) (kPut : KPut P) (kCop : KCop P) (kMap : KMap P) (kTop : KTop P) (kMcs : KMcs P) (kChan : KChan P) (kEcc : KEcc P) (kJnp : KJnp P) (kBox : KBox P) (kHly : KHly P) (kPwr : KPwr P) (kSys : KSys P) (kWr : KWr P) (s : State) (hP : P s) :
 P (State.domStep s) := by
  unfold State.domStep
  repeat' first
    | with_reducible assumption
    | exact rfl
    | exact fun _ => ⟨rfl, rfl, rfl⟩
    | with_reducible apply kPwr
    | with_reducible apply each_keeps
    | with_reducible apply State.domCut_keeps kErr kQue kHdg kPut kCop kMap kTop kMcs kChan kEcc kJnp kBox kHly kSys kWr
    | dsimp only
    | split
    | intro _

end Sys2Proof.Machine
end

