-- ==== Sys2Proof/Laws/KeepsTopiary.lean ====
section
/-!
SUPPORT. What the operations of Machine/Topiary.lean can do: each one keeps every property of a state that its own primitive
updates keep. The hypotheses of a lemma name every unit the operation can reach.
-/
namespace Sys2Proof.Machine

theorem State.mergeReads_keeps {P : State → Prop} (kTop : KTop P) (kChan : KChan P) (kBox : KBox P) (kWr : KWr P) (s : State) (o : Op) (hP : P s) :
 P (State.mergeReads s o) := by
  unfold State.mergeReads
  repeat' first
    | with_reducible assumption
    | exact rfl
    | exact fun _ => ⟨rfl, rfl, rfl⟩
    | with_reducible apply each_keeps
    | with_reducible apply State.delOp_keeps kTop kChan kBox kWr
    | with_reducible apply State.onOp_keeps kTop
    | dsimp only
    | split
    | intro _

theorem State.openBlocks_keeps {P : State → Prop} (kYew : KYew P) (kWr : KWr P) (s : State) (lun : Nat) (hP : P s) :
 P (State.openBlocks s lun) := by
  unfold State.openBlocks
  repeat' first
    | with_reducible assumption
    | exact rfl
    | exact fun _ => ⟨rfl, rfl, rfl⟩
    | with_reducible apply each_keeps
    | with_reducible apply State.jPut_keeps kYew kWr
    | dsimp only
    | split
    | intro _

theorem State.ask_keeps {P : State → Prop} (kTop : KTop P) (kBox : KBox P) (s : State) (o : Op) (hP : P s) :
 P (State.ask s o) := by
  unfold State.ask
  repeat' first
    | with_reducible assumption
    | exact rfl
    | exact fun _ => ⟨rfl, rfl, rfl⟩
    | with_reducible apply kBox
    | with_reducible apply State.onOp_keeps kTop
    | dsimp only
    | split
    | intro _

theorem State.reask_keeps {P : State → Prop} (kTop : KTop P) (kBox : KBox P) (s : State) (o : Op) (hP : P s) :
 P (State.reask s o) := by
  unfold State.reask
  repeat' first
    | with_reducible assumption
    | exact rfl
    | exact fun _ => ⟨rfl, rfl, rfl⟩
    | with_reducible apply State.onOp_keeps kTop
    | with_reducible apply kBox
    | with_reducible apply State.ask_keeps kTop kBox
    | dsimp only
    | split
    | intro _

theorem State.askReleased_keeps {P : State → Prop} (kTop : KTop P) (kBox : KBox P) (s : State) (hP : P s) :
 P (State.askReleased s) := by
  unfold State.askReleased
  repeat' first
    | with_reducible assumption
    | exact rfl
    | exact fun _ => ⟨rfl, rfl, rfl⟩
    | with_reducible apply State.reask_keeps kTop kBox
    | with_reducible apply each_keeps
    | dsimp only
    | split
    | intro _

theorem State.startOp_keeps {P : State → Prop} (kTop : KTop P) (kChan : KChan P) (kBox : KBox P) (kYew : KYew P) (kWr : KWr P) (s : State) (lun : Nat) (hP : P s) :
 P (State.startOp s lun) := by
  unfold State.startOp
  repeat' first
    | with_reducible assumption
    | exact rfl
    | exact fun _ => ⟨rfl, rfl, rfl⟩
    | with_reducible apply State.openBlocks_keeps kYew kWr
    | with_reducible apply State.mergeReads_keeps kTop kChan kBox kWr
    | with_reducible apply State.ask_keeps kTop kBox
    | dsimp only
    | split
    | intro _

theorem State.absentOps_keeps {P : State → Prop} (kErr : KErr P) (kQue : KQue P) (kHdg : KHdg P) (kPut : KPut P) (kCop : KCop P) (kMap : KMap P) (kTop : KTop P) (kMcs : KMcs P) (kChan : KChan P) (kEcc : KEcc P) (kJnp : KJnp P) (kBox : KBox P) (kYew : KYew P) (kHly : KHly P) (kSys : KSys P) (kWr : KWr P) (kDrawn : KDrawn P) (kDeliv : KDeliv P) (s : State) (lun : Nat) (hP : P s) :
 P (State.absentOps s lun) := by
  unfold State.absentOps
  repeat' first
    | with_reducible assumption
    | exact rfl
    | exact fun _ => ⟨rfl, rfl, rfl⟩
    | with_reducible apply State.settle_keeps kErr kQue kHdg kPut kCop kMap kTop kMcs kChan kEcc kJnp kBox kYew kHly kSys kWr kDrawn kDeliv
    | with_reducible apply each_keeps
    | with_reducible apply State.failOp_keeps kErr kQue kHdg kPut kCop kMap kTop kChan kEcc kBox kSys kWr
    | dsimp only
    | split
    | intro _

theorem State.grantOp_keeps {P : State → Prop} (kTop : KTop P) (kBox : KBox P) (kWr : KWr P) (s : State) (o : Op) (v q : Nat) (hP : P s) :
 P (State.grantOp s o v q) := by
  unfold State.grantOp
  repeat' first
    | with_reducible assumption
    | exact rfl
    | exact fun _ => ⟨rfl, rfl, rfl⟩
    | with_reducible apply kTop
    | with_reducible apply State.takeTokens_keeps kBox kWr
    | with_reducible apply State.onOp_keeps kTop
    | with_reducible apply when_keeps
    | dsimp only
    | split
    | intro _

theorem State.refuseOp_keeps {P : State → Prop} (kTop : KTop P) (kWr : KWr P) (s : State) (o : Op) (v q : Nat) (hP : P s) :
 P (State.refuseOp s o v q) := by
  unfold State.refuseOp
  repeat' first
    | with_reducible assumption
    | exact rfl
    | exact fun _ => ⟨rfl, rfl, rfl⟩
    | with_reducible apply State.onOp_keeps kTop
    | with_reducible apply State.setb_keeps kWr
    | with_reducible apply when_keeps
    | dsimp only
    | split
    | intro _

theorem State.judge_keeps {P : State → Prop} (kErr : KErr P) (kQue : KQue P) (kHdg : KHdg P) (kPut : KPut P) (kCop : KCop P) (kMap : KMap P) (kTop : KTop P) (kMcs : KMcs P) (kChan : KChan P) (kEcc : KEcc P) (kJnp : KJnp P) (kBox : KBox P) (kYew : KYew P) (kHly : KHly P) (kSys : KSys P) (kWr : KWr P) (kDrawn : KDrawn P) (kDeliv : KDeliv P) (s : State) (o : Op) (hP : P s) :
 P (State.judge s o) := by
  unfold State.judge
  repeat' first
    | with_reducible assumption
    | exact rfl
    | exact fun _ => ⟨rfl, rfl, rfl⟩
    | with_reducible apply State.refuseOp_keeps kTop kWr
    | with_reducible apply State.failOp_keeps kErr kQue kHdg kPut kCop kMap kTop kChan kEcc kBox kSys kWr
    | with_reducible apply State.err1_keeps kErr kWr
    | with_reducible apply State.onOp_keeps kTop
    | with_reducible apply State.settle_keeps kErr kQue kHdg kPut kCop kMap kTop kMcs kChan kEcc kJnp kBox kYew kHly kSys kWr kDrawn kDeliv
    | with_reducible apply State.queueLun_keeps kErr kTop kMcs kChan kEcc kBox kWr
    | with_reducible apply State.grantOp_keeps kTop kBox kWr
    | dsimp only
    | split
    | intro _

theorem State.countBurst_keeps {P : State → Prop} (kTop : KTop P) (s : State) (o : Op) (hP : P s) :
 P (State.countBurst s o) := by
  unfold State.countBurst
  repeat' first
    | with_reducible assumption
    | exact rfl
    | exact fun _ => ⟨rfl, rfl, rfl⟩
    | with_reducible apply kTop
    | dsimp only
    | split
    | intro _

theorem State.answer_keeps {P : State → Prop} (kErr : KErr P) (kQue : KQue P) (kHdg : KHdg P) (kPut : KPut P) (kCop : KCop P) (kMap : KMap P) (kTop : KTop P) (kMcs : KMcs P) (kChan : KChan P) (kEcc : KEcc P) (kJnp : KJnp P) (kBox : KBox P) (kYew : KYew P) (kHly : KHly P) (kSys : KSys P) (kWr : KWr P) (kDrawn : KDrawn P) (kDeliv : KDeliv P) (s : State) (o : Op) (hP : P s) :
 P (State.answer s o) := by
  unfold State.answer
  repeat' first
    | with_reducible assumption
    | exact rfl
    | exact fun _ => ⟨rfl, rfl, rfl⟩
    | with_reducible apply State.countBurst_keeps kTop
    | with_reducible apply kTop
    | with_reducible apply State.queueLeg_keeps kErr kTop kMcs kChan kEcc kBox kWr
    | with_reducible apply State.queueLun_keeps kErr kTop kMcs kChan kEcc kBox kWr
    | with_reducible apply State.onOp_keeps kTop
    | with_reducible apply State.failOp_keeps kErr kQue kHdg kPut kCop kMap kTop kChan kEcc kBox kSys kWr
    | with_reducible apply State.addSeg_keeps kErr kTop kMcs kChan kEcc kBox kWr
    | with_reducible apply State.settle_keeps kErr kQue kHdg kPut kCop kMap kTop kMcs kChan kEcc kJnp kBox kYew kHly kSys kWr kDrawn kDeliv
    | dsimp only
    | split
    | intro _

theorem State.pollLun_keeps {P : State → Prop} (kErr : KErr P) (kTop : KTop P) (kMcs : KMcs P) (kChan : KChan P) (kEcc : KEcc P) (kBox : KBox P) (kWr : KWr P) (s : State) (lun : Nat) (hP : P s) :
 P (State.pollLun s lun) := by
  unfold State.pollLun
  repeat' first
    | with_reducible assumption
    | exact rfl
    | exact fun _ => ⟨rfl, rfl, rfl⟩
    | with_reducible apply State.addSeg_keeps kErr kTop kMcs kChan kEcc kBox kWr
    | dsimp only
    | split
    | intro _

theorem State.age_keeps {P : State → Prop} (kTop : KTop P) (s : State) (op cls : Nat) (hP : P s) :
 P (State.age s op cls) := by
  unfold State.age
  repeat' first
    | with_reducible assumption
    | exact rfl
    | exact fun _ => ⟨rfl, rfl, rfl⟩
    | with_reducible apply State.onOp_keeps kTop
    | dsimp only
    | split
    | intro _

theorem State.ageSeg_keeps {P : State → Prop} (kTop : KTop P) (kMcs : KMcs P) (s : State) (ch op : Nat) (hP : P s) :
 P (State.ageSeg s ch op) := by
  unfold State.ageSeg
  repeat' first
    | with_reducible assumption
    | exact rfl
    | exact fun _ => ⟨rfl, rfl, rfl⟩
    | with_reducible apply kTop
    | with_reducible apply State.raiseEv_keeps kMcs
    | with_reducible apply when_keeps
    | dsimp only
    | split
    | intro _

theorem State.reserve_keeps {P : State → Prop} (kTop : KTop P) (s : State) (o : Op) (hP : P s) :
 P (State.reserve s o) := by
  unfold State.reserve
  repeat' first
    | with_reducible assumption
    | exact rfl
    | exact fun _ => ⟨rfl, rfl, rfl⟩
    | with_reducible apply kTop
    | with_reducible apply foldl_keeps
    | with_reducible apply foldl2_keeps
    | with_reducible apply foldl3_keeps
    | dsimp only
    | split
    | intro _

theorem State.suspend_keeps {P : State → Prop} (kErr : KErr P) (kTop : KTop P) (kMcs : KMcs P) (kChan : KChan P) (kEcc : KEcc P) (kBox : KBox P) (kWr : KWr P) (s : State) (x : Op) (hP : P s) :
 P (State.suspend s x) := by
  unfold State.suspend
  repeat' first
    | with_reducible assumption
    | exact rfl
    | exact fun _ => ⟨rfl, rfl, rfl⟩
    | with_reducible apply State.addSeg_keeps kErr kTop kMcs kChan kEcc kBox kWr
    | with_reducible apply State.bump_keeps kWr
    | dsimp only
    | split
    | intro _

theorem State.askResume_keeps {P : State → Prop} (kTop : KTop P) (kBox : KBox P) (s : State) (x : Op) (hP : P s) :
 P (State.askResume s x) := by
  unfold State.askResume
  repeat' first
    | with_reducible assumption
    | exact rfl
    | exact fun _ => ⟨rfl, rfl, rfl⟩
    | with_reducible apply kBox
    | with_reducible apply State.onOp_keeps kTop
    | dsimp only
    | split
    | intro _

theorem State.dropSegs_keeps {P : State → Prop} (kTop : KTop P) (s : State) (op : Nat) (f : Seg → Bool) (hP : P s) :
 P (State.dropSegs s op f) := by
  unfold State.dropSegs
  repeat' first
    | with_reducible assumption
    | exact rfl
    | exact fun _ => ⟨rfl, rfl, rfl⟩
    | with_reducible apply kTop
    | dsimp only
    | split
    | intro _

theorem State.watchdog_keeps {P : State → Prop} (kErr : KErr P) (kQue : KQue P) (kHdg : KHdg P) (kPut : KPut P) (kCop : KCop P) (kMap : KMap P) (kTop : KTop P) (kMcs : KMcs P) (kChan : KChan P) (kEcc : KEcc P) (kJnp : KJnp P) (kBox : KBox P) (kYew : KYew P) (kHly : KHly P) (kSys : KSys P) (kWr : KWr P) (kDrawn : KDrawn P) (kDeliv : KDeliv P) (s : State) (o : Op) (hP : P s) :
 P (State.watchdog s o) := by
  unfold State.watchdog
  repeat' first
    | with_reducible assumption
    | exact rfl
    | exact fun _ => ⟨rfl, rfl, rfl⟩
    | with_reducible apply State.failFrames_keeps kErr kQue kHdg kPut kCop kMap kTop kEcc kSys kWr
    | with_reducible apply kTop
    | with_reducible apply each_keeps
    | with_reducible apply State.onOp_keeps kTop
    | with_reducible apply State.dropSegs_keeps kTop
    | with_reducible apply State.failOp_keeps kErr kQue kHdg kPut kCop kMap kTop kChan kEcc kBox kSys kWr
    | with_reducible apply State.err1_keeps kErr kWr
    | with_reducible apply State.addSeg_keeps kErr kTop kMcs kChan kEcc kBox kWr
    | with_reducible apply State.settle_keeps kErr kQue kHdg kPut kCop kMap kTop kMcs kChan kEcc kJnp kBox kYew kHly kSys kWr kDrawn kDeliv
    | with_reducible apply State.bump_keeps kWr
    | dsimp only
    | split
    | intro _

theorem State.pfEnergy_keeps {P : State → Prop} (kQue : KQue P) (kBox : KBox P) (kWr : KWr P) (s : State) (f : PFrame) (n : Nat) (hP : P s) :
 P (State.pfEnergy s f n) := by
  unfold State.pfEnergy
  repeat' first
    | with_reducible assumption
    | exact rfl
    | exact fun _ => ⟨rfl, rfl, rfl⟩
    | with_reducible apply State.energy_keeps kQue kBox kWr
    | dsimp only
    | split
    | intro _

theorem State.pagePj_keeps {P : State → Prop} (kQue : KQue P) (kBox : KBox P) (kWr : KWr P) (s : State) (l : List PFrame) (n : Nat) (hP : P s) :
 P (State.pagePj s l n) := by
  unfold State.pagePj
  repeat' first
    | with_reducible assumption
    | exact rfl
    | exact fun _ => ⟨rfl, rfl, rfl⟩
    | with_reducible apply State.pfEnergy_keeps kQue kBox kWr
    | with_reducible apply State.energy_keeps kQue kBox kWr
    | with_reducible apply each_keeps
    | dsimp only
    | split
    | intro _

theorem State.issue_keeps {P : State → Prop} (kQue : KQue P) (s : State) (tags : List Nat) (hP : P s) :
 P (State.issue s tags) := by
  unfold State.issue
  repeat' first
    | with_reducible assumption
    | exact rfl
    | exact fun _ => ⟨rfl, rfl, rfl⟩
    | with_reducible apply each_keeps
    | with_reducible apply State.onCmd_keeps kQue
    | dsimp only
    | split
    | intro _

theorem State.begun_keeps {P : State → Prop} (kQue : KQue P) (s : State) (tags : List Nat) (hP : P s) :
 P (State.begun s tags) := by
  unfold State.begun
  repeat' first
    | with_reducible assumption
    | exact rfl
    | exact fun _ => ⟨rfl, rfl, rfl⟩
    | with_reducible apply each_keeps
    | with_reducible apply State.onCmd_keeps kQue
    | dsimp only
    | split
    | intro _

theorem State.progBegun_keeps {P : State → Prop} (kErr : KErr P) (kQue : KQue P) (kHdg : KHdg P) (kPut : KPut P) (kTop : KTop P) (kJnp : KJnp P) (kWr : KWr P) (kDrawn : KDrawn P) (s : State) (o : Op) (hP : P s) :
 P (State.progBegun s o) := by
  unfold State.progBegun
  repeat' first
    | with_reducible assumption
    | exact rfl
    | exact fun _ => ⟨rfl, rfl, rfl⟩
    | with_reducible apply kTop
    | with_reducible apply State.begun_keeps kQue
    | with_reducible apply State.onOp_keeps kTop
    | with_reducible apply State.firstProgram_keeps kErr kHdg kPut kJnp kWr kDrawn
    | dsimp only
    | split
    | intro _

theorem State.levelsSent_keeps {P : State → Prop} (kJnp : KJnp P) (kWr : KWr P) (s : State) (o : Op) (l : Leg) (hP : P s) :
 P (State.levelsSent s o l) := by
  unfold State.levelsSent
  repeat' first
    | with_reducible assumption
    | exact rfl
    | exact fun _ => ⟨rfl, rfl, rfl⟩
    | with_reducible apply State.bump_keeps kWr
    | with_reducible apply when_keeps
    | with_reducible apply State.noteLevels_keeps kJnp
    | dsimp only
    | split
    | intro _

theorem State.readSent_keeps {P : State → Prop} (kQue : KQue P) (kEcc : KEcc P) (kBox : KBox P) (kWr : KWr P) (s : State) (o : Op) (hP : P s) :
 P (State.readSent s o) := by
  unfold State.readSent
  repeat' first
    | with_reducible assumption
    | exact rfl
    | exact fun _ => ⟨rfl, rfl, rfl⟩
    | with_reducible apply each_keeps
    | with_reducible apply State.chargeOp_keeps kQue kBox kWr
    | with_reducible apply State.issue_keeps kQue
    | with_reducible apply State.onFlight_keeps kEcc
    | dsimp only
    | split
    | intro _

theorem State.commandDone_keeps {P : State → Prop} (kErr : KErr P) (kQue : KQue P) (kHdg : KHdg P) (kPut : KPut P) (kCop : KCop P) (kMap : KMap P) (kTop : KTop P) (kMcs : KMcs P) (kChan : KChan P) (kEcc : KEcc P) (kJnp : KJnp P) (kBox : KBox P) (kSys : KSys P) (kWr : KWr P) (kDrawn : KDrawn P) (s : State) (o : Op) (l : Leg) (hP : P s) :
 P (State.commandDone s o l) := by
  unfold State.commandDone
  repeat' first
    | with_reducible assumption
    | exact rfl
    | exact fun _ => ⟨rfl, rfl, rfl⟩
    | with_reducible apply State.energy_keeps kQue kBox kWr
    | with_reducible apply State.readSent_keeps kQue kEcc kBox kWr
    | with_reducible apply State.begun_keeps kQue
    | with_reducible apply State.levelsSent_keeps kJnp kWr
    | with_reducible apply State.advance_keeps kErr kQue kHdg kPut kCop kMap kTop kMcs kChan kEcc kJnp kBox kSys kWr kDrawn
    | dsimp only
    | split
    | intro _

theorem State.dataInDone_keeps {P : State → Prop} (kErr : KErr P) (kQue : KQue P) (kHdg : KHdg P) (kPut : KPut P) (kCop : KCop P) (kMap : KMap P) (kTop : KTop P) (kMcs : KMcs P) (kChan : KChan P) (kEcc : KEcc P) (kJnp : KJnp P) (kBox : KBox P) (kSys : KSys P) (kWr : KWr P) (kDrawn : KDrawn P) (s : State) (o : Op) (l : Leg) (hP : P s) :
 P (State.dataInDone s o l) := by
  unfold State.dataInDone
  repeat' first
    | with_reducible assumption
    | exact rfl
    | exact fun _ => ⟨rfl, rfl, rfl⟩
    | with_reducible apply State.pagePj_keeps kQue kBox kWr
    | with_reducible apply State.queueLeg_keeps kErr kTop kMcs kChan kEcc kBox kWr
    | with_reducible apply State.restartProg_keeps kTop kChan
    | with_reducible apply State.onOp_keeps kTop
    | with_reducible apply when_keeps
    | with_reducible apply kChan
    | with_reducible apply State.progBegun_keeps kErr kQue kHdg kPut kTop kJnp kWr kDrawn
    | with_reducible apply State.advance_keeps kErr kQue kHdg kPut kCop kMap kTop kMcs kChan kEcc kJnp kBox kSys kWr kDrawn
    | dsimp only
    | split
    | intro _

theorem State.dataOutDone_keeps {P : State → Prop} (kErr : KErr P) (kQue : KQue P) (kHdg : KHdg P) (kPut : KPut P) (kCop : KCop P) (kMap : KMap P) (kTop : KTop P) (kMcs : KMcs P) (kChan : KChan P) (kEcc : KEcc P) (kJnp : KJnp P) (kBox : KBox P) (kSys : KSys P) (kWr : KWr P) (kDrawn : KDrawn P) (s : State) (o : Op) (l : Leg) (d : List Byte) (hP : P s) :
 P (State.dataOutDone s o l d) := by
  unfold State.dataOutDone
  repeat' first
    | with_reducible assumption
    | exact rfl
    | exact fun _ => ⟨rfl, rfl, rfl⟩
    | with_reducible apply State.chargeOp_keeps kQue kBox kWr
    | with_reducible apply State.onOp_keeps kTop
    | with_reducible apply State.received_keeps kEcc
    | with_reducible apply State.queueLeg_keeps kErr kTop kMcs kChan kEcc kBox kWr
    | with_reducible apply State.advance_keeps kErr kQue kHdg kPut kCop kMap kTop kMcs kChan kEcc kJnp kBox kSys kWr kDrawn
    | dsimp only
    | split
    | intro _

theorem State.legEnd_keeps {P : State → Prop} (kErr : KErr P) (kQue : KQue P) (kHdg : KHdg P) (kPut : KPut P) (kCop : KCop P) (kMap : KMap P) (kTop : KTop P) (kMcs : KMcs P) (kChan : KChan P) (kEcc : KEcc P) (kJnp : KJnp P) (kBox : KBox P) (kSys : KSys P) (kWr : KWr P) (kDrawn : KDrawn P) (s : State) (o : Op) (l : Leg) (code : Nat) (d : List Byte) (hP : P s) :
 P (State.legEnd s o l code d) := by
  unfold State.legEnd
  repeat' first
    | with_reducible assumption
    | exact rfl
    | exact fun _ => ⟨rfl, rfl, rfl⟩
    | with_reducible apply State.delOp_keeps kTop kChan kBox kWr
    | with_reducible apply State.queueLeg_keeps kErr kTop kMcs kChan kEcc kBox kWr
    | with_reducible apply State.commandDone_keeps kErr kQue kHdg kPut kCop kMap kTop kMcs kChan kEcc kJnp kBox kSys kWr kDrawn
    | with_reducible apply State.dataOutDone_keeps kErr kQue kHdg kPut kCop kMap kTop kMcs kChan kEcc kJnp kBox kSys kWr kDrawn
    | with_reducible apply State.opTokens_keeps kTop kBox kWr
    | with_reducible apply State.dataInDone_keeps kErr kQue kHdg kPut kCop kMap kTop kMcs kChan kEcc kJnp kBox kSys kWr kDrawn
    | dsimp only
    | split
    | intro _

theorem State.legCut_keeps {P : State → Prop} (kErr : KErr P) (kQue : KQue P) (kHdg : KHdg P) (kPut : KPut P) (kCop : KCop P) (kMap : KMap P) (kTop : KTop P) (kMcs : KMcs P) (kChan : KChan P) (kEcc : KEcc P) (kBox : KBox P) (kSys : KSys P) (kWr : KWr P) (s : State) (ch : Nat) (o : Op) (hP : P s) :
 P (State.legCut s ch o) := by
  unfold State.legCut
  repeat' first
    | with_reducible assumption
    | exact rfl
    | exact fun _ => ⟨rfl, rfl, rfl⟩
    | with_reducible apply State.queueLeg_keeps kErr kTop kMcs kChan kEcc kBox kWr
    | with_reducible apply each_keeps
    | with_reducible apply State.onOp_keeps kTop
    | with_reducible apply when_keeps
    | with_reducible apply State.onFlight_keeps kEcc
    | with_reducible apply State.failOp_keeps kErr kQue kHdg kPut kCop kMap kTop kChan kEcc kBox kSys kWr
    | dsimp only
    | split
    | intro _

theorem State.unblock_keeps {P : State → Prop} (kTop : KTop P) (kChan : KChan P) (kJnp : KJnp P) (kBox : KBox P) (kWr : KWr P) (s : State) (lun : Nat) (hP : P s) :
 P (State.unblock s lun) := by
  unfold State.unblock
  repeat' first
    | with_reducible assumption
    | exact rfl
    | exact fun _ => ⟨rfl, rfl, rfl⟩
    | with_reducible apply each_keeps
    | with_reducible apply State.setResident_keeps kJnp
    | with_reducible apply State.delOp_keeps kTop kChan kBox kWr
    | with_reducible apply State.opTokens_keeps kTop kBox kWr
    | with_reducible apply kTop
    | dsimp only
    | split
    | intro _

theorem State.nowSuspended_keeps {P : State → Prop} (kTop : KTop P) (kBox : KBox P) (kWr : KWr P) (s : State) (o : Op) (hP : P s) :
 P (State.nowSuspended s o) := by
  unfold State.nowSuspended
  repeat' first
    | with_reducible assumption
    | exact rfl
    | exact fun _ => ⟨rfl, rfl, rfl⟩
    | with_reducible apply State.opTokens_keeps kTop kBox kWr
    | with_reducible apply State.onOp_keeps kTop
    | dsimp only
    | split
    | intro _

theorem State.arrayDone_keeps {P : State → Prop} (kErr : KErr P) (kQue : KQue P) (kHdg : KHdg P) (kPut : KPut P) (kCop : KCop P) (kMap : KMap P) (kTop : KTop P) (kMcs : KMcs P) (kChan : KChan P) (kEcc : KEcc P) (kJnp : KJnp P) (kBox : KBox P) (kPwr : KPwr P) (kSys : KSys P) (kWr : KWr P) (kDrawn : KDrawn P) (s : State) (o : Op) (ok : Bool) (hP : P s) :
 P (State.arrayDone s o ok) := by
  unfold State.arrayDone
  repeat' first
    | with_reducible assumption
    | exact rfl
    | exact fun _ => ⟨rfl, rfl, rfl⟩
    | with_reducible apply State.dropSegs_keeps kTop
    | with_reducible apply State.opTokens_keeps kTop kBox kWr
    | with_reducible apply State.arrayEnd_keeps kErr kQue kHdg kPut kCop kMap kTop kChan kEcc kJnp kBox kPwr kSys kWr kDrawn
    | with_reducible apply State.onOp_keeps kTop
    | with_reducible apply when_keeps
    | with_reducible apply State.advance_keeps kErr kQue kHdg kPut kCop kMap kTop kMcs kChan kEcc kJnp kBox kSys kWr kDrawn
    | dsimp only
    | split
    | intro _

theorem State.pollEnd_keeps {P : State → Prop} (kErr : KErr P) (kQue : KQue P) (kHdg : KHdg P) (kPut : KPut P) (kCop : KCop P) (kMap : KMap P) (kTop : KTop P) (kMcs : KMcs P) (kChan : KChan P) (kEcc : KEcc P) (kJnp : KJnp P) (kBox : KBox P) (kPwr : KPwr P) (kSys : KSys P) (kWr : KWr P) (kDrawn : KDrawn P) (s : State) (lun code : Nat) (hP : P s) :
 P (State.pollEnd s lun code) := by
  unfold State.pollEnd
  repeat' first
    | with_reducible assumption
    | exact rfl
    | exact fun _ => ⟨rfl, rfl, rfl⟩
    | with_reducible apply kTop
    | with_reducible apply State.arrayDone_keeps kErr kQue kHdg kPut kCop kMap kTop kMcs kChan kEcc kJnp kBox kPwr kSys kWr kDrawn
    | with_reducible apply State.onOp_keeps kTop
    | with_reducible apply State.nowSuspended_keeps kTop kBox kWr
    | with_reducible apply State.unblock_keeps kTop kChan kJnp kBox kWr
    | dsimp only
    | split
    | intro _

theorem State.segFault_keeps {P : State → Prop} (kErr : KErr P) (kQue : KQue P) (kHdg : KHdg P) (kPut : KPut P) (kCop : KCop P) (kMap : KMap P) (kTop : KTop P) (kChan : KChan P) (kEcc : KEcc P) (kBox : KBox P) (kSys : KSys P) (kWr : KWr P) (s : State) (ch : Nat) (g : Option Seg) (code : Nat) (hP : P s) :
 P (State.segFault s ch g code) := by
  unfold State.segFault
  repeat' first
    | with_reducible assumption
    | exact rfl
    | exact fun _ => ⟨rfl, rfl, rfl⟩
    | with_reducible apply State.failFrames_keeps kErr kQue kHdg kPut kCop kMap kTop kEcc kSys kWr
    | with_reducible apply kTop
    | with_reducible apply State.onOp_keeps kTop
    | with_reducible apply State.jobCut_keeps kChan
    | with_reducible apply State.failOp_keeps kErr kQue kHdg kPut kCop kMap kTop kChan kEcc kBox kSys kWr
    | with_reducible apply State.err1_keeps kErr kWr
    | dsimp only
    | split
    | intro _

theorem State.segCut_keeps {P : State → Prop} (kErr : KErr P) (kQue : KQue P) (kHdg : KHdg P) (kPut : KPut P) (kCop : KCop P) (kMap : KMap P) (kTop : KTop P) (kMcs : KMcs P) (kChan : KChan P) (kEcc : KEcc P) (kBox : KBox P) (kSys : KSys P) (kWr : KWr P) (s : State) (ch : Nat) (g : Seg) (hP : P s) :
 P (State.segCut s ch g) := by
  unfold State.segCut
  repeat' first
    | with_reducible assumption
    | exact rfl
    | exact fun _ => ⟨rfl, rfl, rfl⟩
    | with_reducible apply State.legCut_keeps kErr kQue kHdg kPut kCop kMap kTop kMcs kChan kEcc kBox kSys kWr
    | with_reducible apply State.failOp_keeps kErr kQue kHdg kPut kCop kMap kTop kChan kEcc kBox kSys kWr
    | with_reducible apply State.failFrames_keeps kErr kQue kHdg kPut kCop kMap kTop kEcc kSys kWr
    | with_reducible apply State.addSeg_keeps kErr kTop kMcs kChan kEcc kBox kWr
    | with_reducible apply State.onOp_keeps kTop
    | with_reducible apply State.jobCut_keeps kChan
    | dsimp only
    | split
    | intro _

theorem State.noDie_keeps {P : State → Prop} (kErr : KErr P) (kQue : KQue P) (kHdg : KHdg P) (kPut : KPut P) (kCop : KCop P) (kMap : KMap P) (kTop : KTop P) (kChan : KChan P) (kEcc : KEcc P) (kBox : KBox P) (kSys : KSys P) (kWr : KWr P) (s : State) (g : Seg) (hP : P s) :
 P (State.noDie s g) := by
  unfold State.noDie
  repeat' first
    | with_reducible assumption
    | exact rfl
    | exact fun _ => ⟨rfl, rfl, rfl⟩
    | with_reducible apply State.failOp_keeps kErr kQue kHdg kPut kCop kMap kTop kChan kEcc kBox kSys kWr
    | with_reducible apply kTop
    | dsimp only
    | split
    | intro _

theorem State.segDone_keeps {P : State → Prop} (kErr : KErr P) (kQue : KQue P) (kHdg : KHdg P) (kPut : KPut P) (kCop : KCop P) (kMap : KMap P) (kTop : KTop P) (kMcs : KMcs P) (kChan : KChan P) (kEcc : KEcc P) (kJnp : KJnp P) (kBox : KBox P) (kPwr : KPwr P) (kSys : KSys P) (kWr : KWr P) (kDrawn : KDrawn P) (s : State) (ch : Nat) (g : Seg) (code : Nat) (d : List Byte) (cut : Bool) (hP : P s) :
 P (State.segDone s ch g code d cut) := by
  unfold State.segDone
  repeat' first
    | with_reducible assumption
    | exact rfl
    | exact fun _ => ⟨rfl, rfl, rfl⟩
    | with_reducible apply State.segCut_keeps kErr kQue kHdg kPut kCop kMap kTop kMcs kChan kEcc kBox kSys kWr
    | with_reducible apply kTop
    | with_reducible apply State.onOp_keeps kTop
    | with_reducible apply State.jobEnd_keeps kChan
    | with_reducible apply State.legEnd_keeps kErr kQue kHdg kPut kCop kMap kTop kMcs kChan kEcc kJnp kBox kSys kWr kDrawn
    | with_reducible apply State.bump_keeps kWr
    | with_reducible apply State.noDie_keeps kErr kQue kHdg kPut kCop kMap kTop kChan kEcc kBox kSys kWr
    | with_reducible apply State.pollEnd_keeps kErr kQue kHdg kPut kCop kMap kTop kMcs kChan kEcc kJnp kBox kPwr kSys kWr kDrawn
    | dsimp only
    | split
    | intro _

theorem State.actStep_keeps {P : State → Prop} (kMcs : KMcs P) (kHly : KHly P) (kWr : KWr P) (s : State) (hP : P s) :
 P (State.actStep s) := by
  unfold State.actStep
  repeat' first
    | with_reducible assumption
    | exact rfl
    | exact fun _ => ⟨rfl, rfl, rfl⟩
    | with_reducible apply kHly
    | with_reducible apply kMcs
    | with_reducible apply State.setb_keeps kWr
    | dsimp only
    | split
    | intro _

theorem State.busFree_keeps {P : State → Prop} (kErr : KErr P) (kQue : KQue P) (kHdg : KHdg P) (kPut : KPut P) (kCop : KCop P) (kMap : KMap P) (kTop : KTop P) (kMcs : KMcs P) (kChan : KChan P) (kEcc : KEcc P) (kJnp : KJnp P) (kBox : KBox P) (kYew : KYew P) (kHly : KHly P) (kPwr : KPwr P) (kSys : KSys P) (kWr : KWr P) (kDrawn : KDrawn P) (kDeliv : KDeliv P) (s : State) (ch : Nat) (lun : Option Nat) (hP : P s) :
 P (State.busFree s ch lun) := by
  unfold State.busFree
  repeat' first
    | with_reducible assumption
    | exact rfl
    | exact fun _ => ⟨rfl, rfl, rfl⟩
    | with_reducible apply State.settle_keeps kErr kQue kHdg kPut kCop kMap kTop kMcs kChan kEcc kJnp kBox kYew kHly kSys kWr kDrawn kDeliv
    | with_reducible apply State.kick_keeps kErr kTop kMcs kChan kEcc kBox kWr
    | with_reducible apply State.actStep_keeps kMcs kHly kWr
    | with_reducible apply State.queueLun_keeps kErr kTop kMcs kChan kEcc kBox kWr
    | with_reducible apply State.dropHeld_keeps kErr kChan kWr
    | with_reducible apply State.domStep_keeps kErr kQue kHdg kPut kCop kMap kTop kMcs kChan kEcc kJnp kBox kHly kPwr kSys kWr
    | dsimp only
    | split
    | intro _

theorem State.segEnd_keeps {P : State → Prop} (kErr : KErr P) (kQue : KQue P) (kHdg : KHdg P) (kPut : KPut P) (kCop : KCop P) (kMap : KMap P) (kTop : KTop P) (kMcs : KMcs P) (kChan : KChan P) (kEcc : KEcc P) (kJnp : KJnp P) (kBox : KBox P) (kYew : KYew P) (kHly : KHly P) (kPwr : KPwr P) (kSys : KSys P) (kWr : KWr P) (kDrawn : KDrawn P) (kDeliv : KDeliv P) (s : State) (ch code w0 : Nat) (d : List Byte) (cut : Bool) (hP : P s) :
 P (State.segEnd s ch code w0 d cut) := by
  unfold State.segEnd
  repeat' first
    | with_reducible assumption
    | exact rfl
    | exact fun _ => ⟨rfl, rfl, rfl⟩
    | with_reducible apply State.giveJob_keeps kTop kChan kBox kWr
    | with_reducible apply State.segDone_keeps kErr kQue kHdg kPut kCop kMap kTop kMcs kChan kEcc kJnp kBox kPwr kSys kWr kDrawn
    | with_reducible apply State.post1_keeps kHly
    | with_reducible apply kTop
    | with_reducible apply State.segFault_keeps kErr kQue kHdg kPut kCop kMap kTop kChan kEcc kBox kSys kWr
    | with_reducible apply State.busFree_keeps kErr kQue kHdg kPut kCop kMap kTop kMcs kChan kEcc kJnp kBox kYew kHly kPwr kSys kWr kDrawn kDeliv
    | with_reducible apply when_keeps
    | dsimp only
    | split
    | intro _

theorem State.segFaulted_keeps {P : State → Prop} (kErr : KErr P) (kQue : KQue P) (kHdg : KHdg P) (kPut : KPut P) (kCop : KCop P) (kMap : KMap P) (kTop : KTop P) (kMcs : KMcs P) (kChan : KChan P) (kEcc : KEcc P) (kJnp : KJnp P) (kBox : KBox P) (kYew : KYew P) (kHly : KHly P) (kPwr : KPwr P) (kSys : KSys P) (kWr : KWr P) (kDrawn : KDrawn P) (kDeliv : KDeliv P) (s : State) (ch code : Nat) (hP : P s) :
 P (State.segFaulted s ch code) := by
  unfold State.segFaulted
  repeat' first
    | with_reducible assumption
    | exact rfl
    | exact fun _ => ⟨rfl, rfl, rfl⟩
    | with_reducible apply State.giveJob_keeps kTop kChan kBox kWr
    | with_reducible apply kTop
    | with_reducible apply State.segFault_keeps kErr kQue kHdg kPut kCop kMap kTop kChan kEcc kBox kSys kWr
    | with_reducible apply State.busFree_keeps kErr kQue kHdg kPut kCop kMap kTop kMcs kChan kEcc kJnp kBox kYew kHly kPwr kSys kWr kDrawn kDeliv
    | dsimp only
    | split
    | intro _

theorem execOpStart_keeps {P : State → Prop} (kErr : KErr P) (kQue : KQue P) (kHdg : KHdg P) (kPut : KPut P) (kCop : KCop P) (kMap : KMap P) (kTop : KTop P) (kMcs : KMcs P) (kChan : KChan P) (kEcc : KEcc P) (kJnp : KJnp P) (kBox : KBox P) (kYew : KYew P) (kHly : KHly P) (kSys : KSys P) (kWr : KWr P) (kDrawn : KDrawn P) (kDeliv : KDeliv P) (lun : Fin 256) (s : State) (hP : P s) :
    Out.All P (execOpStart lun s) := by
  unfold execOpStart
  repeat' first
    | with_reducible apply Out.all_next
    | exact trivial
    | with_reducible assumption
    | exact rfl
    | exact fun _ => ⟨rfl, rfl, rfl⟩
    | with_reducible apply State.startOp_keeps kTop kChan kBox kYew kWr
    | with_reducible apply State.absentOps_keeps kErr kQue kHdg kPut kCop kMap kTop kMcs kChan kEcc kJnp kBox kYew kHly kSys kWr kDrawn kDeliv
    | with_reducible apply State.askReleased_keeps kTop kBox
    | dsimp only
    | split
    | intro _

theorem execTokenEvaluate_keeps {P : State → Prop} (kErr : KErr P) (kQue : KQue P) (kHdg : KHdg P) (kPut : KPut P) (kCop : KCop P) (kMap : KMap P) (kTop : KTop P) (kMcs : KMcs P) (kChan : KChan P) (kEcc : KEcc P) (kJnp : KJnp P) (kBox : KBox P) (kYew : KYew P) (kHly : KHly P) (kSys : KSys P) (kWr : KWr P) (kDrawn : KDrawn P) (kDeliv : KDeliv P) (s : State) (hP : P s) :
    Out.All P (execTokenEvaluate s) := by
  unfold execTokenEvaluate
  repeat' first
    | with_reducible apply Out.all_next
    | exact trivial
    | with_reducible assumption
    | exact rfl
    | exact fun _ => ⟨rfl, rfl, rfl⟩
    | with_reducible apply State.judge_keeps kErr kQue kHdg kPut kCop kMap kTop kMcs kChan kEcc kJnp kBox kYew kHly kSys kWr kDrawn kDeliv
    | with_reducible apply each_keeps
    | with_reducible apply kBox
    | with_reducible apply State.askReleased_keeps kTop kBox
    | with_reducible apply State.kick_keeps kErr kTop kMcs kChan kEcc kBox kWr
    | dsimp only
    | split
    | intro _

theorem execTokenAnswer_keeps {P : State → Prop} (kErr : KErr P) (kQue : KQue P) (kHdg : KHdg P) (kPut : KPut P) (kCop : KCop P) (kMap : KMap P) (kTop : KTop P) (kMcs : KMcs P) (kChan : KChan P) (kEcc : KEcc P) (kJnp : KJnp P) (kBox : KBox P) (kYew : KYew P) (kHly : KHly P) (kSys : KSys P) (kWr : KWr P) (kDrawn : KDrawn P) (kDeliv : KDeliv P) (op : Nat) (s : State) (hP : P s) :
    Out.All P (execTokenAnswer op s) := by
  unfold execTokenAnswer
  repeat' first
    | with_reducible apply Out.all_next
    | exact trivial
    | with_reducible assumption
    | exact rfl
    | exact fun _ => ⟨rfl, rfl, rfl⟩
    | with_reducible apply State.answer_keeps kErr kQue kHdg kPut kCop kMap kTop kMcs kChan kEcc kJnp kBox kYew kHly kSys kWr kDrawn kDeliv
    | dsimp only
    | split
    | intro _

theorem execStatusPollDue_keeps {P : State → Prop} (kErr : KErr P) (kTop : KTop P) (kMcs : KMcs P) (kChan : KChan P) (kEcc : KEcc P) (kBox : KBox P) (kWr : KWr P) (lun : Fin 256) (s : State) (hP : P s) :
    Out.All P (execStatusPollDue lun s) := by
  unfold execStatusPollDue
  repeat' first
    | with_reducible apply Out.all_next
    | exact trivial
    | with_reducible assumption
    | exact rfl
    | exact fun _ => ⟨rfl, rfl, rfl⟩
    | with_reducible apply State.pollLun_keeps kErr kTop kMcs kChan kEcc kBox kWr
    | dsimp only
    | split
    | intro _

theorem execGatherTimeout_keeps {P : State → Prop} (kTop : KTop P) (kWr : KWr P) (set : Nat) (s : State) (hP : P s) :
    Out.All P (execGatherTimeout set s) := by
  unfold execGatherTimeout
  repeat' first
    | with_reducible apply Out.all_next
    | exact trivial
    | with_reducible assumption
    | exact rfl
    | exact fun _ => ⟨rfl, rfl, rfl⟩
    | with_reducible apply State.forceOne_keeps kTop kWr
    | dsimp only
    | split
    | intro _

theorem execWriteAgeExpiry_keeps {P : State → Prop} (kTop : KTop P) (op : Nat) (s : State) (hP : P s) :
    Out.All P (execWriteAgeExpiry op s) := by
  unfold execWriteAgeExpiry
  repeat' first
    | with_reducible apply Out.all_next
    | exact trivial
    | with_reducible assumption
    | exact rfl
    | exact fun _ => ⟨rfl, rfl, rfl⟩
    | with_reducible apply State.age_keeps kTop
    | dsimp only
    | split
    | intro _

theorem execMaintAgeExpiry_keeps {P : State → Prop} (kTop : KTop P) (op : Nat) (s : State) (hP : P s) :
    Out.All P (execMaintAgeExpiry op s) := by
  unfold execMaintAgeExpiry
  repeat' first
    | with_reducible apply Out.all_next
    | exact trivial
    | with_reducible assumption
    | exact rfl
    | exact fun _ => ⟨rfl, rfl, rfl⟩
    | with_reducible apply State.age_keeps kTop
    | dsimp only
    | split
    | intro _

theorem execBusAgeExpiry_keeps {P : State → Prop} (kTop : KTop P) (kMcs : KMcs P) (ch : Fin 8) (op : Nat) (s : State) (hP : P s) :
    Out.All P (execBusAgeExpiry ch op s) := by
  unfold execBusAgeExpiry
  repeat' first
    | with_reducible apply Out.all_next
    | exact trivial
    | with_reducible assumption
    | exact rfl
    | exact fun _ => ⟨rfl, rfl, rfl⟩
    | with_reducible apply State.ageSeg_keeps kTop kMcs
    | dsimp only
    | split
    | intro _

theorem execTokenAgeExpiry_keeps {P : State → Prop} (kTop : KTop P) (op : Nat) (s : State) (hP : P s) :
    Out.All P (execTokenAgeExpiry op s) := by
  unfold execTokenAgeExpiry
  repeat' first
    | with_reducible apply Out.all_next
    | exact trivial
    | with_reducible assumption
    | exact rfl
    | exact fun _ => ⟨rfl, rfl, rfl⟩
    | with_reducible apply State.reserve_keeps kTop
    | dsimp only
    | split
    | intro _

theorem execSuspendStart_keeps {P : State → Prop} (kErr : KErr P) (kTop : KTop P) (kMcs : KMcs P) (kChan : KChan P) (kEcc : KEcc P) (kBox : KBox P) (kWr : KWr P) (lun : Fin 256) (s : State) (hP : P s) :
    Out.All P (execSuspendStart lun s) := by
  unfold execSuspendStart
  repeat' first
    | with_reducible apply Out.all_next
    | exact trivial
    | with_reducible assumption
    | exact rfl
    | exact fun _ => ⟨rfl, rfl, rfl⟩
    | with_reducible apply State.suspend_keeps kErr kTop kMcs kChan kEcc kBox kWr
    | dsimp only
    | split
    | intro _

theorem execResumeDue_keeps {P : State → Prop} (kTop : KTop P) (kBox : KBox P) (lun : Fin 256) (s : State) (hP : P s) :
    Out.All P (execResumeDue lun s) := by
  unfold execResumeDue
  repeat' first
    | with_reducible apply Out.all_next
    | exact trivial
    | with_reducible assumption
    | exact rfl
    | exact fun _ => ⟨rfl, rfl, rfl⟩
    | with_reducible apply State.askResume_keeps kTop kBox
    | dsimp only
    | split
    | intro _

theorem execSuspendWindowExpiry_keeps {P : State → Prop} (kTop : KTop P) (kBox : KBox P) (lun : Fin 256) (s : State) (hP : P s) :
    Out.All P (execSuspendWindowExpiry lun s) := by
  unfold execSuspendWindowExpiry
  repeat' first
    | with_reducible apply Out.all_next
    | exact trivial
    | with_reducible assumption
    | exact rfl
    | exact fun _ => ⟨rfl, rfl, rfl⟩
    | with_reducible apply State.onOp_keeps kTop
    | with_reducible apply State.askResume_keeps kTop kBox
    | dsimp only
    | split
    | intro _

theorem execArrayWatchdogExpiry_keeps {P : State → Prop} (kErr : KErr P) (kQue : KQue P) (kHdg : KHdg P) (kPut : KPut P) (kCop : KCop P) (kMap : KMap P) (kTop : KTop P) (kMcs : KMcs P) (kChan : KChan P) (kEcc : KEcc P) (kJnp : KJnp P) (kBox : KBox P) (kYew : KYew P) (kHly : KHly P) (kSys : KSys P) (kWr : KWr P) (kDrawn : KDrawn P) (kDeliv : KDeliv P) (lun : Fin 256) (s : State) (hP : P s) :
    Out.All P (execArrayWatchdogExpiry lun s) := by
  unfold execArrayWatchdogExpiry
  repeat' first
    | with_reducible apply Out.all_next
    | exact trivial
    | with_reducible assumption
    | exact rfl
    | exact fun _ => ⟨rfl, rfl, rfl⟩
    | with_reducible apply State.watchdog_keeps kErr kQue kHdg kPut kCop kMap kTop kMcs kChan kEcc kJnp kBox kYew kHly kSys kWr kDrawn kDeliv
    | dsimp only
    | split
    | intro _

end Sys2Proof.Machine
end

