-- ==== Sys2Proof/Laws/KeepsChannel.lean ====
section
/-!
SUPPORT. What the operations of Machine/Channel.lean can do: each one keeps every property of a state that its own primitive
updates keep. The hypotheses of a lemma name every unit the operation can reach.
-/
namespace Sys2Proof.Machine

theorem State.climbOn_keeps {P : State → Prop} (kErr : KErr P) (kTop : KTop P) (kMcs : KMcs P) (kChan : KChan P) (kEcc : KEcc P) (kBox : KBox P) (kWr : KWr P) (s : State) (n : Nat) (back : Bool) (hP : P s) :
 P (State.climbOn s n back) := by
  unfold State.climbOn
  repeat' first
    | with_reducible assumption
    | exact rfl
    | exact fun _ => ⟨rfl, rfl, rfl⟩
    | with_reducible apply State.startJobs_keeps kErr kTop kMcs kChan kEcc kBox kWr
    | with_reducible apply kChan
    | dsimp only
    | split
    | intro _

theorem State.climb_keeps {P : State → Prop} (kErr : KErr P) (kTop : KTop P) (kMcs : KMcs P) (kChan : KChan P) (kEcc : KEcc P) (kBox : KBox P) (kWr : KWr P) (s : State) (n : Nat) (back : Bool) (js : List ChJob) (hP : P s) :
 P (State.climb s n back js) := by
  unfold State.climb
  repeat' first
    | with_reducible assumption
    | exact rfl
    | exact fun _ => ⟨rfl, rfl, rfl⟩
    | with_reducible apply State.startJobs_keeps kErr kTop kMcs kChan kEcc kBox kWr
    | with_reducible apply kChan
    | with_reducible apply State.setLevel_keeps kErr kChan kWr
    | dsimp only
    | split
    | intro _

theorem State.atSdr_keeps {P : State → Prop} (kErr : KErr P) (kTop : KTop P) (kMcs : KMcs P) (kChan : KChan P) (kEcc : KEcc P) (kBox : KBox P) (kWr : KWr P) (s : State) (n : Nat) (back : Bool) (hP : P s) :
 P (State.atSdr s n back) := by
  unfold State.atSdr
  repeat' first
    | with_reducible assumption
    | exact rfl
    | exact fun _ => ⟨rfl, rfl, rfl⟩
    | with_reducible apply kChan
    | with_reducible apply State.climbOn_keeps kErr kTop kMcs kChan kEcc kBox kWr
    | with_reducible apply State.setLevel_keeps kErr kChan kWr
    | with_reducible apply kWr
    | dsimp only
    | split
    | intro _

theorem State.stampCheck_keeps {P : State → Prop} (kErr : KErr P) (kTop : KTop P) (kChan : KChan P) (kWr : KWr P) (s : State) (n : Nat) (hP : P s) :
 P (State.stampCheck s n) := by
  unfold State.stampCheck
  repeat' first
    | with_reducible assumption
    | exact rfl
    | exact fun _ => ⟨rfl, rfl, rfl⟩
    | with_reducible apply State.flag_keeps kErr kTop kChan kWr
    | dsimp only
    | split
    | intro _

theorem State.useDelays_keeps {P : State → Prop} (kWr : KWr P) (s : State) (n bin : Nat) (x : Nat × List Nat × Nat × Nat) (hP : P s) :
 P (State.useDelays s n bin x) := by
  unfold State.useDelays
  repeat' first
    | with_reducible assumption
    | exact rfl
    | exact fun _ => ⟨rfl, rfl, rfl⟩
    | with_reducible apply State.setb_keeps kWr
    | with_reducible apply each_keeps
    | with_reducible apply kWr
    | dsimp only
    | split
    | intro _

theorem State.trainApply_keeps {P : State → Prop} (kErr : KErr P) (kQue : KQue P) (kTop : KTop P) (kChan : KChan P) (kYew : KYew P) (kHly : KHly P) (kSys : KSys P) (kWr : KWr P) (s : State) (n : Nat) (t : Training) (hP : P s) :
 P (State.trainApply s n t) := by
  unfold State.trainApply
  repeat' first
    | with_reducible assumption
    | exact rfl
    | exact fun _ => ⟨rfl, rfl, rfl⟩
    | with_reducible apply each_keeps
    | with_reducible apply State.setLevel_keeps kErr kChan kWr
    | with_reducible apply State.toPre_keeps kErr kChan kWr
    | with_reducible apply State.trainDone_keeps kQue kTop kChan kHly kSys kWr
    | with_reducible apply State.useDelays_keeps kWr
    | with_reducible apply State.keepTrain_keeps kYew kWr
    | with_reducible apply State.setb_keeps kWr
    | with_reducible apply when_keeps
    | with_reducible apply State.stampCheck_keeps kErr kTop kChan kWr
    | with_reducible apply kWr
    | dsimp only
    | split
    | intro _

theorem State.trainFail_keeps {P : State → Prop} (kErr : KErr P) (kQue : KQue P) (kTop : KTop P) (kChan : KChan P) (kHly : KHly P) (kSys : KSys P) (kWr : KWr P) (kDrawn : KDrawn P) (s : State) (n : Nat) (t : Training) (hP : P s) :
 P (State.trainFail s n t) := by
  unfold State.trainFail
  repeat' first
    | with_reducible assumption
    | exact rfl
    | exact fun _ => ⟨rfl, rfl, rfl⟩
    | with_reducible apply State.trainDone_keeps kQue kTop kChan kHly kSys kWr
    | with_reducible apply State.err1_keeps kErr kWr
    | with_reducible apply State.setb_keeps kWr
    | with_reducible apply when_keeps
    | with_reducible apply State.toPre_keeps kErr kChan kWr
    | with_reducible apply State.draw_keeps kDrawn
    | with_reducible refine State.draw_keeps' kDrawn ‹_ = (_, _)› ?_
    | dsimp only
    | split
    | intro _

theorem State.trainBegin_keeps {P : State → Prop} (kErr : KErr P) (kQue : KQue P) (kTop : KTop P) (kChan : KChan P) (kHly : KHly P) (kSys : KSys P) (kWr : KWr P) (kDrawn : KDrawn P) (s : State) (n : Nat) (hP : P s) :
 P (State.trainBegin s n) := by
  unfold State.trainBegin
  repeat' first
    | with_reducible assumption
    | exact rfl
    | exact fun _ => ⟨rfl, rfl, rfl⟩
    | with_reducible apply kChan
    | with_reducible apply State.trainDone_keeps kQue kTop kChan kHly kSys kWr
    | with_reducible apply State.trainFail_keeps kErr kQue kTop kChan kHly kSys kWr kDrawn
    | dsimp only
    | split
    | intro _

theorem State.binEnd_keeps {P : State → Prop} (kErr : KErr P) (kQue : KQue P) (kTop : KTop P) (kChan : KChan P) (kYew : KYew P) (kHly : KHly P) (kSys : KSys P) (kWr : KWr P) (kDrawn : KDrawn P) (s : State) (n : Nat) (t : Training) (hP : P s) :
 P (State.binEnd s n t) := by
  unfold State.binEnd
  repeat' first
    | with_reducible assumption
    | exact rfl
    | exact fun _ => ⟨rfl, rfl, rfl⟩
    | with_reducible apply State.relock_keeps kChan
    | with_reducible apply State.trainApply_keeps kErr kQue kTop kChan kYew kHly kSys kWr
    | with_reducible apply kChan
    | with_reducible apply State.trainFail_keeps kErr kQue kTop kChan kHly kSys kWr kDrawn
    | dsimp only
    | split
    | intro _

theorem State.sliceNext_keeps {P : State → Prop} (kErr : KErr P) (kQue : KQue P) (kTop : KTop P) (kChan : KChan P) (kYew : KYew P) (kHly : KHly P) (kSys : KSys P) (kWr : KWr P) (kDrawn : KDrawn P) (s : State) (n : Nat) (t : Training) (r : SliceRes) (hP : P s) :
 P (State.sliceNext s n t r) := by
  unfold State.sliceNext
  repeat' first
    | with_reducible assumption
    | exact rfl
    | exact fun _ => ⟨rfl, rfl, rfl⟩
    | with_reducible apply kChan
    | with_reducible apply State.binEnd_keeps kErr kQue kTop kChan kYew kHly kSys kWr kDrawn
    | with_reducible apply kWr
    | dsimp only
    | split
    | intro _

theorem State.trainCut_keeps {P : State → Prop} (kQue : KQue P) (kTop : KTop P) (kChan : KChan P) (kHly : KHly P) (kSys : KSys P) (kWr : KWr P) (s : State) (n : Nat) (hP : P s) :
 P (State.trainCut s n) := by
  unfold State.trainCut
  repeat' first
    | with_reducible assumption
    | exact rfl
    | exact fun _ => ⟨rfl, rfl, rfl⟩
    | with_reducible apply kChan
    | with_reducible apply State.dropLease_keeps kTop kWr
    | with_reducible apply State.trainDone_keeps kQue kTop kChan kHly kSys kWr
    | dsimp only
    | split
    | intro _

theorem State.relocked_keeps {P : State → Prop} (kErr : KErr P) (kQue : KQue P) (kTop : KTop P) (kMcs : KMcs P) (kChan : KChan P) (kEcc : KEcc P) (kBox : KBox P) (kYew : KYew P) (kHly : KHly P) (kSys : KSys P) (kWr : KWr P) (s : State) (n bin : Nat) (hP : P s) :
 P (State.relocked s n bin) := by
  unfold State.relocked
  repeat' first
    | with_reducible assumption
    | exact rfl
    | exact fun _ => ⟨rfl, rfl, rfl⟩
    | with_reducible apply State.trainApply_keeps kErr kQue kTop kChan kYew kHly kSys kWr
    | with_reducible apply kChan
    | with_reducible apply State.atSdr_keeps kErr kTop kMcs kChan kEcc kBox kWr
    | with_reducible apply State.setLevel_keeps kErr kChan kWr
    | with_reducible apply State.wantTrain_keeps kTop
    | with_reducible apply State.untrain_keeps kWr
    | with_reducible apply when_keeps
    | with_reducible apply kWr
    | dsimp only
    | split
    | intro _

theorem State.zqBegin_keeps {P : State → Prop} (kErr : KErr P) (kQue : KQue P) (kTop : KTop P) (kMcs : KMcs P) (kChan : KChan P) (kEcc : KEcc P) (kBox : KBox P) (kHly : KHly P) (kSys : KSys P) (kWr : KWr P) (s : State) (n : Nat) (hP : P s) :
 P (State.zqBegin s n) := by
  unfold State.zqBegin
  repeat' first
    | with_reducible assumption
    | exact rfl
    | exact fun _ => ⟨rfl, rfl, rfl⟩
    | with_reducible apply State.startJobs_keeps kErr kTop kMcs kChan kEcc kBox kWr
    | with_reducible apply kChan
    | with_reducible apply State.zqDone_keeps kQue kTop kChan kHly kSys kWr
    | dsimp only
    | split
    | intro _

theorem State.zqNext_keeps {P : State → Prop} (kErr : KErr P) (kQue : KQue P) (kTop : KTop P) (kMcs : KMcs P) (kChan : KChan P) (kEcc : KEcc P) (kBox : KBox P) (kHly : KHly P) (kSys : KSys P) (kWr : KWr P) (s : State) (n t : Nat) (failed : Bool) (hP : P s) :
 P (State.zqNext s n t failed) := by
  unfold State.zqNext
  repeat' first
    | with_reducible assumption
    | exact rfl
    | exact fun _ => ⟨rfl, rfl, rfl⟩
    | with_reducible apply State.startJobs_keeps kErr kTop kMcs kChan kEcc kBox kWr
    | with_reducible apply kChan
    | with_reducible apply State.dropLease_keeps kTop kWr
    | with_reducible apply State.zqDone_keeps kQue kTop kChan kHly kSys kWr
    | dsimp only
    | split
    | intro _

theorem State.loopDone_keeps {P : State → Prop} (kQue : KQue P) (kTop : KTop P) (kChan : KChan P) (kHly : KHly P) (kSys : KSys P) (kWr : KWr P) (s : State) (n result : Nat) (hP : P s) :
 P (State.loopDone s n result) := by
  unfold State.loopDone
  repeat' first
    | with_reducible assumption
    | exact rfl
    | exact fun _ => ⟨rfl, rfl, rfl⟩
    | with_reducible apply kChan
    | with_reducible apply State.endChAct_keeps kQue kTop kHly kSys kWr
    | with_reducible apply State.dropLease_keeps kTop kWr
    | with_reducible apply State.setb_keeps kWr
    | with_reducible apply when_keeps
    | dsimp only
    | split
    | intro _

theorem State.wakeLow_keeps {P : State → Prop} (kPwr : KPwr P) (s : State) (hP : P s) :
 P (State.wakeLow s) := by
  unfold State.wakeLow
  repeat' first
    | with_reducible assumption
    | exact rfl
    | exact fun _ => ⟨rfl, rfl, rfl⟩
    | with_reducible apply kPwr
    | with_reducible apply when_keeps
    | dsimp only
    | split
    | intro _

theorem State.addTorn_keeps {P : State → Prop} (kErr : KErr P) (kWr : KWr P) (s : State) (l : List Torn) (hP : P s) :
 P (State.addTorn s l) := by
  unfold State.addTorn
  repeat' first
    | with_reducible assumption
    | exact rfl
    | exact fun _ => ⟨rfl, rfl, rfl⟩
    | exact fun _ => rfl
    | with_reducible apply State.setb_keeps kWr
    | with_reducible apply when_keeps
    | with_reducible apply kWr
    | with_reducible apply KErr.same kErr
    | dsimp only
    | split
    | intro _

theorem cold_keeps {P : State → Prop} (kWr : KWr P) (l : List Fld) (s : State)
    (hA : (l.all fun F => !(F.acc == Access.lock)) = true) (hP : P s) : P (s.each l fun s F => s.wr F F.cold) := by
  refine each_keeps _ _ _ (fun s F hF h => kWr _ _ _ ?_ h) hP
  simpa using List.all_eq_true.mp hA F hF

theorem State.chRegsCold_keeps {P : State → Prop} (kWr : KWr P) (s : State) (n : Nat) (hP : P s) :
 P (State.chRegsCold s n) := by
  unfold State.chRegsCold
  refine each_keeps _ _ _ (fun s t _ h => ?_) (cold_keeps kWr _ _ rfl hP)
  refine cold_keeps kWr _ _ rfl (each_keeps _ _ _ (fun s k _ h => ?_) h)
  exact kWr _ _ _ rfl (kWr _ _ _ rfl (kWr _ _ _ rfl (kWr _ _ _ rfl h)))

theorem State.chReset_keeps {P : State → Prop} (kErr : KErr P) (kQue : KQue P) (kHdg : KHdg P) (kPut : KPut P) (kCop : KCop P) (kMap : KMap P) (kTop : KTop P) (kMcs : KMcs P) (kChan : KChan P) (kEcc : KEcc P) (kJnp : KJnp P) (kBox : KBox P) (kYew : KYew P) (kHly : KHly P) (kSys : KSys P) (kWr : KWr P) (kDrawn : KDrawn P) (kDeliv : KDeliv P) (s : State) (n : Nat) (hP : P s) :
 P (State.chReset s n) := by
  unfold State.chReset
  repeat' first
    | with_reducible assumption
    | exact rfl
    | exact fun _ => ⟨rfl, rfl, rfl⟩
    | with_reducible apply each_keeps
    | with_reducible apply kChan
    | with_reducible apply State.addTorn_keeps kErr kWr
    | with_reducible apply State.err1_keeps kErr kWr
    | with_reducible apply State.chRegsCold_keeps kWr
    | with_reducible apply State.dropLease_keeps kTop kWr
    | with_reducible apply kTop
    | with_reducible apply State.settle_keeps kErr kQue kHdg kPut kCop kMap kTop kMcs kChan kEcc kJnp kBox kYew kHly kSys kWr kDrawn kDeliv
    | with_reducible apply onSeq_keeps kMcs
    | with_reducible apply State.goAbsent_keeps kErr kQue kHdg kPut kCop kMap kTop kMcs kChan kEcc kJnp kBox kHly kSys kWr
    | dsimp only
    | split
    | intro _

theorem State.chRst_keeps {P : State → Prop} (kErr : KErr P) (kQue : KQue P) (kHdg : KHdg P) (kPut : KPut P) (kCop : KCop P) (kMap : KMap P) (kTop : KTop P) (kMcs : KMcs P) (kChan : KChan P) (kEcc : KEcc P) (kJnp : KJnp P) (kBox : KBox P) (kYew : KYew P) (kHly : KHly P) (kSys : KSys P) (kWr : KWr P) (kDrawn : KDrawn P) (kDeliv : KDeliv P) (s : State) (n : Nat) (hP : P s) :
 P (State.chRst s n) := by
  unfold State.chRst
  repeat' first
    | with_reducible assumption
    | exact rfl
    | exact fun _ => ⟨rfl, rfl, rfl⟩
    | with_reducible apply kSys
    | with_reducible apply State.chReset_keeps kErr kQue kHdg kPut kCop kMap kTop kMcs kChan kEcc kJnp kBox kYew kHly kSys kWr kDrawn kDeliv
    | dsimp only
    | split
    | intro _

theorem State.chResume_keeps {P : State → Prop} (kErr : KErr P) (kTop : KTop P) (kMcs : KMcs P) (kChan : KChan P) (kEcc : KEcc P) (kJnp : KJnp P) (kBox : KBox P) (kWr : KWr P) (s : State) (n : Nat) (hP : P s) :
 P (State.chResume s n) := by
  unfold State.chResume
  repeat' first
    | with_reducible assumption
    | exact rfl
    | exact fun _ => ⟨rfl, rfl, rfl⟩
    | with_reducible apply kChan
    | with_reducible apply State.climb_keeps kErr kTop kMcs kChan kEcc kBox kWr
    | with_reducible apply State.forgetResident_keeps kJnp
    | dsimp only
    | split
    | intro _

theorem execTrainSliceStart_keeps {P : State → Prop} (kErr : KErr P) (kQue : KQue P) (kTop : KTop P) (kMcs : KMcs P) (kChan : KChan P) (kEcc : KEcc P) (kBox : KBox P) (kHly : KHly P) (kSys : KSys P) (kWr : KWr P) (ch : Fin 8) (s : State) (hP : P s) :
    Out.All P (execTrainSliceStart ch s) := by
  unfold execTrainSliceStart
  repeat' first
    | with_reducible apply Out.all_next
    | exact trivial
    | with_reducible assumption
    | exact rfl
    | exact fun _ => ⟨rfl, rfl, rfl⟩
    | with_reducible apply State.startJobs_keeps kErr kTop kMcs kChan kEcc kBox kWr
    | with_reducible apply kChan
    | with_reducible apply State.trainDone_keeps kQue kTop kChan kHly kSys kWr
    | dsimp only
    | split
    | intro _

theorem execTrainSliceEnd_keeps {P : State → Prop} (kErr : KErr P) (kQue : KQue P) (kHdg : KHdg P) (kPut : KPut P) (kCop : KCop P) (kMap : KMap P) (kTop : KTop P) (kMcs : KMcs P) (kChan : KChan P) (kEcc : KEcc P) (kJnp : KJnp P) (kBox : KBox P) (kYew : KYew P) (kHly : KHly P) (kPwr : KPwr P) (kSys : KSys P) (kWr : KWr P) (kDrawn : KDrawn P) (kDeliv : KDeliv P) (ch : Fin 8) (r : SliceRes) (s : State) (hP : P s) :
    Out.All P (execTrainSliceEnd ch r s) := by
  unfold execTrainSliceEnd
  repeat' first
    | with_reducible apply Out.all_next
    | exact trivial
    | with_reducible assumption
    | exact rfl
    | exact fun _ => ⟨rfl, rfl, rfl⟩
    | with_reducible apply State.busFree_keeps kErr kQue kHdg kPut kCop kMap kTop kMcs kChan kEcc kJnp kBox kYew kHly kPwr kSys kWr kDrawn kDeliv
    | with_reducible apply State.trainCut_keeps kQue kTop kChan kHly kSys kWr
    | with_reducible apply State.sliceNext_keeps kErr kQue kTop kChan kYew kHly kSys kWr kDrawn
    | dsimp only
    | split
    | intro _

theorem execPhyRelockDone_keeps {P : State → Prop} (kErr : KErr P) (kQue : KQue P) (kHdg : KHdg P) (kPut : KPut P) (kCop : KCop P) (kMap : KMap P) (kTop : KTop P) (kMcs : KMcs P) (kChan : KChan P) (kEcc : KEcc P) (kJnp : KJnp P) (kBox : KBox P) (kYew : KYew P) (kHly : KHly P) (kPwr : KPwr P) (kSys : KSys P) (kWr : KWr P) (kDrawn : KDrawn P) (kDeliv : KDeliv P) (ch : Fin 8) (s : State) (hP : P s) :
    Out.All P (execPhyRelockDone ch s) := by
  unfold execPhyRelockDone
  repeat' first
    | with_reducible apply Out.all_next
    | exact trivial
    | with_reducible assumption
    | exact rfl
    | exact fun _ => ⟨rfl, rfl, rfl⟩
    | with_reducible apply State.busFree_keeps kErr kQue kHdg kPut kCop kMap kTop kMcs kChan kEcc kJnp kBox kYew kHly kPwr kSys kWr kDrawn kDeliv
    | with_reducible apply State.relocked_keeps kErr kQue kTop kMcs kChan kEcc kBox kYew kHly kSys kWr
    | dsimp only
    | split
    | intro _

theorem execPhyZqCalibration_keeps {P : State → Prop} (kChan : KChan P) (kBox : KBox P) (kDrawn : KDrawn P) (wing : Fin 2) (s : State) (hP : P s) :
    Out.All P (execPhyZqCalibration wing s) := by
  unfold execPhyZqCalibration
  repeat' first
    | with_reducible apply Out.all_next
    | exact trivial
    | with_reducible assumption
    | exact rfl
    | exact fun _ => ⟨rfl, rfl, rfl⟩
    | with_reducible apply State.phyZq_keeps kChan kBox kDrawn
    | dsimp only
    | split
    | intro _

theorem execZqcalSlice_keeps {P : State → Prop} (kErr : KErr P) (kQue : KQue P) (kHdg : KHdg P) (kPut : KPut P) (kCop : KCop P) (kMap : KMap P) (kTop : KTop P) (kMcs : KMcs P) (kChan : KChan P) (kEcc : KEcc P) (kJnp : KJnp P) (kBox : KBox P) (kYew : KYew P) (kHly : KHly P) (kPwr : KPwr P) (kSys : KSys P) (kWr : KWr P) (kDrawn : KDrawn P) (kDeliv : KDeliv P) (ch : Fin 8) (failed : Bool) (s : State) (hP : P s) :
    Out.All P (execZqcalSlice ch failed s) := by
  unfold execZqcalSlice
  repeat' first
    | with_reducible apply Out.all_next
    | exact trivial
    | with_reducible assumption
    | exact rfl
    | exact fun _ => ⟨rfl, rfl, rfl⟩
    | with_reducible apply State.busFree_keeps kErr kQue kHdg kPut kCop kMap kTop kMcs kChan kEcc kJnp kBox kYew kHly kPwr kSys kWr kDrawn kDeliv
    | with_reducible apply State.zqNext_keeps kErr kQue kTop kMcs kChan kEcc kBox kHly kSys kWr
    | dsimp only
    | split
    | intro _

theorem execSelftestChannelDone_keeps {P : State → Prop} (kErr : KErr P) (kQue : KQue P) (kHdg : KHdg P) (kPut : KPut P) (kCop : KCop P) (kMap : KMap P) (kTop : KTop P) (kMcs : KMcs P) (kChan : KChan P) (kEcc : KEcc P) (kJnp : KJnp P) (kBox : KBox P) (kYew : KYew P) (kHly : KHly P) (kPwr : KPwr P) (kSys : KSys P) (kWr : KWr P) (kDrawn : KDrawn P) (kDeliv : KDeliv P) (ch : Fin 8) (result : W32) (s : State) (hP : P s) :
    Out.All P (execSelftestChannelDone ch result s) := by
  unfold execSelftestChannelDone
  repeat' first
    | with_reducible apply Out.all_next
    | exact trivial
    | with_reducible assumption
    | exact rfl
    | exact fun _ => ⟨rfl, rfl, rfl⟩
    | with_reducible apply State.loopDone_keeps kQue kTop kChan kHly kSys kWr
    | with_reducible apply State.busFree_keeps kErr kQue kHdg kPut kCop kMap kTop kMcs kChan kEcc kJnp kBox kYew kHly kPwr kSys kWr kDrawn kDeliv
    | dsimp only
    | split
    | intro _

theorem execCherrDllUnlock_keeps {P : State → Prop} (kErr : KErr P) (kQue : KQue P) (kHdg : KHdg P) (kPut : KPut P) (kCop : KCop P) (kMap : KMap P) (kTop : KTop P) (kMcs : KMcs P) (kChan : KChan P) (kEcc : KEcc P) (kJnp : KJnp P) (kBox : KBox P) (kYew : KYew P) (kHly : KHly P) (kPwr : KPwr P) (kSys : KSys P) (kWr : KWr P) (kDrawn : KDrawn P) (kDeliv : KDeliv P) (ch : Fin 8) (s : State) (hP : P s) :
    Out.All P (execCherrDllUnlock ch s) := by
  unfold execCherrDllUnlock
  repeat' first
    | with_reducible apply Out.all_next
    | exact trivial
    | with_reducible assumption
    | exact rfl
    | exact fun _ => ⟨rfl, rfl, rfl⟩
    | with_reducible apply State.busFree_keeps kErr kQue kHdg kPut kCop kMap kTop kMcs kChan kEcc kJnp kBox kYew kHly kPwr kSys kWr kDrawn kDeliv
    | with_reducible apply State.cherr_keeps kErr kTop kMcs kChan kWr
    | with_reducible apply State.failActs_keeps kQue kTop kChan kHly kSys kWr
    | dsimp only
    | split
    | intro _

theorem execPwrLoss_keeps {P : State → Prop} (kErr : KErr P) (kQue : KQue P) (kHdg : KHdg P) (kPut : KPut P) (kCop : KCop P) (kMap : KMap P) (kTop : KTop P) (kMcs : KMcs P) (kChan : KChan P) (kEcc : KEcc P) (kJnp : KJnp P) (kBox : KBox P) (kYew : KYew P) (kHly : KHly P) (kPwr : KPwr P) (kSys : KSys P) (kWr : KWr P) (kDrawn : KDrawn P) (kDeliv : KDeliv P) (dom : Fin 4) (s : State) (hP : P s) :
    Out.All P (execPwrLoss dom s) := by
  unfold execPwrLoss
  repeat' first
    | with_reducible apply Out.all_next
    | exact trivial
    | with_reducible assumption
    | exact rfl
    | exact fun _ => ⟨rfl, rfl, rfl⟩
    | with_reducible apply State.settle_keeps kErr kQue kHdg kPut kCop kMap kTop kMcs kChan kEcc kJnp kBox kYew kHly kSys kWr kDrawn kDeliv
    | with_reducible apply State.losePower_keeps kErr kQue kHdg kPut kCop kMap kTop kMcs kChan kEcc kJnp kBox kHly kSys kWr
    | with_reducible apply State.wakeLow_keeps kPwr
    | dsimp only
    | split
    | intro _

theorem execChannelResetResume_keeps {P : State → Prop} (kErr : KErr P) (kQue : KQue P) (kHdg : KHdg P) (kPut : KPut P) (kCop : KCop P) (kMap : KMap P) (kTop : KTop P) (kMcs : KMcs P) (kChan : KChan P) (kEcc : KEcc P) (kJnp : KJnp P) (kBox : KBox P) (kYew : KYew P) (kHly : KHly P) (kPwr : KPwr P) (kSys : KSys P) (kWr : KWr P) (kDrawn : KDrawn P) (kDeliv : KDeliv P) (ch : Fin 8) (s : State) (hP : P s) :
    Out.All P (execChannelResetResume ch s) := by
  unfold execChannelResetResume
  repeat' first
    | with_reducible apply Out.all_next
    | exact trivial
    | with_reducible assumption
    | exact rfl
    | exact fun _ => ⟨rfl, rfl, rfl⟩
    | with_reducible apply State.busFree_keeps kErr kQue kHdg kPut kCop kMap kTop kMcs kChan kEcc kJnp kBox kYew kHly kPwr kSys kWr kDrawn kDeliv
    | with_reducible apply State.chResume_keeps kErr kTop kMcs kChan kEcc kJnp kBox kWr
    | dsimp only
    | split
    | intro _

end Sys2Proof.Machine
end

