-- ==== Sys2Proof/Laws/KeepsEncode.lean ====
section
/-!
SUPPORT. What the operations of Machine/Encode.lean can do: each one keeps every property of a state that its own primitive
updates keep. The hypotheses of a lemma name every unit the operation can reach.
-/
namespace Sys2Proof.Machine

theorem State.restoreFua_keeps {P : State → Prop} (kErr : KErr P) (kQue : KQue P) (kHdg : KHdg P) (kPut : KPut P) (kMap : KMap P) (kTop : KTop P) (kEcc : KEcc P) (kHly : KHly P) (kWr : KWr P) (kDrawn : KDrawn P) (s : State) (tag order : Nat) (f : Nat → Bool) (hP : P s) :
 P (State.restoreFua s tag order f) := by
  unfold State.restoreFua
  repeat' first
    | with_reducible assumption
    | exact rfl
    | exact fun _ => ⟨rfl, rfl, rfl⟩
    | with_reducible apply kMap
    | with_reducible apply State.tryUpds_keeps kErr kQue kHdg kPut kMap kTop kEcc kHly kWr kDrawn
    | dsimp only
    | split
    | intro _

theorem State.dropDirty_keeps {P : State → Prop} (kErr : KErr P) (kQue : KQue P) (kHdg : KHdg P) (kPut : KPut P) (kCop : KCop P) (kMap : KMap P) (kTop : KTop P) (kWr : KWr P) (s : State) (d : Dirty) (hP : P s) :
 P (State.dropDirty s d) := by
  unfold State.dropDirty
  repeat' first
    | with_reducible assumption
    | exact rfl
    | exact fun _ => ⟨rfl, rfl, rfl⟩
    | with_reducible apply State.padPf_keeps kTop kWr
    | with_reducible apply State.dirtyEnd_keeps kErr kQue kHdg kPut kCop kMap kWr
    | dsimp only
    | split
    | intro _

theorem State.setPf_keeps {P : State → Prop} (kTop : KTop P) (s : State) (a : Nat) (d : List Byte) (hP : P s) :
 P (State.setPf s a d) := by
  unfold State.setPf
  repeat' first
    | with_reducible assumption
    | exact rfl
    | exact fun _ => ⟨rfl, rfl, rfl⟩
    | with_reducible apply kTop
    | dsimp only
    | split
    | intro _

theorem State.dirtyCrc_keeps {P : State → Prop} (kErr : KErr P) (kQue : KQue P) (kHdg : KHdg P) (kPut : KPut P) (kCop : KCop P) (kMap : KMap P) (kTop : KTop P) (kEcc : KEcc P) (kHly : KHly P) (kSys : KSys P) (kWr : KWr P) (kDrawn : KDrawn P) (s : State) (d : Dirty) (hP : P s) :
 P (State.dirtyCrc s d) := by
  unfold State.dirtyCrc
  repeat' first
    | with_reducible assumption
    | exact rfl
    | exact fun _ => ⟨rfl, rfl, rfl⟩
    | with_reducible apply State.restoreFua_keeps kErr kQue kHdg kPut kMap kTop kEcc kHly kWr kDrawn
    | with_reducible apply State.progDone_keeps kQue kTop kSys kWr
    | with_reducible apply State.dirtyEnd_keeps kErr kQue kHdg kPut kCop kMap kWr
    | dsimp only
    | split
    | intro _

theorem State.crcFail_keeps {P : State → Prop} (kErr : KErr P) (kQue : KQue P) (kHdg : KHdg P) (kPut : KPut P) (kCop : KCop P) (kMap : KMap P) (kTop : KTop P) (kEcc : KEcc P) (kHly : KHly P) (kSys : KSys P) (kWr : KWr P) (kDrawn : KDrawn P) (s : State) (f : PFrame) (hP : P s) :
 P (State.crcFail s f) := by
  unfold State.crcFail
  repeat' first
    | with_reducible assumption
    | exact rfl
    | exact fun _ => ⟨rfl, rfl, rfl⟩
    | with_reducible apply State.progDone_keeps kQue kTop kSys kWr
    | with_reducible apply State.setPf_keeps kTop
    | with_reducible apply State.bufBack_keeps kErr kHdg kPut kCop kWr
    | with_reducible apply State.dirtyCrc_keeps kErr kQue kHdg kPut kCop kMap kTop kEcc kHly kSys kWr kDrawn
    | with_reducible apply State.padPf_keeps kTop kWr
    | dsimp only
    | split
    | intro _

theorem State.dirtyFrame_keeps {P : State → Prop} (kErr : KErr P) (kQue : KQue P) (kWr : KWr P) (kDrawn : KDrawn P) (s : State) (d : Dirty) (holdup : Bool) (hP : P s) :
 P (State.dirtyFrame s d holdup).2 := by
  unfold State.dirtyFrame
  repeat' first
    | with_reducible assumption
    | exact rfl
    | exact fun _ => ⟨rfl, rfl, rfl⟩
    | exact fun _ => rfl
    | with_reducible apply KQue.same kQue
    | with_reducible apply when_keeps
    | with_reducible apply State.err1_keeps kErr kWr
    | with_reducible apply State.bump_keeps kWr
    | with_reducible apply State.bufRead_keeps kErr kWr kDrawn
    | with_reducible refine State.bufRead_keeps' kErr kWr kDrawn ‹_ = (_, _)› ?_
    | dsimp only
    | split
    | intro _

theorem State.dirtyFrame_keeps' {P : State → Prop} (kErr : KErr P) (kQue : KQue P) (kWr : KWr P) (kDrawn : KDrawn P) {s : State} {d : Dirty} {holdup : Bool} {x0 : Option (List Byte)} {t : State}
    (hE : State.dirtyFrame s d holdup = (x0, t)) (hP : P s)  : P t := by
  have h := State.dirtyFrame_keeps kErr kQue kWr kDrawn s d holdup hP
  rw [hE] at h
  exact h

theorem State.encodeBuf_keeps {P : State → Prop} (kErr : KErr P) (kQue : KQue P) (kHdg : KHdg P) (kPut : KPut P) (kCop : KCop P) (kMap : KMap P) (kTop : KTop P) (kEcc : KEcc P) (kHly : KHly P) (kSys : KSys P) (kWr : KWr P) (kDrawn : KDrawn P) (s : State) (f : PFrame) (b : Nat) (hP : P s) :
 P (State.encodeBuf s f b) := by
  unfold State.encodeBuf
  repeat' first
    | with_reducible assumption
    | exact rfl
    | exact fun _ => ⟨rfl, rfl, rfl⟩
    | with_reducible apply State.setPf_keeps kTop
    | with_reducible apply State.crcFail_keeps kErr kQue kHdg kPut kCop kMap kTop kEcc kHly kSys kWr kDrawn
    | with_reducible apply State.bump_keeps kWr
    | with_reducible apply when_keeps
    | with_reducible apply State.dirtyFrame_keeps kErr kQue kWr kDrawn
    | with_reducible apply State.bufRead_keeps kErr kWr kDrawn
    | with_reducible refine State.dirtyFrame_keeps' kErr kQue kWr kDrawn ‹_ = (_, _)› ?_
    | with_reducible refine State.bufRead_keeps' kErr kWr kDrawn ‹_ = (_, _)› ?_
    | dsimp only
    | split
    | intro _

theorem State.wbCancel_keeps {P : State → Prop} (kMap : KMap P) (kTop : KTop P) (kWr : KWr P) (s : State) (key : PageKey) (hP : P s) :
 P (State.wbCancel s key) := by
  unfold State.wbCancel
  repeat' first
    | with_reducible assumption
    | exact rfl
    | exact fun _ => ⟨rfl, rfl, rfl⟩
    | with_reducible apply each_keeps
    | with_reducible apply kMap
    | with_reducible apply State.padPf_keeps kTop kWr
    | dsimp only
    | split
    | intro _

theorem State.encodeFrame_keeps {P : State → Prop} (kErr : KErr P) (kQue : KQue P) (kHdg : KHdg P) (kPut : KPut P) (kCop : KCop P) (kMap : KMap P) (kTop : KTop P) (kEcc : KEcc P) (kBox : KBox P) (kHly : KHly P) (kSys : KSys P) (kWr : KWr P) (kDrawn : KDrawn P) (s : State) (f : PFrame) (hP : P s) :
 P (State.encodeFrame s f) := by
  unfold State.encodeFrame
  repeat' first
    | with_reducible assumption
    | exact rfl
    | exact fun _ => ⟨rfl, rfl, rfl⟩
    | with_reducible apply State.pfEnergy_keeps kQue kBox kWr
    | with_reducible apply State.setPf_keeps kTop
    | with_reducible apply State.encodeBuf_keeps kErr kQue kHdg kPut kCop kMap kTop kEcc kHly kSys kWr kDrawn
    | with_reducible apply State.snapWb_keeps kErr kMap kWr kDrawn
    | with_reducible apply State.wbCancel_keeps kMap kTop kWr
    | dsimp only
    | split
    | intro _

theorem State.stage_keeps {P : State → Prop} (kErr : KErr P) (kQue : KQue P) (kHdg : KHdg P) (kPut : KPut P) (kCop : KCop P) (kMap : KMap P) (kTop : KTop P) (kMcs : KMcs P) (kChan : KChan P) (kEcc : KEcc P) (kBox : KBox P) (kHly : KHly P) (kSys : KSys P) (kWr : KWr P) (kDrawn : KDrawn P) (s : State) (ch : Nat) (o : Op) (l : Leg) (hP : P s) :
 P (State.stage s ch o l) := by
  unfold State.stage
  repeat' first
    | with_reducible assumption
    | exact rfl
    | exact fun _ => ⟨rfl, rfl, rfl⟩
    | with_reducible apply each_keeps
    | with_reducible apply kChan
    | with_reducible apply State.queueLeg_keeps kErr kTop kMcs kChan kEcc kBox kWr
    | with_reducible apply State.encodeFrame_keeps kErr kQue kHdg kPut kCop kMap kTop kEcc kBox kHly kSys kWr kDrawn
    | dsimp only
    | split
    | intro _

theorem State.redoProgs_keeps {P : State → Prop} (kTop : KTop P) (kChan : KChan P) (s : State) (ch : Nat) (hP : P s) :
 P (State.redoProgs s ch) := by
  unfold State.redoProgs
  repeat' first
    | with_reducible assumption
    | exact rfl
    | exact fun _ => ⟨rfl, rfl, rfl⟩
    | with_reducible apply State.restartProg_keeps kTop kChan
    | with_reducible apply each_keeps
    | dsimp only
    | split
    | intro _

theorem execStagingBufferFilled_keeps {P : State → Prop} (kErr : KErr P) (kQue : KQue P) (kHdg : KHdg P) (kPut : KPut P) (kCop : KCop P) (kMap : KMap P) (kTop : KTop P) (kMcs : KMcs P) (kChan : KChan P) (kEcc : KEcc P) (kBox : KBox P) (kHly : KHly P) (kSys : KSys P) (kWr : KWr P) (kDrawn : KDrawn P) (ch : Fin 8) (s : State) (hP : P s) :
    Out.All P (execStagingBufferFilled ch s) := by
  unfold execStagingBufferFilled
  repeat' first
    | with_reducible apply Out.all_next
    | exact trivial
    | with_reducible assumption
    | exact rfl
    | exact fun _ => ⟨rfl, rfl, rfl⟩
    | with_reducible apply State.redoProgs_keeps kTop kChan
    | with_reducible apply State.stage_keeps kErr kQue kHdg kPut kCop kMap kTop kMcs kChan kEcc kBox kHly kSys kWr kDrawn
    | dsimp only
    | split
    | intro _

end Sys2Proof.Machine
end

