-- ==== Sys2Proof/Laws/KeepsEcc.lean ====
section
/-!
SUPPORT. What the operations of Machine/Ecc.lean can do: each one keeps every property of a state that its own primitive
updates keep. The hypotheses of a lemma name every unit the operation can reach.
-/
namespace Sys2Proof.Machine

theorem State.leaveDecoder_keeps {P : State → Prop} (kEcc : KEcc P) (s : State) (id : Nat) (hP : P s) :
 P (State.leaveDecoder s id) := by
  unfold State.leaveDecoder
  repeat' first
    | with_reducible assumption
    | exact rfl
    | exact fun _ => ⟨rfl, rfl, rfl⟩
    | with_reducible apply kEcc
    | with_reducible apply State.onFlight_keeps kEcc
    | dsimp only
    | split
    | intro _

theorem State.endFlight_keeps {P : State → Prop} (kErr : KErr P) (kHdg : KHdg P) (kPut : KPut P) (kEcc : KEcc P) (kJnp : KJnp P) (kHly : KHly P) (kWr : KWr P) (kDrawn : KDrawn P) (s : State) (f : Flight) (st : Nat) (d : List Byte) (count : Bool) (hP : P s) :
 P (State.endFlight s f st d count) := by
  unfold State.endFlight
  repeat' first
    | with_reducible assumption
    | exact rfl
    | exact fun _ => ⟨rfl, rfl, rfl⟩
    | with_reducible apply State.countDepth_keeps kErr kHdg kPut kJnp kHly kWr kDrawn
    | with_reducible apply State.leaveDecoder_keeps kEcc
    | with_reducible apply when_keeps
    | with_reducible apply State.onFlight_keeps kEcc
    | dsimp only
    | split
    | intro _

theorem State.runOut_keeps {P : State → Prop} (kErr : KErr P) (kHdg : KHdg P) (kPut : KPut P) (kEcc : KEcc P) (kJnp : KJnp P) (kHly : KHly P) (kWr : KWr P) (kDrawn : KDrawn P) (s : State) (f : Flight) (hP : P s) :
 P (State.runOut s f) := by
  unfold State.runOut
  repeat' first
    | with_reducible assumption
    | exact rfl
    | exact fun _ => ⟨rfl, rfl, rfl⟩
    | with_reducible apply State.endFlight_keeps kErr kHdg kPut kEcc kJnp kHly kWr kDrawn
    | dsimp only
    | split
    | intro _

theorem State.adoptStep_keeps {P : State → Prop} (kErr : KErr P) (kHdg : KHdg P) (kPut : KPut P) (kJnp : KJnp P) (kWr : KWr P) (kDrawn : KDrawn P) (s : State) (f : Flight) (hP : P s) :
 P (State.adoptStep s f) := by
  unfold State.adoptStep
  repeat' first
    | with_reducible assumption
    | exact rfl
    | exact fun _ => ⟨rfl, rfl, rfl⟩
    | with_reducible apply State.adopt_keeps kErr kHdg kPut kJnp kWr kDrawn
    | with_reducible apply when_keeps
    | dsimp only
    | split
    | intro _

theorem State.joinSamples_keeps {P : State → Prop} (kEcc : KEcc P) (s : State) (w : Nat) (hP : P s) :
 P (State.joinSamples s w) := by
  unfold State.joinSamples
  repeat' first
    | with_reducible assumption
    | exact rfl
    | exact fun _ => ⟨rfl, rfl, rfl⟩
    | with_reducible apply each_keeps
    | with_reducible apply kEcc
    | dsimp only
    | split
    | intro _

theorem State.stepFailed_keeps {P : State → Prop} (kErr : KErr P) (kHdg : KHdg P) (kPut : KPut P) (kTop : KTop P) (kEcc : KEcc P) (kJnp : KJnp P) (kHly : KHly P) (kWr : KWr P) (kDrawn : KDrawn P) (s : State) (id : Nat) (hP : P s) :
 P (State.stepFailed s id) := by
  unfold State.stepFailed
  repeat' first
    | with_reducible assumption
    | exact rfl
    | exact fun _ => ⟨rfl, rfl, rfl⟩
    | with_reducible apply State.queueRead_keeps kTop kWr
    | with_reducible apply State.wantRebuild_keeps kEcc kHly
    | with_reducible apply State.runOut_keeps kErr kHdg kPut kEcc kJnp kHly kWr kDrawn
    | with_reducible apply State.bump_keeps kWr
    | with_reducible apply State.leaveDecoder_keeps kEcc
    | with_reducible apply State.joinSamples_keeps kEcc
    | with_reducible apply when_keeps
    | with_reducible apply State.onFlight_keeps kEcc
    | dsimp only
    | split
    | intro _

theorem State.checkFrame_keeps {P : State → Prop} (kErr : KErr P) (kHdg : KHdg P) (kPut : KPut P) (kTop : KTop P) (kEcc : KEcc P) (kJnp : KJnp P) (kHly : KHly P) (kWr : KWr P) (kDrawn : KDrawn P) (s : State) (f : Flight) (d : List Byte) (hP : P s) :
 P (State.checkFrame s f d) := by
  unfold State.checkFrame
  repeat' first
    | with_reducible assumption
    | exact rfl
    | exact fun _ => ⟨rfl, rfl, rfl⟩
    | with_reducible apply State.endFlight_keeps kErr kHdg kPut kEcc kJnp kHly kWr kDrawn
    | with_reducible apply State.adoptStep_keeps kErr kHdg kPut kJnp kWr kDrawn
    | with_reducible apply State.wrongPlace_keeps kErr kWr
    | with_reducible apply State.bump_keeps kWr
    | with_reducible apply State.onFlight_keeps kEcc
    | with_reducible apply State.stepFailed_keeps kErr kHdg kPut kTop kEcc kJnp kHly kWr kDrawn
    | dsimp only
    | split
    | intro _

theorem State.endErased_keeps {P : State → Prop} (kErr : KErr P) (kHdg : KHdg P) (kPut : KPut P) (kEcc : KEcc P) (kJnp : KJnp P) (kHly : KHly P) (kWr : KWr P) (kDrawn : KDrawn P) (s : State) (f : Flight) (hP : P s) :
 P (State.endErased s f) := by
  unfold State.endErased
  repeat' first
    | with_reducible assumption
    | exact rfl
    | exact fun _ => ⟨rfl, rfl, rfl⟩
    | with_reducible apply State.endFlight_keeps kErr kHdg kPut kEcc kJnp kHly kWr kDrawn
    | with_reducible apply State.err1_keeps kErr kWr
    | with_reducible apply State.delFlight_keeps kEcc
    | with_reducible apply State.bump_keeps kWr
    | dsimp only
    | split
    | intro _

theorem State.hardEnd_keeps {P : State → Prop} (kErr : KErr P) (kQue : KQue P) (kHdg : KHdg P) (kPut : KPut P) (kTop : KTop P) (kEcc : KEcc P) (kJnp : KJnp P) (kBox : KBox P) (kHly : KHly P) (kWr : KWr P) (kDrawn : KDrawn P) (s : State) (f : Flight) (r : DecodeRes) (hP : P s) :
 P (State.hardEnd s f r) := by
  unfold State.hardEnd
  repeat' first
    | with_reducible assumption
    | exact rfl
    | exact fun _ => ⟨rfl, rfl, rfl⟩
    | with_reducible apply State.energy_keeps kQue kBox kWr
    | with_reducible apply State.checkFrame_keeps kErr kHdg kPut kTop kEcc kJnp kHly kWr kDrawn
    | with_reducible apply State.countFirst_keeps kErr kHdg kPut kJnp kWr kDrawn
    | with_reducible apply State.endErased_keeps kErr kHdg kPut kEcc kJnp kHly kWr kDrawn
    | with_reducible apply State.delFlight_keeps kEcc
    | with_reducible apply State.calScore_keeps kJnp
    | with_reducible apply State.bump_keeps kWr
    | with_reducible apply when_keeps
    | with_reducible apply State.onFlight_keeps kEcc
    | with_reducible apply State.stepFailed_keeps kErr kHdg kPut kTop kEcc kJnp kHly kWr kDrawn
    | with_reducible apply kWr
    | dsimp only
    | split
    | intro _

theorem State.decoded_keeps {P : State → Prop} (kErr : KErr P) (kQue : KQue P) (kHdg : KHdg P) (kPut : KPut P) (kCop : KCop P) (kMap : KMap P) (kTop : KTop P) (kMcs : KMcs P) (kChan : KChan P) (kEcc : KEcc P) (kJnp : KJnp P) (kBox : KBox P) (kYew : KYew P) (kHly : KHly P) (kSys : KSys P) (kWr : KWr P) (kDrawn : KDrawn P) (kDeliv : KDeliv P) (s : State) (ch : Nat) (hP : P s) :
 P (State.decoded s ch) := by
  unfold State.decoded
  repeat' first
    | with_reducible assumption
    | exact rfl
    | exact fun _ => ⟨rfl, rfl, rfl⟩
    | with_reducible apply State.kick_keeps kErr kTop kMcs kChan kEcc kBox kWr
    | with_reducible apply State.settle_keeps kErr kQue kHdg kPut kCop kMap kTop kMcs kChan kEcc kJnp kBox kYew kHly kSys kWr kDrawn kDeliv
    | dsimp only
    | split
    | intro _

theorem State.reserveSample_keeps {P : State → Prop} (kTop : KTop P) (kEcc : KEcc P) (kWr : KWr P) (s : State) (w : Nat) (hP : P s) :
 P (State.reserveSample s w) := by
  unfold State.reserveSample
  repeat' first
    | with_reducible assumption
    | exact rfl
    | exact fun _ => ⟨rfl, rfl, rfl⟩
    | with_reducible apply State.queueRead_keeps kTop kWr
    | with_reducible apply kEcc
    | with_reducible apply State.joinSamples_keeps kEcc
    | with_reducible apply State.onFlight_keeps kEcc
    | dsimp only
    | split
    | intro _

theorem State.softEnd_keeps {P : State → Prop} (kErr : KErr P) (kQue : KQue P) (kHdg : KHdg P) (kPut : KPut P) (kTop : KTop P) (kEcc : KEcc P) (kJnp : KJnp P) (kBox : KBox P) (kHly : KHly P) (kWr : KWr P) (kDrawn : KDrawn P) (s : State) (w : Nat) (f : Flight) (r : DecodeRes) (hP : P s) :
 P (State.softEnd s w f r) := by
  have h1 : ((softConv w).acc == Access.lock) = false := by unfold softConv; repeat' first | rfl | split
  have h2 : ((softFail w).acc == Access.lock) = false := by unfold softFail; repeat' first | rfl | split
  unfold State.softEnd
  have h := State.energy_keeps kQue kBox kWr s (s.payer f) (cwLen f.cclass * s.rd Reg.BOX_EBYTE2_SOFT) hP
  dsimp only
  split
  · exact State.checkFrame_keeps kErr kHdg kPut kTop kEcc kJnp kHly kWr kDrawn _ _ _ (State.bump_keeps kWr _ _ _ (when_keeps _ _ _ (fun h => kWr _ _ _ rfl h) h) h1)
  · exact State.stepFailed_keeps kErr kHdg kPut kTop kEcc kJnp kHly kWr kDrawn _ _ (State.bump_keeps kWr _ _ _ (when_keeps _ _ _ (fun h => kWr _ _ _ rfl h) h) h2)

theorem State.readStripe_keeps {P : State → Prop} (kErr : KErr P) (kWr : KWr P) (kDrawn : KDrawn P) (s : State) (a : Nat) (hP : P s) :
 P (State.readStripe s a).2 := by
  unfold State.readStripe
  repeat' first
    | with_reducible assumption
    | exact rfl
    | exact fun _ => ⟨rfl, rfl, rfl⟩
    | with_reducible apply State.hRead_keeps kErr kWr kDrawn
    | with_reducible refine State.hRead_keeps' kErr kWr kDrawn ‹_ = (_, _)› ?_
    | dsimp only
    | split
    | intro _

theorem State.readStripe_keeps' {P : State → Prop} (kErr : KErr P) (kWr : KWr P) (kDrawn : KDrawn P) {s : State} {a : Nat} {x0 : Option Stripe} {t : State}
    (hE : State.readStripe s a = (x0, t)) (hP : P s)  : P t := by
  have h := State.readStripe_keeps kErr kWr kDrawn s a hP
  rw [hE] at h
  exact h

theorem State.stripeBad_keeps {P : State → Prop} (kErr : KErr P) (kWr : KWr P) (s : State) (d : Option Stripe) (hP : P s) :
 P (State.stripeBad s d) := by
  unfold State.stripeBad
  repeat' first
    | with_reducible assumption
    | exact rfl
    | exact fun _ => ⟨rfl, rfl, rfl⟩
    | with_reducible apply State.err1_keeps kErr kWr
    | dsimp only
    | split
    | intro _

theorem State.takeHeld_keeps {P : State → Prop} (kErr : KErr P) (kWr : KWr P) (kDrawn : KDrawn P) (s : State) (f : PFrame) (b : Nat) (hP : P s) :
 P (State.takeHeld s f b).2 := by
  unfold State.takeHeld
  repeat' first
    | with_reducible assumption
    | exact rfl
    | exact fun _ => ⟨rfl, rfl, rfl⟩
    | with_reducible apply State.takeBuf_keeps kErr kWr kDrawn
    | with_reducible refine State.takeBuf_keeps' kErr kWr kDrawn ‹_ = (_, _, _)› ?_
    | dsimp only
    | split
    | intro _

theorem State.takeHeld_keeps' {P : State → Prop} (kErr : KErr P) (kWr : KWr P) (kDrawn : KDrawn P) {s : State} {f : PFrame} {b : Nat} {x0 : Option (List Byte)} {t : State}
    (hE : State.takeHeld s f b = (x0, t)) (hP : P s)  : P t := by
  have h := State.takeHeld_keeps kErr kWr kDrawn s f b hP
  rw [hE] at h
  exact h

theorem State.readMember_keeps {P : State → Prop} (kTop : KTop P) (kEcc : KEcc P) (kHly : KHly P) (kWr : KWr P) (s : State) (w k : Nat) (x : XorOp) (e : Nat) (hP : P s) :
 P (State.readMember s w k x e) := by
  unfold State.readMember
  repeat' first
    | with_reducible assumption
    | exact rfl
    | exact fun _ => ⟨rfl, rfl, rfl⟩
    | with_reducible apply State.launch_keeps kTop kEcc kHly kWr
    | dsimp only
    | split
    | intro _

theorem State.freeHold_keeps {P : State → Prop} (kTop : KTop P) (s : State) (pfa : Nat) (hP : P s) :
 P (State.freeHold s pfa) := by
  unfold State.freeHold
  repeat' first
    | with_reducible assumption
    | exact rfl
    | exact fun _ => ⟨rfl, rfl, rfl⟩
    | with_reducible apply kTop
    | dsimp only
    | split
    | intro _

theorem State.startMembers_keeps {P : State → Prop} (kTop : KTop P) (kEcc : KEcc P) (kHly : KHly P) (kWr : KWr P) (s : State) (w k : Nat) (x : XorOp) (hP : P s) :
 P (State.startMembers s w k x) := by
  unfold State.startMembers
  repeat' first
    | with_reducible assumption
    | exact rfl
    | exact fun _ => ⟨rfl, rfl, rfl⟩
    | with_reducible apply each_keeps
    | with_reducible apply kTop
    | with_reducible apply State.readMember_keeps kTop kEcc kHly kWr
    | with_reducible apply when_keeps
    | dsimp only
    | split
    | intro _

theorem State.freeXor_keeps {P : State → Prop} (kErr : KErr P) (kHdg : KHdg P) (kPut : KPut P) (kCop : KCop P) (kTop : KTop P) (kMcs : KMcs P) (kChan : KChan P) (kEcc : KEcc P) (kBox : KBox P) (kWr : KWr P) (s : State) (w k : Nat) (x : XorOp) (hP : P s) :
 P (State.freeXor s w k x) := by
  unfold State.freeXor
  repeat' first
    | with_reducible assumption
    | exact rfl
    | exact fun _ => ⟨rfl, rfl, rfl⟩
    | with_reducible apply each_keeps
    | with_reducible apply State.dropFlight_keeps kTop kMcs kChan kEcc kBox kWr
    | with_reducible apply State.dropName_keeps kErr kHdg kPut kCop kWr
    | with_reducible apply State.freeHold_keeps kTop
    | with_reducible apply when_keeps
    | with_reducible apply State.setXor_keeps kEcc
    | with_reducible apply State.copCancel_keeps kCop
    | dsimp only
    | split
    | intro _

theorem State.buildFail_keeps {P : State → Prop} (kErr : KErr P) (kHdg : KHdg P) (kPut : KPut P) (kCop : KCop P) (kTop : KTop P) (kMcs : KMcs P) (kChan : KChan P) (kEcc : KEcc P) (kBox : KBox P) (kWr : KWr P) (s : State) (w k : Nat) (x : XorOp) (record : Bool) (hP : P s) :
 P (State.buildFail s w k x record) := by
  unfold State.buildFail
  repeat' first
    | with_reducible assumption
    | exact rfl
    | exact fun _ => ⟨rfl, rfl, rfl⟩
    | with_reducible apply State.err1_keeps kErr kWr
    | with_reducible apply State.freeXor_keeps kErr kHdg kPut kCop kTop kMcs kChan kEcc kBox kWr
    | with_reducible apply when_keeps
    | with_reducible apply State.bump_keeps kWr
    | dsimp only
    | split
    | intro _

theorem State.openBuild_keeps {P : State → Prop} (kErr : KErr P) (kCop : KCop P) (kTop : KTop P) (kEcc : KEcc P) (kHly : KHly P) (kWr : KWr P) (kDrawn : KDrawn P) (s : State) (w k desc : Nat) (hP : P s) :
 P (State.openBuild s w k desc) := by
  unfold State.openBuild
  repeat' first
    | with_reducible assumption
    | exact rfl
    | exact fun _ => ⟨rfl, rfl, rfl⟩
    | with_reducible apply State.stripeBad_keeps kErr kWr
    | with_reducible apply State.err1_keeps kErr kWr
    | with_reducible apply State.startMembers_keeps kTop kEcc kHly kWr
    | with_reducible apply State.copWant_keeps kCop
    | with_reducible apply State.bump_keeps kWr
    | with_reducible apply State.setXor_keeps kEcc
    | with_reducible apply State.readStripe_keeps kErr kWr kDrawn
    | with_reducible refine State.readStripe_keeps' kErr kWr kDrawn ‹_ = (_, _)› ?_
    | dsimp only
    | split
    | intro _

theorem State.xorNext_keeps {P : State → Prop} (kErr : KErr P) (kCop : KCop P) (kTop : KTop P) (kEcc : KEcc P) (kHly : KHly P) (kWr : KWr P) (kDrawn : KDrawn P) (s : State) (w : Nat) (hP : P s) :
 P (State.xorNext s w) := by
  unfold State.xorNext
  repeat' first
    | with_reducible assumption
    | exact rfl
    | exact fun _ => ⟨rfl, rfl, rfl⟩
    | with_reducible apply State.openBuild_keeps kErr kCop kTop kEcc kHly kWr kDrawn
    | with_reducible apply each_keeps
    | with_reducible apply State.wantRebuild_keeps kEcc kHly
    | with_reducible apply kEcc
    | dsimp only
    | split
    | intro _

theorem State.rebuildFail_keeps {P : State → Prop} (kErr : KErr P) (kHdg : KHdg P) (kPut : KPut P) (kCop : KCop P) (kTop : KTop P) (kMcs : KMcs P) (kChan : KChan P) (kEcc : KEcc P) (kJnp : KJnp P) (kBox : KBox P) (kHly : KHly P) (kWr : KWr P) (kDrawn : KDrawn P) (s : State) (w k : Nat) (x : XorOp) (hP : P s) :
 P (State.rebuildFail s w k x) := by
  unfold State.rebuildFail
  repeat' first
    | with_reducible assumption
    | exact rfl
    | exact fun _ => ⟨rfl, rfl, rfl⟩
    | with_reducible apply State.xorNext_keeps kErr kCop kTop kEcc kHly kWr kDrawn
    | with_reducible apply State.freeXor_keeps kErr kHdg kPut kCop kTop kMcs kChan kEcc kBox kWr
    | with_reducible apply each_keeps
    | with_reducible apply State.runOut_keeps kErr kHdg kPut kEcc kJnp kHly kWr kDrawn
    | with_reducible apply State.bump_keeps kWr
    | dsimp only
    | split
    | intro _

theorem State.rebuildEnd27_keeps {P : State → Prop} (kErr : KErr P) (kHdg : KHdg P) (kPut : KPut P) (kCop : KCop P) (kTop : KTop P) (kMcs : KMcs P) (kChan : KChan P) (kEcc : KEcc P) (kJnp : KJnp P) (kBox : KBox P) (kHly : KHly P) (kWr : KWr P) (kDrawn : KDrawn P) (s : State) (w k : Nat) (x : XorOp) (hP : P s) :
 P (State.rebuildEnd27 s w k x) := by
  unfold State.rebuildEnd27
  repeat' first
    | with_reducible assumption
    | exact rfl
    | exact fun _ => ⟨rfl, rfl, rfl⟩
    | with_reducible apply each_keeps
    | with_reducible apply State.checkFrame_keeps kErr kHdg kPut kTop kEcc kJnp kHly kWr kDrawn
    | with_reducible apply State.err1_keeps kErr kWr
    | with_reducible apply State.xorNext_keeps kErr kCop kTop kEcc kHly kWr kDrawn
    | with_reducible apply State.freeXor_keeps kErr kHdg kPut kCop kTop kMcs kChan kEcc kBox kWr
    | with_reducible apply State.runOut_keeps kErr kHdg kPut kEcc kJnp kHly kWr kDrawn
    | with_reducible apply State.bump_keeps kWr
    | dsimp only
    | split
    | intro _

theorem State.rebuildAnswer_keeps {P : State → Prop} (kErr : KErr P) (kHdg : KHdg P) (kPut : KPut P) (kCop : KCop P) (kTop : KTop P) (kMcs : KMcs P) (kChan : KChan P) (kEcc : KEcc P) (kJnp : KJnp P) (kBox : KBox P) (kHly : KHly P) (kWr : KWr P) (kDrawn : KDrawn P) (s : State) (w k : Nat) (x : XorOp) (desc : Option Nat) (hP : P s) :
 P (State.rebuildAnswer s w k x desc) := by
  unfold State.rebuildAnswer
  repeat' first
    | with_reducible assumption
    | exact rfl
    | exact fun _ => ⟨rfl, rfl, rfl⟩
    | with_reducible apply State.stripeBad_keeps kErr kWr
    | with_reducible apply State.startMembers_keeps kTop kEcc kHly kWr
    | with_reducible apply State.rebuildFail_keeps kErr kHdg kPut kCop kTop kMcs kChan kEcc kJnp kBox kHly kWr kDrawn
    | with_reducible apply State.setXor_keeps kEcc
    | with_reducible apply State.readStripe_keeps kErr kWr kDrawn
    | with_reducible refine State.readStripe_keeps' kErr kWr kDrawn ‹_ = (_, _)› ?_
    | dsimp only
    | split
    | intro _

theorem State.programParity_keeps {P : State → Prop} (kErr : KErr P) (kHdg : KHdg P) (kPut : KPut P) (kCop : KCop P) (kTop : KTop P) (kMcs : KMcs P) (kChan : KChan P) (kEcc : KEcc P) (kBox : KBox P) (kHly : KHly P) (kWr : KWr P) (kDrawn : KDrawn P) (s : State) (w k : Nat) (x : XorOp) (hP : P s) :
 P (State.programParity s w k x) := by
  unfold State.programParity
  repeat' first
    | with_reducible assumption
    | exact rfl
    | exact fun _ => ⟨rfl, rfl, rfl⟩
    | with_reducible apply State.xorNext_keeps kErr kCop kTop kEcc kHly kWr kDrawn
    | with_reducible apply State.buildFail_keeps kErr kHdg kPut kCop kTop kMcs kChan kEcc kBox kWr
    | with_reducible apply State.onXor_keeps kEcc
    | with_reducible apply State.addPFrame_keeps kTop kWr
    | dsimp only
    | split
    | intro _

theorem State.memberFrame_keeps {P : State → Prop} (kErr : KErr P) (kTop : KTop P) (kEcc : KEcc P) (kHly : KHly P) (kWr : KWr P) (kDrawn : KDrawn P) (s : State) (w k : Nat) (x : XorOp) (e : Nat) (hP : P s) :
 P (State.memberFrame s w k x e).2 := by
  unfold State.memberFrame
  repeat' first
    | with_reducible assumption
    | exact rfl
    | exact fun _ => ⟨rfl, rfl, rfl⟩
    | with_reducible apply State.delFlight_keeps kEcc
    | with_reducible apply State.readMember_keeps kTop kEcc kHly kWr
    | with_reducible apply State.takeHeld_keeps kErr kWr kDrawn
    | with_reducible refine State.takeHeld_keeps' kErr kWr kDrawn ‹_ = (_, _)› ?_
    | dsimp only
    | split
    | intro _

theorem State.memberFrame_keeps' {P : State → Prop} (kErr : KErr P) (kTop : KTop P) (kEcc : KEcc P) (kHly : KHly P) (kWr : KWr P) (kDrawn : KDrawn P) {s : State} {w k : Nat} {x : XorOp} {e : Nat} {x0 : Option (Option (List Byte))} {t : State}
    (hE : State.memberFrame s w k x e = (x0, t)) (hP : P s)  : P t := by
  have h := State.memberFrame_keeps kErr kTop kEcc kHly kWr kDrawn s w k x e hP
  rw [hE] at h
  exact h

theorem State.memberArrive_keeps {P : State → Prop} (kErr : KErr P) (kQue : KQue P) (kHdg : KHdg P) (kPut : KPut P) (kCop : KCop P) (kTop : KTop P) (kMcs : KMcs P) (kChan : KChan P) (kEcc : KEcc P) (kJnp : KJnp P) (kBox : KBox P) (kHly : KHly P) (kWr : KWr P) (kDrawn : KDrawn P) (s : State) (w k : Nat) (x : XorOp) (e : Nat) (hP : P s) :
 P (State.memberArrive s w k x e) := by
  unfold State.memberArrive
  repeat' first
    | with_reducible assumption
    | exact rfl
    | exact fun _ => ⟨rfl, rfl, rfl⟩
    | with_reducible apply State.energy_keeps kQue kBox kWr
    | with_reducible apply State.rebuildEnd27_keeps kErr kHdg kPut kCop kTop kMcs kChan kEcc kJnp kBox kHly kWr kDrawn
    | with_reducible apply State.xorNext_keeps kErr kCop kTop kEcc kHly kWr kDrawn
    | with_reducible apply State.buildFail_keeps kErr kHdg kPut kCop kTop kMcs kChan kEcc kBox kWr
    | with_reducible apply State.freeHold_keeps kTop
    | with_reducible apply State.hWrite_keeps kErr kHdg kPut kWr
    | with_reducible apply State.programParity_keeps kErr kHdg kPut kCop kTop kMcs kChan kEcc kBox kHly kWr kDrawn
    | with_reducible apply State.rebuildFail_keeps kErr kHdg kPut kCop kTop kMcs kChan kEcc kJnp kBox kHly kWr kDrawn
    | with_reducible apply when_keeps
    | with_reducible apply State.setXor_keeps kEcc
    | with_reducible apply State.memberFrame_keeps kErr kTop kEcc kHly kWr kDrawn
    | with_reducible refine State.memberFrame_keeps' kErr kTop kEcc kHly kWr kDrawn ‹_ = (_, _)› ?_
    | dsimp only
    | split
    | intro _

theorem State.buildEnd_keeps {P : State → Prop} (kErr : KErr P) (kHdg : KHdg P) (kPut : KPut P) (kCop : KCop P) (kTop : KTop P) (kMcs : KMcs P) (kChan : KChan P) (kEcc : KEcc P) (kBox : KBox P) (kHly : KHly P) (kWr : KWr P) (kDrawn : KDrawn P) (s : State) (w k : Nat) (x : XorOp) (hP : P s) :
 P (State.buildEnd s w k x) := by
  unfold State.buildEnd
  repeat' first
    | with_reducible assumption
    | exact rfl
    | exact fun _ => ⟨rfl, rfl, rfl⟩
    | with_reducible apply State.xorNext_keeps kErr kCop kTop kEcc kHly kWr kDrawn
    | with_reducible apply State.buildFail_keeps kErr kHdg kPut kCop kTop kMcs kChan kEcc kBox kWr
    | with_reducible apply State.freeXor_keeps kErr kHdg kPut kCop kTop kMcs kChan kEcc kBox kWr
    | with_reducible apply State.bump_keeps kWr
    | dsimp only
    | split
    | intro _

theorem execHardDecodeDone_keeps {P : State → Prop} (kErr : KErr P) (kQue : KQue P) (kHdg : KHdg P) (kPut : KPut P) (kCop : KCop P) (kMap : KMap P) (kTop : KTop P) (kMcs : KMcs P) (kChan : KChan P) (kEcc : KEcc P) (kJnp : KJnp P) (kBox : KBox P) (kYew : KYew P) (kHly : KHly P) (kSys : KSys P) (kWr : KWr P) (kDrawn : KDrawn P) (kDeliv : KDeliv P) (ch : Fin 8) (r : DecodeRes) (s : State) (hP : P s) :
    Out.All P (execHardDecodeDone ch r s) := by
  unfold execHardDecodeDone
  repeat' first
    | with_reducible apply Out.all_next
    | exact trivial
    | with_reducible assumption
    | exact rfl
    | exact fun _ => ⟨rfl, rfl, rfl⟩
    | with_reducible apply State.spent_keeps kDrawn
    | with_reducible apply State.hardEnd_keeps kErr kQue kHdg kPut kTop kEcc kJnp kBox kHly kWr kDrawn
    | with_reducible apply State.delFlight_keeps kEcc
    | with_reducible apply State.decoded_keeps kErr kQue kHdg kPut kCop kMap kTop kMcs kChan kEcc kJnp kBox kYew kHly kSys kWr kDrawn kDeliv
    | dsimp only
    | split
    | intro _

theorem execSoftSampleReserve_keeps {P : State → Prop} (kTop : KTop P) (kEcc : KEcc P) (kWr : KWr P) (wing : Fin 2) (s : State) (hP : P s) :
    Out.All P (execSoftSampleReserve wing s) := by
  unfold execSoftSampleReserve
  repeat' first
    | with_reducible apply Out.all_next
    | exact trivial
    | with_reducible assumption
    | exact rfl
    | exact fun _ => ⟨rfl, rfl, rfl⟩
    | with_reducible apply State.reserveSample_keeps kTop kEcc kWr
    | dsimp only
    | split
    | intro _

theorem execSoftDecodeDone_keeps {P : State → Prop} (kErr : KErr P) (kQue : KQue P) (kHdg : KHdg P) (kPut : KPut P) (kCop : KCop P) (kMap : KMap P) (kTop : KTop P) (kMcs : KMcs P) (kChan : KChan P) (kEcc : KEcc P) (kJnp : KJnp P) (kBox : KBox P) (kYew : KYew P) (kHly : KHly P) (kSys : KSys P) (kWr : KWr P) (kDrawn : KDrawn P) (kDeliv : KDeliv P) (wing : Fin 2) (r : DecodeRes) (s : State) (hP : P s) :
    Out.All P (execSoftDecodeDone wing r s) := by
  unfold execSoftDecodeDone
  repeat' first
    | with_reducible apply Out.all_next
    | exact trivial
    | with_reducible assumption
    | exact rfl
    | exact fun _ => ⟨rfl, rfl, rfl⟩
    | with_reducible apply State.spent_keeps kDrawn
    | with_reducible apply State.softEnd_keeps kErr kQue kHdg kPut kTop kEcc kJnp kBox kHly kWr kDrawn
    | with_reducible apply State.delFlight_keeps kEcc
    | with_reducible apply State.decoded_keeps kErr kQue kHdg kPut kCop kMap kTop kMcs kChan kEcc kJnp kBox kYew kHly kSys kWr kDrawn kDeliv
    | dsimp only
    | split
    | intro _

theorem execXorBuild_keeps {P : State → Prop} (kErr : KErr P) (kQue : KQue P) (kHdg : KHdg P) (kPut : KPut P) (kCop : KCop P) (kMap : KMap P) (kTop : KTop P) (kMcs : KMcs P) (kChan : KChan P) (kEcc : KEcc P) (kJnp : KJnp P) (kBox : KBox P) (kYew : KYew P) (kHly : KHly P) (kSys : KSys P) (kWr : KWr P) (kDrawn : KDrawn P) (kDeliv : KDeliv P) (wing : Fin 2) (desc : Nat) (s : State) (hP : P s) :
    Out.All P (execXorBuild wing desc s) := by
  unfold execXorBuild
  repeat' first
    | with_reducible apply Out.all_next
    | exact trivial
    | with_reducible assumption
    | exact rfl
    | exact fun _ => ⟨rfl, rfl, rfl⟩
    | with_reducible apply State.settle_keeps kErr kQue kHdg kPut kCop kMap kTop kMcs kChan kEcc kJnp kBox kYew kHly kSys kWr kDrawn kDeliv
    | with_reducible apply kEcc
    | with_reducible apply State.xorNext_keeps kErr kCop kTop kEcc kHly kWr kDrawn
    | dsimp only
    | split
    | intro _

theorem execRebuildAnswer_keeps {P : State → Prop} (kErr : KErr P) (kQue : KQue P) (kHdg : KHdg P) (kPut : KPut P) (kCop : KCop P) (kMap : KMap P) (kTop : KTop P) (kMcs : KMcs P) (kChan : KChan P) (kEcc : KEcc P) (kJnp : KJnp P) (kBox : KBox P) (kYew : KYew P) (kHly : KHly P) (kSys : KSys P) (kWr : KWr P) (kDrawn : KDrawn P) (kDeliv : KDeliv P) (wing : Fin 2) (slot : Fin 4) (desc : Option Nat) (s : State) (hP : P s) :
    Out.All P (execRebuildAnswer wing slot desc s) := by
  unfold execRebuildAnswer
  repeat' first
    | with_reducible apply Out.all_next
    | exact trivial
    | with_reducible assumption
    | exact rfl
    | exact fun _ => ⟨rfl, rfl, rfl⟩
    | with_reducible apply State.settle_keeps kErr kQue kHdg kPut kCop kMap kTop kMcs kChan kEcc kJnp kBox kYew kHly kSys kWr kDrawn kDeliv
    | with_reducible apply State.rebuildAnswer_keeps kErr kHdg kPut kCop kTop kMcs kChan kEcc kJnp kBox kHly kWr kDrawn
    | dsimp only
    | split
    | intro _

theorem execRebuildAnswerTimeout_keeps {P : State → Prop} (kErr : KErr P) (kQue : KQue P) (kHdg : KHdg P) (kPut : KPut P) (kCop : KCop P) (kMap : KMap P) (kTop : KTop P) (kMcs : KMcs P) (kChan : KChan P) (kEcc : KEcc P) (kJnp : KJnp P) (kBox : KBox P) (kYew : KYew P) (kHly : KHly P) (kSys : KSys P) (kWr : KWr P) (kDrawn : KDrawn P) (kDeliv : KDeliv P) (wing : Fin 2) (slot : Fin 4) (s : State) (hP : P s) :
    Out.All P (execRebuildAnswerTimeout wing slot s) := by
  unfold execRebuildAnswerTimeout
  repeat' first
    | with_reducible apply Out.all_next
    | exact trivial
    | with_reducible assumption
    | exact rfl
    | exact fun _ => ⟨rfl, rfl, rfl⟩
    | with_reducible apply State.settle_keeps kErr kQue kHdg kPut kCop kMap kTop kMcs kChan kEcc kJnp kBox kYew kHly kSys kWr kDrawn kDeliv
    | with_reducible apply State.rebuildFail_keeps kErr kHdg kPut kCop kTop kMcs kChan kEcc kJnp kBox kHly kWr kDrawn
    | dsimp only
    | split
    | intro _

theorem execXorMemberArrive_keeps {P : State → Prop} (kErr : KErr P) (kQue : KQue P) (kHdg : KHdg P) (kPut : KPut P) (kCop : KCop P) (kMap : KMap P) (kTop : KTop P) (kMcs : KMcs P) (kChan : KChan P) (kEcc : KEcc P) (kJnp : KJnp P) (kBox : KBox P) (kYew : KYew P) (kHly : KHly P) (kSys : KSys P) (kWr : KWr P) (kDrawn : KDrawn P) (kDeliv : KDeliv P) (wing : Fin 2) (slot : Fin 4) (entry : Nat) (s : State) (hP : P s) :
    Out.All P (execXorMemberArrive wing slot entry s) := by
  unfold execXorMemberArrive
  repeat' first
    | with_reducible apply Out.all_next
    | exact trivial
    | with_reducible assumption
    | exact rfl
    | exact fun _ => ⟨rfl, rfl, rfl⟩
    | with_reducible apply State.settle_keeps kErr kQue kHdg kPut kCop kMap kTop kMcs kChan kEcc kJnp kBox kYew kHly kSys kWr kDrawn kDeliv
    | with_reducible apply State.memberArrive_keeps kErr kQue kHdg kPut kCop kTop kMcs kChan kEcc kJnp kBox kHly kWr kDrawn
    | dsimp only
    | split
    | intro _

theorem execBuildDone_keeps {P : State → Prop} (kErr : KErr P) (kQue : KQue P) (kHdg : KHdg P) (kPut : KPut P) (kCop : KCop P) (kMap : KMap P) (kTop : KTop P) (kMcs : KMcs P) (kChan : KChan P) (kEcc : KEcc P) (kJnp : KJnp P) (kBox : KBox P) (kYew : KYew P) (kHly : KHly P) (kSys : KSys P) (kWr : KWr P) (kDrawn : KDrawn P) (kDeliv : KDeliv P) (wing : Fin 2) (slot : Fin 4) (s : State) (hP : P s) :
    Out.All P (execBuildDone wing slot s) := by
  unfold execBuildDone
  repeat' first
    | with_reducible apply Out.all_next
    | exact trivial
    | with_reducible assumption
    | exact rfl
    | exact fun _ => ⟨rfl, rfl, rfl⟩
    | with_reducible apply State.settle_keeps kErr kQue kHdg kPut kCop kMap kTop kMcs kChan kEcc kJnp kBox kYew kHly kSys kWr kDrawn kDeliv
    | with_reducible apply State.buildEnd_keeps kErr kHdg kPut kCop kTop kMcs kChan kEcc kBox kHly kWr kDrawn
    | dsimp only
    | split
    | intro _

end Sys2Proof.Machine
end

