-- ==== Sys2Proof/Laws/KeepsStore.lean ====
section
/-!
SUPPORT. What the operations of Machine/Store.lean can do: each one keeps every property of a state that its own primitive
updates keep. The hypotheses of a lemma name every unit the operation can reach.
-/
namespace Sys2Proof.Machine

theorem State.rgnRefuse_keeps {P : State → Prop} (kWr : KWr P) (s : State) (k reason : Nat) (hP : P s) :
 P (State.rgnRefuse s k reason) := by
  unfold State.rgnRefuse
  repeat' first
    | with_reducible assumption
    | exact rfl
    | exact fun _ => ⟨rfl, rfl, rfl⟩
    | with_reducible apply State.setb_keeps kWr
    | with_reducible apply kWr
    | dsimp only
    | split
    | intro _

theorem State.rgnWrite_keeps {P : State → Prop} (kHdg : KHdg P) (kTop : KTop P) (kWr : KWr P) (s : State) (k v : Nat) (hP : P s) :
 P (State.rgnWrite s k v) := by
  unfold State.rgnWrite
  repeat' first
    | with_reducible assumption
    | exact rfl
    | exact fun _ => ⟨rfl, rfl, rfl⟩
    | with_reducible apply State.wantLease_keeps kTop
    | with_reducible apply State.rgnRefuse_keeps kWr
    | with_reducible apply kHdg
    | with_reducible apply State.setb_keeps kWr
    | with_reducible apply when_keeps
    | with_reducible apply kWr
    | dsimp only
    | split
    | intro _

theorem State.rgnEnd_keeps {P : State → Prop} (kHdg : KHdg P) (kTop : KTop P) (kWr : KWr P) (s : State) (k : Nat) (hP : P s) :
 P (State.rgnEnd s k) := by
  unfold State.rgnEnd
  repeat' first
    | with_reducible assumption
    | exact rfl
    | exact fun _ => ⟨rfl, rfl, rfl⟩
    | with_reducible apply State.dropLease_keeps kTop kWr
    | with_reducible apply kHdg
    | with_reducible apply kWr
    | dsimp only
    | split
    | intro _

theorem State.rgnStart_keeps {P : State → Prop} (kHdg : KHdg P) (kTop : KTop P) (kWr : KWr P) (s : State) (k : Nat) (hP : P s) :
 P (State.rgnStart s k) := by
  unfold State.rgnStart
  repeat' first
    | with_reducible assumption
    | exact rfl
    | exact fun _ => ⟨rfl, rfl, rfl⟩
    | with_reducible apply State.rgnRefuse_keeps kWr
    | with_reducible apply State.rgnEnd_keeps kHdg kTop kWr
    | with_reducible apply kHdg
    | dsimp only
    | split
    | intro _

theorem State.strandWalk_keeps {P : State → Prop} (kErr : KErr P) (kWr : KWr P) (kDrawn : KDrawn P) (k : Nat) (a0 : Nat) (a1 : Option Nat) (a2 : State) (hP : P a2) :
 P (State.strandWalk k a0 a1 a2).2.2 := by
  induction a0 generalizing a2 a1 with
  | zero => exact hP
  | succ n ih =>
    cases a1 with
    | none => exact hP
    | some i =>
      unfold State.strandWalk
      split
      · exact State.readLink_keeps' kErr kWr kDrawn ‹_› hP
      · exact ih _ _ (State.readLink_keeps' kErr kWr kDrawn ‹_› hP)

theorem State.strandWalk_keeps' {P : State → Prop} (kErr : KErr P) (kWr : KWr P) (kDrawn : KDrawn P) {k : Nat} {a0 : Nat} {a1 : Option Nat} {a2 : State} {x0 : List Nat} {x1 : Option Nat} {t : State}
    (hE : State.strandWalk k a0 a1 a2 = (x0, x1, t)) (hP : P a2)  : P t := by
  have h := State.strandWalk_keeps kErr kWr kDrawn k a0 a1 a2 hP
  rw [hE] at h
  exact h

theorem State.relink_keeps {P : State → Prop} (kErr : KErr P) (kHdg : KHdg P) (kPut : KPut P) (kWr : KWr P) (s : State) (k : Nat) (old kept : List Nat) (hP : P s) :
 P (State.relink s k old kept) := by
  unfold State.relink
  repeat' first
    | with_reducible assumption
    | exact rfl
    | exact fun _ => ⟨rfl, rfl, rfl⟩
    | with_reducible apply State.hWrite_keeps kErr kHdg kPut kWr
    | with_reducible apply each_keeps
    | dsimp only
    | split
    | intro _

theorem State.strandDrop_keeps {P : State → Prop} (kErr : KErr P) (kHdg : KHdg P) (kPut : KPut P) (kCop : KCop P) (kWr : KWr P) (kDrawn : KDrawn P) (s : State) (r k : Nat) (hP : P s) :
 P (State.strandDrop s r k) := by
  unfold State.strandDrop
  repeat' first
    | with_reducible assumption
    | exact rfl
    | exact fun _ => ⟨rfl, rfl, rfl⟩
    | with_reducible apply State.linkFault_keeps kErr kCop kWr
    | with_reducible apply kCop
    | with_reducible apply State.relink_keeps kErr kHdg kPut kWr
    | with_reducible apply State.strandWalk_keeps kErr kWr kDrawn
    | with_reducible refine State.strandWalk_keeps' kErr kWr kDrawn ‹_ = (_, _, _)› ?_
    | dsimp only
    | split
    | intro _

theorem State.poolWithdraw_keeps {P : State → Prop} (kErr : KErr P) (kHdg : KHdg P) (kPut : KPut P) (kCop : KCop P) (kWr : KWr P) (kDrawn : KDrawn P) (s : State) (k : Nat) (hP : P s) :
 P (State.poolWithdraw s k) := by
  unfold State.poolWithdraw
  repeat' first
    | with_reducible assumption
    | exact rfl
    | exact fun _ => ⟨rfl, rfl, rfl⟩
    | with_reducible apply each_keeps
    | with_reducible apply State.copLow_keeps kWr
    | with_reducible apply State.strandDrop_keeps kErr kHdg kPut kCop kWr kDrawn
    | with_reducible apply kCop
    | with_reducible apply kHdg
    | dsimp only
    | split
    | intro _

theorem State.poolThread_keeps {P : State → Prop} (kErr : KErr P) (kHdg : KHdg P) (kPut : KPut P) (kCop : KCop P) (kWr : KWr P) (s : State) (k : Nat) (hP : P s) :
 P (State.poolThread s k) := by
  unfold State.poolThread
  repeat' first
    | with_reducible assumption
    | exact rfl
    | exact fun _ => ⟨rfl, rfl, rfl⟩
    | with_reducible apply each_keeps
    | with_reducible apply kCop
    | with_reducible apply State.copPush_keeps kErr kHdg kPut kCop kWr
    | dsimp only
    | split
    | intro _

theorem State.rgnReinit_keeps {P : State → Prop} (kHdg : KHdg P) (kClear : KClear P) (kWr : KWr P) (s : State) (k : Nat) (c : RgnChg) (hP : P s) :
 P (State.rgnReinit s k c) := by
  unfold State.rgnReinit
  repeat' first
    | with_reducible assumption
    | exact rfl
    | exact fun _ => ⟨rfl, rfl, rfl⟩
    | with_reducible apply State.hZeroRegion_keeps kHdg kClear kWr
    | with_reducible apply kClear
    | with_reducible apply State.hInject_keeps kHdg kWr
    | with_reducible apply kHdg
    | with_reducible apply when_keeps
    | dsimp only
    | split
    | intro _

theorem State.rgnDone_keeps {P : State → Prop} (kErr : KErr P) (kHdg : KHdg P) (kPut : KPut P) (kClear : KClear P) (kCop : KCop P) (kMap : KMap P) (kTop : KTop P) (kWr : KWr P) (s : State) (k : Nat) (hP : P s) :
 P (State.rgnDone s k) := by
  unfold State.rgnDone
  repeat' first
    | with_reducible assumption
    | exact rfl
    | exact fun _ => ⟨rfl, rfl, rfl⟩
    | with_reducible apply State.poolThread_keeps kErr kHdg kPut kCop kWr
    | with_reducible apply kMap
    | with_reducible apply State.rgnEnd_keeps kHdg kTop kWr
    | with_reducible apply when_keeps
    | with_reducible apply kWr
    | with_reducible apply State.rgnReinit_keeps kHdg kClear kWr
    | dsimp only
    | split
    | intro _

theorem State.walkLine_keeps {P : State → Prop} (kErr : KErr P) (kWr : KWr P) (kDrawn : KDrawn P) (s : State) (a : Nat) (hP : P s) :
 P (State.walkLine s a).2.2 := by
  unfold State.walkLine
  have h := each_keeps (P := P) (s.each ((s.hUnits a 32).filter fun u => s.hChk u == .corrected)
      fun s u => s.hCorrected u true) ((s.hUnits a 32).filter fun u => s.hChk u == .unc) (fun s u => s.hUnc u true)
      (fun s u _ h => State.hUnc_keeps kWr _ _ _ h)
      (each_keeps _ _ _ (fun s u _ h => State.hCorrected_keeps kErr kWr _ _ _ h) hP)
  dsimp only
  split
  · exact kDrawn _ _ h
  · exact h

theorem State.walkLine_keeps' {P : State → Prop} (kErr : KErr P) (kWr : KWr P) (kDrawn : KDrawn P) {s : State} {a : Nat} {x0 : List Nat} {x1 : List Nat} {t : State}
    (hE : State.walkLine s a = (x0, x1, t)) (hP : P s)  : P t := by
  have h := State.walkLine_keeps kErr kWr kDrawn s a hP
  rw [hE] at h
  exact h

theorem State.fixLine_keeps {P : State → Prop} (kHdg : KHdg P) (kPut : KPut P) (kWr : KWr P) (s : State) (a : Nat) (hP : P s) :
 P (State.fixLine s a).2 := by
  unfold State.fixLine
  repeat' first
    | with_reducible assumption
    | exact rfl
    | exact fun _ => ⟨rfl, rfl, rfl⟩
    | with_reducible apply State.hInject_keeps kHdg kWr
    | with_reducible apply State.bump_keeps kWr
    | with_reducible apply when_keeps
    | with_reducible apply each_keeps
    | with_reducible apply kPut
    | with_reducible apply State.hSetMark_keeps kHdg
    | dsimp only
    | split
    | intro _

theorem State.fixLine_keeps' {P : State → Prop} (kHdg : KHdg P) (kPut : KPut P) (kWr : KWr P) {s : State} {a : Nat} {x0 : Nat} {t : State}
    (hE : State.fixLine s a = (x0, t)) (hP : P s)  : P t := by
  have h := State.fixLine_keeps kHdg kPut kWr s a hP
  rw [hE] at h
  exact h

theorem State.walkUnc_keeps {P : State → Prop} (kErr : KErr P) (kWr : KWr P) (s : State) (un : List Nat) (seen : Bool) (hP : P s) :
 P (State.walkUnc s un seen) := by
  unfold State.walkUnc
  repeat' first
    | with_reducible assumption
    | exact rfl
    | exact fun _ => ⟨rfl, rfl, rfl⟩
    | with_reducible apply State.err1_keeps kErr kWr
    | dsimp only
    | split
    | intro _

theorem State.gorseAt_keeps {P : State → Prop} (kWr : KWr P) (s : State) (r line : Nat) (hP : P s) :
 P (State.gorseAt s r line) := by
  unfold State.gorseAt
  repeat' first
    | with_reducible assumption
    | exact rfl
    | exact fun _ => ⟨rfl, rfl, rfl⟩
    | with_reducible apply kWr
    | dsimp only
    | split
    | intro _

theorem State.lapEnd_keeps {P : State → Prop} (kHdg : KHdg P) (kWr : KWr P) (s : State) (hP : P s) :
 P (State.lapEnd s) := by
  unfold State.lapEnd
  repeat' first
    | with_reducible assumption
    | exact rfl
    | exact fun _ => ⟨rfl, rfl, rfl⟩
    | with_reducible apply State.gorseAt_keeps kWr
    | with_reducible apply State.bump_keeps kWr
    | with_reducible apply kHdg
    | with_reducible apply kWr
    | dsimp only
    | split
    | intro _

theorem State.lapFlip_keeps {P : State → Prop} (kHdg : KHdg P) (s : State) (hP : P s) :
 P (State.lapFlip s) := by
  unfold State.lapFlip
  repeat' first
    | with_reducible assumption
    | exact rfl
    | exact fun _ => ⟨rfl, rfl, rfl⟩
    | with_reducible apply kHdg
    | dsimp only
    | split
    | intro _

theorem State.lapWarn_keeps {P : State → Prop} (kHdg : KHdg P) (kWr : KWr P) (s : State) (hP : P s) :
 P (State.lapWarn s) := by
  unfold State.lapWarn
  repeat' first
    | with_reducible assumption
    | exact rfl
    | exact fun _ => ⟨rfl, rfl, rfl⟩
    | with_reducible apply kHdg
    | with_reducible apply State.setb_keeps kWr
    | dsimp only
    | split
    | intro _

theorem State.gorseAsk_keeps {P : State → Prop} (kTop : KTop P) (kWr : KWr P) (s : State) (x : Nat × Nat) (hP : P s) :
 P (State.gorseAsk s x) := by
  unfold State.gorseAsk
  repeat' first
    | with_reducible assumption
    | exact rfl
    | exact fun _ => ⟨rfl, rfl, rfl⟩
    | with_reducible apply State.wantLease_keeps kTop
    | with_reducible apply State.setb_keeps kWr
    | with_reducible apply State.gorseAt_keeps kWr
    | dsimp only
    | split
    | intro _

theorem State.gorseSeek_keeps {P : State → Prop} (kHdg : KHdg P) (kTop : KTop P) (kWr : KWr P) (s : State) (hP : P s) :
 P (State.gorseSeek s) := by
  unfold State.gorseSeek
  repeat' first
    | with_reducible assumption
    | exact rfl
    | exact fun _ => ⟨rfl, rfl, rfl⟩
    | with_reducible apply State.lapEnd_keeps kHdg kWr
    | with_reducible apply State.gorseAsk_keeps kTop kWr
    | dsimp only
    | split
    | intro _

theorem State.gorseStop_keeps {P : State → Prop} (kTop : KTop P) (kWr : KWr P) (s : State) (hP : P s) :
 P (State.gorseStop s) := by
  unfold State.gorseStop
  repeat' first
    | with_reducible assumption
    | exact rfl
    | exact fun _ => ⟨rfl, rfl, rfl⟩
    | with_reducible apply each_keeps
    | with_reducible apply State.dropLease_keeps kTop kWr
    | with_reducible apply kTop
    | with_reducible apply kWr
    | dsimp only
    | split
    | intro _

theorem State.gorseLine_keeps {P : State → Prop} (kErr : KErr P) (kHdg : KHdg P) (kWr : KWr P) (kDrawn : KDrawn P) (s : State) (r line : Nat) (hP : P s) :
 P (State.gorseLine s r line) := by
  unfold State.gorseLine
  repeat' first
    | with_reducible assumption
    | exact rfl
    | exact fun _ => ⟨rfl, rfl, rfl⟩
    | with_reducible apply State.walkUnc_keeps kErr kWr
    | with_reducible apply kHdg
    | with_reducible apply State.walkLine_keeps kErr kWr kDrawn
    | with_reducible refine State.walkLine_keeps' kErr kWr kDrawn ‹_ = (_, _, _)› ?_
    | dsimp only
    | split
    | intro _

theorem State.gorseStep_keeps {P : State → Prop} (kErr : KErr P) (kHdg : KHdg P) (kTop : KTop P) (kWr : KWr P) (kDrawn : KDrawn P) (s : State) (hP : P s) :
 P (State.gorseStep s) := by
  unfold State.gorseStep
  repeat' first
    | with_reducible assumption
    | exact rfl
    | exact fun _ => ⟨rfl, rfl, rfl⟩
    | with_reducible apply State.lapWarn_keeps kHdg kWr
    | with_reducible apply State.gorseLine_keeps kErr kHdg kWr kDrawn
    | with_reducible apply State.lapEnd_keeps kHdg kWr
    | with_reducible apply State.gorseAt_keeps kWr
    | with_reducible apply State.gorseStop_keeps kTop kWr
    | with_reducible apply State.gorseSeek_keeps kHdg kTop kWr
    | dsimp only
    | split
    | intro _

theorem State.scrubLine_keeps {P : State → Prop} (kErr : KErr P) (kHdg : KHdg P) (kPut : KPut P) (kWr : KWr P) (kDrawn : KDrawn P) (x : Nat × Nat × State) (a : Nat) (hP : P x.2.2) :
 P (State.scrubLine x a).2.2 := by
  unfold State.scrubLine
  exact State.fixLine_keeps kHdg kPut kWr _ _ (State.walkUnc_keeps kErr kWr _ _ _ (State.walkLine_keeps kErr kWr kDrawn _ _ hP))

theorem State.maintOk_keeps {P : State → Prop} (kQue : KQue P) (kHly : KHly P) (kSys : KSys P) (kWr : KWr P) (s : State) (tag result : Nat) (hP : P s) :
 P (State.maintOk s tag result) := by
  unfold State.maintOk
  repeat' first
    | with_reducible assumption
    | exact rfl
    | exact fun _ => ⟨rfl, rfl, rfl⟩
    | with_reducible apply State.onCmd_keeps kQue
    | with_reducible apply State.finishSlow_keeps kQue kHly kSys kWr
    | dsimp only
    | split
    | intro _

theorem State.scrubEnd_keeps {P : State → Prop} (kErr : KErr P) (kQue : KQue P) (kHdg : KHdg P) (kPut : KPut P) (kTop : KTop P) (kHly : KHly P) (kSys : KSys P) (kWr : KWr P) (kDrawn : KDrawn P) (s : State) (k tag : Nat) (hP : P s) :
 P (State.scrubEnd s k tag) := by
  unfold State.scrubEnd
  repeat' first
    | with_reducible assumption
    | exact rfl
    | exact fun _ => ⟨rfl, rfl, rfl⟩
    | with_reducible apply State.maintOk_keeps kQue kHly kSys kWr
    | with_reducible apply State.dropLease_keeps kTop kWr
    | with_reducible apply kHdg
    | with_reducible apply State.scrubLine_keeps kErr kHdg kPut kWr kDrawn
    | with_reducible refine State.scrubLine_keeps' kErr kHdg kPut kWr kDrawn ‹_ = (_, _, _)› ?_
    | with_reducible apply foldl_keeps
    | with_reducible apply foldl2_keeps
    | with_reducible apply foldl3_keeps
    | dsimp only
    | split
    | intro _

theorem State.selftestEnd_keeps {P : State → Prop} (kErr : KErr P) (kQue : KQue P) (kHdg : KHdg P) (kClear : KClear P) (kTop : KTop P) (kHly : KHly P) (kSys : KSys P) (kWr : KWr P) (s : State) (k tag result : Nat) (hP : P s) :
 P (State.selftestEnd s k tag result) := by
  unfold State.selftestEnd
  repeat' first
    | with_reducible assumption
    | exact rfl
    | exact fun _ => ⟨rfl, rfl, rfl⟩
    | with_reducible apply State.hZeroRegion_keeps kHdg kClear kWr
    | with_reducible apply State.err1_keeps kErr kWr
    | with_reducible apply State.maintOk_keeps kQue kHly kSys kWr
    | with_reducible apply State.dropLease_keeps kTop kWr
    | with_reducible apply kHdg
    | with_reducible apply State.setb_keeps kWr
    | with_reducible apply when_keeps
    | dsimp only
    | split
    | intro _

theorem State.allocGot_keeps {P : State → Prop} (kErr : KErr P) (kQue : KQue P) (kHdg : KHdg P) (kPut : KPut P) (kSys : KSys P) (kWr : KWr P) (s : State) (tag i : Nat) (hP : P s) :
 P (State.allocGot s tag i) := by
  unfold State.allocGot
  repeat' first
    | with_reducible assumption
    | exact rfl
    | exact fun _ => ⟨rfl, rfl, rfl⟩
    | with_reducible apply State.putHandle_keeps kErr kHdg kPut kWr
    | with_reducible apply State.onCmd_keeps kQue
    | with_reducible apply State.finish_keeps kQue kSys kWr
    | dsimp only
    | split
    | intro _

theorem State.bufGot_keeps {P : State → Prop} (kErr : KErr P) (kQue : KQue P) (kHdg : KHdg P) (kPut : KPut P) (kCop : KCop P) (kMap : KMap P) (kTop : KTop P) (kMcs : KMcs P) (kChan : KChan P) (kEcc : KEcc P) (kJnp : KJnp P) (kBox : KBox P) (kYew : KYew P) (kHly : KHly P) (kSys : KSys P) (kWr : KWr P) (kDrawn : KDrawn P) (kDeliv : KDeliv P) (s : State) (use : For) (i : Nat) (hP : P s) :
 P (State.bufGot s use i) := by
  unfold State.bufGot
  repeat' first
    | with_reducible assumption
    | exact rfl
    | exact fun _ => ⟨rfl, rfl, rfl⟩
    | with_reducible apply State.settle_keeps kErr kQue kHdg kPut kCop kMap kTop kMcs kChan kEcc kJnp kBox kYew kHly kSys kWr kDrawn kDeliv
    | with_reducible apply kEcc
    | with_reducible apply State.allocGot_keeps kErr kQue kHdg kPut kSys kWr
    | with_reducible apply State.onFrame_keeps kQue
    | dsimp only
    | split
    | intro _

theorem State.copGrant_keeps {P : State → Prop} (kErr : KErr P) (kQue : KQue P) (kHdg : KHdg P) (kPut : KPut P) (kForget : KForget P) (kCop : KCop P) (kMap : KMap P) (kTop : KTop P) (kMcs : KMcs P) (kChan : KChan P) (kEcc : KEcc P) (kJnp : KJnp P) (kBox : KBox P) (kYew : KYew P) (kHly : KHly P) (kSys : KSys P) (kWr : KWr P) (kDrawn : KDrawn P) (kDeliv : KDeliv P) (s : State) (hP : P s) :
 P (State.copGrant s) := by
  unfold State.copGrant
  repeat' first
    | with_reducible assumption
    | exact rfl
    | exact fun _ => ⟨rfl, rfl, rfl⟩
    | with_reducible apply State.copGive_keeps kForget kCop kWr
    | with_reducible apply State.copLow_keeps kWr
    | with_reducible apply State.copMark_keeps kCop
    | with_reducible apply kCop
    | with_reducible apply State.bufGot_keeps kErr kQue kHdg kPut kCop kMap kTop kMcs kChan kEcc kJnp kBox kYew kHly kSys kWr kDrawn kDeliv
    | dsimp only
    | split
    | intro _

theorem State.rebuildStart_keeps {P : State → Prop} (kCop : KCop P) (kWr : KWr P) (s : State) (hP : P s) :
 P (State.rebuildStart s) := by
  unfold State.rebuildStart
  repeat' first
    | with_reducible assumption
    | exact rfl
    | exact fun _ => ⟨rfl, rfl, rfl⟩
    | with_reducible apply State.copEmpty_keeps kCop kWr
    | with_reducible apply State.setb_keeps kWr
    | with_reducible apply State.copLow_keeps kWr
    | dsimp only
    | split
    | intro _

theorem State.poolBegin_keeps {P : State → Prop} (kWr : KWr P) (s : State) (hP : P s) :
 P (State.poolBegin s) := by
  unfold State.poolBegin
  repeat' first
    | with_reducible assumption
    | exact rfl
    | exact fun _ => ⟨rfl, rfl, rfl⟩
    | with_reducible apply State.setb_keeps kWr
    | dsimp only
    | split
    | intro _

theorem State.rebuildEnd_keeps {P : State → Prop} (kErr : KErr P) (kHdg : KHdg P) (kPut : KPut P) (kCop : KCop P) (kWr : KWr P) (s : State) (hP : P s) :
 P (State.rebuildEnd s) := by
  unfold State.rebuildEnd
  repeat' first
    | with_reducible assumption
    | exact rfl
    | exact fun _ => ⟨rfl, rfl, rfl⟩
    | with_reducible apply State.copMark_keeps kCop
    | with_reducible apply State.copEmpty_keeps kCop kWr
    | with_reducible apply State.copScan_keeps kErr kHdg kPut kCop kWr
    | with_reducible apply State.setb_keeps kWr
    | with_reducible apply kWr
    | dsimp only
    | split
    | intro _

theorem State.setQuota_keeps {P : State → Prop} (kCop : KCop P) (kWr : KWr P) (s : State) (i q : Nat) (hP : P s) :
 P (State.setQuota s i q) := by
  unfold State.setQuota
  repeat' first
    | with_reducible assumption
    | exact rfl
    | exact fun _ => ⟨rfl, rfl, rfl⟩
    | with_reducible apply State.copMark_keeps kCop
    | with_reducible apply State.setb_keeps kWr
    | with_reducible apply kWr
    | dsimp only
    | split
    | intro _

theorem execRegionChangeRequest_keeps {P : State → Prop} (kHdg : KHdg P) (kTop : KTop P) (kPwr : KPwr P) (kWr : KWr P) (kResp : KResp P) (m : Master) (k : Fin 32) (v : W32) (s : State) (hP : P s) :
    Out.All P (execRegionChangeRequest m k v s) := by
  unfold execRegionChangeRequest
  repeat' first
    | with_reducible apply Out.all_next
    | exact trivial
    | with_reducible assumption
    | exact rfl
    | exact fun _ => ⟨rfl, rfl, rfl⟩
    | with_reducible apply State.rgnWrite_keeps kHdg kTop kWr
    | with_reducible apply State.access_keeps kPwr kResp
    | dsimp only
    | split
    | intro _

theorem execPoolWithdrawDone_keeps {P : State → Prop} (kErr : KErr P) (kHdg : KHdg P) (kPut : KPut P) (kCop : KCop P) (kWr : KWr P) (kDrawn : KDrawn P) (k : Fin 32) (s : State) (hP : P s) :
    Out.All P (execPoolWithdrawDone k s) := by
  unfold execPoolWithdrawDone
  repeat' first
    | with_reducible apply Out.all_next
    | exact trivial
    | with_reducible assumption
    | exact rfl
    | exact fun _ => ⟨rfl, rfl, rfl⟩
    | with_reducible apply State.poolWithdraw_keeps kErr kHdg kPut kCop kWr kDrawn
    | dsimp only
    | split
    | intro _

theorem execRegionReinitDone_keeps {P : State → Prop} (kErr : KErr P) (kHdg : KHdg P) (kPut : KPut P) (kClear : KClear P) (kCop : KCop P) (kMap : KMap P) (kTop : KTop P) (kWr : KWr P) (k : Fin 32) (s : State) (hP : P s) :
    Out.All P (execRegionReinitDone k s) := by
  unfold execRegionReinitDone
  repeat' first
    | with_reducible apply Out.all_next
    | exact trivial
    | with_reducible assumption
    | exact rfl
    | exact fun _ => ⟨rfl, rfl, rfl⟩
    | with_reducible apply State.rgnDone_keeps kErr kHdg kPut kClear kCop kMap kTop kWr
    | dsimp only
    | split
    | intro _

theorem execGorseLineRead_keeps {P : State → Prop} (kErr : KErr P) (kHdg : KHdg P) (kTop : KTop P) (kWr : KWr P) (kDrawn : KDrawn P) (s : State) (hP : P s) :
    Out.All P (execGorseLineRead s) := by
  unfold execGorseLineRead
  repeat' first
    | with_reducible apply Out.all_next
    | exact trivial
    | with_reducible assumption
    | exact rfl
    | exact fun _ => ⟨rfl, rfl, rfl⟩
    | with_reducible apply State.gorseStep_keeps kErr kHdg kTop kWr kDrawn
    | dsimp only
    | split
    | intro _

theorem execGorseRewrite_keeps {P : State → Prop} (kHdg : KHdg P) (kPut : KPut P) (kWr : KWr P) (s : State) (hP : P s) :
    Out.All P (execGorseRewrite s) := by
  unfold execGorseRewrite
  repeat' first
    | with_reducible apply Out.all_next
    | exact trivial
    | with_reducible assumption
    | exact rfl
    | exact fun _ => ⟨rfl, rfl, rfl⟩
    | with_reducible apply kHdg
    | with_reducible apply State.fixLine_keeps kHdg kPut kWr
    | with_reducible refine State.fixLine_keeps' kHdg kPut kWr ‹_ = (_, _)› ?_
    | dsimp only
    | split
    | intro _

theorem execScrubStoreDone_keeps {P : State → Prop} (kErr : KErr P) (kQue : KQue P) (kHdg : KHdg P) (kPut : KPut P) (kTop : KTop P) (kHly : KHly P) (kSys : KSys P) (kWr : KWr P) (kDrawn : KDrawn P) (k : Fin 32) (s : State) (hP : P s) :
    Out.All P (execScrubStoreDone k s) := by
  unfold execScrubStoreDone
  repeat' first
    | with_reducible apply Out.all_next
    | exact trivial
    | with_reducible assumption
    | exact rfl
    | exact fun _ => ⟨rfl, rfl, rfl⟩
    | with_reducible apply State.scrubEnd_keeps kErr kQue kHdg kPut kTop kHly kSys kWr kDrawn
    | dsimp only
    | split
    | intro _

theorem execSelftestStoreDone_keeps {P : State → Prop} (kErr : KErr P) (kQue : KQue P) (kHdg : KHdg P) (kClear : KClear P) (kTop : KTop P) (kHly : KHly P) (kSys : KSys P) (kWr : KWr P) (k : Fin 32) (result : W32) (s : State) (hP : P s) :
    Out.All P (execSelftestStoreDone k result s) := by
  unfold execSelftestStoreDone
  repeat' first
    | with_reducible apply Out.all_next
    | exact trivial
    | with_reducible assumption
    | exact rfl
    | exact fun _ => ⟨rfl, rfl, rfl⟩
    | with_reducible apply State.selftestEnd_keeps kErr kQue kHdg kClear kTop kHly kSys kWr
    | dsimp only
    | split
    | intro _

theorem execBufferGrant_keeps {P : State → Prop} (kErr : KErr P) (kQue : KQue P) (kHdg : KHdg P) (kPut : KPut P) (kForget : KForget P) (kCop : KCop P) (kMap : KMap P) (kTop : KTop P) (kMcs : KMcs P) (kChan : KChan P) (kEcc : KEcc P) (kJnp : KJnp P) (kBox : KBox P) (kYew : KYew P) (kHly : KHly P) (kSys : KSys P) (kWr : KWr P) (kDrawn : KDrawn P) (kDeliv : KDeliv P) (s : State) (hP : P s) :
    Out.All P (execBufferGrant s) := by
  unfold execBufferGrant
  repeat' first
    | with_reducible apply Out.all_next
    | exact trivial
    | with_reducible assumption
    | exact rfl
    | exact fun _ => ⟨rfl, rfl, rfl⟩
    | with_reducible apply State.copGrant_keeps kErr kQue kHdg kPut kForget kCop kMap kTop kMcs kChan kEcc kJnp kBox kYew kHly kSys kWr kDrawn kDeliv
    | dsimp only
    | split
    | intro _

theorem execBufferFree_keeps {P : State → Prop} (kErr : KErr P) (kHdg : KHdg P) (kPut : KPut P) (kCop : KCop P) (kWr : KWr P) (req : Fin 16) (handle : W32) (s : State) (hP : P s) :
    Out.All P (execBufferFree req handle s) := by
  unfold execBufferFree
  repeat' first
    | with_reducible apply Out.all_next
    | exact trivial
    | with_reducible assumption
    | exact rfl
    | exact fun _ => ⟨rfl, rfl, rfl⟩
    | with_reducible apply State.freeOne_keeps kErr kHdg kPut kCop kWr
    | with_reducible refine State.freeOne_keeps' kErr kHdg kPut kCop kWr ‹_ = (_, _)› ?_
    | dsimp only
    | split
    | intro _

theorem execPoolPop_keeps {P : State → Prop} (kErr : KErr P) (kCop : KCop P) (kWr : KWr P) (kDrawn : KDrawn P) (s : State) (hP : P s) :
    Out.All P (execPoolPop s) := by
  unfold execPoolPop
  repeat' first
    | with_reducible apply Out.all_next
    | exact trivial
    | with_reducible assumption
    | exact rfl
    | exact fun _ => ⟨rfl, rfl, rfl⟩
    | with_reducible apply State.copPop_keeps kErr kCop kWr kDrawn
    | with_reducible apply State.copLow_keeps kWr
    | dsimp only
    | split
    | intro _

theorem execPoolRebuild_keeps {P : State → Prop} (kCop : KCop P) (kPwr : KPwr P) (kWr : KWr P) (kResp : KResp P) (m : Master) (v : W32) (s : State) (hP : P s) :
    Out.All P (execPoolRebuild m v s) := by
  unfold execPoolRebuild
  repeat' first
    | with_reducible apply Out.all_next
    | exact trivial
    | with_reducible assumption
    | exact rfl
    | exact fun _ => ⟨rfl, rfl, rfl⟩
    | with_reducible apply State.rebuildStart_keeps kCop kWr
    | with_reducible apply when_keeps
    | with_reducible apply State.access_keeps kPwr kResp
    | dsimp only
    | split
    | intro _

theorem execPoolRebuildDone_keeps {P : State → Prop} (kErr : KErr P) (kHdg : KHdg P) (kPut : KPut P) (kCop : KCop P) (kWr : KWr P) (s : State) (hP : P s) :
    Out.All P (execPoolRebuildDone s) := by
  unfold execPoolRebuildDone
  repeat' first
    | with_reducible apply Out.all_next
    | exact trivial
    | with_reducible assumption
    | exact rfl
    | exact fun _ => ⟨rfl, rfl, rfl⟩
    | with_reducible apply State.rebuildEnd_keeps kErr kHdg kPut kCop kWr
    | dsimp only
    | split
    | intro _

theorem execReserveWrite_keeps {P : State → Prop} (kCop : KCop P) (kPwr : KPwr P) (kWr : KWr P) (kResp : KResp P) (m : Master) (i : Fin 16) (v : W32) (s : State) (hP : P s) :
    Out.All P (execReserveWrite m i v s) := by
  unfold execReserveWrite
  repeat' first
    | with_reducible apply Out.all_next
    | exact trivial
    | with_reducible assumption
    | exact rfl
    | exact fun _ => ⟨rfl, rfl, rfl⟩
    | with_reducible apply State.setQuota_keeps kCop kWr
    | with_reducible apply State.access_keeps kPwr kResp
    | dsimp only
    | split
    | intro _

end Sys2Proof.Machine
end

