-- ==== Sys2Proof/Laws/KeepsMaint.lean ====
section
/-!
SUPPORT. What the operations of Machine/Maint.lean can do: each one keeps every property of a state that its own primitive
updates keep. The hypotheses of a lemma name every unit the operation can reach.
-/
namespace Sys2Proof.Machine

theorem State.wantCalibs_keeps {P : State → Prop} (kTop : KTop P) (s : State) (hP : P s) :
 P (State.wantCalibs s) := by
  unfold State.wantCalibs
  repeat' first
    | with_reducible assumption
    | exact rfl
    | exact fun _ => ⟨rfl, rfl, rfl⟩
    | with_reducible apply State.wantLease_keeps kTop
    | with_reducible apply each_keeps
    | dsimp only
    | split
    | intro _

theorem State.maintDefer_keeps {P : State → Prop} (kQue : KQue P) (kHly : KHly P) (kSys : KSys P) (kWr : KWr P) (s : State) (tag cause : Nat) (r : Nat × Nat) (hP : P s) :
 P (State.maintDefer s tag cause r) := by
  unfold State.maintDefer
  repeat' first
    | with_reducible assumption
    | exact rfl
    | exact fun _ => ⟨rfl, rfl, rfl⟩
    | with_reducible apply State.finishSlow_keeps kQue kHly kSys kWr
    | dsimp only
    | split
    | intro _

theorem State.maintLease_keeps {P : State → Prop} (kQue : KQue P) (kTop : KTop P) (kHly : KHly P) (kSys : KSys P) (kWr : KWr P) (s : State) (c : Cmd) (act : Act) (res : List (Nat × Nat)) (hP : P s) :
 P (State.maintLease s c act res) := by
  unfold State.maintLease
  repeat' first
    | with_reducible assumption
    | exact rfl
    | exact fun _ => ⟨rfl, rfl, rfl⟩
    | with_reducible apply State.wantLease_keeps kTop
    | with_reducible apply State.running_keeps kQue
    | with_reducible apply State.wantCalibs_keeps kTop
    | with_reducible apply State.maintDefer_keeps kQue kHly kSys kWr
    | with_reducible apply State.bump_keeps kWr
    | dsimp only
    | split
    | intro _

theorem State.maintLun_keeps {P : State → Prop} (kQue : KQue P) (kHly : KHly P) (kSys : KSys P) (kWr : KWr P) (s : State) (c : Cmd) (go : State → State) (hP : P s) (hF : ∀ s, P s → P (go s)) :
 P (State.maintLun s c go) := by
  unfold State.maintLun
  repeat' first
    | with_reducible assumption
    | exact rfl
    | exact fun _ => ⟨rfl, rfl, rfl⟩
    | with_reducible apply State.finishSlow_keeps kQue kHly kSys kWr
    | with_reducible apply State.maintDefer_keeps kQue kHly kSys kWr
    | with_reducible apply hF
    | dsimp only
    | split
    | intro _

theorem State.maintCh_keeps {P : State → Prop} (kQue : KQue P) (kTop : KTop P) (kHly : KHly P) (kSys : KSys P) (kWr : KWr P) (s : State) (c : Cmd) (act : Act) (hP : P s) :
 P (State.maintCh s c act) := by
  unfold State.maintCh
  repeat' first
    | with_reducible assumption
    | exact rfl
    | exact fun _ => ⟨rfl, rfl, rfl⟩
    | with_reducible apply State.maintLease_keeps kQue kTop kHly kSys kWr
    | with_reducible apply State.maintDefer_keeps kQue kHly kSys kWr
    | dsimp only
    | split
    | intro _

theorem State.selftestAsk_keeps {P : State → Prop} (kQue : KQue P) (kTop : KTop P) (kHly : KHly P) (kSys : KSys P) (kWr : KWr P) (s : State) (c : Cmd) (hP : P s) :
 P (State.selftestAsk s c) := by
  unfold State.selftestAsk
  repeat' first
    | with_reducible assumption
    | exact rfl
    | exact fun _ => ⟨rfl, rfl, rfl⟩
    | with_reducible apply State.maintLease_keeps kQue kTop kHly kSys kWr
    | with_reducible apply State.maintDefer_keeps kQue kHly kSys kWr
    | dsimp only
    | split
    | intro _

theorem State.dropSamples_keeps {P : State → Prop} (kTop : KTop P) (kMcs : KMcs P) (kChan : KChan P) (kEcc : KEcc P) (kBox : KBox P) (kWr : KWr P) (s : State) (ref : FRef) (hP : P s) :
 P (State.dropSamples s ref) := by
  unfold State.dropSamples
  repeat' first
    | with_reducible assumption
    | exact rfl
    | exact fun _ => ⟨rfl, rfl, rfl⟩
    | with_reducible apply State.dropFlight_keeps kTop kMcs kChan kEcc kBox kWr
    | with_reducible apply each_keeps
    | dsimp only
    | split
    | intro _

theorem State.calApply_keeps {P : State → Prop} (kErr : KErr P) (kHdg : KHdg P) (kPut : KPut P) (kJnp : KJnp P) (kWr : KWr P) (kDrawn : KDrawn P) (s : State) (g : Nat) (l : List Cand) (hP : P s) :
 P (State.calApply s g l) := by
  unfold State.calApply
  repeat' first
    | with_reducible assumption
    | exact rfl
    | exact fun _ => ⟨rfl, rfl, rfl⟩
    | with_reducible apply when_keeps
    | with_reducible apply State.setTracked_keeps kErr kHdg kPut kJnp kWr kDrawn
    | dsimp only
    | split
    | intro _

theorem State.calibDrop_keeps {P : State → Prop} (kTop : KTop P) (kMcs : KMcs P) (kChan : KChan P) (kEcc : KEcc P) (kJnp : KJnp P) (kBox : KBox P) (kWr : KWr P) (s : State) (n : Nat) (hP : P s) :
 P (State.calibDrop s n) := by
  unfold State.calibDrop
  repeat' first
    | with_reducible assumption
    | exact rfl
    | exact fun _ => ⟨rfl, rfl, rfl⟩
    | with_reducible apply each_keeps
    | with_reducible apply State.dropSamples_keeps kTop kMcs kChan kEcc kBox kWr
    | with_reducible apply State.dropLease_keeps kTop kWr
    | with_reducible apply kJnp
    | dsimp only
    | split
    | intro _

theorem State.calibEnd_keeps {P : State → Prop} (kErr : KErr P) (kQue : KQue P) (kHdg : KHdg P) (kPut : KPut P) (kTop : KTop P) (kMcs : KMcs P) (kChan : KChan P) (kEcc : KEcc P) (kJnp : KJnp P) (kBox : KBox P) (kHly : KHly P) (kSys : KSys P) (kWr : KWr P) (kDrawn : KDrawn P) (s : State) (n : Nat) (r : CalRun) (hP : P s) :
 P (State.calibEnd s n r) := by
  unfold State.calibEnd
  repeat' first
    | with_reducible assumption
    | exact rfl
    | exact fun _ => ⟨rfl, rfl, rfl⟩
    | with_reducible apply State.calApply_keeps kErr kHdg kPut kJnp kWr kDrawn
    | with_reducible apply State.finishSlow_keeps kQue kHly kSys kWr
    | with_reducible apply State.maintOk_keeps kQue kHly kSys kWr
    | with_reducible apply State.calibDrop_keeps kTop kMcs kChan kEcc kJnp kBox kWr
    | dsimp only
    | split
    | intro _

theorem State.patrolDrop_keeps {P : State → Prop} (kTop : KTop P) (kMcs : KMcs P) (kChan : KChan P) (kEcc : KEcc P) (kJnp : KJnp P) (kBox : KBox P) (kWr : KWr P) (s : State) (lun : Nat) (hP : P s) :
 P (State.patrolDrop s lun) := by
  unfold State.patrolDrop
  repeat' first
    | with_reducible assumption
    | exact rfl
    | exact fun _ => ⟨rfl, rfl, rfl⟩
    | with_reducible apply State.dropSamples_keeps kTop kMcs kChan kEcc kBox kWr
    | with_reducible apply State.dropLease_keeps kTop kWr
    | with_reducible apply kJnp
    | dsimp only
    | split
    | intro _

theorem State.patrolEnd_keeps {P : State → Prop} (kErr : KErr P) (kQue : KQue P) (kTop : KTop P) (kMcs : KMcs P) (kChan : KChan P) (kEcc : KEcc P) (kJnp : KJnp P) (kBox : KBox P) (kHly : KHly P) (kSys : KSys P) (kWr : KWr P) (s : State) (lun : Nat) (tag : Option Nat) (r : PatrolRun) (hP : P s) :
 P (State.patrolEnd s lun tag r) := by
  unfold State.patrolEnd
  repeat' first
    | with_reducible assumption
    | exact rfl
    | exact fun _ => ⟨rfl, rfl, rfl⟩
    | with_reducible apply State.err1_keeps kErr kWr
    | with_reducible apply State.finishSlow_keeps kQue kHly kSys kWr
    | with_reducible apply State.patrolDrop_keeps kTop kMcs kChan kEcc kJnp kBox kWr
    | with_reducible apply State.maintOk_keeps kQue kHly kSys kWr
    | with_reducible apply when_keeps
    | dsimp only
    | split
    | intro _

theorem execScrubStore_keeps {P : State → Prop} (kQue : KQue P) (kTop : KTop P) (kHly : KHly P) (kSys : KSys P) (kWr : KWr P) (tag : Tag) (s : State) (hP : P s) :
    Out.All P (execScrubStore tag s) := by
  unfold execScrubStore
  repeat' first
    | with_reducible apply Out.all_next
    | exact trivial
    | with_reducible assumption
    | exact rfl
    | exact fun _ => ⟨rfl, rfl, rfl⟩
    | with_reducible apply State.maintLease_keeps kQue kTop kHly kSys kWr
    | with_reducible apply State.takeInbox_keeps kQue kHly
    | dsimp only
    | split
    | intro _

theorem execPatrol_keeps {P : State → Prop} (kQue : KQue P) (kTop : KTop P) (kHly : KHly P) (kSys : KSys P) (kWr : KWr P) (tag : Tag) (s : State) (hP : P s) :
    Out.All P (execPatrol tag s) := by
  unfold execPatrol
  repeat' first
    | with_reducible apply Out.all_next
    | exact trivial
    | with_reducible assumption
    | exact rfl
    | exact fun _ => ⟨rfl, rfl, rfl⟩
    | with_reducible apply State.maintLease_keeps kQue kTop kHly kSys kWr
    | with_reducible apply State.maintLun_keeps kQue kHly kSys kWr
    | with_reducible apply State.takeInbox_keeps kQue kHly
    | dsimp only
    | split
    | intro _

theorem execCalib_keeps {P : State → Prop} (kQue : KQue P) (kTop : KTop P) (kHly : KHly P) (kSys : KSys P) (kWr : KWr P) (tag : Tag) (s : State) (hP : P s) :
    Out.All P (execCalib tag s) := by
  unfold execCalib
  repeat' first
    | with_reducible apply Out.all_next
    | exact trivial
    | with_reducible assumption
    | exact rfl
    | exact fun _ => ⟨rfl, rfl, rfl⟩
    | with_reducible apply State.maintLease_keeps kQue kTop kHly kSys kWr
    | with_reducible apply State.maintLun_keeps kQue kHly kSys kWr
    | with_reducible apply State.takeInbox_keeps kQue kHly
    | dsimp only
    | split
    | intro _

theorem execTrain_keeps {P : State → Prop} (kQue : KQue P) (kTop : KTop P) (kHly : KHly P) (kSys : KSys P) (kWr : KWr P) (tag : Tag) (s : State) (hP : P s) :
    Out.All P (execTrain tag s) := by
  unfold execTrain
  repeat' first
    | with_reducible apply Out.all_next
    | exact trivial
    | with_reducible assumption
    | exact rfl
    | exact fun _ => ⟨rfl, rfl, rfl⟩
    | with_reducible apply State.maintCh_keeps kQue kTop kHly kSys kWr
    | with_reducible apply State.takeInbox_keeps kQue kHly
    | dsimp only
    | split
    | intro _

theorem execZqcal_keeps {P : State → Prop} (kQue : KQue P) (kTop : KTop P) (kHly : KHly P) (kSys : KSys P) (kWr : KWr P) (tag : Tag) (s : State) (hP : P s) :
    Out.All P (execZqcal tag s) := by
  unfold execZqcal
  repeat' first
    | with_reducible apply Out.all_next
    | exact trivial
    | with_reducible assumption
    | exact rfl
    | exact fun _ => ⟨rfl, rfl, rfl⟩
    | with_reducible apply State.maintCh_keeps kQue kTop kHly kSys kWr
    | with_reducible apply State.takeInbox_keeps kQue kHly
    | dsimp only
    | split
    | intro _

theorem execSelftestChannel_keeps {P : State → Prop} (kQue : KQue P) (kTop : KTop P) (kHly : KHly P) (kSys : KSys P) (kWr : KWr P) (tag : Tag) (s : State) (hP : P s) :
    Out.All P (execSelftestChannel tag s) := by
  unfold execSelftestChannel
  repeat' first
    | with_reducible apply Out.all_next
    | exact trivial
    | with_reducible assumption
    | exact rfl
    | exact fun _ => ⟨rfl, rfl, rfl⟩
    | with_reducible apply State.maintCh_keeps kQue kTop kHly kSys kWr
    | with_reducible apply State.takeInbox_keeps kQue kHly
    | dsimp only
    | split
    | intro _

theorem execSelftestStore_keeps {P : State → Prop} (kQue : KQue P) (kTop : KTop P) (kHly : KHly P) (kSys : KSys P) (kWr : KWr P) (tag : Tag) (s : State) (hP : P s) :
    Out.All P (execSelftestStore tag s) := by
  unfold execSelftestStore
  repeat' first
    | with_reducible apply Out.all_next
    | exact trivial
    | with_reducible assumption
    | exact rfl
    | exact fun _ => ⟨rfl, rfl, rfl⟩
    | with_reducible apply State.selftestAsk_keeps kQue kTop kHly kSys kWr
    | with_reducible apply State.takeInbox_keeps kQue kHly
    | dsimp only
    | split
    | intro _

theorem execCalibDone_keeps {P : State → Prop} (kErr : KErr P) (kQue : KQue P) (kHdg : KHdg P) (kPut : KPut P) (kTop : KTop P) (kMcs : KMcs P) (kChan : KChan P) (kEcc : KEcc P) (kJnp : KJnp P) (kBox : KBox P) (kHly : KHly P) (kSys : KSys P) (kWr : KWr P) (kDrawn : KDrawn P) (ch : Fin 8) (s : State) (hP : P s) :
    Out.All P (execCalibDone ch s) := by
  unfold execCalibDone
  repeat' first
    | with_reducible apply Out.all_next
    | exact trivial
    | with_reducible assumption
    | exact rfl
    | exact fun _ => ⟨rfl, rfl, rfl⟩
    | with_reducible apply State.calibDrop_keeps kTop kMcs kChan kEcc kJnp kBox kWr
    | with_reducible apply State.calibEnd_keeps kErr kQue kHdg kPut kTop kMcs kChan kEcc kJnp kBox kHly kSys kWr kDrawn
    | with_reducible apply State.finishSlow_keeps kQue kHly kSys kWr
    | dsimp only
    | split
    | intro _

theorem execPatrolDone_keeps {P : State → Prop} (kErr : KErr P) (kQue : KQue P) (kTop : KTop P) (kMcs : KMcs P) (kChan : KChan P) (kEcc : KEcc P) (kJnp : KJnp P) (kBox : KBox P) (kHly : KHly P) (kSys : KSys P) (kWr : KWr P) (lun : Fin 256) (s : State) (hP : P s) :
    Out.All P (execPatrolDone lun s) := by
  unfold execPatrolDone
  repeat' first
    | with_reducible apply Out.all_next
    | exact trivial
    | with_reducible assumption
    | exact rfl
    | exact fun _ => ⟨rfl, rfl, rfl⟩
    | with_reducible apply State.finishSlow_keeps kQue kHly kSys kWr
    | with_reducible apply State.patrolDrop_keeps kTop kMcs kChan kEcc kJnp kBox kWr
    | with_reducible apply State.patrolEnd_keeps kErr kQue kTop kMcs kChan kEcc kJnp kBox kHly kSys kWr
    | dsimp only
    | split
    | intro _

end Sys2Proof.Machine
end

