-- ==== Sys2Proof/Laws/KeepsStops.lean ====
section
/-!
SUPPORT. What the operations of Machine/Stops.lean can do: each one keeps every property of a state that its own primitive
updates keep. The hypotheses of a lemma name every unit the operation can reach.
-/
namespace Sys2Proof.Machine

theorem State.deferPower_keeps {P : State → Prop} (kQue : KQue P) (kSys : KSys P) (kWr : KWr P) (s : State) (tag : Nat) (hP : P s) :
 P (State.deferPower s tag) := by
  unfold State.deferPower
  repeat' first
    | with_reducible assumption
    | exact rfl
    | exact fun _ => ⟨rfl, rfl, rfl⟩
    | with_reducible apply State.setb_keeps kWr
    | with_reducible apply State.finish_keeps kQue kSys kWr
    | dsimp only
    | split
    | intro _

theorem State.unrequest_keeps {P : State → Prop} (kQue : KQue P) (s : State) (tag : Nat) (hP : P s) :
 P (State.unrequest s tag) := by
  unfold State.unrequest
  repeat' first
    | with_reducible assumption
    | exact rfl
    | exact fun _ => ⟨rfl, rfl, rfl⟩
    | exact fun _ => rfl
    | with_reducible apply KQue.same kQue
    | with_reducible apply State.onCmd_keeps kQue
    | dsimp only
    | split
    | intro _

theorem State.dropEntry_keeps {P : State → Prop} (kQue : KQue P) (kPwr : KPwr P) (kSys : KSys P) (kWr : KWr P) (s : State) (st : Nat) (hP : P s) :
 P (State.dropEntry s st) := by
  unfold State.dropEntry
  repeat' first
    | with_reducible assumption
    | exact rfl
    | exact fun _ => ⟨rfl, rfl, rfl⟩
    | with_reducible apply kPwr
    | with_reducible apply State.deferPower_keeps kQue kSys kWr
    | with_reducible apply State.finish_keeps kQue kSys kWr
    | with_reducible apply State.unrequest_keeps kQue
    | dsimp only
    | split
    | intro _

theorem State.holdBack_keeps {P : State → Prop} (kTop : KTop P) (kBox : KBox P) (kWr : KWr P) (s : State) (hP : P s) :
 P (State.holdBack s) := by
  unfold State.holdBack
  repeat' first
    | with_reducible assumption
    | exact rfl
    | exact fun _ => ⟨rfl, rfl, rfl⟩
    | with_reducible apply State.opTokens_keeps kTop kBox kWr
    | with_reducible apply each_keeps
    | with_reducible apply State.onOp_keeps kTop
    | with_reducible apply State.dropSegs_keeps kTop
    | with_reducible apply kBox
    | dsimp only
    | split
    | intro _

theorem State.leaveOp_keeps {P : State → Prop} (kTop : KTop P) (kChan : KChan P) (kBox : KBox P) (kWr : KWr P) (s : State) (id : Nat) (hP : P s) :
 P (State.leaveOp s id) := by
  unfold State.leaveOp
  repeat' first
    | with_reducible assumption
    | exact rfl
    | exact fun _ => ⟨rfl, rfl, rfl⟩
    | with_reducible apply State.delOp_keeps kTop kChan kBox kWr
    | with_reducible apply State.onOp_keeps kTop
    | dsimp only
    | split
    | intro _

theorem State.cutLadder_keeps {P : State → Prop} (kErr : KErr P) (kHdg : KHdg P) (kPut : KPut P) (kTop : KTop P) (kChan : KChan P) (kEcc : KEcc P) (kJnp : KJnp P) (kBox : KBox P) (kHly : KHly P) (kWr : KWr P) (kDrawn : KDrawn P) (s : State) (hP : P s) :
 P (State.cutLadder s) := by
  unfold State.cutLadder
  repeat' first
    | with_reducible assumption
    | exact rfl
    | exact fun _ => ⟨rfl, rfl, rfl⟩
    | with_reducible apply State.leaveOp_keeps kTop kChan kBox kWr
    | with_reducible apply each_keeps
    | with_reducible apply kEcc
    | with_reducible apply State.runOut_keeps kErr kHdg kPut kEcc kJnp kHly kWr kDrawn
    | dsimp only
    | split
    | intro _

theorem State.cutXor_keeps {P : State → Prop} (kErr : KErr P) (kHdg : KHdg P) (kPut : KPut P) (kCop : KCop P) (kTop : KTop P) (kMcs : KMcs P) (kChan : KChan P) (kEcc : KEcc P) (kJnp : KJnp P) (kBox : KBox P) (kHly : KHly P) (kWr : KWr P) (kDrawn : KDrawn P) (s : State) (hP : P s) :
 P (State.cutXor s) := by
  unfold State.cutXor
  repeat' first
    | with_reducible assumption
    | exact rfl
    | exact fun _ => ⟨rfl, rfl, rfl⟩
    | with_reducible apply each_keeps
    | with_reducible apply State.buildFail_keeps kErr kHdg kPut kCop kTop kMcs kChan kEcc kBox kWr
    | with_reducible apply kEcc
    | with_reducible apply State.padPf_keeps kTop kWr
    | with_reducible apply State.rebuildFail_keeps kErr kHdg kPut kCop kTop kMcs kChan kEcc kJnp kBox kHly kWr kDrawn
    | dsimp only
    | split
    | intro _

theorem State.cutActs_keeps {P : State → Prop} (kQue : KQue P) (kTop : KTop P) (kChan : KChan P) (kHly : KHly P) (kSys : KSys P) (kWr : KWr P) (s : State) (hP : P s) :
 P (State.cutActs s) := by
  unfold State.cutActs
  repeat' first
    | with_reducible assumption
    | exact rfl
    | exact fun _ => ⟨rfl, rfl, rfl⟩
    | with_reducible apply each_keeps
    | with_reducible apply kChan
    | with_reducible apply State.trainCut_keeps kQue kTop kChan kHly kSys kWr
    | with_reducible apply State.dropLease_keeps kTop kWr
    | with_reducible apply State.zqDone_keeps kQue kTop kChan kHly kSys kWr
    | dsimp only
    | split
    | intro _

theorem State.kickAll_keeps {P : State → Prop} (kErr : KErr P) (kTop : KTop P) (kMcs : KMcs P) (kChan : KChan P) (kEcc : KEcc P) (kBox : KBox P) (kWr : KWr P) (s : State) (hP : P s) :
 P (State.kickAll s) := by
  unfold State.kickAll
  repeat' first
    | with_reducible assumption
    | exact rfl
    | exact fun _ => ⟨rfl, rfl, rfl⟩
    | with_reducible apply each_keeps
    | with_reducible apply State.kick_keeps kErr kTop kMcs kChan kEcc kBox kWr
    | dsimp only
    | split
    | intro _

theorem State.actEnd_keeps {P : State → Prop} (kErr : KErr P) (kQue : KQue P) (kTop : KTop P) (kMcs : KMcs P) (kChan : KChan P) (kEcc : KEcc P) (kBox : KBox P) (kHly : KHly P) (kSys : KSys P) (kWr : KWr P) (s : State) (st detail : Nat) (hP : P s) :
 P (State.actEnd s st detail) := by
  unfold State.actEnd
  repeat' first
    | with_reducible assumption
    | exact rfl
    | exact fun _ => ⟨rfl, rfl, rfl⟩
    | with_reducible apply kHly
    | with_reducible apply State.finishSlow_keeps kQue kHly kSys kWr
    | with_reducible apply State.kickAll_keeps kErr kTop kMcs kChan kEcc kBox kWr
    | dsimp only
    | split
    | intro _

theorem State.actHoldup_keeps {P : State → Prop} (kErr : KErr P) (kQue : KQue P) (kTop : KTop P) (kMcs : KMcs P) (kChan : KChan P) (kEcc : KEcc P) (kBox : KBox P) (kHly : KHly P) (kSys : KSys P) (kWr : KWr P) (s : State) (hP : P s) :
 P (State.actHoldup s) := by
  unfold State.actHoldup
  repeat' first
    | with_reducible assumption
    | exact rfl
    | exact fun _ => ⟨rfl, rfl, rfl⟩
    | with_reducible apply State.actEnd_keeps kErr kQue kTop kMcs kChan kEcc kBox kHly kSys kWr
    | dsimp only
    | split
    | intro _

end Sys2Proof.Machine
end

