-- ==== Sys2Proof/Laws/KeepsAbort.lean ====
section
/-!
SUPPORT. What the operations of Machine/Abort.lean can do: each one keeps every property of a state that its own primitive
updates keep. The hypotheses of a lemma name every unit the operation can reach.
-/
namespace Sys2Proof.Machine

theorem State.stripRead_keeps {P : State → Prop} (kErr : KErr P) (kQue : KQue P) (kHdg : KHdg P) (kPut : KPut P) (kForget : KForget P) (kCop : KCop P) (kTop : KTop P) (kMcs : KMcs P) (kChan : KChan P) (kEcc : KEcc P) (kBox : KBox P) (kWr : KWr P) (s : State) (c : Cmd) (hP : P s) :
 P (State.stripRead s c) := by
  unfold State.stripRead
  repeat' first
    | with_reducible assumption
    | exact rfl
    | exact fun _ => ⟨rfl, rfl, rfl⟩
    | with_reducible apply kForget
    | with_reducible apply each_keeps
    | with_reducible apply State.endReads_keeps kErr kQue kHdg kPut kCop kTop kMcs kChan kEcc kBox kWr
    | with_reducible apply State.dropName_keeps kErr kHdg kPut kCop kWr
    | with_reducible apply State.onBuf_keeps kCop
    | dsimp only
    | split
    | intro _

theorem State.stripPfa_keeps {P : State → Prop} (kErr : KErr P) (kHdg : KHdg P) (kPut : KPut P) (kCop : KCop P) (kTop : KTop P) (kWr : KWr P) (s : State) (c : Cmd) (hP : P s) :
 P (State.stripPfa s c) := by
  unfold State.stripPfa
  repeat' first
    | with_reducible assumption
    | exact rfl
    | exact fun _ => ⟨rfl, rfl, rfl⟩
    | with_reducible apply State.addName_keeps kCop
    | with_reducible apply State.padPf_keeps kTop kWr
    | with_reducible apply each_keeps
    | with_reducible apply State.dropName_keeps kErr kHdg kPut kCop kWr
    | dsimp only
    | split
    | intro _

theorem State.dropEmptySets_keeps {P : State → Prop} (kTop : KTop P) (kChan : KChan P) (kBox : KBox P) (kWr : KWr P) (was s : State) (tag : Nat) (hP : P was) (hP1 : P s) :
 P (State.dropEmptySets was s tag) := by
  unfold State.dropEmptySets
  repeat' first
    | with_reducible assumption
    | exact rfl
    | exact fun _ => ⟨rfl, rfl, rfl⟩
    | with_reducible apply each_keeps
    | with_reducible apply State.delOp_keeps kTop kChan kBox kWr
    | with_reducible apply State.opTokens_keeps kTop kBox kWr
    | with_reducible apply kTop
    | dsimp only
    | split
    | intro _

theorem State.abortProgs_keeps {P : State → Prop} (kMcs : KMcs P) (was s : State) (tag : Nat) (hP : P was) (hP1 : P s) :
 P (State.abortProgs was s tag) := by
  unfold State.abortProgs
  repeat' first
    | with_reducible assumption
    | exact rfl
    | exact fun _ => ⟨rfl, rfl, rfl⟩
    | with_reducible apply State.raiseEv_keeps kMcs
    | with_reducible apply each_keeps
    | with_reducible apply when_keeps
    | dsimp only
    | split
    | intro _

theorem State.stripFua_keeps {P : State → Prop} (kErr : KErr P) (kQue : KQue P) (kHdg : KHdg P) (kPut : KPut P) (kCop : KCop P) (kMap : KMap P) (kTop : KTop P) (kEcc : KEcc P) (kHly : KHly P) (kWr : KWr P) (kDrawn : KDrawn P) (s : State) (c : Cmd) (f : Nat → Bool) (hP : P s) :
 P (State.stripFua s c f) := by
  unfold State.stripFua
  repeat' first
    | with_reducible assumption
    | exact rfl
    | exact fun _ => ⟨rfl, rfl, rfl⟩
    | with_reducible apply State.restoreFua_keeps kErr kQue kHdg kPut kMap kTop kEcc kHly kWr kDrawn
    | with_reducible apply State.dropDirty_keeps kErr kQue kHdg kPut kCop kMap kTop kWr
    | with_reducible apply State.addName_keeps kCop
    | with_reducible apply each_keeps
    | dsimp only
    | split
    | intro _

theorem State.stripErase_keeps {P : State → Prop} (kTop : KTop P) (kMcs : KMcs P) (kChan : KChan P) (kBox : KBox P) (kWr : KWr P) (s : State) (c : Cmd) (hP : P s) :
 P (State.stripErase s c) := by
  unfold State.stripErase
  repeat' first
    | with_reducible assumption
    | exact rfl
    | exact fun _ => ⟨rfl, rfl, rfl⟩
    | with_reducible apply each_keeps
    | with_reducible apply State.delOp_keeps kTop kChan kBox kWr
    | with_reducible apply State.opTokens_keeps kTop kBox kWr
    | with_reducible apply State.onOp_keeps kTop
    | with_reducible apply State.raiseEv_keeps kMcs
    | dsimp only
    | split
    | intro _

theorem State.stripCopy_keeps {P : State → Prop} (kErr : KErr P) (kQue : KQue P) (kHdg : KHdg P) (kPut : KPut P) (kCop : KCop P) (kTop : KTop P) (kMcs : KMcs P) (kChan : KChan P) (kEcc : KEcc P) (kBox : KBox P) (kWr : KWr P) (s : State) (c : Cmd) (hP : P s) :
 P (State.stripCopy s c) := by
  unfold State.stripCopy
  repeat' first
    | with_reducible assumption
    | exact rfl
    | exact fun _ => ⟨rfl, rfl, rfl⟩
    | with_reducible apply State.rangeGone_keeps kQue
    | with_reducible apply each_keeps
    | with_reducible apply State.dropName_keeps kErr kHdg kPut kCop kWr
    | with_reducible apply State.releaseFrame_keeps kErr kQue kHdg kPut kCop kTop kMcs kChan kEcc kBox kWr
    | with_reducible apply State.padPf_keeps kTop kWr
    | with_reducible apply State.dropLeaseTag_keeps kTop kWr
    | dsimp only
    | split
    | intro _

theorem State.stripPower_keeps {P : State → Prop} (kPwr : KPwr P) (s : State) (c : Cmd) (hP : P s) :
 P (State.stripPower s c) := by
  unfold State.stripPower
  repeat' first
    | with_reducible assumption
    | exact rfl
    | exact fun _ => ⟨rfl, rfl, rfl⟩
    | with_reducible apply kPwr
    | dsimp only
    | split
    | intro _

theorem State.strip_keeps {P : State → Prop} (kErr : KErr P) (kQue : KQue P) (kHdg : KHdg P) (kPut : KPut P) (kForget : KForget P) (kCop : KCop P) (kMap : KMap P) (kTop : KTop P) (kMcs : KMcs P) (kChan : KChan P) (kEcc : KEcc P) (kDma : KDma P) (kBox : KBox P) (kHly : KHly P) (kPwr : KPwr P) (kSys : KSys P) (kWr : KWr P) (kDrawn : KDrawn P) (kDram : KDram P) (kDeliv : KDeliv P) (s : State) (c : Cmd) (st : Nat) (hP : P s) :
 P (State.strip s c st) := by
  unfold State.strip
  repeat' first
    | with_reducible assumption
    | exact rfl
    | exact fun _ => ⟨rfl, rfl, rfl⟩
    | exact fun _ => rfl
    | with_reducible apply State.rangeGone_keeps kQue
    | with_reducible apply State.stripCopy_keeps kErr kQue kHdg kPut kCop kTop kMcs kChan kEcc kBox kWr
    | with_reducible apply each_keeps
    | with_reducible apply State.onMslot_keeps kMap
    | with_reducible apply State.stripPfa_keeps kErr kHdg kPut kCop kTop kWr
    | with_reducible apply KQue.same kQue
    | with_reducible apply State.dropName_keeps kErr kHdg kPut kCop kWr
    | with_reducible apply State.stripErase_keeps kTop kMcs kChan kBox kWr
    | with_reducible apply State.stripPower_keeps kPwr
    | with_reducible apply State.stripFua_keeps kErr kQue kHdg kPut kCop kMap kTop kEcc kHly kWr kDrawn
    | with_reducible apply State.dmaStop_keeps kErr kQue kHdg kPut kCop kDma kBox kSys kWr kDrawn kDram kDeliv
    | with_reducible apply State.stripRead_keeps kErr kQue kHdg kPut kForget kCop kTop kMcs kChan kEcc kBox kWr
    | with_reducible apply State.copCancel_keeps kCop
    | dsimp only
    | split
    | intro _

theorem State.remove_keeps {P : State → Prop} (kErr : KErr P) (kQue : KQue P) (kHdg : KHdg P) (kPut : KPut P) (kForget : KForget P) (kCop : KCop P) (kMap : KMap P) (kTop : KTop P) (kMcs : KMcs P) (kChan : KChan P) (kEcc : KEcc P) (kDma : KDma P) (kBox : KBox P) (kHly : KHly P) (kPwr : KPwr P) (kSys : KSys P) (kWr : KWr P) (kDrawn : KDrawn P) (kDram : KDram P) (kDeliv : KDeliv P) (s : State) (c : Cmd) (st : Nat) (hP : P s) :
 P (State.remove s c st) := by
  unfold State.remove
  repeat' first
    | with_reducible assumption
    | exact rfl
    | exact fun _ => ⟨rfl, rfl, rfl⟩
    | with_reducible apply State.abortProgs_keeps kMcs
    | with_reducible apply State.dropEmptySets_keeps kTop kChan kBox kWr
    | with_reducible apply State.removeCmd_keeps kQue kSys kWr
    | with_reducible apply State.strip_keeps kErr kQue kHdg kPut kForget kCop kMap kTop kMcs kChan kEcc kDma kBox kHly kPwr kSys kWr kDrawn kDram kDeliv
    | dsimp only
    | split
    | intro _

theorem State.doAbort_keeps {P : State → Prop} (kErr : KErr P) (kQue : KQue P) (kHdg : KHdg P) (kPut : KPut P) (kForget : KForget P) (kCop : KCop P) (kMap : KMap P) (kTop : KTop P) (kMcs : KMcs P) (kChan : KChan P) (kEcc : KEcc P) (kJnp : KJnp P) (kDma : KDma P) (kBox : KBox P) (kYew : KYew P) (kHly : KHly P) (kPwr : KPwr P) (kSys : KSys P) (kWr : KWr P) (kDrawn : KDrawn P) (kDram : KDram P) (kDeliv : KDeliv P) (s : State) (c : Cmd) (hP : P s) :
 P (State.doAbort s c) := by
  unfold State.doAbort
  repeat' first
    | with_reducible assumption
    | exact rfl
    | exact fun _ => ⟨rfl, rfl, rfl⟩
    | with_reducible apply State.settle_keeps kErr kQue kHdg kPut kCop kMap kTop kMcs kChan kEcc kJnp kBox kYew kHly kSys kWr kDrawn kDeliv
    | with_reducible apply State.remove_keeps kErr kQue kHdg kPut kForget kCop kMap kTop kMcs kChan kEcc kDma kBox kHly kPwr kSys kWr kDrawn kDram kDeliv
    | with_reducible apply State.finish_keeps kQue kSys kWr
    | dsimp only
    | split
    | intro _

theorem execAbort_keeps {P : State → Prop} (kErr : KErr P) (kQue : KQue P) (kHdg : KHdg P) (kPut : KPut P) (kForget : KForget P) (kCop : KCop P) (kMap : KMap P) (kTop : KTop P) (kMcs : KMcs P) (kChan : KChan P) (kEcc : KEcc P) (kJnp : KJnp P) (kDma : KDma P) (kBox : KBox P) (kYew : KYew P) (kHly : KHly P) (kPwr : KPwr P) (kSys : KSys P) (kWr : KWr P) (kDrawn : KDrawn P) (kDram : KDram P) (kDeliv : KDeliv P) (tag : Tag) (s : State) (hP : P s) :
    Out.All P (execAbort tag s) := by
  unfold execAbort
  repeat' first
    | with_reducible apply Out.all_next
    | exact trivial
    | with_reducible assumption
    | exact rfl
    | exact fun _ => ⟨rfl, rfl, rfl⟩
    | with_reducible apply State.doAbort_keeps kErr kQue kHdg kPut kForget kCop kMap kTop kMcs kChan kEcc kJnp kDma kBox kYew kHly kPwr kSys kWr kDrawn kDram kDeliv
    | dsimp only
    | split
    | intro _

end Sys2Proof.Machine
end

