-- ==== Sys2Proof/Laws/KeepsImage.lean ====
section
/-!
SUPPORT. What the operations of Machine/Image.lean can do: each one keeps every property of a state that its own primitive
updates keep. The hypotheses of a lemma name every unit the operation can reach.
-/
namespace Sys2Proof.Machine

theorem State.rebind_keeps {P : State → Prop} (kChan : KChan P) (kSys : KSys P) (s : State) (hP : P s) :
 P (State.rebind s) := by
  unfold State.rebind
  repeat' first
    | with_reducible assumption
    | exact rfl
    | exact fun _ => ⟨rfl, rfl, rfl⟩
    | with_reducible apply each_keeps
    | with_reducible apply kChan
    | with_reducible apply kSys
    | dsimp only
    | split
    | intro _

theorem State.hollyShow_keeps {P : State → Prop} (kWr : KWr P) (s : State) (bank : Nat) (hP : P s) :
 P (State.hollyShow s bank) := by
  unfold State.hollyShow
  repeat' first
    | with_reducible assumption
    | exact rfl
    | exact fun _ => ⟨rfl, rfl, rfl⟩
    | with_reducible apply each_keeps
    | with_reducible apply kWr
    | dsimp only
    | split
    | intro _

theorem State.hollyParams_keeps {P : State → Prop} (kHly : KHly P) (s : State) (bank : Nat) (cold : Bool) (hP : P s) :
 P (State.hollyParams s bank cold) := by
  unfold State.hollyParams
  repeat' first
    | with_reducible assumption
    | exact rfl
    | exact fun _ => ⟨rfl, rfl, rfl⟩
    | with_reducible apply kHly
    | dsimp only
    | split
    | intro _

theorem State.hollyGo_keeps {P : State → Prop} (kHly : KHly P) (kWr : KWr P) (s : State) (bank : Nat) (hP : P s) :
 P (State.hollyGo s bank) := by
  unfold State.hollyGo
  repeat' first
    | with_reducible assumption
    | exact rfl
    | exact fun _ => ⟨rfl, rfl, rfl⟩
    | with_reducible apply kHly
    | with_reducible apply kWr
    | dsimp only
    | split
    | intro _

theorem State.hollyHalt_keeps {P : State → Prop} (kQue : KQue P) (kHly : KHly P) (kSys : KSys P) (kWr : KWr P) (s : State) (hP : P s) :
 P (State.hollyHalt s) := by
  unfold State.hollyHalt
  repeat' first
    | with_reducible assumption
    | exact rfl
    | exact fun _ => ⟨rfl, rfl, rfl⟩
    | with_reducible apply kHly
    | with_reducible apply State.inboxHalt_keeps kQue kSys kWr
    | with_reducible apply kWr
    | dsimp only
    | split
    | intro _

theorem State.hollyColdGo_keeps {P : State → Prop} (kHly : KHly P) (kWr : KWr P) (s : State) (bank : Nat) (hP : P s) :
 P (State.hollyColdGo s bank) := by
  unfold State.hollyColdGo
  repeat' first
    | with_reducible assumption
    | exact rfl
    | exact fun _ => ⟨rfl, rfl, rfl⟩
    | with_reducible apply State.hollyParams_keeps kHly
    | with_reducible apply State.hollyShow_keeps kWr
    | with_reducible apply kWr
    | with_reducible apply State.hollyGo_keeps kHly kWr
    | dsimp only
    | split
    | intro _

theorem State.hollyStart_keeps {P : State → Prop} (kErr : KErr P) (kQue : KQue P) (kHly : KHly P) (kSys : KSys P) (kWr : KWr P) (s : State) (hP : P s) :
 P (State.hollyStart s) := by
  unfold State.hollyStart
  repeat' first
    | with_reducible assumption
    | exact rfl
    | exact fun _ => ⟨rfl, rfl, rfl⟩
    | with_reducible apply State.hollyHalt_keeps kQue kHly kSys kWr
    | with_reducible apply State.err1_keeps kErr kWr
    | with_reducible apply State.setb_keeps kWr
    | with_reducible apply State.hollyColdGo_keeps kHly kWr
    | dsimp only
    | split
    | intro _

end Sys2Proof.Machine
end

