-- ==== Sys2Proof/Laws/KeepsReplay.lean ====
section
/-!
SUPPORT. What the operations of Machine/Replay.lean can do: each one keeps every property of a state that its own primitive
updates keep. The hypotheses of a lemma name every unit the operation can reach.
-/
namespace Sys2Proof.Machine

theorem State.jDecide_keeps {P : State → Prop} (kQue : KQue P) (kMap : KMap P) (kSys : KSys P) (kWr : KWr P) (s : State) (hP : P s) :
 P (State.jDecide s) := by
  unfold State.jDecide
  repeat' first
    | with_reducible assumption
    | exact rfl
    | exact fun _ => ⟨rfl, rfl, rfl⟩
    | exact fun _ => rfl
    | with_reducible apply kSys
    | with_reducible apply kMap
    | with_reducible apply KQue.same kQue
    | with_reducible apply kWr
    | dsimp only
    | split
    | intro _

theorem State.rootRestore_keeps {P : State → Prop} (kErr : KErr P) (kHdg : KHdg P) (kPut : KPut P) (kWr : KWr P) (kDrawn : KDrawn P) (s : State) (pages : List (List Byte)) (hP : P s) :
 P (State.rootRestore s pages) := by
  unfold State.rootRestore
  repeat' first
    | with_reducible assumption
    | exact rfl
    | exact fun _ => ⟨rfl, rfl, rfl⟩
    | with_reducible apply State.hWrite_keeps kErr kHdg kPut kWr
    | with_reducible apply State.spent_keeps kDrawn
    | dsimp only
    | split
    | intro _

theorem State.seqAtLeast_keeps {P : State → Prop} (kWr : KWr P) (s : State) (v : Nat) (hP : P s) :
 P (State.seqAtLeast s v) := by
  unfold State.seqAtLeast
  repeat' first
    | with_reducible assumption
    | exact rfl
    | exact fun _ => ⟨rfl, rfl, rfl⟩
    | with_reducible apply kWr
    | dsimp only
    | split
    | intro _

theorem State.replayFrom_keeps {P : State → Prop} (kErr : KErr P) (kQue : KQue P) (kMap : KMap P) (kWr : KWr P) (s : State) (l : List Replayed) (hP : P s) :
 P (State.replayFrom s l) := by
  unfold State.replayFrom
  repeat' first
    | with_reducible assumption
    | exact rfl
    | exact fun _ => ⟨rfl, rfl, rfl⟩
    | exact fun _ => rfl
    | with_reducible apply each_keeps
    | with_reducible apply State.err1_keeps kErr kWr
    | with_reducible apply kMap
    | with_reducible apply KQue.same kQue
    | with_reducible apply State.seqAtLeast_keeps kWr
    | with_reducible apply foldl_keeps
    | with_reducible apply foldl2_keeps
    | with_reducible apply foldl3_keeps
    | dsimp only
    | split
    | intro _

theorem State.mapRestore_keeps {P : State → Prop} (kErr : KErr P) (kQue : KQue P) (kHdg : KHdg P) (kPut : KPut P) (kMap : KMap P) (kSys : KSys P) (kWr : KWr P) (kDrawn : KDrawn P) (s : State) (r : MapRestore) (hP : P s) :
 P (State.mapRestore s r) := by
  unfold State.mapRestore
  repeat' first
    | with_reducible assumption
    | exact rfl
    | exact fun _ => ⟨rfl, rfl, rfl⟩
    | with_reducible apply kSys
    | with_reducible apply State.replayFrom_keeps kErr kQue kMap kWr
    | with_reducible apply State.rootRestore_keeps kErr kHdg kPut kWr kDrawn
    | with_reducible apply when_keeps
    | dsimp only
    | split
    | intro _

end Sys2Proof.Machine
end

