-- ==== Sys2Proof/Laws/KeepsMapRows.lean ====
section
/-!
SUPPORT. What the operations of Machine/MapRows.lean can do: each one keeps every property of a state that its own primitive
updates keep. The hypotheses of a lemma name every unit the operation can reach.
-/
namespace Sys2Proof.Machine

theorem State.pageReadDone_keeps {P : State → Prop} (kErr : KErr P) (kQue : KQue P) (kHdg : KHdg P) (kPut : KPut P) (kCop : KCop P) (kMap : KMap P) (kTop : KTop P) (kMcs : KMcs P) (kChan : KChan P) (kEcc : KEcc P) (kJnp : KJnp P) (kBox : KBox P) (kYew : KYew P) (kHly : KHly P) (kSys : KSys P) (kWr : KWr P) (kDrawn : KDrawn P) (kDeliv : KDeliv P) (s : State) (key : PageKey) (hP : P s) :
 P (State.pageReadDone s key) := by
  unfold State.pageReadDone
  repeat' first
    | with_reducible assumption
    | exact rfl
    | exact fun _ => ⟨rfl, rfl, rfl⟩
    | with_reducible apply State.settle_keeps kErr kQue kHdg kPut kCop kMap kTop kMcs kChan kEcc kJnp kBox kYew kHly kSys kWr kDrawn kDeliv
    | with_reducible apply State.breakPage_keeps kErr kMap kWr
    | with_reducible apply State.mapResident_keeps kErr kHdg kPut kMap kWr
    | dsimp only
    | split
    | intro _

theorem State.zeroFillDone_keeps {P : State → Prop} (kErr : KErr P) (kQue : KQue P) (kHdg : KHdg P) (kPut : KPut P) (kCop : KCop P) (kMap : KMap P) (kTop : KTop P) (kMcs : KMcs P) (kChan : KChan P) (kEcc : KEcc P) (kJnp : KJnp P) (kBox : KBox P) (kYew : KYew P) (kHly : KHly P) (kSys : KSys P) (kWr : KWr P) (kDrawn : KDrawn P) (kDeliv : KDeliv P) (s : State) (key : PageKey) (hP : P s) :
 P (State.zeroFillDone s key) := by
  unfold State.zeroFillDone
  repeat' first
    | with_reducible assumption
    | exact rfl
    | exact fun _ => ⟨rfl, rfl, rfl⟩
    | with_reducible apply State.settle_keeps kErr kQue kHdg kPut kCop kMap kTop kMcs kChan kEcc kJnp kBox kYew kHly kSys kWr kDrawn kDeliv
    | with_reducible apply State.mapResident_keeps kErr kHdg kPut kMap kWr
    | dsimp only
    | split
    | intro _

theorem State.installPage_keeps {P : State → Prop} (kErr : KErr P) (kQue : KQue P) (kHdg : KHdg P) (kPut : KPut P) (kCop : KCop P) (kMap : KMap P) (kTop : KTop P) (kMcs : KMcs P) (kChan : KChan P) (kEcc : KEcc P) (kJnp : KJnp P) (kBox : KBox P) (kYew : KYew P) (kHly : KHly P) (kSys : KSys P) (kWr : KWr P) (kDrawn : KDrawn P) (kDeliv : KDeliv P) (s : State) (key : PageKey) (d : List Byte) (hP : P s) :
 P (State.installPage s key d) := by
  unfold State.installPage
  repeat' first
    | with_reducible assumption
    | exact rfl
    | exact fun _ => ⟨rfl, rfl, rfl⟩
    | with_reducible apply kMap
    | with_reducible apply State.settle_keeps kErr kQue kHdg kPut kCop kMap kTop kMcs kChan kEcc kJnp kBox kYew kHly kSys kWr kDrawn kDeliv
    | dsimp only
    | split
    | intro _

theorem State.onBand_keeps {P : State → Prop} (kPwr : KPwr P) (s : State) (n : Nat) (f : Band → Band) (hP : P s) :
 P (State.onBand s n f) := by
  unfold State.onBand
  repeat' first
    | with_reducible assumption
    | exact rfl
    | exact fun _ => ⟨rfl, rfl, rfl⟩
    | with_reducible apply kPwr
    | dsimp only
    | split
    | intro _

theorem State.wbBand_keeps {P : State → Prop} (kErr : KErr P) (kMap : KMap P) (kTop : KTop P) (kPwr : KPwr P) (kWr : KWr P) (kDrawn : KDrawn P) (s : State) (key : PageKey) (slot : Slot) (hP : P s) :
 P (State.wbBand s key slot) := by
  unfold State.wbBand
  repeat' first
    | with_reducible assumption
    | exact rfl
    | exact fun _ => ⟨rfl, rfl, rfl⟩
    | with_reducible apply State.onBand_keeps kPwr
    | with_reducible apply kMap
    | with_reducible apply kTop
    | with_reducible apply State.snapWb_keeps kErr kMap kWr kDrawn
    | dsimp only
    | split
    | intro _

theorem State.wbStart_keeps {P : State → Prop} (kErr : KErr P) (kMap : KMap P) (kTop : KTop P) (kPwr : KPwr P) (kWr : KWr P) (kDrawn : KDrawn P) (s : State) (key : PageKey) (slot : Slot) (hP : P s) :
 P (State.wbStart s key slot) := by
  unfold State.wbStart
  repeat' first
    | with_reducible assumption
    | exact rfl
    | exact fun _ => ⟨rfl, rfl, rfl⟩
    | with_reducible apply each_keeps
    | with_reducible apply kMap
    | with_reducible apply State.wbBand_keeps kErr kMap kTop kPwr kWr kDrawn
    | with_reducible apply State.addPFrame_keeps kTop kWr
    | with_reducible apply when_keeps
    | with_reducible apply State.forceFrame_keeps kTop kWr
    | dsimp only
    | split
    | intro _

theorem State.wbDone_keeps {P : State → Prop} (kErr : KErr P) (kQue : KQue P) (kHdg : KHdg P) (kPut : KPut P) (kCop : KCop P) (kMap : KMap P) (kTop : KTop P) (kMcs : KMcs P) (kChan : KChan P) (kEcc : KEcc P) (kJnp : KJnp P) (kBox : KBox P) (kYew : KYew P) (kHly : KHly P) (kSys : KSys P) (kWr : KWr P) (kDrawn : KDrawn P) (kDeliv : KDeliv P) (s : State) (key : PageKey) (hP : P s) :
 P (State.wbDone s key) := by
  unfold State.wbDone
  repeat' first
    | with_reducible assumption
    | exact rfl
    | exact fun _ => ⟨rfl, rfl, rfl⟩
    | with_reducible apply State.wbFinish_keeps kErr kQue kHdg kPut kMap kTop kEcc kHly kWr kDrawn
    | with_reducible apply kMap
    | with_reducible apply State.settle_keeps kErr kQue kHdg kPut kCop kMap kTop kMcs kChan kEcc kJnp kBox kYew kHly kSys kWr kDrawn kDeliv
    | dsimp only
    | split
    | intro _

theorem State.rgnEntry_keeps {P : State → Prop} (kErr : KErr P) (kMap : KMap P) (kWr : KWr P) (kDrawn : KDrawn P) (s : State) (r : Nat) (hP : P s) :
 P (State.rgnEntry s r).2 := by
  unfold State.rgnEntry
  repeat' first
    | with_reducible assumption
    | exact rfl
    | exact fun _ => ⟨rfl, rfl, rfl⟩
    | with_reducible apply State.ctlWord_keeps kErr kMap kWr kDrawn
    | with_reducible refine State.ctlWord_keeps' kErr kMap kWr kDrawn ‹_ = (_, _)› ?_
    | dsimp only
    | split
    | intro _

theorem State.rgnEntry_keeps' {P : State → Prop} (kErr : KErr P) (kMap : KMap P) (kWr : KWr P) (kDrawn : KDrawn P) {s : State} {r : Nat} {x0 : Option LRgn} {t : State}
    (hE : State.rgnEntry s r = (x0, t)) (hP : P s)  : P t := by
  have h := State.rgnEntry_keeps kErr kMap kWr kDrawn s r hP
  rw [hE] at h
  exact h

theorem State.rgnLoad_keeps {P : State → Prop} (kErr : KErr P) (kQue : KQue P) (kHdg : KHdg P) (kPut : KPut P) (kCop : KCop P) (kMap : KMap P) (kTop : KTop P) (kMcs : KMcs P) (kChan : KChan P) (kEcc : KEcc P) (kJnp : KJnp P) (kBox : KBox P) (kYew : KYew P) (kHly : KHly P) (kSys : KSys P) (kWr : KWr P) (kDrawn : KDrawn P) (kDeliv : KDeliv P) (s : State) (r : Nat) (hP : P s) :
 P (State.rgnLoad s r) := by
  unfold State.rgnLoad
  repeat' first
    | with_reducible assumption
    | exact rfl
    | exact fun _ => ⟨rfl, rfl, rfl⟩
    | with_reducible apply kMap
    | with_reducible apply State.settle_keeps kErr kQue kHdg kPut kCop kMap kTop kMcs kChan kEcc kJnp kBox kYew kHly kSys kWr kDrawn kDeliv
    | with_reducible apply State.setb_keeps kWr
    | with_reducible apply State.rgnEntry_keeps kErr kMap kWr kDrawn
    | with_reducible refine State.rgnEntry_keeps' kErr kMap kWr kDrawn ‹_ = (_, _)› ?_
    | dsimp only
    | split
    | intro _

theorem State.rgnTable_keeps {P : State → Prop} (kErr : KErr P) (kMap : KMap P) (kWr : KWr P) (kDrawn : KDrawn P) (s : State) (hP : P s) :
 P (State.rgnTable s).2 := by
  unfold State.rgnTable
  repeat' first
    | with_reducible assumption
    | exact rfl
    | exact fun _ => ⟨rfl, rfl, rfl⟩
    | with_reducible apply State.rgnEntry_keeps kErr kMap kWr kDrawn
    | with_reducible refine State.rgnEntry_keeps' kErr kMap kWr kDrawn ‹_ = (_, _)› ?_
    | with_reducible apply foldl_keeps
    | with_reducible apply foldl2_keeps
    | with_reducible apply foldl3_keeps
    | dsimp only
    | split
    | intro _

theorem State.rgnTable_keeps' {P : State → Prop} (kErr : KErr P) (kMap : KMap P) (kWr : KWr P) (kDrawn : KDrawn P) {s : State} {x0 : Option (List LRgn)} {t : State}
    (hE : State.rgnTable s = (x0, t)) (hP : P s)  : P t := by
  have h := State.rgnTable_keeps kErr kMap kWr kDrawn s hP
  rw [hE] at h
  exact h

theorem State.mapRequest_keeps {P : State → Prop} (kErr : KErr P) (kMap : KMap P) (kHly : KHly P) (kWr : KWr P) (kDrawn : KDrawn P) (s : State) (hP : P s) :
 P (State.mapRequest s) := by
  unfold State.mapRequest
  repeat' first
    | with_reducible assumption
    | exact rfl
    | exact fun _ => ⟨rfl, rfl, rfl⟩
    | with_reducible apply each_keeps
    | with_reducible apply State.post1_keeps kHly
    | with_reducible apply kMap
    | with_reducible apply State.setb_keeps kWr
    | with_reducible apply State.rgnTable_keeps kErr kMap kWr kDrawn
    | with_reducible refine State.rgnTable_keeps' kErr kMap kWr kDrawn ‹_ = (_, _)› ?_
    | dsimp only
    | split
    | intro _

theorem State.mapOn_keeps {P : State → Prop} (kErr : KErr P) (kQue : KQue P) (kHdg : KHdg P) (kPut : KPut P) (kCop : KCop P) (kMap : KMap P) (kTop : KTop P) (kMcs : KMcs P) (kChan : KChan P) (kEcc : KEcc P) (kJnp : KJnp P) (kBox : KBox P) (kYew : KYew P) (kHly : KHly P) (kSys : KSys P) (kWr : KWr P) (kDrawn : KDrawn P) (kDeliv : KDeliv P) (s : State) (hP : P s) :
 P (State.mapOn s) := by
  unfold State.mapOn
  repeat' first
    | with_reducible assumption
    | exact rfl
    | exact fun _ => ⟨rfl, rfl, rfl⟩
    | with_reducible apply State.settle_keeps kErr kQue kHdg kPut kCop kMap kTop kMcs kChan kEcc kJnp kBox kYew kHly kSys kWr kDrawn kDeliv
    | with_reducible apply State.setb_keeps kWr
    | with_reducible apply kWr
    | dsimp only
    | split
    | intro _

theorem State.mapCtl?_keeps {P : State → Prop} (kErr : KErr P) (kQue : KQue P) (kHdg : KHdg P) (kPut : KPut P) (kCop : KCop P) (kMap : KMap P) (kTop : KTop P) (kMcs : KMcs P) (kChan : KChan P) (kEcc : KEcc P) (kJnp : KJnp P) (kBox : KBox P) (kYew : KYew P) (kHly : KHly P) (kSys : KSys P) (kWr : KWr P) (kDrawn : KDrawn P) (kDeliv : KDeliv P) (s : State) (holly : Bool) (v : Nat) (hP : P s) :
 P (State.mapCtl? s holly v) := by
  unfold State.mapCtl?
  repeat' first
    | with_reducible assumption
    | exact rfl
    | exact fun _ => ⟨rfl, rfl, rfl⟩
    | with_reducible apply State.mapOn_keeps kErr kQue kHdg kPut kCop kMap kTop kMcs kChan kEcc kJnp kBox kYew kHly kSys kWr kDrawn kDeliv
    | with_reducible apply State.mapRequest_keeps kErr kMap kHly kWr kDrawn
    | with_reducible apply when_keeps
    | with_reducible apply kWr
    | dsimp only
    | split
    | intro _

theorem execMapPageReadDone_keeps {P : State → Prop} (kErr : KErr P) (kQue : KQue P) (kHdg : KHdg P) (kPut : KPut P) (kCop : KCop P) (kMap : KMap P) (kTop : KTop P) (kMcs : KMcs P) (kChan : KChan P) (kEcc : KEcc P) (kJnp : KJnp P) (kBox : KBox P) (kYew : KYew P) (kHly : KHly P) (kSys : KSys P) (kWr : KWr P) (kDrawn : KDrawn P) (kDeliv : KDeliv P) (key : PageKey) (s : State) (hP : P s) :
    Out.All P (execMapPageReadDone key s) := by
  unfold execMapPageReadDone
  repeat' first
    | with_reducible apply Out.all_next
    | exact trivial
    | with_reducible assumption
    | exact rfl
    | exact fun _ => ⟨rfl, rfl, rfl⟩
    | with_reducible apply State.pageReadDone_keeps kErr kQue kHdg kPut kCop kMap kTop kMcs kChan kEcc kJnp kBox kYew kHly kSys kWr kDrawn kDeliv
    | dsimp only
    | split
    | intro _

theorem execMapPageZeroFillDone_keeps {P : State → Prop} (kErr : KErr P) (kQue : KQue P) (kHdg : KHdg P) (kPut : KPut P) (kCop : KCop P) (kMap : KMap P) (kTop : KTop P) (kMcs : KMcs P) (kChan : KChan P) (kEcc : KEcc P) (kJnp : KJnp P) (kBox : KBox P) (kYew : KYew P) (kHly : KHly P) (kSys : KSys P) (kWr : KWr P) (kDrawn : KDrawn P) (kDeliv : KDeliv P) (key : PageKey) (s : State) (hP : P s) :
    Out.All P (execMapPageZeroFillDone key s) := by
  unfold execMapPageZeroFillDone
  repeat' first
    | with_reducible apply Out.all_next
    | exact trivial
    | with_reducible assumption
    | exact rfl
    | exact fun _ => ⟨rfl, rfl, rfl⟩
    | with_reducible apply State.zeroFillDone_keeps kErr kQue kHdg kPut kCop kMap kTop kMcs kChan kEcc kJnp kBox kYew kHly kSys kWr kDrawn kDeliv
    | dsimp only
    | split
    | intro _

theorem execMapPageInstall_keeps {P : State → Prop} (kErr : KErr P) (kQue : KQue P) (kHdg : KHdg P) (kPut : KPut P) (kCop : KCop P) (kMap : KMap P) (kTop : KTop P) (kMcs : KMcs P) (kChan : KChan P) (kEcc : KEcc P) (kJnp : KJnp P) (kBox : KBox P) (kYew : KYew P) (kHly : KHly P) (kSys : KSys P) (kWr : KWr P) (kDrawn : KDrawn P) (kDeliv : KDeliv P) (key : PageKey) (data : List Byte) (s : State) (hP : P s) :
    Out.All P (execMapPageInstall key data s) := by
  unfold execMapPageInstall
  repeat' first
    | with_reducible apply Out.all_next
    | exact trivial
    | with_reducible assumption
    | exact rfl
    | exact fun _ => ⟨rfl, rfl, rfl⟩
    | with_reducible apply State.installPage_keeps kErr kQue kHdg kPut kCop kMap kTop kMcs kChan kEcc kJnp kBox kYew kHly kSys kWr kDrawn kDeliv
    | with_reducible apply State.spent_keeps kDrawn
    | dsimp only
    | split
    | intro _

theorem execMapWritebackStart_keeps {P : State → Prop} (kErr : KErr P) (kMap : KMap P) (kTop : KTop P) (kPwr : KPwr P) (kWr : KWr P) (kDrawn : KDrawn P) (key : PageKey) (slot : Slot) (s : State) (hP : P s) :
    Out.All P (execMapWritebackStart key slot s) := by
  unfold execMapWritebackStart
  repeat' first
    | with_reducible apply Out.all_next
    | exact trivial
    | with_reducible assumption
    | exact rfl
    | exact fun _ => ⟨rfl, rfl, rfl⟩
    | with_reducible apply State.wbStart_keeps kErr kMap kTop kPwr kWr kDrawn
    | dsimp only
    | split
    | intro _

theorem execMapWritebackDone_keeps {P : State → Prop} (kErr : KErr P) (kQue : KQue P) (kHdg : KHdg P) (kPut : KPut P) (kCop : KCop P) (kMap : KMap P) (kTop : KTop P) (kMcs : KMcs P) (kChan : KChan P) (kEcc : KEcc P) (kJnp : KJnp P) (kBox : KBox P) (kYew : KYew P) (kHly : KHly P) (kSys : KSys P) (kWr : KWr P) (kDrawn : KDrawn P) (kDeliv : KDeliv P) (key : PageKey) (s : State) (hP : P s) :
    Out.All P (execMapWritebackDone key s) := by
  unfold execMapWritebackDone
  repeat' first
    | with_reducible apply Out.all_next
    | exact trivial
    | with_reducible assumption
    | exact rfl
    | exact fun _ => ⟨rfl, rfl, rfl⟩
    | with_reducible apply State.wbDone_keeps kErr kQue kHdg kPut kCop kMap kTop kMcs kChan kEcc kJnp kBox kYew kHly kSys kWr kDrawn kDeliv
    | dsimp only
    | split
    | intro _

theorem execMapRegionLoad_keeps {P : State → Prop} (kErr : KErr P) (kQue : KQue P) (kHdg : KHdg P) (kPut : KPut P) (kCop : KCop P) (kMap : KMap P) (kTop : KTop P) (kMcs : KMcs P) (kChan : KChan P) (kEcc : KEcc P) (kJnp : KJnp P) (kBox : KBox P) (kYew : KYew P) (kHly : KHly P) (kPwr : KPwr P) (kSys : KSys P) (kWr : KWr P) (kResp : KResp P) (kDrawn : KDrawn P) (kDeliv : KDeliv P) (m : Master) (v : W32) (s : State) (hP : P s) :
    Out.All P (execMapRegionLoad m v s) := by
  unfold execMapRegionLoad
  repeat' first
    | with_reducible apply Out.all_next
    | exact trivial
    | with_reducible assumption
    | exact rfl
    | exact fun _ => ⟨rfl, rfl, rfl⟩
    | with_reducible apply State.rgnLoad_keeps kErr kQue kHdg kPut kCop kMap kTop kMcs kChan kEcc kJnp kBox kYew kHly kSys kWr kDrawn kDeliv
    | with_reducible apply State.access_keeps kPwr kResp
    | dsimp only
    | split
    | intro _

theorem execMapEnableRequest_keeps {P : State → Prop} (kErr : KErr P) (kQue : KQue P) (kHdg : KHdg P) (kPut : KPut P) (kCop : KCop P) (kMap : KMap P) (kTop : KTop P) (kMcs : KMcs P) (kChan : KChan P) (kEcc : KEcc P) (kJnp : KJnp P) (kBox : KBox P) (kYew : KYew P) (kHly : KHly P) (kPwr : KPwr P) (kSys : KSys P) (kWr : KWr P) (kResp : KResp P) (kDrawn : KDrawn P) (kDeliv : KDeliv P) (v : W32) (s : State) (hP : P s) :
    Out.All P (execMapEnableRequest v s) := by
  unfold execMapEnableRequest
  repeat' first
    | with_reducible apply Out.all_next
    | exact trivial
    | with_reducible assumption
    | exact rfl
    | exact fun _ => ⟨rfl, rfl, rfl⟩
    | with_reducible apply State.mapCtl?_keeps kErr kQue kHdg kPut kCop kMap kTop kMcs kChan kEcc kJnp kBox kYew kHly kSys kWr kDrawn kDeliv
    | with_reducible apply State.access_keeps kPwr kResp
    | dsimp only
    | split
    | intro _

theorem execMapEnableSet_keeps {P : State → Prop} (kErr : KErr P) (kQue : KQue P) (kHdg : KHdg P) (kPut : KPut P) (kCop : KCop P) (kMap : KMap P) (kTop : KTop P) (kMcs : KMcs P) (kChan : KChan P) (kEcc : KEcc P) (kJnp : KJnp P) (kBox : KBox P) (kYew : KYew P) (kHly : KHly P) (kPwr : KPwr P) (kSys : KSys P) (kWr : KWr P) (kResp : KResp P) (kDrawn : KDrawn P) (kDeliv : KDeliv P) (v : W32) (r : MapRestore) (s : State) (hP : P s) :
    Out.All P (execMapEnableSet v r s) := by
  unfold execMapEnableSet
  repeat' first
    | with_reducible apply Out.all_next
    | exact trivial
    | with_reducible assumption
    | exact rfl
    | exact fun _ => ⟨rfl, rfl, rfl⟩
    | with_reducible apply when_keeps
    | with_reducible apply State.mapCtl?_keeps kErr kQue kHdg kPut kCop kMap kTop kMcs kChan kEcc kJnp kBox kYew kHly kSys kWr kDrawn kDeliv
    | with_reducible apply State.access_keeps kPwr kResp
    | with_reducible apply State.mapRestore_keeps kErr kQue kHdg kPut kMap kSys kWr kDrawn
    | dsimp only
    | split
    | intro _

end Sys2Proof.Machine
end

