-- ==== Sys2Proof/Laws/KeepsHoldup.lean ====
section
/-!
SUPPORT. What the operations of Machine/Holdup.lean can do: each one keeps every property of a state that its own primitive
updates keep. The hypotheses of a lemma name every unit the operation can reach.
-/
namespace Sys2Proof.Machine

theorem State.tellHoldup_keeps {P : State → Prop} (kMcs : KMcs P) (s : State) (hP : P s) :
 P (State.tellHoldup s) := by
  unfold State.tellHoldup
  repeat' first
    | with_reducible assumption
    | exact rfl
    | exact fun _ => ⟨rfl, rfl, rfl⟩
    | with_reducible apply State.raiseEv_keeps kMcs
    | with_reducible apply when_keeps
    | with_reducible apply each_keeps
    | dsimp only
    | split
    | intro _

theorem State.yewHoldup_keeps {P : State → Prop} (kErr : KErr P) (kYew : KYew P) (kWr : KWr P) (s : State) (hP : P s) :
 P (State.yewHoldup s) := by
  unfold State.yewHoldup
  repeat' first
    | with_reducible assumption
    | exact rfl
    | exact fun _ => ⟨rfl, rfl, rfl⟩
    | with_reducible apply each_keeps
    | with_reducible apply State.ySuspendNow_keeps kErr kYew kWr
    | dsimp only
    | split
    | intro _

theorem State.holdBegin_keeps {P : State → Prop} (kErr : KErr P) (kQue : KQue P) (kHdg : KHdg P) (kPut : KPut P) (kCop : KCop P) (kMap : KMap P) (kTop : KTop P) (kMcs : KMcs P) (kChan : KChan P) (kEcc : KEcc P) (kJnp : KJnp P) (kBox : KBox P) (kYew : KYew P) (kHly : KHly P) (kPwr : KPwr P) (kSys : KSys P) (kWr : KWr P) (kDrawn : KDrawn P) (kDeliv : KDeliv P) (s : State) (hP : P s) :
 P (State.holdBegin s) := by
  unfold State.holdBegin
  repeat' first
    | with_reducible assumption
    | exact rfl
    | exact fun _ => ⟨rfl, rfl, rfl⟩
    | with_reducible apply kPwr
    | with_reducible apply State.cutXor_keeps kErr kHdg kPut kCop kTop kMcs kChan kEcc kJnp kBox kHly kWr kDrawn
    | with_reducible apply State.cutLadder_keeps kErr kHdg kPut kTop kChan kEcc kJnp kBox kHly kWr kDrawn
    | with_reducible apply State.kickAll_keeps kErr kTop kMcs kChan kEcc kBox kWr
    | with_reducible apply State.holdBack_keeps kTop kBox kWr
    | with_reducible apply State.yewHoldup_keeps kErr kYew kWr
    | with_reducible apply State.cutActs_keeps kQue kTop kChan kHly kSys kWr
    | with_reducible apply State.settle_keeps kErr kQue kHdg kPut kCop kMap kTop kMcs kChan kEcc kJnp kBox kYew kHly kSys kWr kDrawn kDeliv
    | with_reducible apply State.dropEntry_keeps kQue kPwr kSys kWr
    | with_reducible apply State.actHoldup_keeps kErr kQue kTop kMcs kChan kEcc kBox kHly kSys kWr
    | with_reducible apply State.setb_keeps kWr
    | with_reducible apply State.relive_keeps kTop kWr
    | dsimp only
    | split
    | intro _

theorem State.warnLow_keeps {P : State → Prop} (kErr : KErr P) (kQue : KQue P) (kHdg : KHdg P) (kPut : KPut P) (kCop : KCop P) (kMap : KMap P) (kTop : KTop P) (kMcs : KMcs P) (kChan : KChan P) (kEcc : KEcc P) (kJnp : KJnp P) (kBox : KBox P) (kYew : KYew P) (kHly : KHly P) (kPwr : KPwr P) (kSys : KSys P) (kWr : KWr P) (kDrawn : KDrawn P) (kDeliv : KDeliv P) (s : State) (hP : P s) :
 P (State.warnLow s) := by
  unfold State.warnLow
  repeat' first
    | with_reducible assumption
    | exact rfl
    | exact fun _ => ⟨rfl, rfl, rfl⟩
    | with_reducible apply State.tellHoldup_keeps kMcs
    | with_reducible apply kPwr
    | with_reducible apply State.holdBegin_keeps kErr kQue kHdg kPut kCop kMap kTop kMcs kChan kEcc kJnp kBox kYew kHly kPwr kSys kWr kDrawn kDeliv
    | with_reducible apply State.setb_keeps kWr
    | dsimp only
    | split
    | intro _

theorem State.flushEnd_keeps {P : State → Prop} (kPwr : KPwr P) (s : State) (hP : P s) :
 P (State.flushEnd s) := by
  unfold State.flushEnd
  repeat' first
    | with_reducible assumption
    | exact rfl
    | exact fun _ => ⟨rfl, rfl, rfl⟩
    | with_reducible apply kPwr
    | dsimp only
    | split
    | intro _

theorem State.moveEntry_keeps {P : State → Prop} (kMap : KMap P) (s : State) (d : Dirty) (pfa : Nat) (hP : P s) :
 P (State.moveEntry s d pfa) := by
  unfold State.moveEntry
  repeat' first
    | with_reducible assumption
    | exact rfl
    | exact fun _ => ⟨rfl, rfl, rfl⟩
    | with_reducible apply kMap
    | dsimp only
    | split
    | intro _

theorem State.bandCode_keeps {P : State → Prop} (kQue : KQue P) (kBox : KBox P) (kPwr : KPwr P) (kWr : KWr P) (s : State) (c pfa : Nat) (frame : List Byte) (hP : P s) :
 P (State.bandCode s c pfa frame) := by
  unfold State.bandCode
  repeat' first
    | with_reducible assumption
    | exact rfl
    | exact fun _ => ⟨rfl, rfl, rfl⟩
    | with_reducible apply State.energy_keeps kQue kBox kWr
    | with_reducible apply kPwr
    | dsimp only
    | split
    | intro _

theorem State.flushFrame_keeps {P : State → Prop} (kErr : KErr P) (kQue : KQue P) (kHdg : KHdg P) (kPut : KPut P) (kCop : KCop P) (kMap : KMap P) (kTop : KTop P) (kEcc : KEcc P) (kBox : KBox P) (kHly : KHly P) (kPwr : KPwr P) (kSys : KSys P) (kWr : KWr P) (kDrawn : KDrawn P) (s : State) (d : Dirty) (pfa : Nat) (hP : P s) :
 P (State.flushFrame s d pfa) := by
  unfold State.flushFrame
  repeat' first
    | with_reducible assumption
    | exact rfl
    | exact fun _ => ⟨rfl, rfl, rfl⟩
    | with_reducible apply kPwr
    | with_reducible apply State.progDone_keeps kQue kTop kSys kWr
    | with_reducible apply State.dirtyCrc_keeps kErr kQue kHdg kPut kCop kMap kTop kEcc kHly kSys kWr kDrawn
    | with_reducible apply State.bandCode_keeps kQue kBox kPwr kWr
    | with_reducible apply State.padPf_keeps kTop kWr
    | with_reducible apply State.tryUpds_keeps kErr kQue kHdg kPut kMap kTop kEcc kHly kWr kDrawn
    | with_reducible apply State.moveEntry_keeps kMap
    | with_reducible apply when_keeps
    | with_reducible apply State.dirtyEnd_keeps kErr kQue kHdg kPut kCop kMap kWr
    | with_reducible apply State.dirtyFrame_keeps kErr kQue kWr kDrawn
    | with_reducible refine State.dirtyFrame_keeps' kErr kQue kWr kDrawn ‹_ = (_, _)› ?_
    | dsimp only
    | split
    | intro _

theorem State.bandMap_keeps {P : State → Prop} (kQue : KQue P) (kMap : KMap P) (kTop : KTop P) (kBox : KBox P) (kPwr : KPwr P) (kWr : KWr P) (s : State) (f : PFrame) (ok : Bool) (hP : P s) :
 P (State.bandMap s f ok) := by
  unfold State.bandMap
  repeat' first
    | with_reducible assumption
    | exact rfl
    | exact fun _ => ⟨rfl, rfl, rfl⟩
    | with_reducible apply kPwr
    | with_reducible apply kTop
    | with_reducible apply State.onWb_keeps kMap
    | with_reducible apply when_keeps
    | with_reducible apply State.bandCode_keeps kQue kBox kPwr kWr
    | dsimp only
    | split
    | intro _

theorem State.bandPass_keeps {P : State → Prop} (kErr : KErr P) (kQue : KQue P) (kHdg : KHdg P) (kPut : KPut P) (kCop : KCop P) (kMap : KMap P) (kTop : KTop P) (kMcs : KMcs P) (kChan : KChan P) (kEcc : KEcc P) (kJnp : KJnp P) (kBox : KBox P) (kYew : KYew P) (kHly : KHly P) (kPwr : KPwr P) (kSys : KSys P) (kWr : KWr P) (kDrawn : KDrawn P) (kDeliv : KDeliv P) (s : State) (r : BandRes) (hP : P s) :
 P (State.bandPass s r) := by
  unfold State.bandPass
  repeat' first
    | with_reducible assumption
    | exact rfl
    | exact fun _ => ⟨rfl, rfl, rfl⟩
    | with_reducible apply State.flushFrame_keeps kErr kQue kHdg kPut kCop kMap kTop kEcc kBox kHly kPwr kSys kWr kDrawn
    | with_reducible apply kPwr
    | with_reducible apply each_keeps
    | with_reducible apply State.onBand_keeps kPwr
    | with_reducible apply State.flushEnd_keeps kPwr
    | with_reducible apply State.settle_keeps kErr kQue kHdg kPut kCop kMap kTop kMcs kChan kEcc kJnp kBox kYew kHly kSys kWr kDrawn kDeliv
    | with_reducible apply State.energy_keeps kQue kBox kWr
    | with_reducible apply State.bandMap_keeps kQue kMap kTop kBox kPwr kWr
    | with_reducible apply foldl_keeps
    | with_reducible apply foldl2_keeps
    | with_reducible apply foldl3_keeps
    | dsimp only
    | split
    | intro _

theorem State.jNow_keeps {P : State → Prop} (kYew : KYew P) (s : State) (l : List Nat) (hP : P s) :
 P (State.jNow s l) := by
  unfold State.jNow
  repeat' first
    | with_reducible assumption
    | exact rfl
    | exact fun _ => ⟨rfl, rfl, rfl⟩
    | with_reducible apply State.yPut_keeps kYew
    | with_reducible apply each_keeps
    | with_reducible apply kYew
    | dsimp only
    | split
    | intro _

theorem State.writePoints_keeps {P : State → Prop} (kDrawn : KDrawn P) (s : State) (hP : P s) :
 P (State.writePoints s).2 := by
  unfold State.writePoints
  repeat' first
    | with_reducible assumption
    | exact rfl
    | exact fun _ => ⟨rfl, rfl, rfl⟩
    | with_reducible apply State.draw_keeps kDrawn
    | with_reducible refine State.draw_keeps' kDrawn ‹_ = (_, _)› ?_
    | with_reducible apply foldl_keeps
    | with_reducible apply foldl2_keeps
    | with_reducible apply foldl3_keeps
    | dsimp only
    | split
    | intro _

theorem State.writePoints_keeps' {P : State → Prop} (kDrawn : KDrawn P) {s : State} {x0 : List Nat} {t : State}
    (hE : State.writePoints s = (x0, t)) (hP : P s)  : P t := by
  have h := State.writePoints_keeps kDrawn s hP
  rw [hE] at h
  exact h

theorem State.holdEnd_keeps {P : State → Prop} (kErr : KErr P) (kQue : KQue P) (kHdg : KHdg P) (kPut : KPut P) (kCop : KCop P) (kMap : KMap P) (kTop : KTop P) (kMcs : KMcs P) (kChan : KChan P) (kEcc : KEcc P) (kJnp : KJnp P) (kBox : KBox P) (kYew : KYew P) (kHly : KHly P) (kPwr : KPwr P) (kSys : KSys P) (kWr : KWr P) (kDrawn : KDrawn P) (kDeliv : KDeliv P) (s : State) (hP : P s) :
 P (State.holdEnd s) := by
  unfold State.holdEnd
  repeat' first
    | with_reducible assumption
    | exact rfl
    | exact fun _ => ⟨rfl, rfl, rfl⟩
    | with_reducible apply kPwr
    | with_reducible apply State.kickAll_keeps kErr kTop kMcs kChan kEcc kBox kWr
    | with_reducible apply State.settle_keeps kErr kQue kHdg kPut kCop kMap kTop kMcs kChan kEcc kJnp kBox kYew kHly kSys kWr kDrawn kDeliv
    | with_reducible apply State.relive_keeps kTop kWr
    | with_reducible apply kWr
    | dsimp only
    | split
    | intro _

theorem State.holdRecords_keeps {P : State → Prop} (kErr : KErr P) (kQue : KQue P) (kHdg : KHdg P) (kPut : KPut P) (kCop : KCop P) (kMap : KMap P) (kTop : KTop P) (kMcs : KMcs P) (kChan : KChan P) (kEcc : KEcc P) (kJnp : KJnp P) (kBox : KBox P) (kYew : KYew P) (kHly : KHly P) (kPwr : KPwr P) (kSys : KSys P) (kWr : KWr P) (kDrawn : KDrawn P) (kDeliv : KDeliv P) (s : State) (hP : P s) :
 P (State.holdRecords s) := by
  unfold State.holdRecords
  repeat' first
    | with_reducible assumption
    | exact rfl
    | exact fun _ => ⟨rfl, rfl, rfl⟩
    | with_reducible apply State.jNow_keeps kYew
    | with_reducible apply kPwr
    | with_reducible apply State.holdEnd_keeps kErr kQue kHdg kPut kCop kMap kTop kMcs kChan kEcc kJnp kBox kYew kHly kPwr kSys kWr kDrawn kDeliv
    | with_reducible apply State.setb_keeps kWr
    | with_reducible apply kWr
    | with_reducible apply State.writePoints_keeps kDrawn
    | with_reducible refine State.writePoints_keeps' kDrawn ‹_ = (_, _)› ?_
    | dsimp only
    | split
    | intro _

theorem execHoldupWarnAssert_keeps {P : State → Prop} (kErr : KErr P) (kQue : KQue P) (kHdg : KHdg P) (kPut : KPut P) (kCop : KCop P) (kMap : KMap P) (kTop : KTop P) (kMcs : KMcs P) (kChan : KChan P) (kEcc : KEcc P) (kJnp : KJnp P) (kBox : KBox P) (kYew : KYew P) (kHly : KHly P) (kPwr : KPwr P) (kSys : KSys P) (kWr : KWr P) (kDrawn : KDrawn P) (kDeliv : KDeliv P) (s : State) (hP : P s) :
    Out.All P (execHoldupWarnAssert s) := by
  unfold execHoldupWarnAssert
  repeat' first
    | with_reducible apply Out.all_next
    | exact trivial
    | with_reducible assumption
    | exact rfl
    | exact fun _ => ⟨rfl, rfl, rfl⟩
    | with_reducible apply State.warnLow_keeps kErr kQue kHdg kPut kCop kMap kTop kMcs kChan kEcc kJnp kBox kYew kHly kPwr kSys kWr kDrawn kDeliv
    | dsimp only
    | split
    | intro _

theorem execHoldupDrainDone_keeps {P : State → Prop} (kPwr : KPwr P) (s : State) (hP : P s) :
    Out.All P (execHoldupDrainDone s) := by
  unfold execHoldupDrainDone
  repeat' first
    | with_reducible apply Out.all_next
    | exact trivial
    | with_reducible assumption
    | exact rfl
    | exact fun _ => ⟨rfl, rfl, rfl⟩
    | with_reducible apply kPwr
    | with_reducible apply State.flushEnd_keeps kPwr
    | dsimp only
    | split
    | intro _

theorem execHoldupBandPassDone_keeps {P : State → Prop} (kErr : KErr P) (kQue : KQue P) (kHdg : KHdg P) (kPut : KPut P) (kCop : KCop P) (kMap : KMap P) (kTop : KTop P) (kMcs : KMcs P) (kChan : KChan P) (kEcc : KEcc P) (kJnp : KJnp P) (kBox : KBox P) (kYew : KYew P) (kHly : KHly P) (kPwr : KPwr P) (kSys : KSys P) (kWr : KWr P) (kDrawn : KDrawn P) (kDeliv : KDeliv P) (r : BandRes) (s : State) (hP : P s) :
    Out.All P (execHoldupBandPassDone r s) := by
  unfold execHoldupBandPassDone
  repeat' first
    | with_reducible apply Out.all_next
    | exact trivial
    | with_reducible assumption
    | exact rfl
    | exact fun _ => ⟨rfl, rfl, rfl⟩
    | with_reducible apply State.bandPass_keeps kErr kQue kHdg kPut kCop kMap kTop kMcs kChan kEcc kJnp kBox kYew kHly kPwr kSys kWr kDrawn kDeliv
    | dsimp only
    | split
    | intro _

theorem execHoldupRecordsDone_keeps {P : State → Prop} (kErr : KErr P) (kQue : KQue P) (kHdg : KHdg P) (kPut : KPut P) (kCop : KCop P) (kMap : KMap P) (kTop : KTop P) (kMcs : KMcs P) (kChan : KChan P) (kEcc : KEcc P) (kJnp : KJnp P) (kBox : KBox P) (kYew : KYew P) (kHly : KHly P) (kPwr : KPwr P) (kSys : KSys P) (kWr : KWr P) (kDrawn : KDrawn P) (kDeliv : KDeliv P) (s : State) (hP : P s) :
    Out.All P (execHoldupRecordsDone s) := by
  unfold execHoldupRecordsDone
  repeat' first
    | with_reducible apply Out.all_next
    | exact trivial
    | with_reducible assumption
    | exact rfl
    | exact fun _ => ⟨rfl, rfl, rfl⟩
    | with_reducible apply State.holdRecords_keeps kErr kQue kHdg kPut kCop kMap kTop kMcs kChan kEcc kJnp kBox kYew kHly kPwr kSys kWr kDrawn kDeliv
    | dsimp only
    | split
    | intro _

theorem execHoldupWarnDeassert_keeps {P : State → Prop} (kErr : KErr P) (kQue : KQue P) (kHdg : KHdg P) (kPut : KPut P) (kCop : KCop P) (kMap : KMap P) (kTop : KTop P) (kMcs : KMcs P) (kChan : KChan P) (kEcc : KEcc P) (kJnp : KJnp P) (kBox : KBox P) (kYew : KYew P) (kHly : KHly P) (kPwr : KPwr P) (kSys : KSys P) (kWr : KWr P) (kDrawn : KDrawn P) (kDeliv : KDeliv P) (s : State) (hP : P s) :
    Out.All P (execHoldupWarnDeassert s) := by
  unfold execHoldupWarnDeassert
  repeat' first
    | with_reducible apply Out.all_next
    | exact trivial
    | with_reducible assumption
    | exact rfl
    | exact fun _ => ⟨rfl, rfl, rfl⟩
    | with_reducible apply kPwr
    | with_reducible apply State.holdEnd_keeps kErr kQue kHdg kPut kCop kMap kTop kMcs kChan kEcc kJnp kBox kYew kHly kPwr kSys kWr kDrawn kDeliv
    | with_reducible apply State.relive_keeps kTop kWr
    | dsimp only
    | split
    | intro _

end Sys2Proof.Machine
end

