-- ==== Sys2Proof/Laws/KeepsJunRows.lean ====
section
/-!
SUPPORT. What the operations of Machine/JunRows.lean can do: each one keeps every property of a state that its own primitive
updates keep. The hypotheses of a lemma name every unit the operation can reach.
-/
namespace Sys2Proof.Machine

theorem State.moveRecords_keeps {P : State → Prop} (kErr : KErr P) (kHdg : KHdg P) (kPut : KPut P) (kJnp : KJnp P) (kWr : KWr P) (s : State) (hP : P s) :
 P (State.moveRecords s) := by
  unfold State.moveRecords
  repeat' first
    | with_reducible assumption
    | exact rfl
    | exact fun _ => ⟨rfl, rfl, rfl⟩
    | with_reducible apply each_keeps
    | with_reducible apply State.grpWrite_keeps kErr kHdg kPut kJnp kWr
    | dsimp only
    | split
    | intro _

theorem State.tellNumbers_keeps {P : State → Prop} (kJnp : KJnp P) (s : State) (hP : P s) :
 P (State.tellNumbers s) := by
  unfold State.tellNumbers
  repeat' first
    | with_reducible assumption
    | exact rfl
    | exact fun _ => ⟨rfl, rfl, rfl⟩
    | with_reducible apply kJnp
    | with_reducible apply foldl_keeps
    | with_reducible apply foldl2_keeps
    | with_reducible apply foldl3_keeps
    | dsimp only
    | split
    | intro _

theorem State.numberGroups_keeps {P : State → Prop} (kErr : KErr P) (kHdg : KHdg P) (kPut : KPut P) (kJnp : KJnp P) (kWr : KWr P) (s : State) (new : List Nat) (hP : P s) :
 P (State.numberGroups s new) := by
  unfold State.numberGroups
  repeat' first
    | with_reducible assumption
    | exact rfl
    | exact fun _ => ⟨rfl, rfl, rfl⟩
    | with_reducible apply State.moveRecords_keeps kErr kHdg kPut kJnp kWr
    | with_reducible apply State.tellNumbers_keeps kJnp
    | with_reducible apply kJnp
    | with_reducible apply kWr
    | dsimp only
    | split
    | intro _

theorem State.loadSector_keeps {P : State → Prop} (kErr : KErr P) (kHdg : KHdg P) (kPut : KPut P) (kJnp : KJnp P) (kWr : KWr P) (s : State) (k : Nat) (hP : P s) :
 P (State.loadSector s k) := by
  unfold State.loadSector
  repeat' first
    | with_reducible assumption
    | exact rfl
    | exact fun _ => ⟨rfl, rfl, rfl⟩
    | with_reducible apply State.hWrite_keeps kErr kHdg kPut kWr
    | with_reducible apply State.err1_keeps kErr kWr
    | with_reducible apply State.grpTouch_keeps kJnp
    | dsimp only
    | split
    | intro _

theorem State.jnpTable_keeps {P : State → Prop} (kErr : KErr P) (kHdg : KHdg P) (kPut : KPut P) (kJnp : KJnp P) (kWr : KWr P) (s : State) (v : Nat) (hP : P s) :
 P (State.jnpTable s v) := by
  unfold State.jnpTable
  repeat' first
    | with_reducible assumption
    | exact rfl
    | exact fun _ => ⟨rfl, rfl, rfl⟩
    | with_reducible apply State.setb_keeps kWr
    | with_reducible apply State.loadSector_keeps kErr kHdg kPut kJnp kWr
    | with_reducible apply State.moveRecords_keeps kErr kHdg kPut kJnp kWr
    | with_reducible apply each_keeps
    | with_reducible apply State.tellNumbers_keeps kJnp
    | with_reducible apply kWr
    | dsimp only
    | split
    | intro _

theorem State.ckptStart_keeps {P : State → Prop} (kErr : KErr P) (kHdg : KHdg P) (kPut : KPut P) (kJnp : KJnp P) (kYew : KYew P) (kWr : KWr P) (kDrawn : KDrawn P) (s : State) (hP : P s) :
 P (State.ckptStart s) := by
  unfold State.ckptStart
  repeat' first
    | with_reducible assumption
    | exact rfl
    | exact fun _ => ⟨rfl, rfl, rfl⟩
    | with_reducible apply State.jnpCheckpoint_keeps kErr kHdg kPut kJnp kYew kWr kDrawn
    | dsimp only
    | split
    | intro _

theorem State.jnpCkpt_keeps {P : State → Prop} (kErr : KErr P) (kHdg : KHdg P) (kPut : KPut P) (kJnp : KJnp P) (kYew : KYew P) (kWr : KWr P) (kDrawn : KDrawn P) (s : State) (v : Nat) (hP : P s) :
 P (State.jnpCkpt s v) := by
  unfold State.jnpCkpt
  repeat' first
    | with_reducible assumption
    | exact rfl
    | exact fun _ => ⟨rfl, rfl, rfl⟩
    | with_reducible apply State.ckptStart_keeps kErr kHdg kPut kJnp kYew kWr kDrawn
    | with_reducible apply when_keeps
    | with_reducible apply kWr
    | dsimp only
    | split
    | intro _

theorem State.clrHealth_keeps {P : State → Prop} (kErr : KErr P) (kHdg : KHdg P) (kPut : KPut P) (kJnp : KJnp P) (kWr : KWr P) (s : State) (g : Nat) (hP : P s) :
 P (State.clrHealth s g) := by
  unfold State.clrHealth
  repeat' first
    | with_reducible assumption
    | exact rfl
    | exact fun _ => ⟨rfl, rfl, rfl⟩
    | with_reducible apply State.grpWrite_keeps kErr kHdg kPut kJnp kWr
    | dsimp only
    | split
    | intro _

theorem State.clrWear_keeps {P : State → Prop} (kErr : KErr P) (kHdg : KHdg P) (kPut : KPut P) (kJnp : KJnp P) (kWr : KWr P) (kDrawn : KDrawn P) (s : State) (g : Nat) (hP : P s) :
 P (State.clrWear s g) := by
  unfold State.clrWear
  repeat' first
    | with_reducible assumption
    | exact rfl
    | exact fun _ => ⟨rfl, rfl, rfl⟩
    | with_reducible apply State.grpWrite_keeps kErr kHdg kPut kJnp kWr
    | with_reducible apply State.grpRead_keeps kErr kHdg kPut kJnp kWr kDrawn
    | with_reducible refine State.grpRead_keeps' kErr kHdg kPut kJnp kWr kDrawn ‹_ = (_, _)› ?_
    | dsimp only
    | split
    | intro _

theorem State.clrTrack_keeps {P : State → Prop} (kErr : KErr P) (kHdg : KHdg P) (kPut : KPut P) (kJnp : KJnp P) (kWr : KWr P) (kDrawn : KDrawn P) (s : State) (g : Nat) (hP : P s) :
 P (State.clrTrack s g) := by
  unfold State.clrTrack
  repeat' first
    | with_reducible assumption
    | exact rfl
    | exact fun _ => ⟨rfl, rfl, rfl⟩
    | with_reducible apply State.grpWrite_keeps kErr kHdg kPut kJnp kWr
    | with_reducible apply State.grpRead_keeps kErr kHdg kPut kJnp kWr kDrawn
    | with_reducible refine State.grpRead_keeps' kErr kHdg kPut kJnp kWr kDrawn ‹_ = (_, _)› ?_
    | dsimp only
    | split
    | intro _

theorem State.grpClr_keeps {P : State → Prop} (kErr : KErr P) (kHdg : KHdg P) (kPut : KPut P) (kJnp : KJnp P) (kWr : KWr P) (kDrawn : KDrawn P) (s : State) (v : Nat) (hP : P s) :
 P (State.grpClr s v) := by
  unfold State.grpClr
  repeat' first
    | with_reducible assumption
    | exact rfl
    | exact fun _ => ⟨rfl, rfl, rfl⟩
    | with_reducible apply when_keeps
    | with_reducible apply State.clrTrack_keeps kErr kHdg kPut kJnp kWr kDrawn
    | with_reducible apply State.clrWear_keeps kErr kHdg kPut kJnp kWr kDrawn
    | with_reducible apply State.clrHealth_keeps kErr kHdg kPut kJnp kWr
    | dsimp only
    | split
    | intro _

theorem execJnpTableEnable_keeps {P : State → Prop} (kErr : KErr P) (kHdg : KHdg P) (kPut : KPut P) (kJnp : KJnp P) (kPwr : KPwr P) (kWr : KWr P) (kResp : KResp P) (m : Master) (v : W32) (s : State) (hP : P s) :
    Out.All P (execJnpTableEnable m v s) := by
  unfold execJnpTableEnable
  repeat' first
    | with_reducible apply Out.all_next
    | exact trivial
    | with_reducible assumption
    | exact rfl
    | exact fun _ => ⟨rfl, rfl, rfl⟩
    | with_reducible apply State.jnpTable_keeps kErr kHdg kPut kJnp kWr
    | with_reducible apply State.access_keeps kPwr kResp
    | dsimp only
    | split
    | intro _

theorem execJnpCheckpointPeriod_keeps {P : State → Prop} (kErr : KErr P) (kHdg : KHdg P) (kPut : KPut P) (kJnp : KJnp P) (kYew : KYew P) (kWr : KWr P) (kDrawn : KDrawn P) (s : State) (hP : P s) :
    Out.All P (execJnpCheckpointPeriod s) := by
  unfold execJnpCheckpointPeriod
  repeat' first
    | with_reducible apply Out.all_next
    | exact trivial
    | with_reducible assumption
    | exact rfl
    | exact fun _ => ⟨rfl, rfl, rfl⟩
    | with_reducible apply State.ckptStart_keeps kErr kHdg kPut kJnp kYew kWr kDrawn
    | with_reducible apply when_keeps
    | dsimp only
    | split
    | intro _

theorem execJnpCkptNow_keeps {P : State → Prop} (kErr : KErr P) (kHdg : KHdg P) (kPut : KPut P) (kJnp : KJnp P) (kYew : KYew P) (kPwr : KPwr P) (kWr : KWr P) (kResp : KResp P) (kDrawn : KDrawn P) (m : Master) (v : W32) (s : State) (hP : P s) :
    Out.All P (execJnpCkptNow m v s) := by
  unfold execJnpCkptNow
  repeat' first
    | with_reducible apply Out.all_next
    | exact trivial
    | with_reducible assumption
    | exact rfl
    | exact fun _ => ⟨rfl, rfl, rfl⟩
    | with_reducible apply State.jnpCkpt_keeps kErr kHdg kPut kJnp kYew kWr kDrawn
    | with_reducible apply State.access_keeps kPwr kResp
    | dsimp only
    | split
    | intro _

theorem execJnpGrpClrHealth_keeps {P : State → Prop} (kErr : KErr P) (kHdg : KHdg P) (kPut : KPut P) (kJnp : KJnp P) (kPwr : KPwr P) (kWr : KWr P) (kResp : KResp P) (kDrawn : KDrawn P) (m : Master) (v : W32) (s : State) (hP : P s) :
    Out.All P (execJnpGrpClrHealth m v s) := by
  unfold execJnpGrpClrHealth
  repeat' first
    | with_reducible apply Out.all_next
    | exact trivial
    | with_reducible assumption
    | exact rfl
    | exact fun _ => ⟨rfl, rfl, rfl⟩
    | with_reducible apply State.grpClr_keeps kErr kHdg kPut kJnp kWr kDrawn
    | with_reducible apply State.access_keeps kPwr kResp
    | dsimp only
    | split
    | intro _

theorem execJnpGrpClrWear_keeps {P : State → Prop} (kErr : KErr P) (kHdg : KHdg P) (kPut : KPut P) (kJnp : KJnp P) (kPwr : KPwr P) (kWr : KWr P) (kResp : KResp P) (kDrawn : KDrawn P) (m : Master) (v : W32) (s : State) (hP : P s) :
    Out.All P (execJnpGrpClrWear m v s) := by
  unfold execJnpGrpClrWear
  repeat' first
    | with_reducible apply Out.all_next
    | exact trivial
    | with_reducible assumption
    | exact rfl
    | exact fun _ => ⟨rfl, rfl, rfl⟩
    | with_reducible apply State.grpClr_keeps kErr kHdg kPut kJnp kWr kDrawn
    | with_reducible apply State.access_keeps kPwr kResp
    | dsimp only
    | split
    | intro _

theorem execJnpGrpClrTrack_keeps {P : State → Prop} (kErr : KErr P) (kHdg : KHdg P) (kPut : KPut P) (kJnp : KJnp P) (kPwr : KPwr P) (kWr : KWr P) (kResp : KResp P) (kDrawn : KDrawn P) (m : Master) (v : W32) (s : State) (hP : P s) :
    Out.All P (execJnpGrpClrTrack m v s) := by
  unfold execJnpGrpClrTrack
  repeat' first
    | with_reducible apply Out.all_next
    | exact trivial
    | with_reducible assumption
    | exact rfl
    | exact fun _ => ⟨rfl, rfl, rfl⟩
    | with_reducible apply State.grpClr_keeps kErr kHdg kPut kJnp kWr kDrawn
    | with_reducible apply State.access_keeps kPwr kResp
    | dsimp only
    | split
    | intro _

theorem execEpochTick_keeps {P : State → Prop} (kWr : KWr P) (s : State) (hP : P s) :
    Out.All P (execEpochTick s) := by
  unfold execEpochTick
  repeat' first
    | with_reducible apply Out.all_next
    | exact trivial
    | with_reducible assumption
    | exact rfl
    | exact fun _ => ⟨rfl, rfl, rfl⟩
    | with_reducible apply kWr
    | dsimp only
    | split
    | intro _

end Sys2Proof.Machine
end

