-- ==== Sys2Proof/Laws/KeepsPower.lean ====
section
/-!
SUPPORT. What the operations of Machine/Power.lean can do: each one keeps every property of a state that its own primitive
updates keep. The hypotheses of a lemma name every unit the operation can reach.
-/
namespace Sys2Proof.Machine

theorem State.stagger_keeps {P : State → Prop} (kPwr : KPwr P) (s : State) (hP : P s) :
 P (State.stagger s) := by
  unfold State.stagger
  repeat' first
    | with_reducible assumption
    | exact rfl
    | exact fun _ => ⟨rfl, rfl, rfl⟩
    | with_reducible apply kPwr
    | with_reducible apply foldl_keeps
    | with_reducible apply foldl2_keeps
    | with_reducible apply foldl3_keeps
    | dsimp only
    | split
    | intro _

theorem State.toWarm_keeps {P : State → Prop} (kWr : KWr P) (s : State) (l : List Fld) (hP : P s) (hA : (l.all fun F => F.warm.isNone || !(F.acc == Access.lock)) = true) :
 P (State.toWarm s l) := by
  unfold State.toWarm
  refine each_keeps _ _ _ (fun s F hF h => ?_) hP
  have h2 := List.all_eq_true.mp hA F hF
  split
  · rename_i w hw
    refine kWr _ _ _ ?_ h
    rw [hw] at h2
    simpa using h2
  · exact h

theorem State.replacePower_keeps {P : State → Prop} (kQue : KQue P) (kPwr : KPwr P) (kSys : KSys P) (kWr : KWr P) (s : State) (hP : P s) :
 P (State.replacePower s) := by
  unfold State.replacePower
  repeat' first
    | with_reducible assumption
    | exact rfl
    | exact fun _ => ⟨rfl, rfl, rfl⟩
    | with_reducible apply kPwr
    | with_reducible apply State.deferPower_keeps kQue kSys kWr
    | with_reducible apply State.unrequest_keeps kQue
    | dsimp only
    | split
    | intro _

theorem State.powerBegin_keeps {P : State → Prop} (kQue : KQue P) (kPwr : KPwr P) (kSys : KSys P) (kWr : KWr P) (s : State) (tag target : Nat) (hP : P s) :
 P (State.powerBegin s tag target) := by
  unfold State.powerBegin
  repeat' first
    | with_reducible assumption
    | exact rfl
    | exact fun _ => ⟨rfl, rfl, rfl⟩
    | with_reducible apply kPwr
    | with_reducible apply State.replacePower_keeps kQue kPwr kSys kWr
    | with_reducible apply State.running_keeps kQue
    | dsimp only
    | split
    | intro _

theorem State.entryQuiet_keeps {P : State → Prop} (kErr : KErr P) (kQue : KQue P) (kHdg : KHdg P) (kPut : KPut P) (kCop : KCop P) (kMap : KMap P) (kTop : KTop P) (kMcs : KMcs P) (kChan : KChan P) (kEcc : KEcc P) (kJnp : KJnp P) (kBox : KBox P) (kYew : KYew P) (kHly : KHly P) (kSys : KSys P) (kWr : KWr P) (kDrawn : KDrawn P) (kDeliv : KDeliv P) (s : State) (hP : P s) :
 P (State.entryQuiet s) := by
  unfold State.entryQuiet
  repeat' first
    | with_reducible assumption
    | exact rfl
    | exact fun _ => ⟨rfl, rfl, rfl⟩
    | with_reducible apply State.settle_keeps kErr kQue kHdg kPut kCop kMap kTop kMcs kChan kEcc kJnp kBox kYew kHly kSys kWr kDrawn kDeliv
    | with_reducible apply State.onCmd_keeps kQue
    | with_reducible apply State.finish_keeps kQue kSys kWr
    | dsimp only
    | split
    | intro _

theorem State.dormantReady_keeps {P : State → Prop} (kQue : KQue P) (kSys : KSys P) (kWr : KWr P) (s : State) (hP : P s) :
 P (State.dormantReady s) := by
  unfold State.dormantReady
  repeat' first
    | with_reducible assumption
    | exact rfl
    | exact fun _ => ⟨rfl, rfl, rfl⟩
    | with_reducible apply State.onCmd_keeps kQue
    | with_reducible apply State.finish_keeps kQue kSys kWr
    | dsimp only
    | split
    | intro _

theorem State.wakeIfRung_keeps {P : State → Prop} (kPwr : KPwr P) (s : State) (hP : P s) :
 P (State.wakeIfRung s) := by
  unfold State.wakeIfRung
  repeat' first
    | with_reducible assumption
    | exact rfl
    | exact fun _ => ⟨rfl, rfl, rfl⟩
    | with_reducible apply kPwr
    | dsimp only
    | split
    | intro _

theorem State.enterNap_keeps {P : State → Prop} (kHdg : KHdg P) (kMcs : KMcs P) (kPwr : KPwr P) (s : State) (hP : P s) :
 P (State.enterNap s) := by
  unfold State.enterNap
  repeat' first
    | with_reducible assumption
    | exact rfl
    | exact fun _ => ⟨rfl, rfl, rfl⟩
    | with_reducible apply kPwr
    | with_reducible apply each_keeps
    | with_reducible apply State.lapFlip_keeps kHdg
    | with_reducible apply State.wakeIfRung_keeps kPwr
    | with_reducible apply onSeq_keeps kMcs
    | dsimp only
    | split
    | intro _

theorem State.enterDormant_keeps {P : State → Prop} (kErr : KErr P) (kQue : KQue P) (kHdg : KHdg P) (kPut : KPut P) (kLost : KLost P) (kCop : KCop P) (kMap : KMap P) (kTop : KTop P) (kMcs : KMcs P) (kChan : KChan P) (kEcc : KEcc P) (kJnp : KJnp P) (kBox : KBox P) (kHly : KHly P) (kPwr : KPwr P) (kSys : KSys P) (kWr : KWr P) (s : State) (hP : P s) :
 P (State.enterDormant s) := by
  unfold State.enterDormant
  repeat' first
    | with_reducible assumption
    | exact rfl
    | exact fun _ => ⟨rfl, rfl, rfl⟩
    | with_reducible apply kPwr
    | with_reducible apply each_keeps
    | with_reducible apply kLost
    | with_reducible apply kSys
    | with_reducible apply State.domCut_keeps kErr kQue kHdg kPut kCop kMap kTop kMcs kChan kEcc kJnp kBox kHly kSys kWr
    | with_reducible apply State.lapFlip_keeps kHdg
    | with_reducible apply State.wakeIfRung_keeps kPwr
    | with_reducible apply when_keeps
    | dsimp only
    | split
    | intro _

theorem State.enterLow_keeps {P : State → Prop} (kErr : KErr P) (kQue : KQue P) (kHdg : KHdg P) (kPut : KPut P) (kLost : KLost P) (kCop : KCop P) (kMap : KMap P) (kTop : KTop P) (kMcs : KMcs P) (kChan : KChan P) (kEcc : KEcc P) (kJnp : KJnp P) (kBox : KBox P) (kHly : KHly P) (kPwr : KPwr P) (kSys : KSys P) (kWr : KWr P) (s : State) (tag : Nat) (hP : P s) :
 P (State.enterLow s tag) := by
  unfold State.enterLow
  repeat' first
    | with_reducible assumption
    | exact rfl
    | exact fun _ => ⟨rfl, rfl, rfl⟩
    | with_reducible apply State.enterNap_keeps kHdg kMcs kPwr
    | with_reducible apply State.enterDormant_keeps kErr kQue kHdg kPut kLost kCop kMap kTop kMcs kChan kEcc kJnp kBox kHly kPwr kSys kWr
    | dsimp only
    | split
    | intro _

theorem State.entryGo_keeps {P : State → Prop} (kErr : KErr P) (kQue : KQue P) (kHdg : KHdg P) (kPut : KPut P) (kLost : KLost P) (kCop : KCop P) (kMap : KMap P) (kTop : KTop P) (kMcs : KMcs P) (kChan : KChan P) (kEcc : KEcc P) (kJnp : KJnp P) (kBox : KBox P) (kHly : KHly P) (kPwr : KPwr P) (kSys : KSys P) (kWr : KWr P) (s : State) (hP : P s) :
 P (State.entryGo s) := by
  unfold State.entryGo
  repeat' first
    | with_reducible assumption
    | exact rfl
    | exact fun _ => ⟨rfl, rfl, rfl⟩
    | with_reducible apply State.enterLow_keeps kErr kQue kHdg kPut kLost kCop kMap kTop kMcs kChan kEcc kJnp kBox kHly kPwr kSys kWr
    | dsimp only
    | split
    | intro _

theorem State.relockAll_keeps {P : State → Prop} (kChan : KChan P) (s : State) (hP : P s) :
 P (State.relockAll s) := by
  unfold State.relockAll
  repeat' first
    | with_reducible assumption
    | exact rfl
    | exact fun _ => ⟨rfl, rfl, rfl⟩
    | with_reducible apply State.relock_keeps kChan
    | with_reducible apply each_keeps
    | dsimp only
    | split
    | intro _

theorem State.woke_keeps {P : State → Prop} (kPwr : KPwr P) (kWr : KWr P) (s : State) (hP : P s) :
 P (State.woke s) := by
  unfold State.woke
  repeat' first
    | with_reducible assumption
    | exact rfl
    | exact fun _ => ⟨rfl, rfl, rfl⟩
    | with_reducible apply kPwr
    | with_reducible apply State.setb_keeps kWr
    | dsimp only
    | split
    | intro _

theorem State.loadBegin_keeps {P : State → Prop} (kMcs : KMcs P) (kWr : KWr P) (s : State) (hP : P s) :
 P (State.loadBegin s) := by
  unfold State.loadBegin
  repeat' first
    | with_reducible assumption
    | exact rfl
    | exact fun _ => ⟨rfl, rfl, rfl⟩
    | with_reducible apply State.setb_keeps kWr
    | with_reducible apply kMcs
    | dsimp only
    | split
    | intro _

theorem State.dormantClk_keeps {P : State → Prop} (kQue : KQue P) (kHdg : KHdg P) (kMap : KMap P) (kTop : KTop P) (kMcs : KMcs P) (kChan : KChan P) (kBox : KBox P) (kHly : KHly P) (kPwr : KPwr P) (kSys : KSys P) (kWr : KWr P) (s : State) (hP : P s) :
 P (State.dormantClk s) := by
  unfold State.dormantClk
  repeat' first
    | with_reducible assumption
    | exact rfl
    | exact fun _ => ⟨rfl, rfl, rfl⟩
    | with_reducible apply State.jDecide_keeps kQue kMap kSys kWr
    | with_reducible apply State.loadBegin_keeps kMcs kWr
    | with_reducible apply kPwr
    | with_reducible apply State.lapFlip_keeps kHdg
    | with_reducible apply State.stagger_keeps kPwr
    | with_reducible apply State.poolBegin_keeps kWr
    | with_reducible apply State.applyLatched_keeps kTop kBox kWr
    | with_reducible apply State.relockAll_keeps kChan
    | with_reducible apply kWr
    | with_reducible apply State.hollyGo_keeps kHly kWr
    | dsimp only
    | split
    | intro _

theorem State.wokeCheck_keeps {P : State → Prop} (kPwr : KPwr P) (kWr : KWr P) (s : State) (hP : P s) :
 P (State.wokeCheck s) := by
  unfold State.wokeCheck
  repeat' first
    | with_reducible assumption
    | exact rfl
    | exact fun _ => ⟨rfl, rfl, rfl⟩
    | with_reducible apply State.woke_keeps kPwr kWr
    | dsimp only
    | split
    | intro _

theorem State.econBegin_keeps {P : State → Prop} (kPwr : KPwr P) (s : State) (tag target : Nat) (hP : P s) :
 P (State.econBegin s tag target) := by
  unfold State.econBegin
  repeat' first
    | with_reducible assumption
    | exact rfl
    | exact fun _ => ⟨rfl, rfl, rfl⟩
    | with_reducible apply kPwr
    | dsimp only
    | split
    | intro _

theorem State.powerPoint_keeps {P : State → Prop} (kQue : KQue P) (kPwr : KPwr P) (kSys : KSys P) (kWr : KWr P) (s : State) (tag target : Nat) (hP : P s) :
 P (State.powerPoint s tag target) := by
  unfold State.powerPoint
  repeat' first
    | with_reducible assumption
    | exact rfl
    | exact fun _ => ⟨rfl, rfl, rfl⟩
    | with_reducible apply kPwr
    | with_reducible apply State.replacePower_keeps kQue kPwr kSys kWr
    | with_reducible apply State.running_keeps kQue
    | with_reducible apply State.econBegin_keeps kPwr
    | with_reducible apply State.finish_keeps kQue kSys kWr
    | dsimp only
    | split
    | intro _

theorem State.vptMoved_keeps {P : State → Prop} (kErr : KErr P) (kTop : KTop P) (kChan : KChan P) (kWr : KWr P) (s : State) (hP : P s) :
 P (State.vptMoved s) := by
  unfold State.vptMoved
  repeat' first
    | with_reducible assumption
    | exact rfl
    | exact fun _ => ⟨rfl, rfl, rfl⟩
    | with_reducible apply State.flag_keeps kErr kTop kChan kWr
    | with_reducible apply each_keeps
    | dsimp only
    | split
    | intro _

theorem State.econEnd_keeps {P : State → Prop} (kErr : KErr P) (kQue : KQue P) (kTop : KTop P) (kMcs : KMcs P) (kChan : KChan P) (kEcc : KEcc P) (kBox : KBox P) (kPwr : KPwr P) (kSys : KSys P) (kWr : KWr P) (s : State) (tag target : Nat) (hP : P s) :
 P (State.econEnd s tag target) := by
  unfold State.econEnd
  repeat' first
    | with_reducible assumption
    | exact rfl
    | exact fun _ => ⟨rfl, rfl, rfl⟩
    | with_reducible apply kPwr
    | with_reducible apply each_keeps
    | with_reducible apply State.vptMoved_keeps kErr kTop kChan kWr
    | with_reducible apply State.kick_keeps kErr kTop kMcs kChan kEcc kBox kWr
    | with_reducible apply State.econBegin_keeps kPwr
    | with_reducible apply State.finish_keeps kQue kSys kWr
    | with_reducible apply kWr
    | dsimp only
    | split
    | intro _

theorem State.domOn_keeps {P : State → Prop} (kPwr : KPwr P) (kSys : KSys P) (kWr : KWr P) (s : State) (k : Nat) (hP : P s) :
 P (State.domOn s k) := by
  unfold State.domOn
  repeat' first
    | with_reducible assumption
    | exact rfl
    | exact fun _ => ⟨rfl, rfl, rfl⟩
    | with_reducible apply kPwr
    | with_reducible apply State.wrBit_keeps kWr
    | with_reducible apply kSys
    | dsimp only
    | split
    | intro _

theorem State.domOffWant_keeps {P : State → Prop} (kPwr : KPwr P) (s : State) (k : Nat) (hP : P s) :
 P (State.domOffWant s k) := by
  unfold State.domOffWant
  repeat' first
    | with_reducible assumption
    | exact rfl
    | exact fun _ => ⟨rfl, rfl, rfl⟩
    | with_reducible apply kPwr
    | dsimp only
    | split
    | intro _

theorem State.pwrDom_keeps {P : State → Prop} (kErr : KErr P) (kQue : KQue P) (kHdg : KHdg P) (kPut : KPut P) (kCop : KCop P) (kMap : KMap P) (kTop : KTop P) (kMcs : KMcs P) (kChan : KChan P) (kEcc : KEcc P) (kJnp : KJnp P) (kBox : KBox P) (kYew : KYew P) (kHly : KHly P) (kPwr : KPwr P) (kSys : KSys P) (kWr : KWr P) (kDrawn : KDrawn P) (kDeliv : KDeliv P) (s : State) (v : Nat) (hP : P s) :
 P (State.pwrDom s v) := by
  unfold State.pwrDom
  repeat' first
    | with_reducible assumption
    | exact rfl
    | exact fun _ => ⟨rfl, rfl, rfl⟩
    | with_reducible apply State.domOffWant_keeps kPwr
    | with_reducible apply State.settle_keeps kErr kQue kHdg kPut kCop kMap kTop kMcs kChan kEcc kJnp kBox kYew kHly kSys kWr kDrawn kDeliv
    | with_reducible apply each_keeps
    | with_reducible apply State.domOn_keeps kPwr kSys kWr
    | with_reducible apply State.domStep_keeps kErr kQue kHdg kPut kCop kMap kTop kMcs kChan kEcc kJnp kBox kHly kPwr kSys kWr
    | with_reducible apply kWr
    | dsimp only
    | split
    | intro _

theorem State.pwrGood_keeps {P : State → Prop} (kTop : KTop P) (kJnp : KJnp P) (kSys : KSys P) (kWr : KWr P) (s : State) (k : Nat) (hP : P s) :
 P (State.pwrGood s k) := by
  unfold State.pwrGood
  repeat' first
    | with_reducible assumption
    | exact rfl
    | exact fun _ => ⟨rfl, rfl, rfl⟩
    | with_reducible apply State.wrBit_keeps kWr
    | with_reducible apply each_keeps
    | with_reducible apply kSys
    | with_reducible apply State.wantLease_keeps kTop
    | with_reducible apply State.setb_keeps kWr
    | with_reducible apply State.forgetResident_keeps kJnp
    | dsimp only
    | split
    | intro _

theorem execIdleEntry_keeps {P : State → Prop} (kHdg : KHdg P) (kPwr : KPwr P) (s : State) (hP : P s) :
    Out.All P (execIdleEntry s) := by
  unfold execIdleEntry
  repeat' first
    | with_reducible apply Out.all_next
    | exact trivial
    | with_reducible assumption
    | exact rfl
    | exact fun _ => ⟨rfl, rfl, rfl⟩
    | with_reducible apply kPwr
    | with_reducible apply State.lapFlip_keeps kHdg
    | dsimp only
    | split
    | intro _

theorem execPowerNap_keeps {P : State → Prop} (kQue : KQue P) (kPwr : KPwr P) (kSys : KSys P) (kWr : KWr P) (tag : Tag) (s : State) (hP : P s) :
    Out.All P (execPowerNap tag s) := by
  unfold execPowerNap
  repeat' first
    | with_reducible apply Out.all_next
    | exact trivial
    | with_reducible assumption
    | exact rfl
    | exact fun _ => ⟨rfl, rfl, rfl⟩
    | with_reducible apply State.powerBegin_keeps kQue kPwr kSys kWr
    | dsimp only
    | split
    | intro _

theorem execPowerDormant_keeps {P : State → Prop} (kQue : KQue P) (kPwr : KPwr P) (kSys : KSys P) (kWr : KWr P) (tag : Tag) (s : State) (hP : P s) :
    Out.All P (execPowerDormant tag s) := by
  unfold execPowerDormant
  repeat' first
    | with_reducible apply Out.all_next
    | exact trivial
    | with_reducible assumption
    | exact rfl
    | exact fun _ => ⟨rfl, rfl, rfl⟩
    | with_reducible apply State.powerBegin_keeps kQue kPwr kSys kWr
    | dsimp only
    | split
    | intro _

theorem execPowerEntryQuiescent_keeps {P : State → Prop} (kErr : KErr P) (kQue : KQue P) (kHdg : KHdg P) (kPut : KPut P) (kCop : KCop P) (kMap : KMap P) (kTop : KTop P) (kMcs : KMcs P) (kChan : KChan P) (kEcc : KEcc P) (kJnp : KJnp P) (kBox : KBox P) (kYew : KYew P) (kHly : KHly P) (kSys : KSys P) (kWr : KWr P) (kDrawn : KDrawn P) (kDeliv : KDeliv P) (s : State) (hP : P s) :
    Out.All P (execPowerEntryQuiescent s) := by
  unfold execPowerEntryQuiescent
  repeat' first
    | with_reducible apply Out.all_next
    | exact trivial
    | with_reducible assumption
    | exact rfl
    | exact fun _ => ⟨rfl, rfl, rfl⟩
    | with_reducible apply State.entryQuiet_keeps kErr kQue kHdg kPut kCop kMap kTop kMcs kChan kEcc kJnp kBox kYew kHly kSys kWr kDrawn kDeliv
    | dsimp only
    | split
    | intro _

theorem execPowerEntryLimitExpiry_keeps {P : State → Prop} (kQue : KQue P) (kPwr : KPwr P) (kSys : KSys P) (kWr : KWr P) (s : State) (hP : P s) :
    Out.All P (execPowerEntryLimitExpiry s) := by
  unfold execPowerEntryLimitExpiry
  repeat' first
    | with_reducible apply Out.all_next
    | exact trivial
    | with_reducible assumption
    | exact rfl
    | exact fun _ => ⟨rfl, rfl, rfl⟩
    | with_reducible apply kPwr
    | with_reducible apply State.deferPower_keeps kQue kSys kWr
    | dsimp only
    | split
    | intro _

theorem execPwrWakeWrite_keeps {P : State → Prop} (kPwr : KPwr P) (kResp : KResp P) (m : Master) (s : State) (hP : P s) :
    Out.All P (execPwrWakeWrite m s) := by
  unfold execPwrWakeWrite
  repeat' first
    | with_reducible apply Out.all_next
    | exact trivial
    | with_reducible assumption
    | exact rfl
    | exact fun _ => ⟨rfl, rfl, rfl⟩
    | with_reducible apply State.accessWake_keeps kPwr kResp
    | with_reducible apply State.access_keeps kPwr kResp
    | dsimp only
    | split
    | intro _

theorem execNapWakeDone_keeps {P : State → Prop} (kErr : KErr P) (kQue : KQue P) (kHdg : KHdg P) (kPut : KPut P) (kCop : KCop P) (kMap : KMap P) (kTop : KTop P) (kMcs : KMcs P) (kChan : KChan P) (kEcc : KEcc P) (kJnp : KJnp P) (kBox : KBox P) (kYew : KYew P) (kHly : KHly P) (kPwr : KPwr P) (kSys : KSys P) (kWr : KWr P) (kDrawn : KDrawn P) (kDeliv : KDeliv P) (s : State) (hP : P s) :
    Out.All P (execNapWakeDone s) := by
  unfold execNapWakeDone
  repeat' first
    | with_reducible apply Out.all_next
    | exact trivial
    | with_reducible assumption
    | exact rfl
    | exact fun _ => ⟨rfl, rfl, rfl⟩
    | with_reducible apply kPwr
    | with_reducible apply State.lapFlip_keeps kHdg
    | with_reducible apply State.settle_keeps kErr kQue kHdg kPut kCop kMap kTop kMcs kChan kEcc kJnp kBox kYew kHly kSys kWr kDrawn kDeliv
    | with_reducible apply State.woke_keeps kPwr kWr
    | with_reducible apply State.holdBegin_keeps kErr kQue kHdg kPut kCop kMap kTop kMcs kChan kEcc kJnp kBox kYew kHly kPwr kSys kWr kDrawn kDeliv
    | with_reducible apply when_keeps
    | with_reducible apply State.applyLatched_keeps kTop kBox kWr
    | with_reducible apply State.relockAll_keeps kChan
    | dsimp only
    | split
    | intro _

theorem execCoreSupplyGood_keeps {P : State → Prop} (kPwr : KPwr P) (s : State) (hP : P s) :
    Out.All P (execCoreSupplyGood s) := by
  unfold execCoreSupplyGood
  repeat' first
    | with_reducible apply Out.all_next
    | exact trivial
    | with_reducible assumption
    | exact rfl
    | exact fun _ => ⟨rfl, rfl, rfl⟩
    | with_reducible apply kPwr
    | dsimp only
    | split
    | intro _

theorem execCclkLocked_keeps {P : State → Prop} (kErr : KErr P) (kQue : KQue P) (kHdg : KHdg P) (kMap : KMap P) (kTop : KTop P) (kMcs : KMcs P) (kChan : KChan P) (kBox : KBox P) (kHly : KHly P) (kPwr : KPwr P) (kSys : KSys P) (kWr : KWr P) (s : State) (hP : P s) :
    Out.All P (execCclkLocked s) := by
  unfold execCclkLocked
  repeat' first
    | with_reducible apply Out.all_next
    | exact trivial
    | with_reducible assumption
    | exact rfl
    | exact fun _ => ⟨rfl, rfl, rfl⟩
    | with_reducible apply State.loadBegin_keeps kMcs kWr
    | with_reducible apply kSys
    | with_reducible apply State.dormantClk_keeps kQue kHdg kMap kTop kMcs kChan kBox kHly kPwr kSys kWr
    | with_reducible apply State.poolBegin_keeps kWr
    | with_reducible apply State.hollyStart_keeps kErr kQue kHly kSys kWr
    | dsimp only
    | split
    | intro _

theorem execPowerActive_keeps {P : State → Prop} (kQue : KQue P) (kPwr : KPwr P) (kSys : KSys P) (kWr : KWr P) (tag : Tag) (s : State) (hP : P s) :
    Out.All P (execPowerActive tag s) := by
  unfold execPowerActive
  repeat' first
    | with_reducible apply Out.all_next
    | exact trivial
    | with_reducible assumption
    | exact rfl
    | exact fun _ => ⟨rfl, rfl, rfl⟩
    | with_reducible apply State.powerPoint_keeps kQue kPwr kSys kWr
    | dsimp only
    | split
    | intro _

theorem execEconomySegmentsEnded_keeps {P : State → Prop} (kPwr : KPwr P) (s : State) (hP : P s) :
    Out.All P (execEconomySegmentsEnded s) := by
  unfold execEconomySegmentsEnded
  repeat' first
    | with_reducible apply Out.all_next
    | exact trivial
    | with_reducible assumption
    | exact rfl
    | exact fun _ => ⟨rfl, rfl, rfl⟩
    | with_reducible apply kPwr
    | dsimp only
    | split
    | intro _

theorem execVoltageAck_keeps {P : State → Prop} (kPwr : KPwr P) (s : State) (hP : P s) :
    Out.All P (execVoltageAck s) := by
  unfold execVoltageAck
  repeat' first
    | with_reducible apply Out.all_next
    | exact trivial
    | with_reducible assumption
    | exact rfl
    | exact fun _ => ⟨rfl, rfl, rfl⟩
    | with_reducible apply kPwr
    | dsimp only
    | split
    | intro _

theorem execCclkRelockDone_keeps {P : State → Prop} (kErr : KErr P) (kQue : KQue P) (kTop : KTop P) (kMcs : KMcs P) (kChan : KChan P) (kEcc : KEcc P) (kBox : KBox P) (kPwr : KPwr P) (kSys : KSys P) (kWr : KWr P) (s : State) (hP : P s) :
    Out.All P (execCclkRelockDone s) := by
  unfold execCclkRelockDone
  repeat' first
    | with_reducible apply Out.all_next
    | exact trivial
    | with_reducible assumption
    | exact rfl
    | exact fun _ => ⟨rfl, rfl, rfl⟩
    | with_reducible apply State.econEnd_keeps kErr kQue kTop kMcs kChan kEcc kBox kPwr kSys kWr
    | dsimp only
    | split
    | intro _

theorem execPwrDomEnable_keeps {P : State → Prop} (kErr : KErr P) (kQue : KQue P) (kHdg : KHdg P) (kPut : KPut P) (kCop : KCop P) (kMap : KMap P) (kTop : KTop P) (kMcs : KMcs P) (kChan : KChan P) (kEcc : KEcc P) (kJnp : KJnp P) (kBox : KBox P) (kYew : KYew P) (kHly : KHly P) (kPwr : KPwr P) (kSys : KSys P) (kWr : KWr P) (kResp : KResp P) (kDrawn : KDrawn P) (kDeliv : KDeliv P) (m : Master) (v : W32) (s : State) (hP : P s) :
    Out.All P (execPwrDomEnable m v s) := by
  unfold execPwrDomEnable
  repeat' first
    | with_reducible apply Out.all_next
    | exact trivial
    | with_reducible assumption
    | exact rfl
    | exact fun _ => ⟨rfl, rfl, rfl⟩
    | with_reducible apply State.pwrDom_keeps kErr kQue kHdg kPut kCop kMap kTop kMcs kChan kEcc kJnp kBox kYew kHly kPwr kSys kWr kDrawn kDeliv
    | with_reducible apply State.access_keeps kPwr kResp
    | dsimp only
    | split
    | intro _

theorem execPwrDomDisable_keeps {P : State → Prop} (kErr : KErr P) (kQue : KQue P) (kHdg : KHdg P) (kPut : KPut P) (kCop : KCop P) (kMap : KMap P) (kTop : KTop P) (kMcs : KMcs P) (kChan : KChan P) (kEcc : KEcc P) (kJnp : KJnp P) (kBox : KBox P) (kYew : KYew P) (kHly : KHly P) (kPwr : KPwr P) (kSys : KSys P) (kWr : KWr P) (kResp : KResp P) (kDrawn : KDrawn P) (kDeliv : KDeliv P) (m : Master) (v : W32) (s : State) (hP : P s) :
    Out.All P (execPwrDomDisable m v s) := by
  unfold execPwrDomDisable
  repeat' first
    | with_reducible apply Out.all_next
    | exact trivial
    | with_reducible assumption
    | exact rfl
    | exact fun _ => ⟨rfl, rfl, rfl⟩
    | with_reducible apply State.pwrDom_keeps kErr kQue kHdg kPut kCop kMap kTop kMcs kChan kEcc kJnp kBox kYew kHly kPwr kSys kWr kDrawn kDeliv
    | with_reducible apply State.access_keeps kPwr kResp
    | dsimp only
    | split
    | intro _

theorem execPgTimeout_keeps {P : State → Prop} (kErr : KErr P) (kQue : KQue P) (kHly : KHly P) (kPwr : KPwr P) (kSys : KSys P) (kWr : KWr P) (dom : Fin 4) (s : State) (hP : P s) :
    Out.All P (execPgTimeout dom s) := by
  unfold execPgTimeout
  repeat' first
    | with_reducible apply Out.all_next
    | exact trivial
    | with_reducible assumption
    | exact rfl
    | exact fun _ => ⟨rfl, rfl, rfl⟩
    | with_reducible apply State.wrBit_keeps kWr
    | with_reducible apply State.err1_keeps kErr kWr
    | with_reducible apply State.discTold_keeps kQue kHly kSys kWr
    | with_reducible apply State.wokeCheck_keeps kPwr kWr
    | dsimp only
    | split
    | intro _

theorem execPwrgdRise_keeps {P : State → Prop} (kTop : KTop P) (kJnp : KJnp P) (kSys : KSys P) (kWr : KWr P) (dom : Fin 4) (s : State) (hP : P s) :
    Out.All P (execPwrgdRise dom s) := by
  unfold execPwrgdRise
  repeat' first
    | with_reducible apply Out.all_next
    | exact trivial
    | with_reducible assumption
    | exact rfl
    | exact fun _ => ⟨rfl, rfl, rfl⟩
    | with_reducible apply State.pwrGood_keeps kTop kJnp kSys kWr
    | dsimp only
    | split
    | intro _

end Sys2Proof.Machine
end

