-- ==== Sys2Proof/Laws/KeepsLoad.lean ====
section
/-!
SUPPORT. What the operations of Machine/Load.lean can do: each one keeps every property of a state that its own primitive
updates keep. The hypotheses of a lemma name every unit the operation can reach.
-/
namespace Sys2Proof.Machine

theorem State.faultClear_keeps {P : State → Prop} (kErr : KErr P) (kTop : KTop P) (kMcs : KMcs P) (kChan : KChan P) (kEcc : KEcc P) (kBox : KBox P) (kWr : KWr P) (s : State) (n v : Nat) (hP : P s) :
 P (State.faultClear s n v) := by
  unfold State.faultClear
  split
  · exact hP
  · refine State.kick_keeps kErr kTop kMcs kChan kEcc kBox kWr _ _ (State.restartSeq_keeps kMcs _ _ (each_keeps _ _ _ (fun s F hF h => kWr _ _ _ ?_ h) hP))
    simp only [List.mem_cons, List.not_mem_nil, or_false] at hF
    rcases hF with rfl | rfl | rfl | rfl <;> rfl

theorem State.mcsCtl_keeps {P : State → Prop} (kErr : KErr P) (kTop : KTop P) (kMcs : KMcs P) (kChan : KChan P) (kEcc : KEcc P) (kBox : KBox P) (kWr : KWr P) (s : State) (v : Nat) (hP : P s) :
 P (State.mcsCtl s v) := by
  unfold State.mcsCtl
  repeat' first
    | with_reducible assumption
    | exact rfl
    | exact fun _ => ⟨rfl, rfl, rfl⟩
    | with_reducible apply State.setb_keeps kWr
    | with_reducible apply when_keeps
    | with_reducible apply State.kickAll_keeps kErr kTop kMcs kChan kEcc kBox kWr
    | with_reducible apply kWr
    | dsimp only
    | split
    | intro _

theorem State.csPatched_keeps {P : State → Prop} (kMcs : KMcs P) (s : State) (key : Nat → Nat) (f : Mcs → Mcs) (hP : P s) :
 P (State.csPatched s key f) := by
  unfold State.csPatched
  repeat' first
    | with_reducible assumption
    | exact rfl
    | exact fun _ => ⟨rfl, rfl, rfl⟩
    | with_reducible apply kMcs
    | with_reducible apply foldl_keeps
    | with_reducible apply foldl2_keeps
    | with_reducible apply foldl3_keeps
    | dsimp only
    | split
    | intro _

theorem State.csWrite_keeps {P : State → Prop} (kMcs : KMcs P) (kWr : KWr P) (s : State) (off v : Nat) (hP : P s) :
 P (State.csWrite s off v) := by
  unfold State.csWrite
  repeat' first
    | with_reducible assumption
    | exact rfl
    | exact fun _ => ⟨rfl, rfl, rfl⟩
    | with_reducible apply State.setb_keeps kWr
    | with_reducible apply State.csPatched_keeps kMcs
    | dsimp only
    | split
    | intro _

theorem State.badAccess_keeps {P : State → Prop} (kErr : KErr P) (kWr : KWr P) (kResp : KResp P) (s : State) (addr : Nat) (hP : P s) :
 P (State.badAccess s addr) := by
  unfold State.badAccess
  repeat' first
    | with_reducible assumption
    | exact rfl
    | exact fun _ => ⟨rfl, rfl, rfl⟩
    | with_reducible apply State.err1_keeps kErr kWr
    | with_reducible apply kResp
    | dsimp only
    | split
    | intro _

theorem State.nanoAddr_keeps {P : State → Prop} (kWr : KWr P) (s : State) (v : Nat) (hP : P s) :
 P (State.nanoAddr s v) := by
  unfold State.nanoAddr
  repeat' first
    | with_reducible assumption
    | exact rfl
    | exact fun _ => ⟨rfl, rfl, rfl⟩
    | with_reducible apply kWr
    | dsimp only
    | split
    | intro _

theorem State.nanoWrite_keeps {P : State → Prop} (kMcs : KMcs P) (kWr : KWr P) (s : State) (v : Nat) (hP : P s) :
 P (State.nanoWrite s v) := by
  unfold State.nanoWrite
  repeat' first
    | with_reducible assumption
    | exact rfl
    | exact fun _ => ⟨rfl, rfl, rfl⟩
    | with_reducible apply State.csPatched_keeps kMcs
    | with_reducible apply State.setb_keeps kWr
    | with_reducible apply when_keeps
    | with_reducible apply kWr
    | dsimp only
    | split
    | intro _

theorem State.loadImage_keeps {P : State → Prop} (kMcs : KMcs P) (kWr : KWr P) (s : State) (bank : Nat) (hP : P s) :
 P (State.loadImage s bank) := by
  unfold State.loadImage
  repeat' first
    | with_reducible assumption
    | exact rfl
    | exact fun _ => ⟨rfl, rfl, rfl⟩
    | with_reducible apply each_keeps
    | with_reducible apply kMcs
    | with_reducible apply State.setb_keeps kWr
    | with_reducible apply kWr
    | dsimp only
    | split
    | intro _

theorem State.loadFatal_keeps {P : State → Prop} (kErr : KErr P) (kQue : KQue P) (kHdg : KHdg P) (kPut : KPut P) (kCop : KCop P) (kMap : KMap P) (kTop : KTop P) (kMcs : KMcs P) (kChan : KChan P) (kEcc : KEcc P) (kJnp : KJnp P) (kBox : KBox P) (kHly : KHly P) (kSys : KSys P) (kWr : KWr P) (s : State) (bank detail : Nat) (hP : P s) :
 P (State.loadFatal s bank detail) := by
  unfold State.loadFatal
  repeat' first
    | with_reducible assumption
    | exact rfl
    | exact fun _ => ⟨rfl, rfl, rfl⟩
    | with_reducible apply State.err1_keeps kErr kWr
    | with_reducible apply kMcs
    | with_reducible apply each_keeps
    | with_reducible apply kWr
    | with_reducible apply State.goAbsent_keeps kErr kQue kHdg kPut kCop kMap kTop kMcs kChan kEcc kJnp kBox kHly kSys kWr
    | dsimp only
    | split
    | intro _

theorem State.loadCold_keeps {P : State → Prop} (kErr : KErr P) (kQue : KQue P) (kHdg : KHdg P) (kPut : KPut P) (kCop : KCop P) (kMap : KMap P) (kTop : KTop P) (kMcs : KMcs P) (kChan : KChan P) (kEcc : KEcc P) (kJnp : KJnp P) (kBox : KBox P) (kHly : KHly P) (kPwr : KPwr P) (kSys : KSys P) (kWr : KWr P) (s : State) (bank : Nat) (hP : P s) :
 P (State.loadCold s bank) := by
  unfold State.loadCold
  repeat' first
    | with_reducible assumption
    | exact rfl
    | exact fun _ => ⟨rfl, rfl, rfl⟩
    | with_reducible apply State.kickAll_keeps kErr kTop kMcs kChan kEcc kBox kWr
    | with_reducible apply State.err1_keeps kErr kWr
    | with_reducible apply State.loadImage_keeps kMcs kWr
    | with_reducible apply kMcs
    | with_reducible apply State.loadFatal_keeps kErr kQue kHdg kPut kCop kMap kTop kMcs kChan kEcc kJnp kBox kHly kSys kWr
    | with_reducible apply State.wokeCheck_keeps kPwr kWr
    | dsimp only
    | split
    | intro _

theorem State.chActivated_keeps {P : State → Prop} (kErr : KErr P) (kTop : KTop P) (kMcs : KMcs P) (kChan : KChan P) (kEcc : KEcc P) (kBox : KBox P) (kWr : KWr P) (s : State) (n : Nat) (was : List (Nat × Nat × Nat × Nat)) (hP : P s) :
 P (State.chActivated s n was) := by
  unfold State.chActivated
  repeat' first
    | with_reducible assumption
    | exact rfl
    | exact fun _ => ⟨rfl, rfl, rfl⟩
    | with_reducible apply kChan
    | with_reducible apply State.climbOn_keeps kErr kTop kMcs kChan kEcc kBox kWr
    | with_reducible apply State.toPre_keeps kErr kChan kWr
    | with_reducible apply State.climb_keeps kErr kTop kMcs kChan kEcc kBox kWr
    | with_reducible apply State.wantTrain_keeps kTop
    | with_reducible apply State.toSdr_keeps kErr kChan kWr
    | with_reducible apply when_keeps
    | with_reducible apply kWr
    | dsimp only
    | split
    | intro _

theorem State.activated_keeps {P : State → Prop} (kErr : KErr P) (kQue : KQue P) (kTop : KTop P) (kMcs : KMcs P) (kChan : KChan P) (kEcc : KEcc P) (kBox : KBox P) (kYew : KYew P) (kHly : KHly P) (kSys : KSys P) (kWr : KWr P) (s : State) (a : Actv) (hP : P s) :
 P (State.activated s a) := by
  unfold State.activated
  repeat' first
    | with_reducible assumption
    | exact rfl
    | exact fun _ => ⟨rfl, rfl, rfl⟩
    | with_reducible apply State.keepAct_keeps kYew kWr
    | with_reducible apply State.chActivated_keeps kErr kTop kMcs kChan kEcc kBox kWr
    | with_reducible apply State.loadImage_keeps kMcs kWr
    | with_reducible apply each_keeps
    | with_reducible apply State.actEnd_keeps kErr kQue kTop kMcs kChan kEcc kBox kHly kSys kWr
    | with_reducible apply State.rebind_keeps kChan kSys
    | dsimp only
    | split
    | intro _

theorem State.loadActive_keeps {P : State → Prop} (kErr : KErr P) (kQue : KQue P) (kHdg : KHdg P) (kPut : KPut P) (kCop : KCop P) (kMap : KMap P) (kTop : KTop P) (kMcs : KMcs P) (kChan : KChan P) (kEcc : KEcc P) (kJnp : KJnp P) (kBox : KBox P) (kYew : KYew P) (kHly : KHly P) (kSys : KSys P) (kWr : KWr P) (s : State) (a : Actv) (hP : P s) :
 P (State.loadActive s a) := by
  unfold State.loadActive
  repeat' first
    | with_reducible assumption
    | exact rfl
    | exact fun _ => ⟨rfl, rfl, rfl⟩
    | with_reducible apply State.err1_keeps kErr kWr
    | with_reducible apply State.loadImage_keeps kMcs kWr
    | with_reducible apply State.activated_keeps kErr kQue kTop kMcs kChan kEcc kBox kYew kHly kSys kWr
    | with_reducible apply kHly
    | with_reducible apply kMcs
    | with_reducible apply State.loadFatal_keeps kErr kQue kHdg kPut kCop kMap kTop kMcs kChan kEcc kJnp kBox kHly kSys kWr
    | with_reducible apply State.actEnd_keeps kErr kQue kTop kMcs kChan kEcc kBox kHly kSys kWr
    | dsimp only
    | split
    | intro _

theorem State.activate_keeps {P : State → Prop} (kQue : KQue P) (kHly : KHly P) (kSys : KSys P) (kWr : KWr P) (s : State) (c : Cmd) (mcs : Bool) (hP : P s) :
 P (State.activate s c mcs) := by
  unfold State.activate
  repeat' first
    | with_reducible assumption
    | exact rfl
    | exact fun _ => ⟨rfl, rfl, rfl⟩
    | with_reducible apply kHly
    | with_reducible apply State.running_keeps kQue
    | with_reducible apply State.finishSlow_keeps kQue kHly kSys kWr
    | with_reducible apply State.takeInbox_keeps kQue kHly
    | dsimp only
    | split
    | intro _

theorem State.checkDone_keeps {P : State → Prop} (kErr : KErr P) (kQue : KQue P) (kTop : KTop P) (kMcs : KMcs P) (kChan : KChan P) (kEcc : KEcc P) (kBox : KBox P) (kHly : KHly P) (kSys : KSys P) (kWr : KWr P) (s : State) (a : Actv) (hP : P s) :
 P (State.checkDone s a) := by
  unfold State.checkDone
  repeat' first
    | with_reducible assumption
    | exact rfl
    | exact fun _ => ⟨rfl, rfl, rfl⟩
    | with_reducible apply State.actStep_keeps kMcs kHly kWr
    | with_reducible apply kHly
    | with_reducible apply when_keeps
    | with_reducible apply State.actEnd_keeps kErr kQue kTop kMcs kChan kEcc kBox kHly kSys kWr
    | with_reducible apply kWr
    | dsimp only
    | split
    | intro _

theorem execMcsFaultClear_keeps {P : State → Prop} (kErr : KErr P) (kTop : KTop P) (kMcs : KMcs P) (kChan : KChan P) (kEcc : KEcc P) (kBox : KBox P) (kPwr : KPwr P) (kWr : KWr P) (kResp : KResp P) (m : Master) (ch : Fin 8) (v : W32) (s : State) (hP : P s) :
    Out.All P (execMcsFaultClear m ch v s) := by
  unfold execMcsFaultClear
  repeat' first
    | with_reducible apply Out.all_next
    | exact trivial
    | with_reducible assumption
    | exact rfl
    | exact fun _ => ⟨rfl, rfl, rfl⟩
    | with_reducible apply State.faultClear_keeps kErr kTop kMcs kChan kEcc kBox kWr
    | with_reducible apply State.access_keeps kPwr kResp
    | dsimp only
    | split
    | intro _

theorem execMcsLoadEn_keeps {P : State → Prop} (kErr : KErr P) (kTop : KTop P) (kMcs : KMcs P) (kChan : KChan P) (kEcc : KEcc P) (kBox : KBox P) (kPwr : KPwr P) (kWr : KWr P) (kResp : KResp P) (m : Master) (v : W32) (s : State) (hP : P s) :
    Out.All P (execMcsLoadEn m v s) := by
  unfold execMcsLoadEn
  repeat' first
    | with_reducible apply Out.all_next
    | exact trivial
    | with_reducible assumption
    | exact rfl
    | exact fun _ => ⟨rfl, rfl, rfl⟩
    | with_reducible apply State.mcsCtl_keeps kErr kTop kMcs kChan kEcc kBox kWr
    | with_reducible apply State.access_keeps kPwr kResp
    | dsimp only
    | split
    | intro _

theorem execCsWindowWrite_keeps {P : State → Prop} (kErr : KErr P) (kMcs : KMcs P) (kPwr : KPwr P) (kWr : KWr P) (kResp : KResp P) (m : Master) (off : Nat) (v : W32) (s : State) (hP : P s) :
    Out.All P (execCsWindowWrite m off v s) := by
  unfold execCsWindowWrite
  repeat' first
    | with_reducible apply Out.all_next
    | exact trivial
    | with_reducible assumption
    | exact rfl
    | exact fun _ => ⟨rfl, rfl, rfl⟩
    | with_reducible apply State.badAccess_keeps kErr kWr kResp
    | with_reducible apply State.csWrite_keeps kMcs kWr
    | with_reducible apply State.access_keeps kPwr kResp
    | dsimp only
    | split
    | intro _

theorem execNanoAddrWrite_keeps {P : State → Prop} (kPwr : KPwr P) (kWr : KWr P) (kResp : KResp P) (m : Master) (v : W32) (s : State) (hP : P s) :
    Out.All P (execNanoAddrWrite m v s) := by
  unfold execNanoAddrWrite
  repeat' first
    | with_reducible apply Out.all_next
    | exact trivial
    | with_reducible assumption
    | exact rfl
    | exact fun _ => ⟨rfl, rfl, rfl⟩
    | with_reducible apply State.nanoAddr_keeps kWr
    | with_reducible apply State.access_keeps kPwr kResp
    | dsimp only
    | split
    | intro _

theorem execNanoCommit_keeps {P : State → Prop} (kMcs : KMcs P) (kPwr : KPwr P) (kWr : KWr P) (kResp : KResp P) (m : Master) (v : W32) (s : State) (hP : P s) :
    Out.All P (execNanoCommit m v s) := by
  unfold execNanoCommit
  repeat' first
    | with_reducible apply Out.all_next
    | exact trivial
    | with_reducible assumption
    | exact rfl
    | exact fun _ => ⟨rfl, rfl, rfl⟩
    | with_reducible apply State.nanoWrite_keeps kMcs kWr
    | with_reducible apply State.access_keeps kPwr kResp
    | dsimp only
    | split
    | intro _

theorem execEspalierLoadDone_keeps {P : State → Prop} (kErr : KErr P) (kQue : KQue P) (kHdg : KHdg P) (kPut : KPut P) (kCop : KCop P) (kMap : KMap P) (kTop : KTop P) (kMcs : KMcs P) (kChan : KChan P) (kEcc : KEcc P) (kJnp : KJnp P) (kBox : KBox P) (kYew : KYew P) (kHly : KHly P) (kPwr : KPwr P) (kSys : KSys P) (kWr : KWr P) (s : State) (hP : P s) :
    Out.All P (execEspalierLoadDone s) := by
  unfold execEspalierLoadDone
  repeat' first
    | with_reducible apply Out.all_next
    | exact trivial
    | with_reducible assumption
    | exact rfl
    | exact fun _ => ⟨rfl, rfl, rfl⟩
    | with_reducible apply State.loadCold_keeps kErr kQue kHdg kPut kCop kMap kTop kMcs kChan kEcc kJnp kBox kHly kPwr kSys kWr
    | with_reducible apply State.loadActive_keeps kErr kQue kHdg kPut kCop kMap kTop kMcs kChan kEcc kJnp kBox kYew kHly kSys kWr
    | dsimp only
    | split
    | intro _

theorem execActivateHolly_keeps {P : State → Prop} (kQue : KQue P) (kHly : KHly P) (kSys : KSys P) (kWr : KWr P) (tag : Tag) (s : State) (hP : P s) :
    Out.All P (execActivateHolly tag s) := by
  unfold execActivateHolly
  repeat' first
    | with_reducible apply Out.all_next
    | exact trivial
    | with_reducible assumption
    | exact rfl
    | exact fun _ => ⟨rfl, rfl, rfl⟩
    | with_reducible apply State.activate_keeps kQue kHly kSys kWr
    | dsimp only
    | split
    | intro _

theorem execActivateEspalier_keeps {P : State → Prop} (kQue : KQue P) (kHly : KHly P) (kSys : KSys P) (kWr : KWr P) (tag : Tag) (s : State) (hP : P s) :
    Out.All P (execActivateEspalier tag s) := by
  unfold execActivateEspalier
  repeat' first
    | with_reducible apply Out.all_next
    | exact trivial
    | with_reducible assumption
    | exact rfl
    | exact fun _ => ⟨rfl, rfl, rfl⟩
    | with_reducible apply State.activate_keeps kQue kHly kSys kWr
    | dsimp only
    | split
    | intro _

theorem execCheckPassDone_keeps {P : State → Prop} (kErr : KErr P) (kQue : KQue P) (kTop : KTop P) (kMcs : KMcs P) (kChan : KChan P) (kEcc : KEcc P) (kBox : KBox P) (kHly : KHly P) (kSys : KSys P) (kWr : KWr P) (s : State) (hP : P s) :
    Out.All P (execCheckPassDone s) := by
  unfold execCheckPassDone
  repeat' first
    | with_reducible apply Out.all_next
    | exact trivial
    | with_reducible assumption
    | exact rfl
    | exact fun _ => ⟨rfl, rfl, rfl⟩
    | with_reducible apply State.checkDone_keeps kErr kQue kTop kMcs kChan kEcc kBox kHly kSys kWr
    | dsimp only
    | split
    | intro _

theorem execActivateDrainTimeout_keeps {P : State → Prop} (kErr : KErr P) (kQue : KQue P) (kTop : KTop P) (kMcs : KMcs P) (kChan : KChan P) (kEcc : KEcc P) (kBox : KBox P) (kHly : KHly P) (kSys : KSys P) (kWr : KWr P) (s : State) (hP : P s) :
    Out.All P (execActivateDrainTimeout s) := by
  unfold execActivateDrainTimeout
  repeat' first
    | with_reducible apply Out.all_next
    | exact trivial
    | with_reducible assumption
    | exact rfl
    | exact fun _ => ⟨rfl, rfl, rfl⟩
    | with_reducible apply State.actEnd_keeps kErr kQue kTop kMcs kChan kEcc kBox kHly kSys kWr
    | dsimp only
    | split
    | intro _

end Sys2Proof.Machine
end

