-- ==== Sys2Proof/Laws/KeepsSlow.lean ====
section
/-!
SUPPORT. What the operations of Machine/Slow.lean can do: each one keeps every property of a state that its own primitive
updates keep. The hypotheses of a lemma name every unit the operation can reach.
-/
namespace Sys2Proof.Machine

theorem State.attach_keeps {P : State → Prop} (kQue : KQue P) (kCop : KCop P) (kHly : KHly P) (kSys : KSys P) (kWr : KWr P) (s : State) (c : Cmd) (hP : P s) :
 P (State.attach s c) := by
  unfold State.attach
  repeat' first
    | with_reducible assumption
    | exact rfl
    | exact fun _ => ⟨rfl, rfl, rfl⟩
    | exact fun _ => rfl
    | with_reducible apply State.setQuota_keeps kCop kWr
    | with_reducible apply KQue.same kQue
    | with_reducible apply State.finishSlow_keeps kQue kHly kSys kWr
    | with_reducible apply State.takeInbox_keeps kQue kHly
    | dsimp only
    | split
    | intro _

theorem State.discardParked_keeps {P : State → Prop} (kQue : KQue P) (kMap : KMap P) (s : State) (port : Nat) (hP : P s) :
 P (State.discardParked s port) := by
  unfold State.discardParked
  repeat' first
    | with_reducible assumption
    | exact rfl
    | exact fun _ => ⟨rfl, rfl, rfl⟩
    | exact fun _ => rfl
    | with_reducible apply each_keeps
    | with_reducible apply KQue.same kQue
    | with_reducible apply State.dropRec_keeps kQue kMap
    | dsimp only
    | split
    | intro _

theorem State.detachStep_keeps {P : State → Prop} (kQue : KQue P) (kMap : KMap P) (kHly : KHly P) (kSys : KSys P) (kWr : KWr P) (s : State) (hP : P s) :
 P (State.detachStep s) := by
  unfold State.detachStep
  repeat' first
    | with_reducible assumption
    | exact rfl
    | exact fun _ => ⟨rfl, rfl, rfl⟩
    | exact fun _ => rfl
    | with_reducible apply each_keeps
    | with_reducible apply KQue.same kQue
    | with_reducible apply State.discardParked_keeps kQue kMap
    | with_reducible apply State.finishSlow_keeps kQue kHly kSys kWr
    | with_reducible apply when_keeps
    | dsimp only
    | split
    | intro _

theorem State.detach_keeps {P : State → Prop} (kErr : KErr P) (kQue : KQue P) (kHdg : KHdg P) (kPut : KPut P) (kForget : KForget P) (kCop : KCop P) (kMap : KMap P) (kTop : KTop P) (kMcs : KMcs P) (kChan : KChan P) (kEcc : KEcc P) (kJnp : KJnp P) (kDma : KDma P) (kBox : KBox P) (kYew : KYew P) (kHly : KHly P) (kPwr : KPwr P) (kSys : KSys P) (kWr : KWr P) (kDrawn : KDrawn P) (kDram : KDram P) (kDeliv : KDeliv P) (s : State) (c : Cmd) (hP : P s) :
 P (State.detach s c) := by
  unfold State.detach
  repeat' first
    | with_reducible assumption
    | exact rfl
    | exact fun _ => ⟨rfl, rfl, rfl⟩
    | with_reducible apply State.settle_keeps kErr kQue kHdg kPut kCop kMap kTop kMcs kChan kEcc kJnp kBox kYew kHly kSys kWr kDrawn kDeliv
    | with_reducible apply State.takeInbox_keeps kQue kHly
    | with_reducible apply when_keeps
    | with_reducible apply each_keeps
    | with_reducible apply State.remove_keeps kErr kQue kHdg kPut kForget kCop kMap kTop kMcs kChan kEcc kDma kBox kHly kPwr kSys kWr kDrawn kDram kDeliv
    | with_reducible apply State.detachStep_keeps kQue kMap kHly kSys kWr
    | with_reducible apply State.running_keeps kQue
    | dsimp only
    | split
    | intro _

theorem State.discover_keeps {P : State → Prop} (kQue : KQue P) (kTop : KTop P) (kHly : KHly P) (kSys : KSys P) (kWr : KWr P) (s : State) (c : Cmd) (hP : P s) :
 P (State.discover s c) := by
  unfold State.discover
  repeat' first
    | with_reducible assumption
    | exact rfl
    | exact fun _ => ⟨rfl, rfl, rfl⟩
    | with_reducible apply each_keeps
    | with_reducible apply State.wantLease_keeps kTop
    | with_reducible apply State.onCmd_keeps kQue
    | with_reducible apply State.finishSlow_keeps kQue kHly kSys kWr
    | with_reducible apply State.takeInbox_keeps kQue kHly
    | dsimp only
    | split
    | intro _

theorem State.retire_keeps {P : State → Prop} (kTop : KTop P) (s : State) (lun : Nat) (hP : P s) :
 P (State.retire s lun) := by
  unfold State.retire
  repeat' first
    | with_reducible assumption
    | exact rfl
    | exact fun _ => ⟨rfl, rfl, rfl⟩
    | with_reducible apply kTop
    | dsimp only
    | split
    | intro _

theorem State.setParam_keeps {P : State → Prop} (kTop : KTop P) (kHly : KHly P) (s : State) (n v : Nat) (keep : Bool) (hP : P s) :
 P (State.setParam s n v keep) := by
  unfold State.setParam
  repeat' first
    | with_reducible assumption
    | exact rfl
    | exact fun _ => ⟨rfl, rfl, rfl⟩
    | with_reducible apply kHly
    | with_reducible apply State.retire_keeps kTop
    | dsimp only
    | split
    | intro _

theorem State.persist_keeps {P : State → Prop} (kYew : KYew P) (kWr : KWr P) (s : State) (tag n v : Nat) (hP : P s) :
 P (State.persist s tag n v) := by
  unfold State.persist
  repeat' first
    | with_reducible assumption
    | exact rfl
    | exact fun _ => ⟨rfl, rfl, rfl⟩
    | with_reducible apply State.keep_keeps kYew kWr
    | with_reducible apply foldl_keeps
    | with_reducible apply foldl2_keeps
    | with_reducible apply foldl3_keeps
    | dsimp only
    | split
    | intro _

theorem State.policyDone_keeps {P : State → Prop} (kQue : KQue P) (kTop : KTop P) (kHly : KHly P) (kSys : KSys P) (kWr : KWr P) (s : State) (c : Cmd) (keep : Bool) (hP : P s) :
 P (State.policyDone s c keep) := by
  unfold State.policyDone
  repeat' first
    | with_reducible assumption
    | exact rfl
    | exact fun _ => ⟨rfl, rfl, rfl⟩
    | with_reducible apply State.onCmd_keeps kQue
    | with_reducible apply State.setParam_keeps kTop kHly
    | with_reducible apply State.finishSlow_keeps kQue kHly kSys kWr
    | dsimp only
    | split
    | intro _

theorem State.setPolicy_keeps {P : State → Prop} (kQue : KQue P) (kTop : KTop P) (kYew : KYew P) (kHly : KHly P) (kSys : KSys P) (kWr : KWr P) (s : State) (c : Cmd) (hP : P s) :
 P (State.setPolicy s c) := by
  unfold State.setPolicy
  repeat' first
    | with_reducible assumption
    | exact rfl
    | exact fun _ => ⟨rfl, rfl, rfl⟩
    | with_reducible apply State.persist_keeps kYew kWr
    | with_reducible apply State.running_keeps kQue
    | with_reducible apply State.finishSlow_keeps kQue kHly kSys kWr
    | with_reducible apply State.takeInbox_keeps kQue kHly
    | with_reducible apply State.policyDone_keeps kQue kTop kHly kSys kWr
    | dsimp only
    | split
    | intro _

theorem State.persisted_keeps {P : State → Prop} (kQue : KQue P) (kTop : KTop P) (kHly : KHly P) (kSys : KSys P) (kWr : KWr P) (s : State) (tag : Nat) (hP : P s) :
 P (State.persisted s tag) := by
  unfold State.persisted
  repeat' first
    | with_reducible assumption
    | exact rfl
    | exact fun _ => ⟨rfl, rfl, rfl⟩
    | with_reducible apply State.policyDone_keeps kQue kTop kHly kSys kWr
    | dsimp only
    | split
    | intro _

theorem State.infoPage_keeps {P : State → Prop} (kErr : KErr P) (kQue : KQue P) (kHdg : KHdg P) (kPut : KPut P) (kHly : KHly P) (kSys : KSys P) (kWr : KWr P) (s : State) (c : Cmd) (l : List Byte) (result : Nat) (hP : P s) :
 P (State.infoPage s c l result) := by
  unfold State.infoPage
  repeat' first
    | with_reducible assumption
    | exact rfl
    | exact fun _ => ⟨rfl, rfl, rfl⟩
    | with_reducible apply State.onCmd_keeps kQue
    | with_reducible apply State.hWrite_keeps kErr kHdg kPut kWr
    | with_reducible apply State.finishSlow_keeps kQue kHly kSys kWr
    | with_reducible apply State.takeInbox_keeps kQue kHly
    | dsimp only
    | split
    | intro _

theorem State.info_keeps {P : State → Prop} (s : State) (tag page : Nat) (f : Cmd → State) (hP : P s) (hF : ∀ q, P (f q)) :
 P (State.info s tag page f) := by
  unfold State.info
  repeat' first
    | with_reducible assumption
    | exact rfl
    | exact fun _ => ⟨rfl, rfl, rfl⟩
    | with_reducible apply hF
    | dsimp only
    | split
    | intro _

theorem State.healthRecords_keeps {P : State → Prop} (kErr : KErr P) (kHdg : KHdg P) (kPut : KPut P) (kJnp : KJnp P) (kWr : KWr P) (kDrawn : KDrawn P) (s : State) (l : List Nat) (hP : P s) :
 P (State.healthRecords s l).2 := by
  unfold State.healthRecords
  repeat' first
    | with_reducible assumption
    | exact rfl
    | exact fun _ => ⟨rfl, rfl, rfl⟩
    | with_reducible apply State.grpRead_keeps kErr kHdg kPut kJnp kWr kDrawn
    | with_reducible refine State.grpRead_keeps' kErr kHdg kPut kJnp kWr kDrawn ‹_ = (_, _)› ?_
    | with_reducible apply foldl_keeps
    | with_reducible apply foldl2_keeps
    | with_reducible apply foldl3_keeps
    | dsimp only
    | split
    | intro _

theorem State.healthRecords_keeps' {P : State → Prop} (kErr : KErr P) (kHdg : KHdg P) (kPut : KPut P) (kJnp : KJnp P) (kWr : KWr P) (kDrawn : KDrawn P) {s : State} {l : List Nat} {x0 : List Byte} {t : State}
    (hE : State.healthRecords s l = (x0, t)) (hP : P s)  : P t := by
  have h := State.healthRecords_keeps kErr kHdg kPut kJnp kWr kDrawn s l hP
  rw [hE] at h
  exact h

theorem State.health_keeps {P : State → Prop} (kErr : KErr P) (kQue : KQue P) (kHdg : KHdg P) (kPut : KPut P) (kJnp : KJnp P) (kHly : KHly P) (kSys : KSys P) (kWr : KWr P) (kDrawn : KDrawn P) (s : State) (c : Cmd) (hP : P s) :
 P (State.health s c) := by
  unfold State.health
  repeat' first
    | with_reducible assumption
    | exact rfl
    | exact fun _ => ⟨rfl, rfl, rfl⟩
    | with_reducible apply State.infoPage_keeps kErr kQue kHdg kPut kHly kSys kWr
    | with_reducible apply State.healthRecords_keeps kErr kHdg kPut kJnp kWr kDrawn
    | with_reducible refine State.healthRecords_keeps' kErr kHdg kPut kJnp kWr kDrawn ‹_ = (_, _)› ?_
    | dsimp only
    | split
    | intro _

theorem State.parkPage_keeps {P : State → Prop} (kErr : KErr P) (kQue : KQue P) (kHdg : KHdg P) (kPut : KPut P) (kHly : KHly P) (kSys : KSys P) (kWr : KWr P) (s : State) (c : Cmd) (hP : P s) :
 P (State.parkPage s c) := by
  unfold State.parkPage
  repeat' first
    | with_reducible assumption
    | exact rfl
    | exact fun _ => ⟨rfl, rfl, rfl⟩
    | exact fun _ => rfl
    | with_reducible apply State.infoPage_keeps kErr kQue kHdg kPut kHly kSys kWr
    | with_reducible apply KQue.same kQue
    | dsimp only
    | split
    | intro _

theorem execAttach_keeps {P : State → Prop} (kQue : KQue P) (kCop : KCop P) (kHly : KHly P) (kSys : KSys P) (kWr : KWr P) (tag : Tag) (s : State) (hP : P s) :
    Out.All P (execAttach tag s) := by
  unfold execAttach
  repeat' first
    | with_reducible apply Out.all_next
    | exact trivial
    | with_reducible assumption
    | exact rfl
    | exact fun _ => ⟨rfl, rfl, rfl⟩
    | with_reducible apply State.attach_keeps kQue kCop kHly kSys kWr
    | dsimp only
    | split
    | intro _

theorem execDetach_keeps {P : State → Prop} (kErr : KErr P) (kQue : KQue P) (kHdg : KHdg P) (kPut : KPut P) (kForget : KForget P) (kCop : KCop P) (kMap : KMap P) (kTop : KTop P) (kMcs : KMcs P) (kChan : KChan P) (kEcc : KEcc P) (kJnp : KJnp P) (kDma : KDma P) (kBox : KBox P) (kYew : KYew P) (kHly : KHly P) (kPwr : KPwr P) (kSys : KSys P) (kWr : KWr P) (kDrawn : KDrawn P) (kDram : KDram P) (kDeliv : KDeliv P) (tag : Tag) (s : State) (hP : P s) :
    Out.All P (execDetach tag s) := by
  unfold execDetach
  repeat' first
    | with_reducible apply Out.all_next
    | exact trivial
    | with_reducible assumption
    | exact rfl
    | exact fun _ => ⟨rfl, rfl, rfl⟩
    | with_reducible apply State.detach_keeps kErr kQue kHdg kPut kForget kCop kMap kTop kMcs kChan kEcc kJnp kDma kBox kYew kHly kPwr kSys kWr kDrawn kDram kDeliv
    | dsimp only
    | split
    | intro _

theorem execDiscover_keeps {P : State → Prop} (kQue : KQue P) (kTop : KTop P) (kHly : KHly P) (kSys : KSys P) (kWr : KWr P) (tag : Tag) (s : State) (hP : P s) :
    Out.All P (execDiscover tag s) := by
  unfold execDiscover
  repeat' first
    | with_reducible apply Out.all_next
    | exact trivial
    | with_reducible assumption
    | exact rfl
    | exact fun _ => ⟨rfl, rfl, rfl⟩
    | with_reducible apply State.discover_keeps kQue kTop kHly kSys kWr
    | dsimp only
    | split
    | intro _

theorem execSetPolicy_keeps {P : State → Prop} (kQue : KQue P) (kTop : KTop P) (kYew : KYew P) (kHly : KHly P) (kSys : KSys P) (kWr : KWr P) (tag : Tag) (s : State) (hP : P s) :
    Out.All P (execSetPolicy tag s) := by
  unfold execSetPolicy
  repeat' first
    | with_reducible apply Out.all_next
    | exact trivial
    | with_reducible assumption
    | exact rfl
    | exact fun _ => ⟨rfl, rfl, rfl⟩
    | with_reducible apply State.setPolicy_keeps kQue kTop kYew kHly kSys kWr
    | dsimp only
    | split
    | intro _

theorem execGetInfoIdentity_keeps {P : State → Prop} (kErr : KErr P) (kQue : KQue P) (kHdg : KHdg P) (kPut : KPut P) (kHly : KHly P) (kSys : KSys P) (kWr : KWr P) (tag : Tag) (s : State) (hP : P s) :
    Out.All P (execGetInfoIdentity tag s) := by
  unfold execGetInfoIdentity
  repeat' first
    | with_reducible apply Out.all_next
    | exact trivial
    | with_reducible assumption
    | exact rfl
    | exact fun _ => ⟨rfl, rfl, rfl⟩
    | with_reducible apply State.info_keeps
    | with_reducible apply State.infoPage_keeps kErr kQue kHdg kPut kHly kSys kWr
    | dsimp only
    | split
    | intro _

theorem execGetInfoInventory_keeps {P : State → Prop} (kErr : KErr P) (kQue : KQue P) (kHdg : KHdg P) (kPut : KPut P) (kHly : KHly P) (kSys : KSys P) (kWr : KWr P) (tag : Tag) (s : State) (hP : P s) :
    Out.All P (execGetInfoInventory tag s) := by
  unfold execGetInfoInventory
  repeat' first
    | with_reducible apply Out.all_next
    | exact trivial
    | with_reducible assumption
    | exact rfl
    | exact fun _ => ⟨rfl, rfl, rfl⟩
    | with_reducible apply State.info_keeps
    | with_reducible apply State.infoPage_keeps kErr kQue kHdg kPut kHly kSys kWr
    | dsimp only
    | split
    | intro _

theorem execGetInfoTorn_keeps {P : State → Prop} (kErr : KErr P) (kQue : KQue P) (kHdg : KHdg P) (kPut : KPut P) (kHly : KHly P) (kSys : KSys P) (kWr : KWr P) (tag : Tag) (s : State) (hP : P s) :
    Out.All P (execGetInfoTorn tag s) := by
  unfold execGetInfoTorn
  repeat' first
    | with_reducible apply Out.all_next
    | exact trivial
    | with_reducible assumption
    | exact rfl
    | exact fun _ => ⟨rfl, rfl, rfl⟩
    | with_reducible apply State.info_keeps
    | with_reducible apply State.infoPage_keeps kErr kQue kHdg kPut kHly kSys kWr
    | dsimp only
    | split
    | intro _

theorem execGetInfoHealth_keeps {P : State → Prop} (kErr : KErr P) (kQue : KQue P) (kHdg : KHdg P) (kPut : KPut P) (kJnp : KJnp P) (kHly : KHly P) (kSys : KSys P) (kWr : KWr P) (kDrawn : KDrawn P) (tag : Tag) (s : State) (hP : P s) :
    Out.All P (execGetInfoHealth tag s) := by
  unfold execGetInfoHealth
  repeat' first
    | with_reducible apply Out.all_next
    | exact trivial
    | with_reducible assumption
    | exact rfl
    | exact fun _ => ⟨rfl, rfl, rfl⟩
    | with_reducible apply State.info_keeps
    | with_reducible apply State.health_keeps kErr kQue kHdg kPut kJnp kHly kSys kWr kDrawn
    | dsimp only
    | split
    | intro _

theorem execGetInfoEnergy_keeps {P : State → Prop} (kErr : KErr P) (kQue : KQue P) (kHdg : KHdg P) (kPut : KPut P) (kHly : KHly P) (kSys : KSys P) (kWr : KWr P) (tag : Tag) (s : State) (hP : P s) :
    Out.All P (execGetInfoEnergy tag s) := by
  unfold execGetInfoEnergy
  repeat' first
    | with_reducible apply Out.all_next
    | exact trivial
    | with_reducible assumption
    | exact rfl
    | exact fun _ => ⟨rfl, rfl, rfl⟩
    | with_reducible apply State.info_keeps
    | with_reducible apply State.infoPage_keeps kErr kQue kHdg kPut kHly kSys kWr
    | dsimp only
    | split
    | intro _

theorem execGetInfoPolicy_keeps {P : State → Prop} (kErr : KErr P) (kQue : KQue P) (kHdg : KHdg P) (kPut : KPut P) (kHly : KHly P) (kSys : KSys P) (kWr : KWr P) (tag : Tag) (s : State) (hP : P s) :
    Out.All P (execGetInfoPolicy tag s) := by
  unfold execGetInfoPolicy
  repeat' first
    | with_reducible apply Out.all_next
    | exact trivial
    | with_reducible assumption
    | exact rfl
    | exact fun _ => ⟨rfl, rfl, rfl⟩
    | with_reducible apply State.info_keeps
    | with_reducible apply State.infoPage_keeps kErr kQue kHdg kPut kHly kSys kWr
    | dsimp only
    | split
    | intro _

theorem execGetInfoParked_keeps {P : State → Prop} (kErr : KErr P) (kQue : KQue P) (kHdg : KHdg P) (kPut : KPut P) (kHly : KHly P) (kSys : KSys P) (kWr : KWr P) (tag : Tag) (s : State) (hP : P s) :
    Out.All P (execGetInfoParked tag s) := by
  unfold execGetInfoParked
  repeat' first
    | with_reducible apply Out.all_next
    | exact trivial
    | with_reducible assumption
    | exact rfl
    | exact fun _ => ⟨rfl, rfl, rfl⟩
    | with_reducible apply State.info_keeps
    | with_reducible apply State.parkPage_keeps kErr kQue kHdg kPut kHly kSys kWr
    | dsimp only
    | split
    | intro _

end Sys2Proof.Machine
end

