-- ==== Sys2Proof/Laws/KeepsBringup.lean ====
section
/-!
SUPPORT. What the operations of Machine/Bringup.lean can do: each one keeps every property of a state that its own primitive
updates keep. The hypotheses of a lemma name every unit the operation can reach.
-/
namespace Sys2Proof.Machine

theorem State.discStart_keeps {P : State → Prop} (kErr : KErr P) (kTop : KTop P) (kMcs : KMcs P) (kChan : KChan P) (kEcc : KEcc P) (kBox : KBox P) (kSys : KSys P) (kWr : KWr P) (s : State) (n : Nat) (eni : Bool) (hP : P s) :
 P (State.discStart s n eni) := by
  unfold State.discStart
  repeat' first
    | with_reducible assumption
    | exact rfl
    | exact fun _ => ⟨rfl, rfl, rfl⟩
    | with_reducible apply State.startJobs_keeps kErr kTop kMcs kChan kEcc kBox kWr
    | with_reducible apply kChan
    | with_reducible apply kSys
    | with_reducible apply when_keeps
    | with_reducible apply kWr
    | dsimp only
    | split
    | intro _

theorem State.nextVolume_keeps {P : State → Prop} (kErr : KErr P) (kTop : KTop P) (kMcs : KMcs P) (kChan : KChan P) (kEcc : KEcc P) (kBox : KBox P) (kWr : KWr P) (s : State) (n : Nat) (hP : P s) :
 P (State.nextVolume s n) := by
  unfold State.nextVolume
  repeat' first
    | with_reducible assumption
    | exact rfl
    | exact fun _ => ⟨rfl, rfl, rfl⟩
    | with_reducible apply State.startJobs_keeps kErr kTop kMcs kChan kEcc kBox kWr
    | with_reducible apply kChan
    | dsimp only
    | split
    | intro _

theorem State.compareLun_keeps {P : State → Prop} (kErr : KErr P) (kSys : KSys P) (kWr : KWr P) (s : State) (n t k : Nat) (old new : Targ) (hP : P s) :
 P (State.compareLun s n t k old new) := by
  unfold State.compareLun
  repeat' first
    | with_reducible assumption
    | exact rfl
    | exact fun _ => ⟨rfl, rfl, rfl⟩
    | with_reducible apply kSys
    | with_reducible apply State.err1_keeps kErr kWr
    | with_reducible apply when_keeps
    | dsimp only
    | split
    | intro _

theorem State.compareTarg_keeps {P : State → Prop} (kErr : KErr P) (kChan : KChan P) (kSys : KSys P) (kWr : KWr P) (s : State) (n : Nat) (r : List Found) (t : Nat) (hP : P s) :
 P (State.compareTarg s n r t) := by
  unfold State.compareTarg
  repeat' first
    | with_reducible assumption
    | exact rfl
    | exact fun _ => ⟨rfl, rfl, rfl⟩
    | with_reducible apply each_keeps
    | with_reducible apply when_keeps
    | with_reducible apply kChan
    | with_reducible apply State.err1_keeps kErr kWr
    | with_reducible apply kSys
    | with_reducible apply State.compareLun_keeps kErr kSys kWr
    | dsimp only
    | split
    | intro _

theorem State.keepInventory_keeps {P : State → Prop} (kYew : KYew P) (kWr : KWr P) (s : State) (hP : P s) :
 P (State.keepInventory s) := by
  unfold State.keepInventory
  repeat' first
    | with_reducible assumption
    | exact rfl
    | exact fun _ => ⟨rfl, rfl, rfl⟩
    | with_reducible apply State.keep_keeps kYew kWr
    | dsimp only
    | split
    | intro _

theorem State.failGone_keeps {P : State → Prop} (kErr : KErr P) (kQue : KQue P) (kHdg : KHdg P) (kPut : KPut P) (kCop : KCop P) (kMap : KMap P) (kTop : KTop P) (kChan : KChan P) (kEcc : KEcc P) (kBox : KBox P) (kSys : KSys P) (kWr : KWr P) (s : State) (n : Nat) (hP : P s) :
 P (State.failGone s n) := by
  unfold State.failGone
  repeat' first
    | with_reducible assumption
    | exact rfl
    | exact fun _ => ⟨rfl, rfl, rfl⟩
    | with_reducible apply State.failOp_keeps kErr kQue kHdg kPut kCop kMap kTop kChan kEcc kBox kSys kWr
    | with_reducible apply each_keeps
    | dsimp only
    | split
    | intro _

theorem State.freeLun_keeps {P : State → Prop} (kTop : KTop P) (kChan : KChan P) (kJnp : KJnp P) (kBox : KBox P) (kWr : KWr P) (s : State) (lun : Nat) (hP : P s) :
 P (State.freeLun s lun) := by
  unfold State.freeLun
  repeat' first
    | with_reducible assumption
    | exact rfl
    | exact fun _ => ⟨rfl, rfl, rfl⟩
    | with_reducible apply kTop
    | with_reducible apply State.unblock_keeps kTop kChan kJnp kBox kWr
    | dsimp only
    | split
    | intro _

theorem State.compareAll_keeps {P : State → Prop} (kErr : KErr P) (kQue : KQue P) (kHdg : KHdg P) (kPut : KPut P) (kCop : KCop P) (kMap : KMap P) (kTop : KTop P) (kMcs : KMcs P) (kChan : KChan P) (kEcc : KEcc P) (kJnp : KJnp P) (kBox : KBox P) (kYew : KYew P) (kSys : KSys P) (kWr : KWr P) (s : State) (n : Nat) (r : DiscRes) (hP : P s) :
 P (State.compareAll s n r) := by
  unfold State.compareAll
  repeat' first
    | with_reducible assumption
    | exact rfl
    | exact fun _ => ⟨rfl, rfl, rfl⟩
    | with_reducible apply State.failGone_keeps kErr kQue kHdg kPut kCop kMap kTop kChan kEcc kBox kSys kWr
    | with_reducible apply kTop
    | with_reducible apply each_keeps
    | with_reducible apply State.compareTarg_keeps kErr kChan kSys kWr
    | with_reducible apply State.freeLun_keeps kTop kChan kJnp kBox kWr
    | with_reducible apply when_keeps
    | with_reducible apply kChan
    | with_reducible apply State.err1_keeps kErr kWr
    | with_reducible apply State.keepInventory_keeps kYew kWr
    | with_reducible apply kSys
    | with_reducible apply State.climb_keeps kErr kTop kMcs kChan kEcc kBox kWr
    | with_reducible apply State.numberGroups_keeps kErr kHdg kPut kJnp kWr
    | dsimp only
    | split
    | intro _

theorem State.discEnd_keeps {P : State → Prop} (kErr : KErr P) (kQue : KQue P) (kHdg : KHdg P) (kPut : KPut P) (kCop : KCop P) (kMap : KMap P) (kTop : KTop P) (kMcs : KMcs P) (kChan : KChan P) (kEcc : KEcc P) (kJnp : KJnp P) (kBox : KBox P) (kYew : KYew P) (kHly : KHly P) (kPwr : KPwr P) (kSys : KSys P) (kWr : KWr P) (kDrawn : KDrawn P) (kDeliv : KDeliv P) (s : State) (n : Nat) (r : DiscRes) (hP : P s) :
 P (State.discEnd s n r) := by
  unfold State.discEnd
  repeat' first
    | with_reducible assumption
    | exact rfl
    | exact fun _ => ⟨rfl, rfl, rfl⟩
    | with_reducible apply State.compareAll_keeps kErr kQue kHdg kPut kCop kMap kTop kMcs kChan kEcc kJnp kBox kYew kSys kWr
    | with_reducible apply kChan
    | with_reducible apply kSys
    | with_reducible apply State.dropLease_keeps kTop kWr
    | with_reducible apply State.discTold_keeps kQue kHly kSys kWr
    | with_reducible apply State.busFree_keeps kErr kQue kHdg kPut kCop kMap kTop kMcs kChan kEcc kJnp kBox kYew kHly kPwr kSys kWr kDrawn kDeliv
    | with_reducible apply State.wokeCheck_keeps kPwr kWr
    | dsimp only
    | split
    | intro _

theorem State.scanEnd_keeps {P : State → Prop} (kErr : KErr P) (kWr : KWr P) (s : State) (r : TornRes) (hP : P s) :
 P (State.scanEnd s r) := by
  unfold State.scanEnd
  repeat' first
    | with_reducible assumption
    | exact rfl
    | exact fun _ => ⟨rfl, rfl, rfl⟩
    | exact fun _ => rfl
    | with_reducible apply each_keeps
    | with_reducible apply State.addTorn_keeps kErr kWr
    | with_reducible apply State.err1_keeps kErr kWr
    | with_reducible apply KErr.same kErr
    | with_reducible apply State.setb_keeps kWr
    | dsimp only
    | split
    | intro _

theorem State.retireNow_keeps {P : State → Prop} (kErr : KErr P) (kQue : KQue P) (kHdg : KHdg P) (kPut : KPut P) (kCop : KCop P) (kMap : KMap P) (kTop : KTop P) (kMcs : KMcs P) (kChan : KChan P) (kEcc : KEcc P) (kJnp : KJnp P) (kBox : KBox P) (kYew : KYew P) (kHly : KHly P) (kSys : KSys P) (kWr : KWr P) (kDrawn : KDrawn P) (kDeliv : KDeliv P) (s : State) (lun : Nat) (hP : P s) :
 P (State.retireNow s lun) := by
  unfold State.retireNow
  repeat' first
    | with_reducible assumption
    | exact rfl
    | exact fun _ => ⟨rfl, rfl, rfl⟩
    | with_reducible apply each_keeps
    | with_reducible apply kSys
    | with_reducible apply State.failOp_keeps kErr kQue kHdg kPut kCop kMap kTop kChan kEcc kBox kSys kWr
    | with_reducible apply State.err1_keeps kErr kWr
    | with_reducible apply kTop
    | with_reducible apply State.settle_keeps kErr kQue kHdg kPut kCop kMap kTop kMcs kChan kEcc kJnp kBox kYew kHly kSys kWr kDrawn kDeliv
    | with_reducible apply State.freeLun_keeps kTop kChan kJnp kBox kWr
    | with_reducible apply State.keepInventory_keeps kYew kWr
    | dsimp only
    | split
    | intro _

theorem State.portUp_keeps {P : State → Prop} (kErr : KErr P) (kQue : KQue P) (kHdg : KHdg P) (kPut : KPut P) (kLost : KLost P) (kCop : KCop P) (kMap : KMap P) (kTop : KTop P) (kMcs : KMcs P) (kChan : KChan P) (kEcc : KEcc P) (kJnp : KJnp P) (kBox : KBox P) (kYew : KYew P) (kHly : KHly P) (kPwr : KPwr P) (kSys : KSys P) (kWr : KWr P) (kDrawn : KDrawn P) (kDram : KDram P) (kDeliv : KDeliv P) (s : State) (port : Nat) (hP : P s) :
 P (State.portUp s port) := by
  unfold State.portUp
  repeat' first
    | with_reducible assumption
    | exact rfl
    | exact fun _ => ⟨rfl, rfl, rfl⟩
    | exact fun _ => rfl
    | with_reducible apply each_keeps
    | with_reducible apply KQue.same kQue
    | with_reducible apply State.settle_keeps kErr kQue kHdg kPut kCop kMap kTop kMcs kChan kEcc kJnp kBox kYew kHly kSys kWr kDrawn kDeliv
    | with_reducible apply State.writeCq_keeps kErr kQue kHdg kPut kMap kWr kDram
    | with_reducible apply State.entryGo_keeps kErr kQue kHdg kPut kLost kCop kMap kTop kMcs kChan kEcc kJnp kBox kHly kPwr kSys kWr
    | with_reducible apply State.detachStep_keeps kQue kMap kHly kSys kWr
    | dsimp only
    | split
    | intro _

theorem execDiscoveryStart_keeps {P : State → Prop} (kErr : KErr P) (kTop : KTop P) (kMcs : KMcs P) (kChan : KChan P) (kEcc : KEcc P) (kBox : KBox P) (kSys : KSys P) (kWr : KWr P) (ch : Fin 8) (eni : Bool) (s : State) (hP : P s) :
    Out.All P (execDiscoveryStart ch eni s) := by
  unfold execDiscoveryStart
  repeat' first
    | with_reducible apply Out.all_next
    | exact trivial
    | with_reducible assumption
    | exact rfl
    | exact fun _ => ⟨rfl, rfl, rfl⟩
    | with_reducible apply State.nextVolume_keeps kErr kTop kMcs kChan kEcc kBox kWr
    | with_reducible apply State.discStart_keeps kErr kTop kMcs kChan kEcc kBox kSys kWr
    | dsimp only
    | split
    | intro _

theorem execDiscoveryEnd_keeps {P : State → Prop} (kErr : KErr P) (kQue : KQue P) (kHdg : KHdg P) (kPut : KPut P) (kCop : KCop P) (kMap : KMap P) (kTop : KTop P) (kMcs : KMcs P) (kChan : KChan P) (kEcc : KEcc P) (kJnp : KJnp P) (kBox : KBox P) (kYew : KYew P) (kHly : KHly P) (kPwr : KPwr P) (kSys : KSys P) (kWr : KWr P) (kDrawn : KDrawn P) (kDeliv : KDeliv P) (ch : Fin 8) (r : DiscRes) (s : State) (hP : P s) :
    Out.All P (execDiscoveryEnd ch r s) := by
  unfold execDiscoveryEnd
  apply Out.all_next
  split
  · exact State.discEnd_keeps kErr kQue kHdg kPut kCop kMap kTop kMcs kChan kEcc kJnp kBox kYew kHly kPwr kSys kWr kDrawn kDeliv _ _ _ (when_keeps _ _ _ (fun h => kDrawn _ _ h) hP)
  · exact hP

theorem execTornScanDone_keeps {P : State → Prop} (kErr : KErr P) (kWr : KWr P) (r : TornRes) (s : State) (hP : P s) :
    Out.All P (execTornScanDone r s) := by
  unfold execTornScanDone
  repeat' first
    | with_reducible apply Out.all_next
    | exact trivial
    | with_reducible assumption
    | exact rfl
    | exact fun _ => ⟨rfl, rfl, rfl⟩
    | with_reducible apply State.scanEnd_keeps kErr kWr
    | dsimp only
    | split
    | intro _

theorem execLunRetirementEffect_keeps {P : State → Prop} (kErr : KErr P) (kQue : KQue P) (kHdg : KHdg P) (kPut : KPut P) (kCop : KCop P) (kMap : KMap P) (kTop : KTop P) (kMcs : KMcs P) (kChan : KChan P) (kEcc : KEcc P) (kJnp : KJnp P) (kBox : KBox P) (kYew : KYew P) (kHly : KHly P) (kSys : KSys P) (kWr : KWr P) (kDrawn : KDrawn P) (kDeliv : KDeliv P) (lun : Fin 256) (s : State) (hP : P s) :
    Out.All P (execLunRetirementEffect lun s) := by
  unfold execLunRetirementEffect
  repeat' first
    | with_reducible apply Out.all_next
    | exact trivial
    | with_reducible assumption
    | exact rfl
    | exact fun _ => ⟨rfl, rfl, rfl⟩
    | with_reducible apply State.retireNow_keeps kErr kQue kHdg kPut kCop kMap kTop kMcs kChan kEcc kJnp kBox kYew kHly kSys kWr kDrawn kDeliv
    | dsimp only
    | split
    | intro _

theorem execPortLinkUp_keeps {P : State → Prop} (kErr : KErr P) (kQue : KQue P) (kHdg : KHdg P) (kPut : KPut P) (kLost : KLost P) (kCop : KCop P) (kMap : KMap P) (kTop : KTop P) (kMcs : KMcs P) (kChan : KChan P) (kEcc : KEcc P) (kJnp : KJnp P) (kBox : KBox P) (kYew : KYew P) (kHly : KHly P) (kPwr : KPwr P) (kSys : KSys P) (kWr : KWr P) (kDrawn : KDrawn P) (kDram : KDram P) (kDeliv : KDeliv P) (port : Fin 4) (s : State) (hP : P s) :
    Out.All P (execPortLinkUp port s) := by
  unfold execPortLinkUp
  repeat' first
    | with_reducible apply Out.all_next
    | exact trivial
    | with_reducible assumption
    | exact rfl
    | exact fun _ => ⟨rfl, rfl, rfl⟩
    | with_reducible apply State.portUp_keeps kErr kQue kHdg kPut kLost kCop kMap kTop kMcs kChan kEcc kJnp kBox kYew kHly kPwr kSys kWr kDrawn kDram kDeliv
    | dsimp only
    | split
    | intro _

end Sys2Proof.Machine
end

