-- ==== Sys2Proof/Laws/KeepsHollyRows.lean ====
section
/-!
SUPPORT. What the operations of Machine/HollyRows.lean can do: each one keeps every property of a state that its own primitive
updates keep. The hypotheses of a lemma name every unit the operation can reach.
-/
namespace Sys2Proof.Machine

theorem State.untag_keeps {P : State → Prop} (kHdg : KHdg P) (kTop : KTop P) (kJnp : KJnp P) (kYew : KYew P) (s : State) (t : Nat) (hP : P s) :
 P (State.untag s t) := by
  unfold State.untag
  repeat' first
    | with_reducible assumption
    | exact rfl
    | exact fun _ => ⟨rfl, rfl, rfl⟩
    | with_reducible apply kTop
    | with_reducible apply kJnp
    | with_reducible apply kYew
    | with_reducible apply kHdg
    | dsimp only
    | split
    | intro _

theorem State.actDrop_keeps {P : State → Prop} (kErr : KErr P) (kTop : KTop P) (kMcs : KMcs P) (kChan : KChan P) (kEcc : KEcc P) (kBox : KBox P) (kHly : KHly P) (kWr : KWr P) (s : State) (hP : P s) :
 P (State.actDrop s) := by
  unfold State.actDrop
  repeat' first
    | with_reducible assumption
    | exact rfl
    | exact fun _ => ⟨rfl, rfl, rfl⟩
    | with_reducible apply kHly
    | with_reducible apply State.kickAll_keeps kErr kTop kMcs kChan kEcc kBox kWr
    | dsimp only
    | split
    | intro _

theorem State.failInflight_keeps {P : State → Prop} (kErr : KErr P) (kQue : KQue P) (kHdg : KHdg P) (kTop : KTop P) (kMcs : KMcs P) (kChan : KChan P) (kEcc : KEcc P) (kJnp : KJnp P) (kBox : KBox P) (kYew : KYew P) (kHly : KHly P) (kSys : KSys P) (kWr : KWr P) (s : State) (hP : P s) :
 P (State.failInflight s) := by
  unfold State.failInflight
  repeat' first
    | with_reducible assumption
    | exact rfl
    | exact fun _ => ⟨rfl, rfl, rfl⟩
    | with_reducible apply State.actDrop_keeps kErr kTop kMcs kChan kEcc kBox kHly kWr
    | with_reducible apply State.finishSlow_keeps kQue kHly kSys kWr
    | with_reducible apply each_keeps
    | with_reducible apply State.untag_keeps kHdg kTop kJnp kYew
    | dsimp only
    | split
    | intro _

theorem State.wdogFire_keeps {P : State → Prop} (kErr : KErr P) (kQue : KQue P) (kHdg : KHdg P) (kTop : KTop P) (kMcs : KMcs P) (kChan : KChan P) (kEcc : KEcc P) (kJnp : KJnp P) (kBox : KBox P) (kYew : KYew P) (kHly : KHly P) (kSys : KSys P) (kWr : KWr P) (s : State) (hP : P s) :
 P (State.wdogFire s) := by
  unfold State.wdogFire
  repeat' first
    | with_reducible assumption
    | exact rfl
    | exact fun _ => ⟨rfl, rfl, rfl⟩
    | with_reducible apply State.err1_keeps kErr kWr
    | with_reducible apply State.hollyHalt_keeps kQue kHly kSys kWr
    | with_reducible apply State.failInflight_keeps kErr kQue kHdg kTop kMcs kChan kEcc kJnp kBox kYew kHly kSys kWr
    | with_reducible apply kHly
    | with_reducible apply State.setb_keeps kWr
    | with_reducible apply State.hollyGo_keeps kHly kWr
    | dsimp only
    | split
    | intro _

theorem State.hlyWdog_keeps {P : State → Prop} (kHly : KHly P) (kWr : KWr P) (s : State) (holly : Bool) (v : Nat) (hP : P s) :
 P (State.hlyWdog s holly v) := by
  unfold State.hlyWdog
  repeat' first
    | with_reducible assumption
    | exact rfl
    | exact fun _ => ⟨rfl, rfl, rfl⟩
    | with_reducible apply kHly
    | with_reducible apply when_keeps
    | with_reducible apply kWr
    | dsimp only
    | split
    | intro _

theorem State.hollyRestart_keeps {P : State → Prop} (kErr : KErr P) (kQue : KQue P) (kHly : KHly P) (kSys : KSys P) (kWr : KWr P) (s : State) (hP : P s) :
 P (State.hollyRestart s) := by
  unfold State.hollyRestart
  repeat' first
    | with_reducible assumption
    | exact rfl
    | exact fun _ => ⟨rfl, rfl, rfl⟩
    | with_reducible apply State.hollyGo_keeps kHly kWr
    | with_reducible apply State.hollyStart_keeps kErr kQue kHly kSys kWr
    | dsimp only
    | split
    | intro _

theorem State.hollySwitch_keeps {P : State → Prop} (kYew : KYew P) (kHly : KHly P) (kWr : KWr P) (s : State) (hP : P s) :
 P (State.hollySwitch s) := by
  unfold State.hollySwitch
  repeat' first
    | with_reducible assumption
    | exact rfl
    | exact fun _ => ⟨rfl, rfl, rfl⟩
    | with_reducible apply State.keepAct_keeps kYew kWr
    | with_reducible apply kHly
    | with_reducible apply kWr
    | dsimp only
    | split
    | intro _

theorem State.hollyReady_keeps {P : State → Prop} (kErr : KErr P) (kQue : KQue P) (kTop : KTop P) (kMcs : KMcs P) (kChan : KChan P) (kEcc : KEcc P) (kBox : KBox P) (kHly : KHly P) (kSys : KSys P) (kWr : KWr P) (s : State) (hP : P s) :
 P (State.hollyReady s) := by
  unfold State.hollyReady
  repeat' first
    | with_reducible assumption
    | exact rfl
    | exact fun _ => ⟨rfl, rfl, rfl⟩
    | with_reducible apply State.actEnd_keeps kErr kQue kTop kMcs kChan kEcc kBox kHly kSys kWr
    | with_reducible apply State.hollyParams_keeps kHly
    | with_reducible apply State.hollyShow_keeps kWr
    | with_reducible apply kWr
    | dsimp only
    | split
    | intro _

theorem State.hollyCtl_keeps {P : State → Prop} (kErr : KErr P) (kQue : KQue P) (kTop : KTop P) (kMcs : KMcs P) (kChan : KChan P) (kEcc : KEcc P) (kBox : KBox P) (kYew : KYew P) (kHly : KHly P) (kSys : KSys P) (kWr : KWr P) (s : State) (v : Nat) (hP : P s) :
 P (State.hollyCtl s v) := by
  unfold State.hollyCtl
  repeat' first
    | with_reducible assumption
    | exact rfl
    | exact fun _ => ⟨rfl, rfl, rfl⟩
    | with_reducible apply State.hollySwitch_keeps kYew kHly kWr
    | with_reducible apply when_keeps
    | with_reducible apply State.hollyReady_keeps kErr kQue kTop kMcs kChan kEcc kBox kHly kSys kWr
    | with_reducible apply kWr
    | dsimp only
    | split
    | intro _

theorem State.hollyBack_keeps {P : State → Prop} (kErr : KErr P) (kYew : KYew P) (kHly : KHly P) (kWr : KWr P) (s : State) (a : Actv) (hP : P s) :
 P (State.hollyBack s a) := by
  unfold State.hollyBack
  repeat' first
    | with_reducible assumption
    | exact rfl
    | exact fun _ => ⟨rfl, rfl, rfl⟩
    | with_reducible apply State.keepAct_keeps kYew kWr
    | with_reducible apply State.err1_keeps kErr kWr
    | with_reducible apply kHly
    | dsimp only
    | split
    | intro _

theorem State.actWritten_keeps {P : State → Prop} (kHly : KHly P) (kWr : KWr P) (s : State) (stage : Nat) (hP : P s) :
 P (State.actWritten s stage) := by
  unfold State.actWritten
  repeat' first
    | with_reducible assumption
    | exact rfl
    | exact fun _ => ⟨rfl, rfl, rfl⟩
    | with_reducible apply State.hollyGo_keeps kHly kWr
    | dsimp only
    | split
    | intro _

theorem State.yNote_keeps {P : State → Prop} (kErr : KErr P) (kQue : KQue P) (kHdg : KHdg P) (kPut : KPut P) (kCop : KCop P) (kMap : KMap P) (kTop : KTop P) (kMcs : KMcs P) (kChan : KChan P) (kEcc : KEcc P) (kJnp : KJnp P) (kBox : KBox P) (kYew : KYew P) (kHly : KHly P) (kSys : KSys P) (kWr : KWr P) (kDrawn : KDrawn P) (kDeliv : KDeliv P) (s : State) (o : YOp) (hP : P s) :
 P (State.yNote s o) := by
  unfold State.yNote
  repeat' first
    | with_reducible assumption
    | exact rfl
    | exact fun _ => ⟨rfl, rfl, rfl⟩
    | with_reducible apply State.dormantReady_keeps kQue kSys kWr
    | with_reducible apply each_keeps
    | with_reducible apply State.actWritten_keeps kHly kWr
    | with_reducible apply State.persisted_keeps kQue kTop kHly kSys kWr
    | with_reducible apply kTop
    | with_reducible apply State.settle_keeps kErr kQue kHdg kPut kCop kMap kTop kMcs kChan kEcc kJnp kBox kYew kHly kSys kWr kDrawn kDeliv
    | with_reducible apply State.onCmd_keeps kQue
    | with_reducible apply kWr
    | dsimp only
    | split
    | intro _

theorem State.yNoteFail_keeps {P : State → Prop} (kErr : KErr P) (kQue : KQue P) (kHdg : KHdg P) (kPut : KPut P) (kCop : KCop P) (kMap : KMap P) (kTop : KTop P) (kMcs : KMcs P) (kChan : KChan P) (kEcc : KEcc P) (kJnp : KJnp P) (kBox : KBox P) (kYew : KYew P) (kHly : KHly P) (kSys : KSys P) (kWr : KWr P) (kDrawn : KDrawn P) (kDeliv : KDeliv P) (s : State) (o : YOp) (hP : P s) :
 P (State.yNoteFail s o) := by
  unfold State.yNoteFail
  repeat' first
    | with_reducible assumption
    | exact rfl
    | exact fun _ => ⟨rfl, rfl, rfl⟩
    | with_reducible apply State.yNote_keeps kErr kQue kHdg kPut kCop kMap kTop kMcs kChan kEcc kJnp kBox kYew kHly kSys kWr kDrawn kDeliv
    | with_reducible apply State.setb_keeps kWr
    | with_reducible apply when_keeps
    | with_reducible apply State.jPut_keeps kYew kWr
    | dsimp only
    | split
    | intro _

theorem State.yPulseEnd_keeps {P : State → Prop} (kErr : KErr P) (kQue : KQue P) (kHdg : KHdg P) (kPut : KPut P) (kCop : KCop P) (kMap : KMap P) (kTop : KTop P) (kMcs : KMcs P) (kChan : KChan P) (kEcc : KEcc P) (kJnp : KJnp P) (kBox : KBox P) (kYew : KYew P) (kHly : KHly P) (kSys : KSys P) (kWr : KWr P) (kDrawn : KDrawn P) (kDeliv : KDeliv P) (s : State) (b : Nat) (ok erase : Bool) (hP : P s) :
 P (State.yPulseEnd s b ok erase) := by
  unfold State.yPulseEnd
  repeat' first
    | with_reducible assumption
    | exact rfl
    | exact fun _ => ⟨rfl, rfl, rfl⟩
    | with_reducible apply State.yNote_keeps kErr kQue kHdg kPut kCop kMap kTop kMcs kChan kEcc kJnp kBox kYew kHly kSys kWr kDrawn kDeliv
    | with_reducible apply State.yNoteFail_keeps kErr kQue kHdg kPut kCop kMap kTop kMcs kChan kEcc kJnp kBox kYew kHly kSys kWr kDrawn kDeliv
    | with_reducible apply when_keeps
    | with_reducible apply State.keeperGo_keeps kYew kWr
    | with_reducible apply State.yPulse_keeps kErr kYew kWr kDrawn
    | with_reducible refine State.yPulse_keeps' kErr kYew kWr kDrawn ‹_ = (_, _)› ?_
    | dsimp only
    | split
    | intro _

theorem execHlyWdogExpiry_keeps {P : State → Prop} (kErr : KErr P) (kQue : KQue P) (kHdg : KHdg P) (kTop : KTop P) (kMcs : KMcs P) (kChan : KChan P) (kEcc : KEcc P) (kJnp : KJnp P) (kBox : KBox P) (kYew : KYew P) (kHly : KHly P) (kSys : KSys P) (kWr : KWr P) (s : State) (hP : P s) :
    Out.All P (execHlyWdogExpiry s) := by
  unfold execHlyWdogExpiry
  repeat' first
    | with_reducible apply Out.all_next
    | exact trivial
    | with_reducible assumption
    | exact rfl
    | exact fun _ => ⟨rfl, rfl, rfl⟩
    | with_reducible apply State.wdogFire_keeps kErr kQue kHdg kTop kMcs kChan kEcc kJnp kBox kYew kHly kSys kWr
    | dsimp only
    | split
    | intro _

theorem execHlyWdogKick_keeps {P : State → Prop} (kHly : KHly P) (kPwr : KPwr P) (kWr : KWr P) (kResp : KResp P) (s : State) (hP : P s) :
    Out.All P (execHlyWdogKick s) := by
  unfold execHlyWdogKick
  repeat' first
    | with_reducible apply Out.all_next
    | exact trivial
    | with_reducible assumption
    | exact rfl
    | exact fun _ => ⟨rfl, rfl, rfl⟩
    | with_reducible apply State.hlyWdog_keeps kHly kWr
    | with_reducible apply State.access_keeps kPwr kResp
    | dsimp only
    | split
    | intro _

theorem execHlyRestart_keeps {P : State → Prop} (kErr : KErr P) (kQue : KQue P) (kHly : KHly P) (kPwr : KPwr P) (kSys : KSys P) (kWr : KWr P) (kResp : KResp P) (m : Master) (s : State) (hP : P s) :
    Out.All P (execHlyRestart m s) := by
  unfold execHlyRestart
  repeat' first
    | with_reducible apply Out.all_next
    | exact trivial
    | with_reducible assumption
    | exact rfl
    | exact fun _ => ⟨rfl, rfl, rfl⟩
    | with_reducible apply State.hollyRestart_keeps kErr kQue kHly kSys kWr
    | with_reducible apply State.access_keeps kPwr kResp
    | dsimp only
    | split
    | intro _

theorem execHlyQuiesced_keeps {P : State → Prop} (kErr : KErr P) (kQue : KQue P) (kTop : KTop P) (kMcs : KMcs P) (kChan : KChan P) (kEcc : KEcc P) (kBox : KBox P) (kYew : KYew P) (kHly : KHly P) (kPwr : KPwr P) (kSys : KSys P) (kWr : KWr P) (kResp : KResp P) (s : State) (hP : P s) :
    Out.All P (execHlyQuiesced s) := by
  unfold execHlyQuiesced
  repeat' first
    | with_reducible apply Out.all_next
    | exact trivial
    | with_reducible assumption
    | exact rfl
    | exact fun _ => ⟨rfl, rfl, rfl⟩
    | with_reducible apply State.hollyCtl_keeps kErr kQue kTop kMcs kChan kEcc kBox kYew kHly kSys kWr
    | with_reducible apply State.access_keeps kPwr kResp
    | dsimp only
    | split
    | intro _

theorem execHlyReady_keeps {P : State → Prop} (kErr : KErr P) (kQue : KQue P) (kTop : KTop P) (kMcs : KMcs P) (kChan : KChan P) (kEcc : KEcc P) (kBox : KBox P) (kYew : KYew P) (kHly : KHly P) (kPwr : KPwr P) (kSys : KSys P) (kWr : KWr P) (kResp : KResp P) (s : State) (hP : P s) :
    Out.All P (execHlyReady s) := by
  unfold execHlyReady
  repeat' first
    | with_reducible apply Out.all_next
    | exact trivial
    | with_reducible assumption
    | exact rfl
    | exact fun _ => ⟨rfl, rfl, rfl⟩
    | with_reducible apply State.hollyCtl_keeps kErr kQue kTop kMcs kChan kEcc kBox kYew kHly kSys kWr
    | with_reducible apply State.access_keeps kPwr kResp
    | dsimp only
    | split
    | intro _

theorem execActivateStartTimeout_keeps {P : State → Prop} (kErr : KErr P) (kYew : KYew P) (kHly : KHly P) (kWr : KWr P) (s : State) (hP : P s) :
    Out.All P (execActivateStartTimeout s) := by
  unfold execActivateStartTimeout
  repeat' first
    | with_reducible apply Out.all_next
    | exact trivial
    | with_reducible assumption
    | exact rfl
    | exact fun _ => ⟨rfl, rfl, rfl⟩
    | with_reducible apply State.hollyBack_keeps kErr kYew kHly kWr
    | dsimp only
    | split
    | intro _

theorem execYewProgramPulseDone_keeps {P : State → Prop} (kErr : KErr P) (kQue : KQue P) (kHdg : KHdg P) (kPut : KPut P) (kCop : KCop P) (kMap : KMap P) (kTop : KTop P) (kMcs : KMcs P) (kChan : KChan P) (kEcc : KEcc P) (kJnp : KJnp P) (kBox : KBox P) (kYew : KYew P) (kHly : KHly P) (kSys : KSys P) (kWr : KWr P) (kDrawn : KDrawn P) (kDeliv : KDeliv P) (bank : Fin 2) (verified : Bool) (s : State) (hP : P s) :
    Out.All P (execYewProgramPulseDone bank verified s) := by
  unfold execYewProgramPulseDone
  repeat' first
    | with_reducible apply Out.all_next
    | exact trivial
    | with_reducible assumption
    | exact rfl
    | exact fun _ => ⟨rfl, rfl, rfl⟩
    | with_reducible apply State.yPulseEnd_keeps kErr kQue kHdg kPut kCop kMap kTop kMcs kChan kEcc kJnp kBox kYew kHly kSys kWr kDrawn kDeliv
    | dsimp only
    | split
    | intro _

theorem execYewErasePulseDone_keeps {P : State → Prop} (kErr : KErr P) (kQue : KQue P) (kHdg : KHdg P) (kPut : KPut P) (kCop : KCop P) (kMap : KMap P) (kTop : KTop P) (kMcs : KMcs P) (kChan : KChan P) (kEcc : KEcc P) (kJnp : KJnp P) (kBox : KBox P) (kYew : KYew P) (kHly : KHly P) (kSys : KSys P) (kWr : KWr P) (kDrawn : KDrawn P) (kDeliv : KDeliv P) (bank : Fin 2) (blank : Bool) (s : State) (hP : P s) :
    Out.All P (execYewErasePulseDone bank blank s) := by
  unfold execYewErasePulseDone
  repeat' first
    | with_reducible apply Out.all_next
    | exact trivial
    | with_reducible assumption
    | exact rfl
    | exact fun _ => ⟨rfl, rfl, rfl⟩
    | with_reducible apply State.yPulseEnd_keeps kErr kQue kHdg kPut kCop kMap kTop kMcs kChan kEcc kJnp kBox kYew kHly kSys kWr kDrawn kDeliv
    | dsimp only
    | split
    | intro _

end Sys2Proof.Machine
end

