-- ==== Sys2Proof/Laws/KeepsCompletion.lean ====
section
/-!
SUPPORT. What the operations of Machine/Completion.lean can do: each one keeps every property of a state that its own primitive
updates keep. The hypotheses of a lemma name every unit the operation can reach.
-/
namespace Sys2Proof.Machine

/-- The property survives a record that leaves the staging FIFO, and its emptying. -/
theorem KQue.fewer {P : State → Prop} (kQue : KQue P) {s : State} {f : Que → Que}
    (h : (f s.que).csf.length ≤ s.que.csf.length) (hP : P s) : P (s.onQue f) :=
  kQue _ _ (Nat.le_trans h (Nat.le_max_left _ _)) hP

theorem State.grantRec_keeps {P : State → Prop} (kQue : KQue P) (kDma : KDma P) (kWr : KWr P) (s : State) (r : Rec) (hP : P s) (hC : s.que.csf.length < 256) :
 P (State.grantRec s r) := by
  have h2 : P (s.onQue fun q => { q with reqs := q.reqs.tail, csf := q.csf ++ [{ r with tstamp := s.now }] }) := by
    refine kQue _ _ (Nat.le_trans ?_ (Nat.le_max_right _ _)) hP
    simp only [List.length_append, List.length_cons, List.length_nil]
    omega
  have h3 := State.levelEvent_keeps kWr _ Reg.GLB_CSF_LEVEL_LEVEL Reg.GLB_CSF_LEVEL_HIT 256 s.que.csf.length (s.que.csf.length + 1) h2 rfl
  unfold State.grantRec
  extract_lets entry was t1 t2
  revert h3
  show P t2 → _
  intro h3
  clear_value t2
  split
  · exact State.unrequest_keeps kQue _ _ hP
  · split
    · exact State.dmaGranted_keeps kDma _ _ _ (State.onCmd_keeps kQue _ _ _ h3)
    · exact h3

theorem State.writeRec_keeps {P : State → Prop} (kErr : KErr P) (kQue : KQue P) (kHdg : KHdg P) (kPut : KPut P) (kLost : KLost P) (kCop : KCop P) (kMap : KMap P) (kTop : KTop P) (kMcs : KMcs P) (kChan : KChan P) (kEcc : KEcc P) (kJnp : KJnp P) (kBox : KBox P) (kHly : KHly P) (kPwr : KPwr P) (kSys : KSys P) (kWr : KWr P) (kDram : KDram P) (s : State) (r : Rec) (hP : P s) :
 P (State.writeRec s r) := by
  unfold State.writeRec
  have h : P (s.onQue fun q => { q with csf := q.csf.tail }) := KQue.fewer kQue (by simp) hP
  dsimp only
  refine State.entryGo_keeps kErr kQue kHdg kPut kLost kCop kMap kTop kMcs kChan kEcc kJnp kBox kHly kPwr kSys kWr _ (State.detachStep_keeps kQue kMap kHly kSys kWr _ ?_)
  split
  · exact State.park_keeps kQue kMap _ _ _ h
  · exact State.writeCq_keeps kErr kQue kHdg kPut kMap kWr kDram _ _ h

theorem State.loseRead_keeps {P : State → Prop} (kErr : KErr P) (kQue : KQue P) (kHdg : KHdg P) (kPut : KPut P) (kCop : KCop P) (kTop : KTop P) (kMcs : KMcs P) (kChan : KChan P) (kEcc : KEcc P) (kBox : KBox P) (kSys : KSys P) (kWr : KWr P) (s : State) (tag det : Nat) (hP : P s) :
 P (State.loseRead s tag det) := by
  unfold State.loseRead
  repeat' first
    | with_reducible assumption
    | exact rfl
    | exact fun _ => ⟨rfl, rfl, rfl⟩
    | with_reducible apply State.endReads_keeps kErr kQue kHdg kPut kCop kTop kMcs kChan kEcc kBox kWr
    | with_reducible apply State.copyEnd_keeps kQue kTop kSys kWr
    | with_reducible apply State.releaseFrame_keeps kErr kQue kHdg kPut kCop kTop kMcs kChan kEcc kBox kWr
    | with_reducible apply State.copyStop_keeps kErr kQue kHdg kPut kCop kTop kMcs kChan kEcc kBox kWr
    | with_reducible apply State.onFrame_keeps kQue
    | with_reducible apply State.finish_keeps kQue kSys kWr
    | dsimp only
    | split
    | intro _

theorem State.loseOp_keeps {P : State → Prop} (kErr : KErr P) (kQue : KQue P) (kHdg : KHdg P) (kPut : KPut P) (kCop : KCop P) (kMap : KMap P) (kTop : KTop P) (kMcs : KMcs P) (kChan : KChan P) (kEcc : KEcc P) (kBox : KBox P) (kSys : KSys P) (kWr : KWr P) (s : State) (o : Op) (det : Nat) (keep : Bool) (hP : P s) :
 P (State.loseOp s o det keep) := by
  unfold State.loseOp
  repeat' first
    | with_reducible assumption
    | exact rfl
    | exact fun _ => ⟨rfl, rfl, rfl⟩
    | with_reducible apply each_keeps
    | with_reducible apply State.queueRead_keeps kTop kWr
    | with_reducible apply State.failOp_keeps kErr kQue kHdg kPut kCop kMap kTop kChan kEcc kBox kSys kWr
    | with_reducible apply State.failFrames_keeps kErr kQue kHdg kPut kCop kMap kTop kEcc kSys kWr
    | with_reducible apply State.loseRead_keeps kErr kQue kHdg kPut kCop kTop kMcs kChan kEcc kBox kSys kWr
    | with_reducible apply State.onOp_keeps kTop
    | dsimp only
    | split
    | intro _

theorem State.fifoRecord_keeps {P : State → Prop} (kErr : KErr P) (kWr : KWr P) (s : State) (kind inst : Nat) (lost : Bool) (hP : P s) :
 P (State.fifoRecord s kind inst lost) := by
  unfold State.fifoRecord
  repeat' first
    | with_reducible assumption
    | exact rfl
    | exact fun _ => ⟨rfl, rfl, rfl⟩
    | with_reducible apply State.err1_keeps kErr kWr
    | dsimp only
    | split
    | intro _

theorem State.lunqReset_keeps {P : State → Prop} (kErr : KErr P) (kQue : KQue P) (kHdg : KHdg P) (kPut : KPut P) (kCop : KCop P) (kMap : KMap P) (kTop : KTop P) (kMcs : KMcs P) (kChan : KChan P) (kEcc : KEcc P) (kJnp : KJnp P) (kBox : KBox P) (kYew : KYew P) (kHly : KHly P) (kSys : KSys P) (kWr : KWr P) (kDrawn : KDrawn P) (kDeliv : KDeliv P) (s : State) (lun : Nat) (hP : P s) :
 P (State.lunqReset s lun) := by
  unfold State.lunqReset
  repeat' first
    | with_reducible assumption
    | exact rfl
    | exact fun _ => ⟨rfl, rfl, rfl⟩
    | with_reducible apply State.settle_keeps kErr kQue kHdg kPut kCop kMap kTop kMcs kChan kEcc kJnp kBox kYew kHly kSys kWr kDrawn kDeliv
    | with_reducible apply State.kick_keeps kErr kTop kMcs kChan kEcc kBox kWr
    | with_reducible apply each_keeps
    | with_reducible apply State.loseOp_keeps kErr kQue kHdg kPut kCop kMap kTop kMcs kChan kEcc kBox kSys kWr
    | with_reducible apply State.fifoRecord_keeps kErr kWr
    | dsimp only
    | split
    | intro _

theorem State.eventReset_keeps {P : State → Prop} (kErr : KErr P) (kQue : KQue P) (kHdg : KHdg P) (kPut : KPut P) (kCop : KCop P) (kMap : KMap P) (kTop : KTop P) (kMcs : KMcs P) (kChan : KChan P) (kEcc : KEcc P) (kJnp : KJnp P) (kBox : KBox P) (kYew : KYew P) (kHly : KHly P) (kSys : KSys P) (kWr : KWr P) (kDrawn : KDrawn P) (kDeliv : KDeliv P) (s : State) (n : Nat) (hP : P s) :
 P (State.eventReset s n) := by
  unfold State.eventReset
  repeat' first
    | with_reducible assumption
    | exact rfl
    | exact fun _ => ⟨rfl, rfl, rfl⟩
    | with_reducible apply State.evLevelHit_keeps kWr
    | with_reducible apply State.fifoRecord_keeps kErr kWr
    | with_reducible apply kTop
    | with_reducible apply each_keeps
    | with_reducible apply State.kick_keeps kErr kTop kMcs kChan kEcc kBox kWr
    | with_reducible apply kChan
    | with_reducible apply State.settle_keeps kErr kQue kHdg kPut kCop kMap kTop kMcs kChan kEcc kJnp kBox kYew kHly kSys kWr kDrawn kDeliv
    | with_reducible apply State.loseOp_keeps kErr kQue kHdg kPut kCop kMap kTop kMcs kChan kEcc kBox kSys kWr
    | dsimp only
    | split
    | intro _

theorem State.csfReset_keeps {P : State → Prop} (kErr : KErr P) (kQue : KQue P) (kWr : KWr P) (s : State) (hP : P s) :
 P (State.csfReset s) := by
  unfold State.csfReset
  exact State.fifoRecord_keeps kErr kWr _ _ _ _ (KQue.fewer kQue (Nat.zero_le _) hP)

theorem State.dmaqReset_keeps {P : State → Prop} (kErr : KErr P) (kQue : KQue P) (kDma : KDma P) (kSys : KSys P) (kWr : KWr P) (s : State) (n : Nat) (hP : P s) :
 P (State.dmaqReset s n) := by
  unfold State.dmaqReset
  repeat' first
    | with_reducible assumption
    | exact rfl
    | exact fun _ => ⟨rfl, rfl, rfl⟩
    | exact fun _ => rfl
    | with_reducible apply onDmaCh_same kDma
    | exact fun _ => Nat.zero_le _
    | exact fun _ => List.length_filter_le _ _
    | exact Nat.le_refl _
    | exact Nat.zero_le _
    | exact List.length_filter_le _ _
    | with_reducible apply State.dmaRetry_keeps kQue kDma kWr
    | with_reducible apply each_keeps
    | with_reducible apply State.fifoRecord_keeps kErr kWr
    | with_reducible apply State.finish_keeps kQue kSys kWr
    | dsimp only
    | split
    | intro _

theorem State.inboxReset_keeps {P : State → Prop} (kErr : KErr P) (kQue : KQue P) (kSys : KSys P) (kWr : KWr P) (s : State) (hP : P s) :
 P (State.inboxReset s) := by
  unfold State.inboxReset
  repeat' first
    | with_reducible assumption
    | exact rfl
    | exact fun _ => ⟨rfl, rfl, rfl⟩
    | exact fun _ => rfl
    | with_reducible apply each_keeps
    | with_reducible apply State.fifoRecord_keeps kErr kWr
    | with_reducible apply KQue.same kQue
    | with_reducible apply State.finish_keeps kQue kSys kWr
    | dsimp only
    | split
    | intro _

theorem State.fifoReset_keeps {P : State → Prop} (kErr : KErr P) (kQue : KQue P) (kHdg : KHdg P) (kPut : KPut P) (kCop : KCop P) (kMap : KMap P) (kTop : KTop P) (kMcs : KMcs P) (kChan : KChan P) (kEcc : KEcc P) (kJnp : KJnp P) (kDma : KDma P) (kBox : KBox P) (kYew : KYew P) (kHly : KHly P) (kSys : KSys P) (kWr : KWr P) (kDrawn : KDrawn P) (kDeliv : KDeliv P) (s : State) (kind : FifoKind) (n : Nat) (hP : P s) :
 P (State.fifoReset s kind n) := by
  unfold State.fifoReset
  repeat' first
    | with_reducible assumption
    | exact rfl
    | exact fun _ => ⟨rfl, rfl, rfl⟩
    | with_reducible apply State.eventReset_keeps kErr kQue kHdg kPut kCop kMap kTop kMcs kChan kEcc kJnp kBox kYew kHly kSys kWr kDrawn kDeliv
    | with_reducible apply State.csfReset_keeps kErr kQue kWr
    | with_reducible apply State.dmaqReset_keeps kErr kQue kDma kSys kWr
    | with_reducible apply State.inboxReset_keeps kErr kQue kSys kWr
    | with_reducible apply State.lunqReset_keeps kErr kQue kHdg kPut kCop kMap kTop kMcs kChan kEcc kJnp kBox kYew kHly kSys kWr kDrawn kDeliv
    | dsimp only
    | split
    | intro _

theorem execCompletionRequestGrant_keeps {P : State → Prop} (kQue : KQue P) (kDma : KDma P) (kWr : KWr P) (s : State) (hP : P s) :
    Out.All P (execCompletionRequestGrant s) := by
  unfold execCompletionRequestGrant
  apply Out.all_next
  split
  · split
    · exact State.grantRec_keeps kQue kDma kWr _ _ hP ‹_›
    · exact hP
  · exact hP

theorem execCompletionRecordWrite_keeps {P : State → Prop} (kErr : KErr P) (kQue : KQue P) (kHdg : KHdg P) (kPut : KPut P) (kLost : KLost P) (kCop : KCop P) (kMap : KMap P) (kTop : KTop P) (kMcs : KMcs P) (kChan : KChan P) (kEcc : KEcc P) (kJnp : KJnp P) (kBox : KBox P) (kHly : KHly P) (kPwr : KPwr P) (kSys : KSys P) (kWr : KWr P) (kDram : KDram P) (s : State) (hP : P s) :
    Out.All P (execCompletionRecordWrite s) := by
  unfold execCompletionRecordWrite
  repeat' first
    | with_reducible apply Out.all_next
    | exact trivial
    | with_reducible assumption
    | exact rfl
    | exact fun _ => ⟨rfl, rfl, rfl⟩
    | with_reducible apply State.writeRec_keeps kErr kQue kHdg kPut kLost kCop kMap kTop kMcs kChan kEcc kJnp kBox kHly kPwr kSys kWr kDram
    | dsimp only
    | split
    | intro _

theorem execFifoPointerMismatch_keeps {P : State → Prop} (kErr : KErr P) (kQue : KQue P) (kHdg : KHdg P) (kPut : KPut P) (kCop : KCop P) (kMap : KMap P) (kTop : KTop P) (kMcs : KMcs P) (kChan : KChan P) (kEcc : KEcc P) (kJnp : KJnp P) (kDma : KDma P) (kBox : KBox P) (kYew : KYew P) (kHly : KHly P) (kSys : KSys P) (kWr : KWr P) (kDrawn : KDrawn P) (kDeliv : KDeliv P) (kind : FifoKind) (inst : Nat) (s : State) (hP : P s) :
    Out.All P (execFifoPointerMismatch kind inst s) := by
  unfold execFifoPointerMismatch
  repeat' first
    | with_reducible apply Out.all_next
    | exact trivial
    | with_reducible assumption
    | exact rfl
    | exact fun _ => ⟨rfl, rfl, rfl⟩
    | with_reducible apply State.fifoReset_keeps kErr kQue kHdg kPut kCop kMap kTop kMcs kChan kEcc kJnp kDma kBox kYew kHly kSys kWr kDrawn kDeliv
    | dsimp only
    | split
    | intro _

end Sys2Proof.Machine
end

