-- ==== Sys2Proof/Laws/KeepsErrRows.lean ====
section
/-!
SUPPORT. What the operations of Machine/ErrRows.lean can do: each one keeps every property of a state that its own primitive
updates keep. The hypotheses of a lemma name every unit the operation can reach.
-/
namespace Sys2Proof.Machine

theorem State.errPut_keeps {P : State → Prop} (kErr : KErr P) (kWr : KWr P) (s : State) (k : Nat) (r : ErrRec) (hP : P s) :
 P (State.errPut s k r) := by
  unfold State.errPut
  repeat' first
    | with_reducible assumption
    | exact rfl
    | exact fun _ => ⟨rfl, rfl, rfl⟩
    | exact fun _ => rfl
    | with_reducible apply KErr.same kErr
    | with_reducible apply kWr
    | dsimp only
    | split
    | intro _

theorem State.errTake_keeps {P : State → Prop} (kErr : KErr P) (kWr : KWr P) (s : State) (r : ErrRec) (hP : P s) :
 P (State.errTake s r) := by
  unfold State.errTake
  repeat' first
    | with_reducible assumption
    | exact rfl
    | exact fun _ => ⟨rfl, rfl, rfl⟩
    | with_reducible apply State.errLost_keeps kWr
    | with_reducible apply State.errPut_keeps kErr kWr
    | with_reducible apply State.wrBit_keeps kWr
    | with_reducible apply kWr
    | dsimp only
    | split
    | intro _

theorem State.errCtl_keeps {P : State → Prop} (kWr : KWr P) (s : State) (v : Nat) (hP : P s) :
 P (State.errCtl s v) := by
  unfold State.errCtl
  repeat' first
    | with_reducible assumption
    | exact rfl
    | exact fun _ => ⟨rfl, rfl, rfl⟩
    | with_reducible apply kWr
    | dsimp only
    | split
    | intro _

theorem State.errHead_keeps {P : State → Prop} (kWr : KWr P) (s : State) (v : Nat) (hP : P s) :
 P (State.errHead s v) := by
  unfold State.errHead
  repeat' first
    | with_reducible assumption
    | exact rfl
    | exact fun _ => ⟨rfl, rfl, rfl⟩
    | with_reducible apply kWr
    | dsimp only
    | split
    | intro _

theorem State.timeLo_keeps {P : State → Prop} (kWr : KWr P) (kResp : KResp P) (s : State) (hP : P s) :
 P (State.timeLo s) := by
  unfold State.timeLo
  repeat' first
    | with_reducible assumption
    | exact rfl
    | exact fun _ => ⟨rfl, rfl, rfl⟩
    | with_reducible apply kWr
    | with_reducible apply kResp
    | dsimp only
    | split
    | intro _

theorem State.dbgOpen_keeps {P : State → Prop} (kWr : KWr P) (s : State) (f : State → State) (hP : P s) (hF : ∀ s, P s → P (f s)) :
 P (State.dbgOpen s f) := by
  unfold State.dbgOpen
  repeat' first
    | with_reducible assumption
    | exact rfl
    | exact fun _ => ⟨rfl, rfl, rfl⟩
    | with_reducible apply State.setb_keeps kWr
    | with_reducible apply hF
    | dsimp only
    | split
    | intro _

theorem State.dbgInjAddr_keeps {P : State → Prop} (kWr : KWr P) (s : State) (v : Nat) (hP : P s) :
 P (State.dbgInjAddr s v) := by
  unfold State.dbgInjAddr
  repeat' first
    | with_reducible assumption
    | exact rfl
    | exact fun _ => ⟨rfl, rfl, rfl⟩
    | with_reducible apply State.dbgOpen_keeps kWr
    | with_reducible apply kWr
    | dsimp only
    | split
    | intro _

theorem State.dbgInjCtl_keeps {P : State → Prop} (kWr : KWr P) (s : State) (v : Nat) (hP : P s) :
 P (State.dbgInjCtl s v) := by
  unfold State.dbgInjCtl
  repeat' first
    | with_reducible assumption
    | exact rfl
    | exact fun _ => ⟨rfl, rfl, rfl⟩
    | with_reducible apply State.dbgOpen_keeps kWr
    | with_reducible apply when_keeps
    | with_reducible apply kWr
    | dsimp only
    | split
    | intro _

theorem State.dbgForce_keeps {P : State → Prop} (kWr : KWr P) (s : State) (v : Nat) (hP : P s) :
 P (State.dbgForce s v) := by
  unfold State.dbgForce
  repeat' first
    | with_reducible assumption
    | exact rfl
    | exact fun _ => ⟨rfl, rfl, rfl⟩
    | with_reducible apply State.dbgOpen_keeps kWr
    | with_reducible apply kWr
    | dsimp only
    | split
    | intro _

theorem State.portAccess_keeps {P : State → Prop} (kResp : KResp P) (s : State) (f : State → State) (hP : P s) (hF : ∀ s, P s → P (f s)) :
 P (State.portAccess s f) := by
  unfold State.portAccess
  split
  · exact kResp _ _ hP
  · exact hF _ (kResp _ _ hP)
  · exact kResp _ _ hP

theorem State.portPiece_keeps {P : State → Prop} (kErr : KErr P) (kHdg : KHdg P) (kPut : KPut P) (kCop : KCop P) (kWr : KWr P) (s : State) (a : Nat) (d : List Byte) (hP : P s) :
 P (State.portPiece s a d) := by
  unfold State.portPiece
  repeat' first
    | with_reducible assumption
    | exact rfl
    | exact fun _ => ⟨rfl, rfl, rfl⟩
    | with_reducible apply State.onBuf_keeps kCop
    | with_reducible apply State.hWrite_keeps kErr kHdg kPut kWr
    | dsimp only
    | split
    | intro _

theorem State.portWrite_keeps {P : State → Prop} (kErr : KErr P) (kHdg : KHdg P) (kPut : KPut P) (kCop : KCop P) (kWr : KWr P) (kResp : KResp P) (s : State) (a : Nat) (d : List Byte) (hP : P s) :
 P (State.portWrite s a d) := by
  unfold State.portWrite
  dsimp only
  split
  · exact kResp _ _ hP
  · split
    · exact kResp _ _ (State.hWrite_keeps kErr kHdg kPut kWr _ _ _ hP)
    · exact each_keeps _ _ _ (fun s p _ h => State.portPiece_keeps kErr kHdg kPut kCop kWr _ _ _ h) hP

theorem State.portRead_keeps {P : State → Prop} (kErr : KErr P) (kWr : KWr P) (kResp : KResp P) (kDrawn : KDrawn P) (s : State) (a n : Nat) (hP : P s) :
 P (State.portRead s a n) := by
  unfold State.portRead
  split
  · exact kResp _ _ hP
  · have h := State.hRead_keeps kErr kWr kDrawn s (([a, a + n - 1].find? fun x => s.hRefused x).getD a) n hP
    dsimp only
    split
    · exact kResp _ _ (State.err1_keeps kErr kWr _ _ _ _ _ _ _ h)
    · split
      · exact kResp _ _ h
      · exact kResp _ _ h

theorem execErrorRecordAccept_keeps {P : State → Prop} (kErr : KErr P) (kWr : KWr P) (s : State) (hP : P s) :
    Out.All P (execErrorRecordAccept s) := by
  unfold execErrorRecordAccept
  apply Out.all_next
  split
  · exact hP
  · split
    · exact State.errTake_keeps kErr kWr _ _ (kErr _ _ (.inl List.erase_sublist) hP)
    · exact hP

theorem execErrClear_keeps {P : State → Prop} (kPwr : KPwr P) (kWr : KWr P) (kResp : KResp P) (m : Master) (v : W32) (s : State) (hP : P s) :
    Out.All P (execErrClear m v s) := by
  unfold execErrClear
  repeat' first
    | with_reducible apply Out.all_next
    | exact trivial
    | with_reducible assumption
    | exact rfl
    | exact fun _ => ⟨rfl, rfl, rfl⟩
    | with_reducible apply State.errCtl_keeps kWr
    | with_reducible apply State.access_keeps kPwr kResp
    | dsimp only
    | split
    | intro _

theorem execErrHeadWrite_keeps {P : State → Prop} (kPwr : KPwr P) (kWr : KWr P) (kResp : KResp P) (m : Master) (v : W32) (s : State) (hP : P s) :
    Out.All P (execErrHeadWrite m v s) := by
  unfold execErrHeadWrite
  repeat' first
    | with_reducible apply Out.all_next
    | exact trivial
    | with_reducible assumption
    | exact rfl
    | exact fun _ => ⟨rfl, rfl, rfl⟩
    | with_reducible apply State.errHead_keeps kWr
    | with_reducible apply State.access_keeps kPwr kResp
    | dsimp only
    | split
    | intro _

theorem execGlbTimeLoRead_keeps {P : State → Prop} (kPwr : KPwr P) (kWr : KWr P) (kResp : KResp P) (m : Master) (s : State) (hP : P s) :
    Out.All P (execGlbTimeLoRead m s) := by
  unfold execGlbTimeLoRead
  repeat' first
    | with_reducible apply Out.all_next
    | exact trivial
    | with_reducible assumption
    | exact rfl
    | exact fun _ => ⟨rfl, rfl, rfl⟩
    | with_reducible apply State.timeLo_keeps kWr kResp
    | with_reducible apply State.access_keeps kPwr kResp
    | dsimp only
    | split
    | intro _

theorem execDbgLock_keeps {P : State → Prop} (kPwr : KPwr P) (kResp : KResp P) (kDbgL : KDbgL P) (m : Master) (v : W32) (s : State) (hP : P s) :
    Out.All P (execDbgLock m v s) := by
  unfold execDbgLock
  repeat' first
    | with_reducible apply Out.all_next
    | exact trivial
    | with_reducible assumption
    | exact rfl
    | exact fun _ => ⟨rfl, rfl, rfl⟩
    | with_reducible apply kDbgL
    | with_reducible apply State.access_keeps kPwr kResp
    | dsimp only
    | split
    | intro _

theorem execDbgInjArm_keeps {P : State → Prop} (kPwr : KPwr P) (kWr : KWr P) (kResp : KResp P) (m : Master) (v : W32) (s : State) (hP : P s) :
    Out.All P (execDbgInjArm m v s) := by
  unfold execDbgInjArm
  repeat' first
    | with_reducible apply Out.all_next
    | exact trivial
    | with_reducible assumption
    | exact rfl
    | exact fun _ => ⟨rfl, rfl, rfl⟩
    | with_reducible apply State.dbgInjCtl_keeps kWr
    | with_reducible apply State.access_keeps kPwr kResp
    | dsimp only
    | split
    | intro _

theorem execDbgForceWrite_keeps {P : State → Prop} (kPwr : KPwr P) (kWr : KWr P) (kResp : KResp P) (m : Master) (v : W32) (s : State) (hP : P s) :
    Out.All P (execDbgForceWrite m v s) := by
  unfold execDbgForceWrite
  repeat' first
    | with_reducible apply Out.all_next
    | exact trivial
    | with_reducible assumption
    | exact rfl
    | exact fun _ => ⟨rfl, rfl, rfl⟩
    | with_reducible apply State.dbgForce_keeps kWr
    | with_reducible apply State.access_keeps kPwr kResp
    | dsimp only
    | split
    | intro _

theorem execPortBufferWrite_keeps {P : State → Prop} (kErr : KErr P) (kHdg : KHdg P) (kPut : KPut P) (kCop : KCop P) (kWr : KWr P) (kResp : KResp P) (_port : Fin 4) (addr : Nat) (data : List Byte) (s : State) (hP : P s) :
    Out.All P (execPortBufferWrite _port addr data s) := by
  unfold execPortBufferWrite
  repeat' first
    | with_reducible apply Out.all_next
    | exact trivial
    | with_reducible assumption
    | exact rfl
    | exact fun _ => ⟨rfl, rfl, rfl⟩
    | with_reducible apply State.portAccess_keeps kResp
    | with_reducible apply State.portWrite_keeps kErr kHdg kPut kCop kWr kResp
    | dsimp only
    | split
    | intro _

theorem execPortStoreRead_keeps {P : State → Prop} (kErr : KErr P) (kWr : KWr P) (kResp : KResp P) (kDrawn : KDrawn P) (_port : Fin 4) (addr len : Nat) (s : State) (hP : P s) :
    Out.All P (execPortStoreRead _port addr len s) := by
  unfold execPortStoreRead
  repeat' first
    | with_reducible apply Out.all_next
    | exact trivial
    | with_reducible assumption
    | exact rfl
    | exact fun _ => ⟨rfl, rfl, rfl⟩
    | with_reducible apply State.portAccess_keeps kResp
    | with_reducible apply State.portRead_keeps kErr kWr kResp kDrawn
    | dsimp only
    | split
    | intro _

end Sys2Proof.Machine
end

