-- ==== Sys2Proof/Laws/KeepsGrant.lean ====
section
/-!
SUPPORT. What the operations of Machine/Grant.lean can do: each one keeps every property of a state that its own primitive
updates keep. The hypotheses of a lemma name every unit the operation can reach.
-/
namespace Sys2Proof.Machine

theorem State.grantLow_keeps {P : State → Prop} (kQue : KQue P) (kTop : KTop P) (kHly : KHly P) (kSys : KSys P) (kWr : KWr P) (s : State) (l : Lease) (n : Nat) (hP : P s) :
 P (State.grantLow s l n) := by
  unfold State.grantLow
  repeat' first
    | with_reducible assumption
    | exact rfl
    | exact fun _ => ⟨rfl, rfl, rfl⟩
    | with_reducible apply State.finishSlow_keeps kQue kHly kSys kWr
    | with_reducible apply State.dropLease_keeps kTop kWr
    | dsimp only
    | split
    | intro _

theorem State.loopBegin_keeps {P : State → Prop} (kErr : KErr P) (kQue : KQue P) (kTop : KTop P) (kMcs : KMcs P) (kChan : KChan P) (kEcc : KEcc P) (kBox : KBox P) (kHly : KHly P) (kSys : KSys P) (kWr : KWr P) (s : State) (l : Lease) (n : Nat) (hP : P s) :
 P (State.loopBegin s l n) := by
  unfold State.loopBegin
  repeat' first
    | with_reducible assumption
    | exact rfl
    | exact fun _ => ⟨rfl, rfl, rfl⟩
    | with_reducible apply State.startJobs_keeps kErr kTop kMcs kChan kEcc kBox kWr
    | with_reducible apply kChan
    | with_reducible apply State.grantLow_keeps kQue kTop kHly kSys kWr
    | dsimp only
    | split
    | intro _

theorem State.calibBegin_keeps {P : State → Prop} (kQue : KQue P) (kTop : KTop P) (kJnp : KJnp P) (kHly : KHly P) (kSys : KSys P) (kWr : KWr P) (kDrawn : KDrawn P) (s : State) (l : Lease) (n lun : Nat) (hP : P s) :
 P (State.calibBegin s l n lun) := by
  unfold State.calibBegin
  repeat' first
    | with_reducible assumption
    | exact rfl
    | exact fun _ => ⟨rfl, rfl, rfl⟩
    | with_reducible apply State.dropLease_keeps kTop kWr
    | with_reducible apply kJnp
    | with_reducible apply State.grantLow_keeps kQue kTop kHly kSys kWr
    | with_reducible apply State.draw_keeps kDrawn
    | with_reducible refine State.draw_keeps' kDrawn ‹_ = (_, _)› ?_
    | dsimp only
    | split
    | intro _

theorem State.patrolBegin_keeps {P : State → Prop} (kQue : KQue P) (kTop : KTop P) (kJnp : KJnp P) (kHly : KHly P) (kSys : KSys P) (kWr : KWr P) (kDrawn : KDrawn P) (s : State) (l : Lease) (lun : Nat) (hP : P s) :
 P (State.patrolBegin s l lun) := by
  unfold State.patrolBegin
  repeat' first
    | with_reducible assumption
    | exact rfl
    | exact fun _ => ⟨rfl, rfl, rfl⟩
    | with_reducible apply State.dropLease_keeps kTop kWr
    | with_reducible apply kJnp
    | with_reducible apply State.grantLow_keeps kQue kTop kHly kSys kWr
    | with_reducible apply State.draw_keeps kDrawn
    | with_reducible refine State.draw_keeps' kDrawn ‹_ = (_, _)› ?_
    | dsimp only
    | split
    | intro _

theorem State.selftestBegin_keeps {P : State → Prop} (kQue : KQue P) (kHdg : KHdg P) (kTop : KTop P) (kHly : KHly P) (kSys : KSys P) (kWr : KWr P) (s : State) (l : Lease) (k : Nat) (hP : P s) :
 P (State.selftestBegin s l k) := by
  unfold State.selftestBegin
  repeat' first
    | with_reducible assumption
    | exact rfl
    | exact fun _ => ⟨rfl, rfl, rfl⟩
    | with_reducible apply State.dropLease_keeps kTop kWr
    | with_reducible apply kHdg
    | with_reducible apply State.finishSlow_keeps kQue kHly kSys kWr
    | dsimp only
    | split
    | intro _

theorem State.actBegin_keeps {P : State → Prop} (kErr : KErr P) (kQue : KQue P) (kHdg : KHdg P) (kPut : KPut P) (kCop : KCop P) (kMap : KMap P) (kTop : KTop P) (kMcs : KMcs P) (kChan : KChan P) (kEcc : KEcc P) (kJnp : KJnp P) (kBox : KBox P) (kYew : KYew P) (kHly : KHly P) (kSys : KSys P) (kWr : KWr P) (kDrawn : KDrawn P) (kDeliv : KDeliv P) (s : State) (l : Lease) (hP : P s) :
 P (State.actBegin s l) := by
  unfold State.actBegin
  repeat' first
    | with_reducible assumption
    | exact rfl
    | exact fun _ => ⟨rfl, rfl, rfl⟩
    | with_reducible apply State.calibBegin_keeps kQue kTop kJnp kHly kSys kWr kDrawn
    | with_reducible apply State.selftestBegin_keeps kQue kHdg kTop kHly kSys kWr
    | with_reducible apply State.loopBegin_keeps kErr kQue kTop kMcs kChan kEcc kBox kHly kSys kWr
    | with_reducible apply State.zqBegin_keeps kErr kQue kTop kMcs kChan kEcc kBox kHly kSys kWr
    | with_reducible apply State.settle_keeps kErr kQue kHdg kPut kCop kMap kTop kMcs kChan kEcc kJnp kBox kYew kHly kSys kWr kDrawn kDeliv
    | with_reducible apply State.trainBegin_keeps kErr kQue kTop kChan kHly kSys kWr kDrawn
    | with_reducible apply State.onCmd_keeps kQue
    | with_reducible apply kHdg
    | with_reducible apply State.rgnStart_keeps kHdg kTop kWr
    | with_reducible apply State.patrolBegin_keeps kQue kTop kJnp kHly kSys kWr kDrawn
    | with_reducible apply kWr
    | dsimp only
    | split
    | intro _

theorem State.deferPassed_keeps {P : State → Prop} (kQue : KQue P) (kTop : KTop P) (kHly : KHly P) (kSys : KSys P) (kWr : KWr P) (s : State) (l : Lease) (hP : P s) :
 P (State.deferPassed s l) := by
  unfold State.deferPassed
  repeat' first
    | with_reducible assumption
    | exact rfl
    | exact fun _ => ⟨rfl, rfl, rfl⟩
    | with_reducible apply each_keeps
    | with_reducible apply kTop
    | with_reducible apply State.maintDefer_keeps kQue kHly kSys kWr
    | with_reducible apply State.bump_keeps kWr
    | dsimp only
    | split
    | intro _

theorem State.grantLease_keeps {P : State → Prop} (kErr : KErr P) (kQue : KQue P) (kHdg : KHdg P) (kPut : KPut P) (kCop : KCop P) (kMap : KMap P) (kTop : KTop P) (kMcs : KMcs P) (kChan : KChan P) (kEcc : KEcc P) (kJnp : KJnp P) (kBox : KBox P) (kYew : KYew P) (kHly : KHly P) (kSys : KSys P) (kWr : KWr P) (kDrawn : KDrawn P) (kDeliv : KDeliv P) (s : State) (hP : P s) :
 P (State.grantLease s) := by
  unfold State.grantLease
  repeat' first
    | with_reducible assumption
    | exact rfl
    | exact fun _ => ⟨rfl, rfl, rfl⟩
    | with_reducible apply State.actBegin_keeps kErr kQue kHdg kPut kCop kMap kTop kMcs kChan kEcc kJnp kBox kYew kHly kSys kWr kDrawn kDeliv
    | with_reducible apply State.takeLease_keeps kTop kWr
    | with_reducible apply State.wantCalibs_keeps kTop
    | with_reducible apply State.deferPassed_keeps kQue kTop kHly kSys kWr
    | dsimp only
    | split
    | intro _

theorem State.policyAsk_keeps {P : State → Prop} (kTop : KTop P) (kJnp : KJnp P) (s : State) (a : PolicyAsk) (hP : P s) :
 P (State.policyAsk s a) := by
  unfold State.policyAsk
  repeat' first
    | with_reducible assumption
    | exact rfl
    | exact fun _ => ⟨rfl, rfl, rfl⟩
    | with_reducible apply State.wantLease_keeps kTop
    | with_reducible apply kJnp
    | dsimp only
    | split
    | intro _

theorem execLeaseGrant_keeps {P : State → Prop} (kErr : KErr P) (kQue : KQue P) (kHdg : KHdg P) (kPut : KPut P) (kCop : KCop P) (kMap : KMap P) (kTop : KTop P) (kMcs : KMcs P) (kChan : KChan P) (kEcc : KEcc P) (kJnp : KJnp P) (kBox : KBox P) (kYew : KYew P) (kHly : KHly P) (kSys : KSys P) (kWr : KWr P) (kDrawn : KDrawn P) (kDeliv : KDeliv P) (asked : List PolicyAsk) (s : State) (hP : P s) :
    Out.All P (execLeaseGrant asked s) := by
  unfold execLeaseGrant
  repeat' first
    | with_reducible apply Out.all_next
    | exact trivial
    | with_reducible assumption
    | exact rfl
    | exact fun _ => ⟨rfl, rfl, rfl⟩
    | with_reducible apply State.settle_keeps kErr kQue kHdg kPut kCop kMap kTop kMcs kChan kEcc kJnp kBox kYew kHly kSys kWr kDrawn kDeliv
    | with_reducible apply State.grantLease_keeps kErr kQue kHdg kPut kCop kMap kTop kMcs kChan kEcc kJnp kBox kYew kHly kSys kWr kDrawn kDeliv
    | with_reducible apply each_keeps
    | with_reducible apply State.policyAsk_keeps kTop kJnp
    | dsimp only
    | split
    | intro _

end Sys2Proof.Machine
end

