-- ==== Sys2Proof/Laws/KeepsPackets.lean ====
section
/-!
SUPPORT. What the operations of Machine/Packets.lean can do: each one keeps every property of a state that its own primitive
updates keep. The hypotheses of a lemma name every unit the operation can reach.
-/
namespace Sys2Proof.Machine

theorem State.begin_keeps {P : State → Prop} (kQue : KQue P) (s : State) (tag : Nat) (fs : List Frame) (hP : P s) :
 P (State.begin s tag fs) := by
  unfold State.begin
  repeat' first
    | with_reducible assumption
    | exact rfl
    | exact fun _ => ⟨rfl, rfl, rfl⟩
    | with_reducible apply State.onCmd_keeps kQue
    | dsimp only
    | split
    | intro _

theorem State.checkedHandles_keeps {P : State → Prop} (kErr : KErr P) (kWr : KWr P) (kDrawn : KDrawn P) (s : State) (c : Cmd) (hP : P s) :
 P (State.checkedHandles s c).2.2 := by
  unfold State.checkedHandles
  repeat' first
    | with_reducible assumption
    | exact rfl
    | exact fun _ => ⟨rfl, rfl, rfl⟩
    | with_reducible apply State.handleList_keeps kErr kWr kDrawn
    | with_reducible refine State.handleList_keeps' kErr kWr kDrawn ‹_ = (_, _, _)› ?_
    | dsimp only
    | split
    | intro _

theorem State.checkedHandles_keeps' {P : State → Prop} (kErr : KErr P) (kWr : KWr P) (kDrawn : KDrawn P) {s : State} {c : Cmd} {x0 : Option (Nat × Nat)} {x1 : List Nat} {t : State}
    (hE : State.checkedHandles s c = (x0, x1, t)) (hP : P s)  : P t := by
  have h := State.checkedHandles_keeps kErr kWr kDrawn s c hP
  rw [hE] at h
  exact h

theorem State.doRead_keeps {P : State → Prop} (kErr : KErr P) (kQue : KQue P) (kHdg : KHdg P) (kPut : KPut P) (kCop : KCop P) (kMap : KMap P) (kTop : KTop P) (kMcs : KMcs P) (kChan : KChan P) (kEcc : KEcc P) (kJnp : KJnp P) (kBox : KBox P) (kYew : KYew P) (kHly : KHly P) (kSys : KSys P) (kWr : KWr P) (kDrawn : KDrawn P) (kDeliv : KDeliv P) (s : State) (c : Cmd) (hP : P s) :
 P (State.doRead s c) := by
  unfold State.doRead
  repeat' first
    | with_reducible assumption
    | exact rfl
    | exact fun _ => ⟨rfl, rfl, rfl⟩
    | with_reducible apply each_keeps
    | with_reducible apply State.begin_keeps kQue
    | with_reducible apply State.settle_keeps kErr kQue kHdg kPut kCop kMap kTop kMcs kChan kEcc kJnp kBox kYew kHly kSys kWr kDrawn kDeliv
    | with_reducible apply State.onCmd_keeps kQue
    | with_reducible apply State.startFrame_keeps kErr kQue kCop kMap kTop kEcc kBox kHly kWr kDrawn
    | with_reducible apply State.finish_keeps kQue kSys kWr
    | with_reducible apply State.checkedHandles_keeps kErr kWr kDrawn
    | with_reducible refine State.checkedHandles_keeps' kErr kWr kDrawn ‹_ = (_, _, _)› ?_
    | dsimp only
    | split
    | intro _

theorem State.doReadRaw_keeps {P : State → Prop} (kErr : KErr P) (kQue : KQue P) (kHdg : KHdg P) (kPut : KPut P) (kCop : KCop P) (kMap : KMap P) (kTop : KTop P) (kMcs : KMcs P) (kChan : KChan P) (kEcc : KEcc P) (kJnp : KJnp P) (kBox : KBox P) (kYew : KYew P) (kHly : KHly P) (kSys : KSys P) (kWr : KWr P) (kDrawn : KDrawn P) (kDeliv : KDeliv P) (s : State) (c : Cmd) (hP : P s) :
 P (State.doReadRaw s c) := by
  unfold State.doReadRaw
  repeat' first
    | with_reducible assumption
    | exact rfl
    | exact fun _ => ⟨rfl, rfl, rfl⟩
    | with_reducible apply State.settle_keeps kErr kQue kHdg kPut kCop kMap kTop kMcs kChan kEcc kJnp kBox kYew kHly kSys kWr kDrawn kDeliv
    | with_reducible apply State.begin_keeps kQue
    | with_reducible apply each_keeps
    | with_reducible apply State.startFrame_keeps kErr kQue kCop kMap kTop kEcc kBox kHly kWr kDrawn
    | dsimp only
    | split
    | intro _

theorem State.programPfa_keeps {P : State → Prop} (kErr : KErr P) (kQue : KQue P) (kHdg : KHdg P) (kPut : KPut P) (kCop : KCop P) (kTop : KTop P) (kBox : KBox P) (kSys : KSys P) (kWr : KWr P) (s : State) (c : Cmd) (hs : List Nat) (hP : P s) :
 P (State.programPfa s c hs) := by
  unfold State.programPfa
  repeat' first
    | with_reducible assumption
    | exact rfl
    | exact fun _ => ⟨rfl, rfl, rfl⟩
    | with_reducible apply State.takeOver_keeps kCop
    | with_reducible apply State.begin_keeps kQue
    | with_reducible apply each_keeps
    | with_reducible apply State.placePfa_keeps kErr kQue kHdg kPut kCop kTop kBox kSys kWr
    | dsimp only
    | split
    | intro _

theorem State.programLfa_keeps {P : State → Prop} (kQue : KQue P) (kCop : KCop P) (kMap : KMap P) (kTop : KTop P) (kBox : KBox P) (kSys : KSys P) (kWr : KWr P) (s : State) (c : Cmd) (hs : List Nat) (slots : List Slot) (hP : P s) :
 P (State.programLfa s c hs slots) := by
  unfold State.programLfa
  repeat' first
    | with_reducible assumption
    | exact rfl
    | exact fun _ => ⟨rfl, rfl, rfl⟩
    | exact fun _ => rfl
    | with_reducible apply each_keeps
    | with_reducible apply KQue.same kQue
    | with_reducible apply State.begin_keeps kQue
    | with_reducible apply State.takeOver_keeps kCop
    | with_reducible apply State.onCmd_keeps kQue
    | with_reducible apply State.padUnits_keeps kTop kWr
    | with_reducible apply when_keeps
    | with_reducible apply State.rangeGone_keeps kQue
    | with_reducible apply State.energy_keeps kQue kBox kWr
    | with_reducible apply State.acceptFrame_keeps kQue kCop kMap kTop kBox kSys kWr
    | with_reducible apply State.finish_keeps kQue kSys kWr
    | dsimp only
    | split
    | intro _

theorem State.doProgram_keeps {P : State → Prop} (kErr : KErr P) (kQue : KQue P) (kHdg : KHdg P) (kPut : KPut P) (kCop : KCop P) (kMap : KMap P) (kTop : KTop P) (kMcs : KMcs P) (kChan : KChan P) (kEcc : KEcc P) (kJnp : KJnp P) (kBox : KBox P) (kYew : KYew P) (kHly : KHly P) (kSys : KSys P) (kWr : KWr P) (kDrawn : KDrawn P) (kDeliv : KDeliv P) (s : State) (c : Cmd) (slots : List Slot) (hP : P s) :
 P (State.doProgram s c slots) := by
  unfold State.doProgram
  repeat' first
    | with_reducible assumption
    | exact rfl
    | exact fun _ => ⟨rfl, rfl, rfl⟩
    | with_reducible apply State.rangeGone_keeps kQue
    | with_reducible apply State.userBytes_keeps kBox
    | with_reducible apply State.settle_keeps kErr kQue kHdg kPut kCop kMap kTop kMcs kChan kEcc kJnp kBox kYew kHly kSys kWr kDrawn kDeliv
    | with_reducible apply State.programLfa_keeps kQue kCop kMap kTop kBox kSys kWr
    | with_reducible apply State.programPfa_keeps kErr kQue kHdg kPut kCop kTop kBox kSys kWr
    | with_reducible apply State.finish_keeps kQue kSys kWr
    | with_reducible apply State.checkedHandles_keeps kErr kWr kDrawn
    | with_reducible refine State.checkedHandles_keeps' kErr kWr kDrawn ‹_ = (_, _, _)› ?_
    | dsimp only
    | split
    | intro _

theorem State.doErase_keeps {P : State → Prop} (kQue : KQue P) (kTop : KTop P) (kSys : KSys P) (kWr : KWr P) (s : State) (c : Cmd) (hP : P s) :
 P (State.doErase s c) := by
  unfold State.doErase
  repeat' first
    | with_reducible assumption
    | exact rfl
    | exact fun _ => ⟨rfl, rfl, rfl⟩
    | with_reducible apply each_keeps
    | with_reducible apply State.begin_keeps kQue
    | with_reducible apply State.progDone_keeps kQue kTop kSys kWr
    | with_reducible apply State.addOp_keeps kTop kWr
    | dsimp only
    | split
    | intro _

theorem State.doCopy_keeps {P : State → Prop} (kErr : KErr P) (kQue : KQue P) (kHdg : KHdg P) (kPut : KPut P) (kCop : KCop P) (kMap : KMap P) (kTop : KTop P) (kMcs : KMcs P) (kChan : KChan P) (kEcc : KEcc P) (kJnp : KJnp P) (kBox : KBox P) (kYew : KYew P) (kHly : KHly P) (kSys : KSys P) (kWr : KWr P) (kDrawn : KDrawn P) (kDeliv : KDeliv P) (s : State) (c : Cmd) (slots : List Slot) (hP : P s) :
 P (State.doCopy s c slots) := by
  unfold State.doCopy
  repeat' first
    | with_reducible assumption
    | exact rfl
    | exact fun _ => ⟨rfl, rfl, rfl⟩
    | with_reducible apply State.rangeGone_keeps kQue
    | with_reducible apply State.wantLease_keeps kTop
    | with_reducible apply State.begin_keeps kQue
    | with_reducible apply State.settle_keeps kErr kQue kHdg kPut kCop kMap kTop kMcs kChan kEcc kJnp kBox kYew kHly kSys kWr kDrawn kDeliv
    | with_reducible apply State.onCmd_keeps kQue
    | with_reducible apply State.finish_keeps kQue kSys kWr
    | dsimp only
    | split
    | intro _

theorem State.doFlush_keeps {P : State → Prop} (kErr : KErr P) (kQue : KQue P) (kHdg : KHdg P) (kPut : KPut P) (kCop : KCop P) (kMap : KMap P) (kTop : KTop P) (kMcs : KMcs P) (kChan : KChan P) (kEcc : KEcc P) (kJnp : KJnp P) (kBox : KBox P) (kYew : KYew P) (kHly : KHly P) (kSys : KSys P) (kWr : KWr P) (kDrawn : KDrawn P) (kDeliv : KDeliv P) (s : State) (c : Cmd) (hP : P s) :
 P (State.doFlush s c) := by
  unfold State.doFlush
  repeat' first
    | with_reducible assumption
    | exact rfl
    | exact fun _ => ⟨rfl, rfl, rfl⟩
    | with_reducible apply each_keeps
    | with_reducible apply State.settle_keeps kErr kQue kHdg kPut kCop kMap kTop kMcs kChan kEcc kJnp kBox kYew kHly kSys kWr kDrawn kDeliv
    | with_reducible apply State.onCmd_keeps kQue
    | with_reducible apply State.running_keeps kQue
    | with_reducible apply State.forceFrame_keeps kTop kWr
    | dsimp only
    | split
    | intro _

theorem State.doAlloc_keeps {P : State → Prop} (kQue : KQue P) (kCop : KCop P) (kSys : KSys P) (kWr : KWr P) (s : State) (c : Cmd) (hP : P s) :
 P (State.doAlloc s c) := by
  unfold State.doAlloc
  repeat' first
    | with_reducible assumption
    | exact rfl
    | exact fun _ => ⟨rfl, rfl, rfl⟩
    | with_reducible apply State.copLow_keeps kWr
    | with_reducible apply State.copMark_keeps kCop
    | with_reducible apply State.copWant_keeps kCop
    | with_reducible apply kCop
    | with_reducible apply State.running_keeps kQue
    | with_reducible apply State.bump_keeps kWr
    | with_reducible apply State.finish_keeps kQue kSys kWr
    | dsimp only
    | split
    | intro _

theorem State.doShare_keeps {P : State → Prop} (kErr : KErr P) (kQue : KQue P) (kCop : KCop P) (kSys : KSys P) (kWr : KWr P) (kDrawn : KDrawn P) (s : State) (c : Cmd) (hP : P s) :
 P (State.doShare s c) := by
  unfold State.doShare
  repeat' first
    | with_reducible assumption
    | exact rfl
    | exact fun _ => ⟨rfl, rfl, rfl⟩
    | with_reducible apply each_keeps
    | with_reducible apply State.addName_keeps kCop
    | with_reducible apply State.onCmd_keeps kQue
    | with_reducible apply State.finish_keeps kQue kSys kWr
    | with_reducible apply State.checkedHandles_keeps kErr kWr kDrawn
    | with_reducible refine State.checkedHandles_keeps' kErr kWr kDrawn ‹_ = (_, _, _)› ?_
    | dsimp only
    | split
    | intro _

theorem State.freeAll_keeps {P : State → Prop} (kErr : KErr P) (kHdg : KHdg P) (kPut : KPut P) (kCop : KCop P) (kWr : KWr P) (s : State) (r : Nat) (a0 : List Nat) (a1 : Nat) (hP : P s) :
 P (State.freeAll s r a0 a1).2.2 := by
  induction a0 generalizing s a1 with
  | nil => exact hP
  | cons h l ih =>
    have h1 := ih (s.freeOne h r).2 (a1 + 1) (State.freeOne_keeps kErr kHdg kPut kCop kWr s h r hP)
    unfold State.freeAll
    dsimp only
    split
    · exact h1
    · exact h1

theorem State.freeAll_keeps' {P : State → Prop} (kErr : KErr P) (kHdg : KHdg P) (kPut : KPut P) (kCop : KCop P) (kWr : KWr P) {s : State} {r : Nat} {a0 : List Nat} {a1 : Nat} {x0 : Nat} {x1 : Option (Nat × Nat)} {t : State}
    (hE : State.freeAll s r a0 a1 = (x0, x1, t)) (hP : P s)  : P t := by
  have h := State.freeAll_keeps kErr kHdg kPut kCop kWr s r a0 a1 hP
  rw [hE] at h
  exact h

theorem State.doFree_keeps {P : State → Prop} (kErr : KErr P) (kQue : KQue P) (kHdg : KHdg P) (kPut : KPut P) (kCop : KCop P) (kSys : KSys P) (kWr : KWr P) (kDrawn : KDrawn P) (s : State) (c : Cmd) (hP : P s) :
 P (State.doFree s c) := by
  unfold State.doFree
  repeat' first
    | with_reducible assumption
    | exact rfl
    | exact fun _ => ⟨rfl, rfl, rfl⟩
    | with_reducible apply State.finishInternal_keeps kQue kSys kWr
    | with_reducible apply State.onCmd_keeps kQue
    | with_reducible apply State.finish_keeps kQue kSys kWr
    | with_reducible apply State.handleList_keeps kErr kWr kDrawn
    | with_reducible apply State.freeAll_keeps kErr kHdg kPut kCop kWr
    | with_reducible refine State.handleList_keeps' kErr kWr kDrawn ‹_ = (_, _, _)› ?_
    | with_reducible refine State.freeAll_keeps' kErr kHdg kPut kCop kWr ‹_ = (_, _, _)› ?_
    | dsimp only
    | split
    | intro _

theorem State.doPin_keeps {P : State → Prop} (kErr : KErr P) (kQue : KQue P) (kHdg : KHdg P) (kPut : KPut P) (kCop : KCop P) (kMap : KMap P) (kTop : KTop P) (kMcs : KMcs P) (kChan : KChan P) (kEcc : KEcc P) (kJnp : KJnp P) (kBox : KBox P) (kYew : KYew P) (kHly : KHly P) (kSys : KSys P) (kWr : KWr P) (kDrawn : KDrawn P) (kDeliv : KDeliv P) (s : State) (c : Cmd) (hP : P s) :
 P (State.doPin s c) := by
  unfold State.doPin
  repeat' first
    | with_reducible assumption
    | exact rfl
    | exact fun _ => ⟨rfl, rfl, rfl⟩
    | with_reducible apply each_keeps
    | with_reducible apply State.onMslot_keeps kMap
    | with_reducible apply State.settle_keeps kErr kQue kHdg kPut kCop kMap kTop kMcs kChan kEcc kJnp kBox kYew kHly kSys kWr kDrawn kDeliv
    | with_reducible apply State.onCmd_keeps kQue
    | with_reducible apply State.running_keeps kQue
    | with_reducible apply State.finish_keeps kQue kSys kWr
    | dsimp only
    | split
    | intro _

theorem execRead_keeps {P : State → Prop} (kErr : KErr P) (kQue : KQue P) (kHdg : KHdg P) (kPut : KPut P) (kCop : KCop P) (kMap : KMap P) (kTop : KTop P) (kMcs : KMcs P) (kChan : KChan P) (kEcc : KEcc P) (kJnp : KJnp P) (kBox : KBox P) (kYew : KYew P) (kHly : KHly P) (kSys : KSys P) (kWr : KWr P) (kDrawn : KDrawn P) (kDeliv : KDeliv P) (tag : Tag) (s : State) (hP : P s) :
    Out.All P (execRead tag s) := by
  unfold execRead
  repeat' first
    | with_reducible apply Out.all_next
    | exact trivial
    | with_reducible assumption
    | exact rfl
    | exact fun _ => ⟨rfl, rfl, rfl⟩
    | with_reducible apply State.doRead_keeps kErr kQue kHdg kPut kCop kMap kTop kMcs kChan kEcc kJnp kBox kYew kHly kSys kWr kDrawn kDeliv
    | dsimp only
    | split
    | intro _

theorem execReadRaw_keeps {P : State → Prop} (kErr : KErr P) (kQue : KQue P) (kHdg : KHdg P) (kPut : KPut P) (kCop : KCop P) (kMap : KMap P) (kTop : KTop P) (kMcs : KMcs P) (kChan : KChan P) (kEcc : KEcc P) (kJnp : KJnp P) (kBox : KBox P) (kYew : KYew P) (kHly : KHly P) (kSys : KSys P) (kWr : KWr P) (kDrawn : KDrawn P) (kDeliv : KDeliv P) (tag : Tag) (s : State) (hP : P s) :
    Out.All P (execReadRaw tag s) := by
  unfold execReadRaw
  repeat' first
    | with_reducible apply Out.all_next
    | exact trivial
    | with_reducible assumption
    | exact rfl
    | exact fun _ => ⟨rfl, rfl, rfl⟩
    | with_reducible apply State.doReadRaw_keeps kErr kQue kHdg kPut kCop kMap kTop kMcs kChan kEcc kJnp kBox kYew kHly kSys kWr kDrawn kDeliv
    | dsimp only
    | split
    | intro _

theorem execProgram_keeps {P : State → Prop} (kErr : KErr P) (kQue : KQue P) (kHdg : KHdg P) (kPut : KPut P) (kCop : KCop P) (kMap : KMap P) (kTop : KTop P) (kMcs : KMcs P) (kChan : KChan P) (kEcc : KEcc P) (kJnp : KJnp P) (kBox : KBox P) (kYew : KYew P) (kHly : KHly P) (kSys : KSys P) (kWr : KWr P) (kDrawn : KDrawn P) (kDeliv : KDeliv P) (tag : Tag) (slots : List Slot) (s : State) (hP : P s) :
    Out.All P (execProgram tag slots s) := by
  unfold execProgram
  repeat' first
    | with_reducible apply Out.all_next
    | exact trivial
    | with_reducible assumption
    | exact rfl
    | exact fun _ => ⟨rfl, rfl, rfl⟩
    | with_reducible apply State.doProgram_keeps kErr kQue kHdg kPut kCop kMap kTop kMcs kChan kEcc kJnp kBox kYew kHly kSys kWr kDrawn kDeliv
    | dsimp only
    | split
    | intro _

theorem execProgramAtomic_keeps {P : State → Prop} (kErr : KErr P) (kQue : KQue P) (kHdg : KHdg P) (kPut : KPut P) (kCop : KCop P) (kMap : KMap P) (kTop : KTop P) (kMcs : KMcs P) (kChan : KChan P) (kEcc : KEcc P) (kJnp : KJnp P) (kBox : KBox P) (kYew : KYew P) (kHly : KHly P) (kSys : KSys P) (kWr : KWr P) (kDrawn : KDrawn P) (kDeliv : KDeliv P) (tag : Tag) (slots : List Slot) (s : State) (hP : P s) :
    Out.All P (execProgramAtomic tag slots s) := by
  unfold execProgramAtomic
  repeat' first
    | with_reducible apply Out.all_next
    | exact trivial
    | with_reducible assumption
    | exact rfl
    | exact fun _ => ⟨rfl, rfl, rfl⟩
    | with_reducible apply State.doProgram_keeps kErr kQue kHdg kPut kCop kMap kTop kMcs kChan kEcc kJnp kBox kYew kHly kSys kWr kDrawn kDeliv
    | dsimp only
    | split
    | intro _

theorem execErase_keeps {P : State → Prop} (kQue : KQue P) (kTop : KTop P) (kSys : KSys P) (kWr : KWr P) (tag : Tag) (s : State) (hP : P s) :
    Out.All P (execErase tag s) := by
  unfold execErase
  repeat' first
    | with_reducible apply Out.all_next
    | exact trivial
    | with_reducible assumption
    | exact rfl
    | exact fun _ => ⟨rfl, rfl, rfl⟩
    | with_reducible apply State.doErase_keeps kQue kTop kSys kWr
    | dsimp only
    | split
    | intro _

theorem execCopy_keeps {P : State → Prop} (kErr : KErr P) (kQue : KQue P) (kHdg : KHdg P) (kPut : KPut P) (kCop : KCop P) (kMap : KMap P) (kTop : KTop P) (kMcs : KMcs P) (kChan : KChan P) (kEcc : KEcc P) (kJnp : KJnp P) (kBox : KBox P) (kYew : KYew P) (kHly : KHly P) (kSys : KSys P) (kWr : KWr P) (kDrawn : KDrawn P) (kDeliv : KDeliv P) (tag : Tag) (slots : List Slot) (s : State) (hP : P s) :
    Out.All P (execCopy tag slots s) := by
  unfold execCopy
  repeat' first
    | with_reducible apply Out.all_next
    | exact trivial
    | with_reducible assumption
    | exact rfl
    | exact fun _ => ⟨rfl, rfl, rfl⟩
    | with_reducible apply State.doCopy_keeps kErr kQue kHdg kPut kCop kMap kTop kMcs kChan kEcc kJnp kBox kYew kHly kSys kWr kDrawn kDeliv
    | dsimp only
    | split
    | intro _

theorem execTrim_keeps {P : State → Prop} (kErr : KErr P) (kQue : KQue P) (kHdg : KHdg P) (kPut : KPut P) (kCop : KCop P) (kMap : KMap P) (kTop : KTop P) (kMcs : KMcs P) (kChan : KChan P) (kEcc : KEcc P) (kJnp : KJnp P) (kBox : KBox P) (kYew : KYew P) (kHly : KHly P) (kSys : KSys P) (kWr : KWr P) (kDrawn : KDrawn P) (kDeliv : KDeliv P) (tag : Tag) (s : State) (hP : P s) :
    Out.All P (execTrim tag s) := by
  unfold execTrim
  repeat' first
    | with_reducible apply Out.all_next
    | exact trivial
    | with_reducible assumption
    | exact rfl
    | exact fun _ => ⟨rfl, rfl, rfl⟩
    | with_reducible apply State.settle_keeps kErr kQue kHdg kPut kCop kMap kTop kMcs kChan kEcc kJnp kBox kYew kHly kSys kWr kDrawn kDeliv
    | with_reducible apply State.onCmd_keeps kQue
    | with_reducible apply State.running_keeps kQue
    | dsimp only
    | split
    | intro _

theorem execFlush_keeps {P : State → Prop} (kErr : KErr P) (kQue : KQue P) (kHdg : KHdg P) (kPut : KPut P) (kCop : KCop P) (kMap : KMap P) (kTop : KTop P) (kMcs : KMcs P) (kChan : KChan P) (kEcc : KEcc P) (kJnp : KJnp P) (kBox : KBox P) (kYew : KYew P) (kHly : KHly P) (kSys : KSys P) (kWr : KWr P) (kDrawn : KDrawn P) (kDeliv : KDeliv P) (tag : Tag) (s : State) (hP : P s) :
    Out.All P (execFlush tag s) := by
  unfold execFlush
  repeat' first
    | with_reducible apply Out.all_next
    | exact trivial
    | with_reducible assumption
    | exact rfl
    | exact fun _ => ⟨rfl, rfl, rfl⟩
    | with_reducible apply State.doFlush_keeps kErr kQue kHdg kPut kCop kMap kTop kMcs kChan kEcc kJnp kBox kYew kHly kSys kWr kDrawn kDeliv
    | dsimp only
    | split
    | intro _

theorem execBufAlloc_keeps {P : State → Prop} (kQue : KQue P) (kCop : KCop P) (kSys : KSys P) (kWr : KWr P) (tag : Tag) (s : State) (hP : P s) :
    Out.All P (execBufAlloc tag s) := by
  unfold execBufAlloc
  repeat' first
    | with_reducible apply Out.all_next
    | exact trivial
    | with_reducible assumption
    | exact rfl
    | exact fun _ => ⟨rfl, rfl, rfl⟩
    | with_reducible apply State.doAlloc_keeps kQue kCop kSys kWr
    | dsimp only
    | split
    | intro _

theorem execBufShare_keeps {P : State → Prop} (kErr : KErr P) (kQue : KQue P) (kCop : KCop P) (kSys : KSys P) (kWr : KWr P) (kDrawn : KDrawn P) (tag : Tag) (s : State) (hP : P s) :
    Out.All P (execBufShare tag s) := by
  unfold execBufShare
  repeat' first
    | with_reducible apply Out.all_next
    | exact trivial
    | with_reducible assumption
    | exact rfl
    | exact fun _ => ⟨rfl, rfl, rfl⟩
    | with_reducible apply State.doShare_keeps kErr kQue kCop kSys kWr kDrawn
    | dsimp only
    | split
    | intro _

theorem execBufFree_keeps {P : State → Prop} (kErr : KErr P) (kQue : KQue P) (kHdg : KHdg P) (kPut : KPut P) (kCop : KCop P) (kSys : KSys P) (kWr : KWr P) (kDrawn : KDrawn P) (tag : Tag) (s : State) (hP : P s) :
    Out.All P (execBufFree tag s) := by
  unfold execBufFree
  repeat' first
    | with_reducible apply Out.all_next
    | exact trivial
    | with_reducible assumption
    | exact rfl
    | exact fun _ => ⟨rfl, rfl, rfl⟩
    | with_reducible apply State.doFree_keeps kErr kQue kHdg kPut kCop kSys kWr kDrawn
    | dsimp only
    | split
    | intro _

theorem execMapPin_keeps {P : State → Prop} (kErr : KErr P) (kQue : KQue P) (kHdg : KHdg P) (kPut : KPut P) (kCop : KCop P) (kMap : KMap P) (kTop : KTop P) (kMcs : KMcs P) (kChan : KChan P) (kEcc : KEcc P) (kJnp : KJnp P) (kBox : KBox P) (kYew : KYew P) (kHly : KHly P) (kSys : KSys P) (kWr : KWr P) (kDrawn : KDrawn P) (kDeliv : KDeliv P) (tag : Tag) (s : State) (hP : P s) :
    Out.All P (execMapPin tag s) := by
  unfold execMapPin
  repeat' first
    | with_reducible apply Out.all_next
    | exact trivial
    | with_reducible assumption
    | exact rfl
    | exact fun _ => ⟨rfl, rfl, rfl⟩
    | with_reducible apply State.doPin_keeps kErr kQue kHdg kPut kCop kMap kTop kMcs kChan kEcc kJnp kBox kYew kHly kSys kWr kDrawn kDeliv
    | dsimp only
    | split
    | intro _

theorem execMapSync_keeps {P : State → Prop} (kErr : KErr P) (kQue : KQue P) (kHdg : KHdg P) (kPut : KPut P) (kCop : KCop P) (kMap : KMap P) (kTop : KTop P) (kMcs : KMcs P) (kChan : KChan P) (kEcc : KEcc P) (kJnp : KJnp P) (kBox : KBox P) (kYew : KYew P) (kHly : KHly P) (kSys : KSys P) (kWr : KWr P) (kDrawn : KDrawn P) (kDeliv : KDeliv P) (tag : Tag) (s : State) (hP : P s) :
    Out.All P (execMapSync tag s) := by
  unfold execMapSync
  repeat' first
    | with_reducible apply Out.all_next
    | exact trivial
    | with_reducible assumption
    | exact rfl
    | exact fun _ => ⟨rfl, rfl, rfl⟩
    | with_reducible apply State.settle_keeps kErr kQue kHdg kPut kCop kMap kTop kMcs kChan kEcc kJnp kBox kYew kHly kSys kWr kDrawn kDeliv
    | with_reducible apply State.onCmd_keeps kQue
    | with_reducible apply State.running_keeps kQue
    | dsimp only
    | split
    | intro _

end Sys2Proof.Machine
end

