-- ==== Sys2Proof/Laws/KeepsWarmStop.lean ====
section
/-!
SUPPORT. What the operations of Machine/WarmStop.lean can do: each one keeps every property of a state that its own primitive
updates keep. The hypotheses of a lemma name every unit the operation can reach.
-/
namespace Sys2Proof.Machine

theorem State.warmStore_keeps {P : State → Prop} (kQue : KQue P) (kHdg : KHdg P) (kForget : KForget P) (kTop : KTop P) (kHly : KHly P) (kSys : KSys P) (kWr : KWr P) (s : State) (hP : P s) :
 P (State.warmStore s) := by
  unfold State.warmStore
  repeat' first
    | with_reducible assumption
    | exact rfl
    | exact fun _ => ⟨rfl, rfl, rfl⟩
    | with_reducible apply kForget
    | with_reducible apply each_keeps
    | with_reducible apply State.dropLease_keeps kTop kWr
    | with_reducible apply State.gorseStop_keeps kTop kWr
    | with_reducible apply kHdg
    | with_reducible apply State.finishSlow_keeps kQue kHly kSys kWr
    | dsimp only
    | split
    | intro _

theorem State.warmJnp_keeps {P : State → Prop} (kQue : KQue P) (kTop : KTop P) (kMcs : KMcs P) (kChan : KChan P) (kEcc : KEcc P) (kJnp : KJnp P) (kBox : KBox P) (kHly : KHly P) (kSys : KSys P) (kWr : KWr P) (s : State) (hP : P s) :
 P (State.warmJnp s) := by
  unfold State.warmJnp
  repeat' first
    | with_reducible assumption
    | exact rfl
    | exact fun _ => ⟨rfl, rfl, rfl⟩
    | with_reducible apply each_keeps
    | with_reducible apply State.calibDrop_keeps kTop kMcs kChan kEcc kJnp kBox kWr
    | with_reducible apply kJnp
    | with_reducible apply State.finishSlow_keeps kQue kHly kSys kWr
    | with_reducible apply State.patrolDrop_keeps kTop kMcs kChan kEcc kJnp kBox kWr
    | dsimp only
    | split
    | intro _

theorem State.warmWb_keeps {P : State → Prop} (kMap : KMap P) (kTop : KTop P) (s : State) (w : WB) (hP : P s) :
 P (State.warmWb s w) := by
  unfold State.warmWb
  repeat' first
    | with_reducible assumption
    | exact rfl
    | exact fun _ => ⟨rfl, rfl, rfl⟩
    | with_reducible apply kTop
    | with_reducible apply State.onWb_keeps kMap
    | with_reducible apply kMap
    | dsimp only
    | split
    | intro _

theorem State.warmMap_keeps {P : State → Prop} (kMap : KMap P) (kTop : KTop P) (kMcs : KMcs P) (kChan : KChan P) (kEcc : KEcc P) (kBox : KBox P) (kWr : KWr P) (s : State) (hP : P s) :
 P (State.warmMap s) := by
  unfold State.warmMap
  repeat' first
    | with_reducible assumption
    | exact rfl
    | exact fun _ => ⟨rfl, rfl, rfl⟩
    | with_reducible apply each_keeps
    | with_reducible apply State.warmWb_keeps kMap kTop
    | with_reducible apply State.dropFlight_keeps kTop kMcs kChan kEcc kBox kWr
    | with_reducible apply kMap
    | dsimp only
    | split
    | intro _

theorem State.warmRemove_keeps {P : State → Prop} (kErr : KErr P) (kQue : KQue P) (kHdg : KHdg P) (kPut : KPut P) (kForget : KForget P) (kCop : KCop P) (kMap : KMap P) (kTop : KTop P) (kMcs : KMcs P) (kChan : KChan P) (kEcc : KEcc P) (kJnp : KJnp P) (kDma : KDma P) (kBox : KBox P) (kYew : KYew P) (kHly : KHly P) (kPwr : KPwr P) (kSys : KSys P) (kWr : KWr P) (kDrawn : KDrawn P) (kDram : KDram P) (kDeliv : KDeliv P) (s : State) (c : Cmd) (hP : P s) :
 P (State.warmRemove s c) := by
  unfold State.warmRemove
  repeat' first
    | with_reducible assumption
    | exact rfl
    | exact fun _ => ⟨rfl, rfl, rfl⟩
    | with_reducible apply State.dropLeaseTag_keeps kTop kWr
    | with_reducible apply State.remove_keeps kErr kQue kHdg kPut kForget kCop kMap kTop kMcs kChan kEcc kDma kBox kHly kPwr kSys kWr kDrawn kDram kDeliv
    | with_reducible apply when_keeps
    | with_reducible apply State.untag_keeps kHdg kTop kJnp kYew
    | dsimp only
    | split
    | intro _

theorem State.warmRead_keeps {P : State → Prop} (kErr : KErr P) (kQue : KQue P) (kHdg : KHdg P) (kPut : KPut P) (kCop : KCop P) (kTop : KTop P) (kMcs : KMcs P) (kChan : KChan P) (kEcc : KEcc P) (kBox : KBox P) (kWr : KWr P) (s : State) (c : Cmd) (hP : P s) :
 P (State.warmRead s c) := by
  unfold State.warmRead
  repeat' first
    | with_reducible assumption
    | exact rfl
    | exact fun _ => ⟨rfl, rfl, rfl⟩
    | with_reducible apply each_keeps
    | with_reducible apply State.releaseFrame_keeps kErr kQue kHdg kPut kCop kTop kMcs kChan kEcc kBox kWr
    | with_reducible apply State.onFrame_keeps kQue
    | dsimp only
    | split
    | intro _

theorem State.warmProgram_keeps {P : State → Prop} (kErr : KErr P) (kQue : KQue P) (kHdg : KHdg P) (kPut : KPut P) (kCop : KCop P) (kMap : KMap P) (kTop : KTop P) (kEcc : KEcc P) (kHly : KHly P) (kSys : KSys P) (kWr : KWr P) (kDrawn : KDrawn P) (s : State) (c : Cmd) (hP : P s) :
 P (State.warmProgram s c) := by
  unfold State.warmProgram
  repeat' first
    | with_reducible assumption
    | exact rfl
    | exact fun _ => ⟨rfl, rfl, rfl⟩
    | with_reducible apply each_keeps
    | with_reducible apply State.progDone_keeps kQue kTop kSys kWr
    | with_reducible apply State.dropName_keeps kErr kHdg kPut kCop kWr
    | with_reducible apply State.addName_keeps kCop
    | with_reducible apply State.padPf_keeps kTop kWr
    | with_reducible apply State.stripFua_keeps kErr kQue kHdg kPut kCop kMap kTop kEcc kHly kWr kDrawn
    | dsimp only
    | split
    | intro _

theorem State.warmErase_keeps {P : State → Prop} (kErr : KErr P) (kQue : KQue P) (kHdg : KHdg P) (kPut : KPut P) (kCop : KCop P) (kMap : KMap P) (kTop : KTop P) (kChan : KChan P) (kEcc : KEcc P) (kBox : KBox P) (kSys : KSys P) (kWr : KWr P) (s : State) (c : Cmd) (hP : P s) :
 P (State.warmErase s c) := by
  unfold State.warmErase
  repeat' first
    | with_reducible assumption
    | exact rfl
    | exact fun _ => ⟨rfl, rfl, rfl⟩
    | with_reducible apply State.endErase_keeps kQue kTop kSys kWr
    | with_reducible apply each_keeps
    | with_reducible apply State.failOp_keeps kErr kQue kHdg kPut kCop kMap kTop kChan kEcc kBox kSys kWr
    | with_reducible apply State.onOp_keeps kTop
    | dsimp only
    | split
    | intro _

theorem State.warmCut_keeps {P : State → Prop} (kErr : KErr P) (kQue : KQue P) (kHdg : KHdg P) (kPut : KPut P) (kCop : KCop P) (kMap : KMap P) (kTop : KTop P) (kMcs : KMcs P) (kChan : KChan P) (kEcc : KEcc P) (kBox : KBox P) (kHly : KHly P) (kSys : KSys P) (kWr : KWr P) (kDrawn : KDrawn P) (s : State) (c : Cmd) (hP : P s) :
 P (State.warmCut s c) := by
  unfold State.warmCut
  repeat' first
    | with_reducible assumption
    | exact rfl
    | exact fun _ => ⟨rfl, rfl, rfl⟩
    | with_reducible apply State.warmRead_keeps kErr kQue kHdg kPut kCop kTop kMcs kChan kEcc kBox kWr
    | with_reducible apply State.warmProgram_keeps kErr kQue kHdg kPut kCop kMap kTop kEcc kHly kSys kWr kDrawn
    | with_reducible apply State.warmErase_keeps kErr kQue kHdg kPut kCop kMap kTop kChan kEcc kBox kSys kWr
    | dsimp only
    | split
    | intro _

theorem State.warmCommands_keeps {P : State → Prop} (kErr : KErr P) (kQue : KQue P) (kHdg : KHdg P) (kPut : KPut P) (kForget : KForget P) (kCop : KCop P) (kMap : KMap P) (kTop : KTop P) (kMcs : KMcs P) (kChan : KChan P) (kEcc : KEcc P) (kJnp : KJnp P) (kDma : KDma P) (kBox : KBox P) (kYew : KYew P) (kHly : KHly P) (kPwr : KPwr P) (kSys : KSys P) (kWr : KWr P) (kDrawn : KDrawn P) (kDram : KDram P) (kDeliv : KDeliv P) (s : State) (hP : P s) :
 P (State.warmCommands s) := by
  unfold State.warmCommands
  repeat' first
    | with_reducible assumption
    | exact rfl
    | exact fun _ => ⟨rfl, rfl, rfl⟩
    | with_reducible apply State.warmCut_keeps kErr kQue kHdg kPut kCop kMap kTop kMcs kChan kEcc kBox kHly kSys kWr kDrawn
    | with_reducible apply kTop
    | with_reducible apply each_keeps
    | with_reducible apply State.warmRemove_keeps kErr kQue kHdg kPut kForget kCop kMap kTop kMcs kChan kEcc kJnp kDma kBox kYew kHly kPwr kSys kWr kDrawn kDram kDeliv
    | dsimp only
    | split
    | intro _

theorem State.warmYew_keeps {P : State → Prop} (kYew : KYew P) (s : State) (hP : P s) :
 P (State.warmYew s) := by
  unfold State.warmYew
  repeat' first
    | with_reducible assumption
    | exact rfl
    | exact fun _ => ⟨rfl, rfl, rfl⟩
    | with_reducible apply State.yResume_keeps kYew
    | with_reducible apply kYew
    | dsimp only
    | split
    | intro _

theorem State.warmBegin_keeps {P : State → Prop} (kErr : KErr P) (kQue : KQue P) (kHdg : KHdg P) (kPut : KPut P) (kForget : KForget P) (kCop : KCop P) (kMap : KMap P) (kTop : KTop P) (kMcs : KMcs P) (kChan : KChan P) (kEcc : KEcc P) (kJnp : KJnp P) (kDma : KDma P) (kBox : KBox P) (kYew : KYew P) (kHly : KHly P) (kPwr : KPwr P) (kSys : KSys P) (kWr : KWr P) (kDrawn : KDrawn P) (kDram : KDram P) (kDeliv : KDeliv P) (s : State) (cause : Nat) (hP : P s) :
 P (State.warmBegin s cause) := by
  unfold State.warmBegin
  repeat' first
    | with_reducible assumption
    | exact rfl
    | exact fun _ => ⟨rfl, rfl, rfl⟩
    | exact fun _ => rfl
    | with_reducible apply State.warmStore_keeps kQue kHdg kForget kTop kHly kSys kWr
    | with_reducible apply State.warmMap_keeps kMap kTop kMcs kChan kEcc kBox kWr
    | with_reducible apply State.cutXor_keeps kErr kHdg kPut kCop kTop kMcs kChan kEcc kJnp kBox kHly kWr kDrawn
    | with_reducible apply State.cutLadder_keeps kErr kHdg kPut kTop kChan kEcc kJnp kBox kHly kWr kDrawn
    | with_reducible apply kSys
    | with_reducible apply State.holdBack_keeps kTop kBox kWr
    | with_reducible apply State.warmJnp_keeps kQue kTop kMcs kChan kEcc kJnp kBox kHly kSys kWr
    | with_reducible apply KQue.same kQue
    | with_reducible apply State.warmYew_keeps kYew
    | with_reducible apply kHly
    | with_reducible apply State.cutActs_keeps kQue kTop kChan kHly kSys kWr
    | with_reducible apply State.settle_keeps kErr kQue kHdg kPut kCop kMap kTop kMcs kChan kEcc kJnp kBox kYew kHly kSys kWr kDrawn kDeliv
    | with_reducible apply State.warmCommands_keeps kErr kQue kHdg kPut kForget kCop kMap kTop kMcs kChan kEcc kJnp kDma kBox kYew kHly kPwr kSys kWr kDrawn kDram kDeliv
    | with_reducible apply State.dropEntry_keeps kQue kPwr kSys kWr
    | with_reducible apply State.setb_keeps kWr
    | dsimp only
    | split
    | intro _

theorem State.wantWarm_keeps {P : State → Prop} (kErr : KErr P) (kQue : KQue P) (kHdg : KHdg P) (kPut : KPut P) (kForget : KForget P) (kCop : KCop P) (kMap : KMap P) (kTop : KTop P) (kMcs : KMcs P) (kChan : KChan P) (kEcc : KEcc P) (kJnp : KJnp P) (kDma : KDma P) (kBox : KBox P) (kYew : KYew P) (kHly : KHly P) (kPwr : KPwr P) (kSys : KSys P) (kWr : KWr P) (kDrawn : KDrawn P) (kDram : KDram P) (kDeliv : KDeliv P) (s : State) (cause : Nat) (hP : P s) :
 P (State.wantWarm s cause) := by
  unfold State.wantWarm
  repeat' first
    | with_reducible assumption
    | exact rfl
    | exact fun _ => ⟨rfl, rfl, rfl⟩
    | with_reducible apply kSys
    | with_reducible apply State.warmBegin_keeps kErr kQue kHdg kPut kForget kCop kMap kTop kMcs kChan kEcc kJnp kDma kBox kYew kHly kPwr kSys kWr kDrawn kDram kDeliv
    | dsimp only
    | split
    | intro _

theorem execWarmRst_keeps {P : State → Prop} (kErr : KErr P) (kQue : KQue P) (kHdg : KHdg P) (kPut : KPut P) (kForget : KForget P) (kCop : KCop P) (kMap : KMap P) (kTop : KTop P) (kMcs : KMcs P) (kChan : KChan P) (kEcc : KEcc P) (kJnp : KJnp P) (kDma : KDma P) (kBox : KBox P) (kYew : KYew P) (kHly : KHly P) (kPwr : KPwr P) (kSys : KSys P) (kWr : KWr P) (kResp : KResp P) (kDrawn : KDrawn P) (kDram : KDram P) (kDeliv : KDeliv P) (m : Master) (s : State) (hP : P s) :
    Out.All P (execWarmRst m s) := by
  unfold execWarmRst
  repeat' first
    | with_reducible apply Out.all_next
    | exact trivial
    | with_reducible assumption
    | exact rfl
    | exact fun _ => ⟨rfl, rfl, rfl⟩
    | with_reducible apply State.wantWarm_keeps kErr kQue kHdg kPut kForget kCop kMap kTop kMcs kChan kEcc kJnp kDma kBox kYew kHly kPwr kSys kWr kDrawn kDram kDeliv
    | with_reducible apply State.access_keeps kPwr kResp
    | dsimp only
    | split
    | intro _

theorem execWarmReq_keeps {P : State → Prop} (kErr : KErr P) (kQue : KQue P) (kHdg : KHdg P) (kPut : KPut P) (kForget : KForget P) (kCop : KCop P) (kMap : KMap P) (kTop : KTop P) (kMcs : KMcs P) (kChan : KChan P) (kEcc : KEcc P) (kJnp : KJnp P) (kDma : KDma P) (kBox : KBox P) (kYew : KYew P) (kHly : KHly P) (kPwr : KPwr P) (kSys : KSys P) (kWr : KWr P) (kResp : KResp P) (kDrawn : KDrawn P) (kDram : KDram P) (kDeliv : KDeliv P) (s : State) (hP : P s) :
    Out.All P (execWarmReq s) := by
  unfold execWarmReq
  repeat' first
    | with_reducible apply Out.all_next
    | exact trivial
    | with_reducible assumption
    | exact rfl
    | exact fun _ => ⟨rfl, rfl, rfl⟩
    | with_reducible apply State.wantWarm_keeps kErr kQue kHdg kPut kForget kCop kMap kTop kMcs kChan kEcc kJnp kDma kBox kYew kHly kPwr kSys kWr kDrawn kDram kDeliv
    | with_reducible apply State.access_keeps kPwr kResp
    | dsimp only
    | split
    | intro _

theorem execWarmResetBegin_keeps {P : State → Prop} (kErr : KErr P) (kQue : KQue P) (kHdg : KHdg P) (kPut : KPut P) (kForget : KForget P) (kCop : KCop P) (kMap : KMap P) (kTop : KTop P) (kMcs : KMcs P) (kChan : KChan P) (kEcc : KEcc P) (kJnp : KJnp P) (kDma : KDma P) (kBox : KBox P) (kYew : KYew P) (kHly : KHly P) (kPwr : KPwr P) (kSys : KSys P) (kWr : KWr P) (kDrawn : KDrawn P) (kDram : KDram P) (kDeliv : KDeliv P) (s : State) (hP : P s) :
    Out.All P (execWarmResetBegin s) := by
  unfold execWarmResetBegin
  repeat' first
    | with_reducible apply Out.all_next
    | exact trivial
    | with_reducible assumption
    | exact rfl
    | exact fun _ => ⟨rfl, rfl, rfl⟩
    | with_reducible apply State.warmBegin_keeps kErr kQue kHdg kPut kForget kCop kMap kTop kMcs kChan kEcc kJnp kDma kBox kYew kHly kPwr kSys kWr kDrawn kDram kDeliv
    | dsimp only
    | split
    | intro _

end Sys2Proof.Machine
end

