-- ==== Sys2Proof/Laws/KeepsRegPort.lean ====
section
/-!
SUPPORT. What the operations of Machine/RegPort.lean can do: each one keeps every property of a state that its own primitive
updates keep. The hypotheses of a lemma name every unit the operation can reach.
-/
namespace Sys2Proof.Machine

theorem State.readPlain_keeps {P : State → Prop} (kWr : KWr P) (kResp : KResp P) (s : State) (held : Bool) (addr : Nat) (hP : P s) :
 P (State.readPlain s held addr) := by
  unfold State.readPlain
  refine kResp _ _ (each_keeps _ _ _ (fun s F _ h => ?_) hP)
  split
  · rename_i hF
    exact kWr _ _ _ (by rw [hF]; rfl) h
  · exact h

theorem State.regRead_keeps {P : State → Prop} (kErr : KErr P) (kWr : KWr P) (kResp : KResp P) (s : State) (m : Master) (held : Bool) (addr width : Nat) (hP : P s) :
 P (State.regRead s m held addr width) := by
  unfold State.regRead
  split
  · exact State.badAccess_keeps kErr kWr kResp _ _ hP
  · split
    · exact kResp _ _ hP
    · split
      · exact State.timeLo_keeps kWr kResp _ hP
      · split
        · exact State.yRead_keeps kErr kWr kResp _ _ hP
        · exact State.readPlain_keeps kWr kResp _ _ _ hP

theorem State.writeFld_keeps {P : State → Prop} (kWr : KWr P) (s : State) (fixed : Bool) (v : Nat) (F : Fld) (hP : P s) (hA : (F.acc == Access.lock) = false) :
 P (State.writeFld s fixed v F) := by
  unfold State.writeFld
  repeat' first
    | with_reducible assumption
    | with_reducible apply kWr
    | split

theorem State.writePlain_keeps {P : State → Prop} (kFlds : KFlds P) (s : State) (addr v : Nat) (hP : P s) :
 P (State.writePlain s addr v) := by
  exact kFlds _ _ _ _ (fun _ h => h) hP

theorem State.writeSusp_keeps {P : State → Prop} (kFlds : KFlds P) (s : State) (v : Nat) (hP : P s) :
 P (State.writeSusp s v) := by
  exact kFlds _ _ _ _ (fun _ h => (List.mem_filter.mp h).1) hP

theorem State.writeQue_keeps {P : State → Prop} (kErr : KErr P) (kQue : KQue P) (kWr : KWr P) (kFlds : KFlds P) (s : State) (m : Master) (addr v : Nat) (hP : P s) :
 P (State.writeQue s m addr v) := by
  unfold State.writeQue
  repeat' first
    | with_reducible assumption
    | exact rfl
    | exact fun _ => ⟨rfl, rfl, rfl⟩
    | with_reducible apply State.writePlain_keeps kFlds
    | with_reducible apply State.queCfg_keeps kQue kWr
    | with_reducible apply State.doorbell_keeps kErr kQue kWr
    | dsimp only
    | split
    | intro _

theorem State.writeDma_keeps {P : State → Prop} (kErr : KErr P) (kDma : KDma P) (kWr : KWr P) (kFlds : KFlds P) (s : State) (addr v : Nat) (hP : P s) :
 P (State.writeDma s addr v) := by
  unfold State.writeDma
  repeat' first
    | with_reducible assumption
    | exact rfl
    | exact fun _ => ⟨rfl, rfl, rfl⟩
    | with_reducible apply State.dcqCfg_keeps kDma kWr
    | with_reducible apply State.dcqHead_keeps kErr kWr
    | with_reducible apply State.writePlain_keeps kFlds
    | with_reducible apply State.repace_keeps kDma
    | with_reducible apply when_keeps
    | dsimp only
    | split
    | intro _

theorem State.writeBox_keeps {P : State → Prop} (kTop : KTop P) (kWr : KWr P) (kFlds : KFlds P) (kCeil : KCeil P) (s : State) (addr v : Nat) (hP : P s) :
 P (State.writeBox s addr v) := by
  unfold State.writeBox
  repeat' first
    | with_reducible assumption
    | exact rfl
    | exact fun _ => ⟨rfl, rfl, rfl⟩
    | with_reducible apply State.budgetSet_keeps kTop kWr
    | with_reducible apply State.writePlain_keeps kFlds
    | with_reducible apply State.threshSet_keeps kWr
    | with_reducible apply kCeil
    | with_reducible apply State.relive_keeps kTop kWr
    | dsimp only
    | split
    | intro _

theorem State.writeBand_keeps {P : State → Prop} (kPwr : KPwr P) (kWr : KWr P) (kFlds : KFlds P) (s : State) (n v : Nat) (hP : P s) :
 P (State.writeBand s n v) := by
  unfold State.writeBand
  repeat' first
    | with_reducible assumption
    | exact rfl
    | exact fun _ => ⟨rfl, rfl, rfl⟩
    | with_reducible apply State.writePlain_keeps kFlds
    | with_reducible apply State.setb_keeps kWr
    | with_reducible apply when_keeps
    | with_reducible apply State.onBand_keeps kPwr
    | dsimp only
    | split
    | intro _

theorem State.writePwr_keeps {P : State → Prop} (kErr : KErr P) (kQue : KQue P) (kHdg : KHdg P) (kPut : KPut P) (kCop : KCop P) (kMap : KMap P) (kTop : KTop P) (kMcs : KMcs P) (kChan : KChan P) (kEcc : KEcc P) (kJnp : KJnp P) (kBox : KBox P) (kYew : KYew P) (kHly : KHly P) (kPwr : KPwr P) (kSys : KSys P) (kWr : KWr P) (kDrawn : KDrawn P) (kDeliv : KDeliv P) (kFlds : KFlds P) (s : State) (addr v : Nat) (hP : P s) :
 P (State.writePwr s addr v) := by
  unfold State.writePwr
  repeat' first
    | with_reducible assumption
    | exact rfl
    | exact fun _ => ⟨rfl, rfl, rfl⟩
    | with_reducible apply State.settle_keeps kErr kQue kHdg kPut kCop kMap kTop kMcs kChan kEcc kJnp kBox kYew kHly kSys kWr kDrawn kDeliv
    | with_reducible apply State.writePlain_keeps kFlds
    | with_reducible apply State.writeBand_keeps kPwr kWr kFlds
    | with_reducible apply State.pwrDom_keeps kErr kQue kHdg kPut kCop kMap kTop kMcs kChan kEcc kJnp kBox kYew kHly kPwr kSys kWr kDrawn kDeliv
    | dsimp only
    | split
    | intro _

theorem State.writeChCtl_keeps {P : State → Prop} (kErr : KErr P) (kQue : KQue P) (kHdg : KHdg P) (kPut : KPut P) (kCop : KCop P) (kMap : KMap P) (kTop : KTop P) (kMcs : KMcs P) (kChan : KChan P) (kEcc : KEcc P) (kJnp : KJnp P) (kBox : KBox P) (kYew : KYew P) (kHly : KHly P) (kSys : KSys P) (kWr : KWr P) (kDrawn : KDrawn P) (kDeliv : KDeliv P) (kFlds : KFlds P) (s : State) (n v : Nat) (hP : P s) :
 P (State.writeChCtl s n v) := by
  unfold State.writeChCtl
  repeat' first
    | with_reducible assumption
    | exact rfl
    | exact fun _ => ⟨rfl, rfl, rfl⟩
    | with_reducible apply State.climbOn_keeps kErr kTop kMcs kChan kEcc kBox kWr
    | with_reducible apply State.writePlain_keeps kFlds
    | with_reducible apply when_keeps
    | with_reducible apply State.dropHeld_keeps kErr kChan kWr
    | with_reducible apply State.chRst_keeps kErr kQue kHdg kPut kCop kMap kTop kMcs kChan kEcc kJnp kBox kYew kHly kSys kWr kDrawn kDeliv
    | dsimp only
    | split
    | intro _

theorem State.writeHlyCtl_keeps {P : State → Prop} (kErr : KErr P) (kQue : KQue P) (kHdg : KHdg P) (kPut : KPut P) (kForget : KForget P) (kCop : KCop P) (kMap : KMap P) (kTop : KTop P) (kMcs : KMcs P) (kChan : KChan P) (kEcc : KEcc P) (kJnp : KJnp P) (kDma : KDma P) (kBox : KBox P) (kYew : KYew P) (kHly : KHly P) (kPwr : KPwr P) (kSys : KSys P) (kWr : KWr P) (kDrawn : KDrawn P) (kDram : KDram P) (kDeliv : KDeliv P) (s : State) (m : Master) (v : Nat) (hP : P s) :
 P (State.writeHlyCtl s m v) := by
  unfold State.writeHlyCtl
  repeat' first
    | with_reducible assumption
    | exact rfl
    | exact fun _ => ⟨rfl, rfl, rfl⟩
    | with_reducible apply State.hollyCtl_keeps kErr kQue kTop kMcs kChan kEcc kBox kYew kHly kSys kWr
    | with_reducible apply State.wantWarm_keeps kErr kQue kHdg kPut kForget kCop kMap kTop kMcs kChan kEcc kJnp kDma kBox kYew kHly kPwr kSys kWr kDrawn kDram kDeliv
    | with_reducible apply State.hollyRestart_keeps kErr kQue kHly kSys kWr
    | with_reducible apply when_keeps
    | dsimp only
    | split
    | intro _

theorem State.writeMcs_keeps {P : State → Prop} (kErr : KErr P) (kTop : KTop P) (kMcs : KMcs P) (kChan : KChan P) (kEcc : KEcc P) (kBox : KBox P) (kWr : KWr P) (kFlds : KFlds P) (s : State) (addr v : Nat) (hP : P s) :
 P (State.writeMcs s addr v) := by
  unfold State.writeMcs
  repeat' first
    | with_reducible assumption
    | exact rfl
    | exact fun _ => ⟨rfl, rfl, rfl⟩
    | with_reducible apply State.writePlain_keeps kFlds
    | with_reducible apply State.faultClear_keeps kErr kTop kMcs kChan kEcc kBox kWr
    | with_reducible apply State.mcsCtl_keeps kErr kTop kMcs kChan kEcc kBox kWr
    | with_reducible apply State.nanoWrite_keeps kMcs kWr
    | with_reducible apply State.nanoAddr_keeps kWr
    | dsimp only
    | split
    | intro _

theorem State.writeYew_keeps {P : State → Prop} (kYew : KYew P) (kWr : KWr P) (kFlds : KFlds P) (s : State) (m : Master) (addr v : Nat) (hP : P s) :
 P (State.writeYew s m addr v) := by
  unfold State.writeYew
  repeat' first
    | with_reducible assumption
    | exact rfl
    | exact fun _ => ⟨rfl, rfl, rfl⟩
    | with_reducible apply State.writePlain_keeps kFlds
    | with_reducible apply State.yKey_keeps kYew kWr
    | with_reducible apply State.yDataLo_keeps kYew kWr
    | with_reducible apply State.yAddrWrite_keeps kYew kWr
    | with_reducible apply State.yDataHi_keeps kYew kWr
    | with_reducible apply State.yCmd_keeps kYew kWr
    | dsimp only
    | split
    | intro _

theorem State.writeJnp_keeps {P : State → Prop} (kErr : KErr P) (kHdg : KHdg P) (kPut : KPut P) (kJnp : KJnp P) (kYew : KYew P) (kWr : KWr P) (kDrawn : KDrawn P) (kFlds : KFlds P) (s : State) (addr v : Nat) (hP : P s) :
 P (State.writeJnp s addr v) := by
  unfold State.writeJnp
  repeat' first
    | with_reducible assumption
    | exact rfl
    | exact fun _ => ⟨rfl, rfl, rfl⟩
    | with_reducible apply State.jnpTable_keeps kErr kHdg kPut kJnp kWr
    | with_reducible apply State.writePlain_keeps kFlds
    | with_reducible apply State.jnpCkpt_keeps kErr kHdg kPut kJnp kYew kWr kDrawn
    | with_reducible apply State.grpClr_keeps kErr kHdg kPut kJnp kWr kDrawn
    | dsimp only
    | split
    | intro _

theorem State.writeMap_keeps {P : State → Prop} (kErr : KErr P) (kQue : KQue P) (kHdg : KHdg P) (kPut : KPut P) (kCop : KCop P) (kMap : KMap P) (kTop : KTop P) (kMcs : KMcs P) (kChan : KChan P) (kEcc : KEcc P) (kJnp : KJnp P) (kBox : KBox P) (kYew : KYew P) (kHly : KHly P) (kSys : KSys P) (kWr : KWr P) (kDrawn : KDrawn P) (kDeliv : KDeliv P) (kFlds : KFlds P) (s : State) (m : Master) (addr v : Nat) (hP : P s) :
 P (State.writeMap s m addr v) := by
  unfold State.writeMap
  repeat' first
    | with_reducible assumption
    | exact rfl
    | exact fun _ => ⟨rfl, rfl, rfl⟩
    | with_reducible apply State.settle_keeps kErr kQue kHdg kPut kCop kMap kTop kMcs kChan kEcc kJnp kBox kYew kHly kSys kWr kDrawn kDeliv
    | with_reducible apply State.writePlain_keeps kFlds
    | with_reducible apply State.rgnLoad_keeps kErr kQue kHdg kPut kCop kMap kTop kMcs kChan kEcc kJnp kBox kYew kHly kSys kWr kDrawn kDeliv
    | with_reducible apply State.mapCtl?_keeps kErr kQue kHdg kPut kCop kMap kTop kMcs kChan kEcc kJnp kBox kYew kHly kSys kWr kDrawn kDeliv
    | dsimp only
    | split
    | intro _

theorem State.writeDbg_keeps {P : State → Prop} (kWr : KWr P) (kFlds : KFlds P) (kDbgL : KDbgL P) (s : State) (addr v : Nat) (hP : P s) :
 P (State.writeDbg s addr v) := by
  unfold State.writeDbg
  repeat' first
    | with_reducible assumption
    | exact rfl
    | exact fun _ => ⟨rfl, rfl, rfl⟩
    | with_reducible apply State.writePlain_keeps kFlds
    | with_reducible apply State.dbgInjCtl_keeps kWr
    | with_reducible apply kDbgL
    | with_reducible apply State.dbgForce_keeps kWr
    | with_reducible apply State.dbgInjAddr_keeps kWr
    | dsimp only
    | split
    | intro _

theorem State.writeBlock_keeps {P : State → Prop} (kErr : KErr P) (kQue : KQue P) (kHdg : KHdg P) (kPut : KPut P) (kForget : KForget P) (kCop : KCop P) (kMap : KMap P) (kTop : KTop P) (kMcs : KMcs P) (kChan : KChan P) (kEcc : KEcc P) (kJnp : KJnp P) (kDma : KDma P) (kBox : KBox P) (kYew : KYew P) (kHly : KHly P) (kPwr : KPwr P) (kSys : KSys P) (kWr : KWr P) (kDrawn : KDrawn P) (kDram : KDram P) (kDeliv : KDeliv P) (kFlds : KFlds P) (kCeil : KCeil P) (kDbgL : KDbgL P) (s : State) (m : Master) (addr v : Nat) (hP : P s) :
 P (State.writeBlock s m addr v) := by
  unfold State.writeBlock
  repeat' first
    | with_reducible assumption
    | exact rfl
    | exact fun _ => ⟨rfl, rfl, rfl⟩
    | with_reducible apply State.writeSusp_keeps kFlds
    | with_reducible apply State.writeDma_keeps kErr kDma kWr kFlds
    | with_reducible apply State.setQuota_keeps kCop kWr
    | with_reducible apply State.hlyWdog_keeps kHly kWr
    | with_reducible apply State.rebuildStart_keeps kCop kWr
    | with_reducible apply State.errCtl_keeps kWr
    | with_reducible apply State.errHead_keeps kWr
    | with_reducible apply State.writeJnp_keeps kErr kHdg kPut kJnp kYew kWr kDrawn kFlds
    | with_reducible apply State.writeQue_keeps kErr kQue kWr kFlds
    | with_reducible apply State.writePlain_keeps kFlds
    | with_reducible apply State.writeHlyCtl_keeps kErr kQue kHdg kPut kForget kCop kMap kTop kMcs kChan kEcc kJnp kDma kBox kYew kHly kPwr kSys kWr kDrawn kDram kDeliv
    | with_reducible apply State.writeDbg_keeps kWr kFlds kDbgL
    | with_reducible apply State.rgnWrite_keeps kHdg kTop kWr
    | with_reducible apply State.writeBox_keeps kTop kWr kFlds kCeil
    | with_reducible apply State.writeYew_keeps kYew kWr kFlds
    | with_reducible apply State.writePwr_keeps kErr kQue kHdg kPut kCop kMap kTop kMcs kChan kEcc kJnp kBox kYew kHly kPwr kSys kWr kDrawn kDeliv kFlds
    | with_reducible apply State.wantWarm_keeps kErr kQue kHdg kPut kForget kCop kMap kTop kMcs kChan kEcc kJnp kDma kBox kYew kHly kPwr kSys kWr kDrawn kDram kDeliv
    | with_reducible apply State.writeMcs_keeps kErr kTop kMcs kChan kEcc kBox kWr kFlds
    | with_reducible apply when_keeps
    | with_reducible apply State.writeMap_keeps kErr kQue kHdg kPut kCop kMap kTop kMcs kChan kEcc kJnp kBox kYew kHly kSys kWr kDrawn kDeliv kFlds
    | with_reducible apply State.writeChCtl_keeps kErr kQue kHdg kPut kCop kMap kTop kMcs kChan kEcc kJnp kBox kYew kHly kSys kWr kDrawn kDeliv kFlds
    | dsimp only
    | split
    | intro _

theorem State.regWrite_keeps {P : State → Prop} (kErr : KErr P) (kQue : KQue P) (kHdg : KHdg P) (kPut : KPut P) (kForget : KForget P) (kCop : KCop P) (kMap : KMap P) (kTop : KTop P) (kMcs : KMcs P) (kChan : KChan P) (kEcc : KEcc P) (kJnp : KJnp P) (kDma : KDma P) (kBox : KBox P) (kYew : KYew P) (kHly : KHly P) (kPwr : KPwr P) (kSys : KSys P) (kWr : KWr P) (kResp : KResp P) (kDrawn : KDrawn P) (kDram : KDram P) (kDeliv : KDeliv P) (kFlds : KFlds P) (kCeil : KCeil P) (kDbgL : KDbgL P) (s : State) (m : Master) (addr width v : Nat) (hP : P s) :
 P (State.regWrite s m addr width v) := by
  unfold State.regWrite
  repeat' first
    | with_reducible assumption
    | exact rfl
    | exact fun _ => ⟨rfl, rfl, rfl⟩
    | with_reducible apply State.badAccess_keeps kErr kWr kResp
    | with_reducible apply State.writeBlock_keeps kErr kQue kHdg kPut kForget kCop kMap kTop kMcs kChan kEcc kJnp kDma kBox kYew kHly kPwr kSys kWr kDrawn kDram kDeliv kFlds kCeil kDbgL
    | with_reducible apply State.csWrite_keeps kMcs kWr
    | dsimp only
    | split
    | intro _

theorem State.serve_keeps {P : State → Prop} (kErr : KErr P) (kQue : KQue P) (kHdg : KHdg P) (kPut : KPut P) (kForget : KForget P) (kCop : KCop P) (kMap : KMap P) (kTop : KTop P) (kMcs : KMcs P) (kChan : KChan P) (kEcc : KEcc P) (kJnp : KJnp P) (kDma : KDma P) (kBox : KBox P) (kYew : KYew P) (kHly : KHly P) (kPwr : KPwr P) (kSys : KSys P) (kWr : KWr P) (kResp : KResp P) (kDrawn : KDrawn P) (kDram : KDram P) (kDeliv : KDeliv P) (kFlds : KFlds P) (kCeil : KCeil P) (kDbgL : KDbgL P) (s : State) (a : Access1) (hP : P s) :
 P (State.serve s a) := by
  unfold State.serve
  split
  · exact State.regWrite_keeps kErr kQue kHdg kPut kForget kCop kMap kTop kMcs kChan kEcc kJnp kDma kBox kYew kHly kPwr kSys kWr kResp kDrawn kDram kDeliv kFlds kCeil kDbgL _ _ _ _ _ (kResp _ _ hP)
  · exact State.regRead_keeps kErr kWr kResp _ _ _ _ _ (kResp _ _ hP)

theorem State.idleWake_keeps {P : State → Prop} (kErr : KErr P) (kQue : KQue P) (kHdg : KHdg P) (kPut : KPut P) (kForget : KForget P) (kCop : KCop P) (kMap : KMap P) (kTop : KTop P) (kMcs : KMcs P) (kChan : KChan P) (kEcc : KEcc P) (kJnp : KJnp P) (kDma : KDma P) (kBox : KBox P) (kYew : KYew P) (kHly : KHly P) (kPwr : KPwr P) (kSys : KSys P) (kWr : KWr P) (kResp : KResp P) (kDrawn : KDrawn P) (kDram : KDram P) (kDeliv : KDeliv P) (kFlds : KFlds P) (kCeil : KCeil P) (kDbgL : KDbgL P) (s : State) (hP : P s) :
 P (State.idleWake s) := by
  unfold State.idleWake
  repeat' first
    | with_reducible assumption
    | exact rfl
    | exact fun _ => ⟨rfl, rfl, rfl⟩
    | with_reducible apply kPwr
    | with_reducible apply each_keeps
    | with_reducible apply State.lapFlip_keeps kHdg
    | with_reducible apply State.serve_keeps kErr kQue kHdg kPut kForget kCop kMap kTop kMcs kChan kEcc kJnp kDma kBox kYew kHly kPwr kSys kWr kResp kDrawn kDram kDeliv kFlds kCeil kDbgL
    | with_reducible apply State.holdBegin_keeps kErr kQue kHdg kPut kCop kMap kTop kMcs kChan kEcc kJnp kBox kYew kHly kPwr kSys kWr kDrawn kDeliv
    | with_reducible apply when_keeps
    | dsimp only
    | split
    | intro _

theorem execRcRegisterRead_keeps {P : State → Prop} (kErr : KErr P) (kPwr : KPwr P) (kWr : KWr P) (kResp : KResp P) (m : Master) (addr width : Nat) (s : State) (hP : P s) :
    Out.All P (execRcRegisterRead m addr width s) := by
  unfold execRcRegisterRead
  repeat' first
    | with_reducible apply Out.all_next
    | exact trivial
    | with_reducible assumption
    | exact rfl
    | exact fun _ => ⟨rfl, rfl, rfl⟩
    | with_reducible apply State.regRead_keeps kErr kWr kResp
    | with_reducible apply State.access_keeps kPwr kResp
    | dsimp only
    | split
    | intro _

theorem execRegisterWrite_keeps {P : State → Prop} (kErr : KErr P) (kQue : KQue P) (kHdg : KHdg P) (kPut : KPut P) (kForget : KForget P) (kCop : KCop P) (kMap : KMap P) (kTop : KTop P) (kMcs : KMcs P) (kChan : KChan P) (kEcc : KEcc P) (kJnp : KJnp P) (kDma : KDma P) (kBox : KBox P) (kYew : KYew P) (kHly : KHly P) (kPwr : KPwr P) (kSys : KSys P) (kWr : KWr P) (kResp : KResp P) (kDrawn : KDrawn P) (kDram : KDram P) (kDeliv : KDeliv P) (kFlds : KFlds P) (kCeil : KCeil P) (kDbgL : KDbgL P) (m : Master) (addr width : Nat) (v : W32) (s : State) (hP : P s) :
    Out.All P (execRegisterWrite m addr width v s) := by
  unfold execRegisterWrite
  repeat' first
    | with_reducible apply Out.all_next
    | exact trivial
    | with_reducible assumption
    | exact rfl
    | exact fun _ => ⟨rfl, rfl, rfl⟩
    | with_reducible apply State.regWrite_keeps kErr kQue kHdg kPut kForget kCop kMap kTop kMcs kChan kEcc kJnp kDma kBox kYew kHly kPwr kSys kWr kResp kDrawn kDram kDeliv kFlds kCeil kDbgL
    | with_reducible apply State.accessWake_keeps kPwr kResp
    | with_reducible apply State.access_keeps kPwr kResp
    | dsimp only
    | split
    | intro _

theorem execIdleWake_keeps {P : State → Prop} (kErr : KErr P) (kQue : KQue P) (kHdg : KHdg P) (kPut : KPut P) (kForget : KForget P) (kCop : KCop P) (kMap : KMap P) (kTop : KTop P) (kMcs : KMcs P) (kChan : KChan P) (kEcc : KEcc P) (kJnp : KJnp P) (kDma : KDma P) (kBox : KBox P) (kYew : KYew P) (kHly : KHly P) (kPwr : KPwr P) (kSys : KSys P) (kWr : KWr P) (kResp : KResp P) (kDrawn : KDrawn P) (kDram : KDram P) (kDeliv : KDeliv P) (kFlds : KFlds P) (kCeil : KCeil P) (kDbgL : KDbgL P) (s : State) (hP : P s) :
    Out.All P (execIdleWake s) := by
  unfold execIdleWake
  repeat' first
    | with_reducible apply Out.all_next
    | exact trivial
    | with_reducible assumption
    | exact rfl
    | exact fun _ => ⟨rfl, rfl, rfl⟩
    | with_reducible apply State.idleWake_keeps kErr kQue kHdg kPut kForget kCop kMap kTop kMcs kChan kEcc kJnp kDma kBox kYew kHly kPwr kSys kWr kResp kDrawn kDram kDeliv kFlds kCeil kDbgL
    | dsimp only
    | split
    | intro _

end Sys2Proof.Machine
end

