-- ==== Sys2Proof/Laws/KeepsResets.lean ====
section
/-!
SUPPORT. What the operations of Machine/Resets.lean can do: each one keeps every property of a state that its own primitive
updates keep. The hypotheses of a lemma name every unit the operation can reach.
-/
namespace Sys2Proof.Machine

theorem State.warmJournal_keeps {P : State → Prop} (kYew : KYew P) (s : State) (hP : P s) :
 P (State.warmJournal s) := by
  unfold State.warmJournal
  repeat' first
    | with_reducible assumption
    | exact rfl
    | exact fun _ => ⟨rfl, rfl, rfl⟩
    | with_reducible apply State.jNow_keeps kYew
    | with_reducible apply each_keeps
    | dsimp only
    | split
    | intro _

theorem State.gatherAgain_keeps {P : State → Prop} (kTop : KTop P) (kWr : KWr P) (s : State) (hP : P s) :
 P (State.gatherAgain s) := by
  unfold State.gatherAgain
  repeat' first
    | with_reducible assumption
    | exact rfl
    | exact fun _ => ⟨rfl, rfl, rfl⟩
    | with_reducible apply kTop
    | with_reducible apply State.forceOne_keeps kTop kWr
    | with_reducible apply each_keeps
    | dsimp only
    | split
    | intro _

theorem Reg.warm_not_lock : (Reg.all.all fun F => F.warm.isNone || !(F.acc == Access.lock)) = true := by decide +kernel

theorem State.warmRegs_keeps {P : State → Prop} (kHdg : KHdg P) (kTop : KTop P) (kWr : KWr P) (s : State) (hP : P s) :
 P (State.warmRegs s) := by
  unfold State.warmRegs
  refine each_keeps _ _ _ (fun s c _ h => State.dropLease_keeps kTop kWr _ _ _ (kHdg _ _ (fun _ => ⟨rfl, rfl, rfl⟩) h)) ?_
  exact State.relive_keeps kTop kWr _ _ (State.toWarm_keeps kWr _ _ hP Reg.warm_not_lock) (fun _ h => h)

theorem State.warmFifos_keeps {P : State → Prop} (kQue : KQue P) (kMcs : KMcs P) (kChan : KChan P) (kDma : KDma P) (s : State) (hP : P s) :
 P (State.warmFifos s) := by
  unfold State.warmFifos
  repeat' first
    | with_reducible assumption
    | exact rfl
    | exact fun _ => ⟨rfl, rfl, rfl⟩
    | exact fun _ => rfl
    | with_reducible apply onDmaCh_same kDma
    | exact fun _ => Nat.zero_le _
    | exact fun _ => List.length_filter_le _ _
    | exact Nat.le_refl _
    | exact Nat.zero_le _
    | exact List.length_filter_le _ _
    | with_reducible apply State.pairSettle_keeps kQue
    | with_reducible apply each_keeps
    | with_reducible apply kChan
    | with_reducible apply KQue.same kQue
    | with_reducible apply kMcs
    | dsimp only
    | split
    | intro _

theorem State.warmEnd_keeps {P : State → Prop} (kErr : KErr P) (kQue : KQue P) (kHdg : KHdg P) (kPut : KPut P) (kCop : KCop P) (kMap : KMap P) (kTop : KTop P) (kMcs : KMcs P) (kChan : KChan P) (kEcc : KEcc P) (kJnp : KJnp P) (kBox : KBox P) (kYew : KYew P) (kHly : KHly P) (kPwr : KPwr P) (kSys : KSys P) (kWr : KWr P) (kDrawn : KDrawn P) (kDeliv : KDeliv P) (s : State) (cause : Nat) (hP : P s) :
 P (State.warmEnd s cause) := by
  unfold State.warmEnd
  repeat' first
    | with_reducible assumption
    | exact rfl
    | exact fun _ => ⟨rfl, rfl, rfl⟩
    | with_reducible apply each_keeps
    | with_reducible apply State.kickAll_keeps kErr kTop kMcs kChan kEcc kBox kWr
    | with_reducible apply kSys
    | with_reducible apply State.err1_keeps kErr kWr
    | with_reducible apply State.settle_keeps kErr kQue kHdg kPut kCop kMap kTop kMcs kChan kEcc kJnp kBox kYew kHly kSys kWr kDrawn kDeliv
    | with_reducible apply State.holdBegin_keeps kErr kQue kHdg kPut kCop kMap kTop kMcs kChan kEcc kJnp kBox kYew kHly kPwr kSys kWr kDrawn kDeliv
    | with_reducible apply when_keeps
    | with_reducible apply State.chRst_keeps kErr kQue kHdg kPut kCop kMap kTop kMcs kChan kEcc kJnp kBox kYew kHly kSys kWr kDrawn kDeliv
    | with_reducible apply kWr
    | with_reducible apply State.hollyGo_keeps kHly kWr
    | dsimp only
    | split
    | intro _

theorem State.warmFinish_keeps {P : State → Prop} (kErr : KErr P) (kQue : KQue P) (kHdg : KHdg P) (kPut : KPut P) (kCop : KCop P) (kMap : KMap P) (kTop : KTop P) (kMcs : KMcs P) (kChan : KChan P) (kEcc : KEcc P) (kJnp : KJnp P) (kDma : KDma P) (kBox : KBox P) (kYew : KYew P) (kHly : KHly P) (kPwr : KPwr P) (kSys : KSys P) (kWr : KWr P) (kDrawn : KDrawn P) (kDeliv : KDeliv P) (s : State) (cause : Nat) (hP : P s) :
 P (State.warmFinish s cause) := by
  unfold State.warmFinish
  repeat' first
    | with_reducible assumption
    | exact rfl
    | exact fun _ => ⟨rfl, rfl, rfl⟩
    | with_reducible apply State.gatherAgain_keeps kTop kWr
    | with_reducible apply State.warmRegs_keeps kHdg kTop kWr
    | with_reducible apply State.warmJournal_keeps kYew
    | with_reducible apply State.warmFifos_keeps kQue kMcs kChan kDma
    | with_reducible apply State.warmEnd_keeps kErr kQue kHdg kPut kCop kMap kTop kMcs kChan kEcc kJnp kBox kYew kHly kPwr kSys kWr kDrawn kDeliv
    | dsimp only
    | split
    | intro _

theorem State.invLoad_keeps {P : State → Prop} (kTop : KTop P) (kSys : KSys P) (s : State) (l : List Byte) (hP : P s) :
 P (State.invLoad s l) := by
  unfold State.invLoad
  repeat' first
    | with_reducible assumption
    | exact rfl
    | exact fun _ => ⟨rfl, rfl, rfl⟩
    | with_reducible apply each_keeps
    | with_reducible apply kSys
    | with_reducible apply kTop
    | with_reducible apply when_keeps
    | dsimp only
    | split
    | intro _

theorem State.invNumbers_keeps {P : State → Prop} (kJnp : KJnp P) (s : State) (hP : P s) :
 P (State.invNumbers s) := by
  unfold State.invNumbers
  repeat' first
    | with_reducible assumption
    | exact rfl
    | exact fun _ => ⟨rfl, rfl, rfl⟩
    | with_reducible apply kJnp
    | with_reducible apply foldl_keeps
    | with_reducible apply foldl2_keeps
    | with_reducible apply foldl3_keeps
    | dsimp only
    | split
    | intro _

theorem State.coldYew_keeps {P : State → Prop} (kQue : KQue P) (kMap : KMap P) (kTop : KTop P) (kJnp : KJnp P) (kYew : KYew P) (kSys : KSys P) (kWr : KWr P) (s : State) (hP : P s) :
 P (State.coldYew s) := by
  unfold State.coldYew
  repeat' first
    | with_reducible assumption
    | exact rfl
    | exact fun _ => ⟨rfl, rfl, rfl⟩
    | with_reducible apply State.jDecide_keeps kQue kMap kSys kWr
    | with_reducible apply kSys
    | with_reducible apply State.invNumbers_keeps kJnp
    | with_reducible apply State.invLoad_keeps kTop kSys
    | with_reducible apply State.jScan_keeps kYew
    | with_reducible apply when_keeps
    | dsimp only
    | split
    | intro _

theorem State.coldReset_keeps {P : State → Prop} (kQue : KQue P) (kWipe : KWipe P) (kMap : KMap P) (kTop : KTop P) (kJnp : KJnp P) (kYew : KYew P) (kPwr : KPwr P) (kSys : KSys P) (kWr : KWr P) (s : State) (r : ColdIn) (hP : P s) :
 P (State.coldReset s r) := by
  unfold State.coldReset
  repeat' first
    | with_reducible assumption
    | exact rfl
    | exact fun _ => ⟨rfl, rfl, rfl⟩
    | with_reducible apply kPwr
    | with_reducible apply each_keeps
    | with_reducible apply kWipe
    | with_reducible apply State.coldYew_keeps kQue kMap kTop kJnp kYew kSys kWr
    | with_reducible apply State.stagger_keeps kPwr
    | with_reducible apply State.pwrGood_keeps kTop kJnp kSys kWr
    | with_reducible apply State.setb_keeps kWr
    | with_reducible apply when_keeps
    | with_reducible apply kWr
    | dsimp only
    | split
    | intro _

theorem execWarmResetDrainDone_keeps {P : State → Prop} (kErr : KErr P) (kQue : KQue P) (kHdg : KHdg P) (kPut : KPut P) (kCop : KCop P) (kMap : KMap P) (kTop : KTop P) (kMcs : KMcs P) (kChan : KChan P) (kEcc : KEcc P) (kJnp : KJnp P) (kDma : KDma P) (kBox : KBox P) (kYew : KYew P) (kHly : KHly P) (kPwr : KPwr P) (kSys : KSys P) (kWr : KWr P) (kDrawn : KDrawn P) (kDeliv : KDeliv P) (s : State) (hP : P s) :
    Out.All P (execWarmResetDrainDone s) := by
  unfold execWarmResetDrainDone
  repeat' first
    | with_reducible apply Out.all_next
    | exact trivial
    | with_reducible assumption
    | exact rfl
    | exact fun _ => ⟨rfl, rfl, rfl⟩
    | with_reducible apply State.warmFinish_keeps kErr kQue kHdg kPut kCop kMap kTop kMcs kChan kEcc kJnp kDma kBox kYew kHly kPwr kSys kWr kDrawn kDeliv
    | dsimp only
    | split
    | intro _

theorem execChannelReset_keeps {P : State → Prop} (kErr : KErr P) (kQue : KQue P) (kHdg : KHdg P) (kPut : KPut P) (kCop : KCop P) (kMap : KMap P) (kTop : KTop P) (kMcs : KMcs P) (kChan : KChan P) (kEcc : KEcc P) (kJnp : KJnp P) (kBox : KBox P) (kYew : KYew P) (kHly : KHly P) (kPwr : KPwr P) (kSys : KSys P) (kWr : KWr P) (kResp : KResp P) (kDrawn : KDrawn P) (kDeliv : KDeliv P) (m : Master) (ch : Fin 8) (s : State) (hP : P s) :
    Out.All P (execChannelReset m ch s) := by
  unfold execChannelReset
  repeat' first
    | with_reducible apply Out.all_next
    | exact trivial
    | with_reducible assumption
    | exact rfl
    | exact fun _ => ⟨rfl, rfl, rfl⟩
    | with_reducible apply State.chRst_keeps kErr kQue kHdg kPut kCop kMap kTop kMcs kChan kEcc kJnp kBox kYew kHly kSys kWr kDrawn kDeliv
    | with_reducible apply State.access_keeps kPwr kResp
    | dsimp only
    | split
    | intro _

theorem execLossOfPower_keeps {P : State → Prop} (kWipe : KWipe P) (kPwr : KPwr P) (s : State) (hP : P s) :
    Out.All P (execLossOfPower s) := by
  unfold execLossOfPower
  repeat' first
    | with_reducible apply Out.all_next
    | exact trivial
    | with_reducible assumption
    | exact rfl
    | exact fun _ => ⟨rfl, rfl, rfl⟩
    | with_reducible apply kPwr
    | with_reducible apply kWipe
    | dsimp only
    | split
    | intro _

theorem execColdReset_keeps {P : State → Prop} (kQue : KQue P) (kWipe : KWipe P) (kMap : KMap P) (kTop : KTop P) (kJnp : KJnp P) (kYew : KYew P) (kPwr : KPwr P) (kSys : KSys P) (kWr : KWr P) (r : ColdIn) (s : State) (hP : P s) :
    Out.All P (execColdReset r s) := by
  unfold execColdReset
  repeat' first
    | with_reducible apply Out.all_next
    | exact trivial
    | with_reducible assumption
    | exact rfl
    | exact fun _ => ⟨rfl, rfl, rfl⟩
    | with_reducible apply State.coldReset_keeps kQue kWipe kMap kTop kJnp kYew kPwr kSys kWr
    | dsimp only
    | split
    | intro _

end Sys2Proof.Machine
end

