-- ==== Sys2Proof/Laws/Exec.lean ====
section
/-!
SUPPORT. What any command can do, said once: it keeps every property that the primitive updates keep.
-/
namespace Sys2Proof.Machine

/-- Every command but COLD_RESET and LOSS_OF_POWER keeps what every primitive update but the loss of everything keeps. -/
theorem exec_keeps_warm {P : State → Prop} (kErr : KErr P) (kQue : KQue P) (kHdg : KHdg P) (kPut : KPut P)
    (kClear : KClear P) (kForget : KForget P) (kLost : KLost P) (kCop : KCop P) (kMap : KMap P) (kTop : KTop
    P) (kMcs : KMcs P) (kChan : KChan P) (kEcc : KEcc P) (kJnp : KJnp P) (kDma : KDma P) (kBox : KBox P) (kYew
    : KYew P) (kHly : KHly P) (kPwr : KPwr P) (kSys : KSys P) (kWr : KWr P) (kResp : KResp P) (kDrawn : KDrawn
    P) (kDram : KDram P) (kDeliv : KDeliv P) (kFlds : KFlds P) (kCeil : KCeil P) (kDbgL : KDbgL P) (c : Instr)
    (s : State) (hC : ∀ r, c ≠ .coldReset r) (hL : c ≠ .lossOfPower) (hP : P s) : Out.All P (exec c s) := by
  cases c with
  | registerWrite a0 a1 a2 a3 => exact execRegisterWrite_keeps kErr kQue kHdg kPut kForget kCop kMap kTop kMcs kChan kEcc kJnp kDma kBox kYew kHly kPwr kSys kWr kResp kDrawn kDram kDeliv kFlds kCeil kDbgL a0 a1 a2 a3 s hP
  | queDoorbellSqtail a0 a1 a2 => exact execQueDoorbellSqtail_keeps kErr kQue kPwr kWr kResp a0 a1 a2 s hP
  | queDoorbellCqhead a0 a1 a2 => exact execQueDoorbellCqhead_keeps kErr kQue kPwr kWr kResp a0 a1 a2 s hP
  | queEnable a0 a1 a2 => exact execQueEnable_keeps kQue kPwr kWr kResp a0 a1 a2 s hP
  | queDisable a0 a1 a2 => exact execQueDisable_keeps kQue kPwr kWr kResp a0 a1 a2 s hP
  | packetFetch => exact execPacketFetch_keeps kErr kQue kSys kWr kDrawn  s hP
  | read a0 => exact execRead_keeps kErr kQue kHdg kPut kCop kMap kTop kMcs kChan kEcc kJnp kBox kYew kHly kSys kWr kDrawn kDeliv a0 s hP
  | readRaw a0 => exact execReadRaw_keeps kErr kQue kHdg kPut kCop kMap kTop kMcs kChan kEcc kJnp kBox kYew kHly kSys kWr kDrawn kDeliv a0 s hP
  | program a0 a1 => exact execProgram_keeps kErr kQue kHdg kPut kCop kMap kTop kMcs kChan kEcc kJnp kBox kYew kHly kSys kWr kDrawn kDeliv a0 a1 s hP
  | programAtomic a0 a1 => exact execProgramAtomic_keeps kErr kQue kHdg kPut kCop kMap kTop kMcs kChan kEcc kJnp kBox kYew kHly kSys kWr kDrawn kDeliv a0 a1 s hP
  | erase a0 => exact execErase_keeps kQue kTop kSys kWr a0 s hP
  | copy a0 a1 => exact execCopy_keeps kErr kQue kHdg kPut kCop kMap kTop kMcs kChan kEcc kJnp kBox kYew kHly kSys kWr kDrawn kDeliv a0 a1 s hP
  | trim a0 => exact execTrim_keeps kErr kQue kHdg kPut kCop kMap kTop kMcs kChan kEcc kJnp kBox kYew kHly kSys kWr kDrawn kDeliv a0 s hP
  | flush a0 => exact execFlush_keeps kErr kQue kHdg kPut kCop kMap kTop kMcs kChan kEcc kJnp kBox kYew kHly kSys kWr kDrawn kDeliv a0 s hP
  | bufAlloc a0 => exact execBufAlloc_keeps kQue kCop kSys kWr a0 s hP
  | bufShare a0 => exact execBufShare_keeps kErr kQue kCop kSys kWr kDrawn a0 s hP
  | bufFree a0 => exact execBufFree_keeps kErr kQue kHdg kPut kCop kSys kWr kDrawn a0 s hP
  | dmaMove a0 => exact execDmaMove_keeps kErr kQue kDma kSys kWr kDrawn a0 s hP
  | mapPin a0 => exact execMapPin_keeps kErr kQue kHdg kPut kCop kMap kTop kMcs kChan kEcc kJnp kBox kYew kHly kSys kWr kDrawn kDeliv a0 s hP
  | mapSync a0 => exact execMapSync_keeps kErr kQue kHdg kPut kCop kMap kTop kMcs kChan kEcc kJnp kBox kYew kHly kSys kWr kDrawn kDeliv a0 s hP
  | scrubStore a0 => exact execScrubStore_keeps kQue kTop kHly kSys kWr a0 s hP
  | patrol a0 => exact execPatrol_keeps kQue kTop kHly kSys kWr a0 s hP
  | train a0 => exact execTrain_keeps kQue kTop kHly kSys kWr a0 s hP
  | calib a0 => exact execCalib_keeps kQue kTop kHly kSys kWr a0 s hP
  | zqcal a0 => exact execZqcal_keeps kQue kTop kHly kSys kWr a0 s hP
  | selftestStore a0 => exact execSelftestStore_keeps kQue kTop kHly kSys kWr a0 s hP
  | selftestChannel a0 => exact execSelftestChannel_keeps kQue kTop kHly kSys kWr a0 s hP
  | powerActive a0 => exact execPowerActive_keeps kQue kPwr kSys kWr a0 s hP
  | powerNap a0 => exact execPowerNap_keeps kQue kPwr kSys kWr a0 s hP
  | powerDormant a0 => exact execPowerDormant_keeps kQue kPwr kSys kWr a0 s hP
  | abort a0 => exact execAbort_keeps kErr kQue kHdg kPut kForget kCop kMap kTop kMcs kChan kEcc kJnp kDma kBox kYew kHly kPwr kSys kWr kDrawn kDram kDeliv a0 s hP
  | attach a0 => exact execAttach_keeps kQue kCop kHly kSys kWr a0 s hP
  | detach a0 => exact execDetach_keeps kErr kQue kHdg kPut kForget kCop kMap kTop kMcs kChan kEcc kJnp kDma kBox kYew kHly kPwr kSys kWr kDrawn kDram kDeliv a0 s hP
  | discover a0 => exact execDiscover_keeps kQue kTop kHly kSys kWr a0 s hP
  | setPolicy a0 => exact execSetPolicy_keeps kQue kTop kYew kHly kSys kWr a0 s hP
  | getInfoIdentity a0 => exact execGetInfoIdentity_keeps kErr kQue kHdg kPut kHly kSys kWr a0 s hP
  | getInfoInventory a0 => exact execGetInfoInventory_keeps kErr kQue kHdg kPut kHly kSys kWr a0 s hP
  | getInfoTorn a0 => exact execGetInfoTorn_keeps kErr kQue kHdg kPut kHly kSys kWr a0 s hP
  | getInfoHealth a0 => exact execGetInfoHealth_keeps kErr kQue kHdg kPut kJnp kHly kSys kWr kDrawn a0 s hP
  | getInfoEnergy a0 => exact execGetInfoEnergy_keeps kErr kQue kHdg kPut kHly kSys kWr a0 s hP
  | getInfoPolicy a0 => exact execGetInfoPolicy_keeps kErr kQue kHdg kPut kHly kSys kWr a0 s hP
  | getInfoParked a0 => exact execGetInfoParked_keeps kErr kQue kHdg kPut kHly kSys kWr a0 s hP
  | activateHolly a0 => exact execActivateHolly_keeps kQue kHly kSys kWr a0 s hP
  | activateEspalier a0 => exact execActivateEspalier_keeps kQue kHly kSys kWr a0 s hP
  | completionRequestGrant => exact execCompletionRequestGrant_keeps kQue kDma kWr  s hP
  | completionRecordWrite => exact execCompletionRecordWrite_keeps kErr kQue kHdg kPut kLost kCop kMap kTop kMcs kChan kEcc kJnp kBox kHly kPwr kSys kWr kDram  s hP
  | fifoPointerMismatch a0 a1 => exact execFifoPointerMismatch_keeps kErr kQue kHdg kPut kCop kMap kTop kMcs kChan kEcc kJnp kDma kBox kYew kHly kSys kWr kDrawn kDeliv a0 a1 s hP
  | mapPageReadDone a0 => exact execMapPageReadDone_keeps kErr kQue kHdg kPut kCop kMap kTop kMcs kChan kEcc kJnp kBox kYew kHly kSys kWr kDrawn kDeliv a0 s hP
  | mapPageZeroFillDone a0 => exact execMapPageZeroFillDone_keeps kErr kQue kHdg kPut kCop kMap kTop kMcs kChan kEcc kJnp kBox kYew kHly kSys kWr kDrawn kDeliv a0 s hP
  | mapPageInstall a0 a1 => exact execMapPageInstall_keeps kErr kQue kHdg kPut kCop kMap kTop kMcs kChan kEcc kJnp kBox kYew kHly kSys kWr kDrawn kDeliv a0 a1 s hP
  | mapWritebackStart a0 a1 => exact execMapWritebackStart_keeps kErr kMap kTop kPwr kWr kDrawn a0 a1 s hP
  | mapWritebackDone a0 => exact execMapWritebackDone_keeps kErr kQue kHdg kPut kCop kMap kTop kMcs kChan kEcc kJnp kBox kYew kHly kSys kWr kDrawn kDeliv a0 s hP
  | mapRegionLoad a0 a1 => exact execMapRegionLoad_keeps kErr kQue kHdg kPut kCop kMap kTop kMcs kChan kEcc kJnp kBox kYew kHly kPwr kSys kWr kResp kDrawn kDeliv a0 a1 s hP
  | mapEnableRequest a0 => exact execMapEnableRequest_keeps kErr kQue kHdg kPut kCop kMap kTop kMcs kChan kEcc kJnp kBox kYew kHly kPwr kSys kWr kResp kDrawn kDeliv a0 s hP
  | mapEnableSet a0 a1 => exact execMapEnableSet_keeps kErr kQue kHdg kPut kCop kMap kTop kMcs kChan kEcc kJnp kBox kYew kHly kPwr kSys kWr kResp kDrawn kDeliv a0 a1 s hP
  | opStart a0 => exact execOpStart_keeps kErr kQue kHdg kPut kCop kMap kTop kMcs kChan kEcc kJnp kBox kYew kHly kSys kWr kDrawn kDeliv a0 s hP
  | tokenEvaluate => exact execTokenEvaluate_keeps kErr kQue kHdg kPut kCop kMap kTop kMcs kChan kEcc kJnp kBox kYew kHly kSys kWr kDrawn kDeliv  s hP
  | tokenAnswer a0 => exact execTokenAnswer_keeps kErr kQue kHdg kPut kCop kMap kTop kMcs kChan kEcc kJnp kBox kYew kHly kSys kWr kDrawn kDeliv a0 s hP
  | statusPollDue a0 => exact execStatusPollDue_keeps kErr kTop kMcs kChan kEcc kBox kWr a0 s hP
  | gatherTimeout a0 => exact execGatherTimeout_keeps kTop kWr a0 s hP
  | writeAgeExpiry a0 => exact execWriteAgeExpiry_keeps kTop a0 s hP
  | maintAgeExpiry a0 => exact execMaintAgeExpiry_keeps kTop a0 s hP
  | busAgeExpiry a0 a1 => exact execBusAgeExpiry_keeps kTop kMcs a0 a1 s hP
  | tokenAgeExpiry a0 => exact execTokenAgeExpiry_keeps kTop a0 s hP
  | suspendStart a0 => exact execSuspendStart_keeps kErr kTop kMcs kChan kEcc kBox kWr a0 s hP
  | resumeDue a0 => exact execResumeDue_keeps kTop kBox a0 s hP
  | suspendWindowExpiry a0 => exact execSuspendWindowExpiry_keeps kTop kBox a0 s hP
  | arrayWatchdogExpiry a0 => exact execArrayWatchdogExpiry_keeps kErr kQue kHdg kPut kCop kMap kTop kMcs kChan kEcc kJnp kBox kYew kHly kSys kWr kDrawn kDeliv a0 s hP
  | leaseGrant a0 => exact execLeaseGrant_keeps kErr kQue kHdg kPut kCop kMap kTop kMcs kChan kEcc kJnp kBox kYew kHly kSys kWr kDrawn kDeliv a0 s hP
  | lunRetirementEffect a0 => exact execLunRetirementEffect_keeps kErr kQue kHdg kPut kCop kMap kTop kMcs kChan kEcc kJnp kBox kYew kHly kSys kWr kDrawn kDeliv a0 s hP
  | nop a0 => exact execNop_keeps kErr kQue kHdg kPut kCop kMap kTop kMcs kChan kEcc kJnp kBox kYew kHly kPwr kSys kWr kDrawn kDeliv a0 s hP
  | endOp a0 => exact execEndOp_keeps kErr kQue kHdg kPut kCop kMap kTop kMcs kChan kEcc kJnp kBox kYew kHly kPwr kSys kWr kDrawn kDeliv a0 s hP
  | trap a0 => exact execTrap_keeps kErr kQue kHdg kPut kCop kMap kTop kMcs kChan kEcc kJnp kBox kYew kHly kPwr kSys kWr kDrawn kDeliv a0 s hP
  | setim a0 => exact execSetim_keeps kErr kQue kHdg kPut kCop kMap kTop kMcs kChan kEcc kJnp kBox kYew kHly kPwr kSys kWr kDrawn kDeliv a0 s hP
  | ce a0 => exact execCe_keeps kErr kQue kHdg kPut kCop kMap kTop kMcs kChan kEcc kJnp kBox kYew kHly kPwr kSys kWr kDrawn kDeliv a0 s hP
  | cmd a0 => exact execCmd_keeps kErr kQue kHdg kPut kCop kMap kTop kMcs kChan kEcc kJnp kBox kYew kHly kPwr kSys kWr kDrawn kDeliv a0 s hP
  | addr a0 => exact execAddr_keeps kErr kQue kHdg kPut kCop kMap kTop kMcs kChan kEcc kJnp kBox kYew kHly kPwr kSys kWr kDrawn kDeliv a0 s hP
  | lda a0 => exact execLda_keeps kErr kQue kHdg kPut kCop kMap kTop kMcs kChan kEcc kJnp kBox kYew kHly kPwr kSys kWr kDrawn kDeliv a0 s hP
  | wait a0 => exact execWait_keeps kErr kQue kHdg kPut kCop kMap kTop kMcs kChan kEcc kJnp kBox kYew kHly kPwr kSys kWr kDrawn kDeliv a0 s hP
  | burst a0 a1 => exact execBurst_keeps kErr kQue kHdg kPut kCop kMap kTop kMcs kChan kEcc kJnp kBox kYew kHly kPwr kSys kWr kDrawn kDeliv a0 a1 s hP
  | rdb a0 a1 => exact execRdb_keeps kErr kQue kHdg kPut kCop kMap kTop kMcs kChan kEcc kJnp kBox kYew kHly kPwr kSys kWr kDrawn kDeliv a0 a1 s hP
  | wrb a0 => exact execWrb_keeps kErr kQue kHdg kPut kCop kMap kTop kMcs kChan kEcc kJnp kBox kYew kHly kPwr kSys kWr kDrawn kDeliv a0 s hP
  | pin a0 => exact execPin_keeps kErr kQue kHdg kPut kCop kMap kTop kMcs kChan kEcc kJnp kBox kYew kHly kPwr kSys kWr kDrawn kDeliv a0 s hP
  | post a0 => exact execPost_keeps kErr kQue kHdg kPut kCop kMap kTop kMcs kChan kEcc kJnp kBox kYew kHly kPwr kSys kWr kDrawn kDeliv a0 s hP
  | br a0 a1 => exact execBr_keeps kErr kQue kHdg kPut kCop kMap kTop kMcs kChan kEcc kJnp kBox kYew kHly kPwr kSys kWr kDrawn kDeliv a0 a1 s hP
  | call a0 a1 => exact execCall_keeps kErr kQue kHdg kPut kCop kMap kTop kMcs kChan kEcc kJnp kBox kYew kHly kPwr kSys kWr kDrawn kDeliv a0 a1 s hP
  | ret a0 a1 => exact execRet_keeps kErr kQue kHdg kPut kCop kMap kTop kMcs kChan kEcc kJnp kBox kYew kHly kPwr kSys kWr kDrawn kDeliv a0 a1 s hP
  | djnz a0 => exact execDjnz_keeps kErr kQue kHdg kPut kCop kMap kTop kMcs kChan kEcc kJnp kBox kYew kHly kPwr kSys kWr kDrawn kDeliv a0 s hP
  | ldi a0 => exact execLdi_keeps kErr kQue kHdg kPut kCop kMap kTop kMcs kChan kEcc kJnp kBox kYew kHly kPwr kSys kWr kDrawn kDeliv a0 s hP
  | alu a0 => exact execAlu_keeps kErr kQue kHdg kPut kCop kMap kTop kMcs kChan kEcc kJnp kBox kYew kHly kPwr kSys kWr kDrawn kDeliv a0 s hP
  | movs a0 => exact execMovs_keeps kErr kQue kHdg kPut kCop kMap kTop kMcs kChan kEcc kJnp kBox kYew kHly kPwr kSys kWr kDrawn kDeliv a0 s hP
  | twolevelMicroword a0 a1 => exact execTwolevelMicroword_keeps kErr kQue kHdg kPut kCop kMap kTop kMcs kChan kEcc kJnp kBox kYew kHly kPwr kSys kWr kDrawn kDeliv a0 a1 s hP
  | segmentWatchdogExpiry a0 => exact execSegmentWatchdogExpiry_keeps kErr kQue kHdg kPut kCop kMap kTop kMcs kChan kEcc kJnp kBox kYew kHly kPwr kSys kWr kDrawn kDeliv a0 s hP
  | mcsFaultClear a0 a1 a2 => exact execMcsFaultClear_keeps kErr kTop kMcs kChan kEcc kBox kPwr kWr kResp a0 a1 a2 s hP
  | mcsLoadEn a0 a1 => exact execMcsLoadEn_keeps kErr kTop kMcs kChan kEcc kBox kPwr kWr kResp a0 a1 s hP
  | csWindowWrite a0 a1 a2 => exact execCsWindowWrite_keeps kErr kMcs kPwr kWr kResp a0 a1 a2 s hP
  | nanoAddrWrite a0 a1 => exact execNanoAddrWrite_keeps kPwr kWr kResp a0 a1 s hP
  | nanoCommit a0 a1 => exact execNanoCommit_keeps kMcs kPwr kWr kResp a0 a1 s hP
  | espalierLoadDone => exact execEspalierLoadDone_keeps kErr kQue kHdg kPut kCop kMap kTop kMcs kChan kEcc kJnp kBox kYew kHly kPwr kSys kWr  s hP
  | cherrDllUnlock a0 => exact execCherrDllUnlock_keeps kErr kQue kHdg kPut kCop kMap kTop kMcs kChan kEcc kJnp kBox kYew kHly kPwr kSys kWr kDrawn kDeliv a0 s hP
  | pwrLoss a0 => exact execPwrLoss_keeps kErr kQue kHdg kPut kCop kMap kTop kMcs kChan kEcc kJnp kBox kYew kHly kPwr kSys kWr kDrawn kDeliv a0 s hP
  | phyRelockDone a0 => exact execPhyRelockDone_keeps kErr kQue kHdg kPut kCop kMap kTop kMcs kChan kEcc kJnp kBox kYew kHly kPwr kSys kWr kDrawn kDeliv a0 s hP
  | phyZqCalibration a0 => exact execPhyZqCalibration_keeps kChan kBox kDrawn a0 s hP
  | trainSliceStart a0 => exact execTrainSliceStart_keeps kErr kQue kTop kMcs kChan kEcc kBox kHly kSys kWr a0 s hP
  | trainSliceEnd a0 a1 => exact execTrainSliceEnd_keeps kErr kQue kHdg kPut kCop kMap kTop kMcs kChan kEcc kJnp kBox kYew kHly kPwr kSys kWr kDrawn kDeliv a0 a1 s hP
  | zqcalSlice a0 a1 => exact execZqcalSlice_keeps kErr kQue kHdg kPut kCop kMap kTop kMcs kChan kEcc kJnp kBox kYew kHly kPwr kSys kWr kDrawn kDeliv a0 a1 s hP
  | selftestChannelDone a0 a1 => exact execSelftestChannelDone_keeps kErr kQue kHdg kPut kCop kMap kTop kMcs kChan kEcc kJnp kBox kYew kHly kPwr kSys kWr kDrawn kDeliv a0 a1 s hP
  | channelReset a0 a1 => exact execChannelReset_keeps kErr kQue kHdg kPut kCop kMap kTop kMcs kChan kEcc kJnp kBox kYew kHly kPwr kSys kWr kResp kDrawn kDeliv a0 a1 s hP
  | channelResetResume a0 => exact execChannelResetResume_keeps kErr kQue kHdg kPut kCop kMap kTop kMcs kChan kEcc kJnp kBox kYew kHly kPwr kSys kWr kDrawn kDeliv a0 s hP
  | hardDecodeDone a0 a1 => exact execHardDecodeDone_keeps kErr kQue kHdg kPut kCop kMap kTop kMcs kChan kEcc kJnp kBox kYew kHly kSys kWr kDrawn kDeliv a0 a1 s hP
  | softSampleReserve a0 => exact execSoftSampleReserve_keeps kTop kEcc kWr a0 s hP
  | softDecodeDone a0 a1 => exact execSoftDecodeDone_keeps kErr kQue kHdg kPut kCop kMap kTop kMcs kChan kEcc kJnp kBox kYew kHly kSys kWr kDrawn kDeliv a0 a1 s hP
  | xorBuild a0 a1 => exact execXorBuild_keeps kErr kQue kHdg kPut kCop kMap kTop kMcs kChan kEcc kJnp kBox kYew kHly kSys kWr kDrawn kDeliv a0 a1 s hP
  | buildDone a0 a1 => exact execBuildDone_keeps kErr kQue kHdg kPut kCop kMap kTop kMcs kChan kEcc kJnp kBox kYew kHly kSys kWr kDrawn kDeliv a0 a1 s hP
  | rebuildAnswer a0 a1 a2 => exact execRebuildAnswer_keeps kErr kQue kHdg kPut kCop kMap kTop kMcs kChan kEcc kJnp kBox kYew kHly kSys kWr kDrawn kDeliv a0 a1 a2 s hP
  | rebuildAnswerTimeout a0 a1 => exact execRebuildAnswerTimeout_keeps kErr kQue kHdg kPut kCop kMap kTop kMcs kChan kEcc kJnp kBox kYew kHly kSys kWr kDrawn kDeliv a0 a1 s hP
  | xorMemberArrive a0 a1 a2 => exact execXorMemberArrive_keeps kErr kQue kHdg kPut kCop kMap kTop kMcs kChan kEcc kJnp kBox kYew kHly kSys kWr kDrawn kDeliv a0 a1 a2 s hP
  | calibDone a0 => exact execCalibDone_keeps kErr kQue kHdg kPut kTop kMcs kChan kEcc kJnp kBox kHly kSys kWr kDrawn a0 s hP
  | patrolDone a0 => exact execPatrolDone_keeps kErr kQue kTop kMcs kChan kEcc kJnp kBox kHly kSys kWr a0 s hP
  | jnpCheckpointPeriod => exact execJnpCheckpointPeriod_keeps kErr kHdg kPut kJnp kYew kWr kDrawn  s hP
  | jnpCkptNow a0 a1 => exact execJnpCkptNow_keeps kErr kHdg kPut kJnp kYew kPwr kWr kResp kDrawn a0 a1 s hP
  | jnpGrpClrHealth a0 a1 => exact execJnpGrpClrHealth_keeps kErr kHdg kPut kJnp kPwr kWr kResp kDrawn a0 a1 s hP
  | jnpGrpClrWear a0 a1 => exact execJnpGrpClrWear_keeps kErr kHdg kPut kJnp kPwr kWr kResp kDrawn a0 a1 s hP
  | jnpGrpClrTrack a0 a1 => exact execJnpGrpClrTrack_keeps kErr kHdg kPut kJnp kPwr kWr kResp kDrawn a0 a1 s hP
  | jnpTableEnable a0 a1 => exact execJnpTableEnable_keeps kErr kHdg kPut kJnp kPwr kWr kResp a0 a1 s hP
  | epochTick => exact execEpochTick_keeps kWr  s hP
  | regionChangeRequest a0 a1 a2 => exact execRegionChangeRequest_keeps kHdg kTop kPwr kWr kResp a0 a1 a2 s hP
  | regionReinitDone a0 => exact execRegionReinitDone_keeps kErr kHdg kPut kClear kCop kMap kTop kWr a0 s hP
  | poolWithdrawDone a0 => exact execPoolWithdrawDone_keeps kErr kHdg kPut kCop kWr kDrawn a0 s hP
  | gorseLineRead => exact execGorseLineRead_keeps kErr kHdg kTop kWr kDrawn  s hP
  | gorseRewrite => exact execGorseRewrite_keeps kHdg kPut kWr  s hP
  | scrubStoreDone a0 => exact execScrubStoreDone_keeps kErr kQue kHdg kPut kTop kHly kSys kWr kDrawn a0 s hP
  | selftestStoreDone a0 a1 => exact execSelftestStoreDone_keeps kErr kQue kHdg kClear kTop kHly kSys kWr a0 a1 s hP
  | bufferGrant => exact execBufferGrant_keeps kErr kQue kHdg kPut kForget kCop kMap kTop kMcs kChan kEcc kJnp kBox kYew kHly kSys kWr kDrawn kDeliv  s hP
  | bufferFree a0 a1 => exact execBufferFree_keeps kErr kHdg kPut kCop kWr a0 a1 s hP
  | poolPop => exact execPoolPop_keeps kErr kCop kWr kDrawn  s hP
  | poolRebuild a0 a1 => exact execPoolRebuild_keeps kCop kPwr kWr kResp a0 a1 s hP
  | poolRebuildDone => exact execPoolRebuildDone_keeps kErr kHdg kPut kCop kWr  s hP
  | reserveWrite a0 a1 a2 => exact execReserveWrite_keeps kCop kPwr kWr kResp a0 a1 a2 s hP
  | dmaShadowLoad a0 => exact execDmaShadowLoad_keeps kQue kDma kWr a0 s hP
  | dmaTransferStart a0 => exact execDmaTransferStart_keeps kDma kWr a0 s hP
  | paceLevelReport a0 a1 a2 => exact execPaceLevelReport_keeps kDma a0 a1 a2 s hP
  | dmaTransferEnd a0 a1 => exact execDmaTransferEnd_keeps kErr kQue kHdg kPut kCop kDma kBox kSys kWr kDrawn kDram kDeliv a0 a1 s hP
  | dmaRecordWrite a0 => exact execDmaRecordWrite_keeps kErr kHdg kPut kDma kWr kDram a0 s hP
  | dcqDoorbell a0 a1 a2 => exact execDcqDoorbell_keeps kErr kPwr kWr kResp a0 a1 a2 s hP
  | dcqEnable a0 a1 a2 => exact execDcqEnable_keeps kDma kPwr kWr kResp a0 a1 a2 s hP
  | dcqDisable a0 a1 a2 => exact execDcqDisable_keeps kDma kPwr kWr kResp a0 a1 a2 s hP
  | budgetWrite a0 a1 => exact execBudgetWrite_keeps kTop kPwr kWr kResp a0 a1 s hP
  | ceilWrite a0 a1 => exact execCeilWrite_keeps kPwr kResp kCeil a0 a1 s hP
  | forecastWord a0 a1 => exact execForecastWord_keeps kTop kBox kWr a0 a1 s hP
  | forecastWindowBegin a0 => exact execForecastWindowBegin_keeps kBox kWr a0 s hP
  | forecastWindowEnd a0 => exact execForecastWindowEnd_keeps kTop kBox kWr a0 s hP
  | diodeSampleTimer => exact execDiodeSampleTimer_keeps kBox  s hP
  | diodeConversionDone a0 => exact execDiodeConversionDone_keeps kErr kTop kChan kBox kPwr kWr kDrawn a0 s hP
  | threshWrite a0 a1 => exact execThreshWrite_keeps kPwr kWr kResp a0 a1 s hP
  | loadWindowClose => exact execLoadWindowClose_keeps kErr kTop kChan kWr  s hP
  | idleEntry => exact execIdleEntry_keeps kHdg kPwr  s hP
  | idleWake => exact execIdleWake_keeps kErr kQue kHdg kPut kForget kCop kMap kTop kMcs kChan kEcc kJnp kDma kBox kYew kHly kPwr kSys kWr kResp kDrawn kDram kDeliv kFlds kCeil kDbgL  s hP
  | powerEntryQuiescent => exact execPowerEntryQuiescent_keeps kErr kQue kHdg kPut kCop kMap kTop kMcs kChan kEcc kJnp kBox kYew kHly kSys kWr kDrawn kDeliv  s hP
  | powerEntryLimitExpiry => exact execPowerEntryLimitExpiry_keeps kQue kPwr kSys kWr  s hP
  | pwrWakeWrite a0 => exact execPwrWakeWrite_keeps kPwr kResp a0 s hP
  | napWakeDone => exact execNapWakeDone_keeps kErr kQue kHdg kPut kCop kMap kTop kMcs kChan kEcc kJnp kBox kYew kHly kPwr kSys kWr kDrawn kDeliv  s hP
  | coreSupplyGood => exact execCoreSupplyGood_keeps kPwr  s hP
  | cclkLocked => exact execCclkLocked_keeps kErr kQue kHdg kMap kTop kMcs kChan kBox kHly kPwr kSys kWr  s hP
  | economySegmentsEnded => exact execEconomySegmentsEnded_keeps kPwr  s hP
  | voltageAck => exact execVoltageAck_keeps kPwr  s hP
  | cclkRelockDone => exact execCclkRelockDone_keeps kErr kQue kTop kMcs kChan kEcc kBox kPwr kSys kWr  s hP
  | pwrDomEnable a0 a1 => exact execPwrDomEnable_keeps kErr kQue kHdg kPut kCop kMap kTop kMcs kChan kEcc kJnp kBox kYew kHly kPwr kSys kWr kResp kDrawn kDeliv a0 a1 s hP
  | pwrDomDisable a0 a1 => exact execPwrDomDisable_keeps kErr kQue kHdg kPut kCop kMap kTop kMcs kChan kEcc kJnp kBox kYew kHly kPwr kSys kWr kResp kDrawn kDeliv a0 a1 s hP
  | pgTimeout a0 => exact execPgTimeout_keeps kErr kQue kHly kPwr kSys kWr a0 s hP
  | pwrgdRise a0 => exact execPwrgdRise_keeps kTop kJnp kSys kWr a0 s hP
  | holdupWarnAssert => exact execHoldupWarnAssert_keeps kErr kQue kHdg kPut kCop kMap kTop kMcs kChan kEcc kJnp kBox kYew kHly kPwr kSys kWr kDrawn kDeliv  s hP
  | holdupDrainDone => exact execHoldupDrainDone_keeps kPwr  s hP
  | holdupBandPassDone a0 => exact execHoldupBandPassDone_keeps kErr kQue kHdg kPut kCop kMap kTop kMcs kChan kEcc kJnp kBox kYew kHly kPwr kSys kWr kDrawn kDeliv a0 s hP
  | holdupRecordsDone => exact execHoldupRecordsDone_keeps kErr kQue kHdg kPut kCop kMap kTop kMcs kChan kEcc kJnp kBox kYew kHly kPwr kSys kWr kDrawn kDeliv  s hP
  | holdupWarnDeassert => exact execHoldupWarnDeassert_keeps kErr kQue kHdg kPut kCop kMap kTop kMcs kChan kEcc kJnp kBox kYew kHly kPwr kSys kWr kDrawn kDeliv  s hP
  | coldReset a0 => exact absurd rfl (hC _)
  | warmRst a0 => exact execWarmRst_keeps kErr kQue kHdg kPut kForget kCop kMap kTop kMcs kChan kEcc kJnp kDma kBox kYew kHly kPwr kSys kWr kResp kDrawn kDram kDeliv a0 s hP
  | warmReq => exact execWarmReq_keeps kErr kQue kHdg kPut kForget kCop kMap kTop kMcs kChan kEcc kJnp kDma kBox kYew kHly kPwr kSys kWr kResp kDrawn kDram kDeliv  s hP
  | warmResetBegin => exact execWarmResetBegin_keeps kErr kQue kHdg kPut kForget kCop kMap kTop kMcs kChan kEcc kJnp kDma kBox kYew kHly kPwr kSys kWr kDrawn kDram kDeliv  s hP
  | warmResetDrainDone => exact execWarmResetDrainDone_keeps kErr kQue kHdg kPut kCop kMap kTop kMcs kChan kEcc kJnp kDma kBox kYew kHly kPwr kSys kWr kDrawn kDeliv  s hP
  | discoveryStart a0 a1 => exact execDiscoveryStart_keeps kErr kTop kMcs kChan kEcc kBox kSys kWr a0 a1 s hP
  | discoveryEnd a0 a1 => exact execDiscoveryEnd_keeps kErr kQue kHdg kPut kCop kMap kTop kMcs kChan kEcc kJnp kBox kYew kHly kPwr kSys kWr kDrawn kDeliv a0 a1 s hP
  | tornScanDone a0 => exact execTornScanDone_keeps kErr kWr a0 s hP
  | portLinkDown a0 => exact execPortLinkDown_keeps kQue a0 s hP
  | portLinkUp a0 => exact execPortLinkUp_keeps kErr kQue kHdg kPut kLost kCop kMap kTop kMcs kChan kEcc kJnp kBox kYew kHly kPwr kSys kWr kDrawn kDram kDeliv a0 s hP
  | yewKeyWrite a0 a1 => exact execYewKeyWrite_keeps kYew kPwr kWr kResp a0 a1 s hP
  | yewCmdProgram a0 a1 => exact execYewCmdProgram_keeps kYew kPwr kWr kResp a0 a1 s hP
  | yewCmdErase a0 a1 => exact execYewCmdErase_keeps kYew kPwr kWr kResp a0 a1 s hP
  | yewCmdSuspend a0 a1 => exact execYewCmdSuspend_keeps kYew kPwr kWr kResp a0 a1 s hP
  | yewCmdResume a0 a1 => exact execYewCmdResume_keeps kYew kPwr kWr kResp a0 a1 s hP
  | yewAddrWrite a0 a1 => exact execYewAddrWrite_keeps kYew kPwr kWr kResp a0 a1 s hP
  | yewDataLoWrite a0 a1 => exact execYewDataLoWrite_keeps kYew kPwr kWr kResp a0 a1 s hP
  | yewDataHiWrite a0 a1 => exact execYewDataHiWrite_keeps kYew kPwr kWr kResp a0 a1 s hP
  | yewSequenceTimeout => exact execYewSequenceTimeout_keeps kYew kWr  s hP
  | yewRdataRead a0 => exact execYewRdataRead_keeps kErr kPwr kWr kResp a0 s hP
  | yewSuspendEffect a0 => exact execYewSuspendEffect_keeps kErr kYew kWr a0 s hP
  | yewProgramPulseDone a0 a1 => exact execYewProgramPulseDone_keeps kErr kQue kHdg kPut kCop kMap kTop kMcs kChan kEcc kJnp kBox kYew kHly kSys kWr kDrawn kDeliv a0 a1 s hP
  | yewErasePulseDone a0 a1 => exact execYewErasePulseDone_keeps kErr kQue kHdg kPut kCop kMap kTop kMcs kChan kEcc kJnp kBox kYew kHly kSys kWr kDrawn kDeliv a0 a1 s hP
  | hlyWdogKick => exact execHlyWdogKick_keeps kHly kPwr kWr kResp  s hP
  | hlyWdogExpiry => exact execHlyWdogExpiry_keeps kErr kQue kHdg kTop kMcs kChan kEcc kJnp kBox kYew kHly kSys kWr  s hP
  | hlyRestart a0 => exact execHlyRestart_keeps kErr kQue kHly kPwr kSys kWr kResp a0 s hP
  | hlyQuiesced => exact execHlyQuiesced_keeps kErr kQue kTop kMcs kChan kEcc kBox kYew kHly kPwr kSys kWr kResp  s hP
  | hlyReady => exact execHlyReady_keeps kErr kQue kTop kMcs kChan kEcc kBox kYew kHly kPwr kSys kWr kResp  s hP
  | activateDrainTimeout => exact execActivateDrainTimeout_keeps kErr kQue kTop kMcs kChan kEcc kBox kHly kSys kWr  s hP
  | activateStartTimeout => exact execActivateStartTimeout_keeps kErr kYew kHly kWr  s hP
  | errorRecordAccept => exact execErrorRecordAccept_keeps kErr kWr  s hP
  | errClear a0 a1 => exact execErrClear_keeps kPwr kWr kResp a0 a1 s hP
  | errHeadWrite a0 a1 => exact execErrHeadWrite_keeps kPwr kWr kResp a0 a1 s hP
  | glbTimeLoRead a0 => exact execGlbTimeLoRead_keeps kPwr kWr kResp a0 s hP
  | dbgLock a0 a1 => exact execDbgLock_keeps kPwr kResp kDbgL a0 a1 s hP
  | dbgInjArm a0 a1 => exact execDbgInjArm_keeps kPwr kWr kResp a0 a1 s hP
  | dbgForceWrite a0 a1 => exact execDbgForceWrite_keeps kPwr kWr kResp a0 a1 s hP
  | lossOfPower => exact absurd rfl hL
  | rcRegisterRead a0 a1 a2 => exact execRcRegisterRead_keeps kErr kPwr kWr kResp a0 a1 a2 s hP
  | portBufferWrite a0 a1 a2 => exact execPortBufferWrite_keeps kErr kHdg kPut kCop kWr kResp a0 a1 a2 s hP
  | portStoreRead a0 a1 a2 => exact execPortStoreRead_keeps kErr kWr kResp kDrawn a0 a1 a2 s hP
  | dramReadResponse a0 a1 => exact execDramReadResponse_keeps kErr kQue kSys kWr kDrawn a0 a1 s hP
  | yewSliceExpiry a0 => exact execYewSliceExpiry_keeps kYew a0 s hP
  | checkPassDone => exact execCheckPassDone_keeps kErr kQue kTop kMcs kChan kEcc kBox kHly kSys kWr  s hP
  | stagingBufferFilled a0 => exact execStagingBufferFilled_keeps kErr kQue kHdg kPut kCop kMap kTop kMcs kChan kEcc kBox kHly kSys kWr kDrawn a0 s hP

/-- Every command keeps what every primitive update keeps. -/
theorem exec_keeps {P : State → Prop} (kErr : KErr P) (kQue : KQue P) (kHdg : KHdg P) (kPut : KPut P) (kClear
    : KClear P) (kForget : KForget P) (kLost : KLost P) (kWipe : KWipe P) (kCop : KCop P) (kMap : KMap P)
    (kTop : KTop P) (kMcs : KMcs P) (kChan : KChan P) (kEcc : KEcc P) (kJnp : KJnp P) (kDma : KDma P) (kBox :
    KBox P) (kYew : KYew P) (kHly : KHly P) (kPwr : KPwr P) (kSys : KSys P) (kWr : KWr P) (kResp : KResp P)
    (kDrawn : KDrawn P) (kDram : KDram P) (kDeliv : KDeliv P) (kFlds : KFlds P) (kCeil : KCeil P) (kDbgL :
    KDbgL P) (c : Instr) (s : State) (hP : P s) : Out.All P (exec c s) := by
  by_cases hC : ∃ r, c = .coldReset r
  · obtain ⟨r, rfl⟩ := hC
    exact execColdReset_keeps kQue kWipe kMap kTop kJnp kYew kPwr kSys kWr _ _ hP
  · by_cases hL : c = .lossOfPower
    · subst hL
      exact execLossOfPower_keeps kWipe kPwr _ hP
    · exact exec_keeps_warm kErr kQue kHdg kPut kClear kForget kLost kCop kMap kTop kMcs kChan kEcc kJnp kDma kBox kYew kHly kPwr kSys kWr kResp kDrawn kDram kDeliv kFlds kCeil kDbgL c s (fun r h => hC ⟨r, h⟩) hL hP

end Sys2Proof.Machine
end

