-- ==== Sys2Proof/Laws/Port.lean ====
section
/-!
SUPPORT. What a read and a write of a register do to every field of the map, said once (R15, R16).
-/
namespace Sys2Proof.Machine

theorem Reg.atAddr_rises (a : Nat) : Reg.rises (Reg.atAddr a) = true := by
  unfold Reg.atAddr
  apply Reg.rises_filter
  unfold Reg.blockFlds
  repeat' split
  all_goals decide +kernel

theorem bits_mod (v lo w : Nat) : bits v lo w % 2 ^ w = bits v lo w := by simp [bits]

/-- A field after a write to its register. -/
theorem State.writeFld_rd_self (s : State) (v : Nat) (F : Fld) (fx : Bool) :
    (s.writeFld fx v F).rd F = F.after fx (s.rd F) v := by
  unfold State.writeFld Fld.after
  rcases hA : F.acc <;> simp only [] <;> try rfl
  · rw [State.rd_wr_self, bits_mod]
  · rw [State.rd_wr_self]
    apply Nat.mod_eq_of_lt
    refine Nat.lt_of_le_of_lt Nat.and_le_right ?_
    apply Nat.xor_lt_two_pow
    · have := Nat.two_pow_pos F.width; omega
    · exact Nat.mod_lt _ (Nat.two_pow_pos _)
  · cases fx
    · simp [State.rd_wr_self, bits_mod]
    · rfl

theorem State.writeFld_rd_ne (s : State) (v : Nat) {F G : Fld} (fx : Bool) (hF : F ∈ Reg.all) (hG : G ∈ Reg.all) (hn : G ≠ F) :
    (s.writeFld fx v F).rd G = s.rd G := by
  unfold State.writeFld
  rcases hA : F.acc <;> simp only [] <;> try rfl
  · exact State.rd_wr_other _ _ hF hG hn
  · exact State.rd_wr_other _ _ hF hG hn
  · cases fx
    · exact State.rd_wr_other _ _ hF hG hn
    · rfl

/-- A write of one field changes the register store alone. -/
theorem State.writeFld_regs (s : State) (v : Nat) (F : Fld) (fx : Bool) : ∃ r, s.writeFld fx v F = { s with regs := r } := by
  unfold State.writeFld
  rcases hA : F.acc <;> simp only [] <;> try exact ⟨_, rfl⟩
  · cases fx <;> exact ⟨_, rfl⟩

/-- What a pass over the fields of a register does, where one field's turn changes only what that field reads. -/
theorem State.each_flds (g : State → Fld → State) (after : Fld → Nat → Nat)
    (hs : ∀ s F, F ∈ Reg.all → (g s F).rd F = after F (s.rd F))
    (ho : ∀ s F G, F ∈ Reg.all → G ∈ Reg.all → G ≠ F → (g s F).rd G = s.rd G)
    (hr : ∀ s F, ∃ r, g s F = { s with regs := r })
    (l : List Fld) (hl : ∀ F ∈ l, F ∈ Reg.all) (hi : Reg.rises l = true) (s : State) :
    (∀ F ∈ Reg.all, (F ∈ l → (s.each l g).rd F = after F (s.rd F)) ∧ (F ∉ l → (s.each l g).rd F = s.rd F)) ∧
      ∃ r, s.each l g = { s with regs := r } := by
  induction l generalizing s with
  | nil => exact ⟨fun F _ => ⟨fun h => (by cases h), fun _ => rfl⟩, s.regs, rfl⟩
  | cons G r ih =>
    obtain ⟨hw, hr2, ha⟩ := Reg.rises_head hi
    obtain ⟨h1, q, h2⟩ := ih (fun F hF => hl F (List.mem_cons_of_mem _ hF)) hr2 (g s G)
    have hG := hl G List.mem_cons_self
    have hng : G ∉ r := fun h => by have := ha G h; omega
    refine ⟨fun F hF => ⟨fun hm => ?_, fun hm => ?_⟩, ?_⟩
    · show State.rd (State.each (g s G) r _) F = _
      rcases List.mem_cons.mp hm with e | hm
      · subst e; rw [(h1 F hF).2 hng, hs _ _ hF]
      · rw [(h1 F hF).1 hm, ho _ _ _ hG hF (fun e => hng (e ▸ hm))]
    · show State.rd (State.each (g s G) r _) F = _
      rw [(h1 F hF).2 (fun h => hm (List.mem_cons_of_mem _ h)), ho _ _ _ hG hF (fun e => hm (e ▸ List.mem_cons_self))]
    · obtain ⟨q2, h3⟩ := hr s G
      refine ⟨q, ?_⟩
      show State.each (g s G) r _ = _
      rw [h2, h3]

/-- R15, R567: a plain write of a register: every field, the parts, and that it counts as written. -/
theorem State.writePlain_spec (s : State) (a v : Nat) :
    (∀ F ∈ Reg.all, F.addr = a → (s.writePlain a v).rd F = F.after (s.locks.contains a) (s.rd F) v) ∧
    (∀ F ∈ Reg.all, F.addr ≠ a → (s.writePlain a v).rd F = s.rd F) ∧
    ∃ r l, s.writePlain a v = { s with regs := r, locks := l } := by
  unfold State.writePlain State.writeFlds
  obtain ⟨f1, q, f2⟩ := State.each_flds (fun t F => t.writeFld (s.locks.contains a) v F)
    (fun F was => F.after (s.locks.contains a) was v) (fun t F _ => t.writeFld_rd_self v F _)
    (fun t F G hF hG hn => t.writeFld_rd_ne v _ hF hG hn) (fun t F => t.writeFld_regs v F _)
    (Reg.atAddr a) (fun F hF => (Reg.atAddr_mem hF).1) (Reg.atAddr_rises a) s
  refine ⟨fun F hF e => ?_, fun F hF e => ?_, ?_⟩
  · have := (f1 F hF).1 (e ▸ Reg.mem_atAddr hF)
    dsimp only
    split <;> exact this
  · have := (f1 F hF).2 (fun hc => e (Reg.atAddr_mem hc).2)
    dsimp only
    split <;> exact this
  · dsimp only
    rw [f2]
    split
    · exact ⟨_, _, rfl⟩
    · exact ⟨_, _, rfl⟩

/-! The value of a read. -/

/-- The word that fields and their values make. -/
theorem word_of_fields (f : Fld → Nat) (hf : ∀ F, f F < 2 ^ F.width) (l : List Fld) (a : Nat) (hi : Reg.rises l = true)
    (hl : ∀ F ∈ l, F.addr = a) (n acc : Nat) (hn : acc < 2 ^ n) (ho : ∀ F ∈ l, n ≤ F.lsb) :
    ∀ i, (l.foldl (fun v F => v + f F * 2 ^ F.lsb) acc).testBit i =
      (acc.testBit i || l.any fun F => decide (F.lsb ≤ i) && (f F).testBit (i - F.lsb)) := by
  induction l generalizing n acc with
  | nil => intro i; simp
  | cons G r ih =>
    intro i
    obtain ⟨hw, hr, ha⟩ := Reg.rises_head hi
    have hG := ho G List.mem_cons_self
    have hlt : acc < 2 ^ G.lsb := Nat.lt_of_lt_of_le hn (Nat.pow_le_pow_right (by decide) hG)
    have e : acc + f G * 2 ^ G.lsb = 2 ^ G.lsb * f G + acc := by rw [Nat.mul_comm, Nat.add_comm]
    have hb : acc + f G * 2 ^ G.lsb < 2 ^ (G.lsb + G.width) := by
      have h1 := hf G
      rw [Nat.pow_add, e]
      calc 2 ^ G.lsb * f G + acc < 2 ^ G.lsb * f G + 2 ^ G.lsb := by omega
        _ = 2 ^ G.lsb * (f G + 1) := by rw [Nat.mul_add, Nat.mul_one]
        _ ≤ 2 ^ G.lsb * 2 ^ G.width := Nat.mul_le_mul_left _ h1
    rw [List.foldl_cons, ih hr (fun F hF => hl F (List.mem_cons_of_mem _ hF)) (G.lsb + G.width) _ hb (fun F hF => by
      have h1 := ha F hF
      rw [hl G List.mem_cons_self, hl F (List.mem_cons_of_mem _ hF)] at h1
      omega) i]
    rw [List.any_cons, ← Bool.or_assoc]
    congr 1
    rw [e, Nat.testBit_two_pow_mul_add _ hlt]
    by_cases h : i < G.lsb
    · simp [h] <;> omega
    · have : acc.testBit i = false := Nat.testBit_lt_two_pow (Nat.lt_of_lt_of_le hlt (Nat.pow_le_pow_right (by decide) (by omega)))
      simp [h, this] <;> omega

/-- R15: a read of a register clears its RC fields and changes no other field. -/
theorem State.readPlain_spec (s : State) (held : Bool) (a : Nat) :
    (∀ F ∈ Reg.all, F.addr = a → F.acc = Access.rc → (s.readPlain held a).rd F = 0) ∧
    (∀ F ∈ Reg.all, F.addr ≠ a ∨ F.acc ≠ Access.rc → (s.readPlain held a).rd F = s.rd F) ∧
    ∃ r, s.readPlain held a = { s with
      regs := r, resp := .value ((Reg.atAddr a).foldl (fun v F => v + s.view held F * 2 ^ F.lsb) 0) } := by
  unfold State.readPlain
  obtain ⟨f1, q, f2⟩ := State.each_flds (fun t F => if F.acc = .rc then t.wr F 0 else t)
    (fun F was => if F.acc = .rc then 0 else was)
    (fun t F _ => by by_cases h : F.acc = Access.rc <;> simp [h, State.rd_wr_self])
    (fun t F G hF hG hn => by
      by_cases h : F.acc = Access.rc
      · simp only [h, if_true]; exact State.rd_wr_other _ _ hF hG hn
      · simp only [h, if_false])
    (fun t F => by
      by_cases h : F.acc = Access.rc
      · simp only [h, if_true]; exact ⟨_, rfl⟩
      · simp only [h, if_false]; exact ⟨_, rfl⟩)
    (Reg.atAddr a) (fun F hF => (Reg.atAddr_mem hF).1) (Reg.atAddr_rises a) s
  refine ⟨fun F hF e hA => ?_, fun F hF e => ?_, ?_⟩
  · have := (f1 F hF).1 (e ▸ Reg.mem_atAddr hF)
    rw [if_pos hA] at this
    exact this
  · by_cases hm : F ∈ Reg.atAddr a
    · have := (f1 F hF).1 hm
      rcases e with e | e
      · exact absurd (Reg.atAddr_mem hm).2 e
      · rw [if_neg e] at this; exact this
    · exact (f1 F hF).2 hm
  · dsimp only; rw [f2]; exact ⟨_, rfl⟩

/-- What a field shows fits in it. -/
theorem State.view_lt (s : State) (held : Bool) (F : Fld) : s.view held F < 2 ^ F.width := by
  unfold State.view
  split
  · exact Nat.two_pow_pos _
  · exact Nat.mod_lt _ (Nat.two_pow_pos _)

/-- The bits of the word that a read of a register answers. -/
theorem read_bits (s : State) (held : Bool) (a i : Nat) :
    ((Reg.atAddr a).foldl (fun v F => v + s.view held F * 2 ^ F.lsb) 0).testBit i =
      (Reg.atAddr a).any fun F => decide (F.lsb ≤ i) && (s.view held F).testBit (i - F.lsb) := by
  rw [word_of_fields (s.view held) (s.view_lt held) (Reg.atAddr a) a (Reg.atAddr_rises a)
    (fun F hF => (Reg.atAddr_mem hF).2) 0 0 (by decide) (fun _ _ => Nat.zero_le _) i]
  simp

end Sys2Proof.Machine
end

