-- ==== Sys2Proof/Laws/Store.lean ====
section
/-!
SUPPORT. The laws of the central store and of the bytes the complex has written to DRAM: every operation keeps the
canonical form, a byte reads as it was written, and a write leaves every other byte alone.
-/
namespace Sys2Proof.Machine

/-! Cells. -/

theorem cellAt_tdel_self (m : List Host.Cell) (k : Nat) : cellAt (tdel m k) k = none := by
  induction m with
  | nil => rfl
  | cons e r ih =>
    obtain ⟨j, w⟩ := e
    unfold tdel
    split
    · exact ih
    · simp [cellAt, *]

theorem cellAt_tdel_ne (m : List Host.Cell) {k i : Nat} (h : i ≠ k) : cellAt (tdel m k) i = cellAt m i := by
  induction m with
  | nil => rfl
  | cons e r ih =>
    obtain ⟨j, w⟩ := e
    unfold tdel
    split
    · subst_vars
      simp [cellAt, ih, Ne.symm h]
    · simp [cellAt, ih]

theorem cellAt_tins_self (m : List Host.Cell) (k : Nat) (b : Byte) : cellAt (tins m k b) k = some b := by
  induction m with
  | nil => simp [tins, cellAt]
  | cons e r ih =>
    obtain ⟨j, w⟩ := e
    unfold tins
    split
    · simp [cellAt]
    · split
      · simp [cellAt]
      · simp [cellAt, *]

theorem cellAt_tins_ne (m : List Host.Cell) {k i : Nat} (b : Byte) (h : i ≠ k) : cellAt (tins m k b) i = cellAt m i := by
  induction m with
  | nil => simp [tins, cellAt, Ne.symm h]
  | cons e r ih =>
    obtain ⟨j, w⟩ := e
    unfold tins
    split
    · simp [cellAt, Ne.symm h]
    · split
      · subst_vars
        simp [cellAt, Ne.symm h]
      · simp [cellAt, ih]

/-! The canonical form. -/

theorem Memory.wf_iff (h : Hdg) :
    Memory.wf h = true ↔ tsorted h.mem = true ∧
      ∀ c ∈ h.mem, ¬(h.zeroed.contains (c.1 / 0x100000) = true ∧ c.2 = 0 ∧ tget 0 h.undef (c.1 / 4096) = 0) := by
  unfold Memory.wf
  rw [Bool.and_eq_true, List.all_eq_true]
  refine and_congr_right fun _ => forall_congr' fun c => forall_congr' fun _ => ?_
  rw [Bool.not_eq_true', ← Bool.not_eq_true, Bool.and_eq_true, Bool.and_eq_true, beq_iff_eq, beq_iff_eq, and_assoc]

theorem Memory.wf_kept {f : Hdg → Hdg} (hf : MemKept f) (h : Hdg) (hw : Memory.wf h = true) : Memory.wf (f h) = true := by
  unfold Memory.wf
  rw [(hf h).1, (hf h).2.1, (hf h).2.2]
  exact hw

theorem Memory.wf_hPut (s : State) (a : Nat) (b : Byte) (hw : Memory.wf s.hdg = true) :
    Memory.wf (s.hPut a b).hdg = true := by
  rw [Memory.wf_iff] at hw ⊢
  unfold State.hPut State.onHdg
  dsimp only
  split
  · refine ⟨tsorted_tdel _ _ hw.1, fun c hc => hw.2 c ?_⟩
    rw [tdel_eq_filter] at hc
    exact (List.mem_filter.mp hc).1
  · rename_i hn
    refine ⟨tsorted_tins _ _ _ hw.1, fun c hc => ?_⟩
    rcases mem_tins _ _ _ _ hc with rfl | hc
    · rintro ⟨h1, h2, h3⟩
      apply hn
      simp only [State.hZeroed, hRegion, h1, Bool.true_and, Bool.and_eq_true, beq_iff_eq]
      exact ⟨h2, h3⟩
    · exact hw.2 c hc

theorem tget_filter (t : Tab Nat) (p : Nat → Bool) (k : Nat) (h : p k = true) :
    tget 0 (t.filter fun e => p e.1) k = tget 0 t k := by
  induction t with
  | nil => rfl
  | cons e r ih =>
    obtain ⟨j, w⟩ := e
    rw [List.filter_cons]
    split
    · simp [tget, ih]
    · rename_i hp
      have : j ≠ k := by
        rintro rfl
        exact hp h
      simp [tget, this, ih]

theorem mem_cellsWithout {m : List Host.Cell} {lo hi : Nat} {c : Host.Cell} (h : c ∈ cellsWithout m lo hi) :
    c ∈ m ∧ ¬(lo ≤ c.1 ∧ c.1 < hi) := by
  unfold cellsWithout at h
  have := List.mem_filter.mp h
  refine ⟨this.1, fun hn => ?_⟩
  simpa [hn.1, hn.2] using this.2

theorem mem_orderBy {α : Type} (k : α → Nat) (l : List α) (x : α) : x ∈ orderBy k l ↔ x ∈ l := by
  have ins : ∀ (y : α) (l : List α), x ∈ orderBy.ins k y l ↔ x = y ∨ x ∈ l := by
    intro y l
    induction l with
    | nil => simp [orderBy.ins]
    | cons z r ih =>
      unfold orderBy.ins
      split
      · simp
      · simp only [List.mem_cons, ih]
        grind
  induction l with
  | nil => rfl
  | cons y r ih => simp [orderBy, ins, ih]

theorem Memory.wf_hClearRegion (s : State) (k : Nat) (hw : Memory.wf s.hdg = true) :
    Memory.wf (s.hClearRegion k).hdg = true := by
  rw [Memory.wf_iff] at hw ⊢
  unfold State.hClearRegion State.onHdg
  dsimp only
  refine ⟨tsorted_filter _ _ hw.1, fun c hc => ?_⟩
  have h1 := mem_cellsWithout hc
  have hk : c.1 / 0x100000 ≠ k := by omega
  have hk2 : ((c.1 / 4096) / 256 != k) = true := by
    rw [bne_iff_ne]
    omega
  rw [tget_filter s.hdg.undef (fun i => i / 256 != k) _ hk2]
  intro hn
  refine hw.2 c h1.1 ⟨?_, hn.2.1, hn.2.2⟩
  have h3 := hn.1
  split at h3
  · exact h3
  · rw [List.contains_iff_mem, mem_orderBy, List.mem_cons] at h3
    rw [List.contains_iff_mem]
    exact h3.resolve_left hk

theorem Memory.wf_hForget (s : State) (i : Nat) (hw : Memory.wf s.hdg = true) :
    Memory.wf (s.hForget i).hdg = true := by
  unfold State.hForget
  dsimp only
  split
  · rw [Memory.wf_iff] at hw ⊢
    unfold State.onHdg
    dsimp only
    refine ⟨tsorted_filter _ _ hw.1, fun c hc => ?_⟩
    have h1 := mem_cellsWithout hc
    have hi : c.1 / 4096 ≠ i := by omega
    rw [tget_tset_ne _ _ _ hi]
    exact hw.2 c h1.1
  · rename_i hz
    rw [Memory.wf_iff] at hw ⊢
    unfold State.onHdg
    dsimp only
    refine ⟨tsorted_map _ (fun e => by split <;> rfl) _ hw.1, fun c hc => ?_⟩
    obtain ⟨y, hy, rfl⟩ := List.mem_map.mp hc
    split
    · rename_i hi
      rintro ⟨h1, _⟩
      apply hz
      unfold State.hZeroed hRegion
      have : i * 4096 / 1048576 = y.1 / 1048576 := by omega
      rw [this]
      exact h1
    · exact hw.2 y hy

theorem Memory.wf_empty (h : Hdg) (he : h.mem = []) : Memory.wf h = true := by
  unfold Memory.wf
  rw [he]
  rfl

theorem dramWrite_sorted (s : State) (a : Nat) (d : List Byte) (h : tsorted s.dram = true) :
    tsorted (s.dramWrite a d).dram = true := by
  unfold State.dramWrite
  dsimp only
  generalize List.range d.length = l
  generalize s.dram = m at h ⊢
  induction l generalizing m with
  | nil => exact h
  | cons i r ih => exact ih _ (tsorted_tins _ _ _ h)

/-! Reading a byte. -/

/-- A change of the store that leaves its bytes alone leaves every byte as it reads. -/
theorem hByte?_kept {s : State} {f : Hdg → Hdg} (hf : MemKept f) (a : Nat) : (s.onHdg f).hByte? a = s.hByte? a := by
  unfold State.hByte? State.hZeroed State.onHdg
  dsimp only
  rw [(hf s.hdg).1, (hf s.hdg).2.1, (hf s.hdg).2.2]

theorem hByte?_of_hdg {s t : State} (h : t.hdg = s.hdg) (a : Nat) : t.hByte? a = s.hByte? a := by
  unfold State.hByte? State.hZeroed
  rw [h]

/-- A stored byte reads as it was stored. -/
theorem hByte?_hPut_self (s : State) (a : Nat) (b : Byte) : (s.hPut a b).hByte? a = some b := by
  by_cases hc : (s.hZeroed a && b == 0 && tget 0 s.hdg.undef (a / 4096) == 0) = true
  · have e : (s.hPut a b).hdg.mem = tdel s.hdg.mem a := if_pos hc
    simp only [Bool.and_eq_true, beq_iff_eq] at hc
    unfold State.hByte?
    rw [e, cellAt_tdel_self]
    dsimp only
    have hz : (s.hPut a b).hZeroed a = true := hc.1.1
    have hu : tget 0 (s.hPut a b).hdg.undef (a / 4096) = 0 := hc.2
    rw [if_pos hz, hu, hc.1.2]
  · have e : (s.hPut a b).hdg.mem = tins s.hdg.mem a b := if_neg hc
    unfold State.hByte?
    rw [e, cellAt_tins_self]

/-- A stored byte leaves every other byte as it reads. -/
theorem hByte?_hPut_ne (s : State) {a x : Nat} (b : Byte) (h : x ≠ a) : (s.hPut a b).hByte? x = s.hByte? x := by
  have e : cellAt (s.hPut a b).hdg.mem x = cellAt s.hdg.mem x := by
    by_cases hc : (s.hZeroed a && b == 0 && tget 0 s.hdg.undef (a / 4096) == 0) = true
    · have e : (s.hPut a b).hdg.mem = tdel s.hdg.mem a := if_pos hc
      rw [e, cellAt_tdel_ne _ h]
    · have e : (s.hPut a b).hdg.mem = tins s.hdg.mem a b := if_neg hc
      rw [e, cellAt_tins_ne _ _ h]
  unfold State.hByte?
  rw [e]
  rfl

/-- What a write of part of a word does to a property that its stored bytes keep. -/
theorem hWriteWord_only {P : State → Prop} (kErr : KErr P) (kHdg : KHdg P) (kWr : KWr P) (s : State) (w off : Nat)
    (d : List Byte) (hput : ∀ (s : State) i, i < d.length → P s → P (s.hPut (w + off + i) (d.getD i 0))) (hP : P s) :
    P (s.hWriteWord w off d) := by
  have hp : ∀ (s : State) i, i ∈ List.range d.length → P s → P (s.hPut (w + off + i) (d.getD i 0)) := fun s i hi =>
    hput s i (List.mem_range.mp hi)
  unfold State.hWriteWord
  repeat' first
    | with_reducible assumption
    | exact rfl
    | with_reducible apply State.bump_keeps kWr
    | with_reducible apply State.hCorrected_keeps kErr kWr
    | with_reducible apply State.hSetMark_keeps kHdg
    | with_reducible apply State.hValidate_keeps kHdg
    | with_reducible apply State.err1_keeps kErr kWr
    | with_reducible apply State.hInject_keeps kHdg kWr
    | with_reducible apply each_keeps
    | dsimp only
    | split

/-- A part of a write lies in it. -/
theorem wordParts_mem {a n : Nat} {p : Nat × Nat × Nat × Nat} (h : p ∈ wordParts a n) :
    p.1 + p.2.1 = a + p.2.2.1 ∧ p.2.2.1 + p.2.2.2 ≤ n := by
  unfold wordParts at h
  split at h
  · cases h
  · obtain ⟨i, hi, rfl⟩ := List.mem_map.mp h
    rw [List.mem_range] at hi
    dsimp only
    split <;> split <;> omega

/-- Every byte of a write lies in one of its parts. -/
theorem wordParts_cover {a n j : Nat} (h : j < n) :
    ∃ p ∈ wordParts a n, p.2.2.1 ≤ j ∧ j < p.2.2.1 + p.2.2.2 := by
  have hn : n ≠ 0 := by omega
  unfold wordParts
  rw [if_neg hn]
  refine ⟨_, List.mem_map.mpr ⟨(a % 8 + j) / 8, List.mem_range.mpr (by omega), rfl⟩, ?_⟩
  dsimp only
  split <;> split <;> omega

/-- What a write does to a property that each of its stored bytes keeps. -/
theorem hWrite_only {P : State → Prop} (kErr : KErr P) (kHdg : KHdg P) (kWr : KWr P) (s : State) (a : Nat) (d : List Byte)
    (hput : ∀ (s : State) j, j < d.length → P s → P (s.hPut (a + j) (d.getD j 0))) (hP : P s) : P (s.hWrite a d) := by
  unfold State.hWrite
  split
  · exact State.err1_keeps kErr kWr _ _ _ _ _ _ _ hP
  · refine each_keeps _ _ _ (fun s p hp h => ?_) (State.hFresh_keeps kHdg _ _ _ hP)
    refine State.hFillInject_keeps kHdg kWr _ _ _ (hWriteWord_only kErr kHdg kWr _ _ _ _ (fun s i hi h => ?_) h)
    have hm := wordParts_mem hp
    rw [List.length_take, List.length_drop] at hi
    have e : p.1 + p.2.1 + i = a + (p.2.2.1 + i) := by omega
    have e2 : ((d.drop p.2.2.1).take p.2.2.2).getD i 0 = d.getD (p.2.2.1 + i) 0 := by
      simp only [List.getD_eq_getElem?_getD]
      rw [List.getElem?_take_of_lt (by omega), List.getElem?_drop]
    rw [e, e2]
    exact hput s _ (by omega) h

/-- A write leaves every byte outside it as it reads. -/
theorem hByte?_hWrite_out (s : State) (a : Nat) (d : List Byte) (x : Nat) (h : x < a ∨ a + d.length ≤ x) :
    (s.hWrite a d).hByte? x = s.hByte? x := by
  refine hWrite_only (P := fun t => t.hByte? x = s.hByte? x) (fun _ _ _ h => h) (fun _ _ hf h => (hByte?_kept hf x).trans h)
    (fun _ _ _ _ h => h) s a d (fun t j hj ht => ?_) rfl
  rw [hByte?_hPut_ne _ _ (by omega)]
  exact ht

theorem foldl_reaches {P : State → Prop} {α : Type} (f : State → α → State) (l : List α) (s : State) (x : α) (hx : x ∈ l)
    (hk : ∀ s, ∀ y ∈ l, P s → P (f s y)) (hr : ∀ s, P (f s x)) : P (l.foldl f s) := by
  induction l generalizing s with
  | nil => cases hx
  | cons y r ih =>
    rcases List.mem_cons.mp hx with rfl | hx
    · exact foldl_keeps f r _ (fun s y hy h => hk s y (List.mem_cons_of_mem _ hy) h) (hr s)
    · exact ih _ hx fun s y hy h => hk s y (List.mem_cons_of_mem _ hy) h

/-- A write of part of a word reaches what one of its stored bytes establishes. -/
theorem hWriteWord_reaches {P : State → Prop} (kErr : KErr P) (kHdg : KHdg P) (kWr : KWr P) (s : State) (w off : Nat)
    (d : List Byte) (i : Nat) (hi : i < d.length) (hput : ∀ (s : State) j, j < d.length → P s → P (s.hPut (w + off + j) (d.getD j 0)))
    (hr : ∀ s : State, P (s.hPut (w + off + i) (d.getD i 0))) : P (s.hWriteWord w off d) := by
  have hp : ∀ s : State, P (s.each (List.range d.length) fun s i => s.hPut (w + off + i) (d.getD i 0)) := fun s =>
    foldl_reaches _ _ s i (List.mem_range.mpr hi) (fun s j hj => hput s j (List.mem_range.mp hj)) hr
  unfold State.hWriteWord
  repeat' first
    | with_reducible exact hp _
    | with_reducible apply State.hSetMark_keeps kHdg
    | with_reducible apply State.err1_keeps kErr kWr
    | with_reducible apply State.hInject_keeps kHdg kWr
    | dsimp only
    | split

/-- R355, R360: a write that is not refused stores its bytes. -/
theorem hByte?_hWrite_in (s : State) (a : Nat) (d : List Byte) (j : Nat) (hj : j < d.length) (hr : s.hRefused a = false) :
    (s.hWrite a d).hByte? (a + j) = some (d.getD j 0) := by
  have kE : KErr (fun t => t.hByte? (a + j) = some (d.getD j 0)) := fun _ _ _ h => h
  have kH : KHdg (fun t => t.hByte? (a + j) = some (d.getD j 0)) := fun _ _ hf h => (hByte?_kept hf _).trans h
  have kW : KWr (fun t => t.hByte? (a + j) = some (d.getD j 0)) := fun _ _ _ _ h => h
  have put : ∀ (t : State) k, t.hByte? (a + j) = some (d.getD j 0) →
      (t.hPut (a + k) (d.getD k 0)).hByte? (a + j) = some (d.getD j 0) := by
    intro t k ht
    by_cases e : k = j
    · subst e
      exact hByte?_hPut_self _ _ _
    · rw [hByte?_hPut_ne _ _ (by omega)]
      exact ht
  obtain ⟨p, hp, h1, h2⟩ := wordParts_cover (a := a) hj
  have slice : ∀ q ∈ wordParts a d.length, ∀ i, i < ((d.drop q.2.2.1).take q.2.2.2).length →
      q.1 + q.2.1 + i = a + (q.2.2.1 + i) ∧ ((d.drop q.2.2.1).take q.2.2.2).getD i 0 = d.getD (q.2.2.1 + i) 0 := by
    intro q hq i hi
    have hm := wordParts_mem hq
    rw [List.length_take, List.length_drop] at hi
    refine ⟨by omega, ?_⟩
    simp only [List.getD_eq_getElem?_getD]
    rw [List.getElem?_take_of_lt (by omega), List.getElem?_drop]
  unfold State.hWrite
  rw [if_neg (by simp [hr])]
  have keepWord : ∀ q ∈ wordParts a d.length, ∀ (t : State) i, i < ((d.drop q.2.2.1).take q.2.2.2).length →
      t.hByte? (a + j) = some (d.getD j 0) →
      (t.hPut (q.1 + q.2.1 + i) (((d.drop q.2.2.1).take q.2.2.2).getD i 0)).hByte? (a + j) = some (d.getD j 0) := by
    intro q hq t i hi ht
    rw [(slice q hq i hi).1, (slice q hq i hi).2]
    exact put _ _ ht
  refine foldl_reaches (P := fun t => t.hByte? (a + j) = some (d.getD j 0)) _ _ _ p hp (fun t q hq ht => ?_) (fun t => ?_)
  · exact State.hFillInject_keeps kH kW _ _ _ (hWriteWord_only kE kH kW _ _ _ _ (keepWord q hq) ht)
  · have hm := wordParts_mem hp
    have hl : j - p.2.2.1 < ((d.drop p.2.2.1).take p.2.2.2).length := by
      rw [List.length_take, List.length_drop]
      omega
    refine State.hFillInject_keeps kH kW _ _ _ (hWriteWord_reaches kE kH kW _ _ _ _ _ hl (keepWord p hp) fun t => ?_)
    rw [(slice p hp _ hl).1, (slice p hp _ hl).2]
    have e : p.2.2.1 + (j - p.2.2.1) = j := by omega
    rw [e]
    exact hByte?_hPut_self _ _ _

end Sys2Proof.Machine
end

