-- ==== Sys2Proof/Laws/Updates.lean ====
section
/-!
SUPPORT. What the larger primitive updates keep: the loss of the core supply, a write of fields of a register, and the two
writes that fix LOCK fields.
-/
namespace Sys2Proof.Machine

theorem coreLost_keeps {P : State → Prop} (kHdg : ∀ (s : State) (f : Hdg → Hdg), (∀ h, (f h).mem = []) → P s → P (s.onHdg f))
    (kQue : KQue P) (kCop : KCop P) (kMap : KMap P) (kMcs : KMcs P) (kJnp : KJnp P) (kDma : KDma P) (kHly : KHly P)
    (kWr : KWr P) : KLost P := by
  intro s hP
  unfold State.coreLost
  have h1 := State.toWarm_keeps kWr s (Reg.all.filter fun F => F.addr / 0x1000 != 4 && F.addr / 0x1000 != 5) hP (by
    rw [List.all_eq_true]
    intro F hF
    exact List.all_eq_true.mp Reg.warm_not_lock F (List.mem_filter.mp hF).1)
  revert h1
  generalize s.toWarm _ = s
  intro h1
  dsimp only
  have h2 := kHdg s (fun h => { h with
    mem := [], marks := [], valid := [], undef := [], rewrite := none
    zeroed := (List.range 32).filter fun k => s.is (Reg.HDG_RGN_VT k) }) (fun _ => rfl) h1
  revert h2
  generalize s.onHdg _ = s
  intro h2
  refine each_keeps _ _ _ (fun s w _ h => ?_) (each_keeps _ _ _ (fun s k _ h => ?_) (kHly _ _ (kJnp _ _ (kMcs _ _
    (kWr _ _ _ rfl (kWr _ _ _ rfl (kWr _ _ _ rfl (kWr _ _ _ rfl (kMap _ (fun _ => {}) (kWr _ _ _ rfl (kCop _ _ h2)))))))))))
  · exact kDma.same (fun _ => rfl) (kWr _ _ _ rfl h)
  · split
    · exact h
    · exact State.pairSettle_keeps kQue _ _ (kWr _ _ _ rfl h)

theorem writeFlds_keeps {P : State → Prop} (kWr : ∀ (s : State) (F : Fld) (v : Nat), P s → P (s.wr F v))
    (kLocks : ∀ (s : State) (l : List Nat), P s → P { s with locks := l }) : KFlds P := by
  intro s addr v l _ hP
  unfold State.writeFlds
  have h := each_keeps (P := P) s l (fun s F => s.writeFld (s.locks.contains addr) v F) (fun s F _ h => by
    unfold State.writeFld
    repeat' first
      | with_reducible assumption
      | with_reducible apply kWr
      | split) hP
  have h2 := each_keeps (P := P) s l (fun t F => t.writeFld (s.locks.contains addr) v F) (fun t F _ h => by
    unfold State.writeFld
    repeat' first
      | with_reducible assumption
      | with_reducible apply kWr
      | split) hP
  dsimp only
  split
  · exact kLocks _ _ h2
  · exact h2

theorem ceilSet_keeps {P : State → Prop} (kTop : KTop P) (kWr : ∀ (s : State) (F : Fld) (v : Nat), P s → P (s.wr F v))
    (kLocks : ∀ (s : State) (l : List Nat), P s → P { s with locks := l }) : KCeil P := by
  intro s v hP
  unfold State.ceilSet
  split
  · exact hP
  · exact State.relive_keeps kTop (fun s F v _ h => kWr s F v h) _ _ hP (fun s h => kLocks _ _ (kWr _ _ _ (kWr _ _ _ h)))

theorem dbgLockWrite_keeps {P : State → Prop} (kWr : ∀ (s : State) (F : Fld) (v : Nat), P s → P (s.wr F v))
    (kLocks : ∀ (s : State) (l : List Nat), P s → P { s with locks := l }) : KDbgL P := by
  intro s v hP
  unfold State.dbgLockWrite
  have h := when_keeps (P := P) s (bit v 1) (·.wr Reg.DBG_LOCK_REFUSED 0) (fun h => kWr _ _ _ h) hP
  dsimp only
  split
  · exact h
  · split
    · exact kWr _ _ _ (kWr _ _ _ (kWr _ _ _ (kLocks _ _ h)))
    · exact kWr _ _ _ (kLocks _ _ h)

theorem hForget_keeps {P : State → Prop} (kHdg : ∀ (s : State) (f : Hdg → Hdg), P s → P (s.onHdg f)) (kDrawn : KDrawn P) :
    KForget P := by
  intro s i hP
  unfold State.hForget
  dsimp only
  split
  · exact kHdg _ _ (kDrawn _ _ hP)
  · exact kHdg _ _ (kDrawn _ _ hP)

end Sys2Proof.Machine
end

