-- ==== Sys2Proof/Laws/Reach.lean ====
section
/-!
SUPPORT. The parts of the state that each primitive update leaves alone: where a list of parts holds the update's own
parts, every part outside the list stays as it is.
-/
namespace Sys2Proof.Machine

/-- The two states agree in every part outside a list. -/
abbrev KeptBut (L : List Part) (s t : State) : Prop := SameBut L s t

theorem KeptBut.refl (L : List Part) (s : State) : KeptBut L s s := by
  intro p _
  cases p <;> first | rfl | exact ⟨rfl, rfl, rfl⟩

theorem keptButErr {L : List Part} {s0 : State} (herr : L.contains .err = true) : KErr (KeptBut L s0) := by
  intro s f _ hP p hp
  cases p <;> first
    | exact absurd hp (by rw [herr]; exact Bool.noConfusion)
    | exact hP _ hp

theorem keptButQue {L : List Part} {s0 : State} (hque : L.contains .que = true) : KQue (KeptBut L s0) := by
  intro s f _ hP p hp
  cases p <;> first
    | exact absurd hp (by rw [hque]; exact Bool.noConfusion)
    | exact hP _ hp

theorem keptButHdg {L : List Part} {s0 : State} (hhdg : L.contains .hdg = true) : KHdg (KeptBut L s0) := by
  intro s f hf hP p hp
  by_cases e : p = .store
  · subst e
    have h := hP .store hp
    exact ⟨(hf s.hdg).1.trans h.1, (hf s.hdg).2.1.trans h.2.1, (hf s.hdg).2.2.trans h.2.2⟩
  · cases p <;> first
    | exact absurd rfl e
    | exact absurd hp (by rw [hhdg]; exact Bool.noConfusion)
    | exact hP _ hp

theorem keptButPut {L : List Part} {s0 : State} (hhdg : L.contains .hdg = true) (hstore : L.contains .store = true) : KPut (KeptBut L s0) := by
  intro s a b hP p hp
  cases p <;> first
    | exact absurd hp (by rw [hhdg]; exact Bool.noConfusion)
    | exact absurd hp (by rw [hstore]; exact Bool.noConfusion)
    | exact hP _ hp

theorem keptButClear {L : List Part} {s0 : State} (hhdg : L.contains .hdg = true) (hstore : L.contains .store = true) : KClear (KeptBut L s0) := by
  intro s k hP p hp
  cases p <;> first
    | exact absurd hp (by rw [hhdg]; exact Bool.noConfusion)
    | exact absurd hp (by rw [hstore]; exact Bool.noConfusion)
    | exact hP _ hp

theorem keptButCop {L : List Part} {s0 : State} (hcop : L.contains .cop = true) : KCop (KeptBut L s0) := by
  intro s f hP p hp
  cases p <;> first
    | exact absurd hp (by rw [hcop]; exact Bool.noConfusion)
    | exact hP _ hp

theorem keptButMap {L : List Part} {s0 : State} (hmap : L.contains .map = true) : KMap (KeptBut L s0) := by
  intro s f hP p hp
  cases p <;> first
    | exact absurd hp (by rw [hmap]; exact Bool.noConfusion)
    | exact hP _ hp

theorem keptButTop {L : List Part} {s0 : State} (htop : L.contains .top = true) : KTop (KeptBut L s0) := by
  intro s f hP p hp
  cases p <;> first
    | exact absurd hp (by rw [htop]; exact Bool.noConfusion)
    | exact hP _ hp

theorem keptButMcs {L : List Part} {s0 : State} (hmcs : L.contains .mcs = true) : KMcs (KeptBut L s0) := by
  intro s f hP p hp
  cases p <;> first
    | exact absurd hp (by rw [hmcs]; exact Bool.noConfusion)
    | exact hP _ hp

theorem keptButChan {L : List Part} {s0 : State} (hchs : L.contains .chs = true) : KChan (KeptBut L s0) := by
  intro s n f hP p hp
  cases p <;> first
    | exact absurd hp (by rw [hchs]; exact Bool.noConfusion)
    | exact hP _ hp

theorem keptButEcc {L : List Part} {s0 : State} (hecc : L.contains .ecc = true) : KEcc (KeptBut L s0) := by
  intro s f hP p hp
  cases p <;> first
    | exact absurd hp (by rw [hecc]; exact Bool.noConfusion)
    | exact hP _ hp

theorem keptButJnp {L : List Part} {s0 : State} (hjnp : L.contains .jnp = true) : KJnp (KeptBut L s0) := by
  intro s f hP p hp
  cases p <;> first
    | exact absurd hp (by rw [hjnp]; exact Bool.noConfusion)
    | exact hP _ hp

theorem keptButDma {L : List Part} {s0 : State} (hdma : L.contains .dma = true) : KDma (KeptBut L s0) := by
  intro s f _ hP p hp
  cases p <;> first
    | exact absurd hp (by rw [hdma]; exact Bool.noConfusion)
    | exact hP _ hp

theorem keptButBox {L : List Part} {s0 : State} (hbox : L.contains .box = true) : KBox (KeptBut L s0) := by
  intro s f hP p hp
  cases p <;> first
    | exact absurd hp (by rw [hbox]; exact Bool.noConfusion)
    | exact hP _ hp

theorem keptButYew {L : List Part} {s0 : State} (hyew : L.contains .yew = true) : KYew (KeptBut L s0) := by
  intro s f hP p hp
  cases p <;> first
    | exact absurd hp (by rw [hyew]; exact Bool.noConfusion)
    | exact hP _ hp

theorem keptButHly {L : List Part} {s0 : State} (hhly : L.contains .hly = true) : KHly (KeptBut L s0) := by
  intro s f hP p hp
  cases p <;> first
    | exact absurd hp (by rw [hhly]; exact Bool.noConfusion)
    | exact hP _ hp

theorem keptButPwr {L : List Part} {s0 : State} (hpwr : L.contains .pwr = true) : KPwr (KeptBut L s0) := by
  intro s f hP p hp
  cases p <;> first
    | exact absurd hp (by rw [hpwr]; exact Bool.noConfusion)
    | exact hP _ hp

theorem keptButSys {L : List Part} {s0 : State} (hsys : L.contains .sys = true) : KSys (KeptBut L s0) := by
  intro s f hP p hp
  cases p <;> first
    | exact absurd hp (by rw [hsys]; exact Bool.noConfusion)
    | exact hP _ hp

theorem keptButWr {L : List Part} {s0 : State} (hregs : L.contains .regs = true) : KWr (KeptBut L s0) := by
  intro s F v _ hP p hp
  cases p <;> first
    | exact absurd hp (by rw [hregs]; exact Bool.noConfusion)
    | exact hP _ hp

theorem keptButResp {L : List Part} {s0 : State} (hresp : L.contains .resp = true) : KResp (KeptBut L s0) := by
  intro s r hP p hp
  cases p <;> first
    | exact absurd hp (by rw [hresp]; exact Bool.noConfusion)
    | exact hP _ hp

theorem keptButDrawn {L : List Part} {s0 : State} (hdrawn : L.contains .drawn = true) : KDrawn (KeptBut L s0) := by
  intro s d hP p hp
  cases p <;> first
    | exact absurd hp (by rw [hdrawn]; exact Bool.noConfusion)
    | exact hP _ hp

theorem keptButDram {L : List Part} {s0 : State} (hdram : L.contains .dram = true) : KDram (KeptBut L s0) := by
  intro s a d hP p hp
  cases p <;> first
    | exact absurd hp (by rw [hdram]; exact Bool.noConfusion)
    | exact hP _ hp

theorem keptButDeliv {L : List Part} {s0 : State} (hdelivered : L.contains .delivered = true) : KDeliv (KeptBut L s0) := by
  intro s l hP p hp
  cases p <;> first
    | exact absurd hp (by rw [hdelivered]; exact Bool.noConfusion)
    | exact hP _ hp

theorem keptButLost {L : List Part} {s0 : State} (hregs : L.contains .regs = true) (hhdg : L.contains .hdg = true) (hstore : L.contains .store = true) (hcop : L.contains .cop = true) (hmap : L.contains .map = true) (hmcs : L.contains .mcs = true) (hjnp : L.contains .jnp = true) (hhly : L.contains .hly = true) (hque : L.contains .que = true) (hdma : L.contains .dma = true) : KLost (KeptBut L s0) := by
  refine coreLost_keeps (fun s f _ hP p hp => ?_) (keptButQue hque) (keptButCop hcop) (keptButMap hmap) (keptButMcs hmcs)
    (keptButJnp hjnp) (keptButDma hdma) (keptButHly hhly) (keptButWr hregs)
  cases p <;> first
    | exact absurd hp (by rw [hregs]; exact Bool.noConfusion)
    | exact absurd hp (by rw [hhdg]; exact Bool.noConfusion)
    | exact absurd hp (by rw [hstore]; exact Bool.noConfusion)
    | exact absurd hp (by rw [hcop]; exact Bool.noConfusion)
    | exact absurd hp (by rw [hmap]; exact Bool.noConfusion)
    | exact absurd hp (by rw [hmcs]; exact Bool.noConfusion)
    | exact absurd hp (by rw [hjnp]; exact Bool.noConfusion)
    | exact absurd hp (by rw [hhly]; exact Bool.noConfusion)
    | exact absurd hp (by rw [hque]; exact Bool.noConfusion)
    | exact absurd hp (by rw [hdma]; exact Bool.noConfusion)
    | exact hP _ hp

theorem keptButForget {L : List Part} {s0 : State} (hhdg : L.contains .hdg = true) (hstore : L.contains .store = true) (hdrawn : L.contains .drawn = true) : KForget (KeptBut L s0) := by
  refine hForget_keeps (fun s f hP p hp => ?_) (fun s d hP p hp => ?_)
  · cases p <;> first
    | exact absurd hp (by rw [hhdg]; exact Bool.noConfusion)
    | exact absurd hp (by rw [hstore]; exact Bool.noConfusion)
    | exact absurd hp (by rw [hdrawn]; exact Bool.noConfusion)
    | exact hP _ hp
  · cases p <;> first
    | exact absurd hp (by rw [hhdg]; exact Bool.noConfusion)
    | exact absurd hp (by rw [hstore]; exact Bool.noConfusion)
    | exact absurd hp (by rw [hdrawn]; exact Bool.noConfusion)
    | exact hP _ hp

theorem keptButWipe {L : List Part} {s0 : State} (hregs : L.contains .regs = true) (hlocks : L.contains .locks = true) (haclk : L.contains .aclk = true) (hdrawn : L.contains .drawn = true) (hresp : L.contains .resp = true) (herr : L.contains .err = true) (hque : L.contains .que = true) (hhdg : L.contains .hdg = true) (hstore : L.contains .store = true) (hcop : L.contains .cop = true) (hmap : L.contains .map = true) (htop : L.contains .top = true) (hmcs : L.contains .mcs = true) (hchs : L.contains .chs = true) (hecc : L.contains .ecc = true) (hjnp : L.contains .jnp = true) (hdma : L.contains .dma = true) (hbox : L.contains .box = true) (hyew : L.contains .yew = true) (hhly : L.contains .hly = true) (hpwr : L.contains .pwr = true) (hsys : L.contains .sys = true) : KWipe (KeptBut L s0) := by
  intro s hP p hp
  cases p <;> first
    | exact absurd hp (by rw [hregs]; exact Bool.noConfusion)
    | exact absurd hp (by rw [hlocks]; exact Bool.noConfusion)
    | exact absurd hp (by rw [haclk]; exact Bool.noConfusion)
    | exact absurd hp (by rw [hdrawn]; exact Bool.noConfusion)
    | exact absurd hp (by rw [hresp]; exact Bool.noConfusion)
    | exact absurd hp (by rw [herr]; exact Bool.noConfusion)
    | exact absurd hp (by rw [hque]; exact Bool.noConfusion)
    | exact absurd hp (by rw [hhdg]; exact Bool.noConfusion)
    | exact absurd hp (by rw [hstore]; exact Bool.noConfusion)
    | exact absurd hp (by rw [hcop]; exact Bool.noConfusion)
    | exact absurd hp (by rw [hmap]; exact Bool.noConfusion)
    | exact absurd hp (by rw [htop]; exact Bool.noConfusion)
    | exact absurd hp (by rw [hmcs]; exact Bool.noConfusion)
    | exact absurd hp (by rw [hchs]; exact Bool.noConfusion)
    | exact absurd hp (by rw [hecc]; exact Bool.noConfusion)
    | exact absurd hp (by rw [hjnp]; exact Bool.noConfusion)
    | exact absurd hp (by rw [hdma]; exact Bool.noConfusion)
    | exact absurd hp (by rw [hbox]; exact Bool.noConfusion)
    | exact absurd hp (by rw [hyew]; exact Bool.noConfusion)
    | exact absurd hp (by rw [hhly]; exact Bool.noConfusion)
    | exact absurd hp (by rw [hpwr]; exact Bool.noConfusion)
    | exact absurd hp (by rw [hsys]; exact Bool.noConfusion)
    | exact hP _ hp

theorem keptButCeil {L : List Part} {s0 : State} (hregs : L.contains .regs = true) (hlocks : L.contains .locks = true) (htop : L.contains .top = true) : KCeil (KeptBut L s0) := by
  refine ceilSet_keeps (keptButTop htop) (fun s F v hP p hp => ?_) (fun s l hP p hp => ?_)
  · cases p <;> first
    | exact absurd hp (by rw [hregs]; exact Bool.noConfusion)
    | exact absurd hp (by rw [hlocks]; exact Bool.noConfusion)
    | exact absurd hp (by rw [htop]; exact Bool.noConfusion)
    | exact hP _ hp
  · cases p <;> first
    | exact absurd hp (by rw [hregs]; exact Bool.noConfusion)
    | exact absurd hp (by rw [hlocks]; exact Bool.noConfusion)
    | exact absurd hp (by rw [htop]; exact Bool.noConfusion)
    | exact hP _ hp

theorem keptButFlds {L : List Part} {s0 : State} (hregs : L.contains .regs = true) (hlocks : L.contains .locks = true) : KFlds (KeptBut L s0) := by
  refine writeFlds_keeps (fun s F v hP p hp => ?_) (fun s l hP p hp => ?_)
  · cases p <;> first
    | exact absurd hp (by rw [hregs]; exact Bool.noConfusion)
    | exact absurd hp (by rw [hlocks]; exact Bool.noConfusion)
    | exact hP _ hp
  · cases p <;> first
    | exact absurd hp (by rw [hregs]; exact Bool.noConfusion)
    | exact absurd hp (by rw [hlocks]; exact Bool.noConfusion)
    | exact hP _ hp

theorem keptButDbgL {L : List Part} {s0 : State} (hregs : L.contains .regs = true) (hlocks : L.contains .locks = true) : KDbgL (KeptBut L s0) := by
  refine dbgLockWrite_keeps (fun s F v hP p hp => ?_) (fun s l hP p hp => ?_)
  · cases p <;> first
    | exact absurd hp (by rw [hregs]; exact Bool.noConfusion)
    | exact absurd hp (by rw [hlocks]; exact Bool.noConfusion)
    | exact hP _ hp
  · cases p <;> first
    | exact absurd hp (by rw [hregs]; exact Bool.noConfusion)
    | exact absurd hp (by rw [hlocks]; exact Bool.noConfusion)
    | exact hP _ hp

end Sys2Proof.Machine
end

