-- ==== Sys2Proof/Tests/Slice0.lean ====
section
/-!
SUPPORT. Tests: the ill-formed commands that WellFormed refuses, small checks of one step against values of the spec, and
for every statement with hypotheses the states and operands that meet them, at the boundaries of their ranges.
-/
namespace Sys2Proof.Tests
open Sys2Proof Sys2Proof.Machine
set_option Elab.async false

/-! ## Small states -/

/-- The state in which the answer is, or the state after reset for a stop. -/
def after (o : Host.Outcome State Fault Refusal) : State := match o with | .next t => t | _ => State.reset

/-- The complex after its bring-up: clocked, with no channel left to discover. -/
def up : State := { State.reset with sys := { State.reset.sys with noClk := false, undisc := [] } }

/-- Fields written one after the other. -/
def wrs (s : State) (l : List (Fld × Nat)) : State := l.foldl (fun s (F, v) => s.wr F v) s

/-- The power state. -/
def inPwr (st : Pw) (s : State) : State := { s with pwr := { s.pwr with st := st } }

/-- The commands outstanding. -/
def withCmds (s : State) (l : List Cmd) : State := s.onQue fun q => { q with cmds := l }

/-- A page of a frame, and a frame of zeros, by their lengths. -/
def zeros (n : Nat) : List Byte := List.replicate n 0

/-- What the balls bring to a clean burst of n zero bytes. -/
def bus (n : Nat) : BusIn := { bytes := zeros n, edgesOk := true, drift := false, preamble := true, rb := 0, eni := false }

/-- A decoder's run on flight 4 that gives a frame. -/
def run4 (frame : List Byte) (conv : Bool := true) : DecodeRes :=
  { flight := 4, conv := conv, iters := 3, unsat := 7, frame := frame }

/-- A target that answered discovery. -/
def fnd (t : Fin 8) (b : Byte) : Found :=
  { target := t, id := [b, 2, 3, 4, 5, 6], onfi := true, jedec := false
    param := some ([16384, 2816, 256, 512, 2, 0, 1], 77, true) }

/-! ## WellFormed refuses each ill-formed operand, and exec answers a next state all the same (log entry 5) -/

theorem test_wf_program_pfa : (Instr.program 5 [{ pfa := 2 ^ 40, planes := 1 }]).wf = false := by decide
theorem test_wf_program_planes : (Instr.program 5 [{ pfa := 0, planes := 256 }]).wf = false := by decide
theorem test_wf_program_ok : (Instr.program 5 [{ pfa := 2 ^ 40 - 1, planes := 255 }]).wf = true := by decide
theorem test_wf_atomic : (Instr.programAtomic 5 [{ pfa := 2 ^ 40, planes := 1 }]).wf = false := by decide
theorem test_wf_copy : (Instr.copy 5 [{ pfa := 2 ^ 40, planes := 1 }]).wf = false := by decide
theorem test_wf_page_key : (Instr.mapPageReadDone { region := 0, level := 0, page := 2 ^ 32 }).wf = false := by decide
theorem test_wf_zero_fill : (Instr.mapPageZeroFillDone { region := 0, level := 0, page := 2 ^ 32 }).wf = false := by decide
theorem test_wf_writeback_done : (Instr.mapWritebackDone { region := 0, level := 0, page := 2 ^ 32 }).wf = false := by decide
theorem test_wf_install_length :
    (Instr.mapPageInstall { region := 0, level := 0, page := 0 } (zeros 16383)).wf = false := by decide +kernel
theorem test_wf_writeback_slot :
    (Instr.mapWritebackStart { region := 0, level := 0, page := 0 } { pfa := 0, planes := 256 }).wf = false := by decide
theorem test_wf_burst : (Instr.burst 0 (bus 4801)).wf = false := by decide +kernel
theorem test_wf_burst_longest : (Instr.burst 0 (bus 4800)).wf = true := by decide +kernel
theorem test_wf_rdb : (Instr.rdb 0 (bus 4801)).wf = false := by decide +kernel
theorem test_wf_twolevel : (Instr.twolevelMicroword 0 (bus 4801)).wf = false := by decide +kernel
theorem test_wf_hard_decode : (Instr.hardDecodeDone 0 (run4 (zeros 4127))).wf = false := by decide +kernel
theorem test_wf_soft_decode : (Instr.softDecodeDone 0 (run4 (zeros 4127))).wf = false := by decide +kernel
theorem test_wf_band_pass : (Instr.holdupBandPassDone { ch := 0, pass := true, pfas := [2 ^ 40] }).wf = false := by decide
theorem test_wf_discovery_id :
    (Instr.discoveryEnd 0 { found := [{ fnd 0 1 with id := [1] }], chainOpen := false }).wf = false := by decide
theorem test_wf_discovery_geometry :
    (Instr.discoveryEnd 0 { found := [{ fnd 0 1 with param := some ([1], 7, true) }], chainOpen := false }).wf = false := by decide
theorem test_wf_discovery_ok : (Instr.discoveryEnd 0 { found := [fnd 0 1], chainOpen := false }).wf = true := by decide
theorem test_wf_port_write_empty : (Instr.portBufferWrite 0 0 []).wf = false := by decide
theorem test_wf_port_write_across : (Instr.portBufferWrite 0 4095 (zeros 2)).wf = false := by decide
theorem test_wf_port_write_beyond : (Instr.portBufferWrite 0 (2 ^ 25) (zeros 1)).wf = false := by decide
theorem test_wf_port_write_last : (Instr.portBufferWrite 0 4094 (zeros 2)).wf = true := by decide
theorem test_ill_formed_goes_on : exec (.program 5 [{ pfa := 2 ^ 40, planes := 1 }]) up = .next up := by rfl

/-! ## Witnesses: for each statement, states and operands that meet the hypotheses of its clauses -/

theorem served_port {s : State} (h : s.pwr.st = .active) : Served s .port := ⟨h, nofun⟩

theorem witness_StepTakesTheFrontCommandOrIdles :
    ({ up with pending := [.packetFetch] } : State).pending = .packetFetch :: [] ∧ up.pending = [] ∧
    (inPwr .off up).pwr.st = .off ∧ ((inPwr .nap up).pwr.st ≠ .off ∧ (inPwr .nap up).pwr.st ≠ .active) ∧ up.pwr.st = .active ∧
    (let s := up.onChan 7 fun c => { c with events := List.replicate 64 { code := 1 }, evHeld := [{ code := 2 }] }
     (s.chan 7).events = [] → (s.chan 7).evHeld = []) := by decide +kernel

theorem witness_EveryCommandAnswers :
    (reach .packetFetch).contains .mcs = false ∧ up.Canonical ∧ up.FifosWithin :=
  ⟨by decide, ⟨by decide, by decide, by decide⟩, ⟨by decide, fun _ => Nat.zero_le 8, by decide⟩⟩

theorem witness_CommandsKeepTheQueueAndWhatTheyDoNotReach :
    exec .packetFetch up = .next up ∧ (reach .packetFetch).contains .mcs = false := ⟨by rfl, by decide⟩

theorem witness_StepsKeepTheCanonicalForm : up.Canonical ∧ step up = .next { up with aclk := 1 } :=
  ⟨⟨by decide, by decide, by decide⟩, by rfl⟩

theorem witness_StepsKeepFifosWithinTheirDepths : up.FifosWithin ∧ step up = .next { up with aclk := 1 } :=
  ⟨⟨by decide, fun _ => Nat.zero_le 8, by decide⟩, by rfl⟩

theorem witness_LockFieldsAreSetOnceAndStay :
    (Served up .port ∧ Reg.BOX_CEIL_VCC ∈ Reg.all ∧ Reg.BOX_CEIL_VCC.acc = Access.lock ∧ Reg.BOX_CEIL_VCC.addr ∉ up.locks) ∧
    ((∀ r, Instr.packetFetch ≠ .coldReset r) ∧ Instr.packetFetch ≠ .lossOfPower ∧ exec .packetFetch up = .next up) ∧
    bit (2 : W32).toNat 1 = true :=
  ⟨⟨served_port rfl, by decide +kernel, rfl, by decide⟩, ⟨nofun, nofun, by rfl⟩, by decide⟩

theorem witness_RegisterRowsAreTheirAccesses :
    rowWrite (.ceilWrite .port 5) = some (.port, 0xA004, 5) ∧ rowRead (.glbTimeLoRead .port) = some (.port, 0x10) ∧
    0 % 4 = 0 ∧ 0xFFFC % 4 = 0 ∧ 0xFFFC < 0x10000 := by decide

theorem witness_AccessesFollowThePowerState :
    ((inPwr .off up).pwr.st = .off ∧ ∀ p, Master.port ≠ .client p) ∧
    ((inPwr .nap up).pwr.st = .nap ∧ wakesLow .port 0x1000 4 0 = false ∧ wakesLow .port 0x1000 4 1 = true) ∧
    ((inPwr .dormant up).pwr.st = .dormant ∧ wakesLow (.client 3) 0x4FCC 4 0x1000 = true) ∧
    ((inPwr .idle up).pwr.st = .idle) ∧
    (Master.client 3 = .client 3 ∧ wakesLow (.client 3) 0x1000 4 1 = false) := by decide

theorem witness_BadAccessesHaveNoEffect :
    Served up .port ∧
    (1 % 4 ≠ 0 ∧ 2 ≠ 4 ∧ regMapped 0xF000 = false ∧ regMapped 0xEFFC = true ∧ regMapped 0xFFFC = false) ∧
    (plainAddr 0x18 = true ∧ (Reg.all.all fun F => F.addr != 0x18) = true) :=
  ⟨served_port rfl, by decide, by decide +kernel⟩

theorem witness_IdReadsTheSameOnEveryPliut2 : Served up .port := served_port rfl

theorem witness_RegisterWritesSetTheirFields :
    Served up .port ∧ plainAddr 0x1000 = true ∧ Reg.PWR_CTL_IDLE_EN.addr = 0x1000 ∧ Reg.PWR_CTL_IDLE_EN ∈ Reg.all :=
  ⟨served_port rfl, by decide, by decide, by decide +kernel⟩

theorem witness_RegisterReadsAnswerTheirFields :
    Served up .port ∧ 0xA004 % 4 = 0 ∧ regMapped 0xA004 = true ∧ inCsWindow 0xA004 = false ∧ 0xA004 ≠ 0x0010 ∧ 0xA004 ≠ 0xB020 ∧
    0x30000 % 4 = 0 ∧ regMapped 0x30000 = true ∧ inCsWindow 0x30000 = false :=
  ⟨served_port rfl, by decide⟩

/-! ### Queues -/

/-- Pair k enabled in store region 0, with 2^z entries a queue. -/
def ring (k : Nat) (s : State := up) (z : Nat := 4) : State :=
  wrs s [(Reg.QUE_CFG_ENABLE k, 1), (Reg.QUE_CFG_SQ_SIZE k, z), (Reg.QUE_CFG_CQ_SIZE k, z),
    (Reg.QUE_SQBASE_BASE k, 0x40), (Reg.QUE_CQBASE_BASE k, 0x440)]

/-- The 64 bytes of a packet, with its CRC (R39, R40). -/
def packet (p : Pkt) : List Byte :=
  let d := leBytes 1 p.opcode ++ leBytes 1 p.flags ++ leBytes 2 p.tagw ++ leBytes 4 p.word4 ++ leBytes 8 p.addr ++
    leBytes 4 p.length ++ leBytes 4 p.hlist ++ leBytes 32 p.mid ++ leBytes 4 p.word56
  d ++ leBytes 4 (crc32c d)

/-- A BUF_ALLOC of one buffer by CP3 with tag 5. -/
def pk : Pkt := { opcode := 0x10, flags := 4, tagw := 5 + 2 ^ 14, word4 := 3 + 48 * 16, length := 1 }

/-- One packet in the SQ of pair 48. -/
def fetched (p : Pkt) (s : State := up) : State := ((ring 48 s).onPair 48 fun q => { q with sqTail := 1 }).hWrite 0x1000 (packet p)

/-- A command of tag `tag` with a packet. -/
def cm (tag : Nat) (p : Pkt) (st : Stage := .entered) : Cmd :=
  { tag := tag, pkt := { p with tagw := tag + p.tagw / 4096 * 4096 }, pair := 48, stage := st, order := 9 }

theorem witness_DoorbellsMoveOnlyLegalPointers :
    let k : Fin 64 := 48
    let s := (ring 48).onPair 48 fun p => { p with cqTail := 5, cqHead := 3 }
    up.pwr.st = .active ∧ s.pwr.st = .active ∧
    (∃ p : Fin 4, Master.client 2 = .client p ∧ p.val ≠ k.val / 16) ∧
    (∀ p : Fin 4, Master.client 3 = .client p → p.val = k.val / 16) ∧
    (s.is (Reg.QUE_CFG_ENABLE k) = true ∧ bits 0x1005100F 0 12 < s.sqSize k ∧ bit 0x1005100F 12 = true ∧ bit 0x1005100F 28 = true ∧
      bits 0x1005100F 16 12 < s.cqSize k ∧ (bits 0x1005100F 16 12 + s.cqSize k - (s.pair k).cqHead) % s.cqSize k ≤
        ((s.pair k).cqTail + s.cqSize k - (s.pair k).cqHead) % s.cqSize k) ∧
    (let t := up.onPair 48 fun p => { p with claimed := 1 }
     (t.pair k).claimed ≠ 0 ∧ bit 0 12 = false ∧ t.is (Reg.QUE_CFG_ENABLE k) = false) ∧
    (up.is (Reg.QUE_CFG_ENABLE k) = false ∧ (up.pair k).claimed = 0) ∧
    (bit 0x1010 12 = true ∧ s.sqSize k ≤ bits 0x1010 0 12) ∧
    (bit 0x10060000 28 = true ∧ ((s.pair k).cqTail + s.cqSize k - (s.pair k).cqHead) % s.cqSize k <
      (bits 0x10060000 16 12 + s.cqSize k - (s.pair k).cqHead) % s.cqSize k) := by decide +kernel

theorem witness_QueuePairsAreEnabledAndDisabled :
    (Served up .port ∧ Served (ring 48) .port) ∧
    (let s := wrs up [(Reg.QUE_SQBASE_BASE 63, 0x40), (Reg.QUE_CQBASE_BASE 63, 0x440)]
     s.is (Reg.QUE_CFG_ENABLE 63) = false ∧ (s.pair 63).claimed = 0 ∧ bit 0x441 0 = true ∧
     s.ringOk (bit 0x441 1) (s.rd (Reg.QUE_SQBASE_BASE 63)) (64 * 2 ^ bits 0x441 4 4) = true ∧
     s.ringOk (bit 0x441 2) (s.rd (Reg.QUE_CQBASE_BASE 63)) (32 * 2 ^ bits 0x441 8 4) = true ∧ ¬ 4 ≤ bits 0x401 4 4 ∧
     ¬ bits 0xDD1 4 4 ≤ 12) ∧
    ((ring 48).is (Reg.QUE_CFG_ENABLE 48) = true ∧ bit 0x440 0 = false ∧ ((ring 48).pair 48).claimed = 0 ∧
     (((ring 48).onPair 48 fun p => { p with claimed := 2 }).pair 48).claimed ≠ 0) :=
  ⟨⟨served_port rfl, served_port rfl⟩, by decide +kernel, by decide +kernel⟩

theorem witness_PacketsAreFetchedInTurn :
    ((inPwr .off up).fetchStopped = true) ∧
    (up.fetchStopped = false ∧ rotFind 64 up.que.rot up.sqEligible = none) ∧
    (let s := fetched pk
     let d := (List.range 64).map fun i => s.hReadByte (s.sqAddr 48 0 + i)
     let u := ((s.consumeSlot 48).hRead (s.sqAddr 48 0) 64)
     s.fetchStopped = false ∧ rotFind 64 s.que.rot s.sqEligible = some 48 ∧ s.is (Reg.QUE_CFG_SQ_LOC 48) = false ∧
     u.2.sys.warmRun = none ∧ u.1.ok = true ∧ crc32c (d.take 60) = (Pkt.ofBytes d).pcrc ∧ Pkt.ofBytes d = { pk with pcrc := (Pkt.ofBytes d).pcrc } ∧
     pk.opcode ∈ opcodes ∧ u.2.chkFields (Pkt.ofBytes d) 48 = none ∧ u.2.tagBad (Pkt.ofBytes d) = none ∧ opSlow pk.opcode = false) := by
  decide +kernel

/-- A packet whose SQ lies in DRAM, once it is fetched; the same with a packet of the slow path and a full inbox. -/
def inDram : State := after (exec .packetFetch ((ring 48).wr (Reg.QUE_CFG_SQ_LOC 48) 1 |>.onPair 48 fun q => { q with sqTail := 1 }))

theorem witness_PacketsAreFetchedInTurn_failing :
    (let s := (fetched pk).hWrite 0x1000 [0xFF]
     let d := (List.range 64).map fun i => s.hReadByte (s.sqAddr 48 0 + i)
     rotFind 64 s.que.rot s.sqEligible = some 48 ∧ ((s.consumeSlot 48).hRead (s.sqAddr 48 0) 64).1.ok = true ∧
     crc32c (d.take 60) ≠ (Pkt.ofBytes d).pcrc) ∧
    (let s := fetched { pk with opcode := 0x77 }
     let d := (List.range 64).map fun i => s.hReadByte (s.sqAddr 48 0 + i)
     crc32c (d.take 60) = (Pkt.ofBytes d).pcrc ∧ (Pkt.ofBytes d).opcode ∉ opcodes) ∧
    (let s := inDram
     let u := s.onQue fun q => { q with dramReads := q.dramReads.filter fun r => r.1 != 0 }
     let v := u.onQue fun q => { q with inbox := List.range 32 }
     let d := packet pk
     let e := packet { pk with opcode := 0x30 }
     s.que.dramReads.find? (fun r => r.1 == 0) = some (0, .packet 48 1 0) ∧ (∀ r ∈ s.que.dramReads, r.1 ≠ 9) ∧
     d.length = 64 ∧ u.holdPacket (Pkt.ofBytes d) = false ∧
     e.length = 64 ∧ v.holdPacket (Pkt.ofBytes e) = true ∧ crc32c (e.take 60) = (Pkt.ofBytes e).pcrc) := by
  decide +kernel

/-- A record of tag 5 of pair 48. -/
def rec5 : Rec := { tag := 5, sqid := 48, status := 1, frames := 3 }

/-- Tag 5's record is requested. -/
def asking : State := (withCmds (ring 48) [cm 5 pk .requested, cm 6 pk .running]).onQue fun q => { q with reqs := [rec5] }

theorem witness_RecordsAreGrantedWrittenAndParked :
    (up.que.reqs = [] ∧ up.que.csf = [] ∧ 256 ≤ (up.onQue fun q => { q with csf := List.replicate 256 rec5 }).que.csf.length) ∧
    (let s := asking
     s.que.reqs = rec5 :: [] ∧ s.que.csf.length < 256 ∧ (∀ e ∈ s.pwr.entry, e.1 ≠ rec5.tag) ∧ rec5.live = true ∧
     s.cmd? 5 = some (cm 5 pk .requested) ∧ s.que.csf.length + 1 = (s.wr Reg.GLB_CSF_LEVEL_LEVEL 1).rd Reg.GLB_CSF_LEVEL_LEVEL ∧
     (s.onQue fun q => { q with csf := List.replicate 255 rec5 }).que.csf.length < 256) ∧
    (let s := asking.onPwr fun p => { p with entry := some (5, 2) }
     s.pwr.entry = some (rec5.tag, 2) ∧ (s.cmd rec5.tag).stage = .requested ∧ s.quiescent rec5.tag = false) ∧
    (let s := asking.onQue fun q => { q with csf := [rec5] }
     s.que.csf = rec5 :: [] ∧ s.dark (rec5.sqid / 16) = false ∧ s.is (Reg.QUE_CFG_ENABLE 48) = true ∧
     s.is (Reg.QUE_CFG_CQ_LOC 48) = false ∧ (s.wr (Reg.QUE_CFG_CQ_LOC 48) 1).is (Reg.QUE_CFG_CQ_LOC 48) = true ∧
     (s.wr (Reg.QUE_CFG_ENABLE 48) 0).is (Reg.QUE_CFG_ENABLE 48) = false ∧ (s.pair 48).claimed - 1 = 0 ∧
     (s.onQue fun q => { q with dark := [3] }).dark (rec5.sqid / 16) = true ∧ (tget [] s.que.parked 3).length < 512) := by
  decide +kernel

theorem witness_FifoMismatchesEmptyOneFifo :
    up.pwr.st = .active ∧ up.sys.noClk = false ∧
    (let s := (withCmds up [cm 5 { pk with opcode := 0x30 }]).onQue fun q => { q with inbox := [5], csf := [rec5] }
     5 ∈ s.que.inbox ∧ s.cmd? 5 = some (cm 5 { pk with opcode := 0x30 }) ∧ rec5 ∈ s.que.csf) ∧
    (let s := (withCmds up [cm 5 { pk with opcode := 0x18 } .running]).onDmaCh 15 fun d => { d with queue := [{ tag := 5 }] }
     15 < 16 ∧ ({ tag := 5 } : Xfer) ∈ (s.dmaCh 15).queue ∧ s.cmd? 5 = some (cm 5 { pk with opcode := 0x18 } .running)) ∧
    7 < 8 ∧ 255 < 256 := by decide +kernel

/-! ### Packets: frames, blocks, buffers and map pages -/

/-- The packet stands in the tag table with tag 5. -/
def prep (p : Pkt) (s : State := up) : State := withCmds s [cm 5 p]

/-- Buffer i is allocated, with these names, of generation 1. -/
def own (i : Nat) (o : List Nat) (s : State) : State :=
  s.onCop fun c => { c with bufs := tset {} c.bufs i { alloc := true, gen := 1, grantee := o.headD 0, owners := o } }

/-- The handle of buffer i that CP3 holds. -/
def hd (i : Nat) : Nat := mkHandle i 1 3 false

/-- Two buffers of CP3 and one of CP0. -/
def pool : State := own 2050 [0] (own 2049 [3] (own 2048 [3] up))

/-- Region 1 of the map has frames. -/
def withRgn (s : State) : State :=
  (s.wr Reg.MAP_CTL_ENABLE 1).onMap fun m => { m with rgns := tset {} m.rgns 1 { v := true, cclass := 3, size := 100000 } }

/-- Client 3, SQ 48 and region 1 in the packet's second word. -/
def w4 : Nat := 3 + 48 * 16 + 4096

/-- Store bytes 0x2000 on hold the handles; the same with a word that cannot be read. -/
def listed (s : State) : State := s.hWrite 0x2000 (leBytes 4 (hd 2048) ++ leBytes 4 (hd 2049))
def unlisted (s : State) : State := (listed s).onHdg fun h => { h with marks := tset .clean h.marks 0x400 .bad }

theorem witness_PacketsActOnceWhenReady :
    packetRow (.flush 5) = some (5, opFlush) ∧ (Instr.flush 5).wf = true ∧ up.ready? 5 opFlush = none ∧
    (withCmds up [cm 5 { opcode := opFlush } .running]).ready? 5 opFlush = none ∧ (prep { opcode := opTrim }).ready? 5 opFlush = none := by
  decide +kernel

theorem witness_FailingHandlesStopAPacketWhole :
    (let p : Pkt := { opcode := opProgram, word4 := w4, length := 2, mid := hd 2048 + hd 2050 * 2 ^ 32 }
     let s := prep p pool
     let r := s.handleList p
     s.ready? 5 opProgram = some (cm 5 p) ∧ r.1 = none ∧ r.2.1 = [hd 2048, hd 2050] ∧ 1 < r.2.1.length ∧
     r.2.2.useCheck (hd 2050) p.client ≠ 0 ∧ r.2.2.useCheck (hd 2048) p.client = 0) ∧
    (let p : Pkt := { opcode := opRead, flags := 8 + 2, word4 := w4, length := 2, hlist := 0x2000 }
     let s := unlisted (prep p pool)
     s.ready? 5 opRead = some (cm 5 p) ∧ (cm 5 p).pkt.dest = 2 ∧ (s.handleList p).1 ≠ none ∧ (s.handleList p).2.1 = []) := by
  decide +kernel

theorem witness_ReadsBeginTheirFramesInOrder :
    (let p : Pkt := { opcode := opRead, word4 := w4, length := 2, addr := 40 }
     (prep p).ready? 5 opRead = some (cm 5 p) ∧ p.dest ≠ 2) ∧
    (let p : Pkt := { opcode := opRead, flags := 8, word4 := w4, length := 2, addr := 40, mid := hd 2048 + hd 2049 * 2 ^ 32 }
     let s := prep p pool
     s.ready? 5 opRead = some (cm 5 p) ∧ p.dest = 2 ∧ (s.checkedHandles (cm 5 p)).1 = none ∧
     (s.checkedHandles (cm 5 p)).2.1 = [hd 2048, hd 2049]) ∧
    (let p : Pkt := { opcode := opReadRaw, flags := 1, word4 := w4, length := 1 }
     (prep p).ready? 5 opReadRaw = some (cm 5 p)) := by decide +kernel

theorem witness_ProgramsAcceptAllTheirFramesOrNone :
    (let p : Pkt := { opcode := opAtomic, word4 := w4, length := 2, addr := 40, mid := hd 2048 + hd 2049 * 2 ^ 32 }
     let s := (prep p (withRgn pool)).wr Reg.PWR_QUOTA_FRAMES 2
     let r := s.checkedHandles (cm 5 p)
     [({ pfa := 7, planes := 1 } : Slot)].all Slot.wf = true ∧ s.ready? 5 opAtomic = some (cm 5 p) ∧ r.1 = none ∧
     r.2.1 = [hd 2048, hd 2049] ∧ p.isPfa = false ∧ p.client < 4 ∧ p.flag 4 = false ∧
     r.2.2.rd Reg.PWR_QUOTA_DIRTY + r.2.1.length ≤ r.2.2.dirtyQuota ∧ p.flag 2 = false) ∧
    (let p : Pkt := { opcode := opProgram, flags := 16, word4 := w4, length := 1, addr := 40, mid := hd 2048 }
     let s := (prep p (withRgn pool)).wr Reg.PWR_QUOTA_FRAMES 1 |>.wr Reg.PWR_QUOTA_DIRTY 1
     let r := s.checkedHandles (cm 5 p)
     s.ready? 5 opProgram = some (cm 5 p) ∧ r.1 = none ∧ p.flag 4 = true ∧
     (∀ h ∈ r.2.1, (r.2.2.buf (hdIndex h)).owners.length < 4) ∧
     r.2.2.dirtyQuota < r.2.2.rd Reg.PWR_QUOTA_DIRTY + r.2.1.length) := by decide +kernel

/-- A die profile of these capabilities (R242). -/
def profile (caps : Nat := 0x7F) : List Byte :=
  zeros 0x10 ++ leBytes 2 16384 ++ leBytes 2 2816 ++ leBytes 2 256 ++ leBytes 2 512 ++ leBytes 1 2 ++ leBytes 1 1 ++
    leBytes 1 1 ++ leBytes 1 1 ++ zeros 4 ++ leBytes 1 9 ++ leBytes 1 9 ++ leBytes 1 10 ++ leBytes 1 19 ++ leBytes 1 3 ++ zeros 3 ++
    leBytes 4 caps ++ zeros 4 ++ leBytes 2 600 ++ leBytes 2 601 ++ leBytes 2 602 ++ zeros 0x1A ++ leBytes 2 3 ++ zeros 0x90 ++
    leBytes 1 3 ++ zeros 0x31D

/-- LUN 37 of channel 1 is in service; the channel is at PRE. -/
def lun37 : State :=
  let s := up.onMcs fun m => { m with img := { m.img with profs := [profile] } }
  let s := s.onChan 1 fun c => { c with bind := tset 8 c.bind 1 0 }
  let s := s.onSys fun y => { y with luns := tset {} y.luns 37 { present := 1 } }
  wrs s [(Reg.CH_STAT_LEVEL 1, 2), (Reg.MCS_CTL_VALID, 1), (Reg.CH_STAT_PWRGD 1, 1)]

theorem witness_ErasesAndCopiesBegin :
    (let p : Pkt := { opcode := opErase, flags := 1, word4 := w4, length := 1, addr := mkPfa 37 0 9 0 0 }
     (prep p).ready? 5 opErase = some (cm 5 p) ∧ (prep p).lunServes (pfaLun p.addr) = false ∧ 1 ≤ p.length ∧
     (prep p lun37).ready? 5 opErase = some (cm 5 p) ∧ (prep p lun37).lunServes (pfaLun p.addr) = true) ∧
    (let p : Pkt := { opcode := opCopy, word4 := w4, length := 2, addr := 40 }
     let s := (prep p).wr Reg.PWR_QUOTA_FRAMES 1
     s.ready? 5 opCopy = some (cm 5 p) ∧ p.cpPfa = false ∧ s.dirtyQuota < s.rd Reg.PWR_QUOTA_DIRTY + p.length ∧
     (s.wr Reg.PWR_QUOTA_FRAMES 2).rd Reg.PWR_QUOTA_DIRTY + p.length ≤ (s.wr Reg.PWR_QUOTA_FRAMES 2).dirtyQuota ∧ p.isPfa = false) ∧
    (let p : Pkt := { opcode := opCopy, flags := 1, word4 := w4, length := 1, addr := mkPfa 37 0 9 0 0 }
     let s := (prep p).wr Reg.PWR_QUOTA_FRAMES 1
     s.ready? 5 opCopy = some (cm 5 p) ∧ p.isPfa = true ∧ s.rd Reg.PWR_QUOTA_DIRTY + p.length ≤ s.dirtyQuota ∧
     s.top.waiting ++ s.top.leases = []) := by decide +kernel

theorem witness_MapPacketsAndFlushesBegin :
    (∀ op ∈ [opTrim, opSync, opPin, opFlush],
      (prep { opcode := op, word4 := w4, length := 2, addr := 40 } (withRgn up)).ready? 5 op =
        some (cm 5 { opcode := op, word4 := w4, length := 2, addr := 40 })) ∧
    (let p : Pkt := { opcode := opPin, word4 := w4, length := 2, addr := 40 }
     let s := prep p (withRgn up)
     p.flag 2 = false ∧ s.pinRefused (s.leafPages p.region p.addr p.length) ≠ none ∧
     (let key : PageKey := { level := 0, region := 1, page := 0 }
      let t := (wrs s [(Reg.MAP_CTL_SLOTS, 248), (Reg.MAP_PIN_QUOTA, 1)]).onMap fun m => { m with slots := [(0, some { key := key, pin := true })] }
      t.ready? 5 opPin = some (cm 5 p) ∧ t.pinRefused (t.leafPages p.region p.addr p.length) = none)) ∧
    (let p : Pkt := { opcode := opPin, flags := 4, word4 := w4, length := 2, addr := 40 }
     (prep p (withRgn up)).ready? 5 opPin = some (cm 5 p) ∧ p.flag 2 = true) := by decide +kernel

/-- A pool with two buffers in the ready stage. -/
def pool2 : State :=
  (wrs pool [(Reg.COP_STAT_READY, 1), (Reg.COP_REBUILD_BUSY, 0)]).onCop fun c => { c with ready := [2051, 2052], heads := [(0, some 2060)], lens := [(0, 6000)] }

theorem witness_BufferPacketsActOnThePool :
    (let p : Pkt := { opcode := opAlloc, flags := 4, word4 := w4, length := 2 }
     let s := prep p pool2
     s.ready? 5 opAlloc = some (cm 5 p) ∧ p.flag 2 = true ∧
     (p.length ≤ s.copG + (s.copQ p.client - s.copU p.client) ∧ p.length ≤ s.copF) ∧ s.is Reg.COP_REBUILD_BUSY = false ∧
     s.is Reg.COP_STAT_READY = true ∧ (prep p (pool2.wr Reg.COP_STAT_READY 0)).is Reg.COP_STAT_READY = false ∧
     (prep p (pool2.wr Reg.COP_STAT_READY 0)).ready? 5 opAlloc = some (cm 5 p)) ∧
    (let p : Pkt := { opcode := opAlloc, word4 := w4, length := 1 }
     (prep p pool2).ready? 5 opAlloc = some (cm 5 p) ∧ p.flag 2 = false ∧ 1 ≤ p.length) ∧
    (let p : Pkt := { opcode := opShare, word4 := w4 + 2 * 2 ^ 24, length := 1, mid := hd 2048 }
     let s := prep p (own 2048 [3, 0, 1, 4] pool)
     let t := prep p (own 2048 [3, 0, 1] pool)
     s.ready? 5 opShare = some (cm 5 p) ∧ (s.checkedHandles (cm 5 p)).1 = none ∧ (s.checkedHandles (cm 5 p)).2.1 = [hd 2048] ∧
     2 ∉ (s.buf 2048).owners ∧ 4 ≤ (s.buf 2048).owners.length ∧ (t.checkedHandles (cm 5 p)).2.1 = [hd 2048] ∧
     (t.buf 2048).owners.length < 4) ∧
    (let p : Pkt := { opcode := opFree, word4 := w4, length := 1, mid := hd 2048 }
     let s := prep p pool
     s.ready? 5 opFree = some (cm 5 p) ∧ (s.handleList p).1 = none ∧ (s.handleList p).2.1 = [hd 2048] ∧
     s.freeCheck (hd 2048) p.client = 0 ∧ (prep p up).freeCheck (hd 2048) p.client ≠ 0) := by decide +kernel

theorem witness_FreesThatFailChangeNothing :
    up.freeCheck (BitVec.ofNat 32 (hd 2048)).toNat 3 ≠ 0 ∧ pool.freeCheck (BitVec.ofNat 32 (hd 2048)).toNat 0 ≠ 0 := by decide +kernel

theorem witness_FreesThatPassRemoveOneName :
    let h : W32 := BitVec.ofNat 32 (hd 2048)
    pool2.freeCheck h.toNat 3 = 0 ∧ ((pool2.buf (hdIndex h.toNat)).owners.filter fun o => o != 3) = [] ∧
    (pool2.buf (hdIndex h.toNat)).holds = 0 ∧ pool2.is Reg.COP_REBUILD_BUSY = false ∧ pool2.is Reg.COP_STAT_READY = true ∧
    pool2.cop.ready.length < 16 ∧ (own 2048 [3, 0] pool2).freeCheck h.toNat 3 = 0 ∧
    16 ≤ (pool2.onCop fun c => { c with ready := List.range 16 }).cop.ready.length := by decide +kernel

/-! ### DMA -/

/-- A transfer of a fixed pattern into DRAM by tag 5. -/
def xf : Xfer := { tag := 5, len8 := 2, srcK := 3, dstK := 1, dst := 0x1000 }

/-- Channel n's shadow set holds a transfer; the transfer is active; wing w's DCQ is on, in store region 0. -/
def shadow (n : Nat) (x : Xfer) (s : State) : State := s.onDmaCh n fun d => { d with shadow := some x }
def active (n : Nat) (x : Xfer) (s : State) : State := s.onDmaCh n fun d => { d with act := some x }
def dcqOn (w : Nat) (s : State) : State :=
  wrs s [(Reg.DMA_W_DCQ_CFG_ENABLE w, 1), (Reg.DMA_W_DCQ_CFG_SIZE w, 4), (Reg.DMA_W_DCQ_BASE_BASE w, 0xC0)]

/-- A DMA_MOVE of CP3. -/
def move (param : Nat) : Pkt :=
  { opcode := opDma, flags := 7, word4 := 3 + 48 * 16 + param * 2 ^ 24, length := 16, addr := 0x1122334455667788, mid := 0x1000 }

/-- DMA_MOVE of tag 5 under way. -/
def moving : State := withCmds up [cm 5 (move 3) .running]

theorem witness_DmaMovesQueueAndStart :
    (let s := prep (move 15)
     s.ready? 5 opDma = some (cm 5 (move 15)) ∧ (move 15).listed = false ∧ (move 15).param < 16 ∧ (s.dmaCh 15).queue.length < 8 ∧
     8 ≤ ((s.onDmaCh 15 fun d => { d with queue := List.replicate 8 xf }).dmaCh 15).queue.length) ∧
    (let s := prep (move 0xFF)
     s.ready? 5 opDma = some (cm 5 (move 0xFF)) ∧ (move 0xFF).param = 0xFF ∧ (s.dmaCh (8 * s.dmaWing (move 0xFF) + 7)).idle = true) ∧
    (let s := up.onDmaCh 15 fun d => { d with queue := [xf] }
     (s.dmaCh 15).shadow = none ∧ (s.dmaCh 15).queue = xf :: [] ∧ (up.dmaCh 15).queue = []) ∧
    (let s := shadow 15 xf up
     (s.dmaCh 15).act = none ∧ (s.dmaCh 15).shadow = some xf ∧ (s.is (Reg.DMA_W_DCQ_CFG_ENABLE 1) && !(s.dcq 1).closing) = false) ∧
    (let s := dcqOn 1 (shadow 15 xf up)
     (s.is (Reg.DMA_W_DCQ_CFG_ENABLE 1) && !(s.dcq 1).closing) = true ∧
     ((s.wr (Reg.DMA_W_DCQ_PTR_TAIL 1) 14).dcqFill 1 + (s.dcq 1).claims + 1 < s.dcqSize 1) ∧
     s.dcqSize 1 ≤ (s.wr (Reg.DMA_W_DCQ_PTR_TAIL 1) 15).dcqFill 1 + (s.dcq 1).claims + 1) := by decide +kernel

theorem witness_DmaTransfersMoveTheirBytes :
    (let s := active 3 xf moving
     (s.dmaCh 3).act = some xf ∧ s.cmd? xf.tag = some (cm 5 (move 3) .running) ∧ xf.paused = false ∧
     xf.pace = false ∧ xf.srcK = 3 ∧ xf.append = false ∧ ({ moved := 0, dram := [], dramErr := false } : DmaEnd).dramErr = false ∧
     xf.dstK = 1) ∧
    (let x := { xf with dstK := 0, dst := 0x1FFFFF0 }
     let s := active 3 x moving
     (s.dmaCh 3).act = some x ∧ x.dstK = 0 ∧ x.dst + 8 * x.len8 = 0x2000000 ∧
     ∀ i, i < 8 * x.len8 → s.hRefused (x.dst + i) = false) := by decide +kernel

theorem witness_PacedAndHeldTransfersWait :
    (up.dmaCh 3).act = none ∧
    (let x := { xf with paused := true }
     ((active 3 x moving).dmaCh 3).act = some x ∧ x.paused = true) ∧
    (let x := { xf with pace := true }
     ((active 3 x moving).dmaCh 3).act = some x ∧ (active 3 x moving).paceLevel 3 = 0) ∧
    (let x := { xf with dstK := 3, port := 2 }
     ((active 3 x moving).dmaCh 3).act = some x ∧ ((active 3 x moving).onQue fun q => { q with dark := [2] }).dark x.port = true) ∧
    (let x := { xf with dstK := 2 }
     let s := (withCmds (active 3 x pool) [{ cm 5 (move 3) .running with handles := [hd 2048] }]).onCop fun c =>
       { c with bufs := tset {} c.bufs 2048 { alloc := true, gen := 1, owners := [3], holds := 15 } }
     (s.dmaCh 3).act = some x ∧ hd 2048 ∈ (s.cmd x.tag).handles ∧ 15 ≤ (s.buf (hdIndex (hd 2048))).holds) ∧
    (let x := { xf with pace := true }
     let s := (wrs (active 3 x moving) [(Reg.DMA_PACE_QSEL 3, 13), (Reg.DMA_PACE_LOW 3, 4), (Reg.DMA_PACE_HIGH 3, 6)])
     3 < 16 ∧ (s.dmaCh 3).act = some x ∧ s.rd (Reg.DMA_PACE_QSEL 3) = 4 * (3 : Fin 4).val + (1 : Fin 4).val ∧ s.dark 3 = false ∧
     tget none s.que.att 3 ≠ none ∧ (4 : BitVec 12).toNat ≤ s.rd (Reg.DMA_PACE_LOW 3) ∧ s.rd (Reg.DMA_PACE_LOW 3) < (5 : BitVec 12).toNat ∧
     s.paceHigh 3 ≤ (6 : BitVec 12).toNat) := by decide +kernel

/-- A DMA record that waits for its packet record. -/
def drec (granted : Bool) : DmaRec :=
  { tag := 5, ch := 3, status := 0, appended := false, paused := false, moved := 2, crc := 7, granted := granted }

theorem witness_DmaRecordsGoToDcqsThatAreConsumed :
    Served (dcqOn 1 up) .port ∧
    (let s := (dcqOn 0 up).onDmaCh 3 fun d => { d with done := [drec false, drec true] }
     (s.dmaCh 3).done.find? (fun r => r.granted) = some (drec true) ∧ (∀ r ∈ (up.dmaCh 3).done, r.granted = false) ∧
     s.is (Reg.DMA_W_DCQ_CFG_LOC 0) = false ∧ (s.wr (Reg.DMA_W_DCQ_CFG_LOC 0) 1).is (Reg.DMA_W_DCQ_CFG_LOC 0) = true ∧
     ((s.onDcq 0 fun q => { q with closing := true, claims := 1 }).dcq 0).closing = true) ∧
    (let s := (dcqOn 1 up).wr (Reg.DMA_W_DCQ_PTR_TAIL 1) 5
     s.is (Reg.DMA_W_DCQ_CFG_ENABLE 1) = true ∧ bits 5 0 12 < s.dcqSize 1 ∧
     (bits 5 0 12 + s.dcqSize 1 - s.rd (Reg.DMA_W_DCQ_PTR_HEAD 1)) % s.dcqSize 1 ≤ s.dcqFill 1 ∧
     s.dcqFill 1 < (bits 6 0 12 + s.dcqSize 1 - s.rd (Reg.DMA_W_DCQ_PTR_HEAD 1)) % s.dcqSize 1 ∧ s.dcqSize 1 ≤ bits 16 0 12 ∧
     bit 0 0 = false ∧ (s.dcq 1).claims = 0 ∧ ((s.onDcq 1 fun q => { q with claims := 1 }).dcq 1).claims ≠ 0) ∧
    (let s := wrs up [(Reg.DMA_W_DCQ_BASE_BASE 1, 0xC0)]
     s.is (Reg.DMA_W_DCQ_CFG_ENABLE 1) = false ∧ bit 0x11 0 = true ∧ 4 ≤ bits 0x11 2 4 ∧ bits 0x11 2 4 ≤ 12 ∧
     s.ringOk (bit 0x11 1) (s.rd (Reg.DMA_W_DCQ_BASE_BASE 1)) (16 * 2 ^ bits 0x11 2 4) = true ∧ ¬ 4 ≤ bits 0xD 2 4 ∧
     ¬ bits 0x35 2 4 ≤ 12) := ⟨served_port rfl, by decide +kernel⟩

/-! ### MAINT, POWER and ABORT -/

/-- Policy firmware runs, and a packet of CP3 with tag 5 stands in its inbox. -/
def slow (p : Pkt) (s : State := up) : State :=
  (withCmds { (s.wr Reg.HLY_CTL_READY 1) with hly := { s.hly with running := true } } [cm 5 { p with word4 := p.word4 + 3 + 48 * 16 }]).onQue
    fun q => { q with inbox := [5] }

/-- The command that `slow` puts in the tag table. -/
def slowCmd (p : Pkt) : Cmd := cm 5 { p with word4 := p.word4 + 3 + 48 * 16 }

/-- A MAINT of a kind. -/
def maint (kind addr : Nat) (fl : Nat := 0) : Pkt := { opcode := opMaint, flags := fl, addr := addr, word4 := kind * 2 ^ 24 }

theorem witness_MaintPacketsAskForTheirLeases :
    (∀ kind, kind < 7 → (slow (maint kind 9)).maint? 5 kind = some (slowCmd (maint kind 9))) ∧
    (let s := slow (maint 0 9)
     let v := (s.takeInbox 5).wantCalibs
     v.leaseConflict .scrub [resRgn 9] = none ∧ s.hAllocated 9 = false ∧ (slow (maint 0 9 4)).maint? 5 0 = some (slowCmd (maint 0 9 4)) ∧
     (slowCmd (maint 0 9 4)).pkt.flag 2 = true) ∧
    (let s := slow (maint 0 9) (up.onTop fun t => { t with leases := [{ act := .gorse, res := [resRgn 9] }] })
     let v := (s.takeInbox 5).wantCalibs
     s.maint? 5 0 = some (slowCmd (maint 0 9)) ∧ (slowCmd (maint 0 9)).pkt.flag 2 = false ∧
     v.leaseConflict .scrub [resRgn 9] = some (resRgn 9)) ∧
    (slow (maint 5 9) (own (9 * 256) [3] up)).hAllocated 9 = true ∧
    ((slow (maint 2 7)).level 7 = 0 ∧ (slow (maint 2 1) lun37).level 1 ≠ 0) ∧
    (let a := mkPfa 37 0 0 0 0
     let s := slow (maint 1 a) lun37
     s.lunServes (pfaLun a) = true ∧ s.groupFirst a = true ∧ 2 ≤ s.level (lunCh (pfaLun a)) ∧ s.groupFirst (a + 1) = false ∧
     (s.wr (Reg.CH_STAT_LEVEL 1) 1).level (lunCh (pfaLun a)) < 2 ∧ (s.wr (Reg.CH_STAT_LEVEL 1) 1).lunServes (pfaLun a) = true ∧
     (slow (maint 1 a)).lunServes (pfaLun a) = false) := by decide +kernel

/-- A POWER packet for a state. -/
def pw (param : Nat) (fl : Nat := 0) : Pkt := { opcode := opPower, flags := fl, word4 := 3 + 48 * 16 + param * 2 ^ 24 }

/-- An entry for NAP by tag 6 is under way. -/
def entering (old : Cmd := cm 6 (pw 2) .running) (k : Nat := 2) (s : State := up) : State :=
  (s.onQue fun q => { q with cmds := old :: q.cmds }).onPwr fun p => { p with entry := some (6, k) }

/-- A Holly image header with a matching checksum, and no image. -/
def hollyHeader : List Byte :=
  let h := leBytes 4 0x4C504C48 ++ [1, 2, 2, 0] ++ leBytes 4 192 ++ leBytes 4 0 ++ leBytes 4 64 ++ leBytes 2 7 ++ zeros 38
  h ++ leBytes 4 (crc32c (h ++ zeros 4))

/-- The words of Yew from word a on that hold these bytes. -/
def yewWords (a : Nat) : List Byte → Tab Nat
  | b0 :: b1 :: b2 :: b3 :: b4 :: b5 :: b6 :: b7 :: l => (a, leAt [b0, b1, b2, b3, b4, b5, b6, b7] 0 8) :: yewWords (a + 1) l
  | _ => []

/-- A slot of Yew holds these bytes, and Yew holds nothing else. -/
def putSlot (mcs : Bool) (bank : Nat) (l : List Byte) (s : State) : State :=
  s.onYew fun y => { y with words := yewWords (slotBase mcs bank / 8) l }

theorem witness_PowerStatesAreEnteredAndLeft :
    (let s := prep (pw 0)
     s.ready? 5 opPower = some (cm 5 (pw 0)) ∧ s.powerTag = none ∧ s.pwr.econ = none ∧ (pw 0).param = 0 ∧
     s.rd Reg.PWR_CTL_ECON = b2n ((pw 0).flag 2) ∧ (prep (pw 0 4)).ready? 5 opPower = some (cm 5 (pw 0 4)) ∧
     s.rd Reg.PWR_CTL_ECON ≠ b2n ((pw 0 4).flag 2) ∧ (s.onPwr fun p => { p with econ := some (6, 1, 1) }).pwr.econ = some (6, 1, 1)) ∧
    (let s := entering (s := prep (pw 3))
     s.ready? 5 opPower = some (cm 5 (pw 3)) ∧ (pw 3).param = 3 ∧ s.powerTag = some 6 ∧ s.cmd? 6 = some (cm 6 (pw 2) .running) ∧
     (prep (pw 2)).ready? 5 opPower = some (cm 5 (pw 2)) ∧ (prep (pw 2)).powerTag = none) ∧
    (let s := up.wr Reg.PWR_CTL_IDLE_EN 1
     s.pwr.st = .active ∧ s.is Reg.PWR_CTL_IDLE_EN = true ∧ s.workBut none = false ∧ s.pwr.waking = none ∧ s.pwr.hold = 0 ∧
     s.pwr.warn = false ∧ s.sys.warmRun = none ∧ s.sys.noClk = false ∧ (up.wr Reg.PWR_CTL_IDLE_EN 0).is Reg.PWR_CTL_IDLE_EN = false) ∧
    (let s := up.onPwr fun p => { p with st := .idle, waking := some 0 }
     s.pwr.st = .idle ∧ s.pwr.waking ≠ none ∧ (inPwr .nap s).pwr.st = .nap ∧ 2 ≤ lun37.level 1 ∧ up.level 7 < 2 ∧
     (inPwr .dormant s).pwr.waking = some 0) ∧
    (let s := entering
     s.pwr.entry = some (6, 2) ∧ s.cmd? 6 = some (cm 6 (pw 2) .running) ∧ (cm 6 (pw 2) .running).accepted = false ∧
     s.quiescent 6 = true ∧ (entering (cm 6 (pw 3) .running) 3).quiescent 6 = true ∧
     (entering (s := prep pk)).quiescent 6 = false) ∧
    (State.reset.sys.noClk = true ∧ State.reset.pwr.st = .active ∧ State.reset.hollyHead State.reset.actHolly ≠ none ∧
     State.reset.hollyHead (1 - State.reset.actHolly) ≠ none) ∧
    (let s := (up.wr Reg.HLY_STAT_NO_IMAGE 1).onPwr fun p => { p with st := .dormant, waking := some 1 }
     s.sys.noClk = false ∧ s.pwr.waking = some 1 ∧ s.is Reg.HLY_STAT_NO_IMAGE = true ∧ up.is Reg.HLY_STAT_NO_IMAGE = false) := by
  decide +kernel

theorem witness_PowerStatesAreEnteredAndLeft_images :
    (let s := putSlot false 0 hollyHeader State.reset
     s.actHolly = 0 ∧ s.hollyHead 0 = none) ∧
    (let s := putSlot false 1 hollyHeader State.reset
     s.hollyHead s.actHolly ≠ none ∧ s.hollyHead (1 - s.actHolly) = none) := by decide +kernel

/-- An ABORT of tag 6 by a client, beside a command of tag 6. -/
def aborting (cl : Nat) (x : List Cmd) : State :=
  withCmds up ([cm 5 { opcode := opAbort, addr := 6, word4 := cl + 48 * 16 }] ++ x)
def abortCmd (cl : Nat) : Cmd := cm 5 { opcode := opAbort, addr := 6, word4 := cl + 48 * 16 }
def target (op cl : Nat) (past : Bool := false) : Cmd := { cm 6 { opcode := op, word4 := cl + 48 * 16 } .running with past := past }

theorem witness_AbortsRemoveOrSayWhyNot :
    ((aborting 3 []).ready? 5 opAbort = some (abortCmd 3) ∧ (aborting 3 []).cmd? ((abortCmd 3).pkt.addr % 4096) = none) ∧
    (let s := aborting 1 [target opFlush 2]
     s.ready? 5 opAbort = some (abortCmd 1) ∧ s.cmd? 6 = some (target opFlush 2) ∧ (abortCmd 1).pkt.client ≠ 3 ∧
     (target opFlush 2).pkt.client ≠ (abortCmd 1).pkt.client) ∧
    (let s := aborting 3 [target opAbort 2]
     s.cmd? 6 = some (target opAbort 2) ∧ (abortCmd 3).pkt.client = 3 ∧ (target opAbort 2).pkt.opcode = opAbort) ∧
    (let s := aborting 2 [target opTrim 2 true]
     s.cmd? 6 = some (target opTrim 2 true) ∧ (target opTrim 2 true).pkt.client = (abortCmd 2).pkt.client ∧
     s.removable (target opTrim 2 true) = false) ∧
    (let s := aborting 3 [target opFlush 2]
     s.removable (target opFlush 2) = true ∧ (target opFlush 2).pkt.opcode = opFlush ∧ (target opFlush 2).tag ≠ 5) ∧
    (let s := (aborting 3 [target opMaint 2]).onQue fun q => { q with inbox := [6] }
     s.removable (target opMaint 2) = true ∧ opSlow (target opMaint 2).pkt.opcode = true) := by decide +kernel

/-! ### The packets that policy firmware serves -/

/-- An ATTACH of a port with a tag range and a reserve; a DETACH; a DISCOVER of a scope. -/
def attach (port base n q : Nat) : Pkt :=
  { opcode := opAttach, word4 := port * 2 ^ 24, addr := base + n * 2 ^ 16 + q * 2 ^ 32 }
def detach (port : Nat) (fl : Nat := 0) : Pkt := { opcode := opDetach, flags := fl, word4 := port * 2 ^ 24 }
def discover (scope a : Nat) : Pkt := { opcode := opDiscover, word4 := scope * 2 ^ 24, addr := a }

/-- Port 1 is attached with tags 256 to 271. -/
def ported : State := up.onQue fun q => { q with att := tset none q.att 1 (some (256, 16)) }

/-- A command of port 1 is outstanding beside the slow packet. -/
def beside (s : State) : State := s.onQue fun q => { q with cmds := q.cmds ++ [{ tag := 256, pkt := { opcode := opFlush, word4 := 1 }, stage := .running }] }

theorem witness_PortsAreAttachedDetachedDarkAndBack :
    (let p := attach 2 271 16 0
     (slow p ported).slow? 5 opAttach = some (slowCmd p) ∧ tget none (slow p ported).que.att 1 = some (256, 16) ∧ 1 ≠ 2 ∧
     271 < 256 + 16 ∧ 256 < 271 + 16) ∧
    (let p := attach 3 6 16 0
     (slow p).slow? 5 opAttach = some (slowCmd p) ∧ (5 : Tag).val < 6 ∧
     ∀ o, o < 4 → o ≠ 3 → tget none (slow p).que.att o = none) ∧
    (let p := attach 1 256 16 4
     let s := beside (slow p ported)
     s.slow? 5 opAttach = some (slowCmd p) ∧ tget none s.que.att 1 ≠ none ∧ (s.portCmds 1 5).length ≠ 0 ∧
     tget none (slow p).que.att 1 = none ∧ (slow p).copSum 1 4 ≤ (slow p).poolSize ∧ (∀ o, o < 3 → tget none (slow p).que.att o = none) ∧
     tget none (slow p).que.att 3 = some (0, 256)) ∧
    (let p := attach 1 256 16 8000
     (slow p).slow? 5 opAttach = some (slowCmd p) ∧ (slow p).poolSize < (slow p).copSum 1 8000) ∧
    (let p := detach 1
     let s := slow p ported
     s.slow? 5 opDetach = some (slowCmd p) ∧
     (s.que.cmds.filter fun d => d.tag == 5 || (d.pkt.opcode == opDetach && d.stage == .running)) = [slowCmd p] ∧
     s.dark 1 = false ∧ p.flag 2 = false ∧ (∀ d ∈ s.que.cmds, d.pkt.client = 1 → d.tag = 5) ∧
     (∃ d ∈ (beside s).que.cmds, d.pkt.client = 1 ∧ d.tag ≠ 5) ∧
     ((beside s).que.cmds.filter fun d => d.tag == 5 || (d.pkt.opcode == opDetach && d.stage == .running)) = [slowCmd p]) ∧
    ((slow (detach 1 4) ported).slow? 5 opDetach = some (slowCmd (detach 1 4)) ∧ (slowCmd (detach 1 4)).pkt.flag 2 = true) ∧
    (let s := ported.onQue fun q => { q with dark := [1, 2] }
     s.dark 0 = false ∧ s.dark 2 = true ∧ tget none s.que.att 2 = none ∧ s.dark 1 = true ∧ tget none s.que.att 1 ≠ none) := by
  decide +kernel

/-- A held lease; a lease that waits. -/
def leased (act : Act) (res : List (Nat × Nat)) (s : State) (tag : Option Nat := none) : State :=
  s.onTop fun t => { t with leases := [{ act := act, res := res, tag := tag }] }
def waiting (act : Act) (res : List (Nat × Nat)) (s : State) : State :=
  s.onTop fun t => { t with waiting := [{ act := act, res := res }] }

/-- One torn group. -/
def torn1 : Torn := { pfa := 0, passes := none, of := 1, source := 0, failed := 1 }

theorem witness_ChannelsAreDiscoveredAndCompared :
    (let p := discover 0 0
     (slow p).slow? 5 opDiscover = some (slowCmd p) ∧ (slowCmd p).pkt.param = 0 ∧
     ((scopeOf (slowCmd p).pkt).find? fun n => !bit ((slow p (up.wr Reg.PWR_DOM_EN 0)).rd Reg.PWR_DOM_EN) (n / 2)) = some 0 ∧
     (slowCmd (discover 1 7)).pkt.param = 1 ∧ (slowCmd (discover 2 3)).pkt.param = 2) ∧
    (let p := discover 2 3
     let s := slow p (up.wr Reg.PWR_DOM_EN 8)
     s.slow? 5 opDiscover = some (slowCmd p) ∧ (∀ n ∈ scopeOf (slowCmd p).pkt, bit (s.rd Reg.PWR_DOM_EN) (n / 2) = true) ∧
     s.hly.actv = none ∧ (∃ n ∈ scopeOf (slowCmd p).pkt, bit (s.rd Reg.PWR_DOM_PG_FAIL) (n / 2) = false) ∧
     (s.onHly fun h => { h with actv := some { mcs := false, bank := 0, tag := 6 } }).hly.actv ≠ none) ∧
    (up.discReady 7 = false ∧ (leased .discover [resCh 1] lun37).discReady 1 = true) ∧
    ([fnd 1 0, fnd 7 9].all Found.wf = true ∧ (up.chan 1).disc = false ∧
     ((up.onChan 1 fun c => { c with disc := true }).chan 1).disc = true ∧ up.lunPos 255 ≠ 1 ∧ lun37.lunPos 37 = 1) ∧
    (up.is Reg.ERR_TORN_READY = false ∧ up.sys.noClk = false ∧ (up.wr Reg.ERR_TORN_READY 1).is Reg.ERR_TORN_READY = true ∧
     State.reset.sys.noClk = true ∧ [torn1] ≠ [] ∧ 255 < up.err.torn.length + (List.replicate 256 torn1).length) := by decide +kernel

/-- A SET_POLICY of parameter n; policy firmware's parameters. -/
def setPol (n v : Nat) (fl : Nat := 0) : Pkt := { opcode := opPolicy, flags := fl, addr := n + v * 2 ^ 32 }
def withPol (s : State) : State :=
  s.onHly fun h => { h with params := [(1, 0, 100, 5, false), (2, 0, 255, 0, false), (3, 2, 10, 7, true)] }

theorem witness_SetPolicyChangesOneParameter :
    (let p := setPol 9 0
     let s := withPol (slow p)
     s.slow? 5 opPolicy = some (slowCmd p) ∧ (s.hly.params.all fun x => x.1 != 9) = true) ∧
    (let s := withPol (slow (setPol 3 11))
     s.hly.params.find? (fun x => x.1 == 3) = some (3, 2, 10, 7, true) ∧ 10 < bits (slowCmd (setPol 3 11)).pkt.addr 32 32 ∧
     bits (slowCmd (setPol 3 1)).pkt.addr 32 32 < 2) ∧
    (let p := setPol 3 10
     let s := withPol (slow p)
     s.slow? 5 opPolicy = some (slowCmd p) ∧ bits (slowCmd p).pkt.addr 0 16 = 3 ∧ bits (slowCmd p).pkt.addr 32 32 = 10 ∧
     s.policyBad 3 10 = false ∧ (slowCmd p).pkt.flag 2 = false ∧ (slowCmd (setPol 3 10 4)).pkt.flag 2 = true) ∧
    (let p := setPol 2 37
     let s := withPol (slow p lun37)
     s.slow? 5 opPolicy = some (slowCmd p) ∧ s.hly.params.find? (fun x => x.1 == 2) = some (2, 0, 255, 0, false) ∧
     s.policyBad 2 37 = false ∧ 37 ≤ 255 ∧ s.lunPos 37 = 1) := by decide +kernel

theorem witness_GetInfoWritesItsPage :
    (∀ page, page < 7 → (slow { opcode := opInfo, word4 := page * 2 ^ 24, hlist := 0x8000 }).slow? 5 opInfo =
        some (slowCmd { opcode := opInfo, word4 := page * 2 ^ 24, hlist := 0x8000 }) ∧
      (slowCmd { opcode := opInfo, word4 := page * 2 ^ 24, hlist := 0x8000 }).pkt.param = page) ∧
    up.rd Reg.GLB_ID_FAMILY = 0x504C ∧ up.rd Reg.GLB_ID_MAJOR = 2 ∧ up.rd Reg.GLB_ID_MINOR = 0 := by decide +kernel

/-! ### The map walker -/

/-- The map is on with four regions, and policy firmware runs. -/
def mapped : State := { withRgn (wrs up [(Reg.MAP_CTL_SLOTS, 248), (Reg.MAP_CTL_NREG, 4)]) with hly := { up.hly with running := true } }

/-- A leaf page and a directory page of region 1. -/
def leaf : PageKey := { level := 0, region := 1, page := 3 }
def dir : PageKey := { level := 1, region := 1, page := 0 }

/-- A miss of the leaf page. -/
def missing (stage parts : Nat) (bad : Bool := false) : Miss :=
  { key := leaf, slot := some 5, stage := stage, bad := bad, parts := (List.range parts).map fun q => (q, zeros q), pfa := 9, cclass := 3, seq := 2 }

/-- The directory page is resident and dirty in slot 5; a write-back of it has ended. -/
def dirty : State :=
  { mapped with
    mcs := lun37.mcs, chs := lun37.chs, sys := lun37.sys, regs := (wrs mapped [(Reg.CH_STAT_LEVEL 1, 2), (Reg.MCS_CTL_VALID, 1)]).regs
    que := { mapped.que with cmds := [{ cm 5 { opcode := opSync, word4 := w4 } .running with pages := [dir] }] }
    map := { mapped.map with slots := [(5, some { key := dir, dirty := true })] } }
def wrote (bad changed evict : Bool) : WB := { key := dir, pfa := 0x1234, seq := 7, changed := changed, evict := evict, bad := bad }

theorem witness_MapPagesAreFilledAndWrittenBack :
    (leaf.wf = true ∧ dir.wf = true) ∧
    (∀ stage ∈ [1, 2], ∀ parts ∈ [3, 4], ∀ bad ∈ [false, true],
      let s := mapped.onMap fun m => { m with miss := [missing stage parts bad] }
      s.miss? leaf = some (missing stage parts bad) ∧ (missing stage parts bad).slot = some 5 ∧ s.ecc.flights = [] ∧
      s.hRefused (s.slotAddr 5) = false) := by decide +kernel

theorem witness_MapPagesAreFilledAndWrittenBack_more :
    (let s := mapped.onMap fun m => { m with broken := [leaf] }
     leaf ∈ s.map.broken ∧ s.is Reg.MAP_CTL_ENABLE = true ∧ s.hly.running = true) ∧
    (let a := mkPfa 37 0 9 0 0
     ({ pfa := a, planes := 1 } : Slot).wf = true ∧ dirty.pwr.hold = 0 ∧ dirty.wbMayStart dir = true ∧
     (∀ q, q < 4 → dirty.canProgram 3 (dirty.pfaNext 3 a q) = true) ∧
     ∀ q, q < 4 → ∀ r, r < 4 → q < r → dirty.pfaNext 3 a r ≠ dirty.pfaNext 3 a q) := by decide +kernel

theorem witness_MapPagesAreFilledAndWrittenBack_ends :
    (∀ bad ∈ [false, true], ∀ changed ∈ [false, true], ∀ evict ∈ [false, true],
      let s := dirty.onMap fun m => { m with wbs := [wrote bad changed evict] }
      (s.map.wbs.find? fun w => w.key == dir) = some (wrote bad changed evict) ∧ s.top.pfs = [] ∧ dir.level = 1 ∧
      s.hRefused (s.mapCtl + 8 * ((s.lrgn dir.region.val).root + dir.page)) = false ∧ s.mapFind dir = some 5 ∧
      s.mslot 5 = some { key := dir, dirty := true }) := by decide +kernel

theorem witness_MapPagesAreFilledAndWrittenBack_install :
    ∃ k, (mapped.onMap fun m => { m with broken := [leaf] }).victim leaf = some k := ⟨_, rfl⟩

/-- The store's MAP regions hold zeros but for the words of region 3's entry. -/
def entry3 (a b : Nat) (s : State) : State :=
  let s := s.onHdg fun h => { h with zeroed := [0, 1, 2, 3, 4, 5, 6, 7] }
  s.hWrite (s.mapCtl + 0x8000 + 48) (leBytes 8 a ++ leBytes 8 b)

/-- The words of a region of this class and size; the region itself. -/
def word3 (cclass size : Nat) : Nat := 1 + cclass * 2 + size * 2 ^ 32
def rgn3 : LRgn := { v := true, cclass := 2, size := 1000, root := 7 }

/-- The first read of the register port's request that enables the map. -/
def asks (s : State) : State := { s with resp := .none, regs := (s.when (bit 1 1) fun s => s.wr Reg.MAP_CTL_CFG_ERR 0).regs }

theorem witness_RegionsAreLoadedAndTheMapIsEnabled :
    Served up .port ∧
    (let s := entry3 (word3 2 1000) 7 up
     s.is Reg.MAP_RGN_LOAD_BUSY = false ∧ s.mapRegs ≠ [] ∧ bits 3 0 6 = 3 ∧ (s.fresh.rgnEntry 3).1 = some rgn3 ∧ rgn3.v = true ∧
     (s.lrgn 3).v = false ∧ rgn3.ok = true ∧ (∀ q, q < 64 → (s.lrgn q).overlaps rgn3 = false) ∧
     ((s.onMap fun m => { m with rgns := tset {} m.rgns 63 rgn3 }).lrgn 63).overlaps rgn3 = true) ∧
    (let s := (entry3 0 0 up).onMap fun m => { m with rgns := tset {} m.rgns 3 rgn3 }
     (s.fresh.rgnEntry 3).1 = some {} ∧ (s.lrgn 3).v = true ∧ s.rgnUsed 3 = false ∧
     (withCmds s [cm 5 { opcode := opRead, word4 := 3 * 4096 }]).rgnUsed 3 = true) ∧
    (up.pwr.st = .active ∧ up.is Reg.MAP_CTL_ENABLE = false ∧ bit (1 : W32).toNat 0 = true ∧ up.mapRegionsOk = true ∧
     (up.wr (Reg.HDG_RGN_CLASS 7) 1).mapRegionsOk = false ∧
     (match (asks (entry3 (word3 2 1000) 7 up)).rgnTable.1 with | some l => tableOk l | none => false) = true ∧
     (match (asks (entry3 (word3 0 1000) 7 up)).rgnTable.1 with | some l => !tableOk l | none => false) = true ∧
     up.is Reg.MAP_CTL_REQ = false ∧ (up.wr Reg.MAP_CTL_REQ 1).is Reg.MAP_CTL_REQ = true) := ⟨served_port rfl, by decide +kernel⟩

/-! ### Topiary -/

/-- A read of LUN 37 that is queued; the same with its program in its array phase. -/
def op1 : Op := { id := 1, kind := .read, lun := 37, cls := 1, block := 9, page := 3, deadline := 100 }
def arr : Op := { op1 with kind := .prog, cls := 2, st := .array }

/-- The operations of LUN 37; Boxwood has this budget. -/
def ops (l : List Op) (s : State := lun37) : State := s.onTop fun t => { t with ops := l, nextOp := 50 }
def budget (s : State) : State :=
  wrs s [(Reg.BOX_BUDGET_VCC, 100), (Reg.BOX_BUDGET_VCCQ, 100), (Reg.BOX_CEIL_VCC, 100), (Reg.BOX_CEIL_VCCQ, 100)]
def asked (o : Op) (s : State) : State := (ops [{ o with st := .asked }] s).onBox fun b => { b with asks := [o.id] }

theorem witness_OperationsStartByTokens :
    (let s := ops [op1]
     s.startStopped = false ∧ s.lunServes 37 = true ∧ s.lunStopped 37 = false ∧ (s.openBlocks 37).choose 37 = some op1 ∧
     lun37.startStopped = false ∧ lun37.lunServes 37 = true ∧ lun37.lunStopped 37 = false ∧ (lun37.openBlocks 37).choose 37 = none) ∧
    (∀ o ∈ [op1, { op1 with resuming := true }], ∀ used ∈ [0, 99],
      let s := (asked o (budget lun37)).wr Reg.BOX_INUSE_VCC used
      s.pwr.st = .active ∧ s.nextAsk = some { o with st := .asked } ∧ (s.opCharge o).1 ≤ s.live 0 ∧ (s.opCharge o).2 ≤ s.live 1 ∧
      s.rd Reg.BOX_CHCAP_VCC = 0 ∧ s.neverRail (s.opCharge o).1 (s.opCharge o).2 = none ∧
      (s.grants o (s.opCharge o).1 (s.opCharge o).2 = true ↔ used = 0)) ∧
    (∀ st ∈ [OpSt.won, .lost, .refused],
      let o := { op1 with st := st }
      let s := ops [o] (budget lun37)
      s.op? 1 = some o ∧ o.granted = false ∧ s.lunProf o.lun ≠ none ∧ (s.opCharge o).1 ≤ s.live 0 ∧ (s.opCharge o).2 ≤ s.live 1) ∧
    (let o := { op1 with cls := 3 }
     (ops [o]).op? 1 = some o ∧ o.held = false ∧ o.st = .queued) ∧
    (let s := lun37.onTop fun t => { t with pend := [(1, [{ op := 1, lun := 37 }])] }
     ∃ g ∈ s.segs 1, g.op = 1) := by decide +kernel

theorem witness_LunsArePolledSuspendedResetAndLeased :
    (let s := ops [arr]
     s.arrayOp 37 = some arr ∧ s.lunProf 37 ≠ none ∧ s.polling 37 = false ∧ arr.resetting = 0) ∧
    (let g : WGroup := { lun := 37, block := 9, planes := 1, group := 0, cclass := 3, ord := 7 }
     let s := (ops [{ op1 with ord := 7, gathering := true, kind := .prog }]).onTop fun t => { t with groups := [g] }
     (s.top.groups.find? fun g => g.ord == 7 && !g.forced && !g.ended) = some g ∧ g.isSet g.lun g.block g.cclass (lowPlane g.planes) = true) ∧
    (let s := { (ops [arr, { op1 with id := 2, cls := 0, block := 3 }]).wr (Reg.CH_STAT_LEVEL 1) 3 with aclk := 20 }
     s.lunActive 37 = [arr] ∧ arr.st = .array ∧ arr.lun = (37 : Fin 256).val ∧ s.suspendable arr = true ∧
     arr.susp < s.rd Reg.TOP_SUSP_LIMIT ∧ (s.wr Reg.TOP_SUSP_LIMIT 0).rd Reg.TOP_SUSP_LIMIT ≤ arr.susp ∧
     (s.wr Reg.TOP_SUSP_LIMIT 0).suspendable arr = true) ∧
    (let x := { arr with st := .suspended }
     let s := ops [x]
     s.suspended? 37 = some x ∧ x.resuming = false ∧ x.granted = false ∧ (s.lunActive 37).length ≤ 1 ∧
     ∀ o ∈ s.lunEntries 37, o.id ≠ x.id → o.cls ≤ 1 → s.opEligible o = false) ∧
    (let l : Lease := { act := .train, res := [resCh 7] }
     let s := waiting .train [resCh 7] lun37
     s.pwr.st = .active ∧ s.leaseStopped = false ∧ s.wantCalibs.leaseNext = some l ∧ resCh 7 ∈ l.res) ∧
    (let s := lun37.onTop fun t => { t with retireReq := [37] }
     37 ∈ s.top.retireReq ∧ s.leased (resLun 37) = false ∧ s.top.ops = [] ∧ s.top.run = []) := by
  refine ⟨?_, ?_, ?_, ?_, ?_, ?_⟩ <;> decide +kernel

/-! ### The sequencers -/

/-- The sequencer of channel 7 runs at `upc`, where the control store holds `w`. -/
def seq7 (w : Nat) (upc : Nat := 9) (f : Seq → Seq := id) (s : State := up) : State :=
  (s.onMcs fun m => { m with cs := tset 0 m.cs (s.csIndex upc) w }).onSeq 7 fun _ => f { upc := upc, run := true, ce := some 0 }

/-- The hypotheses that all microwords share: the sequencer runs, in the one-level format, with a clean word, no event
pending, and not at the last address. -/
def issues (s : State) : Bool :=
  s.seqRuns 7 && !s.twoLevel && (s.fetchKeys 7 (s.seq 7).upc).all (fun k => tget 0 s.mcs.csErr k == 0) && (s.seq 7).upc != 16383 &&
    (s.seq 7).evs == 0

/-- A microword of each kind: NOP, SETIM, CE, CMD, ADDR, LDA, WAIT of both forms, BURST of 1 and of 4,800 bytes, RDB, WRB,
PIN, POST, LDI, ALU and MOVS, with fields at the ends of their ranges. -/
def words : List (Nat × Nat) :=
  [(0x00, 0x00000000), (0x03, 0x18000007), (0x04, 0x2000001F), (0x05, 0x280000FF), (0x06, 0x30000006), (0x06, 0x30000029),
    (0x07, 0x38000004), (0x08, 0x40000000), (0x08, 0x4000101F), (0x09, 0x48000001), (0x09, 0x480012C0), (0x0A, 0x50000007),
    (0x0B, 0x58000003), (0x0C, 0x6000000F), (0x0D, 0x680000FF), (0x18, 0xC000FFFF), (0x19, 0xC87FFFFF), (0x1A, 0xD0000013),
    (0x1A, 0xD000005F)]

theorem witness_MicrowordsHaveTheirEffects :
    (words.all fun (o, w) => issues (seq7 w) && (seq7 w).microword 9 == w && ((seq7 w).seq 7).mFault w == none && mOp w == o) = true ∧
    issues (seq7 0 16382) = true ∧ (bus 4800).wf = true ∧ (bus 4800).edgesOk = true ∧ (bus 4800).drift = false ∧
    (bus 4800).preamble = true ∧ ({ bus 0 with edgesOk := false }).wf = true := by decide +kernel

/-- The words of the stores that an upset made uncorrectable. -/
def upset (keys : List Nat) (s : State) : State := s.onMcs fun m => { m with csErr := keys.foldl (fun t k => tset 0 t k 2) m.csErr }

/-- The two-level format: a microword of nanoword 5 at the address, and the nanoword. -/
def two (upc : Nat) (nano : Nat) : State :=
  let s := up.wr Reg.MCS_CTL_FORMAT 1
  seq7 5 upc id (s.onMcs fun m => { m with nano := [(5, nano)] })

theorem witness_SequencersBranchEndAndFault :
    (let s := upset [csKey 7 9] (seq7 0)
     s.seqRuns 7 = true ∧ s.twoLevel = false ∧ s.badFetch 7 = some (csKey 7 9)) ∧
    (let s := upset [nanoKey 7 5] (two 18 0)
     s.seqRuns 7 = true ∧ s.twoLevel = true ∧ s.badFetch 7 = some (nanoKey 7 5)) ∧
    ((seq7 0x780000AA).seq 7).mFault 0x780000AA ≠ none ∧
    (((seq7 0x100000AA).seq 7).mFault 0x100000AA = some (9, 0xAA) ∧ mOp 0x100000AA = 2 ∧ mIllegal 0x100000AA = false) ∧
    (issues (seq7 0x08000005) = true ∧ ((seq7 0x08000005).seq 7).mFault 0x08000005 = none ∧ mOp 0x08000005 = 1) := by decide +kernel

/-- A sequencer with three and with four addresses on its stack. -/
def depth (n : Nat) (q : Seq) : Seq := { q with stack := List.replicate n (3, 0) }

theorem witness_SequencersBranchEndAndFault_branches :
    ([0x80000005, 0x88000005, 0x90000000, 0x98000005].all fun w => issues (seq7 w) && ((seq7 w).seq 7).mFault w == none) = true ∧
    (mOp 0x80000005 = 0x10 ∧ mOp 0x88000005 = 0x11 ∧ mOp 0x90000000 = 0x12 ∧ mOp 0x98000005 = 0x13) ∧
    (let s := seq7 0x80000005
     s.condHolds 7 (s.seq 7) (mCond 0x80000005) (fitBus (bus 0)) = true ∧
     s.condHolds 7 (s.seq 7) (mCond 0x80200005) (fitBus (bus 0)) = false ∧ (issues (seq7 0x80200005 16383) = false) ∧
     mOp 0x80200005 = 0x10 ∧ issues (seq7 0x80200005) = true) ∧
    (((seq7 0x88000005 9 (depth 3)).seq 7).stack.length < 4 ∧ 4 ≤ ((seq7 0x88000005 9 (depth 4)).seq 7).stack.length ∧
     ((seq7 0x90000000 9 (depth 1)).seq 7).stack = (3, 0) :: [] ∧ ((seq7 0x90000000).seq 7).stack = []) ∧
    ((((seq7 0x98000005).seq 7).wreg (mW 0x98000005) + 65535) % 65536 ≠ 0 ∧
     (let s := seq7 0x98000005 9 fun q => { q with w := [(0, 1)] }
      ((s.seq 7).wreg (mW 0x98000005) + 65535) % 65536 = 0)) ∧
    (let s := two 32766 0
     let q := s.seq 7
     let w := s.microword q.upc
     let v := s.nanoword w
     s.seqRuns 7 = true ∧ s.twoLevel = true ∧ (∀ k ∈ s.fetchKeys 7 q.upc, tget 0 s.mcs.csErr k = 0) ∧ q.evs = 0 ∧ q.upc ≠ 32767 ∧
     s.nanoFault q v (bits w 11 5) = none ∧ s.psel q (bits v 64 32) (bits v 15 3) (bits w 11 5) = some 0 ∧ bits v 27 3 = 0 ∧
     mOp 0 ∉ [0x01, 0x08, 0x09, 0x0C, 0x0D]) := by decide +kernel

/-- An Espalier image of one profile and 16 words of control store, whose checks pass (R234 to R245). -/
def espalier : List Byte :=
  let h := leBytes 4 0x4C505345 ++ [0, 0, 2, 0] ++ leBytes 4 2304 ++ [1, 0, 0, 0] ++ leBytes 4 1216 ++ leBytes 4 2240 ++ leBytes 4 64 ++
    zeros 32
  let t := (List.replicate 29 0x8000).flatMap (leBytes 2) ++ zeros 70 ++ (List.replicate 4 0x8000).flatMap (leBytes 2) ++ zeros 1016
  h ++ leBytes 4 (crc32c (h ++ zeros 4 ++ t)) ++ t ++ profile ++ zeros 64

theorem witness_EspalierIsLoadedAndPatched :
    Served up .port ∧ bit (0x8000 : W32).toNat 15 = true ∧ bit (0 : W32).toNat 15 = false ∧
    (up.mcs.loading = none ∧ bit (1 : W32).toNat 0 = true ∧ up.is Reg.MCS_CTL_LOAD_EN = false ∧
     (∀ n, n < 8 → (up.seq n).run = false ∧ (up.seq n).halt = false) ∧ (7 < 8 ∧ ((seq7 0).seq 7).run = true)) ∧
    (0xFFFC % 4 = 0 ∧ 0xFFFC < 0x10000 ∧ (up.wr Reg.MCS_CTL_LOAD_EN 1).is Reg.MCS_CTL_LOAD_EN = true) ∧
    (let s := up.onMcs fun m => { m with loading := some 1 }
     s.mcs.loading = some 1 ∧ s.hly.actv = none ∧ s.mcsFail 1 false = some 1 ∧ s.mcs.tried = 0 ∧
     (s.onMcs fun m => { m with tried := 1 }).mcs.tried ≠ 0) ∧
    (let a : Actv := { mcs := true, bank := 1, tag := 5, stage := 3 }
     let s := (up.onMcs fun m => { m with loading := some 1 }).onHly fun h => { h with actv := some a }
     s.hly.actv = some a ∧ a.mcs = true ∧ a.stage = 3 ∧ s.passFail a = some 9) := ⟨served_port rfl, by decide +kernel⟩

set_option maxRecDepth 20000 in
theorem witness_EspalierIsLoadedAndPatched_image :
    ((putSlot true 1 espalier up).onMcs fun m => { m with loading := some 1 }).mcsFail 1 false = none := by decide +kernel

theorem witness_EspalierIsLoadedAndPatched_pass :
    let s := putSlot true 1 espalier up
    s.passFail { mcs := true, bank := 1, tag := 5, stage := 3, digest := s.slotDigest true 1 } = none := by
  have h : (putSlot true 1 espalier up).slotBusy 1 = false := by decide +kernel
  have hn : (putSlot true 1 espalier up).slotBad true 1
      (max ihSize (min (leAt ((putSlot true 1 espalier up).slotBytes true 1 16) 0x008 4) 131072)) = false := by decide +kernel
  have hl : decide (131072 < leAt ((putSlot true 1 espalier up).slotBytes true 1 16) 0x008 4) = false := by decide +kernel
  simp [State.passFail, hn, hl, h]

/-! ### The flash channels -/

/-- Channel 1 at a level, with LUN 37's target bound, and this training. -/
def ch1 (lvl : Nat) (f : Chan → Chan := id) : State := (lun37.wr (Reg.CH_STAT_LEVEL 1) lvl).onChan 1 f

theorem witness_ChannelsTrainDropAndReset :
    (∀ lvl ∈ [1, 2, 3], ((ch1 lvl).chan 1).relock = none ∧ (ch1 lvl).level 1 = lvl) ∧
    ((1 : Fin 8).val / 2 = (0 : Fin 4).val ∧ bit (lun37.rd Reg.PWR_DOM_EN) 0 = true ∧
     (lun37.wr (Reg.CH_STAT_PWRGD 0) 1).is (Reg.CH_STAT_PWRGD (2 * 0)) = true) ∧
    (∀ climb ∈ [0, 1, 2],
      let s := ch1 2 fun c => { c with relock := some 15, climb := climb }
      (s.chan 1).relock = some 15 ∧ (s.seq 1).run = false ∧ (s.chan 1).train = none ∧ (s.chan 1).climb = climb ∧ 2 ≤ s.level 1) ∧
    ((lun37.wr (Reg.CH_CTL_AUTO_TRAIN 1) 1).is (Reg.CH_CTL_AUTO_TRAIN 1) = true ∧ up.pwr.st ≠ .off) ∧
    (let t : Training := { target := 1, bin := 9 }
     let s := ch1 2 fun c => { c with train := some t }
     (s.chan 1).train = some t ∧ t.slice = false ∧ t.ending = false ∧ s.sliceStopped = false ∧ s.busIdle 1 = true ∧ 2 ≤ s.level 1) := by
  decide +kernel

theorem witness_ChannelsTrainDropAndReset_slices :
    (let t : Training := { target := 1, bin := 9, slice := true, kind := 2 }
     let s := ch1 2 fun c => { c with train := some t }
     (s.chan 1).train = some t ∧ t.slice = true ∧ (s.pwr.hold = 0 ∧ s.pwr.warn = false ∧ s.sys.warmRun = none) ∧ t.kind < 3) ∧
    (let t : Training := { target := 0, bin := 9, slice := true, kind := 3 }
     let s := ch1 2 fun c => { c with train := some t }
     (s.chan 1).train = some t ∧ (s.boundTargets 1).find? (fun x => decide (t.target < x)) = some 1) ∧
    (let t : Training := { target := 1, bin := 4, slice := true, kind := 3 }
     let s := (ch1 2 fun c => { c with train := some t }).wr (Reg.CH_MARGIN_THRESH 1) 8
     (s.chan 1).train = some t ∧ (s.boundTargets 1).find? (fun x => decide (t.target < x)) = none ∧ s.eyeThresh 1 ≤ 8 ∧
     t.bin ≠ s.rd (Reg.CH_STAT_BIN 1) ∧ 7 < s.eyeThresh 1 ∧ t.back = false ∧ s.lowBin 1 < t.bin) ∧
    (let s := (ch1 2 fun c => { c with zqTarget := some 1, zqFail := 1 })
     (s.chan 1).zqTarget = some 1 ∧ s.busIdle 1 = true ∧ (s.boundTargets 1).find? (fun x => decide (1 < x)) = none ∧
     (s.boundTargets 1).find? (fun x => decide (0 < x)) = some 1) ∧
    (let s := leased .zqcal [resCh 1] (withCmds lun37 [cm 5 (maint 4 1) .running]) (some 5)
     s.chTag 1 .zqcal = some 5 ∧ s.cmd? 5 = some (cm 5 (maint 4 1) .running)) ∧
    (let s := ch1 2 fun c => { c with selftest := true }
     (s.chan 1).selftest = true ∧ s.busIdle 1 = true ∧ s.sys.warmRun = none ∧ (0x80000000 : W32).toNat ≠ 0) := by decide +kernel

theorem witness_ChannelsTrainDropAndReset_reset :
    Served up .port ∧
    ((up.chan 7).reset = false ∧ up.sys.warmRun = none ∧ (up.onSys fun y => { y with warmRun := some 3 }).sys.warmRun = some 3) ∧
    (let s := ch1 1 fun c => { c with reset := true }
     (s.chan 1).reset = true ∧ (s.chan 1).disc = false ∧ s.boundTargets 1 ≠ [] ∧ (s.chan 1).chainBad = false ∧
     s.is (Reg.CH_STAT_PWRGD 1) = true ∧ s.is Reg.MCS_CTL_VALID = true ∧ (s.wr Reg.MCS_CTL_VALID 0).is Reg.MCS_CTL_VALID = false) :=
  ⟨served_port rfl, by decide +kernel⟩

/-! ### Decoders, XOR engines and Juniper -/

/-- The metadata of a user frame of zeros; a frame of it, with its checksum; a frame whose checksum fails. -/
def meta0 (poison : Bool) : Meta :=
  { kind := kindUser, region := 2, cclass := 1, name := 77, seq := 5, poison := poison }
def frame0 (poison : Bool) : List Byte :=
  let l := zeros 4096 ++ (meta0 poison).head
  l ++ leBytes 4 (crc32c l)

/-- A flight of LFA 77, whose codeword the map's entry of sequence `sq` names. -/
def flight (sq : Nat := 5) (step : Nat := 0) : Flight :=
  { id := 4, ref := .cmd 5 0, pfa := mkPfa 37 0 9 3 0, cclass := 1, ch := 1, cls := 1, byMap := true, region := 2, lfa := 77
    seq := sq, step := step, buf := true, full := true }

/-- The codeword of a flight stands in its hard decoder and in its wing's soft decoders. -/
def decoding (f : Flight) : State :=
  up.onEcc fun e => { e with flights := [f], hardq := [(1, [4])], softq := [(0, [8, 4])] }

/-- The frame that a decoder gives for a clear frame. -/
def given (f : List Byte) : DecodeRes := run4 (scramble (flight).pfa f)

theorem witness_DecodersEndFramesByTheirChecks :
    (let s := decoding flight
     s.flight? 4 = some flight ∧ flight.dropped = false ∧ s.rd Reg.DBG_FORCE_COUNT = 0 ∧ (tget [] s.ecc.hardq 1).head? = some 4 ∧
     4 ∈ (tget [] s.ecc.softq 0).take 2 ∧ (s.wr Reg.ECC_CTL_ERASED_EN 0).is Reg.ECC_CTL_ERASED_EN = false ∧
     zeroSyndrome flight.cclass flight.bytes = false ∧ flight.ch < 8 ∧ flight.ref = .cmd 5 0 ∧
     { flight with byMap := false }.byMap = false ∧
     (let u := wrs s [(Reg.ECC_CTL_ERASED_EN, 1), (Reg.ECC_ERASED_ZEROS, 3)]
      u.is Reg.ECC_CTL_ERASED_EN = true ∧ zeroBits [0xFC, 0xFE] = 3 ∧ 3 ≤ u.rd Reg.ECC_ERASED_ZEROS) ∧
     (let c : Cand := { score := 9, measured := 1 }
      let u := s.onJnp fun j => { j with calib := tset none j.calib 1 (some { group := 0, cands := [{}, c] }) }
      { flight with ref := .calib 1 }.ref = .calib 1 ∧ tget none u.jnp.calib 1 = some { group := 0, cands := [{}] ++ [c] }) ∧
     (s.wr Reg.ECC_CTL_REPEAT_STOP 1).is Reg.ECC_CTL_REPEAT_STOP = true) ∧
    (let s := up.onEcc fun e => { e with flights := [{ flight with soft := 1 }], sampleq := [(0, [4])] }
     s.samplesUsed 0 < 4 ∧ s.startStopped = false ∧ tget [] s.ecc.sampleq 0 = 4 :: [] ∧ s.flight? 4 = some { flight with soft := 1 }) ∧
    (let o := { op1 with kind := .prog, st := .bus, plan := [{ kind := 3, plane := 1, page := 3 }] }
     let s := ops [o]
     let u := s.redoProgs 1
     (u.chan 1).staged.length < 2 ∧ s.pwr.st = .active ∧ u.nextStage 1 = some (o, { kind := 3, plane := 1, page := 3 }) ∧
     u.lunProf o.lun ≠ none) := by decide +kernel

theorem scrambleFrom_twice (l : List Byte) : ∀ s, scrambleFrom s (scrambleFrom s l) = l := by
  induction l with
  | nil => intro s; rfl
  | cons b r ih => intro s; simp [scrambleFrom, ih, BitVec.xor_assoc]

theorem frame_length (p : Bool) : (zeros 4096 ++ (meta0 p).head).length = 4124 := by
  cases p <;> decide +kernel

theorem ofLE_leBytes : ∀ n v, v < 256 ^ n → ofLE (leBytes n v) = v
  | 0, v, h => by simp at h; simp [leBytes, ofLE, h]
  | n + 1, v, h => by
    have : v / 256 < 256 ^ n := Nat.div_lt_of_lt_mul (by rw [Nat.pow_succ] at h; omega)
    simp [leBytes, ofLE, ofLE_leBytes n _ this]; omega

theorem frame0_ok (p : Bool) : frameOk (frame0 p) = true := by
  have h := frame_length p
  have ht : ∀ v, (leBytes 4 v).take 4 = leBytes 4 v := fun v => by simp [leBytes]
  simp only [frame0, frameOk, frameCrc, leAt, ← h, List.take_left, List.drop_left, beq_iff_eq]
  rw [ht, ofLE_leBytes 4 _ (crc32c_lt _)]

theorem frame0_meta (p : Bool) : frameMeta (frame0 p) =
    Meta.ofBytes ((meta0 p).head ++ leBytes 4 (crc32c (zeros 4096 ++ (meta0 p).head))) := by
  rw [frameMeta, frame0, List.append_assoc]
  exact congrArg _ (List.drop_left' (by decide +kernel))

theorem given_clear (f : List Byte) : scramble flight.pfa (given f).frame = f := scrambleFrom_twice f _

theorem given_wf (p : Bool) : (given (frame0 p)).wf = true := by
  have h (l : List Byte) : ∀ s, (scrambleFrom s l).length = l.length := by
    induction l with
    | nil => intro s; rfl
    | cons b r ih => intro s; simp [scrambleFrom, ih]
  simp only [DecodeRes.wf, wfFrame, given, run4, scramble, h, frame0, beq_iff_eq]
  rw [List.length_append, frame_length]; rfl

theorem witness_DecodersEndFramesByTheirChecks_frames :
    (frameMeta (scramble flight.pfa (given (frame0 true)).frame)).poison = true ∧
    (let d := scramble flight.pfa (given (frame0 false)).frame
     (frameMeta d).poison = false ∧ frameOk d = true ∧ identityOk flight (frameMeta d) = true ∧
     identityOk (flight 6) (frameMeta d) = false) := by
  simp only [given_clear, frame0_ok, frame0_meta]
  decide +kernel

/-- A frame whose checksum fails. -/
def failing : List Byte :=
  let l := zeros 4096 ++ (meta0 false).head
  l ++ leBytes 4 ((crc32c l + 1) % 2 ^ 32)

theorem ofLE_next (c : Nat) : c ≠ ofLE ((leBytes 4 ((c + 1) % 2 ^ 32)).take 4) := by
  have ht : ∀ v, (leBytes 4 v).take 4 = leBytes 4 v := fun v => by simp [leBytes]
  rw [ht, ofLE_leBytes 4 _ (by omega)]
  omega

theorem failing_not_ok : frameOk failing = false := by
  have h := frame_length false
  simp only [failing, frameOk, frameCrc, leAt, ← h, List.take_left, List.drop_left, beq_eq_false_iff_ne]
  exact ofLE_next _

theorem witness_DecodersEndFramesByTheirChecks_repeated :
    let d := scramble flight.pfa (given failing).frame
    frameOk d = false ∧ (frameMeta d).poison = false ∧ frameCrc d ∈ { flight with crcs := [frameCrc d] }.crcs := by
  simp only [given_clear]
  refine ⟨failing_not_ok, ?_, List.mem_singleton_self _⟩
  rw [frameMeta, failing, List.append_assoc, List.drop_left' (by decide +kernel)]
  decide +kernel

/-- LUNs 37, 41 and 45 of channel 1 are in service. -/
def three : State :=
  let s := lun37.onChan 1 fun c => { c with bind := tset 8 (tset 8 c.bind 2 0) 3 0 }
  s.onSys fun y => { y with luns := tset {} (tset {} y.luns 41 { present := 1 }) 45 { present := 1 } }

/-- A stripe descriptor at store address 0x201000, of the operation op (1 BUILD, 2 REBUILD), over LUNs 37, 41 and 45. -/
def withStripe (op : Nat) (s : State := three) : State :=
  s.hWrite 0x201000 (leBytes 4 0xABCD ++ leBytes 1 3 ++ leBytes 1 1 ++ leBytes 1 1 ++ leBytes 1 op ++ leBytes 1 2 ++ leBytes 7 0 ++
    ([37, 41, 45].flatMap fun l => leBytes 8 (mkPfa l 0 9 3 0 + 2 ^ 40)) ++ zeros 216)

/-- An operation over those members in slot 3 of wing 0; a flight that brings member 0. -/
def xop : XorOp :=
  { stripe := 5, desc := some 0x201000, entries := [37, 41, 45].map fun l => (mkPfa l 0 9 3 0, 1), pidx := 1, pclass := 1, fidx := 2, buf := some 2050 }
def inSlot (x : XorOp) (s : State := withStripe 2) : State :=
  s.onEcc fun e =>
    { e with xor := tset none e.xor 3 (some x)
             flights := [{ flight with step := 27 }, { flight with id := 20, ref := .xor 0 3 0, out := some 0 }] }

theorem witness_StripesAreBuiltAndRebuilt :
    ((inPwr .off up).startStopped = true) ∧
    (∀ op ∈ [1, 2],
      let s := withStripe op
      let r := (s.readStripe 0x201000).1
      s.startStopped = false ∧ s.ecc.builds = [] ∧ s.ecc.rebuilds = [] ∧ ((List.range 4).find? fun k => (s.xor? 0 k).isNone) = some 0 ∧
      r.isSome = true ∧ ((r.getD (stripeOf [])).op = op ∧ s.stripeOk (r.getD (stripeOf [])) op = true) ∧
      s.stripeOk (r.getD (stripeOf [])) (3 - op) = false) ∧
    (three.is Reg.ECC_XOR_CTL_BUILD_EN = true ∧ (up.wr Reg.ECC_XOR_CTL_BUILD_EN 0).is Reg.ECC_XOR_CTL_BUILD_EN = false) := by decide +kernel

theorem witness_StripesAreBuiltAndRebuilt_slots :
    (let x := { xop with rebuild := true, flight := 4, desc := none, entries := [] }
     let s := inSlot x
     let d := (s.readStripe 0x201000).1.getD (stripeOf [])
     s.xor? 0 3 = some x ∧ x.rebuild = true ∧ x.desc = none ∧ s.stripeOk d 2 = true ∧ s.startStopped = false ∧
     ∀ e, e < d.n → s.memberAbsent { x with entries := d.entries, pidx := d.pidx, fidx := d.fidx } e = false) ∧
    (let s := inSlot xop
     s.xor? 0 3 = some xop ∧ xop.awaits 0 = true ∧ xop.buf ≠ none ∧ (s.memberFrame 0 3 xop 0).1 = some (some []) ∧
     ({ xop with arrived := xop.arrived ++ [0] } : XorOp).whole = false) ∧
    (∀ mark ∈ [1000, 1001],
      let x := { xop with arrived := [mark] }
      (inSlot x).xor? 0 3 = some x ∧ x.rebuild = false) := by decide +kernel

/-- Juniper's table stands in region 2. -/
def juniper : State := wrs three [(Reg.JNP_TABLE_ENABLE, 1), (Reg.JNP_TABLE_REGION, 2), (Reg.JNP_STAT_GROUPS, 4096), (Reg.JNP_LADDER_STEPS, 9)]

/-- A CALIB of tag 5 runs on channel 1, with three candidates of which one was not measured. -/
def calRun (fin gone : Bool) : CalRun :=
  { group := 0, tag := some 5, fin := fin, gone := gone
    cands := [{ score := 9, measured := 1 }, { score := 3, measured := 2 }, { score := 0, measured := 0 }] }
def calibrating (r : CalRun) : State :=
  (withCmds juniper [cm 5 (maint 3 0) .running]).onJnp fun j => { j with calib := tset none j.calib 1 (some r) }
/-- A PATROL of tag 5 runs on LUN 37. -/
def patrolling (fin gone : Bool) : State :=
  (leased .patrol [resLun 37] (withCmds juniper [cm 5 (maint 1 0) .running]) (some 5)).onJnp fun j =>
    { j with patrol := tset none j.patrol 37 (some { group := 0, depth := 3, lost := 1, frames := 8, fin := fin, gone := gone }) }

theorem witness_JuniperCalibratesAndKeepsItsTable :
    (let s := calibrating (calRun true false)
     s.sys.warmRun = none ∧ s.pwr.hold = 0 ∧ s.pwr.warn = false ∧ s.cmd? 5 = some (cm 5 (maint 3 0) .running)) ∧
    (∀ fin ∈ [false, true], ∀ gone ∈ [false, true],
      let r := calRun fin gone
      tget none (calibrating r).jnp.calib 1 = some r ∧ r.tag = some 5 ∧ r.fin = fin ∧ r.gone = gone ∧
      (∃ x, tget none (patrolling fin gone).jnp.patrol 37 = some x ∧ x.fin = fin ∧ x.gone = gone) ∧
      (patrolling fin gone).leaseTag .patrol [resLun 37] = some 5) ∧
    (let l := (calRun true false).cands
     l[1]? = some { score := 3, measured := 2 } ∧ (∀ y ∈ l, y.measured ≠ 0 → 3 ≤ y.score) ∧
     (∀ y ∈ l.take 1, y.measured ≠ 0 → 3 < y.score) ∧ ∀ x ∈ [({ score := 9, measured := 0 } : Cand)], x.measured = 0) ∧
    (let s := (juniper.wr Reg.JNP_CKPT_PERIOD 1).onJnp fun j => { j with changed := [3] }
     s.pwr.st ≠ .off ∧ s.is Reg.JNP_STAT_CKPT_BUSY = false ∧ s.pwr.hold = 0 ∧ s.pwr.entry = none ∧ s.jnpOn = true ∧ s.jnp.changed ≠ [] ∧
     s.pwr.st = .active ∧ s.rd Reg.JNP_CKPT_PERIOD ≠ 0) := by
  refine ⟨?_, ?_, ?_, ?_⟩
  · decide +kernel
  · intro fin _ gone _
    cases fin <;> cases gone <;> exact ⟨by decide +kernel, rfl, rfl, rfl, ⟨_, rfl, rfl, rfl⟩, by decide +kernel⟩
  · decide +kernel
  · decide +kernel

theorem witness_JuniperCalibratesAndKeepsItsTable_groups :
    (Served up .port ∧ Served juniper .port) ∧
    (up.jnpOn = false ∧ bit (0x80000002 : W32).toNat 31 = true ∧ up.rd (Reg.HDG_RGN_USE 2) = 3 ∧ up.rd (Reg.HDG_RGN_CLASS 2) = 0 ∧
     up.rd (Reg.HDG_RGN_USE 31) ≠ 3 ∧ bits (0x8000001F : W32).toNat 0 5 = 31 ∧ bit (0 : W32).toNat 31 = false) ∧
    (let s := juniper
     let a := s.grpAddr 4095
     let r := s.fresh.grpRead 4095
     s.rd Reg.JNP_STAT_GROUPS ≤ 4096 ∧ 4095 < s.rd Reg.JNP_STAT_GROUPS ∧ s.jnpOn = true ∧ s.hRefused a = false ∧ r.2.hdg = s.hdg ∧
     bits (0x10FFF : W32).toNat 0 14 = 4095 ∧ bit (0x10FFF : W32).toNat 16 = true ∧ bit (0x20FFF : W32).toNat 17 = true ∧
     bit (0x20FFF : W32).toNat 16 = false ∧ bit (0x40FFF : W32).toNat 18 = true ∧ bit (0x40FFF : W32).toNat 17 = false) :=
  ⟨⟨served_port rfl, served_port rfl⟩, by decide +kernel, by decide +kernel⟩

/-! ### The central store, the buffer pool and Boxwood -/

theorem witness_StoreRegionsChangeAndAreChecked :
    Served up .port ∧
    (up.is (Reg.HDG_RGN_BUSY 31) = false ∧
     (let v : W32 := 5
      bits v.toNat 0 2 = 1 ∧ bits v.toNat 2 1 = 1 ∧ ¬ (up.rd (Reg.HDG_RGN_USE 31) = 1)) ∧
     (let s := (List.range 8).foldl (fun s k => s.wr (Reg.HDG_RGN_VT (8 + k)) 1) up
      let v : W32 := 8
      bits v.toNat 3 1 = 1 ∧ s.rd (Reg.HDG_RGN_VT 31) = 0 ∧ 8 ≤ s.vtCount ∧ s.is (Reg.HDG_RGN_BUSY 31) = false) ∧
     (let v : W32 := 9
      bits v.toNat 0 2 = 1 ∧ bits v.toNat 2 1 = 0 ∧ up.vtCount < 8)) ∧
    (∀ stage ∈ [1, 2],
      let c : RgnChg := { use := 3, cls := 1, vt := 1, stage := stage }
      tget none (up.onHdg fun h => { h with chg := tset none h.chg 31 (some c) }).hdg.chg 31 = some c ∧ c.use ≠ 0 ∧ c.use < 4 ∧ c.cls < 2 ∧ c.vt < 2) ∧
    (let l : Lease := { act := .gorse, res := [resRgn 31] }
     let s := (wrs (leased .gorse [resRgn 31] up) [(Reg.HDG_GORSE_EN, 1), (Reg.HDG_GORSE_STAT_LINE, 0x7FFE)]).onHdg fun h => { h with batch := 5 }
     s.is Reg.HDG_GORSE_EN = true ∧ s.pwr.st = .active ∧ s.hdg.rewrite = none ∧
     s.top.leases.find? (fun l => l.act == .gorse) = some l ∧ s.walkNext (rgnOf l) (s.rd Reg.HDG_GORSE_STAT_LINE) = some 0x7FFE ∧
     s.hdg.batch ≠ 1 ∧ s.hdg.batch ≠ 0 ∧ rgnOf l < 32) ∧
    ((up.hSetMark 0x200080 (.inv 1)).hChk 0x200080 = .corrected ∧ 0x200080 ∈ up.hUnits 0x200080 32 ∧
     (∀ u ∈ up.hUnits 0x200080 32, up.hChk u = .clean) ∧ (up.onHdg fun h => { h with rewrite := some 0x200080 }).hdg.rewrite = some 0x200080) := by
  refine ⟨served_port rfl, ⟨?_, ?_, ?_, ?_⟩, ?_, ?_, ?_⟩ <;> decide +kernel

theorem witness_StoreRegionsChangeAndAreChecked_ends :
    (let s := (withCmds up [cm 5 (maint 0 31) .running]).onHdg fun h => { h with scrub := [(31, 5)], selftest := [(31, 5)] }
     s.cmd? 5 = some (cm 5 (maint 0 31) .running) ∧ s.hdg.scrub.find? (fun x => x.1 == 31) = some (31, 5) ∧
     s.hdg.selftest.find? (fun x => x.1 == 31) = some (31, 5) ∧ bit (0x80000000 : W32).toNat 31 = true) ∧
    (up.pwr.st = .active ∧ wfPortWrite 0x1FFFFFF (zeros 1) = true ∧ up.hRefused 0x1FFFFFF = false ∧ up.inPool (0x1FFFFFF / 4096) = true ∧
     wfPortWrite 0x1FFF000 (zeros 4096) = true ∧ 0x200000 + 32 ≤ hdgSize ∧ hdgSize < 0x1FFFFFF + 2) := by decide +kernel

/-- The link of a free buffer i of strand 0 to the free buffer `next` (R374). -/
def link (i next : Nat) (s : State) : State :=
  let w := next + i * 2 ^ 14
  s.hWrite (i * 4096) (leBytes 8 (w + crc8 (leBytes 7 w) * 2 ^ 56))

theorem witness_PoolsGrantFillAndRebuild :
    (Served pool2 .port) ∧
    (let r : BufReq := { req := 3, use := .alloc 5, left := 1 }
     let s := pool2.onCop fun c => { c with reqs := [r] }
     s.pwr.st = .active ∧ s.is Reg.COP_REBUILD_BUSY = false ∧ s.is Reg.COP_STAT_READY = true ∧ s.copNext = some r ∧
     s.cop.ready.find? s.inPool = some 2051) ∧
    (pool2.cop.ready.length < 16 ∧ rotFind 8 pool2.cop.popPtr (fun k => (tget none pool2.cop.heads k).isSome) = some 0 ∧
     tget none pool2.cop.heads 0 = some 2060 ∧ ((link 2060 2061 pool2).readLink 2060 0).1 = some (some 2061)) ∧
    (bit (1 : W32).toNat 0 = true ∧ pool2.hdg.chg = [] ∧ (pool2.wr Reg.COP_REBUILD_BUSY 1).is Reg.COP_REBUILD_BUSY = true) ∧
    pool2.poolSize < pool2.copSum 15 8191 ∧ pool2.copSum 15 0 ≤ pool2.poolSize ∧
    bits (8191 : W32).toNat 0 13 = 8191 := ⟨served_port rfl, by decide +kernel⟩

theorem witness_BoxwoodKeepsTheLiveBudget :
    Served up .port ∧
    (up.is Reg.BOX_THERM_STAT_HOT_CRIT = false ∧ up.is Reg.BOX_THERM_STAT_SENSOR_FAIL = false ∧ up.is Reg.BOX_THERM_STAT_HOT_WARN = false) ∧
    (0xA004 ∉ up.locks ∧ 0xA004 ∈ ({ up with locks := [0xA004] } : State).locks) ∧
    (let v := 0x7F7E8180
     sgn 8 (bits v 0 8) < sgn 8 (bits v 8 8) ∧ sgn 8 (bits v 8 8) < sgn 8 (bits v 16 8) ∧ sgn 8 (bits v 16 8) < sgn 8 (bits v 24 8) ∧
     ¬ sgn 8 (bits 0x7F7E8080 0 8) < sgn 8 (bits 0x7F7E8080 8 8)) ∧
    ((up.wr Reg.BOX_CTL_FC_EN 0).is Reg.BOX_CTL_FC_EN = false ∧ (up.wr Reg.BOX_CTL_FC_EN 1).is Reg.BOX_CTL_FC_EN = true ∧
     bits (199 : W32).toNat 12 12 = 0 ∧ bits (0x10C7 : W32).toNat 12 12 ≠ 0 ∧ bits (0x10C7 : W32).toNat 0 12 < 200 ∧
     ¬ bits (0x10C8 : W32).toNat 0 12 < 200 ∧ (inPwr .idle up).pwr.st = .idle ∧ (inPwr .dormant up).pwr.st = .dormant) ∧
    (let w : Window := { start := 0, stop := 0, level := 1 }
     let s := up.onBox fun b => { b with winA := List.replicate 4 w }
     4 ≤ (s.box.wins 0).length ∧ least Window.start ((s.box.wins 0).filter fun w => !w.on && decide (w.start ≤ s.now)) = some w) ∧
    (let w : Window := { start := 0, stop := 0, level := 1, on := true }
     let s := up.onBox fun b => { b with winB := [w] }
     least Window.stop ((s.box.wins 1).filter fun w => w.on && decide (w.stop ≤ s.now)) = some w) ∧
    ((up.onBox fun b => { b with converting := true, fails := 2 }).box.converting = true ∧ up.pwr.st ≠ .off ∧
     2 ≤ (up.onBox fun b => { b with converting := true, fails := 2 }).box.fails ∧ up.is (thermFld 3) = false ∧
     (up.wr (thermFld 3) 1).is (thermFld 3) = true) := ⟨served_port rfl, by decide +kernel⟩

/-! ### Power -/

theorem witness_OperatingPointsAndDomainsSwitch :
    (∀ k ∈ [0, 1, 2], ∀ point ∈ [0, 1],
      let s := (withCmds up [cm 5 (pw 0) .running]).onPwr fun p => { p with econ := some (5, point, k) }
      s.pwr.econ = some (5, point, k) ∧ s.chs = [] ∧ s.top.run = [] ∧ s.cmd? 5 = some (cm 5 (pw 0) .running) ∧
      (cm 5 (pw 0) .running).pkt.opcode = opPower ∧ b2n ((cm 5 (pw 0) .running).pkt.flag 2) = 0 ∧ point < 2 ∧ s.cmd? 6 = none) ∧
    ((5, ({ train := some { slice := true } } : Chan)) ∈ (up.onChan 5 fun c => { c with train := some { slice := true } }).chs ∧
     (5, some ({ op := 1, lun := 160 } : Seg)) ∈ (up.onTop fun t => { t with run := [(5, some { op := 1, lun := 160 })] }).top.run) ∧
    (Served up .port ∧ Instr.pwrDomEnable .port 15 = .pwrDomEnable .port 15) ∧
    (let s := wrs up [(Reg.PWR_DOM_EN, 0), (Reg.PWR_STAT_PWR_EN, 8), (Reg.PWR_STAT_PWRGD, 0)]
     bit (8 : W32).toNat 3 = true ∧ bit (s.rd Reg.PWR_DOM_EN) 3 = false ∧ 3 ∉ s.pwr.domOff ∧ bit (0 : W32).toNat 3 = false ∧
     bit ((s.wr Reg.PWR_DOM_EN 8).rd Reg.PWR_DOM_EN) 3 = true ∧
     s.pwr.st ≠ .dormant ∧ s.pwr.st ≠ .off ∧ bit (s.rd Reg.PWR_STAT_PWR_EN) 3 = true ∧ bit (s.rd Reg.PWR_STAT_PWRGD) 3 = false ∧
     bit (s.rd Reg.PWR_DOM_PG_FAIL) 3 = false) :=
  ⟨by decide +kernel, by decide +kernel, ⟨served_port rfl, rfl⟩, by decide +kernel⟩

/-- Channel 1 has a band of block 9 of LUN 37, and one frame is dirty; the hold-up sequence is at a stage. -/
def holdup (k : Nat) : State :=
  let s := lun37.onMcs fun m => { m with img := { m.img with profs := [profile 0xFF] } }
  let s := wrs s [(Reg.GLB_STRAP_HU_EN, 1), (Reg.PWR_HUBAND_VALID 1, 1), (Reg.PWR_HUBAND_TARGET 1, 1), (Reg.PWR_HUBAND_LUN 1, 1),
    (Reg.PWR_HUBAND_PLANES 1, 1), (Reg.PWR_HUBAND_BLOCK 1, 9)]
  let s := s.onQue fun q =>
    { q with dirty := [{ order := 3, pos := 0, region := 1, lfa := 7, cclass := 3, pfa := 0, seq := 1, buf := 2048, tag := 1, client := 3 }] }
  s.onPwr fun p => { p with hold := k, warn := k != 0 }

theorem witness_HoldUpFlushesAndRecords :
    ((up.wr Reg.GLB_STRAP_HU_EN 0).is Reg.GLB_STRAP_HU_EN = false ∧ (holdup 2).pwr.warn = true ∧ (inPwr .off up).pwr.st = .off) ∧
    (let s := (holdup 0).onYew fun y => { y with ops := [(1, some { erase := true, master := 1, addr := 0 })] }
     s.is Reg.GLB_STRAP_HU_EN = true ∧ s.pwr.warn = false ∧ s.pwr.st = .active ∧ s.pwr.hold = 0 ∧ s.sys.warmRun = none ∧
     s.yOp? 1 = some { erase := true, master := 1, addr := 0 } ∧
     (s.onSys fun y => { y with warmRun := some 2 }).sys.warmRun ≠ none ∧ (inPwr .nap s).pwr.st = .nap ∧ (inPwr .dormant s).pwr.st = .dormant) ∧
    (let a := mkPfa 37 0 9 0 0
     let s := holdup 3
     ({ ch := 1, pass := true, pfas := [a] } : BandRes).wf = true ∧ s.pwr.hold = 3 ∧ (s.bandEntry 1).isSome = true ∧ s.bandTakes 1 = true ∧
     s.inBand a = true ∧ s.pf? a = none ∧ (s.band 1).cclass = 0 ∧ (s.flushable 3).length = 1 ∧ (holdup 4).pwr.hold = 4 ∧
     (holdup 4).bandTakes 1 = true ∧ s.pwr.hold ≠ 2 ∧ (holdup 2).pwr.hold = 2) ∧
    (let s := holdup 4
     s.pwr.hold = 4 ∧ s.map.wbs = [] ∧ s.pwr.warn = true ∧ (s.onPwr fun p => { p with warn := false }).pwr.warn = false ∧
     (holdup 6).pwr.hold = 6 ∧ (holdup 6).pwr.warn = true ∧ (s.pwr.hold ≠ 6 ∧ s.pwr.hold ≠ 0) ∧
     ((holdup 0).onPwr fun p => { p with warn := true }).pwr.warn = true ∧ (holdup 0).pwr.hold = 0) := by decide +kernel

/-! ### Resets -/

theorem witness_PowerLossAndColdResetClearTheComplex :
    up.yOp? 0 = none ∧ up.yOp? 1 = none ∧
    (let r : ColdIn := { byPin := true, straps := 7, pwrgd := 15, warnLow := true }
     r.warnLow = true ∧ bit r.straps 1 = true ∧ bit r.pwrgd 3 = true) ∧ Reg.PWR_CTL_IDLE_EN ∈ Reg.all := by decide +kernel

theorem witness_WarmResetsStopWorkAndRestart :
    Served up .port ∧
    (let s := up.onHly fun h => { h with running := true }
     s.pwr.st = .active ∧ s.hly.running = true ∧ s.sys.warmRun = none ∧ s.sys.warmReq = none ∧ s.warmBarred = false ∧
     (s.onPwr fun p => { p with hold := 2 }).warmBarred = true ∧ up.hly.running = false ∧
     (s.onSys fun y => { y with warmReq := some 3 }).sys.warmReq = some 3) ∧
    (let s := up.onSys fun y => { y with warmRun := some 2 }
     s.sys.warmRun = some 2 ∧ s.warmBusy = false ∧ s.sys.chResetHeld = [] ∧ (asking.onSys fun y => { y with warmRun := some 2 }).warmBusy = true ∧
     s.pairBusy 63 = false ∧ s.is Reg.HLY_STAT_NO_IMAGE = false ∧ Reg.QUE_CFG_ENABLE 63 ∈ Reg.all ∧
     (Reg.QUE_CFG_ENABLE 63).addr / 0x1000 = 4) := ⟨served_port rfl, by decide +kernel⟩

/-! ### Yew, policy firmware, the error log and the debug block -/

/-- An operation of CP0's port in bank 1 of Yew. -/
def yop (erase : Bool) (pulses : Nat := 0) (susp : Bool := false) (master : Nat := 1) : YOp :=
  { erase := erase, master := master, addr := yAddr 1 0 0, data := 7, pulses := pulses, susp := susp }
def writing (o : YOp) : State := up.onYew fun y => { y with ops := [(1, some o)] }

/-- A sequence of the register port that has come to a step. -/
def key (step : Nat) (cmd : Nat := 0) (a : Nat := 0) : YSeq := { master := .port, step := step, cmd := cmd, addr := a }
def keyed (q : YSeq) : State := up.onYew fun y => { y with seq := some q }

theorem witness_YewOperationsNeedTheirSequence :
    Served up .port ∧
    (up.yew.seq = none ∧ (0xB7E1 : W32).toNat = 0xB7E1 ∧ (0 : W32).toNat ≠ 0xB7E1 ∧ bits (1 : W32).toNat 0 4 = 1 ∧ bits (2 : W32).toNat 0 4 = 2) ∧
    (∀ step ∈ [1, 2, 3, 4, 5], (keyed (key step)).yew.seq = some (key step) ∧ (key step).step = step) ∧
    (mCode (key 1).master ≠ mCode .holly ∧ mCode (key 1).master = mCode .port ∧ (0x4A1E : W32).toNat = 0x4A1E) ∧
    (let v : W32 := BitVec.ofNat 32 (yAddr 1 0 0)
     let s := (keyed (key 3 2))
     s.yReject (mCode .port) (bits v.toNat 3 20 * 8) = 0 ∧ (key 3 2).cmd = 2 ∧ (key 3 1).cmd ≠ 2 ∧
     ((writing (yop true)).onYew fun y => { y with seq := some (key 3 2) }).yReject (mCode .port) (bits v.toNat 3 20 * 8) ≠ 0) ∧
    (let q := key 5 1 (yAddr 1 0 0)
     let s := keyed q
     s.yOp? (yBank q.addr) = none ∧ s.yWord q.addr = yErased ∧ s.yBad q.addr = false ∧ (writing (yop false)).yOp? (yBank q.addr) ≠ none ∧
     (s.onYew fun y => { y with words := [(q.addr / 8, 5)] }).yWord q.addr ≠ yErased) := ⟨served_port rfl, by decide +kernel⟩

theorem witness_YewOperationsNeedTheirSequence_ends :
    (bits (0x13 : W32).toNat 0 4 = 3 ∧ bits (0x13 : W32).toNat 4 1 = 1 ∧ (writing (yop true)).yOp? 1 = some (yop true) ∧
     (yop true).susp = false ∧ up.yBusy 1 = false) ∧
    (bits (0x14 : W32).toNat 0 4 = 4 ∧ (writing (yop true 0 true)).yOp? 1 = some (yop true 0 true) ∧ up.yOp? 1 = none) ∧
    ((writing (yop true)).yBusy (yBank (yAddr 1 0 0)) = true ∧ up.yBusy (yBank (up.rd Reg.YEW_RADDR_ADDR * 8)) = false ∧
     up.yBad (up.rd Reg.YEW_RADDR_ADDR * 8) = false ∧
     yBank (((writing (yop true)).wr Reg.YEW_RADDR_ADDR (yAddr 1 0 0 / 8)).rd Reg.YEW_RADDR_ADDR * 8) = 1) ∧
    ((keyed (key 1)).yew.seq ≠ none ∧ { yop true with suspReq := true }.suspReq = true ∧ (yop true 0 true 3).master = 3) ∧
    (∀ e ∈ [false, true], (writing (yop e)).yOp? 1 = some (yop e) ∧ (yop e).susp = false ∧ (yop e).master ≠ 3 ∧ (yop e).erase = e) ∧
    (64 ≤ (yop false 63).pulses + 1 ∧ 20 ≤ (yop true 19).pulses + 1 ∧ (yop false 62).pulses + 1 < 64 ∧ (yop true 18).pulses + 1 < 20 ∧
     (yop true).fence = false) := by decide +kernel

/-- An activation at a stage, of bank 1, by tag 5; policy firmware runs it. -/
def actv (mcs : Bool) (stage : Nat) : Actv := { mcs := mcs, bank := 1, tag := 5, stage := stage }
def activating (mcs : Bool) (stage : Nat) (s : State := up) : State :=
  { withCmds s [cm 5 { opcode := opActivate, word4 := 3 + 48 * 16 } .running] with hly := { s.hly with running := true, actv := some (actv mcs stage) } }

/-- A Holly image whose checks pass: its header, and the table of the parameters that every image has (R499, R504). -/
def holly : List Byte :=
  hollyHeader ++ (fixedParams.flatMap fun (a, b, c, d) => leBytes 2 a ++ leBytes 2 0 ++ leBytes 4 b ++ leBytes 4 c ++ leBytes 4 d) ++ zeros 16

theorem witness_PolicyFirmwareIsActivatedAndWatched :
    (∀ n ∈ [0, 1],
      let p : Pkt := { opcode := opActivate, word4 := n * 2 ^ 24, addr := 1 }
      (slow p).slow? 5 opActivate = some (slowCmd p) ∧ (slowCmd p).pkt.param = n ∧ (slow p).hly.actv = none ∧
      ((slow p).onHly fun h => { h with actv := some (actv false 0) }).hly.actv ≠ none) ∧
    (∀ mcs ∈ [false, true], ∀ stage ∈ [0, 1, 2, 4],
      let s := activating mcs stage
      s.hly.actv = some (actv mcs stage) ∧ (actv mcs stage).stage = stage ∧ (actv mcs stage).mcs = mcs ∧ s.pwr.st = .active ∧
      s.hly.running = true ∧ s.rd Reg.HLY_CTL_QUIESCED = 0 ∧ s.rd Reg.HLY_CTL_READY = 0 ∧ s.cmd? 5 ≠ none) ∧
    ((activating false 0).hollyFail 1 = some 1 ∧ (activating true 0).mcsFail 1 true = some 1) ∧
    (let s := activating false 0 (putSlot false 1 holly up)
     s.hollyFail 1 = none ∧ s.pwr.hold = 0 ∧ (s.onPwr fun p => { p with hold := 2 }).pwr.hold ≠ 0) := by decide +kernel

theorem witness_PolicyFirmwareIsActivatedAndWatched_watchdog :
    (Served up .port ∧ up.hly.running = false ∧ (up.wr Reg.HLY_WDOG_TIME 0).rd Reg.HLY_WDOG_TIME = 0 ∧ up.rd Reg.HLY_WDOG_TIME < 2 ^ 16) ∧
    (let s := ({ up with aclk := 999999 }.wr Reg.HLY_WDOG_TIME 1).onHly fun h => { h with running := true, lastExpiry := some 0 }
     s.hly.running = true ∧ s.rd Reg.HLY_WDOG_TIME ≠ 0 ∧ s.hly.lastExpiry = some 0 ∧ s.now < 0 + 1000000 ∧
     ¬ ({ s with aclk := 1000000 } : State).now < 0 + 1000000 ∧ up.hly.lastExpiry = none) ∧
    (let s := (putSlot false 0 hollyHeader up).onHly fun h => { h with halted := true }
     s.hly.halted = true ∧ s.is Reg.HLY_STAT_NO_IMAGE = false ∧ (s.wr Reg.HLY_STAT_NO_IMAGE 1).is Reg.HLY_STAT_NO_IMAGE = true ∧
     (s.wr Reg.HLY_STAT_NO_IMAGE 1).hollyHead (s.wr Reg.HLY_STAT_NO_IMAGE 1).actHolly = none ∧ up.hly.halted = false) :=
  ⟨⟨served_port rfl, by decide +kernel⟩, by decide +kernel, by decide +kernel⟩

theorem witness_TheErrorLogKeepsItsRecords :
    Served up .port ∧ up.err.buf = [] ∧
    (let r : ErrRec := { cls := 3, src := 4, code := 1, tstamp := 7 }
     let c : ErrRec := { cls := clsCorrected, src := 5, code := 1, tstamp := 7 }
     let s : State := { up with err := { up.err with buf := [c, r] } }
     s.pwr.st ≠ .off ∧ s.errNext = some r ∧ c ∈ s.err.buf ∧ r.src < 256 ∧ c.src < 256 ∧ r.cls < 4 ∧ r.cls ≠ clsCorrected ∧
     s.rd Reg.ERR_STAT_FILL < 64 ∧ 64 ≤ (s.wr Reg.ERR_STAT_FILL 64).rd Reg.ERR_STAT_FILL ∧
     ({ up with err := { up.err with buf := [c] } } : State).errNext = some c ∧ (up.wr Reg.ERR_CTL_CORR_EN 0).is Reg.ERR_CTL_CORR_EN = false ∧
     (up.wr Reg.ERR_CTL_CORR_EN 1).is Reg.ERR_CTL_CORR_EN = true) ∧
    (bit (1 : W32).toNat 0 = true ∧
     (let s := up.wr Reg.ERR_STAT_FILL 1
      s.rd Reg.ERR_STAT_FILL < (bits (2 : W32).toNat 0 6 + 64 - s.rd Reg.ERR_PTR_HEAD) % 64 ∧
      (bits (1 : W32).toNat 0 6 + 64 - s.rd Reg.ERR_PTR_HEAD) % 64 ≤ s.rd Reg.ERR_STAT_FILL)) := ⟨served_port rfl, by decide +kernel⟩

theorem witness_TheLockDisarmsTheDebugBlock :
    Served up .port ∧ 0x30000 ∉ up.locks ∧ bit (1 : W32).toNat 0 = true ∧ up.is Reg.DBG_LOCK_LOCKED = false ∧
    (up.wr Reg.DBG_LOCK_LOCKED 1).is Reg.DBG_LOCK_LOCKED = true := ⟨served_port rfl, by decide +kernel⟩

/-! ## Witnesses of the clauses that a later reading added -/

theorem witness_QueuePairsAreEnabledAndDisabled_claimed :
    let s := (wrs up [(Reg.QUE_SQBASE_BASE 63, 0x40), (Reg.QUE_CQBASE_BASE 63, 0x440)]).onPair 63 fun p => { p with claimed := 2 }
    s.is (Reg.QUE_CFG_ENABLE 63) = false ∧ (s.pair 63).claimed = 2 ∧ bit 0x441 0 = true ∧
    s.ringOk (bit 0x441 1) (s.rd (Reg.QUE_SQBASE_BASE 63)) (64 * 2 ^ bits 0x441 4 4) = true := by decide +kernel

theorem witness_FifoMismatchesEmptyOneFifo_none :
    (inPwr .nap up).pwr.st ≠ .active ∧ State.reset.sys.noClk = true ∧ 8 ≥ 8 ∧ 256 ≥ 256 ∧ 16 ≥ 16 ∧ 1 ≥ 1 := by decide

theorem witness_PowerStatesAreEnteredAndLeft_domains :
    let s := (wrs up [(Reg.PWR_CTL_DORM_FLASH, 1), (Reg.GLB_STRAP_DOM_SEQ, 1)]).onPwr fun p => { p with st := .dormant, waking := some 1 }
    s.pwr.st = .dormant ∧ s.pwr.waking = some 1 ∧ s.is Reg.PWR_CTL_DORM_FLASH = true ∧ s.is Reg.GLB_STRAP_DOM_SEQ = true ∧
    (s.wr Reg.PWR_CTL_DORM_FLASH 0).is Reg.PWR_CTL_DORM_FLASH = false := by decide +kernel

theorem witness_ChannelsAreDiscoveredAndCompared_volumes :
    (let s := lun37.onChan 1 fun c => { c with disc := true, chain := true, volNo := 6 }
     s.discReady 1 = false ∧
     ((s.chan 1).disc && (s.chan 1).chain && (s.chan 1).jobs.isEmpty && !false && decide ((s.chan 1).volNo < 7)) = true ∧
     ((s.chan 1).disc && (s.chan 1).chain && (s.chan 1).jobs.isEmpty && !true && decide ((s.chan 1).volNo < 7)) = false ∧
     (s.chan 1).disc = true ∧ (s.chan 1).jobs = []) ∧
    ((lun37.onChan 1 fun c => { c with disc := true, jobs := plainJobs }).chan 1).jobs ≠ [] := by decide +kernel

theorem witness_MapPagesAreFilledAndWrittenBack_rebuilt :
    (let s := mapped.onMap fun m => { m with broken := [leaf], rebuilt := [(leaf, zeros 16384)] }
     (∃ k, s.victim leaf = some k) ∧ (zeros 16384).length = 16384) ∧
    (let s := (dirty.onHdg fun h => { h with zeroed := [0, 1, 2, 3, 4, 5, 6, 7] }).onMap fun m => { m with wbs := [wrote false false true] }
     (wrote false false true).replayed = false ∧ (s.ctlWord (s.rootOff dir)).1 ≠ none) ∧
    (let s := dirty.onMap fun m => { m with slots := [(5, some { key := dir, dirty := true, pin := true })] }
     s.mslot 5 = some { key := dir, dirty := true, pin := true }) ∧
    (let a := mkPfa 37 0 9 0 0
     (fitSlot { pfa := a + 2 ^ 40, planes := 1 }).pfa = a ∧ ∀ q, q < 4 → dirty.canPlace 3 (dirty.pfaNext 3 a q) = true) :=
  ⟨⟨⟨_, rfl⟩, by decide +kernel⟩, by decide +kernel, by decide +kernel, by decide +kernel⟩

theorem witness_RegionsAreLoadedAndTheMapIsEnabled_restore :
    (let s := ((entry3 (word3 2 1000) 7 up).wr Reg.MAP_CTL_REQ 1).onSys fun y => { y with restore := false }
     s.sys.restore = false ∧ s.is Reg.MAP_CTL_REQ = true) ∧
    (let s := (up.wr Reg.MAP_CTL_REQ 1).onSys fun y => { y with restore := true, replay := false }
     s.sys.restore = true ∧ s.sys.replay = false ∧ s.map.ckpt = none ∧ s.hRefused s.mapCtl = false) := by decide +kernel

/-- A WRITE that has the first choice of LUN 37, beside a read. -/
def firstChoice (st : OpSt := .queued) : State :=
  (ops [op1, { op1 with id := 2, kind := .prog, cls := 2, st := st, block := 7, plan := [] }]).onTop fun t => { t with writeFirst := [(37, 2)] }

theorem witness_OperationsStartByTokens_choices :
    (let s := ops [op1] (lun37.onPwr fun p => { p with warn := true })
     s.askReleased.startStopped = true) ∧
    (let s := ops [op1] (lun37.onTop fun t => { t with blocked := [37] })
     s.askReleased.lunServes 37 = true ∧ s.askReleased.lunStopped 37 = true) ∧
    ((ops [op1]).askReleased.startStopped = false ∧ (ops [op1]).askReleased.lunServes 37 = true ∧
     (ops [op1]).askReleased.lunStopped 37 = false ∧ ((ops [op1]).askReleased.openBlocks 37).choose 37 = some op1 ∧
     ((ops [op1]).askReleased.openBlocks 37).firstWrite 37 = none) ∧
    (let o := { op1 with st := .refused, shortV := true, tokAge := 0 }
     let s := ops [o] (budget lun37)
     s.op? 1 = some o ∧ o.shortV = true ∧ s.top.rsvV = none ∧ (∀ x ∈ s.top.ops, x.tokAge = 0) ∧ (s.opCharge o).1 ≤ s.live 0 ∧
     (s.opCharge o).2 ≤ s.live 1) ∧
    (let s := ops [{ op1 with shortV := true }]
     s.live 0 < (s.opCharge { op1 with shortV := true }).1 ∨ s.live 1 < (s.opCharge { op1 with shortV := true }).2 ∨
       (op1.shortV = false ∧ op1.shortQ = false)) := by
  refine ⟨?_, ?_, ?_, ?_, ?_⟩ <;> decide +kernel

theorem witness_LunsArePolledSuspendedResetAndLeased_policy :
    let l : Lease := { act := .zqcal, res := [resCh 1] }
    let v := ([PolicyAsk.zqcal 1].foldl State.policyAsk lun37).wantCalibs
    lun37.pwr.st = .active ∧ lun37.leaseStopped = false ∧ v.leaseNext = some l := by decide +kernel

theorem witness_MicrowordsHaveTheirEffects_full :
    let s := (seq7 0x680000FF).onChan 7 fun c => { c with events := List.replicate 64 { code := 1 } }
    s.evFull 7 = true ∧ (seq7 0x680000FF).evFull 7 = false ∧ issues s = true := by decide +kernel

theorem witness_SequencersBranchEndAndFault_ends :
    (let s := seq7 0x80200005 16383
     s.seqRuns 7 = true ∧ s.twoLevel = false ∧ (s.fetchKeys 7 16383).all (fun k => tget 0 s.mcs.csErr k == 0) = true ∧
     (s.seq 7).mFault 0x80200005 = none ∧ (s.seq 7).evs = 0 ∧ s.condHolds 7 (s.seq 7) (mCond 0x80200005) (fitBus (bus 0)) = false ∧
     (s.seq 7).upc = 16383) ∧
    (let s := (seq7 0x08000005).onChan 7 fun c => { c with events := List.replicate 64 { code := 1 } }
     s.evFull 7 = true ∧ (seq7 0x08000005).evFull 7 = false) ∧
    (let nano := 2 ^ 27 + 4 * 2 ^ 15 + 32767
     let s := two 18 nano
     let v := s.nanoword (s.microword 18)
     bits v 27 3 = 1 ∧ bits v 22 5 = 0 ∧ bits v 15 3 = 4 ∧ s.psel (s.seq 7) (bits v 64 32) 4 (bits (s.microword 18) 11 5) = some 0 ∧
     s.nanoFault (s.seq 7) v (bits (s.microword 18) 11 5) = none) := by decide +kernel

theorem witness_EspalierIsLoadedAndPatched_second :
    let s := up.onMcs fun m => { m with loading := some 1, tried := 1 }
    s.mcsFail 1 false = some 1 ∧ s.mcs.tried ≠ 0 ∧ s.hly.actv = none := by decide +kernel

theorem witness_ChannelsTrainDropAndReset_climbs :
    (∀ climb ∈ [3, 4, 5],
      let s := ch1 1 fun c => { c with relock := some 0, climb := climb }
      (s.chan 1).relock = some 0 ∧ (s.seq 1).run = false ∧ (s.chan 1).train = none ∧ (s.chan 1).climb = climb) ∧
    (∀ lvl ∈ [1, 2],
      let t : Training := { target := 1, bin := 9 }
      let s := ch1 lvl fun c => { c with train := some t }
      (s.chan 1).train = some t ∧ t.slice = false ∧ t.ending = false ∧ s.sliceStopped = false ∧ s.busIdle 1 = true ∧
      s.seqStopped 1 = false ∧ s.level 1 = lvl) ∧
    (let s := leased .train [resCh 1] (withCmds lun37 [cm 5 (maint 2 1) .running]) (some 5)
     s.chTag 1 .train = some 5 ∧ s.cmd? 5 = some (cm 5 (maint 2 1) .running) ∧ (cm 5 (maint 2 1) .running).stage = .running) ∧
    (let s := lun37.onChan 1 fun c => { c with reset := true }
     s.boundTargets 1 ≠ [] ∧ (s.chan 1).chainBad = false) ∧ (5 : Fin 8) / 4 = 1 := by decide +kernel

/-- Bytes that are a codeword have a zero syndrome. -/
theorem zeroSyndrome_encodeFrom (c : Nat) (f : List Byte) (h : f.length = 4128) : zeroSyndrome c (encodeFrom c f) = true := by
  simp [zeroSyndrome, encodeFrom, List.take_left' h]

/-- A list of the wanted length is its own shape. -/
theorem shape_self (s : State) (l : List Byte) : s.shape l.length l = l := by
  apply List.ext_getElem
  · simp [State.shape]
  · intro i h _
    simp only [State.shape, List.length_map, List.length_range] at h
    simp [State.shape, List.getD_eq_getElem?_getD, h]

theorem frame0_length (p : Bool) : (frame0 p).length = 4128 := by
  rw [frame0, List.length_append, frame_length]; rfl

theorem scrambled_length (pfa : Nat) (l : List Byte) : (scramble pfa l).length = l.length := by
  have h (l : List Byte) : ∀ s, (scrambleFrom s l).length = l.length := by
    induction l with
    | nil => intro s; rfl
    | cons b r ih => intro s; simp [scrambleFrom, ih]
  exact h l _

theorem witness_DecodersEndFramesByTheirChecks_converged (s : State) (p : Bool) :
    (let f := { flight with bytes := encodeFrom 1 (scramble flight.pfa (frame0 p)) }
     zeroSyndrome f.cclass f.bytes = true ∧ scramble f.pfa (f.bytes.take 4128) = frame0 p) ∧
    scramble flight.pfa (s.shape 4128 (given (frame0 p)).frame) = frame0 p := by
  have h : (scramble flight.pfa (frame0 p)).length = 4128 := by rw [scrambled_length, frame0_length]
  refine ⟨⟨zeroSyndrome_encodeFrom 1 _ h, ?_⟩, ?_⟩
  · simp only [encodeFrom, List.take_left' h]
    exact scrambleFrom_twice _ _
  · have : s.shape 4128 (given (frame0 p)).frame = (given (frame0 p)).frame := by
      have h2 : (given (frame0 p)).frame.length = 4128 := h
      rw [← h2]; exact shape_self s _
    rw [this]; exact given_clear _

theorem witness_StoreRegionsChangeAndAreChecked_ports :
    (let a := 0x1FFDFFF
     zeros 4098 ≠ [] ∧ a + (zeros 4098).length ≤ hdgSize ∧
     (∀ i ∈ [0x1FFD, 0x1FFE, 0x1FFF], up.inPool i = true) ∧ (∀ i, i < 2 → up.hRefused (a + 4097 * i) = false) ∧
     (a ≤ 0x1FFE * 4096 ∧ 0x1FFE * 4096 + 4096 ≤ a + 4098) ∧
     (0x1FFD * 4096 < a + 4098 ∧ a < 0x1FFD * 4096 + 4096 ∧ ¬ (a ≤ 0x1FFD * 4096 ∧ 0x1FFD * 4096 + 4096 ≤ a + 4098))) ∧
    hdgSize < 0x1FFFFFF + (zeros 2).length := by decide +kernel

theorem witness_BoxwoodKeepsTheLiveBudget_fast :
    (let s := (up.wr Reg.BOX_CTL_FC_EN 1).onBox fun b => { b with fcLast := tset none b.fcLast 1 (some 0) }
     s.fcBusy 1 = true ∧ ({ s with aclk := 4 } : State).fcBusy 1 = false ∧ s.fcBusy 0 = false ∧ s.is Reg.BOX_CTL_FC_EN = true) := by
  decide +kernel

theorem witness_OperatingPointsAndDomainsSwitch_told :
    ¬ (∃ c ∈ up.que.cmds, c.pkt.opcode = opDiscover ∧ c.stage = .running) := by decide

theorem witness_HoldUpFlushesAndRecords_drains :
    (let s := ops [arr] (holdup 2)
     (∃ o ∈ s.top.ops, s.drains o = true) ∧ s.pwr.hold = 2) ∧
    (let s := ops [op1] (holdup 2)
     (∀ o ∈ s.top.ops, s.drains o = false) ∧ s.pwr.hold = 2) ∧
    (∀ d ∈ ((holdup 3).flushable 3).take 1, d.fua = false) := by decide +kernel

theorem witness_PowerLossAndColdResetClearTheComplex_journal :
    holdOf up.wiped.jScan.jRecords = none ∧
    (let l := up.jLong 3 (List.range 30)
     let s := (up.jNow l).jNow [up.jShort 4 (l.getLastD 0 % 256)]
     (holdOf s.wiped.jScan.jRecords).isSome = true) := by decide +kernel

/-! ## Values that the spec works out -/

/-- R46: the CRC of the nine ASCII bytes "123456789". -/
theorem test_crc32c_reference : crc32c ((List.range 9).map fun i => BitVec.ofNat 8 (0x31 + i)) = 0xE3069283 := by decide +kernel

/-- The streamed read of the packet chapter's example. -/
theorem test_packet_example :
    let p := Pkt.ofBytes (packet { opcode := 1, tagw := 0x40A5, word4 := 0x5323, addr := 0x12340, length := 8 })
    [p.tag, p.cls, p.client, p.sqid, p.region, p.addr, p.length, p.dest] = [0x0A5, 1, 3, 50, 5, 0x12340, 8, 0] := by decide +kernel

/-- The worked PFA: channel 5, target 2, LUN 1, plane 3, block 1,000, page 6, slot 2 (R135). -/
theorem test_worked_pfa : mkPfa (5 * 32 + 2 * 4 + 1) 3 1000 6 2 = 0xA963E80062 := by decide

/-- Its entry in region 9, DEEP, at map sequence number 0x31A2B (R147). -/
theorem test_worked_entry : mkEntry 0xA963E80062 3 9 0x31A2B = 0x1A2B27A963E80062 := by decide

/-- Its codeword of the example die is 26, at byte 14,208 of page 6 (R139). -/
theorem test_worked_codeword :
    pfaCw 18432 3 0xA963E80062 = 26 ∧ 26 * cwLen 3 / 18432 = 6 ∧ 26 * cwLen 3 % 18432 = 14208 := by decide +kernel

/-- First codewords of the first pages of the example die's three page maps. -/
theorem test_page_maps :
    [0, 1, 2, 3, 4].map (firstCw 18432 1) = [0, 5, 9, 13, 17] ∧ [0, 1, 2, 3, 4].map (firstCw 18432 2) = [0, 5, 9, 13, 17] ∧
    [0, 1, 2, 3, 4, 5, 6].map (firstCw 18432 3) = [0, 4, 8, 12, 16, 20, 24] := by decide +kernel

/-- The seed of its keystream (R288). -/
theorem test_worked_seed : seedOf 0xA963E80062 = 0xA6669C97 := by decide

/-- The quotients of the worked temperature correction (R317): −6 × 28 / 64 gives −3, −10 × 28 / 64 gives −4. -/
theorem test_worked_correction : round64 (-6 * 28) = -3 ∧ round64 (-10 * 28) = -4 := by decide

/-- R1: a read of PL_GLB_ID. -/
theorem test_id_read : (after (exec (.rcRegisterRead .port 0 4) up)).resp = .value 0x504C0200 := by decide +kernel

/-- A sequencer of channel 7 at FULL in NV-LPDDR4, as the example routines run. -/
def full7 (w : Nat) (f : Seq → Seq := id) : State :=
  seq7 w 0x100 f (wrs up [(Reg.CH_STAT_LEVEL 7, 3), (Reg.CH_STAT_BIN 7, 15), (Reg.CH_MODE_IFMODE 7, 2)])

/-- What a step of channel 7's sequencer leaves. -/
def then7 (i : Instr) (s : State) : Seq := (after (exec i s)).seq 7

/-- The status segment of the sequencer chapter, microword by microword: CE ON of OB1's target. -/
theorem test_status_ce : (then7 (.ce 7) (full7 0x20000018 fun q => { q with ob := [(1, 0x62)] })).ce = some 2 := by decide +kernel

/-- CMD 0x70, H: 8 cycles, and the next boundary is not sampled. -/
theorem test_status_cmd :
    let q := then7 (.cmd 7) (full7 0x2C000070)
    (q.tx, q.cycles, q.held, q.upc) = ([0x70], 8, 1, 0x101) := by decide +kernel

/-- RDB W0, 1 byte, ST: the status byte in W0 and S. -/
theorem test_status_rdb :
    let q := then7 (.rdb 7 { bus 0 with bytes := [0x40] }) (full7 0x50000004)
    (q.wreg 0, q.s, q.cycles) = (0x40, 0x40, 8) := by decide +kernel

/-- BR SC6 does not branch on 0x40, and does on 0. -/
theorem test_status_br :
    (then7 (.br 7 (bus 0)) (full7 0x82C00107 fun q => { q with s := 0x40 })).upc = 0x101 ∧
    (then7 (.br 7 (bus 0)) (full7 0x82C00107)).upc = 0x107 := by decide +kernel

/-- READ_MP: ADDR 6 from 0 sends column and row bytes in 48 cycles. -/
theorem test_read_mp_addr :
    let q := then7 (.addr 7) (full7 0x34000006 fun q => { q with aar := [(2, 7), (4, 0x7D)] })
    (q.tx, q.cycles) = ([0, 0, 7, 0, 0x7D, 0], 48) := by decide +kernel

/-- READ_MP: MOVS W1, OB3; LDA 2, W1; ALU AND W0, #0x0002; ALU SHR W3, #1. -/
theorem test_read_mp_movs : (then7 (.movs 7) (full7 0xD0800003 fun q => { q with ob := [(3, 7)] })).wreg 1 = 7 := by decide +kernel
theorem test_read_mp_lda :
    (then7 (.lda 7) (full7 0x38800002 fun q => { q with w := [(1, 0x1007)] })).aar = [(2, 7), (3, 0x10)] := by decide +kernel
theorem test_read_mp_and :
    let q := then7 (.alu 7) (full7 0xC8280002 fun q => { q with w := [(0, 0x0D)] })
    (q.wreg 0, q.z) = (0, true) := by decide +kernel
theorem test_read_mp_shr : (then7 (.alu 7) (full7 0xC9E80001 fun q => { q with w := [(3, 5)] })).wreg 3 = 2 := by decide +kernel

/-- No row of the table has bits, so no word spells a command and no word is placed. -/
theorem test_no_row_has_bits : decodeTableWord 16 0x1234 = none ∧ State.reset.withFetchWord 16 0x1234 = State.reset := ⟨rfl, rfl⟩

end Sys2Proof.Tests
end

section
/-!
SUPPORT. What every command keeps: the queue of waiting commands, the parts of the state that it does not reach, the
canonical form and the depths of the FIFOs. Each follows from the lemma that says which primitive updates the command is
made of.
-/
namespace Sys2Proof.Machine

/-! Every command answers. -/

theorem execDramReadResponse_isNext (id : Nat) (d : Option (List Byte)) (s : State) :
    ∃ t, execDramReadResponse id d s = .next t := by
  unfold execDramReadResponse
  dsimp only
  repeat' split
  all_goals exact ⟨_, rfl⟩

/-- No command stops: the answer to a DRAM read is the one arm that cases on its operands before it answers. -/
theorem exec_isNext (c : Instr) (s : State) : ∃ t, exec c s = .next t := by
  cases c with
  | dramReadResponse id d => exact execDramReadResponse_isNext id d s
  | _ => exact ⟨_, rfl⟩

theorem step_isNext (s : State) : ∃ t, step s = .next t := by
  unfold step
  split
  · exact ⟨_, rfl⟩
  · exact exec_isNext _ _

/-! The queue. -/

theorem coreLost_pending (s : State) : s.coreLost.pending = s.pending :=
  coreLost_keeps (P := fun t => t.pending = s.pending) (fun _ _ _ h => h) (fun _ _ _ h => h) (fun _ _ h => h)
    (fun _ _ h => h) (fun _ _ h => h) (fun _ _ h => h) (fun _ _ _ h => h) (fun _ _ h => h) (fun _ _ _ _ h => h) s rfl

theorem exec_keeps_pending (c : Instr) (s : State) : Out.All (fun t => t.pending = s.pending) (exec c s) :=
  exec_keeps (P := fun t => t.pending = s.pending)
    (kErr := fun _ _ _ h => h) (kQue := fun _ _ _ h => h) (kHdg := fun _ _ _ h => h)
    (kPut := fun _ _ _ h => h) (kClear := fun _ _ h => h)
    (kForget := hForget_keeps (fun _ _ h => h) (fun _ _ h => h))
    (kLost := fun t h => (coreLost_pending t).trans h) (kWipe := fun _ h => h)
    (kCop := fun _ _ h => h) (kMap := fun _ _ h => h) (kTop := fun _ _ h => h) (kMcs := fun _ _ h => h)
    (kChan := fun _ _ _ h => h) (kEcc := fun _ _ h => h) (kJnp := fun _ _ h => h) (kDma := fun _ _ _ h => h)
    (kBox := fun _ _ h => h) (kYew := fun _ _ h => h) (kHly := fun _ _ h => h) (kPwr := fun _ _ h => h)
    (kSys := fun _ _ h => h) (kWr := fun _ _ _ _ h => h) (kResp := fun _ _ h => h) (kDrawn := fun _ _ h => h)
    (kDram := fun _ _ _ h => h) (kDeliv := fun _ _ h => h)
    (kFlds := writeFlds_keeps (fun _ _ _ h => h) (fun _ _ h => h))
    (kCeil := ceilSet_keeps (fun _ _ h => h) (fun _ _ _ h => h) (fun _ _ h => h))
    (kDbgL := dbgLockWrite_keeps (fun _ _ _ h => h) (fun _ _ h => h)) c s rfl

/-! The canonical form: the store's bytes, the DRAM's bytes and the register fields each keep theirs. -/

theorem State.Canonical.wr {s : State} (h : s.Canonical) (F : Fld) (v : Nat) : (s.wr F v).Canonical := by
  obtain ⟨hmem, hdram, hregs⟩ := h
  exact ⟨hmem, hdram, tsorted_tset _ _ _ _ hregs⟩

theorem State.Canonical.dramWrite {s : State} (h : s.Canonical) (a : Nat) (d : List Byte) :
    (s.dramWrite a d).Canonical := by
  obtain ⟨hmem, hdram, hregs⟩ := h
  exact ⟨hmem, dramWrite_sorted s a d hdram, hregs⟩

theorem State.Canonical.hForget {s : State} (h : s.Canonical) (i : Nat) : (s.hForget i).Canonical := by
  have hrest : (s.hForget i).dram = s.dram ∧ (s.hForget i).regs = s.regs := by
    unfold State.hForget
    dsimp only
    split <;> exact ⟨rfl, rfl⟩
  obtain ⟨hmem, hdram, hregs⟩ := h
  exact ⟨Memory.wf_hForget s i hmem, hrest.1 ▸ hdram, hrest.2 ▸ hregs⟩

theorem State.Canonical.coreLost {s : State} (h : s.Canonical) : s.coreLost.Canonical :=
  coreLost_keeps (P := State.Canonical) (fun _ _ hf ⟨_, hrest⟩ => ⟨Memory.wf_empty _ (hf _), hrest⟩) (fun _ _ _ h => h)
    (fun _ _ h => h) (fun _ _ h => h) (fun _ _ h => h) (fun _ _ h => h) (fun _ _ _ h => h) (fun _ _ h => h)
    (fun _ F v _ h => h.wr F v) s h

theorem State.Canonical.wiped {s : State} (h : s.Canonical) : s.wiped.Canonical := by
  obtain ⟨-, hdram, -⟩ := h
  exact ⟨Memory.wf_empty _ rfl, hdram, rfl⟩

theorem exec_keeps_canonical (c : Instr) (s : State) (h : s.Canonical) : Out.All State.Canonical (exec c s) :=
  exec_keeps (kErr := fun _ _ _ h => h) (kQue := fun _ _ _ h => h)
    (kHdg := fun _ _ hf ⟨hmem, hrest⟩ => ⟨Memory.wf_kept hf _ hmem, hrest⟩)
    (kPut := fun _ _ _ ⟨hmem, hrest⟩ => ⟨Memory.wf_hPut _ _ _ hmem, hrest⟩)
    (kClear := fun _ _ ⟨hmem, hrest⟩ => ⟨Memory.wf_hClearRegion _ _ hmem, hrest⟩) (kForget := fun _ i h => h.hForget i)
    (kLost := fun _ h => h.coreLost) (kWipe := fun _ h => h.wiped)
    (kCop := fun _ _ h => h) (kMap := fun _ _ h => h) (kTop := fun _ _ h => h) (kMcs := fun _ _ h => h)
    (kChan := fun _ _ _ h => h) (kEcc := fun _ _ h => h) (kJnp := fun _ _ h => h) (kDma := fun _ _ _ h => h)
    (kBox := fun _ _ h => h) (kYew := fun _ _ h => h) (kHly := fun _ _ h => h) (kPwr := fun _ _ h => h)
    (kSys := fun _ _ h => h) (kWr := fun _ F v _ h => h.wr F v) (kResp := fun _ _ h => h) (kDrawn := fun _ _ h => h)
    (kDram := fun _ a d h => h.dramWrite a d) (kDeliv := fun _ _ h => h)
    (kFlds := writeFlds_keeps (fun _ F v h => h.wr F v) (fun _ _ h => h))
    (kCeil := ceilSet_keeps (fun _ _ h => h) (fun _ F v h => h.wr F v) (fun _ _ h => h))
    (kDbgL := dbgLockWrite_keeps (fun _ F v h => h.wr F v) (fun _ _ h => h)) c s h

/-! The depths of the FIFOs. -/

/-- R529: no unit buffers a second error record. -/
theorem ErrKept.nodup_src {e e2 : ErrLog} (hk : ErrKept e e2) (h : (e.buf.map fun r => r.src).Nodup) :
    (e2.buf.map fun r => r.src).Nodup := by
  rcases hk with hdrop | ⟨r, hnew, hadd⟩
  · exact h.sublist (hdrop.map _)
  · rw [hadd, List.map_append, List.nodup_append]
    refine ⟨h, by simp, ?_⟩
    simpa using hnew

theorem QueKept.csf_le {q q2 : Que} (hk : QueKept q q2) (h : q.csf.length ≤ 256) : q2.csf.length ≤ 256 :=
  Nat.le_trans hk (Nat.max_le.mpr ⟨h, Nat.le_refl _⟩)

theorem DmaKept.queue_le {d d2 : Dma} (hk : DmaKept d d2) (h : ∀ n, (tget {} d.chs n).queue.length ≤ 8) (n : Nat) :
    (tget {} d2.chs n).queue.length ≤ 8 :=
  Nat.le_trans (hk n) (Nat.max_le.mpr ⟨h n, Nat.le_refl _⟩)

theorem fifosWithin_onErr : KErr State.FifosWithin :=
  fun _ _ hk ⟨hcsf, hqueue, hsrc⟩ => ⟨hcsf, hqueue, hk.nodup_src hsrc⟩

theorem fifosWithin_onQue : KQue State.FifosWithin :=
  fun _ _ hk ⟨hcsf, hqueue, hsrc⟩ => ⟨hk.csf_le hcsf, hqueue, hsrc⟩

theorem fifosWithin_onDma : KDma State.FifosWithin :=
  fun _ _ hk ⟨hcsf, hqueue, hsrc⟩ => ⟨hcsf, hk.queue_le hqueue, hsrc⟩

theorem State.FifosWithin.coreLost {s : State} (h : s.FifosWithin) : s.coreLost.FifosWithin :=
  coreLost_keeps (fun _ _ _ h => h) fifosWithin_onQue (fun _ _ h => h) (fun _ _ h => h) (fun _ _ h => h)
    (fun _ _ h => h) fifosWithin_onDma (fun _ _ h => h) (fun _ _ _ _ h => h) s h

theorem State.wiped_fifosWithin (s : State) : s.wiped.FifosWithin := ⟨Nat.zero_le _, fun _ => Nat.zero_le _, .nil⟩

theorem exec_keeps_fifosWithin (c : Instr) (s : State) (h : s.FifosWithin) : Out.All State.FifosWithin (exec c s) :=
  exec_keeps (kErr := fifosWithin_onErr) (kQue := fifosWithin_onQue) (kDma := fifosWithin_onDma)
    (kHdg := fun _ _ _ h => h) (kPut := fun _ _ _ h => h) (kClear := fun _ _ h => h)
    (kForget := hForget_keeps (fun _ _ h => h) (fun _ _ h => h))
    (kLost := fun _ h => h.coreLost) (kWipe := fun s _ => s.wiped_fifosWithin)
    (kCop := fun _ _ h => h) (kMap := fun _ _ h => h) (kTop := fun _ _ h => h) (kMcs := fun _ _ h => h)
    (kChan := fun _ _ _ h => h) (kEcc := fun _ _ h => h) (kJnp := fun _ _ h => h)
    (kBox := fun _ _ h => h) (kYew := fun _ _ h => h) (kHly := fun _ _ h => h) (kPwr := fun _ _ h => h)
    (kSys := fun _ _ h => h) (kWr := fun _ _ _ _ h => h) (kResp := fun _ _ h => h) (kDrawn := fun _ _ h => h)
    (kDram := fun _ _ _ h => h) (kDeliv := fun _ _ h => h)
    (kFlds := writeFlds_keeps (fun _ _ _ h => h) (fun _ _ h => h))
    (kCeil := ceilSet_keeps (fun _ _ h => h) (fun _ _ _ h => h) (fun _ _ h => h))
    (kDbgL := dbgLockWrite_keeps (fun _ _ _ h => h) (fun _ _ h => h)) c s h

/-! The frame. -/

/-- A command changes no part of the state outside what it reaches: each update that it is made of changes parts that it
reaches, so the update leaves every other part alone. -/
theorem exec_keptBut_reach (c : Instr) (s : State) : Out.All (KeptBut (reach c) s) (exec c s) := by
  have kErr := @keptButErr (reach c) s
  have kQue := @keptButQue (reach c) s
  have kHdg := @keptButHdg (reach c) s
  have kPut := @keptButPut (reach c) s
  have kClear := @keptButClear (reach c) s
  have kForget := @keptButForget (reach c) s
  have kLost := @keptButLost (reach c) s
  have kWipe := @keptButWipe (reach c) s
  have kCop := @keptButCop (reach c) s
  have kMap := @keptButMap (reach c) s
  have kTop := @keptButTop (reach c) s
  have kMcs := @keptButMcs (reach c) s
  have kChan := @keptButChan (reach c) s
  have kEcc := @keptButEcc (reach c) s
  have kJnp := @keptButJnp (reach c) s
  have kDma := @keptButDma (reach c) s
  have kBox := @keptButBox (reach c) s
  have kYew := @keptButYew (reach c) s
  have kHly := @keptButHly (reach c) s
  have kPwr := @keptButPwr (reach c) s
  have kSys := @keptButSys (reach c) s
  have kWr := @keptButWr (reach c) s
  have kResp := @keptButResp (reach c) s
  have kDrawn := @keptButDrawn (reach c) s
  have kDram := @keptButDram (reach c) s
  have kDeliv := @keptButDeliv (reach c) s
  have kFlds := @keptButFlds (reach c) s
  have kCeil := @keptButCeil (reach c) s
  have kDbgL := @keptButDbgL (reach c) s
  have hs : KeptBut (reach c) s s := .refl _ s
  cases c with
  | registerWrite =>
    exact execRegisterWrite_keeps (kErr rfl) (kQue rfl) (kHdg rfl) (kPut rfl rfl) (kForget rfl rfl rfl) (kCop rfl)
      (kMap rfl) (kTop rfl) (kMcs rfl) (kChan rfl) (kEcc rfl) (kJnp rfl) (kDma rfl) (kBox rfl) (kYew rfl) (kHly rfl)
      (kPwr rfl) (kSys rfl) (kWr rfl) (kResp rfl) (kDrawn rfl) (kDram rfl) (kDeliv rfl) (kFlds rfl rfl)
      (kCeil rfl rfl rfl) (kDbgL rfl rfl) _ _ _ _ s hs
  | queDoorbellSqtail =>
    exact execQueDoorbellSqtail_keeps (kErr rfl) (kQue rfl) (kPwr rfl) (kWr rfl) (kResp rfl) _ _ _ s hs
  | queDoorbellCqhead =>
    exact execQueDoorbellCqhead_keeps (kErr rfl) (kQue rfl) (kPwr rfl) (kWr rfl) (kResp rfl) _ _ _ s hs
  | queEnable => exact execQueEnable_keeps (kQue rfl) (kPwr rfl) (kWr rfl) (kResp rfl) _ _ _ s hs
  | queDisable => exact execQueDisable_keeps (kQue rfl) (kPwr rfl) (kWr rfl) (kResp rfl) _ _ _ s hs
  | packetFetch => exact execPacketFetch_keeps (kErr rfl) (kQue rfl) (kSys rfl) (kWr rfl) (kDrawn rfl) s hs
  | read =>
    exact execRead_keeps (kErr rfl) (kQue rfl) (kHdg rfl) (kPut rfl rfl) (kCop rfl) (kMap rfl) (kTop rfl) (kMcs rfl)
      (kChan rfl) (kEcc rfl) (kJnp rfl) (kBox rfl) (kYew rfl) (kHly rfl) (kSys rfl) (kWr rfl) (kDrawn rfl)
      (kDeliv rfl) _ s hs
  | readRaw =>
    exact execReadRaw_keeps (kErr rfl) (kQue rfl) (kHdg rfl) (kPut rfl rfl) (kCop rfl) (kMap rfl) (kTop rfl)
      (kMcs rfl) (kChan rfl) (kEcc rfl) (kJnp rfl) (kBox rfl) (kYew rfl) (kHly rfl) (kSys rfl) (kWr rfl) (kDrawn rfl)
      (kDeliv rfl) _ s hs
  | program =>
    exact execProgram_keeps (kErr rfl) (kQue rfl) (kHdg rfl) (kPut rfl rfl) (kCop rfl) (kMap rfl) (kTop rfl)
      (kMcs rfl) (kChan rfl) (kEcc rfl) (kJnp rfl) (kBox rfl) (kYew rfl) (kHly rfl) (kSys rfl) (kWr rfl) (kDrawn rfl)
      (kDeliv rfl) _ _ s hs
  | programAtomic =>
    exact execProgramAtomic_keeps (kErr rfl) (kQue rfl) (kHdg rfl) (kPut rfl rfl) (kCop rfl) (kMap rfl) (kTop rfl)
      (kMcs rfl) (kChan rfl) (kEcc rfl) (kJnp rfl) (kBox rfl) (kYew rfl) (kHly rfl) (kSys rfl) (kWr rfl) (kDrawn rfl)
      (kDeliv rfl) _ _ s hs
  | erase => exact execErase_keeps (kQue rfl) (kTop rfl) (kSys rfl) (kWr rfl) _ s hs
  | copy =>
    exact execCopy_keeps (kErr rfl) (kQue rfl) (kHdg rfl) (kPut rfl rfl) (kCop rfl) (kMap rfl) (kTop rfl) (kMcs rfl)
      (kChan rfl) (kEcc rfl) (kJnp rfl) (kBox rfl) (kYew rfl) (kHly rfl) (kSys rfl) (kWr rfl) (kDrawn rfl)
      (kDeliv rfl) _ _ s hs
  | trim =>
    exact execTrim_keeps (kErr rfl) (kQue rfl) (kHdg rfl) (kPut rfl rfl) (kCop rfl) (kMap rfl) (kTop rfl) (kMcs rfl)
      (kChan rfl) (kEcc rfl) (kJnp rfl) (kBox rfl) (kYew rfl) (kHly rfl) (kSys rfl) (kWr rfl) (kDrawn rfl)
      (kDeliv rfl) _ s hs
  | flush =>
    exact execFlush_keeps (kErr rfl) (kQue rfl) (kHdg rfl) (kPut rfl rfl) (kCop rfl) (kMap rfl) (kTop rfl) (kMcs rfl)
      (kChan rfl) (kEcc rfl) (kJnp rfl) (kBox rfl) (kYew rfl) (kHly rfl) (kSys rfl) (kWr rfl) (kDrawn rfl)
      (kDeliv rfl) _ s hs
  | bufAlloc => exact execBufAlloc_keeps (kQue rfl) (kCop rfl) (kSys rfl) (kWr rfl) _ s hs
  | bufShare => exact execBufShare_keeps (kErr rfl) (kQue rfl) (kCop rfl) (kSys rfl) (kWr rfl) (kDrawn rfl) _ s hs
  | bufFree =>
    exact execBufFree_keeps (kErr rfl) (kQue rfl) (kHdg rfl) (kPut rfl rfl) (kCop rfl) (kSys rfl) (kWr rfl)
      (kDrawn rfl) _ s hs
  | dmaMove => exact execDmaMove_keeps (kErr rfl) (kQue rfl) (kDma rfl) (kSys rfl) (kWr rfl) (kDrawn rfl) _ s hs
  | mapPin =>
    exact execMapPin_keeps (kErr rfl) (kQue rfl) (kHdg rfl) (kPut rfl rfl) (kCop rfl) (kMap rfl) (kTop rfl) (kMcs rfl)
      (kChan rfl) (kEcc rfl) (kJnp rfl) (kBox rfl) (kYew rfl) (kHly rfl) (kSys rfl) (kWr rfl) (kDrawn rfl)
      (kDeliv rfl) _ s hs
  | mapSync =>
    exact execMapSync_keeps (kErr rfl) (kQue rfl) (kHdg rfl) (kPut rfl rfl) (kCop rfl) (kMap rfl) (kTop rfl)
      (kMcs rfl) (kChan rfl) (kEcc rfl) (kJnp rfl) (kBox rfl) (kYew rfl) (kHly rfl) (kSys rfl) (kWr rfl) (kDrawn rfl)
      (kDeliv rfl) _ s hs
  | scrubStore => exact execScrubStore_keeps (kQue rfl) (kTop rfl) (kHly rfl) (kSys rfl) (kWr rfl) _ s hs
  | patrol => exact execPatrol_keeps (kQue rfl) (kTop rfl) (kHly rfl) (kSys rfl) (kWr rfl) _ s hs
  | train => exact execTrain_keeps (kQue rfl) (kTop rfl) (kHly rfl) (kSys rfl) (kWr rfl) _ s hs
  | calib => exact execCalib_keeps (kQue rfl) (kTop rfl) (kHly rfl) (kSys rfl) (kWr rfl) _ s hs
  | zqcal => exact execZqcal_keeps (kQue rfl) (kTop rfl) (kHly rfl) (kSys rfl) (kWr rfl) _ s hs
  | selftestStore => exact execSelftestStore_keeps (kQue rfl) (kTop rfl) (kHly rfl) (kSys rfl) (kWr rfl) _ s hs
  | selftestChannel => exact execSelftestChannel_keeps (kQue rfl) (kTop rfl) (kHly rfl) (kSys rfl) (kWr rfl) _ s hs
  | powerActive => exact execPowerActive_keeps (kQue rfl) (kPwr rfl) (kSys rfl) (kWr rfl) _ s hs
  | powerNap => exact execPowerNap_keeps (kQue rfl) (kPwr rfl) (kSys rfl) (kWr rfl) _ s hs
  | powerDormant => exact execPowerDormant_keeps (kQue rfl) (kPwr rfl) (kSys rfl) (kWr rfl) _ s hs
  | abort =>
    exact execAbort_keeps (kErr rfl) (kQue rfl) (kHdg rfl) (kPut rfl rfl) (kForget rfl rfl rfl) (kCop rfl) (kMap rfl)
      (kTop rfl) (kMcs rfl) (kChan rfl) (kEcc rfl) (kJnp rfl) (kDma rfl) (kBox rfl) (kYew rfl) (kHly rfl) (kPwr rfl)
      (kSys rfl) (kWr rfl) (kDrawn rfl) (kDram rfl) (kDeliv rfl) _ s hs
  | attach => exact execAttach_keeps (kQue rfl) (kCop rfl) (kHly rfl) (kSys rfl) (kWr rfl) _ s hs
  | detach =>
    exact execDetach_keeps (kErr rfl) (kQue rfl) (kHdg rfl) (kPut rfl rfl) (kForget rfl rfl rfl) (kCop rfl) (kMap rfl)
      (kTop rfl) (kMcs rfl) (kChan rfl) (kEcc rfl) (kJnp rfl) (kDma rfl) (kBox rfl) (kYew rfl) (kHly rfl) (kPwr rfl)
      (kSys rfl) (kWr rfl) (kDrawn rfl) (kDram rfl) (kDeliv rfl) _ s hs
  | discover => exact execDiscover_keeps (kQue rfl) (kTop rfl) (kHly rfl) (kSys rfl) (kWr rfl) _ s hs
  | setPolicy => exact execSetPolicy_keeps (kQue rfl) (kTop rfl) (kYew rfl) (kHly rfl) (kSys rfl) (kWr rfl) _ s hs
  | getInfoIdentity =>
    exact execGetInfoIdentity_keeps (kErr rfl) (kQue rfl) (kHdg rfl) (kPut rfl rfl) (kHly rfl) (kSys rfl) (kWr rfl) _
      s hs
  | getInfoInventory =>
    exact execGetInfoInventory_keeps (kErr rfl) (kQue rfl) (kHdg rfl) (kPut rfl rfl) (kHly rfl) (kSys rfl) (kWr rfl) _
      s hs
  | getInfoTorn =>
    exact execGetInfoTorn_keeps (kErr rfl) (kQue rfl) (kHdg rfl) (kPut rfl rfl) (kHly rfl) (kSys rfl) (kWr rfl) _ s hs
  | getInfoHealth =>
    exact execGetInfoHealth_keeps (kErr rfl) (kQue rfl) (kHdg rfl) (kPut rfl rfl) (kJnp rfl) (kHly rfl) (kSys rfl)
      (kWr rfl) (kDrawn rfl) _ s hs
  | getInfoEnergy =>
    exact execGetInfoEnergy_keeps (kErr rfl) (kQue rfl) (kHdg rfl) (kPut rfl rfl) (kHly rfl) (kSys rfl) (kWr rfl) _ s
      hs
  | getInfoPolicy =>
    exact execGetInfoPolicy_keeps (kErr rfl) (kQue rfl) (kHdg rfl) (kPut rfl rfl) (kHly rfl) (kSys rfl) (kWr rfl) _ s
      hs
  | getInfoParked =>
    exact execGetInfoParked_keeps (kErr rfl) (kQue rfl) (kHdg rfl) (kPut rfl rfl) (kHly rfl) (kSys rfl) (kWr rfl) _ s
      hs
  | activateHolly => exact execActivateHolly_keeps (kQue rfl) (kHly rfl) (kSys rfl) (kWr rfl) _ s hs
  | activateEspalier => exact execActivateEspalier_keeps (kQue rfl) (kHly rfl) (kSys rfl) (kWr rfl) _ s hs
  | completionRequestGrant => exact execCompletionRequestGrant_keeps (kQue rfl) (kDma rfl) (kWr rfl) s hs
  | completionRecordWrite =>
    exact execCompletionRecordWrite_keeps (kErr rfl) (kQue rfl) (kHdg rfl) (kPut rfl rfl)
      (kLost rfl rfl rfl rfl rfl rfl rfl rfl rfl rfl) (kCop rfl) (kMap rfl) (kTop rfl) (kMcs rfl) (kChan rfl)
      (kEcc rfl) (kJnp rfl) (kBox rfl) (kHly rfl) (kPwr rfl) (kSys rfl) (kWr rfl) (kDram rfl) s hs
  | fifoPointerMismatch =>
    exact execFifoPointerMismatch_keeps (kErr rfl) (kQue rfl) (kHdg rfl) (kPut rfl rfl) (kCop rfl) (kMap rfl)
      (kTop rfl) (kMcs rfl) (kChan rfl) (kEcc rfl) (kJnp rfl) (kDma rfl) (kBox rfl) (kYew rfl) (kHly rfl) (kSys rfl)
      (kWr rfl) (kDrawn rfl) (kDeliv rfl) _ _ s hs
  | mapPageReadDone =>
    exact execMapPageReadDone_keeps (kErr rfl) (kQue rfl) (kHdg rfl) (kPut rfl rfl) (kCop rfl) (kMap rfl) (kTop rfl)
      (kMcs rfl) (kChan rfl) (kEcc rfl) (kJnp rfl) (kBox rfl) (kYew rfl) (kHly rfl) (kSys rfl) (kWr rfl) (kDrawn rfl)
      (kDeliv rfl) _ s hs
  | mapPageZeroFillDone =>
    exact execMapPageZeroFillDone_keeps (kErr rfl) (kQue rfl) (kHdg rfl) (kPut rfl rfl) (kCop rfl) (kMap rfl)
      (kTop rfl) (kMcs rfl) (kChan rfl) (kEcc rfl) (kJnp rfl) (kBox rfl) (kYew rfl) (kHly rfl) (kSys rfl) (kWr rfl)
      (kDrawn rfl) (kDeliv rfl) _ s hs
  | mapPageInstall =>
    exact execMapPageInstall_keeps (kErr rfl) (kQue rfl) (kHdg rfl) (kPut rfl rfl) (kCop rfl) (kMap rfl) (kTop rfl)
      (kMcs rfl) (kChan rfl) (kEcc rfl) (kJnp rfl) (kBox rfl) (kYew rfl) (kHly rfl) (kSys rfl) (kWr rfl) (kDrawn rfl)
      (kDeliv rfl) _ _ s hs
  | mapWritebackStart =>
    exact execMapWritebackStart_keeps (kErr rfl) (kMap rfl) (kTop rfl) (kPwr rfl) (kWr rfl) (kDrawn rfl) _ _ s hs
  | mapWritebackDone =>
    exact execMapWritebackDone_keeps (kErr rfl) (kQue rfl) (kHdg rfl) (kPut rfl rfl) (kCop rfl) (kMap rfl) (kTop rfl)
      (kMcs rfl) (kChan rfl) (kEcc rfl) (kJnp rfl) (kBox rfl) (kYew rfl) (kHly rfl) (kSys rfl) (kWr rfl) (kDrawn rfl)
      (kDeliv rfl) _ s hs
  | mapRegionLoad =>
    exact execMapRegionLoad_keeps (kErr rfl) (kQue rfl) (kHdg rfl) (kPut rfl rfl) (kCop rfl) (kMap rfl) (kTop rfl)
      (kMcs rfl) (kChan rfl) (kEcc rfl) (kJnp rfl) (kBox rfl) (kYew rfl) (kHly rfl) (kPwr rfl) (kSys rfl) (kWr rfl)
      (kResp rfl) (kDrawn rfl) (kDeliv rfl) _ _ s hs
  | mapEnableRequest =>
    exact execMapEnableRequest_keeps (kErr rfl) (kQue rfl) (kHdg rfl) (kPut rfl rfl) (kCop rfl) (kMap rfl) (kTop rfl)
      (kMcs rfl) (kChan rfl) (kEcc rfl) (kJnp rfl) (kBox rfl) (kYew rfl) (kHly rfl) (kPwr rfl) (kSys rfl) (kWr rfl)
      (kResp rfl) (kDrawn rfl) (kDeliv rfl) _ s hs
  | mapEnableSet =>
    exact execMapEnableSet_keeps (kErr rfl) (kQue rfl) (kHdg rfl) (kPut rfl rfl) (kCop rfl) (kMap rfl) (kTop rfl)
      (kMcs rfl) (kChan rfl) (kEcc rfl) (kJnp rfl) (kBox rfl) (kYew rfl) (kHly rfl) (kPwr rfl) (kSys rfl) (kWr rfl)
      (kResp rfl) (kDrawn rfl) (kDeliv rfl) _ _ s hs
  | opStart =>
    exact execOpStart_keeps (kErr rfl) (kQue rfl) (kHdg rfl) (kPut rfl rfl) (kCop rfl) (kMap rfl) (kTop rfl)
      (kMcs rfl) (kChan rfl) (kEcc rfl) (kJnp rfl) (kBox rfl) (kYew rfl) (kHly rfl) (kSys rfl) (kWr rfl) (kDrawn rfl)
      (kDeliv rfl) _ s hs
  | tokenEvaluate =>
    exact execTokenEvaluate_keeps (kErr rfl) (kQue rfl) (kHdg rfl) (kPut rfl rfl) (kCop rfl) (kMap rfl) (kTop rfl)
      (kMcs rfl) (kChan rfl) (kEcc rfl) (kJnp rfl) (kBox rfl) (kYew rfl) (kHly rfl) (kSys rfl) (kWr rfl) (kDrawn rfl)
      (kDeliv rfl) s hs
  | tokenAnswer =>
    exact execTokenAnswer_keeps (kErr rfl) (kQue rfl) (kHdg rfl) (kPut rfl rfl) (kCop rfl) (kMap rfl) (kTop rfl)
      (kMcs rfl) (kChan rfl) (kEcc rfl) (kJnp rfl) (kBox rfl) (kYew rfl) (kHly rfl) (kSys rfl) (kWr rfl) (kDrawn rfl)
      (kDeliv rfl) _ s hs
  | statusPollDue =>
    exact execStatusPollDue_keeps (kErr rfl) (kTop rfl) (kMcs rfl) (kChan rfl) (kEcc rfl) (kBox rfl) (kWr rfl) _ s hs
  | gatherTimeout => exact execGatherTimeout_keeps (kTop rfl) (kWr rfl) _ s hs
  | writeAgeExpiry => exact execWriteAgeExpiry_keeps (kTop rfl) _ s hs
  | maintAgeExpiry => exact execMaintAgeExpiry_keeps (kTop rfl) _ s hs
  | busAgeExpiry => exact execBusAgeExpiry_keeps (kTop rfl) (kMcs rfl) _ _ s hs
  | tokenAgeExpiry => exact execTokenAgeExpiry_keeps (kTop rfl) _ s hs
  | suspendStart =>
    exact execSuspendStart_keeps (kErr rfl) (kTop rfl) (kMcs rfl) (kChan rfl) (kEcc rfl) (kBox rfl) (kWr rfl) _ s hs
  | resumeDue => exact execResumeDue_keeps (kTop rfl) (kBox rfl) _ s hs
  | suspendWindowExpiry => exact execSuspendWindowExpiry_keeps (kTop rfl) (kBox rfl) _ s hs
  | arrayWatchdogExpiry =>
    exact execArrayWatchdogExpiry_keeps (kErr rfl) (kQue rfl) (kHdg rfl) (kPut rfl rfl) (kCop rfl) (kMap rfl)
      (kTop rfl) (kMcs rfl) (kChan rfl) (kEcc rfl) (kJnp rfl) (kBox rfl) (kYew rfl) (kHly rfl) (kSys rfl) (kWr rfl)
      (kDrawn rfl) (kDeliv rfl) _ s hs
  | leaseGrant =>
    exact execLeaseGrant_keeps (kErr rfl) (kQue rfl) (kHdg rfl) (kPut rfl rfl) (kCop rfl) (kMap rfl) (kTop rfl)
      (kMcs rfl) (kChan rfl) (kEcc rfl) (kJnp rfl) (kBox rfl) (kYew rfl) (kHly rfl) (kSys rfl) (kWr rfl) (kDrawn rfl)
      (kDeliv rfl) _ s hs
  | lunRetirementEffect =>
    exact execLunRetirementEffect_keeps (kErr rfl) (kQue rfl) (kHdg rfl) (kPut rfl rfl) (kCop rfl) (kMap rfl)
      (kTop rfl) (kMcs rfl) (kChan rfl) (kEcc rfl) (kJnp rfl) (kBox rfl) (kYew rfl) (kHly rfl) (kSys rfl) (kWr rfl)
      (kDrawn rfl) (kDeliv rfl) _ s hs
  | nop =>
    exact execNop_keeps (kErr rfl) (kQue rfl) (kHdg rfl) (kPut rfl rfl) (kCop rfl) (kMap rfl) (kTop rfl) (kMcs rfl)
      (kChan rfl) (kEcc rfl) (kJnp rfl) (kBox rfl) (kYew rfl) (kHly rfl) (kPwr rfl) (kSys rfl) (kWr rfl) (kDrawn rfl)
      (kDeliv rfl) _ s hs
  | endOp =>
    exact execEndOp_keeps (kErr rfl) (kQue rfl) (kHdg rfl) (kPut rfl rfl) (kCop rfl) (kMap rfl) (kTop rfl) (kMcs rfl)
      (kChan rfl) (kEcc rfl) (kJnp rfl) (kBox rfl) (kYew rfl) (kHly rfl) (kPwr rfl) (kSys rfl) (kWr rfl) (kDrawn rfl)
      (kDeliv rfl) _ s hs
  | trap =>
    exact execTrap_keeps (kErr rfl) (kQue rfl) (kHdg rfl) (kPut rfl rfl) (kCop rfl) (kMap rfl) (kTop rfl) (kMcs rfl)
      (kChan rfl) (kEcc rfl) (kJnp rfl) (kBox rfl) (kYew rfl) (kHly rfl) (kPwr rfl) (kSys rfl) (kWr rfl) (kDrawn rfl)
      (kDeliv rfl) _ s hs
  | setim =>
    exact execSetim_keeps (kErr rfl) (kQue rfl) (kHdg rfl) (kPut rfl rfl) (kCop rfl) (kMap rfl) (kTop rfl) (kMcs rfl)
      (kChan rfl) (kEcc rfl) (kJnp rfl) (kBox rfl) (kYew rfl) (kHly rfl) (kPwr rfl) (kSys rfl) (kWr rfl) (kDrawn rfl)
      (kDeliv rfl) _ s hs
  | ce =>
    exact execCe_keeps (kErr rfl) (kQue rfl) (kHdg rfl) (kPut rfl rfl) (kCop rfl) (kMap rfl) (kTop rfl) (kMcs rfl)
      (kChan rfl) (kEcc rfl) (kJnp rfl) (kBox rfl) (kYew rfl) (kHly rfl) (kPwr rfl) (kSys rfl) (kWr rfl) (kDrawn rfl)
      (kDeliv rfl) _ s hs
  | cmd =>
    exact execCmd_keeps (kErr rfl) (kQue rfl) (kHdg rfl) (kPut rfl rfl) (kCop rfl) (kMap rfl) (kTop rfl) (kMcs rfl)
      (kChan rfl) (kEcc rfl) (kJnp rfl) (kBox rfl) (kYew rfl) (kHly rfl) (kPwr rfl) (kSys rfl) (kWr rfl) (kDrawn rfl)
      (kDeliv rfl) _ s hs
  | addr =>
    exact execAddr_keeps (kErr rfl) (kQue rfl) (kHdg rfl) (kPut rfl rfl) (kCop rfl) (kMap rfl) (kTop rfl) (kMcs rfl)
      (kChan rfl) (kEcc rfl) (kJnp rfl) (kBox rfl) (kYew rfl) (kHly rfl) (kPwr rfl) (kSys rfl) (kWr rfl) (kDrawn rfl)
      (kDeliv rfl) _ s hs
  | lda =>
    exact execLda_keeps (kErr rfl) (kQue rfl) (kHdg rfl) (kPut rfl rfl) (kCop rfl) (kMap rfl) (kTop rfl) (kMcs rfl)
      (kChan rfl) (kEcc rfl) (kJnp rfl) (kBox rfl) (kYew rfl) (kHly rfl) (kPwr rfl) (kSys rfl) (kWr rfl) (kDrawn rfl)
      (kDeliv rfl) _ s hs
  | wait =>
    exact execWait_keeps (kErr rfl) (kQue rfl) (kHdg rfl) (kPut rfl rfl) (kCop rfl) (kMap rfl) (kTop rfl) (kMcs rfl)
      (kChan rfl) (kEcc rfl) (kJnp rfl) (kBox rfl) (kYew rfl) (kHly rfl) (kPwr rfl) (kSys rfl) (kWr rfl) (kDrawn rfl)
      (kDeliv rfl) _ s hs
  | burst =>
    exact execBurst_keeps (kErr rfl) (kQue rfl) (kHdg rfl) (kPut rfl rfl) (kCop rfl) (kMap rfl) (kTop rfl) (kMcs rfl)
      (kChan rfl) (kEcc rfl) (kJnp rfl) (kBox rfl) (kYew rfl) (kHly rfl) (kPwr rfl) (kSys rfl) (kWr rfl) (kDrawn rfl)
      (kDeliv rfl) _ _ s hs
  | rdb =>
    exact execRdb_keeps (kErr rfl) (kQue rfl) (kHdg rfl) (kPut rfl rfl) (kCop rfl) (kMap rfl) (kTop rfl) (kMcs rfl)
      (kChan rfl) (kEcc rfl) (kJnp rfl) (kBox rfl) (kYew rfl) (kHly rfl) (kPwr rfl) (kSys rfl) (kWr rfl) (kDrawn rfl)
      (kDeliv rfl) _ _ s hs
  | wrb =>
    exact execWrb_keeps (kErr rfl) (kQue rfl) (kHdg rfl) (kPut rfl rfl) (kCop rfl) (kMap rfl) (kTop rfl) (kMcs rfl)
      (kChan rfl) (kEcc rfl) (kJnp rfl) (kBox rfl) (kYew rfl) (kHly rfl) (kPwr rfl) (kSys rfl) (kWr rfl) (kDrawn rfl)
      (kDeliv rfl) _ s hs
  | pin =>
    exact execPin_keeps (kErr rfl) (kQue rfl) (kHdg rfl) (kPut rfl rfl) (kCop rfl) (kMap rfl) (kTop rfl) (kMcs rfl)
      (kChan rfl) (kEcc rfl) (kJnp rfl) (kBox rfl) (kYew rfl) (kHly rfl) (kPwr rfl) (kSys rfl) (kWr rfl) (kDrawn rfl)
      (kDeliv rfl) _ s hs
  | post =>
    exact execPost_keeps (kErr rfl) (kQue rfl) (kHdg rfl) (kPut rfl rfl) (kCop rfl) (kMap rfl) (kTop rfl) (kMcs rfl)
      (kChan rfl) (kEcc rfl) (kJnp rfl) (kBox rfl) (kYew rfl) (kHly rfl) (kPwr rfl) (kSys rfl) (kWr rfl) (kDrawn rfl)
      (kDeliv rfl) _ s hs
  | br =>
    exact execBr_keeps (kErr rfl) (kQue rfl) (kHdg rfl) (kPut rfl rfl) (kCop rfl) (kMap rfl) (kTop rfl) (kMcs rfl)
      (kChan rfl) (kEcc rfl) (kJnp rfl) (kBox rfl) (kYew rfl) (kHly rfl) (kPwr rfl) (kSys rfl) (kWr rfl) (kDrawn rfl)
      (kDeliv rfl) _ _ s hs
  | call =>
    exact execCall_keeps (kErr rfl) (kQue rfl) (kHdg rfl) (kPut rfl rfl) (kCop rfl) (kMap rfl) (kTop rfl) (kMcs rfl)
      (kChan rfl) (kEcc rfl) (kJnp rfl) (kBox rfl) (kYew rfl) (kHly rfl) (kPwr rfl) (kSys rfl) (kWr rfl) (kDrawn rfl)
      (kDeliv rfl) _ _ s hs
  | ret =>
    exact execRet_keeps (kErr rfl) (kQue rfl) (kHdg rfl) (kPut rfl rfl) (kCop rfl) (kMap rfl) (kTop rfl) (kMcs rfl)
      (kChan rfl) (kEcc rfl) (kJnp rfl) (kBox rfl) (kYew rfl) (kHly rfl) (kPwr rfl) (kSys rfl) (kWr rfl) (kDrawn rfl)
      (kDeliv rfl) _ _ s hs
  | djnz =>
    exact execDjnz_keeps (kErr rfl) (kQue rfl) (kHdg rfl) (kPut rfl rfl) (kCop rfl) (kMap rfl) (kTop rfl) (kMcs rfl)
      (kChan rfl) (kEcc rfl) (kJnp rfl) (kBox rfl) (kYew rfl) (kHly rfl) (kPwr rfl) (kSys rfl) (kWr rfl) (kDrawn rfl)
      (kDeliv rfl) _ s hs
  | ldi =>
    exact execLdi_keeps (kErr rfl) (kQue rfl) (kHdg rfl) (kPut rfl rfl) (kCop rfl) (kMap rfl) (kTop rfl) (kMcs rfl)
      (kChan rfl) (kEcc rfl) (kJnp rfl) (kBox rfl) (kYew rfl) (kHly rfl) (kPwr rfl) (kSys rfl) (kWr rfl) (kDrawn rfl)
      (kDeliv rfl) _ s hs
  | alu =>
    exact execAlu_keeps (kErr rfl) (kQue rfl) (kHdg rfl) (kPut rfl rfl) (kCop rfl) (kMap rfl) (kTop rfl) (kMcs rfl)
      (kChan rfl) (kEcc rfl) (kJnp rfl) (kBox rfl) (kYew rfl) (kHly rfl) (kPwr rfl) (kSys rfl) (kWr rfl) (kDrawn rfl)
      (kDeliv rfl) _ s hs
  | movs =>
    exact execMovs_keeps (kErr rfl) (kQue rfl) (kHdg rfl) (kPut rfl rfl) (kCop rfl) (kMap rfl) (kTop rfl) (kMcs rfl)
      (kChan rfl) (kEcc rfl) (kJnp rfl) (kBox rfl) (kYew rfl) (kHly rfl) (kPwr rfl) (kSys rfl) (kWr rfl) (kDrawn rfl)
      (kDeliv rfl) _ s hs
  | twolevelMicroword =>
    exact execTwolevelMicroword_keeps (kErr rfl) (kQue rfl) (kHdg rfl) (kPut rfl rfl) (kCop rfl) (kMap rfl) (kTop rfl)
      (kMcs rfl) (kChan rfl) (kEcc rfl) (kJnp rfl) (kBox rfl) (kYew rfl) (kHly rfl) (kPwr rfl) (kSys rfl) (kWr rfl)
      (kDrawn rfl) (kDeliv rfl) _ _ s hs
  | segmentWatchdogExpiry =>
    exact execSegmentWatchdogExpiry_keeps (kErr rfl) (kQue rfl) (kHdg rfl) (kPut rfl rfl) (kCop rfl) (kMap rfl)
      (kTop rfl) (kMcs rfl) (kChan rfl) (kEcc rfl) (kJnp rfl) (kBox rfl) (kYew rfl) (kHly rfl) (kPwr rfl) (kSys rfl)
      (kWr rfl) (kDrawn rfl) (kDeliv rfl) _ s hs
  | mcsFaultClear =>
    exact execMcsFaultClear_keeps (kErr rfl) (kTop rfl) (kMcs rfl) (kChan rfl) (kEcc rfl) (kBox rfl) (kPwr rfl)
      (kWr rfl) (kResp rfl) _ _ _ s hs
  | mcsLoadEn =>
    exact execMcsLoadEn_keeps (kErr rfl) (kTop rfl) (kMcs rfl) (kChan rfl) (kEcc rfl) (kBox rfl) (kPwr rfl) (kWr rfl)
      (kResp rfl) _ _ s hs
  | csWindowWrite => exact execCsWindowWrite_keeps (kErr rfl) (kMcs rfl) (kPwr rfl) (kWr rfl) (kResp rfl) _ _ _ s hs
  | nanoAddrWrite => exact execNanoAddrWrite_keeps (kPwr rfl) (kWr rfl) (kResp rfl) _ _ s hs
  | nanoCommit => exact execNanoCommit_keeps (kMcs rfl) (kPwr rfl) (kWr rfl) (kResp rfl) _ _ s hs
  | espalierLoadDone =>
    exact execEspalierLoadDone_keeps (kErr rfl) (kQue rfl) (kHdg rfl) (kPut rfl rfl) (kCop rfl) (kMap rfl) (kTop rfl)
      (kMcs rfl) (kChan rfl) (kEcc rfl) (kJnp rfl) (kBox rfl) (kYew rfl) (kHly rfl) (kPwr rfl) (kSys rfl) (kWr rfl) s
      hs
  | cherrDllUnlock =>
    exact execCherrDllUnlock_keeps (kErr rfl) (kQue rfl) (kHdg rfl) (kPut rfl rfl) (kCop rfl) (kMap rfl) (kTop rfl)
      (kMcs rfl) (kChan rfl) (kEcc rfl) (kJnp rfl) (kBox rfl) (kYew rfl) (kHly rfl) (kPwr rfl) (kSys rfl) (kWr rfl)
      (kDrawn rfl) (kDeliv rfl) _ s hs
  | pwrLoss =>
    exact execPwrLoss_keeps (kErr rfl) (kQue rfl) (kHdg rfl) (kPut rfl rfl) (kCop rfl) (kMap rfl) (kTop rfl)
      (kMcs rfl) (kChan rfl) (kEcc rfl) (kJnp rfl) (kBox rfl) (kYew rfl) (kHly rfl) (kPwr rfl) (kSys rfl) (kWr rfl)
      (kDrawn rfl) (kDeliv rfl) _ s hs
  | phyRelockDone =>
    exact execPhyRelockDone_keeps (kErr rfl) (kQue rfl) (kHdg rfl) (kPut rfl rfl) (kCop rfl) (kMap rfl) (kTop rfl)
      (kMcs rfl) (kChan rfl) (kEcc rfl) (kJnp rfl) (kBox rfl) (kYew rfl) (kHly rfl) (kPwr rfl) (kSys rfl) (kWr rfl)
      (kDrawn rfl) (kDeliv rfl) _ s hs
  | phyZqCalibration => exact execPhyZqCalibration_keeps (kChan rfl) (kBox rfl) (kDrawn rfl) _ s hs
  | trainSliceStart =>
    exact execTrainSliceStart_keeps (kErr rfl) (kQue rfl) (kTop rfl) (kMcs rfl) (kChan rfl) (kEcc rfl) (kBox rfl)
      (kHly rfl) (kSys rfl) (kWr rfl) _ s hs
  | trainSliceEnd =>
    exact execTrainSliceEnd_keeps (kErr rfl) (kQue rfl) (kHdg rfl) (kPut rfl rfl) (kCop rfl) (kMap rfl) (kTop rfl)
      (kMcs rfl) (kChan rfl) (kEcc rfl) (kJnp rfl) (kBox rfl) (kYew rfl) (kHly rfl) (kPwr rfl) (kSys rfl) (kWr rfl)
      (kDrawn rfl) (kDeliv rfl) _ _ s hs
  | zqcalSlice =>
    exact execZqcalSlice_keeps (kErr rfl) (kQue rfl) (kHdg rfl) (kPut rfl rfl) (kCop rfl) (kMap rfl) (kTop rfl)
      (kMcs rfl) (kChan rfl) (kEcc rfl) (kJnp rfl) (kBox rfl) (kYew rfl) (kHly rfl) (kPwr rfl) (kSys rfl) (kWr rfl)
      (kDrawn rfl) (kDeliv rfl) _ _ s hs
  | selftestChannelDone =>
    exact execSelftestChannelDone_keeps (kErr rfl) (kQue rfl) (kHdg rfl) (kPut rfl rfl) (kCop rfl) (kMap rfl)
      (kTop rfl) (kMcs rfl) (kChan rfl) (kEcc rfl) (kJnp rfl) (kBox rfl) (kYew rfl) (kHly rfl) (kPwr rfl) (kSys rfl)
      (kWr rfl) (kDrawn rfl) (kDeliv rfl) _ _ s hs
  | channelReset =>
    exact execChannelReset_keeps (kErr rfl) (kQue rfl) (kHdg rfl) (kPut rfl rfl) (kCop rfl) (kMap rfl) (kTop rfl)
      (kMcs rfl) (kChan rfl) (kEcc rfl) (kJnp rfl) (kBox rfl) (kYew rfl) (kHly rfl) (kPwr rfl) (kSys rfl) (kWr rfl)
      (kResp rfl) (kDrawn rfl) (kDeliv rfl) _ _ s hs
  | channelResetResume =>
    exact execChannelResetResume_keeps (kErr rfl) (kQue rfl) (kHdg rfl) (kPut rfl rfl) (kCop rfl) (kMap rfl)
      (kTop rfl) (kMcs rfl) (kChan rfl) (kEcc rfl) (kJnp rfl) (kBox rfl) (kYew rfl) (kHly rfl) (kPwr rfl) (kSys rfl)
      (kWr rfl) (kDrawn rfl) (kDeliv rfl) _ s hs
  | hardDecodeDone =>
    exact execHardDecodeDone_keeps (kErr rfl) (kQue rfl) (kHdg rfl) (kPut rfl rfl) (kCop rfl) (kMap rfl) (kTop rfl)
      (kMcs rfl) (kChan rfl) (kEcc rfl) (kJnp rfl) (kBox rfl) (kYew rfl) (kHly rfl) (kSys rfl) (kWr rfl) (kDrawn rfl)
      (kDeliv rfl) _ _ s hs
  | softSampleReserve => exact execSoftSampleReserve_keeps (kTop rfl) (kEcc rfl) (kWr rfl) _ s hs
  | softDecodeDone =>
    exact execSoftDecodeDone_keeps (kErr rfl) (kQue rfl) (kHdg rfl) (kPut rfl rfl) (kCop rfl) (kMap rfl) (kTop rfl)
      (kMcs rfl) (kChan rfl) (kEcc rfl) (kJnp rfl) (kBox rfl) (kYew rfl) (kHly rfl) (kSys rfl) (kWr rfl) (kDrawn rfl)
      (kDeliv rfl) _ _ s hs
  | xorBuild =>
    exact execXorBuild_keeps (kErr rfl) (kQue rfl) (kHdg rfl) (kPut rfl rfl) (kCop rfl) (kMap rfl) (kTop rfl)
      (kMcs rfl) (kChan rfl) (kEcc rfl) (kJnp rfl) (kBox rfl) (kYew rfl) (kHly rfl) (kSys rfl) (kWr rfl) (kDrawn rfl)
      (kDeliv rfl) _ _ s hs
  | buildDone =>
    exact execBuildDone_keeps (kErr rfl) (kQue rfl) (kHdg rfl) (kPut rfl rfl) (kCop rfl) (kMap rfl) (kTop rfl)
      (kMcs rfl) (kChan rfl) (kEcc rfl) (kJnp rfl) (kBox rfl) (kYew rfl) (kHly rfl) (kSys rfl) (kWr rfl) (kDrawn rfl)
      (kDeliv rfl) _ _ s hs
  | rebuildAnswer =>
    exact execRebuildAnswer_keeps (kErr rfl) (kQue rfl) (kHdg rfl) (kPut rfl rfl) (kCop rfl) (kMap rfl) (kTop rfl)
      (kMcs rfl) (kChan rfl) (kEcc rfl) (kJnp rfl) (kBox rfl) (kYew rfl) (kHly rfl) (kSys rfl) (kWr rfl) (kDrawn rfl)
      (kDeliv rfl) _ _ _ s hs
  | rebuildAnswerTimeout =>
    exact execRebuildAnswerTimeout_keeps (kErr rfl) (kQue rfl) (kHdg rfl) (kPut rfl rfl) (kCop rfl) (kMap rfl)
      (kTop rfl) (kMcs rfl) (kChan rfl) (kEcc rfl) (kJnp rfl) (kBox rfl) (kYew rfl) (kHly rfl) (kSys rfl) (kWr rfl)
      (kDrawn rfl) (kDeliv rfl) _ _ s hs
  | xorMemberArrive =>
    exact execXorMemberArrive_keeps (kErr rfl) (kQue rfl) (kHdg rfl) (kPut rfl rfl) (kCop rfl) (kMap rfl) (kTop rfl)
      (kMcs rfl) (kChan rfl) (kEcc rfl) (kJnp rfl) (kBox rfl) (kYew rfl) (kHly rfl) (kSys rfl) (kWr rfl) (kDrawn rfl)
      (kDeliv rfl) _ _ _ s hs
  | calibDone =>
    exact execCalibDone_keeps (kErr rfl) (kQue rfl) (kHdg rfl) (kPut rfl rfl) (kTop rfl) (kMcs rfl) (kChan rfl)
      (kEcc rfl) (kJnp rfl) (kBox rfl) (kHly rfl) (kSys rfl) (kWr rfl) (kDrawn rfl) _ s hs
  | patrolDone =>
    exact execPatrolDone_keeps (kErr rfl) (kQue rfl) (kTop rfl) (kMcs rfl) (kChan rfl) (kEcc rfl) (kJnp rfl)
      (kBox rfl) (kHly rfl) (kSys rfl) (kWr rfl) _ s hs
  | jnpCheckpointPeriod =>
    exact execJnpCheckpointPeriod_keeps (kErr rfl) (kHdg rfl) (kPut rfl rfl) (kJnp rfl) (kYew rfl) (kWr rfl)
      (kDrawn rfl) s hs
  | jnpCkptNow =>
    exact execJnpCkptNow_keeps (kErr rfl) (kHdg rfl) (kPut rfl rfl) (kJnp rfl) (kYew rfl) (kPwr rfl) (kWr rfl)
      (kResp rfl) (kDrawn rfl) _ _ s hs
  | jnpGrpClrHealth =>
    exact execJnpGrpClrHealth_keeps (kErr rfl) (kHdg rfl) (kPut rfl rfl) (kJnp rfl) (kPwr rfl) (kWr rfl) (kResp rfl)
      (kDrawn rfl) _ _ s hs
  | jnpGrpClrWear =>
    exact execJnpGrpClrWear_keeps (kErr rfl) (kHdg rfl) (kPut rfl rfl) (kJnp rfl) (kPwr rfl) (kWr rfl) (kResp rfl)
      (kDrawn rfl) _ _ s hs
  | jnpGrpClrTrack =>
    exact execJnpGrpClrTrack_keeps (kErr rfl) (kHdg rfl) (kPut rfl rfl) (kJnp rfl) (kPwr rfl) (kWr rfl) (kResp rfl)
      (kDrawn rfl) _ _ s hs
  | jnpTableEnable =>
    exact execJnpTableEnable_keeps (kErr rfl) (kHdg rfl) (kPut rfl rfl) (kJnp rfl) (kPwr rfl) (kWr rfl) (kResp rfl) _
      _ s hs
  | epochTick => exact execEpochTick_keeps (kWr rfl) s hs
  | regionChangeRequest =>
    exact execRegionChangeRequest_keeps (kHdg rfl) (kTop rfl) (kPwr rfl) (kWr rfl) (kResp rfl) _ _ _ s hs
  | regionReinitDone =>
    exact execRegionReinitDone_keeps (kErr rfl) (kHdg rfl) (kPut rfl rfl) (kClear rfl rfl) (kCop rfl) (kMap rfl)
      (kTop rfl) (kWr rfl) _ s hs
  | poolWithdrawDone =>
    exact execPoolWithdrawDone_keeps (kErr rfl) (kHdg rfl) (kPut rfl rfl) (kCop rfl) (kWr rfl) (kDrawn rfl) _ s hs
  | gorseLineRead => exact execGorseLineRead_keeps (kErr rfl) (kHdg rfl) (kTop rfl) (kWr rfl) (kDrawn rfl) s hs
  | gorseRewrite => exact execGorseRewrite_keeps (kHdg rfl) (kPut rfl rfl) (kWr rfl) s hs
  | scrubStoreDone =>
    exact execScrubStoreDone_keeps (kErr rfl) (kQue rfl) (kHdg rfl) (kPut rfl rfl) (kTop rfl) (kHly rfl) (kSys rfl)
      (kWr rfl) (kDrawn rfl) _ s hs
  | selftestStoreDone =>
    exact execSelftestStoreDone_keeps (kErr rfl) (kQue rfl) (kHdg rfl) (kClear rfl rfl) (kTop rfl) (kHly rfl)
      (kSys rfl) (kWr rfl) _ _ s hs
  | bufferGrant =>
    exact execBufferGrant_keeps (kErr rfl) (kQue rfl) (kHdg rfl) (kPut rfl rfl) (kForget rfl rfl rfl) (kCop rfl)
      (kMap rfl) (kTop rfl) (kMcs rfl) (kChan rfl) (kEcc rfl) (kJnp rfl) (kBox rfl) (kYew rfl) (kHly rfl) (kSys rfl)
      (kWr rfl) (kDrawn rfl) (kDeliv rfl) s hs
  | bufferFree => exact execBufferFree_keeps (kErr rfl) (kHdg rfl) (kPut rfl rfl) (kCop rfl) (kWr rfl) _ _ s hs
  | poolPop => exact execPoolPop_keeps (kErr rfl) (kCop rfl) (kWr rfl) (kDrawn rfl) s hs
  | poolRebuild => exact execPoolRebuild_keeps (kCop rfl) (kPwr rfl) (kWr rfl) (kResp rfl) _ _ s hs
  | poolRebuildDone => exact execPoolRebuildDone_keeps (kErr rfl) (kHdg rfl) (kPut rfl rfl) (kCop rfl) (kWr rfl) s hs
  | reserveWrite => exact execReserveWrite_keeps (kCop rfl) (kPwr rfl) (kWr rfl) (kResp rfl) _ _ _ s hs
  | dmaShadowLoad => exact execDmaShadowLoad_keeps (kQue rfl) (kDma rfl) (kWr rfl) _ s hs
  | dmaTransferStart => exact execDmaTransferStart_keeps (kDma rfl) (kWr rfl) _ s hs
  | paceLevelReport => exact execPaceLevelReport_keeps (kDma rfl) _ _ _ s hs
  | dmaTransferEnd =>
    exact execDmaTransferEnd_keeps (kErr rfl) (kQue rfl) (kHdg rfl) (kPut rfl rfl) (kCop rfl) (kDma rfl) (kBox rfl)
      (kSys rfl) (kWr rfl) (kDrawn rfl) (kDram rfl) (kDeliv rfl) _ _ s hs
  | dmaRecordWrite =>
    exact execDmaRecordWrite_keeps (kErr rfl) (kHdg rfl) (kPut rfl rfl) (kDma rfl) (kWr rfl) (kDram rfl) _ s hs
  | dcqDoorbell => exact execDcqDoorbell_keeps (kErr rfl) (kPwr rfl) (kWr rfl) (kResp rfl) _ _ _ s hs
  | dcqEnable => exact execDcqEnable_keeps (kDma rfl) (kPwr rfl) (kWr rfl) (kResp rfl) _ _ _ s hs
  | dcqDisable => exact execDcqDisable_keeps (kDma rfl) (kPwr rfl) (kWr rfl) (kResp rfl) _ _ _ s hs
  | budgetWrite => exact execBudgetWrite_keeps (kTop rfl) (kPwr rfl) (kWr rfl) (kResp rfl) _ _ s hs
  | ceilWrite => exact execCeilWrite_keeps (kPwr rfl) (kResp rfl) (kCeil rfl rfl rfl) _ _ s hs
  | forecastWord => exact execForecastWord_keeps (kTop rfl) (kBox rfl) (kWr rfl) _ _ s hs
  | forecastWindowBegin => exact execForecastWindowBegin_keeps (kBox rfl) (kWr rfl) _ s hs
  | forecastWindowEnd => exact execForecastWindowEnd_keeps (kTop rfl) (kBox rfl) (kWr rfl) _ s hs
  | diodeSampleTimer => exact execDiodeSampleTimer_keeps (kBox rfl) s hs
  | diodeConversionDone =>
    exact execDiodeConversionDone_keeps (kErr rfl) (kTop rfl) (kChan rfl) (kBox rfl) (kPwr rfl) (kWr rfl) (kDrawn rfl)
      _ s hs
  | threshWrite => exact execThreshWrite_keeps (kPwr rfl) (kWr rfl) (kResp rfl) _ _ s hs
  | loadWindowClose => exact execLoadWindowClose_keeps (kErr rfl) (kTop rfl) (kChan rfl) (kWr rfl) s hs
  | idleEntry => exact execIdleEntry_keeps (kHdg rfl) (kPwr rfl) s hs
  | idleWake =>
    exact execIdleWake_keeps (kErr rfl) (kQue rfl) (kHdg rfl) (kPut rfl rfl) (kForget rfl rfl rfl) (kCop rfl)
      (kMap rfl) (kTop rfl) (kMcs rfl) (kChan rfl) (kEcc rfl) (kJnp rfl) (kDma rfl) (kBox rfl) (kYew rfl) (kHly rfl)
      (kPwr rfl) (kSys rfl) (kWr rfl) (kResp rfl) (kDrawn rfl) (kDram rfl) (kDeliv rfl) (kFlds rfl rfl)
      (kCeil rfl rfl rfl) (kDbgL rfl rfl) s hs
  | powerEntryQuiescent =>
    exact execPowerEntryQuiescent_keeps (kErr rfl) (kQue rfl) (kHdg rfl) (kPut rfl rfl) (kCop rfl) (kMap rfl)
      (kTop rfl) (kMcs rfl) (kChan rfl) (kEcc rfl) (kJnp rfl) (kBox rfl) (kYew rfl) (kHly rfl) (kSys rfl) (kWr rfl)
      (kDrawn rfl) (kDeliv rfl) s hs
  | powerEntryLimitExpiry => exact execPowerEntryLimitExpiry_keeps (kQue rfl) (kPwr rfl) (kSys rfl) (kWr rfl) s hs
  | pwrWakeWrite => exact execPwrWakeWrite_keeps (kPwr rfl) (kResp rfl) _ s hs
  | napWakeDone =>
    exact execNapWakeDone_keeps (kErr rfl) (kQue rfl) (kHdg rfl) (kPut rfl rfl) (kCop rfl) (kMap rfl) (kTop rfl)
      (kMcs rfl) (kChan rfl) (kEcc rfl) (kJnp rfl) (kBox rfl) (kYew rfl) (kHly rfl) (kPwr rfl) (kSys rfl) (kWr rfl)
      (kDrawn rfl) (kDeliv rfl) s hs
  | coreSupplyGood => exact execCoreSupplyGood_keeps (kPwr rfl) s hs
  | cclkLocked =>
    exact execCclkLocked_keeps (kErr rfl) (kQue rfl) (kHdg rfl) (kMap rfl) (kTop rfl) (kMcs rfl) (kChan rfl)
      (kBox rfl) (kHly rfl) (kPwr rfl) (kSys rfl) (kWr rfl) s hs
  | economySegmentsEnded => exact execEconomySegmentsEnded_keeps (kPwr rfl) s hs
  | voltageAck => exact execVoltageAck_keeps (kPwr rfl) s hs
  | cclkRelockDone =>
    exact execCclkRelockDone_keeps (kErr rfl) (kQue rfl) (kTop rfl) (kMcs rfl) (kChan rfl) (kEcc rfl) (kBox rfl)
      (kPwr rfl) (kSys rfl) (kWr rfl) s hs
  | pwrDomEnable =>
    exact execPwrDomEnable_keeps (kErr rfl) (kQue rfl) (kHdg rfl) (kPut rfl rfl) (kCop rfl) (kMap rfl) (kTop rfl)
      (kMcs rfl) (kChan rfl) (kEcc rfl) (kJnp rfl) (kBox rfl) (kYew rfl) (kHly rfl) (kPwr rfl) (kSys rfl) (kWr rfl)
      (kResp rfl) (kDrawn rfl) (kDeliv rfl) _ _ s hs
  | pwrDomDisable =>
    exact execPwrDomDisable_keeps (kErr rfl) (kQue rfl) (kHdg rfl) (kPut rfl rfl) (kCop rfl) (kMap rfl) (kTop rfl)
      (kMcs rfl) (kChan rfl) (kEcc rfl) (kJnp rfl) (kBox rfl) (kYew rfl) (kHly rfl) (kPwr rfl) (kSys rfl) (kWr rfl)
      (kResp rfl) (kDrawn rfl) (kDeliv rfl) _ _ s hs
  | pgTimeout => exact execPgTimeout_keeps (kErr rfl) (kQue rfl) (kHly rfl) (kPwr rfl) (kSys rfl) (kWr rfl) _ s hs
  | pwrgdRise => exact execPwrgdRise_keeps (kTop rfl) (kJnp rfl) (kSys rfl) (kWr rfl) _ s hs
  | holdupWarnAssert =>
    exact execHoldupWarnAssert_keeps (kErr rfl) (kQue rfl) (kHdg rfl) (kPut rfl rfl) (kCop rfl) (kMap rfl) (kTop rfl)
      (kMcs rfl) (kChan rfl) (kEcc rfl) (kJnp rfl) (kBox rfl) (kYew rfl) (kHly rfl) (kPwr rfl) (kSys rfl) (kWr rfl)
      (kDrawn rfl) (kDeliv rfl) s hs
  | holdupDrainDone => exact execHoldupDrainDone_keeps (kPwr rfl) s hs
  | holdupBandPassDone =>
    exact execHoldupBandPassDone_keeps (kErr rfl) (kQue rfl) (kHdg rfl) (kPut rfl rfl) (kCop rfl) (kMap rfl)
      (kTop rfl) (kMcs rfl) (kChan rfl) (kEcc rfl) (kJnp rfl) (kBox rfl) (kYew rfl) (kHly rfl) (kPwr rfl) (kSys rfl)
      (kWr rfl) (kDrawn rfl) (kDeliv rfl) _ s hs
  | holdupRecordsDone =>
    exact execHoldupRecordsDone_keeps (kErr rfl) (kQue rfl) (kHdg rfl) (kPut rfl rfl) (kCop rfl) (kMap rfl) (kTop rfl)
      (kMcs rfl) (kChan rfl) (kEcc rfl) (kJnp rfl) (kBox rfl) (kYew rfl) (kHly rfl) (kPwr rfl) (kSys rfl) (kWr rfl)
      (kDrawn rfl) (kDeliv rfl) s hs
  | holdupWarnDeassert =>
    exact execHoldupWarnDeassert_keeps (kErr rfl) (kQue rfl) (kHdg rfl) (kPut rfl rfl) (kCop rfl) (kMap rfl)
      (kTop rfl) (kMcs rfl) (kChan rfl) (kEcc rfl) (kJnp rfl) (kBox rfl) (kYew rfl) (kHly rfl) (kPwr rfl) (kSys rfl)
      (kWr rfl) (kDrawn rfl) (kDeliv rfl) s hs
  | coldReset =>
    exact execColdReset_keeps (kQue rfl)
      (kWipe rfl rfl rfl rfl rfl rfl rfl rfl rfl rfl rfl rfl rfl rfl rfl rfl rfl rfl rfl rfl rfl rfl) (kMap rfl)
      (kTop rfl) (kJnp rfl) (kYew rfl) (kPwr rfl) (kSys rfl) (kWr rfl) _ s hs
  | warmRst =>
    exact execWarmRst_keeps (kErr rfl) (kQue rfl) (kHdg rfl) (kPut rfl rfl) (kForget rfl rfl rfl) (kCop rfl)
      (kMap rfl) (kTop rfl) (kMcs rfl) (kChan rfl) (kEcc rfl) (kJnp rfl) (kDma rfl) (kBox rfl) (kYew rfl) (kHly rfl)
      (kPwr rfl) (kSys rfl) (kWr rfl) (kResp rfl) (kDrawn rfl) (kDram rfl) (kDeliv rfl) _ s hs
  | warmReq =>
    exact execWarmReq_keeps (kErr rfl) (kQue rfl) (kHdg rfl) (kPut rfl rfl) (kForget rfl rfl rfl) (kCop rfl)
      (kMap rfl) (kTop rfl) (kMcs rfl) (kChan rfl) (kEcc rfl) (kJnp rfl) (kDma rfl) (kBox rfl) (kYew rfl) (kHly rfl)
      (kPwr rfl) (kSys rfl) (kWr rfl) (kResp rfl) (kDrawn rfl) (kDram rfl) (kDeliv rfl) s hs
  | warmResetBegin =>
    exact execWarmResetBegin_keeps (kErr rfl) (kQue rfl) (kHdg rfl) (kPut rfl rfl) (kForget rfl rfl rfl) (kCop rfl)
      (kMap rfl) (kTop rfl) (kMcs rfl) (kChan rfl) (kEcc rfl) (kJnp rfl) (kDma rfl) (kBox rfl) (kYew rfl) (kHly rfl)
      (kPwr rfl) (kSys rfl) (kWr rfl) (kDrawn rfl) (kDram rfl) (kDeliv rfl) s hs
  | warmResetDrainDone =>
    exact execWarmResetDrainDone_keeps (kErr rfl) (kQue rfl) (kHdg rfl) (kPut rfl rfl) (kCop rfl) (kMap rfl)
      (kTop rfl) (kMcs rfl) (kChan rfl) (kEcc rfl) (kJnp rfl) (kDma rfl) (kBox rfl) (kYew rfl) (kHly rfl) (kPwr rfl)
      (kSys rfl) (kWr rfl) (kDrawn rfl) (kDeliv rfl) s hs
  | discoveryStart =>
    exact execDiscoveryStart_keeps (kErr rfl) (kTop rfl) (kMcs rfl) (kChan rfl) (kEcc rfl) (kBox rfl) (kSys rfl)
      (kWr rfl) _ _ s hs
  | discoveryEnd =>
    exact execDiscoveryEnd_keeps (kErr rfl) (kQue rfl) (kHdg rfl) (kPut rfl rfl) (kCop rfl) (kMap rfl) (kTop rfl)
      (kMcs rfl) (kChan rfl) (kEcc rfl) (kJnp rfl) (kBox rfl) (kYew rfl) (kHly rfl) (kPwr rfl) (kSys rfl) (kWr rfl)
      (kDrawn rfl) (kDeliv rfl) _ _ s hs
  | tornScanDone => exact execTornScanDone_keeps (kErr rfl) (kWr rfl) _ s hs
  | portLinkDown => exact execPortLinkDown_keeps (kQue rfl) _ s hs
  | portLinkUp =>
    exact execPortLinkUp_keeps (kErr rfl) (kQue rfl) (kHdg rfl) (kPut rfl rfl)
      (kLost rfl rfl rfl rfl rfl rfl rfl rfl rfl rfl) (kCop rfl) (kMap rfl) (kTop rfl) (kMcs rfl) (kChan rfl)
      (kEcc rfl) (kJnp rfl) (kBox rfl) (kYew rfl) (kHly rfl) (kPwr rfl) (kSys rfl) (kWr rfl) (kDrawn rfl) (kDram rfl)
      (kDeliv rfl) _ s hs
  | yewKeyWrite => exact execYewKeyWrite_keeps (kYew rfl) (kPwr rfl) (kWr rfl) (kResp rfl) _ _ s hs
  | yewCmdProgram => exact execYewCmdProgram_keeps (kYew rfl) (kPwr rfl) (kWr rfl) (kResp rfl) _ _ s hs
  | yewCmdErase => exact execYewCmdErase_keeps (kYew rfl) (kPwr rfl) (kWr rfl) (kResp rfl) _ _ s hs
  | yewCmdSuspend => exact execYewCmdSuspend_keeps (kYew rfl) (kPwr rfl) (kWr rfl) (kResp rfl) _ _ s hs
  | yewCmdResume => exact execYewCmdResume_keeps (kYew rfl) (kPwr rfl) (kWr rfl) (kResp rfl) _ _ s hs
  | yewAddrWrite => exact execYewAddrWrite_keeps (kYew rfl) (kPwr rfl) (kWr rfl) (kResp rfl) _ _ s hs
  | yewDataLoWrite => exact execYewDataLoWrite_keeps (kYew rfl) (kPwr rfl) (kWr rfl) (kResp rfl) _ _ s hs
  | yewDataHiWrite => exact execYewDataHiWrite_keeps (kYew rfl) (kPwr rfl) (kWr rfl) (kResp rfl) _ _ s hs
  | yewSequenceTimeout => exact execYewSequenceTimeout_keeps (kYew rfl) (kWr rfl) s hs
  | yewRdataRead => exact execYewRdataRead_keeps (kErr rfl) (kPwr rfl) (kWr rfl) (kResp rfl) _ s hs
  | yewSuspendEffect => exact execYewSuspendEffect_keeps (kErr rfl) (kYew rfl) (kWr rfl) _ s hs
  | yewProgramPulseDone =>
    exact execYewProgramPulseDone_keeps (kErr rfl) (kQue rfl) (kHdg rfl) (kPut rfl rfl) (kCop rfl) (kMap rfl)
      (kTop rfl) (kMcs rfl) (kChan rfl) (kEcc rfl) (kJnp rfl) (kBox rfl) (kYew rfl) (kHly rfl) (kSys rfl) (kWr rfl)
      (kDrawn rfl) (kDeliv rfl) _ _ s hs
  | yewErasePulseDone =>
    exact execYewErasePulseDone_keeps (kErr rfl) (kQue rfl) (kHdg rfl) (kPut rfl rfl) (kCop rfl) (kMap rfl) (kTop rfl)
      (kMcs rfl) (kChan rfl) (kEcc rfl) (kJnp rfl) (kBox rfl) (kYew rfl) (kHly rfl) (kSys rfl) (kWr rfl) (kDrawn rfl)
      (kDeliv rfl) _ _ s hs
  | hlyWdogKick => exact execHlyWdogKick_keeps (kHly rfl) (kPwr rfl) (kWr rfl) (kResp rfl) s hs
  | hlyWdogExpiry =>
    exact execHlyWdogExpiry_keeps (kErr rfl) (kQue rfl) (kHdg rfl) (kTop rfl) (kMcs rfl) (kChan rfl) (kEcc rfl)
      (kJnp rfl) (kBox rfl) (kYew rfl) (kHly rfl) (kSys rfl) (kWr rfl) s hs
  | hlyRestart =>
    exact execHlyRestart_keeps (kErr rfl) (kQue rfl) (kHly rfl) (kPwr rfl) (kSys rfl) (kWr rfl) (kResp rfl) _ s hs
  | hlyQuiesced =>
    exact execHlyQuiesced_keeps (kErr rfl) (kQue rfl) (kTop rfl) (kMcs rfl) (kChan rfl) (kEcc rfl) (kBox rfl)
      (kYew rfl) (kHly rfl) (kPwr rfl) (kSys rfl) (kWr rfl) (kResp rfl) s hs
  | hlyReady =>
    exact execHlyReady_keeps (kErr rfl) (kQue rfl) (kTop rfl) (kMcs rfl) (kChan rfl) (kEcc rfl) (kBox rfl) (kYew rfl)
      (kHly rfl) (kPwr rfl) (kSys rfl) (kWr rfl) (kResp rfl) s hs
  | activateDrainTimeout =>
    exact execActivateDrainTimeout_keeps (kErr rfl) (kQue rfl) (kTop rfl) (kMcs rfl) (kChan rfl) (kEcc rfl) (kBox rfl)
      (kHly rfl) (kSys rfl) (kWr rfl) s hs
  | activateStartTimeout => exact execActivateStartTimeout_keeps (kErr rfl) (kYew rfl) (kHly rfl) (kWr rfl) s hs
  | errorRecordAccept => exact execErrorRecordAccept_keeps (kErr rfl) (kWr rfl) s hs
  | errClear => exact execErrClear_keeps (kPwr rfl) (kWr rfl) (kResp rfl) _ _ s hs
  | errHeadWrite => exact execErrHeadWrite_keeps (kPwr rfl) (kWr rfl) (kResp rfl) _ _ s hs
  | glbTimeLoRead => exact execGlbTimeLoRead_keeps (kPwr rfl) (kWr rfl) (kResp rfl) _ s hs
  | dbgLock => exact execDbgLock_keeps (kPwr rfl) (kResp rfl) (kDbgL rfl rfl) _ _ s hs
  | dbgInjArm => exact execDbgInjArm_keeps (kPwr rfl) (kWr rfl) (kResp rfl) _ _ s hs
  | dbgForceWrite => exact execDbgForceWrite_keeps (kPwr rfl) (kWr rfl) (kResp rfl) _ _ s hs
  | lossOfPower =>
    exact execLossOfPower_keeps
      (kWipe rfl rfl rfl rfl rfl rfl rfl rfl rfl rfl rfl rfl rfl rfl rfl rfl rfl rfl rfl rfl rfl rfl) (kPwr rfl) s hs
  | rcRegisterRead => exact execRcRegisterRead_keeps (kErr rfl) (kPwr rfl) (kWr rfl) (kResp rfl) _ _ _ s hs
  | portBufferWrite port _ _ =>
    exact execPortBufferWrite_keeps (kErr rfl) (kHdg rfl) (kPut rfl rfl) (kCop rfl) (kWr rfl) (kResp rfl) port _ _ s hs
  | portStoreRead port _ _ => exact execPortStoreRead_keeps (kErr rfl) (kWr rfl) (kResp rfl) (kDrawn rfl) port _ _ s hs
  | dramReadResponse =>
    exact execDramReadResponse_keeps (kErr rfl) (kQue rfl) (kSys rfl) (kWr rfl) (kDrawn rfl) _ _ s hs
  | yewSliceExpiry => exact execYewSliceExpiry_keeps (kYew rfl) _ s hs
  | checkPassDone =>
    exact execCheckPassDone_keeps (kErr rfl) (kQue rfl) (kTop rfl) (kMcs rfl) (kChan rfl) (kEcc rfl) (kBox rfl)
      (kHly rfl) (kSys rfl) (kWr rfl) s hs
  | stagingBufferFilled =>
    exact execStagingBufferFilled_keeps (kErr rfl) (kQue rfl) (kHdg rfl) (kPut rfl rfl) (kCop rfl) (kMap rfl)
      (kTop rfl) (kMcs rfl) (kChan rfl) (kEcc rfl) (kBox rfl) (kHly rfl) (kSys rfl) (kWr rfl) (kDrawn rfl) _ s hs

/-! The obligations. -/

/-- Settles O3: every update of the state keeps the queue, and each update that a command is made of stays within its
reach. -/
theorem commandsKeepTheQueueAndWhatTheyDoNotReach : Obligations.CommandsKeepTheQueueAndWhatTheyDoNotReach :=
  ⟨fun c s _ h => (exec_keeps_pending c s).next h, fun c s _ p h hp => (exec_keptBut_reach c s).next h p hp⟩

/-- Settles O2: every arm of exec is a next state, and the laws of the updates say what it keeps. -/
theorem everyCommandAnswers : Obligations.EveryCommandAnswers := by
  refine ⟨fun c s => ?_, step_isNext⟩
  obtain ⟨t, ht⟩ := exec_isNext c s
  exact ⟨t, ht, (exec_keeps_pending c s).next ht, (exec_keptBut_reach c s).next ht,
    fun hs => (exec_keeps_canonical c s hs).next ht, fun hs => (exec_keeps_fifosWithin c s hs).next ht⟩

end Sys2Proof.Machine
end

section
/-!
SUPPORT. Register accesses that are served: what a bad access, a plain write and a read of a register do (R13, R15, R564),
and the word that a read answers.
-/
namespace Sys2Proof.Machine

/-! Served accesses. -/

theorem exec_registerWrite_served {s : State} {m : Master} (h : Served s m) (a w : Nat) (v : W32) :
    exec (.registerWrite m a w v) s = .next (s.fresh.regWrite m a w v.toNat) := by
  show execRegisterWrite m a w v s = _
  unfold execRegisterWrite
  split
  · rw [accessWake_active h.1]
  · rw [access_served h]

theorem exec_rcRegisterRead_served {s : State} {m : Master} (h : Served s m) (a w : Nat) :
    exec (.rcRegisterRead m a w) s = .next (s.fresh.regRead m false a w) :=
  congrArg Host.Outcome.next (access_served h a none _ w)

@[simp] theorem State.fresh_view (s : State) (held : Bool) (F : Fld) : s.fresh.view held F = s.view held F := rfl

theorem SameBut.fresh {L : List Part} (h : L.contains .resp = true) (s : State) : SameBut L s s.fresh :=
  keptButResp h s .none (.refl L s)

/-! Which access is bad, and what a good one comes to. -/

theorem regBad_eq_true {a w : Nat} : regBad a w = true ↔ a % 4 ≠ 0 ∨ w ≠ 4 ∨ regMapped a = false := by
  simp [regBad, or_assoc]

theorem regBad_eq_false {a : Nat} (ha : a % 4 = 0) (hm : regMapped a = true) : regBad a 4 = false := by
  simp [regBad, ha, hm]

theorem State.regWrite_bad {a w : Nat} (h : regBad a w = true) (s : State) (m : Master) (v : Nat) :
    s.regWrite m a w v = s.badAccess a := if_pos h

theorem State.regRead_bad {a w : Nat} (h : regBad a w = true) (s : State) (m : Master) (held : Bool) :
    s.regRead m held a w = s.badAccess a := if_pos h

theorem State.regWrite_block {a : Nat} (ha : a % 4 = 0) (hm : regMapped a = true) (hc : inCsWindow a = false) (s : State)
    (m : Master) (v : Nat) : s.regWrite m a 4 v = s.writeBlock m a v := by
  simp [State.regWrite, regBad_eq_false ha hm, hc]

theorem State.regRead_fields {a : Nat} (ha : a % 4 = 0) (hm : regMapped a = true) (hc : inCsWindow a = false)
    (hT : a ≠ 0x0010) (hY : a ≠ 0xB020) (s : State) (m : Master) (held : Bool) :
    s.regRead m held a 4 = s.readPlain held a := by
  simp [State.regRead, regBad_eq_false ha hm, hc, hT, hY]

/-! Plain writes: apart from the registers with an effect of their own, each block writes the register's fields. -/

theorem State.writePwr_plain {a : Nat} (hQ : a ≠ 0x1010) (hD : a ≠ 0x1014) (hB : a < 0x1020 ∨ 0x1040 ≤ a) (s : State)
    (v : Nat) : s.writePwr a v = s.writePlain a v := by
  unfold State.writePwr
  rw [if_neg hD, if_neg hQ, if_neg (by omega)]

theorem State.writeMap_plain {a : Nat} (hC : a ≠ 0x7000) (hL : a ≠ 0x7008) (hD : a ≠ 0x7010) (s : State) (m : Master)
    (v : Nat) : s.writeMap m a v = s.writePlain a v := by
  unfold State.writeMap
  split <;> first | contradiction | rfl

theorem State.writeJnp_plain {a : Nat} (hT : a ≠ 0x9008) (hC : a ≠ 0x9020) (hG : a ≠ 0x9024) (s : State) (v : Nat) :
    s.writeJnp a v = s.writePlain a v := by
  unfold State.writeJnp
  split <;> first | contradiction | rfl

theorem State.writeYew_plain {a : Nat} (h : a < 0xB008 ∨ 0xB018 < a) (s : State) (m : Master) (v : Nat) :
    s.writeYew m a v = s.writePlain a v := by
  unfold State.writeYew
  split <;> first | omega | rfl

theorem State.writeMcs_plain {a : Nat} (hC : a ≠ 0xE000) (hA : a ≠ 0xE02C) (hD : a ≠ 0xE038)
    (hF : a < 0xE060 ∨ 0xE080 ≤ a) (s : State) (v : Nat) : s.writeMcs a v = s.writePlain a v := by
  unfold State.writeMcs
  rw [if_neg hC, if_neg hA, if_neg hD, if_neg (by omega)]

theorem State.writeDbg_plain {a : Nat} (h : 0x30010 ≤ a) (s : State) (v : Nat) : s.writeDbg a v = s.writePlain a v := by
  unfold State.writeDbg
  split <;> first | omega | rfl

theorem plainAddr_mapped {a : Nat} (h : plainAddr a = true) :
    a % 4 = 0 ∧ regMapped a = true ∧ inCsWindow a = false := by
  obtain ⟨h, -⟩ := Bool.and_eq_true_iff.mp h
  simpa [and_assoc] using h

/-- The blocks without a rule of their own: ECC and the channels, whose first register is the one with an effect. -/
theorem State.writeBlock_other {a : Nat} (hb : a / 0x1000 = 8 ∨ 0xE < a / 0x1000 ∧ a / 0x1000 ≠ 0x30)
    (hc : a / 0x1000 < 0x20 ∨ a % 0x1000 ≠ 0) (s : State) (m : Master) (v : Nat) :
    s.writeBlock m a v = s.writePlain a v := by
  have hplain : ¬(0x20 ≤ a / 0x1000 ∧ a % 0x1000 = 0) := by omega
  unfold State.writeBlock
  split
  case h_16 => rw [if_neg hplain]
  all_goals omega

/-- R15: a write to a plain address, block by block as `plainAddr` lists them; in the blocks of the queues, the DMA and
Boxwood no address is plain. -/
theorem State.writeBlock_plain {a : Nat} (h : plainAddr a = true) (s : State) (m : Master) (v : Nat) :
    s.writeBlock m a v = s.writePlain a v := by
  obtain ⟨-, h⟩ := Bool.and_eq_true_iff.mp h
  split at h <;> simp only [Bool.and_eq_true, Bool.or_eq_true, Bool.not_eq_true', bne_iff_ne, decide_eq_true_eq,
    Bool.and_eq_false_iff, decide_eq_false_iff_not, Nat.not_le, Nat.not_lt, reduceCtorEq, and_assoc] at h
  case h_1 hb =>
    simp only [State.writeBlock, hb]
    exact if_neg h
  case h_2 hb =>
    obtain ⟨hQ, hD, hB⟩ := h
    simp only [State.writeBlock, hb]
    exact s.writePwr_plain hQ hD hB v
  case h_3 hb =>
    obtain ⟨hR, hQ⟩ := h
    simp only [State.writeBlock, hb]
    exact (if_neg hR).trans (if_neg (by omega))
  case h_4 hb =>
    simp only [State.writeBlock, hb]
    exact if_neg (by omega)
  case h_7 hb =>
    simp only [State.writeBlock, hb]
    exact if_neg h
  case h_8 hb =>
    obtain ⟨hC, hL, hD⟩ := h
    simp only [State.writeBlock, hb]
    exact s.writeMap_plain hC hL hD m v
  case h_9 hb =>
    obtain ⟨hT, hC, hG⟩ := h
    simp only [State.writeBlock, hb]
    exact s.writeJnp_plain hT hC hG v
  case h_11 hb =>
    simp only [State.writeBlock, hb]
    exact s.writeYew_plain h m v
  case h_12 hb =>
    obtain ⟨hC, hW⟩ := h
    simp only [State.writeBlock, hb]
    exact (if_neg hC).trans (if_neg hW)
  case h_13 hb =>
    obtain ⟨hC, hH⟩ := h
    simp only [State.writeBlock, hb]
    exact (if_neg hC).trans (if_neg hH)
  case h_14 hb =>
    obtain ⟨hC, hA, hD, hF⟩ := h
    simp only [State.writeBlock, hb]
    exact s.writeMcs_plain hC hA hD hF v
  case h_15 hb =>
    simp only [State.writeBlock, hb]
    exact s.writeDbg_plain h v
  case h_16 =>
    simp only [imp_false] at *
    exact s.writeBlock_other (by omega) (by omega) m v

theorem State.regWrite_plain {a : Nat} (h : plainAddr a = true) (s : State) (m : Master) (v : Nat) :
    s.regWrite m a 4 v = s.writePlain a v := by
  obtain ⟨ha, hm, hc⟩ := plainAddr_mapped h
  rw [s.regWrite_block ha hm hc, s.writeBlock_plain h]

/-! The word that a read answers. -/

/-- R15: the word that a read of a register answers: what each field shows, in its place. -/
def State.readWord (s : State) (held : Bool) (a : Nat) : Nat :=
  (Reg.atAddr a).foldl (fun v F => v + s.view held F * 2 ^ F.lsb) 0

theorem State.readPlain_resp (s : State) (held : Bool) (a : Nat) :
    (s.readPlain held a).resp = .value (s.readWord held a) := rfl

theorem bits_testBit (v lo w i : Nat) : (bits v lo w).testBit i = (decide (i < w) && v.testBit (lo + i)) := by
  rw [bits, Nat.testBit_mod_two_pow, Nat.testBit_shiftRight]

/-- A WO field shows 0. -/
theorem State.view_wo (s : State) (held : Bool) {F : Fld} (h : F.acc = .wo) : s.view held F = 0 := if_pos h

theorem State.view_testBit_out (s : State) (held : Bool) {F : Fld} {i : Nat} (h : F.width ≤ i) :
    (s.view held F).testBit i = false :=
  Nat.testBit_lt_two_pow (Nat.lt_of_lt_of_le (s.view_lt held F) (Nat.pow_le_pow_right (by decide) h))

/-- A bit of the word in a field is that bit of the field: the fields of a register share no bit. -/
theorem State.readWord_testBit_in (s : State) (held : Bool) {F : Fld} (hF : F ∈ Reg.all) {i : Nat} (hi : i < F.width) :
    (s.readWord held F.addr).testBit (F.lsb + i) = (s.view held F).testBit i := by
  unfold State.readWord
  rw [read_bits, Bool.eq_iff_iff, List.any_eq_true]
  constructor
  · rintro ⟨G, hG, hb⟩
    obtain ⟨hGm, hGa⟩ := Reg.atAddr_mem hG
    obtain ⟨hlo, hb⟩ := Bool.and_eq_true_iff.mp hb
    have hlo : G.lsb ≤ F.lsb + i := of_decide_eq_true hlo
    by_cases e : F = G
    · subst e
      simpa using hb
    · have hap := Reg.apart hF hGm e
      rw [s.view_testBit_out held (by omega)] at hb
      cases hb
  · intro hb
    exact ⟨F, Reg.mem_atAddr hF, by simpa using hb⟩

/-- A bit of the word in no field is 0. -/
theorem State.readWord_testBit_out (s : State) (held : Bool) {a i : Nat}
    (h : ∀ F ∈ Reg.all, F.addr = a → i < F.lsb ∨ F.lsb + F.width ≤ i) : (s.readWord held a).testBit i = false := by
  unfold State.readWord
  rw [read_bits, List.any_eq_false]
  intro F hF hb
  obtain ⟨hm, ha⟩ := Reg.atAddr_mem hF
  obtain ⟨hlo, hb⟩ := Bool.and_eq_true_iff.mp hb
  have hlo : F.lsb ≤ i := of_decide_eq_true hlo
  have hout := h F hm ha
  rw [s.view_testBit_out held (by omega)] at hb
  cases hb

theorem State.bits_readWord (s : State) (held : Bool) {F : Fld} (hF : F ∈ Reg.all) :
    bits (s.readWord held F.addr) F.lsb F.width = s.view held F := by
  refine Nat.eq_of_testBit_eq fun i => ?_
  rw [bits_testBit]
  by_cases hi : i < F.width
  · rw [s.readWord_testBit_in held hF hi, decide_eq_true hi, Bool.true_and]
  · rw [s.view_testBit_out held (Nat.le_of_not_lt hi), decide_eq_false hi, Bool.false_and]

theorem State.readWord_lt (s : State) (held : Bool) (a : Nat) : s.readWord held a < 2 ^ 32 :=
  Nat.lt_pow_two_of_testBit _ fun _ hi => s.readWord_testBit_out held fun F hF _ =>
    .inr (Nat.le_trans (of_decide_eq_true (List.all_eq_true.mp Reg.all_fit F hF)) hi)

/-! Reads of a register without RC fields. -/

theorem State.each_eq_self {α : Type} {s : State} {l : List α} {f : State → α → State} (h : ∀ x ∈ l, f s x = s) :
    s.each l f = s := by
  induction l with
  | nil => rfl
  | cons x r ih =>
    show State.each (f s x) r f = s
    rw [h x List.mem_cons_self]
    exact ih fun y hy => h y (List.mem_cons_of_mem _ hy)

theorem State.readPlain_of_no_rc {a : Nat} (h : ∀ F ∈ Reg.atAddr a, F.acc ≠ .rc) (s : State) (held : Bool) :
    s.readPlain held a = { s with resp := .value (s.readWord held a) } := by
  have hclear : s.each (Reg.atAddr a) (fun s F => if F.acc = .rc then s.wr F 0 else s) = s :=
    State.each_eq_self fun F hF => if_neg (h F hF)
  unfold State.readPlain
  dsimp only
  rw [hclear]
  rfl

/-! Addresses where no register stands. -/

theorem Reg.atAddr_eq_nil {a : Nat} (h : ∀ F ∈ Reg.all, F.addr ≠ a) : Reg.atAddr a = [] :=
  List.eq_nil_iff_forall_not_mem.mpr fun F hF => h F (Reg.atAddr_mem hF).1 (Reg.atAddr_mem hF).2

theorem State.writePlain_of_none {a : Nat} (h : Reg.atAddr a = []) (s : State) (v : Nat) : s.writePlain a v = s := by
  simp [State.writePlain, State.writeFlds, State.each, h]

theorem State.readPlain_of_none {a : Nat} (h : Reg.atAddr a = []) (s : State) (held : Bool) :
    s.readPlain held a = { s with resp := .value 0 } := by
  rw [State.readPlain_of_no_rc (by simp [h]), State.readWord, h]
  rfl

/-! PL_GLB_ID (R1). -/

theorem Reg.atAddr_zero : Reg.atAddr 0 = [Reg.GLB_ID_MINOR, Reg.GLB_ID_MAJOR, Reg.GLB_ID_FAMILY] := by decide +kernel

theorem Reg.atAddr_zero_ro : ∀ F ∈ Reg.atAddr 0, F.acc = .ro := by
  rw [Reg.atAddr_zero]
  decide

/-- R1: the fields of PL_GLB_ID show what the complex was made with. -/
theorem State.view_id (s : State) (held : Bool) {F : Fld} (h : F ∈ Reg.atAddr 0) :
    s.view held F = F.cold % 2 ^ F.width := by
  simp [State.view, (Reg.atAddr_mem h).2, Reg.atAddr_zero_ro F h]

theorem State.readWord_id (s : State) (held : Bool) : s.readWord held 0 = 0x504C0200 := by
  have hmem : Reg.GLB_ID_MINOR ∈ Reg.atAddr 0 ∧ Reg.GLB_ID_MAJOR ∈ Reg.atAddr 0 ∧ Reg.GLB_ID_FAMILY ∈ Reg.atAddr 0 := by
    rw [Reg.atAddr_zero]
    decide
  obtain ⟨hminor, hmajor, hfamily⟩ := hmem
  unfold State.readWord
  rw [Reg.atAddr_zero, List.foldl_cons, List.foldl_cons, List.foldl_cons, List.foldl_nil, s.view_id held hminor,
    s.view_id held hmajor, s.view_id held hfamily]
  decide +kernel

/-! The obligations. -/

/-- Settles O10: a bad access ends in `State.badAccess`, and an address where no register stands has no field to write or
to show. -/
theorem badAccessesHaveNoEffect : Obligations.BadAccessesHaveNoEffect := by
  refine ⟨fun m a w v s hS h => ?_, fun m a w s hS h => ?_, fun m a v s hS hp hno => ⟨?_, ?_⟩⟩
  · rw [exec_registerWrite_served hS, State.regWrite_bad (regBad_eq_true.mpr h)]
    rfl
  · rw [exec_rcRegisterRead_served hS, State.regRead_bad (regBad_eq_true.mpr h)]
    rfl
  · rw [exec_registerWrite_served hS, State.regWrite_plain hp, State.writePlain_of_none (Reg.atAddr_eq_nil hno)]
  · obtain ⟨ha, hm, hc⟩ := plainAddr_mapped hp
    have hT : a ≠ 0x0010 := (hno Reg.GLB_TIME_LO_COUNT (by decide +kernel)).symm
    have hY : a ≠ 0xB020 := (hno Reg.YEW_RDATA_LO_DATA (by decide +kernel)).symm
    rw [exec_rcRegisterRead_served hS, State.regRead_fields ha hm hc hT hY,
      State.readPlain_of_none (Reg.atAddr_eq_nil hno)]
    rfl

/-- Settles O12: a served write to a plain address is `State.writePlain`. -/
theorem registerWritesSetTheirFields : Obligations.RegisterWritesSetTheirFields := by
  intro m a v s hS hp
  obtain ⟨hat, hother, -⟩ := s.fresh.writePlain_spec a v.toNat
  refine ⟨s.fresh.writePlain a v.toNat, ?_, hat, hother, ?_⟩
  · rw [exec_registerWrite_served hS, State.regWrite_plain hp]
  · exact State.writePlain_keeps (keptButFlds rfl rfl) _ _ _ (.fresh rfl s)

/-- Settles O13: a served read is `State.readPlain`, which answers `State.readWord`. -/
theorem registerReadsAnswerTheirFields : Obligations.RegisterReadsAnswerTheirFields := by
  intro m a s hS ha hm hc hT hY
  obtain ⟨hrc, hother, -⟩ := s.fresh.readPlain_spec false a
  have hbits : ∀ F ∈ Reg.all, F.addr = a → bits (s.fresh.readWord false a) F.lsb F.width = s.view false F := by
    rintro F hF rfl
    exact (s.fresh.bits_readWord false hF).trans (s.fresh_view false F)
  refine ⟨s.fresh.readPlain false a, s.fresh.readWord false a, ?_, State.readPlain_resp _ _ _, State.readWord_lt _ _ _,
    hbits, fun F hF e hwo => ?_, fun i hi => State.readWord_testBit_out _ _ hi, hrc, hother, ?_⟩
  · rw [exec_rcRegisterRead_served hS, State.regRead_fields ha hm hc hT hY]
  · rw [hbits F hF e, s.view_wo false hwo]
  · exact State.readPlain_keeps (keptButWr rfl) (keptButResp rfl) _ _ _ (.fresh rfl s)

/-- Settles O11: the fields of PL_GLB_ID show their cold values, and none of them is RC. -/
theorem idReadsTheSameOnEveryPliut2 : Obligations.IdReadsTheSameOnEveryPliut2 := by
  refine ⟨fun m s hS => ?_, by decide, by decide, by decide⟩
  have hrc : ∀ F ∈ Reg.atAddr 0, F.acc ≠ .rc := fun F hF => by simp [Reg.atAddr_zero_ro F hF]
  rw [exec_rcRegisterRead_served hS, State.regRead_fields rfl rfl rfl (by decide) (by decide),
    State.readPlain_of_no_rc hrc, State.readWord_id]
  rfl

end Sys2Proof.Machine
end

section
/-!
SUPPORT. The rows that are one register access: the address that a row names reaches the row's own effect through the
register port (R13, R206, R565).
-/
namespace Sys2Proof.Machine

/-! Writes that wake the complex, and all others. -/

theorem isDoorbell_iff {a : Nat} : isDoorbell a = true ↔ 0x4000 ≤ a ∧ a < 0x5000 ∧ a % 0x40 = 0xC := by
  simp [isDoorbell, and_assoc]

theorem exec_registerWrite_doorbell {a : Nat} (hd : isDoorbell a = true) (m : Master) (v : W32) (s : State) :
    exec (.registerWrite m a 4 v) s = .next (s.accessWake m a (some v.toNat) fun s => s.regWrite m a 4 v.toNat) := by
  show execRegisterWrite m a 4 v s = _
  simp [execRegisterWrite, wakesLow, hd]

theorem exec_registerWrite_other {a : Nat} (hd : isDoorbell a = false) (hw : a ≠ 0x1000) (m : Master) (v : W32)
    (s : State) :
    exec (.registerWrite m a 4 v) s = .next (s.access m a (some v.toNat) fun s => s.regWrite m a 4 v.toNat) := by
  show execRegisterWrite m a 4 v s = _
  simp [execRegisterWrite, wakesLow, hd, hw]

/-- A row that is an access with an effect is a register write, where the port has that effect at the row's address. -/
theorem exec_eq_registerWrite {c : Instr} {m : Master} {a : Nat} {v : W32} {eff : State → State} {s : State}
    (hrow : exec c s = .next (s.access m a (some v.toNat) eff)) (heff : ∀ s : State, s.regWrite m a 4 v.toNat = eff s)
    (ha : a ≠ 0x1000 ∧ (a < 0x4000 ∨ 0x5000 ≤ a ∨ a % 0x40 ≠ 0xC) := by omega) :
    exec c s = exec (.registerWrite m a 4 v) s := by
  have hd : isDoorbell a = false := by
    rw [← Bool.not_eq_true, isDoorbell_iff]
    omega
  rw [hrow, exec_registerWrite_other hd ha.1, funext heff]

/-! The effect at the registers that stand in a row of like ones. -/

theorem State.regWrite_low {a : Nat} (ha : a % 4 = 0) (h : a < 0xF000) (s : State) (m : Master) (v : Nat) :
    s.regWrite m a 4 v = s.writeBlock m a v := by
  have hm : regMapped a = true := by
    simp only [regMapped, Bool.or_eq_true, decide_eq_true_eq]
    omega
  have hc : inCsWindow a = false := by
    simp only [inCsWindow, beq_eq_false_iff_ne]
    omega
  exact s.regWrite_block ha hm hc m v

theorem State.regWrite_rgn (s : State) (m : Master) (k : Fin 32) (v : Nat) :
    s.regWrite m (0x3000 + 4 * k) 4 v = s.rgnWrite k v := by
  have hb : (0x3000 + 4 * k.val) / 0x1000 = 3 := by omega
  have hk : (0x3000 + 4 * k.val - 0x3000) / 4 = k := by omega
  rw [s.regWrite_low (by omega) (by omega)]
  simp only [State.writeBlock, hb, hk]
  exact if_pos (by omega)

theorem State.regWrite_quota (s : State) (m : Master) (i : Fin 16) (v : Nat) :
    s.regWrite m (0x2040 + 4 * i) 4 v = s.setQuota i (bits v 0 13) := by
  have hb : (0x2040 + 4 * i.val) / 0x1000 = 2 := by omega
  have hi : (0x2040 + 4 * i.val - 0x2040) / 4 = i := by omega
  rw [s.regWrite_low (by omega) (by omega)]
  simp only [State.writeBlock, hb, hi]
  rw [if_neg (by omega), if_pos (by omega)]

theorem State.regWrite_queCfg (s : State) (m : Master) (k : Fin 64) (v : Nat) :
    s.regWrite m (0x4008 + 0x40 * k) 4 v = s.queCfg k v := by
  have hb : (0x4008 + 0x40 * k.val) / 0x1000 = 4 := by omega
  have ho : (0x4008 + 0x40 * k.val) % 0x40 = 8 := by omega
  have hk : (0x4008 + 0x40 * k.val - 0x4000) / 0x40 = k := by omega
  rw [s.regWrite_low (by omega) (by omega)]
  simp only [State.writeBlock, hb, State.writeQue, ho, hk]

theorem State.regWrite_doorbell (s : State) (m : Master) (k : Fin 64) (v : Nat) :
    s.regWrite m (dbAddr k) 4 v = s.doorbell m k v := by
  have hb : (0x400C + 0x40 * k.val) / 0x1000 = 4 := by omega
  have ho : (0x400C + 0x40 * k.val) % 0x40 = 0xC := by omega
  have hk : (0x400C + 0x40 * k.val - 0x4000) / 0x40 = k := by omega
  unfold dbAddr
  rw [s.regWrite_low (by omega) (by omega)]
  simp only [State.writeBlock, hb, State.writeQue, ho, hk]

theorem State.regWrite_dcqCfg (s : State) (m : Master) (w : Fin 2) (v : Nat) :
    s.regWrite m (0x5804 + 0x40 * w) 4 v = s.dcqCfg w v := by
  have hb : (0x5804 + 0x40 * w.val) / 0x1000 = 5 := by omega
  have ho : (0x5804 + 0x40 * w.val) % 0x40 = 4 := by omega
  have hw : (0x5804 + 0x40 * w.val - 0x5800) / 0x40 = w := by omega
  rw [s.regWrite_low (by omega) (by omega)]
  simp only [State.writeBlock, hb, State.writeDma, ho, hw]
  rw [if_neg (by omega), if_neg (by omega)]

theorem State.regWrite_dcqHead (s : State) (m : Master) (w : Fin 2) (v : Nat) :
    s.regWrite m (0x5808 + 0x40 * w) 4 v = s.dcqHead w v := by
  have hb : (0x5808 + 0x40 * w.val) / 0x1000 = 5 := by omega
  have ho : (0x5808 + 0x40 * w.val) % 0x40 = 8 := by omega
  have hw : (0x5808 + 0x40 * w.val - 0x5800) / 0x40 = w := by omega
  rw [s.regWrite_low (by omega) (by omega)]
  simp only [State.writeBlock, hb, State.writeDma, ho, hw]
  rw [if_neg (by omega), if_neg (by omega)]

theorem State.regWrite_faultClear (s : State) (m : Master) (ch : Fin 8) (v : Nat) :
    s.regWrite m (0xE060 + 4 * ch) 4 v = s.faultClear ch v := by
  have hb : (0xE060 + 4 * ch.val) / 0x1000 = 0xE := by omega
  have hn : (0xE060 + 4 * ch.val - 0xE060) / 4 = ch := by omega
  rw [s.regWrite_low (by omega) (by omega)]
  simp only [State.writeBlock, hb, State.writeMcs, hn]
  rw [if_neg (by omega), if_neg (by omega), if_neg (by omega), if_pos (by omega)]

/-- R206: a word of the control-store window. -/
theorem State.regWrite_csWindow {off : Nat} (ha : off % 4 = 0) (h : off < 0x10000) (s : State) (m : Master) (v : Nat) :
    s.regWrite m (0x10000 + off) 4 v = s.csWrite off v := by
  have hm : regMapped (0x10000 + off) = true := by
    simp only [regMapped, Bool.or_eq_true, Bool.and_eq_true, decide_eq_true_eq]
    omega
  have hc : inCsWindow (0x10000 + off) = true := by
    simp only [inCsWindow, beq_iff_eq]
    omega
  have hbad : regBad (0x10000 + off) 4 = false := regBad_eq_false (by omega) hm
  unfold State.regWrite
  rw [if_neg (by simp [hbad]), if_pos hc, Nat.add_sub_cancel_left]

/-! The rows. -/

/-- Where the row's address is a number, the port's effect there is the row's by computation. -/
theorem exec_eq_registerWrite_of_rowWrite {c : Instr} {m : Master} {a : Nat} {v : W32}
    (h : rowWrite c = some (m, a, v)) (s : State) : exec c s = exec (.registerWrite m a 4 v) s := by
  cases c with
  | queEnable m k v | queDisable m k v =>
    cases h
    exact exec_eq_registerWrite rfl fun s => s.regWrite_queCfg m k _
  | queDoorbellSqtail m k v | queDoorbellCqhead m k v =>
    cases h
    have hd : isDoorbell (0x400C + 0x40 * k.val) = true := isDoorbell_iff.mpr (by omega)
    rw [exec_registerWrite_doorbell hd]
    exact congrArg (fun eff => Host.Outcome.next (s.accessWake m (dbAddr k) (some v.toNat) eff))
      (funext fun s => (s.regWrite_doorbell m k _).symm)
  | mapEnableSet v r =>
    simp only [rowWrite, Option.ite_none_left_eq_some, Option.some.injEq, Prod.mk.injEq, Bool.not_eq_true] at h
    obtain ⟨hv, rfl, rfl, rfl⟩ := h
    have hv : bit v.toNat 0 = false := hv
    refine exec_eq_registerWrite rfl fun s => ?_
    rw [hv]
    rfl
  | mcsFaultClear m ch v =>
    cases h
    exact exec_eq_registerWrite rfl fun s => s.regWrite_faultClear m ch _
  | regionChangeRequest m k v =>
    cases h
    exact exec_eq_registerWrite rfl fun s => s.regWrite_rgn m k _
  | reserveWrite m i v =>
    cases h
    exact exec_eq_registerWrite rfl fun s => s.regWrite_quota m i _
  | dcqDoorbell m w v =>
    cases h
    exact exec_eq_registerWrite rfl fun s => s.regWrite_dcqHead m w _
  | dcqEnable m w v | dcqDisable m w v =>
    cases h
    exact exec_eq_registerWrite rfl fun s => s.regWrite_dcqCfg m w _
  | _ => cases h <;> rfl

theorem exec_eq_rcRegisterRead_of_rowRead {c : Instr} {m : Master} {a : Nat} (h : rowRead c = some (m, a)) (s : State) :
    exec c s = exec (.rcRegisterRead m a 4) s := by
  cases c with
  | glbTimeLoRead m | yewRdataRead m =>
    cases h
    rfl
  | _ => cases h

theorem exec_csWindowWrite {off : Nat} (ha : off % 4 = 0) (h : off < 0x10000) (m : Master) (v : W32) (s : State) :
    exec (.csWindowWrite m off v) s = exec (.registerWrite m (0x10000 + off) 4 v) s :=
  exec_eq_registerWrite rfl fun s => (s.regWrite_csWindow ha h m _).trans (if_pos ⟨ha, h⟩).symm

/-- Settles O8, row by row. -/
theorem registerRowsAreTheirAccesses : Obligations.RegisterRowsAreTheirAccesses :=
  ⟨fun _ _ _ _ s h => exec_eq_registerWrite_of_rowWrite h s, fun _ _ _ s h => exec_eq_rcRegisterRead_of_rowRead h s,
    fun m _ v s ha h => exec_csWindowWrite ha h m v s⟩

end Sys2Proof.Machine
end

section
/-!
SUPPORT. The acceptance of an LFA-addressed program, seen through the parts of the state that it writes: the dirty frames
and their count, the atomic groups, the stage of the command and the owners of a buffer (R36, R69, R123, R124, R444). Each
operation on the way has one lemma that says what it leaves of the view or makes of it.
-/
namespace Sys2Proof.Machine

/-! The view. -/

/-- Where a dirty frame stands: its write and position, its region and LFA, and its buffer. -/
abbrev DirtyPlace := Nat × Nat × Nat × Nat × Nat

/-- The buffer of a place. -/
def DirtyPlace.buf (x : DirtyPlace) : Nat := x.2.2.2.2

/-- The place of a dirty frame. -/
def Dirty.place (d : Dirty) : DirtyPlace := (d.order, d.pos, d.region, d.lfa, d.buf)

/-- What the acceptance of a write changes, as one tag and one buffer see it. -/
structure WriteView where
  places : List DirtyPlace
  count : Nat
  groups : List Group
  nextGroup : Nat
  stage : Option Stage
  owners : List Nat

/-- The view of a state that a tag and a buffer give. -/
def State.writeView (s : State) (tag b : Nat) : WriteView where
  places := s.que.dirty.map Dirty.place
  count := s.rd Reg.PWR_QUOTA_DIRTY
  groups := s.que.groups
  nextGroup := s.que.nextGroup
  stage := (s.cmd? tag).map fun c => c.stage
  owners := (s.buf b).owners

/-- The owners of a buffer that the complex has taken over from a submitter (R69). -/
def ownersTaken (r : Nat) (keep : Bool) (l : List Nat) : List Nat :=
  let l := if l.contains 15 then l else l ++ [15]
  if keep then l else l.filter (· != r)

section
variable (s : State) (tag b : Nat)

/-! Updates of one part. -/

@[simp] theorem State.writeView_onTop (f : Top → Top) : (s.onTop f).writeView tag b = s.writeView tag b := rfl

theorem State.writeView_wr_ne {F : Fld} (h : F.key ≠ Reg.PWR_QUOTA_DIRTY.key) (v : Nat) :
    (s.wr F v).writeView tag b = s.writeView tag b := by
  have hcount : (s.wr F v).rd Reg.PWR_QUOTA_DIRTY = s.rd Reg.PWR_QUOTA_DIRTY := s.rd_wr_ne v h.symm
  unfold State.writeView
  rw [hcount]
  rfl

theorem State.writeView_wr_dirty (v : Nat) :
    (s.wr Reg.PWR_QUOTA_DIRTY v).writeView tag b = { s.writeView tag b with count := v % 2 ^ 14 } := by
  have hcount : (s.wr Reg.PWR_QUOTA_DIRTY v).rd Reg.PWR_QUOTA_DIRTY = v % 2 ^ 14 := s.rd_wr_self _ v
  unfold State.writeView
  rw [hcount]
  rfl

/-- A change of a command that leaves its tag and its stage. -/
theorem State.writeView_onCmd (j : Nat) {f : Cmd → Cmd} (ht : ∀ c, (f c).tag = c.tag) (hs : ∀ c, (f c).stage = c.stage) :
    (s.onCmd j f).writeView tag b = s.writeView tag b := by
  have hstage : ((s.onCmd j f).cmd? tag).map (fun c => c.stage) = (s.cmd? tag).map fun c => c.stage := by
    by_cases hj : tag = j
    · subst hj
      rw [s.cmd?_onCmd tag f ht, Option.map_map]
      exact congrArg (fun g => (s.cmd? tag).map g) (funext hs)
    · rw [s.cmd?_onCmd_ne f ht hj]
  unfold State.writeView
  rw [hstage]
  rfl

theorem State.buf_onBuf (i : Nat) (f : Buf → Buf) : (s.onBuf i f).buf b = if b = i then f (s.buf i) else s.buf b := by
  unfold State.buf State.onBuf
  exact tget_tset _ _ _ _ _

theorem State.writeView_onBuf (i : Nat) (f : Buf → Buf) :
    (s.onBuf i f).writeView tag b =
      { s.writeView tag b with owners := if b = i then (f (s.buf b)).owners else (s.buf b).owners } := by
  have howners : ((s.onBuf i f).buf b).owners = if b = i then (f (s.buf b)).owners else (s.buf b).owners := by
    rw [s.buf_onBuf b i f]
    split
    · subst_vars; rfl
    · rfl
  unfold State.writeView
  rw [howners]
  rfl

/-- A change of a buffer that leaves its owners. -/
theorem State.writeView_onBuf_same (i : Nat) {f : Buf → Buf} (h : ∀ x, (f x).owners = x.owners) :
    (s.onBuf i f).writeView tag b = s.writeView tag b := by
  rw [s.writeView_onBuf, h, ite_self]
  rfl

theorem State.writeView_takeOver (i r : Nat) (keep : Bool) :
    (s.takeOver i r keep).writeView tag b =
      { s.writeView tag b with
        owners := if b = i then ownersTaken r keep (s.writeView tag b).owners else (s.writeView tag b).owners } := by
  have hadd := s.writeView_onBuf tag b i fun x => { x with owners := if x.owners.contains 15 then x.owners else x.owners ++ [15] }
  unfold State.takeOver State.addName
  cases keep with
  | true => exact hadd
  | false =>
    have hbuf := congrArg WriteView.owners hadd
    dsimp only [State.writeView] at hbuf
    simp only [Bool.false_eq_true, if_false]
    rw [State.writeView_onBuf, hadd]
    simp only [hbuf, ownersTaken, State.writeView, Bool.false_eq_true, if_false]
    split <;> rfl

/-! Updates that the view does not see. -/

/-- A condition on an update that the view does not see. -/
theorem State.writeView_when (c : Bool) {f : State → State} (h : (f s).writeView tag b = s.writeView tag b) :
    (s.when c f).writeView tag b = s.writeView tag b := by
  unfold State.when
  split
  · exact h
  · rfl

/-- A list of updates, each of which makes g of the view. -/
theorem State.writeView_each {α : Type} (l : List α) {f : State → α → State} {g : WriteView → α → WriteView}
    (h : ∀ s x, (f s x).writeView tag b = g (s.writeView tag b) x) :
    (s.each l f).writeView tag b = l.foldl g (s.writeView tag b) := by
  induction l generalizing s with
  | nil => rfl
  | cons x r ih => exact (ih (f s x)).trans (by rw [h]; rfl)

/-- A list of updates that the view does not see. -/
theorem State.writeView_each_same {α : Type} (l : List α) {f : State → α → State}
    (h : ∀ s x, (f s x).writeView tag b = s.writeView tag b) : (s.each l f).writeView tag b = s.writeView tag b :=
  each_keeps (P := fun t => t.writeView tag b = s.writeView tag b) s l f (fun t x _ ht => (h t x).trans ht) rfl

theorem Reg.TOP_LUNQ_HIT_HIT_key_ne (i : Nat) : (Reg.TOP_LUNQ_HIT_HIT i).key ≠ Reg.PWR_QUOTA_DIRTY.key := by
  simp only [Fld.key, Reg.TOP_LUNQ_HIT_HIT, Reg.PWR_QUOTA_DIRTY, fld, reduceCtorEq, if_false]
  omega

theorem Reg.BOX_EN_CP_CNT_key_ne (i : Nat) : (Reg.BOX_EN_CP_CNT i).key ≠ Reg.PWR_QUOTA_DIRTY.key := by
  simp only [Fld.key, Reg.BOX_EN_CP_CNT, Reg.PWR_QUOTA_DIRTY, fld, reduceCtorEq, if_false]
  omega

@[simp] theorem State.writeView_addOp (o : Op) : (s.addOp o).writeView tag b = s.writeView tag b :=
  State.writeView_when _ tag b _ (State.writeView_wr_ne _ tag b (Reg.TOP_LUNQ_HIT_HIT_key_ne _) _)

@[simp] theorem State.writeView_openGroup (g : WGroup) (o : Op) : (s.openGroup g o).writeView tag b = s.writeView tag b :=
  s.writeView_addOp tag b _

@[simp] theorem State.writeView_forceOne (g : WGroup) : (s.forceOne g).writeView tag b = s.writeView tag b := by
  have hpad : (s.padGroup g).writeView tag b = s.writeView tag b := by
    unfold State.padGroup
    split
    · rfl
    · exact s.writeView_wr_ne tag b (by decide) _
  exact hpad

@[simp] theorem State.writeView_noteClass (f : PFrame) : (s.noteClass f).writeView tag b = s.writeView tag b := by
  unfold State.noteClass
  split <;> rfl

@[simp] theorem State.writeView_addPFrame (f : PFrame) (planes : Nat) (o : Op) (pslc : Bool) :
    (s.addPFrame f planes o pslc).writeView tag b = s.writeView tag b := by
  unfold State.addPFrame
  dsimp only
  split
  · simp only [State.writeView_noteClass, State.writeView_onTop, apply_ite (fun t : State => t.writeView tag b),
      State.writeView_openGroup, ite_self]
  · simp only [State.writeView_noteClass, State.writeView_onTop, apply_ite (fun t : State => t.writeView tag b),
      State.writeView_openGroup, State.writeView_forceOne, ite_self]

theorem State.writeView_padUnits (region cl : Nat) (slots : List Slot) (n : Nat) :
    (s.padUnits region cl slots n).writeView tag b = s.writeView tag b := by
  have htail : ∀ (s : State) (x : Slot), (s.padTail region cl x).writeView tag b = s.writeView tag b := by
    intro s x
    unfold State.padTail
    dsimp only
    split
    · rfl
    · exact (State.writeView_each_same _ tag b _ fun t a => t.writeView_addPFrame tag b _ _ _ _).trans
        (s.writeView_wr_ne tag b (by decide) _)
  refine s.writeView_each_same tag b _ fun t k => ?_
  split
  · exact htail t _
  · rfl

theorem State.writeView_addEnergy (k pj : Nat) : (s.addEnergy k pj).writeView tag b = s.writeView tag b := by
  unfold State.addEnergy
  dsimp only
  split
  · exact State.writeView_wr_ne _ tag b (Reg.BOX_EN_CP_CNT_key_ne k) _
  · exact State.writeView_wr_ne _ tag b (by decide) _

@[simp] theorem State.writeView_energy (j : Option Nat) (pj : Nat) : (s.energy j pj).writeView tag b = s.writeView tag b := by
  unfold State.energy
  dsimp only
  split
  · split
    · exact (State.writeView_addEnergy _ tag b _ _).trans (s.writeView_onCmd tag b _ (fun _ => rfl) fun _ => rfl)
    · exact s.writeView_addEnergy tag b _ _
  · exact s.writeView_addEnergy tag b _ _

theorem State.writeView_nextSeq : s.nextSeq.writeView tag b = s.writeView tag b :=
  (State.writeView_wr_ne _ tag b (by decide) _).trans (s.writeView_wr_ne tag b (by decide) _)

/-- A frame that has no slot is marked, and keeps its place (R36). -/
theorem State.writeView_placeDirty {d : Dirty} (hf : d.fua = false) (planes cls eclass deadline : Nat) :
    (s.placeDirty d planes cls eclass deadline).writeView tag b = s.writeView tag b := by
  unfold State.placeDirty
  simp only [hf, State.when, Bool.false_eq_true, if_false]
  split
  · exact s.writeView_addPFrame tag b _ _ _ _
  · have hplaces : ∀ l : List Dirty, (l.map fun x =>
        if x.order == d.order && x.pos == d.pos then { x with lost := true, fua := false } else x).map Dirty.place =
          l.map Dirty.place := by
      intro l
      rw [List.map_map]
      refine List.map_congr_left fun x _ => ?_
      simp only [Function.comp_apply]
      split <;> rfl
    unfold State.writeView
    rw [State.onQue_que, hplaces]
    rfl

/-! One accepted frame. -/

theorem State.writeView_addDirty (d : Dirty) :
    (s.onQue fun q => { q with dirty := q.dirty ++ [d] }).writeView tag b =
      { s.writeView tag b with places := (s.writeView tag b).places ++ [d.place] } := by
  unfold State.writeView
  rw [State.onQue_que, List.map_append]
  rfl

/-- R36: an accepted frame is dirty at its place, and counts; its slot and its map update are not in the view. -/
theorem State.writeView_acceptFrame (c : Cmd) {d : Dirty} (hf : d.fua = false) (slot : Slot) (kind : Nat) (onlyIf : Option Nat) :
    (s.acceptFrame c d slot kind onlyIf).writeView tag b =
      { s.writeView tag b with
        places := (s.writeView tag b).places ++ [d.place]
        count := ((s.writeView tag b).count + 1) % 2 ^ 14 } := by
  unfold State.acceptFrame
  dsimp only
  have hseq : ∀ c : Bool, (if c then s.nextSeq else s).writeView tag b = s.writeView tag b := by
    intro c
    split
    · exact s.writeView_nextSeq tag b
    · rfl
  generalize hs : (if decide (d.lfa % s.unitF d.region = 0) = true then s.nextSeq else s) = t
  have ht : t.writeView tag b = s.writeView tag b := hs ▸ hseq _
  have hcount : t.rd Reg.PWR_QUOTA_DIRTY = (s.writeView tag b).count := congrArg WriteView.count ht
  rw [State.writeView_energy, State.writeView_placeDirty, State.writeView_when, State.writeView_onBuf_same,
    State.writeView_wr_dirty, State.writeView_addDirty, State.onQue_rd, ht, hcount]
  · rfl
  · exact fun _ => rfl
  · rfl
  · exact hf

/-- A frame taken over and accepted, in the view. -/
def WriteView.accept (b r : Nat) (keep : Bool) (w : WriteView) (x : DirtyPlace) : WriteView :=
  { w with
    places := w.places ++ [x]
    count := (w.count + 1) % 2 ^ 14
    owners := if b = x.buf then ownersTaken r keep w.owners else w.owners }

/-- R69: a frame's buffer is taken over, and the frame is accepted. -/
theorem State.writeView_takeOver_acceptFrame (r : Nat) (keep : Bool) (c : Cmd) {d : Dirty} (hf : d.fua = false) (slot : Slot)
    (kind : Nat) (onlyIf : Option Nat) :
    ((s.takeOver d.buf r keep).acceptFrame c d slot kind onlyIf).writeView tag b =
      (s.writeView tag b).accept b r keep d.place := by
  rw [State.writeView_acceptFrame _ _ _ _ hf, State.writeView_takeOver]
  rfl

end

/-! All frames of a write. -/

section
variable (b r : Nat) (keep : Bool) (xs : List DirtyPlace) (w : WriteView)

/-- Frames taken over and accepted one after another, in the view. -/
def WriteView.acceptAll : WriteView := xs.foldl (WriteView.accept b r keep) w

/-- What every acceptance keeps, the acceptance of all keeps. -/
theorem WriteView.acceptAll_keeps {P : WriteView → Prop} (h : ∀ w, ∀ x ∈ xs, P w → P (w.accept b r keep x)) (hP : P w) :
    P (w.acceptAll b r keep xs) := by
  unfold WriteView.acceptAll
  induction xs generalizing w with
  | nil => exact hP
  | cons x xs ih => exact ih _ (fun w y hy => h w y (List.mem_cons_of_mem _ hy)) (h w x List.mem_cons_self hP)

theorem WriteView.acceptAll_places : (w.acceptAll b r keep xs).places = w.places ++ xs := by
  unfold WriteView.acceptAll
  induction xs generalizing w with
  | nil => exact (List.append_nil _).symm
  | cons x xs ih => exact (ih _).trans (List.append_assoc _ _ _)

theorem WriteView.acceptAll_count (h : w.count + xs.length < 2 ^ 14) :
    (w.acceptAll b r keep xs).count = w.count + xs.length := by
  unfold WriteView.acceptAll
  induction xs generalizing w with
  | nil => rfl
  | cons x xs ih =>
    rw [List.length_cons] at h ⊢
    have hx : (w.accept b r keep x).count = w.count + 1 := Nat.mod_eq_of_lt (by omega)
    rw [List.foldl_cons, ih _ (by omega), hx]
    omega

theorem WriteView.acceptAll_groups : (w.acceptAll b r keep xs).groups = w.groups :=
  w.acceptAll_keeps b r keep xs (P := fun u => u.groups = w.groups) (fun _ _ _ h => h) rfl

theorem WriteView.acceptAll_nextGroup : (w.acceptAll b r keep xs).nextGroup = w.nextGroup :=
  w.acceptAll_keeps b r keep xs (P := fun u => u.nextGroup = w.nextGroup) (fun _ _ _ h => h) rfl

theorem WriteView.acceptAll_stage : (w.acceptAll b r keep xs).stage = w.stage :=
  w.acceptAll_keeps b r keep xs (P := fun u => u.stage = w.stage) (fun _ _ _ h => h) rfl

/-- The complex's name stands among the owners, and the submitter's, unless it is kept, does not. -/
def Taken (r : Nat) (keep : Bool) (l : List Nat) : Prop := 15 ∈ l ∧ (keep = false → r ∉ l)

theorem taken_ownersTaken (hr : r ≠ 15) (l : List Nat) : Taken r keep (ownersTaken r keep l) := by
  have hadd : 15 ∈ if l.contains 15 then l else l ++ [15] := by
    split
    next h => exact List.contains_iff_mem.mp h
    next => exact List.mem_append_right _ List.mem_cons_self
  unfold Taken ownersTaken
  cases keep with
  | true => exact ⟨hadd, nofun⟩
  | false => exact ⟨List.mem_filter.mpr ⟨hadd, by simpa using hr.symm⟩, fun _ => by simp⟩

theorem WriteView.accept_keeps_taken (hr : r ≠ 15) (x : DirtyPlace) (h : Taken r keep w.owners) :
    Taken r keep (w.accept b r keep x).owners := by
  unfold WriteView.accept
  dsimp only
  split
  · exact taken_ownersTaken r keep hr _
  · exact h

/-- R69: the buffer of an accepted frame is taken over, and no later acceptance gives it back. -/
theorem WriteView.acceptAll_taken (hr : r ≠ 15) {x : DirtyPlace} (hx : x ∈ xs) (hb : x.buf = b) :
    Taken r keep (w.acceptAll b r keep xs).owners := by
  obtain ⟨front, back, rfl⟩ := List.append_of_mem hx
  unfold WriteView.acceptAll
  rw [List.foldl_append, List.foldl_cons]
  refine WriteView.acceptAll_keeps b r keep back _ (P := fun u => Taken r keep u.owners)
    (fun u y _ h => u.accept_keeps_taken b r keep hr y h) ?_
  unfold WriteView.accept
  dsimp only
  rw [if_pos hb.symm]
  exact taken_ownersTaken r keep hr _

end

/-! The program. -/

/-- The places of the frames of an LFA-addressed program with these handles. -/
def Cmd.places (c : Cmd) (hs : List Nat) : List DirtyPlace :=
  (List.range hs.length).map fun k => (c.order, k, c.pkt.region, c.pkt.addr + k, hdIndex (hs.getD k 0))

theorem Cmd.length_places (c : Cmd) (hs : List Nat) : (c.places hs).length = hs.length := by
  rw [Cmd.places, List.length_map, List.length_range]

/-- Every handle of a program names the buffer of one of its frames. -/
theorem Cmd.exists_place_of_mem (c : Cmd) {hs : List Nat} {h : Nat} (hmem : h ∈ hs) :
    ∃ x ∈ c.places hs, x.buf = hdIndex h := by
  obtain ⟨k, hk, rfl⟩ := List.getElem_of_mem hmem
  refine ⟨_, List.mem_map.mpr ⟨k, List.mem_range.mpr hk, rfl⟩, ?_⟩
  have hget : hs.getD k 0 = hs[k] := by
    rw [List.getD_eq_getElem?_getD, List.getElem?_eq_getElem hk, Option.getD_some]
  exact congrArg hdIndex hget

/-- A program of n frames begun, in the view: an atomic one has its group (R123). -/
def WriteView.begun (w : WriteView) (c : Cmd) (n : Nat) : WriteView :=
  { w with
    stage := some .running
    groups := if c.pkt.opcode == opAtomic
      then w.groups ++ [{ num := w.nextGroup, region := c.pkt.region, first := c.pkt.addr, len := n }] else w.groups
    nextGroup := if c.pkt.opcode == opAtomic then (w.nextGroup + 1) % 65536 else w.nextGroup }

theorem WriteView.begun_of_atomic (w : WriteView) {c : Cmd} (h : c.pkt.opcode = opAtomic) (n : Nat) :
    w.begun c n =
      { w with
        stage := some .running
        groups := w.groups ++ [{ num := w.nextGroup, region := c.pkt.region, first := c.pkt.addr, len := n }]
        nextGroup := (w.nextGroup + 1) % 65536 } := by
  unfold WriteView.begun
  rw [if_pos (beq_iff_eq.mpr h), if_pos (beq_iff_eq.mpr h)]

theorem WriteView.begun_of_not_atomic (w : WriteView) {c : Cmd} (h : c.pkt.opcode ≠ opAtomic) (n : Nat) :
    w.begun c n = { w with stage := some .running } := by
  unfold WriteView.begun
  rw [if_neg (mt beq_iff_eq.mp h), if_neg (mt beq_iff_eq.mp h)]

theorem State.writeView_begin {s : State} {tag : Nat} {c : Cmd} (h : s.cmd? tag = some c) (fs : List Frame) (b : Nat) :
    (s.begin tag fs).writeView tag b = { s.writeView tag b with stage := some .running } := by
  have hc : (s.begin tag fs).cmd? tag = some { c with stage := .running, frames := fs } :=
    (s.cmd?_onCmd tag (fun c => { c with stage := .running, frames := fs }) fun _ => rfl).trans (by rw [h]; rfl)
  unfold State.writeView
  rw [hc]
  rfl

theorem State.writeView_rangeGone (s : State) (j tag b : Nat) : (s.rangeGone j).writeView tag b = s.writeView tag b := rfl

/-- A group and the number of the next one, in the view (R123). -/
theorem State.writeView_addGroup (s : State) (tag b : Nat) (atomic : Bool) (g : Group) (m : Nat) :
    (s.when atomic fun s => s.onQue fun q => { q with groups := q.groups ++ [g], nextGroup := m }).writeView tag b =
      { s.writeView tag b with
        groups := if atomic then (s.writeView tag b).groups ++ [g] else (s.writeView tag b).groups
        nextGroup := if atomic then m else (s.writeView tag b).nextGroup } := by
  cases atomic <;> rfl

/-- R36, R69, R123: an LFA-addressed program without FUA accepts all its frames, and then completes with OK. -/
theorem State.programLfa_eq_finish {s : State} {c : Cmd} (h : s.cmd? c.tag = some c) (hf : c.pkt.flag 2 = false)
    (hs : List Nat) (slots : List Slot) :
    ∃ t : State, s.programLfa c hs slots = t.finish c.tag stOK 0 ∧
      ∀ b, t.writeView c.tag b =
        ((s.writeView c.tag b).begun c hs.length).acceptAll b c.pkt.client (c.pkt.flag 4) (c.places hs) := by
  unfold State.programLfa
  simp only [hf, Bool.false_eq_true, if_false]
  refine ⟨_, rfl, fun b => ?_⟩
  rw [State.writeView_rangeGone, State.writeView_onCmd, State.writeView_each_same,
    State.writeView_each (g := fun w k => w.accept b c.pkt.client (c.pkt.flag 4)
      (c.order, k, c.pkt.region, c.pkt.addr + k, hdIndex (hs.getD k 0))),
    State.writeView_padUnits, State.writeView_addGroup, State.writeView_onCmd, State.writeView_begin h]
  · unfold WriteView.acceptAll Cmd.places
    rw [List.foldl_map]
    rfl
  · exact fun _ => rfl
  · exact fun _ => rfl
  · exact fun t k => t.writeView_takeOver_acceptFrame c.tag b _ _ c rfl _ _ _
  · exact fun t k => t.writeView_energy c.tag b _ _
  · exact fun _ => rfl
  · exact fun _ => rfl

/-! The end of the packet. -/

/-- R103: the end of a command touches the tag table and the requests for records alone. -/
theorem State.finish_que (s : State) (tag st det : Nat) :
    ∃ cs rs, (s.finish tag st det).que = { s.que with cmds := cs, reqs := rs } := by
  have hrequest : ∀ (t : State) (r : Rec), (t.request r).que = { t.que with reqs := t.que.reqs ++ [r] } := by
    intro t r
    unfold State.request State.countReset
    split
    · rfl
    · split <;> rfl
  unfold State.finish
  split
  · exact ⟨_, _, rfl⟩
  · split
    · exact ⟨_, _, hrequest _ _⟩
    · exact ⟨_, _, rfl⟩

theorem State.writeView_finish {s : State} {tag : Nat} {c : Cmd} (h : s.cmd? tag = some c)
    (hc : c.stage = .entered ∨ c.stage = .running) {st : Nat} (hst : st ≠ stByReset) (det b : Nat) :
    (s.finish tag st det).writeView tag b = { s.writeView tag b with stage := some .requested } := by
  obtain ⟨-, hcmd, hrest⟩ := State.finish_spec h hc st det
  obtain ⟨cs, rs, hque⟩ := s.finish_que tag st det
  have hregs : (s.finish tag st det).regs = s.regs := hrest hst .regs rfl
  have hcop : (s.finish tag st det).cop = s.cop := hrest hst .cop rfl
  unfold State.writeView State.rd State.buf
  rw [hcmd, hque, hregs, hcop]
  rfl

/-- The quota never exceeds the pool's 8,192 buffers (R444). -/
theorem State.dirtyQuota_le (s : State) : s.dirtyQuota ≤ 8192 := by
  have hregions : ((List.range 32).filter fun k => s.inPool (256 * k)).length ≤ 32 :=
    Nat.le_trans (List.length_filter_le _ _) (Nat.le_of_eq List.length_range)
  have hpool : s.poolSize ≤ 8192 := by
    unfold State.poolSize
    omega
  exact Nat.le_trans (Nat.min_le_right _ _) hpool

/-- R384: the check of a packet's handles changes no queue, no pool, no page set and no map. -/
theorem State.checkedHandles_kept {s v : State} {c : Cmd} {bad : Option (Nat × Nat)} {hs : List Nat}
    (h : s.checkedHandles c = (bad, hs, v)) : v.que = s.que ∧ v.cop = s.cop ∧ v.top = s.top ∧ v.map = s.map :=
  State.checkedHandles_keeps' (P := fun t => t.que = s.que ∧ t.cop = s.cop ∧ t.top = s.top ∧ t.map = s.map)
    (fun _ _ _ ht => ht) (fun _ _ _ _ ht => ht) (fun _ _ ht => ht) h ⟨rfl, rfl, rfl, rfl⟩

/-- An LFA-addressed program whose handles pass meets the quota next: no KEEPBUF buffer would have a fifth owner. -/
theorem State.doProgram_eq_of_checked {s v : State} {c : Cmd} {hs : List Nat} (h : s.checkedHandles c = (none, hs, v))
    (hpfa : c.pkt.isPfa = false)
    (hkeep : c.pkt.flag 4 = true → ∀ h ∈ hs, (v.buf (hdIndex h)).owners.length < 4 ∨ 15 ∈ (v.buf (hdIndex h)).owners)
    (slots : List Slot) :
    s.doProgram c slots =
      if v.dirtyQuota < v.rd Reg.PWR_QUOTA_DIRTY + hs.length then
        (v.rangeGone c.tag).finish c.tag stQuota (1 + (v.rd Reg.PWR_QUOTA_DIRTY + hs.length) * 2 ^ 8)
      else ((v.userBytes c.pkt.client (4096 * hs.length)).programLfa c hs slots).settle := by
  have hroom : (c.pkt.flag 4 && hs.any fun h =>
      !(v.buf (hdIndex h)).owners.contains 15 && decide (4 ≤ (v.buf (hdIndex h)).owners.length)) = false := by
    rw [Bool.and_eq_false_imp]
    intro hflag
    rw [List.any_eq_false]
    intro x hx
    rcases hkeep hflag x hx with hlen | hown
    · simp [hlen]
    · simp [hown]
  unfold State.doProgram
  simp only [h, hroom, hpfa, Bool.false_eq_true, if_false]

/-- R69, R123: PROGRAM and PROGRAM_ATOMIC have one effect on a command that is ready. -/
theorem exec_program_of_ready {tag : Tag} {slots : List Slot} {i : Instr} {op : Nat} {s : State} {c : Cmd}
    (hi : i = .program tag slots ∧ op = opProgram ∨ i = .programAtomic tag slots ∧ op = opAtomic)
    (hr : s.ready? tag.val op = some c) : exec i s = .next (s.doProgram c (slots.map fitSlot)) := by
  rcases hi with ⟨rfl, rfl⟩ | ⟨rfl, rfl⟩
  · show execProgram tag slots s = _
    rw [execProgram, hr]
  · show execProgramAtomic tag slots s = _
    rw [execProgramAtomic, hr]

/-- R444: a program beyond the dirty quota completes with QUOTA and accepts nothing. -/
theorem State.rangeGone_finish_quota {s : State} {c : Cmd} (h : s.cmd? c.tag = some c) (he : c.stage = .entered) (det : Nat) :
    let t := (s.rangeGone c.tag).finish c.tag stQuota det
    t.cop = s.cop ∧ t.top = s.top ∧ t.map = s.map ∧ t.que.dirty = s.que.dirty ∧ t.que.groups = s.que.groups ∧
      Completes t c.tag 0x53 det := by
  obtain ⟨hdone, -, hrest⟩ := State.finish_spec (s := s.rangeGone c.tag) h (.inl he) stQuota det
  obtain ⟨cs, rs, hque⟩ := (s.rangeGone c.tag).finish_que c.tag stQuota det
  have hkept := hrest (by decide)
  refine ⟨hkept .cop rfl, hkept .top rfl, hkept .map rfl, ?_, ?_, hdone⟩
  · rw [hque]; rfl
  · rw [hque]; rfl

/-- R36, R69, R123: what the view shows of the state after an LFA-addressed program without FUA, which completes with OK. -/
theorem State.programLfa_writeView {s : State} {c : Cmd} (h : s.cmd? c.tag = some c) (hf : c.pkt.flag 2 = false)
    (hs : List Nat) (slots : List Slot) :
    Completes (s.programLfa c hs slots) c.tag 0 0 ∧
      ∀ b, (s.programLfa c hs slots).writeView c.tag b =
        { ((s.writeView c.tag b).begun c hs.length).acceptAll b c.pkt.client (c.pkt.flag 4) (c.places hs) with
          stage := some .requested } := by
  obtain ⟨t, he, hview⟩ := State.programLfa_eq_finish h hf hs slots
  have hstage : (t.cmd? c.tag).map (fun c => c.stage) = some .running :=
    (congrArg WriteView.stage (hview 0)).trans (WriteView.acceptAll_stage _ _ _ _ _)
  obtain ⟨d, hd, hrun⟩ := Option.map_eq_some_iff.mp hstage
  rw [he]
  refine ⟨(State.finish_spec hd (.inr hrun) stOK 0).1, fun b => ?_⟩
  rw [State.writeView_finish hd (.inr hrun) (by decide), hview]

/-- R36, R69, R123: the same in the fields of the state: the count, the dirty frames, the groups and the owners. -/
theorem State.programLfa_accepts {s : State} {c : Cmd} (h : s.cmd? c.tag = some c) (hf : c.pkt.flag 2 = false)
    (hclient : c.pkt.client ≠ 15) {hs : List Nat} (hcap : s.rd Reg.PWR_QUOTA_DIRTY + hs.length < 2 ^ 14) (slots : List Slot) :
    let u := s.programLfa c hs slots
    Completes u c.tag 0 0 ∧ u.rd Reg.PWR_QUOTA_DIRTY = s.rd Reg.PWR_QUOTA_DIRTY + hs.length ∧
      u.que.dirty.map Dirty.place = s.que.dirty.map Dirty.place ++ c.places hs ∧
      u.que.groups = ((s.writeView c.tag 0).begun c hs.length).groups ∧
      u.que.nextGroup = ((s.writeView c.tag 0).begun c hs.length).nextGroup ∧
      ∀ x ∈ hs, Taken c.pkt.client (c.pkt.flag 4) (u.buf (hdIndex x)).owners := by
  -- every part of the view but the owners is the same for every buffer, so buffer 0 serves for it
  obtain ⟨hdone, hview⟩ := State.programLfa_writeView h hf hs slots
  have hlen := c.length_places hs
  refine ⟨hdone, ?_, ?_, ?_, ?_, fun x hx => ?_⟩
  · refine (congrArg WriteView.count (hview 0)).trans ((WriteView.acceptAll_count _ _ _ _ _ ?_).trans ?_)
    · rw [hlen]; exact hcap
    · rw [hlen]; rfl
  · exact (congrArg WriteView.places (hview 0)).trans (WriteView.acceptAll_places _ _ _ _ _)
  · exact (congrArg WriteView.groups (hview 0)).trans (WriteView.acceptAll_groups _ _ _ _ _)
  · exact (congrArg WriteView.nextGroup (hview 0)).trans (WriteView.acceptAll_nextGroup _ _ _ _ _)
  · obtain ⟨y, hy, hbuf⟩ := c.exists_place_of_mem hx
    have howners : ((s.programLfa c hs slots).buf (hdIndex x)).owners = _ := congrArg WriteView.owners (hview (hdIndex x))
    rw [howners]
    exact WriteView.acceptAll_taken _ _ _ _ _ hclient hy hbuf

/-! The obligation. -/

/-- Settles O22: the packet comes to the quota, and is refused whole or accepted frame by frame. -/
theorem programsAcceptAllTheirFramesOrNone : Obligations.ProgramsAcceptAllTheirFramesOrNone := by
  intro tag slots i op s v c hs hi hr hh hpfa hclient hkeep
  obtain ⟨hcmd, htag, hstage, hop⟩ := State.ready?_spec hr
  obtain ⟨hque, hcop, htop, hmap⟩ := State.checkedHandles_kept hh
  have hv : v.cmd? c.tag = some c := by
    unfold State.cmd?
    rw [hque, htag]
    exact hcmd
  rw [exec_program_of_ready hi hr, State.doProgram_eq_of_checked hh hpfa hkeep, ← htag]
  constructor
  · intro hover
    obtain ⟨kcop, ktop, kmap, kdirty, kgroups, kdone⟩ := State.rangeGone_finish_quota hv hstage
      (1 + (v.rd Reg.PWR_QUOTA_DIRTY + hs.length) * 2 ^ 8)
    rw [if_pos hover]
    exact ⟨_, rfl, kcop.trans hcop, ktop.trans htop, kmap.trans hmap, kdirty.trans (by rw [hque]),
      kgroups.trans (by rw [hque]), kdone⟩
  · intro hfits hfua
    obtain ⟨hdone, hcount, hplaces, hgroups, hnext, htaken⟩ :=
      State.programLfa_accepts (s := v.userBytes c.pkt.client (4096 * hs.length)) hv hfua (by omega)
        (Nat.lt_of_le_of_lt (Nat.le_trans hfits v.dirtyQuota_le) (by decide)) (slots.map fitSlot)
    rw [if_neg (Nat.not_lt.mpr hfits), ← hque]
    refine ⟨_, rfl, hdone, hcount, hplaces, ?_, ?_, htaken⟩
    · rintro rfl
      rw [WriteView.begun_of_atomic _ hop] at hgroups hnext
      exact ⟨hgroups, hnext⟩
    · rintro rfl
      rw [WriteView.begun_of_not_atomic _ (by rw [hop]; decide)] at hgroups
      exact hgroups

end Sys2Proof.Machine
end

section
/-!
SUPPORT. What a step keeps beyond its command: the tick of an empty queue, and the depths of the FIFOs at reset (R103,
R104, R346, R529).
-/
namespace Sys2Proof.Machine

/-- What every command and the tick keep, every step keeps. -/
theorem step_keeps {P : State → Prop} (hpop : ∀ s l, P s → P { s with pending := l }) (htick : ∀ s, P s → P (tick s))
    (hexec : ∀ c s, P s → Out.All P (exec c s)) (s : State) (hs : P s) : Out.All P (step s) := by
  unfold step
  split
  · exact htick s hs
  · exact hexec _ _ (hpop s _ hs)

/-- A tick moves the clock, and Topiary takes from the event FIFOs of the channels (R226, R556). -/
theorem tick_keeps {P : State → Prop} (kChan : KChan P) (kWr : KWr P) (kClock : ∀ s n, P s → P { s with aclk := n })
    (s : State) (hs : P s) : P (tick s) := by
  unfold tick
  split
  · exact hs
  · exact kClock _ _ (when_keeps _ _ _ (State.evServeAll_keeps kChan kWr s) hs)

theorem step_keeps_fifosWithin (s : State) (hs : s.FifosWithin) : Out.All State.FifosWithin (step s) :=
  step_keeps (fun _ _ h => h) (tick_keeps (fun _ _ _ h => h) (fun _ _ _ _ h => h) fun _ _ h => h) exec_keeps_fifosWithin s hs

/-- Settles O6: the tick reaches the channels and the registers alone, and every command keeps the depths. -/
theorem stepsKeepFifosWithinTheirDepths : Obligations.StepsKeepFifosWithinTheirDepths :=
  fun s _ hs hstep => (step_keeps_fifosWithin s hs).next hstep

theorem State.reset_canonical : State.reset.Canonical := by
  have hmem : Memory.wf State.reset.hdg = true := by decide
  exact ⟨hmem, rfl, rfl⟩

/-- After reset every FIFO and every buffer of error records is empty. -/
theorem State.reset_fifosWithin : State.reset.FifosWithin := ⟨Nat.zero_le _, fun _ => Nat.zero_le _, .nil⟩

/-- Settles O5: nothing is stored, and nothing waits in a FIFO. -/
theorem resetIsCanonicalAndWithinItsDepths : Obligations.ResetIsCanonicalAndWithinItsDepths :=
  ⟨State.reset_canonical, State.reset_fifosWithin⟩

end Sys2Proof.Machine
end

section
/-!
SUPPORT. Register accesses outside ACTIVE: which writes wake the complex, what they have of an effect, and what waits for
the clock (R96, R433, R434, R437).
-/
namespace Sys2Proof.Machine

/-! The writes that wake the complex. -/

theorem wakesLow_iff {m : Master} {a w v : Nat} :
    wakesLow m a w v = true ↔
      w = 4 ∧ (isDoorbell a = true ∨ a = 0x1000 ∧ bit v 0 = true ∧ ∀ p, m ≠ .client p) := by
  cases m <;> simp [wakesLow]

/-- R96: a doorbell is one of a pair. -/
theorem exists_pair_of_isDoorbell {a : Nat} (h : isDoorbell a = true) : ∃ k : Fin 64, a = dbAddr k := by
  obtain ⟨hlo, hhi, hoff⟩ := isDoorbell_iff.mp h
  refine ⟨⟨(a - 0x4000) / 0x40, by omega⟩, ?_⟩
  unfold dbAddr
  dsimp only
  omega

theorem State.doorbell_pwr (s : State) (m : Master) (k v : Nat) : (s.doorbell m k v).pwr = s.pwr :=
  State.doorbell_keeps (P := fun t => t.pwr = s.pwr) (fun _ _ _ h => h) (fun _ _ _ h => h) (fun _ _ _ _ h => h) s m k v rfl

theorem State.writePlain_pwr (s : State) (a v : Nat) : (s.writePlain a v).pwr = s.pwr := by
  obtain ⟨-, -, r, l, hw⟩ := s.writePlain_spec a v
  rw [hw]

/-- R437: the effect of a write that wakes the complex leaves the power-state machine to the wake itself. -/
theorem State.regWrite_pwr_of_wakesLow {m : Master} {a w v : Nat} (h : wakesLow m a w v = true) (s : State) :
    (s.regWrite m a w v).pwr = s.pwr := by
  obtain ⟨rfl, hdoor | ⟨rfl, -⟩⟩ := wakesLow_iff.mp h
  · obtain ⟨k, rfl⟩ := exists_pair_of_isDoorbell hdoor
    rw [s.regWrite_doorbell, s.doorbell_pwr]
  · rw [State.regWrite_plain (by decide), s.writePlain_pwr]

/-! The two forms of a register write. -/

theorem exec_registerWrite_of_wakesLow {m : Master} {a w : Nat} {v : W32} (h : wakesLow m a w v.toNat = true) (s : State) :
    exec (.registerWrite m a w v) s = .next (s.accessWake m a (some v.toNat) fun s => s.regWrite m a w v.toNat) :=
  congrArg Host.Outcome.next (if_pos h)

theorem exec_registerWrite_of_not_wakesLow {m : Master} {a w : Nat} {v : W32} (h : wakesLow m a w v.toNat = false)
    (s : State) :
    exec (.registerWrite m a w v) s = .next (s.access m a (some v.toNat) (fun s => s.regWrite m a w v.toNat) w) :=
  congrArg Host.Outcome.next (if_neg (Bool.eq_false_iff.mp h))

/-- In OFF and IDLE a waking write of a master is an access like any other: it is 32 bits wide. -/
theorem accessWake_eq_access {s : State} (h : s.pwr.st = .off ∨ s.pwr.st = .idle) {m : Master} (hm : ∀ p, m ≠ .client p)
    (a : Nat) (v : Option Nat) (f : State → State) : s.accessWake m a v f = s.access m a v f := by
  unfold State.accessWake State.access
  cases m with
  | client p => exact absurd rfl (hm p)
  | port | holly => rcases h with h | h <;> rw [h]

theorem exec_registerWrite_stopped {s : State} (h : s.pwr.st = .off ∨ s.pwr.st = .idle) {m : Master}
    (hm : ∀ p, m ≠ .client p) (a w : Nat) (v : W32) :
    exec (.registerWrite m a w v) s =
      .next (s.access m a (some v.toNat) (fun s => s.regWrite m a w v.toNat) (if wakesLow m a w v.toNat then 4 else w)) := by
  cases hw : wakesLow m a w v.toNat with
  | true => rw [exec_registerWrite_of_wakesLow hw, accessWake_eq_access h hm]; rfl
  | false => rw [exec_registerWrite_of_not_wakesLow hw]; rfl

/-! The obligation. -/

/-- A wake that began keeps its time; else it begins now. -/
theorem wake_eq_some_getD (w : Option Nat) : (if w.isSome then w else some 0) = some (w.getD 0) := by
  cases w <;> rfl

theorem access_idle_held {s : State} (h : s.pwr.st = .idle) {m : Master} (hm : ∀ p, m ≠ .client p) (a : Nat)
    (v : Option Nat) (f : State → State) (w : Nat) :
    s.access m a v f w = { s with pwr := { s.pwr with
      held := s.pwr.held ++ [{ m := m, addr := a, v := v, width := w }]
      waking := some (s.pwr.waking.getD 0) } } := by
  rw [access_idle h hm, ← wake_eq_some_getD]
  rfl

/-- Settles O9, power state by power state. -/
theorem accessesFollowThePowerState : Obligations.AccessesFollowThePowerState := by
  intro m a w v s
  have hread : exec (.rcRegisterRead m a w) s = .next (s.access m a none (fun s => s.regRead m false a w) w) := rfl
  refine ⟨fun hoff hm => ?_, fun hlow => ⟨fun hw => ?_, ?_, fun hw => ?_⟩, fun hidle hm => ?_, fun p hp hw => ?_⟩
  · rw [hread, exec_registerWrite_stopped (.inl hoff) hm, access_off hoff hm, access_off hoff hm]
    exact ⟨rfl, rfl⟩
  · rw [exec_registerWrite_of_not_wakesLow hw, access_low hlow]
  · rw [hread, access_low hlow]
  · refine ⟨_, exec_registerWrite_of_wakesLow hw s, ?_⟩
    rw [accessWake_low hlow, State.onPwr_pwr, State.regWrite_pwr_of_wakesLow hw, State.fresh_pwr, wake_eq_some_getD]
  · rw [hread, exec_registerWrite_stopped (.inr hidle) hm, access_idle_held hidle hm, access_idle_held hidle hm]
    exact ⟨rfl, rfl⟩
  · subst hp
    rw [hread, exec_registerWrite_of_not_wakesLow hw, access_client, access_client]
    exact ⟨rfl, rfl⟩

end Sys2Proof.Machine
end

section
/-!
SUPPORT. A doorbell write of a pair: foreign, refused or taken (R95 to R97).
-/
namespace Sys2Proof.Machine

/-- R96: a port that does not own the pair. -/
theorem State.doorbell_foreign {m : Master} {k : Nat} (h : ∃ p : Fin 4, m = .client p ∧ p.val ≠ k / 16) (s : State) (v : Nat) :
    s.doorbell m k v = s.err1 clsContained 1 3 0 0 k := by
  obtain ⟨p, rfl, hp⟩ := h
  simp [State.doorbell, hp]

/-- R97: a disabled pair refuses the write: nothing of it is outstanding, or the write would move the SQ tail. -/
def State.dbClosed (s : State) (k v : Nat) : Bool := !s.is (Reg.QUE_CFG_ENABLE k) && (!s.pairBusy k || bit v 12)

/-- R95, R97: a doorbell write of the pair's own port, or of no client port. -/
theorem State.doorbell_own {m : Master} {k : Nat} (h : ∀ p : Fin 4, m = .client p → p.val = k / 16) (s : State) (v : Nat) :
    s.doorbell m k v =
      if s.dbClosed k v then s.dbReject k
      else if !s.dbLegal k v then s.dbReject k
      else s.onPair k fun p => { p with
        sqTail := if bit v 12 then bits v 0 12 else p.sqTail
        cqHead := if bit v 28 then bits v 16 12 else p.cqHead } := by
  cases m with
  | client p =>
    have hforeign : ¬ (p.val != k / 16) = true := by simp [h p rfl]
    exact if_neg hforeign
  | port | holly => rfl

theorem State.dbClosed_iff {s : State} {k v : Nat} :
    s.dbClosed k v = true ↔ s.is (Reg.QUE_CFG_ENABLE k) = false ∧ ((s.pair k).claimed = 0 ∨ bit v 12 = true) := by
  simp [State.dbClosed, State.pairBusy]

theorem State.dbLegal_iff {s : State} {k v : Nat} :
    s.dbLegal k v = true ↔
      (bit v 12 = true → bits v 0 12 < s.sqSize k) ∧
      (bit v 28 = true → bits v 16 12 < s.cqSize k ∧
        (bits v 16 12 + s.cqSize k - (s.pair k).cqHead) % s.cqSize k ≤ s.cqFill k) := by
  have hvalid (b : Bool) (P : Prop) [Decidable P] : (!b || decide P) = true ↔ (b = true → P) := by
    cases b with
    | true => exact decide_eq_true_iff.trans ⟨fun h _ => h, fun h => h rfl⟩
    | false => exact ⟨fun _ h => absurd h Bool.false_ne_true, fun _ => rfl⟩
  unfold State.dbLegal
  simp only [← Bool.decide_and]
  exact Bool.and_eq_true_iff.trans (and_congr (hvalid _ _) (hvalid _ _))

/-- Both rows of a doorbell are one access; while CCLK runs it has its effect at once. -/
theorem exec_doorbell_active {m : Master} {k : Fin 64} {v : W32} {c : Instr} {s : State}
    (hc : c = .queDoorbellSqtail m k v ∨ c = .queDoorbellCqhead m k v) (hs : s.pwr.st = .active) :
    exec c s = .next (s.fresh.doorbell m k v.toNat) := by
  have heff := accessWake_active hs m (dbAddr k) (some v.toNat) fun s => s.doorbell m k v.toNat
  rcases hc with rfl | rfl
  · exact congrArg Host.Outcome.next heff
  · exact congrArg Host.Outcome.next heff

/-- Settles O14: the pair's own port meets `State.dbClosed` and `State.dbLegal`, a foreign one neither. -/
theorem doorbellsMoveOnlyLegalPointers : Obligations.DoorbellsMoveOnlyLegalPointers := by
  intro m k v c s hc hs
  rw [exec_doorbell_active hc hs]
  refine ⟨fun hforeign => ?_, fun hown hopen htail hhead => ?_, fun hown hrefused => ?_⟩
  · rw [State.doorbell_foreign hforeign]
  · have hclosed : ¬ s.fresh.dbClosed k v.toNat = true := by
      rw [State.dbClosed_iff]
      rintro ⟨hoff, hidle⟩
      rcases hopen with hon | ⟨hbusy, hcq⟩
      · exact Bool.false_ne_true (hoff.symm.trans hon)
      · exact hidle.elim hbusy (by simp [hcq])
    have hlegal : s.fresh.dbLegal k v.toNat = true := State.dbLegal_iff.mpr ⟨htail, hhead⟩
    rw [State.doorbell_own hown, if_neg hclosed, if_neg (by simp [hlegal])]
  · rw [State.doorbell_own hown]
    rcases hrefused with hclosed | hillegal
    · exact congrArg _ (if_pos (State.dbClosed_iff.mpr hclosed))
    · have hlegal : ¬ s.fresh.dbLegal k v.toNat = true := fun hlegal => by
        obtain ⟨htail, hhead⟩ := State.dbLegal_iff.mp hlegal
        rcases hillegal with ⟨hv, hbig⟩ | ⟨hv, hbig⟩
        · exact Nat.not_lt.mpr hbig (htail hv)
        · obtain ⟨hsize, hfill⟩ := hhead hv
          exact hbig.elim (Nat.not_le.mpr hsize) (Nat.not_lt.mpr hfill)
      rw [if_pos (c := (!s.fresh.dbLegal k v.toNat) = true) (by simpa using hlegal), ite_self]
      rfl

end Sys2Proof.Machine
end

section
/-!
SUPPORT. A write of PL_QUEk_CFG: which fields it changes, the settings that make a pair valid, and what enabling and
disabling leave (R94, R101, R102).
-/
namespace Sys2Proof.Machine

/-! Fields that lie apart. -/

theorem Reg.lsb_lt {F : Fld} (h : F ∈ Reg.all) : F.lsb < 32 := by
  have hfit : F.lsb + F.width ≤ 32 := by simpa using List.all_eq_true.mp Reg.all_fit F h
  have hwidth := Reg.rises_width Reg.all_rises h
  omega

/-- A write of a field leaves every field of another register, or at another place of the same, as it reads. -/
theorem State.rd_wr_apart (s : State) {F G : Fld} (v : Nat) (hF : F.lsb < 32) (hG : G.lsb < 32)
    (h : G.addr = F.addr → G.lsb ≠ F.lsb) : (s.wr F v).rd G = s.rd G := by
  refine s.rd_wr_ne v fun hkey => ?_
  have hat : G.addr = F.addr ∧ G.lsb = F.lsb := by
    unfold Fld.key at hkey
    split at hkey <;> split at hkey <;> omega
  exact h hat.1 hat.2

/-- A field outside the places of a register that p lists keeps its value where a field at one of them is written. -/
theorem State.rd_wr_place {p : Nat → Bool} {a : Nat} {F G : Fld} (hF : F.lsb < 32) (h : F.addr = a → p F.lsb = false)
    (ha : G.addr = a) (hG : (decide (G.lsb < 32) && p G.lsb) = true) (s : State) (v : Nat) :
    (s.wr G v).rd F = s.rd F := by
  obtain ⟨hfit, hp⟩ := Bool.and_eq_true_iff.mp hG
  refine s.rd_wr_apart v (of_decide_eq_true hfit) hF fun e hlsb => ?_
  have hout := h (e.trans ha)
  rw [hlsb, hp] at hout
  cases hout

theorem State.rd_when (s : State) (b : Bool) (f : State → State) (F : Fld) :
    (s.when b f).rd F = if b then (f s).rd F else s.rd F := by
  cases b <;> rfl

theorem State.is_eq_of_rd {s t : State} {F : Fld} (h : t.rd F = s.rd F) : t.is F = s.is F := by
  unfold State.is
  rw [h]

theorem State.is_wr_zero (s : State) (F : Fld) : (s.wr F 0).is F = false := by
  unfold State.is
  rw [State.rd_wr_self, Nat.zero_mod]
  rfl

/-- A flag that a bit of a word was written to. -/
theorem bits_one_ne_zero (v i : Nat) : (bits v i 1 != 0) = bit v i := by
  rw [bit, Nat.testBit_eq_decide_div_mod_eq, bits, Nat.shiftRight_eq_div_pow]
  have hlt : v / 2 ^ i % 2 ^ 1 < 2 := Nat.mod_lt _ (by decide)
  by_cases h : v / 2 ^ i % 2 = 1
  · simp [h]
  · have h0 : v / 2 ^ i % 2 = 0 := by omega
    simp [h0]

/-! The pair. -/

theorem State.pair_congr {s t : State} (h : t.que = s.que) (k : Nat) : t.pair k = s.pair k := by
  unfold State.pair
  rw [h]

theorem State.pair_onPair (s : State) (k j : Nat) (f : QPair → QPair) :
    (s.onPair k f).pair j = if j = k then f (s.pair k) else s.pair j :=
  tget_tset _ _ _ _ _

@[simp] theorem State.onPair_rd (s : State) (k : Nat) (f : QPair → QPair) (F : Fld) : (s.onPair k f).rd F = s.rd F := rfl

/-- R101: a disabled pair is settled by what it has outstanding. -/
theorem State.pairSettle_of_disabled {s : State} {k : Nat} (h : s.is (Reg.QUE_CFG_ENABLE k) = false) :
    s.pairSettle k = if (s.pair k).claimed = 0 then s.onPair k fun _ => {} else s := by
  simp [State.pairSettle, State.pairBusy, h]

theorem State.pairSettle_rd (s : State) (k : Nat) (F : Fld) : (s.pairSettle k).rd F = s.rd F := by
  unfold State.pairSettle
  split <;> rfl

/-! The parts of a write of CFG. -/

/-- The places of CFG that hold levels and sticky bits. -/
def queLevelAt (l : Nat) : Bool := decide (12 ≤ l)
/-- The places of CFG that hold the settings of the rings. -/
def queSettingAt (l : Nat) : Bool := [1, 2, 4, 8].contains l

section
variable {k : Nat} {F : Fld} (hF : F.lsb < 32) (s : State) (v : Nat)
include hF

theorem State.queLevels_rd (h : F.addr = 0x4008 + 0x40 * k → queLevelAt F.lsb = false) :
    (s.queLevels k v).rd F = s.rd F := by
  have hwr {G : Fld} := State.rd_wr_place (G := G) hF h
  unfold State.queLevels
  rw [State.rd_when, hwr rfl rfl, ite_self, State.rd_when, hwr rfl rfl, ite_self, State.rd_when, hwr rfl rfl, ite_self,
    hwr rfl rfl, hwr rfl rfl]

theorem State.queSettings_rd (h : F.addr = 0x4008 + 0x40 * k → queSettingAt F.lsb = false) :
    (s.queSettings k v).rd F = s.rd F := by
  have hwr {G : Fld} := State.rd_wr_place (G := G) hF h
  unfold State.queSettings
  rw [hwr rfl rfl, hwr rfl rfl, hwr rfl rfl, hwr rfl rfl]

end

theorem State.queSettings_taken (s : State) (k v : Nat) :
    (s.queSettings k v).rd (Reg.QUE_CFG_SQ_LOC k) = bits v 1 1 ∧ (s.queSettings k v).rd (Reg.QUE_CFG_CQ_LOC k) = bits v 2 1 ∧
    (s.queSettings k v).rd (Reg.QUE_CFG_SQ_SIZE k) = bits v 4 4 ∧
    (s.queSettings k v).rd (Reg.QUE_CFG_CQ_SIZE k) = bits v 8 4 := by
  -- the settings are written in the order of their places, so a later one leaves those before it
  have later {F G : Fld} (hF : decide (F.lsb < 32) = true) (ha : G.addr = 0x4008 + 0x40 * k)
      (hG : (decide (G.lsb < 32) && decide (F.lsb < G.lsb)) = true) (t : State) (x : Nat) : (t.wr G x).rd F = t.rd F :=
    State.rd_wr_place (p := fun l => decide (F.lsb < l)) (of_decide_eq_true hF) (fun _ => by simp) ha hG t x
  unfold State.queSettings
  refine ⟨?_, ?_, ?_, ?_⟩
  · rw [later rfl rfl rfl, later rfl rfl rfl, later rfl rfl rfl, State.rd_wr_self]
    exact bits_mod v 1 1
  · rw [later rfl rfl rfl, later rfl rfl rfl, State.rd_wr_self]
    exact bits_mod v 2 1
  · rw [later rfl rfl rfl, State.rd_wr_self]
    exact bits_mod v 4 4
  · rw [State.rd_wr_self]
    exact bits_mod v 8 4

/-! Enabling. -/

/-- A write that finds the pair disabled has taken its levels and its settings. -/
def State.queTaken (s : State) (k v : Nat) : State := (s.queLevels k v).queSettings k v

theorem State.queTaken_rd {k : Nat} {F : Fld} (hF : F.lsb < 32)
    (h : F.addr = 0x4008 + 0x40 * k → (queLevelAt F.lsb || queSettingAt F.lsb) = false) (s : State) (v : Nat) :
    (s.queTaken k v).rd F = s.rd F := by
  unfold State.queTaken
  rw [State.queSettings_rd hF _ _ fun e => (Bool.or_eq_false_iff.mp (h e)).2,
    State.queLevels_rd hF _ _ fun e => (Bool.or_eq_false_iff.mp (h e)).1]

theorem State.queTaken_que (s : State) (k v : Nat) : (s.queTaken k v).que = s.que :=
  State.queSettings_keeps (P := fun t => t.que = s.que) (fun _ _ _ _ h => h) _ k v
    (State.queLevels_keeps (P := fun t => t.que = s.que) (fun _ _ _ _ h => h) s k v rfl)

/-- R94: whether a ring lies where it may depends on the use of the store's regions alone. -/
theorem State.ringOk_congr {s t : State} (h : ∀ i, i ≤ 32 → t.rd (Reg.HDG_RGN_USE i) = s.rd (Reg.HDG_RGN_USE i))
    (dram : Bool) (base n : Nat) : t.ringOk dram base n = s.ringOk dram base n := by
  unfold State.ringOk
  by_cases hfit : base * 64 + n ≤ hdgSize
  · have hregion : hRegion (base * 64) ≤ 32 := by
      unfold hRegion
      unfold hdgSize at hfit
      omega
    rw [h _ hregion]
  · simp [hfit]

/-- R94, R102: the settings that a write carries are valid. -/
theorem State.queValid_queTaken {s : State} {k v : Nat} :
    (s.queTaken k v).queValid k = true ↔
      4 ≤ bits v 4 4 ∧ bits v 4 4 ≤ 12 ∧ 4 ≤ bits v 8 4 ∧ bits v 8 4 ≤ 12 ∧
      s.ringOk (bit v 1) (s.rd (Reg.QUE_SQBASE_BASE k)) (64 * 2 ^ bits v 4 4) = true ∧
      s.ringOk (bit v 2) (s.rd (Reg.QUE_CQBASE_BASE k)) (32 * 2 ^ bits v 8 4) = true := by
  obtain ⟨hsqloc, hcqloc, hsqsize, hcqsize⟩ := (s.queLevels k v).queSettings_taken k v
  have hring := State.ringOk_congr (s := s) (t := s.queTaken k v) fun i hi =>
    State.queTaken_rd (Nat.zero_lt_succ _) (fun e => absurd (show 0x3000 + 4 * i = _ from e) (by omega)) s v
  have hsq : (s.queTaken k v).rd (Reg.QUE_SQBASE_BASE k) = s.rd (Reg.QUE_SQBASE_BASE k) :=
    State.queTaken_rd (Nat.zero_lt_succ _) (fun _ => rfl) s v
  have hcq : (s.queTaken k v).rd (Reg.QUE_CQBASE_BASE k) = s.rd (Reg.QUE_CQBASE_BASE k) :=
    State.queTaken_rd (Nat.zero_lt_succ _) (fun _ => rfl) s v
  unfold State.queValid State.is
  dsimp only
  rw [hring, hring, hsq, hcq]
  unfold State.queTaken
  rw [hsqloc, hcqloc, hsqsize, hcqsize, bits_one_ne_zero, bits_one_ne_zero]
  simp only [Bool.and_eq_true, decide_eq_true_eq, and_assoc]

section
variable {s : State} {k v : Nat} (hoff : s.is (Reg.QUE_CFG_ENABLE k) = false) (hv : bit v 0 = true)
include hoff hv

theorem State.queCfg_enable :
    s.queCfg k v =
      if (s.queTaken k v).queValid k then
        ((s.queTaken k v).setb (Reg.QUE_CFG_ENABLE k)).onPair k fun p => { claimed := p.claimed }
      else (s.queTaken k v).setb (Reg.QUE_CFG_CFG_ERR k) := by
  unfold State.queCfg
  dsimp only
  rw [if_neg (by simp [hoff]), if_pos hv]
  rfl

/-- R102: ENABLE and CFG_ERR tell how the settings were taken; everything else is as the write left it. -/
theorem State.queCfg_enable_rd {F : Fld} (hF : F.lsb < 32)
    (h : F.addr = 0x4008 + 0x40 * k → [0, 30].contains F.lsb = false) :
    (s.queCfg k v).rd F = (s.queTaken k v).rd F := by
  rw [State.queCfg_enable hoff hv]
  split
  · rw [State.onPair_rd]
    exact State.rd_wr_place (G := Reg.QUE_CFG_ENABLE k) hF h rfl rfl _ _
  · exact State.rd_wr_place (G := Reg.QUE_CFG_CFG_ERR k) hF h rfl rfl _ _

theorem State.queCfg_enable_is : (s.queCfg k v).is (Reg.QUE_CFG_ENABLE k) = (s.queTaken k v).queValid k := by
  rw [State.queCfg_enable hoff hv]
  split
  case isTrue hvalid => exact (State.is_setb_self _ _ rfl).trans hvalid.symm
  case isFalse hvalid =>
    have hkept : ((s.queTaken k v).setb (Reg.QUE_CFG_CFG_ERR k)).rd (Reg.QUE_CFG_ENABLE k) = s.rd (Reg.QUE_CFG_ENABLE k) :=
      (State.rd_wr_place (p := (· == 30)) (G := Reg.QUE_CFG_CFG_ERR k) (Nat.zero_lt_succ _) (fun _ => rfl) rfl rfl _ _).trans
        (State.queTaken_rd (Nat.zero_lt_succ _) (fun _ => rfl) s v)
    rw [State.is_eq_of_rd hkept, hoff, Bool.eq_false_iff.mpr hvalid]

/-- R102: what a write that sets ENABLE leaves of the queue. -/
theorem State.queCfg_enable_que :
    ((s.queCfg k v).is (Reg.QUE_CFG_ENABLE k) = true → (s.queCfg k v).pair k = { claimed := (s.pair k).claimed }) ∧
    ((s.queCfg k v).is (Reg.QUE_CFG_ENABLE k) = false →
      (s.queCfg k v).rd (Reg.QUE_CFG_CFG_ERR k) = 1 ∧ (s.queCfg k v).que = s.que) := by
  rw [State.queCfg_enable_is hoff hv, State.queCfg_enable hoff hv]
  refine ⟨fun hvalid => ?_, fun hvalid => ?_⟩
  · have hpair : (s.queTaken k v).pair k = s.pair k := State.pair_congr (s.queTaken_que k v) k
    rw [if_pos hvalid, State.pair_onPair, if_pos rfl, ← hpair]
    rfl
  · rw [if_neg (by simp [hvalid])]
    exact ⟨State.rd_wr_self _ _ 1, s.queTaken_que k v⟩

end

/-! Disabling. -/

section
variable {s : State} {k v : Nat} (hon : s.is (Reg.QUE_CFG_ENABLE k) = true) (hv : bit v 0 = false)
include hon hv

theorem State.queCfg_disable : s.queCfg k v = ((s.queLevels k v).wr (Reg.QUE_CFG_ENABLE k) 0).pairSettle k := by
  unfold State.queCfg
  dsimp only
  rw [if_pos hon, if_neg (by simp [hv])]

theorem State.queCfg_disable_is : (s.queCfg k v).is (Reg.QUE_CFG_ENABLE k) = false := by
  rw [State.queCfg_disable hon hv, State.is_eq_of_rd (State.pairSettle_rd _ k _), State.is_wr_zero]

/-- R101: the settings of the pair stay, and every other register. -/
theorem State.queCfg_disable_rd {F : Fld} (hF : F.lsb < 32)
    (h : F.addr = 0x4008 + 0x40 * k → (queLevelAt F.lsb || F.lsb == 0) = false) : (s.queCfg k v).rd F = s.rd F := by
  rw [State.queCfg_disable hon hv, State.pairSettle_rd,
    State.rd_wr_place (p := (· == 0)) (G := Reg.QUE_CFG_ENABLE k) hF (fun e => (Bool.or_eq_false_iff.mp (h e)).2) rfl rfl,
    State.queLevels_rd hF _ _ fun e => (Bool.or_eq_false_iff.mp (h e)).1]

/-- R101: the pointers of a pair with nothing outstanding go to 0; a busy pair keeps its own. -/
theorem State.queCfg_disable_que :
    ((s.pair k).claimed ≠ 0 → (s.queCfg k v).que = s.que) ∧ ((s.pair k).claimed = 0 → (s.queCfg k v).pair k = {}) := by
  have hque : ((s.queLevels k v).wr (Reg.QUE_CFG_ENABLE k) 0).que = s.que :=
    State.queLevels_keeps (P := fun t => t.que = s.que) (fun _ _ _ _ h => h) s k v rfl
  have hpair : ((s.queLevels k v).wr (Reg.QUE_CFG_ENABLE k) 0).pair k = s.pair k := State.pair_congr hque k
  rw [State.queCfg_disable hon hv, State.pairSettle_of_disabled (State.is_wr_zero _ _), hpair]
  refine ⟨fun hbusy => ?_, fun hidle => ?_⟩
  · rw [if_neg hbusy, hque]
  · rw [if_pos hidle, State.pair_onPair, if_pos rfl]

end

/-! The obligation. -/

/-- R102: the bases of a pair. -/
theorem State.regWrite_queBase {a : Nat} {k : Fin 64} (ha : a = 0x4000 + 0x40 * k.val ∨ a = 0x4004 + 0x40 * k.val) (s : State)
    (m : Master) (v : Nat) :
    s.regWrite m a 4 v = if s.is (Reg.QUE_CFG_ENABLE k) then s else s.writePlain a v := by
  have hb : a / 0x1000 = 4 := by omega
  have hk : (a - 0x4000) / 0x40 = k := by omega
  have ho : a % 0x40 = 0 ∨ a % 0x40 = 4 := by omega
  rw [s.regWrite_low (by omega) (by omega)]
  rcases ho with ho | ho <;> simp only [State.writeBlock, hb, State.writeQue, ho, hk]

/-- Both rows of CFG are one access; one that is served has its effect at once. -/
theorem exec_queEnable_served {s : State} {m : Master} (h : Served s m) (k : Fin 64) (v : W32) :
    exec (.queEnable m k v) s = .next (s.fresh.queCfg k v.toNat) ∧
    exec (.queDisable m k v) s = .next (s.fresh.queCfg k v.toNat) :=
  have heff := congrArg Host.Outcome.next (access_served h (0x4008 + 0x40 * k) (some v.toNat) (fun s => s.queCfg k v.toNat) 4)
  ⟨heff, heff⟩

theorem State.fresh_queCfg_sameBut (s : State) (k v : Nat) : SameBut [.regs, .que, .resp] s (s.fresh.queCfg k v) :=
  State.queCfg_keeps (keptButQue rfl) (keptButWr rfl) _ _ _ (.fresh rfl s)

/-- Settles O15: a write of CFG is `State.queCfg`, which enables or disables; a write of a base asks first whether the pair
is enabled. -/
theorem queuePairsAreEnabledAndDisabled : Obligations.QueuePairsAreEnabledAndDisabled := by
  intro m k v s hS
  obtain ⟨hexecOn, hexecOff⟩ := exec_queEnable_served hS k v
  have hlt {n : Nat} (h : decide (n < 32) = true) := of_decide_eq_true h
  have hsame := s.fresh_queCfg_sameBut k v.toNat
  refine ⟨fun hoff hv => ?_, fun hon hv => ?_, fun hon => ?_⟩
  · have hrd {F : Fld} := State.queCfg_enable_rd (s := s.fresh) (F := F) hoff hv
    obtain ⟨hpair, herr⟩ := State.queCfg_enable_que (s := s.fresh) hoff hv
    obtain ⟨hsqloc, hcqloc, hsqsize, hcqsize⟩ := (s.fresh.queLevels k v.toNat).queSettings_taken k v.toNat
    have hvalid := State.queValid_queTaken (s := s.fresh) (k := k) (v := v.toNat)
    rw [← State.queCfg_enable_is (s := s.fresh) hoff hv] at hvalid
    refine ⟨_, hexecOn, hvalid, hpair, herr, (hrd (hlt rfl) fun _ => rfl).trans hsqloc, (hrd (hlt rfl) fun _ => rfl).trans hcqloc,
      (hrd (hlt rfl) fun _ => rfl).trans hsqsize, (hrd (hlt rfl) fun _ => rfl).trans hcqsize, fun F hF ha => ?_, hsame⟩
    exact (hrd (Reg.lsb_lt hF) fun e => absurd e ha).trans (State.queTaken_rd (Reg.lsb_lt hF) (fun e => absurd e ha) _ _)
  · have hrd {F : Fld} := State.queCfg_disable_rd (s := s.fresh) (F := F) hon hv
    obtain ⟨hbusy, hidle⟩ := State.queCfg_disable_que (s := s.fresh) hon hv
    exact ⟨_, hexecOff, State.queCfg_disable_is (s := s.fresh) hon hv, hbusy, hidle, hrd (hlt rfl) fun _ => rfl,
      hrd (hlt rfl) fun _ => rfl, hrd (hlt rfl) fun _ => rfl, hrd (hlt rfl) fun _ => rfl,
      fun F hF ha => hrd (Reg.lsb_lt hF) fun e => absurd e ha, hsame⟩
  · rw [exec_registerWrite_served hS, exec_registerWrite_served hS, State.regWrite_queBase (.inl rfl),
      State.regWrite_queBase (.inr rfl)]
    exact ⟨congrArg _ (if_pos hon), congrArg _ (if_pos hon)⟩

end Sys2Proof.Machine
end
